-- ==== Sys2Proof/Word.lean ====
section
/-! DEFINITION. The words of the Zolan machine: a 64-bit lane value, a byte, a 32-lane mask, and the fixed sizes of an
operand code, an instruction word and the mode register (R10, R12, R58, R65). Plain arithmetic is that of `BitVec`. -/

namespace Sys2Proof

/-- A 64-bit lane element, s register or address (R10, R29). -/
abbrev Word := BitVec 64

/-- One byte of an address space, or of a predicate register (R4, R29). -/
abbrev Byte := BitVec 8

/-- A lane mask: bit `l` is lane `l` of 0 to 31 (R12). -/
abbrev Mask := BitVec 32

/-- An 8-bit operand code (R60). -/
abbrev OpCode := BitVec 8

/-- A 32-bit word of a bundle: a schedule word, an instruction or a literal (R54). -/
abbrev Word32 := BitVec 32

/-- The 24-bit mode register (R65). -/
abbrev ModeReg := BitVec 24

end Sys2Proof
end

