-- ==== Sys2Proof/Config.lean ====
section
/-! DEFINITION. What the part fixes (cause codes, scopes, element types, the module's figures) and the values the spec
leaves free, which are opaque constants with no body. -/

namespace Sys2Proof

/-- The cause codes of R53. The codes 0x3E and 0x3F are reserved and never raised. -/
inductive Cause where
  | none | illegalOpcode | reservedField | literalSlot | regBudget | repBudget | modeInvalid | privileged
  | misaligned | pageNotPresent | writeProtect | copyOnWrite | execProtect | illegalAddress | sealedStore | scratchGuard
  | scratchRange | remoteScratchGone | tileMisaligned | tileOverlapSelf | weightWrite | pinLost | mfmtInvalid | quadNotFormed
  | batchUnknown | accBusy | stageBarrier | fragmentOverflow | barrierUnsatisfiable | barrierMisuse | setFull | setMisuse
  | divideByZero | fpException | wlNoDomain | wlSpillFull | wlRedundant | evqOverflow | copyBadDesc | multicastUnarmed
  | haloTable | fabricDown | txNested | lresScope | atomicNc | exactCellRange | checkHoldFull | checkUnresolved
  | checkFencedCore | powerKill | preemptTimeout | safepointTable | doubleFault | haltRequest | debugBreak | watchpoint
  | traceStop | softwareTrap | contextReset | vfReset | replayMismatch | machineCheck
  deriving DecidableEq, Repr

/-- The cause's 6-bit code (R53): the causes stand in the order of their codes. -/
def Cause.code (c : Cause) : Nat := c.ctorIdx

/-- How a cause is delivered (R49): to the handler, as a context error, as the kernel's completion status, or as a page
fault queued to the host. -/
inductive Delivery where
  | handler | contextError | completion | pageFault
  deriving DecidableEq, Repr

/-- The delivery column of R53's table. -/
def Cause.delivery : Cause → Delivery
  | .pageNotPresent | .writeProtect | .copyOnWrite => .pageFault
  | .execProtect | .evqOverflow | .checkHoldFull | .safepointTable | .doubleFault | .machineCheck => .contextError
  | .none | .wlRedundant | .fabricDown | .checkUnresolved | .checkFencedCore | .powerKill | .preemptTimeout
  | .contextReset | .vfReset | .replayMismatch => .completion
  | _ => .handler

/-- Causes whose TRET point is the instruction after the faulting one (R53, "next"). -/
def Cause.resumesNext : Cause → Bool
  | .repBudget | .debugBreak | .watchpoint | .traceStop | .softwareTrap => true
  | _ => false

/-- Causes marked restartable in R53. -/
def Cause.restartable : Cause → Bool
  | .pinLost | .accBusy | .setFull => true
  | _ => false

/-- Causes whose Precise column of R53 is P. -/
def Cause.precise : Cause → Bool
  | .none | .scratchGuard | .wlRedundant | .evqOverflow | .fabricDown | .exactCellRange | .checkHoldFull | .checkUnresolved
  | .checkFencedCore | .powerKill | .preemptTimeout | .haltRequest | .contextReset | .vfReset | .replayMismatch
  | .machineCheck => false
  | _ => true

/-- Element types (R65): the ETYPE codes 0x0 to 0xD in order. -/
inductive EType where
  | i64 | i32x2 | i16x4 | i8x8 | n64 | n32x2 | n16x4 | n8x8 | f64 | f32x2 | f16x4 | bf16x4 | t8x8 | t6x10
  deriving DecidableEq, Repr

/-- Rounding modes (R87): the RND codes 0 to 4 in order. -/
inductive Rnd where
  | rne | rtz | rup | rdn | rna
  deriving DecidableEq, Repr

namespace Config

/-- Lanes of a wave (R12). -/
def lanes : Nat := 32
/-- Core clocks of one microsecond at the nominal 2.0 GHz clock (R2, R419). -/
def clocksPerUs : Nat := 2000
/-- Cores, groves and dies of the package (R14). -/
def cores : Nat := 1024
def groves : Nat := 128
def dies : Nat := 4
def coresPerGrove : Nat := 8
def grovesPerDie : Nat := 32
def partitions : Nat := 16
def waveSlots : Nat := 8
/-- Register rows of one partition (R16). -/
def regRows : Nat := 256
/-- Scratchpad bytes of one core (R16): 768 KiB. -/
def scratchBytes : Nat := 786432
/-- Packets and records that the collector of one die queues (R413). -/
def collectorPlaces : Nat := 4096
/-- Bytes of one die's weight store (R212): 384 MiB. -/
def weightBytes : Nat := 0x18000000
/-- Entries of the retirement tracker of a core (R16, R36). -/
def trackerEntries : Nat := 64
/-- Bytes of a wave's save slot (R389): 40 KiB. -/
def saveSlotBytes : Nat := 40960
/-- L2 slices of the package (R14). -/
def l2Slices : Nat := 320

/-- FREE VALUE. The device's random source, from which k of a sampled redundancy level is drawn (R351). The argument
counts the draws. -/
opaque randomDraw : Nat → Nat
/-- FREE VALUE. The rounding mode in force under a reserved RND code, which only a TRET can install: the number of one of the
five modes of R87. The argument is the code (R8, R45, R66). -/
opaque reservedRnd : Nat → Fin 5
/-- FREE VALUE. Which of the lines of a full L2 set that may go is evicted: the spec gives no order of replacement. The
argument counts (R14, R374). -/
opaque evicted : Nat → Nat
/-- FREE VALUE. Where the launch engine looks for a block's owner identifier: it gives the first one from there on that no
block of a live launch has (R154). The argument counts the blocks. -/
opaque ownerDraw : Nat → Nat
/-- FREE VALUE. What a restored wave's registers hold before its restore routine writes them (R40, R41): by a count, the
register file (0 v, 1 s, 2 p) and the place in it. -/
opaque restoredReg : Nat → Nat → Nat → Nat
/-- FREE VALUE. What a run that departs from its original's atomic log is answered (R264). The arguments are the address
and a count. -/
opaque unloggedValue : Word → Nat → Nat
/-- FREE VALUE. What a peer chip answers to a face (R314): 0 it takes it, 1 it refuses it whole, 2 its barrier is malformed
or of kind 1. The argument counts the faces. -/
opaque peerVerdict : Nat → Fin 3
/-- FREE VALUE. A chip of the Canopy group runs a launch that names a GROUP domain's number, and so is a member of it (R327,
R346). The arguments are the chip and the number. -/
opaque domainMember : Nat → Nat → Bool
/-- FREE VALUE. The elements of a tile between its reformatting and the group or load that then sets it (R268). The
arguments are a count and the element. -/
opaque reformedElem : Nat → Nat → Nat
/-- FREE VALUE. The safe-point number of the record of a path that has no current safe point (R32, R40). -/
opaque noSafePoint : Nat
/-- FREE VALUE. The module's signing key, which the spec does not give (R369). -/
opaque moduleKey : Nat
/-- FREE VALUE. The secret number of a signature (R369), the signer's choice: by the signed text and the number of the
attempt. -/
opaque signNonce : List Byte → Nat → Nat
/-- FREE VALUE. The module key's certificate chain (R433), which the spec does not give. -/
opaque certificateChain : List Byte
/-- FREE VALUE. The module's serial number (R369), 16 ASCII bytes, and its key identifier. -/
opaque serialNumber : List Byte
opaque keyIdentifier : Word
/-- FREE VALUE. The firmware version a STATE answer names (R433). The argument is the stored image's bytes. -/
opaque firmwareVersion : List Byte → Nat
/-- FREE VALUE. A range of physical addresses lies in host memory, whose map the spec does not give (R438). The arguments are
its base and length. -/
opaque inHostMemory : Nat → Nat → Bool
/-- FREE VALUE. Whether a firmware image passes the check against the vendor key (R437, R438), which the spec does not
give. The argument is the image's bytes. -/
opaque imageSignatureGood : List Byte → Bool

/-- FREE VALUE. The grove an excursion entry of the health record names when no single grove of the chip caused the event
(R369). The argument counts the entries. -/
opaque unnamedGrove : Nat → Nat

/-- FREE VALUE. The bytes of a new firmware image in host memory, which is no part of the device (R438). The arguments are
the physical base, the length and a count of image writes. -/
opaque hostImage : Nat → Nat → Nat → List Byte

end Config
end Sys2Proof
end

