-- ==== Sys2Proof/Syntax.lean ====
section
/-! DEFINITION. The steps of the part: one constructor per row of the opcode table. The first group is the Zolan
instructions (R69 to R74), with the operand codes, immediates and literal of their words. The second group is the
device's events and the actions of the host, the fabric and the management port, which have no word. -/

namespace Sys2Proof

/-- A step of the machine. `d`, `a`, `b` are operand codes or 8-bit immediates of the D, A and B fields; `lit` is the
literal in the next slot. -/
inductive Instr where
  -- sequencer (R69)
  | nop
  | setmode (lit : Word32)
  | getmode (d : OpCode)
  | rep (count stride : Byte)
  | bra (off : BitVec 24)
  | brp (p : OpCode) (off : BitVec 16)
  | bru (u : OpCode) (off : BitVec 16)
  | jmpi (a : OpCode)
  | call (d : OpCode) (off : BitVec 16)
  | calli (d a : OpCode)
  | ret (a : OpCode)
  | rjoin (token : BitVec 16)
  | exit
  | tail
  | yield
  | waitf (n : Byte) (flags : BitVec 16)
  | setjoin (d a : OpCode)
  | setleave (a : OpCode)
  | arrive (a b : OpCode)
  | waitb (d a : OpCode)
  | arrwait (d a b : OpCode)
  | signal (a b : OpCode)
  | sigwait (d a b : OpCode)
  | bind (d a b : OpCode)
  | unbind (a b : OpCode)
  | rgnin (id : BitVec 16)
  | rgnout (id : BitVec 16)
  | spt (n : Byte)
  | psave
  | trap (code : BitVec 16)
  | tret
  | sysrd (d : OpCode) (lit : Word32)
  | syswr (a : OpCode) (lit : Word32)
  -- vector (R70)
  | add (d a b : OpCode)
  | sub (d a b : OpCode)
  | mul (d a b : OpCode)
  | fma (d a b : OpCode)
  | fms (d a b : OpCode)
  | fnma (d a b : OpCode)
  | min (d a b : OpCode)
  | max (d a b : OpCode)
  | abs (d a : OpCode)
  | neg (d a : OpCode)
  | adds (d a b : OpCode)
  | subs (d a b : OpCode)
  | mulhi (d a b : OpCode)
  | dot2 (d a b : OpCode)
  | divi (d a b : OpCode)
  | remi (d a b : OpCode)
  | and (d a b : OpCode)
  | or (d a b : OpCode)
  | xor (d a b : OpCode)
  | andn (d a b : OpCode)
  | shl (d a b : OpCode)
  | shrl (d a b : OpCode)
  | shra (d a b : OpCode)
  | rol (d a b : OpCode)
  | cmpeq (d a b : OpCode)
  | cmpne (d a b : OpCode)
  | cmplt (d a b : OpCode)
  | cmple (d a b : OpCode)
  | cmpun (d a b : OpCode)
  | cls (d a : OpCode) (lit : Word32)
  | sel (d a b : OpCode) (lit : Word32)
  | mov (d a : OpCode)
  | cvt (d a : OpCode) (lit : Word32)
  | cvtr (d a : OpCode) (lit : Word32)
  | pack (d a b : OpCode)
  | widen (d a : OpCode) (h : Byte)
  | dec8 (d a : OpCode) (g : Byte)
  | enc8 (d a b : OpCode)
  | dec6 (d a : OpCode) (g : Byte)
  | enc6 (d a : OpCode)
  | scaleb (d a b : OpCode)
  | rndint (d a : OpCode)
  | dot4 (d a b : OpCode)
  | sad (d a b : OpCode)
  | madi (d a b : OpCode)
  | addc (d a b : OpCode) (lit : Word32)
  | subb (d a b : OpCode) (lit : Word32)
  | frcp2 (d a : OpCode)
  | movl (d : OpCode) (lit : Word32)
  | movs (d : OpCode) (lit : Word32)
  | iota (d a b : OpCode)
  | shfl (d a b : OpCode) (lit : Word32)
  | bcast (d a b : OpCode)
  | lreduce (d a : OpCode) (lit : Word32)
  | lscan (d a : OpCode) (lit : Word32)
  | ballot (d p : OpCode)
  | vote (d p : OpCode) (lit : Word32)
  | plogic (d a b : OpCode) (lit : Word32)
  | pset (d : OpCode) (lit : Word32)
  | pget (d p : OpCode)
  | pmov (d a : OpCode)
  -- bit and function (R71)
  | bmm (d a b : OpCode)
  | bmmx (d a b : OpCode)
  | pdep (d a b : OpCode)
  | pext (d a b : OpCode)
  | bpld (k : Byte) (a : OpCode)
  | bperm (d a : OpCode) (k : Byte)
  | popc (d a : OpCode)
  | clz (d a : OpCode)
  | ctz (d a : OpCode)
  | brev (d a : OpCode)
  | bfx (d a : OpCode) (lit : Word32)
  | bfi (d a : OpCode) (lit : Word32)
  | gfmul8 (d a b : OpCode)
  | clmul (d a b : OpCode)
  | clmulh (d a b : OpCode)
  | byteperm (d a b : OpCode)
  | rcp (d a : OpCode)
  | rsq (d a : OpCode)
  | sqrt (d a : OpCode)
  | exp2 (d a : OpCode)
  | log2 (d a : OpCode)
  | sinpi (d a : OpCode)
  | cospi (d a : OpCode)
  | tanh (d a : OpCode)
  | divf (d a b : OpCode)
  -- load/store (R72)
  | ld8 (d a b : OpCode)
  | ld16 (d a b : OpCode)
  | ld32 (d a b : OpCode)
  | ld64 (d a b : OpCode)
  | st8 (d a b : OpCode)
  | st16 (d a b : OpCode)
  | st32 (d a b : OpCode)
  | st64 (d a b : OpCode)
  | ldl (d a b : OpCode)
  | stl (d a b : OpCode)
  | sld (d a b : OpCode) (lit : Word32)
  | sst (d a b : OpCode) (lit : Word32)
  | nld (d a b : OpCode) (lit : Word32)
  | nst (d a b : OpCode) (lit : Word32)
  | wld (d a b : OpCode)
  | cstr (d a p : OpCode)
  | xld (d a p : OpCode)
  | tld (d a b : OpCode) (lit : Word32)
  | tst (d a b : OpCode) (lit : Word32)
  | pref (a b : OpCode)
  | sealRegion (a b : OpCode)
  | unsealRegion (a b : OpCode)
  | fence (scope : Byte)
  | xfence (scope paths : Byte)
  | pin (a b : OpCode)
  | unpin (a b : OpCode)
  | cinv (a b : OpCode)
  | cwb (a b : OpCode)
  | ldacq (d a b : OpCode) (lit : Word32)
  | strel (d a b : OpCode) (lit : Word32)
  -- atomic (R73)
  | aadd (d a b : OpCode) (lit : Word32)
  | amin (d a b : OpCode) (lit : Word32)
  | amax (d a b : OpCode) (lit : Word32)
  | aand (d a b : OpCode) (lit : Word32)
  | aor (d a b : OpCode) (lit : Word32)
  | axor (d a b : OpCode) (lit : Word32)
  | aswp (d a b : OpCode) (lit : Word32)
  | acas (d a b : OpCode) (lit : Word32)
  | afadd (d a b : OpCode) (lit : Word32)
  | axadd (d a b : OpCode) (lit : Word32)
  | lres (d a : OpCode) (lit : Word32)
  | scond (d a b : OpCode) (lit : Word32)
  | tbegin (d : OpCode)
  | tcommit (d : OpCode)
  | tabort (code : BitVec 16)
  | tstat (d : OpCode)
  -- matrix, copy, Cascade, check, trace and system (R74)
  | mfmt (a : OpCode)
  | mma (acc : Byte) (a b : OpCode)
  | mmaz (acc : Byte) (a b : OpCode)
  | mbatch (n : Byte)
  | mwait (n : Byte)
  | mdrain (acc : Byte) (a b : OpCode)
  | maccld (acc : Byte) (a : OpCode)
  | mstage (n : Byte) (a b : OpCode)
  | mstat (d : OpCode) (acc : Byte)
  | cpy (d a : OpCode)
  | cpyd (d a : OpCode)
  | cpym (d a : OpCode)
  | cpymc (d a : OpCode)
  | cpyn (d a : OpCode)
  | halo (d a b : OpCode)
  | haloq (d a : OpCode)
  | evpop (d : OpCode)
  | evpeek (d : OpCode)
  | wsld (d a : OpCode)
  | arm (a b : OpCode)
  | disarm (a : OpCode)
  | cpyx (d a : OpCode)
  | wpush (a b : OpCode)
  | wpop (d : OpCode)
  | wpopw (d : OpCode)
  | wdone
  | wfloor (d : OpCode)
  | wstat (d : OpCode)
  | ckrole (d : OpCode)
  | cksig (d : OpCode) (k : Byte)
  | tmark (mark : BitVec 16)
  | halt
  | clkq (d : OpCode)
  | pwload (a : OpCode)
  -- events the engines make themselves: a wave is named by its placement number `uid`
  | instructionComplete (uid seqNo : Nat)
  | repIteration (uid path : Nat)
  | starvationOverride (core part : Nat)
  | operandLogReplay (uid entry : Nat)
  | haltTrapDelivery (uid path : Nat)
  | trackerDrain (core entry : Nat)
  | preemptBoundExpiry (fn ctx : Nat)
  | blockRestore (lid bid run : Nat)
  | weightStoreRefresh
  | atomicPerformAtHome (req : Nat)
  | matrixGroupStart (core : Nat)
  | stageReadDone (core group : Nat)
  | matrixGroupComplete (core group : Nat)
  | copyCommandExecute (core chan : Nat)
  | multicastDelivery (core chan target : Nat)
  | copyCommandEnd (core chan : Nat)
  | floorLowerRound (dom req : Nat)
  | floorRaiseRound (dom : Nat)
  | stealRequest (dom thief : Nat)
  | stolenTaskArrival (dom thief : Nat)
  | spillwayRefill (dom node : Nat)
  | terminationTokenWave (dom : Nat)
  | domainDown (dom : Nat)
  | checkVote (lid bid : Nat)
  | holdFullTimeout (uid : Nat)
  | demeritDecay (core : Nat)
  | tlbMissWalk (asid va : Nat) (write fetch : Bool)
  | reclassification (asid page : Nat)
  | tlbInvalidateDone (fn : Nat)
  | mapChangeFrozen (fn : Nat)
  | packetAdmit (fn q : Nat)
  | blockPlace (lid : Nat)
  | launchCompletion (lid : Nat)
  | priorityAgeing (fn q : Nat)
  | flrScrub (fn : Nat)
  | controlInterval (modulePower : Nat) (temps : List (Nat × Nat))
  | canopyMemberSilent (chip : Nat)
  | canopyMemberExpel (chip : Nat)
  | canopyHeartbeatSend
  | canopyCeilingChange
  | profileSample (core part : Nat)
  | captureSnapshot (fn : Nat)
  | imageWriteComplete
  | lifecycleWipeComplete
  -- what the outside world does
  | haltRequest (uid : Nat)
  | haloFaceReceive (window rowLen rows : Nat) (dstOff dstPitch : Nat) (sig : Bool) (barOff : Nat) (data : List Byte)
  | fabricLinkLoss (chip : Nat)
  -- the host's actions through the register windows (R385, R387, R412, R418, R311, R430)
  | fqrespReplay (fn seqNo : Nat)
  | fqrespRefuse (fn seqNo : Nat)
  | fqheadWrite (fn : Nat) (value : Word)
  | tlbinvRange (fn asid : Nat)
  | tlbinvAsid (fn asid : Nat)
  | tlbinvFunction (fn asid : Nat)
  | mapChange (fn asid : Nat)
  | mapChangeForce (fn asid : Nat)
  | mapdone (fn : Nat)
  | ctxCreate (fn ctx : Nat)
  | ctxDestroy (fn ctx : Nat)
  | ctxReset (fn ctx : Nat)
  | ctxPreempt (fn ctx level : Nat)
  | preemptevClear (fn : Nat) (value : Word)
  | qwidxWrite (fn q : Nat) (value : Word)
  | queueEnable (fn q : Nat) (value : Word)
  | functionLevelReset (fn : Nat)
  | currentEmergency (grove : Nat)
  | thermalTrip (grove temp : Nat)
  | canopyHeartbeatReceive (chip seqNo groupTime proposal : Nat) (announces : List (Nat × Nat)) (joins : List Nat) (emergency : Bool)
  | canopyJoin (value : Word)
  | canopyLeave (value : Word)
  | traceStopRequest (fn ctx : Nat)
  | traceStopCancel (fn ctx : Nat)
  | watchpointEnable (fn w : Nat) (value : Word)
  | traceEnable (fn : Nat) (value : Word)
  | traceRingRead (fn : Nat) (value : Word)
  | captureStart (fn ctx : Nat)
  | captureStop (fn : Nat)
  | replayStart (fn ctx : Nat)
  | captureAbort (fn : Nat)
  | haloWindowEnable (fn : Nat) (value : Word)
  | haloWindowDisable (fn : Nat)
  -- the management port (R433)
  | healthRequest
  | certRequest
  | stateRequest
  | resetRequest
  | lifecycleRequest (state : Nat)
  -- power, firmware, memory and host actions outside the windows
  | powerOn
  | imageWrite
  | pciePeerDma (write : Bool) (addr len : Nat) (data : List Byte)
  | registerWrite (window fn off size : Nat) (value : Word)
  | hostMemoryAccess (write : Bool) (addr len : Nat) (data : List Byte)
  | eccCorrection (slice : Bool) (place row : Nat)
  | powerLoss
  | explicitFence (core : Nat)
  | explicitUnfence (core : Nat)
  | demeritThresholdSet (n : Nat)
  | otherRequest (code : Nat)
  deriving DecidableEq, Repr

end Sys2Proof
end

