-- ==== Sys2Proof/WellFormed.lean ====
section
/-! DEFINITION. Which instructions are well formed: the operand kinds of R61 and the field-use tables R69 to R74, the
reserved literal bits, the ranges of immediates, and the checks of R67 that look only at the instruction, its mode and
its register budget. A check that fails names the cause RESERVED_FIELD, REG_BUDGET or MODE_INVALID. -/

namespace Sys2Proof

/-- The kinds of the field-use tables (R61), with the operand type of R63: `x` takes ETYPE, `xInt` is integer-typed,
`xFloat` takes F64 or F32 whatever ETYPE holds. -/
inductive FieldKind where
  | dst | dstLink | dstV | pd | x | xInt | xFloat | u | ps
  | vg (n : Nat) | vgEven | vgTile | sg6
  | imm (max : Nat) | step
  deriving DecidableEq, Repr

/-- A v register code (R60). -/
def isVCode (c : OpCode) : Bool := c.toNat ≤ 0x7F
/-- An s register code (R60). -/
def isSCode (c : OpCode) : Bool := 0x80 ≤ c.toNat && c.toNat ≤ 0xBF
/-- A predicate code (R60). -/
def isPCode (c : OpCode) : Bool := 0xC0 ≤ c.toNat && c.toNat ≤ 0xC7
/-- The null destination (R60). -/
def isNull (c : OpCode) : Bool := c.toNat == 0xD0
/-- One of the registers s56 to s63 (R44, R60). -/
def isFrameCode (c : OpCode) : Bool := 0xB8 ≤ c.toNat && c.toNat ≤ 0xBF
/-- A readable code (R60). -/
def isReadable (c : OpCode) : Bool := c.toNat ≤ 0xCF || c.toNat == 0xD1 || 0xE0 ≤ c.toNat
/-- A floating inline constant (R63). -/
def isFloatConst (c : OpCode) : Bool := 0xF8 ≤ c.toNat
/-- Kind u (R61): an s register, zero, an integer inline constant, or a special other than lane_id. -/
def isUniform (c : OpCode) : Bool :=
  isSCode c || c.toNat == 0xD1 || (0xC9 ≤ c.toNat && c.toNat ≤ 0xCF) || (0xE0 ≤ c.toNat && c.toNat ≤ 0xF7)

/-- The ETYPE takes floating inline constants (R63): an F or T type. -/
def EType.takesFloatConst : EType → Bool
  | .f64 | .f32x2 | .f16x4 | .bf16x4 | .t8x8 | .t6x10 => true
  | _ => false

/-- Whether a code is of its field's kind (R61, R63, R146). The registers s56 to s63 are destinations in a handler only,
which R67 checks last. -/
def FieldKind.accepts (et : EType) : FieldKind → OpCode → Bool
  | .dst, c => isVCode c || isSCode c || isNull c
  | .dstLink, c => 0x80 ≤ c.toNat && c.toNat ≤ 0xB7
  | .dstV, c => isVCode c || isNull c
  | .pd, c => isPCode c || isNull c
  | .x, c => isReadable c && (!isFloatConst c || et.takesFloatConst)
  | .xInt, c => isReadable c && !isFloatConst c
  | .xFloat, c => isReadable c
  | .u, c => isUniform c
  | .ps, c => isPCode c
  | .vg _, c => isVCode c
  | .vgEven, c => isVCode c && c.toNat % 2 == 0
  | .vgTile, c => isVCode c
  | .sg6, c => 0x80 ≤ c.toNat && c.toNat ≤ 0xBA
  | .imm m, c => c.toNat ≤ m
  | .step, c => c.toNat &&& 0xC8 == 0

/-- The D, A and B fields of an instruction with their kinds, in that order, for the fields the tables do not mark 0 or
use as offsets and 16-bit immediates (R69 to R74). An event has none. -/
def Instr.fields : Instr → List (FieldKind × OpCode)
  | .getmode d => [(.dst, d)]
  | .rep count stride => [(.imm 64, count), (.step, stride)]
  | .brp p _ => [(.ps, p)]
  | .bru u _ => [(.u, u)]
  | .jmpi a => [(.u, a)]
  | .call d _ => [(.dstLink, d)]
  | .calli d a => [(.dstLink, d), (.u, a)]
  | .ret a => [(.u, a)]
  | .waitf n _ => [(.imm 14, n)]
  | .setjoin d a => [(.dst, d), (.u, a)]
  | .setleave a => [(.u, a)]
  | .arrive a b => [(.u, a), (.u, b)]
  | .waitb d a => [(.dst, d), (.u, a)]
  | .arrwait d a b => [(.dst, d), (.u, a), (.u, b)]
  | .signal a b => [(.u, a), (.u, b)]
  | .sigwait d a b => [(.dst, d), (.u, a), (.u, b)]
  | .bind d a b => [(.u, d), (.u, a), (.u, b)]
  | .unbind a b => [(.u, a), (.u, b)]
  | .spt n => [(.imm 254, n)]
  | .sysrd d _ => [(.dst, d)]
  | .syswr a _ => [(.u, a)]
  | .add d a b => [(.dst, d), (.x, a), (.x, b)]
  | .sub d a b => [(.dst, d), (.x, a), (.x, b)]
  | .mul d a b => [(.dst, d), (.x, a), (.x, b)]
  | .fma d a b => [(.dst, d), (.x, a), (.x, b)]
  | .fms d a b => [(.dst, d), (.x, a), (.x, b)]
  | .fnma d a b => [(.dst, d), (.x, a), (.x, b)]
  | .min d a b => [(.dst, d), (.x, a), (.x, b)]
  | .max d a b => [(.dst, d), (.x, a), (.x, b)]
  | .abs d a => [(.dst, d), (.x, a)]
  | .neg d a => [(.dst, d), (.x, a)]
  | .adds d a b => [(.dst, d), (.x, a), (.x, b)]
  | .subs d a b => [(.dst, d), (.x, a), (.x, b)]
  | .mulhi d a b => [(.dst, d), (.x, a), (.x, b)]
  | .dot2 d a b => [(.dst, d), (.x, a), (.x, b)]
  | .divi d a b => [(.dst, d), (.x, a), (.x, b)]
  | .remi d a b => [(.dst, d), (.x, a), (.x, b)]
  | .and d a b => [(.dst, d), (.x, a), (.x, b)]
  | .or d a b => [(.dst, d), (.x, a), (.x, b)]
  | .xor d a b => [(.dst, d), (.x, a), (.x, b)]
  | .andn d a b => [(.dst, d), (.x, a), (.x, b)]
  | .shl d a b => [(.dst, d), (.x, a), (.xInt, b)]
  | .shrl d a b => [(.dst, d), (.x, a), (.xInt, b)]
  | .shra d a b => [(.dst, d), (.x, a), (.xInt, b)]
  | .rol d a b => [(.dst, d), (.x, a), (.xInt, b)]
  | .cmpeq d a b => [(.pd, d), (.x, a), (.x, b)]
  | .cmpne d a b => [(.pd, d), (.x, a), (.x, b)]
  | .cmplt d a b => [(.pd, d), (.x, a), (.x, b)]
  | .cmple d a b => [(.pd, d), (.x, a), (.x, b)]
  | .cmpun d a b => [(.pd, d), (.x, a), (.x, b)]
  | .cls d a _ => [(.pd, d), (.x, a)]
  | .sel d a b _ => [(.dst, d), (.x, a), (.x, b)]
  | .mov d a => [(.dst, d), (.x, a)]
  | .cvt d a _ => [(.dst, d), (.x, a)]
  | .cvtr d a _ => [(.dst, d), (.x, a)]
  | .pack d a b => [(.dst, d), (.x, a), (.x, b)]
  | .widen d a h => [(.dst, d), (.x, a), (.imm 1, h)]
  | .dec8 d a g => [(.dst, d), (.x, a), (.imm 1, g)]
  | .enc8 d a b => [(.dst, d), (.x, a), (.x, b)]
  | .dec6 d a g => [(.dst, d), (.x, a), (.imm 2, g)]
  | .enc6 d a => [(.dst, d), (.vg 3, a)]
  | .scaleb d a b => [(.dst, d), (.x, a), (.xInt, b)]
  | .rndint d a => [(.dst, d), (.x, a)]
  | .dot4 d a b => [(.dst, d), (.x, a), (.x, b)]
  | .sad d a b => [(.dst, d), (.x, a), (.x, b)]
  | .madi d a b => [(.dst, d), (.x, a), (.x, b)]
  | .addc d a b _ => [(.dst, d), (.x, a), (.x, b)]
  | .subb d a b _ => [(.dst, d), (.x, a), (.x, b)]
  | .frcp2 d a => [(.dst, d), (.x, a)]
  | .movl d _ => [(.dst, d)]
  | .movs d _ => [(.dst, d)]
  | .iota d a b => [(.dst, d), (.u, a), (.u, b)]
  | .shfl d a b _ => [(.dst, d), (.x, a), (.xInt, b)]
  | .bcast d a b => [(.dst, d), (.x, a), (.u, b)]
  | .lreduce d a _ => [(.dst, d), (.x, a)]
  | .lscan d a _ => [(.dst, d), (.x, a)]
  | .ballot d p => [(.dst, d), (.ps, p)]
  | .vote d p _ => [(.dst, d), (.ps, p)]
  | .plogic d a b _ => [(.pd, d), (.ps, a), (.ps, b)]
  | .pset d _ => [(.pd, d)]
  | .pget d p => [(.dst, d), (.ps, p)]
  | .pmov d a => [(.pd, d), (.x, a)]
  | .bmm d a b => [(.dst, d), (.x, a), (.x, b)]
  | .bmmx d a b => [(.dst, d), (.x, a), (.x, b)]
  | .pdep d a b => [(.dst, d), (.x, a), (.x, b)]
  | .pext d a b => [(.dst, d), (.x, a), (.x, b)]
  | .bpld k a => [(.imm 7, k), (.sg6, a)]
  | .bperm d a k => [(.dst, d), (.x, a), (.imm 7, k)]
  | .popc d a => [(.dst, d), (.x, a)]
  | .clz d a => [(.dst, d), (.x, a)]
  | .ctz d a => [(.dst, d), (.x, a)]
  | .brev d a => [(.dst, d), (.x, a)]
  | .bfx d a _ => [(.dst, d), (.x, a)]
  | .bfi d a _ => [(.dst, d), (.x, a)]
  | .gfmul8 d a b => [(.dst, d), (.x, a), (.x, b)]
  | .clmul d a b => [(.dst, d), (.x, a), (.x, b)]
  | .clmulh d a b => [(.dst, d), (.x, a), (.x, b)]
  | .byteperm d a b => [(.dst, d), (.x, a), (.x, b)]
  | .rcp d a => [(.dst, d), (.x, a)]
  | .rsq d a => [(.dst, d), (.x, a)]
  | .sqrt d a => [(.dst, d), (.x, a)]
  | .exp2 d a => [(.dst, d), (.x, a)]
  | .log2 d a => [(.dst, d), (.x, a)]
  | .sinpi d a => [(.dst, d), (.x, a)]
  | .cospi d a => [(.dst, d), (.x, a)]
  | .tanh d a => [(.dst, d), (.x, a)]
  | .divf d a b => [(.dst, d), (.x, a), (.x, b)]
  | .ld8 d a b => [(.dst, d), (.u, a), (.xInt, b)]
  | .ld16 d a b => [(.dst, d), (.u, a), (.xInt, b)]
  | .ld32 d a b => [(.dst, d), (.u, a), (.xInt, b)]
  | .ld64 d a b => [(.dst, d), (.u, a), (.xInt, b)]
  | .st8 d a b => [(.x, d), (.u, a), (.xInt, b)]
  | .st16 d a b => [(.x, d), (.u, a), (.xInt, b)]
  | .st32 d a b => [(.x, d), (.u, a), (.xInt, b)]
  | .st64 d a b => [(.x, d), (.u, a), (.xInt, b)]
  | .ldl d a b => [(.vgEven, d), (.u, a), (.xInt, b)]
  | .stl d a b => [(.vgEven, d), (.u, a), (.xInt, b)]
  | .sld d a b _ => [(.dst, d), (.u, a), (.xInt, b)]
  | .sst d a b _ => [(.x, d), (.u, a), (.xInt, b)]
  | .nld d a b _ => [(.dst, d), (.u, a), (.xInt, b)]
  | .nst d a b _ => [(.x, d), (.u, a), (.xInt, b)]
  | .wld d a b => [(.dst, d), (.u, a), (.xInt, b)]
  | .cstr d a p => [(.x, d), (.u, a), (.ps, p)]
  | .xld d a p => [(.dst, d), (.u, a), (.ps, p)]
  | .tld d a b _ => [(.vgTile, d), (.u, a), (.u, b)]
  | .tst d a b _ => [(.vgTile, d), (.u, a), (.u, b)]
  | .pref a b => [(.u, a), (.xInt, b)]
  | .sealRegion a b => [(.u, a), (.u, b)]
  | .unsealRegion a b => [(.u, a), (.u, b)]
  | .fence scope => [(.imm 7, scope)]
  | .xfence scope paths => [(.imm 7, scope), (.imm 63, paths)]
  | .pin a b => [(.u, a), (.u, b)]
  | .unpin a b => [(.u, a), (.u, b)]
  | .cinv a b => [(.u, a), (.u, b)]
  | .cwb a b => [(.u, a), (.u, b)]
  | .ldacq d a b _ => [(.dst, d), (.u, a), (.xInt, b)]
  | .strel d a b _ => [(.x, d), (.u, a), (.xInt, b)]
  | .aadd d a b _ => [(.dst, d), (.xInt, a), (.xInt, b)]
  | .amin d a b _ => [(.dst, d), (.xInt, a), (.xInt, b)]
  | .amax d a b _ => [(.dst, d), (.xInt, a), (.xInt, b)]
  | .aand d a b _ => [(.dst, d), (.xInt, a), (.xInt, b)]
  | .aor d a b _ => [(.dst, d), (.xInt, a), (.xInt, b)]
  | .axor d a b _ => [(.dst, d), (.xInt, a), (.xInt, b)]
  | .aswp d a b _ => [(.dst, d), (.xInt, a), (.xInt, b)]
  | .acas d a b _ => [(.dst, d), (.xInt, a), (.xInt, b)]
  | .afadd d a b _ => [(.dst, d), (.xInt, a), (.xFloat, b)]
  | .axadd d a b _ => [(.dst, d), (.xInt, a), (.xFloat, b)]
  | .lres d a _ => [(.dst, d), (.xInt, a)]
  | .scond d a b _ => [(.dst, d), (.xInt, a), (.xInt, b)]
  | .tbegin d => [(.dstV, d)]
  | .tcommit d => [(.dstV, d)]
  | .tstat d => [(.dstV, d)]
  | .mfmt a => [(.u, a)]
  | .mma acc a b => [(.imm 15, acc), (.u, a), (.vg 4, b)]
  | .mmaz acc a b => [(.imm 15, acc), (.u, a), (.vg 4, b)]
  | .mbatch n => [(.imm 15, n)]
  | .mwait n => [(.imm 15, n)]
  | .mdrain acc a b => [(.imm 15, acc), (.u, a), (.u, b)]
  | .maccld acc a => [(.imm 15, acc), (.u, a)]
  | .mstage n a b => [(.imm 7, n), (.u, a), (.u, b)]
  | .mstat d acc => [(.dst, d), (.imm 15, acc)]
  | .cpy d a => [(.dst, d), (.u, a)]
  | .cpyd d a => [(.dst, d), (.u, a)]
  | .cpym d a => [(.dst, d), (.u, a)]
  | .cpymc d a => [(.dst, d), (.u, a)]
  | .cpyn d a => [(.dst, d), (.u, a)]
  | .halo d a b => [(.dst, d), (.u, a), (.u, b)]
  | .haloq d a => [(.dst, d), (.u, a)]
  | .evpop d => [(.dst, d)]
  | .evpeek d => [(.dst, d)]
  | .wsld d a => [(.dst, d), (.u, a)]
  | .arm a b => [(.u, a), (.u, b)]
  | .disarm a => [(.u, a)]
  | .cpyx d a => [(.dst, d), (.u, a)]
  | .wpush a b => [(.xInt, a), (.xInt, b)]
  | .wpop d => [(.vg 2, d)]
  | .wpopw d => [(.vg 2, d)]
  | .wfloor d => [(.dst, d)]
  | .wstat d => [(.dst, d)]
  | .ckrole d => [(.dst, d)]
  | .cksig d k => [(.dst, d), (.imm 1, k)]
  | .clkq d => [(.dst, d)]
  | .pwload a => [(.u, a)]
  | _ => []

/-- The literal of a literal-taking instruction, with the mask of the literal bits its table row names (R68). -/
def Instr.literal : Instr → Option (Word32 × Word32)
  | .setmode lit => some (lit, 0x00FFFFFF)
  | .sysrd _ lit => some (lit, 0x0000FFFF)
  | .syswr _ lit => some (lit, 0x0000FFFF)
  | .cls _ _ lit => some (lit, 0x000003FF)
  | .sel _ _ _ lit => some (lit, 0x0000000F)
  | .cvt _ _ lit => some (lit, 0x0000000F)
  | .cvtr _ _ lit => some (lit, 0x0000007F)
  | .addc _ _ _ lit => some (lit, 0x00000077)
  | .subb _ _ _ lit => some (lit, 0x00000077)
  | .movl _ lit => some (lit, 0xFFFFFFFF)
  | .movs _ lit => some (lit, 0xFFFFFFFF)
  | .shfl _ _ _ lit => some (lit, 0x00000013)
  | .lreduce _ _ lit => some (lit, 0x0000000F)
  | .lscan _ _ lit => some (lit, 0x0000001F)
  | .vote _ _ lit => some (lit, 0x00000003)
  | .plogic _ _ _ lit => some (lit, 0x0000000F)
  | .pset _ lit => some (lit, 0x000000FF)
  | .bfx _ _ lit => some (lit, 0x00017F3F)
  | .bfi _ _ lit => some (lit, 0x00007F3F)
  | .sld _ _ _ lit => some (lit, 0x00000007)
  | .sst _ _ _ lit => some (lit, 0x00000003)
  | .nld _ _ _ lit => some (lit, 0x00000707)
  | .nst _ _ _ lit => some (lit, 0x00000703)
  | .tld _ _ _ lit => some (lit, 0x00000017)
  | .tst _ _ _ lit => some (lit, 0x00000017)
  | .ldacq _ _ _ lit => some (lit, 0x00000007)
  | .strel _ _ _ lit => some (lit, 0x00000007)
  | .aadd _ _ _ lit => some (lit, 0x00000017)
  | .amin _ _ _ lit => some (lit, 0x00000017)
  | .amax _ _ _ lit => some (lit, 0x00000017)
  | .aand _ _ _ lit => some (lit, 0x00000017)
  | .aor _ _ _ lit => some (lit, 0x00000017)
  | .axor _ _ _ lit => some (lit, 0x00000017)
  | .aswp _ _ _ lit => some (lit, 0x00000017)
  | .acas _ _ _ lit => some (lit, 0x00000017)
  | .afadd _ _ _ lit => some (lit, 0x00000017)
  | .axadd _ _ _ lit => some (lit, 0x00000017)
  | .lres _ _ lit => some (lit, 0x00000107)
  | .scond _ _ _ lit => some (lit, 0x00000007)
  | _ => none

/-- An instruction that takes the next slot's word as a literal (R59). -/
def Instr.takesLiteral (i : Instr) : Bool := i.literal.isSome

/-- The width of an element type's sub-element (R168). -/
def EType.wid : EType → Nat
  | .i64 | .n64 | .f64 => 64
  | .i32x2 | .n32x2 | .f32x2 => 32
  | .i16x4 | .n16x4 | .f16x4 | .bf16x4 => 16
  | .i8x8 | .n8x8 | .t8x8 => 8
  | .t6x10 => 6

/-- The system register numbers assigned to an engine (R164, R203, R237, R265, R325, R370). -/
def sysRegAssigned (n : Nat) : Bool :=
  n ≤ 0x0008 || (0x0100 ≤ n && n ≤ 0x0105) || (0x0200 ≤ n && n ≤ 0x023F) || (0x0300 ≤ n && n ≤ 0x0301) ||
  (0x0400 ≤ n && n ≤ 0x0402) || (0x0500 ≤ n && n ≤ 0x0501)

/-- The ranges of literal sub-fields (R163, R180, R181, R188, R197). -/
def Instr.literalRanges (et : EType) : Instr → Bool
  | .cvt _ _ lit => lit.toNat % 16 ≤ 0xD
  | .cvtr _ _ lit => lit.toNat % 16 ≤ 0xD && lit.toNat / 16 % 8 ≤ 4
  | .movs _ lit => lit.toNat >>> Nat.min et.wid 32 == 0
  | .lreduce _ _ lit => lit.toNat % 16 ≤ 5
  | .lscan _ _ lit => lit.toNat % 16 ≤ 5
  | .bfx _ _ lit => 1 ≤ lit.toNat / 256 % 128 && lit.toNat % 64 + lit.toNat / 256 % 128 ≤ 64
  | .bfi _ _ lit => 1 ≤ lit.toNat / 256 % 128 && lit.toNat % 64 + lit.toNat / 256 % 128 ≤ 64
  | .sysrd _ lit => sysRegAssigned (lit.toNat % 65536)
  | .syswr _ lit => sysRegAssigned (lit.toNat % 65536)
  | _ => true

/-- The literal holds no reserved bit and its sub-fields are in range (R59, R68). SETMODE's ETYPE and RND codes and its
low byte are checked with the mode (R66). -/
def Instr.literalOk (et : EType) (i : Instr) : Bool :=
  match i.literal with
  | none => true
  | some (lit, used) => lit &&& ~~~used == 0 && i.literalRanges et

/-- The instruction executes on the scalar side (R64, R214, R241, R334): its D names an s register, or it is an atomic
with D null, or a WPUSH, whose sources are all of kind u. -/
def Instr.scalarForm (i : Instr) : Bool :=
  match i with
  | .aadd d a b _ | .amin d a b _ | .amax d a b _ | .aand d a b _ | .aor d a b _ | .axor d a b _ | .aswp d a b _
  | .afadd d a b _ | .axadd d a b _ | .scond d a b _ => isSCode d || (isNull d && isUniform a && isUniform b)
  | .lres d a _ => isSCode d || (isNull d && isUniform a)
  | .wpush a b => isUniform a && isUniform b
  | i => match i.fields with
    | (.dst, d) :: _ => isSCode d
    | (.x, d) :: _ => isSCode d
    | _ => false

/-- Instructions that raise RESERVED_FIELD when D names an s register (R170, R223). -/
def Instr.refusesScalar : Instr → Bool
  | .sel .. | .addc .. | .subb .. | .iota .. | .shfl .. | .bcast .. | .lscan .. | .pget .. | .cstr .. | .xld .. => true
  | _ => false

/-- Instructions that read v or p sources into an s destination (R64). They are exempt from the whole check of kind u: LREDUCE
takes lane_id and a floating inline constant as its source there too, where R64 and R170 name v and p sources alone (DESIGN
CHOICE, log entry 94). -/
def Instr.scalarReadsLanes : Instr → Bool
  | .lreduce .. | .ballot .. | .vote .. => true
  | _ => false

/-- On the scalar side every source is of kind u (R64). -/
def Instr.scalarSourcesOk (i : Instr) : Bool :=
  match i.fields with
  | [] => true
  | (k, _) :: rest =>
    let srcs := if k == .xInt then i.fields else rest
    srcs.all fun (k, c) => match k with
      | .x | .xInt | .xFloat | .ps => isUniform c
      | .vg _ => false
      | _ => true

/-- Rules that tie a field to its instruction: a full-width 16-bit immediate's range (R149), ACAS's D (R241), and ENC6's A,
which names v0 to v125 (R183). -/
def Instr.extraOk : Instr → Bool
  | .waitf _ m => m.toNat < 4096
  | .acas d _ _ _ => !isNull d
  | .enc6 _ a => a.toNat ≤ 0x7D
  | _ => true

/-- Step 3 of R67 for what the instruction itself holds: its fields are of their kinds, its literal has no reserved bit,
its immediates are in range, and a scalar form has uniform sources. A term that fails raises RESERVED_FIELD. -/
def Instr.fieldsOk (et : EType) (i : Instr) : Bool :=
  i.fields.all (fun (k, c) => k.accepts et c) && i.literalOk et && i.extraOk &&
  (!i.scalarForm || (!i.refusesScalar && (i.scalarReadsLanes || i.scalarSourcesOk)))

/-- A word exists for the instruction: SPT's 0xFF is PSAVE (R69). -/
def Instr.encodable : Instr → Bool
  | .spt n => n != 0xFF
  | _ => true

/-- A well-formed instruction under an element type (R61, R63, R67 step 3). -/
def Instr.wf (et : EType) (i : Instr) : Bool := i.encodable && i.fieldsOk et

/-- The highest v register each field names, a group's last register included (R29, R61). -/
def Instr.topRegs (i : Instr) : List Nat :=
  i.fields.filterMap fun (k, c) => match k with
    | .dst | .dstV | .x | .xInt | .xFloat => if isVCode c then some c.toNat else none
    | .vg n => some (c.toNat + n - 1)
    | .vgEven => some (c.toNat + 1)
    | .vgTile =>
      let out := match i.literal with
        | some (lit, _) => lit.toNat / 16 % 2 == 1
        | none => false
      some (c.toNat + (if out then 64 else 16) - 1)
    | _ => none

/-- Step 4 of R67: every v register lies within the wave's budget (REG_BUDGET). -/
def Instr.budgetOk (budget : Nat) (i : Instr) : Bool := i.topRegs.all (· < budget)

/-- Class INT of R166. -/
def EType.isInt : EType → Bool
  | .i64 | .i32x2 | .i16x4 | .i8x8 | .n64 | .n32x2 | .n16x4 | .n8x8 => true
  | _ => false
/-- A signed (I) type (R86). -/
def EType.isSigned : EType → Bool
  | .i64 | .i32x2 | .i16x4 | .i8x8 => true
  | _ => false
/-- Class FLT of R166. -/
def EType.isFloat : EType → Bool
  | .f64 | .f32x2 | .f16x4 | .bf16x4 => true
  | _ => false
/-- A tapered type (R91). -/
def EType.isTapered : EType → Bool
  | .t8x8 | .t6x10 => true
  | _ => false

/-- Step 5 of R67: the instruction's owning chapter lists the ETYPE for it (R166, R171, R186, R193, R243); otherwise
MODE_INVALID. Instructions not named are type-free. -/
def Instr.typeOk (et : EType) : Instr → Bool
  | .add .. | .sub .. | .mul .. | .min .. | .max .. | .abs .. | .neg .. | .cmpeq .. | .cmpne .. | .cmplt .. | .cmple .. =>
    et.isInt || et.isFloat
  | .fma .. | .fms .. | .fnma .. | .cmpun .. | .cls .. | .scaleb .. | .rndint .. | .frcp2 .. => et.isFloat
  | .adds .. | .subs .. | .mulhi .. | .divi .. | .remi .. | .shl .. | .shrl .. | .shra .. | .rol .. | .madi .. | .addc ..
  | .subb .. => et.isInt
  | .dot2 .. => et == .i16x4 || et == .n16x4 || et == .f16x4 || et == .bf16x4
  | .dot4 .. | .sad .. | .gfmul8 .. => et == .i8x8 || et == .n8x8
  | .pack .. => et == .i64 || et == .i32x2 || et == .i16x4 || et == .n64 || et == .n32x2 || et == .n16x4 || et == .f64 ||
    et == .f32x2
  | .widen .. => et == .i32x2 || et == .i16x4 || et == .i8x8 || et == .n32x2 || et == .n16x4 || et == .n8x8 ||
    et == .f32x2 || et == .f16x4 || et == .bf16x4
  | .dec8 .. => et == .t8x8
  | .dec6 .. => et == .t6x10
  | .enc8 .. | .enc6 .. => et == .bf16x4
  | .shfl _ _ _ lit => lit.toNat / 16 % 2 == 0 || et != .t6x10
  | .lreduce _ _ lit | .lscan _ _ lit => 3 ≤ lit.toNat % 16 || et.isInt || et.isFloat
  | .pdep .. | .pext .. | .popc .. | .clz .. | .ctz .. | .brev .. | .clmul .. | .clmulh .. => et.isInt
  | .rcp .. | .rsq .. | .sqrt .. | .exp2 .. | .log2 .. | .sinpi .. | .cospi .. | .tanh .. | .divf .. => et.isFloat
  | .amin .. | .amax .. => et.isInt
  | _ => true

/-- Step 6 of R67 for destinations: s56 to s63 are written in a handler only (R44). -/
def Instr.dstPermitted (inHandler : Bool) (i : Instr) : Bool :=
  inHandler || i.fields.all fun (k, c) => match k with
    | .dst => !isFrameCode c
    | _ => true

/-- The control-transfer instructions of R57. -/
def Instr.transfers : Instr → Bool
  | .bra .. | .brp .. | .bru .. | .jmpi .. | .call .. | .calli .. | .ret .. | .rjoin .. | .exit | .tail | .tret | .spt ..
  | .psave => true
  | _ => false

end Sys2Proof
end

