-- ==== Sys2Proof/Decode.lean ====
section
/-! DEFINITION. Decoding a slot's word, and the literal in the next slot, into an instruction (R58, R59, R67 to R74), and
the encoder. Decoding is total: a word it refuses is refused with the cause of R67's first failing check among the
first three (ILLEGAL_OPCODE, LITERAL_SLOT, RESERVED_FIELD); what depends on the wave is checked when the instruction
runs. -/

namespace Sys2Proof

/-- The fields of an instruction word (R58). `ab` and `dab` are the immediates that span fields. -/
structure RawWord where
  op : Byte
  d : OpCode
  a : OpCode
  b : OpCode
  ab : BitVec 16
  dab : BitVec 24
  deriving DecidableEq, Repr

/-- R58: OP in bits 31:24, D in 23:16, A in 15:8, B in 7:0. -/
def rawWord (w : Word32) : RawWord :=
  { op := w.extractLsb' 24 8, d := w.extractLsb' 16 8, a := w.extractLsb' 8 8, b := w.extractLsb' 0 8,
    ab := w.extractLsb' 0 16, dab := w.extractLsb' 0 24 }

/-- A field marked 0 in the tables must be zero (R58). -/
def checked (fieldsZero : Bool) (i : Instr) : Except Cause Instr :=
  if fieldsZero then .ok i else .error .reservedField

/-- A literal-taking instruction reads the next slot's word; in slot 3 it raises LITERAL_SLOT (R59). -/
def withLiteral (slot : Nat) (next : Word32) (f : Word32 → Except Cause Instr) : Except Cause Instr :=
  if slot < 3 then f next else .error .literalSlot

/-- The sequencer (R69) opcodes 0x00 to 0x1F; an unassigned one raises ILLEGAL_OPCODE (R68). -/
def decodeSequencer (slot : Nat) (next : Word32) (r : RawWord) : Except Cause Instr :=
  match r.op.toNat with
  | 0x00 => checked (r.d == 0 && r.a == 0 && r.b == 0) (.nop)
  | 0x01 => withLiteral slot next fun l => checked (r.d == 0 && r.a == 0 && r.b == 0) (.setmode l)
  | 0x02 => checked (r.a == 0 && r.b == 0) (.getmode r.d)
  | 0x03 => checked (r.b == 0) (.rep r.d r.a)
  | 0x04 => checked true (.bra r.dab)
  | 0x05 => checked true (.brp r.d r.ab)
  | 0x06 => checked true (.bru r.d r.ab)
  | 0x07 => checked (r.d == 0 && r.b == 0) (.jmpi r.a)
  | 0x08 => checked true (.call r.d r.ab)
  | 0x09 => checked (r.b == 0) (.calli r.d r.a)
  | 0x0A => checked (r.d == 0 && r.b == 0) (.ret r.a)
  | 0x0B => checked (r.d == 0) (.rjoin r.ab)
  | 0x0C => checked (r.d == 0 && r.a == 0 && r.b == 0) (.exit)
  | 0x0D => checked (r.d == 0 && r.a == 0 && r.b == 0) (.tail)
  | 0x0E => checked (r.d == 0 && r.a == 0 && r.b == 0) (.yield)
  | 0x0F => checked true (.waitf r.d r.ab)
  | 0x10 => checked (r.b == 0) (.setjoin r.d r.a)
  | 0x11 => checked (r.d == 0 && r.b == 0) (.setleave r.a)
  | 0x12 => checked (r.d == 0) (.arrive r.a r.b)
  | 0x13 => checked (r.b == 0) (.waitb r.d r.a)
  | 0x14 => checked true (.arrwait r.d r.a r.b)
  | 0x15 => checked (r.d == 0) (.signal r.a r.b)
  | 0x16 => checked true (.sigwait r.d r.a r.b)
  | 0x17 => checked true (.bind r.d r.a r.b)
  | 0x18 => checked (r.d == 0) (.unbind r.a r.b)
  | 0x19 => checked (r.d == 0) (.rgnin r.ab)
  | 0x1A => checked (r.d == 0) (.rgnout r.ab)
  | 0x1B => checked (r.a == 0 && r.b == 0) (if r.d == 0xFF then .psave else .spt r.d)
  | 0x1C => checked (r.d == 0) (.trap r.ab)
  | 0x1D => checked (r.d == 0 && r.a == 0 && r.b == 0) (.tret)
  | 0x1E => withLiteral slot next fun l => checked (r.a == 0 && r.b == 0) (.sysrd r.d l)
  | 0x1F => withLiteral slot next fun l => checked (r.d == 0 && r.b == 0) (.syswr r.a l)
  | _ => .error .illegalOpcode

/-- The vector (R70) opcodes 0x20 to 0x5F; an unassigned one raises ILLEGAL_OPCODE (R68). -/
def decodeVector (slot : Nat) (next : Word32) (r : RawWord) : Except Cause Instr :=
  match r.op.toNat with
  | 0x20 => checked true (.add r.d r.a r.b)
  | 0x21 => checked true (.sub r.d r.a r.b)
  | 0x22 => checked true (.mul r.d r.a r.b)
  | 0x23 => checked true (.fma r.d r.a r.b)
  | 0x24 => checked true (.fms r.d r.a r.b)
  | 0x25 => checked true (.fnma r.d r.a r.b)
  | 0x26 => checked true (.min r.d r.a r.b)
  | 0x27 => checked true (.max r.d r.a r.b)
  | 0x28 => checked (r.b == 0) (.abs r.d r.a)
  | 0x29 => checked (r.b == 0) (.neg r.d r.a)
  | 0x2A => checked true (.adds r.d r.a r.b)
  | 0x2B => checked true (.subs r.d r.a r.b)
  | 0x2C => checked true (.mulhi r.d r.a r.b)
  | 0x2D => checked true (.dot2 r.d r.a r.b)
  | 0x2E => checked true (.divi r.d r.a r.b)
  | 0x2F => checked true (.remi r.d r.a r.b)
  | 0x30 => checked true (.and r.d r.a r.b)
  | 0x31 => checked true (.or r.d r.a r.b)
  | 0x32 => checked true (.xor r.d r.a r.b)
  | 0x33 => checked true (.andn r.d r.a r.b)
  | 0x34 => checked true (.shl r.d r.a r.b)
  | 0x35 => checked true (.shrl r.d r.a r.b)
  | 0x36 => checked true (.shra r.d r.a r.b)
  | 0x37 => checked true (.rol r.d r.a r.b)
  | 0x38 => checked true (.cmpeq r.d r.a r.b)
  | 0x39 => checked true (.cmpne r.d r.a r.b)
  | 0x3A => checked true (.cmplt r.d r.a r.b)
  | 0x3B => checked true (.cmple r.d r.a r.b)
  | 0x3C => checked true (.cmpun r.d r.a r.b)
  | 0x3D => withLiteral slot next fun l => checked (r.b == 0) (.cls r.d r.a l)
  | 0x3E => withLiteral slot next fun l => checked true (.sel r.d r.a r.b l)
  | 0x3F => checked (r.b == 0) (.mov r.d r.a)
  | 0x40 => withLiteral slot next fun l => checked (r.b == 0) (.cvt r.d r.a l)
  | 0x41 => withLiteral slot next fun l => checked (r.b == 0) (.cvtr r.d r.a l)
  | 0x42 => checked true (.pack r.d r.a r.b)
  | 0x43 => checked true (.widen r.d r.a r.b)
  | 0x44 => checked true (.dec8 r.d r.a r.b)
  | 0x45 => checked true (.enc8 r.d r.a r.b)
  | 0x46 => checked true (.dec6 r.d r.a r.b)
  | 0x47 => checked (r.b == 0) (.enc6 r.d r.a)
  | 0x48 => checked true (.scaleb r.d r.a r.b)
  | 0x49 => checked (r.b == 0) (.rndint r.d r.a)
  | 0x4A => checked true (.dot4 r.d r.a r.b)
  | 0x4B => checked true (.sad r.d r.a r.b)
  | 0x4C => checked true (.madi r.d r.a r.b)
  | 0x4D => withLiteral slot next fun l => checked true (.addc r.d r.a r.b l)
  | 0x4E => withLiteral slot next fun l => checked true (.subb r.d r.a r.b l)
  | 0x4F => checked (r.b == 0) (.frcp2 r.d r.a)
  | 0x50 => withLiteral slot next fun l => checked (r.a == 0 && r.b == 0) (.movl r.d l)
  | 0x51 => withLiteral slot next fun l => checked (r.a == 0 && r.b == 0) (.movs r.d l)
  | 0x52 => checked true (.iota r.d r.a r.b)
  | 0x53 => withLiteral slot next fun l => checked true (.shfl r.d r.a r.b l)
  | 0x54 => checked true (.bcast r.d r.a r.b)
  | 0x55 => withLiteral slot next fun l => checked (r.b == 0) (.lreduce r.d r.a l)
  | 0x56 => withLiteral slot next fun l => checked (r.b == 0) (.lscan r.d r.a l)
  | 0x57 => checked (r.b == 0) (.ballot r.d r.a)
  | 0x58 => withLiteral slot next fun l => checked (r.b == 0) (.vote r.d r.a l)
  | 0x59 => withLiteral slot next fun l => checked true (.plogic r.d r.a r.b l)
  | 0x5A => withLiteral slot next fun l => checked (r.a == 0 && r.b == 0) (.pset r.d l)
  | 0x5B => checked (r.b == 0) (.pget r.d r.a)
  | 0x5C => checked (r.b == 0) (.pmov r.d r.a)
  | _ => .error .illegalOpcode

/-- The bit and function (R71) opcodes 0x60 to 0x7F; an unassigned one raises ILLEGAL_OPCODE (R68). -/
def decodeBitFn (slot : Nat) (next : Word32) (r : RawWord) : Except Cause Instr :=
  match r.op.toNat with
  | 0x60 => checked true (.bmm r.d r.a r.b)
  | 0x61 => checked true (.bmmx r.d r.a r.b)
  | 0x62 => checked true (.pdep r.d r.a r.b)
  | 0x63 => checked true (.pext r.d r.a r.b)
  | 0x64 => checked (r.b == 0) (.bpld r.d r.a)
  | 0x65 => checked true (.bperm r.d r.a r.b)
  | 0x66 => checked (r.b == 0) (.popc r.d r.a)
  | 0x67 => checked (r.b == 0) (.clz r.d r.a)
  | 0x68 => checked (r.b == 0) (.ctz r.d r.a)
  | 0x69 => checked (r.b == 0) (.brev r.d r.a)
  | 0x6A => withLiteral slot next fun l => checked (r.b == 0) (.bfx r.d r.a l)
  | 0x6B => withLiteral slot next fun l => checked (r.b == 0) (.bfi r.d r.a l)
  | 0x6C => checked true (.gfmul8 r.d r.a r.b)
  | 0x6D => checked true (.clmul r.d r.a r.b)
  | 0x6E => checked true (.clmulh r.d r.a r.b)
  | 0x6F => checked true (.byteperm r.d r.a r.b)
  | 0x70 => checked (r.b == 0) (.rcp r.d r.a)
  | 0x71 => checked (r.b == 0) (.rsq r.d r.a)
  | 0x72 => checked (r.b == 0) (.sqrt r.d r.a)
  | 0x73 => checked (r.b == 0) (.exp2 r.d r.a)
  | 0x74 => checked (r.b == 0) (.log2 r.d r.a)
  | 0x75 => checked (r.b == 0) (.sinpi r.d r.a)
  | 0x76 => checked (r.b == 0) (.cospi r.d r.a)
  | 0x77 => checked (r.b == 0) (.tanh r.d r.a)
  | 0x78 => checked true (.divf r.d r.a r.b)
  | _ => .error .illegalOpcode

/-- The load/store (R72) opcodes 0x80 to 0x9F; an unassigned one raises ILLEGAL_OPCODE (R68). -/
def decodeLoadStore (slot : Nat) (next : Word32) (r : RawWord) : Except Cause Instr :=
  match r.op.toNat with
  | 0x80 => checked true (.ld8 r.d r.a r.b)
  | 0x81 => checked true (.ld16 r.d r.a r.b)
  | 0x82 => checked true (.ld32 r.d r.a r.b)
  | 0x83 => checked true (.ld64 r.d r.a r.b)
  | 0x84 => checked true (.st8 r.d r.a r.b)
  | 0x85 => checked true (.st16 r.d r.a r.b)
  | 0x86 => checked true (.st32 r.d r.a r.b)
  | 0x87 => checked true (.st64 r.d r.a r.b)
  | 0x88 => checked true (.ldl r.d r.a r.b)
  | 0x89 => checked true (.stl r.d r.a r.b)
  | 0x8A => withLiteral slot next fun l => checked true (.sld r.d r.a r.b l)
  | 0x8B => withLiteral slot next fun l => checked true (.sst r.d r.a r.b l)
  | 0x8C => withLiteral slot next fun l => checked true (.nld r.d r.a r.b l)
  | 0x8D => withLiteral slot next fun l => checked true (.nst r.d r.a r.b l)
  | 0x8E => checked true (.wld r.d r.a r.b)
  | 0x8F => checked true (.cstr r.d r.a r.b)
  | 0x90 => checked true (.xld r.d r.a r.b)
  | 0x91 => withLiteral slot next fun l => checked true (.tld r.d r.a r.b l)
  | 0x92 => withLiteral slot next fun l => checked true (.tst r.d r.a r.b l)
  | 0x93 => checked (r.d == 0) (.pref r.a r.b)
  | 0x94 => checked (r.d == 0) (.sealRegion r.a r.b)
  | 0x95 => checked (r.d == 0) (.unsealRegion r.a r.b)
  | 0x96 => checked (r.a == 0 && r.b == 0) (.fence r.d)
  | 0x97 => checked (r.b == 0) (.xfence r.d r.a)
  | 0x98 => checked (r.d == 0) (.pin r.a r.b)
  | 0x99 => checked (r.d == 0) (.unpin r.a r.b)
  | 0x9A => checked (r.d == 0) (.cinv r.a r.b)
  | 0x9B => checked (r.d == 0) (.cwb r.a r.b)
  | 0x9C => withLiteral slot next fun l => checked true (.ldacq r.d r.a r.b l)
  | 0x9D => withLiteral slot next fun l => checked true (.strel r.d r.a r.b l)
  | _ => .error .illegalOpcode

/-- The atomic (R73) opcodes 0xA0 to 0xAF; an unassigned one raises ILLEGAL_OPCODE (R68). -/
def decodeAtomic (slot : Nat) (next : Word32) (r : RawWord) : Except Cause Instr :=
  match r.op.toNat with
  | 0xA0 => withLiteral slot next fun l => checked true (.aadd r.d r.a r.b l)
  | 0xA1 => withLiteral slot next fun l => checked true (.amin r.d r.a r.b l)
  | 0xA2 => withLiteral slot next fun l => checked true (.amax r.d r.a r.b l)
  | 0xA3 => withLiteral slot next fun l => checked true (.aand r.d r.a r.b l)
  | 0xA4 => withLiteral slot next fun l => checked true (.aor r.d r.a r.b l)
  | 0xA5 => withLiteral slot next fun l => checked true (.axor r.d r.a r.b l)
  | 0xA6 => withLiteral slot next fun l => checked true (.aswp r.d r.a r.b l)
  | 0xA7 => withLiteral slot next fun l => checked true (.acas r.d r.a r.b l)
  | 0xA8 => withLiteral slot next fun l => checked true (.afadd r.d r.a r.b l)
  | 0xA9 => withLiteral slot next fun l => checked true (.axadd r.d r.a r.b l)
  | 0xAA => withLiteral slot next fun l => checked (r.b == 0) (.lres r.d r.a l)
  | 0xAB => withLiteral slot next fun l => checked true (.scond r.d r.a r.b l)
  | 0xAC => checked (r.a == 0 && r.b == 0) (.tbegin r.d)
  | 0xAD => checked (r.a == 0 && r.b == 0) (.tcommit r.d)
  | 0xAE => checked (r.d == 0) (.tabort r.ab)
  | 0xAF => checked (r.a == 0 && r.b == 0) (.tstat r.d)
  | _ => .error .illegalOpcode

/-- The matrix (R74) opcodes 0xB0 to 0xBF; an unassigned one raises ILLEGAL_OPCODE (R68). -/
def decodeMatrix (r : RawWord) : Except Cause Instr :=
  match r.op.toNat with
  | 0xB0 => checked (r.d == 0 && r.b == 0) (.mfmt r.a)
  | 0xB1 => checked true (.mma r.d r.a r.b)
  | 0xB2 => checked true (.mmaz r.d r.a r.b)
  | 0xB3 => checked (r.a == 0 && r.b == 0) (.mbatch r.d)
  | 0xB4 => checked (r.a == 0 && r.b == 0) (.mwait r.d)
  | 0xB5 => checked true (.mdrain r.d r.a r.b)
  | 0xB6 => checked (r.b == 0) (.maccld r.d r.a)
  | 0xB7 => checked true (.mstage r.d r.a r.b)
  | 0xB8 => checked (r.b == 0) (.mstat r.d r.a)
  | _ => .error .illegalOpcode

/-- The copy (R74) opcodes 0xC0 to 0xCF; an unassigned one raises ILLEGAL_OPCODE (R68). -/
def decodeCopy (r : RawWord) : Except Cause Instr :=
  match r.op.toNat with
  | 0xC0 => checked (r.b == 0) (.cpy r.d r.a)
  | 0xC1 => checked (r.b == 0) (.cpyd r.d r.a)
  | 0xC2 => checked (r.b == 0) (.cpym r.d r.a)
  | 0xC3 => checked (r.b == 0) (.cpymc r.d r.a)
  | 0xC4 => checked (r.b == 0) (.cpyn r.d r.a)
  | 0xC5 => checked true (.halo r.d r.a r.b)
  | 0xC6 => checked (r.b == 0) (.haloq r.d r.a)
  | 0xC7 => checked (r.a == 0 && r.b == 0) (.evpop r.d)
  | 0xC8 => checked (r.a == 0 && r.b == 0) (.evpeek r.d)
  | 0xC9 => checked (r.b == 0) (.wsld r.d r.a)
  | 0xCA => checked (r.d == 0) (.arm r.a r.b)
  | 0xCB => checked (r.d == 0 && r.b == 0) (.disarm r.a)
  | 0xCC => checked (r.b == 0) (.cpyx r.d r.a)
  | _ => .error .illegalOpcode

/-- The Cascade, check, trace and system (R74) opcodes 0xD0 to 0xFF; an unassigned one raises ILLEGAL_OPCODE (R68). -/
def decodeSystem (r : RawWord) : Except Cause Instr :=
  match r.op.toNat with
  | 0xD0 => checked (r.d == 0) (.wpush r.a r.b)
  | 0xD1 => checked (r.a == 0 && r.b == 0) (.wpop r.d)
  | 0xD2 => checked (r.a == 0 && r.b == 0) (.wpopw r.d)
  | 0xD3 => checked (r.d == 0 && r.a == 0 && r.b == 0) (.wdone)
  | 0xD4 => checked (r.a == 0 && r.b == 0) (.wfloor r.d)
  | 0xD5 => checked (r.a == 0 && r.b == 0) (.wstat r.d)
  | 0xD8 => checked (r.a == 0 && r.b == 0) (.ckrole r.d)
  | 0xD9 => checked (r.b == 0) (.cksig r.d r.a)
  | 0xDA => checked (r.d == 0) (.tmark r.ab)
  | 0xE0 => checked (r.d == 0 && r.a == 0 && r.b == 0) (.halt)
  | 0xE1 => checked (r.a == 0 && r.b == 0) (.clkq r.d)
  | 0xE2 => checked (r.d == 0 && r.b == 0) (.pwload r.a)
  | _ => .error .illegalOpcode

/-- The instruction that a slot holds: `w` is the slot's word and `next` the word of the following slot, used only by an
instruction that takes a literal (R58, R59). -/
def decodeInstr (slot : Nat) (w next : Word32) : Except Cause Instr :=
  let r := rawWord w
  let n := r.op.toNat
  if n < 0x20 then decodeSequencer slot next r
  else if n < 0x60 then decodeVector slot next r
  else if n < 0x80 then decodeBitFn slot next r
  else if n < 0xA0 then decodeLoadStore slot next r
  else if n < 0xB0 then decodeAtomic slot next r
  else if n < 0xC0 then decodeMatrix r
  else if n < 0xD0 then decodeCopy r
  else decodeSystem r

/-- A word from its four fields (R58). -/
def word (op d a b : BitVec 8) : Word32 := op ++ d ++ a ++ b
/-- A word whose A and B fields hold one 16-bit immediate (R58). -/
def wordAB (op d : BitVec 8) (ab : BitVec 16) : Word32 := op ++ d ++ ab
/-- A word whose D, A and B fields hold one 24-bit immediate (R58). -/
def wordWide (op : BitVec 8) (dab : BitVec 24) : Word32 := op ++ dab

/-- The word of an instruction and its literal (R69 to R74). An event has no word. -/
def encode : Instr → Option (Word32 × Option Word32)
  | .nop => some (word 0x00 0 0 0, none)
  | .setmode lit => some (word 0x01 0 0 0, some lit)
  | .getmode d => some (word 0x02 d 0 0, none)
  | .rep count stride => some (word 0x03 count stride 0, none)
  | .bra off => some (wordWide 0x04 off, none)
  | .brp p off => some (wordAB 0x05 p off, none)
  | .bru u off => some (wordAB 0x06 u off, none)
  | .jmpi a => some (word 0x07 0 a 0, none)
  | .call d off => some (wordAB 0x08 d off, none)
  | .calli d a => some (word 0x09 d a 0, none)
  | .ret a => some (word 0x0A 0 a 0, none)
  | .rjoin token => some (wordAB 0x0B 0 token, none)
  | .exit => some (word 0x0C 0 0 0, none)
  | .tail => some (word 0x0D 0 0 0, none)
  | .yield => some (word 0x0E 0 0 0, none)
  | .waitf n flags => some (wordAB 0x0F n flags, none)
  | .setjoin d a => some (word 0x10 d a 0, none)
  | .setleave a => some (word 0x11 0 a 0, none)
  | .arrive a b => some (word 0x12 0 a b, none)
  | .waitb d a => some (word 0x13 d a 0, none)
  | .arrwait d a b => some (word 0x14 d a b, none)
  | .signal a b => some (word 0x15 0 a b, none)
  | .sigwait d a b => some (word 0x16 d a b, none)
  | .bind d a b => some (word 0x17 d a b, none)
  | .unbind a b => some (word 0x18 0 a b, none)
  | .rgnin id => some (wordAB 0x19 0 id, none)
  | .rgnout id => some (wordAB 0x1A 0 id, none)
  | .spt n => some (word 0x1B n 0 0, none)
  | .psave => some (word 0x1B 0xFF 0 0, none)
  | .trap code => some (wordAB 0x1C 0 code, none)
  | .tret => some (word 0x1D 0 0 0, none)
  | .sysrd d lit => some (word 0x1E d 0 0, some lit)
  | .syswr a lit => some (word 0x1F 0 a 0, some lit)
  | .add d a b => some (word 0x20 d a b, none)
  | .sub d a b => some (word 0x21 d a b, none)
  | .mul d a b => some (word 0x22 d a b, none)
  | .fma d a b => some (word 0x23 d a b, none)
  | .fms d a b => some (word 0x24 d a b, none)
  | .fnma d a b => some (word 0x25 d a b, none)
  | .min d a b => some (word 0x26 d a b, none)
  | .max d a b => some (word 0x27 d a b, none)
  | .abs d a => some (word 0x28 d a 0, none)
  | .neg d a => some (word 0x29 d a 0, none)
  | .adds d a b => some (word 0x2A d a b, none)
  | .subs d a b => some (word 0x2B d a b, none)
  | .mulhi d a b => some (word 0x2C d a b, none)
  | .dot2 d a b => some (word 0x2D d a b, none)
  | .divi d a b => some (word 0x2E d a b, none)
  | .remi d a b => some (word 0x2F d a b, none)
  | .and d a b => some (word 0x30 d a b, none)
  | .or d a b => some (word 0x31 d a b, none)
  | .xor d a b => some (word 0x32 d a b, none)
  | .andn d a b => some (word 0x33 d a b, none)
  | .shl d a b => some (word 0x34 d a b, none)
  | .shrl d a b => some (word 0x35 d a b, none)
  | .shra d a b => some (word 0x36 d a b, none)
  | .rol d a b => some (word 0x37 d a b, none)
  | .cmpeq d a b => some (word 0x38 d a b, none)
  | .cmpne d a b => some (word 0x39 d a b, none)
  | .cmplt d a b => some (word 0x3A d a b, none)
  | .cmple d a b => some (word 0x3B d a b, none)
  | .cmpun d a b => some (word 0x3C d a b, none)
  | .cls d a lit => some (word 0x3D d a 0, some lit)
  | .sel d a b lit => some (word 0x3E d a b, some lit)
  | .mov d a => some (word 0x3F d a 0, none)
  | .cvt d a lit => some (word 0x40 d a 0, some lit)
  | .cvtr d a lit => some (word 0x41 d a 0, some lit)
  | .pack d a b => some (word 0x42 d a b, none)
  | .widen d a h => some (word 0x43 d a h, none)
  | .dec8 d a g => some (word 0x44 d a g, none)
  | .enc8 d a b => some (word 0x45 d a b, none)
  | .dec6 d a g => some (word 0x46 d a g, none)
  | .enc6 d a => some (word 0x47 d a 0, none)
  | .scaleb d a b => some (word 0x48 d a b, none)
  | .rndint d a => some (word 0x49 d a 0, none)
  | .dot4 d a b => some (word 0x4A d a b, none)
  | .sad d a b => some (word 0x4B d a b, none)
  | .madi d a b => some (word 0x4C d a b, none)
  | .addc d a b lit => some (word 0x4D d a b, some lit)
  | .subb d a b lit => some (word 0x4E d a b, some lit)
  | .frcp2 d a => some (word 0x4F d a 0, none)
  | .movl d lit => some (word 0x50 d 0 0, some lit)
  | .movs d lit => some (word 0x51 d 0 0, some lit)
  | .iota d a b => some (word 0x52 d a b, none)
  | .shfl d a b lit => some (word 0x53 d a b, some lit)
  | .bcast d a b => some (word 0x54 d a b, none)
  | .lreduce d a lit => some (word 0x55 d a 0, some lit)
  | .lscan d a lit => some (word 0x56 d a 0, some lit)
  | .ballot d p => some (word 0x57 d p 0, none)
  | .vote d p lit => some (word 0x58 d p 0, some lit)
  | .plogic d a b lit => some (word 0x59 d a b, some lit)
  | .pset d lit => some (word 0x5A d 0 0, some lit)
  | .pget d p => some (word 0x5B d p 0, none)
  | .pmov d a => some (word 0x5C d a 0, none)
  | .bmm d a b => some (word 0x60 d a b, none)
  | .bmmx d a b => some (word 0x61 d a b, none)
  | .pdep d a b => some (word 0x62 d a b, none)
  | .pext d a b => some (word 0x63 d a b, none)
  | .bpld k a => some (word 0x64 k a 0, none)
  | .bperm d a k => some (word 0x65 d a k, none)
  | .popc d a => some (word 0x66 d a 0, none)
  | .clz d a => some (word 0x67 d a 0, none)
  | .ctz d a => some (word 0x68 d a 0, none)
  | .brev d a => some (word 0x69 d a 0, none)
  | .bfx d a lit => some (word 0x6A d a 0, some lit)
  | .bfi d a lit => some (word 0x6B d a 0, some lit)
  | .gfmul8 d a b => some (word 0x6C d a b, none)
  | .clmul d a b => some (word 0x6D d a b, none)
  | .clmulh d a b => some (word 0x6E d a b, none)
  | .byteperm d a b => some (word 0x6F d a b, none)
  | .rcp d a => some (word 0x70 d a 0, none)
  | .rsq d a => some (word 0x71 d a 0, none)
  | .sqrt d a => some (word 0x72 d a 0, none)
  | .exp2 d a => some (word 0x73 d a 0, none)
  | .log2 d a => some (word 0x74 d a 0, none)
  | .sinpi d a => some (word 0x75 d a 0, none)
  | .cospi d a => some (word 0x76 d a 0, none)
  | .tanh d a => some (word 0x77 d a 0, none)
  | .divf d a b => some (word 0x78 d a b, none)
  | .ld8 d a b => some (word 0x80 d a b, none)
  | .ld16 d a b => some (word 0x81 d a b, none)
  | .ld32 d a b => some (word 0x82 d a b, none)
  | .ld64 d a b => some (word 0x83 d a b, none)
  | .st8 d a b => some (word 0x84 d a b, none)
  | .st16 d a b => some (word 0x85 d a b, none)
  | .st32 d a b => some (word 0x86 d a b, none)
  | .st64 d a b => some (word 0x87 d a b, none)
  | .ldl d a b => some (word 0x88 d a b, none)
  | .stl d a b => some (word 0x89 d a b, none)
  | .sld d a b lit => some (word 0x8A d a b, some lit)
  | .sst d a b lit => some (word 0x8B d a b, some lit)
  | .nld d a b lit => some (word 0x8C d a b, some lit)
  | .nst d a b lit => some (word 0x8D d a b, some lit)
  | .wld d a b => some (word 0x8E d a b, none)
  | .cstr d a p => some (word 0x8F d a p, none)
  | .xld d a p => some (word 0x90 d a p, none)
  | .tld d a b lit => some (word 0x91 d a b, some lit)
  | .tst d a b lit => some (word 0x92 d a b, some lit)
  | .pref a b => some (word 0x93 0 a b, none)
  | .sealRegion a b => some (word 0x94 0 a b, none)
  | .unsealRegion a b => some (word 0x95 0 a b, none)
  | .fence scope => some (word 0x96 scope 0 0, none)
  | .xfence scope paths => some (word 0x97 scope paths 0, none)
  | .pin a b => some (word 0x98 0 a b, none)
  | .unpin a b => some (word 0x99 0 a b, none)
  | .cinv a b => some (word 0x9A 0 a b, none)
  | .cwb a b => some (word 0x9B 0 a b, none)
  | .ldacq d a b lit => some (word 0x9C d a b, some lit)
  | .strel d a b lit => some (word 0x9D d a b, some lit)
  | .aadd d a b lit => some (word 0xA0 d a b, some lit)
  | .amin d a b lit => some (word 0xA1 d a b, some lit)
  | .amax d a b lit => some (word 0xA2 d a b, some lit)
  | .aand d a b lit => some (word 0xA3 d a b, some lit)
  | .aor d a b lit => some (word 0xA4 d a b, some lit)
  | .axor d a b lit => some (word 0xA5 d a b, some lit)
  | .aswp d a b lit => some (word 0xA6 d a b, some lit)
  | .acas d a b lit => some (word 0xA7 d a b, some lit)
  | .afadd d a b lit => some (word 0xA8 d a b, some lit)
  | .axadd d a b lit => some (word 0xA9 d a b, some lit)
  | .lres d a lit => some (word 0xAA d a 0, some lit)
  | .scond d a b lit => some (word 0xAB d a b, some lit)
  | .tbegin d => some (word 0xAC d 0 0, none)
  | .tcommit d => some (word 0xAD d 0 0, none)
  | .tabort code => some (wordAB 0xAE 0 code, none)
  | .tstat d => some (word 0xAF d 0 0, none)
  | .mfmt a => some (word 0xB0 0 a 0, none)
  | .mma acc a b => some (word 0xB1 acc a b, none)
  | .mmaz acc a b => some (word 0xB2 acc a b, none)
  | .mbatch n => some (word 0xB3 n 0 0, none)
  | .mwait n => some (word 0xB4 n 0 0, none)
  | .mdrain acc a b => some (word 0xB5 acc a b, none)
  | .maccld acc a => some (word 0xB6 acc a 0, none)
  | .mstage n a b => some (word 0xB7 n a b, none)
  | .mstat d acc => some (word 0xB8 d acc 0, none)
  | .cpy d a => some (word 0xC0 d a 0, none)
  | .cpyd d a => some (word 0xC1 d a 0, none)
  | .cpym d a => some (word 0xC2 d a 0, none)
  | .cpymc d a => some (word 0xC3 d a 0, none)
  | .cpyn d a => some (word 0xC4 d a 0, none)
  | .halo d a b => some (word 0xC5 d a b, none)
  | .haloq d a => some (word 0xC6 d a 0, none)
  | .evpop d => some (word 0xC7 d 0 0, none)
  | .evpeek d => some (word 0xC8 d 0 0, none)
  | .wsld d a => some (word 0xC9 d a 0, none)
  | .arm a b => some (word 0xCA 0 a b, none)
  | .disarm a => some (word 0xCB 0 a 0, none)
  | .cpyx d a => some (word 0xCC d a 0, none)
  | .wpush a b => some (word 0xD0 0 a b, none)
  | .wpop d => some (word 0xD1 d 0 0, none)
  | .wpopw d => some (word 0xD2 d 0 0, none)
  | .wdone => some (word 0xD3 0 0 0, none)
  | .wfloor d => some (word 0xD4 d 0 0, none)
  | .wstat d => some (word 0xD5 d 0 0, none)
  | .ckrole d => some (word 0xD8 d 0 0, none)
  | .cksig d k => some (word 0xD9 d k 0, none)
  | .tmark mark => some (wordAB 0xDA 0 mark, none)
  | .halt => some (word 0xE0 0 0 0, none)
  | .clkq d => some (word 0xE1 d 0 0, none)
  | .pwload a => some (word 0xE2 0 a 0, none)
  | _ => none

/-- The opcode of an instruction's word; an event has none. -/
def Instr.opcode (i : Instr) : Nat :=
  match encode i with
  | some (w, _) => (rawWord w).op.toNat
  | none => 0

/-- The 32-bit word at a 16-byte bundle's word index, little-endian (R4, R54). -/
def bundleWord (bytes : List Byte) (k : Nat) : Word32 :=
  (bytes.getD (4 * k + 3) 0) ++ (bytes.getD (4 * k + 2) 0) ++ (bytes.getD (4 * k + 1) 0) ++ (bytes.getD (4 * k) 0)

/-- The instruction read from a table word: its first word in bits 31:0 stands in slot 1, and the word after it, if the
instruction takes one, in bits 63:32; bits above `nbits` are zero. -/
def decodeTableWord (nbits w : Nat) : Option Instr :=
  let w := w % 2 ^ nbits
  match decodeInstr 1 (BitVec.ofNat 32 w) (BitVec.ofNat 32 (w / 2 ^ 32)) with
  | .ok i => some i
  | .error _ => none

end Sys2Proof
end

