-- ==== Sys2Proof/Machine/State.lean ====
section
/-! DEFINITION. The state of the module as plain data: every piece of state the spec names, the reasons a step can stop,
and the state right after reset. Maps are sorted association lists in canonical form (no entry equal to the default). -/

namespace Sys2Proof.Machine

/-- Why the machine stops. -/
inductive Fault where
  /-- The module has no power (R437, R438): nothing executes until power is applied. Raised by `step` when the next thing
  the outside world does is not to apply power. Safe: a device without power does nothing. -/
  | powerOff
  deriving DecidableEq, Repr

/-- Why a step is refused. -/
inductive Refusal where
  /-- An instruction with no meaning yet; the string is its mnemonic. Raised by the dispatch only. Safe. -/
  | notModelled (mnemonic : String)
  /-- A meaning was asked to run an instruction while no path is issuing, which no step does. Raised by the meanings of
  instructions. Safe: it says nothing of the device. -/
  | noIssuer
  deriving DecidableEq, Repr

/-- A sorted association list. -/
abbrev SMap (α : Type) := List (Nat × α)

/-- An address space (R105, R209): global memory of an ASID, the scratchpad of a core, the weight store of a die. -/
inductive Space where
  | global (asid : Nat) | scratch (core : Nat) | weight (die : Nat)
  deriving DecidableEq, Repr

/-- A location: a byte of an address space (R105). A scratchpad offset is the physical offset in the core. -/
structure Loc where
  space : Space
  addr : Nat
  deriving DecidableEq, Repr

/-- Which run of a block an agent belongs to (R352): an unchecked-free block, or the original, shadow or tiebreak. -/
inductive Run where
  | plain | original | shadow | tiebreak
  deriving DecidableEq, Repr

/-- What keeps a path from issuing (R42, R145, R274, R296, R336, R439). -/
inductive Park where
  /-- Live and not parked. -/
  | running
  /-- Parked at an RJOIN (R145). -/
  | rjoin (token : Nat)
  /-- Parked on a barrier: the object, the phase it waits to leave, its destination, whether it executed ARRWAIT, the
  pending completion and the order of its parking (R42, R156). -/
  | barrier (obj : Loc) (phase : Bool) (dest : OpCode) (arrwait : Bool) (seqNo since : Nat)
  /-- Parked on a signal (R158). -/
  | signal (obj : Loc) (threshold : Word) (dest : OpCode) (seqNo since : Nat)
  /-- Parked on the block's event queue on its core (R319). -/
  | event (dest : OpCode) (seqNo since : Nat)
  /-- Parked on a worklist domain (R337). -/
  | worklist (dest : OpCode) (askers : Mask) (seqNo since : Nat)
  /-- Issues nothing until a pending completion of the wave is done (R274, R296, R308, R336). -/
  | hold (seqNo : Nat)
  /-- Its wait is satisfied, and it issues nothing until the wait's completion (R23); `reason` is the stall reason of the wait
  it is still in (R405). -/
  | woken (seqNo reason : Nat)
  /-- Waits for the host's answer to a fault record of its function, then issues its instruction again (R439). -/
  | faulted (fn ticket : Nat)
  /-- Has executed PSAVE and waits for the conditions of R40. -/
  | saved
  deriving DecidableEq, Repr

/-- A path: a program-counter slot or a fragment with a nonzero mask (R30, R31). -/
structure Path where
  /-- bundle address -/
  pc : Word
  /-- next slot to issue, 1 to 3 -/
  slot : Nat
  /-- no non-NOP slot of the bundle has issued since its start, so its WAIT applies (R133, R144) -/
  fresh : Bool
  mask : Mask
  park : Park
  /-- current safe point (R39) -/
  safePoint : Option Nat
  /-- path flags 1 to 3 of R40: resumes at its RJOIN, wait half only, restore pending -/
  atRjoin : Bool
  waitResume : Bool
  restorePending : Bool
  /-- has been unlinked from its wait or RJOIN by a pre-emption request and has still to take its safe point (R42) -/
  savePending : Bool
  /-- has entered a save routine (R161) -/
  inSave : Bool
  /-- the point its restore routine returns to, laid out as s61 is (R41, R42) -/
  resume : Word
  /-- clock of its last issue, and whether that was a taken control transfer (R133) -/
  lastIssue : Nat
  taken : Bool
  /-- has issued at least once, or was placed by a branch, so that `lastIssue` binds -/
  issued : Bool
  /-- STALL of NOPs passed since (R134) -/
  nopStall : Nat
  /-- clocks it has been eligible without issuing (R139) -/
  passed : Nat
  /-- clock of its yield, while it ranks as youngest (R138) -/
  yielded : Option Nat
  /-- a YIELD of this bundle takes effect after its last issued slot (R138, R150) -/
  yieldPending : Bool
  /-- order in which fragments were made (R136, R142) -/
  born : Nat
  deriving DecidableEq, Repr

/-- REPSTATE (R147). -/
structure RepState where
  valid : Bool
  path : Nat
  stride : Byte
  next : Nat
  left : Nat
  deriving DecidableEq, Repr

/-- Register files written by a completing instruction. The key is that of the file's map. -/
inductive RegFile where
  | vector | scalar | predicate | permutation
  deriving DecidableEq, Repr

structure RegWrite where
  file : RegFile
  key : Nat
  value : Word
  deriving DecidableEq, Repr

/-- The access paths (R13), and none. -/
inductive AccessPath where
  | ls | at | mx | cp | wl | fb | none
  deriving DecidableEq, Repr

/-- An issued instruction that has not completed (R134). -/
structure Completion where
  seqNo : Nat
  /-- flag raised by SETF: 0 none, k + 1 for fk (R55) -/
  setf : Nat
  writes : List RegWrite
  /-- the access path of the operation, for fences (R116, R117) and the drain of EXIT and TAIL (R36) -/
  path : AccessPath
  /-- an outstanding store for the drain of EXIT and TAIL -/
  store : Bool
  /-- the data has returned, and the result waits for an earlier one (R135) -/
  returned : Bool
  /-- the words of SS its writes form (R358, R362) -/
  ss : Word
  /-- the format state an MFMT installs (R274) -/
  fmt : Option (List Byte)
  deriving DecidableEq, Repr

/-- One lane's access to memory: its generic address, its width and, for a write, its data (R214). `sel` is the selected
lane's rank for CSTR and XLD. -/
structure LaneAcc where
  lane : Nat
  addr : Word
  width : Nat
  data : Word
  data2 : Word
  deriving DecidableEq, Repr

/-- The read-modify-write operations of R243. -/
inductive AtomicOp where
  | add | min | max | and | or | xor | swap | cas | fadd | xadd
  deriving DecidableEq, Repr

/-- What a memory instruction does once its operands are read. -/
inductive MemKind where
  | load | loadPair | store | storePair | expandLoad | compressStore | loadAcquire | storeRelease
  | tileLoad | tileStore | atomic (op : AtomicOp) | lres | scond
  | pin | mfmt | mdrain | maccld | command | haloCommand | pwload | cinv | cwb
  | arrive | waitb | arrwait | signal | sigwait | bind | unbind | arm
  deriving DecidableEq, Repr

/-- How a memory instruction's address is read (R209, R217, R221, R222): a generic address, an offset in the block's
share on the issuing core or on core `c` of the grove, or an offset in the weight store. -/
inductive AddrForm where
  | generic | share | neighbour (c : Nat) | weight
  deriving DecidableEq, Repr

/-- A memory instruction with its source operand values, as the operand log holds it (R50). -/
structure MemOp where
  kind : MemKind
  form : AddrForm
  /-- the lanes' accesses, in ascending lane order -/
  lanes : List LaneAcc
  dest : OpCode
  /-- the active mask of the instruction, for destinations written in every active lane -/
  mask : Mask
  scalar : Bool
  /-- sign-extend loads (R216), signed AMIN and AMAX (R243) -/
  signed : Bool
  scope : Nat
  /-- elide bit of LRES (R253), `out` shape of a tile (R225) -/
  option : Bool
  /-- base, length or pitch, and further operand of a wave-level instruction -/
  base : Word
  arg : Word
  arg2 : Word
  /-- opcode of a command, accumulator of a matrix instruction -/
  code : Nat
  /-- registers' data of a tile store, and the tile value fixed at issue of a drain -/
  vals : List Word
  /-- 8-bit and wider memory data a matrix instruction fixed at issue -/
  tile : SMap Nat
  deriving DecidableEq, Repr

/-- An entry of the operand log (R50). -/
structure LogEntry where
  word : Word32
  /-- where the instruction stands, and its path's place -/
  bundle : Word
  slot : Nat
  place : Nat
  op : MemOp
  /-- the pending completion whose flag stays raised -/
  seqNo : Nat
  /-- the access path of the instruction -/
  path : AccessPath
  /-- a repeat of this path's REP waits for the entry (R146) -/
  rep : Bool
  deriving DecidableEq, Repr

/-- What trap entry holds until TRET (R44). -/
structure HeldCopy where
  places : SMap Path
  stack : List Path
  rep : RepState
  /-- place of the faulting path -/
  faultPlace : Nat
  lastSlot : Nat
  deriving DecidableEq, Repr

/-- An arrival record (R155, R156): the address as the instruction gave it. -/
structure ArrivalRec where
  addr : Word
  phase : Bool
  deriving DecidableEq, Repr

/-- A pending SCRATCH_GUARD report (R51). -/
structure GuardReport where
  bank : Nat
  offset : Nat
  more : Nat
  deriving DecidableEq, Repr

/-- A pending EXACT_CELL_RANGE report (R246): the flag of the AXADD (0 none, k + 1 for fk) and the cell's address. -/
structure CellReport where
  setf : Nat
  addr : Word
  deriving DecidableEq, Repr

/-- A reservation: the 256 B line and the address as named (R253). -/
structure Reservation where
  line : Loc
  addr : Word
  valid : Bool
  deriving DecidableEq, Repr

/-- One 64 B sector of a lane's read or write set (R256, R258): the value read when it was first read, and the bytes
written. `locks` are the written bytes that a SCOND of an elided section put there, dropped at commit (R263). -/
structure TxSector where
  sector : Nat
  readVal : Option (List Byte)
  writes : SMap Byte
  locks : List Nat
  deriving DecidableEq, Repr

/-- A transactional lane (R256, R260). -/
structure TxLane where
  lane : Nat
  sectors : List TxSector
  status : Nat
  code : Nat
  /-- words of SS of the stores in its write set (R358, R417) -/
  ss : Word
  deriving DecidableEq, Repr

/-- An elided section (R263): the lock line, the LRES that opened it, the path that executed it (named by its `born`) and
the lanes it made transactional. `plain`: the section has aborted, and its LRES is to be performed plainly. -/
structure Elision where
  line : Loc
  bundle : Word
  slot : Nat
  path : Nat
  lanes : List Nat
  plain : Bool
  deriving DecidableEq, Repr

/-- What a full L2 set or log area refuses (R355, R356): the write of a path's instruction (named by its `born`), of an entry of
the operand log, of a command to a line, of a tile operation, or an arrival of a stage. -/
inductive Refuser where
  | path (born : Nat)
  | entry (seqNo : Nat)
  | command (tag line : Nat)
  | tile (order : Nat)
  | stage (core group : Nat)
  deriving DecidableEq, Repr

/-- A pending fence or acquire (R115 to R117): the access paths on which later accesses wait, and the completion that
ends it; `ready` when that completion is on its way. -/
structure Fence where
  seqNo : Nat
  paths : List AccessPath
  scope : Nat
  needsLog : Bool
  ready : Bool
  deriving DecidableEq, Repr

/-- A matrix batch (R281): known, with the contributions in it. -/
structure Batch where
  n : Nat
  contribs : List Nat
  deriving DecidableEq, Repr

/-- A wave (R29) with everything it owns. -/
structure Wave where
  uid : Nat
  lid : Nat
  bid : Nat
  run : Run
  fn : Nat
  ctx : Nat
  core : Nat
  part : Nat
  wslot : Nat
  waveId : Nat
  role : Nat
  budget : Nat
  placedAt : Nat
  /-- index of its slot of the save area (R389) -/
  saveSlot : Nat
  /-- vector registers, key 32 r + lane; s registers; predicates, key 32 n + lane -/
  v : SMap Word
  s : SMap Word
  p : SMap Byte
  mode : ModeReg
  /-- flag counts f0 to f11 (R38) -/
  flags : SMap Nat
  rep : RepState
  /-- region stack, top first (R160) -/
  regions : List (BitVec 16)
  /-- live paths by path record index (R40): 0 slot 1, 1 slot 2, 2 to 7 fragment places -/
  places : SMap Path
  /-- fragment stack, most recently pushed first (R32) -/
  stack : List Path
  /-- the program-counter slot that issued last, if both were live then (R30); 2 for none -/
  lastSlot : Nat
  nextSeq : Nat
  pending : List Completion
  log : List LogEntry
  held : Option HeldCopy
  /-- sets in join order with positions (R152, R153) -/
  sets : List (Nat × Nat)
  arrivals : List ArrivalRec
  guardRep : Option GuardReport
  cellReps : List CellReport
  /-- permutation slots, key 64 k + j (R200) -/
  perm : SMap Nat
  /-- format state: the 64 bytes of the block (R271) -/
  fmt : Option (List Byte)
  batches : List Batch
  /-- contributions issued since the last MBATCH, and those not yet complete -/
  looseContribs : List Nat
  liveContribs : List Nat
  reservation : Option Reservation
  tx : List TxLane
  elisions : List Elision
  fences : List Fence
  /-- PINSTAT (R237) and the broken pins' lines that still raise PIN_LOST (R232) -/
  pinAsked : Nat
  pinMade : Nat
  brokenPins : List (Nat × Nat)
  /-- halt request pending (R47), pending stops (R409) -/
  haltPending : Bool
  watchStop : Bool
  traceStop : Bool
  /-- how the wave leaves once its stores drain: `some true` by EXIT (R151) -/
  leaving : Option Bool
  /-- words of SS formed by the wave's own completed instructions (R362) -/
  ownSS : Word
  /-- barriers delivered while PSAVE waited, with the phase before (R309) -/
  delivered : List ArrivalRec
  /-- held writes that are refused, with the clock of the first refusal (R355, R356) -/
  refused : List (Refuser × Nat)
  /-- 256 B lines it has written on each access path and not yet performed by a fence or release (R118) -/
  dirty : List (AccessPath × Loc)
  deriving DecidableEq, Repr

/-- The path that is issuing, set by `step` before an instruction's meaning runs. -/
structure Issue where
  uid : Nat
  /-- path record index of the issuing path -/
  place : Nat
  bundle : Word
  slot : Nat
  word : Word32
  literal : Word32
  /-- SETF and STALL of the slot's control (R55) -/
  setf : Nat
  stall : Nat
  /-- a later slot of the bundle holds a non-NOP word or a nonzero control (R57) -/
  laterUsed : Bool
  /-- the literal's control field is nonzero (R59) -/
  literalCtl : Bool
  /-- word of the next slot, for REP (R146) -/
  nextWord : Word32
  /-- a yield takes effect with this instruction (R138), which is then the last issued slot of its bundle -/
  yieldBit : Bool
  /-- no later slot of the bundle holds a non-NOP word -/
  isLast : Bool
  /-- a yield takes effect with a REP that skips its target, after which no slot of the bundle issues (R138, R146) -/
  skipYield : Bool
  /-- the iteration, when the instruction is a repeat -/
  iteration : Option Nat
  deriving DecidableEq, Repr

/-- Scheduler state of one partition (R131 to R140) and its stall histogram (R405). -/
structure Part where
  aBusy : Nat
  bBusy : Nat
  greedy : Option (Nat × Nat)
  pointer : Nat
  /-- the pipes that took an instruction in this clock -/
  aUsed : Bool
  bUsed : Bool
  /-- paths that issued in this clock, in order: wave, path, wave slot, and the clock of the yield with which the path stood
  in this clock's order. A path is named by its `born` -/
  issued : List (Nat × Nat × Nat × Option Nat)
  /-- paths whose engine did not accept their instruction in this clock (R131, R133), with the stall reason (R405) -/
  tried : List (Nat × Nat × Nat)
  /-- starving paths, which go first, the oldest before the others (R139) -/
  first : List (Nat × Nat)
  /-- pairing: the other pipe is offered to sparse paths first in this clock (R139): 0 none, 1 pipe A, 2 pipe B -/
  pairing : Nat
  /-- the policy of this clock, once a path of the partition has acted in it: RR or GTO (R140) -/
  policy : Option Bool
  /-- every path waits at HALT or is parked, and the clock stands still until the next boundary (R425) -/
  stopped : Bool
  /-- the clock from which the counts of a profile record run, later by one for each clock that stood still (R406, R425) -/
  since : Nat
  bins : List Nat
  reasons : List Nat
  idle : Nat
  sampleFns : List Nat
  deriving DecidableEq, Repr

/-- Where a command instruction was issued (R296): its word and place, REPSTATE as it stood, and whether the operand log
performed it since. -/
structure IssuePoint where
  bundle : Word
  slot : Nat
  word : Word32
  rep : RepState
  logged : Bool
  deriving DecidableEq, Repr

/-- A copy command (R296, R298, R312). -/
structure Command where
  tag : Nat
  op : Nat
  uid : Nat
  lid : Nat
  bid : Nat
  run : Run
  fn : Nat
  ctx : Nat
  /-- not accepted yet (R296): the pending completion that takes the tag -/
  waitSeq : Option Nat
  issuedAt : IssuePoint
  desc : List Byte
  /-- halo table and face mask (R312) -/
  table : List Byte
  faceMask : Nat
  descAddr : Word
  /-- target cores of a multicast still to be delivered, cancelled ones removed (R305) -/
  targets : List Nat
  mask : Nat
  status : Nat
  started : Bool
  /-- bytes or faces done of the copy or of the portion under way; it waits for the host's answer to a fault (R302) -/
  progress : Nat
  waiting : Bool
  /-- its bytes, or those of the portion under way, have been moved or stopped for good; its fill has been counted (R304) -/
  moved : Bool
  filled : Bool
  /-- its faces that failed, with their causes (R314) -/
  failed : SMap Nat
  /-- a guard granule was met (R302) -/
  guardMet : Bool
  /-- map generation of its ASID when it was accepted (R302, R386) -/
  mapGen : Nat
  /-- words of SS its writes form (R358) -/
  ss : Word
  deriving DecidableEq, Repr

/-- State of an arm record (R305). -/
inductive ArmState where
  | armed | committed | cancelled
  deriving DecidableEq, Repr

structure ArmRec where
  uid : Nat
  lid : Nat
  bid : Nat
  run : Run
  key : Word
  barrier : Word
  loc : Loc
  state : ArmState
  /-- issuing core and tag of the command that committed it -/
  source : Nat
  tag : Nat
  /-- completions of the DISARMs that wait for its delivery (R308) -/
  disarms : List Nat
  deriving DecidableEq, Repr

/-- A contribution to a matrix group (R270, R276): the quarter's registers as they stood. -/
structure Contrib where
  id : Nat
  uid : Nat
  seqNo : Nat
  pos : Nat
  /-- the registers vN on, key 32 j + lane -/
  regs : SMap Word
  deriving DecidableEq, Repr

/-- A matrix group (R270): partial until four contributions. Formed groups stand in the order they were formed. -/
structure Group where
  id : Nat
  zero : Bool
  acc : Nat
  /-- read(A), and its offset in the share -/
  aAddr : Word
  aOff : Nat
  fmt : List Byte
  lid : Nat
  bid : Nat
  run : Run
  set : Nat
  contribs : List Contrib
  /-- formed, and the clock at which that was -/
  formed : Bool
  formedAt : Nat
  started : Bool
  /-- the stage its A base was bound to when it started, with its empty barrier (R284) -/
  stage : Option (Nat × Word)
  /-- it has read its last operand byte, and what it read -/
  readDone : Bool
  aData : List Byte
  deriving DecidableEq, Repr

/-- An MDRAIN or MACCLD that is not done (R286, R289): its number, in the order of issue, and the clock of its issue, by which
the groups formed before it are told from those formed at it or after. -/
structure TileWait where
  order : Nat
  clock : Nat
  uid : Nat
  entry : LogEntry
  deriving DecidableEq, Repr

/-- An accumulator tile (R267, R268): its claim, format (0 W48, 1 W96, 2 I48, 3 the odd half of a W96 pair), elements by
64 r + c as raw bits. -/
structure Tile where
  owner : Nat × Nat × Run
  fmt : Nat
  elems : SMap Nat
  discarded : Bool
  saturated : Bool
  deriving DecidableEq, Repr

/-- A stage of a block on a core (R283). -/
structure Stage where
  lid : Nat
  bid : Nat
  run : Run
  n : Nat
  barrier : Word
  loc : Loc
  /-- operand base, an offset in the share -/
  base : Nat
  gate : Bool
  fill : Nat
  broken : Bool
  deriving DecidableEq, Repr

/-- A retirement tracker entry (R36): the wave it came from, with what is outstanding. -/
structure TrackerEntry where
  wave : Wave
  deriving DecidableEq, Repr

/-- A block's event queue on a core (R318). -/
structure EventQueue where
  lid : Nat
  bid : Nat
  run : Run
  records : List Word
  deriving DecidableEq, Repr

/-- One compute core's engines (R16). -/
structure Core where
  /-- the four channels' commands, oldest first (R296, R297) -/
  channels : List (List Command)
  copySeq : Nat
  arms : List ArmRec
  queues : List EventQueue
  tiles : SMap Tile
  groups : List Group
  tileOps : List TileWait
  engineBusy : Nat
  stages : List Stage
  tracker : List TrackerEntry
  /-- guarded 64 B granules of the scratchpad (R219) -/
  guards : List Nat
  demerits : Nat
  demeritChange : Nat
  fenced : Bool
  deriving DecidableEq, Repr

/-- The share of a block on one of its cores (R211): physical offset and the waves placed there. -/
structure Share where
  core : Nat
  offset : Nat
  deriving DecidableEq, Repr

/-- A held effect other than a store, kept in program order (R357). -/
inductive HeldItem where
  | arrive (obj : Loc) (n : Nat)
  | signal (obj : Loc) (v : Word)
  | wpush (payload : Word) (bucket : Nat)
  /-- a HALO's sends in the place of its acceptance; its faces' bytes once they are read -/
  | halo (core tag : Nat) (table : List Byte) (mask : Nat) (data : Option (List (List Byte)))
  | seal (asid base len : Nat)
  | unseal (asid base len : Nat)
  deriving DecidableEq, Repr

/-- The saved form of a block (R41, R401): its waves, and what R324 keeps. -/
structure SavedBlock where
  waves : List Wave
  /-- event queues, each with the core it stood on -/
  queues : List (Nat × EventQueue)
  /-- its restore is under way: it reads its headers, or waits for their pages (R439) -/
  restoring : Bool
  deriving DecidableEq, Repr

/-- An entry of the atomic log (R356): operands and returned value of one taking-part lane. `lane` is the lane, or 32
and more for a scalar form, and `index` its count of logged instructions in that lane. -/
structure AtomicLogEntry where
  waveId : Nat
  lane : Nat
  index : Nat
  addr : Word
  operand : Nat
  returned : Nat
  deriving DecidableEq, Repr

inductive BlockPhase where
  | resident | saved | awaitingShadow | awaitingTiebreak | done
  deriving DecidableEq, Repr

/-- One run of one block (R33, R352). -/
structure Block where
  lid : Nat
  bid : Nat
  run : Run
  fn : Nat
  ctx : Nat
  owner : Nat
  /-- chosen for checking and not yet released (R351) -/
  unchecked : Bool
  shares : List Share
  shareSize : Nat
  placedAt : Nat
  phase : BlockPhase
  waveCount : Nat
  wavesLeft : Nat
  ss : Word
  rs : Word
  faulted : Option (Cause × Word)
  departed : Bool
  atomics : Bool
  /-- instructions logged so far by 64 waveId + lane (R264) -/
  atomicIndex : SMap Nat
  /-- the part of `ss` that transactional stores have given it whose lanes have not committed: no launch checksum counts it
  (R358, R417) -/
  txOpen : Word
  quadSets : List Nat
  heldItems : List HeldItem
  saved : Option SavedBlock
  /-- cores used, kept for disjoint placement and demerits (R353, R363) -/
  coresUsed : List Nat
  /-- chosen for release unverified by the RELEASE_UNCHECKED policy (R355) -/
  forced : Bool
  deriving DecidableEq, Repr

/-- A held version of a 64 B sector (R354): the sector's virtual address, the run it belongs to, and its bytes. -/
structure HeldSector where
  lid : Nat
  bid : Nat
  run : Run
  asid : Nat
  sector : Nat
  bytes : List Byte
  /-- the bytes its stores put there, which a release writes; arrivals and signals are applied again instead (R357) -/
  stored : SMap Byte
  deriving DecidableEq, Repr

/-- A launch (R391, R394). -/
structure Launch where
  lid : Nat
  fn : Nat
  q : Nat
  ctx : Nat
  packet : List Byte
  header : List Byte
  args : List Word
  admittedAt : Nat
  nextBlock : Nat
  blocksDone : Nat
  blocksOk : Nat
  level : Nat
  sampleK : Nat
  domain : Option Nat
  wstage : Bool
  home : Nat
  marker : Bool
  /-- status found so far with its order of R398, and the detail -/
  status : Nat
  detail : Nat
  /-- steps 5 and 6 of R398 done so far, for accesses that wait on a fault -/
  phase : Nat
  priority : Nat
  waitFault : Option Nat
  checksum : Word
  /-- the launch its queue admitted before it (R393); 0 for none -/
  prev : Nat
  /-- seed tasks not yet entered (R329) -/
  seeds : List (Word × Nat)
  /-- owner identifiers of its placed blocks, by block_id (R154) -/
  owners : SMap Nat
  /-- admitted while capture recorded its context (R415) -/
  recorded : Bool
  /-- a replayed launch: the recorded checksum (R418) -/
  replaySum : Option Word
  deriving DecidableEq, Repr

inductive CtxState where
  | running | errored | preempted
  /-- being destroyed: absent once its launches have completed (R399) -/
  | closing
  deriving DecidableEq, Repr

/-- A context (R388) with its pre-emption request: level and clock (R401). -/
structure Context where
  fn : Nat
  id : Nat
  state : CtxState
  asid : Nat
  rr : Bool
  releaseUnchecked : Bool
  elide : Bool
  root : Nat
  handler : Word
  saveBase : Word
  saveSize : Word
  logBase : Word
  logSize : Word
  boundUs : Nat
  preempt : Option (Nat × Nat)
  traceStop : Bool
  deriving DecidableEq, Repr

/-- What a fault record's requester waits with (R383, R384). -/
inductive Requester where
  | logEntry (uid seqNo : Nat)
  | path (uid ticket : Nat)
  | command (core chan : Nat)
  | node (dom grove : Nat)
  | launch (lid : Nat)
  | queue (q : Nat)
  | tracker (core : Nat)
  | stage (core group : Nat)
  | release (lid bid : Nat)
  /-- a saved block's restore; `run` is its run's code -/
  | restore (lid bid run : Nat)
  | replay
  | none
  deriving DecidableEq, Repr

/-- A fault record (R383), kept until answered. -/
structure FaultRec where
  seqNo : Nat
  va : Nat
  asid : Nat
  cause : Nat
  kind : Nat
  flags : Nat
  coalesced : Nat
  requester : Nat
  entry : Nat
  waiters : List Requester
  answered : Bool
  deriving DecidableEq, Repr

/-- A fault waiting for room in a full or disabled ring (R383, R385). -/
structure WaitingFault where
  va : Nat
  asid : Nat
  cause : Nat
  kind : Nat
  flags : Nat
  requester : Nat
  entry : Nat
  waiter : Requester
  deriving DecidableEq, Repr

/-- A launch queue's host registers and the processor's position (R387, R390). -/
structure Queue where
  base : Word
  ctl : Word
  read : Nat
  widx : Nat
  /-- the last value written to QWIDX, whether it was taken or not (R390) -/
  lastW : Nat
  /-- stopped at an empty slot until the next notification -/
  stopped : Bool
  prio : Nat
  agedAt : Nat
  /-- the last launch admitted -/
  lastLid : Nat
  waitFault : Option Nat
  deriving DecidableEq, Repr

/-- A watchpoint (R407, R412). -/
structure Watch where
  addr : Word
  ctl : Word
  deriving DecidableEq, Repr

/-- Capture and replay (R415 to R418). -/
structure Capture where
  state : Nat
  ctx : Nat
  records : Nat
  parts : Nat
  bytes : Nat
  stopping : Bool
  pending : Bool
  deriving DecidableEq, Repr

/-- A virtual function: its windows' registers and engine state (R385, R387, R402, R412). -/
structure Function where
  enable : Bool
  wsok : Bool
  asidFirst : Nat
  asidCount : Nat
  flr : Bool
  flrPhase : Nat
  /-- shares a function-level reset is to zero: core, offset, size (R402) -/
  scrub : List (Nat × Nat × Nat)
  /-- the clocks at which the answers to requests that its killed waves had sent are back and dropped (R402) -/
  draining : List Nat
  /-- plain registers of the function window, by offset -/
  regs : SMap Word
  queues : SMap Queue
  lastCause : Nat
  preemptEv : Nat
  faultTail : Nat
  faultHead : Nat
  faults : List FaultRec
  waitingFaults : List WaitingFault
  invalidating : Bool
  /-- MAPSTAT's state (R385) -/
  mapStat : Nat
  mapPinned : Nat
  mapAsid : Nat
  mapFirst : Nat
  mapCount : Nat
  trWr : Nat
  trRd : Nat
  trLost : Nat
  trPendingLoss : Nat
  prWr : Nat
  prRd : Nat
  prLost : Nat
  watches : SMap Watch
  capture : Capture
  haloSel : Nat
  haloErr : List Nat
  deriving DecidableEq, Repr

/-- A halo window of the chip (R311). -/
structure HaloWindow where
  owner : Nat
  base : Nat
  len : Nat
  ctx : Nat
  /-- the Canopy group the chip was a member of when it was enabled (R314) -/
  group : Option Nat
  enabled : Bool
  deriving DecidableEq, Repr

/-- A peer's face that waits for a pinned line or a map change at its window (R119, R311). -/
structure FaceWait where
  /-- the launch whose release sent it; `none` for a peer's -/
  lid : Option Nat
  window : Nat
  len : Nat
  rows : Nat
  dOff : Nat
  dPitch : Nat
  sig : Bool
  barOff : Nat
  data : List Byte
  deriving DecidableEq, Repr

/-- A write of the host or of a PCIe peer that meets a pinned line, and is repeated until it completes (R119). -/
structure DmaWait where
  pcie : Bool
  addr : Nat
  bytes : List Byte
  deriving DecidableEq, Repr

/-- A trace stream of one partition and context (R411): its time, the events since its last sync point, and whether it
must make a sync point first. -/
structure Stream where
  core : Nat
  part : Nat
  fn : Nat
  ctx : Nat
  time : Nat
  timed : Bool
  events : Nat
  mustSync : Bool
  deriving DecidableEq, Repr

/-- A packet or a record that waits in its die's collector for the ring of its function (R411, R413). -/
structure Collected where
  core : Nat
  part : Nat
  fn : Nat
  ctx : Nat
  /-- a profile record, and no packet -/
  record : Bool
  bytes : List Byte
  deriving DecidableEq, Repr

/-- A translation cached by a TLB (R373). -/
structure TlbEntry where
  tlb : Nat
  asid : Nat
  vbase : Nat
  size : Nat
  pbase : Nat
  w : Bool
  x : Bool
  cow : Bool
  nc : Bool
  entry : Nat
  level : Nat
  deriving DecidableEq, Repr

/-- A class record (R381). `waits`: while a reclassification blocks the page's misses, the atomic requests that were on
their way to its old home when it began (R382). -/
structure ClassRec where
  asid : Nat
  page : Nat
  shared : Bool
  owner : Nat
  generation : Nat
  waits : Option (List Nat)
  deriving DecidableEq, Repr

/-- What a core's class cache holds of a page's record (R381). -/
structure ClassCopy where
  core : Nat
  asid : Nat
  page : Nat
  shared : Bool
  owner : Nat
  generation : Nat
  deriving DecidableEq, Repr

/-- What a cached line records of the translation that filled it (R372), and whether an invalidation has marked that stale
(R385). A page that is not cached has no line (R380). -/
structure LinePerms where
  w : Bool
  x : Bool
  cow : Bool
  size : Nat
  mapGen : Nat
  stale : Bool
  deriving DecidableEq, Repr

/-- A 64 B sector of version 0 in an L2 line: its bytes, and whether DRAM lacks them (R14, R354). -/
structure Sector where
  bytes : List Byte
  dirty : Bool
  deriving DecidableEq, Repr

/-- A line of the L2 (R14, R20): tagged by ASID and virtual line, with the physical line it was filled from. A sector that
is not listed is not in the line. ASID 0 tags the lines of walks (R374). -/
structure L2Line where
  asid : Nat
  line : Nat
  pa : Nat
  perms : LinePerms
  sectors : SMap Sector
  deriving DecidableEq, Repr

/-- A line of a core's L1, or of its instruction cache (R16): the tag and the bits recorded with it (R372). Its bytes are
those of the L2 line, which holds every line of an L1 (log entry 76). -/
structure L1Line where
  core : Nat
  instr : Bool
  asid : Nat
  line : Nat
  perms : LinePerms
  deriving DecidableEq, Repr

/-- A pinned line (R231). -/
structure Pin where
  asid : Nat
  line : Nat
  uid : Nat
  lid : Nat
  deriving DecidableEq, Repr

/-- A narrow-scope pin (R118): the 256 B line, the wave that holds it, and the scope's domain. -/
structure ScopePin where
  line : Loc
  uid : Nat
  lid : Nat
  scope : Nat
  core : Nat
  deriving DecidableEq, Repr

/-- A region bound to an object (R159). -/
structure Binding where
  obj : Loc
  base : Word
  len : Nat
  lid : Nat
  deriving DecidableEq, Repr

/-- An atomic request on its way to its home (R239, R243). -/
structure AtomicReq where
  id : Nat
  uid : Nat
  /-- SETF of the instruction, for its EXACT_CELL_RANGE report (R246) -/
  setf : Nat
  /-- clock at which its values are back -/
  due : Nat
  /-- the instruction with its operands, as the operand log would hold it -/
  entry : LogEntry
  /-- it was issued inside a trap handler, where a fault of it is a double fault (R46) -/
  handler : Bool
  /-- the class generations its core sent it with, by page, and the map generation it was translated under (R382, R386) -/
  classGen : SMap Nat
  mapGen : Nat
  deriving DecidableEq, Repr

/-- A queued task of a Cascade node (R329): payload, bucket, and the order in which it entered. -/
structure Task where
  payload : Word
  bucket : Nat
  order : Nat
  deriving DecidableEq, Repr

/-- A domain's part of one node (R331, R341, R343). -/
structure NodeTasks where
  /-- queued tasks by bucket, oldest first within one -/
  tasks : List Task
  /-- spilled entries this node recorded: address, bucket, order -/
  spilled : List (Nat × Nat × Nat)
  /-- a steal request is in flight (R340) -/
  stealing : Bool
  /-- a steal waits for waiters of a higher-priority context that the node cannot serve (R343) -/
  stealHeld : Bool
  nextVictim : Nat
  /-- has served a push, pop, WDONE or steal since the last token wave (R345) -/
  served : Bool
  /-- a page fault of the spillway stalls its work for the domain (R341) -/
  stalled : Bool
  deriving DecidableEq, Repr

/-- A push being taken (R332, R335): the tasks still to take, and the instruction that waits for it (uid 0: none). A domain's
pushes stand in the order in which they reached their nodes. -/
structure PushReq where
  id : Nat
  node : Nat
  uid : Nat
  seqNo : Nat
  tasks : List (Word × Nat)
  /-- it enters the launch's seeds (R329) -/
  seeds : Bool
  /-- it waits for a free entry of its node (R341, R344) -/
  waits : Bool
  /-- where the WPUSH issued, for its precise causes (R336), with its words of SS; none for a push that no path waits for -/
  issuedAt : Option (IssuePoint × Nat)
  deriving DecidableEq, Repr

inductive DomState where
  | active | unseeded | terminated | down
  deriving DecidableEq, Repr

/-- A worklist domain (R327, R328). `floor` is F, which every member node holds (R330). -/
structure Domain where
  id : Nat
  lid : Nat
  fn : Nat
  ctx : Nat
  groupScope : Bool
  number : Nat
  delta : Nat
  spillBase : Word
  spillSize : Nat
  state : DomState
  floor : Nat
  nodes : SMap NodeTasks
  /-- spillway chunks in use: chunk index and the node that holds it -/
  chunks : List (Nat × Nat)
  /-- open counts by 32 (1024 b + w) + lane (R337, R339) -/
  open_ : SMap Nat
  /-- tasks in flight in steals, with their thieves -/
  inFlight : List (Nat × List Task)
  rounds : List PushReq
  noneQueued : Bool
  cleanWaves : Nat
  /-- a lowering was acknowledged since the raise round began (R332) -/
  lowered : Bool
  deriving DecidableEq, Repr

/-- A grove's power state (R419 to R425). -/
structure Grove where
  low : Bool
  /-- 0 no switch, 1 lower the clock before switching down, 2 clock rises after switching up -/
  switching : Nat
  clock : Nat
  limit : Nat
  charge : Nat
  lastCharge : Nat
  lowRun : Nat
  /-- the thermal cap, and whether it still falls: it recovers once the temperature is below THTRIP - 5 (R422) -/
  thermalCap : Option Nat
  tripped : Bool
  currentCap : Option Nat
  coolRun : Nat
  temp : Nat
  gated : Bool
  portClosed : Bool
  weights : List Byte
  /-- weight tables that wait for their boundaries (R425): clock and bytes -/
  newWeights : List (Nat × List Byte)
  switchUntil : Nat
  deriving DecidableEq, Repr

/-- A member of the Canopy group as this chip knows it (R427). -/
structure Member where
  chip : Nat
  proposal : Nat
  lastHeard : Nat
  silent : Bool
  heardRun : Nat
  deriving DecidableEq, Repr

/-- What an announcement brings (R427). -/
inductive AnnounceKind where
  /-- an announced change of a proposal -/
  | change
  /-- a proposal broadcast for a thermal trip or a current emergency, applied at the first boundary after it is known -/
  | emergency
  /-- the member's proposal stops counting -/
  | leave
  /-- the ceiling is computed again after an expulsion -/
  | rise
  deriving DecidableEq, Repr

/-- An announcement not yet in effect: the chip, its new proposal, the group time in µs at which it takes effect, and
this chip's clock then (R427). -/
structure Announce where
  chip : Nat
  proposal : Nat
  time : Nat
  due : Nat
  kind : AnnounceKind
  deriving DecidableEq, Repr

/-- A heartbeat sent (R427): announcements as proposals with group times, a leave as proposal 0; chips whose join requests
it carries; and whether it broadcasts an emergency. -/
structure Heartbeat where
  chip : Nat
  seqNo : Nat
  groupTime : Nat
  proposal : Nat
  announces : List (Nat × Nat)
  joins : List Nat
  emergency : Bool
  deriving DecidableEq, Repr

/-- The chip's Canopy logic (R427, R428, R430). -/
structure Canopy where
  /-- 0 alone, 1 joining, 2 member, 3 leaving -/
  state : Nat
  chip : Nat
  group : Nat
  /-- the group's ceiling -/
  ceiling : Nat
  /-- the chip's proposal, and the one in effect -/
  proposal : Nat
  inForce : Nat
  /-- the other members -/
  members : List Member
  announces : List Announce
  /-- chips that request to join, and the latest proposal of each -/
  requests : List Nat
  asked : SMap Nat
  /-- a member's heartbeat has carried a chip's join request: the joining chip and the member, once for each time -/
  carried : List (Nat × Nat)
  /-- admitted with a proposal below the ceiling, whose lowering is not yet in effect (R428) -/
  holdLow : Bool
  seqNo : Nat
  /-- clock of the join request -/
  since : Nat
  /-- group time less this chip's time, in µs -/
  offset : Int
  /-- heartbeats sent, latest first (the fabric's output) -/
  sent : List Heartbeat
  excursions : Nat
  changes : Nat
  /-- the 16 latest excursions, latest first (R369) -/
  latest : List (List Byte)
  deriving DecidableEq, Repr

/-- The package power controller (R421, R422, R429). -/
structure Power where
  /-- plain registers of the module window, by offset -/
  regs : SMap Word
  /-- the grove budgets of this interval on the high and the low rail: GBUDHI and GBUDLO as they stood at its boundary (R419) -/
  budHi : Nat
  budLo : Nat
  modulePower : Nat
  overRun : Nat
  intervalDone : Nat
  deriving DecidableEq, Repr

inductive LifeCycle where
  | provisioning | deployed | return_
  deriving DecidableEq, Repr

/-- An answer on the management port (R433, R434, R437). -/
inductive Answer where
  | health (record : List Byte)
  | certificate (chain : List Byte)
  | status (life : LifeCycle) (epoch firmware : Nat) (resetting imageOk : Bool)
  | started
  | retry
  | refused
  deriving DecidableEq, Repr

/-- The management controller: bring-up, reset and health counts (R369, R433 to R438). -/
structure Mgmt where
  powered : Bool
  /-- bring-up step reached, 1 to 6 (R437) -/
  bringUp : Nat
  /-- the stored image passed its check at the last bring-up, and whether it would pass now (R438) -/
  imageOk : Bool
  slotGood : Bool
  life : LifeCycle
  /-- the state a change under way leads to (R436) -/
  wiping : Option LifeCycle
  epoch : Nat
  healthSeq : Nat
  epochStart : Nat
  threshold : Nat
  releasedUnchecked : Nat
  unresolved : Nat
  afterAtomic : Nat
  tiebreaks : Nat
  /-- ECC corrections: slice or row, clock -/
  sliceEcc : List (Nat × Nat)
  rowEcc : List (Nat × Nat)
  suspectSlices : List Nat
  suspectRows : List Nat
  imgStat : Nat
  image : List Byte
  newImage : List Byte
  /-- image writes begun so far -/
  images : Nat
  /-- answers given on the management port, latest first -/
  answers : List Answer
  deriving DecidableEq, Repr

/-- The machine. -/
structure State where
  /-- core clocks at 2.0 GHz since module reset -/
  clock : Nat
  /-- a counter for placement numbers, ages and orders -/
  counter : Nat
  /-- draws taken from the random source (R351) -/
  draws : Nat
  /-- owner identifiers given so far (R154) -/
  owners : Nat
  /-- what the outside world does next -/
  inputs : List Instr
  /-- the engines' own events with the clocks at which they are due, in order -/
  agenda : List (Nat × Instr)
  issue : Option Issue
  waves : List Wave
  parts : SMap Part
  cores : SMap Core
  blocks : List Block
  launches : List Launch
  ctxs : List Context
  fns : SMap Function
  ageInt : Nat
  -- memory
  dram : List Host.Cell
  scratch : List Host.Cell
  weight : List Host.Cell
  /-- the bank group of the weight store whose refresh window is open (R222) -/
  wsRefresh : Option Nat
  tlb : List TlbEntry
  /-- the L2's lines, and those of the L1s and instruction caches (R14, R16, R20), oldest first -/
  l2 : List L2Line
  l1 : List L1Line
  classes : List ClassRec
  /-- the cores' class caches, oldest first (R381) -/
  classCopies : List ClassCopy
  /-- map generations by ASID (R386) -/
  mapGens : SMap Nat
  /-- sealed regions: ASID, base, length (R230) -/
  seals : List (Nat × Nat × Nat)
  pins : List Pin
  scopePins : List ScopePin
  bindings : List Binding
  /-- set-bound barriers whose current phase has an arrival, as their homes know them, with the owner identifier of the block that
  arrived (R154, R157) -/
  openPhases : List (Loc × Nat)
  atomics : List AtomicReq
  heldSectors : List HeldSector
  atomicLog : List (Nat × Nat × AtomicLogEntry)
  -- Cascade
  domains : List Domain
  -- fabric
  haloWindows : SMap HaloWindow
  /-- faces sent to peers: chip, window, bytes with their window offsets, remote barrier (the fabric's output) -/
  haloSent : List (Nat × Nat × Nat × List Byte × Option Nat)
  linksLost : List Nat
  /-- answers given to peers' faces: 0 or a cause code (the fabric's output) -/
  haloAnswers : List Nat
  /-- faces answered by peers so far (R314) -/
  haloAsked : Nat
  /-- faces of peers and writes of the host and of PCIe peers that wait, oldest first (R119) -/
  facesWaiting : List FaceWait
  dmaWaiting : List DmaWait
  -- trace
  streams : List Stream
  /-- the queues of the dies' collectors, as one list in the order of the events (R413) -/
  collected : List Collected
  /-- waves whose halt request was refused, latest first: the report to the requester (R47) -/
  haltRefusals : List Nat
  -- power and management
  groves : SMap Grove
  canopy : Canopy
  power : Power
  mgmt : Mgmt
  deriving DecidableEq, Repr

/-- The machine right after module reset (R435): every register at its reset value, the scratchpads, tiles and weight
store zero, no context, no resident wave, DRAM as nothing has written it. An absent entry of a map stands for the
component's reset value. -/
def State.reset : State where
  clock := 0
  counter := 0
  draws := 0
  owners := 0
  inputs := []
  agenda := []
  issue := none
  waves := []
  parts := []
  cores := []
  blocks := []
  launches := []
  ctxs := []
  fns := []
  ageInt := 500
  dram := []
  scratch := []
  weight := []
  wsRefresh := some 0
  tlb := []
  l2 := []
  l1 := []
  classes := []
  classCopies := []
  mapGens := []
  seals := []
  pins := []
  scopePins := []
  bindings := []
  openPhases := []
  atomics := []
  heldSectors := []
  atomicLog := []
  domains := []
  haloWindows := []
  haloSent := []
  linksLost := []
  haloAnswers := []
  haloAsked := 0
  facesWaiting := []
  dmaWaiting := []
  streams := []
  collected := []
  haltRefusals := []
  groves := []
  canopy := { state := 0, chip := 0, group := 0, ceiling := 2400, proposal := 2400, inForce := 2400, members := [],
              announces := [], requests := [], asked := [], carried := [], holdLow := false, seqNo := 0, since := 0, offset := 0, sent := [],
              excursions := 0, changes := 0, latest := [] }
  power := { regs := [], budHi := 20000000, budLo := 12000000, modulePower := 0, overRun := 0, intervalDone := 0 }
  mgmt := { powered := true, bringUp := 5, imageOk := true, slotGood := true, life := .provisioning, wiping := none, epoch := 1,
            healthSeq := 0, epochStart := 0, threshold := 4, releasedUnchecked := 0, unresolved := 0, afterAtomic := 0,
            tiebreaks := 0, sliceEcc := [], rowEcc := [], suspectSlices := [], suspectRows := [], imgStat := 0,
            image := [], newImage := [], images := 0, answers := [] }

end Sys2Proof.Machine
end

