-- ==== Sys2Proof/Machine/Bits.lean ====
section
/-! DEFINITION. Bit fields, sign extension, byte order and lane masks (R3, R4, R6, R10). -/

namespace Sys2Proof.Machine

/-- Bits `lo + w - 1 : lo` of a number (R10). -/
def bits (x lo w : Nat) : Nat := x / 2 ^ lo % 2 ^ w

/-- Bit `i` of a number. -/
def bitOf (x i : Nat) : Bool := x.testBit i

/-- `x` with bits `lo + w - 1 : lo` replaced by the low `w` bits of `y`. -/
def putBits (x lo w y : Nat) : Nat :=
  x / 2 ^ (lo + w) * 2 ^ (lo + w) + (y % 2 ^ w) * 2 ^ lo + x % 2 ^ lo

/-- The signed integer held by the low `w` bits of `x` in two's complement (R86). -/
def toSigned (w x : Nat) : Int :=
  if 2 ^ (w - 1) ≤ x % 2 ^ w then (x % 2 ^ w : Nat) - (2 ^ w : Nat) else (x % 2 ^ w : Nat)

/-- The low `w` bits of an integer (R10: keeping the low bits). -/
def lowBits (w : Nat) (i : Int) : Nat := (i % (2 ^ w : Nat)).toNat

/-- `sext(x, n)`: bits n-1:0 of `x` sign-extended to 64 bits (R60). -/
def sext (x n : Nat) : Word := BitVec.ofNat 64 (lowBits 64 (toSigned n x))

/-- A word from a number, keeping the low 64 bits. -/
def w64 (x : Nat) : Word := BitVec.ofNat 64 x

/-- The little-endian bytes of a number (R4). -/
def leBytes : Nat → Nat → List Byte
  | 0, _ => []
  | n + 1, x => BitVec.ofNat 8 x :: leBytes n (x / 256)

/-- The number held by little-endian bytes (R4). -/
def leNat : List Byte → Nat
  | [] => 0
  | b :: bs => b.toNat + 256 * leNat bs

/-- The big-endian bytes of a number (R369). -/
def beBytes (n x : Nat) : List Byte := (leBytes n x).reverse

/-- `len` bytes of a list from an offset, zero past its end. -/
def slice (bs : List Byte) (off len : Nat) : List Byte :=
  (List.range len).map fun i => bs.getD (off + i) 0

/-- A little-endian field of a structure in memory. -/
def field (bs : List Byte) (off len : Nat) : Nat := leNat (slice bs off len)

/-- Every byte of a structure's field is zero. -/
def zeroField (bs : List Byte) (off len : Nat) : Bool := field bs off len == 0

/-- The numbers below `n` whose bit is set in `x`. -/
def setBits (n x : Nat) : List Nat := (List.range n).filter fun i => bitOf x i

/-- The lanes of a mask, in ascending order (R10). -/
def lanesOf (m : Mask) : List Nat := setBits 32 m.toNat

/-- Lane `l` belongs to the mask. -/
def inMask (m : Mask) (l : Nat) : Bool := bitOf m.toNat l

/-- The mask of a list of lanes. -/
def maskOf (ls : List Nat) : Mask := ls.foldl (fun m l => m ||| BitVec.ofNat 32 (2 ^ l)) 0

/-- The population count of a mask. -/
def popc (m : Mask) : Nat := (lanesOf m).length

/-- The full mask of a wave. -/
def allLanes : Mask := 0xFFFFFFFF

/-- The number of 1 bits among the low `w` bits of `x`. -/
def countOnes (w x : Nat) : Nat := (setBits w x).length

/-- `⌈a / b⌉`. -/
def ceilDiv (a b : Nat) : Nat := (a + b - 1) / b

/-- The sum of a list of numbers. -/
def sumNat (xs : List Nat) : Nat := xs.foldl (· + ·) 0

/-- The least of a list of numbers, or a default. -/
def minNat (d : Nat) (xs : List Nat) : Nat :=
  match xs with
  | [] => d
  | x :: rest => rest.foldl Nat.min x

/-- An element put before the first one it may stand before. -/
def insertBy {α : Type} (le : α → α → Bool) (x : α) : List α → List α
  | [] => [x]
  | y :: ys => if le x y then x :: y :: ys else y :: insertBy le x ys

/-- A list sorted; elements that may stand in either order keep their order. -/
def sortBy {α : Type} (le : α → α → Bool) : List α → List α
  | [] => []
  | x :: xs => insertBy le x (sortBy le xs)

/-- A Boolean as a number. -/
def b2n (b : Bool) : Nat := if b then 1 else 0

end Sys2Proof.Machine
end

