-- ==== Sys2Proof/Machine/Float.lean ====
section
/-! DEFINITION. The number formats of R84 to R97: exact values, one rounding, flushing and the exceptions it detects, the
integer results of R86, and the tapered formats with their block scales. -/

namespace Sys2Proof.Machine

/-- An IEEE format: its exponent and fraction bits (R84). -/
structure FloatFmt where
  ebits : Nat
  fbits : Nat
  deriving DecidableEq, Repr

def fmtF64 : FloatFmt := ⟨11, 52⟩
def fmtF32 : FloatFmt := ⟨8, 23⟩
def fmtF16 : FloatFmt := ⟨5, 10⟩
def fmtBF16 : FloatFmt := ⟨8, 7⟩

/-- The format of a floating element type (R84). -/
def floatFmt : EType → FloatFmt
  | .f32x2 => fmtF32
  | .f16x4 => fmtF16
  | .bf16x4 => fmtBF16
  | _ => fmtF64

/-- The bias of a format (R84). -/
def fmtBias (t : FloatFmt) : Nat := 2 ^ (t.ebits - 1) - 1
/-- The sign bit of a format. -/
def fmtSign (t : FloatFmt) : Nat := 2 ^ (t.ebits + t.fbits)
/-- Infinity's magnitude bits. -/
def fmtInf (t : FloatFmt) : Nat := (2 ^ t.ebits - 1) * 2 ^ t.fbits
/-- The canonical NaN (R84, R85). -/
def fmtNaN (t : FloatFmt) : Nat := fmtInf t + 2 ^ (t.fbits - 1)
/-- The number of significant bits. -/
def fmtPrec (t : FloatFmt) : Nat := t.fbits + 1

/-- An exact value: a NaN (signalling or quiet), an infinity, a zero, or `± m × 2^e` with `m` not 0. -/
inductive FVal where
  | nan (signalling : Bool)
  | inf (neg : Bool)
  | zero (neg : Bool)
  | fin (neg : Bool) (m : Nat) (e : Int)
  deriving DecidableEq, Repr

/-- The exceptions of R89 as the bits of s60 (R169). -/
def excInvalid : Nat := 1
def excDivZero : Nat := 2
def excOverflow : Nat := 4
def excUnderflow : Nat := 8
def excInexact : Nat := 16

/-- The value is a NaN. -/
def FVal.isNaN : FVal → Bool
  | .nan _ => true
  | _ => false

/-- The value is a signalling NaN. -/
def FVal.isSNaN : FVal → Bool
  | .nan s => s
  | _ => false

/-- The value's sign. -/
def FVal.neg? : FVal → Bool
  | .nan _ => false
  | .inf n | .zero n | .fin n _ _ => n

/-- The bits of a sub-element as a value (R84, R85). -/
def fdec (t : FloatFmt) (x : Nat) : FVal :=
  let neg := bitOf x (t.ebits + t.fbits)
  let ex := bits x t.fbits t.ebits
  let fr := bits x 0 t.fbits
  if ex = 2 ^ t.ebits - 1 then
    if fr = 0 then .inf neg else .nan (!bitOf fr (t.fbits - 1))
  else if ex = 0 then
    if fr = 0 then .zero neg else .fin neg fr (1 - (fmtBias t : Int) - t.fbits)
  else .fin neg (2 ^ t.fbits + fr) ((ex : Int) - fmtBias t - t.fbits)

/-- The bits are a subnormal. -/
def fsubnormal (t : FloatFmt) (x : Nat) : Bool := bits x t.fbits t.ebits == 0 && bits x 0 t.fbits != 0

/-- `fsrc`: a source sub-element, flushed when FTZ is 2 or 3 (R90). -/
def fsrc (t : FloatFmt) (ftz : Nat) (x : Nat) : FVal :=
  if bitOf ftz 1 && fsubnormal t x then .zero (bitOf x (t.ebits + t.fbits)) else fdec t x

/-- `m × 2^e`, of the given sign, rounded to a multiple of `2^q` (R87): the multiple, and whether it is inexact. -/
def roundAt (rnd : Rnd) (neg : Bool) (m : Nat) (e q : Int) : Nat × Bool :=
  if q ≤ e then (m * 2 ^ (e - q).toNat, false)
  else
    let d := (q - e).toNat
    let n := m / 2 ^ d
    let r := m % 2 ^ d
    let h := 2 ^ (d - 1)
    let up := match rnd with
      | .rne => decide (h < r) || (decide (h = r) && n % 2 == 1)
      | .rtz => false
      | .rup => !neg && r != 0
      | .rdn => neg && r != 0
      | .rna => decide (h ≤ r)
    (n + b2n up, r != 0)

/-- The magnitude an overflow delivers (R88). -/
def overflowMag (t : FloatFmt) (rnd : Rnd) (neg : Bool) : Nat :=
  match rnd, neg with
  | .rne, _ | .rna, _ | .rup, false | .rdn, true => fmtInf t
  | _, _ => fmtInf t - 1

/-- A nonzero finite value rounded once to a format and flushed (R87 to R90): its bits and exceptions. -/
def roundFin (t : FloatFmt) (rnd : Rnd) (ftz : Nat) (neg : Bool) (m0 : Nat) (e0 : Int) : Nat × Nat :=
  let emin : Int := 1 - (fmtBias t : Int)
  let f : Int := t.fbits
  let sgn := if neg then fmtSign t else 0
  let big := (sgn + overflowMag t rnd neg, excOverflow + excInexact)
  if (fmtBias t : Int) + 1 < e0 + Nat.log2 m0 then big
  else
    -- far below the smallest subnormal every value rounds alike
    let tiny0 := decide (e0 + Nat.log2 m0 < emin - f - 2)
    let m := if tiny0 then 1 else m0
    let e := if tiny0 then emin - f - 3 else e0
    let ex := e + Nat.log2 m
    let nU := (roundAt rnd neg m e (ex - f)).1
    let exU := if nU = 2 ^ (t.fbits + 1) then ex + 1 else ex
    if (fmtBias t : Int) < exU then big
    else
      let q := max (ex - f) (emin - f)
      let (n, inexact) := roundAt rnd neg m e q
      if bitOf ftz 0 && n != 0 && decide (q = emin - f) && decide (n < 2 ^ t.fbits) then
        (sgn, excUnderflow + excInexact)
      else
        let mag := (q - (emin - f)).toNat * 2 ^ t.fbits + n
        (sgn + mag, (if inexact then excInexact else 0) + (if inexact && decide (exU < emin) then excUnderflow else 0))

/-- `fl`: a value rounded once to a format and flushed (R168), with the exceptions detected. -/
def flBits (t : FloatFmt) (rnd : Rnd) (ftz : Nat) (v : FVal) : Nat × Nat :=
  match v with
  | .nan _ => (fmtNaN t, 0)
  | .inf neg => ((if neg then fmtSign t else 0) + fmtInf t, 0)
  | .zero neg => (if neg then fmtSign t else 0, 0)
  | .fin neg m e => if m = 0 then (if neg then fmtSign t else 0, 0) else roundFin t rnd ftz neg m e

/-- An exact integer as a value. -/
def FVal.ofInt (i : Int) : FVal := if i = 0 then .zero false else .fin (decide (i < 0)) i.natAbs 0

/-- An exact signed dyadic as a value, with the sign of an exact zero. -/
def FVal.ofDyadic (i : Int) (e : Int) (zeroNeg : Bool) : FVal :=
  if i = 0 then .zero zeroNeg else .fin (decide (i < 0)) i.natAbs e

/-- The negative of a value. -/
def FVal.negate : FVal → FVal
  | .nan s => .nan s
  | .inf n => .inf !n
  | .zero n => .zero !n
  | .fin n m e => .fin (!n) m e

/-- The magnitude of a value. -/
def FVal.absolute : FVal → FVal
  | .nan s => .nan s
  | .inf _ => .inf false
  | .zero _ => .zero false
  | .fin _ m e => .fin false m e

/-- A finite value's signed mantissa at exponent `e`, which is no greater than its own. -/
def FVal.mantAt (e : Int) : FVal → Int
  | .fin n m e' => let x : Int := m * 2 ^ (e' - e).toNat; if n then -x else x
  | _ => 0

/-- A finite value's exponent. -/
def FVal.expo : FVal → Option Int
  | .fin _ _ e => some e
  | _ => none

/-- The least of the exponents of a list of values, 0 if none is nonzero and finite. -/
def minExpo (vs : List FVal) : Int :=
  match vs.filterMap FVal.expo with
  | [] => 0
  | e :: es => es.foldl min e

/-- The exact sum of a list of values, with the zero sign of R88 and the invalid exceptions of R89. DESIGN CHOICE (log entry
92): of three or more operands that hold a quiet NaN beside infinities of both signs, of which R89 says nothing, the NaN
comes first and no exception is raised. -/
def exactSum (rnd : Rnd) (vs : List FVal) : FVal × Nat :=
  let inv := if vs.any FVal.isSNaN then excInvalid else 0
  if vs.any FVal.isNaN then (.nan false, inv)
  else
    let pos := vs.any fun v => v == .inf false
    let neg := vs.any fun v => v == .inf true
    if pos && neg then (.nan false, excInvalid)
    else if pos then (.inf false, 0)
    else if neg then (.inf true, 0)
    else
      let e := minExpo vs
      let s := vs.foldl (fun a v => a + v.mantAt e) (0 : Int)
      let allNegZero := vs.all (fun v => v == .zero true) && !vs.isEmpty
      let allPosZero := vs.all fun v => v == .zero false
      (FVal.ofDyadic s e (allNegZero || (rnd == .rdn && !allPosZero)), 0)

/-- The exact product (R89: 0 × ∞ is invalid). -/
def exactMul (x y : FVal) : FVal × Nat :=
  let inv := if x.isSNaN || y.isSNaN then excInvalid else 0
  let neg := x.neg? != y.neg?
  match x, y with
  | .nan _, _ | _, .nan _ => (.nan false, inv)
  | .inf _, .zero _ | .zero _, .inf _ => (.nan false, excInvalid)
  | .inf _, _ | _, .inf _ => (.inf neg, 0)
  | .zero _, _ | _, .zero _ => (.zero neg, 0)
  | .fin _ m e, .fin _ m' e' => (.fin neg (m * m') (e + e'), 0)

/-- The exact value of `x × y + z` (R173). -/
def exactFma (rnd : Rnd) (x y z : FVal) (negProduct : Bool) : FVal × Nat :=
  let (p, f) := exactMul x y
  let (s, g) := exactSum rnd [if negProduct then p.negate else p, z]
  (s, f ||| g)

/-- A number's place in the order of R173 and R178 with -0 and +0 equal; none for a NaN. -/
def fcmp (x y : FVal) : Option Ordering :=
  let rank : FVal → Int := fun v => match v with
    | .inf true => -1
    | .inf false => 1
    | _ => 0
  if x.isNaN || y.isNaN then none
  else if rank x ≠ rank y then some (compare (rank x) (rank y))
  else if rank x ≠ 0 then some .eq
  else
    let e := minExpo [x, y]
    some (compare (x.mantAt e) (y.mantAt e))

/-- `x` stands before `y`, with -0 below +0 (R173). -/
def fbefore (x y : FVal) : Bool :=
  match fcmp x y with
  | some .lt => true
  | some .eq => x.neg? && !y.neg?
  | _ => false

/-- minimumNumber and maximumNumber (R173). A signalling NaN raises invalid; with one number the result is the number. -/
def fminmax (wantMax : Bool) (x y : FVal) : FVal × Nat :=
  let inv := if x.isSNaN || y.isSNaN then excInvalid else 0
  match x.isNaN, y.isNaN with
  | true, true => (.nan false, inv)
  | true, false => (y, inv)
  | false, true => (x, inv)
  | false, false => (if fbefore x y != wantMax then x else y, 0)

/-- The class number of R179, from the raw bits. -/
def fclass (t : FloatFmt) (x : Nat) : Nat :=
  match fdec t x with
  | .nan true => 0
  | .nan false => 1
  | .inf true => 2
  | .inf false => 9
  | .zero true => 5
  | .zero false => 6
  | .fin true _ _ => if fsubnormal t x then 4 else 3
  | .fin false _ _ => if fsubnormal t x then 7 else 8

/-- A finite value rounded to an integer, and whether that is inexact (R181, R184). A value below 2^-70 rounds as
2^-70 does. -/
def roundInt (rnd : Rnd) : FVal → Int × Bool
  | .fin neg m e =>
    let far := decide (e + Nat.log2 m < -70)
    let (n, inexact) := roundAt rnd neg (if far then 1 else m) (if far then -70 else e) 0
    (if neg then -(n : Int) else n, inexact)
  | _ => (0, false)

/-- The value of a sub-element's bits as an integer of its type (R86). -/
def intOf (t : EType) (x : Nat) : Int := if t.isSigned then toSigned t.wid x else (x % 2 ^ t.wid : Nat)

/-- The least and greatest values of an integer type (R86). -/
def intLo (t : EType) : Int := if t.isSigned then -(2 ^ (t.wid - 1) : Nat) else 0
def intHi (t : EType) : Int := if t.isSigned then (2 ^ (t.wid - 1) : Nat) - 1 else (2 ^ t.wid : Nat) - 1

/-- `sat(x, t)` (R86). -/
def satInt (t : EType) (x : Int) : Int := min (max x (intLo t)) (intHi t)

/-- `ires`: an exact integer reduced to its sub-element, saturating when SAT is 1 (R86, R168). -/
def ires (sat : Bool) (t : EType) (x : Int) : Nat := lowBits t.wid (if sat then satInt t x else x)

/-- The number of leading bits of the low `w` bits of `m` equal to bit `w - 1`. -/
def leadingRun (m : Nat) (b : Bool) : Nat → Nat
  | 0 => 0
  | w + 1 => if bitOf m w == b then 1 + leadingRun m b w else 0

/-- `tdec`: the value of a tapered code of the given width and exponent bits (R91). -/
def tdecCode (width ebits : Nat) (c : Nat) : FVal :=
  let w := width - 1
  let neg := bitOf c w
  let m := bits c 0 w
  if m = 0 then (if neg then .nan false else .zero false)
  else
    let b := bitOf m (w - 1)
    let k := leadingRun m b w
    let reg : Int := if b then (k : Int) - 1 else -(k : Int)
    let restLen := w - k - 1
    let rest := bits m 0 restLen
    let hasE := decide (ebits = 1) && decide (0 < restLen)
    let n := if hasE then restLen - 1 else restLen
    let e := if hasE then rest / 2 ^ n else 0
    let g := rest % 2 ^ n
    .fin neg (2 ^ n + g) (reg * 2 ^ ebits + e - n)

/-- `tdec` of an element type (R91). -/
def tdec (t : EType) (c : Nat) : FVal := if t == .t6x10 then tdecCode 6 0 c else tdecCode 8 1 c

/-- The magnitude of a tapered code in units of `2^-12` (T8) or `2^-4` (T6), all of which are whole. -/
def taperedUnits (t : EType) (c : Nat) : Nat :=
  match tdec t c with
  | .fin _ m e => m * 2 ^ (e + (if t == .t6x10 then 4 else 12)).toNat
  | _ => 0

/-- How many steps of one code a magnitude `m × 2^e` lies above, counting a tie where the higher code is even (R94). -/
def taperedCount (t : EType) (m : Nat) (e : Int) : Nat → Nat
  | 0 => 0
  | c + 1 =>
    let shift := e + (if t == .t6x10 then 5 else 13)
    let mid := taperedUnits t c + taperedUnits t (c + 1)
    let lhs := m * 2 ^ shift.toNat
    let rhs := mid * 2 ^ (-shift).toNat
    taperedCount t m e c + b2n (decide (rhs < lhs) || (decide (rhs = lhs) && (c + 1) % 2 == 0))

/-- `tenc`: a value encoded into T8 or T6, to the nearest code with ties to the even one (R94). -/
def tenc (t : EType) (v : FVal) : Nat :=
  let sgn := if t == .t6x10 then 0x20 else 0x80
  match v with
  | .nan _ => sgn
  | .zero _ => 0
  | .inf neg => b2n neg * sgn + (sgn - 1)
  | .fin neg m e =>
    let top := e + Nat.log2 m
    let c := if 13 < top then sgn - 1 else if top < -15 then 0 else taperedCount t m e (sgn - 1)
    if c = 0 then 0 else b2n neg * sgn + c

/-- A tapered code's BF16 value (R92). -/
def tdecBF16 (t : EType) (c : Nat) : Nat := (flBits fmtBF16 .rne 0 (tdec t c)).1

/-- `e8fold`: a tapered code with its block's E8 scale, as BF16 (R97). -/
def e8fold (t : EType) (c s : Nat) : Nat :=
  match tdec t c with
  | .fin neg m e =>
    if s = 0xFF then 0x7FC0
    else
      let e' := e + (s : Int) - 127
      -- |y| above the largest finite value
      if fcmp (.fin false m e') (.fin false 255 120) = some .gt then (if neg then 0xFF7F else 0x7F7F)
      else (flBits fmtBF16 .rne 0 (.fin neg m e')).1
  | .zero _ => if s = 0xFF then 0x7FC0 else 0
  | _ => 0x7FC0

end Sys2Proof.Machine
end

