-- ==== Sys2Proof/Machine/Mem.lean ====
section
/-! DEFINITION. Sorted maps, and memory as a list of address and byte pairs in one canonical form: addresses strictly
rising, and no entry equal to what an unlisted address reads as. -/

namespace Sys2Proof.Machine

/-- The entry of a key. -/
def mfind {α : Type} : SMap α → Nat → Option α
  | [], _ => none
  | (k', x) :: m, k => if k' = k then some x else mfind m k

/-- The entry of a key, or the default. -/
def mget {α : Type} (d : α) (m : SMap α) (k : Nat) : α := (mfind m k).getD d

/-- The map with one key's entry replaced or added. -/
def mput {α : Type} : SMap α → Nat → α → SMap α
  | [], k, x => [(k, x)]
  | (k', y) :: m, k, x =>
    if k' = k then (k, x) :: m else if k < k' then (k, x) :: (k', y) :: m else (k', y) :: mput m k x

/-- The map without one key. -/
def merase {α : Type} (m : SMap α) (k : Nat) : SMap α := m.filter fun e => decide (e.1 ≠ k)

/-- The map with one key's value set; the default value is not listed. -/
def mset {α : Type} [DecidableEq α] (d : α) (m : SMap α) (k : Nat) (x : α) : SMap α :=
  if x = d then merase m k else mput m k x

/-- Every key is above `b`, and the keys rise strictly. -/
def mrises {α : Type} (b : Option Nat) : SMap α → Bool
  | [] => true
  | (k, _) :: m => (match b with | none => true | some b => decide (b < k)) && mrises (some k) m

/-- The canonical form of a map with a default: strictly rising keys, and no entry equal to the default. -/
def mwf {α : Type} [DecidableEq α] (d : α) (m : SMap α) : Bool := mrises none m && m.all fun e => decide (e.2 ≠ d)

/-- What a byte that nothing has written reads as: zero. Scratchpads and the weight store are wiped to zero by module
reset (R435). DRAM: DESIGN CHOICE (log entry 1). -/
def unwritten : Byte := 0

/-- The canonical form of a memory. -/
def Memory.wf (m : List Host.Cell) : Bool := mwf unwritten m

/-- One byte of a memory. -/
def readByte (m : List Host.Cell) (a : Nat) : Byte := mget unwritten m a

/-- A memory with one byte written. -/
def writeByte (m : List Host.Cell) (a : Nat) (x : Byte) : List Host.Cell := mset unwritten m a x

/-- `n` consecutive bytes of a memory. -/
def readBytes (m : List Host.Cell) (a : Nat) : Nat → List Byte
  | 0 => []
  | n + 1 => readByte m a :: readBytes m (a + 1) n

/-- A memory with consecutive bytes written. -/
def writeBytes (m : List Host.Cell) (a : Nat) : List Byte → List Host.Cell
  | [] => m
  | x :: xs => writeBytes (writeByte m a x) (a + 1) xs

/-- A memory with `n` consecutive bytes cleared to zero. -/
def clearRange (m : List Host.Cell) (a n : Nat) : List Host.Cell :=
  m.filter fun e => !(decide (a ≤ e.1) && decide (e.1 < a + n))

/-- Memory's cells of a range whose byte is not the unwritten value. -/
def cellsIn (m : List Host.Cell) (a n : Nat) : List Host.Cell :=
  m.filter fun e => decide (a ≤ e.1) && decide (e.1 < a + n)

end Sys2Proof.Machine
end

