-- ==== Sys2Proof/Machine/Ops.lean ====
section
/-! DEFINITION. The named operations over the state: the reset value of each component, lookups and updates, the agenda of
the engines' own events, registers and flags at completion (R38, R134, R135), paths and fragments (R30 to R32), the
context error (R49, R399), taking an exception (R44) and returning from it (R45). -/

namespace Sys2Proof.Machine

/-! ## Components with their reset values -/

/-- The weight of an opcode at module reset (R424). -/
def resetWeight (op : Nat) : Nat :=
  if op < 0x20 || (0xD8 ≤ op && op ≤ 0xDA) || (0xE0 ≤ op && op ≤ 0xE2) then 0
  else if (0x59 ≤ op && op ≤ 0x5C) || (0xD0 ≤ op && op ≤ 0xD5) || op == 0xB0 || op == 0xB3 || op == 0xB4 || op == 0xB7 ||
    op == 0xB8 then 1
  else if op == 0x91 || op == 0x92 || op == 0xB6 || (0x23 ≤ op && op ≤ 0x25) then 6
  else if (0x80 ≤ op && op ≤ 0x9D) || (0xA0 ≤ op && op ≤ 0xAF) || (0xC0 ≤ op && op ≤ 0xCC) then 2
  else if op == 0x2E || op == 0x2F || (0x53 ≤ op && op ≤ 0x58) || (0x60 ≤ op && op ≤ 0x6F) then 4
  else if op == 0x22 || op == 0x2C || op == 0x4C || (0x70 ≤ op && op ≤ 0x78) then 5
  else if op == 0xB5 then 8
  else if op == 0xB1 || op == 0xB2 then 15
  else if 0x20 ≤ op && op ≤ 0x5F then 3
  else 0

/-- The 128 bytes of the weight table at module reset (R424). -/
def resetWeights : List Byte :=
  (List.range 128).map fun k => BitVec.ofNat 8 (resetWeight (2 * k) + 16 * resetWeight (2 * k + 1))

/-- A compute core at reset: nothing queued, armed, claimed or guarded. -/
def emptyCore : Core :=
  { channels := [[], [], [], []], copySeq := 0, arms := [], queues := [], tiles := [], groups := [], tileOps := [],
    engineBusy := 0, stages := [], tracker := [], guards := [], demerits := 0, demeritChange := 0, fenced := false }

/-- A partition at reset: the RR pointer is 0 and no path has greedy standing (R136, R137). -/
def emptyPart : Part :=
  { aBusy := 0, bBusy := 0, greedy := none, pointer := 0, aUsed := false, bUsed := false, issued := [], tried := [], first := [], pairing := 0,
    policy := none, stopped := false, since := 0, bins := [],
    reasons := [], idle := 0, sampleFns := [] }

/-- A grove at reset: high rail, 2,000 MHz, not gated, the reset weight table (R424, R425). -/
def emptyGrove : Grove :=
  { low := false, switching := 0, clock := 2000, limit := 0, charge := 0, lastCharge := 0, lowRun := 0,
    thermalCap := none, tripped := false, currentCap := none, coolRun := 0, temp := 0, gated := false, portClosed := false,
    weights := resetWeights, newWeights := [], switchUntil := 0 }

/-- A queue at reset (R387). -/
def emptyQueue : Queue :=
  { base := 0, ctl := 0, read := 0, widx := 0, lastW := 0, stopped := false, prio := 0, agedAt := 0, lastLid := 0, waitFault := none }

/-- Capture idle (R418). -/
def emptyCapture : Capture :=
  { state := 0, ctx := 0, records := 0, parts := 0, bytes := 0, stopping := false, pending := false }

/-- A function at reset (R385, R387, R412). -/
def emptyFunction : Function :=
  { enable := false, wsok := false, asidFirst := 0, asidCount := 0, flr := false, flrPhase := 0, scrub := [], draining := [], regs := [],
    queues := [], lastCause := 0, preemptEv := 0, faultTail := 0, faultHead := 0, faults := [], waitingFaults := [],
    invalidating := false, mapStat := 0, mapPinned := 0, mapAsid := 0, mapFirst := 0, mapCount := 0, trWr := 0, trRd := 0,
    trLost := 0, trPendingLoss := 0, prWr := 0, prRd := 0, prLost := 0, watches := [], capture := emptyCapture,
    haloSel := 0, haloErr := [] }

/-- No repeat in progress (R147). -/
def emptyRep : RepState := { valid := false, path := 0, stride := 0, next := 0, left := 0 }

/-- A path at a bundle's start. -/
def newPath (pc : Word) (mask : Mask) : Path :=
  { pc := pc, slot := 1, fresh := true, mask := mask, park := .running, safePoint := none, atRjoin := false,
    waitResume := false, restorePending := false, savePending := false, inSave := false, resume := 0, lastIssue := 0, taken := false, issued := false,
    nopStall := 0, passed := 0, yielded := none, yieldPending := false,
    born := 0 }

/-- A wave as placement leaves it, but for its identity (R396). -/
def emptyWave : Wave :=
  { uid := 0, lid := 0, bid := 0, run := .plain, fn := 0, ctx := 0, core := 0, part := 0, wslot := 0, waveId := 0,
    role := 0, budget := 8, placedAt := 0, saveSlot := 0, v := [], s := [], p := [], mode := 0, flags := [],
    rep := emptyRep, regions := [], places := [], stack := [], lastSlot := 2, nextSeq := 0, pending := [], log := [],
    held := none, sets := [], arrivals := [], guardRep := none, cellReps := [], perm := [], fmt := none, batches := [],
    looseContribs := [], liveContribs := [], reservation := none, tx := [], elisions := [], fences := [],
    pinAsked := 0, pinMade := 0, brokenPins := [], haltPending := false, watchStop := false, traceStop := false,
    leaving := none, ownSS := 0, delivered := [], refused := [], dirty := [] }

/-! ## Lookups and updates -/

def State.wave? (s : State) (uid : Nat) : Option Wave := s.waves.find? fun w => w.uid == uid
def State.setWave (s : State) (w : Wave) : State :=
  { s with waves := s.waves.map fun x => if x.uid == w.uid then w else x }
def State.modWave (s : State) (uid : Nat) (f : Wave → Wave) : State :=
  { s with waves := s.waves.map fun x => if x.uid == uid then f x else x }
def State.core (s : State) (c : Nat) : Core := mget emptyCore s.cores c
def State.setCore (s : State) (c : Nat) (x : Core) : State := { s with cores := mset emptyCore s.cores c x }
def State.part (s : State) (c p : Nat) : Part := mget emptyPart s.parts (16 * c + p)
def State.setPart (s : State) (c p : Nat) (x : Part) : State :=
  { s with parts := mset emptyPart s.parts (16 * c + p) x }
def State.grove (s : State) (g : Nat) : Grove := mget emptyGrove s.groves g
def State.setGrove (s : State) (g : Nat) (x : Grove) : State := { s with groves := mset emptyGrove s.groves g x }
def State.func (s : State) (f : Nat) : Function := mget emptyFunction s.fns f
def State.setFunc (s : State) (f : Nat) (x : Function) : State := { s with fns := mset emptyFunction s.fns f x }
def State.ctx? (s : State) (fn ctx : Nat) : Option Context := s.ctxs.find? fun c => c.fn == fn && c.id == ctx
def State.setCtx (s : State) (c : Context) : State :=
  { s with ctxs := s.ctxs.map fun x => if x.fn == c.fn && x.id == c.id then c else x }
def State.launch? (s : State) (lid : Nat) : Option Launch := s.launches.find? fun l => l.lid == lid
def State.setLaunch (s : State) (l : Launch) : State :=
  { s with launches := s.launches.map fun x => if x.lid == l.lid then l else x }
def State.block? (s : State) (lid bid : Nat) (r : Run) : Option Block :=
  s.blocks.find? fun b => b.lid == lid && b.bid == bid && b.run == r
def State.setBlock (s : State) (b : Block) : State :=
  { s with blocks := s.blocks.map fun x => if x.lid == b.lid && x.bid == b.bid && x.run == b.run then b else x }
def State.ctxOfAsid (s : State) (asid : Nat) : Option Context := s.ctxs.find? fun c => c.asid == asid
def State.waveCtx (s : State) (w : Wave) : Option Context := s.ctx? w.fn w.ctx
def State.waveAsid (s : State) (w : Wave) : Nat := ((s.waveCtx w).map Context.asid).getD 0
def State.waveBlock (s : State) (w : Wave) : Option Block := s.block? w.lid w.bid w.run
def State.domain? (s : State) (d : Nat) : Option Domain := s.domains.find? fun x => x.id == d
def State.setDomain (s : State) (d : Domain) : State :=
  { s with domains := s.domains.map fun x => if x.id == d.id then d else x }

/-- A wave wherever it stands: resident, or in a retirement tracker (R36). -/
def State.anyWave? (s : State) (uid : Nat) : Option Wave :=
  match s.wave? uid with
  | some w => some w
  | none => s.cores.findSome? fun e => e.2.tracker.findSome? fun t => if t.wave.uid == uid then some t.wave else none
/-- A wave changed wherever it stands. -/
def State.modAny (s : State) (uid : Nat) (f : Wave → Wave) : State :=
  let s1 := s.modWave uid f
  let upd : TrackerEntry → TrackerEntry := fun t => if t.wave.uid == uid then { t with wave := f t.wave } else t
  { s1 with cores := s1.cores.map fun e => (e.1, { e.2 with tracker := e.2.tracker.map upd }) }

/-- The grove of a core, its die, and its place in the grove (R62). -/
def groveOf (core : Nat) : Nat := core / 8
def dieOf (core : Nat) : Nat := core / 256

/-- Die of a grove. -/
def dieOfGrove (g : Nat) : Nat := g / 32

/-- An event in its place of the agenda: by clock, and behind the earlier events of its clock. -/
def insertEvent (due : Nat) (i : Instr) : List (Nat × Instr) → List (Nat × Instr)
  | [] => [(due, i)]
  | (d, j) :: rest => if due < d then (due, i) :: (d, j) :: rest else (d, j) :: insertEvent due i rest

/-- An engine's own event, after a delay in core clocks. -/
def State.schedule (s : State) (delay : Nat) (i : Instr) : State :=
  { s with agenda := insertEvent (s.clock + delay) i s.agenda }

/-- An engine's own event, unless the agenda already holds it. -/
def State.scheduleOnce (s : State) (delay : Nat) (i : Instr) : State :=
  if s.agenda.any fun e => e.2 == i then s else s.schedule delay i

/-- Every launch's placement is tried again, as when room frees. -/
def kickAll (s : State) : State := s.launches.foldl (fun s l => s.schedule 0 (.blockPlace l.lid)) s

/-! ## Registers and flags -/

/-- A vector register's lane. -/
def Wave.vreg (w : Wave) (r l : Nat) : Word := mget 0 w.v (32 * r + l)
/-- An s register. -/
def Wave.sreg (w : Wave) (n : Nat) : Word := mget 0 w.s n
/-- A predicate's byte of a lane. -/
def Wave.preg (w : Wave) (n l : Nat) : Byte := mget 0 w.p (32 * n + l)
def Wave.setV (w : Wave) (r l : Nat) (x : Word) : Wave := { w with v := mset 0 w.v (32 * r + l) x }
def Wave.setS (w : Wave) (n : Nat) (x : Word) : Wave := { w with s := mset 0 w.s n x }
def Wave.setP (w : Wave) (n l : Nat) (x : Byte) : Wave := { w with p := mset 0 w.p (32 * n + l) x }
/-- A flag's count of outstanding operations (R38). -/
def Wave.flag (w : Wave) (k : Nat) : Nat := mget 0 w.flags k

/-- The flag of a SETF field raised by one (R56). -/
def Wave.raise (w : Wave) (setf : Nat) : Wave :=
  if setf = 0 then w else { w with flags := mset 0 w.flags (setf - 1) (w.flag (setf - 1) + 1) }
/-- The flag of a SETF field lowered by one (R56). -/
def Wave.lower (w : Wave) (setf : Nat) : Wave :=
  if setf = 0 then w else { w with flags := mset 0 w.flags (setf - 1) (w.flag (setf - 1) - 1) }

/-- One register write performed. -/
def Wave.write (w : Wave) (x : RegWrite) : Wave :=
  match x.file with
  | .vector => { w with v := mset 0 w.v x.key x.value }
  | .scalar => { w with s := mset 0 w.s x.key x.value }
  | .predicate => { w with p := mset 0 w.p x.key (x.value.setWidth 8) }
  | .permutation => { w with perm := mset 0 w.perm x.key x.value.toNat }

/-- The registers a list of writes names. -/
def writeKeys (xs : List RegWrite) : List (RegFile × Nat) := xs.map fun x => (x.file, x.key)

/-- Returned results written in issue order; one waits behind an earlier instruction that is still to write the same
register (R135). Lowers the flags of the completed instructions (R56). -/
def settle : List Completion → List (RegFile × Nat) → Wave → List Completion × Wave
  | [], _, w => ([], w)
  | c :: cs, blocked, w =>
    if c.returned && (writeKeys c.writes).all fun k => !blocked.contains k then
      settle cs blocked ((c.writes.foldl Wave.write w).lower c.setf)
    else
      let (rest, w') := settle cs (blocked ++ writeKeys c.writes) w
      (c :: rest, w')

/-- The wave with its returned results written where they may be (R135). -/
def Wave.settled (w : Wave) : Wave :=
  let (rest, w') := settle w.pending [] w
  { w' with pending := rest }

/-- The data of an outstanding instruction has returned: its values are known and it completes (R134, R135). -/
def Wave.returned (w : Wave) (seqNo : Nat) (writes : Option (List RegWrite)) : Wave :=
  Wave.settled { w with pending := w.pending.map fun c =>
    if c.seqNo = seqNo then { c with returned := true, writes := writes.getD c.writes } else c }

/-- The mode register's fields (R65). -/
def modeEtypeCode (m : ModeReg) : Nat := bits m.toNat 20 4
def modeRndCode (m : ModeReg) : Nat := bits m.toNat 17 3
def modeFtz (m : ModeReg) : Nat := bits m.toNat 15 2
def modeSat (m : ModeReg) : Bool := bitOf m.toNat 14
def modeGen (m : ModeReg) : Bool := bitOf m.toNat 13
def modeGinv (m : ModeReg) : Bool := bitOf m.toNat 12
def modeGp (m : ModeReg) : Nat := bits m.toNat 9 3
def modeFpx (m : ModeReg) : Bool := bitOf m.toNat 8

/-- The element type of a code (R65). -/
def etypeOf : Nat → Option EType
  | 0 => some .i64 | 1 => some .i32x2 | 2 => some .i16x4 | 3 => some .i8x8
  | 4 => some .n64 | 5 => some .n32x2 | 6 => some .n16x4 | 7 => some .n8x8
  | 8 => some .f64 | 9 => some .f32x2 | 10 => some .f16x4 | 11 => some .bf16x4
  | 12 => some .t8x8 | 13 => some .t6x10
  | _ => none

/-- The rounding mode of a code (R87). -/
def rndOf : Nat → Option Rnd
  | 0 => some .rne | 1 => some .rtz | 2 => some .rup | 3 => some .rdn | 4 => some .rna
  | _ => none

/-- The mode holds no reserved code (R66). -/
def modeOk (m : ModeReg) : Bool :=
  (etypeOf (modeEtypeCode m)).isSome && (rndOf (modeRndCode m)).isSome && bits m.toNat 0 8 == 0

/-- The element type in force. Under a reserved code, which only a TRET from a frame the handler rewrote can install, an
instruction whose chapter lists its types raises MODE_INVALID (R66), and any other ignores it and is given N64 (log entry
20). -/
def modeEtype (m : ModeReg) : EType := (etypeOf (modeEtypeCode m)).getD .n64
/-- The rounding mode in force. Under a reserved code, which only such a TRET can install, it is a free one of the five: the
spec gives the code no meaning, and forbids none (R8, R66, log entry 20). -/
def modeRnd (m : ModeReg) : Rnd :=
  (rndOf (modeRndCode m)).getD ((rndOf (Config.reservedRnd (modeRndCode m)).val).getD .rne)

/-! ## Paths -/

/-- A path changed at its place. -/
def Wave.modPath (w : Wave) (place : Nat) (f : Path → Path) : Wave :=
  match mfind w.places place with
  | some p => { w with places := mput w.places place (f p) }
  | none => w

/-- Every path of the wave changed, those on the fragment stack and those held behind a trap included. -/
def Wave.mapPaths (w : Wave) (f : Path → Path) : Wave :=
  { w with
    places := w.places.map fun e => (e.1, f e.2)
    stack := w.stack.map f
    held := w.held.map fun h => { h with places := h.places.map (fun e => (e.1, f e.2)), stack := h.stack.map f } }

/-- Every path of the wave. -/
def Wave.allPaths (w : Wave) : List Path :=
  w.places.map Prod.snd ++ w.stack ++
    (match w.held with
     | some h => h.places.map Prod.snd ++ h.stack
     | none => [])

/-- The live paths outside a trap's held copy (R142, R145). -/
def Wave.livePaths (w : Wave) : List Path := w.places.map Prod.snd ++ w.stack

/-- The path is parked at an RJOIN. -/
def Path.parkedRjoin (p : Path) : Bool := match p.park with | .rjoin _ => true | _ => false
/-- The path is parked in a wait (R42). -/
def Path.parkedWait (p : Path) : Bool :=
  match p.park with | .barrier .. | .signal .. | .event .. | .worklist .. => true | _ => false
/-- The path is parked in no way. -/
def Path.isRunning (p : Path) : Bool := match p.park with | .running => true | _ => false

/-- The lowest free fragment place, 2 to 7. -/
def Wave.freeFragment (w : Wave) : Option Nat := [2, 3, 4, 5, 6, 7].find? fun k => (mfind w.places k).isNone
/-- The lowest free program-counter slot. -/
def Wave.freeSlot (w : Wave) : Option Nat := [0, 1].find? fun k => (mfind w.places k).isNone
/-- The fragments on the core, oldest first. -/
def Wave.fragments (w : Wave) : List (Nat × Path) :=
  sortBy (fun a b => decide (a.2.born ≤ b.2.born)) (w.places.filter fun e => decide (2 ≤ e.1))

/-- The path moved to another place; REPSTATE's PATH follows it (R147). -/
def Wave.movePath (w : Wave) (src dst : Nat) (p : Path) : Wave :=
  { w with
    places := mput (merase w.places src) dst p
    rep := if w.rep.valid && w.rep.path == src then { w.rep with path := dst } else w.rep
    log := w.log.map fun (l : LogEntry) => if l.place == src then { l with place := dst } else l }

/-- The stack without its most recently pushed path that may return to a place, and that path (R32). -/
def takeFirst (f : Path → Bool) : List Path → Option (Path × List Path)
  | [] => none
  | p :: ps => if f p then some (p, ps) else (takeFirst f ps).map fun (q, rest) => (q, p :: rest)

/-- One move into a freed place: the oldest fragment into a program-counter slot, or else the newest stacked path that
is not parked at an RJOIN and has not executed PSAVE into a fragment place (R32, R40, R142). -/
def Wave.refillOnce (w : Wave) : Wave :=
  match w.freeSlot, w.fragments with
  | some k, (src, p) :: _ => w.movePath src k p
  | _, _ =>
    match w.freeFragment, takeFirst (fun p => !p.parkedRjoin && p.park != .saved) w.stack with
    | some k, some (p, rest) => { w with stack := rest, places := mput w.places k p }
    | _, _ => w

/-- Freed places refilled (R32, R142). -/
def Wave.refill (w : Wave) : Wave := (List.range 8).foldl (fun w _ => w.refillOnce) w

/-- The path at a place ends, and its place frees (R30). -/
def Wave.dropPlace (w : Wave) (place : Nat) : Wave := Wave.refill { w with places := merase w.places place }

/-- A write that was refused is performed, or not tried again (R355, R356). -/
def Wave.accepted (w : Wave) (r : Refuser) : Wave := { w with refused := w.refused.filter fun e => e.1 != r }

/-! ## Lines of the L2 written back -/

/-- The line of an ASID. -/
def State.line? (s : State) (asid line : Nat) : Option L2Line := s.l2.find? fun l => l.asid == asid && l.line == line

/-- A line changed in place. -/
def State.setLine (s : State) (l : L2Line) : State :=
  { s with l2 := s.l2.map fun x => if x.asid == l.asid && x.line == l.line then l else x }

/-- A line's dirty sectors written into DRAM. -/
def flushSectors (mem : List Host.Cell) (pa : Nat) : SMap Sector → List Host.Cell
  | [] => mem
  | (k, x) :: rest => flushSectors (if x.dirty then writeBytes mem (pa + 64 * k) x.bytes else mem) pa rest

/-- A line's sectors, none of them dirty. -/
def cleanSectors (m : SMap Sector) : SMap Sector := m.map fun e => (e.1, { e.2 with dirty := false })

/-- A line's dirty sectors written back. -/
def writeBack (s : State) (l : L2Line) : State :=
  { s with dram := flushSectors s.dram l.pa l.sectors }.setLine { l with sectors := cleanSectors l.sectors }

/-- Global lines performed at SYS: their dirty sectors reach DRAM, where every synonym's next fill reads them (R107, R379). -/
def performAtSys (s : State) (lines : List Loc) : State :=
  lines.foldl (fun s x => match x.space with
    | .global asid => (match (s.line? asid (x.addr / 256)).filter fun l => l.sectors.any fun e => e.2.dirty with
      | some l => writeBack s l
      | none => s)
    | _ => s) s

/-- Narrow-scope pins end, their lines performed at SYS (R119). -/
def endScopePins (s : State) (gone : ScopePin → Bool) : State :=
  let s1 := performAtSys s ((s.scopePins.filter gone).map ScopePin.line)
  { s1 with scopePins := s1.scopePins.filter fun p => !gone p }

/-! ## Kills and context errors -/

/-- The rank of a completion status: the first that applies wins (R398). -/
def statusRank (st : Nat) : Nat :=
  if st = Cause.contextReset.code || st = Cause.vfReset.code || st = Cause.powerKill.code ||
    st = Cause.preemptTimeout.code then 2
  else if st = Cause.checkUnresolved.code then 3
  else if st = 0x0104 then 4
  else if st = Cause.fabricDown.code then 5
  else if st = Cause.replayMismatch.code then 6
  else if st = 0 then 7
  else 1

/-- The status of a launch with one more found; among kills the first stays (R398). -/
def mergeStatus (old new : Nat) : Nat := if statusRank new < statusRank old then new else old

/-- The launch belongs to a context. -/
def Launch.inCtx (l : Launch) (fn ctx : Nat) : Bool := l.fn == fn && l.ctx == ctx

/-- What the given runs of blocks hold on a core dropped; a command not ended leaves its channel (R324). Their cancelled arm
records stay until the kernel ends (R308). -/
def Core.dropRuns (c : Core) (gone : Nat → Nat → Run → Bool) : Core :=
  let goneW : Wave → Bool := fun w => gone w.lid w.bid w.run
  { c with
    channels := c.channels.map fun ch => ch.filter fun x => !gone x.lid x.bid x.run
    arms := (c.arms.map fun a => if gone a.lid a.bid a.run && a.state == .armed then { a with state := .cancelled } else a).filter
      fun a => !gone a.lid a.bid a.run || a.state == .cancelled
    queues := c.queues.filter fun q => !gone q.lid q.bid q.run
    tiles := c.tiles.filter fun e => !gone e.2.owner.1 e.2.owner.2.1 e.2.owner.2.2
    groups := c.groups.filter fun g => !gone g.lid g.bid g.run
    stages := c.stages.filter fun g => !gone g.lid g.bid g.run
    tracker := c.tracker.filter fun e => !goneW e.wave }

/-- Every wave, resident or in a retirement tracker. -/
def State.everyWave (s : State) : List Wave := s.waves ++ s.cores.flatMap fun e => e.2.tracker.map TrackerEntry.wave

/-- The channels of a core whose head command the given runs lose. -/
def Core.headsLost (c : Core) (gone : Nat → Nat → Run → Bool) : List Nat :=
  (List.range c.channels.length).filter fun k => ((c.channels.getD k []).head?).any fun x => gone x.lid x.bid x.run

/-- The event belongs to the command a channel performs. -/
def ofChannel (core chan : Nat) : Instr → Bool
  | .copyCommandExecute c k => c == core && k == chan
  | .multicastDelivery c k _ => c == core && k == chan
  | .copyCommandEnd c k => c == core && k == chan
  | _ => false

/-- Everything the waves of the given runs hold is freed, and the waves end (R36). The runs' records stay, and so do the lines
the waves have pinned by PIN, until their kernel ends (R231). -/
def purgeRuns (s : State) (gone : Nat → Nat → Run → Bool) : State :=
  let goneW : Wave → Bool := fun w => gone w.lid w.bid w.run
  let uids := (s.everyWave.filter goneW).map Wave.uid
  let goneU : Nat → Bool := fun u => uids.contains u
  let stale : Instr → Bool := fun i => s.cores.any fun e => (e.2.headsLost gone).any fun k => ofChannel e.1 k i
  let s := endScopePins s fun p => goneU p.uid
  { s with
    waves := s.waves.filter fun w => !goneW w
    agenda := s.agenda.filter fun e => !stale e.2
    cores := (s.cores.map fun e =>
      let c := e.2.dropRuns gone
      (e.1, { c with tileOps := c.tileOps.filter fun t => !goneU t.uid })).filter fun e => decide (e.2 ≠ emptyCore)
    atomics := s.atomics.filter fun a => !goneU a.uid
    heldSectors := s.heldSectors.filter fun h => !gone h.lid h.bid h.run }

/-- A kernel's cancelled arm records end with it (R308). -/
def dropArms (s : State) (gone : Nat → Bool) : State :=
  { s with cores := (s.cores.map fun e => (e.1, { e.2 with arms := e.2.arms.filter fun a => !gone a.lid })).filter fun e =>
      decide (e.2 ≠ emptyCore) }

/-- Everything the waves and blocks of a context hold is freed: its waves are killed at once (R36, R399). Its launches
stay, to be completed. -/
def purgeContext (s : State) (fn ctx : Nat) : State :=
  let lids := (s.launches.filter fun l => l.inCtx fn ctx).map Launch.lid
  let gone : Nat → Bool := fun lid => lids.contains lid
  let s1 := endScopePins (dropArms (purgeRuns s fun lid _ _ => gone lid) gone) fun p => gone p.lid
  { s1 with
    blocks := s1.blocks.filter fun b => !gone b.lid
    pins := s1.pins.filter fun p => !gone p.lid
    bindings := s1.bindings.filter fun b => !gone b.lid
    atomicLog := s1.atomicLog.filter fun e => !gone e.1
    domains := s1.domains.filter fun d => !gone d.lid }

/-- The context's running launches end with a status (R398, R399). -/
def endLaunches (s : State) (fn ctx status : Nat) : State :=
  let lids := (s.launches.filter fun l => l.inCtx fn ctx).map Launch.lid
  let upd : Launch → Launch := fun l =>
    if lids.contains l.lid then { l with status := mergeStatus l.status status, waitFault := none } else l
  let s1 := { s with launches := s.launches.map upd }
  lids.foldl (fun s lid => s.scheduleOnce 0 (.launchCompletion lid)) s1

/-- A context-wide kill: every wave is killed at once, even inside a handler, and the running launches complete with
the cause (R46, R401, R43). -/
def killContext (s : State) (fn ctx status : Nat) : State :=
  endLaunches (purgeContext s fn ctx) fn ctx status

/-- A context error (R49, R399): the context's waves are killed, its running kernels complete with the cause, and its
queues stop until the host resets it. One that is being destroyed stays so. -/
def contextError (s : State) (fn ctx : Nat) (c : Cause) : State :=
  match s.ctx? fn ctx with
  | none => s
  | some x =>
    let s1 := killContext s fn ctx c.code
    let s2 := s1.setCtx { x with state := if x.state = .closing then .closing else .errored, preempt := none, traceStop := false }
    s2.setFunc fn { s2.func fn with lastCause := c.code }

/-- A terminating fault of a shadow or tiebreak run (R367): the run ends, noted with its cause and bundle address, and
the vote follows. -/
def runFault (s : State) (b : Block) (c : Cause) (bundle : Word) : State :=
  let s1 := purgeRuns s fun lid bid run => lid == b.lid && bid == b.bid && run == b.run
  (s1.setBlock { b with faulted := some (c, bundle), phase := .done, wavesLeft := 0, saved := none }).schedule 0
    (.checkVote b.lid b.bid)

/-- A terminating fault of a block's run (R49, R367): a context error, but for a shadow or tiebreak run, which only
ends. -/
def blockError (s : State) (lid bid : Nat) (run : Run) (fn ctx : Nat) (c : Cause) (bundle : Word) : State :=
  match s.block? lid bid run with
  | some b =>
    if b.unchecked && (run == .shadow || run == .tiebreak) then runFault s b c bundle else contextError s fn ctx c
  | none => contextError s fn ctx c

/-- A terminating fault of a wave at a bundle (R49, R367). -/
def waveError (s : State) (w : Wave) (bundle : Word) (c : Cause) : State :=
  blockError s w.lid w.bid w.run w.fn w.ctx c bundle

/-! ## Exceptions -/

/-- What an exception reports (R44): its cause, the faulting instruction's word and place, the addresses and lanes its
chapter ties to it, and the point TRET resumes at. -/
structure TrapInfo where
  cause : Cause
  word : Word32
  bundle : Word
  /-- slot of the faulting instruction, 0 for a trap not tied to one -/
  slot : Nat
  addr : Word
  /-- lanes that faulted; none stands for the path's active mask -/
  lanes : Option Mask
  detail : Word
  resumeBundle : Word
  resumeSlot : Nat
  deriving DecidableEq, Repr

/-- A transactional lane's first abort fixes its status and frees its entries (R258, R260). -/
def TxLane.abort (t : TxLane) (status code : Nat) : TxLane :=
  if t.status = 0 then { t with status := status, code := code, sectors := [] } else t

/-- Every transactional lane of the wave aborts with a status (R262). -/
def Wave.abortTx (w : Wave) (status : Nat) : Wave := { w with tx := w.tx.map fun t => t.abort status 0 }

/-- A path is in a section (R263): it opened it, or holds lanes of it that a branch parted from the path that did. -/
def Elision.holds (x : Elision) (p : Path) : Bool := x.path == p.born || x.lanes.any (inMask p.mask)

/-- An elided section ends without effect (R263): its lanes leave their transactions, and its paths stand again at the LRES,
which is to be performed plainly. A repeat of such a path ends. -/
def Wave.endSection (w : Wave) (x : Elision) : Wave :=
  let back : Path → Path := fun p =>
    if x.holds p then
      { p with pc := x.bundle, slot := x.slot, fresh := false, taken := true, park := if p.parkedRjoin then .running else p.park }
    else p
  let mine := w.rep.valid && w.places.any fun e => e.1 == w.rep.path && x.holds e.2
  { w.mapPaths back with
    tx := w.tx.filter fun t => !x.lanes.contains t.lane
    elisions := (w.elisions.filter fun y => y != x) ++
      (w.allPaths.filter x.holds).map fun p => { x with path := p.born, lanes := [], plain := true }
    rep := if mine then emptyRep else w.rep }

/-- An open elided section of the wave (R263). -/
def Wave.section? (w : Wave) : Option Elision := w.elisions.find? fun x => !x.plain

/-- The open elided section that a path of the wave is in (R263). -/
def Wave.sectionOf (w : Wave) (p : Path) : Option Elision := w.elisions.find? fun x => !x.plain && x.holds p

/-- The wave with its open sections ended. -/
def Wave.leaveSection (w : Wave) : Wave := (w.elisions.filter fun x => !x.plain).foldl Wave.endSection w

/-- The trap frame's registers s56 to s62 (R44), in order. -/
def trapFrame (w : Wave) (mask : Mask) (t : TrapInfo) : List Word :=
  let region := (w.regions.headD 0).toNat
  let s56 := t.word.toNat * 2 ^ 32 + region * 2 ^ 16 + b2n t.cause.restartable * 2 ^ 9 + b2n t.cause.precise * 2 ^ 8 +
    t.slot * 2 ^ 6 + t.cause.code
  [w64 s56, t.bundle, t.addr, w64 (mask.toNat * 2 ^ 32 + ((t.lanes.getD mask).toNat)), t.detail,
   w64 (t.resumeBundle.toNat / 16 * 16 + t.resumeSlot), w64 w.mode.toNat]

/-- The frame written into s56 to s62. -/
def Wave.writeFrame (w : Wave) (mask : Mask) (t : TrapInfo) : Wave :=
  let f := trapFrame w mask t
  (List.range 7).foldl (fun w k => w.setS (56 + k) (f.getD k 0)) w

/-- TAKING AN EXCEPTION (R44, R46, R48, R49, R52, R262): the path at `place` of a wave takes a trap. With no handler
every cause but HALT_REQUEST errors the context; inside a handler it is a double fault. Otherwise the paths and REPSTATE
move to the held copy, the frame is written, the mode becomes zero, and the handler starts with the faulting path's
mask. Transactional lanes abort with TRAP, and an elided section aborts: its path resumes at its LRES (R263). -/
def enterTrap (s : State) (w : Wave) (place : Nat) (t0 : TrapInfo) : State :=
  match s.waveCtx w, mfind w.places place with
  | some ctx, some p =>
    if w.held.isSome then waveError s w t0.bundle .doubleFault
    else if ctx.handler = 0 then
      (if t0.cause = .haltRequest then s else waveError s w t0.bundle t0.cause)
    else
      let t := match w.sectionOf p with
        | some x => { t0 with resumeBundle := x.bundle, resumeSlot := x.slot }
        | none => t0
      let w0 := (w.accepted (.path p.born)).leaveSection
      let rep := if t.cause = .repBudget && w0.rep.path == place then emptyRep else w0.rep
      let stopped := { p with pc := w64 (t.resumeBundle.toNat / 16 * 16)
                              slot := if t.resumeSlot = 0 then 1 else t.resumeSlot
                              fresh := t.resumeSlot == 0, park := .running }
      let held : HeldCopy := { places := mput w0.places place stopped, stack := w0.stack, rep := rep, faultPlace := place,
                               lastSlot := w.lastSlot }
      let handler := { newPath ctx.handler p.mask with lastIssue := s.clock, issued := true, taken := true, born := s.counter }
      let w1 := (w0.abortTx 7).writeFrame p.mask t
      let w2 := { w1 with
        mode := 0, places := [(0, handler)], stack := [], rep := emptyRep, held := some held, lastSlot := 2 }
      { s with counter := s.counter + 1 }.setWave w2
  | _, _ => s

/-- A mode register written from a word: bits 7:0 are read-only zero (R9, R65). -/
def modeFrom (x : Word) : ModeReg := BitVec.ofNat 24 (x.toNat / 256 % 2 ^ 16 * 256)

/-- RETURNING FROM AN EXCEPTION (R45, R147): the mode from s62 and REPSTATE from the held copy, the faulting path at
the point s61 names, the wave's other paths eligible again. A repeat of the faulting path is abandoned when the handler
changed s61. Bits 3:2 of s61, which the spec lets no cause name here, are ignored (DESIGN CHOICE, log entry 79). -/
def leaveTrap (s : State) (w : Wave) : State :=
  match w.held with
  | none => s
  | some h =>
    let r := (w.sreg 61).toNat
    let pc := w64 (r / 16 * 16)
    let slot := r % 4
    let same := match mfind h.places h.faultPlace with
      | some p => p.pc == pc && (if slot = 0 then p.fresh else !p.fresh && p.slot == slot)
      | none => false
    let rep := if h.rep.valid && h.rep.path == h.faultPlace && !same then emptyRep else h.rep
    let w1 := { w with
      mode := modeFrom (w.sreg 62)
      places := h.places, stack := h.stack, rep := rep, held := none, lastSlot := h.lastSlot }
    let w2 := w1.modPath h.faultPlace fun p =>
      { p with pc := pc, slot := if slot = 0 then 1 else slot, fresh := slot == 0, lastIssue := s.clock, taken := true,
               issued := true, park := .running, nopStall := 0 }
    s.setWave w2.refill

end Sys2Proof.Machine
end

