-- ==== Sys2Proof/Machine/Translate.lean ====
section
/-! DEFINITION. The translation engine (R372 to R386): page-table walks, the TLBs, permissions, private and shared pages,
and the fault records queued to the host. -/

namespace Sys2Proof.Machine

/-- The low bit and width of the index of a table level (R375). -/
def levelShift : Nat → Nat
  | 0 => 39 | 1 => 30 | 2 => 21 | _ => 16
def levelBits : Nat → Nat
  | 0 => 13 | 1 => 9 | 2 => 9 | _ => 5

/-- Where a walk ends (R377). -/
inductive WalkEnd where
  | absent (malformed : Bool) (level entry : Nat)
  | leaf (e : TlbEntry)
  deriving DecidableEq, Repr

/-- A valid table entry is malformed (R376). -/
def entryMalformed (level x : Nat) : Bool :=
  let leaf := bitOf x 1
  let addr := bits x 8 40 * 256
  let next := if level = 2 then 256 else 4096
  bits x 48 16 != 0 || bits x 6 2 != 0 || (level == 0 && leaf) || (level == 3 && !leaf) ||
    (leaf && addr % 2 ^ levelShift level != 0) || (!leaf && (addr % next != 0 || bits x 2 4 != 0))

/-! ## Caches (R14, R16, R20, R372)

Global memory is the L2's lines over DRAM. A line keeps its own copy of its sectors under its virtual tag, so synonyms
are not kept coherent (R379). The L1s and instruction caches hold tags and recorded bits: their bytes are those of the L2
line (log entry 76). -/

/-- The class record of a 64 KiB page (R381). -/
def classOf (s : State) (asid va : Nat) : Option ClassRec :=
  s.classes.find? fun r => r.asid == asid && r.page == va / 65536

/-- The slice nearest a core, and the hashed slice of a line: the spec fixes neither map (log entry 30). -/
def nearestSlice (core : Nat) : Nat := 80 * dieOf core + core % 256 * 80 / 256
def hashedSlice (asid va : Nat) : Nat := (va / 256 + asid) % Config.l2Slices

/-- The home slice of an address under its page's class (R381). -/
def homeSlice (s : State) (asid va : Nat) : Nat :=
  match classOf s asid va with
  | some r => if r.shared then hashedSlice asid va else nearestSlice r.owner
  | none => hashedSlice asid va

/-- The L2 set of a line within its home slice: 384 sets of 16 ways. The lines of a private page lie one after another in the
sets of their one home, those of the hash in the sets of each slice. The spec leaves the map open (R231, log entry 30). -/
def l2Set (s : State) (asid line : Nat) : Nat :=
  homeSlice s asid (256 * line) * 384 +
    (match classOf s asid (256 * line) with
      | some r => if r.shared then line / Config.l2Slices else line
      | none => line / Config.l2Slices) % 384

/-- A line that eviction never chooses: it holds a held version, a pin or a narrow-scope pin (R119, R231, R354). -/
def lineMarked (s : State) (asid line : Nat) : Bool :=
  (s.heldSectors.any fun h => h.asid == asid && h.sector / 4 == line) ||
    (s.pins.any fun p => p.asid == asid && p.line == line) ||
    s.scopePins.any fun p => p.line == { space := .global asid, addr := 256 * line }

/-- A write of a line clears every reservation on it (R124, R255). -/
def clearReservations (s : State) (line : Loc) : State :=
  let drop : Wave → Wave := fun w =>
    match w.reservation with
    | some r => if r.line == line then { w with reservation := some { r with valid := false } } else w
    | none => w
  { s with waves := s.waves.map drop }

/-- The copies of a line in the L1s and instruction caches dropped, but for those that `keep` names. -/
def dropL1 (s : State) (asid line : Nat) (keep : L1Line → Bool) : State :=
  { s with l1 := s.l1.filter fun x => !(x.asid == asid && x.line == line) || keep x }

/-- A line written back and dropped from its slice and from every L1; its reservations are cleared (R255). -/
def evictLine (s : State) (l : L2Line) : State :=
  let s1 := dropL1 (clearReservations { s with dram := flushSectors s.dram l.pa l.sectors }
    { space := .global l.asid, addr := 256 * l.line }) l.asid l.line fun _ => false
  { s1 with l2 := s1.l2.filter fun x => !(x.asid == l.asid && x.line == l.line) }

/-- A line written back, and its copies dropped: one that is marked keeps its place without its sectors (R233, R382,
R386). -/
def flushLine (s : State) (l : L2Line) : State :=
  if lineMarked s l.asid l.line then
    dropL1 ({ s with dram := flushSectors s.dram l.pa l.sectors }.setLine { l with sectors := [] }) l.asid l.line fun _ => false
  else evictLine s l

/-- The lines of an ASID that meet a range of addresses. -/
def linesIn (s : State) (asid base n : Nat) : List L2Line :=
  s.l2.filter fun l => l.asid == asid && decide (256 * l.line < base + n) && decide (base < 256 * l.line + 256)

/-- One of some lines evicted; the spec gives no order of replacement (log entry 77). -/
def evictOne (s : State) (cands : List L2Line) : Option State :=
  (cands[Config.evicted s.counter % cands.length]?).map fun l => evictLine { s with counter := s.counter + 1 } l

/-- A way of the line's set is free, or made so: a walk takes at most 2 ways, and no line that is marked goes (R374, R354).
None when no way can be had. -/
def makeRoom (s : State) (asid line : Nat) : Option State :=
  let mine := s.l2.filter fun l => l2Set s l.asid l.line == l2Set s asid line
  let walks := mine.filter fun l => l.asid == 0
  if asid == 0 && 2 ≤ walks.length then evictOne s walks
  else if mine.length < 16 then some s
  else evictOne s (mine.filter fun l => !lineMarked s l.asid l.line)

/-- A line filled, or filled again, by a translation: the recorded bits are its, and a line of another frame is written
back first (R372). Without a way for it the access goes uncached. -/
def fillLine (s : State) (asid line pa : Nat) (perms : LinePerms) : State :=
  let fresh (s : State) : State :=
    match makeRoom s asid line with
    | none => s
    | some s1 => { s1 with l2 := s1.l2 ++ [{ asid := asid, line := line, pa := pa, perms := perms, sectors := [] }] }
  match s.line? asid line with
  | some l => if l.pa = pa then s.setLine { l with perms := perms } else
      let s1 := flushLine s l
      (match s1.line? asid line with
       | some l1 => s1.setLine { l1 with pa := pa, perms := perms }
       | none => fresh s1)
  | none => fresh s

/-- The sectors of a line from `k` on, `n` of them, fetched from DRAM where the line lacks them. -/
def fetchSectors (mem : List Host.Cell) (pa k : Nat) : Nat → SMap Sector → SMap Sector
  | 0, m => m
  | n + 1, m =>
    fetchSectors mem pa (k + 1) n
      (if (mfind m k).isSome then m else mput m k { bytes := readBytes mem (pa + 64 * k) 64, dirty := false })

/-- The sectors of a range within one line fetched into it, where it is cached. -/
def fetchRange (s : State) (asid va n : Nat) : State :=
  match s.line? asid (va / 256) with
  | none => s
  | some l =>
    let k := va % 256 / 64
    s.setLine { l with sectors := fetchSectors s.dram l.pa k ((va % 64 + n + 63) / 64) l.sectors }

/-- Lines an L1 and an instruction cache hold: 256 KiB and 64 KiB (R16). -/
def l1Lines (instr : Bool) : Nat := if instr then 256 else 1024

/-- A line brought into a core's L1 or instruction cache, where its oldest line gives way to it (log entry 77). -/
def fillL1 (s : State) (x : L1Line) : State :=
  if (s.line? x.asid x.line).isNone then s
  else
    let others := s.l1.filter fun y => !(y.core == x.core && y.instr == x.instr && y.asid == x.asid && y.line == x.line)
    let mine := others.filter fun y => y.core == x.core && y.instr == x.instr
    let kept := if mine.length < l1Lines x.instr then others else
      match mine with
      | old :: _ => others.erase old
      | [] => others
    { s with l1 := kept ++ [x] }

/-- A byte of the committed version as an access under a tag reads it: the line's, or DRAM's. -/
def taggedByte (s : State) (asid va pa : Nat) : Byte :=
  match (s.line? asid (va / 256)).bind fun l => mfind l.sectors (va % 256 / 64) with
  | some x => x.bytes.getD (va % 64) 0
  | none => readByte s.dram pa

/-- Bytes of the committed version under a tag, within one page. -/
def taggedBytes (s : State) (asid va pa n : Nat) : List Byte := (List.range n).map fun i => taggedByte s asid (va + i) (pa + i)

/-- The walk's line of a physical byte dropped, as a write performed at the channel controller does (R378). -/
def dropWalkLine (s : State) (pa : Nat) : State :=
  { s with l2 := s.l2.filter fun l => !(l.asid == 0 && l.line == pa / 256) }

/-- A byte of the committed version written under a tag: into the line, and otherwise at the channel controller. -/
def writeTagged (s : State) (asid va pa : Nat) (x : Byte) : State :=
  match s.line? asid (va / 256) with
  | some l =>
    (match mfind l.sectors (va % 256 / 64) with
     | some c => s.setLine { l with sectors := mput l.sectors (va % 256 / 64) { bytes := c.bytes.set (va % 64) x, dirty := true } }
     | none => dropWalkLine { s with dram := writeByte s.dram pa x } pa)
  | none => dropWalkLine { s with dram := writeByte s.dram pa x } pa

/-- Bytes written under a tag, within one page. -/
def writeTaggedBytes (s : State) (asid va pa : Nat) : List Byte → State
  | [] => s
  | x :: xs => writeTaggedBytes (writeTagged s asid va pa x) asid (va + 1) (pa + 1) xs

/-! ## Physical accesses: the host's, PCIe peers' and the device's own to rings and tables

They take part in the coherence order (R108): each cached line of the frame reads and is written with DRAM (log entry
78). -/

/-- The sector of a line that holds a physical byte. -/
def L2Line.sectorAt (l : L2Line) (pa : Nat) : Option Sector :=
  if l.pa ≤ pa && pa < l.pa + 256 then mfind l.sectors ((pa - l.pa) / 64) else none

/-- A physical byte as it is read: a line's dirty copy, or DRAM's. -/
def physByte (s : State) (pa : Nat) : Byte :=
  match s.l2.findSome? fun l => (l.sectorAt pa).bind fun x => if x.dirty then some (x.bytes.getD (pa % 64) 0) else none with
  | some x => x
  | none => readByte s.dram pa

/-- Physical bytes read. -/
def readPhys (s : State) (pa n : Nat) : List Byte := (List.range n).map fun i => physByte s (pa + i)

/-- A line with a physical byte written into its copy. -/
def L2Line.putPhys (l : L2Line) (pa : Nat) (x : Byte) : L2Line :=
  match l.sectorAt pa with
  | some c => { l with sectors := mput l.sectors ((pa - l.pa) / 64) { c with bytes := c.bytes.set (pa % 64) x } }
  | none => l

/-- Physical bytes written, into DRAM and into every line that holds them. Reservations on those lines are cleared
(R124). -/
def putPhys (s : State) (pa : Nat) : List Byte → State
  | [] => s
  | x :: xs => putPhys { s with dram := writeByte s.dram pa x, l2 := s.l2.map fun l => l.putPhys pa x } (pa + 1) xs

/-! ## Walks (R373 to R378) -/

/-- An entry of a table read by a walk, through its own line, tagged with ASID 0 (R374). -/
def walkRead (s : State) (pa : Nat) : Nat × State :=
  let perms : LinePerms := { w := false, x := false, cow := false, size := 0, mapGen := 0, stale := false }
  let s1 := fetchRange (if (s.line? 0 (pa / 256)).isSome then s else fillLine s 0 (pa / 256) (pa / 256 * 256) perms) 0 pa 8
  (leNat (taggedBytes s1 0 pa pa 8), s1)

/-- The walk of an address from a table of the level `4 - n` (R375, R376). -/
def walkFrom (s : State) (tlb asid va : Nat) : Nat → Nat → WalkEnd × State
  | 0, base => (.absent true 3 base, s)
  | n + 1, base =>
    let level := 3 - n
    let entry := base + 8 * bits va (levelShift level) (levelBits level)
    let (x, s1) := walkRead s entry
    if !bitOf x 0 then (.absent false level entry, s1)
    else if entryMalformed level x then (.absent true level entry, s1)
    else if bitOf x 1 then
      let size := 2 ^ levelShift level
      (.leaf { tlb := tlb, asid := asid, vbase := va / size * size, size := size, pbase := bits x 8 40 * 256,
               w := bitOf x 2, x := bitOf x 3, cow := bitOf x 4, nc := bitOf x 5, entry := entry, level := level }, s1)
    else walkFrom s1 tlb asid va n (bits x 8 40 * 256)

/-- The TLB that serves a slice's misses (R372). -/
def tlbOfSlice (slice : Nat) : Nat := 32 * (slice / 80) + slice % 80 % 32

/-- The TLB's entries with one more, the oldest dropped past 4,096 (R373). -/
def tlbInsert (es : List TlbEntry) (e : TlbEntry) : List TlbEntry :=
  let mine := es.filter fun x => x.tlb == e.tlb
  if mine.length < 4096 then es ++ [e]
  else
    match mine with
    | old :: _ => es.erase old ++ [e]
    | [] => es ++ [e]

/-- A page of the range of a map change that is working or frozen (R386). -/
def frozenVa (s : State) (asid va : Nat) : Bool :=
  s.fns.any fun e =>
    let f := e.2
    (f.mapStat == 1 || f.mapStat == 2) && f.mapAsid == asid && decide (f.mapFirst ≤ va / 65536) &&
      decide (va / 65536 < f.mapFirst + f.mapCount)

/-- An address translated by its TLB: a cached leaf, or a walk whose valid leaf is cached (R372 to R375). A request of an
older map generation leaves no leaf of a frozen range in the TLB (R386). -/
def translate (s : State) (asid va : Nat) : WalkEnd × State :=
  let tlb := tlbOfSlice (homeSlice s asid va)
  match s.tlb.find? fun e => e.tlb == tlb && e.asid == asid && decide (e.vbase ≤ va) && decide (va < e.vbase + e.size) with
  | some e => (.leaf e, s)
  | none =>
    match s.ctxOfAsid asid with
    | none => (.absent false 0 0, s)
    | some c =>
      match walkFrom s tlb asid va 4 c.root with
      | (.leaf e, s1) => (.leaf e, if frozenVa s asid va then s1 else { s1 with tlb := tlbInsert s1.tlb e })
      | r => r

/-- The kind of an access for its permissions (R377). -/
inductive AccKind where
  | read | write | atomic | fetch
  deriving DecidableEq, Repr

/-- The kind writes, or asks for the permission to write (R123, R377). -/
def AccKind.writes : AccKind → Bool
  | .write | .atomic => true
  | .read | .fetch => false

/-- An access that its translation refuses: the cause, and what a fault record says of it (R383). -/
structure XFault where
  cause : Cause
  asid : Nat
  va : Nat
  flags : Nat
  entry : Nat
  deriving DecidableEq, Repr

/-- The outcome of one translated access: a physical address and the NC attribute, a refusal, a wait on a frozen map
change (R386), or a miss to a page that is being reclassified (R382). -/
inductive Xlat where
  | ok (pa : Nat) (nc : Bool)
  | fault (x : XFault)
  | frozen
  | blocked (page : Nat)
  deriving DecidableEq, Repr

/-- The cause a walk's end gives an access, the first row of R377 that applies. -/
def accessCause (k : AccKind) (e : TlbEntry) : Option Cause :=
  if k == .fetch && !e.x then some .execProtect
  else if k.writes && e.cow then some .copyOnWrite
  else if k.writes && !e.w then some .writeProtect
  else if k == .atomic && e.nc then some .atomicNc
  else none

/-- Byte 0x0C of a fault record (R383). -/
def faultFlags (k : AccKind) (malformed : Bool) (level : Nat) : Nat :=
  b2n k.writes + 2 * b2n (k == .fetch) + 4 * b2n malformed + 8 * level

/-! ## Private and shared pages (R381, R382) -/

/-- An atomic request on its way to a page (R125). -/
def toPage (s : State) (asid page : Nat) (r : AtomicReq) : Bool :=
  r.entry.op.form == .generic && (r.entry.op.lanes.any fun l => l.addr.toNat / 65536 == page) &&
    (s.anyWave? r.uid).any fun w => s.waveAsid w == asid

/-- A page becomes shared: its lines leave their old home, which writes them back; its reservations are cleared, its class
generation rises, and every class cache drops it (R382, R125). -/
def reclassify (s : State) (asid page : Nat) : State :=
  match s.classes.find? fun r => r.asid == asid && r.page == page with
  | none => s
  | some r =>
    if r.shared then s
    else
      let s1 := (linesIn s asid (65536 * page) 65536).foldl flushLine s
      let share : ClassRec → ClassRec := fun x =>
        if x.asid == asid && x.page == page then { x with shared := true, generation := x.generation + 1, waits := none } else x
      let drop : Wave → Wave := fun w =>
        match w.reservation with
        | some v =>
          if v.line.space == .global asid && v.line.addr / 65536 == page then
            { w with reservation := some { v with valid := false } }
          else w
        | none => w
      { s1 with
        classes := s1.classes.map share
        classCopies := s1.classCopies.filter fun x => !(x.asid == asid && x.page == page)
        waves := s1.waves.map drop }

/-- The requests a reclassification waits for are still on their way (R382, step 2). -/
def reclassWaits (s : State) (r : ClassRec) : Bool :=
  match r.waits with
  | some ids => s.atomics.any fun a => ids.contains a.id
  | none => s.atomics.any (toPage s r.asid r.page)

/-- A page's misses blocked until the atomics on their way to its old home are performed there (R382, steps 1 and 2). -/
def blockPage (s : State) (asid page : Nat) : State :=
  let ids := (s.atomics.filter (toPage s asid page)).map AtomicReq.id
  let block : ClassRec → ClassRec := fun r =>
    if r.asid == asid && r.page == page && r.waits.isNone && !r.shared then { r with waits := some ids } else r
  { s with classes := s.classes.map block }

/-- A core learns a page's record: its class cache holds 256, and the oldest gives way (R381). -/
def learnClass (s : State) (core : Nat) (r : ClassRec) : State :=
  if s.classCopies.any fun x => x.core == core && x.asid == r.asid && x.page == r.page then s
  else
    let mine := s.classCopies.filter fun x => x.core == core
    let kept := if mine.length < 256 then s.classCopies else
      match mine with
      | old :: _ => s.classCopies.erase old
      | [] => s.classCopies
    { s with classCopies := kept ++
        [{ core := core, asid := r.asid, page := r.page, shared := r.shared, owner := r.owner, generation := r.generation }] }

/-- The class generation a core sends its requests for a page with (R382). -/
def sentGeneration (s : State) (core asid page : Nat) : Nat :=
  ((s.classCopies.find? fun x => x.core == core && x.asid == asid && x.page == page).map ClassCopy.generation).getD
    (((classOf s asid (65536 * page)).map ClassRec.generation).getD 0)

/-- A core's miss to a page that is not NC: the first makes it private, and one by another core shared (R381). None while
the page's misses are blocked (R382). -/
def touchPage (s : State) (asid va core : Nat) : Option State :=
  match classOf s asid va with
  | none =>
    let r : ClassRec := { asid := asid, page := va / 65536, shared := false, owner := core, generation := 0, waits := none }
    some (learnClass { s with classes := s.classes ++ [r] } core r)
  | some r =>
    if r.shared || r.owner == core then some (learnClass s core r)
    else if reclassWaits s r then none
    else
      let s1 := reclassify s asid (va / 65536)
      some (match classOf s1 asid va with
        | some r1 => learnClass s1 core r1
        | none => s1)

/-! ## Accesses (R20, R372, R377, R386) -/

/-- An agent that reaches memory (R105), placed as the scopes of R106 need. -/
inductive Agent where
  | core (c : Nat) | node (g : Nat) | host | launch (die : Nat) | fabric | pcie
  deriving DecidableEq, Repr

/-- Who makes an access: the agent, the ASID, and the run whose held versions it reads and writes (R127). `l1`: it goes
through the core's L1. `old`: its request was translated, or its command accepted, under an older map generation (R386). -/
structure Actor where
  agent : Agent
  asid : Nat
  lid : Nat
  bid : Nat
  run : Run
  held : Bool
  l1 : Bool
  old : Bool
  deriving DecidableEq, Repr

/-- A hit is served by the line (R20, R372): its bits are not stale, and a write has its permission in them. -/
def hitServes (p : LinePerms) (k : AccKind) : Bool := !p.stale && (!k.writes || (p.w && !p.cow))

/-- The bits a hit is checked against: those of the core's own copy, where it has one, or the L2's (R372). -/
def hitPerms (s : State) (a : Actor) (k : AccKind) (l : L2Line) : LinePerms :=
  match a.agent with
  | .core c =>
    ((s.l1.find? fun x => x.core == c && x.instr == (k == .fetch) && x.asid == l.asid && x.line == l.line &&
      (a.l1 || k == .fetch)).map L1Line.perms).getD l.perms
  | _ => l.perms

/-- The TLB's outcome of an access that misses, or whose permissions are checked again (R20, R372, R377, R386). -/
def tlbAccess (s : State) (a : Actor) (va : Nat) (k : AccKind) : Xlat × Option TlbEntry × State :=
  if frozenVa s a.asid va && !a.old then (.frozen, none, s)
  else
    match translate s a.asid va with
    | (.absent malformed level entry, s1) =>
      (.fault { cause := .pageNotPresent, asid := a.asid, va := va, flags := faultFlags k malformed level,
                entry := entry }, none, s1)
    | (.leaf e, s1) =>
      match accessCause k e with
      | some c => (.fault { cause := c, asid := a.asid, va := va, flags := faultFlags k false e.level, entry := e.entry }, none, s1)
      | none => (.ok (e.pbase + (va - e.vbase)) e.nc, some e, s1)

/-- The bits a leaf gives a line (R372). -/
def leafPerms (s : State) (e : TlbEntry) : LinePerms :=
  { w := e.w, x := e.x, cow := e.cow, size := e.size, mapGen := mget 0 s.mapGens e.asid, stale := false }

/-- A core's copy of a line it has just reached: in its instruction cache for a fetch, in its L1 for a load or store. -/
def keepL1 (s : State) (a : Actor) (va : Nat) (k : AccKind) : State :=
  match a.agent, s.line? a.asid (va / 256) with
  | .core c, some l =>
    if a.l1 || k == .fetch then
      fillL1 s { core := c, instr := k == .fetch, asid := a.asid, line := va / 256, perms := l.perms }
    else s
  | _, _ => s

/-- The class of the page as a core's access meets it (R381): its state after, or the page whose misses are blocked. -/
def classStep (s : State) (a : Actor) (va : Nat) : Option State :=
  match a.agent with
  | .core c => touchPage s a.asid va c
  | _ => some s

/-- The line holds every sector of `n` bytes at an address of it. -/
def L2Line.holds (l : L2Line) (va n : Nat) : Bool :=
  (List.range ((va % 64 + n + 63) / 64)).all fun k => (mfind l.sectors (va % 256 / 64 + k)).isSome

/-- One access of `n` bytes within a line (R20): a hit, on a line that holds the sectors it needs, is served by the line's
recorded bits, and anything else by the TLB, after which the line holds them, unless the page is NC. One of no bytes is
translated and checked alone. -/
def xlate (s : State) (a : Actor) (va n : Nat) (k : AccKind) : Xlat × State :=
  match (s.line? a.asid (va / 256)).filter fun l => hitServes (hitPerms s a k l) k && (n == 0 || l.holds va n) with
  | some l =>
    if k == .fetch && !(hitPerms s a k l).x then
      (.fault { cause := .execProtect, asid := a.asid, va := va, flags := faultFlags k false 3, entry := 0 }, s)
    else if n = 0 then (.ok (l.pa + va % 256) false, s)
    else
      match classStep s a va with
      | none => (.blocked (va / 65536), s)
      | some s1 => (.ok (l.pa + va % 256) false, keepL1 (fetchRange s1 a.asid va n) a va k)
  | none =>
    match tlbAccess s a va k with
    | (.ok pa nc, some e, s1) =>
      if n = 0 then (.ok pa nc, s1)
      else if nc then
        (.ok pa nc, match s1.line? a.asid (va / 256) with
          | some l => flushLine s1 l
          | none => s1)
      else
        match classStep s1 a va with
        | none => (.blocked (va / 65536), s1)
        | some s2 =>
          let s3 := fillLine s2 a.asid (va / 256) (pa - va % 256) (leafPerms s2 e)
          (.ok pa nc, keepL1 (fetchRange s3 a.asid va n) a va k)
    | (r, _, s1) => (r, s1)

/-- Where a global line lies in physical memory: as it was filled, or else as it is mapped. -/
def lineFrame (s : State) (x : Loc) : Option Nat :=
  match x.space with
  | .global asid =>
    match s.line? asid (x.addr / 256) with
    | some l => some l.pa
    | none => match (translate s asid x.addr).1 with
      | .leaf e => some (e.pbase + (x.addr - e.vbase))
      | .absent .. => none
  | _ => none

/-- A global line lies at some of `n` physical bytes. -/
def frameMeets (s : State) (x : Loc) (pa n : Nat) : Bool := (lineFrame s x).any fun b => decide (b < pa + n) && decide (pa < b + 256)

/-- A physical write by an agent outside the virtual spaces: DRAM and the cached copies of it, with the reservations on it
cleared (R108, R124, R255). -/
def writePhys (s : State) (pa : Nat) (bytes : List Byte) : State :=
  let meets : Reservation → Bool := fun r => frameMeets s r.line pa bytes.length
  let drop : Wave → Wave := fun w =>
    match w.reservation with
    | some r => if meets r then { w with reservation := some { r with valid := false } } else w
    | none => w
  let s1 := putPhys s pa bytes
  { s1 with waves := s1.waves.map drop }

/-! ## Fault records -/

/-- A register of a function window kept by offset. -/
def Function.reg (f : Function) (off : Nat) : Nat := (mget 0 f.regs off).toNat
def Function.setReg (f : Function) (off : Nat) (x : Nat) : Function := { f with regs := mset 0 f.regs off (w64 x) }

/-- The fault ring's base and entries (R385). -/
def Function.ringBase (f : Function) : Nat := f.reg 0x00
def Function.ringSize (f : Function) : Nat := f.reg 0x08

/-- The ring takes no record now: it is disabled or full (R385). -/
def Function.ringFull (f : Function) : Bool :=
  f.ringSize == 0 || (f.faultTail + 2 ^ 32 - f.faultHead) % 2 ^ 32 == f.ringSize

/-- The 32 bytes of a fault record (R383). -/
def faultBytes (r : FaultRec) : List Byte :=
  leBytes 8 r.va ++ leBytes 2 r.asid ++ leBytes 1 r.cause ++ leBytes 1 r.kind ++ leBytes 1 r.flags ++
    leBytes 1 r.coalesced ++ leBytes 2 0 ++ leBytes 4 r.seqNo ++ leBytes 4 r.requester ++ leBytes 8 r.entry

/-- The same fault as a record not yet answered (R383). -/
def FaultRec.covers (r : FaultRec) (x : XFault) : Bool :=
  !r.answered && r.asid == x.asid && r.va / 65536 == x.va / 65536 && r.cause == x.cause.code &&
    r.flags % 4 == x.flags % 4

/-- The record still stands in its ring: the host has not read past it, and no newer one has its slot (R383, R385). -/
def FaultRec.inRing (r : FaultRec) (f : Function) : Bool :=
  f.ringSize != 0 && decide ((f.faultTail + 2 ^ 32 - 1 - r.seqNo) % 2 ^ 32 < f.ringSize)

/-- The function that owns an ASID. -/
def State.fnOfAsid (s : State) (asid : Nat) : Nat := ((s.ctxOfAsid asid).map Context.fn).getD 0

/-- A fault queued to the host: coalesced with an open record, written into the ring, or waiting for room (R383). -/
def postFault (s : State) (x : XFault) (kind requester : Nat) (waiter : Requester) : State :=
  let fn := s.fnOfAsid x.asid
  let f := s.func fn
  match f.faults.find? fun r => r.covers x with
  | some r =>
    let r' := { r with coalesced := Nat.min 255 (r.coalesced + 1), waiters := r.waiters ++ [waiter] }
    let s1 := s.setFunc fn { f with faults := f.faults.map fun y => if y.seqNo == r.seqNo then r' else y }
    if r.inRing f then writePhys s1 (f.ringBase + 32 * (r.seqNo % f.ringSize) + 13) (leBytes 1 r'.coalesced) else s1
  | none =>
    if f.ringFull then
      s.setFunc fn { f with waitingFaults := f.waitingFaults ++
        [{ va := x.va, asid := x.asid, cause := x.cause.code, kind := kind, flags := x.flags, requester := requester,
           entry := x.entry, waiter := waiter }] }
    else
      let r : FaultRec := { seqNo := f.faultTail, va := x.va, asid := x.asid, cause := x.cause.code, kind := kind,
                            flags := x.flags, coalesced := 1, requester := requester, entry := x.entry,
                            waiters := [waiter], answered := false }
      let s1 := s.setFunc fn { f with faults := f.faults ++ [r], faultTail := (f.faultTail + 1) % 2 ^ 32 }
      writePhys s1 (f.ringBase + 32 * (r.seqNo % f.ringSize)) (faultBytes r)

/-- The requester field of a wave's fault record (R383). -/
def waveRequester (w : Wave) : Nat := w.core + 1024 * w.part + 16384 * w.wslot

end Sys2Proof.Machine
end

