-- ==== Sys2Proof/Machine/Access.lean ====
section
/-! DEFINITION. Memory as the engines reach it: the agents of R105 and the scopes of R106, generic addresses (R209), the
checks of R215, held versions (R354), narrow-scope pins (R118, R119), guards (R219), and the loads and stores of a
wave (R214 to R227). Accesses take effect in one order of all agents (log entry 2). -/

namespace Sys2Proof.Machine

/-- The run is unchecked: what it writes is held (R21, R351). -/
def runHeld (s : State) (lid bid : Nat) (r : Run) : Bool :=
  match s.block? lid bid r with
  | some b => b.unchecked
  | none => false

/-- A wave as the maker of an access. -/
def waveActor (s : State) (w : Wave) : Actor :=
  { agent := .core w.core, asid := s.waveAsid w, lid := w.lid, bid := w.bid, run := w.run,
    held := runHeld s w.lid w.bid w.run, l1 := true, old := false }

/-- An actor outside any run. -/
def plainActor (a : Agent) (asid : Nat) : Actor :=
  { agent := a, asid := asid, lid := 0, bid := 0, run := .plain, held := false, l1 := false, old := false }

/-- The agent lies in the domain of a narrow-scope pin (R106, R118). -/
def inDomain (p : ScopePin) : Agent → Bool
  | .core c => match p.scope with
    | 0 | 1 | 2 => c == p.core
    | 3 => groveOf c == groveOf p.core
    | 4 => dieOf c == dieOf p.core
    | _ => true
  | .node g => match p.scope with
    | 0 | 1 | 2 => false
    | 3 => g == groveOf p.core
    | 4 => dieOfGrove g == dieOf p.core
    | _ => true
  | .launch d => match p.scope with
    | 0 | 1 | 2 | 3 => false
    | 4 => d == dieOf p.core
    | _ => true
  | .host => decide (5 ≤ p.scope)
  | .fabric => decide (6 ≤ p.scope)
  | .pcie => decide (7 ≤ p.scope)

/-- The 256 B line of an address of a space. -/
def lineLoc (space : Space) (addr : Nat) : Loc := { space := space, addr := addr / 256 * 256 }

/-- An access of an agent to a line pinned outside its reach is retried (R119). -/
def pinnedAgainst (s : State) (a : Agent) (line : Loc) : Bool :=
  s.scopePins.any fun p => p.line == line && !inDomain p a

/-! ## Signature words -/

/-- `rot(x, n)` of R358. -/
def rot64 (x n : Nat) : Nat := (x * 2 ^ n + x / 2 ^ (64 - n)) % 2 ^ 64

/-- One word's part of SS (R358). -/
def ssWord (addr data : Nat) : Nat := rot64 (addr % 2 ^ 32 * 2 ^ 32 + data % 2 ^ 32) (addr % 64)

/-- The words of one write: aligned groups of 4 bytes, or one narrower word (R358). -/
def ssOfWrite (addr : Nat) (bytes : List Byte) : Nat :=
  if bytes.length < 4 then ssWord addr (leNat bytes)
  else sumNat ((List.range (bytes.length / 4)).map fun i => ssWord (addr + 4 * i) (leNat (slice bytes (4 * i) 4)))

/-- Words of SS that a write adds: to the sums of an unchecked run (R358), and otherwise to the checksum of its launch
(R417). -/
def addSS (s : State) (a : Actor) (x : Nat) : State :=
  if a.held then
    match s.block? a.lid a.bid a.run with
    | some b => s.setBlock { b with ss := b.ss + w64 x }
    | none => s
  else
    match s.launch? a.lid with
    | some l => s.setLaunch { l with checksum := l.checksum + w64 x }
    | none => s

/-! ## Global memory -/

/-- The run's version of a 64 B sector (R354). -/
def heldSector? (s : State) (a : Actor) (sector : Nat) : Option HeldSector :=
  s.heldSectors.find? fun h => h.lid == a.lid && h.bid == a.bid && h.run == a.run && h.asid == a.asid && h.sector == sector

/-- Bytes of global memory within one page, as the actor reads them: its run's version where it has one, and the
committed version elsewhere (R127, R354). -/
def readGlobal (s : State) (a : Actor) (va pa n : Nat) : List Byte :=
  if !a.held then taggedBytes s a.asid va pa n
  else (List.range n).map fun i =>
    match heldSector? s a ((va + i) / 64) with
    | some h => h.bytes.getD ((va + i) % 64) 0
    | none => taggedByte s a.asid (va + i) (pa + i)

/-- A byte list with one place changed. -/
def setByte (bs : List Byte) (i : Nat) (x : Byte) : List Byte := bs.set i x

/-- One byte written into a run's version, made as a copy of the committed sector on the first write (R354). `keep`: a
store's byte, which the release writes; the bytes of an object changed by an arrival or signal are not (R357). -/
def holdByte (s : State) (a : Actor) (keep : Bool) (va pa : Nat) (x : Byte) : State :=
  let i := va % 64
  match heldSector? s a (va / 64) with
  | some h =>
    let h' := { h with bytes := setByte h.bytes i x, stored := if keep then mput h.stored i x else h.stored }
    { s with heldSectors := s.heldSectors.map fun y => if y == h then h' else y }
  | none =>
    let base := taggedBytes s a.asid (va - i) (pa - i) 64
    { s with heldSectors := s.heldSectors ++
        [{ lid := a.lid, bid := a.bid, run := a.run, asid := a.asid, sector := va / 64, bytes := setByte base i x,
           stored := if keep then [(i, x)] else [] }] }

/-- Bytes held, one after another. -/
def holdBytes (s : State) (a : Actor) (keep : Bool) (va pa : Nat) : List Byte → State
  | [] => s
  | x :: xs => holdBytes (holdByte s a keep va pa x) a keep (va + 1) (pa + 1) xs

/-- The 256 B lines of a range. -/
def linesOf (va n : Nat) : List Nat := if n = 0 then [] else (List.range ((va + n - 1) / 256 - va / 256 + 1)).map (va / 256 + ·)

/-- A line about to be written leaves every other L1 and every instruction cache, and its reservations are cleared. -/
def claimLine (s : State) (a : Actor) (line : Nat) : State :=
  dropL1 (clearReservations s { space := .global a.asid, addr := 256 * line }) a.asid line fun x =>
    a.l1 && !x.instr && (match a.agent with | .core c => x.core == c | _ => false)

/-- Bytes written within one page: held by an unchecked run, else committed. -/
def writeGlobal (s : State) (a : Actor) (va pa : Nat) (bytes : List Byte) : State :=
  if a.held then holdBytes s a true va pa bytes
  else (linesOf va bytes.length).foldl (fun s l => claimLine s a l) (writeTaggedBytes s a.asid va pa bytes)

/-- What stops an access of global memory before it has any effect. -/
inductive XStop where
  | fault (x : XFault)
  | frozen
  /-- a miss to a page that is being reclassified (R382) -/
  | blocked (asid page : Nat)
  | pinned
  /-- a held write that finds its L2 set full (R355): the line -/
  | noRoom (line : Nat)
  /-- the context's log area has no room (R356) -/
  | noLog
  deriving DecidableEq, Repr

/-- The first of some lines a held write finds no room for: each shares a line that holds versions, or takes one of the 4
ways of its set that may hold them (R355). `held` are the lines that do. -/
def noRoomFor (s : State) (asid : Nat) : List (Nat × Nat) → List Nat → Option Nat
  | _, [] => none
  | held, l :: ls =>
    if held.contains (asid, l) then noRoomFor s asid held ls
    else if (held.filter fun e => l2Set s e.1 e.2 == l2Set s asid l).length < 4 then noRoomFor s asid ((asid, l) :: held) ls
    else some l

/-- The line of a write of an unchecked run that finds no room (R355). -/
def holdBlocked (s : State) (a : Actor) (lines : List Nat) : Option Nat :=
  if !a.held then none
  else noRoomFor s a.asid (s.heldSectors.map fun h => (h.asid, h.sector / 4)).eraseDups lines.eraseDups

/-- The parts of a range that lie in one 256 B line each. -/
def lineParts (va : Nat) : Nat → Nat → List (Nat × Nat)
  | 0, _ => []
  | fuel + 1, n =>
    if n = 0 then [] else
    let k := Nat.min n (256 - va % 256)
    (va, k) :: lineParts (va + k) fuel (n - k)

/-- A range cut at its lines. -/
def partsOf (va n : Nat) : List (Nat × Nat) := lineParts va (n / 256 + 2) n

/-- Each part of a range reached (R20): its physical address, or what stops the access. No byte of the range is read or
written. A part of no bytes is translated and checked alone. -/
def xlateParts (s : State) (a : Actor) (k : AccKind) : List (Nat × Nat) → Except XStop (List (Nat × Nat × Nat)) × State
  | [] => (.ok [], s)
  | (va, n) :: rest =>
    match xlate s a va n k with
    | (.frozen, s1) => (.error .frozen, s1)
    | (.blocked page, s1) => (.error (.blocked a.asid page), s1)
    | (.fault x, s1) => (.error (.fault x), s1)
    | (.ok pa _, s1) =>
      if (linesOf va n).any fun l => pinnedAgainst s1 a.agent { space := .global a.asid, addr := 256 * l } then
        (.error .pinned, s1)
      else
        match xlateParts s1 a k rest with
        | (.ok ps, s3) => (.ok ((va, pa, n) :: ps), s3)
        | (.error e, s3) => (.error e, s3)

/-- Bytes of global memory read by an actor. -/
def readVirt (s : State) (a : Actor) (va n : Nat) : Except XStop (List Byte) × State :=
  match xlateParts s a .read (partsOf va n) with
  | (.error e, s1) => (.error e, s1)
  | (.ok ps, s1) => (.ok (ps.flatMap fun (va, pa, k) => readGlobal s1 a va pa k), s1)

/-- The parts of a translated range written in turn. -/
def writeParts (s : State) (a : Actor) (bytes : List Byte) : List (Nat × Nat × Nat) → State
  | [] => s
  | (va, pa, n) :: rest => writeParts (writeGlobal s a va pa (bytes.take n)) a (bytes.drop n) rest

/-- Bytes of global memory written by an actor, all of them or none. -/
def writeVirt (s : State) (a : Actor) (va : Nat) (bytes : List Byte) : Except XStop Unit × State :=
  match xlateParts s a .write (partsOf va bytes.length) with
  | (.error e, s1) => (.error e, s1)
  | (.ok ps, s1) =>
    match holdBlocked s1 a (linesOf va bytes.length) with
    | some l => (.error (.noRoom l), s1)
    | none => (.ok (), writeParts s1 a bytes ps)

/-! ## Generic addresses -/

/-- A resolved address (R209): a virtual address, a byte of a share with its core, offset in the share and physical
offset in the core, or a byte of a die's weight store. -/
inductive Target where
  | global (va : Nat)
  | scratch (core off phys : Nat)
  | weight (die off : Nat)
  deriving DecidableEq, Repr

/-- The share of a block on a core (R211). -/
def shareOn (b : Block) (core : Nat) : Option Nat := (b.shares.find? fun x => x.core == core).map Share.offset

/-- An offset in the share of the wave's block on a core (R211). -/
def shareTarget (s : State) (w : Wave) (core off : Nat) : Except (Bool × Cause) Target :=
  match s.waveBlock w with
  | none => .error (false, .scratchRange)
  | some b =>
    match shareOn b core with
    | some base => if off < b.shareSize then .ok (.scratch core off (base + off)) else .error (false, .scratchRange)
    | none => .error (false, .scratchRange)

/-- An offset in the weight store of the wave's die (R212). -/
def weightTarget (w : Wave) (off : Nat) : Except (Bool × Cause) Target :=
  if off < Config.weightBytes then .ok (.weight (dieOf w.core) off) else .error (false, .illegalAddress)

/-- An address resolved (R209, R217, R221, R222). A failure names its cause, and whether it is a failure of check 1 of
R215 (the address space) or of check 3 (the offset). -/
def resolve (s : State) (w : Wave) (form : AddrForm) (addr : Word) : Except (Bool × Cause) Target :=
  let x := addr.toNat
  match form with
  | .share => shareTarget s w w.core x
  | .neighbour c => shareTarget s w (w.core / 8 * 8 + c) x
  | .weight => weightTarget w x
  | .generic =>
    let sel := bits x 56 8
    if sel = 0x00 then (if bits x 52 4 = 0 then .ok (.global (bits x 0 52)) else .error (true, .illegalAddress))
    else if sel = 0xFC then
      (if bits x 20 36 = 0 then shareTarget s w w.core (bits x 0 20) else .error (true, .illegalAddress))
    else if sel = 0xFD then
      (if bits x 27 29 = 0 && bits x 20 4 = 0 then shareTarget s w (w.core / 8 * 8 + bits x 24 3) (bits x 0 20)
       else .error (true, .illegalAddress))
    else if sel = 0xFE then
      (if bits x 29 27 = 0 then weightTarget w (bits x 0 29) else .error (true, .illegalAddress))
    else .error (true, .illegalAddress)

/-- The location a target names (R105). -/
def targetLoc (asid : Nat) : Target → Loc
  | .global va => { space := .global asid, addr := va }
  | .scratch core _ phys => { space := .scratch core, addr := phys }
  | .weight die off => { space := .weight die, addr := off }

/-- A range of addresses less another. -/
def rangeMinus (base len cut n : Nat) : List (Nat × Nat) :=
  if cut + n ≤ base || base + len ≤ cut then [(base, len)]
  else (if base < cut then [(base, cut - base)] else []) ++
    (if cut + n < base + len then [(cut + n, base + len - (cut + n))] else [])

/-- What a run's pending SEALs cover, less what its later pending UNSEALs take from them (R230). -/
def heldSeals (items : List HeldItem) : List (Nat × Nat) :=
  items.foldl (fun on i => match i with
    | .seal _ base len => on ++ [(base, len)]
    | .unseal _ base len => on.flatMap fun r => rangeMinus r.1 r.2 base len
    | _ => on) []

/-- A write of `n` bytes at an address falls in a sealed region, or in one the run's own pending SEAL covers (R230). -/
def sealedFor (s : State) (w : Wave) (va n : Nat) : Bool :=
  let asid := s.waveAsid w
  let meets : Nat → Nat → Bool := fun base len => decide (va < base + len) && decide (base < va + n)
  (s.seals.any fun (x : Nat × Nat × Nat) => x.1 == asid && meets x.2.1 x.2.2) ||
    (match s.waveBlock w with
     | some b => b.unchecked && (heldSeals b.heldItems).any fun r => meets r.1 r.2
     | none => false)

/-- An access touches a broken pin of the wave (R232). -/
def onBrokenPin (w : Wave) (va n : Nat) : Bool := w.brokenPins.any fun p => (linesOf va n).contains p.1

/-- One check of R215 over a lane: the cause when the lane fails it. -/
abbrev LaneCheck := LaneAcc → Option Cause

/-- Checks 1 to 7 of R215, in order. `align` is the alignment check 2 asks for, `writes` whether the access writes. -/
def laneChecks (s : State) (w : Wave) (form : AddrForm) (align : Nat) (writes : Bool) : List LaneCheck :=
  [ fun l => match resolve s w form l.addr with
      | .error (true, c) => some c
      | _ => none,
    fun l => if l.addr.toNat % align = 0 then none else some .misaligned,
    fun l => match resolve s w form l.addr with
      | .error (false, c) => some c
      | _ => none,
    fun l => match resolve s w form l.addr with
      | .ok (.weight _ _) => if writes then some .weightWrite else none
      | _ => none,
    fun l => match resolve s w form l.addr with
      | .ok (.global va) => if writes && sealedFor s w va l.width then some .sealedStore else none
      | _ => none,
    fun l => match resolve s w form l.addr with
      | .ok (.global va) => if onBrokenPin w va l.width then some .pinLost else none
      | _ => none,
    fun l => match resolve s w form l.addr with
      | .ok (.scratch c _ _) => if c ≠ w.core && (s.grove (groveOf c)).portClosed then some .remoteScratchGone else none
      | _ => none ]

/-- The first check any lane fails: its cause, the lanes that fail it, and the lowest of them. -/
def firstFailure : List LaneCheck → List LaneAcc → Option (Cause × List LaneAcc)
  | [], _ => none
  | c :: cs, ls =>
    match ls.filter fun l => (c l).isSome with
    | [] => firstFailure cs ls
    | l :: rest => (c l).map fun cause => (cause, l :: rest)

/-- What a memory instruction came to. -/
inductive MemResult where
  /-- performed: the registers it writes, its latency, and its words of SS -/
  | ok (s : State) (writes : List RegWrite) (latency : Nat) (ss : Nat)
  /-- a precise cause: nothing is performed -/
  | trap (c : Cause) (addr : Word) (lanes : Option Mask)
  /-- an X cause or another refusal of translation, and what is left to perform (R50, R224) -/
  | stop (s : State) (x : XStop) (rest : MemOp)
  deriving DecidableEq, Repr

/-- The outcome of a failed check (R215): s58 and s59. A scalar access is one of lane 0 (R214), and s59 names that lane (DESIGN
CHOICE, log entry 23). A closed neighbour port is named as a 0xFD address (R221). -/
def checkTrap (form : AddrForm) (f : Cause × List LaneAcc) : MemResult :=
  let addr := (f.2.head?.map LaneAcc.addr).getD 0
  let addr := match form with
    | .neighbour c => if f.1 = .remoteScratchGone then w64 (0xFD * 2 ^ 56 + c * 2 ^ 24 + addr.toNat) else addr
    | _ => addr
  .trap f.1 addr (some (maskOf (f.2.map LaneAcc.lane)))

/-! ## Scratchpads and the weight store -/

/-- The physical byte lies in a guard granule (R219). -/
def guarded (s : State) (core phys : Nat) : Bool := (s.core core).guards.contains (phys / 64)

/-- The key of a byte of a scratchpad. -/
def scratchKey (core phys : Nat) : Nat := core * 2 ^ 20 + phys

/-- Bytes of a target read; guarded bytes read zero (R219). -/
def readTarget (s : State) (a : Actor) (pa n : Nat) : Target → List Byte
  | .global va => readGlobal s a va pa n
  | .scratch core _ phys => (List.range n).map fun i =>
      if guarded s core (phys + i) then 0 else readByte s.scratch (scratchKey core (phys + i))
  | .weight die off => readBytes s.weight (die * 2 ^ 29 + off) n

/-- Bytes of a scratchpad written, guarded bytes left (R219). -/
def writeScratch (s : State) (core phys : Nat) : List Byte → State
  | [] => s
  | x :: xs =>
    let s1 := if guarded s core phys then s else { s with scratch := writeByte s.scratch (scratchKey core phys) x }
    writeScratch s1 core (phys + 1) xs

/-- Bytes of a target written. The weight store is never written here. -/
def writeTarget (s : State) (a : Actor) (pa : Nat) (bytes : List Byte) : Target → State
  | .global va => writeGlobal s a va pa bytes
  | .scratch core _ phys => (linesOf phys bytes.length).foldl
      (fun s l => clearReservations s { space := .scratch core, addr := 256 * l }) (writeScratch s core phys bytes)
  | .weight _ _ => s

/-- The access touches a guard granule: the report of its bank and offset (R219). -/
def guardHit (s : State) (n : Nat) : Target → Option (Nat × Nat)
  | .scratch core off phys => if (List.range n).any fun i => guarded s core (phys + i) then some (off / 8 % 32, off) else none
  | _ => none

/-- A guard access added to the wave's pending report: the first is named, later ones counted (R51, R219). -/
def Wave.guardAccess (w : Wave) (hit : Nat × Nat) : Wave :=
  match w.guardRep with
  | none => { w with guardRep := some { bank := hit.1, offset := hit.2, more := 0 } }
  | some r => { w with guardRep := some { r with more := Nat.min 0xFFFF (r.more + 1) } }

/-- The clocks the busiest bank of a core's scratchpad adds: its distinct 8-byte words less one (R218). -/
def bankDelay (core : Nat) (ts : List (Target × Nat)) : Nat :=
  let words := (ts.flatMap fun (t, n) => match t with
    | .scratch c off _ => if c = core then (List.range ((off + n - 1) / 8 - off / 8 + 1)).map (off / 8 + ·) else []
    | _ => []).eraseDups
  let worst := (List.range 32).foldl (fun m b => Nat.max m (words.filter fun x => x % 32 == b).length) 0
  worst - 1

/-- The clocks a read of the weight store waits for its bank group's refresh window to close (R222). -/
def refreshDelay (clock off : Nat) : Nat :=
  let us := Config.clocksPerUs
  let start := 4 * us * (off / 4096 % 16)
  let t := clock % (64 * us)
  if start ≤ t && t < start + 2 * us then start + 2 * us - t else 0

/-- The clocks of a load of global memory (R213): a hit in the core's L1, in the L2 of its die or of another, or DRAM. -/
def loadLatency (s : State) (w : Wave) (va : Nat) : Nat :=
  let asid := s.waveAsid w
  if s.l1.any fun x => x.core == w.core && !x.instr && x.asid == asid && x.line == va / 256 then 40
  else if ((s.line? asid (va / 256)).bind fun l => mfind l.sectors (va % 256 / 64)).isSome then
    (if homeSlice s asid va / 80 = dieOf w.core then 200 else 420)
  else 600

/-- The latency of a load or store at its targets, in the state it issues in (R213, R218, R222). A store completes when the
L1 has accepted it, for which the spec names no time (log entry 3). -/
def accessLatency (s : State) (w : Wave) (load : Bool) (neighbour : Bool) (ts : List (Target × Nat)) : Nat :=
  ts.foldl (fun m (x : Target × Nat) => Nat.max m (match x.1 with
    | .global va => if load then loadLatency s w va else 40
    | .scratch c _ _ => (if c = w.core && !neighbour then 24 else 80) + bankDelay c ts
    | .weight _ off => 120 + refreshDelay s.clock off)) (if ts.isEmpty then 1 else 0)

/-! ## Registers of a memory instruction -/

/-- A lane's write of a destination code (R60): v per lane, s once, null nothing. -/
def destWrite (d : OpCode) (l : Nat) (x : Word) : List RegWrite :=
  if isVCode d then [{ file := .vector, key := 32 * d.toNat + l, value := x }]
  else if isSCode d then [{ file := .scalar, key := d.toNat - 0x80, value := x }]
  else if isPCode d then [{ file := .predicate, key := 32 * (d.toNat - 0xC0) + l, value := x }]
  else []

/-- A value written to every lane of a mask of a v destination, or once to an s destination. -/
def destAll (d : OpCode) (mask : Mask) (x : Word) : List RegWrite :=
  if isVCode d then (lanesOf mask).flatMap fun l => destWrite d l x else destWrite d 0 x

/-- `ext` of R216 under the operation's signedness. -/
def extBytes (signed : Bool) (bs : List Byte) : Word :=
  if signed then sext (leNat bs) (8 * bs.length) else w64 (leNat bs)

/-! ## Loads and stores of a wave -/

/-- The operation writes memory. -/
def MemKind.writes : MemKind → Bool
  | .store | .storePair | .compressStore | .storeRelease | .tileStore | .atomic _ | .lres | .scond | .mdrain | .arrive
  | .arrwait | .signal => true
  | _ => false

/-- The 256 B lines of a target's bytes in its space. -/
def targetLines (asid : Nat) (t : Target) (n : Nat) : List Loc :=
  match t with
  | .global va => (linesOf va n).map fun l => { space := .global asid, addr := 256 * l }
  | .scratch core _ phys => (linesOf phys n).map fun l => { space := .scratch core, addr := 256 * l }
  | .weight die off => (linesOf off n).map fun l => { space := .weight die, addr := 256 * l }

/-- A scratchpad or weight-store access meets a line pinned outside its agent's reach (R119). -/
def targetPinned (s : State) (a : Agent) (t : Target) (n : Nat) : Bool :=
  (targetLines 0 t n).any fun l => pinnedAgainst s a l

/-- Each global lane translated; the first lane (ascending) that is stopped decides. Scratchpad and weight-store lanes
need no translation, and a line of theirs pinned elsewhere stops them too (R119). Answers each lane with its target and physical
address. -/
def xlateLanes (s : State) (w : Wave) (a : Actor) (form : AddrForm) (k : AccKind) :
    List LaneAcc → Except XStop (List (LaneAcc × Target × Nat)) × State
  | [] => (.ok [], s)
  | l :: rest =>
    match resolve s w form l.addr with
    | .error _ => xlateLanes s w a form k rest
    | .ok (.global va) =>
      match xlateParts s a k [(va, l.width)] with
      | (.error e, s1) => (.error e, s1)
      | (.ok ps, s1) =>
        let pa := (ps.head?.map fun x => x.2.1).getD 0
        match xlateLanes s1 w a form k rest with
        | (.ok r, s2) => (.ok ((l, .global va, pa) :: r), s2)
        | (.error e, s2) => (.error e, s2)
    | .ok t =>
      if targetPinned s a.agent t l.width then (.error .pinned, s)
      else
        match xlateLanes s w a form k rest with
        | (.ok r, s2) => (.ok ((l, t, 0) :: r), s2)
        | (.error e, s2) => (.error e, s2)

/-- The wave's pending guard report after its lanes' accesses. -/
def noteGuards (s : State) (uid : Nat) (ts : List (Target × Nat)) : State :=
  (ts.filterMap fun (t, n) => guardHit s n t).foldl (fun s h => s.modWave uid fun w => w.guardAccess h) s

/-- A tile is one access, whatever the granules it meets (R219, R227): the first hit is its report. -/
def noteTileGuard (s : State) (uid : Nat) (ts : List (Target × Nat)) : State :=
  match ts.findSome? fun (t, n) => guardHit s n t with
  | some h => s.modWave uid fun w => w.guardAccess h
  | none => s

/-- The lines a wave wrote on a path, kept until a fence or release performs them (R118). A held write is performed at its
release (R127, R128). -/
def noteLines (s : State) (uid : Nat) (path : AccessPath) (ls : List Loc) : State :=
  if ls.isEmpty then s
  else s.modWave uid fun w =>
    { w with dirty := w.dirty ++ ((ls.eraseDups.map fun l => (path, l)).filter fun l => !w.dirty.contains l) }

/-- The lines of a wave's accesses noted as written. -/
def noteDirty (s : State) (a : Actor) (uid : Nat) (path : AccessPath) (ts : List (Target × Nat)) : State :=
  noteLines s uid path (ts.flatMap fun (t, n) => match t with
    | .global _ => if a.held then [] else targetLines a.asid t n
    | _ => targetLines a.asid t n)

/-- The bytes a lane stores. -/
def storeBytes (kind : MemKind) (l : LaneAcc) : List Byte :=
  match kind with
  | .storePair => leBytes 8 l.data.toNat ++ leBytes 8 l.data2.toNat
  | _ => leBytes l.width l.data.toNat

/-- What a lane's load writes (R216). -/
def loadWrites (op : MemOp) (l : LaneAcc) (bs : List Byte) : List RegWrite :=
  match op.kind with
  | .loadPair => destWrite op.dest l.lane (w64 (leNat (bs.take 8))) ++
      destWrite (op.dest + 1) l.lane (w64 (leNat (bs.drop 8)))
  | _ => destWrite op.dest l.lane (extBytes op.signed bs)

/-- The lanes' stores performed in ascending lane order (R214). -/
def storeLanes (s : State) (a : Actor) (kind : MemKind) : List (LaneAcc × Target × Nat) → State
  | [] => s
  | (l, t, pa) :: rest => storeLanes (writeTarget s a pa (storeBytes kind l) t) a kind rest

/-- The SS words of the lanes' global stores (R358). -/
def ssOfLanes (kind : MemKind) (ls : List (LaneAcc × Target × Nat)) : Nat :=
  sumNat (ls.map fun (l, t, _) => match t with
    | .global va => ssOfWrite va (storeBytes kind l)
    | _ => 0)

/-- The line of a held write's lanes that finds no room (R355). -/
def holdFull (s : State) (a : Actor) (ls : List (LaneAcc × Target × Nat)) : Option Nat :=
  holdBlocked s a (ls.flatMap fun (l, t, _) => match t with | .global va => linesOf va l.width | _ => [])

/-- One page-sized run of lanes of a CSTR: the leading lanes in the first lane's 64 KiB range (R224). -/
def firstPiece (ls : List LaneAcc) : List LaneAcc × List LaneAcc :=
  match ls with
  | [] => ([], [])
  | l :: _ => ls.span fun x => x.addr.toNat / 65536 == l.addr.toNat / 65536

/-- The lanes' stores translated and performed; an X cause leaves memory unchanged. -/
def performStores (s : State) (w : Wave) (a : Actor) (op : MemOp) (ls : List LaneAcc) :
    Except XStop (List (LaneAcc × Target × Nat)) × State :=
  match xlateLanes s w a op.form .write ls with
  | (.error e, s1) => (.error e, s1)
  | (.ok ts, s1) =>
    match holdFull s1 a ts with
    | some line => (.error (.noRoom line), s1)
    | none => (.ok ts, addSS (storeLanes s1 a op.kind ts) a (ssOfLanes op.kind ts))

/-- A CSTR's pieces in ascending order; a piece that is stopped leaves it and the later ones (R224). -/
def performPieces (s : State) (w : Wave) (a : Actor) (op : MemOp) :
    Nat → List LaneAcc → List (LaneAcc × Target × Nat) → MemResult × List (LaneAcc × Target × Nat)
  | 0, _, done => (.ok s [] 0 0, done)
  | fuel + 1, ls, done =>
    match firstPiece ls with
    | ([], _) => (.ok s [] 0 0, done)
    | (p, rest) =>
      match performStores s w a op p with
      | (.error e, s1) => (.stop s1 e { op with lanes := ls }, done)
      | (.ok ts, s1) => performPieces s1 w a op fuel rest (done ++ ts)

/-- Targets with their widths. -/
def widths (ts : List (LaneAcc × Target × Nat)) : List (Target × Nat) := ts.map fun (l, t, _) => (t, l.width)

/-- The effects every performed access has on its wave: guard reports and lines written. -/
def noteAccess (s : State) (a : Actor) (uid : Nat) (writes : Bool) (ts : List (LaneAcc × Target × Nat)) : State :=
  let s1 := noteGuards s uid (widths ts)
  if writes then noteDirty s1 a uid .ls (widths ts) else s1

/-- A per-lane load or store with its operand values (R214 to R224, R234): the checks of R215, and then its effect. -/
def performLanes (s : State) (w : Wave) (op : MemOp) : MemResult :=
  let a := waveActor s w
  let writes := op.kind.writes
  let align := (op.lanes.head?.map LaneAcc.width).getD 1
  match firstFailure (laneChecks s w op.form align writes) op.lanes with
  | some f => checkTrap op.form f
  | none =>
    let nb := match op.form with | .neighbour _ => true | _ => false
    match op.kind with
    | .compressStore =>
      match performPieces s w a op 40 op.lanes [] with
      | (.ok s1 _ _ _, ts) =>
        .ok (noteAccess s1 a w.uid true ts) [] (accessLatency s w false nb (widths ts)) (op.arg.toNat + ssOfLanes op.kind ts)
      | (.stop s1 e rest, ts) =>
        -- the pieces before it stay performed; their words count when the instruction completes (R362)
        .stop (noteAccess s1 a w.uid true ts) e { rest with arg := op.arg + w64 (ssOfLanes op.kind ts) }
      | (r, _) => r
    | _ =>
      if writes then
        match performStores s w a op op.lanes with
        | (.error e, s1) => .stop s1 e op
        | (.ok ts, s1) =>
          .ok (noteAccess s1 a w.uid true ts) [] (accessLatency s w false nb (widths ts)) (ssOfLanes op.kind ts)
      else
        match xlateLanes s w a op.form .read op.lanes with
        | (.error e, s1) => .stop s1 e op
        | (.ok ts, s1) =>
          let writes := ts.flatMap fun (l, t, pa) => loadWrites op l (readTarget s1 a pa l.width t)
          .ok (noteAccess s1 a w.uid false ts) writes (accessLatency s w true nb (widths ts)) 0

/-! ## Tiles -/

/-- The bytes of a row of a tile: the operand shape or the output shape (R225). -/
def tileRow (out : Bool) : Nat := if out then 256 else 64

/-- The 64-byte chunks of a tile of 64 rows, as lane accesses numbered in order. -/
def tileChunks (base : Word) (pitch row : Nat) : List LaneAcc :=
  (List.range 64).flatMap fun r => (List.range (row / 64)).map fun j =>
    { lane := r * (row / 64) + j, addr := base + w64 (r * pitch + 64 * j), width := 64, data := 0, data2 := 0 }

/-- The bytes of a tile's footprint, from its base to the end of its last row (R226). -/
def tileSpan (pitch row : Nat) : Nat := 63 * pitch + row

/-- The pages of a global tile's footprint that hold no byte of a row: they are translated and checked too (R121, R226). -/
def gapPages (va pitch row : Nat) : List Nat :=
  let rows := List.range 64
  (List.range ((va + tileSpan pitch row - 1) / 65536 - va / 65536 + 1)).filterMap fun k =>
    let page := va / 65536 + k
    if rows.any fun r => decide ((va + r * pitch) / 65536 ≤ page) && decide (page ≤ (va + r * pitch + row - 1) / 65536) then none
    else some (65536 * page)

/-- What a tile access reaches, in ascending order: its chunks, and an access of no bytes for each page between. -/
def tileAccesses (base : Word) (pitch row : Nat) : List LaneAcc :=
  let chunks := tileChunks base pitch row
  if pitch ≤ 65536 then chunks
  else sortBy (fun x y => decide (x.addr.toNat ≤ y.addr.toNat)) (chunks ++
    (gapPages base.toNat pitch row).map fun p => { lane := 0, addr := w64 p, width := 0, data := 0, data2 := 0 })

/-- The checks a tile makes before its pages (R226): its base's space, alignment, overlap, footprint, and for a write
the weight store, seals and broken pins. -/
def tileCheck (s : State) (w : Wave) (base : Word) (pitch row : Nat) (writes : Bool) : Option Cause :=
  let span := tileSpan pitch row
  match resolve s w .generic base with
  | .error (true, c) => some c
  | r =>
    if base.toNat % 256 ≠ 0 || pitch % 64 ≠ 0 || 2 ^ 24 < pitch then some .tileMisaligned
    else if pitch < row then some .tileOverlapSelf
    else
      match r with
      | .error (_, c) => some c
      | .ok (.weight _ off) =>
        if Config.weightBytes < off + span then some .illegalAddress else if writes then some .weightWrite else none
      | .ok (.global va) =>
        if 2 ^ 52 < va + span then some .illegalAddress
        else if writes && sealedFor s w va span then some .sealedStore
        else if onBrokenPin w va span then some .pinLost else none
      | .ok (.scratch core off _) =>
        if ((s.waveBlock w).map Block.shareSize).getD 0 < off + span then some .scratchRange
        else if core ≠ w.core && (s.grove (groveOf core)).portClosed then some .remoteScratchGone else none

/-- A tile's chunks reached for an access, once every page of its footprint is translated and checked (R121). -/
def tileReach (s : State) (w : Wave) (a : Actor) (k : AccKind) (base : Word) (pitch row : Nat) :
    Except XStop (List (LaneAcc × Target × Nat)) × State :=
  match xlateLanes s w a .generic k (match resolve s w .generic base with
      | .ok (.global _) => tileAccesses base pitch row
      | _ => tileChunks base pitch row) with
  | (.error e, s1) => (.error e, s1)
  | (.ok ts, s1) => (.ok (ts.filter fun x => decide (0 < x.1.width)), s1)

/-- The bytes of a tile, row by row, once every page is translated. -/
def tileRead (s : State) (w : Wave) (a : Actor) (base : Word) (pitch row : Nat) :
    Except XStop (List Byte × List (LaneAcc × Target × Nat)) × State :=
  match tileReach s w a .read base pitch row with
  | (.error e, s1) => (.error e, s1)
  | (.ok ts, s1) => (.ok (ts.flatMap (fun (_, t, pa) => readTarget s1 a pa 64 t), ts), s1)

/-- The chunks of a tile written from its bytes. -/
def writeChunks (s : State) (a : Actor) (bytes : List Byte) : List (LaneAcc × Target × Nat) → State
  | [] => s
  | (_, t, pa) :: rest => writeChunks (writeTarget s a pa (bytes.take 64) t) a (bytes.drop 64) rest

/-- A tile written as one access, or not at all (R121). -/
def tileWrite (s : State) (w : Wave) (a : Actor) (base : Word) (pitch row : Nat) (bytes : List Byte) :
    Except XStop (List (LaneAcc × Target × Nat)) × State :=
  match tileReach s w a .write base pitch row with
  | (.error e, s1) => (.error e, s1)
  | (.ok ts, s1) =>
    match holdFull s1 a ts with
    | some line => (.error (.noRoom line), s1)
    | none => (.ok ts, writeChunks s1 a bytes ts)

/-- The SS words of a tile write to global memory. -/
def ssOfTile (bytes : List Byte) (ts : List (LaneAcc × Target × Nat)) : Nat :=
  sumNat ((List.range ts.length).map fun i => match ts[i]? with
    | some (_, Target.global va, _) => ssOfWrite va (slice bytes (64 * i) 64)
    | _ => 0)

/-- The register and lane of a tile: its group's register `8 h + j` or `32 h + j` in lane `l` holds 8 bytes of row
`2 l + h` (R225). -/
def tileRegs (out : Bool) : Nat := if out then 32 else 8

/-- The registers a TLD writes in the lanes of the mask (R225, R227). -/
def tileLoadWrites (d : OpCode) (out : Bool) (mask : Mask) (bytes : List Byte) : List RegWrite :=
  let n := tileRegs out
  (List.range 2).flatMap fun h => (List.range n).flatMap fun j => (lanesOf mask).map fun l =>
    { file := .vector, key := 32 * (d.toNat + n * h + j) + l,
      value := w64 (field bytes ((2 * l + h) * tileRow out + 8 * j) 8) }

/-- The bytes a TST stores: every lane's registers (R227), as the instruction read them at issue. `vals` holds register
`i` of the group in lane `l` at place `32 i + l`. -/
def tileStoreBytes (out : Bool) (vals : List Word) : List Byte :=
  let n := tileRegs out
  (List.range 64).flatMap fun r => (List.range n).flatMap fun j =>
    leBytes 8 (vals.getD (32 * (n * (r % 2) + j) + r / 2) 0).toNat

/-- TLD and TST with their operand values (R225 to R227). -/
def performTile (s : State) (w : Wave) (op : MemOp) : MemResult :=
  let a := waveActor s w
  let row := tileRow op.option
  let pitch := op.arg.toNat
  let writes := op.kind.writes
  match tileCheck s w op.base pitch row writes with
  | some c => .trap c op.base none
  | none =>
    if writes then
      let bytes := tileStoreBytes op.option op.vals
      match tileWrite s w a op.base pitch row bytes with
      | (.error e, s1) => .stop s1 e op
      | (.ok ts, s1) =>
        let x := ssOfTile bytes ts
        .ok (noteDirty (noteTileGuard (addSS s1 a x) w.uid (widths ts)) a w.uid .ls (widths ts)) []
          (accessLatency s w false false (widths ts)) x
    else
      match tileRead s w a op.base pitch row with
      | (.error e, s1) => .stop s1 e op
      | (.ok (bytes, ts), s1) =>
        .ok (noteTileGuard s1 w.uid (widths ts)) (tileLoadWrites op.dest op.option op.mask bytes)
          (accessLatency s w true false (widths ts)) 0

/-- What a range of generic addresses of a wave names: the space, and the first byte in it. -/
def rangeLoc (s : State) (w : Wave) (form : AddrForm) (addr : Word) : Option Loc :=
  match resolve s w form addr with
  | .ok t => some (targetLoc (s.waveAsid w) t)
  | .error _ => none

/-- The ranges a memory operation touches, for R50's overlap rule: its lanes', a tile's chunks, or the whole of a region or
descriptor. -/
def opRanges (s : State) (w : Wave) (op : MemOp) : List (Loc × Nat) :=
  let locs (form : AddrForm) (ls : List (Word × Nat)) : List (Loc × Nat) :=
    ls.filterMap fun x => (rangeLoc s w form x.1).map fun l => (l, x.2)
  match op.kind with
  | .tileLoad | .tileStore => locs .generic ((tileChunks op.base op.arg.toNat (tileRow op.option)).map fun c => (c.addr, 64))
  | .pin => locs .generic [(op.base, op.arg.toNat)]
  | _ => locs op.form (op.lanes.map fun l => (l.addr, l.width))

/-- Two ranges of locations overlap. -/
def rangesMeet (x y : Loc × Nat) : Bool :=
  x.1.space == y.1.space && decide (x.1.addr < y.1.addr + y.2) && decide (y.1.addr < x.1.addr + x.2)

/-- Two operations of one wave overlap in memory (R50). -/
def opsOverlap (s : State) (w : Wave) (x y : MemOp) : Bool :=
  (opRanges s w x).any fun r => (opRanges s w y).any (rangesMeet r)

end Sys2Proof.Machine
end

