-- ==== Sys2Proof/Machine/Operands.lean ====
section
/-! DEFINITION. Operand codes and their values (R60 to R64), the sub-elements of a lane (R168), the guard (R167), and the
issuing path as an instruction's meaning sees it. -/

namespace Sys2Proof.Machine

/-- What an instruction's meaning sees of its issuer: the wave and the path as they stand when it issues, the issue
record, the element type and the core's cycle counter. -/
structure Env where
  w : Wave
  p : Path
  iss : Issue
  et : EType
  clock : Nat
  deriving DecidableEq, Repr

/-- The number of sub-elements of a lane (R168). -/
def cnt : EType → Nat
  | .i64 | .n64 | .f64 => 1
  | .i32x2 | .n32x2 | .f32x2 => 2
  | .i16x4 | .n16x4 | .f16x4 | .bf16x4 => 4
  | .i8x8 | .n8x8 | .t8x8 => 8
  | .t6x10 => 10

/-- `sub(x, t, i)` (R168). -/
def sub (x : Word) (t : EType) (i : Nat) : Nat := bits x.toNat (t.wid * i) t.wid

/-- `put(x, t, i, y)` (R168). -/
def put (x : Word) (t : EType) (i y : Nat) : Word := w64 (putBits x.toNat (t.wid * i) t.wid y)

/-- One value in every sub-element of a type (R63). -/
def splat (t : EType) (y : Nat) : Word := w64 (sumNat ((List.range (cnt t)).map fun i => y % 2 ^ t.wid * 2 ^ (t.wid * i)))

/-- The integer of an inline constant code 0xE0 to 0xF7 (R63). -/
def constInt (c : OpCode) : Int := if c.toNat ≤ 0xEF then (c.toNat : Int) - 0xE0 else 0xEF - (c.toNat : Int)

/-- The value of a floating inline constant code 0xF8 to 0xFF (R63). -/
def constFloat (c : OpCode) : FVal :=
  let k := c.toNat - 0xF8
  .fin (decide (4 ≤ k)) 1 ((k % 4 : Nat) - (1 : Int))

/-- An inline constant as an exact value (R63). -/
def constVal (c : OpCode) : FVal := if isFloatConst c then constFloat c else FVal.ofInt (constInt c)

/-- `const(c, t)` in an element type (R63). -/
def constOf (t : EType) (c : OpCode) : Word :=
  if t.isFloat then splat t (flBits (floatFmt t) .rne 0 (constVal c)).1
  else if t.isTapered then splat t (tenc t (constVal c))
  else splat t (lowBits t.wid (constInt c))

/-- The set most recently joined and not left, or all ones (R62, R153). -/
def Wave.setId (w : Wave) : Word :=
  match w.sets.getLast? with
  | some (n, _) => w64 n
  | none => 0xFFFFFFFFFFFFFFFF

/-- The specials 0xC8 to 0xCF (R62). -/
def special (w : Wave) (clock : Nat) (c : OpCode) (l : Nat) : Word :=
  match c.toNat - 0xC8 with
  | 0 => w64 l
  | 1 => w64 w.waveId
  | 2 => w64 w.bid
  | 3 => w.setId
  | 4 => w64 w.core
  | 5 => w64 (groveOf w.core)
  | 6 => w64 w.role
  | _ => w64 (clock % 2 ^ 32)

/-- `read(c, l)` with the operand type of an element-typed field (R60, R63). -/
def readCode (w : Wave) (clock : Nat) (t : EType) (c : OpCode) (l : Nat) : Word :=
  if isVCode c then w.vreg c.toNat l
  else if isSCode c then w.sreg (c.toNat - 0x80)
  else if isPCode c then (w.preg (c.toNat - 0xC0) l).setWidth 64
  else if 0xC8 ≤ c.toNat && c.toNat ≤ 0xCF then special w clock c l
  else if 0xE0 ≤ c.toNat then constOf t c
  else 0

/-- A field that takes ETYPE. -/
def Env.x (e : Env) (c : OpCode) (l : Nat) : Word := readCode e.w e.clock e.et c l
/-- An integer-typed field: an inline constant is one 64-bit integer (R63). -/
def Env.i (e : Env) (c : OpCode) (l : Nat) : Word := readCode e.w e.clock .i64 c l
/-- A wave-uniform field of kind u. -/
def Env.u (e : Env) (c : OpCode) : Word := e.i c 0
/-- An integer-typed field read per sub-element: an inline constant is placed in each, as an integer (R63). -/
def Env.subInt (e : Env) (c : OpCode) (l : Nat) : Word :=
  if 0xE0 ≤ c.toNat && c.toNat ≤ 0xF7 then splat e.et (lowBits e.et.wid (constInt c)) else e.x c l
/-- A field of fixed type F64 or F32 (R63): AFADD and AXADD. -/
def Env.f (e : Env) (w32 : Bool) (c : OpCode) (l : Nat) : Word :=
  if 0xE0 ≤ c.toNat then
    (if w32 then w64 (flBits fmtF32 .rne 0 (constVal c)).1 else w64 (flBits fmtF64 .rne 0 (constVal c)).1)
  else e.i c l

/-- The active lanes of the issuing path, in ascending order. -/
def Env.lanes (e : Env) : List Nat := lanesOf e.p.mask

/-- `pass(l, i, t)` (R167, R168). -/
def Env.pass (e : Env) (l i : Nat) (t : EType) : Bool :=
  !modeGen e.w.mode || (bitOf (e.w.preg (modeGp e.w.mode) l).toNat (t.wid * i / 8) != modeGinv e.w.mode)

/-- The lanes that take part in a memory access: active, and passing the guard at lane granularity (R214). -/
def Env.taking (e : Env) : List Nat := e.lanes.filter fun l => e.pass l 0 .i64

/-- The value D holds in a lane before the instruction, 0 for null (R168). -/
def Env.base (e : Env) (d : OpCode) (l : Nat) : Word := if isNull d then 0 else e.x d l

/-- A result written to every active lane of a v destination, or once to an s destination. -/
def Env.all (e : Env) (d : OpCode) (x : Word) : List RegWrite := destAll d e.p.mask x

/-- The system register's or literal's low bits. -/
def litBits (lit : Word32) (lo w : Nat) : Nat := bits lit.toNat lo w

end Sys2Proof.Machine
end

