-- ==== Sys2Proof/Machine/Flags.lean ====
section
/-! DEFINITION. The flags f0 to f11 as WAIT and WAITF test them (R55, R149), and the exceptions an instruction detects,
gathered over its sub-elements (R169, R174). -/

namespace Sys2Proof.Machine

/-- The flags a 12-bit mask names. -/
def maskedFlags (mask : Nat) : List Nat := setBits 12 mask

/-- Every named flag holds at most `n` (R133 condition 3 with n = 0, R149). -/
def Wave.flagsAtMost (w : Wave) (n mask : Nat) : Bool := (maskedFlags mask).all fun k => decide (w.flag k ≤ n)

/-- The flag a SETF names has room for one more (R38, R133 condition 4). -/
def Wave.setfRoom (w : Wave) (setf : Nat) : Bool := setf == 0 || decide (w.flag (setf - 1) ≤ 14)

/-- FLAGCNT: flag k in bits 4k + 3 : 4k (R164). -/
def Wave.flagWord (w : Wave) : Word := w64 (sumNat ((List.range 12).map fun k => w.flag k % 16 * 16 ^ k))

/-- What the sub-elements of an instruction detected: the OR of their exceptions, the lanes with one that traps under
FPX, and the lanes with a zero divisor. -/
structure Detected where
  exc : Nat
  lanes : List Nat
  divZero : List Nat
  deriving DecidableEq, Repr

def noneDetected : Detected := { exc := 0, lanes := [], divZero := [] }

/-- One sub-element's exceptions added (R169). -/
def Detected.add (d : Detected) (l exc : Nat) : Detected :=
  { d with exc := d.exc ||| exc, lanes := if exc % 8 = 0 || d.lanes.contains l then d.lanes else d.lanes ++ [l] }

/-- A zero divisor noted (R174). -/
def Detected.addDiv (d : Detected) (l : Nat) : Detected :=
  { d with divZero := if d.divZero.contains l then d.divZero else d.divZero ++ [l] }

/-- Two parts' detections together. -/
def Detected.merge (a b : Detected) : Detected :=
  { exc := a.exc ||| b.exc, lanes := a.lanes ++ b.lanes.filter (fun l => !a.lanes.contains l),
    divZero := a.divZero ++ b.divZero.filter (fun l => !a.divZero.contains l) }

/-- A list of detections together. -/
def Detected.all (ds : List Detected) : Detected := ds.foldl Detected.merge noneDetected

/-- A sub-element's result with what it detected. -/
structure SubRes where
  val : Nat
  exc : Nat
  divZero : Bool
  deriving DecidableEq, Repr

/-- A result that detects nothing. -/
def plainRes (x : Nat) : SubRes := { val := x, exc := 0, divZero := false }
/-- A floating result with its exceptions. -/
def excRes (r : Nat × Nat) : SubRes := { val := r.1, exc := r.2, divZero := false }

end Sys2Proof.Machine
end

