-- ==== Sys2Proof/Machine/Collector.lean ====
section
/-! DEFINITION. The trace engine's collector: the packets of the instruction trace with their time and sync points
(R410, R411), the rings and their losses (R412, R413), and the profile records (R414). Issue is never held back. -/

namespace Sys2Proof.Machine

/-- Trace registers of a function window kept by offset (R412). -/
def trCtl : Nat := 0x200
def trBase : Nat := 0x208
def trSize : Nat := 0x210
def prBase : Nat := 0x230
def prSize : Nat := 0x238
def profCtl : Nat := 0x250

/-- TRCTL as it reads: its reset value is 0x80000 (R412), kept as the difference from it. -/
def Function.trctl (f : Function) : Nat := Nat.xor (f.reg trCtl) 0x80000

/-- SYNCINT, other values than 2 to 8 taken as 8 (R412). -/
def Function.syncInt (f : Function) : Nat :=
  let n := bits f.trctl 16 4
  if 2 ≤ n && n ≤ 8 then n else 8

/-- Instruction trace is on for a wave's context (R412). -/
def traced (s : State) (w : Wave) : Bool := bitOf (s.func w.fn).trctl w.ctx

/-- The stream of a partition and context (R411). -/
def stream? (s : State) (core part fn ctx : Nat) : Option Stream :=
  s.streams.find? fun x => x.core == core && x.part == part && x.fn == fn && x.ctx == ctx

/-- The stream with its state replaced, or added. -/
def setStream (s : State) (x : Stream) : State :=
  let same : Stream → Bool := fun y => y.core == x.core && y.part == x.part && y.fn == x.fn && y.ctx == x.ctx
  if s.streams.any same then { s with streams := s.streams.map fun y => if same y then x else y }
  else { s with streams := s.streams ++ [x] }

/-- The stream, or a new one that has no time yet. -/
def streamOf (s : State) (core part fn ctx : Nat) : Stream :=
  (stream? s core part fn ctx).getD
    { core := core, part := part, fn := fn, ctx := ctx, time := 0, timed := false, events := 0, mustSync := false }

/-- A ring of `size` places takes no more: it is full, with what waits in the collectors for it, or it has no size (R412,
R413). -/
def ringFull (size wr rd waiting : Nat) : Bool := size == 0 || decide (size - 1 ≤ (wr + waiting + 2 ^ 32 - rd) % 2 ^ 32)

/-- The packets, or records, that wait in the collectors for a function's ring. -/
def waitingFor (s : State) (fn : Nat) (record : Bool) : Nat :=
  (s.collected.filter fun x => x.fn == fn && x.record == record).length

/-- The trace ring of a function takes no packet now (R412, R413). -/
def traceFull (s : State) (fn : Nat) : Bool :=
  let f := s.func fn
  ringFull (f.reg trSize) f.trWr f.trRd (waitingFor s fn false)

/-- The profile ring of a function takes no record now (R412, R413). -/
def profileFull (s : State) (fn : Nat) : Bool :=
  let f := s.func fn
  ringFull (f.reg prSize) f.prWr f.prRd (waitingFor s fn true)

/-- The queue of a core's die holds 4,096 packets and records (R413). -/
def collectorFull (s : State) (core : Nat) : Bool :=
  decide (Config.collectorPlaces ≤ (s.collected.filter fun x => dieOf x.core == dieOf core).length)

/-- One packet lost: it is counted, and its stream must make a sync point (R411, R413). -/
def losePacket (s : State) (core part fn ctx : Nat) : State :=
  let f := s.func fn
  let s1 := s.setFunc fn { f with trLost := Nat.min (2 ^ 32 - 1) (f.trLost + 1), trPendingLoss := f.trPendingLoss + 1 }
  setStream s1 { streamOf s1 core part fn ctx with mustSync := true }

/-- One record lost or discarded (R406, R413). -/
def loseRecord (s : State) (fn : Nat) : State :=
  let f := s.func fn
  s.setFunc fn { f with prLost := Nat.min (2 ^ 32 - 1) (f.prLost + 1) }

/-- One packet given to the collector, or dropped and counted when the ring or the die's queue is full (R413). -/
def writePacket (s : State) (core part fn ctx : Nat) (w0 w1 : Nat) : State :=
  if traceFull s fn || collectorFull s core then losePacket s core part fn ctx
  else { s with collected := s.collected ++ [{ core := core, part := part, fn := fn, ctx := ctx, record := false
                                               bytes := leBytes 8 w0 ++ leBytes 8 w1 }] }

/-- What a collector holds is written to its ring, at SYS, before the write index advances (R413). -/
def writeCollected (s : State) (x : Collected) : State :=
  let f := s.func x.fn
  if x.record then
    let size := f.reg prSize
    if ringFull size f.prWr f.prRd 0 then loseRecord s x.fn
    else
      let s1 := writePhys s (f.reg prBase + 128 * (f.prWr % size)) x.bytes
      s1.setFunc x.fn { f with prWr := (f.prWr + 1) % 2 ^ 32 }
  else
    let size := f.reg trSize
    if ringFull size f.trWr f.trRd 0 then losePacket s x.core x.part x.fn x.ctx
    else
      let s1 := writePhys s (f.reg trBase + 16 * (f.trWr % size)) x.bytes
      s1.setFunc x.fn { f with trWr := (f.trWr + 1) % 2 ^ 32 }

/-- The collectors write what the clock gave them, in the order of core and partition, each stream's in its own order (R411;
DESIGN CHOICE, log entry 99, that they have written all of it when the clock ends). -/
def flushCollected (s : State) : State :=
  (sortBy (fun a b => decide (16 * a.core + a.part ≤ 16 * b.core + b.part)) s.collected).foldl writeCollected
    { s with collected := [] }

/-- w0 of a packet (R410). -/
def packetWord (type core part slot path sub val : Nat) : Nat :=
  type * 2 ^ 60 + core * 2 ^ 50 + part * 2 ^ 46 + slot * 2 ^ 43 + path * 2 ^ 40 + sub % 256 * 2 ^ 32 + val % 2 ^ 32

/-- The top four entries of a region stack, entry 0 in bits 15:0 (R403). -/
def regionTop (w : Wave) : Nat :=
  sumNat ((List.range 4).map fun k => (w.regions.getD k 0).toNat * 65536 ^ k)

/-- TIME ABS (R411). -/
def timeAbs (s : State) (core part fn ctx : Nat) : State :=
  let s1 := writePacket s core part fn ctx (packetWord 4 core part 0 0 1 0) s.clock
  setStream s1 { streamOf s1 core part fn ctx with time := s.clock, timed := true }

/-- A wave's SYNC packets: one for each live path on the core, the last marked LAST, and its regions (R411). -/
def syncWave (s : State) (w : Wave) : State :=
  let n := w.places.length
  let s1 := (List.range n).foldl (fun s i => match w.places[i]? with
    | some (k, p) => writePacket s w.core w.part w.fn w.ctx
        (packetWord 1 w.core w.part w.wslot k (b2n (i + 1 == n) * 128 + w.stack.length) p.mask.toNat) p.pc.toNat
    | none => s) s
  if w.regions.isEmpty then s1
  else writePacket s1 w.core w.part w.fn w.ctx (packetWord 5 w.core w.part w.wslot 0 4 w.regions.length) (regionTop w)

/-- The waves of a context resident in a partition, in slot order. -/
def partWaves (s : State) (core part : Nat) : List Wave :=
  sortBy (fun a b => decide (a.wslot ≤ b.wslot)) (s.waves.filter fun w => w.core == core && w.part == part)

/-- The older of two waves: by placement, within one clock by wave_id (R136), and then by number. -/
def olderWave (a b : Wave) : Bool :=
  decide (a.placedAt < b.placedAt) || (a.placedAt == b.placedAt &&
    (decide (a.waveId < b.waveId) || (a.waveId == b.waveId && decide (a.uid ≤ b.uid))))

/-- A partition's oldest resident wave (R405). -/
def oldestWave (s : State) (core part : Nat) : Option Wave :=
  match partWaves s core part with
  | [] => none
  | w :: ws => some (ws.foldl (fun a b => if olderWave a b then a else b) w)

/-- A sync point of a partition for a context (R411). An event of a wave that makes it gives the wave as it stands before
the event. -/
def syncPoint (s : State) (core part fn ctx : Nat) (before : Option Wave) : State :=
  let s0 := setStream s { streamOf s core part fn ctx with mustSync := false, events := 0 }
  let s1 := timeAbs s0 core part fn ctx
  ((partWaves s core part).filter fun w => w.fn == fn && w.ctx == ctx).foldl (fun s w => syncWave s (match before with
    | some b => if b.uid = w.uid then b else w
    | none => w)) s1

/-- An event packet of a wave's path: a sync point first when one is due (after a loss, once there is space again), else a TIME delta when the clock moved
(R411). `w` is the wave before the event. Nothing is written while instruction trace is off for the context. -/
def emit (s : State) (w : Wave) (path type sub val w1 : Nat) : State :=
  if !traced s w then s
  else
    let st := streamOf s w.core w.part w.fn w.ctx
    let s1 :=
      if (st.mustSync && !traceFull s w.fn) || decide (2 ^ (s.func w.fn).syncInt ≤ st.events) || !st.timed then syncPoint s w.core w.part w.fn w.ctx (some w)
      else if st.time ≠ s.clock then
        let s2 := writePacket s w.core w.part w.fn w.ctx (packetWord 4 w.core w.part 0 0 0 0) (s.clock - st.time)
        setStream s2 { streamOf s2 w.core w.part w.fn w.ctx with time := s.clock }
      else s
    let s3 := writePacket s1 w.core w.part w.fn w.ctx (packetWord type w.core w.part w.wslot path sub val) w1
    let st3 := streamOf s3 w.core w.part w.fn w.ctx
    setStream s3 { st3 with events := st3.events + 1 }

/-- MASK packets (R410): an event of a path with its mask after it and the bundle at which it stands. -/
def emitMask (s : State) (w : Wave) (path sub : Nat) (mask : Mask) (pc : Word) : State :=
  emit s w path 3 sub mask.toNat pc.toNat

/-- A wave placed or restored emits its own SYNC packets, after a TIME ABS when the stream stands at another clock
(R411). -/
def emitPlaced (s : State) (w : Wave) : State :=
  if !traced s w then s
  else
    let st := streamOf s w.core w.part w.fn w.ctx
    let s1 := if st.timed && st.time == s.clock then s else timeAbs s w.core w.part w.fn w.ctx
    syncWave s1 w

/-- REGION packets of an edge or mark: the identifier, the depth after, and the top four entries after (R410). -/
def emitRegion (s : State) (w : Wave) (path sub ident : Nat) (after : List (BitVec 16)) : State :=
  emit s w path 5 sub (ident * 65536 + after.length) (regionTop { w with regions := after })

/-- Nanoseconds since module reset, of core clocks at 2.0 GHz. -/
def nsNow (s : State) : Nat := s.clock / 2

/-- One 128-byte profile record given to the collector of the core it names, or dropped and counted (R413, R414). -/
def writeRecord (s : State) (fn : Nat) (bytes : List Byte) : State :=
  let core := field bytes 2 2
  if profileFull s fn || collectorFull s core then loseRecord s fn
  else { s with collected := s.collected ++ [{ core := core, part := field bytes 4 1, fn := fn, ctx := field bytes 1 1
                                               record := true, bytes := bytes }] }

/-- Bytes padded with zeros, or cut, to a length. -/
def padTo (n : Nat) (bs : List Byte) : List Byte := bs.take n ++ List.replicate (n - bs.length) 0

/-- The first 32 bytes of a profile record (R414). -/
def recordHead (s : State) (kind ctx core part wslot depth top : Nat) : List Byte :=
  leBytes 1 kind ++ leBytes 1 ctx ++ leBytes 2 core ++ leBytes 1 part ++ leBytes 1 wslot ++ leBytes 2 depth ++
    leBytes 8 (nsNow s) ++ leBytes 8 top ++ leBytes 8 0

/-- Profiling is enabled for a context of a function (R412). -/
def profiled (s : State) (fn ctx : Nat) : Bool := bitOf ((s.func fn).reg profCtl) ctx

/-- A STOP record, the dump of a stop taken or dropped (R409, R414). -/
def stopRecord (s : State) (w : Wave) (edge : Word) (cause : Cause) (dropped : Bool) : State :=
  writeRecord s w.fn (padTo 128 (recordHead s 3 w.ctx w.core w.part w.wslot w.regions.length (regionTop w) ++
    leBytes 8 edge.toNat ++ leBytes 1 cause.code ++ leBytes 1 (b2n dropped)))

/-- A WATCH record (R408, R414). -/
def watchRecord (s : State) (fn ctx : Nat) (who : Option Wave) (obj : Word) (code phase count : Nat) (edge : Word) : State :=
  let head := match who with
    | some w => recordHead s 2 ctx w.core w.part w.wslot w.regions.length (regionTop w)
    | none => recordHead s 2 ctx 0 0 0xFF 0 0
  writeRecord s fn (padTo 128 (head ++ leBytes 8 obj.toNat ++ leBytes 1 code ++ leBytes 1 phase ++ leBytes 2 0 ++
    leBytes 4 count ++ leBytes 8 edge.toNat))

end Sys2Proof.Machine
end

