-- ==== Sys2Proof/Machine/Issue.lean ====
section
/-! DEFINITION. Running one issued instruction: the checks of R67 in their order, the accounts of an issue (R25, R131,
R133), the path's advance through its bundle and its REP (R132, R146), completion (R134), traps (R48), and memory
instructions with the operand log (R50). -/

namespace Sys2Proof.Machine

/-- What an instruction's own effect comes to. -/
inductive Effect where
  /-- it issued: the state after its effect -/
  | done (s : State)
  /-- a precise cause, with the lanes tied to it (none: the active mask), the address and the detail -/
  | trap (c : Cause) (lanes : Option Mask) (addr detail : Word)
  /-- the same, with what the refused access leaves on its wave: the guard report, and the pins still broken (R219, R232) -/
  | trapNoted (guard : Option GuardReport) (pins : List (Nat × Nat)) (c : Cause) (lanes : Option Mask) (addr detail : Word)
  /-- a context error (R49) -/
  | error (s : State) (c : Cause)
  /-- not accepted in this clock: it stays unissued (R131) -/
  | wait
  /-- the same, with a stall reason of R405 other than its ENGINE -/
  | waitFor (reason : Nat)
  /-- a miss to a page that is being reclassified (R382): it retries -/
  | blocked (asid page : Nat)
  /-- a held write found its L2 set full (R355): it retries under the context's policy -/
  | noRoom (line : Nat)
  /-- the context's log area is full (R356): it retries under the context's policy -/
  | noLog
  /-- a page fault with no operand-log entry (R439): the path waits for the host's answer and issues again -/
  | retry (s : State) (x : XFault)
  deriving DecidableEq, Repr

/-- A cause tied to no lanes. -/
def Effect.raise (c : Cause) : Effect := .trap c none 0 0
/-- A cause with its address. -/
def Effect.raiseAt (c : Cause) (addr : Word) : Effect := .trap c none addr 0

/-- The issuer, as the state holds it. -/
def env? (s : State) : Option Env :=
  match s.issue with
  | none => none
  | some iss =>
    match s.wave? iss.uid with
    | none => none
    | some w =>
      match mfind w.places iss.place with
      | none => none
      | some p => some { w := w, p := p, iss := iss, et := modeEtype w.mode, clock := s.clock }

/-- The OP byte of the issuing word. -/
def Env.op (e : Env) : Nat := bits e.iss.word.toNat 24 8

/-- The opcode is assigned: the decoder does not refuse it with ILLEGAL_OPCODE. -/
def opAssigned (op : Nat) : Bool :=
  match decodeInstr 1 (BitVec.ofNat 32 (op * 2 ^ 24)) 0 with
  | .error c => c != .illegalOpcode
  | .ok _ => true

/-- What a lane of an opcode charges in a grove: its weight, and nothing for an unassigned opcode (R424). -/
def weightOf (g : Grove) (op : Nat) : Nat :=
  if opAssigned op then bits (g.weights.getD (op / 2) 0).toNat (4 * (op % 2)) 4 else 0

/-- Pipe A takes opcodes 0x20 to 0x5F, pipe B every other (R17, R131). -/
def pipeA (op : Nat) : Bool := decide (0x20 ≤ op) && decide (op ≤ 0x5F)

/-- The clocks an instruction occupies its pipe (R131, R192). -/
def pipeClocks (op : Nat) (scalar : Bool) : Nat :=
  if pipeA op then (if scalar then 1 else 2) else if 0x60 ≤ op && op ≤ 0x7F then 4 else 1

/-- The partition's policy in this clock is RR: that of the context of its oldest resident wave, as it stood when the first
path of the partition acted in the clock (R140). -/
def partRr (s : State) (core part : Nat) : Bool :=
  match (s.part core part).policy with
  | some rr => rr
  | none =>
    match oldestWave s core part with
    | some w => ((s.waveCtx w).map Context.rr).getD false
    | none => false

/-- The wave of an issue: the path's last issue is noted (R133), its age under round-robin (R140), the slot that issued last (R142), and
a refusal of the path's write is over (R355). -/
def issuedWave (s : State) (e : Env) : Wave :=
  let w1 := (e.w.accepted (.path e.p.born)).modPath e.iss.place fun p =>
    { p with lastIssue := s.clock, issued := true, taken := false, nopStall := 0, passed := 0, fresh := false,
             yielded := if partRr s e.w.core e.w.part then p.yielded else none }
  let both := decide (e.iss.place < 2) && (mfind e.w.places (1 - e.iss.place)).isSome
  { w1 with lastSlot := if both then e.iss.place else if e.iss.place < 2 then 2 else e.w.lastSlot }

/-- The accounts of an issue: the partition's policy is the clock's (R140), the pipe is occupied, the grove
charged (R25), and the wave noted. The issue record is consumed. -/
def account (s : State) (e : Env) (scalar : Bool) : State :=
  let w := e.w
  let g := s.grove (groveOf w.core)
  let pt := s.part w.core w.part
  let busy := s.clock + pipeClocks e.op scalar
  let lanes := popc e.p.mask
  let pt1 := if pipeA e.op then { pt with aBusy := busy, aUsed := true } else { pt with bBusy := busy, bUsed := true }
  let pt2 := if 8 ≤ weightOf g e.op && 24 ≤ lanes then { pt1 with pairing := if pipeA e.op then 2 else 1 } else pt1
  let s1 := (s.setGrove (groveOf w.core) { g with charge := g.charge + weightOf g e.op * lanes }).setPart
    w.core w.part { pt2 with issued := pt.issued ++ [(w.uid, e.p.born, w.wslot, e.p.yielded)]
                             policy := some (partRr s w.core w.part) }
  { s1 with issue := none, waves := s.waves.map fun x => if x.uid == w.uid then issuedWave s e else x }

/-- The path moved past a slot and, for a literal-taking instruction, past its literal (R57, R59). -/
def pathPast (bundle : Word) (slot : Nat) (literal : Bool) (p : Path) : Path :=
  let n := slot + (if literal then 2 else 1)
  if 3 < n then { p with pc := bundle + 16, slot := 1, fresh := true } else { p with pc := bundle, slot := n, fresh := false }

/-- The place after an instruction, as s61 holds a resume point (R44, R53). -/
def afterSlot (bundle : Word) (slot : Nat) (literal : Bool) : Word × Nat :=
  let n := slot + (if literal then 2 else 1)
  if 3 < n then (bundle + 16, 0) else (bundle, n)

/-- The path ranks as the youngest of its partition until it next issues, under GTO (R138, R140). -/
def yieldAt (s : State) (e : Env) (p : Path) : Path :=
  if partRr s e.w.core e.w.part then p else { p with yielded := some s.clock }

/-- The path's advance after an instruction that moves on in order: through its bundle, or to its REP's next iteration
(R132, R146, R147). A YIELD bit acts after the bundle's last issued slot (R138). -/
def advance (s : State) (e : Env) (literal : Bool) : State :=
  let more := e.iss.iteration.isSome && decide (1 < e.w.rep.left)
  let yields := e.iss.yieldBit && !more
  s.modWave e.w.uid fun w =>
    let w1 := if e.iss.iteration.isSome then
        (if more then { w with rep := { w.rep with next := w.rep.next + 1, left := w.rep.left - 1 } }
         else { w with rep := emptyRep })
      else w
    w1.modPath e.iss.place fun p =>
      let p1 := if more then p else pathPast e.iss.bundle e.iss.slot literal p
      if yields then yieldAt s e { p1 with yieldPending := false } else p1

/-- An instruction outstanding from now: its flag is raised and its completion queued; it completes after `lat` clocks
when that is given, and otherwise when its data returns (R134). Answers its sequence number. -/
def pend (s : State) (e : Env) (lat : Option Nat) (writes : List RegWrite) (path : AccessPath) (store : Bool) (ss : Nat) :
    Nat × State :=
  match s.wave? e.w.uid with
  | none => (0, s)
  | some w =>
    let c : Completion := { seqNo := w.nextSeq, setf := e.iss.setf, writes := writes, path := path, store := store,
                            returned := false, ss := w64 ss, fmt := none }
    let s1 := s.setWave { (w.raise e.iss.setf) with nextSeq := w.nextSeq + 1, pending := w.pending ++ [c] }
    (w.nextSeq, match lat with
      | some n => s1.schedule n (.instructionComplete w.uid w.nextSeq)
      | none => s1)

/-- The instruction completes `lat` clocks after it issues, writing registers then (R134). -/
def Env.finish (e : Env) (s : State) (lat : Nat) (writes : List RegWrite) : Effect :=
  .done (pend s e (some lat) writes .none false 0).2

/-- An instruction with no result completes 1 clock after it issues (R141). -/
def Env.noResult (e : Env) (s : State) : Effect := e.finish s 1 []

/-- A report or a broken pin's flag is cleared as its trap is raised (R51, R232, R246). -/
def consumeReport (w : Wave) (c : Cause) (addr : Word) : Wave :=
  match c with
  | .scratchGuard => { w with guardRep := none }
  | .exactCellRange =>
    match w.cellReps.find? fun r => r.addr == addr with
    | some r => { w with cellReps := w.cellReps.erase r }
    | none => w
  | .pinLost =>
    match w.brokenPins.find? fun p => p.1 == addr.toNat % 2 ^ 52 / 256 with
    | some p => { w with brokenPins := w.brokenPins.filter fun q => q.2 != p.2 }
    | none => w
  | _ => w

/-- The trap an issuing path takes, with its MASK packet (R44, R410). `s` is the state in which the path still stands
at the instruction. A bundle's YIELD bit acts also when its last issued slot traps and is not issued again (R138). -/
def takeTrap (s : State) (e : Env) (literal : Bool) (c : Cause) (lanes : Option Mask) (addr detail : Word) : State :=
  match s.wave? e.w.uid with
  | none => s
  | some w =>
    let word := match e.iss.iteration with
      | some _ => e.iss.nextWord
      | none => e.iss.word
    let (rb, rs) := if c.resumesNext then afterSlot e.iss.bundle e.iss.slot literal else (e.iss.bundle, e.iss.slot)
    let t : TrapInfo := { cause := c, word := word, bundle := e.iss.bundle, slot := e.iss.slot, addr := addr,
                          lanes := lanes, detail := detail, resumeBundle := rb, resumeSlot := rs }
    let w0 := if c.resumesNext && e.iss.yieldBit then
        w.modPath e.iss.place fun p => yieldAt s e { p with yieldPending := false }
      else w
    let s1 := enterTrap s (consumeReport w0 c addr) e.iss.place t
    match s1.wave? w.uid with
    | none => s1
    | some w1 => match mfind w1.places 0 with
      | some p => if w1.held.isSome then emitMask s1 w 0 3 p.mask p.pc else s1
      | none => s1

/-- The code in field B, A or D (0, 1, 2) of a word (R58). -/
def fieldCode (word : Word32) (k : Nat) : OpCode := word.extractLsb' (8 * k) 8

/-- The fields a REP's step advances (R146): bit 2 of the step is D, bit 1 A and bit 0 B. -/
def steppedPlaces (step : Byte) : List Nat := setBits 3 step.toNat

/-- The opcode gives a field an operand code rather than an immediate or zero (R69 to R74): a marker put there is among the
operands the decoder reads. -/
def operandField (word : Word32) (k : Nat) : Bool :=
  match decodeInstr 1 (BitVec.ofNat 32 ((word.extractLsb' 24 8).toNat * 2 ^ 24 + 0xA5 * 2 ^ (8 * k))) 0 with
  | .error c => c == .illegalOpcode
  | .ok i => i.fields.any fun x => x.2 == 0xA5 && (match x.1 with | .imm _ | .step => false | _ => true)

/-- The stride of a step byte (R146). -/
def strideOf (step : Byte) : Nat := 2 ^ bits step.toNat 4 2

/-- The registers a field begins (R61): BPLD's and ENC6's A, and the pair of LDL and STL. MMA's quarter begins four. -/
def fieldGroup (word : Word32) (n : Nat) : Nat :=
  let op := (word.extractLsb' 24 8).toNat
  if op = 0x64 && n = 1 then 6
  else if op = 0x47 && n = 1 then 3
  else if (op = 0x88 || op = 0x89) && n = 2 then 2
  else if (op = 0xB1 || op = 0xB2) && n = 0 then 4
  else 1

/-- A stepped field, or the group it begins, passes the last register of its file at an iteration (R146, R200). -/
def stepPasses (step : Byte) (k : Nat) (word : Word32) : Bool :=
  (steppedPlaces step).any fun n =>
    let c := (fieldCode word n).toNat
    let c' := c + k * strideOf step + fieldGroup word n - 1
    if c ≤ 0x7F then decide (0x7F < c') else decide (0xBF < c')

/-- The word of iteration `k`: each stepped field advanced (R146). One that passes its file is left as encoded. -/
def steppedWord (step : Byte) (k : Nat) (word : Word32) : Word32 :=
  if stepPasses step k word then word
  else (steppedPlaces step).foldl (fun w n => w + BitVec.ofNat 32 (k * strideOf step * 2 ^ (8 * n))) word

/-- The instruction keeps within a budget once its stepped v fields are left out: what it then exceeds is no stepped
field. -/
def unsteppedOk (step : Byte) (budget slot : Nat) (word literal : Word32) : Bool :=
  let cleared := (steppedPlaces step).foldl (fun w n =>
    if isVCode (fieldCode w n) then w &&& ~~~(BitVec.ofNat 32 (0xFF * 2 ^ (8 * n))) else w) word
  match decodeInstr slot cleared literal with
  | .ok i => i.budgetOk budget
  | .error _ => true

/-- Step 4 of R67, and the budget of a repeat (R61, R146). -/
def budgetCause (e : Env) (i : Instr) : Option Cause :=
  match e.iss.iteration with
  | none => if i.budgetOk e.w.budget then none else some .regBudget
  | some k =>
    if !unsteppedOk e.w.rep.stride e.w.budget e.iss.slot e.iss.word e.iss.literal then some .regBudget
    else if stepPasses e.w.rep.stride k e.iss.nextWord || !i.budgetOk e.w.budget then some .repBudget
    else none

/-- The opcodes whose chapter lists the element types they accept (R166, R193, R243), AMIN and AMAX among them. -/
def typedOp (op : Nat) : Bool := (0x20 ≤ op && op ≤ 0x7F) || op == 0xA1 || op == 0xA2

/-- The mode holds a reserved element type. -/
def Env.reservedType (e : Env) : Bool := (etypeOf (modeEtypeCode e.w.mode)).isNone

/-- The element type under which the fields are checked. A reserved one refuses no floating inline constant, which R63 refuses
under the integer types alone. -/
def Env.fieldType (e : Env) : EType := if e.reservedType then .f64 else e.et

/-- The instruction asks for an element type: its chapter lists those it accepts, or a field of kind x holds a floating inline
constant, whose width the element type fixes (R63, log entry 20). -/
def asksType (op : Nat) (i : Instr) : Bool := typedOp op || i.fields.any fun x => x.1 == .x && isFloatConst x.2

/-- The checks of R67 from step 3 on, with the schedule control and the placement rules of R55, R57 and R59. The
decoder made steps 1 and 2. A reserved element type that TRET left raises MODE_INVALID on an instruction that asks for one
(log entry 20). -/
def preCheck (e : Env) (i : Instr) : Option Cause :=
  if 13 ≤ e.iss.setf || (i.takesLiteral && e.iss.literalCtl) || (i.transfers && e.iss.laterUsed) ||
    !i.fieldsOk e.fieldType then some .reservedField
  else match budgetCause e i with
    | some c => some c
    | none =>
      if (asksType e.op i && e.reservedType) || !i.typeOk e.et then some .modeInvalid
      else if !i.dstPermitted e.w.held.isSome then some .privileged
      else none

/-- A state with the caches, TLBs and classes as another's accesses left them. -/
def State.withCaches (s t : State) : State :=
  { s with dram := t.dram, l2 := t.l2, l1 := t.l1, tlb := t.tlb, classes := t.classes, classCopies := t.classCopies,
           counter := t.counter }

/-- The path, which stands at its instruction, waits for the host's answer to a fault of its own, and then issues it again
(R439). -/
def retryFault (s : State) (e : Env) (x : XFault) : State :=
  let s1 := { s with counter := s.counter + 1 }
  let s2 := postFault s1 x 0 (waveRequester e.w) (.path e.w.uid s.counter)
  s2.modWave e.w.uid fun w => w.modPath e.iss.place fun p => { p with park := .faulted (s2.fnOfAsid x.asid) s.counter }

/-- The state with a path noted as not accepted in this clock, and why (R405). -/
def noteTried (s : State) (e : Env) (reason : Nat) : State :=
  let pt := s.part e.w.core e.w.part
  { s.setPart e.w.core e.w.part { pt with tried := pt.tried ++ [(e.w.uid, e.p.born, reason)], policy := some (partRr s e.w.core e.w.part) } with issue := none }

/-- A refusal of a wave's write: the first one sets the timer of R355. -/
def noteRefused (s : State) (w : Wave) (r : Refuser) : State :=
  match s.anyWave? w.uid with
  | none => s
  | some y =>
    if y.refused.any fun e => e.1 == r then s
    else (s.modAny w.uid fun x => { x with refused := x.refused ++ [(r, s.clock)] }).schedule (1000 * Config.clocksPerUs)
      (.holdFullTimeout w.uid)

/-- A held write found its L2 set full: the context's capacity policy (R355). The write retries; under STALL it errors
after 1 ms, and under RELEASE_UNCHECKED the earliest-placed held block with a line in the set is chosen for release. -/
def holdRefused (s : State) (w : Wave) (line : Nat) (r : Refuser) : State :=
  let asid := s.waveAsid w
  let policy := ((s.waveCtx w).map Context.releaseUnchecked).getD false
  if policy then
    let inSet := s.heldSectors.filter fun h => l2Set s h.asid (h.sector / 4) == l2Set s asid line
    let keys := (inSet.map fun h => (h.lid, h.bid)).eraseDups
    let cands := s.blocks.filter fun b => keys.contains (b.lid, b.bid) && (b.run == .original)
    match sortBy (fun a b => decide (a.placedAt ≤ b.placedAt)) cands with
    | [] => s
    | b :: _ => (s.setBlock { b with forced := true }).scheduleOnce 0 (.checkVote b.lid b.bid)
  else noteRefused s w r

/-- The log area is full: the policy of R355 applies, the logging block itself being the one released (R356). -/
def logRefused (s : State) (w : Wave) (r : Refuser) : State :=
  if ((s.waveCtx w).map Context.releaseUnchecked).getD false then
    match s.waveBlock w with
    | some b => (s.setBlock { b with forced := true }).scheduleOnce 0 (.checkVote b.lid b.bid)
    | none => s
  else noteRefused s w r

/-- One issued instruction (R67, R48): its checks, then its own effect on the state in which the path has advanced. A
meaning asked to run with no issuer is refused. -/
def runInstr (i : Instr) (s : State) (body : Env → State → Effect) : Host.Outcome State Fault Refusal :=
  match env? s with
  | none => .refused .noIssuer
  | some e =>
    let lit := i.takesLiteral
    let s1 := account s e i.scalarForm
    match preCheck e i with
    | some c => .next (takeTrap s1 e lit c none 0 0)
    | none =>
      match body e (advance s1 e lit) with
      | .done s2 => .next s2
      | .trap c lanes addr detail => .next (takeTrap s1 e lit c lanes addr detail)
      | .trapNoted guard pins c lanes addr detail =>
        .next (takeTrap (s1.modWave e.w.uid fun w => { w with guardRep := guard, brokenPins := pins }) e lit c lanes addr detail)
      | .error s2 c => .next (waveError s2 e.w e.iss.bundle c)
      | .wait => .next (noteTried s e 10)
      | .waitFor reason => .next (noteTried s e reason)
      | .blocked asid page => .next (noteTried (blockPage s asid page) e 6)
      | .noRoom line => .next (noteTried (holdRefused s e.w line (.path e.p.born)) e 10)
      | .noLog => .next (noteTried (logRefused s e.w (.path e.p.born)) e 10)
      | .retry s2 x =>
        if e.w.held.isSome then .next (waveError s2 e.w e.iss.bundle .doubleFault)
        else if x.cause.delivery = .pageFault then .next (retryFault (s1.withCaches s2) e x)
        else .next (waveError s2 e.w e.iss.bundle x.cause)

/-! ## Memory instructions and the operand log -/

/-- A pending fence orders later accesses of the path (R116, R117, R235). -/
def fenced (w : Wave) (path : AccessPath) : Bool := w.fences.any fun f => f.paths.contains path

/-- An access of the wave overlaps one its operand log holds (R50). -/
def overlapsLog (s : State) (w : Wave) (op : MemOp) : Bool := w.log.any fun l => opsOverlap s w l.op op

/-- Bytes of global memory meet an access the wave's operand log holds (R50, R110). -/
def logMeets (s : State) (w : Wave) (va n : Nat) : Bool :=
  w.log.any fun l => (opRanges s w l.op).any (rangesMeet ({ space := .global (s.waveAsid w), addr := va }, n))

/-- The registers a memory operation will write, for the order of R135. -/
def opKeys (op : MemOp) : List RegWrite :=
  match op.kind with
  | .tileLoad => tileLoadWrites op.dest op.option op.mask []
  | .store | .storePair | .compressStore | .storeRelease | .tileStore | .arrive | .signal | .bind | .unbind => []
  | .waitb | .arrwait | .sigwait | .command | .haloCommand => destAll op.dest op.mask 0
  | .loadPair => op.lanes.flatMap fun l => destWrite op.dest l.lane 0 ++ destWrite (op.dest + 1) l.lane 0
  | _ => op.lanes.flatMap fun l => destWrite op.dest l.lane 0

/-- The requester kind of an access path in a fault record (R383). -/
def pathKind : AccessPath → Nat
  | .at => 1 | .mx => 2 | .cp => 3 | .wl => 4 | _ => 0

/-- Operand-log entries of R50 that hold a place: the first four. One more may wait for a place, and then the wave
issues nothing. -/
def logPlaces : Nat := 4

/-- A fault of a logged instruction queued to the host (R50): the retirement drain's, once the wave has left its partition
(R36, R383). -/
def postLogged (s : State) (w : Wave) (seqNo : Nat) (path : AccessPath) (x : XFault) : State :=
  postFault s x (if (s.wave? w.uid).isNone then 6 else pathKind path) (waveRequester w) (.logEntry w.uid seqNo)

/-- A memory instruction met an X cause: it takes an operand-log entry with its flag raised, and its fault is queued.
With four entries in use it waits for one, and its fault is queued when it has it (R50). -/
def logFault (s : State) (e : Env) (path : AccessPath) (x : XFault) (op : MemOp) : State :=
  let (seqNo, s1) := pend s e none (opKeys op) path op.kind.writes 0
  let entry : LogEntry := { word := e.iss.word, bundle := e.iss.bundle, slot := e.iss.slot, place := e.iss.place, op := op,
                            seqNo := seqNo, path := path, rep := e.iss.iteration.isSome && decide (1 < e.w.rep.left) }
  let full := decide (logPlaces ≤ e.w.log.length)
  let s2 := s1.modWave e.w.uid fun w => { w with log := w.log ++ [entry] }
  if full then s2 else postLogged s2 e.w seqNo path x

/-- The outcome of a memory operation's performance for its instruction: it completes after its latency, traps, is
logged (R50), or retries. -/
def memOutcome (e : Env) (path : AccessPath) (store : Bool) : MemResult → Effect
  | .ok s1 writes lat ss =>
    .done (pend s1 e (some lat) writes path store ss).2
  | .trap c addr lanes => .trap c lanes addr 0
  | .stop s1 x rest =>
    match x with
    | .frozen => .waitFor 6
    | .blocked asid page => .blocked asid page
    | .pinned => .waitFor 5
    | .noRoom line => .noRoom line
    | .noLog => .noLog
    | .fault f =>
      if f.cause.delivery ≠ .pageFault then .trap f.cause none (w64 f.va) 0
      else if e.w.held.isSome then .error s1 .doubleFault
      else .done (logFault s1 e path f rest)

/-- The path of a logged instruction that later ones of its path wait for stays held until the replay completes it. -/
def holdLogged (e : Env) : Effect → Effect
  | .done s =>
    match s.wave? e.w.uid with
    | some w => .done (s.setWave (w.modPath e.iss.place fun p => { p with park := .hold (w.nextSeq - 1) }))
    | none => .done s
  | r => r

/-- A tile that meets a broken pin away from its base clears that pin's flag as it raises PIN_LOST (R226, R232). -/
def tilePinTrap (e : Env) (op : MemOp) : Effect → Effect
  | .trap .pinLost lanes addr detail =>
    let span := tileSpan op.arg.toNat (tileRow op.option)
    let met := e.w.brokenPins.find? fun p => (linesOf (op.base.toNat % 2 ^ 52) span).contains p.1
    let tile := match op.kind with | .tileLoad | .tileStore => true | _ => false
    if tile then
      .trapNoted e.w.guardRep (e.w.brokenPins.filter fun q => !met.any fun p => p.2 == q.2) .pinLost lanes addr detail
    else .trap .pinLost lanes addr detail
  | r => r

/-- A memory instruction of an access path: it waits behind a pending fence of its path and behind a logged access it
overlaps (R50, R116), and is performed otherwise. -/
def memRun (e : Env) (path : AccessPath) (s : State) (op : MemOp) (perform : State → Wave → MemOp → MemResult) : Effect :=
  if fenced e.w path || overlapsLog s e.w op then .waitFor 6
  else tilePinTrap e op (memOutcome e path op.kind.writes (perform s e.w op))

end Sys2Proof.Machine
end

