-- ==== Sys2Proof/Machine/Sync.lean ====
section
/-! DEFINITION. The synchronisation objects at their homes: parking and hand-off (R23, R42), barriers (R154 to R157),
signals (R158), bound regions (R159), narrow-scope pins (R118, R119), and watchpoints (R407, R408). -/

namespace Sys2Proof.Machine

/-! ## Parked paths -/

/-- The path waits at its instruction: it stands there, and a completion of it moves it on (R42). -/
def parkedAt (bundle : Word) (slot : Nat) (k : Park) (p : Path) : Path :=
  { p with pc := bundle, slot := slot, fresh := false, park := k, waitResume := p.waitResume && k == .saved }

/-- Every access path. -/
def everyPath : List AccessPath := [.ls, .at, .mx, .cp, .wl, .fb]

/-- The stall reason of a path that is parked in a wait: BARRIER, or WAITLIST (R405). -/
def Park.reason : Park → Nat
  | .barrier .. => 1
  | _ => 2

/-- The waits that a test selects are satisfied with a value: each path's destination is to receive it, the path moves
past its instruction and issues again when that instruction completes (R23). Answers the completions. -/
def Wave.satisfy (w : Wave) (sel : Path → Option (OpCode × Nat)) (value : Word) : Wave × List Nat :=
  let hits := w.allPaths.filterMap fun p => (sel p).map fun x => (x.2, destAll x.1 p.mask value)
  let w1 := w.mapPaths fun p => match sel p with
    | some x => { pathPast p.pc p.slot false p with park := .woken x.2 p.park.reason }
    | none => p
  ({ w1 with pending := w1.pending.map fun c => match hits.find? fun h => h.1 == c.seqNo with
      | some h => { c with writes := h.2 }
      | none => c }, hits.map Prod.fst)

/-- An acquire completes before any later access of the wave issues, on any access path (R115). -/
def acquireUntil (s : State) (uid seqNo : Nat) : State :=
  s.modWave uid fun w => { w with fences := w.fences ++
    [{ seqNo := seqNo, paths := everyPath, scope := 7, needsLog := false, ready := true }] }

/-- The regions bound to an object (R112), as the wave's addresses name them. -/
def boundRegions (s : State) (w : Wave) (obj : Loc) : List (Loc × Nat) :=
  (s.bindings.filter fun b => b.obj == obj).filterMap fun b => (rangeLoc s w .generic b.base).map fun l => (l, b.len)

/-- A line meets a range of a space. -/
def lineMeets (l : Loc) (r : Loc × Nat) : Bool :=
  l.space == r.1.space && decide (l.addr < r.1.addr + r.2) && decide (r.1.addr < l.addr + 256)

/-- The lines of the bound regions leave the acquirer's L1 (R115). -/
def dropBound (s : State) (w : Wave) (obj : Loc) : State :=
  let bound := boundRegions s w obj
  let gone : L1Line → Bool := fun x => x.core == w.core && !x.instr &&
    bound.any (lineMeets { space := .global x.asid, addr := 256 * x.line })
  if bound.isEmpty then s else { s with l1 := s.l1.filter fun x => !gone x }

/-- The waits of every wave that a test selects are satisfied, and complete after `lat` clocks; each is an acquire on the object (R115). -/
def satisfyAll (s : State) (obj : Loc) (sel : Wave → Path → Option (OpCode × Nat)) (value : Word) (lat : Nat) : State :=
  s.waves.foldl (fun s w =>
    match w.satisfy (sel w) value with
    | (_, []) => s
    | (w1, seqs) => seqs.foldl (fun s n => acquireUntil (s.schedule lat (.instructionComplete w.uid n)) w.uid n)
        (dropBound (s.setWave w1) w obj)) s

/-- A parked instruction is cut off: it receives nothing, and its flag falls (R23, R42, R56). -/
def Wave.cutOff (w : Wave) (seqNo : Nat) : Wave :=
  match w.pending.find? fun c => c.seqNo == seqNo with
  | some c => Wave.settled { (w.lower c.setf) with pending := w.pending.filter fun x => x.seqNo != seqNo }
  | none => w

/-- The completion a path's wait is pending with. -/
def Park.seqNo : Park → Option Nat
  | .barrier _ _ _ _ n _ | .signal _ _ _ n _ | .event _ n _ | .worklist _ _ n _ | .hold n | .woken n _ => some n
  | _ => none

/-! ## The wave behind an engine's access -/

/-- The agent of a command or engine that acts for a block on one of its cores, as a wave for address resolution. -/
def agentWave (lid bid : Nat) (run : Run) (fn ctx core : Nat) : Wave :=
  { emptyWave with lid := lid, bid := bid, run := run, fn := fn, ctx := ctx, core := core }

/-- The agent of a block on a core. -/
def blockAgent (b : Block) (core : Nat) : Wave := agentWave b.lid b.bid b.run b.fn b.ctx core

/-- The waves of a block, its saved ones included (R35, R157). -/
def blockWaves (s : State) (b : Block) : List Wave :=
  (s.waves.filter fun w => w.lid == b.lid && w.bid == b.bid && w.run == b.run) ++
    ((b.saved.map SavedBlock.waves).getD [])

/-- The waves of a block in a set: its current membership (R35, R154). -/
def setMembers (s : State) (b : Block) (n : Nat) : List Wave :=
  (blockWaves s b).filter fun w => w.sets.any fun e => e.1 == n

/-- A context's priority (R400): the highest among its launches that have blocks resident or saved. -/
def ctxPriority (s : State) (fn ctx : Nat) : Nat :=
  (s.launches.filter fun l => l.fn == fn && l.ctx == ctx && s.blocks.any fun b => b.lid == l.lid).foldl
    (fun m l => Nat.max m l.priority) 0

/-! ## Reaching an object -/

/-- An object reached: what its address names, with the physical address of a global one. -/
structure ObjAt where
  target : Target
  pa : Nat
  loc : Loc
  deriving DecidableEq, Repr

/-- An object's bytes reached for an access: the checks of R215 and the translation. -/
def accessObj (s : State) (w : Wave) (a : Actor) (addr : Word) (align width : Nat) (writes : Bool) (op : MemOp) :
    Except MemResult ObjAt × State :=
  let l : LaneAcc := { lane := 0, addr := addr, width := width, data := 0, data2 := 0 }
  match firstFailure (laneChecks s w .generic align writes) [l] with
  | some f => (.error (checkTrap .generic f), s)
  | none =>
    match xlateLanes s w a .generic (if writes then .write else .read) [l] with
    | (.error e, s1) => (.error (.stop s1 e op), s1)
    | (.ok ((_, t, pa) :: _), s1) =>
      if writes && (holdFull s1 a [(l, t, pa)]).isSome then (.error (.stop s1 (.noRoom (addr.toNat / 256)) op), s1)
      else (.ok { target := t, pa := pa, loc := targetLoc a.asid t }, s1)
    | (.ok [], s1) => (.error (.trap .illegalAddress addr none), s1)

/-- The latency of an object's home (R141). -/
def homeLatency (s : State) (w : Wave) (t : Target) : Nat :=
  match t with
  | .global va => if homeSlice s (s.waveAsid w) va / 80 = dieOf w.core then 200 else 420
  | .scratch c _ _ => if c = w.core then 24 else 80
  | .weight _ _ => 120

/-- The run has its own version of an object (R354, R357). -/
def ownVersion (s : State) (a : Actor) (t : Target) : Bool :=
  match t with
  | .global va => a.held && (heldSector? s a (va / 64)).isSome
  | _ => false

/-- A wave waits on the version of an object that a change by `a` makes: its own run's where that run has one, and the
committed object otherwise (R357). -/
def waitsOn (s : State) (a : Actor) (t : Target) (w : Wave) : Bool :=
  let mine := waveActor s w
  if ownVersion s a t then w.lid == a.lid && w.bid == a.bid && w.run == a.run
  else !ownVersion s { mine with asid := a.asid } t

/-- An object's bytes changed by an arrival or signal: in a held run, in its version only (R357). -/
def writeObj (s : State) (a : Actor) (pa : Nat) (bytes : List Byte) (t : Target) : State :=
  match t with
  | .global va => if a.held then holdBytes s a false va pa bytes else writeTarget s a pa bytes t
  | _ => writeTarget s a pa bytes t

/-! ## Watchpoints (R407, R408) -/

/-- A watchpoint of the object's context has its address (R407). -/
def watchMatches (t : Target) (addr : Word) : Bool :=
  let x := addr.toNat
  match t with
  | .global va => bits x 56 8 == 0 && bits x 0 52 == va
  | .scratch c off _ => (bits x 56 8 == 0xFC && bits x 0 20 == off) ||
      (bits x 56 8 == 0xFD && bits x 0 20 == off && bits x 24 3 == c % 8)
  | .weight _ _ => false

/-- The watchpoints of a context that a change of an object fires: `codes` are the transitions it makes (R407). -/
def fireWatches (s : State) (fn ctx : Nat) (who : Option Wave) (t : Target) (obj : Word) (codes : List Nat)
    (phase count : Nat) (edge : Word) : State :=
  (s.func fn).watches.foldl (fun s e =>
    let c := e.2.ctl.toNat
    if bitOf c 63 && bits c 0 4 == ctx && codes.contains (bits c 8 2) && watchMatches t e.2.addr then
      let record := bitOf c 12 || (bitOf c 13 && who.isNone)
      let s1 := if record then watchRecord s fn ctx who obj (bits c 8 2) phase count edge else s
      match who with
      | some w => if bitOf c 13 then s1.modWave w.uid fun x => { x with watchStop := true } else s1
      | none => s1
    else s) s

/-! ## Barriers (R154 to R157) -/

/-- The fields of a barrier object (R154). -/
structure BarrierObj where
  expected : Nat
  arrived : Nat
  phase : Bool
  kind : Nat
  set : Nat
  owner : Nat
  malformed : Bool
  deriving DecidableEq, Repr

/-- An object's fields (R154). DEDUCED (log entry 93): a kind 1 with a set number above 63, and a kind 0 with nonzero bytes 0xA
or 0xC, which the table gives as zero, count as malformed beside what the rule lists. -/
def parseBarrier (bs : List Byte) : BarrierObj :=
  let expected := field bs 0 4
  let kind := field bs 9 1
  let set := field bs 10 1
  let owner := field bs 12 4
  { expected := expected, arrived := field bs 4 4, phase := bitOf (field bs 8 1) 0, kind := kind, set := set, owner := owner,
    malformed := field bs 8 1 > 1 || kind > 1 || field bs 11 1 != 0 ||
      (kind == 0 && (expected == 0 || expected > 2 ^ 20 || set != 0 || owner != 0)) || (kind == 1 && set > 63) }

def barrierBytes (o : BarrierObj) : List Byte :=
  leBytes 4 o.expected ++ leBytes 4 o.arrived ++ leBytes 1 (b2n o.phase) ++ leBytes 1 o.kind ++ leBytes 1 o.set ++
    leBytes 1 0 ++ leBytes 4 o.owner

/-- The barrier as an actor reads it. -/
def readBarrier (s : State) (a : Actor) (o : ObjAt) : BarrierObj := parseBarrier (readTarget s a o.pa 16 o.target)

/-- `expected(o)` (R154). -/
def expectedOf (s : State) (b : Block) (o : BarrierObj) : Nat :=
  if o.kind = 1 then (setMembers s b o.set).length else o.expected

/-- The address a WATCH record gives an object: that of its share or store with its selector (R209, R414). -/
def objWord : Target → Word
  | .global va => w64 va
  | .scratch _ off _ => w64 (0xFC * 2 ^ 56 + off)
  | .weight _ off => w64 (0xFE * 2 ^ 56 + off)

/-- `complete(o)` (R155): the phase turns, the count clears, and every waiter of the old phase is released together. -/
def completeBarrier (s : State) (a : Actor) (o : ObjAt) (x : BarrierObj) (lat : Nat) : State :=
  let s1 := writeObj s a o.pa (barrierBytes { x with phase := !x.phase, arrived := 0 }) o.target
  let s2 := { s1 with openPhases := s1.openPhases.filter fun e => e.1 != o.loc }
  satisfyAll s2 o.loc (fun w p => match p.park with
    | .barrier obj _ d _ n _ => if obj == o.loc && waitsOn s2 a o.target w then some (d, n) else none
    | _ => none) (w64 (b2n !x.phase)) lat

/-- The wave's arrival record for an address replaced or added, the oldest of four dropped (R156). -/
def Wave.recordArrival (w : Wave) (addr : Word) (phase : Bool) : Wave :=
  let rest := w.arrivals.filter fun r => r.addr != addr
  { w with arrivals := (if rest.length = 4 then rest.drop 1 else rest) ++ [{ addr := addr, phase := phase }] }

/-- `arrive(o, n)` of R155 at the object's home; `none` when it is misuse. `who` is the arriving wave, absent for an
engine or a held arrival, whose membership is not tested. -/
def arriveAt (s : State) (a : Actor) (who : Option Wave) (b : Block) (o : ObjAt) (n lat : Nat) (edge : Word) :
    Option State :=
  let x := readBarrier s a o
  let member := match who with
    | some w => w.sets.any fun e => e.1 == x.set
    | none => true
  if x.malformed || n == 0 then none
  else if x.kind == 0 && decide (x.expected < x.arrived + n) then none
  else if x.kind == 1 && (n != 1 || !member || (decide (0 < x.arrived) && x.owner != b.owner)) then none
  else
    let y := { x with arrived := x.arrived + n, owner := if x.kind == 1 then b.owner else x.owner }
    let last := decide (expectedOf s b y ≤ y.arrived)
    let s1 := writeObj s a o.pa (barrierBytes y) o.target
    let s2 := if y.kind == 1 && !s1.openPhases.any fun e => e.1 == o.loc then
        { s1 with openPhases := s1.openPhases ++ [(o.loc, b.owner)] }
      else s1
    let s3 := if last then completeBarrier s2 a o y lat else s2
    if ownVersion s3 a o.target then some s3
    else some (fireWatches s3 b.fn b.ctx who o.target (objWord o.target)
      (if last then [0, 1, 2] else [0]) (b2n (if last then !y.phase else y.phase)) (if last then 0 else y.arrived) edge)

/-- The object at a location, as an actor reaches it. -/
def objOfLoc (s : State) (a : Actor) (l : Loc) : Option ObjAt × State :=
  match l.space with
  | .global asid =>
    match xlate s { a with asid := asid } l.addr 16 .write with
    | (.ok pa _, s1) => (some { target := .global l.addr, pa := pa, loc := l }, s1)
    | (_, s1) => (none, s1)
  | .scratch c => (some { target := .scratch c l.addr l.addr, pa := 0, loc := l }, s)
  | .weight _ => (none, s)

/-- The barriers that have waiters, each once. -/
def waitedBarriers (s : State) : List Loc :=
  (s.waves.flatMap fun w => w.allPaths.filterMap fun p => match p.park with
    | .barrier obj .. => some obj
    | _ => none).eraseDups

/-- A set of a block lost a member: each kind-1 barrier bound to it completes when its arrivals now suffice (R36,
R157). -/
def recheckSet (s : State) (b : Block) (n : Nat) : State :=
  let waited := waitedBarriers s
  let locs := waited ++ (s.openPhases.map Prod.fst).filter fun l => !waited.contains l
  locs.foldl (fun s l =>
    let a : Actor := { waveActor s (blockAgent b 0) with asid := (match l.space with | .global x => x | _ => 0), l1 := false }
    match objOfLoc s a l with
    | (none, s1) => s1
    | (some o, s1) =>
      let x := readBarrier s1 a o
      let mine := match l.space with
        | .global x => (s1.ctx? b.fn b.ctx).any fun c => c.asid == x
        | .scratch c => b.shares.any fun h => h.core == c && decide (h.offset ≤ l.addr) &&
            decide (l.addr < h.offset + b.shareSize)
        | .weight _ => false
      let waits := s1.waves.any fun w => w.lid == b.lid && w.bid == b.bid && w.run == b.run && w.allPaths.any fun p =>
        match p.park with | .barrier obj .. => obj == l | _ => false
      if mine && !x.malformed && x.kind == 1 && x.set == n && (if x.arrived = 0 then waits else x.owner == b.owner) &&
          decide ((setMembers s1 b n).length ≤ x.arrived) then
        let s2 := completeBarrier s1 a o x 0
        -- a watchpoint names a scratchpad object by its offset in the share (R407)
        let t := match l.space with
          | .scratch c => .scratch c (l.addr - (((b.shares.find? fun h => h.core == c).map Share.offset).getD 0)) l.addr
          | _ => o.target
        if ownVersion s2 a o.target then s2
        else fireWatches s2 b.fn b.ctx none t (objWord t) [2] (b2n !x.phase) 0 0
      else s1) s

/-- The phases that a killed block's waves had arrived on: its sets have no member left, so each completes (R157). A barrier of
its shares goes with them. -/
def loseMembers (s : State) : State :=
  let lost := s.openPhases.filter fun e => !s.blocks.any fun b => b.owner == e.2
  lost.foldl (fun s e =>
    let s1 := { s with openPhases := s.openPhases.filter fun x => x != e }
    match e.1.space with
    | .global asid =>
      let a := plainActor .host asid
      (match objOfLoc s1 a e.1 with
       | (none, s2) => s2
       | (some o, s2) =>
         let x := readBarrier s2 a o
         if x.malformed || x.kind != 1 || x.arrived == 0 || x.owner != e.2 then s2
         else (s2.ctxs.filter fun c => c.asid == asid).foldl (fun s c =>
           fireWatches s c.fn c.id none o.target (objWord o.target) [2] (b2n !x.phase) 0 0) (completeBarrier s2 a o x 0))
    | _ => s1) s

/-- What an engine's arrival came to: performed; not taken, because the object is malformed, of kind 1 or has its count met,
or because the address names none; or stopped by its translation, a pin or want of room, to be made again. -/
inductive EngineArrival where
  | performed (s : State)
  | notTaken (s : State)
  | stopped (s : State) (x : XStop)
  deriving DecidableEq, Repr

/-- An engine's arrival, of count 1, on a block's barrier (R284, R307, R321). `now`: it is made at once, whatever its run
holds (R323). `old`: it is a command's, accepted before a map change began (R302). An arrival on a barrier that lies in a
sealed region is not performed, and the command's status is BARRIER_MISUSE as for any barrier the arrival cannot use (DESIGN
CHOICE, log entry 104: the spec names no status for it). -/
def engineArrive (s : State) (b : Block) (core : Nat) (addr : Word) (now old : Bool) : EngineArrival :=
  let w := blockAgent b core
  let held := (waveActor s w).held
  let a := { waveActor s w with l1 := false, held := held && !now, old := old }
  let op : MemOp := { kind := .arrive, form := .generic, lanes := [], dest := 0xD0, mask := 0, scalar := true, signed := false,
                      scope := 0, option := false, base := addr, arg := 1, arg2 := 0, code := 0, vals := [], tile := [] }
  match accessObj s w a addr 16 16 true op with
  | (.error (.stop s1 x _), _) => .stopped s1 x
  | (.error _, s1) => .notTaken s1
  | (.ok o, s1) =>
    if (readBarrier s1 a o).kind = 1 then .notTaken s1
    else
      match arriveAt s1 a none b o 1 0 0 with
      | none => .notTaken s1
      | some s2 =>
        match o.target with
        | .global va =>
          let s3 := if held && now then s2 else addSS s2 a (ssWord va 1)
          .performed (if a.held then
            (match s3.block? b.lid b.bid b.run with
             | some b1 => s3.setBlock { b1 with heldItems := b1.heldItems ++ [.arrive o.loc 1] }
             | none => s3)
          else s3)
        | _ => .performed s2

/-! ## Signals (R158) -/

/-- `SIGNAL` at the object's home: the new value, saturating; every waiter whose threshold it meets is satisfied; `none`
when the object is malformed. -/
def signalAt (s : State) (a : Actor) (who : Option Wave) (fn ctx : Nat) (o : ObjAt) (v : Word) (lat : Nat) (edge : Word) :
    Option State :=
  let bs := readTarget s a o.pa 16 o.target
  if field bs 8 8 != 0 then none
  else
    let x := Nat.min (field bs 0 8 + v.toNat) (2 ^ 64 - 1)
    let s1 := writeObj s a o.pa (leBytes 8 x ++ leBytes 8 0) o.target
    let sel : Wave → Path → Option (OpCode × Nat) := fun w p => match p.park with
      | .signal obj t d n _ => if obj == o.loc && decide (t.toNat ≤ x) && waitsOn s1 a o.target w then some (d, n) else none
      | _ => none
    let served := s1.waves.any fun w => w.allPaths.any fun p => (sel w p).isSome
    let s2 := satisfyAll s1 o.loc sel (w64 x) lat
    if ownVersion s2 a o.target then some s2
    else some (fireWatches s2 fn ctx who o.target (objWord o.target)
      (if served then [0, 1] else [0]) 0 (x % 2 ^ 32) edge)

/-! ## Narrow-scope pins (R118, R119) -/

/-- The scope whose domain an operation of a scope pins: SET is the core when all its members are there, and the grove
otherwise (R118). -/
def pinScope (s : State) (w : Wave) (scope : Nat) : Nat :=
  if scope = 1 then
    match s.waveBlock w, w.sets.getLast? with
    | some b, some (n, _) => if (setMembers s b n).all fun m => m.core == w.core then 1 else 3
    | _, _ => 1
  else scope

/-- Lines performed at a scope: they are pinned to its domain by the wave, where its own pins hold them no wider, and the
pins that `widens` selects widen to it; at SYS none of those stays, and the lines reach DRAM (R118, R119, R379). -/
def pinAt (s : State) (w : Wave) (sc : Nat) (lines : List Loc) (widens : ScopePin → Bool) : State :=
  let wider : ScopePin → ScopePin := fun p => if widens p && decide (p.scope < sc) then { p with scope := sc } else p
  let kept := if sc = 7 then s.scopePins.filter fun p => !widens p else s.scopePins.map wider
  let fresh := if sc = 7 then [] else
    (lines.eraseDups.filter fun l => !kept.any fun p => p.uid == w.uid && p.line == l).map fun l =>
      ({ line := l, uid := w.uid, lid := w.lid, scope := sc, core := w.core } : ScopePin)
  let s1 := if sc = 7 then performAtSys s (lines ++ (s.scopePins.filter widens).map ScopePin.line) else s
  { s1 with scopePins := kept ++ fresh }

/-- A release or fence of a wave performs lines at a scope: they are pinned to its domain, and the wave's narrower pins
widen to it; at SYS nothing of its stays pinned (R118, R119). -/
def performScope (s : State) (w : Wave) (scope : Nat) (lines : List (AccessPath × Loc)) : State :=
  (pinAt s w (pinScope s w scope) (lines.map Prod.snd) fun p => p.uid == w.uid).modWave w.uid fun x =>
    { x with dirty := x.dirty.filter fun l => !lines.contains l }

/-- A release on an object performs the wave's LS-path writes to its bound regions at the object's scope (R112 to R114). What
the wave carries for others stands under their pins: every pin on the regions widens (R113, log entry 81). -/
def releaseObj (s : State) (w : Wave) (obj : Loc) (scope : Nat) : State :=
  let bound := boundRegions s w obj
  let mine := w.dirty.filter fun l => l.1 == .ls && bound.any (lineMeets l.2)
  let sc := pinScope s w scope
  (pinAt s w sc (mine.map Prod.snd) fun p => p.uid == w.uid || bound.any (lineMeets p.line)).modWave w.uid fun x =>
    { x with dirty := x.dirty.filter fun l => !mine.contains l }

/-- A release waits for the wave's logged stores to the bound regions, which it carries (R50, R113). -/
def releaseWaits (s : State) (w : Wave) (addr : Word) : Bool :=
  match rangeLoc s w .generic addr with
  | none => false
  | some obj =>
    let bound := boundRegions s w obj
    w.log.any fun l => l.path == .ls && l.op.kind.writes && (opRanges s w l.op).any fun r => bound.any (rangesMeet r)

/-- A global address lies in an enabled halo window of its ASID, where a peer's HALO may signal (R112, R311). -/
def inHaloWindow (s : State) (asid va : Nat) : Bool :=
  s.haloWindows.any fun e => e.2.enabled && decide (e.2.base ≤ va) && decide (va < e.2.base + e.2.len) &&
    (s.ctx? e.2.owner e.2.ctx).any fun c => c.asid == asid

/-- The scope of a barrier or signal (R112). A barrier in a halo window is one that HALO may signal from a peer chip (log
entry 82). -/
def objScope (s : State) (asid : Nat) (t : Target) : Nat :=
  match t with
  | .global va => if inHaloWindow s asid va then 6 else 5
  | _ => 3

/-! ## The instructions' accesses (R155 to R159) -/

/-- What a synchronisation instruction came to. -/
inductive SyncOut where
  | done (s : State) (writes : List RegWrite) (lat : Nat) (ss : Nat)
  /-- it parks: how, from the completion and the order of its parking -/
  | park (s : State) (mk : Nat → Nat → Park) (ss : Nat)
  | stop (r : MemResult)

/-- The held item of an arrival or signal on a global object of an unchecked run (R357). -/
def noteHeld (s : State) (a : Actor) (t : Target) (x : HeldItem) : State :=
  match t with
  | .global _ =>
    if a.held then
      match s.block? a.lid a.bid a.run with
      | some b => s.setBlock { b with heldItems := b.heldItems ++ [x] }
      | none => s
    else s
  | _ => s

/-- The SS word of an arrival or signal: at a global object's address (R358). -/
def syncWord (t : Target) (data : Nat) : Nat := match t with | .global va => ssWord va (data % 2 ^ 32) | _ => 0

/-- An arrival performed for ARRIVE and ARRWAIT. -/
def doArrive (s : State) (w : Wave) (op : MemOp) (edge : Word) : Except MemResult (ObjAt × State) :=
  let a := waveActor s w
  match accessObj s w a op.base 16 16 true op with
  | (.error r, _) => .error r
  | (.ok o, s1) =>
    match s1.waveBlock w with
    | none => .error (.trap .barrierMisuse op.base none)
    | some b =>
      let s2 := releaseObj s1 w o.loc (objScope s1 a.asid o.target)
      let phase := (readBarrier s2 a o).phase
      match arriveAt s2 a (some w) b o op.arg.toNat (homeLatency s w o.target) edge with
      | none => .error (.trap .barrierMisuse op.base none)
      | some s3 =>
        let s4 := noteHeld (addSS s3 a (syncWord o.target op.arg.toNat)) a o.target (.arrive o.loc op.arg.toNat)
        .ok (o, (noteGuards s4 w.uid [(o.target, 16)]).modWave w.uid fun x => x.recordArrival op.base phase)

/-- A wait on a barrier's phase (R156). -/
def doWaitb (s : State) (w : Wave) (op : MemOp) (arrwait : Bool) (ss : Nat) : SyncOut :=
  let a := waveActor s w
  match accessObj s w a op.base 16 16 false op with
  | (.error r, _) => .stop r
  | (.ok o, s1) =>
    let x := readBarrier s1 a o
    let s2 := noteGuards s1 w.uid (if arrwait then [] else [(o.target, 16)])
    if x.malformed then .stop (.trap .barrierMisuse op.base none)
    else
      match w.arrivals.find? fun r => r.addr == op.base with
      | some r =>
        if r.phase != x.phase then
          .done (dropBound s2 w o.loc) (destAll op.dest op.mask (w64 (b2n x.phase))) (homeLatency s w o.target) ss
        else .park s2 (fun n t => .barrier o.loc x.phase op.dest arrwait n t) ss
      | none => .park s2 (fun n t => .barrier o.loc x.phase op.dest arrwait n t) ss

/-- SIGNAL (R158). -/
def doSignal (s : State) (w : Wave) (op : MemOp) (edge : Word) : SyncOut :=
  let a := waveActor s w
  match accessObj s w a op.base 16 16 true op with
  | (.error r, _) => .stop r
  | (.ok o, s1) =>
    let s2 := releaseObj s1 w o.loc (objScope s1 a.asid o.target)
    match signalAt s2 a (some w) w.fn w.ctx o op.arg (homeLatency s w o.target) edge with
    | none => .stop (.trap .barrierMisuse op.base none)
    | some s3 =>
      let ss := syncWord o.target op.arg.toNat
      let s4 := noteHeld (addSS s3 a ss) a o.target (.signal o.loc op.arg)
      .done (noteGuards s4 w.uid [(o.target, 16)]) [] (homeLatency s w o.target) ss

/-- SIGWAIT (R158). -/
def doSigwait (s : State) (w : Wave) (op : MemOp) : SyncOut :=
  let a := waveActor s w
  match accessObj s w a op.base 16 16 false op with
  | (.error r, _) => .stop r
  | (.ok o, s1) =>
    let bs := readTarget s1 a o.pa 16 o.target
    let s2 := noteGuards s1 w.uid [(o.target, 16)]
    if field bs 8 8 != 0 then .stop (.trap .barrierMisuse op.base none)
    else if op.arg.toNat ≤ field bs 0 8 then
      .done (dropBound s2 w o.loc) (destAll op.dest op.mask (w64 (field bs 0 8))) (homeLatency s w o.target) 0
    else .park s2 (fun n t => .signal o.loc op.arg op.dest n t) 0

/-- BIND and UNBIND (R159): `arg` the length, `arg2` the region's base. -/
def doBind (s : State) (w : Wave) (op : MemOp) (on : Bool) : SyncOut :=
  let a := waveActor s w
  match accessObj s w a op.base 8 8 false op with
  | (.error r, _) => .stop r
  | (.ok o, s1) =>
    let mine := s1.bindings.filter fun b => b.obj == o.loc
    let others := s1.bindings.filter fun b => !(b.obj == o.loc && b.base == op.arg2)
    let lat := homeLatency s w o.target
    if on then
      if op.arg = 0 || op.arg.toNat > 2 ^ 40 then .stop (.trap .barrierMisuse op.base none)
      else if mine.any fun b => b.base == op.arg2 then
        .done { s1 with bindings := s1.bindings.map fun b =>
          if b.obj == o.loc && b.base == op.arg2 then { b with len := op.arg.toNat, lid := w.lid } else b } [] lat 0
      else if 8 ≤ mine.length then .stop (.trap .barrierMisuse op.base none)
      else
        .done { s1 with bindings := s1.bindings ++ [{ obj := o.loc, base := op.arg2, len := op.arg.toNat, lid := w.lid }] }
          [] lat 0
    else .done { s1 with bindings := others } [] lat 0

/-- A synchronisation instruction performed at its object's home. -/
def performSync (s : State) (w : Wave) (op : MemOp) (edge : Word) : SyncOut :=
  match op.kind with
  | .arrive =>
    match doArrive s w op edge with
    | .error r => .stop r
    | .ok (o, s1) => .done s1 [] (homeLatency s w o.target) (syncWord o.target op.arg.toNat)
  | .arrwait =>
    -- a wait-resume ARRWAIT performs the wait half only (R42, R157)
    if op.option then doWaitb s w op true 0
    else
      match doArrive s w op edge with
      | .error r => .stop r
      | .ok (o, s1) =>
        match s1.wave? w.uid with
        | some w1 => doWaitb s1 w1 op true (syncWord o.target op.arg.toNat)
        | none => .done s1 [] 1 0
  | .waitb => doWaitb s w op false 0
  | .signal => doSignal s w op edge
  | .sigwait => doSigwait s w op
  | .bind => doBind s w op true
  | _ => doBind s w op false

/-- The instruction is a wait, whose completion is an acquire (R112). -/
def MemKind.waits : MemKind → Bool
  | .waitb | .arrwait | .sigwait => true
  | _ => false

/-- The instruction releases (R112): it carries the writes to its object's bound regions. -/
def MemOp.releases (op : MemOp) : Bool :=
  match op.kind with
  | .arrive | .signal => true
  | .arrwait => !op.option
  | _ => false

/-- A misuse of an object that lies in a guard granule leaves its report too: the object was read (R219). -/
def guardMisuse (s : State) (e : Env) (op : MemOp) : Effect → Effect
  | .trap .barrierMisuse lanes addr detail =>
    match op.kind, resolve s e.w .generic op.base with
    | .bind, _ | .unbind, _ => .trap .barrierMisuse lanes addr detail
    | _, .ok t =>
      (match guardHit s 16 t with
       | some h => .trapNoted (e.w.guardAccess h).guardRep e.w.brokenPins .barrierMisuse lanes addr detail
       | none => .trap .barrierMisuse lanes addr detail)
    | _, .error _ => .trap .barrierMisuse lanes addr detail
  | r => r

/-- A synchronisation instruction issued by a path (R155 to R159). One that parks holds its destination's place in the order
of results (R135). -/
def syncRun (e : Env) (s : State) (op : MemOp) : Effect :=
  if fenced e.w .ls || overlapsLog s e.w op || (op.releases && releaseWaits s e.w op.base) then .waitFor 6
  else
    match performSync s e.w op e.iss.bundle with
    | .done s1 writes lat ss =>
      let r := pend (s1.modWave e.w.uid fun w => w.modPath e.iss.place fun p => { p with waitResume := false }) e (some lat)
        writes .ls op.kind.writes ss
      .done (if op.kind.waits then acquireUntil r.2 e.w.uid r.1 else r.2)
    | .park s1 mk ss =>
      let r := pend { s1 with counter := s1.counter + 1 } e none (destAll op.dest op.mask 0) .none false ss
      .done (r.2.modWave e.w.uid fun w => w.modPath e.iss.place (parkedAt e.iss.bundle e.iss.slot (mk r.1 s1.counter)))
    | .stop r =>
      let eff := guardMisuse s e op (memOutcome e .ls op.kind.writes r)
      -- a logged wait keeps its path at the wait until it is replayed
      if op.kind.waits then holdLogged e eff else eff

end Sys2Proof.Machine
end

