-- ==== Sys2Proof/Machine/Transaction.lean ====
section
/-! DEFINITION. The atomic log of a chosen block (R264, R356), per-lane transactions (R256 to R262), and elided sections
(R263). -/

namespace Sys2Proof.Machine

/-! ## The atomic log -/

/-- The wave's run is that of a chosen block not yet released. -/
def uncheckedRun (s : State) (w : Wave) : Bool := runHeld s w.lid w.bid w.run
/-- The original's atomics are logged (R264). -/
def logs (s : State) (w : Wave) : Bool := uncheckedRun s w && w.run == .original
/-- A shadow or tiebreak performs nothing at home, and is answered from the log (R264). -/
def replays (s : State) (w : Wave) : Bool := uncheckedRun s w && (w.run == .shadow || w.run == .tiebreak)

/-- The entries of a context's log area in use (R356). -/
def logUsed (s : State) (fn ctx : Nat) : Nat :=
  let made := (s.atomicLog.filter fun e => (s.launch? e.1).any fun l => l.inCtx fn ctx).length
  -- the requests on their way make their entries at their homes
  let coming : AtomicReq → Nat := fun r =>
    match s.anyWave? r.uid with
    | some w => if w.fn == fn && w.ctx == ctx && logs s w then (r.entry.op.lanes.filter fun l =>
        match resolve s w r.entry.op.form l.addr with | .ok (.global _) => true | _ => false).length else 0
    | none => 0
  made + sumNat (s.atomics.map coming)

/-- The log area takes `n` more entries of 32 bytes (R356). -/
def logRoom (s : State) (w : Wave) (n : Nat) : Bool :=
  !logs s w || (match s.waveCtx w with
    | some c => decide (logUsed s w.fn w.ctx + n ≤ c.logSize.toNat / 32)
    | none => true)

/-- The next place of a wave's lane in the log. -/
def logNext (s : State) (w : Wave) (lane : Nat) : Nat × State :=
  match s.waveBlock w with
  | none => (0, s)
  | some b =>
    let k := 64 * w.waveId + lane
    let n := mget 0 b.atomicIndex k
    (n, s.setBlock { b with atomicIndex := mset 0 b.atomicIndex k (n + 1) })

/-- The next places of several lanes. -/
def logNexts (s : State) (w : Wave) : List Nat → List Nat × State
  | [] => ([], s)
  | l :: ls =>
    let r := logNext s w l
    let t := logNexts r.2 w ls
    (r.1 :: t.1, t.2)

/-- The lane a logged access counts under: a scalar form counts apart, under its path's lowest lane. -/
def logLane (scalar : Bool) (mask : Mask) (lane : Nat) : Nat := if scalar then 32 + (lanesOf mask).headD 0 else lane

/-- An entry made for the original (R264, R356). -/
def logPut (s : State) (w : Wave) (lane index : Nat) (addr : Word) (operand returned : Nat) : State :=
  if logs s w then
    let x : AtomicLogEntry := { waveId := w.waveId, lane := lane, index := index, addr := addr, operand := operand,
                                returned := returned }
    let s1 := { s with atomicLog := s.atomicLog ++ [(w.lid, w.bid, x)] }
    match s1.waveBlock w with
    | some b => s1.setBlock { b with atomics := true }
    | none => s1
  else s

/-- What the log answers a shadow or tiebreak: the value logged, with a departure noted where the log holds no such
entry or other operands (R264). -/
def logGet (s : State) (w : Wave) (lane index : Nat) (addr : Word) (operand : Nat) : Nat × State :=
  let depart : State → State := fun s => match s.waveBlock w with
    | some b => s.setBlock { b with departed := true }
    | none => s
  match s.atomicLog.find? fun e => e.1 == w.lid && e.2.1 == w.bid && e.2.2.waveId == w.waveId && e.2.2.lane == lane &&
      e.2.2.index == index with
  | some e => (e.2.2.returned, if e.2.2.addr == addr && e.2.2.operand == operand then s else depart s)
  | none => (Config.unloggedValue addr s.counter, depart { s with counter := s.counter + 1 })

/-! ## Transactional lanes -/

/-- A lane's transaction. -/
def Wave.txLane (w : Wave) (l : Nat) : Option TxLane := w.tx.find? fun t => t.lane == l
/-- The lane is transactional (R256). -/
def Wave.inTx (w : Wave) (l : Nat) : Bool := (w.txLane l).isSome
/-- The wave with one lane's transaction changed. -/
def Wave.modTx (w : Wave) (l : Nat) (f : TxLane → TxLane) : Wave :=
  { w with tx := w.tx.map fun t => if t.lane == l then f t else t }
/-- The entries of the wave across its lanes (R258). -/
def Wave.txEntries (w : Wave) : Nat := sumNat (w.tx.map fun t => t.sectors.length)

/-- A byte a SCOND of the elided section wrote to its lock, which the wave's own reads see (R263). -/
def Wave.lockByte (w : Wave) (a : Nat) : Option Byte :=
  w.tx.findSome? fun t => t.sectors.findSome? fun x =>
    if x.sector = a / 64 && x.locks.contains (a % 64) then mfind x.writes (a % 64) else none

/-- Memory's bytes as a lane's transaction sees them (R256). -/
def txSees (w : Wave) (t : TxLane) (va : Nat) (mem : List Byte) : List Byte :=
  (List.range mem.length).map fun i =>
    let a := va + i
    let own := match t.sectors.find? fun x => x.sector == a / 64 with
      | some x => mfind x.writes (a % 64)
      | none => none
    match own with
    | some b => b
    | none => (w.lockByte a).getD (mem.getD i 0)

/-- One sector of a lane's sets changed, entered when it is new. -/
def TxLane.modSector (t : TxLane) (sector : Nat) (f : TxSector → TxSector) : TxLane :=
  if t.sectors.any fun x => x.sector == sector then
    { t with sectors := t.sectors.map fun x => if x.sector == sector then f x else x }
  else { t with sectors := t.sectors ++ [f { sector := sector, readVal := none, writes := [], locks := [] }] }

/-- A sector that was read, with the value first read (R256). -/
def TxSector.noteRead (val : List Byte) (x : TxSector) : TxSector :=
  match x.readVal with
  | some _ => x
  | none => { x with readVal := some val }

/-- Bytes written into a sector's write set; `lock` marks those of a SCOND to the lock line (R263). -/
def TxSector.noteWrite (off : Nat) (bytes : List Byte) (lock : Bool) (x : TxSector) : TxSector :=
  let offs := (List.range bytes.length).map (off + ·)
  let kept := x.locks.filter fun o => !offs.contains o
  { x with
    writes := (List.range bytes.length).foldl (fun m i => mput m (off + i) (bytes.getD i 0)) x.writes
    locks := if lock then kept ++ offs else kept }

/-- The actor of an access performed at its home at once, whatever the run holds (R129, R239). -/
def committedActor (s : State) (w : Wave) : Actor := { waveActor s w with held := false, l1 := false }

/-- What a transactional load of an aborted lane writes (R257). -/
def txZero (op : MemOp) (l : LaneAcc) : List RegWrite :=
  if op.kind.writes then [] else loadWrites op l (List.replicate l.width 0)

/-- The lane aborts with a status. -/
def abortLane (s : State) (uid l status code : Nat) : State :=
  s.modWave uid fun w => w.modTx l fun t => t.abort status code

/-- What one transactional access comes to: the registers it writes and its words of SS. -/
structure TxOut where
  state : State
  writes : List RegWrite
  ss : Nat
  deriving DecidableEq, Repr

/-- The data a transactional access hands to the log with its address (R264). -/
def txOperand (op : MemOp) (l : LaneAcc) : Nat := if op.kind.writes then leNat (storeBytes op.kind l) else 0

/-- The words of SS of a transactional store: its operand's (R358, log entry 83). -/
def txWords (op : MemOp) (l : LaneAcc) (va : Nat) : Nat := if op.kind.writes then ssOfWrite va (storeBytes op.kind l) else 0

/-- The words of a transactional store counted: in the sums of an unchecked run at once (R358), and among those its lane brings
to the launch checksum when it commits (R417), unless the store is dropped. -/
def countTx (s : State) (w : Wave) (lane n : Nat) (kept : Bool) : State :=
  let s1 := match (s.waveBlock w).filter Block.unchecked with
    | some b => s.setBlock { b with ss := b.ss + w64 n, txOpen := b.txOpen + w64 n }
    | none => s
  if kept then s1.modWave w.uid fun x => x.modTx lane fun t => { t with ss := t.ss + w64 n } else s1

/-- The words of the stores that a commit performs: they count in the launch checksum (R417). -/
def commitSS (s : State) (w : Wave) (x : Word) : State :=
  match (s.waveBlock w).filter Block.unchecked, s.launch? w.lid with
  | some b, _ => s.setBlock { b with txOpen := b.txOpen - x }
  | none, some l => s.setLaunch { l with checksum := l.checksum + x }
  | none, none => s

/-- What a shadow's or tiebreak's transactional access comes to: nothing is performed, and a load returns the value logged
(R264). -/
def txReplay (s : State) (w : Wave) (op : MemOp) (l : LaneAcc) (va : Nat) : TxOut :=
  let key := logLane op.scalar op.mask l.lane
  let n := logNext s w key
  let g := logGet n.2 w key n.1 l.addr (txOperand op l)
  { state := countTx g.2 w l.lane (txWords op l va) true
    writes := if op.kind.writes then [] else loadWrites op l (leBytes l.width g.1), ss := txWords op l va }

/-- A transactional access handed to the original's log, with the value it returned (R264). -/
def txLogged (s : State) (w : Wave) (op : MemOp) (l : LaneAcc) (va returned : Nat) (kept : Bool) (writes : List RegWrite) :
    TxOut :=
  let key := logLane op.scalar op.mask l.lane
  let n := logNext s w key
  { state := countTx (logPut n.2 w key n.1 l.addr (txOperand op l) returned) w l.lane (txWords op l va) kept
    writes := writes, ss := txWords op l va }

/-- One transactional lane's load or store of global memory (R256, R258, R262). -/
def txAccess (s : State) (uid : Nat) (op : MemOp) (l : LaneAcc) (va : Nat) (lock : Bool) : TxOut :=
  match s.wave? uid with
  | none => { state := s, writes := [], ss := 0 }
  | some w =>
    match w.txLane l.lane with
    | none => { state := s, writes := [], ss := 0 }
    | some t =>
      let dropped : State → TxOut := fun s => txLogged s w op l va 0 false (txZero op l)
      if replays s w then txReplay s w op l va
      else if t.status ≠ 0 then dropped s
      else
        let a := committedActor s w
        match xlateParts s a (if op.kind.writes then .write else .read) [(va, l.width)] with
        | (.error (.fault x), s1) => dropped (postFault (abortLane s1 uid l.lane 6 0) x 0 (waveRequester w) .none)
        | (.error _, s1) => dropped s1
        | (.ok ps, s1) =>
          let pa := (ps.head?.map fun x => x.2.1).getD 0
          let sector := va / 64
          if !(t.sectors.any fun x => x.sector == sector) && decide (64 ≤ w.txEntries) then dropped (abortLane s1 uid l.lane 3 0)
          else if op.kind.writes then
            txLogged (s1.modWave uid fun x => x.modTx l.lane fun t =>
              t.modSector sector (TxSector.noteWrite (va % 64) (storeBytes op.kind l) lock)) w op l va 0 (!lock) []
          else
            let all := taggedBytes s1 a.asid (va - va % 64) (pa - va % 64) 64
            let seen := txSees w t va (slice all (va % 64) l.width)
            txLogged (s1.modWave uid fun x => x.modTx l.lane fun t => t.modSector sector (TxSector.noteRead all))
              w op l va (leNat seen) true (loadWrites op l seen)

/-- The transactional accesses of several lanes, in ascending order. -/
def txAccesses (s : State) (uid : Nat) (op : MemOp) (lock : Bool) : List (LaneAcc × Nat) → TxOut
  | [] => { state := s, writes := [], ss := 0 }
  | (l, va) :: rest =>
    let r := txAccess s uid op l va lock
    let t := txAccesses r.state uid op lock rest
    { state := t.state, writes := r.writes ++ t.writes, ss := r.ss + t.ss }

/-- The global address of a lane's access. -/
def globalOf (s : State) (w : Wave) (form : AddrForm) (addr : Word) : Option Nat :=
  match resolve s w form addr with
  | .ok (.global va) => some va
  | _ => none

/-- The lanes of an operation that are transactional accesses: transactional, and to global memory (R256). -/
def txPart (s : State) (w : Wave) (op : MemOp) : List (LaneAcc × Nat) :=
  op.lanes.filterMap fun l => if w.inTx l.lane then (globalOf s w op.form l.addr).map fun va => (l, va) else none

/-- What stops transactional accesses as a whole: a live lane's page is frozen, pinned elsewhere or being reclassified, which
makes the instruction wait, or one is refused inside a trap handler, which is a double fault (R46). -/
def txBlocked (s : State) (w : Wave) (writes : Bool) (ls : List (LaneAcc × Nat)) : Option XStop :=
  if replays s w then none
  else ls.findSome? fun (l, va) =>
    if ((w.txLane l.lane).map TxLane.status).getD 0 ≠ 0 then none
    else
      match (xlateParts s (committedActor s w) (if writes then .write else .read) [(va, l.width)]).1 with
      | .error (.fault x) => if w.held.isSome then some (.fault x) else none
      | .error e => some e
      | .ok _ => none

/-- A load or store whose transactional lanes go to their sets and whose other lanes go to memory (R256). -/
def performMixed (s : State) (w : Wave) (op : MemOp) : MemResult :=
  match txPart s w op with
  | [] => performLanes s w op
  | tx =>
    let align := (op.lanes.head?.map LaneAcc.width).getD 1
    match firstFailure (laneChecks s w op.form align op.kind.writes) op.lanes with
    | some f => checkTrap op.form f
    | none =>
      match txBlocked s w op.kind.writes tx with
      | some x => .stop s x op
      | none =>
        if !logRoom s w tx.length then .stop s .noLog op
        else
          let plain := op.lanes.filter fun l => !tx.any fun x => x.1.lane == l.lane
          match performLanes s w { op with lanes := plain } with
          | .ok s1 writes lat ss =>
            let r := txAccesses s1 w.uid op false tx
            .ok r.state (writes ++ r.writes) 
              (Nat.max lat (accessLatency s w (!op.kind.writes) false (tx.map fun x => (.global x.2, x.1.width)))) (ss + r.ss)
          | .stop s1 x _ => .stop s1 x op
          | r => r

/-! ## Elided sections and unsupported instructions -/

/-- The section aborts: nothing is written, and its paths resume at the LRES, which then executes once as a plain LRES
(R263). -/
def abortSection (s : State) (uid : Nat) (x : Elision) : State := s.modWave uid fun w => w.endSection x

/-- After an instruction inside a section: if any lane aborted, every lane does (R263). -/
def sectionEnd (e : Env) : Effect → Effect
  | .done s =>
    match s.wave? e.w.uid with
    | some w => match w.elisions.find? fun x => !x.plain && w.tx.any fun t => x.lanes.contains t.lane && t.status ≠ 0 with
      | some x => .done (abortSection s e.w.uid x)
      | none => .done s
    | none => .done s
  | r => r

/-- An instruction that no transaction supports (R257): the transactional ones of its lanes abort and it is performed for
the others; where those of the elided section are among them, the section aborts instead. `f` is given the lanes it is
performed for. -/
def unsupported (e : Env) (s : State) (lanes : List Nat) (f : State → (Nat → Bool) → Effect) : Effect :=
  match lanes.filter e.w.inTx with
  | [] => f s fun _ => true
  | tx =>
    match e.w.elisions.find? fun x => !x.plain && tx.any fun l => x.lanes.contains l with
    | some x => .done (abortSection s e.w.uid x)
    | none => f (tx.foldl (fun s l => abortLane s e.w.uid l 5 0) s) fun l => !tx.contains l

/-- A wave-level instruction that no transaction supports: it is performed, and its path's transactional lanes abort, whose
destinations it does not write (R257). `f` is given the mask of the others. -/
def unsupportedWave (e : Env) (s : State) (f : State → Mask → Effect) : Effect :=
  unsupported e s e.lanes fun s keep => f s (maskOf (e.lanes.filter keep))

/-- A per-lane memory operation that no transaction supports. -/
def unsupportedOp (e : Env) (s : State) (op : MemOp) (f : State → MemOp → Effect) : Effect :=
  unsupported e s (op.lanes.map LaneAcc.lane) fun s keep => f s { op with lanes := op.lanes.filter fun l => keep l.lane }

/-! ## Commit -/

/-- The sector has bytes that a commit writes. -/
def TxSector.writesAny (x : TxSector) : Bool := x.writes.any fun e => !x.locks.contains e.1

/-- Two lanes conflict: a sector one writes is in the other's read or write set (R259). -/
def txConflict (a b : TxLane) : Bool :=
  a.sectors.any fun x => b.sectors.any fun y => x.sector == y.sector &&
    ((x.writesAny && (y.readVal.isSome || y.writesAny)) || (y.writesAny && (x.readVal.isSome || x.writesAny)))

/-- Stage 1 of a commit: a lane that conflicts with a lower surviving one aborts (R259). -/
def txStage1 : List TxLane → List TxLane → List TxLane
  | [], _ => []
  | t :: ts, live =>
    if t.status ≠ 0 then t :: txStage1 ts live
    else if live.any fun x => txConflict x t then t.abort 1 0 :: txStage1 ts live
    else t :: txStage1 ts (live ++ [t])

/-- A sector's physical address for its commit, or what stops it. -/
def txSectorPa (s : State) (a : Actor) (x : TxSector) : Except XStop Nat :=
  match (xlateParts s a (if x.writesAny then .write else .read) [(64 * x.sector, 64)]).1 with
  | .error e => .error e
  | .ok ps => .ok ((ps.head?.map fun p => p.2.1).getD 0)

/-- Stage 2 for one lane: each read-set sector still holds the value that was read (R259). A page no longer there aborts
the lane as an X cause does (R262). -/
def txValidate (s : State) (a : Actor) (requester : Nat) (t : TxLane) : State × TxLane :=
  t.sectors.foldl (fun (r : State × TxLane) x =>
    if r.2.status ≠ 0 then r
    else
      match txSectorPa r.1 a x with
      | .error (.fault f) => (postFault r.1 f 0 requester .none, r.2.abort 6 0)
      | .error _ => r
      | .ok pa =>
        match x.readVal with
        | some v => if taggedBytes r.1 a.asid (64 * x.sector) pa 64 == v then r else (r.1, r.2.abort 2 0)
        | none => r) (s, t)

/-- Stage 2 for every lane. -/
def txStage2 (s : State) (a : Actor) (requester : Nat) : List TxLane → State × List TxLane
  | [] => (s, [])
  | t :: ts =>
    let r := txValidate s a requester t
    let u := txStage2 r.1 a requester ts
    (u.1, r.2 :: u.2)

/-- Stage 3 for one lane: its write set is written (R259). -/
def txWriteBack (s : State) (a : Actor) (t : TxLane) : State :=
  if t.status ≠ 0 then s
  else t.sectors.foldl (fun s x =>
    match txSectorPa s a x with
    | .ok pa => x.writes.foldl (fun s e =>
        if x.locks.contains e.1 then s else writeGlobal s a (64 * x.sector + e.1) (pa + e.1) [e.2]) s
    | .error _ => s) s

/-- What stops a commit as a whole: a page of a live lane's sector is frozen, pinned elsewhere or being reclassified, or
is refused inside a trap handler (R46). -/
def txCommitStop (s : State) (w : Wave) (ts : List TxLane) : Option XStop :=
  ts.findSome? fun t => if t.status ≠ 0 then none else t.sectors.findSome? fun x =>
    match txSectorPa s (committedActor s w) x with
    | .error (.fault f) => if w.held.isSome then some (.fault f) else none
    | .error e => some e
    | .ok _ => none

/-- The status word of R260. A word of TCOMMIT shows no entries: a lane that has committed or aborted holds none (DESIGN CHOICE,
log entry 109). -/
def txWord (t : TxLane) : Nat := t.status + t.code * 2 ^ 32

/-- A commit's latency: the farthest of its sectors' homes. -/
def txLatency (s : State) (w : Wave) (ts : List TxLane) : Nat :=
  (ts.flatMap fun t => t.sectors).foldl (fun m x => Nat.max m (homeLatency s w (.global (64 * x.sector)))) 2

/-- The words of the stores of the lanes that have committed. -/
def committedWords (ts : List TxLane) : Word := (ts.filter fun t => t.status == 0).foldl (fun x t => x + t.ss) 0

/-- The lanes of a commit whose write sets meet a sealed region (R126), with the address of the first byte that does. TCOMMIT and
the STREL that closes a section then raise SEALED_STORE, and nothing commits (DESIGN CHOICE, log entry 111: the spec tests a
store's seals when it issues, and is silent on a region sealed since). -/
def txSealed (s : State) (w : Wave) (ts : List TxLane) : List Nat × Word :=
  let bytes : TxLane → List Nat := fun t => if t.status ≠ 0 then [] else t.sectors.flatMap fun x =>
    (x.writes.filter fun e => !x.locks.contains e.1).map fun e => 64 * x.sector + e.1
  let hit : TxLane → List Nat := fun t => (bytes t).filter fun va => sealedFor s w va 1
  ((ts.filter fun t => !(hit t).isEmpty).map TxLane.lane, w64 ((ts.flatMap hit).headD 0))

/-- A commit touches a location that an access in the wave's operand log still has to reach (R50). -/
def txBehindLog (s : State) (w : Wave) (ts : List TxLane) : Bool :=
  ts.any fun t => t.sectors.any fun x => logMeets s w (64 * x.sector) 64

/-- The three stages over some lanes; `whole` writes nothing unless every lane survives (R259, R263). Answers the lanes
with their statuses. -/
def txCommit (s : State) (w : Wave) (ts : List TxLane) (whole : Bool) : State × List TxLane :=
  let a := committedActor s w
  let r := txStage2 s a (waveRequester w) (txStage1 ts [])
  let fails := whole && r.2.any fun t => t.status ≠ 0
  (if fails then r.1 else commitSS (r.2.foldl (fun s t => txWriteBack s a t) r.1) w (committedWords r.2), r.2)

end Sys2Proof.Machine
end

