-- ==== Sys2Proof/Machine/LoadStore.lean ====
section
/-! DEFINITION. The load/store engine's instructions (R209 to R236): per-lane and tile accesses, compress and expand,
regions, acquire and release, and the fences. -/

namespace Sys2Proof.Machine

/-! ## Building a memory operation -/

/-- A memory operation with everything but its kind and operands at its plain value. -/
def plainOp (kind : MemKind) : MemOp :=
  { kind := kind, form := .generic, lanes := [], dest := 0xD0, mask := 0, scalar := false, signed := false, scope := 0,
    option := false, base := 0, arg := 0, arg2 := 0, code := 0, vals := [], tile := [] }

/-- The lanes of a memory instruction whose D is `d`: lane 0 alone on the scalar side, ignoring the guard (R214). -/
def Env.memLanes (e : Env) (d : OpCode) : List Nat := if isSCode d then [0] else e.taking

/-- A lane's address (R214): base plus index times width. -/
def Env.address (e : Env) (a b : OpCode) (width : Nat) (l : Nat) : Word := e.u a + e.i b l * w64 width

/-- A load of every taking-part lane. -/
def loadOp (e : Env) (form : AddrForm) (d a b : OpCode) (width : Nat) (signed : Bool) : MemOp :=
  { plainOp .load with
    form := form, dest := d, mask := e.p.mask, scalar := isSCode d, signed := signed
    lanes := (e.memLanes d).map fun l =>
      { lane := l, addr := e.address a b width l, width := width, data := 0, data2 := 0 } }

/-- A store of every taking-part lane, of the data register's low bytes. -/
def storeOp (e : Env) (form : AddrForm) (d a b : OpCode) (width : Nat) : MemOp :=
  { plainOp .store with
    form := form, scalar := isSCode d
    lanes := (e.memLanes d).map fun l =>
      { lane := l, addr := e.address a b width l, width := width, data := e.x d l, data2 := 0 } }

/-- A per-lane access on the LS path; global accesses of transactional lanes go to their sets (R256). -/
def lanesRun (e : Env) (s : State) (op : MemOp) : Effect := sectionEnd e (memRun e .ls s op performMixed)

/-- A per-lane access that no transaction supports (R257). -/
def plainLanesRun (e : Env) (s : State) (op : MemOp) : Effect :=
  unsupportedOp e s op fun s op => memRun e .ls s op performLanes

/-! ## Loads and stores (R216) -/

def execLd8 (d a b : OpCode) (s : State) : Host.Outcome State Fault Refusal :=
  runInstr (.ld8 d a b) s fun e s => lanesRun e s (loadOp e .generic d a b 1 e.et.isSigned)

def execLd16 (d a b : OpCode) (s : State) : Host.Outcome State Fault Refusal :=
  runInstr (.ld16 d a b) s fun e s => lanesRun e s (loadOp e .generic d a b 2 e.et.isSigned)

def execLd32 (d a b : OpCode) (s : State) : Host.Outcome State Fault Refusal :=
  runInstr (.ld32 d a b) s fun e s => lanesRun e s (loadOp e .generic d a b 4 e.et.isSigned)

def execLd64 (d a b : OpCode) (s : State) : Host.Outcome State Fault Refusal :=
  runInstr (.ld64 d a b) s fun e s => lanesRun e s (loadOp e .generic d a b 8 e.et.isSigned)

def execSt8 (d a b : OpCode) (s : State) : Host.Outcome State Fault Refusal :=
  runInstr (.st8 d a b) s fun e s => lanesRun e s (storeOp e .generic d a b 1)

def execSt16 (d a b : OpCode) (s : State) : Host.Outcome State Fault Refusal :=
  runInstr (.st16 d a b) s fun e s => lanesRun e s (storeOp e .generic d a b 2)

def execSt32 (d a b : OpCode) (s : State) : Host.Outcome State Fault Refusal :=
  runInstr (.st32 d a b) s fun e s => lanesRun e s (storeOp e .generic d a b 4)

def execSt64 (d a b : OpCode) (s : State) : Host.Outcome State Fault Refusal :=
  runInstr (.st64 d a b) s fun e s => lanesRun e s (storeOp e .generic d a b 8)

def execLdl (d a b : OpCode) (s : State) : Host.Outcome State Fault Refusal :=
  runInstr (.ldl d a b) s fun e s => lanesRun e s { loadOp e .generic d a b 16 false with kind := .loadPair }

def execStl (d a b : OpCode) (s : State) : Host.Outcome State Fault Refusal :=
  runInstr (.stl d a b) s fun e s =>
    let op := storeOp e .generic d a b 16
    lanesRun e s { op with kind := .storePair, lanes := op.lanes.map fun l => { l with data2 := e.w.vreg (d.toNat + 1) l.lane } }

/-! ## Scratchpad and weight store (R217, R221, R222) -/

/-- The access width of SLD to NST: 2^w bytes, from literal bits 1:0 (R217). -/
def litWidth (lit : Word32) : Nat := 2 ^ litBits lit 0 2

def execSld (d a b : OpCode) (lit : Word32) (s : State) : Host.Outcome State Fault Refusal :=
  runInstr (.sld d a b lit) s fun e s => lanesRun e s (loadOp e .share d a b (litWidth lit) (bitOf lit.toNat 2))

def execSst (d a b : OpCode) (lit : Word32) (s : State) : Host.Outcome State Fault Refusal :=
  runInstr (.sst d a b lit) s fun e s => lanesRun e s (storeOp e .share d a b (litWidth lit))

def execNld (d a b : OpCode) (lit : Word32) (s : State) : Host.Outcome State Fault Refusal :=
  runInstr (.nld d a b lit) s fun e s =>
    lanesRun e s (loadOp e (.neighbour (litBits lit 8 3)) d a b (litWidth lit) (bitOf lit.toNat 2))

def execNst (d a b : OpCode) (lit : Word32) (s : State) : Host.Outcome State Fault Refusal :=
  runInstr (.nst d a b lit) s fun e s => lanesRun e s (storeOp e (.neighbour (litBits lit 8 3)) d a b (litWidth lit))

def execWld (d a b : OpCode) (s : State) : Host.Outcome State Fault Refusal :=
  runInstr (.wld d a b) s fun e s => lanesRun e s (loadOp e .weight d a b 8 false)

/-! ## Compress-store and expand-load (R223, R224) -/

/-- The selected lanes with their slots, in ascending order (R223). -/
def packedLanes (e : Env) (a p : OpCode) (data : Nat → Word) : List LaneAcc :=
  let sel := e.taking.filter fun l => bitOf (e.w.preg (p.toNat - 0xC0) l).toNat 0
  (List.range sel.length).map fun k =>
    let l := sel.getD k 0
    { lane := l, addr := e.u a + w64 (8 * k), width := 8, data := data l, data2 := 0 }

/-- The base of CSTR and XLD is a multiple of 8, whether or not a lane is selected (R223). -/
def packedRun (e : Env) (s : State) (a : OpCode) (op : MemOp) : Effect :=
  if (e.u a).toNat % 8 ≠ 0 && op.lanes.isEmpty then .raiseAt .misaligned (e.u a) else plainLanesRun e s op

def execCstr (d a p : OpCode) (s : State) : Host.Outcome State Fault Refusal :=
  runInstr (.cstr d a p) s fun e s =>
    packedRun e s a { plainOp .compressStore with lanes := packedLanes e a p (e.x d) }

def execXld (d a p : OpCode) (s : State) : Host.Outcome State Fault Refusal :=
  runInstr (.xld d a p) s fun e s =>
    packedRun e s a { plainOp .expandLoad with dest := d, mask := e.p.mask, lanes := packedLanes e a p fun _ => 0 }

/-! ## Tiles (R225 to R227) -/

/-- The values of a tile group, register by register: register `i` in lane `l` at place `32 i + l`. -/
def tileVals (e : Env) (d : OpCode) (out : Bool) : List Word :=
  (List.range (2 * tileRegs out)).flatMap fun i => (List.range 32).map fun l => e.w.vreg (d.toNat + i) l

/-- TLD's operation for the lanes of a mask (R225). -/
def tileLoadOp (e : Env) (d a b : OpCode) (lit : Word32) (keep : Mask) : MemOp :=
  { plainOp .tileLoad with
    dest := d, mask := keep, scope := litBits lit 0 3, option := bitOf lit.toNat 4, base := e.u a, arg := e.u b }

/-- TST's operation (R225). -/
def tileStoreOp (e : Env) (d a b : OpCode) (lit : Word32) : MemOp :=
  { plainOp .tileStore with
    scope := litBits lit 0 3, option := bitOf lit.toNat 4, base := e.u a, arg := e.u b
    vals := tileVals e d (bitOf lit.toNat 4) }

def execTld (d a b : OpCode) (lit : Word32) (s : State) : Host.Outcome State Fault Refusal :=
  runInstr (.tld d a b lit) s fun e s => unsupportedWave e s fun s keep =>
    memRun e .ls s (tileLoadOp e d a b lit keep) performTile

def execTst (d a b : OpCode) (lit : Word32) (s : State) : Host.Outcome State Fault Refusal :=
  runInstr (.tst d a b lit) s fun e s => unsupportedWave e s fun s _ => memRun e .ls s (tileStoreOp e d a b lit) performTile

/-! ## Prefetch and region operations (R228 to R233) -/

/-- A 256 B line fetched into the issuing core's L1, where it can be (R228). -/
def prefetch (s : State) (w : Wave) (addr : Word) : State :=
  match resolve s w .generic addr with
  | .ok (.global va) =>
    let a := waveActor s w
    let line := va / 256 * 256
    if pinnedAgainst s a.agent { space := .global a.asid, addr := line } then s
    else match xlate s a line 256 .read with
      | (.ok _ _, s1) => s1
      | _ => s
  | _ => s

/-- PREF fetches the taking-part lanes' lines, changes no value that any agent can read, and completes 1 clock after issue
(R228). -/
def execPref (a b : OpCode) (s : State) : Host.Outcome State Fault Refusal :=
  runInstr (.pref a b) s fun e s => e.noResult (e.taking.foldl (fun s l => prefetch s e.w (e.address a b 1 l)) s)

/-- The checks of a region operation (R229). -/
def regionCheck (base len : Word) (granule : Nat) : Option Cause :=
  let x := base.toNat
  let n := len.toNat
  if bits x 56 8 ≠ 0 || bits x 52 4 ≠ 0 then some .illegalAddress
  else if x % granule ≠ 0 || n % granule ≠ 0 then some .misaligned
  else if n = 0 || 2 ^ 40 < n || 2 ^ 52 < x + n then some .illegalAddress
  else none

/-- Whether a region operation must wait: it is an LS-path access behind fences (R116), and behind a logged access that it
overlaps (R50). -/
def regionWaits (e : Env) (s : State) (base len : Nat) : Bool := fenced e.w .ls || logMeets s e.w base len

/-- A region operation with its operands checked; no transaction supports one (R257). -/
def regionRun (e : Env) (s : State) (a b : OpCode) (granule : Nat) (f : State → Nat → Nat → Effect) : Effect :=
  match regionCheck (e.u a) (e.u b) granule with
  | some c => .raiseAt c (e.u a)
  | none =>
    if regionWaits e s (e.u a).toNat (e.u b).toNat then .waitFor 6
    else unsupportedWave e s fun s _ => f s (e.u a).toNat (e.u b).toNat

/-- The latency of a region's home (log entry 3). -/
def regionLatency (s : State) (w : Wave) (va : Nat) : Nat := homeLatency s w (.global va)

/-- A global line meets a region. -/
def lineInRegion (asid base len : Nat) (l : Loc) : Bool :=
  l.space == .global asid && decide (l.addr < base + len) && decide (base < l.addr + 256)

/-- SEAL at the lines' homes (R230). Every write to the region before it is performed at SYS: its lines reach DRAM, no
narrow-scope pin stays on them, and no later fence has them to perform (R118, R126). -/
def sealRange (s : State) (asid base len : Nat) : State :=
  let meets := lineInRegion asid base len
  let lines : List Loc := (linesIn s asid base len).map fun l => { space := .global asid, addr := 256 * l.line }
  let s1 := endScopePins (performAtSys s lines) fun p => meets p.line
  { s1 with
    seals := s1.seals ++ [(asid, base, len)]
    waves := s1.waves.map fun w => { w with dirty := w.dirty.filter fun d => !meets d.2 } }

/-- UNSEAL at the lines' homes: the untracked copies in the L1s are dropped (R126, R230). -/
def unsealRange (s : State) (asid base len : Nat) : State :=
  { s with
    l1 := s.l1.filter fun x => !(x.asid == asid && decide (256 * x.line < base + len) && decide (base < 256 * x.line + 256))
    seals := s.seals.flatMap fun (x : Nat × Nat × Nat) =>
      if x.1 = asid then (rangeMinus x.2.1 x.2.2 base len).map fun r => (asid, r.1, r.2) else [x] }

/-- A wave's commands in its core's channels that have not ended. -/
def waveCommands (s : State) (w : Wave) : List Command :=
  (s.core w.core).channels.flatMap fun ch => ch.filter fun c => c.uid == w.uid

/-- HALO's opcode (R74). -/
def opHalo : Nat := 0xC5

/-- An operation of a wave writes to a region of an address space. -/
def writesRegion (s : State) (w : Wave) (asid base len : Nat) (op : MemOp) : Bool :=
  op.kind.writes && (opRanges s w op).any (rangesMeet ({ space := .global asid, addr := base }, len))

/-- Atomics on their way to a region, whichever wave issued them (R126). -/
def atomicsTo (s : State) (asid base len : Nat) : Bool :=
  s.atomics.any fun r => (s.anyWave? r.uid).any fun w => writesRegion s w asid base len r.entry.op

/-- Writes that precede a SEAL and are still to be performed: the atomics on their way to the region, the wave's drains to it,
and its commands, whichever bytes they write (R126, R230). -/
def sealWaits (s : State) (w : Wave) (base len : Nat) : Bool :=
  atomicsTo s (s.waveAsid w) base len ||
    ((s.core w.core).tileOps.any fun t => t.uid == w.uid && writesRegion s w (s.waveAsid w) base len t.entry.op) ||
    !(waveCommands s w).isEmpty

/-- SEAL and UNSEAL: held by an unchecked run (R230, R357), and one word of SS (R358). -/
def sealRun (e : Env) (s : State) (base len : Nat) (on : Bool) : Effect :=
  let a := waveActor s e.w
  if on && sealWaits s e.w base len then .waitFor 6 else
  let s1 := if a.held then noteHeld s a (.global base) (if on then .seal a.asid base len else .unseal a.asid base len)
    else if on then sealRange s a.asid base len else unsealRange s a.asid base len
  let ss := ssWord base (len % 2 ^ 32)
  .done (pend (addSS s1 a ss) e (some (regionLatency s e.w base)) [] .ls true ss).2

def execSealRegion (a b : OpCode) (s : State) : Host.Outcome State Fault Refusal :=
  runInstr (.sealRegion a b) s fun e s => regionRun e s a b 256 fun s base len => sealRun e s base len true

def execUnsealRegion (a b : OpCode) (s : State) : Host.Outcome State Fault Refusal :=
  runInstr (.unsealRegion a b) s fun e s => regionRun e s a b 256 fun s base len => sealRun e s base len false

/-- The ways of an L2 set that pins hold (R231). -/
def pinnedWays (s : State) (asid line : Nat) : Nat :=
  ((s.pins.filter fun p => l2Set s p.asid p.line == l2Set s asid line).map fun p => (p.asid, p.line)).eraseDups.length

/-- One line pinned by a wave, unless its set's two ways are taken (R231). A line of an NC page, which no cache keeps (R380), is
marked and counted like any other (DESIGN CHOICE, log entry 108). -/
def pinLine (s : State) (w : Wave) (asid line : Nat) : State × Bool :=
  let known := s.pins.any fun p => p.asid == asid && p.line == line
  if !known && 2 ≤ pinnedWays s asid line then (s, false)
  else
    let mine := s.pins.any fun p => p.asid == asid && p.line == line && p.uid == w.uid
    (if mine then s else { s with pins := s.pins ++ [{ asid := asid, line := line, uid := w.uid, lid := w.lid }] }, true)

/-- Lines fetched and pinned in ascending order, with the number pinned (R231). -/
def pinLines (s : State) (w : Wave) (a : Actor) : List Nat → State × Nat
  | [] => (s, 0)
  | l :: ls =>
    let r := pinLine (xlate s a (256 * l) 256 .read).2 w a.asid l
    let t := pinLines r.1 w a ls
    (t.1, t.2 + b2n r.2)

/-- PIN with its operand values (R231): every page is present, and every line within reach, before any line is pinned. -/
def performPin (s : State) (w : Wave) (op : MemOp) : MemResult :=
  let a := { waveActor s w with l1 := false }
  let base := op.base.toNat
  let n := op.arg.toNat
  let pages := (List.range ((base + n - 1) / 65536 - base / 65536 + 1)).map fun k => (65536 * (base / 65536 + k), 0)
  let ls := linesOf base n
  match xlateParts s a .read pages with
  | (.error e, s1) => .stop s1 e op
  | (.ok _, s1) =>
    match ls.find? fun l => pinnedAgainst s1 a.agent { space := .global a.asid, addr := 256 * l } with
    | some _ => .stop s1 .pinned op
    | none =>
      match ls.findSome? fun l => if (classStep s1 a (256 * l)).isNone then some (256 * l / 65536) else none with
      | some page => .stop s1 (.blocked a.asid page) op
      | none =>
        let r := pinLines s1 w a ls
        .ok (r.1.modWave w.uid fun x => { x with pinAsked := ls.length, pinMade := r.2 }) [] 600 0

/-- PIN of a region (R231). -/
def pinRun (e : Env) (s : State) (base len : Nat) : Effect :=
  memRun e .ls s { plainOp .pin with base := w64 base, arg := w64 len } performPin

/-- UNPIN of a region ends the wave's own pins in it (R231). -/
def unpinRun (e : Env) (s : State) (base len : Nat) : Effect :=
  let ls := linesOf base len
  e.noResult { s with pins := s.pins.filter fun p =>
    !(p.uid == e.w.uid && p.asid == s.waveAsid e.w && ls.contains p.line) }

def execPin (a b : OpCode) (s : State) : Host.Outcome State Fault Refusal :=
  runInstr (.pin a b) s fun e s => regionRun e s a b 256 fun s base len => pinRun e s base len

def execUnpin (a b : OpCode) (s : State) : Host.Outcome State Fault Refusal :=
  runInstr (.unpin a b) s fun e s => regionRun e s a b 256 fun s base len => unpinRun e s base len

/-- The dirty sectors of a line that lie in a range, written back (R233). -/
def cleanRange (s : State) (base len : Nat) (l : L2Line) : State :=
  let inRange : Nat → Bool := fun k => decide (256 * l.line + 64 * k < base + len) && decide (base ≤ 256 * l.line + 64 * k)
  let clean : Nat × Sector → Nat × Sector := fun e => if inRange e.1 then (e.1, { e.2 with dirty := false }) else e
  { s with dram := flushSectors s.dram l.pa (l.sectors.filter fun e => inRange e.1) }.setLine
    { l with sectors := l.sectors.map clean }

/-- CINV writes the region's dirty sectors back and drops every cached copy of its lines (R233). -/
def cinvRun (e : Env) (s : State) (base len : Nat) : Effect :=
  e.finish ((linesIn s (s.waveAsid e.w) base len).foldl flushLine s) (regionLatency s e.w base) []

/-- CWB writes the region's dirty sectors back (R233). -/
def cwbRun (e : Env) (s : State) (base len : Nat) : Effect :=
  e.finish ((linesIn s (s.waveAsid e.w) base len).foldl (fun s l => cleanRange s base len l) s) (regionLatency s e.w base) []

def execCinv (a b : OpCode) (s : State) : Host.Outcome State Fault Refusal :=
  runInstr (.cinv a b) s fun e s => regionRun e s a b 64 fun s base len => cinvRun e s base len

def execCwb (a b : OpCode) (s : State) : Host.Outcome State Fault Refusal :=
  runInstr (.cwb a b) s fun e s => regionRun e s a b 64 fun s base len => cwbRun e s base len

/-! ## Acquire, release and fences (R234, R235) -/

/-- LDACQ's loads, with the L1's copies of each lock word's bound regions dropped (R115, R234). -/
def performAcquire (s : State) (w : Wave) (op : MemOp) : MemResult :=
  match performLanes s w op with
  | .ok s1 writes lat ss =>
    .ok (op.lanes.foldl (fun s l => match rangeLoc s w .generic l.addr with
      | some x => dropBound s w x
      | none => s) s1) writes lat ss
  | r => r

/-- LDACQ's operation. -/
def acquireOp (e : Env) (d a b : OpCode) (lit : Word32) : MemOp :=
  { loadOp e .generic d a b 8 false with kind := .loadAcquire, scope := litBits lit 0 3 }

/-- STREL's operation. -/
def releaseOp (e : Env) (d a b : OpCode) (lit : Word32) : MemOp :=
  { storeOp e .generic d a b 8 with kind := .storeRelease, scope := litBits lit 0 3 }

/-- LDACQ performed or logged: it is an acquire until its completion (R115). -/
def acquireRun (e : Env) (s : State) (op : MemOp) : Effect :=
  match memRun e .ls s op performAcquire with
  | .done s1 =>
    (match s1.wave? e.w.uid with
     | some w => .done (acquireUntil s1 w.uid (w.nextSeq - 1))
     | none => .done s1)
  | x => x

def execLdacq (d a b : OpCode) (lit : Word32) (s : State) : Host.Outcome State Fault Refusal :=
  runInstr (.ldacq d a b lit) s fun e s => unsupportedOp e s (acquireOp e d a b lit) fun s op => acquireRun e s op

/-- STREL's release (R114): each lock word's bound regions are performed at its scope. -/
def performRelease (s : State) (w : Wave) (op : MemOp) : MemResult :=
  match performLanes s w op with
  | .ok s1 writes lat ss =>
    let s2 := op.lanes.foldl (fun s l =>
      match s.wave? w.uid, resolve s w .generic l.addr with
      | some w1, .ok t => releaseObj s w1 (targetLoc (s.waveAsid w) t) op.scope
      | _, _ => s) s1
    .ok s2 writes lat ss
  | r => r

/-- A STREL to the lock line of an open section (R263): its lanes commit and the store is dropped, or the section
aborts. -/
def closeSection (e : Env) (s : State) (x : Elision) : Effect :=
  let ts := e.w.tx.filter fun t => x.lanes.contains t.lane
  let sealed := txSealed s e.w ts
  if fenced e.w .ls || fenced e.w .at || txBehindLog s e.w ts then .waitFor 6
  else if !sealed.1.isEmpty then .trap .sealedStore (some (maskOf sealed.1)) sealed.2 0
  else match txCommitStop s e.w ts with
    | some stop => memOutcome e .at true (.stop s stop (plainOp .storeRelease))
    | none =>
      let r := txCommit s e.w ts true
      if r.2.any fun t => t.status ≠ 0 then .done (abortSection r.1 e.w.uid x)
      else
        .done (pend (r.1.modWave e.w.uid fun w =>
          { w with tx := w.tx.filter (fun t => !x.lanes.contains t.lane), elisions := w.elisions.filter fun y => y != x }) e (some (txLatency s e.w ts)) []
          .at true 0).2

/-- An access of the operation lies in the lock line of a section. -/
def onLockLine (s : State) (w : Wave) (op : MemOp) (x : Elision) : Bool :=
  op.lanes.any fun l => match resolve s w op.form l.addr with
    | .ok t => (let y := targetLoc (s.waveAsid w) t; x.line == { y with addr := y.addr / 256 * 256 })
    | .error _ => false

/-- STREL outside a section: behind the logged stores its release carries, its stores and its release (R113, R234). -/
def releaseStore (e : Env) (s : State) (op : MemOp) : Effect :=
  if op.lanes.any fun l => releaseWaits s e.w l.addr then .waitFor 6 else memRun e .ls s op performRelease

def execStrel (d a b : OpCode) (lit : Word32) (s : State) : Host.Outcome State Fault Refusal :=
  runInstr (.strel d a b lit) s fun e s =>
    let op := releaseOp e d a b lit
    let plain := unsupportedOp e s op fun s op => releaseStore e s op
    match e.w.sectionOf e.p with
    | some x =>
      if onLockLine s e.w op x then
        match firstFailure (laneChecks s e.w .generic 8 true) op.lanes with
        | some f => (match checkTrap .generic f with
          | .trap c addr lanes => .trap c lanes addr 0
          | _ => plain)
        | none => closeSection e s x
      else plain
    | none => plain

/-- The access paths of a path mask (R13). -/
def pathsOf (mask : Nat) : List AccessPath :=
  (if bitOf mask 0 then [.ls] else []) ++ (if bitOf mask 1 then [.at] else []) ++ (if bitOf mask 2 then [.mx] else []) ++
    (if bitOf mask 3 then [.cp] else []) ++ (if bitOf mask 4 then [.wl] else []) ++ (if bitOf mask 5 then [.fb] else [])

/-- Every access on a path that precedes a fence has been performed (R116, R117). -/
def pathDone (s : State) (w : Wave) (f : Fence) (p : AccessPath) : Bool :=
  let mine := w.pending.all fun c => c.path != p || c.returned || decide (f.seqNo ≤ c.seqNo)
  mine && (match p with
    | .mx => w.liveContribs.isEmpty
    | .cp => (waveCommands s w).all fun c => c.op == opHalo
    | .fb => (waveCommands s w).all fun c => c.op != opHalo
    | _ => true)

/-- A fence's ordering holds (R116, R117). -/
def fenceHolds (s : State) (w : Wave) (f : Fence) : Bool :=
  (!f.needsLog || w.log.isEmpty) && f.paths.all fun p => pathDone s w f p

/-- The fences of a wave whose ordering now holds perform their lines at their scope (R118) and complete. -/
def settleFences (s : State) (uid : Nat) : State :=
  match s.wave? uid with
  | none => s
  | some w => w.fences.foldl (fun s f =>
      match s.wave? uid with
      | none => s
      | some w1 =>
        if f.ready || !fenceHolds s w1 f then s
        else
          let s1 := performScope s w1 f.scope (w1.dirty.filter fun l => f.paths.contains l.1)
          (s1.modWave uid fun x => { x with fences := x.fences.map fun g =>
            if g.seqNo = f.seqNo then { g with ready := true } else g }).schedule 1 (.instructionComplete uid f.seqNo)) s

/-- A fence over some access paths (R116, R117, R235). -/
def fenceRun (e : Env) (s : State) (scope : Nat) (paths : List AccessPath) : Effect :=
  let r := pend s e none [] .none false 0
  .done (settleFences (r.2.modWave e.w.uid fun w => { w with fences := w.fences ++
    [{ seqNo := r.1, paths := paths, scope := scope, needsLog := paths.contains .ls, ready := false }] }) e.w.uid)

/-- A pending EXACT_CELL_RANGE report that falls due at FENCE, XFENCE, EXIT or TAIL: one whose AXADD named no flag
(R246). -/
def unflaggedCell (w : Wave) : Option CellReport := w.cellReps.find? fun r => r.setf == 0

/-- The wave's atomics on their way or logged, each with the flag it names. -/
def openAtomics (s : State) (w : Wave) : List (Nat × MemOp) :=
  ((s.atomics.filter fun r => r.uid == w.uid).map fun r => (r.setf, r.entry.op)) ++
    w.log.filterMap fun l => if l.path == .at then
      (w.pending.find? fun c => c.seqNo == l.seqNo).map fun c => (c.setf, l.op) else none

/-- An AXADD that names no flag has still to be performed: its report may fall due here (R246). -/
def cellComing (s : State) (w : Wave) : Bool :=
  (openAtomics s w).any fun x => x.1 == 0 && (match x.2.kind with | .atomic .xadd => true | _ => false)

/-- An atomic that touches a guard granule has still to be performed (R252). -/
def guardComing (s : State) (w : Wave) : Bool :=
  (openAtomics s w).any fun x => x.2.lanes.any fun l => match resolve s w x.2.form l.addr with
    | .ok t => (guardHit s l.width t).isSome
    | .error _ => false

def execFence (scope : Byte) (s : State) : Host.Outcome State Fault Refusal :=
  runInstr (.fence scope) s fun e s =>
    match unflaggedCell e.w with
    | some r => .raiseAt .exactCellRange r.addr
    | none => if cellComing s e.w then .waitFor 6 else fenceRun e s scope.toNat [.ls, .at]

def execXfence (scope paths : Byte) (s : State) : Host.Outcome State Fault Refusal :=
  runInstr (.xfence scope paths) s fun e s =>
    let ps := pathsOf paths.toNat
    match unflaggedCell e.w with
    | some r => .raiseAt .exactCellRange r.addr
    | none =>
      if ps.contains .at && cellComing s e.w then .waitFor 6
      else if paths = 0 then e.noResult s else fenceRun e s scope.toNat ps

end Sys2Proof.Machine
end

