-- ==== Sys2Proof/Machine/Atomic.lean ====
section
/-! DEFINITION. The atomic engine (R239 to R266): the read-modify-write operations and exact cells, reservations,
transactions' instructions, and the performance of a request at its home. -/

namespace Sys2Proof.Machine

/-! ## The operations (R243 to R247) -/

/-- The lesser or the greater of two values of `8 w` bits (R243). -/
def atomicPick (signed greater : Bool) (w old x : Nat) : Nat :=
  let less := if signed then decide (toSigned (8 * w) old ≤ toSigned (8 * w) x) else decide (old ≤ x)
  if less != greater then old else x

/-- A bitwise operation on numbers. -/
def natBits (f : Word → Word → Word) (x y : Nat) : Nat := (f (w64 x) (w64 y)).toNat

/-- `round(old + x, t, RNE)`, with nothing flushed (R244). -/
def atomicFloat (w old x : Nat) : Nat :=
  let t := if w = 4 then fmtF32 else fmtF64
  (flBits t .rne 0 (exactSum .rne [fdec t old, fdec t x]).1).1

/-- The value an operation leaves, or none where it writes nothing (R243, R244, R247). -/
def atomicNew (op : AtomicOp) (signed : Bool) (w old x cmp : Nat) : Option Nat :=
  match op with
  | .add => some ((old + x) % 2 ^ (8 * w))
  | .min => some (atomicPick signed false w old x)
  | .max => some (atomicPick signed true w old x)
  | .and => some (natBits (· &&& ·) old x)
  | .or => some (natBits (· ||| ·) old x)
  | .xor => some (natBits (· ^^^ ·) old x)
  | .swap => some x
  | .cas => if old = cmp then some x else none
  | .fadd => some (atomicFloat w old x)
  | .xadd => none

/-- The fields of an exact cell (R245). -/
structure Cell where
  acc : Int
  base : Int
  status : Nat
  malformed : Bool
  deriving DecidableEq, Repr

def parseCell (bs : List Byte) : Cell :=
  let base := toSigned 16 (field bs 12 2)
  let st := field bs 14 1
  { acc := toSigned 96 (field bs 0 12), base := base, status := st,
    malformed := decide (base < -1150) || decide (1000 < base) || decide (16 ≤ st) || field bs 15 1 != 0 }

/-- The cell's old value as F64 (R246). -/
def cellValue (c : Cell) : Nat :=
  if bitOf c.status 1 || (bitOf c.status 2 && bitOf c.status 3) then fmtNaN fmtF64
  else if bitOf c.status 2 then fmtInf fmtF64
  else if bitOf c.status 3 then fmtSign fmtF64 + fmtInf fmtF64
  else (flBits fmtF64 .rne 0 (FVal.ofDyadic c.acc c.base false)).1

/-- `axadd(cell, y)` (R246): the cell's new bytes, and whether EXACT_CELL_RANGE is reported. -/
def cellAdd (bs : List Byte) (y : FVal) : List Byte × Bool :=
  let c := parseCell bs
  let withStatus : Nat → List Byte := fun k => bs.set 14 (BitVec.ofNat 8 (c.status ||| k))
  if c.malformed then (bs, true)
  else
    match y with
    | .nan _ => (withStatus 2, false)
    | .inf neg => (withStatus (if neg then 8 else 4), false)
    | .zero _ => (bs, false)
    | .fin neg m e =>
      let q := (roundInt .rne (.fin neg m (e - c.base))).1
      if 2 ^ 72 ≤ q.natAbs then (withStatus 1, true)
      else (leBytes 12 (lowBits 96 (c.acc + q)) ++ bs.drop 12, false)

/-! ## One lane at its home -/

/-- What a lane's operation came to at its home. -/
structure HomeOut where
  state : State
  old : Nat
  report : Bool
  deriving DecidableEq, Repr

/-- Bytes written at a home, if any. -/
def writeHome (s : State) (a : Actor) (t : Target) (pa : Nat) : Option (List Byte) → State
  | some bs => writeTarget s a pa bs t
  | none => s

/-- The operation of one lane performed at its home (R243, R252): a lane in a guard granule is not performed and reads
0. An atomic's global line leaves every L1 first, whether or not the atomic writes it (R239). -/
def atHome (s : State) (w : Wave) (a : Actor) (op : MemOp) (l : LaneAcc) (t : Target) (pa : Nat) : HomeOut :=
  match guardHit s l.width t with
  | some h => { state := s.modWave w.uid fun x => x.guardAccess h, old := 0, report := false }
  | none =>
    let bs := readTarget s a pa l.width t
    let s := match op.kind, t with
      | .atomic _, .global va => dropL1 s a.asid (va / 256) fun _ => false
      | _, _ => s
    match op.kind with
    | .atomic .xadd =>
      let f := if op.code = 4 then fmtF32 else fmtF64
      let r := cellAdd bs (fdec f l.data.toNat)
      { state := writeHome s a t pa (if (parseCell bs).malformed then none else some r.1), old := cellValue (parseCell bs),
        report := r.2 }
    | .atomic k =>
      let old := leNat bs
      { state := writeHome s a t pa ((atomicNew k op.signed l.width old l.data.toNat l.data2.toNat).map (leBytes l.width)),
        old := old, report := false }
    | _ => { state := s, old := leNat bs, report := false }

/-- The line of a target (R253). -/
def lineOf (asid : Nat) (t : Target) : Loc := let y := targetLoc asid t; { y with addr := y.addr / 256 * 256 }

/-- SCOND's lowest lane at its home (R252, R254): it stores when the wave's reservation is valid on its line. Answers
its status. -/
def scondHome (s : State) (w : Wave) (a : Actor) (l : LaneAcc) (t : Target) (pa : Nat) : HomeOut :=
  let valid := match w.reservation with
    | some r => r.valid && r.line == lineOf a.asid t
    | none => false
  match guardHit s l.width t with
  | some h => { state := s.modWave w.uid fun x => x.guardAccess h, old := 1, report := false }
  | none =>
    if valid then { state := writeTarget s a pa (leBytes 8 l.data.toNat) t, old := 0, report := false }
    else { state := s, old := 1, report := false }

/-- A lane with its target, physical address and place in the log. -/
structure HomeLane where
  acc : LaneAcc
  target : Target
  pa : Nat
  index : Nat
  deriving DecidableEq, Repr

/-- The target is global. -/
def Target.isGlobal : Target → Bool
  | .global _ => true
  | _ => false

/-- The operand of a lane as the log and SS hold it: the value, and the bytes it counts as (R264, R358). -/
def operandOf (op : MemOp) (l : LaneAcc) : Nat × Nat :=
  match op.kind with
  | .lres => (0, 8)
  | .atomic .xadd => (l.data.toNat, op.code)
  | .atomic .cas => (l.data.toNat + l.data2.toNat * 2 ^ 64, l.width)
  | _ => (l.data.toNat, l.width)

/-- One lane's words of SS: its operand's, at a global address (R358). -/
def operandWords (op : MemOp) (x : HomeLane) : Nat :=
  match x.target with
  | .global va => (let r := operandOf op x.acc; ssOfWrite va (leBytes r.2 r.1))
  | _ => 0

/-- What the lanes' performance came to: each lane's value, and the addresses of the cells reported. -/
structure HomeRun where
  state : State
  vals : List (Nat × Nat)
  reports : List Word
  deriving DecidableEq, Repr

/-- The lanes performed at their homes in ascending order (R109, R243). The lanes of a SCOND past the lowest are not
attempted (R254). A shadow or tiebreak is answered from the log for its global lanes (R264). -/
def homeLanes (s : State) (w : Wave) (a : Actor) (op : MemOp) (first : Bool) : List HomeLane → HomeRun
  | [] => { state := s, vals := [], reports := [] }
  | x :: rest =>
    let key := logLane op.scalar op.mask x.acc.lane
    let operand := (operandOf op x.acc).1
    let global := x.target.isGlobal
    let r : HomeOut :=
      if global && replays s w then
        (let g := logGet s w key x.index x.acc.addr operand
         { state := g.2, old := g.1 % 2 ^ 64, report := decide (2 ^ 64 ≤ g.1) })
      else match op.kind with
        | .scond => if first then scondHome s w a x.acc x.target x.pa else { state := s, old := 2, report := false }
        | _ => atHome s w a op x.acc x.target x.pa
    let s1 := if global && !replays s w then
        logPut r.state w key x.index x.acc.addr operand (r.old + b2n r.report * 2 ^ 64)
      else r.state
    let t := homeLanes s1 w a op false rest
    { state := t.state, vals := (x.acc.lane, r.old) :: t.vals,
      reports := (if r.report then [x.acc.addr] else []) ++ t.reports }

/-- The value returned to a register (R243, R246): ext of the old value. -/
def atomicReturn (op : MemOp) (old : Nat) : Word :=
  match op.kind with
  | .atomic .xadd | .lres | .scond => w64 old
  | _ => extBytes op.signed (leBytes ((op.lanes.head?.map LaneAcc.width).getD 8) old)

/-- The wave's reservation after LRES or SCOND (R253, R254). -/
def reserve (s : State) (w : Wave) (asid : Nat) (op : MemOp) (xs : List HomeLane) : State :=
  match op.kind, xs with
  | .lres, x :: _ =>
    if x.target.isGlobal && replays s w then s
    else s.modWave w.uid fun y =>
      { y with reservation := some { line := lineOf asid x.target, addr := x.acc.addr, valid := true } }
  | .scond, _ => s.modWave w.uid fun y => { y with reservation := none }
  | _, _ => s

/-- A report added to those the wave has pending (R246). -/
def Wave.reportCell (w : Wave) (setf : Nat) (addr : Word) : Wave :=
  if w.cellReps.any fun r => r.setf == setf && r.addr == addr then w
  else { w with cellReps := w.cellReps ++ [{ setf := setf, addr := addr }] }

/-- An atomic, LRES or SCOND performed at its home with its operand values (R243 to R254, R264). `old`: it was translated
under an older map generation (R386). -/
def performAtomic (s : State) (w : Wave) (setf : Nat) (op : MemOp) (old : Bool) : MemResult :=
  let a := { committedActor s w with old := old }
  match xlateLanes s w a op.form .write op.lanes with
  | (.error e, s1) => .stop s1 e op
  | (.ok ts, s1) =>
    let xs := (List.range ts.length).filterMap fun k => (ts[k]?).map fun (l, t, pa) =>
      ({ acc := l, target := t, pa := pa, index := (op.vals.getD k 0).toNat } : HomeLane)
    let r := homeLanes s1 w a op true xs
    let s2 := reserve r.state w a.asid op xs
    let ss := sumNat (xs.map (operandWords op))
    let s3 := addSS s2 (waveActor s w) ss
    let s4 := r.reports.foldl (fun s x => s.modWave w.uid fun y => y.reportCell setf x) s3
    .ok s4 (r.vals.flatMap fun v => destWrite op.dest v.1 (atomicReturn op v.2)) 0 ss

/-! ## Requests -/

/-- The 64 KiB pages of an operation's global lanes. -/
def opPages (s : State) (w : Wave) (op : MemOp) : List Nat :=
  (op.lanes.filterMap fun l => (globalOf s w op.form l.addr).map (· / 65536)).eraseDups

/-- The class generations a core sends a request with (R382). -/
def sentClasses (s : State) (w : Wave) (op : MemOp) : SMap Nat :=
  (opPages s w op).map fun p => (p, sentGeneration s w.core (s.waveAsid w) p)

/-- A request sent to its home: it is performed there, and its values are back, after the home's latency (R249), and behind the
wave's earlier ones to its location. -/
def sendAtomic (s : State) (w : Wave) (setf lat : Nat) (entry : LogEntry) : State :=
  let due := s.clock + lat
  let q : AtomicReq := { id := s.counter, uid := w.uid, setf := setf, due := due, entry := entry, handler := w.held.isSome
                         classGen := sentClasses s w entry.op, mapGen := mget 0 s.mapGens (s.waveAsid w) }
  ({ s with counter := s.counter + 1, atomics := s.atomics ++ [q] }).schedule lat (.atomicPerformAtHome s.counter)

/-- The values of a returned access and its words of SS, for its completion. -/
def Wave.fill (w : Wave) (seqNo : Nat) (writes : List RegWrite) (ss : Nat) : Wave :=
  { w with pending := w.pending.map fun c =>
      if c.seqNo = seqNo then { c with writes := writes, ss := c.ss + w64 ss } else c }

/-- The longest latency of the lanes' homes (R249). -/
def atomicLatency (s : State) (w : Wave) (op : MemOp) : Nat :=
  op.lanes.foldl (fun m l => Nat.max m (match resolve s w op.form l.addr with
    | .ok t => homeLatency s w t
    | .error _ => 0)) 1

/-- A request carries an old class generation of a page: its old home bounces it (R125, R251). -/
def bounced (s : State) (w : Wave) (r : AtomicReq) : Bool :=
  r.classGen.any fun e => (classOf s (s.waveAsid w) (65536 * e.1)).any fun c => c.generation != e.2

/-- An earlier atomic of the wave to an overlapping location is still to be performed: program order holds at the home too
(R110, R249). -/
def behindEarlier (s : State) (w : Wave) (r : AtomicReq) : Bool :=
  (s.atomics.any fun q => q.uid == r.uid && decide (q.id < r.id) && opsOverlap s w q.entry.op r.entry.op) ||
    w.log.any fun l => l.path == .at && decide (l.seqNo < r.entry.seqNo) && opsOverlap s w l.op r.entry.op

/-- A request is performed at its home, and its instruction completes (R243). It waits behind the wave's earlier ones to its
location; one with an old class generation is bounced, and resent with the page's present one (R125, R251); a line pinned
outside its reach or a frozen page makes it retry; a page gone since it issued logs it (R50, R119), or is a double fault when
a trap handler issued it (R46). -/
def execAtomicPerformAtHome (req : Nat) (s : State) : Host.Outcome State Fault Refusal :=
  .next (match s.atomics.find? fun r => r.id == req with
  | none => s
  | some r =>
    let s0 := { s with atomics := s.atomics.filter fun x => x.id != req }
    match s.anyWave? r.uid with
    | none => s0
    | some w =>
      if behindEarlier s0 w r then s.schedule 1 (.atomicPerformAtHome req)
      else if bounced s w r then
        let lat := atomicLatency s w r.entry.op
        let again := { r with due := s.clock + lat, classGen := (opPages s w r.entry.op).map fun p =>
          (p, ((classOf s (s.waveAsid w) (65536 * p)).map ClassRec.generation).getD 0) }
        let resend : AtomicReq → AtomicReq := fun x => if x.id = req then again else x
        { s with atomics := s.atomics.map resend }.schedule lat (.atomicPerformAtHome req)
      else
        match performAtomic s0 w r.setf r.entry.op (decide (r.mapGen < mget 0 s.mapGens (s.waveAsid w))) with
        | .ok s1 writes _ ss =>
          (s1.modAny w.uid fun x => x.fill r.entry.seqNo writes ss).schedule 0 (.instructionComplete w.uid r.entry.seqNo)
        | .stop s1 (.fault x) _ =>
          if r.handler then waveError s1 w r.entry.bundle .doubleFault else
          (let s2 := s1.modAny w.uid fun y => { y with log := y.log ++ [r.entry] }
           if logPlaces ≤ w.log.length then s2 else postLogged s2 w r.entry.seqNo .at x)
        | .stop _ (.blocked asid page) _ => (blockPage s asid page).schedule 1 (.atomicPerformAtHome req)
        | _ => s.schedule 1 (.atomicPerformAtHome req))

/-- The ninth check of R242, and LRES's scope (R253). -/
def atomicLate (s : State) (w : Wave) (op : MemOp) : Option (Cause × List LaneAcc) :=
  let nc := op.lanes.filter fun l => match globalOf s w op.form l.addr with
    | some va => (match (xlate s (committedActor s w) va 0 .atomic).1 with
      | .fault x => x.cause == .atomicNc
      | _ => false)
    | none => false
  match nc with
  | l :: ls => some (.atomicNc, l :: ls)
  | [] =>
    match op.kind with
    | .lres =>
      (match op.lanes.filter fun l => match resolve s w op.form l.addr with
          | .ok (.global _) => decide (6 ≤ op.scope)
          | .ok _ => decide (3 < op.scope)
          | .error _ => false with
       | l :: ls => some (.lresScope, l :: ls)
       | [] => none)
    | _ => none

/-- The alignment an atomic asks for: 16 for an exact cell, and otherwise its width (R242, R246). -/
def atomicAlign (op : MemOp) : Nat := (op.lanes.head?.map LaneAcc.width).getD 1

/-- An atomic, LRES or SCOND issues (R242): its checks over every lane, its places in the log, and its request. -/
def atomicIssue (e : Env) (s : State) (op : MemOp) : Effect :=
  if fenced e.w .at || overlapsLog s e.w op then .waitFor 6
  else
    -- every request is waited for by the drain of EXIT and TAIL (R36, R249)
    let store := true
    match firstFailure (laneChecks s e.w op.form (atomicAlign op) true) op.lanes with
    | some f => (match checkTrap op.form f with
      | .trap c addr lanes => .trap c lanes addr 0
      | _ => .raise f.1)
    | none =>
      match xlateLanes s e.w (committedActor s e.w) op.form .write op.lanes with
      | (.error x, s1) => memOutcome e .at store (.stop s1 x op)
      | (.ok ts, s1) =>
        match atomicLate s e.w op with
        | some f => (match checkTrap op.form f with
          | .trap c addr lanes => .trap c lanes addr 0
          | _ => .raise f.1)
        | none =>
          if !logRoom s e.w (ts.filter fun x => x.2.1.isGlobal).length then .noLog
          else
            let p := pend s1 e none (opKeys op) .at store 0
            if op.lanes.isEmpty then
              -- a SCOND that no lane takes part in clears the reservation too (R254)
              .done ((reserve p.2 e.w (s.waveAsid e.w) op []).schedule 1 (.instructionComplete e.w.uid p.1))
            else
              let n := logNexts p.2 e.w (op.lanes.map fun l => logLane op.scalar op.mask l.lane)
              let entry : LogEntry :=
                { word := e.iss.word, bundle := e.iss.bundle, slot := e.iss.slot, place := e.iss.place,
                  op := { op with vals := n.1.map w64 }, seqNo := p.1, path := .at, rep := e.iss.iteration.isSome && decide (1 < e.w.rep.left) }
              .done (sendAtomic n.2 e.w e.iss.setf (atomicLatency s e.w op) entry)

/-- The lanes of an atomic (R241): lane 0 in the scalar form, and otherwise the lanes that take part. -/
def atomicLanes (e : Env) (scalar : Bool) : List Nat := if scalar then [0] else e.taking

/-- An atomic's memory operation (R241, R243). `x` and `cmp` give a lane's operand and compare value. -/
def atomicOp (e : Env) (k : AtomicOp) (d a : OpCode) (lit : Word32) (scalar : Bool) (x cmp : Nat → Word) : MemOp :=
  let w := if bitOf lit.toNat 4 then 4 else 8
  let cut : Word → Word := fun v => w64 (bits v.toNat 0 (8 * w))
  { plainOp (.atomic k) with
    dest := d, mask := e.p.mask, scalar := scalar, signed := e.et.isSigned, scope := litBits lit 0 3, code := w
    lanes := (atomicLanes e scalar).map fun l =>
      { lane := l, addr := e.i a l, width := if k = .xadd then 16 else w, data := cut (x l), data2 := cut (cmp l) } }

/-- A read-modify-write instruction: no transaction supports it (R257). -/
def atomicRun (e : Env) (s : State) (op : MemOp) : Effect := unsupportedOp e s op fun s op => atomicIssue e s op

/-- An integer atomic of two sources. -/
def intAtomic (e : Env) (s : State) (i : Instr) (k : AtomicOp) (d a b : OpCode) (lit : Word32) : Effect :=
  atomicRun e s (atomicOp e k d a lit i.scalarForm (e.i b) fun _ => 0)

/-! ## The instructions -/

def execAadd (d a b : OpCode) (lit : Word32) (s : State) : Host.Outcome State Fault Refusal :=
  runInstr (.aadd d a b lit) s fun e s => intAtomic e s (.aadd d a b lit) .add d a b lit

def execAmin (d a b : OpCode) (lit : Word32) (s : State) : Host.Outcome State Fault Refusal :=
  runInstr (.amin d a b lit) s fun e s => intAtomic e s (.amin d a b lit) .min d a b lit

def execAmax (d a b : OpCode) (lit : Word32) (s : State) : Host.Outcome State Fault Refusal :=
  runInstr (.amax d a b lit) s fun e s => intAtomic e s (.amax d a b lit) .max d a b lit

def execAand (d a b : OpCode) (lit : Word32) (s : State) : Host.Outcome State Fault Refusal :=
  runInstr (.aand d a b lit) s fun e s => intAtomic e s (.aand d a b lit) .and d a b lit

def execAor (d a b : OpCode) (lit : Word32) (s : State) : Host.Outcome State Fault Refusal :=
  runInstr (.aor d a b lit) s fun e s => intAtomic e s (.aor d a b lit) .or d a b lit

def execAxor (d a b : OpCode) (lit : Word32) (s : State) : Host.Outcome State Fault Refusal :=
  runInstr (.axor d a b lit) s fun e s => intAtomic e s (.axor d a b lit) .xor d a b lit

def execAswp (d a b : OpCode) (lit : Word32) (s : State) : Host.Outcome State Fault Refusal :=
  runInstr (.aswp d a b lit) s fun e s => intAtomic e s (.aswp d a b lit) .swap d a b lit

def execAcas (d a b : OpCode) (lit : Word32) (s : State) : Host.Outcome State Fault Refusal :=
  runInstr (.acas d a b lit) s fun e s =>
    atomicRun e s (atomicOp e .cas d a lit (Instr.acas d a b lit).scalarForm (e.i b) (e.i d))

def execAfadd (d a b : OpCode) (lit : Word32) (s : State) : Host.Outcome State Fault Refusal :=
  runInstr (.afadd d a b lit) s fun e s =>
    atomicRun e s (atomicOp e .fadd d a lit (Instr.afadd d a b lit).scalarForm (e.f (bitOf lit.toNat 4) b) fun _ => 0)

def execAxadd (d a b : OpCode) (lit : Word32) (s : State) : Host.Outcome State Fault Refusal :=
  runInstr (.axadd d a b lit) s fun e s =>
    atomicRun e s (atomicOp e .xadd d a lit (Instr.axadd d a b lit).scalarForm (e.f (bitOf lit.toNat 4) b) fun _ => 0)

/-- LRES's operation (R253). -/
def lresOp (e : Env) (i : Instr) (d a : OpCode) (lit : Word32) : MemOp :=
  { plainOp .lres with
    dest := d, mask := e.p.mask, scalar := i.scalarForm, scope := litBits lit 0 3
    lanes := (atomicLanes e i.scalarForm).map fun l => { lane := l, addr := e.i a l, width := 8, data := 0, data2 := 0 } }

/-- The context elides, and the wave is in no unchecked redundant block (R263). -/
def elides (s : State) (w : Wave) : Bool := ((s.waveCtx w).map Context.elide).getD false && !uncheckedRun s w

/-- The checks of R242 and R253 that an elided LRES or SCOND makes: those of R215 as a write, the pages', and the NC attribute
and scope. None: it passes them all, in the state after its translations. -/
def elidedChecks (e : Env) (s : State) (op : MemOp) : Except Effect State :=
  let cause : Cause × List LaneAcc → Effect := fun f => match checkTrap op.form f with
    | .trap c addr lanes => .trap c lanes addr 0
    | _ => .raise f.1
  match firstFailure (laneChecks s e.w op.form 8 true) op.lanes with
  | some f => .error (cause f)
  | none =>
    match xlateLanes s e.w (committedActor s e.w) op.form .write op.lanes with
    | (.error x, s1) => .error (memOutcome e .at true (.stop s1 x op))
    | (.ok _, s1) =>
      match atomicLate s1 e.w op with
      | some f => .error (cause f)
      | none => .ok s1

/-- An elided LRES opens its section (R263): each taking-part lane begins a transaction, and the load joins the read set.
Its checks come first, as those of a plain one (R253). -/
def openSection (e : Env) (s : State) (op : MemOp) : Effect :=
  let nested := (op.lanes.map LaneAcc.lane).filter e.w.inTx
  if !nested.isEmpty then .trap .txNested (some (maskOf nested)) 0 0
  else if fenced e.w .at || overlapsLog s e.w op then .waitFor 6
  else
    match elidedChecks e s op, op.lanes with
    | .error r, _ => r
    | .ok _, [] => e.noResult s
    | .ok s0, l0 :: _ =>
      match resolve s e.w op.form l0.addr with
      | .error _ => .raise .illegalAddress
      | .ok t =>
        let x : Elision := { line := lineOf (s.waveAsid e.w) t, bundle := e.iss.bundle, slot := e.iss.slot, path := e.p.born,
                             lanes := op.lanes.map LaneAcc.lane, plain := false }
        let s1 := s0.modWave e.w.uid fun w =>
          { w with elisions := w.elisions ++ [x]
                   tx := w.tx ++ op.lanes.map fun l => { lane := l.lane, sectors := [], status := 0, code := 0, ss := 0 } }
        match s1.wave? e.w.uid with
        | none => .done s1
        | some w1 => sectionEnd e (memOutcome e .at false (performMixed s1 w1 { op with kind := .load }))

def execLres (d a : OpCode) (lit : Word32) (s : State) : Host.Outcome State Fault Refusal :=
  runInstr (.lres d a lit) s fun e s =>
    let op := lresOp e (.lres d a lit) d a lit
    let mine : Elision → Bool := fun x => x.plain && x.bundle == e.iss.bundle && x.slot == e.iss.slot && x.path == e.p.born
    let again := e.w.elisions.any mine
    if bitOf lit.toNat 8 && elides s e.w && !again then
      if (e.w.sectionOf e.p).isSome then .raise .txNested else openSection e s op
    else
      -- the one plain execution after an aborted section (R263)
      let s1 := if again then s.modWave e.w.uid fun w => { w with elisions := w.elisions.filter fun x => !mine x } else s
      atomicRun e s1 op

/-- A SCOND to the lock line inside a section (R263): status 0 in the lowest lane and 2 in the others, its value in the
write set only. A page that refuses the write is a transactional access's X cause: its lanes abort (R262). -/
def elidedScond (e : Env) (s : State) (op : MemOp) : Effect :=
  let store := { op with kind := .store }
  match firstFailure (laneChecks s e.w op.form 8 true) op.lanes with
  | some f => (match checkTrap op.form f with
    | .trap c addr lanes => .trap c lanes addr 0
    | _ => .raise f.1)
  | none =>
    let tx := txPart s e.w store
    match txBlocked s e.w true tx, atomicLate s e.w op with
    | some x, _ => memOutcome e .at true (.stop s x op)
    | none, some f => (match checkTrap op.form f with
      | .trap c addr lanes => .trap c lanes addr 0
      | _ => .raise f.1)
    | none, none =>
      let refused := tx.filterMap fun x => match (xlateParts s (committedActor s e.w) .write [(x.2, 8)]).1 with
        | .error (.fault f) => some (x.1.lane, f)
        | _ => none
      let writes := (List.range op.lanes.length).flatMap fun k =>
        destWrite op.dest ((op.lanes[k]?.map LaneAcc.lane).getD 0) (if k = 0 then 0 else 2)
      let s1 := refused.foldl (fun s x => postFault (abortLane s e.w.uid x.1 6 0) x.2 0 (waveRequester e.w) .none) s
      let r := txAccesses s1 e.w.uid store true (txPart s1 e.w { store with lanes := op.lanes.take 1 })
      sectionEnd e (.done (pend r.state e (some 2) writes .at (isNull op.dest) r.ss).2)

def execScond (d a b : OpCode) (lit : Word32) (s : State) : Host.Outcome State Fault Refusal :=
  runInstr (.scond d a b lit) s fun e s =>
    let scalar := (Instr.scond d a b lit).scalarForm
    let op : MemOp := { plainOp .scond with
      dest := d, mask := e.p.mask, scalar := scalar, scope := litBits lit 0 3
      lanes := (atomicLanes e scalar).map fun l =>
        { lane := l, addr := e.i a l, width := 8, data := e.i b l, data2 := 0 } }
    match e.w.sectionOf e.p with
    | some x => if onLockLine s e.w { op with lanes := op.lanes.take 1 } x then elidedScond e s op else atomicRun e s op
    | none => atomicRun e s op

/-! ## Transactions -/

/-- The status words written: the lanes' own, and NOT_IN_TX elsewhere (R259). -/
def commitWrites (e : Env) (d : OpCode) (ts : List (Nat × Nat)) : List RegWrite :=
  e.lanes.flatMap fun l => destWrite d l (w64 (((ts.find? fun t => t.1 == l).map Prod.snd).getD 9))

/-- The lanes' words logged by an original, with their operand (R264). -/
def logCommit (s : State) (w : Wave) (operand : Nat) : List (Nat × Nat) → State
  | [] => s
  | (l, x) :: rest =>
    let n := logNext s w l
    logCommit (logPut n.2 w l n.1 0 operand x) w operand rest

/-- The lanes' words as the log gives them to a shadow or tiebreak (R264). -/
def replayCommit (s : State) (w : Wave) (operand : Nat) : List Nat → State × List (Nat × Nat)
  | [] => (s, [])
  | l :: ls =>
    let n := logNext s w l
    let g := logGet n.2 w l n.1 0 operand
    let t := replayCommit g.2 w operand ls
    (t.1, (l, g.1) :: t.2)

/-- The words of a TBEGIN, TABORT or TSTAT, one for each active lane: an original's are logged, and a shadow's or tiebreak's
taken from the log, where a departure is noted (R264). -/
def loggedWords (s : State) (w : Wave) (operand : Nat) (xs : List (Nat × Nat)) : State × List (Nat × Nat) :=
  if replays s w then replayCommit s w operand (xs.map Prod.fst)
  else (if logs s w then logCommit s w operand xs else s, xs)

def execTbegin (d : OpCode) (s : State) : Host.Outcome State Fault Refusal :=
  runInstr (.tbegin d) s fun e s =>
    let nested := e.lanes.filter e.w.inTx
    if (e.w.sectionOf e.p).isSome then .raise .txNested
    else if !nested.isEmpty then .trap .txNested (some (maskOf nested)) 0 0
    else if !logRoom s e.w e.lanes.length then .noLog
    else
      let r := loggedWords s e.w 0 (e.lanes.map fun l => (l, 0))
      e.finish (r.1.modWave e.w.uid fun w => { w with
        tx := w.tx ++ e.lanes.map fun l => { lane := l, sectors := [], status := 0, code := 0, ss := 0 } }) 2
        (commitWrites e d r.2)

def execTcommit (d : OpCode) (s : State) : Host.Outcome State Fault Refusal :=
  runInstr (.tcommit d) s fun e s =>
    let ts := e.lanes.filterMap e.w.txLane
    let sealed := txSealed s e.w ts
    if (e.w.sectionOf e.p).isSome then .raise .txNested
    else if fenced e.w .at || txBehindLog s e.w ts then .waitFor 6
    else if !logRoom s e.w e.lanes.length then .noLog
    else if !replays s e.w && !sealed.1.isEmpty then .trap .sealedStore (some (maskOf sealed.1)) sealed.2 0
    else match if replays s e.w then none else txCommitStop s e.w ts with
    | some x => memOutcome e .at true (.stop s x (plainOp .store))
    | none =>
      let words : List TxLane → List (Nat × Nat) := fun ts => e.lanes.map fun l =>
        (l, ((ts.find? fun t => t.lane == l).map txWord).getD 9)
      let r := if replays s e.w then
          (let g := replayCommit s e.w 0 e.lanes
           let done := ts.filter fun t => g.2.any fun x => x.1 == t.lane && x.2 % 256 == 0
           (commitSS g.1 e.w (committedWords (done.map fun t => { t with status := 0 })), g.2))
        else (let c := txCommit s e.w ts false
              let xs := words c.2
              (if logs s e.w then logCommit c.1 e.w 0 xs else c.1, xs))
      let s1 := r.1.modWave e.w.uid fun w => { w with tx := w.tx.filter fun t => !inMask e.p.mask t.lane }
      .done (pend s1 e (some (txLatency s e.w ts)) (commitWrites e d r.2) .at true 0).2

def execTabort (code : BitVec 16) (s : State) : Host.Outcome State Fault Refusal :=
  runInstr (.tabort code) s fun e s =>
    if !logRoom s e.w e.lanes.length then .noLog
    else
      let r := loggedWords s e.w code.toNat (e.lanes.map fun l => (l, 0))
      let s1 := r.1.modWave e.w.uid fun w =>
        { w with tx := w.tx.map fun t => if inMask e.p.mask t.lane then t.abort 4 code.toNat else t }
      sectionEnd e (e.noResult s1)

/-- TSTAT's word for a lane (R260, R261). A lane that is not transactional reads NOT_IN_TX, which the spec gives for TCOMMIT
(DESIGN CHOICE, log entry 110). -/
def tstatWord (w : Wave) (l : Nat) : Nat :=
  match w.txLane l with
  | some t => txWord t + t.sectors.length * 256 + 2 ^ 16
  | none => 9

/-- TSTAT writes each active lane's word; an original hands its words to the log, and a shadow takes them from it (R261,
R264). -/
def execTstat (d : OpCode) (s : State) : Host.Outcome State Fault Refusal :=
  runInstr (.tstat d) s fun e s =>
    if !logRoom s e.w e.lanes.length then .noLog
    else
      let r := loggedWords s e.w 0 (e.lanes.map fun l => (l, tstatWord e.w l))
      e.finish r.1 2 (commitWrites e d r.2)

end Sys2Proof.Machine
end

