-- ==== Sys2Proof/Machine/Special.lean ====
section
/-! DEFINITION. The special functions of R204 to R206. A value that is no dyadic number is held as a mantissa of many
bits whose last bit is set (it stands for the bits below), so that one rounding by `roundFin` gives the rounding of the
exact value. Fixed-point numbers are scaled by `2^fixP`. Log entry 12 says on what the transcendental values rest. -/

namespace Sys2Proof.Machine

/-- The working precision of the transcendental functions. -/
def fixP : Nat := 320
/-- One, in fixed point. -/
def fixOne : Nat := 2 ^ fixP
/-- A fixed-point product. -/
def fixMul (a b : Nat) : Nat := a * b / fixOne

/-- `1/z - 1/(3 z^3) ± …`, the arc tangent (alternating) or the hyperbolic arc tangent of `1/z`: `n` further terms from
the power `p = 2^fixP / z^k`. -/
def fixAtanInv (alternating : Bool) (z : Nat) : Nat → Nat → Nat → Bool → Int
  | 0, _, _, _ => 0
  | n + 1, p, k, minus =>
    let term : Int := (p / k : Nat)
    (if minus then -term else term) + fixAtanInv alternating z n (p / (z * z)) (k + 2) (alternating && !minus)

/-- π in fixed point, by Machin's sum. -/
def fixPi : Nat :=
  (16 * fixAtanInv true 5 75 (fixOne / 5) 1 false - 4 * fixAtanInv true 239 25 (fixOne / 239) 1 false).toNat

/-- ln 2 in fixed point: twice the hyperbolic arc tangent of 1/3. -/
def fixLn2 : Nat := (2 * fixAtanInv false 3 110 (fixOne / 3) 1 false).toNat

/-- `Σ t^k / k!` from the term `p = t^k / k!`, `n` terms. -/
def fixExpSum (t : Nat) : Nat → Nat → Nat → Nat
  | 0, _, _ => 0
  | n + 1, p, k => p + fixExpSum t n (fixMul p t / (k + 1)) (k + 1)

/-- `e^t` for `0 ≤ t < 1`. -/
def fixExp (t : Nat) : Nat := fixExpSum t 80 fixOne 0

/-- `Σ ± t^(2j+1) / (2j+1)!` from the term `p`. -/
def fixSinSum (t2 : Nat) : Nat → Nat → Nat → Bool → Int
  | 0, _, _, _ => 0
  | n + 1, p, k, minus =>
    (if minus then -(p : Int) else p) + fixSinSum t2 n (fixMul p t2 / ((k + 1) * (k + 2))) (k + 2) (!minus)

/-- `sin(π r)` for `0 ≤ r ≤ 1/2`. -/
def fixSinPi (r : Nat) : Nat :=
  let t := fixMul fixPi r
  (fixSinSum (fixMul t t) 48 t 1 false).toNat

/-- `2 Σ z^(2j+1) / (2j+1)` from the power `p`: the logarithm of `(1+z)/(1-z)`. -/
def fixLogSum (z2 : Nat) : Nat → Nat → Nat → Nat
  | 0, _, _ => 0
  | n + 1, p, k => 2 * p / k + fixLogSum z2 n (fixMul p z2) (k + 2)

/-- A positive value of `m × 2^e` with some bits below it. -/
def jam (neg : Bool) (m : Nat) (e : Int) : FVal := .fin neg (2 * m + 1) (e - 1)

/-- A value just below (or above) a nonzero `m × 2^e`, by less than `2^-200` of it. -/
def justBelow (neg : Bool) (m : Nat) (e : Int) : FVal := .fin neg (m * 2 ^ 200 - 1) (e - 200)
def justAbove (neg : Bool) (m : Nat) (e : Int) : FVal := .fin neg (m * 2 ^ 200 + 1) (e - 200)

/-- `m × 2^e` in fixed point, with bits below `2^-fixP` dropped. -/
def toFix (m : Nat) (e : Int) : Nat :=
  let s := e + fixP
  if 0 ≤ s then m * 2 ^ s.toNat else m / 2 ^ (-s).toNat

/-- The quotient of two nonzero magnitudes. -/
def quotient (neg : Bool) (m : Nat) (e : Int) (m' : Nat) (e' : Int) : FVal :=
  let k := 70 + Nat.log2 m'
  let n := m * 2 ^ k
  let q := n / m'
  if n % m' = 0 then .fin neg q (e - e' - k) else jam neg q (e - e' - k)

/-- The integer square root of `n`, found bit by bit from bit `k - 1`. -/
def rootBits (n : Nat) : Nat → Nat → Nat
  | 0, r => r
  | k + 1, r =>
    let c := r + 2 ^ k
    rootBits n k (if c * c ≤ n then c else r)

/-- The square root of a positive `m × 2^e`. -/
def rootOf (m : Nat) (e : Int) : FVal :=
  let m1 := if e % 2 = 0 then m else 2 * m
  let e1 := if e % 2 = 0 then e else e - 1
  let n := m1 * 2 ^ 160
  let r := rootBits n (Nat.log2 n / 2 + 1) 0
  if r * r = n then .fin false r (e1 / 2 - 80) else jam false r (e1 / 2 - 80)

/-- `m` without its factors of two, and how many it has, at most `n`. -/
def oddPart : Nat → Nat → Nat → Nat × Nat
  | 0, m, k => (m, k)
  | n + 1, m, k => if m % 2 = 0 then oddPart n (m / 2) (k + 1) else (m, k)

/-- `1 / √x` of a positive `m × 2^e`. It is dyadic only for an even power of two. -/
def invRoot (m : Nat) (e : Int) : FVal :=
  let (o, k) := oddPart 64 m 0
  let e1 := e + k
  if o = 1 && e1 % 2 = 0 then .fin false 1 (-(e1 / 2))
  else
    let m1 := if e % 2 = 0 then m else 2 * m
    let e2 := if e % 2 = 0 then e else e - 1
    let n := 2 ^ 320 / m1
    jam false (rootBits n (Nat.log2 n / 2 + 1) 0) (-(e2 / 2) - 160)

/-- `2^x` of a nonzero `± m × 2^e`. -/
def exp2Of (neg : Bool) (m : Nat) (e : Int) : FVal :=
  if e + Nat.log2 m < -100 then (if neg then justBelow false 1 0 else justAbove false 1 0)
  else if 20 < e + Nat.log2 m then .fin false 1 (if neg then -(2 ^ 20 : Nat) else (2 ^ 20 : Nat))
  else
    let whole := if 0 ≤ e then m * 2 ^ e.toNat else m / 2 ^ (-e).toNat
    let frac := if 0 ≤ e then 0 else m % 2 ^ (-e).toNat
    if frac = 0 then .fin false 1 (if neg then -(whole : Int) else whole)
    else
      -- 2^-(whole + f) = 2^-(whole + 1) × 2^(1 - f)
      let f := if neg then fixOne - toFix frac e else toFix frac e
      let n : Int := if neg then -(whole : Int) - 1 else whole
      jam false (fixExp (fixMul f fixLn2)) (n - fixP)

/-- `log₂ x` of a positive `m × 2^e`. -/
def log2Of (m : Nat) (e : Int) : FVal :=
  let k0 := e + Nat.log2 m
  let y0 := m * 2 ^ (fixP - Nat.log2 m)
  if y0 = fixOne then FVal.ofInt k0
  else
    -- y between 3/4 and 3/2
    let high := decide (3 * fixOne < 2 * y0)
    let k := if high then k0 + 1 else k0
    let y := if high then y0 / 2 else y0
    let below := decide (y < fixOne)
    let d := if below then fixOne - y else y - fixOne
    let z := d * fixOne / (y + fixOne)
    let ln := fixLogSum (fixMul z z) 80 z 1
    let part : Int := (ln * fixOne / fixLn2 : Nat)
    let total : Int := k * fixOne + (if below then -part else part)
    jam (decide (total < 0)) total.natAbs (-(fixP : Int))

/-- `|x| mod 2` in fixed point. -/
def mod2Fix (m : Nat) (e : Int) : Nat :=
  if 0 ≤ e then (if e = 0 then m % 2 * fixOne else 0) else toFix (m % 2 ^ (1 + (-e).toNat)) e

/-- `sin(π x)` of a nonzero `± m × 2^e`; an integer gives a zero of its sign (R205). -/
def sinPiOf (neg : Bool) (m : Nat) (e : Int) : FVal :=
  if e + Nat.log2 m < -100 then jam neg (m * fixPi) (e - fixP)
  else
    let r2 := mod2Fix m e
    let r1 := r2 % fixOne
    let sgn := neg != decide (fixOne ≤ r2)
    let r := if fixOne < 2 * r1 then fixOne - r1 else r1
    if r = 0 then .zero neg
    else if 2 * r = fixOne then .fin sgn 1 0
    else jam sgn (fixSinPi r) (-(fixP : Int))

/-- `cos(π x)` of a nonzero `± m × 2^e`; a half gives +0 (R205). -/
def cosPiOf (m : Nat) (e : Int) : FVal :=
  if e + Nat.log2 m < -100 then justBelow false 1 0
  else
    let r2 := mod2Fix m e
    let r1 := if fixOne < r2 then 2 * fixOne - r2 else r2
    let sgn := decide (fixOne < 2 * r1)
    let r := if sgn then fixOne - r1 else r1
    if r = 0 then .fin sgn 1 0
    else if 2 * r = fixOne then .zero false
    else jam sgn (fixSinPi (fixOne / 2 - r)) (-(fixP : Int))

/-- `x^(2^n)` of a fixed-point number. -/
def fixSquares : Nat → Nat → Nat
  | 0, x => x
  | n + 1, x => fixSquares n (fixMul x x)

/-- `tanh x` of a nonzero `± m × 2^e`. -/
def tanhOf (neg : Bool) (m : Nat) (e : Int) : FVal :=
  if e + Nat.log2 m < -70 then justBelow neg m e
  else if 6 < e + Nat.log2 m then justBelow neg 1 0
  else
    -- e^(2x), from e^(2x / 256)
    let x := fixSquares 8 (fixExp (toFix m e / 128))
    jam neg ((x - fixOne) * fixOne / (x + fixOne)) (-(fixP : Int))

/-- A NaN source: the canonical NaN, invalid when it is signalling (R205). -/
def nanSource (x : FVal) : FVal × Nat := (.nan false, if x.isSNaN then excInvalid else 0)
/-- The invalid result. -/
def invalidResult : FVal × Nat := (.nan false, excInvalid)

/-- RCP (R204, R205). -/
def fnRcp : FVal → FVal × Nat
  | .nan s => nanSource (.nan s)
  | .inf n => (.zero n, 0)
  | .zero n => (.inf n, excDivZero)
  | .fin n m e => (quotient n 1 0 m e, 0)

/-- RSQ (R204, R205). -/
def fnRsq : FVal → FVal × Nat
  | .nan s => nanSource (.nan s)
  | .inf true => invalidResult
  | .inf false => (.zero false, 0)
  | .zero n => (.inf n, excDivZero)
  | .fin true _ _ => invalidResult
  | .fin false m e => (invRoot m e, 0)

/-- SQRT (R204, R205). -/
def fnSqrt : FVal → FVal × Nat
  | .nan s => nanSource (.nan s)
  | .inf true => invalidResult
  | .inf false => (.inf false, 0)
  | .zero n => (.zero n, 0)
  | .fin true _ _ => invalidResult
  | .fin false m e => (rootOf m e, 0)

/-- EXP2 (R204, R205). -/
def fnExp2 : FVal → FVal × Nat
  | .nan s => nanSource (.nan s)
  | .inf true => (.zero false, 0)
  | .inf false => (.inf false, 0)
  | .zero _ => (.fin false 1 0, 0)
  | .fin n m e => (exp2Of n m e, 0)

/-- LOG2 (R204, R205). -/
def fnLog2 : FVal → FVal × Nat
  | .nan s => nanSource (.nan s)
  | .inf true => invalidResult
  | .inf false => (.inf false, 0)
  | .zero _ => (.inf true, excDivZero)
  | .fin true _ _ => invalidResult
  | .fin false m e => (log2Of m e, 0)

/-- SINPI (R204, R205). -/
def fnSinPi : FVal → FVal × Nat
  | .nan s => nanSource (.nan s)
  | .inf _ => invalidResult
  | .zero n => (.zero n, 0)
  | .fin n m e => (sinPiOf n m e, 0)

/-- COSPI (R204, R205). -/
def fnCosPi : FVal → FVal × Nat
  | .nan s => nanSource (.nan s)
  | .inf _ => invalidResult
  | .zero _ => (.fin false 1 0, 0)
  | .fin _ m e => (cosPiOf m e, 0)

/-- TANH (R204, R205). -/
def fnTanh : FVal → FVal × Nat
  | .nan s => nanSource (.nan s)
  | .inf n => (.fin n 1 0, 0)
  | .zero n => (.zero n, 0)
  | .fin n m e => (tanhOf n m e, 0)

/-- DIVF (R206). -/
def fnDiv (x y : FVal) : FVal × Nat :=
  let inv := if x.isSNaN || y.isSNaN then excInvalid else 0
  let neg := x.neg? != y.neg?
  match x, y with
  | .nan _, _ | _, .nan _ => (.nan false, inv)
  | .inf _, .inf _ | .zero _, .zero _ => invalidResult
  | .inf _, _ => (.inf neg, 0)
  | .zero _, _ | _, .inf _ => (.zero neg, 0)
  | .fin _ _ _, .zero _ => (.inf neg, excDivZero)
  | .fin _ m e, .fin _ m' e' => (quotient neg m e m' e', 0)

end Sys2Proof.Machine
end

