-- ==== Sys2Proof/Machine/Vector.lean ====
section
/-! DEFINITION. The vector engine (R165 to R191): lane-wise arithmetic, compares, moves, conversions, cross-lane and
predicate instructions. -/

namespace Sys2Proof.Machine

/-! ## The lanewise core (R168, R169) -/

/-- The lanes a lane-wise instruction evaluates: lane 0 alone on the scalar side (R170). -/
def Env.evalLanes (e : Env) (d : OpCode) : List Nat := if isSCode d then [0] else e.lanes

/-- A sub-element is evaluated and written: always on the scalar side (R167, R170). -/
def Env.writes (e : Env) (d : OpCode) (l i : Nat) (t : EType) : Bool := isSCode d || e.pass l i t

/-- The bits 63:60 that a T6x10 result leaves zero (R95). -/
def trimT6 (t : EType) (x : Word) : Word := if t == .t6x10 then x &&& 0x0FFFFFFFFFFFFFFF else x

/-- What a sub-element adds to the detections of its lane. -/
def Detected.note (d : Detected) (l : Nat) (r : SubRes) : Detected :=
  (if r.divZero then d.addDiv l else d).add l r.exc

/-- One lane of `lanewise`: its register after the passing sub-elements, and what they detected. -/
def laneResult (e : Env) (t : EType) (d : OpCode) (f : Nat → Nat → SubRes) (l : Nat) : Word × Detected :=
  let r := (List.range (cnt t)).foldl (fun (acc : Word × Detected) i =>
    if e.writes d l i t then (put acc.1 t i (f l i).val, acc.2.note l (f l i)) else acc) (e.base d l, noneDetected)
  (trimT6 t r.1, r.2)

/-- The trap the detections raise: DIVIDE_BY_ZERO (R174), or FP_EXCEPTION under FPX (R169). -/
def Env.valueTrap (e : Env) (det : Detected) : Option Effect :=
  if !det.divZero.isEmpty then some (.trap .divideByZero (some (maskOf det.divZero)) 0 0)
  else if modeFpx e.w.mode && det.exc % 8 != 0 then
    some (.trap .fpException (some (maskOf det.lanes)) 0 (w64 (det.exc % 32)))
  else none

/-- An instruction's writes at its latency, unless its values trap. -/
def Env.conclude (e : Env) (s : State) (lat : Nat) (det : Detected) (writes : List RegWrite) : Effect :=
  match e.valueTrap det with
  | some t => t
  | none => e.finish s lat writes

/-- `lanewise(t, f)` (R168). -/
def lanewise (e : Env) (s : State) (lat : Nat) (t : EType) (d : OpCode) (f : Nat → Nat → SubRes) : Effect :=
  let rs := (e.evalLanes d).map fun l => (l, laneResult e t d f l)
  e.conclude s lat (Detected.all (rs.map fun x => x.2.2)) (rs.flatMap fun x => destWrite d x.1 x.2.1)

/-- Latency of class S, and of class W at a 64-bit type (R165). -/
def latS : Nat := 4
def latX : Nat := 8
def latP : Nat := 2
def latD : Nat := 40
def latW64 (t : EType) : Nat := if t.wid = 64 then 6 else 4
def latWF64 (t : EType) : Nat := if t == .f64 then 6 else 4

/-! ## Values of sub-elements -/

/-- `fsrc` of a floating sub-element (R90). -/
def Env.fv (e : Env) (t : EType) (x : Nat) : FVal := fsrc (floatFmt t) (modeFtz e.w.mode) x

/-- `num(x, t)` as an exact value (R168). -/
def Env.num (e : Env) (t : EType) (x : Nat) : FVal :=
  if t.isFloat then e.fv t x else if t.isTapered then tdec t x else FVal.ofInt (intOf t x)

/-- `fl(x, t, rnd)` with the exceptions already detected (R168). -/
def Env.fl (e : Env) (t : EType) (rnd : Rnd) (v : FVal × Nat) : SubRes :=
  let r := flBits (floatFmt t) rnd (modeFtz e.w.mode) v.1
  excRes (r.1, v.2 ||| r.2)

/-- A value with the invalid exception a signalling NaN source raises (R85). -/
def quieten (v : FVal) : FVal × Nat := (v, if v.isSNaN then excInvalid else 0)

/-- A source sub-element of an element-typed field. -/
def Env.sx (e : Env) (c : OpCode) (l i : Nat) : Nat := sub (e.x c l) e.et i
/-- As an integer. -/
def Env.si (e : Env) (c : OpCode) (l i : Nat) : Int := intOf e.et (e.sx c l i)
/-- As a floating value. -/
def Env.sf (e : Env) (c : OpCode) (l i : Nat) : FVal := e.fv e.et (e.sx c l i)
/-- `ires` under the mode's SAT. -/
def Env.ires (e : Env) (t : EType) (x : Int) : SubRes := plainRes (Sys2Proof.Machine.ires (modeSat e.w.mode) t x)
/-- A floating result under the mode's rounding. -/
def Env.fres (e : Env) (v : FVal × Nat) : SubRes := e.fl e.et (modeRnd e.w.mode) v

/-- An arithmetic instruction of class NUM: an integer form and a floating form (R172, R173). -/
def numOp (e : Env) (a b : OpCode) (fi : Int → Int → SubRes) (ff : FVal → FVal → FVal × Nat) (l i : Nat) : SubRes :=
  if e.et.isFloat then e.fres (ff (e.sf a l i) (e.sf b l i)) else fi (e.si a l i) (e.si b l i)

/-- An integer instruction of two sources. -/
def intOp (e : Env) (a b : OpCode) (f : Int → Int → SubRes) (l i : Nat) : SubRes := f (e.si a l i) (e.si b l i)

/-- An instruction on the raw bits of two sub-elements. -/
def rawOp (e : Env) (a b : OpCode) (f : Nat → Nat → Nat) (l i : Nat) : SubRes := plainRes (f (e.sx a l i) (e.sx b l i))

/-! ## Arithmetic (R172 to R176) -/

def execAdd (d a b : OpCode) (s : State) : Host.Outcome State Fault Refusal :=
  runInstr (.add d a b) s fun e s => lanewise e s (latWF64 e.et) e.et d
    (numOp e a b (fun x y => e.ires e.et (x + y)) fun x y => exactSum (modeRnd e.w.mode) [x, y])

def execSub (d a b : OpCode) (s : State) : Host.Outcome State Fault Refusal :=
  runInstr (.sub d a b) s fun e s => lanewise e s (latWF64 e.et) e.et d
    (numOp e a b (fun x y => e.ires e.et (x - y)) fun x y => exactSum (modeRnd e.w.mode) [x, y.negate])

def execMul (d a b : OpCode) (s : State) : Host.Outcome State Fault Refusal :=
  runInstr (.mul d a b) s fun e s => lanewise e s (latW64 e.et) e.et d
    (numOp e a b (fun x y => e.ires e.et (x * y)) exactMul)

/-- The addend of a null destination reads zero (R60, R168). -/
def Env.addend (e : Env) (d : OpCode) (t : EType) (l i : Nat) : Nat := sub (e.base d l) t i

/-- FMA, FMS and FNMA (R173). -/
def fusedOp (e : Env) (d a b : OpCode) (negProduct negAddend : Bool) (l i : Nat) : SubRes :=
  let zv := e.fv e.et (e.addend d e.et l i)
  e.fres (exactFma (modeRnd e.w.mode) (e.sf a l i) (e.sf b l i) (if negAddend then zv.negate else zv) negProduct)

def execFma (d a b : OpCode) (s : State) : Host.Outcome State Fault Refusal :=
  runInstr (.fma d a b) s fun e s => lanewise e s (latWF64 e.et) e.et d (fusedOp e d a b false false)

def execFms (d a b : OpCode) (s : State) : Host.Outcome State Fault Refusal :=
  runInstr (.fms d a b) s fun e s => lanewise e s (latWF64 e.et) e.et d (fusedOp e d a b false true)

def execFnma (d a b : OpCode) (s : State) : Host.Outcome State Fault Refusal :=
  runInstr (.fnma d a b) s fun e s => lanewise e s (latWF64 e.et) e.et d (fusedOp e d a b true false)

def execMin (d a b : OpCode) (s : State) : Host.Outcome State Fault Refusal :=
  runInstr (.min d a b) s fun e s => lanewise e s latS e.et d
    (numOp e a b (fun x y => e.ires e.et (min x y)) (fminmax false))

def execMax (d a b : OpCode) (s : State) : Host.Outcome State Fault Refusal :=
  runInstr (.max d a b) s fun e s => lanewise e s latS e.et d
    (numOp e a b (fun x y => e.ires e.et (max x y)) (fminmax true))

def execAbs (d a : OpCode) (s : State) : Host.Outcome State Fault Refusal :=
  runInstr (.abs d a) s fun e s => lanewise e s latS e.et d
    (numOp e a a (fun x _ => e.ires e.et x.natAbs) fun x _ => (x.absolute, (quieten x).2))

def execNeg (d a : OpCode) (s : State) : Host.Outcome State Fault Refusal :=
  runInstr (.neg d a) s fun e s => lanewise e s latS e.et d
    (numOp e a a (fun x _ => e.ires e.et (-x)) fun x _ => (x.negate, (quieten x).2))

def execAdds (d a b : OpCode) (s : State) : Host.Outcome State Fault Refusal :=
  runInstr (.adds d a b) s fun e s => lanewise e s latS e.et d
    (intOp e a b fun x y => plainRes (ires true e.et (x + y)))

def execSubs (d a b : OpCode) (s : State) : Host.Outcome State Fault Refusal :=
  runInstr (.subs d a b) s fun e s => lanewise e s latS e.et d
    (intOp e a b fun x y => plainRes (ires true e.et (x - y)))

def execMulhi (d a b : OpCode) (s : State) : Host.Outcome State Fault Refusal :=
  runInstr (.mulhi d a b) s fun e s => lanewise e s (latW64 e.et) e.et d
    (intOp e a b fun x y => plainRes (lowBits e.et.wid (x * y / (2 ^ e.et.wid : Nat))))

def execMadi (d a b : OpCode) (s : State) : Host.Outcome State Fault Refusal :=
  runInstr (.madi d a b) s fun e s => lanewise e s (latW64 e.et) e.et d fun l i =>
    e.ires e.et (e.si a l i * e.si b l i + intOf e.et (e.addend d e.et l i))

/-- A division: a zero divisor is noted, and otherwise `f` has the truncated quotient (R174). -/
def divOp (e : Env) (a b : OpCode) (f : Int → Int → Int → SubRes) (l i : Nat) : SubRes :=
  let x := e.si a l i
  let y := e.si b l i
  if y = 0 then { val := 0, exc := 0, divZero := true } else f x y (x.tdiv y)

def execDivi (d a b : OpCode) (s : State) : Host.Outcome State Fault Refusal :=
  runInstr (.divi d a b) s fun e s => lanewise e s latD e.et d (divOp e a b fun _ _ q => e.ires e.et q)

def execRemi (d a b : OpCode) (s : State) : Host.Outcome State Fault Refusal :=
  runInstr (.remi d a b) s fun e s => lanewise e s latD e.et d
    (divOp e a b fun x y q => plainRes (lowBits e.et.wid (x - y * q)))

/-- The 32-bit result type of DOT2 and DOT4 (R175). -/
def dotType (t : EType) : EType := if t.isFloat then .f32x2 else if t.isSigned then .i32x2 else .n32x2

/-- The integer sum of a term over `n` sub-elements of half `j`, with the addend (R175). -/
def dotInt (e : Env) (rt : EType) (d a b : OpCode) (n : Nat) (term : Int → Int → Int) (l j : Nat) : SubRes :=
  e.ires rt ((List.range n).foldl (fun acc k => acc + term (e.si a l (n * j + k)) (e.si b l (n * j + k)))
    (intOf rt (e.addend d rt l j)))

def execDot2 (d a b : OpCode) (s : State) : Host.Outcome State Fault Refusal :=
  runInstr (.dot2 d a b) s fun e s =>
    let rt := dotType e.et
    lanewise e s latS rt d fun l j =>
      if e.et.isFloat then
        let ps := [2 * j, 2 * j + 1].map fun i => exactMul (e.sf a l i) (e.sf b l i)
        let r := exactSum (modeRnd e.w.mode) (e.fv rt (e.addend d rt l j) :: ps.map Prod.fst)
        e.fl rt (modeRnd e.w.mode) (r.1, ps.foldl (fun x p => x ||| p.2) r.2)
      else dotInt e rt d a b 2 (fun x y => x * y) l j

def execDot4 (d a b : OpCode) (s : State) : Host.Outcome State Fault Refusal :=
  runInstr (.dot4 d a b) s fun e s =>
    lanewise e s latS (dotType e.et) d (dotInt e (dotType e.et) d a b 4 fun x y => x * y)

def execSad (d a b : OpCode) (s : State) : Host.Outcome State Fault Refusal :=
  runInstr (.sad d a b) s fun e s =>
    lanewise e s latS .n32x2 d (dotInt e .n32x2 d a b 4 fun x y => (x - y).natAbs)

/-! ## Writes of predicates -/

/-- A predicate byte with the bits of a sub-element's bytes set to an outcome (R176, R178). -/
def putOutcome (t : EType) (i : Nat) (c : Bool) (b : Byte) : Byte :=
  let lo := t.wid * i / 8
  let hi := (t.wid * (i + 1) - 1) / 8
  BitVec.ofNat 8 (putBits b.toNat lo (hi - lo + 1) (if c then 2 ^ (hi - lo + 1) - 1 else 0))

/-- The predicate byte a field names in a lane, 0 for null. -/
def Env.pbyte (e : Env) (c : OpCode) (l : Nat) : Byte := if isPCode c then e.w.preg (c.toNat - 0xC0) l else 0

/-- One lane of a compare: its predicate byte and what it detected (R178). -/
def compareLane (e : Env) (pd : OpCode) (f : Nat → Nat → SubRes) (l : Nat) : Byte × Detected :=
  (List.range (cnt e.et)).foldl (fun (acc : Byte × Detected) i =>
    if e.pass l i e.et then (putOutcome e.et i ((f l i).val != 0) acc.1, acc.2.note l (f l i)) else acc)
    (e.pbyte pd l, noneDetected)

/-- A compare or classification: `f` answers 1 or 0 (R178, R179). -/
def compare (e : Env) (s : State) (pd : OpCode) (f : Nat → Nat → SubRes) : Effect :=
  let rs := e.lanes.map fun l => (l, compareLane e pd f l)
  e.conclude s latS (Detected.all (rs.map fun x => x.2.2)) (rs.flatMap fun x => destWrite pd x.1 (x.2.1.setWidth 64))

/-- A carry chain (R176): `f` has the raw sub-elements and the carry in, and answers the exact result and the carry
out. -/
def carryLane (e : Env) (d a b : OpCode) (pI pO : Nat) (f : Nat → Nat → Nat → Int × Bool) (l : Nat) : List RegWrite :=
  let t := e.et
  let cin := e.w.preg pI l
  let r := (List.range (cnt t)).foldl (fun (acc : Word × Byte) i =>
    if e.pass l i t then
      let u := f (e.sx a l i) (e.sx b l i) (b2n (bitOf cin.toNat (t.wid * i / 8)))
      (put acc.1 t i (lowBits t.wid u.1), putOutcome t i u.2 acc.2)
    else acc) (e.base d l, e.w.preg pO l)
  destWrite d l r.1 ++ [{ file := .predicate, key := 32 * pO + l, value := r.2.setWidth 64 }]

def execAddc (d a b : OpCode) (lit : Word32) (s : State) : Host.Outcome State Fault Refusal :=
  runInstr (.addc d a b lit) s fun e s => e.finish s latS (e.lanes.flatMap (carryLane e d a b (litBits lit 0 3)
    (litBits lit 4 3) fun x y c => (((x + y + c : Nat) : Int), decide (2 ^ e.et.wid ≤ x + y + c))))

def execSubb (d a b : OpCode) (lit : Word32) (s : State) : Host.Outcome State Fault Refusal :=
  runInstr (.subb d a b lit) s fun e s => e.finish s latS (e.lanes.flatMap (carryLane e d a b (litBits lit 0 3)
    (litBits lit 4 3) fun x y c => ((x : Int) - y - c, decide ((x : Int) - y - c < 0))))

/-! ## Logic and shifts (R177) -/

def execAnd (d a b : OpCode) (s : State) : Host.Outcome State Fault Refusal :=
  runInstr (.and d a b) s fun e s => lanewise e s latS e.et d fun l i => plainRes (sub (e.x a l &&& e.x b l) e.et i)

def execOr (d a b : OpCode) (s : State) : Host.Outcome State Fault Refusal :=
  runInstr (.or d a b) s fun e s => lanewise e s latS e.et d fun l i => plainRes (sub (e.x a l ||| e.x b l) e.et i)

def execXor (d a b : OpCode) (s : State) : Host.Outcome State Fault Refusal :=
  runInstr (.xor d a b) s fun e s => lanewise e s latS e.et d fun l i => plainRes (sub (e.x a l ^^^ e.x b l) e.et i)

def execAndn (d a b : OpCode) (s : State) : Host.Outcome State Fault Refusal :=
  runInstr (.andn d a b) s fun e s => lanewise e s latS e.et d fun l i => plainRes (sub (e.x a l &&& ~~~(e.x b l)) e.et i)

def execShl (d a b : OpCode) (s : State) : Host.Outcome State Fault Refusal :=
  runInstr (.shl d a b) s fun e s => lanewise e s latS e.et d (rawOp e a b fun x y => x * 2 ^ (y % e.et.wid) % 2 ^ e.et.wid)

def execShrl (d a b : OpCode) (s : State) : Host.Outcome State Fault Refusal :=
  runInstr (.shrl d a b) s fun e s => lanewise e s latS e.et d (rawOp e a b fun x y => x / 2 ^ (y % e.et.wid))

def execShra (d a b : OpCode) (s : State) : Host.Outcome State Fault Refusal :=
  runInstr (.shra d a b) s fun e s => lanewise e s latS e.et d
    (rawOp e a b fun x y => lowBits e.et.wid (toSigned e.et.wid x / (2 ^ (y % e.et.wid) : Nat)))

def execRol (d a b : OpCode) (s : State) : Host.Outcome State Fault Refusal :=
  runInstr (.rol d a b) s fun e s => lanewise e s latS e.et d (rawOp e a b fun x y =>
    (x * 2 ^ (y % e.et.wid) + x / 2 ^ (e.et.wid - y % e.et.wid)) % 2 ^ e.et.wid)

/-! ## Compares and classification (R178, R179) -/

/-- A compare of class NUM or FLT: `fi` on integers, `ff` on the order of two numbers, the outcome with a NaN operand,
and whether any NaN raises invalid. -/
def compareOp (e : Env) (a b : OpCode) (fi : Int → Int → Bool) (ff : Ordering → Bool) (nan anyNaN : Bool) (l i : Nat) :
    SubRes :=
  if e.et.isFloat then
    let x := e.sf a l i
    let y := e.sf b l i
    let inv := if x.isSNaN || y.isSNaN || (anyNaN && (x.isNaN || y.isNaN)) then excInvalid else 0
    excRes (b2n (match fcmp x y with | some o => ff o | none => nan), inv)
  else plainRes (b2n (fi (e.si a l i) (e.si b l i)))

def execCmpeq (d a b : OpCode) (s : State) : Host.Outcome State Fault Refusal :=
  runInstr (.cmpeq d a b) s fun e s => compare e s d
    (compareOp e a b (fun x y => decide (x = y)) (fun o => o == .eq) false false)

def execCmpne (d a b : OpCode) (s : State) : Host.Outcome State Fault Refusal :=
  runInstr (.cmpne d a b) s fun e s => compare e s d
    (compareOp e a b (fun x y => decide (x ≠ y)) (fun o => o != .eq) true false)

def execCmplt (d a b : OpCode) (s : State) : Host.Outcome State Fault Refusal :=
  runInstr (.cmplt d a b) s fun e s => compare e s d
    (compareOp e a b (fun x y => decide (x < y)) (fun o => o == .lt) false true)

def execCmple (d a b : OpCode) (s : State) : Host.Outcome State Fault Refusal :=
  runInstr (.cmple d a b) s fun e s => compare e s d
    (compareOp e a b (fun x y => decide (x ≤ y)) (fun o => o != .gt) false true)

def execCmpun (d a b : OpCode) (s : State) : Host.Outcome State Fault Refusal :=
  runInstr (.cmpun d a b) s fun e s => compare e s d (compareOp e a b (fun _ _ => false) (fun _ => false) true false)

def execCls (d a : OpCode) (lit : Word32) (s : State) : Host.Outcome State Fault Refusal :=
  runInstr (.cls d a lit) s fun e s => compare e s d fun l i =>
    plainRes (b2n (bitOf lit.toNat (fclass (floatFmt e.et) (e.sx a l i))))

/-! ## Moves, selection and constants (R180) -/

def execSel (d a b : OpCode) (lit : Word32) (s : State) : Host.Outcome State Fault Refusal :=
  runInstr (.sel d a b lit) s fun e s => lanewise e s latS e.et d fun l i =>
    let bit := bitOf (e.w.preg (litBits lit 0 3) l).toNat (e.et.wid * i / 8)
    plainRes (if bit != bitOf lit.toNat 3 then e.sx a l i else e.sx b l i)

def execMov (d a : OpCode) (s : State) : Host.Outcome State Fault Refusal :=
  runInstr (.mov d a) s fun e s => lanewise e s latS e.et d fun l i => plainRes (e.sx a l i)

def execMovl (d : OpCode) (lit : Word32) (s : State) : Host.Outcome State Fault Refusal :=
  runInstr (.movl d lit) s fun e s => lanewise e s latS .n64 d fun _ _ => plainRes lit.toNat

/-- What MOVS writes into each sub-element (R180). -/
def movsValue (t : EType) (lit : Nat) : Nat :=
  match t with
  | .i64 => lowBits 64 (toSigned 32 lit)
  | .f64 => (flBits fmtF64 .rne 0 (fdec fmtF32 lit)).1
  | _ => lit

def execMovs (d : OpCode) (lit : Word32) (s : State) : Host.Outcome State Fault Refusal :=
  runInstr (.movs d lit) s fun e s => lanewise e s latS e.et d fun _ _ => plainRes (movsValue e.et lit.toNat)

def execIota (d a b : OpCode) (s : State) : Host.Outcome State Fault Refusal :=
  runInstr (.iota d a b) s fun e s => lanewise e s latS .n64 d fun l _ => plainRes (e.u a + w64 l * e.u b).toNat

/-! ## Conversions (R181 to R184) -/

/-- A value converted to an integer type: it always saturates (R181). -/
def cvToInt (t : EType) (rnd : Rnd) (v : FVal) : SubRes :=
  match v with
  | .nan _ => { val := 0, exc := excInvalid, divZero := false }
  | .inf neg => { val := lowBits t.wid (if neg then intLo t else intHi t), exc := excInvalid, divZero := false }
  | v =>
    let q := roundInt rnd v
    if q.1 < intLo t ∨ intHi t < q.1 then
      { val := lowBits t.wid (satInt t q.1), exc := excInvalid, divZero := false }
    else { val := lowBits t.wid q.1, exc := if q.2 then excInexact else 0, divZero := false }

/-- `cv` of R181. A signalling NaN raises invalid where its result is floating (R85) or an integer; `tenc` raises
nothing. -/
def cvSub (e : Env) (src dst : EType) (rnd : Rnd) (x : Nat) : SubRes :=
  let v := e.num src x
  if dst.isTapered then plainRes (tenc dst v)
  else if dst.isFloat then e.fl dst rnd (quieten v)
  else if src.isInt then e.ires dst (intOf src x)
  else cvToInt dst rnd v

/-- CVT and CVTR (R181). -/
def convert (e : Env) (s : State) (d a : OpCode) (dst : EType) (rnd : Rnd) : Effect :=
  let n := Nat.min (cnt e.et) (cnt dst)
  lanewise e s latS dst d fun l i => if i < n then cvSub e e.et dst rnd (e.sx a l i) else plainRes 0

def execCvt (d a : OpCode) (lit : Word32) (s : State) : Host.Outcome State Fault Refusal :=
  runInstr (.cvt d a lit) s fun e s => convert e s d a ((etypeOf (litBits lit 0 4)).getD .n64) (modeRnd e.w.mode)

def execCvtr (d a : OpCode) (lit : Word32) (s : State) : Host.Outcome State Fault Refusal :=
  runInstr (.cvtr d a lit) s fun e s =>
    convert e s d a ((etypeOf (litBits lit 0 4)).getD .n64) ((rndOf (litBits lit 4 3)).getD .rne)

/-- The type of twice the width (R182). -/
def widerType : EType → EType
  | .i8x8 => .i16x4 | .i16x4 => .i32x2 | .i32x2 => .i64
  | .n8x8 => .n16x4 | .n16x4 => .n32x2 | .n32x2 => .n64
  | .f16x4 | .bf16x4 => .f32x2 | .f32x2 => .f64
  | t => t

/-- The type of half the width (R182). -/
def narrowerType : EType → EType
  | .i64 => .i32x2 | .i32x2 => .i16x4 | .i16x4 => .i8x8
  | .n64 => .n32x2 | .n32x2 => .n16x4 | .n16x4 => .n8x8
  | .f64 => .f32x2 | .f32x2 => .bf16x4
  | t => t

def execPack (d a b : OpCode) (s : State) : Host.Outcome State Fault Refusal :=
  runInstr (.pack d a b) s fun e s =>
    let c := cnt e.et
    let t := narrowerType e.et
    lanewise e s latS t d fun l j => cvSub e e.et t (modeRnd e.w.mode) (if j < c then e.sx a l j else e.sx b l (j - c))

def execWiden (d a : OpCode) (h : Byte) (s : State) : Host.Outcome State Fault Refusal :=
  runInstr (.widen d a h) s fun e s =>
    let t := widerType e.et
    lanewise e s latS t d fun l j =>
      let x := e.sx a l (h.toNat * (cnt e.et / 2) + j)
      if e.et.isFloat then e.fl t (modeRnd e.w.mode) (quieten (e.fv e.et x)) else plainRes (lowBits t.wid (intOf e.et x))

def execDec8 (d a : OpCode) (g : Byte) (s : State) : Host.Outcome State Fault Refusal :=
  runInstr (.dec8 d a g) s fun e s => lanewise e s latS .bf16x4 d fun l j =>
    plainRes (tdecBF16 .t8x8 (e.sx a l (4 * g.toNat + j)))

def execDec6 (d a : OpCode) (g : Byte) (s : State) : Host.Outcome State Fault Refusal :=
  runInstr (.dec6 d a g) s fun e s => lanewise e s latS .bf16x4 d fun l j =>
    plainRes (if 4 * g.toNat + j ≤ 9 then tdecBF16 .t6x10 (e.sx a l (4 * g.toNat + j)) else 0)

def execEnc8 (d a b : OpCode) (s : State) : Host.Outcome State Fault Refusal :=
  runInstr (.enc8 d a b) s fun e s => lanewise e s latS .t8x8 d fun l j =>
    plainRes (tenc .t8x8 (fdec fmtBF16 (if j ≤ 3 then e.sx a l j else e.sx b l (j - 4))))

def execEnc6 (d a : OpCode) (s : State) : Host.Outcome State Fault Refusal :=
  runInstr (.enc6 d a) s fun e s => lanewise e s latS .t6x10 d fun l j =>
    plainRes (tenc .t6x10 (fdec fmtBF16 (sub (e.w.vreg (a.toNat + j / 4) l) .bf16x4 (j % 4))))

def execScaleb (d a b : OpCode) (s : State) : Host.Outcome State Fault Refusal :=
  runInstr (.scaleb d a b) s fun e s => lanewise e s latS e.et d fun l i =>
    let k := toSigned e.et.wid (sub (e.subInt b l) e.et i)
    let x := quieten (e.sf a l i)
    e.fres (match x.1 with | .fin n m ex => .fin n m (ex + k) | v => v, x.2)

/-- A value rounded to an integral value, keeping its sign at zero (R184). -/
def rndintVal (rnd : Rnd) : FVal → FVal
  | .fin neg m ex =>
    if 0 ≤ ex then .fin neg m ex
    else
      let q := (roundInt rnd (.fin neg m ex)).1
      if q = 0 then .zero neg else .fin neg q.natAbs 0
  | v => v

def execRndint (d a : OpCode) (s : State) : Host.Outcome State Fault Refusal :=
  runInstr (.rndint d a) s fun e s => lanewise e s latS e.et d fun l i =>
    let x := e.sf a l i
    let r := e.fres (rndintVal (modeRnd e.w.mode) x, 0)
    excRes (r.val, (quieten x).2)

/-- The reciprocal of a value's power-of-two scale (R184). -/
def frcp2Val : FVal → FVal × Nat
  | .fin neg m ex => (.fin neg 1 (-(ex + Nat.log2 m)), 0)
  | .zero neg => (.inf neg, excDivZero)
  | .inf neg => (.zero neg, 0)
  | .nan sig => quieten (.nan sig)

def execFrcp2 (d a : OpCode) (s : State) : Host.Outcome State Fault Refusal :=
  runInstr (.frcp2 d a) s fun e s => lanewise e s latS e.et d fun l i => e.fres (frcp2Val (e.sf a l i))

/-! ## Cross-lane operations (R185 to R189) -/

/-- `src(q, o)` of R186. -/
def shflSource (mode n q o : Nat) : Nat :=
  match mode with
  | 0 => o % n
  | 1 => if o ≤ q then q - o else q
  | 2 => if q + o < n then q + o else q
  | _ => Nat.xor q (o % n)

def execShfl (d a b : OpCode) (lit : Word32) (s : State) : Host.Outcome State Fault Refusal :=
  runInstr (.shfl d a b lit) s fun e s =>
    let mode := litBits lit 0 2
    let c := cnt e.et
    lanewise e s latX e.et d fun l i =>
      if bitOf lit.toNat 4 then
        let k := shflSource mode (32 * c) (l * c + i) (sub (e.subInt b l) e.et i)
        plainRes (e.sx a (k / c) (k % c))
      else plainRes (e.sx a (shflSource mode 32 l (e.i b l).toNat) i)

def execBcast (d a b : OpCode) (s : State) : Host.Outcome State Fault Refusal :=
  runInstr (.bcast d a b) s fun e s => lanewise e s latX e.et d fun _ i =>
    plainRes (e.sx a (bits (e.u b).toNat 0 5) i)

/-- The least and greatest of floating contributors (R173, R188): a NaN gives way to a number. -/
def foldMinmax (wantMax : Bool) (xs : List FVal) : FVal × Nat :=
  let inv := if xs.any FVal.isSNaN then excInvalid else 0
  match xs.filter fun v => !v.isNaN with
  | [] => (if xs.isEmpty then .inf wantMax else .nan false, inv)
  | x :: rest => (rest.foldl (fun a b => (fminmax wantMax a b).1) x, inv)

/-- The combination of the contributors' sub-elements (R188). -/
def combine (e : Env) (op : Nat) (xs : List Nat) : SubRes :=
  let t := e.et
  match op with
  | 0 => if t.isFloat then e.fres (exactSum (modeRnd e.w.mode) (xs.map (e.fv t)))
         else e.ires t (xs.foldl (fun a x => a + intOf t x) 0)
  | 1 => if t.isFloat then e.fres (foldMinmax false (xs.map (e.fv t)))
         else plainRes (lowBits t.wid (xs.foldl (fun a x => min a (intOf t x)) (intHi t)))
  | 2 => if t.isFloat then e.fres (foldMinmax true (xs.map (e.fv t)))
         else plainRes (lowBits t.wid (xs.foldl (fun a x => max a (intOf t x)) (intLo t)))
  | 3 => plainRes (xs.foldl Nat.land (2 ^ t.wid - 1))
  | 4 => plainRes (xs.foldl Nat.lor 0)
  | _ => plainRes (xs.foldl Nat.xor 0)

/-- The combination at each position of the contributors among some lanes: the value, and the exceptions (R188). -/
def combineLanes (e : Env) (op : Nat) (a : OpCode) (ls : List Nat) : Word × Nat :=
  (List.range (cnt e.et)).foldl (fun (acc : Word × Nat) i =>
    let r := combine e op ((ls.filter fun l => e.pass l i e.et).map fun l => e.sx a l i)
    (put acc.1 e.et i r.val, acc.2 ||| r.exc)) (0, 0)

def execLreduce (d a : OpCode) (lit : Word32) (s : State) : Host.Outcome State Fault Refusal :=
  runInstr (.lreduce d a lit) s fun e s =>
    let r := combineLanes e (litBits lit 0 4) a e.lanes
    e.conclude s latX { exc := r.2, lanes := e.lanes, divZero := [] } (e.all d r.1)

def execLscan (d a : OpCode) (lit : Word32) (s : State) : Host.Outcome State Fault Refusal :=
  runInstr (.lscan d a lit) s fun e s =>
    let excl := bitOf lit.toNat 4
    let rs := e.lanes.map fun l =>
      (l, combineLanes e (litBits lit 0 4) a (e.lanes.filter fun k => decide (k < l) || (!excl && k == l)))
    let det := rs.foldl (fun (d : Detected) x => d.add x.1 x.2.2) noneDetected
    e.conclude s latX det (rs.flatMap fun x => destWrite d x.1 x.2.1)

/-- The contributors of BALLOT and VOTE with bit 0 of the predicate (R189). -/
def ballots (e : Env) (p : OpCode) : List (Nat × Bool) :=
  (e.lanes.filter fun l => e.pass l 0 .i64).map fun l => (l, bitOf (e.pbyte p l).toNat 0)

def execBallot (d p : OpCode) (s : State) : Host.Outcome State Fault Refusal :=
  runInstr (.ballot d p) s fun e s =>
    e.finish s latX (e.all d ((maskOf (((ballots e p).filter Prod.snd).map Prod.fst)).setWidth 64))

/-- VOTE's result (R189). -/
def voteValue (mode : Nat) (bs : List Bool) : Nat :=
  match mode with
  | 0 => b2n (bs.all id)
  | 1 => b2n (bs.any id)
  | 2 => b2n (bs.all id || !bs.any id)
  | _ => (bs.filter id).length

def execVote (d p : OpCode) (lit : Word32) (s : State) : Host.Outcome State Fault Refusal :=
  runInstr (.vote d p lit) s fun e s =>
    e.finish s latX (e.all d (w64 (voteValue (litBits lit 0 2) ((ballots e p).map Prod.snd))))

/-! ## Predicate instructions (R190) -/

/-- The bits of a predicate byte that the guard lets through (R190). -/
def Env.guardByte (e : Env) (l : Nat) : Byte :=
  if modeGen e.w.mode then
    (if modeGinv e.w.mode then ~~~(e.w.preg (modeGp e.w.mode) l) else e.w.preg (modeGp e.w.mode) l)
  else 0xFF

/-- A predicate instruction: each lane's byte written under the guard, bit by bit (R190). -/
def predicateOp (e : Env) (s : State) (pd : OpCode) (f : Nat → Byte) : Effect :=
  e.finish s latP (e.lanes.flatMap fun l =>
    let g := e.guardByte l
    destWrite pd l (((e.pbyte pd l &&& ~~~g) ||| (f l &&& g)).setWidth 64))

def execPlogic (d a b : OpCode) (lit : Word32) (s : State) : Host.Outcome State Fault Refusal :=
  runInstr (.plogic d a b lit) s fun e s => predicateOp e s d fun l =>
    let x := (e.pbyte a l).toNat
    let y := (e.pbyte b l).toNat
    BitVec.ofNat 8 (sumNat ((List.range 8).map fun j =>
      b2n (bitOf lit.toNat (2 * b2n (bitOf x j) + b2n (bitOf y j))) * 2 ^ j))

def execPset (d : OpCode) (lit : Word32) (s : State) : Host.Outcome State Fault Refusal :=
  runInstr (.pset d lit) s fun e s => predicateOp e s d fun _ => lit.setWidth 8

def execPget (d p : OpCode) (s : State) : Host.Outcome State Fault Refusal :=
  runInstr (.pget d p) s fun e s => lanewise e s latP .n64 d fun l _ => plainRes (e.pbyte p l).toNat

def execPmov (d a : OpCode) (s : State) : Host.Outcome State Fault Refusal :=
  runInstr (.pmov d a) s fun e s => predicateOp e s d fun l => (e.x a l).setWidth 8

end Sys2Proof.Machine
end

