-- ==== Sys2Proof/Machine/BitFn.lean ====
section
/-! DEFINITION. The bit and function engine (R192 to R208): bit matrices, deposit and extract, bit fields, carry-less
arithmetic, permutation slots, and the special functions. -/

namespace Sys2Proof.Machine

/-- Latencies of R192. -/
def latB6 : Nat := 6
def latB8 : Nat := 8
def latF16 : Nat := 16
def latF32 : Nat := 32

/-- One 64-bit result per lane, guarded by `pass(l, 0, I64)` (R193). -/
def wholeLane (e : Env) (s : State) (lat : Nat) (d : OpCode) (f : Nat → Nat) : Effect :=
  lanewise e s lat .n64 d fun l _ => plainRes (f l)

/-- A number made of bits given by a rule, bit 0 first. -/
def bitsWhere (n : Nat) (f : Nat → Bool) : Nat := sumNat ((List.range n).map fun q => b2n (f q) * 2 ^ q)

/-! ## Bit-matrix multiply (R195) -/

/-- `bmm(a, b)` of R195. -/
def bmmValue (a b : Nat) : Nat :=
  bitsWhere 64 fun q => (List.range 8).foldl (fun acc k => acc != (bitOf a (q / 8 * 8 + k) && bitOf b (8 * k + q % 8))) false

def execBmm (d a b : OpCode) (s : State) : Host.Outcome State Fault Refusal :=
  runInstr (.bmm d a b) s fun e s => wholeLane e s latB6 d fun l => bmmValue (e.x a l).toNat (e.x b l).toNat

def execBmmx (d a b : OpCode) (s : State) : Host.Outcome State Fault Refusal :=
  runInstr (.bmmx d a b) s fun e s => wholeLane e s latB6 d fun l =>
    Nat.xor (e.base d l).toNat (bmmValue (e.x a l).toNat (e.x b l).toNat)

/-! ## Deposit, extract and counts (R196) -/

/-- PDEP over the positions from `w - n` up: `j` source bits are used. -/
def pdepFrom (w x m : Nat) : Nat → Nat → Nat
  | 0, _ => 0
  | n + 1, j =>
    let q := w - (n + 1)
    if bitOf m q then b2n (bitOf x j) * 2 ^ q + pdepFrom w x m n (j + 1) else pdepFrom w x m n j

/-- PEXT over the positions from `w - n` up: `j` result bits are made. -/
def pextFrom (w x m : Nat) : Nat → Nat → Nat
  | 0, _ => 0
  | n + 1, j =>
    let q := w - (n + 1)
    if bitOf m q then b2n (bitOf x q) * 2 ^ j + pextFrom w x m n (j + 1) else pextFrom w x m n j

/-- The number of leading and of trailing 0 bits of the low `w` bits. -/
def clzValue (w x : Nat) : Nat := leadingRun x false w
def ctzFrom (x w : Nat) : Nat → Nat
  | 0 => 0
  | n + 1 => if bitOf x (w - (n + 1)) then 0 else 1 + ctzFrom x w n

/-- An instruction on one raw sub-element. -/
def rawOne (e : Env) (a : OpCode) (f : Nat → Nat) (l i : Nat) : SubRes := plainRes (f (e.sx a l i))

def execPdep (d a b : OpCode) (s : State) : Host.Outcome State Fault Refusal :=
  runInstr (.pdep d a b) s fun e s => lanewise e s latB6 e.et d
    (rawOp e a b fun x m => pdepFrom e.et.wid x m e.et.wid 0)

def execPext (d a b : OpCode) (s : State) : Host.Outcome State Fault Refusal :=
  runInstr (.pext d a b) s fun e s => lanewise e s latB6 e.et d
    (rawOp e a b fun x m => pextFrom e.et.wid x m e.et.wid 0)

def execPopc (d a : OpCode) (s : State) : Host.Outcome State Fault Refusal :=
  runInstr (.popc d a) s fun e s => lanewise e s latB6 e.et d (rawOne e a fun x => countOnes e.et.wid x)

def execClz (d a : OpCode) (s : State) : Host.Outcome State Fault Refusal :=
  runInstr (.clz d a) s fun e s => lanewise e s latB6 e.et d (rawOne e a fun x => clzValue e.et.wid x)

def execCtz (d a : OpCode) (s : State) : Host.Outcome State Fault Refusal :=
  runInstr (.ctz d a) s fun e s => lanewise e s latB6 e.et d (rawOne e a fun x => ctzFrom x e.et.wid e.et.wid)

def execBrev (d a : OpCode) (s : State) : Host.Outcome State Fault Refusal :=
  runInstr (.brev d a) s fun e s => lanewise e s latB6 e.et d
    (rawOne e a fun x => bitsWhere e.et.wid fun q => bitOf x (e.et.wid - 1 - q))

/-! ## Bit fields (R197) -/

def execBfx (d a : OpCode) (lit : Word32) (s : State) : Host.Outcome State Fault Refusal :=
  runInstr (.bfx d a lit) s fun e s => wholeLane e s latB6 d fun l =>
    let y := bits (e.x a l).toNat (litBits lit 0 6) (litBits lit 8 7)
    if bitOf lit.toNat 16 then (sext y (litBits lit 8 7)).toNat else y

def execBfi (d a : OpCode) (lit : Word32) (s : State) : Host.Outcome State Fault Refusal :=
  runInstr (.bfi d a lit) s fun e s => wholeLane e s latB6 d fun l =>
    putBits (e.base d l).toNat (litBits lit 0 6) (litBits lit 8 7) (e.x a l).toNat

/-! ## Carry-less and field arithmetic (R198, R199) -/

/-- The product of two polynomials over GF(2) (R198). -/
def clmulFull (w x y : Nat) : Nat :=
  (List.range w).foldl (fun p q => if bitOf y q then Nat.xor p (x * 2 ^ q) else p) 0

/-- A 15-bit polynomial reduced modulo 0x11B (R198). -/
def gfReduce (p : Nat) : Nat :=
  [14, 13, 12, 11, 10, 9, 8].foldl (fun p q => if bitOf p q then Nat.xor p (0x11B * 2 ^ (q - 8)) else p) p

def execGfmul8 (d a b : OpCode) (s : State) : Host.Outcome State Fault Refusal :=
  runInstr (.gfmul8 d a b) s fun e s => lanewise e s latB6 e.et d (rawOp e a b fun x y => gfReduce (clmulFull 8 x y))

def execClmul (d a b : OpCode) (s : State) : Host.Outcome State Fault Refusal :=
  runInstr (.clmul d a b) s fun e s => lanewise e s latB6 e.et d
    (rawOp e a b fun x y => clmulFull e.et.wid x y % 2 ^ e.et.wid)

def execClmulh (d a b : OpCode) (s : State) : Host.Outcome State Fault Refusal :=
  runInstr (.clmulh d a b) s fun e s => lanewise e s latB6 e.et d
    (rawOp e a b fun x y => clmulFull e.et.wid x y / 2 ^ e.et.wid)

/-- BYTEPERM of one value (R199). -/
def bytepermValue (a b : Nat) : Nat :=
  sumNat ((List.range 8).map fun j =>
    let sel := bits b (8 * j) 8
    if bitOf sel 7 then 0 else bits a (8 * (sel % 8)) 8 * 256 ^ j)

def execByteperm (d a b : OpCode) (s : State) : Host.Outcome State Fault Refusal :=
  runInstr (.byteperm d a b) s fun e s => wholeLane e s latB6 d fun l => bytepermValue (e.x a l).toNat (e.x b l).toNat

/-! ## Permutation slots (R200 to R202) -/

/-- The 384 bits of s[N] to s[N+5] (R200). -/
def permSource (w : Wave) (n : Nat) : Nat := sumNat ((List.range 6).map fun j => (w.sreg (n + j)).toNat * 2 ^ (64 * j))

/-- `index(k, j)` of R201. -/
def permIndex (w : Wave) (k j : Nat) : Nat := mget 0 w.perm (64 * k + j)

def execBpld (k : Byte) (a : OpCode) (s : State) : Host.Outcome State Fault Refusal :=
  runInstr (.bpld k a) s fun e s =>
    let x := permSource e.w (a.toNat - 0x80)
    e.finish s latB6 ((List.range 64).map fun j =>
      { file := .permutation, key := 64 * k.toNat + j, value := w64 (bits x (6 * j) 6) })

def execBperm (d a : OpCode) (k : Byte) (s : State) : Host.Outcome State Fault Refusal :=
  runInstr (.bperm d a k) s fun e s => wholeLane e s latB8 d fun l =>
    bitsWhere 64 fun j => bitOf (e.x a l).toNat (permIndex e.w k.toNat j)

/-! ## Special functions (R204 to R207) -/

/-- A special function of one floating source. -/
def specialOp (e : Env) (s : State) (d a : OpCode) (f : FVal → FVal × Nat) : Effect :=
  lanewise e s latF16 e.et d fun l i => e.fres (f (e.sf a l i))

def execRcp (d a : OpCode) (s : State) : Host.Outcome State Fault Refusal :=
  runInstr (.rcp d a) s fun e s => specialOp e s d a fnRcp

def execRsq (d a : OpCode) (s : State) : Host.Outcome State Fault Refusal :=
  runInstr (.rsq d a) s fun e s => specialOp e s d a fnRsq

def execSqrt (d a : OpCode) (s : State) : Host.Outcome State Fault Refusal :=
  runInstr (.sqrt d a) s fun e s => specialOp e s d a fnSqrt

def execExp2 (d a : OpCode) (s : State) : Host.Outcome State Fault Refusal :=
  runInstr (.exp2 d a) s fun e s => specialOp e s d a fnExp2

def execLog2 (d a : OpCode) (s : State) : Host.Outcome State Fault Refusal :=
  runInstr (.log2 d a) s fun e s => specialOp e s d a fnLog2

def execSinpi (d a : OpCode) (s : State) : Host.Outcome State Fault Refusal :=
  runInstr (.sinpi d a) s fun e s => specialOp e s d a fnSinPi

def execCospi (d a : OpCode) (s : State) : Host.Outcome State Fault Refusal :=
  runInstr (.cospi d a) s fun e s => specialOp e s d a fnCosPi

def execTanh (d a : OpCode) (s : State) : Host.Outcome State Fault Refusal :=
  runInstr (.tanh d a) s fun e s => specialOp e s d a fnTanh

def execDivf (d a b : OpCode) (s : State) : Host.Outcome State Fault Refusal :=
  runInstr (.divf d a b) s fun e s => lanewise e s latF32 e.et d fun l i => e.fres (fnDiv (e.sf a l i) (e.sf b l i))

end Sys2Proof.Machine
end

