-- ==== Sys2Proof/Machine/Quad.lean ====
section
/-! DEFINITION. Quads' partial groups as their members leave (R270), and a contribution's end. -/

namespace Sys2Proof.Machine

/-- A contribution completes or is discarded: its instruction completes (R270, R279). -/
def endContrib (s : State) (c : Contrib) : State :=
  (s.modAny c.uid fun w => { w with liveContribs := w.liveContribs.filter fun x => x != c.id }).schedule 0
    (.instructionComplete c.uid c.seqNo)

/-- The group is a partial group of a quad. -/
def Group.partialOf (g : Group) (lid bid : Nat) (run : Run) (set : Nat) : Bool :=
  !g.formed && g.lid == lid && g.bid == bid && g.run == run && g.set == set

/-- A member left a quad: on a core its partial groups are discarded, each contribution completes without effect, and the
tiles' DISC is set (R270). -/
def dissolveOn (s : State) (core lid bid : Nat) (run : Run) (set : Nat) : State :=
  let c := s.core core
  let gone := c.groups.filter fun g => g.partialOf lid bid run set
  if gone.isEmpty then s
  else
    let mark : Nat × Tile → Nat × Tile := fun e =>
      if gone.any fun g => g.acc == e.1 then (e.1, { e.2 with discarded := true }) else e
    let s1 := s.setCore core { c with groups := c.groups.filter fun g => !g.partialOf lid bid run set, tiles := c.tiles.map mark }
    (gone.flatMap Group.contribs).foldl endContrib s1

/-- A member left a quad, on whichever core it stood: every partial group of the quad is discarded (R270). -/
def dissolveQuad (s : State) (lid bid : Nat) (run : Run) (set : Nat) : State :=
  (s.cores.map Prod.fst).foldl (fun s core => dissolveOn s core lid bid run set) s

/-- A wave leaves every quad it is in. -/
def dissolveAll (s : State) (w : Wave) : State :=
  w.sets.foldl (fun s x => dissolveQuad s w.lid w.bid w.run x.1) s

/-- A group that has read its operand still has its stage's arrival to make for a block (R284). -/
def Group.owes (g : Group) (lid bid : Nat) (run : Run) : Bool :=
  g.started && !g.readDone && g.lid == lid && g.bid == bid && g.run == run

/-- The engines still have arrivals to make for a block's run (R284). -/
def stageOwed (s : State) (lid bid : Nat) (run : Run) : Bool :=
  s.cores.any fun e => e.2.groups.any fun g => g.owes lid bid run

/-- The wave's contributions to partial groups, by the numbers of their instructions. -/
def partialSeqs (s : State) (w : Wave) : List Nat :=
  (s.core w.core).groups.flatMap fun g => if g.formed then [] else (g.contribs.filter fun x => x.uid == w.uid).map Contrib.seqNo

end Sys2Proof.Machine
end

