-- ==== Sys2Proof/Machine/Sequencer.lean ====
section
/-! DEFINITION. The sequencer's instructions, opcodes 0x00 to 0x1F (R141 to R164), with the branch procedure (R142),
RJOIN (R145), safe points (R39 to R42), and the system registers of every engine. -/

namespace Sys2Proof.Machine

/-! ## Paths -/

/-- The path moved to a bundle and slot, slot 0 being the bundle's start with its WAIT (R44). -/
def goto (bundle : Word) (slot : Nat) (p : Path) : Path :=
  { p with pc := bundle, slot := if slot = 0 then 1 else slot, fresh := slot == 0 }

/-- A taken control transfer (R133). -/
def jump (bundle : Word) (slot : Nat) (p : Path) : Path := { goto bundle slot p with taken := true }

/-- The path's place laid out as s61 is (R44). -/
def placeWord (bundle : Word) (slot : Nat) : Word := w64 (bundle.toNat / 16 * 16 + slot % 4)
def Path.at (p : Path) : Word := placeWord p.pc (if p.fresh then 0 else p.slot)

/-- A wave's slot in the save area (R389). -/
def slotBase (s : State) (w : Wave) : Nat :=
  ((s.waveCtx w).map fun c => c.saveBase.toNat).getD 0 + Config.saveSlotBytes * w.saveSlot

/-- A path record (R40). -/
def pathRecord (p : Path) (place : Word) : List Byte :=
  leBytes 8 place.toNat ++ leBytes 4 p.mask.toNat ++ leBytes 2 (p.safePoint.getD Config.noSafePoint) ++
    leBytes 2 (1 + 2 * b2n p.atRjoin + 4 * b2n p.waitResume + 8 * b2n p.restorePending)

/-- A record pushed onto the wave's fragment stack in memory (R32, R439). -/
def pushRecord (s : State) (w : Wave) (p : Path) : Except XStop Unit × State :=
  writeVirt s (committedActor s w) (slotBase s w + 0x100 + 32 * w.stack.length)
    (pathRecord p (if p.inSave then p.resume else p.at) ++ List.replicate 16 0)

/-- The wave after a change of its paths, with a MASK packet for each that returned from the stack (R410). -/
def rePlace (s : State) (w w' : Wave) : State :=
  let s1 := s.setWave w'
  let back := w'.places.filter fun x => (w.stack.any fun p => p.born == x.2.born) && !(w'.stack.any fun p => p.born == x.2.born)
  back.foldl (fun s x => emitMask s w x.1 1 x.2.mask x.2.pc) s1

/-- The issuing path changed, once its instruction is issued. -/
def Env.move (e : Env) (s : State) (f : Path → Path) : State := s.modWave e.w.uid fun w => w.modPath e.iss.place f

/-- The bundle after the issuing one. -/
def Env.next (e : Env) : Word := e.iss.bundle + 16

/-- An X cause of an access the path itself needs (R39, R439). -/
def pathStop (s : State) : XStop → Effect
  | .fault x => .retry s x
  | .frozen => .waitFor 6
  | .blocked asid page => .blocked asid page
  | .pinned => .waitFor 5
  | _ => .wait

/-! ## Branches (R142 to R144) -/

/-- `branch(take, target)` (R142). -/
def branchRun (e : Env) (s : State) (take0 : Mask) (target : Word) : Effect :=
  let take := e.p.mask &&& take0
  let stay := e.p.mask &&& ~~~take
  if take = 0 then e.noResult (e.move s (goto e.next 0))
  else if stay = 0 then e.noResult (e.move s (jump target 0))
  else
    let toTake := decide (popc take ≤ popc stay)
    let m := if toTake then take else stay
    let at' := if toTake then target else e.next
    let keep := if toTake then e.next else target
    match s.wave? e.w.uid with
    | none => e.noResult s
    | some w =>
      let q : Path := { newPath at' m with
        safePoint := e.p.safePoint, inSave := e.p.inSave, resume := e.p.resume, lastIssue := s.clock, issued := true,
        taken := true, born := s.counter }
      let split : Path → Path := fun p => { jump keep 0 p with mask := p.mask &&& ~~~m }
      let s1 := { s with counter := s.counter + 1 }
      match w.freeSlot with
      | some k => e.noResult (s1.setWave { (w.modPath e.iss.place split) with
          places := mput (w.modPath e.iss.place split).places k q })
      | none =>
        if w.held.isSome then .error s .doubleFault
        else
          match w.freeFragment with
          | some k => e.noResult (s1.setWave { (w.modPath e.iss.place split) with
              places := mput (w.modPath e.iss.place split).places k q })
          | none =>
            if 64 ≤ w.stack.length then .raise .fragmentOverflow
            else
              match pushRecord s1 w q with
              | (.error x, s2) => pathStop s2 x
              | (.ok _, s2) => e.noResult (s2.modWave w.uid fun y =>
                  { (y.modPath e.iss.place split) with stack := q :: y.stack })

/-- A branch's target: its own bundle plus 16 times its signed offset (R69). -/
def Env.target (e : Env) (offset bits : Nat) : Word := e.iss.bundle + w64 (16 * (sext offset bits).toNat)

/-- The path moved past a NOP: it uses no pipe and no issue clock, and its STALL adds to the distance of the path's next
instruction (R134). The bundle's WAIT still applies to its first non-NOP slot (R133). -/
def nopPast (bundle : Word) (slot stall : Nat) (p : Path) : Path :=
  let q := pathPast bundle slot false p
  { q with fresh := q.pc != bundle || p.fresh, nopStall := p.nopStall + stall }

def execNop (s : State) : Host.Outcome State Fault Refusal :=
  match env? s with
  | none => .refused .noIssuer
  | some e =>
    if 13 ≤ e.iss.setf then .next (takeTrap { s with issue := none } e false .reservedField none 0 0)
    else .next (e.move { s with issue := none } (nopPast e.iss.bundle e.iss.slot e.iss.stall))

def execBra (offset : BitVec 24) (s : State) : Host.Outcome State Fault Refusal :=
  runInstr (.bra offset) s fun e s => branchRun e s e.p.mask (e.target offset.toNat 24)

/-- The lanes whose predicate byte has bit 0 set (R143). -/
def predLanes (e : Env) (p : OpCode) : Mask :=
  maskOf (e.lanes.filter fun l => bitOf (e.w.preg (p.toNat - 0xC0) l).toNat 0)

def execBrp (p : OpCode) (offset : BitVec 16) (s : State) : Host.Outcome State Fault Refusal :=
  runInstr (.brp p offset) s fun e s =>
    let take := predLanes e p
    branchRun e (emit s e.w e.iss.place 2 0 take.toNat e.iss.bundle.toNat) take (e.target offset.toNat 16)

def execBru (u : OpCode) (offset : BitVec 16) (s : State) : Host.Outcome State Fault Refusal :=
  runInstr (.bru u offset) s fun e s =>
    let take : Mask := if e.u u = 0 then 0 else e.p.mask
    branchRun e (emit s e.w e.iss.place 2 0 take.toNat e.iss.bundle.toNat) take (e.target offset.toNat 16)

/-- A target's faults (R144). -/
def targetCause (t : Word) : Option Cause :=
  if t.toNat % 16 ≠ 0 then some .misaligned else if 2 ^ 52 ≤ t.toNat then some .illegalAddress else none

/-- A move of the whole path to an address read from an operand (R144). -/
def jumpRun (e : Env) (s : State) (t : Word) (indirect : Bool) (writes : List RegWrite) : Effect :=
  match targetCause t with
  | some c => .raiseAt c t
  | none =>
    let s1 := if indirect then emit s e.w e.iss.place 2 1 0 t.toNat else s
    e.finish (e.move s1 (jump t 0)) 1 writes

def execJmpi (a : OpCode) (s : State) : Host.Outcome State Fault Refusal :=
  runInstr (.jmpi a) s fun e s => jumpRun e s (e.u a) true []

def execCall (d : OpCode) (offset : BitVec 16) (s : State) : Host.Outcome State Fault Refusal :=
  runInstr (.call d offset) s fun e s => jumpRun e s (e.target offset.toNat 16) false (destWrite d 0 e.next)

def execCalli (d a : OpCode) (s : State) : Host.Outcome State Fault Refusal :=
  runInstr (.calli d a) s fun e s => jumpRun e s (e.u a) true (destWrite d 0 e.next)

def execRet (a : OpCode) (s : State) : Host.Outcome State Fault Refusal :=
  runInstr (.ret a) s fun e s =>
    let t := e.u a
    if bits t.toNat 2 2 ≠ 0 then .raiseAt .misaligned t
    else if 2 ^ 52 ≤ t.toNat then .raiseAt .illegalAddress t
    else
      let s1 := emit s e.w e.iss.place 2 1 0 t.toNat
      e.noResult (e.move s1 (jump (w64 (t.toNat / 16 * 16)) (t.toNat % 4)))

/-! ## RJOIN (R145) -/

/-- A live path of the wave parked at an RJOIN of a bundle. -/
def joinedAt (bundle : Word) (p : Path) : Bool := p.parkedRjoin && p.pc == bundle

/-- The union of the masks of some paths. -/
def unionMask (ps : List Path) : Mask := ps.foldl (fun m p => m ||| p.mask) 0

/-- The oldest of some paths. -/
def oldestPath : List Path → Option Path
  | [] => none
  | p :: ps => some (ps.foldl (fun a b => if b.born < a.born then b else a) p)

/-- Paths parked at the same bundle merged into one (R145). It keeps the lowest program-counter slot among its parts,
and otherwise is a fragment, with the safe point of its oldest part (R39). -/
def Wave.mergeJoin (w : Wave) (bundle : Word) : Wave :=
  let placed := w.places.filter fun e => joinedAt bundle e.2
  let stacked := w.stack.filter (joinedAt bundle)
  let all := placed.map Prod.snd ++ stacked
  if all.length ≤ 1 then w
  else
    let m := unionMask all
    let others := w.places.filter fun e => !joinedAt bundle e.2
    -- an elided section of one of the parts is the merged path's (R263)
    let joins (born : Nat) : List Elision := w.elisions.map fun x =>
      if all.any fun q => q.born == x.path then { x with path := born } else x
    match placed with
    | (k, p) :: _ =>
      let sp := if k < 2 then p.safePoint else ((oldestPath all).map Path.safePoint).getD p.safePoint
      { w with places := mput others k { p with mask := m, safePoint := sp }
               stack := w.stack.filter fun q => !joinedAt bundle q
               elisions := joins p.born }
    | [] =>
      match stacked, oldestPath all with
      | p :: _, some old =>
        { w with stack := { p with mask := m, safePoint := old.safePoint } :: w.stack.filter fun q => !joinedAt bundle q
                 elisions := joins p.born }
      | _, _ => w

/-- The fragments parked at an RJOIN that hold a place on the core (R32). -/
def Wave.parkedFragments (w : Wave) : List (Nat × Path) := w.fragments.filter fun e => e.2.parkedRjoin

/-- A fragment parked at an RJOIN gives up its place to the stack while the stack has room (R32). -/
def stackParked (s : State) (uid : Nat) : Nat → Except XStop Unit × State
  | 0 => (.ok (), s)
  | fuel + 1 =>
    match s.wave? uid with
    | none => (.ok (), s)
    | some w =>
      match w.parkedFragments with
      | [] => (.ok (), s)
      | (k, p) :: _ =>
        if 64 ≤ w.stack.length then (.ok (), s)
        else
          match pushRecord s w p with
          | (.error x, s1) => (.error x, s1)
          | (.ok _, s1) =>
            match s1.wave? uid with
            | none => (.ok (), s1)
            | some w1 =>
              stackParked (rePlace s1 w1 (Wave.refill { w1 with places := merase w1.places k, stack := p :: w1.stack })) uid fuel

/-- The path parked at the RJOIN with the lowest token. Of several with that token, the first in the order of places, and then
of the stack from its top: the spec names none (DESIGN CHOICE, log entry 84). -/
def lowestJoin : List Path → Option Path
  | [] => none
  | p :: ps => match lowestJoin ps with
    | none => if p.parkedRjoin then some p else none
    | some q => match p.park, q.park with
      | .rjoin t, .rjoin u => if t ≤ u then some p else some q
      | _, _ => some q

/-- When every live path of a wave is parked at an RJOIN or in a wait, the one with the lowest token resumes at its next
bundle (R145). The distance of its next issue counts from the clock of the resume (DESIGN CHOICE, log entry 84). -/
def joinResume (s : State) (uid : Nat) : State :=
  match s.wave? uid with
  | none => s
  | some w =>
    if w.livePaths.all fun p => p.parkedRjoin || p.parkedWait then
      match lowestJoin w.livePaths with
      | none => s
      | some q =>
        let go : Path → Path := fun p => if p.parkedRjoin && p.born == q.born then
          { jump (p.pc + 16) 0 p with park := .running, lastIssue := s.clock, issued := true, nopStall := 0 } else p
        let w1 := { w with places := w.places.map (fun e => (e.1, go e.2)), stack := w.stack.map go }
        let place := ((w.places.find? fun e => e.2.born == q.born).map Prod.fst).getD 0
        let s1 := emitMask s w place 0 q.mask (q.pc + 16)
        rePlace s1 w1 w1.refill
    else s

def execRjoin (token : BitVec 16) (s : State) : Host.Outcome State Fault Refusal :=
  runInstr (.rjoin token) s fun e s =>
    match s.wave? e.w.uid with
    | none => e.noResult s
    | some w =>
      if w.livePaths.length ≤ 1 then e.noResult (e.move s (goto e.next 0))
      else
        let w1 := (w.modPath e.iss.place (parkedAt e.iss.bundle e.iss.slot (.rjoin token.toNat))).mergeJoin e.iss.bundle
        match stackParked (rePlace s w w1.refill) w.uid 8 with
        | (.error x, s1) => pathStop s1 x
        | (.ok _, s1) => e.noResult s1

/-! ## Mode, repeat, flag waits, yield, ending (R146 to R151) -/

def execSetmode (lit : Word32) (s : State) : Host.Outcome State Fault Refusal :=
  runInstr (.setmode lit) s fun e s =>
    let m : ModeReg := lit.setWidth 24
    if modeOk m then .done (pend (s.modWave e.w.uid fun w => { w with mode := m }) e (some 0) [] .none false 0).2
    else .raise .modeInvalid

def execGetmode (d : OpCode) (s : State) : Host.Outcome State Fault Refusal :=
  runInstr (.getmode d) s fun e s => e.finish s 2 (e.all d (w64 e.w.mode.toNat))

/-- The opcode of a word takes a literal (R59). -/
def wordTakesLiteral (word : Word32) : Bool :=
  match decodeInstr 3 word 0 with
  | .error c => c == .literalSlot
  | .ok _ => false

/-- The uses of REP that raise RESERVED_FIELD on it (R146), those of a REP of count 0 too, whose target is skipped and not
decoded: the spec does not order the two (DESIGN CHOICE, log entry 84). A stepped field must hold an operand code, not an immediate or
zero, and name a v or s register. -/
def repMisused (slot : Nat) (step : Byte) (word : Word32) : Bool :=
  let op := (word.extractLsb' 24 8).toNat
  slot == 3 || word == 0 || op < 0x20 || 0xBF < op ||
    (steppedPlaces step).any fun k => !operandField word k || !(isVCode (fieldCode word k) || isSCode (fieldCode word k))

def execRep (count stride : Byte) (s : State) : Host.Outcome State Fault Refusal :=
  runInstr (.rep count stride) s fun e s =>
    if repMisused e.iss.slot stride e.iss.nextWord then .raise .reservedField
    else if e.w.rep.valid then .wait
    else if count = 0 then
      let a := afterSlot e.iss.bundle (e.iss.slot + 1) (wordTakesLiteral e.iss.nextWord)
      -- the bundle's last issued slot, when what it skips was all that followed (R138)
      e.noResult (e.move s fun p =>
        if e.iss.skipYield then yieldAt s e { goto a.1 a.2 p with yieldPending := false } else goto a.1 a.2 p)
    else
      e.noResult (s.modWave e.w.uid fun w => { w with rep :=
        { valid := true, path := e.iss.place, stride := stride, next := 0, left := count.toNat + 1 } })

/-- A pending EXACT_CELL_RANGE report of an AXADD whose flag a mask names (R246). -/
def cellReportOf (w : Wave) (mask : Nat) : Option CellReport :=
  w.cellReps.find? fun r => r.setf != 0 && bitOf mask (r.setf - 1)

def execWaitf (n : Byte) (flags : BitVec 16) (s : State) : Host.Outcome State Fault Refusal :=
  runInstr (.waitf n flags) s fun e s =>
    match cellReportOf e.w flags.toNat with
    | some r => .raiseAt .exactCellRange r.addr
    | none => if e.w.flagsAtMost n.toNat flags.toNat then e.noResult s else .waitFor 7

def execYield (s : State) : Host.Outcome State Fault Refusal :=
  runInstr .yield s fun e s =>
    if e.iss.isLast then
      e.noResult (e.move s (yieldAt s e))
    else e.noResult (e.move s fun p => { p with yieldPending := true })

/-- A pending SCRATCH_GUARD report falls due at an instruction that would otherwise take effect; a precise fault of the
instruction comes first, and another imprecise report, of a higher code, after it (R48, R51). -/
def withGuard (e : Env) (eff : Effect) : Effect :=
  match e.w.guardRep with
  | none => eff
  | some r =>
    let report : Effect := .trap .scratchGuard none 0 (w64 (r.more * 2 ^ 48 + r.bank * 2 ^ 32 + r.offset))
    match eff with
    | .trap c .. => if c.precise then eff else report
    | .trapNoted .. | .error .. | .wait | .waitFor _ | .blocked .. | .noRoom _ | .noLog => eff
    | _ => report

/-- A wave that ends with a stop pending drops it, with its STOP record (R409). -/
def dropStops (s : State) (w : Wave) (edge : Word) : State :=
  let s1 := if w.watchStop then stopRecord s w edge .watchpoint true else s
  let s2 := if w.traceStop then stopRecord s1 w edge .traceStop true else s1
  s2.modWave w.uid fun x => { x with watchStop := false, traceStop := false }

/-- EXIT and TAIL (R151): the issuing path ends, and the wave leaves when it was the last. The wave's reservation is cleared
(R255), and a section of the path ends (R263). A report that an atomic on its way may still bring is waited for (R246, R252). -/
def endRun (e : Env) (s : State) (byExit : Bool) : Effect :=
  withGuard e (
    if e.w.held.isSome then .error s .doubleFault
    else match unflaggedCell e.w with
      | some r => .raiseAt .exactCellRange r.addr
      | none =>
        let last := decide (e.w.livePaths.length ≤ 1)
        if cellComing s e.w || guardComing s e.w then .waitFor 6
        else if last && !byExit && decide (Config.trackerEntries ≤ (s.core e.w.core).tracker.length) then .wait
        else
          let s1 := (pend s e (some 1) [] .none false 0).2
          let s2 := emitMask s1 e.w e.iss.place 2 0 e.iss.bundle
          match s2.wave? e.w.uid with
          | none => .done s2
          | some w =>
            let left : Elision → List Nat := fun x => x.lanes.filter fun l => !inMask e.p.mask l
            let ended : Elision → Bool := fun x => x.holds e.p && (x.plain || (left x).isEmpty || !(w.allPaths.any fun p =>
              p.born != e.p.born && x.holds p))
            let dropped : TxLane → Bool := fun t => w.elisions.any fun x =>
              x.holds e.p && !x.plain && x.lanes.contains t.lane && (ended x || inMask e.p.mask t.lane)
            let w1 := { w with
              rep := if w.rep.valid && w.rep.path == e.iss.place then emptyRep else w.rep
              reservation := w.reservation.map fun (r : Reservation) => { r with valid := false }
              tx := w.tx.filter fun t => !dropped t
              elisions := (w.elisions.filter fun x => !ended x).map fun (x : Elision) => if x.plain then x else { x with lanes := left x } }
            let w2 := w1.dropPlace e.iss.place
            if last then .done (dropStops (s2.setWave { w2 with leaving := some byExit }) w2 e.iss.bundle)
            else .done (rePlace s2 w w2))

def execExit (s : State) : Host.Outcome State Fault Refusal := runInstr .exit s fun e s => endRun e s true
def execTail (s : State) : Host.Outcome State Fault Refusal := runInstr .tail s fun e s => endRun e s false

/-! ## Sets (R152, R153) -/

/-- The positions the members of a set hold. -/
def setPositions (s : State) (b : Block) (n : Nat) : List Nat :=
  (setMembers s b n).flatMap fun w => (w.sets.filter fun e => e.1 == n).map Prod.snd

/-- The lowest position that no member holds. -/
def freePosition (taken : List Nat) : Nat := ((List.range (taken.length + 1)).find? fun k => !taken.contains k).getD 0

def execSetjoin (d a : OpCode) (s : State) : Host.Outcome State Fault Refusal :=
  runInstr (.setjoin d a) s fun e s =>
    let n := (e.u a).toNat
    match s.waveBlock e.w with
    | none => .raise .setMisuse
    | some b =>
      if 63 < n || e.w.sets.any fun x => x.1 == n then .raise .setMisuse
      else
        let taken := setPositions s b n
        if 4 ≤ e.w.sets.length || (b.quadSets.contains n && decide (4 ≤ taken.length)) then .raise .setFull
        else
          let pos := freePosition taken
          e.finish (s.modWave e.w.uid fun w => { w with sets := w.sets ++ [(n, pos)] }) 2 (e.all d (w64 pos))

def execSetleave (a : OpCode) (s : State) : Host.Outcome State Fault Refusal :=
  runInstr (.setleave a) s fun e s =>
    let n := (e.u a).toNat
    match s.waveBlock e.w with
    | none => .raise .setMisuse
    | some b =>
      if e.w.sets.any fun x => x.1 == n then
        let s1 := dissolveQuad s e.w.lid e.w.bid e.w.run n
        e.noResult (recheckSet (s1.modWave e.w.uid fun w => { w with sets := w.sets.filter fun x => x.1 != n }) b n)
      else .raise .setMisuse

/-! ## Barriers, signals and bound regions (R154 to R159) -/

/-- The operation on an object: its address, 16 bytes wide, with an argument. -/
def objOp (e : Env) (k : MemKind) (addr arg arg2 : Word) (d : OpCode) : MemOp :=
  { plainOp k with
    dest := d, mask := e.p.mask, scalar := true, base := addr, arg := arg, arg2 := arg2, option := e.p.waitResume
    lanes := [{ lane := 0, addr := addr, width := 16, data := 0, data2 := 0 }] }

/-- A synchronisation instruction: no transaction supports one (R257). -/
def objRun (e : Env) (s : State) (op : MemOp) : Effect := unsupportedWave e s fun s keep => syncRun e s { op with mask := keep }

def execArrive (a b : OpCode) (s : State) : Host.Outcome State Fault Refusal :=
  runInstr (.arrive a b) s fun e s => withGuard e (objRun e s (objOp e .arrive (e.u a) (e.u b) 0 0xD0))

def execWaitb (d a : OpCode) (s : State) : Host.Outcome State Fault Refusal :=
  runInstr (.waitb d a) s fun e s => withGuard e (objRun e s (objOp e .waitb (e.u a) 0 0 d))

def execArrwait (d a b : OpCode) (s : State) : Host.Outcome State Fault Refusal :=
  runInstr (.arrwait d a b) s fun e s => withGuard e (objRun e s (objOp e .arrwait (e.u a) (e.u b) 0 d))

def execSignal (a b : OpCode) (s : State) : Host.Outcome State Fault Refusal :=
  runInstr (.signal a b) s fun e s => objRun e s (objOp e .signal (e.u a) (e.u b) 0 0xD0)

def execSigwait (d a b : OpCode) (s : State) : Host.Outcome State Fault Refusal :=
  runInstr (.sigwait d a b) s fun e s => objRun e s (objOp e .sigwait (e.u a) (e.u b) 0 d)

def execBind (d a b : OpCode) (s : State) : Host.Outcome State Fault Refusal :=
  runInstr (.bind d a b) s fun e s => objRun e s (objOp e .bind (e.u a) (e.u d) (e.u b) 0xD0)

def execUnbind (a b : OpCode) (s : State) : Host.Outcome State Fault Refusal :=
  runInstr (.unbind a b) s fun e s => objRun e s (objOp e .unbind (e.u a) 0 (e.u b) 0xD0)

/-! ## Regions (R160, R403, R409) -/

/-- A region edge with its packet; a pending stop is taken after it, outside a handler (R409). -/
def edgeRun (e : Env) (s : State) (regions : List (BitVec 16)) (sub ident : Nat) : Effect :=
  let s1 := s.modWave e.w.uid fun w => { w with regions := regions }
  match s1.wave? e.w.uid with
  | none => .done s1
  | some w =>
    let s2 := emitRegion s1 e.w e.iss.place sub ident regions
    let s3 := (pend s2 e (some 1) [] .none false 0).2
    if e.w.held.isSome then .done s3
    else if e.w.watchStop then
      .done (takeTrap ((stopRecord s3 w e.iss.bundle .watchpoint false).modWave w.uid fun x => { x with watchStop := false })
        e false .watchpoint none 0 0)
    else if e.w.traceStop then
      .done (takeTrap ((stopRecord s3 w e.iss.bundle .traceStop false).modWave w.uid fun x => { x with traceStop := false })
        e false .traceStop none 0 0)
    else .done s3

def execRgnin (ident : BitVec 16) (s : State) : Host.Outcome State Fault Refusal :=
  runInstr (.rgnin ident) s fun e s => edgeRun e s ((ident :: e.w.regions).take 16) 0 ident.toNat

def execRgnout (ident : BitVec 16) (s : State) : Host.Outcome State Fault Refusal :=
  runInstr (.rgnout ident) s fun e s =>
    edgeRun e s (e.w.regions.drop 1) (if e.w.regions.head? = some ident then 1 else 2) ident.toNat

/-! ## Safe points (R39 to R42, R82) -/

/-- An entry of the safe-point table. -/
structure SafePoint where
  save : Word
  restore : Word
  link : OpCode
  deriving DecidableEq, Repr

/-- The entry's bytes; none when it is null (R82). -/
def parseSafePoint (bs : List Byte) : Option SafePoint :=
  let save := field bs 0 8
  let restore := field bs 8 8
  let link := field bs 16 1
  if save = 0 || restore = 0 || save % 16 ≠ 0 || restore % 16 ≠ 0 || link < 0x80 || 0xB7 < link || !zeroField bs 17 7 then none
  else some { save := w64 save, restore := w64 restore, link := BitVec.ofNat 8 link }

/-- Entry `n` of the safe-point table of a wave's kernel, read as an LS-path access of the wave (R39). `none` when it is
null or lies beyond the table. -/
def safePointEntry (s : State) (w : Wave) (n : Nat) : Except XStop (Option SafePoint) × State :=
  match s.launch? w.lid with
  | none => (.ok none, s)
  | some l =>
    if field l.header 0x0C 4 ≤ n then (.ok none, s)
    else
      match readVirt s (committedActor s w) (field l.header 0x10 8 + 24 * n) 24 with
      | (.error x, s1) => (.error x, s1)
      | (.ok bs, s1) => (.ok (parseSafePoint bs), s1)

/-- The path enters save routine `n`, its restore routine to return to `resume` (R39, R41). -/
def enterSave (sp : SafePoint) (n : Nat) (resume : Word) (clock : Nat) (p : Path) : Path :=
  { jump sp.save 0 p with
    park := .running, safePoint := some n, inSave := true, resume := resume, lastIssue := clock, issued := true, nopStall := 0 }

/-- The wave's context has a pre-emption request pending. -/
def preemptPending (s : State) (w : Wave) : Bool := ((s.waveCtx w).map fun c => c.preempt.isSome).getD false

/-- SPT (R39). The link of its restore routine names the next bundle's start, SPT ending its bundle (DEDUCED, log entry
84). -/
def execSpt (n : Byte) (s : State) : Host.Outcome State Fault Refusal :=
  runInstr (.spt n) s fun e s =>
    if e.w.held.isSome then e.noResult (e.move s (goto e.next 0))
    else if !preemptPending s e.w then
      e.noResult (e.move s fun p => { goto e.next 0 p with safePoint := some n.toNat })
    else
      match e.w.sectionOf e.p with
      | some x => .done (abortSection s e.w.uid x)
      | none =>
        match safePointEntry s e.w n.toNat with
        | (.error x, s1) => pathStop s1 x
        | (.ok none, s1) => .error s1 .safepointTable
        | (.ok (some sp), s1) =>
          let s2 := s1.modWave e.w.uid fun w => w.leaveSection.abortTx 8
          e.noResult (e.move s2 (enterSave sp n.toNat e.next s.clock))

/-- The armed records of a wave cancelled (R309). -/
def cancelArms (s : State) (w : Wave) : State :=
  let c := s.core w.core
  let cancel : ArmRec → ArmRec := fun a => if a.uid == w.uid && a.state == .armed then { a with state := .cancelled } else a
  s.setCore w.core { c with arms := c.arms.map cancel }

/-- A saved path in a place gives it up to the most recently pushed fragment that has not executed PSAVE (R40). None when
there is no such pair. -/
def savedGivesUp (s : State) (w : Wave) : Option (Except XStop Unit × State) :=
  match takeFirst (fun p => p.park != .saved) w.stack, w.places.find? fun e => e.2.park == .saved with
  | some (q, rest), some (k, p) =>
    some (match pushRecord s { w with stack := rest } p with
      | (.error x, s1) => (.error x, s1)
      | (.ok _, s1) => (.ok (), rePlace s1 w { w with stack := p :: rest, places := mput w.places k q }))
  | _, _ => none

/-- PSAVE (R40, R161, R309): the path has finished its save routine and waits at it. While another path on the fragment
stack has not, it gives up its place to the most recently pushed of those. The wave's last path to execute PSAVE dissolves
its quads' partial groups (R270, R293). -/
def execPsave (s : State) : Host.Outcome State Fault Refusal :=
  runInstr .psave s fun e s =>
    if !e.p.inSave then .raise .privileged
    else
      withGuard e (
        let s1 := (pend (cancelArms s e.w) e (some 1) [] .none false 0).2
        let s2 := e.move s1 (parkedAt e.iss.bundle e.iss.slot .saved)
        match s2.wave? e.w.uid with
        | none => .done s2
        | some w =>
          match savedGivesUp s2 w with
          | some (.error x, s3) => pathStop s3 x
          | some (.ok _, s3) => .done s3
          | none => .done (if w.livePaths.all fun p => p.park == .saved then dissolveAll s2 w else s2))

/-! ## Traps (R44 to R47, R162) -/

def execTrap (code : BitVec 16) (s : State) : Host.Outcome State Fault Refusal :=
  runInstr (.trap code) s fun _ _ => .trap .softwareTrap none 0 (w64 code.toNat)

/-- The HALT_REQUEST trap of a path before its next instruction (R47): its resume point is where it stands, and s59 names
no lane (R44). -/
def haltTrap (s : State) (w : Wave) (place : Nat) : State :=
  match mfind w.places place with
  | none => s
  | some p =>
    let slot := if p.fresh then 0 else p.slot
    let t : TrapInfo := { cause := .haltRequest, word := 0, bundle := p.pc, slot := 0, addr := 0, lanes := some 0, detail := 0,
                          resumeBundle := p.pc, resumeSlot := slot }
    let s1 := enterTrap (s.setWave { w with haltPending := false }) { w with haltPending := false } place t
    match s1.wave? w.uid with
    | none => s1
    | some w1 => match mfind w1.places 0 with
      | some h => if w1.held.isSome then emitMask s1 w 0 3 h.mask h.pc else s1
      | none => s1

def execTret (s : State) : Host.Outcome State Fault Refusal :=
  runInstr .tret s fun e s =>
    match e.w.held with
    | none => .raise .privileged
    | some h =>
      if e.w.places.any fun x => x.1 != e.iss.place then .error s .doubleFault
      else
        match (pend s e (some 1) [] .none false 0).2.wave? e.w.uid with
        | none => .done s
        | some w =>
          let s1 := leaveTrap (pend s e (some 1) [] .none false 0).2 w
          match s1.wave? w.uid with
          | none => .done s1
          | some w1 =>
            let s2 := match mfind w1.places h.faultPlace with
              | some p => emitMask s1 e.w h.faultPlace 4 p.mask p.pc
              | none => s1
            if w1.haltPending then .done (haltTrap s2 w1 h.faultPlace) else .done s2

/-! ## System registers (R163, R164, R203, R237, R265, R325, R370) -/

/-- REPSTATE (R147). -/
def repWord (r : RepState) : Nat :=
  if r.valid then r.path * 2 ^ 25 + 2 ^ 24 + r.stride.toNat * 2 ^ 16 + r.next * 2 ^ 8 + r.left else 0

/-- The mask of a program-counter slot. -/
def slotMask (w : Wave) (k : Nat) : Nat := ((mfind w.places k).map fun p => p.mask.toNat).getD 0

/-- The sequencer's registers (R164). -/
def sequencerReg (s : State) (w : Wave) (n : Nat) : Nat :=
  match n with
  | 0 => slotBase s w
  | 1 => w.core * 2 ^ 10 + w.part * 2 ^ 6 + w.wslot
  | 2 => repWord w.rep
  | 3 => w.flagWord.toNat
  | 4 => slotMask w 1 * 2 ^ 32 + slotMask w 0
  | 5 => w.stack.length * 2 ^ 8 + w.fragments.length
  | 6 => b2n (((s.waveCtx w).map Context.rr).getD false)
  | 7 => s.clock
  | _ => match (s.waveCtx w).bind Context.preempt with
    | some (level, _) => 1 + level * 2 ^ 8
    | none => 0

/-- The load/store engine's registers (R237). The windows of WSPHASE are R222's, so group 0's is open at clock 0, against the reset
value 0 of the table; and bits 19:16, which the table gives only while a window is open, hold the group whose window opened last
(DESIGN CHOICE, log entry 107). -/
def loadStoreReg (s : State) (w : Wave) (n : Nat) : Nat :=
  match n with
  | 0x100 => match s.waveBlock w with
    | some b => w.core % 8 * 2 ^ 36 + sumNat ((b.shares.map fun x => x.core % 8).eraseDups.map fun k => 2 ^ (28 + k)) +
        b.shareSize
    | none => 0
  | 0x101 =>
    let ns := s.clock % (64 * Config.clocksPerUs) / 2
    b2n (decide (ns % 4000 < 2000)) * 2 ^ 20 + ns / 4000 * 2 ^ 16 + ns
  | 0x102 => w.pinAsked * 2 ^ 32 + w.pinMade
  | 0x105 => Nat.min logPlaces w.log.length
  | _ => 0

/-- A word of a permutation slot (R200, R203). -/
def permWord (w : Wave) (n : Nat) : Nat :=
  let k := (n - 0x200) / 8
  let j := (n - 0x200) % 8
  if 6 ≤ j then 0
  else bits (sumNat ((List.range 64).map fun i => mget 0 w.perm (64 * k + i) % 64 * 64 ^ i)) (64 * j) 64

/-- The atomic engine's registers (R265). -/
def atomicReg (s : State) (w : Wave) (n : Nat) : Nat :=
  if n = 0x300 then b2n (((s.waveCtx w).map Context.elide).getD false) + 2 * b2n w.section?.isSome
  else match w.reservation with
    | some r => r.addr.toNat / 256 * 256 + b2n r.valid
    | none => 0

/-- The block's commands on a core that have not ended (R325). -/
def blockCommands (s : State) (w : Wave) : List Command :=
  (s.core w.core).channels.flatMap fun ch => ch.filter fun c => c.lid == w.lid && c.bid == w.bid && c.run == w.run && c.waitSeq.isNone

/-- The copy engine's registers (R325). -/
def copyReg (s : State) (w : Wave) (n : Nat) : Nat :=
  let c := s.core w.core
  match n with
  | 0x400 =>
    let mine : Wave → Bool := fun x => x.core == w.core && x.lid == w.lid && x.bid == w.bid && x.run == w.run
    let waiters := sumNat ((s.waves.filter mine).map fun x => (x.allPaths.filter fun p => match p.park with
      | .event .. => true
      | _ => false).length)
    let queued := (c.queues.find? fun q => q.lid == w.lid && q.bid == w.bid && q.run == w.run).map fun q => q.records.length
    waiters * 2 ^ 16 + (blockCommands s w).length * 2 ^ 8 + queued.getD 0
  | 0x401 => sumNat ((List.range 4).map fun k => ((c.channels.getD k []).filter fun x => x.waitSeq.isNone).length * 2 ^ (5 * k))
  | _ => (c.arms.filter fun a => a.uid == w.uid).length * 2 ^ 8 + c.arms.length

/-- The check engine's registers (R370). -/
def checkReg (s : State) (w : Wave) (n : Nat) : Nat :=
  if n = 0x500 then b2n (((s.waveCtx w).map Context.releaseUnchecked).getD false) + s.mgmt.threshold * 2 ^ 8
  else
    let held := (s.heldSectors.filter fun h => h.lid == w.lid && h.bid == w.bid && h.run == w.run).length
    let logged := (s.atomicLog.filter fun e => e.1 == w.lid && e.2.1 == w.bid).length
    Nat.min logged 0xFFFF * 2 ^ 32 + Nat.min held (2 ^ 32 - 1)

/-- A system register's value. WO registers read zero (R9). -/
def sysReg (s : State) (w : Wave) (n : Nat) : Word :=
  w64 (if n < 0x100 then sequencerReg s w n
    else if n < 0x200 then loadStoreReg s w n
    else if n < 0x300 then permWord w n
    else if n < 0x400 then atomicReg s w n
    else if n < 0x500 then copyReg s w n
    else checkReg s w n)

def execSysrd (d : OpCode) (lit : Word32) (s : State) : Host.Outcome State Fault Refusal :=
  runInstr (.sysrd d lit) s fun e s => e.finish s 2 (e.all d (sysReg s e.w (litBits lit 0 16)))

/-- GUARDSET and GUARDCLR (R219, R237): the granule of an offset in the share on the issuing core. -/
def guardWrite (e : Env) (s : State) (x : Word) (on : Bool) : Effect :=
  match shareTarget s e.w e.w.core x.toNat with
  | .ok (.scratch core _ phys) =>
    let c := s.core core
    let others := c.guards.filter fun g => g != phys / 64
    e.noResult (s.setCore core { c with guards := if on then others ++ [phys / 64] else others })
  | _ => .raiseAt .scratchRange x

def execSyswr (a : OpCode) (lit : Word32) (s : State) : Host.Outcome State Fault Refusal :=
  runInstr (.syswr a lit) s fun e s =>
    match litBits lit 0 16 with
    | 0x103 => guardWrite e s (e.u a) true
    | 0x104 => guardWrite e s (e.u a) false
    | _ => e.noResult s

end Sys2Proof.Machine
end

