-- ==== Sys2Proof/Machine/Tile.lean ====
section
/-! DEFINITION. The numbers of the matrix engine: accumulator formats (R98), the block update (R100) with the slice plans
(R101, R102), format blocks (R271, R272), and drains with their scales (R286, R287). -/

namespace Sys2Proof.Machine

/-! ## Accumulators -/

/-- W48 and W96 as formats of a sign, exponent and fraction (R98). -/
def fmtW48 : FloatFmt := ⟨10, 37⟩
def fmtW96 : FloatFmt := ⟨15, 80⟩

/-- An accumulator's exact value: exponent field 0 is zero whatever the fraction (R98). -/
def accDec (t : FloatFmt) (x : Nat) : FVal :=
  if bits x t.fbits t.ebits = 0 then .zero (bitOf x (t.ebits + t.fbits)) else fdec t x

/-- A nonzero magnitude rounded once to nearest-even: overflow gives infinity, and a rounded result below the range zero
of its sign (R98, R100). -/
def accRoundFin (t : FloatFmt) (neg : Bool) (m : Nat) (e : Int) : Nat :=
  let ex := e + Nat.log2 m
  let n := (roundAt .rne neg m e (ex - t.fbits)).1
  let carry := n == 2 ^ (t.fbits + 1)
  let exU := if carry then ex + 1 else ex
  let frac := if carry then 0 else n - 2 ^ t.fbits
  let sgn := if neg then fmtSign t else 0
  if (fmtBias t : Int) < exU then sgn + fmtInf t
  else if exU < 1 - (fmtBias t : Int) then sgn
  else sgn + (exU + fmtBias t).toNat * 2 ^ t.fbits + frac

/-- An exact value in an accumulator format. -/
def accBits (t : FloatFmt) : FVal → Nat
  | .nan _ => fmtNaN t
  | .inf neg => (if neg then fmtSign t else 0) + fmtInf t
  | .zero neg => if neg then fmtSign t else 0
  | .fin neg m e => if m = 0 then 0 else accRoundFin t neg m e

/-- The lowest weight below the largest term's exponent that the window holds (R100 step 2). -/
def windowDepth (t : FloatFmt) : Int := if t.fbits = 37 then 115 else 243

/-- A finite term truncated toward zero at weight `2^lo`: its signed multiple, and whether a bit was cut. -/
def truncTerm (lo : Int) : FVal → Int × Bool
  | .fin neg m e =>
    if lo ≤ e then (let x : Int := m * 2 ^ (e - lo).toNat; (if neg then -x else x, false))
    else
      let d := 2 ^ (lo - e).toNat
      let x : Int := (m / d : Nat)
      (if neg then -x else x, m % d != 0)
  | _ => (0, false)

/-- The exponent of a nonzero finite value. -/
def topExpo : FVal → Option Int
  | .fin _ m e => if m = 0 then none else some (e + Nat.log2 m)
  | _ => none

/-- The largest exponent of a list of values. -/
def maxExpo (vs : List FVal) : Option Int :=
  (vs.filterMap topExpo).foldl (fun a x => some (match a with | some y => max x y | none => x)) none

/-- Steps 2 to 4 of R100: the block sum of finite terms. -/
def blockSum (t : FloatFmt) (terms : List FVal) : FVal :=
  match maxExpo terms with
  | none => .zero false
  | some top =>
    let lo := top - windowDepth t
    let cut := terms.map (truncTerm lo)
    let total := cut.foldl (fun a x => a + x.1) (0 : Int)
    let sticky := cut.any Prod.snd
    if total = 0 then .zero false
    else .fin (decide (total < 0)) (if sticky then total.natAbs ||| 1 else total.natAbs) lo

/-- The block update of R100 from an accumulator's bits: `negZero` says that every term counts as −0. -/
def blockUpdate (t : FloatFmt) (acc : Nat) (terms : List FVal) (negZero : Bool) : Nat :=
  let a := accDec t acc
  let all := a :: terms
  if all.any FVal.isNaN then fmtNaN t
  else
    let pos := all.any fun v => v == .inf false
    let neg := all.any fun v => v == .inf true
    if pos && neg then fmtNaN t
    else if pos then accBits t (.inf false)
    else if neg then accBits t (.inf true)
    else
      let x := blockSum t terms
      match (exactSum .rne [a, x]).1 with
      | .zero _ => accBits t (.zero (a == .zero true && negZero))
      | v => accBits t v

/-! ## Slices -/

/-- `trunc_bf16` of R101: the 8 leading significant bits, none below `2^-133`. -/
def truncBF16 : FVal → FVal
  | .fin neg m e =>
    let lo := max (e + Nat.log2 m - 7) (-133)
    if lo ≤ e then .fin neg m e
    else
      let n := m / 2 ^ (lo - e).toNat
      if n = 0 then .zero neg else .fin neg n lo
  | v => v

/-- The exact difference of two values. -/
def exactSub (x y : FVal) : FVal := (exactSum .rne [x, y.negate]).1

/-- hi, mid and lo of R101. -/
def bf16Slices (x : FVal) : List FVal :=
  let hi := truncBF16 x
  let mid := truncBF16 (exactSub x hi)
  let lo := truncBF16 (exactSub (exactSub x hi) mid)
  [hi, mid, lo]

/-- The kept products of R101, as slice indexes of A and B. -/
def keptPairs : List (Nat × Nat) := [(0, 0), (0, 1), (1, 0), (1, 1), (0, 2), (2, 0)]

/-- The eight slices of R102 of an element of a row or column whose largest exponent is `top`. -/
def int8Slices (top : Int) : FVal → List FVal
  | .fin neg m e =>
    let d := e + 55 - top
    let q := if 0 ≤ d then m * 2 ^ d.toNat else m / 2 ^ (-d).toNat
    (List.range 8).map fun i =>
      let x := bits q (49 - 7 * i) 7
      if x = 0 then .zero false else .fin neg x (top - 6 - 7 * (i : Int))
  | _ => List.replicate 8 (.zero false)

/-- The pairs of slices kept by R102: those with i + j at most 7. -/
def keptSlices : List (Nat × Nat) :=
  (List.range 8).flatMap fun i => (List.range (8 - i)).map fun j => (i, j)

/-- A value is an infinity or a NaN. -/
def FVal.special : FVal → Bool
  | .nan _ | .inf _ => true
  | _ => false

/-- The slices of a row or column under a plan: one, three or eight a value. -/
def planSlices (plan : Nat) (xs : List FVal) : List (List FVal) :=
  if plan = 6 then xs.map bf16Slices
  else if plan = 36 then xs.map (int8Slices ((maxExpo xs).getD 0))
  else xs.map fun x => [x]

/-- The pairs a plan keeps. -/
def planPairs (plan : Nat) : List (Nat × Nat) :=
  if plan = 6 then keptPairs else if plan = 36 then keptSlices else [(0, 0)]

/-- The terms of one output element (R100 to R102), and whether every k counts as −0 (R100 step 5). The products of finite
elements are exact in every format, FP32 and FP64 too (DEDUCED, log entry 25). -/
def blockTerms (plan : Nat) (row col : List FVal) (rowSl colSl : List (List FVal)) : List FVal × Bool :=
  let prods := List.zipWith (fun x y => (exactMul x y).1) row col
  let negZero := prods.all fun p => p == .zero true
  if plan = 1 || prods.any FVal.special || row.any FVal.special || col.any FVal.special then (prods, negZero)
  else
    let pick : List FVal → Nat → FVal := fun l i => l.getD i (.zero false)
    ((List.zip rowSl colSl).flatMap fun (x, y) => (planPairs plan).map fun (i, j) => (exactMul (pick x i) (pick y j)).1,
      negZero)

/-! ## Format blocks (R271, R272) -/

/-- A format block's fields. `acc` is the accumulator: 0 W48, 1 W96, 2 I48. -/
structure FmtBlock where
  af : Nat
  bf : Nat
  acc : Nat
  clocks : Nat
  plan : Nat
  aPitch : Nat
  drain : Nat
  rnd : Nat
  copy : Nat
  dPitch : Nat
  cPitch : Nat
  dScale : Nat
  cScale : Nat
  deriving DecidableEq, Repr

/-- The accumulator, clocks per group and slice plan of a pair of formats (R271, R272). -/
def pairOf (af bf : Nat) : Option (Nat × Nat × Nat) :=
  if (af == 0 || af == 2 || af == 3) && (bf == 0 || bf == 2) then some (0, 32, 1)
  else if af == 1 && bf == 1 then some (2, 16, 1)
  else if af == 4 && bf == 4 then some (0, 192, 6)
  else if af == 5 && bf == 5 then some (1, 720, 36)
  else none

/-- Bytes of a row of A (R272). -/
def aRow (af : Nat) : Nat := [64, 32, 32, 32, 128, 256].getD af 0
/-- Bytes of one drained element (R272). -/
def drainWidth (drain acc : Nat) : Nat :=
  match drain with
  | 0 => 4 | 1 => 2 | 2 => 1 | 3 => 8 | 4 => 4
  | _ => if acc = 1 then 16 else 8
/-- Bytes of one element of the copy. -/
def copyWidth (copy : Nat) : Nat := if copy = 1 then 2 else 1

/-- Drain formats an accumulator allows (R272). -/
def drainOk (acc drain : Nat) : Bool :=
  match acc with
  | 0 => drain == 0 || drain == 1 || drain == 2 || drain == 5
  | 1 => drain == 3 || drain == 5
  | _ => drain == 4 || drain == 5

/-- A row pitch of the drain or the copy (R271). -/
def pitchOk (pitch row : Nat) : Bool := pitch % 64 == 0 && decide (row ≤ pitch) && decide (pitch ≤ 2 ^ 24)

/-- A scale address: in global memory or scratchpad when it is used, and otherwise zero (R271). -/
def scaleOk (used : Bool) (a : Nat) : Bool :=
  if used then (let sel := bits a 56 8; sel == 0 || sel == 0xFC || sel == 0xFD) else a == 0

/-- A format block read from its 64 bytes; none when it is malformed. -/
def parseFmt (bs : List Byte) : Option FmtBlock :=
  let af := field bs 4 1
  let bf := field bs 5 1
  match pairOf af bf with
  | none => none
  | some (acc, clocks, plan) =>
    let b : FmtBlock :=
      { af := af, bf := bf, acc := acc, clocks := clocks, plan := plan, aPitch := field bs 8 4, drain := field bs 12 1,
        rnd := field bs 13 1, copy := field bs 14 1, dPitch := field bs 16 4, cPitch := field bs 20 4,
        dScale := field bs 24 8, cScale := field bs 32 8 }
    if field bs 0 4 == 1 && field bs 6 1 == 32 && field bs 7 1 == plan && b.aPitch % 32 == 0 &&
        decide (aRow af ≤ b.aPitch) && decide (b.aPitch ≤ 65536) && drainOk acc b.drain && decide (b.rnd ≤ 4) &&
        decide (b.copy ≤ 2) && (b.copy == 0 || acc == 0) && zeroField bs 15 1 &&
        pitchOk b.dPitch (64 * drainWidth b.drain acc) &&
        (if b.copy = 0 then b.cPitch == 0 else pitchOk b.cPitch (64 * copyWidth b.copy)) &&
        scaleOk (b.drain == 2) b.dScale && scaleOk (b.copy == 2) b.cScale && zeroField bs 40 24 then some b
    else none

/-- The wave's format state (R271). -/
def Wave.fmtState (w : Wave) : Option FmtBlock := w.fmt.bind parseFmt

/-- The accumulator's format, for W48 and W96. -/
def accFmt (acc : Nat) : FloatFmt := if acc = 1 then fmtW96 else fmtW48
/-- An accumulator element's exact value. -/
def accValue (acc x : Nat) : FVal := if acc = 2 then FVal.ofInt (toSigned 48 x) else accDec (accFmt acc) x
/-- Bits of an accumulator element (R98). -/
def accWidth (acc : Nat) : Nat := if acc = 1 then 96 else 48

/-! ## Operands (R99, R275, R276) -/

/-- Element (r, k) of A, from the rows' bytes laid end to end (R275). -/
def aElem (af : Nat) (bs : List Byte) (r k : Nat) : FVal :=
  let o := r * aRow af
  match af with
  | 0 => fdec fmtBF16 (field bs (o + 2 * k) 2)
  | 1 => FVal.ofInt (toSigned 8 (field bs (o + k) 1))
  | 2 => tdecCode 8 1 (field bs (o + k) 1)
  | 3 => tdecCode 6 0 (bits (field bs (o + 8 * (k / 10)) 8) (6 * (k % 10)) 6)
  | 4 => fdec fmtF32 (field bs (o + 4 * k) 4)
  | _ => fdec fmtF64 (field bs (o + 8 * k) 8)

/-- Registers of a quarter of B (R276). -/
def bRegs (bf : Nat) : Nat := match bf with | 0 => 4 | 1 | 2 => 2 | 4 => 8 | _ => 16
/-- Registers the B group must have within the budget (R276): the field is a group of four. -/
def bGroup (bf : Nat) : Nat := Nat.max 4 (bRegs bf)

/-- Element (k, c) of B for a column of one quarter (R276): `regs` holds register `vN + j` of lane `l` at `32 j + l`. -/
def bElem (bf : Nat) (regs : SMap Word) (k c : Nat) : FVal :=
  let reg : Nat → Nat := fun j => (mget 0 regs (32 * j + k)).toNat
  match bf with
  | 0 => fdec fmtBF16 (bits (reg (c / 4)) (16 * (c % 4)) 16)
  | 1 => FVal.ofInt (toSigned 8 (bits (reg (c / 8)) (8 * (c % 8)) 8))
  | 2 => tdecCode 8 1 (bits (reg (c / 8)) (8 * (c % 8)) 8)
  | 4 => fdec fmtF32 (bits (reg (c / 2)) (32 * (c % 2)) 32)
  | _ => fdec fmtF64 (reg c)

/-- One I48 element's update, and whether it saturated (R100). -/
def i48Update (acc : Nat) (row col : List FVal) : Nat × Bool :=
  let total := (List.zipWith (fun x y => x.mantAt 0 * y.mantAt 0) row col).foldl (· + ·) (toSigned 48 acc)
  let lim : Int := 2 ^ 47
  let x := min (max total (-lim)) (lim - 1)
  (lowBits 48 x, x != total)

/-- The elements of a tile after a group (R278), from those before it, and whether an I48 element saturated. -/
def groupUpdate (f : FmtBlock) (elems : SMap Nat) (aData : List Byte) (cs : List Contrib) : SMap Nat × Bool :=
  let ks := List.range 32
  let rows := (List.range 64).map fun r => ks.map (aElem f.af aData r)
  let cols := (List.range 64).map fun c =>
    match cs.find? fun x => x.pos == c / 16 with
    | some x => ks.map fun k => bElem f.bf x.regs k (c % 16)
    | none => []
  let rowSl := rows.map (planSlices f.plan)
  let colSl := cols.map (planSlices f.plan)
  (List.range 64).foldl (fun (st : SMap Nat × Bool) r =>
    (List.range 64).foldl (fun (st : SMap Nat × Bool) c =>
      let key := 64 * r + c
      let old := mget 0 elems key
      let row := rows.getD r []
      let col := cols.getD c []
      if f.acc = 2 then
        let x := i48Update old row col
        (mset 0 st.1 key x.1, st.2 || x.2)
      else
        let t := blockTerms f.plan row col (rowSl.getD r []) (colSl.getD c [])
        (mset 0 st.1 key (blockUpdate (accFmt f.acc) old t.1 t.2), st.2)) st) (elems, false)

/-! ## Drains (R286, R287) -/

/-- The scale of a block of 32 values (R287). -/
def drainScale (vs : List FVal) : Nat :=
  match maxExpo vs with
  | none => 127
  | some e => (min (max (e - 3 + 127) 0) 254).toNat

/-- A value times a power of two. -/
def FVal.scale2 (k : Int) : FVal → FVal
  | .fin n m e => .fin n m (e + k)
  | v => v

/-- The rounding of a format block (R271). -/
def FmtBlock.rounding (f : FmtBlock) : Rnd := (rndOf f.rnd).getD .rne

/-- `drain(v, fmt, rnd)` of R286, with the T8 block's scale. -/
def drainElem (acc fmt : Nat) (rnd : Rnd) (scale raw : Nat) : Nat :=
  let v := accValue acc raw
  match fmt with
  | 0 => (flBits fmtF32 rnd 0 v).1
  | 1 => (flBits fmtBF16 rnd 0 v).1
  | 2 => tenc .t8x8 (v.scale2 (127 - (scale : Int)))
  | 3 => (flBits fmtF64 rnd 0 v).1
  | 4 => lowBits 32 (satInt .i32x2 (toSigned 48 raw))
  | _ => raw % 2 ^ accWidth acc

/-- The two scales of each row of the drain, or of the transposed copy, block by block (R287). -/
def tileScales (acc : Nat) (tile : SMap Nat) (transposed : Bool) : List Nat :=
  (List.range 128).map fun i =>
    drainScale ((List.range 32).map fun k =>
      let x := i / 2
      let y := 32 * (i % 2) + k
      accValue acc (mget 0 tile (if transposed then 64 * y + x else 64 * x + y)))

/-- The main tile's bytes, row by row (R286). -/
def drainBytes (f : FmtBlock) (tile : SMap Nat) (scales : List Nat) : List Byte :=
  (List.range 64).flatMap fun r => (List.range 64).flatMap fun c =>
    leBytes (drainWidth f.drain f.acc)
      (drainElem f.acc f.drain f.rounding (scales.getD (2 * r + c / 32) 127) (mget 0 tile (64 * r + c)))

/-- The transposed copy's bytes: row `c` holds element (r, c) at place `r` (R286). -/
def copyBytes (f : FmtBlock) (tile : SMap Nat) (scales : List Nat) : List Byte :=
  (List.range 64).flatMap fun c => (List.range 64).flatMap fun r =>
    leBytes (copyWidth f.copy)
      (drainElem f.acc f.copy f.rounding (scales.getD (2 * c + r / 32) 127) (mget 0 tile (64 * r + c)))

/-- One element of a raw tile loaded (R289): a NaN becomes the canonical one. -/
def loadElem (acc x : Nat) : Nat :=
  if acc = 2 then x else if (accDec (accFmt acc) x).isNaN then fmtNaN (accFmt acc) else x

/-- The elements of a tile loaded from its raw rows laid end to end (R289). -/
def loadTile (acc : Nat) (bs : List Byte) : SMap Nat :=
  let n := if acc = 1 then 16 else 8
  (List.range 4096).foldl (fun m i => mset 0 m i (loadElem acc (field bs (n * i) (accWidth acc / 8)))) []

end Sys2Proof.Machine
end

