-- ==== Sys2Proof/Machine/Matrix.lean ====
section
/-! DEFINITION. The matrix engine (R267 to R294): tiles and claims, quads and groups, batches, stages with follow-on
fills, drains and loads, and the engine's own events. -/

namespace Sys2Proof.Machine

/-- A matrix instruction: no transaction supports one (R257), and a pending fence of the MX path orders it (R117). -/
def matrixRun (e : Env) (s : State) (f : State → Effect) : Effect := unsupportedWave e s fun s _ => f s

/-! ## MFMT (R274) -/

/-- The operation loads its tile. -/
def TileWait.loads (t : TileWait) : Bool := t.entry.op.kind == .maccld
/-- The read of a format block. -/
def fmtOp (addr : Word) : MemOp :=
  { plainOp .mfmt with scalar := true, base := addr
                       lanes := [{ lane := 0, addr := addr, width := 64, data := 0, data2 := 0 }] }

/-- A format block read and checked: its bytes, and the latency of the read. -/
def readFmt (s : State) (w : Wave) (op : MemOp) : Except MemResult (List Byte × Nat) × State :=
  let a := waveActor s w
  match accessObj s w a op.base 64 64 false op with
  | (.error r, s1) => (.error r, s1)
  | (.ok o, s1) =>
    let bs := readTarget s1 a o.pa 64 o.target
    if (parseFmt bs).isNone then (.error (.trap .mfmtInvalid 0 none), s1)
    else (.ok (bs, accessLatency s1 w true false [(o.target, 64)]), noteGuards s1 w.uid [(o.target, 64)])

/-- MFMT from its address (R274). -/
def fmtRun (e : Env) (s : State) (addr : Word) : Effect :=
  let op := fmtOp addr
  -- the wave's waiting drains to the same bytes come first (R110)
  let behind := (s.core e.w.core).tileOps.any fun t => t.uid == e.w.uid && opsOverlap s e.w t.entry.op op && !t.loads
  if fenced e.w .mx || overlapsLog s e.w op || behind then .waitFor 6
  else
    match readFmt s e.w op with
    | (.error r, _) => memOutcome e .mx false r
    | (.ok (bs, lat), s1) =>
      let r := pend s1 e (some lat) [] .mx false 0
      let upd : Completion → Completion := fun c => if c.seqNo = r.1 then { c with fmt := some bs } else c
      .done (r.2.modWave e.w.uid fun w =>
        { (w.modPath e.iss.place fun p => { p with park := .hold r.1 }) with pending := w.pending.map upd })

def execMfmt (a : OpCode) (s : State) : Host.Outcome State Fault Refusal :=
  runInstr (.mfmt a) s fun e s => matrixRun e s fun s => fmtRun e s (e.u a)

/-! ## Tiles and claims (R267, R268) -/

/-- A block's run as a tile's owner. -/
def tileOwner (w : Wave) : Nat × Nat × Run := (w.lid, w.bid, w.run)

/-- The tiles an accumulator number covers under an accumulator format (R267). -/
def tileCover (acc n : Nat) : List Nat := if acc = 1 then [n, n + 1] else [n]

/-- Two accumulator numbers share a tile. -/
def tilesMeet (acc n acc' n' : Nat) : Bool := (tileCover acc n).any fun k => (tileCover acc' n').contains k

/-- A tile of those named that another block has claimed (R268). -/
def foreignTile (c : Core) (w : Wave) (acc n : Nat) : Option Nat :=
  (tileCover acc n).find? fun k => (mfind c.tiles k).any fun t => t.owner != tileOwner w

/-- A tile's format, 3 for the odd half of a W96 pair; none when unclaimed. -/
def tileFmt? (c : Core) (n : Nat) : Option Nat := (mfind c.tiles n).map Tile.fmt

/-- The tiles named have the accumulator's format, or are unclaimed (R268). -/
def fmtMatches (c : Core) (acc n : Nat) : Bool :=
  (tileCover acc n).all fun k => match tileFmt? c k with
    | none => true
    | some x => x == (if acc == 1 && k != n then 3 else acc)

/-- A tile newly claimed: +0 throughout. -/
def freshTile (w : Wave) (fmt : Nat) : Tile :=
  { owner := tileOwner w, fmt := fmt, elems := [], discarded := false, saturated := false }

/-- The marks that last from a tile's claim, DISC and SATD, as a tile and another both have them (R290). -/
def Tile.marks (t u : Tile) : Tile :=
  { t with discarded := t.discarded || u.discarded, saturated := t.saturated || u.saturated }

/-- Both halves of a tile's W96 pair, each a W48 tile holding +0 (R268). The claim goes on, and so do its marks. -/
def splitPair (w : Wave) (tiles : SMap Tile) (k : Nat) : SMap Tile :=
  match (mfind tiles k).map fun t => (t.fmt, (freshTile w 0).marks t) with
  | some (1, t) => mput (mput tiles k t) (k + 1) t
  | some (3, t) => mput (mput tiles k t) (k - 1) ((mfind tiles (k - 1)).elim t t.marks)
  | _ => tiles

/-- A tile's elements after its reformatting, until a group or load sets them: the spec gives them no value. -/
def reformedElems (count acc : Nat) : SMap Nat :=
  ((List.range 4096).map fun i => (i, Config.reformedElem count i % 2 ^ accWidth acc)).filter fun e => e.2 != 0

/-- The tiles claimed for an accumulator: unclaimed ones are +0, and a change of format ends any pair it touches. -/
def claimTile (c : Core) (w : Wave) (acc n count : Nat) : Core :=
  if fmtMatches c acc n then
    { c with tiles := (tileCover acc n).foldl (fun ts k =>
        if (mfind ts k).isSome then ts else mput ts k (freshTile w (if k = n then acc else 3))) c.tiles }
  else
    let split := (tileCover acc n).foldl (splitPair w) c.tiles
    { c with tiles := (tileCover acc n).foldl (fun ts k => mput ts k
        { ((mfind ts k).getD (freshTile w 0)).marks (if k = n && acc = 1 then (mfind split (n + 1)).getD (freshTile w 0)
            else freshTile w 0) with
          fmt := if k = n then acc else 3, elems := if k = n then reformedElems count acc else [] }) split }

/-- A formed group that has not completed. -/
def Group.live (g : Group) : Bool := g.formed && !g.contribs.isEmpty

/-- The accumulator of a format block's bytes. -/
def accOf (fmt : List Byte) : Nat := ((parseFmt fmt).map FmtBlock.acc).getD 0

/-- A change of the tiles' format waits for every formed group on them (R268). -/
def reformatWaits (c : Core) (acc n : Nat) : Bool :=
  !fmtMatches c acc n && c.groups.any fun g => g.live &&
    (tileCover (accOf g.fmt) g.acc).any fun k => k / 2 == n / 2 && (acc == 1 || k == n || tileFmt? c n == some 1 ||
      tileFmt? c n == some 3)

/-! ## Quads and groups (R269, R270, R275 to R280) -/

/-- The issuing wave's quad: its set and position, when the set is one (R269). -/
def quadOf (s : State) (w : Wave) : Option (Nat × Nat) :=
  match s.waveBlock w, w.sets.getLast? with
  | some b, some (n, pos) =>
    let ms := setMembers s b n
    if ms.length ≤ 4 && ms.all fun m => m.core == w.core then some (n, pos) else none
  | _, _ => none

/-- The address lies in the issuing core's share (R275): its offset. -/
def ownShare (w : Wave) (addr : Word) : Option Nat :=
  let x := addr.toNat
  if bits x 56 8 = 0xFC && bits x 20 36 = 0 then some (bits x 0 20)
  else if bits x 56 8 = 0xFD && bits x 27 29 = 0 && bits x 20 4 = 0 && bits x 24 3 = w.core % 8 then some (bits x 0 20)
  else none

/-- The bytes of the wave's block's share. -/
def shareBytes (s : State) (w : Wave) : Nat := ((s.waveBlock w).map Block.shareSize).getD 0

/-- The checks of an A operand (R275). -/
def aCheck (s : State) (w : Wave) (addr : Word) (f : FmtBlock) : Option Cause :=
  match ownShare w addr with
  | none => some .illegalAddress
  | some off =>
    if off % 256 ≠ 0 then some .tileMisaligned
    else if shareBytes s w < off + 63 * f.aPitch + aRow f.af then some .scratchRange
    else none

/-- The stage of a block whose operand base is an offset (R283). -/
def stageAt (c : Core) (lid bid : Nat) (run : Run) (off : Nat) : Option Stage :=
  c.stages.find? fun g => g.lid == lid && g.bid == bid && g.run == run && g.base == off

/-- A stage changed. -/
def setStage (c : Core) (x : Stage) : Core :=
  { c with stages := c.stages.map fun g =>
      if g.lid == x.lid && g.bid == x.bid && g.run == x.run && g.n == x.n then x else g }

/-- The contribution's registers: register `vN + j` of lane `l` at `32 j + l` (R276). -/
def quarterRegs (w : Wave) (b n : Nat) : SMap Word :=
  (w.v.filter fun e => decide (32 * b ≤ e.1) && decide (e.1 < 32 * (b + n))).map fun e => (e.1 - 32 * b, e.2)

/-- A contribution agrees with its group (R270). -/
def Group.agrees (g : Group) (zero : Bool) (acc : Nat) (addr : Word) (fmt : List Byte) : Bool :=
  g.zero == zero && g.acc == acc && g.aAddr == addr && g.fmt == fmt

/-- The groups with a contribution added: a new partial group, or an old one, which moves to the end when its fourth
forms it. -/
def addContrib (gs : List Group) (old : Option Group) (fresh : Group) (c : Contrib) (formedId clock : Nat) : List Group :=
  match old with
  | none => gs ++ [{ fresh with contribs := [c] }]
  | some g =>
    let g' := { g with contribs := g.contribs ++ [c] }
    if g'.contribs.length = 4 then (gs.filter fun x => x.id != g.id) ++ [{ g' with formed := true, formedAt := clock, id := formedId }]
    else gs.map fun x => if x.id == g.id then g' else x

/-- A contribution performed (R270, R276). -/
def contribute (e : Env) (s : State) (f : FmtBlock) (fb : List Byte) (zero : Bool) (acc : Nat) (addr : Word) (off b : Nat)
    (set pos : Nat) (old : Option Group) : Effect :=
  let r := pend s e none [] .mx false 0
  let id := s.counter
  let c : Contrib := { id := id, uid := e.w.uid, seqNo := r.1, pos := pos, regs := quarterRegs e.w b (bRegs f.bf) }
  let fresh : Group :=
    { id := id + 1, zero := zero, acc := acc, aAddr := addr, aOff := off, fmt := fb, lid := e.w.lid, bid := e.w.bid,
      run := e.w.run, set := set, contribs := [], formed := false, formedAt := 0, started := false, stage := none, readDone := false,
      aData := [] }
  let k := (r.2.core e.w.core)
  let k1 := claimTile { k with groups := addContrib k.groups old fresh c (id + 1) s.clock } e.w f.acc acc id
  let s1 := ({ r.2 with counter := id + 2 }.setCore e.w.core k1).modWave e.w.uid fun w =>
    { w with looseContribs := w.looseContribs ++ [id], liveContribs := w.liveContribs ++ [id] }
  let s2 := match s1.waveBlock e.w with
    | some b => if b.quadSets.contains set then s1 else s1.setBlock { b with quadSets := b.quadSets ++ [set] }
    | none => s1
  .done (s2.schedule 0 (.matrixGroupStart e.w.core))

/-- MMA and MMAZ, checked in the order of R277. -/
def mmaRun (e : Env) (s : State) (zero : Bool) (acc : Nat) (addr : Word) (b : Nat) : Effect :=
  match e.w.fmtState, e.w.fmt with
  | some f, some fb =>
    if f.acc == 1 && acc % 2 == 1 then .raise .reservedField
    else if Nat.min e.w.budget 128 < b + bGroup f.bf then
      .raise (if e.iss.iteration.isSome && (steppedPlaces e.w.rep.stride).contains 0 then .repBudget else .regBudget)
    else
      match quadOf s e.w with
      | none => .raise .quadNotFormed
      | some (set, pos) =>
        match aCheck s e.w addr f with
        | some c => .raiseAt c addr
        | none =>
          let c := s.core e.w.core
          let off := addr.toNat % 2 ^ 20
          match foreignTile c e.w f.acc acc with
          | some k => .trap .accBusy none 0 (w64 k)
          | none =>
            if !zero && !fmtMatches c f.acc acc then .raise .mfmtInvalid
            else
              match (stageAt c e.w.lid e.w.bid e.w.run off).filter Stage.broken with
              | some g => .trap .stageBarrier none 0 (w64 g.n)
              | none =>
                let mine := c.groups.filter fun g => g.partialOf e.w.lid e.w.bid e.w.run set
                let old := mine.find? fun g => !(g.contribs.any fun x => x.uid == e.w.uid)
                let full := match old with
                  | some g => g.contribs.length == 3 && decide (8 ≤ (c.groups.filter Group.live).length)
                  | none => decide (4 ≤ mine.length)
                if old.any fun g => !g.agrees zero acc addr fb then .raise .quadNotFormed
                else if fenced e.w .mx || full || reformatWaits c f.acc acc then .waitFor 6
                else contribute e s f fb zero acc addr off b set pos old
  | _, _ => .raise .mfmtInvalid

def execMma (acc : Byte) (a b : OpCode) (s : State) : Host.Outcome State Fault Refusal :=
  runInstr (.mma acc a b) s fun e s => matrixRun e s fun s => mmaRun e s false acc.toNat (e.u a) b.toNat

def execMmaz (acc : Byte) (a b : OpCode) (s : State) : Host.Outcome State Fault Refusal :=
  runInstr (.mmaz acc a b) s fun e s => matrixRun e s fun s => mmaRun e s true acc.toNat (e.u a) b.toNat

/-! ## Batches (R281, R282) -/

/-- MBATCH closes a batch of the wave (R281). -/
def batchClose (e : Env) (s : State) (n : Nat) : Effect :=
  let close : Wave → Wave := fun w =>
    let known := w.batches.any fun b => b.n == n
    let add : Batch → Batch := fun b => if b.n == n then { b with contribs := b.contribs ++ w.looseContribs } else b
    { w with
      batches := if known then w.batches.map add else w.batches ++ [{ n := n, contribs := w.looseContribs }]
      looseContribs := [] }
  e.noResult (s.modWave e.w.uid close)

def execMbatch (n : Byte) (s : State) : Host.Outcome State Fault Refusal :=
  runInstr (.mbatch n) s fun e s => matrixRun e s fun s => batchClose e s n.toNat

/-- A batch is complete: none of its contributions is outstanding. -/
def Wave.batchDone (w : Wave) (b : Batch) : Bool := b.contribs.all fun c => !w.liveContribs.contains c

/-- MWAIT for a batch of the wave (R282). -/
def batchWait (e : Env) (s : State) (n : Nat) : Effect :=
  match e.w.batches.find? fun b => b.n == n with
  | none => .raise .batchUnknown
  | some b =>
    if e.w.batchDone b then
      e.noResult (s.modWave e.w.uid fun w => { w with batches := w.batches.filter fun x => x.n != n })
    else .wait

def execMwait (n : Byte) (s : State) : Host.Outcome State Fault Refusal :=
  runInstr (.mwait n) s fun e s => matrixRun e s fun s => batchWait e s n.toNat

/-! ## Stages (R283) -/

/-- The checks of a stage's barrier (R283). -/
def stageBarrierCheck (s : State) (w : Wave) (addr : Word) : Option Cause :=
  match resolve s w .generic addr with
  | .ok (.global _) | .ok (.scratch _ _ _) => if addr.toNat % 16 ≠ 0 then some .misaligned else none
  | _ => some .illegalAddress

/-- The checks of a stage's operand base (R283). -/
def stageBaseCheck (s : State) (w : Wave) (b : Word) : Option Cause :=
  match ownShare w b with
  | none => some .illegalAddress
  | some off =>
    if bits off 1 7 ≠ 0 then some .tileMisaligned
    else if shareBytes s w ≤ off / 2 * 2 then some .scratchRange
    else none

/-- MSTAGE (R283). -/
def stageRun (e : Env) (s : State) (n : Nat) (barrier b : Word) : Effect :=
  let c := s.core e.w.core
  let mine : Stage → Bool := fun g => g.lid == e.w.lid && g.bid == e.w.bid && g.run == e.w.run
  let others := c.stages.filter fun g => !(mine g && g.n == n)
  let done : Core → Effect := fun c => e.noResult ((s.setCore e.w.core c).schedule 0 (.matrixGroupStart e.w.core))
  if b = 0 then done { c with stages := others }
  else
    match stageBarrierCheck s e.w barrier, stageBaseCheck s e.w b with
    | some x, _ => .raiseAt x barrier
    | none, some x => .raiseAt x b
    | none, none =>
      let base := b.toNat % 2 ^ 20 / 2 * 2
      let gate := bitOf b.toNat 0
      if others.any fun g => mine g && g.base == base then .raise .stageBarrier
      else if c.stages.any fun g => mine g && g.n == n && g.barrier == barrier && g.base == base && g.gate == gate then
        e.noResult s
      else
        let loc := match resolve s e.w .generic barrier with
          | .ok t => targetLoc (s.waveAsid e.w) t
          | .error _ => { space := .scratch e.w.core, addr := 0 }
        done { c with stages := others ++
          [{ lid := e.w.lid, bid := e.w.bid, run := e.w.run, n := n, barrier := barrier, loc := loc, base := base,
             gate := gate, fill := 0, broken := false }] }

def execMstage (n : Byte) (a b : OpCode) (s : State) : Host.Outcome State Fault Refusal :=
  runInstr (.mstage n a b) s fun e s => matrixRun e s fun s => stageRun e s n.toNat (e.u a) (e.u b)

/-- A follow-on fill lands on a gated stage of a block's core (R285): its count rises, and at 16 the stage breaks. -/
def fillStage (s : State) (core lid bid : Nat) (run : Run) (off : Nat) : State :=
  let c := s.core core
  match (stageAt c lid bid run off).filter Stage.gate with
  | none => s
  | some g =>
    let g' := if g.fill = 15 then { g with broken := true } else { g with fill := g.fill + 1 }
    (s.setCore core (setStage c g')).schedule 0 (.matrixGroupStart core)

/-! ## Drain and load (R286 to R289) -/

/-- The format block an operation carries, eight words. -/
def opFmt (op : MemOp) : Option FmtBlock := parseFmt (op.vals.flatMap fun x => leBytes 8 x.toNat)

/-- The words of a format block. -/
def fmtWords (bs : List Byte) : List Word := (List.range 8).map fun i => w64 (field bs (8 * i) 8)

/-- Single bytes of a scale array, as accesses. -/
def scaleLanes (base : Nat) : List LaneAcc :=
  (List.range 128).map fun i => { lane := i, addr := w64 (base + i), width := 1, data := 0, data2 := 0 }

/-- The bytes of a row of the drain, the copy and a raw tile. -/
def FmtBlock.dRow (f : FmtBlock) : Nat := 64 * drainWidth f.drain f.acc
def FmtBlock.cRow (f : FmtBlock) : Nat := 64 * copyWidth f.copy
def FmtBlock.rawRow (f : FmtBlock) : Nat := if f.acc = 1 then 1024 else 512

/-- Everything an MDRAIN writes: the main tile, the copy, and the scale arrays of each. -/
def drainLanes (f : FmtBlock) (base b : Word) (copy : Bool) : List LaneAcc :=
  tileChunks base f.dPitch f.dRow ++ (if copy then tileChunks b f.cPitch f.cRow else []) ++
    (if f.drain = 2 then scaleLanes f.dScale else []) ++ (if copy && f.copy == 2 then scaleLanes f.cScale else [])

/-- The bytes it writes, in the order of its accesses. -/
def drainAll (f : FmtBlock) (copy : Bool) (tile : SMap Nat) : List Byte :=
  let ds := if f.drain = 2 then tileScales f.acc tile false else []
  let cs := if copy && f.copy == 2 then tileScales f.acc tile true else []
  drainBytes f tile ds ++ (if copy then copyBytes f tile cs else []) ++ ds.map (BitVec.ofNat 8) ++ cs.map (BitVec.ofNat 8)

/-- The footprints of two tiles overlap (R288). -/
def tilesOverlap (s : State) (w : Wave) (x : Word) (n : Nat) (y : Word) (m : Nat) : Bool :=
  match resolve s w .generic x, resolve s w .generic y with
  | .ok t, .ok u =>
    let a := targetLoc 0 t
    let b := targetLoc 0 u
    a.space == b.space && decide (a.addr < b.addr + m) && decide (b.addr < a.addr + n)
  | _, _ => false

/-- The checks of MDRAIN before any byte moves, pages apart (R288): the cause and its address. R288 orders them within a tile;
between the tiles the order is the model's (DESIGN CHOICE, log entry 103): the main tile, the copy, their overlap, the scale
arrays, and then every page. -/
def drainCheck (s : State) (w : Wave) (f : FmtBlock) (base b : Word) (copy : Bool) : Option (Cause × Word) :=
  match tileCheck s w base f.dPitch f.dRow true with
  | some c => some (c, base)
  | none =>
    match if copy then tileCheck s w b f.cPitch f.cRow true else none with
    | some c => some (c, b)
    | none =>
      if copy && tilesOverlap s w base (63 * f.dPitch + f.dRow) b (63 * f.cPitch + f.cRow) then some (.tileOverlapSelf, b)
      else
        let scales := (if f.drain = 2 then scaleLanes f.dScale else []) ++
          (if copy && f.copy == 2 then scaleLanes f.cScale else [])
        (firstFailure (laneChecks s w .generic 1 true) scales).map fun x => (x.1, (x.2.head?.map LaneAcc.addr).getD 0)

/-- Accesses of different widths written from their bytes in turn. -/
def writeAccesses (s : State) (a : Actor) (bytes : List Byte) : List (LaneAcc × Target × Nat) → State
  | [] => s
  | (l, t, pa) :: rest =>
    writeAccesses (writeTarget s a pa (bytes.take l.width) t) a (bytes.drop l.width) rest

/-- Their words of SS (R358). -/
def ssOfAccesses (bytes : List Byte) : List (LaneAcc × Target × Nat) → Nat
  | [] => 0
  | (l, t, _) :: rest =>
    (match t with | .global va => ssOfWrite va (bytes.take l.width) | _ => 0) + ssOfAccesses (bytes.drop l.width) rest

/-- What a tile write reaches: its chunks, and the pages of a global footprint between its rows (R121, R226). -/
def tileLanes (s : State) (w : Wave) (base : Word) (pitch row : Nat) : List LaneAcc :=
  match resolve s w .generic base with
  | .ok (.global _) => tileAccesses base pitch row
  | _ => tileChunks base pitch row

/-- Everything an MDRAIN reaches: its tiles with the pages between their rows, and its scale arrays. -/
def drainReach (s : State) (w : Wave) (f : FmtBlock) (base b : Word) (copy : Bool) : List LaneAcc :=
  tileLanes s w base f.dPitch f.dRow ++ (if copy then tileLanes s w b f.cPitch f.cRow else []) ++
    (if f.drain = 2 then scaleLanes f.dScale else []) ++ (if copy && f.copy == 2 then scaleLanes f.cScale else [])

/-- MDRAIN performed with the tile's value (R286 to R288). Each of its tiles is one access for a guard report (R219). -/
def performDrain (s : State) (w : Wave) (op : MemOp) : MemResult :=
  match opFmt op with
  | none => .trap .mfmtInvalid 0 none
  | some f =>
    match drainCheck s w f op.base op.arg op.option with
    | some (c, addr) => .trap c addr none
    | none =>
      let a := waveActor s w
      match xlateLanes s w a .generic .write (drainReach s w f op.base op.arg op.option) with
      | (.error x, s1) => .stop s1 x op
      | (.ok reached, s1) =>
        let ts := reached.filter fun x => decide (0 < x.1.width)
        match holdFull s1 a ts with
        | some line => .stop s1 (.noRoom line) op
        | none =>
          let bytes := drainAll f op.option op.tile
          let ss := ssOfAccesses bytes ts
          let copied := if op.option then f.cRow else 0
          let s2 := addSS (writeAccesses s1 a bytes ts) a ss
          let s3 := noteTileGuard (noteTileGuard s2 w.uid (widths (ts.take f.dRow))) w.uid
            (widths ((ts.drop f.dRow).take copied))
          let s4 := noteGuards s3 w.uid (widths (ts.drop (f.dRow + copied)))
          .ok (noteDirty s4 a w.uid .mx (widths ts)) [] (accessLatency s1 w false false (widths ts)) ss

/-- MACCLD performed (R289). -/
def performLoad (s : State) (w : Wave) (op : MemOp) : MemResult :=
  match opFmt op with
  | none => .trap .mfmtInvalid 0 none
  | some f =>
    match tileCheck s w op.base f.dPitch f.rawRow false with
    | some c => .trap c op.base none
    | none =>
      match tileRead s w (waveActor s w) op.base f.dPitch f.rawRow with
      | (.error x, s1) => .stop s1 x op
      | (.ok (bytes, ts), s1) =>
        let c := s1.core w.core
        let upd : Tile → Tile := fun t => { t with elems := loadTile f.acc bytes }
        let c1 := { c with tiles := match mfind c.tiles op.code with
          | some t => mput c.tiles op.code (upd t)
          | none => c.tiles }
        .ok (noteTileGuard (s1.setCore w.core c1) w.uid (widths ts)) [] (accessLatency s1 w true false (widths ts)) 0

/-- The accumulator format of a tile operation. -/
def TileWait.acc (t : TileWait) : Nat := ((opFmt t.entry.op).map FmtBlock.acc).getD 0
/-- Its tile is that of an accumulator. -/
def TileWait.on (t : TileWait) (acc n : Nat) : Bool := tilesMeet t.acc t.entry.op.code acc n

/-- The tile's value is what the operation takes or replaces: every group formed before its issue has completed, and every load
before it is done (R286, R289). -/
def tileOpReady (c : Core) (t : TileWait) : Bool :=
  (c.groups.all fun g => !(g.live && decide (g.formedAt < t.clock) && t.on (accOf g.fmt) g.acc)) &&
    c.tileOps.all fun u => !(u.loads && decide (u.order < t.order) && t.on u.acc u.entry.op.code)

/-- A group's reads of its A operand, as one operation (R275, R291). -/
def Group.aOp (g : Group) : Option MemOp :=
  (parseFmt g.fmt).map fun f =>
    { plainOp .maccld with
      base := g.aAddr
      lanes := (List.range 64).map fun r => { lane := r, addr := g.aAddr + w64 (r * f.aPitch), width := aRow f.af, data := 0, data2 := 0 } }

/-- A group that has not read its A operand holds a contribution of the wave that the wave issued before an instruction, and
reads bytes of it (R110, R291). -/
def unreadBefore (s : State) (w : Wave) (c : Core) (seqNo : Nat) (op : MemOp) : Bool :=
  c.groups.any fun g => !g.started && (g.contribs.any fun x => x.uid == w.uid && decide (x.seqNo < seqNo)) &&
    (g.aOp.any fun r => opsOverlap s w r op)

/-- The operation waits behind an earlier access of its wave on the MX path to one of its bytes (R110): another operation,
one in the operand log, or the A operand of an earlier MMA or MMAZ. -/
def tileOpBehind (s : State) (c : Core) (w : Wave) (t : TileWait) : Bool :=
  let meets : MemOp → Bool := fun op => (op.kind.writes || t.entry.op.kind.writes) && opsOverlap s w op t.entry.op
  (c.tileOps.any fun u => u.uid == t.uid && decide (u.order < t.order) && meets u.entry.op) ||
    (w.log.any fun l => l.path == .mx && decide (l.seqNo < t.entry.seqNo) && meets l.op) ||
    (t.entry.op.kind.writes && unreadBefore s w c t.entry.seqNo t.entry.op)

/-- The operation with its tile's value fixed: `signed` marks it (R286, R288). -/
def fixTile (c : Core) (op : MemOp) : MemOp :=
  if op.signed then op
  else { op with signed := true, tile := ((mfind c.tiles op.code).map Tile.elems).getD [] }

/-- The operation taken off its core's list. -/
def dropTileOp (s : State) (core : Nat) (t : TileWait) : State :=
  let c := s.core core
  (s.setCore core { c with tileOps := c.tileOps.filter fun u => u.order != t.order }).modAny t.uid fun w =>
    w.accepted (.tile t.order)

/-- The operation kept on its core's list with its value fixed. -/
def keepTileOp (s : State) (core : Nat) (t : TileWait) (op : MemOp) : State :=
  let c := s.core core
  let upd : TileWait → TileWait := fun u => if u.order == t.order then { u with entry := { u.entry with op := op } } else u
  s.setCore core { c with tileOps := c.tileOps.map upd }

/-- A page fault met after issue: an operand-log entry, whose fault is queued when it has one of the four places (R50).
Inside a handler it is a double fault (R46). -/
def logLate (s : State) (w : Wave) (entry : LogEntry) (x : XFault) : State :=
  if w.held.isSome then waveError s w entry.bundle .doubleFault
  else if x.cause.delivery ≠ .pageFault then waveError s w entry.bundle x.cause
  else
    let s1 := s.modAny w.uid fun y => { y with log := y.log ++ [entry] }
    if logPlaces ≤ w.log.length then s1 else postLogged s1 w entry.seqNo entry.path x

/-- The outcome of a tile operation that has been performed or stopped. A load that is logged keeps its place in the order
of groups. -/
def tileOpOutcome (s : State) (core : Nat) (w : Wave) (t : TileWait) (op : MemOp) : MemResult → State
  | .ok s1 _ lat ss =>
    ((dropTileOp s1 core t).modAny w.uid fun x => x.fill t.entry.seqNo [] ss).schedule lat
      (.instructionComplete w.uid t.entry.seqNo)
  | .trap c _ _ => waveError s w t.entry.bundle c
  | .stop s1 (.fault x) _ =>
    let s2 := if t.loads then keepTileOp s1 core t { op with signed := true } else dropTileOp s1 core t
    logLate s2 w { t.entry with op := op } x
  | .stop _ (.noRoom line) _ => (keepTileOp (holdRefused s w line (.tile t.order)) core t op).schedule 1 (.matrixGroupStart core)
  | .stop _ (.blocked asid page) _ => (keepTileOp (blockPage s asid page) core t op).schedule 1 (.matrixGroupStart core)
  | .stop _ _ _ => (keepTileOp s core t op).schedule 1 (.matrixGroupStart core)

/-- One tile operation, named by its number: a drain takes the tile's value as soon as it may, and the operation is performed
once nothing of its wave is before it. A load whose page fault is queued waits for its replay. -/
def runTileOp (s : State) (core order : Nat) : State :=
  let c := s.core core
  match c.tileOps.find? fun t => t.order == order with
  | none => s
  | some t =>
    match s.anyWave? t.uid with
    | none => dropTileOp s core t
    | some w =>
      if t.loads then
        if t.entry.op.signed || !tileOpReady c t || tileOpBehind s c w t then s
        else tileOpOutcome s core w t t.entry.op (performLoad s w t.entry.op)
      else if !t.entry.op.signed && !tileOpReady c t then s
      else
        let op := fixTile c t.entry.op
        if tileOpBehind s c w t then keepTileOp s core t op else tileOpOutcome s core w t op (performDrain s w op)

/-- Every tile operation of a core, in the order of issue. -/
def runTileOps (s : State) (core : Nat) : State :=
  ((s.core core).tileOps.map TileWait.order).foldl (fun s n => runTileOp s core n) s

/-- MDRAIN and MACCLD issued, once their checks have passed. -/
def tileOpIssue (e : Env) (s : State) (f : FmtBlock) (op : MemOp) : Effect :=
  if fenced e.w .mx || overlapsLog s e.w op then .waitFor 6
  else
    let r := pend s e none [] .mx true 0
    let entry : LogEntry := { word := e.iss.word, bundle := e.iss.bundle, slot := e.iss.slot, place := e.iss.place, op := op,
                              seqNo := r.1, path := .mx, rep := e.iss.iteration.isSome && decide (1 < e.w.rep.left) }
    let c := r.2.core e.w.core
    let c1 := claimTile c e.w f.acc op.code s.counter
    let t : TileWait := { order := s.counter, clock := s.clock, uid := e.w.uid, entry := entry }
    .done (runTileOps ({ r.2 with counter := s.counter + 1 }.setCore e.w.core { c1 with tileOps := c1.tileOps ++ [t] })
      e.w.core)

/-- The format state, accumulator number and claim of MDRAIN and MACCLD (R268, R271, R286). -/
def tileOpFmt (e : Env) (s : State) (acc : Nat) (load : Bool) : Except Effect (FmtBlock × List Byte) :=
  match e.w.fmtState, e.w.fmt with
  | some f, some fb =>
    if f.acc == 1 && acc % 2 == 1 then .error (.raise .reservedField)
    else
      let c := s.core e.w.core
      match foreignTile c e.w f.acc acc with
      | some k => .error (.trap .accBusy none 0 (w64 k))
      | none => if !load && !fmtMatches c f.acc acc then .error (.raise .mfmtInvalid) else .ok (f, fb)
  | _, _ => .error (.raise .mfmtInvalid)

/-- MDRAIN of a tile to a base, with a packed copy where its base is not 0 (R286, R288). -/
def drainRun (e : Env) (s : State) (acc : Nat) (base second : Word) : Effect :=
  match tileOpFmt e s acc false with
  | .error x => x
  | .ok (f, fb) =>
    let copy := second != 0
    if copy && f.copy == 0 then .raise .mfmtInvalid
    else
      match drainCheck s e.w f base second copy with
      | some (c, addr) => .raiseAt c addr
      | none => tileOpIssue e s f
          { plainOp .mdrain with
            base := base, arg := second, option := copy, code := acc, vals := fmtWords fb
            lanes := drainLanes f base second copy }

def execMdrain (acc : Byte) (a b : OpCode) (s : State) : Host.Outcome State Fault Refusal :=
  runInstr (.mdrain acc a b) s fun e s => matrixRun e s fun s => drainRun e s acc.toNat (e.u a) (e.u b)

/-- MACCLD of a tile from a base (R289). -/
def fillRun (e : Env) (s : State) (acc : Nat) (base : Word) : Effect :=
  match tileOpFmt e s acc true with
  | .error x => x
  | .ok (f, fb) =>
    match tileCheck s e.w base f.dPitch f.rawRow false with
    | some c => .raiseAt c base
    | none =>
      if reformatWaits (s.core e.w.core) f.acc acc then .wait
      else tileOpIssue e s f
        { plainOp .maccld with
          base := base, code := acc, vals := fmtWords fb, lanes := tileChunks base f.dPitch f.rawRow }

def execMaccld (acc : Byte) (a : OpCode) (s : State) : Host.Outcome State Fault Refusal :=
  runInstr (.maccld acc a) s fun e s => matrixRun e s fun s => fillRun e s acc.toNat (e.u a)

/-! ## MSTAT (R290) -/

/-- The tile's status word. -/
def tileStatus (s : State) (w : Wave) (n : Nat) : Nat :=
  let c := s.core w.core
  match mfind c.tiles n with
  | none => 0xF * 2 ^ 16
  | some t0 =>
    -- the odd half of a pair reports the pair
    let n0 := if t0.fmt = 3 then n - 1 else n
    let t := if t0.fmt = 3 then (mfind c.tiles n0).getD t0 else t0
    if t.owner ≠ tileOwner w then 2 ^ 4
    else
      let on : Group → Bool := fun g => tilesMeet (accOf g.fmt) g.acc t.fmt n0
      let pending := Nat.min 255 (c.groups.filter fun g => g.live && on g).length
      let part := match w.sets.getLast? with
        | some (set, _) => (c.groups.filter fun g => g.partialOf w.lid w.bid w.run set && on g).length
        | none => 0
      let vals := t.elems.map fun x => accValue t.fmt x.2
      let isInf : FVal → Bool := fun v => v == .inf true || v == .inf false
      pending * 2 ^ 32 + part * 2 ^ 24 + t.fmt * 2 ^ 16 + b2n t.discarded * 32 + b2n (vals.any FVal.isNaN) * 8 +
        b2n (vals.any isInf) * 4 + b2n t.saturated * 2 + 1

def execMstat (d : OpCode) (acc : Byte) (s : State) : Host.Outcome State Fault Refusal :=
  runInstr (.mstat d acc) s fun e s => unsupportedWave e s fun s keep =>
    e.finish s 4 (destAll d keep (w64 (tileStatus s e.w acc.toNat)))

/-! ## The engine's events (R278, R279, R284) -/

/-- Every element of a list before the one given satisfies a test. -/
def allBefore (p : Group → Bool) (id : Nat) : List Group → Bool
  | [] => true
  | g :: gs => if g.id = id then true else p g && allBefore p id gs

/-- A load issued no later than a group was formed, and not done: the group accumulates onto what it loads (R289). -/
def loadBefore (c : Core) (g : Group) : Bool :=
  c.tileOps.any fun t => t.loads && decide (t.clock ≤ g.formedAt) && t.on (accOf g.fmt) g.acc

/-- A formed group may start (R279). -/
def groupReady (c : Core) (g : Group) : Bool :=
  let acc := accOf g.fmt
  g.live && !g.started &&
    allBefore (fun x => !(x.live && !x.started && tilesMeet (accOf x.fmt) x.acc acc g.acc)) g.id c.groups &&
    (match stageAt c g.lid g.bid g.run g.aOff with
     | some st => !st.gate || decide (0 < st.fill)
     | none => true)

/-- A member's earlier drain to bytes of the group's A operand is not performed yet: it waits, or stands in the operand log
(R110, R291). -/
def drainsBefore (s : State) (c : Core) (g : Group) : Bool :=
  g.contribs.any fun x => match s.anyWave? x.uid with
    | none => false
    | some w =>
      let meets : MemOp → Bool := fun op => op.kind.writes && g.aOp.any fun r => opsOverlap s w r op
      (c.tileOps.any fun t => t.uid == x.uid && decide (t.entry.seqNo < x.seqNo) && meets t.entry.op) ||
        w.log.any fun l => l.path == .mx && decide (l.seqNo < x.seqNo) && meets l.op

/-- The rows of a group's A operand in its block's share. -/
def aRows (core off phys pitch row : Nat) : List (Target × Nat) :=
  (List.range 64).map fun r => (Target.scratch core (off + r * pitch) (phys + off + r * pitch), row)

/-- The engine cannot read a group's A operand yet: a member's earlier drain to it comes first (R110), or a line of it is
pinned by a wave of another core (R119). -/
def aHeld (s : State) (core : Nat) (g : Group) : Bool :=
  drainsBefore s (s.core core) g || (match parseFmt g.fmt, (s.block? g.lid g.bid g.run).bind fun b => shareOn b core with
    | some f, some phys => (aRows core g.aOff phys f.aPitch (aRow f.af)).any fun x => targetPinned s (.core core) x.1 x.2
    | _, _ => false)

/-- An event due in the next clock, unless it is due by then. -/
def State.wakeNext (s : State) (i : Instr) : State :=
  if s.agenda.any fun e => decide (e.1 ≤ s.clock + 1) && e.2 == i then s else s.schedule 1 i

/-- A group changed. -/
def Core.setGroup (c : Core) (g : Group) : Core := { c with groups := c.groups.map fun x => if x.id == g.id then g else x }

/-- A operand rows, guarded bytes reading zero (R280). -/
def readRows (s : State) (core off phys pitch row : Nat) : List Byte :=
  (aRows core off phys pitch row).flatMap fun x => readTarget s (plainActor (.core core) 0) 0 row x.1

/-- The first ready group of a core starts (R279): it reads A, takes a fill of a gated stage, and occupies the engine. Of the
clocks `s` to `s + D - 1` in which the rule has A read, the model reads all of it at clock `s` (DESIGN CHOICE, log entry 101);
and the stage's barrier is the one bound when the group starts, whatever MSTAGE does before the arrival (DESIGN CHOICE, log
entry 102). -/
def startGroup (s : State) (core : Nat) : State :=
  let c := s.core core
  if s.clock < c.engineBusy then s
  else
    match c.groups.find? fun g => groupReady c g && !aHeld s core g with
    | none => if c.groups.any (groupReady c) then s.wakeNext (.matrixGroupStart core) else s
    | some g =>
      match parseFmt g.fmt, s.block? g.lid g.bid g.run with
      | some f, some b =>
        let phys := (shareOn b core).getD 0
        let st := stageAt c g.lid g.bid g.run g.aOff
        let c1 := match st with
          | some x => if x.gate then setStage c { x with fill := x.fill - 1 } else c
          | none => c
        let g' := { g with started := true, stage := st.map fun x => (x.n, x.barrier), readDone := st.isNone
                           aData := readRows s core g.aOff phys f.aPitch (aRow f.af) }
        let s1 := s.setCore core { (c1.setGroup g') with engineBusy := s.clock + f.clocks }
        let rows := aRows core g.aOff phys f.aPitch (aRow f.af)
        let s2 := match g.contribs.getLast? with
          | some x => noteTileGuard s1 x.uid rows
          | none => s1
        let s3 := match st with
          | some x =>
            let lat := match resolve s2 (blockAgent b core) .generic x.barrier with
              | .ok t => homeLatency s2 (blockAgent b core) t
              | .error _ => 0
            s2.schedule (f.clocks + lat) (.stageReadDone core g.id)
          | none => s2
        (s3.schedule f.clocks (.matrixGroupStart core)).schedule (f.clocks + 12) (.matrixGroupComplete core g.id)
      | _, _ => s

def execMatrixGroupStart (core : Nat) (s : State) : Host.Outcome State Fault Refusal :=
  .next (startGroup (runTileOps s core) core)

/-- The arrival of a stage is made: its group has read its operand. -/
def stageRead (s : State) (core : Nat) (g : Group) : State :=
  let c := s.core core
  { s with waves := s.waves.map fun (w : Wave) => w.accepted (.stage core g.id) }.setCore core (if g.contribs.isEmpty then { c with groups := c.groups.filter fun x => x.id != g.id }
    else c.setGroup { g with readDone := true })

/-- An engine's arrival that was stopped is made again: after the host's answer to its page fault, or in the next clock (R50,
R119, R355, R386). `w` is the wave for whose command or operand it arrives. -/
def arriveAgain (s : State) (w : Wave) (path : AccessPath) (waiter : Requester) (refuser : Refuser) (again : Instr) :
    XStop → State
  | .fault x =>
    if x.cause.delivery = .pageFault then postFault s x (pathKind path) (waveRequester w) waiter else waveError s w 0 x.cause
  | .blocked asid page => (blockPage s asid page).schedule 1 again
  | .noRoom line => (holdRefused s w line refuser).schedule 1 again
  | _ => s.schedule 1 again

/-- The wave for which a group's arrival is made: its last contributor, or another of its block. -/
def stageWave (s : State) (g : Group) (b : Block) (core : Nat) : Wave :=
  (((g.contribs.getLast?.bind fun c => s.anyWave? c.uid)).orElse fun _ =>
    s.waves.find? fun w => w.lid == g.lid && w.bid == g.bid && w.run == g.run).getD (blockAgent b core)

/-- The engine's arrival on a stage's empty barrier (R284). A barrier that does not take it breaks the stage. -/
def execStageReadDone (core group : Nat) (s : State) : Host.Outcome State Fault Refusal :=
  .next (
    let c := s.core core
    match c.groups.find? fun g => g.id == group && g.started && !g.readDone with
    | none => s
    | some g =>
      match g.stage, s.block? g.lid g.bid g.run with
      | some (n, barrier), some b =>
        (match engineArrive s b core barrier false false with
         | .performed s1 => stageRead s1 core g
         | .notTaken s1 =>
           (let s2 := stageRead s1 core g
            let k := s2.core core
            match k.stages.find? fun x => x.lid == g.lid && x.bid == g.bid && x.run == g.run && x.n == n && x.barrier == barrier with
            | some x => s2.setCore core (setStage k { x with broken := true })
            | none => s2)
         | .stopped s1 x =>
           arriveAgain s1 (stageWave s g b core) .mx (.stage core group)
             (.stage core group) (.stageReadDone core group) x)
      | _, _ => stageRead s core g)

/-- A group's update applied to its tile, and its contributions complete (R278, R279). A load that it accumulates onto comes
first (R289), and so does an earlier group on the tile that waits for one. -/
def execMatrixGroupComplete (core group : Nat) (s : State) : Host.Outcome State Fault Refusal :=
  .next (
    let c := s.core core
    match c.groups.find? fun g => g.id == group && g.live && g.started with
    | none => s
    | some g =>
      let first := allBefore (fun x => !(x.live && x.started && tilesMeet (accOf x.fmt) x.acc (accOf g.fmt) g.acc)) g.id c.groups
      if loadBefore c g || !first then s.schedule 1 (.matrixGroupComplete core group) else
      let c1 := match parseFmt g.fmt, mfind c.tiles g.acc with
        | some f, some t =>
          let r := groupUpdate f (if g.zero then [] else t.elems) g.aData g.contribs
          { c with tiles := mput c.tiles g.acc { t with elems := r.1, saturated := t.saturated || r.2 } }
        | _, _ => c
      let c2 := if g.readDone then { c1 with groups := c1.groups.filter fun x => x.id != group }
        else c1.setGroup { g with contribs := [] }
      let s1 := g.contribs.foldl endContrib (s.setCore core c2)
      (runTileOps s1 core).schedule 0 (.matrixGroupStart core))

end Sys2Proof.Machine
end

