-- ==== Sys2Proof/Machine/Copy.lean ====
section
/-! DEFINITION. The copy engine (R295 to R326): commands and their descriptors, channels, multicast and arming, halo
exchange, completion records and the event queue. -/

namespace Sys2Proof.Machine

/-! ## Opcodes of the commands (R295) -/

def opCpy : Nat := 0xC0
def opCpyd : Nat := 0xC1
def opCpym : Nat := 0xC2
def opCpymc : Nat := 0xC3
def opCpyn : Nat := 0xC4
def opWsld : Nat := 0xC9
def opCpyx : Nat := 0xCC

/-- The command is a multicast (R299). -/
def isMulticast (op : Nat) : Bool := op == opCpymc || op == opCpyx

/-! ## Descriptors (R298) -/

/-- The fields of a copy descriptor, with the bytes of a row on each side. -/
structure CopyDesc where
  norec : Bool
  chan : Nat
  form : Nat
  coreMask : Nat
  src : Word
  dst : Word
  len : Nat
  rows : Nat
  sPitch : Nat
  dPitch : Nat
  scale : Word
  scPitch : Nat
  barrier : Word
  sRow : Nat
  dRow : Nat
  deriving DecidableEq, Repr

/-- A footprint's length (R298). -/
def spanOf (rows pitch row : Nat) : Nat := (rows - 1) * pitch + row

/-- The descriptor of a command, its fields not checked. Pitches are ignored when there is one row. -/
def readDesc (op : Nat) (bs : List Byte) : CopyDesc :=
  let len := field bs 0x18 4
  let rows := field bs 0x1C 4
  let form := field bs 6 1
  let pitch : Nat → Nat := fun x => if rows = 1 then 0 else x
  { norec := bitOf (field bs 4 1) 0, chan := field bs 5 1, form := form, coreMask := field bs 7 1
    src := w64 (field bs 8 8), dst := w64 (field bs 0x10 8), len := len, rows := rows
    sPitch := pitch (field bs 0x20 4), dPitch := pitch (field bs 0x24 4), scale := w64 (field bs 0x28 8)
    scPitch := pitch (field bs 0x30 4), barrier := w64 (field bs 0x38 8)
    sRow := if op = opCpyd && form == 1 then 8 * ceilDiv len 10 else len
    dRow := if op = opCpyd then 2 * len else len }

/-- The selector of a generic address (R209). -/
def selector (a : Word) : Nat := bits a.toNat 56 8
/-- A 0xFD address that names its own core, as the 0xFC address that is the same (R209). -/
def ownAddr (core : Nat) (a : Word) : Word :=
  if bits a.toNat 56 8 = 0xFD && bits a.toNat 24 3 = core % 8 then a - w64 (2 ^ 56 + core % 8 * 2 ^ 24) else a

/-- R209 assigns the selector. -/
def assigned (sel : Nat) : Bool := sel == 0x00 || sel == 0xFC || sel == 0xFD || sel == 0xFE

/-- The spaces a command takes at its source and destination (R299). -/
def sourceOk (op sel : Nat) : Bool :=
  if op = opCpyn then sel == 0xFC else if op = opWsld then sel == 0x00 else sel == 0x00 || sel == 0xFC || sel == 0xFE
def destOk (op sel : Nat) : Bool :=
  if op = opCpy then sel == 0x00 || sel == 0xFC
  else if op = opCpyn then sel == 0xFD
  else if op = opWsld then sel == 0xFE
  else sel == 0xFC

/-- The cores a command writes to: the targets of its mask, or its own (R299). -/
def targetCores (op core : Nat) (d : CopyDesc) : List Nat :=
  if isMulticast op then (setBits 8 d.coreMask).map (core / 8 * 8 + ·) else [core]

/-- A place in an address space, for the overlap of two footprints. -/
def placeOf (core : Nat) (a : Word) : Nat × Nat × Nat :=
  let x := a.toNat
  let sel := selector a
  if sel = 0xFC then (1, core, bits x 0 20)
  else if sel = 0xFD then (1, core / 8 * 8 + bits x 24 3, bits x 0 20)
  else if sel = 0xFE then (2, dieOf core, bits x 0 29)
  else (0, sel, bits x 0 56)

/-- Two footprints overlap in one space. -/
def spansMeet (p : Nat × Nat × Nat) (n : Nat) (q : Nat × Nat × Nat) (m : Nat) : Bool :=
  p.1 == q.1 && p.2.1 == q.2.1 && decide (p.2.2 < q.2.2 + m) && decide (q.2.2 < p.2.2 + n)

/-- The first reason a descriptor is bad (R300 step 2, R303). -/
def badDesc (s : State) (w : Wave) (op : Nat) (bs : List Byte) : Option Nat :=
  let d := readDesc op bs
  let cpyd := op == opCpyd
  let lenOk := if cpyd then d.len % 32 == 0 && decide (32 ≤ d.len) && decide (d.len ≤ 32768)
    else decide (1 ≤ d.len) && decide (d.len ≤ 2 ^ 20)
  let pitchBad : Nat → Nat → Bool := fun p row => decide (p < row) || decide (2 ^ 30 < p)
  let src := placeOf w.core d.src
  let dst := ownAddr w.core d.dst
  let sel : Word → Nat := fun a => selector (ownAddr w.core a)
  let barrierBad := d.barrier != 0 && (d.barrier.toNat % 16 != 0 || (match resolve s w .generic d.barrier with
    | .ok (.global _) | .ok (.scratch _ _ _) => false
    | _ => true))
  let reasons : List (Nat × Bool) :=
    [ (1, field bs 0 4 != 1),
      (2, field bs 4 1 / 2 != 0 || (!cpyd && field bs 6 1 != 0) || (!isMulticast op && d.coreMask != 0) ||
        (!cpyd && (field bs 0x28 8 != 0 || field bs 0x30 4 != 0)) || !zeroField bs 0x34 4),
      (3, decide (3 < d.chan)),
      (4, !lenOk || d.rows == 0 || decide (65536 < d.rows)),
      (5, decide (1 < d.rows) && (pitchBad d.sPitch d.sRow || pitchBad d.dPitch d.dRow)),
      -- a destination in the weight store is left to step 4 (log entry 48)
      (6, (assigned (sel d.src) && !sourceOk op (sel d.src)) ||
        (assigned (sel d.dst) && sel d.dst != 0xFE && !destOk op (sel d.dst))),
      (7, assigned (selector d.src) && (targetCores op w.core d).any fun t => spansMeet src (spanOf d.rows d.sPitch d.sRow) (placeOf t dst)
        (spanOf d.rows d.dPitch d.dRow)),
      (8, cpyd && (d.dst.toNat % 2 != 0 || d.dPitch % 2 != 0 || !(sel d.scale == 0 || sel d.scale == 0xFC) ||
        (decide (1 < d.rows) && decide (d.scPitch < d.len / 32)))),
      (9, cpyd && decide (1 < d.form)),
      (10, barrierBad),
      (11, isMulticast op && d.coreMask == 0) ]
  (reasons.find? Prod.snd).map Prod.fst

/-- A footprint's space and range (R300 step 3): the cause when it is not valid. -/
def spanCheck (s : State) (w : Wave) (a : Word) (n : Nat) : Option Cause :=
  match resolve s w .generic a with
  | .error (_, c) => some c
  | .ok (.global va) => if 2 ^ 52 < va + n then some .illegalAddress else none
  | .ok (.scratch _ off _) => if shareBytes s w < off + n then some .scratchRange else none
  | .ok (.weight _ off) => if Config.weightBytes < off + n then some .illegalAddress else none

/-- The first cause among some. -/
def firstCause (cs : List (Option Cause × Word)) : Option (Cause × Word) := cs.findSome? fun x => x.1.map fun c => (c, x.2)

/-- The wave as it stands on another core, for the share there. -/
def onCore (w : Wave) (core : Nat) : Wave := { w with core := core }

/-- The arm records of a core with a key, of a block (R305). -/
def keyArms (c : Core) (lid bid : Nat) (run : Run) (key : Word) : List ArmRec :=
  c.arms.filter fun a => a.lid == lid && a.bid == bid && a.run == run && a.key == key

/-- The cores of a multicast that hold no arm record with its key (R305). -/
def unarmed (s : State) (lid bid : Nat) (run : Run) (key : Word) (ts : List Nat) : List Nat :=
  ts.filter fun t => (keyArms (s.core t) lid bid run key).isEmpty

/-- The mask of some cores of a grove, as MULTICAST_UNARMED reports it (R300). -/
def coreMask (ts : List Nat) : Word := w64 (sumNat (ts.map fun t => 2 ^ (t % 8)))

/-- What a command instruction comes to. -/
inductive CmdOut where
  | ready (s : State) (c : Command) (chan : Nat)
  | trap (c : Cause) (addr detail : Word)
  | stop (s : State) (x : XStop)
  deriving DecidableEq, Repr

/-- A command of a wave, not yet accepted. -/
def newCommand (w : Wave) (op : Nat) (addr : Word) : Command :=
  { tag := 0, op := op, uid := w.uid, lid := w.lid, bid := w.bid, run := w.run, fn := w.fn, ctx := w.ctx, waitSeq := none,
    issuedAt := { bundle := 0, slot := 0, word := 0, rep := emptyRep, logged := true }
    desc := [], table := [], faceMask := 0, descAddr := addr, targets := [], mask := 0, status := 0, started := false,
    progress := 0, waiting := false, moved := false, filled := false, failed := [], guardMet := false, mapGen := 0, ss := 0 }

/-- Bytes read by an engine on behalf of a wave: an LS-path load in its program order, of global memory or its share; a line
pinned outside the engine's reach is retried (R119). -/
def readFor (s : State) (w : Wave) (a : Actor) (addr : Word) (n : Nat) : Except (XStop ⊕ Cause) (List Byte) × State :=
  match resolve s w .generic addr with
  | .error (_, c) => (.error (.inr c), s)
  | .ok (.global va) => match readVirt s a va n with
    | (.error x, s1) => (.error (.inl x), s1)
    | (.ok bs, s1) => (.ok bs, s1)
  | .ok t => if targetPinned s a.agent t n then (.error (.inl .pinned), s) else (.ok (readTarget s a 0 n t), s)

/-- The checks of R300, in order. -/
def copyTry (s : State) (w : Wave) (op : Nat) (addr : Word) : CmdOut :=
  let sel := selector (ownAddr w.core addr)
  if sel != 0 && sel != 0xFC then .trap .illegalAddress addr 0
  else
    match resolve s w .generic addr with
    | .error (true, c) => .trap c addr 0
    | r =>
      if addr.toNat % 64 ≠ 0 then .trap .misaligned addr 0
      else
        match r with
        | .error (_, c) => .trap c addr 0
        | .ok _ =>
          match readFor s w (waveActor s w) addr 64 with
          | (.error (.inr c), _) => .trap c addr 0
          | (.error (.inl x), s1) => .stop s1 x
          | (.ok bs, s1) =>
            match badDesc s1 w op bs with
            | some k => .trap .copyBadDesc addr (w64 k)
            | none =>
              let d := readDesc op bs
              let ts := targetCores op w.core d
              let spans := (spanCheck s1 w d.src (spanOf d.rows d.sPitch d.sRow), d.src) ::
                ts.map (fun t => (spanCheck s1 (onCore w t) (ownAddr w.core d.dst) (spanOf d.rows d.dPitch d.dRow), d.dst)) ++
                (if op = opCpyd then [(spanCheck s1 w d.scale (spanOf d.rows d.scPitch (d.len / 32)), d.scale)] else [])
              let stage := ((s1.launch? w.lid).map Launch.wstage).getD false
              match firstCause spans with
              | some (c, a) => .trap c a 0
              | none =>
                if selector d.dst == 0xFE && !(op == opWsld && stage) then .trap .weightWrite d.dst 0
                else
                  let missing := if isMulticast op then unarmed s1 w.lid w.bid w.run addr ts else []
                  if missing.isEmpty then
                    .ready s1 { newCommand w op addr with desc := bs, targets := if isMulticast op then ts else [] } d.chan
                  else .trap .multicastUnarmed 0 (coreMask missing)

/-! ## Halo tables (R312, R313) -/

/-- One face of a halo table. -/
structure Face where
  chip : Nat
  window : Nat
  sig : Bool
  len : Nat
  src : Word
  rows : Nat
  sPitch : Nat
  dOff : Nat
  dPitch : Nat
  barOff : Nat
  deriving DecidableEq, Repr

/-- Face `f` of a table's bytes. -/
def readFace (table : List Byte) (f : Nat) : Face :=
  let o := 64 + 64 * f
  { chip := field table o 2, window := field table (o + 2) 1, sig := bitOf (field table (o + 3) 1) 0,
    len := field table (o + 4) 4, src := w64 (field table (o + 8) 8), rows := field table (o + 16) 4,
    sPitch := field table (o + 20) 4, dOff := field table (o + 24) 8, dPitch := field table (o + 32) 4,
    barOff := field table (o + 40) 8 }

/-- The reason a face is bad (R313 step 3). -/
def badFace (table : List Byte) (f : Nat) : Option Nat :=
  let x := readFace table f
  let o := 64 + 64 * f
  let pitchBad : Nat → Bool := fun p => decide (1 < x.rows) && (decide (p < x.len) || decide (2 ^ 30 < p))
  if 4095 < x.chip || field table (o + 3) 1 / 2 != 0 || x.len = 0 || 65536 < x.len || x.rows = 0 || 4096 < x.rows ||
    pitchBad x.sPitch || pitchBad x.dPitch || !zeroField table (o + 36) 4 || x.barOff % 16 != 0 ||
    (!x.sig && x.barOff != 0) || !zeroField table (o + 48) 16 then some 3
  else if 2 ^ 52 < x.src.toNat + spanOf x.rows (if x.rows = 1 then 0 else x.sPitch) x.len then some 4
  else none

/-- The checks of R313, in order. -/
def haloTry (s : State) (w : Wave) (addr mask : Word) : CmdOut :=
  match resolve s w .generic addr with
  | .ok (.global va) =>
    if addr.toNat % 64 ≠ 0 then .trap .misaligned addr 0
    else
      match readVirt s (waveActor s w) va 64 with
      | (.error x, s1) => .stop s1 x
      | (.ok head, s1) =>
        let count := field head 4 1
        let headBad := field head 0 4 != 1 || count == 0 || decide (16 < count) || !zeroField head 5 59
        let high := (List.range 64).find? fun k => bitOf mask.toNat k && decide (count ≤ k || 16 ≤ k)
        if headBad then .trap .haloTable addr 1
        else
          match high with
          | some k => .trap .haloTable addr (w64 (2 + 256 * k))
          | none =>
            match readVirt s1 (waveActor s1 w) va (64 + 64 * count) with
            | (.error x, s2) => .stop s2 x
            | (.ok table, s2) =>
              match (setBits 16 mask.toNat).findSome? fun f => (badFace table f).map fun r => r + 256 * f with
              | some r => .trap .haloTable addr (w64 r)
              | none => .ready s2 { newCommand w opHalo addr with table := table, faceMask := mask.toNat } 0
  | _ => .trap .illegalAddress addr 0

/-! ## Channels and acceptance (R296, R297, R305) -/

/-- What a path waits for is the end of a pending completion. -/
def Park.heldBy (seqNo : Nat) : Park → Bool
  | .hold n | .woken n _ => n == seqNo
  | _ => false

/-- A path held by a pending completion, or woken from a wait that completes with it (R23), issues again. -/
def Wave.unhold (w : Wave) (seqNo : Nat) : Wave :=
  w.mapPaths fun p => if p.park.heldBy seqNo then { p with park := .running } else p

/-- A channel's commands. -/
def Core.chan (c : Core) (k : Nat) : List Command := c.channels.getD k []
/-- A channel's commands replaced. -/
def Core.setChan (c : Core) (k : Nat) (cs : List Command) : Core := { c with channels := c.channels.set k cs }

/-- A multicast's arm records at its acceptance (R305): armed ones are committed, cancelled ones removed. -/
def commitArms (s : State) (core : Nat) (x : Command) (tag : Nat) : List Nat → State
  | [] => s
  | t :: ts =>
    let c := s.core t
    let mine : ArmRec → Bool := fun a =>
      a.lid == x.lid && a.bid == x.bid && a.run == x.run && a.key == x.descAddr && a.state != .committed
    let upd : ArmRec → ArmRec := fun a =>
      if mine a then { a with state := .committed, source := core, tag := tag } else a
    let kept := c.arms.filter fun a => !(mine a && a.state == .cancelled)
    commitArms (s.setCore t { c with arms := kept.map upd }) core x tag ts

/-- The path that a completion holds stands at its instruction again, and takes the instruction's exception there: a check of
a command may fail only at its acceptance, while its path is held (R296). A path that another's exception has stopped issues
the instruction again. -/
def commandTrap (s : State) (w : Wave) (pt : IssuePoint) (seqNo : Nat) (c : Cause) (detail : Word) : State :=
  let back : Path → Path := fun p => if p.park == .hold seqNo then parkedAt pt.bundle pt.slot .running p else p
  let place := w.places.find? fun e => e.2.park == .hold seqNo
  let w1 := (w.cutOff seqNo).mapPaths back
  let w2 := { w1 with rep := if pt.rep.valid then pt.rep else w1.rep }
  let t : TrapInfo := { cause := c, word := pt.word, bundle := pt.bundle, slot := pt.slot, addr := 0, lanes := none,
                        detail := detail, resumeBundle := pt.bundle, resumeSlot := pt.slot }
  match place with
  | none => s.setWave w2
  | some e =>
    let s1 := enterTrap (s.setWave w2) w2 e.1 t
    match s1.wave? w.uid with
    | none => s1
    | some w3 => match mfind w3.places 0 with
      | some p => if w3.held.isSome then emitMask s1 w2 0 3 p.mask p.pc else s1
      | none => s1

/-- A multicast that finds a target core without an arm record when its channel comes to take it (R305): its exception, or
the context's error when the operand log performed it (R50). -/
def refuseCommand (s : State) (core chan : Nat) (x : Command) (seqNo : Nat) (missing : List Nat) : State :=
  let c := s.core core
  let s1 := s.setCore core (c.setChan chan ((c.chan chan).filter fun y => !(y.waitSeq == x.waitSeq && y.uid == x.uid)))
  match s1.anyWave? x.uid with
  | none => s1
  | some w =>
    if x.issuedAt.logged then waveError s1 w x.issuedAt.bundle .multicastUnarmed
    else commandTrap s1 w x.issuedAt seqNo .multicastUnarmed (coreMask missing)

/-- A HALO accepted in a run whose writes are held takes its place among the run's held items (R323, R357). -/
def holdHalo (s : State) (core tag : Nat) (x : Command) : State :=
  if x.op = opHalo && runHeld s x.lid x.bid x.run then
    match s.block? x.lid x.bid x.run with
    | some b => s.setBlock { b with heldItems := b.heldItems ++ [.halo core tag x.table x.faceMask none] }
    | none => s
  else s

/-- A held HALO's item with the bytes of its faces, or gone where the command stopped before it read them. -/
def fillHalo (s : State) (core : Nat) (x : Command) (data : Option (List (List Byte))) : State :=
  match s.block? x.lid x.bid x.run with
  | none => s
  | some b =>
    let item : Option (List (List Byte)) → HeldItem := .halo core x.tag x.table x.faceMask
    let fill : HeldItem → Option HeldItem := fun i => if i == item none then data.map fun d => item (some d) else some i
    s.setBlock { b with heldItems := b.heldItems.filterMap fill }

/-- The first command of a channel that waits for room is accepted, when the channel holds fewer than 16 (R296). A target
core whose records are all cancelled receives nothing (R305, log entry 85). -/
def acceptNext (s : State) (core chan : Nat) : State :=
  let c := s.core core
  match ((c.chan chan).take 16).find? fun x => x.waitSeq.isSome with
  | none => s
  | some x =>
    let seq := x.waitSeq.getD 0
    match unarmed s x.lid x.bid x.run x.descAddr x.targets with
    | t :: ts => refuseCommand s core chan x seq (t :: ts)
    | [] =>
      let tag := chan * 2 ^ 16 + c.copySeq
      let live := x.targets.filter fun t => (keyArms (s.core t) x.lid x.bid x.run x.descAddr).any fun a => a.state != .cancelled
      let gen := mget 0 s.mapGens (((s.ctx? x.fn x.ctx).map Context.asid).getD 0)
      let x1 := { x with tag := tag, waitSeq := none, targets := live, mapGen := gen }
      let upd : Command → Command := fun y => if y.waitSeq == x.waitSeq && y.uid == x.uid then x1 else y
      let c1 := { c.setChan chan ((c.chan chan).map upd) with copySeq := (c.copySeq + 1) % 2 ^ 16 }
      let s1 := holdHalo (commitArms (s.setCore core c1) core x tag x.targets) core tag x1
      let fill : Completion → Completion := fun y =>
        if y.seqNo = seq then { y with writes := y.writes.map fun z => { z with value := w64 tag } } else y
      let s2 := (s1.modAny x.uid fun w => { (w.unhold seq) with pending := w.pending.map fill }).schedule 2
        (.instructionComplete x.uid seq)
      if ((c1.chan chan).head?.map Command.tag) = some tag && (c.chan chan).all fun y => y.waitSeq.isSome then
        s2.schedule 0 (.copyCommandExecute core chan)
      else s2

/-- A command joins its channel and is accepted when there is room. -/
def queueCommand (s : State) (core chan : Nat) (x : Command) (seq : Nat) : State :=
  let c := s.core core
  acceptNext (s.setCore core (c.setChan chan (c.chan chan ++ [{ x with waitSeq := some seq }]))) core chan

/-- A command instruction's operation, as the operand log holds it: it reads its descriptor, or a table of up to 16 faces. -/
def commandOp (e : Env) (op : Nat) (d : OpCode) (addr mask : Word) : MemOp :=
  { plainOp (if op = opHalo then .haloCommand else .command) with
    dest := d, mask := e.p.mask, scalar := true, base := addr, arg := mask, code := op
    lanes := [{ lane := 0, addr := addr, width := if op = opHalo then 1088 else 64, data := 0, data2 := 0 }] }

/-- Where a command instruction is issued. -/
def Env.issuePoint (e : Env) : IssuePoint :=
  { bundle := e.iss.bundle, slot := e.iss.slot, rep := e.w.rep, logged := false
    word := match e.iss.iteration with
      | some _ => e.iss.nextWord
      | none => e.iss.word }

/-- A command tried from its operation (R300, R313). -/
def commandTry (s : State) (w : Wave) (op : MemOp) : CmdOut :=
  if op.kind == .haloCommand then haloTry s w op.base op.arg else copyTry s w op.code op.base

/-- A command instruction's descriptor read and its command queued (R296): the read is an LS-path load, and the path is held
until the command is accepted. -/
def commandIssue (e : Env) (s : State) (op : MemOp) : Effect :=
  let path : AccessPath := if op.kind == .haloCommand then .fb else .cp
  if fenced e.w .ls || fenced e.w path || overlapsLog s e.w op then .waitFor 6
  else
    match commandTry s e.w op with
    | .trap c addr detail => .trap c none addr detail
    | .stop s1 x => memOutcome e path false (.stop s1 x op)
    | .ready s1 x chan =>
      let r := pend s1 e none (destAll op.dest op.mask 0) path false 0
      let s2 := r.2.modWave e.w.uid fun w => w.modPath e.iss.place fun p => { p with park := .hold r.1 }
      .done (queueCommand s2 e.w.core chan { x with issuedAt := e.issuePoint } r.1)

/-- A command instruction: no transaction supports one (R257). -/
def commandRun (e : Env) (s : State) (op : MemOp) : Effect :=
  unsupportedWave e s fun s keep => commandIssue e s { op with mask := keep }

def execCpy (d a : OpCode) (s : State) : Host.Outcome State Fault Refusal :=
  runInstr (.cpy d a) s fun e s => commandRun e s (commandOp e opCpy d (e.u a) 0)
def execCpyd (d a : OpCode) (s : State) : Host.Outcome State Fault Refusal :=
  runInstr (.cpyd d a) s fun e s => commandRun e s (commandOp e opCpyd d (e.u a) 0)
def execCpym (d a : OpCode) (s : State) : Host.Outcome State Fault Refusal :=
  runInstr (.cpym d a) s fun e s => commandRun e s (commandOp e opCpym d (e.u a) 0)
def execCpymc (d a : OpCode) (s : State) : Host.Outcome State Fault Refusal :=
  runInstr (.cpymc d a) s fun e s => commandRun e s (commandOp e opCpymc d (e.u a) 0)
def execCpyn (d a : OpCode) (s : State) : Host.Outcome State Fault Refusal :=
  runInstr (.cpyn d a) s fun e s => commandRun e s (commandOp e opCpyn d (e.u a) 0)
def execCpyx (d a : OpCode) (s : State) : Host.Outcome State Fault Refusal :=
  runInstr (.cpyx d a) s fun e s => commandRun e s (commandOp e opCpyx d (e.u a) 0)
def execWsld (d a : OpCode) (s : State) : Host.Outcome State Fault Refusal :=
  runInstr (.wsld d a) s fun e s => commandRun e s (commandOp e opWsld d (e.u a) 0)
def execHalo (d a b : OpCode) (s : State) : Host.Outcome State Fault Refusal :=
  runInstr (.halo d a b) s fun e s => commandRun e s (commandOp e opHalo d (e.u a) (e.u b))

/-! ## Arming (R306 to R309) -/

/-- The checks of ARM (R306): its barrier's space and alignment, its key's alignment, and the barrier's offset. -/
def armCheck (s : State) (w : Wave) (barrier key : Word) : Option (Cause × Word) :=
  match resolve s w .generic barrier with
  | .error (true, c) => some (c, barrier)
  | r =>
    if selector barrier = 0xFE then some (.illegalAddress, barrier)
    else if barrier.toNat % 16 ≠ 0 then some (.misaligned, barrier)
    else if key.toNat % 64 ≠ 0 then some (.misaligned, key)
    else match r with
      | .error (_, c) => some (c, barrier)
      | .ok _ => none

/-- The wave's record of a key. -/
def ownArm (c : Core) (w : Wave) (key : Word) : Option ArmRec := c.arms.find? fun a => a.uid == w.uid && a.key == key

/-- The cancelled records that a wave left on other cores, before it was saved, go as it arms their key again (R308). -/
def dropOldArm (s : State) (w : Wave) (key : Word) : State :=
  let old : ArmRec → Bool := fun a => a.uid == w.uid && a.key == key && a.state == .cancelled
  let upd : Nat × Core → Nat × Core := fun e =>
    if e.1 = w.core then e else (e.1, { e.2 with arms := e.2.arms.filter fun a => !old a })
  { s with cores := (s.cores.map upd).filter fun e => decide (e.2 ≠ emptyCore) }

/-- ARM performed (R306): `base` is the barrier, `arg` the key. It raises and leaves no report (R326). -/
def performArm (s : State) (w : Wave) (op : MemOp) : MemResult :=
  match armCheck s w op.base op.arg with
  | some (c, addr) => .trap c addr none
  | none =>
    let a := waveActor s w
    match accessObj s { w with brokenPins := [] } a op.base 16 16 false op with
    | (.error r, _) => r
    | (.ok o, s0) =>
      let s1 := dropOldArm s0 w op.arg
      let phase := (readBarrier s1 a o).phase
      let c := s1.core w.core
      let fresh : ArmRec := { uid := w.uid, lid := w.lid, bid := w.bid, run := w.run, key := op.arg, barrier := op.base,
                              loc := o.loc, state := .armed, source := 0, tag := 0, disarms := [] }
      let arms := match ownArm c w op.arg with
        | some old => c.arms.map fun x => if x == old then fresh else x
        | none => c.arms ++ [fresh]
      let s2 := (s1.setCore w.core { c with arms := arms }).modWave w.uid fun x => x.recordArrival op.base phase
      .ok s2 [] (homeLatency s w o.target + 4) 0

/-- ARM waits while its key is committed, and while a new record finds the core's 32 in use (R306). -/
def armWaits (s : State) (w : Wave) (key : Word) : Bool :=
  let c := s.core w.core
  match ownArm c w key with
  | some a => a.state == .committed
  | none => decide (32 ≤ c.arms.length)

/-- ARM's operation: it reads its barrier. -/
def armOp (barrier key : Word) : MemOp :=
  { plainOp .arm with
    scalar := true, base := barrier, arg := key
    lanes := [{ lane := 0, addr := barrier, width := 16, data := 0, data2 := 0 }] }

def execArm (a b : OpCode) (s : State) : Host.Outcome State Fault Refusal :=
  runInstr (.arm a b) s fun e s =>
    match armCheck s e.w (e.u a) (e.u b) with
    | some (c, addr) => .raiseAt c addr
    | none =>
      if armWaits s e.w (e.u b) then .wait
      else memRun e .ls s (armOp (e.u a) (e.u b)) performArm

def execDisarm (a : OpCode) (s : State) : Host.Outcome State Fault Refusal :=
  runInstr (.disarm a) s fun e s =>
    let c := s.core e.w.core
    let mine : ArmRec → Bool := fun x => x.uid == e.w.uid && x.barrier == e.u a
    let waits := c.arms.any fun x => mine x && x.state == .committed
    let r := pend s e (if waits then none else some 4) [] .none false 0
    let upd : ArmRec → ArmRec := fun x =>
      if !mine x then x
      else if x.state == .armed then { x with state := .cancelled }
      else if x.state == .committed then { x with disarms := x.disarms ++ [r.1] }
      else x
    let s1 := r.2.setCore e.w.core { r.2.core e.w.core with arms := c.arms.map upd }
    .done (if waits then s1.modWave e.w.uid fun w => w.modPath e.iss.place fun p => { p with park := .hold r.1 } else s1)

/-! ## The event queue (R318 to R321) -/

/-- The queue of a block on a core. -/
def blockQueue (s : State) (core lid bid : Nat) (run : Run) : List Word :=
  (((s.core core).queues.find? fun q => q.lid == lid && q.bid == bid && q.run == run).map EventQueue.records).getD []

/-- The queue's records replaced; an empty queue is not listed. -/
def setQueue (s : State) (core lid bid : Nat) (run : Run) (rs : List Word) : State :=
  let c := s.core core
  let rest := c.queues.filter fun q => !(q.lid == lid && q.bid == bid && q.run == run)
  s.setCore core { c with queues := if rs.isEmpty then rest
    else rest ++ [{ lid := lid, bid := bid, run := run, records := rs }] }

/-- The oldest path parked on a block's queue on a core: its wave and the order of its parking. -/
def oldestEventWaiter (s : State) (core lid bid : Nat) (run : Run) : Option (Nat × Nat) :=
  let all := s.waves.flatMap fun w =>
    if w.core == core && w.lid == lid && w.bid == bid && w.run == run then
      w.allPaths.filterMap fun p => match p.park with
        | .event _ _ since => some (w.uid, since)
        | _ => none
    else []
  match all with
  | [] => none
  | x :: xs => some (xs.foldl (fun a b => if b.2 < a.2 then b else a) x)

/-- A completion record posted: handed to the oldest waiter, whose EVPOP is then the acquire (R112), or queued; the 65th errors
the context (R318 to R320). -/
def postRecord (s : State) (core lid bid : Nat) (run : Run) (rec : Word) : State :=
  match oldestEventWaiter s core lid bid run with
  | some (uid, since) =>
    (match s.wave? uid with
     | none => s
     | some w =>
       let r := w.satisfy (fun p => match p.park with
         | .event d n t => if t = since then some (d, n) else none
         | _ => none) rec
       r.2.foldl (fun s n => acquireUntil (s.schedule 0 (.instructionComplete uid n)) uid n) (s.setWave r.1))
  | none =>
    let q := blockQueue s core lid bid run
    if 64 ≤ q.length then
      (match s.block? lid bid run with
       | some b => blockError s b.lid b.bid b.run b.fn b.ctx .evqOverflow 0
       | none => s)
    else setQueue s core lid bid run (q ++ [rec])

def execEvpop (d : OpCode) (s : State) : Host.Outcome State Fault Refusal :=
  runInstr (.evpop d) s fun e s =>
    match blockQueue s e.w.core e.w.lid e.w.bid e.w.run with
    | rec :: rest =>
      let s1 := setQueue s e.w.core e.w.lid e.w.bid e.w.run rest
      let r := pend s1 e (some 4) (e.all d rec) .none false 0
      .done (acquireUntil r.2 e.w.uid r.1)
    | [] =>
      let r := pend { s with counter := s.counter + 1 } e none (destAll d e.p.mask 0) .none false 0
      .done (r.2.modWave e.w.uid fun w => w.modPath e.iss.place
        (parkedAt e.iss.bundle e.iss.slot (.event d r.1 s.counter)))

def execEvpeek (d : OpCode) (s : State) : Host.Outcome State Fault Refusal :=
  runInstr (.evpeek d) s fun e s =>
    let q := blockQueue s e.w.core e.w.lid e.w.bid e.w.run
    let r := pend s e (some 4) (e.all d (q.headD 0)) .none false 0
    .done (if q.isEmpty then r.2 else acquireUntil r.2 e.w.uid r.1)

/-- A command's status and mask as a record holds them (R318). -/
def recordOf (c : Command) : Nat := c.status * 2 ^ 58 + c.mask * 2 ^ 40 + c.op * 2 ^ 32 + c.tag

/-- HALOQ's word (R315). -/
def commandState (s : State) (w : Wave) (tag : Nat) : Nat :=
  match (blockCommands s w).find? fun c => c.tag == tag with
  | some c => c.status * 2 ^ 58 + c.mask * 2 ^ 40 + c.op * 2 ^ 32
  | none =>
    match (blockQueue s w.core w.lid w.bid w.run).find? fun r => bits r.toNat 0 18 == tag with
    | some r => r.toNat / 2 ^ 32 * 2 ^ 32 + 1
    | none => 2

def execHaloq (d a : OpCode) (s : State) : Host.Outcome State Fault Refusal :=
  runInstr (.haloq d a) s fun e s => e.finish s 4 (e.all d (w64 (commandState s e.w (e.u a).toNat)))

/-! ## A command performed (R301 to R304, R307, R310) -/

/-- What stops a piece of a command. -/
inductive PieceOut where
  | ok
  | fault (x : XFault)
  | again
  /-- a miss to a page that is being reclassified (R382) -/
  | blocked (asid page : Nat)
  | noRoom (line : Nat)
  | cause (c : Cause)
  deriving DecidableEq, Repr

/-- What stops an access, as a command meets it. -/
def pieceStop : XStop ⊕ Cause → PieceOut
  | .inr c => .cause c
  | .inl (.fault x) => if x.cause.delivery = .pageFault then .fault x else .cause x.cause
  | .inl (.noRoom line) => .noRoom line
  | .inl (.blocked asid page) => .blocked asid page
  | .inl _ => .again

/-- The agent of a command. -/
def commandWave (x : Command) (core : Nat) : Wave := agentWave x.lid x.bid x.run x.fn x.ctx core

/-- A command was accepted under an older map generation of its ASID than the current one (R302, R386). -/
def Command.older (s : State) (x : Command) (asid : Nat) : Bool := decide (x.mapGen < mget 0 s.mapGens asid)

/-- A command's accesses: past the L1, and under the map generation it was accepted in (R302). -/
def commandActor (s : State) (x : Command) (core : Nat) : Actor :=
  let a := waveActor s (commandWave x core)
  { a with l1 := false, old := x.older s a.asid }

/-- A source range touches a guard granule. -/
def guardAt (s : State) (w : Wave) (addr : Word) (n : Nat) : Bool :=
  match resolve s w .generic addr with
  | .ok t => (guardHit s n t).isSome
  | .error _ => false

/-- A piece's bytes written to its destination (R301, R302, R316); a line pinned outside the engine's reach is retried
(R119). -/
def writeFor (s : State) (w : Wave) (a : Actor) (addr : Word) (bytes : List Byte) : PieceOut × State :=
  match resolve s w .generic addr with
  | .error (_, c) => (.cause c, s)
  | .ok (.global va) =>
    if sealedFor s w va bytes.length then (.cause .sealedStore, s)
    else match writeVirt s a va bytes with
      | (.error x, s1) => (pieceStop (.inl x), s1)
      | (.ok _, s1) => (.ok, s1)
  | .ok (.scratch core off phys) =>
    if core / 8 == w.core / 8 && core != w.core && (s.grove (groveOf core)).portClosed then (.cause .remoteScratchGone, s)
    else if targetPinned s a.agent (.scratch core off phys) bytes.length then (.again, s)
    else (.ok, writeTarget s a 0 bytes (.scratch core off phys))
  | .ok (.weight die off) =>
    if targetPinned s a.agent (.weight die off) bytes.length then (.again, s)
    else (.ok, { s with weight := writeBytes s.weight (die * 2 ^ 29 + off) bytes })

/-- The next piece: its row, its place in the row, and its length, within one 256 B line of the destination. -/
def pieceAt (d : CopyDesc) (progress : Nat) : Nat × Nat × Nat :=
  let r := progress / d.dRow
  let o := progress % d.dRow
  let at' := d.dst.toNat + r * d.dPitch + o
  (r, o, Nat.min (d.dRow - o) (256 - at' % 256))

/-- Elements expanded by CPYD (R303): `n` of them from element `c`, out of their row's bytes from the first read. -/
def expand (form c n : Nat) (codes scales : List Byte) : List Byte :=
  (List.range n).flatMap fun i =>
    let k := c + i
    let t : EType := if form = 1 then .t6x10 else .t8x8
    let code := if form = 1 then bits (field codes (8 * (k / 10 - c / 10)) 8) (6 * (k % 10)) 6 else field codes i 1
    leBytes 2 (e8fold t code (field scales (k / 32 - c / 32) 1))

/-- A piece's source bytes, as they are to be written, and whether a guard granule was read. -/
def pieceSource (s : State) (w : Wave) (a : Actor) (op : Nat) (d : CopyDesc) (r o n : Nat) :
    Except (XStop ⊕ Cause) (List Byte × Bool) × State :=
  let row := d.src + w64 (r * d.sPitch)
  if op = opCpyd then
    let c := o / 2
    let k := n / 2
    let at' := if d.form = 1 then row + w64 (8 * (c / 10)) else row + w64 c
    let len := if d.form = 1 then 8 * ((c + k - 1) / 10 - c / 10 + 1) else k
    let sc := d.scale + w64 (r * d.scPitch + c / 32)
    let scLen := (c + k - 1) / 32 - c / 32 + 1
    match readFor s w a at' len with
    | (.error x, s1) => (.error x, s1)
    | (.ok codes, s1) =>
      match readFor s1 w a sc scLen with
      | (.error x, s2) => (.error x, s2)
      | (.ok scales, s2) => (.ok (expand d.form c k codes scales, guardAt s w at' len || guardAt s w sc scLen), s2)
  else
    match readFor s w a (row + w64 o) n with
    | (.error x, s1) => (.error x, s1)
    | (.ok bs, s1) => (.ok (bs, guardAt s w (row + w64 o) n), s1)

/-- The words of SS of a run of a row's written bytes (R358): the aligned groups of 4 in its aligned 8-byte words, and each
byte outside them, which is an access of its own (R301). -/
def ssOfSpan (addr : Nat) (bytes : List Byte) : Nat :=
  let head := Nat.min bytes.length ((8 - addr % 8) % 8)
  let mid := (bytes.length - head) / 8 * 8
  let single : Nat → Nat := fun i => ssWord (addr + i) (field bytes i 1)
  sumNat ((List.range head).map single) +
    sumNat ((List.range (mid / 4)).map fun i => ssWord (addr + head + 4 * i) (field bytes (head + 4 * i) 4)) +
    sumNat ((List.range (bytes.length - head - mid)).map fun i => single (head + mid + i))

/-- The words of SS of a piece: those of global memory (R358), and those of the weight store, at their offsets there, which
only a launch checksum counts (R417). -/
def ssOfPiece (dst : Word) (bytes : List Byte) : Nat :=
  if selector dst = 0 then ssOfSpan (dst.toNat % 2 ^ 52) bytes
  else if selector dst = 0xFE then ssOfSpan (dst.toNat % 2 ^ 29) bytes else 0

/-- Pieces performed up to a number of bytes, or until one stops; `target` is the core whose share `0xFC` names at the
destination. -/
def runPieces (core target : Nat) (d : CopyDesc) (stop : Nat) : Nat → State → Command → PieceOut × State × Command
  | 0, s, x => (.ok, s, x)
  | fuel + 1, s, x =>
    if stop ≤ x.progress then (.ok, s, x)
    else
      let (r, o, n) := pieceAt d x.progress
      let w := commandWave x core
      let a := commandActor s x core
      match pieceSource s w a x.op d r o n with
      | (.error e, s1) => (pieceStop e, s1, x)
      | (.ok (bytes, g), s1) =>
        let dst := ownAddr core d.dst + w64 (r * d.dPitch + o)
        let w' := commandWave x target
        let g' := guardAt s1 w' dst n
        match writeFor s1 w' a dst bytes with
        | (.ok, s2) =>
          let ss := ssOfPiece dst bytes
          runPieces core target d stop fuel (addSS s2 a ss)
            { x with progress := x.progress + n, guardMet := x.guardMet || g || g', ss := if selector dst = 0 then x.ss + w64 ss else x.ss }
        | (out, s2) => (out, s2, x)

/-- A command's bytes, or a portion's. -/
def CopyDesc.total (d : CopyDesc) : Nat := d.rows * d.dRow

/-- The bytes after which a command under way may be stopped by a kill: its next 4 KiB boundary (R324, log entry 75). -/
def nextStop (d : CopyDesc) (progress : Nat) : Nat := Nat.min d.total ((progress / 4096 + 1) * 4096)

/-- One step of a command or portion: what is left of it up to its next boundary. -/
def stepPieces (core target : Nat) (d : CopyDesc) (s : State) (x : Command) : PieceOut × State × Command :=
  if x.moved then (.ok, s, x) else runPieces core target d (nextStop d x.progress) 4096 s x

/-- The head command of a channel changed. -/
def setHead (s : State) (core chan : Nat) (x : Command) : State :=
  let c := s.core core
  match c.chan chan with
  | [] => s
  | _ :: rest => s.setCore core (c.setChan chan (x :: rest))

/-- The command a channel performs. -/
def headCommand (s : State) (core chan : Nat) : Option Command :=
  match (s.core core).chan chan with
  | x :: _ => if x.waitSeq.isNone then some x else none
  | [] => none

/-- A page fault of a command: it pauses with its channel, and the fault is queued (R302). -/
def pauseCommand (s : State) (core chan : Nat) (x : Command) (f : XFault) : State :=
  let s1 := setHead s core chan { x with waiting := true }
  postFault s1 f 3 (((s.anyWave? x.uid).map waveRequester).getD core) (.command core chan)

/-- The clocks a command's bytes take at 64 B a clock (R297), and its farthest home (log entry 3). -/
def moveClocks (n : Nat) : Nat := ceilDiv n 64 + 600

/-- The clocks of a command's next step. -/
def stepClocks (d : CopyDesc) (progress : Nat) : Nat := ceilDiv (nextStop d progress - progress) 64

/-- The command's bytes, or its portion's, have moved or stopped: a stop other than a page fault is its status (R302). -/
def stopStatus (x : Command) : PieceOut → Command
  | .cause c => { x with status := c.code, moved := true }
  | _ => { x with status := if x.guardMet && x.status == 0 then Cause.scratchGuard.code else x.status, moved := true }

/-- A command refused at a line has had its other lines' writes accepted (R355). -/
def Wave.commandOn (tag line : Nat) (w : Wave) : Wave :=
  { w with refused := w.refused.filter fun e => match e.1 with
      | .command n l => n != tag || l == line
      | _ => true }

/-- The command's own page fault, wait for room or retry; `none` when it is done or stopped for good. -/
def commandWait (s : State) (core chan : Nat) (x : Command) (again : Instr) : PieceOut → Option State
  | .fault f => some (pauseCommand s core chan x f)
  | .again => some ((setHead s core chan x).schedule 1 again)
  | .blocked asid page => some ((setHead (blockPage s asid page) core chan x).schedule 1 again)
  | .noRoom line =>
    let w := (s.anyWave? x.uid).getD (commandWave x core)
    some ((setHead (holdRefused (s.modAny x.uid (Wave.commandOn x.tag line)) w line (.command x.tag line)) core chan x).schedule 1 again)
  | _ => none

/-- A command's held write found its room: the time of its refusals ends (R355). -/
def unrefuse (s : State) (uid tag : Nat) : State := s.modAny uid fun w =>
  { w with refused := w.refused.filter fun e => match e.1 with
      | .command n _ => n != tag
      | _ => true }

/-! ## Halo faces (R311, R314) -/

/-- A block of a context that stands for the fabric, for a face's barrier arrival. -/
def fabricBlock (fn ctx : Nat) : Block :=
  { lid := 0, bid := 0, run := .plain, fn := fn, ctx := ctx, owner := 0, unchecked := false, shares := [], shareSize := 0,
    placedAt := 0, phase := .resident, waveCount := 0, wavesLeft := 0, ss := 0, rs := 0, faulted := none, departed := false,
    atomics := false, atomicIndex := [], txOpen := 0, quadSets := [], heldItems := [], saved := none, coresUsed := [],
    forced := false }

/-- A range is sealed against every agent (R126). -/
def sealedRange (s : State) (asid va n : Nat) : Bool :=
  s.seals.any fun x => x.1 == asid && decide (va < x.2.1 + x.2.2) && decide (x.2.1 < va + n)

/-- An access of no bytes for each 64 KiB page of a range: the page is translated and checked. -/
def pageChecks (va n : Nat) : List (Nat × Nat) :=
  (List.range ((va + n - 1) / 65536 - va / 65536 + 1)).map fun k => (65536 * (va / 65536 + k), 0)

/-- What becomes of a face at a window: it is answered, with 0 or a cause code, or its writes wait for a pinned line or a
map change. -/
inductive FaceOut where
  | answered (code : Nat) (s : State)
  | again (s : State)
  deriving DecidableEq, Repr

/-- The window is of a Canopy group's context that is not this group's: it was enabled while the chip was a member of
another (R314, log entry 86). -/
def otherGroup (s : State) (h : HaloWindow) : Bool := h.group.any fun g => g != s.canopy.group

/-- A face's lines, which its barrier arrival performs at GROUP (R112, R314), are pinned to the group by the wave that issued
its HALO (R118). A peer's wave pins no line here (log entry 82). -/
def pinFace (s : State) (who : Option Nat) (lines : List Loc) : State :=
  match who.bind s.wave? with
  | none => s
  | some w => pinAt s w 6 lines fun p => p.uid == w.uid && lines.contains p.line

/-- A face at this chip's window (R311, R314), of a peer or of the wave `who`: refused whole, or written row by row with its
barrier arrived on. A face whose rows or barrier meet a sealed region is refused whole, as one whose page is not writable is
(DESIGN CHOICE, log entry 105: the spec names no outcome for it). -/
def receiveFace (s : State) (who : Option Nat) (window len rows dOff dPitch : Nat) (sig : Bool) (barOff : Nat)
    (data : List Byte) : FaceOut :=
  let refuse : FaceOut := .answered Cause.haloTable.code s
  match mfind s.haloWindows window with
  | none => refuse
  | some h =>
    match s.ctx? h.owner h.ctx with
    | none => refuse
    | some ctx =>
      let pitch := if rows = 1 then 0 else dPitch
      let span := spanOf rows pitch len
      if !h.enabled || otherGroup s h || decide (h.len < dOff + span) || (sig && decide (h.len < barOff + 16)) then refuse
      else
        let a := plainActor .fabric ctx.asid
        let base := h.base + dOff
        let barrier := if sig then [(h.base + barOff, 16)] else []
        let ranges := ((List.range rows).map fun r => (base + r * pitch, len)) ++ barrier
        match xlateParts s a .write (pageChecks base span ++ ranges.flatMap fun x => partsOf x.1 x.2) with
        | (.error (.fault _), _) => refuse
        | (.error (.blocked asid page), s1) => .again (blockPage s1 asid page)
        | (.error _, s1) => .again s1
        | (.ok _, s1) =>
          if ranges.any fun x => sealedRange s ctx.asid x.1 x.2 then refuse
          else
            let s2 := (List.range rows).foldl (fun s r =>
              (writeVirt s a (base + r * pitch) (slice data (r * len) len)).2) s1
            if !sig then .answered 0 s2
            else
              match objOfLoc s2 a { space := .global ctx.asid, addr := h.base + barOff } with
              | (none, s3) => .answered 0 s3
              | (some o, s3) =>
                if (readBarrier s3 a o).kind = 1 then .answered Cause.barrierMisuse.code s3
                else match arriveAt s3 a none (fabricBlock h.owner h.ctx) o 1 0 0 with
                  | some s4 => .answered 0 (pinFace s4 who ((ranges.flatMap fun x => targetLines ctx.asid (.global x.1) x.2)))
                  | none => .answered Cause.barrierMisuse.code s3

/-- The kernel completes with FABRIC_DOWN once it has run to its end (R314, R323). -/
def fabricDown (s : State) (lid : Nat) : State :=
  match s.launch? lid with
  | some l => s.setLaunch { l with status := mergeStatus l.status Cause.fabricDown.code }
  | none => s

/-- A face received and answered, or kept until it can be (R119). One of a release's held sends that fails gives its kernel
FABRIC_DOWN (R323). -/
def takeFace (s : State) (f : FaceWait) : State :=
  match receiveFace s none f.window f.len f.rows f.dOff f.dPitch f.sig f.barOff f.data with
  | .answered code s1 =>
    match f.lid with
    | none => { s1 with haloAnswers := s1.haloAnswers ++ [code] }
    | some lid => if code = 0 then s1 else fabricDown s1 lid
  | .again s1 => { s1 with facesWaiting := s1.facesWaiting ++ [f] }

/-- The faces that wait are tried again, oldest first. -/
def retryFaces (s : State) : State := s.facesWaiting.foldl takeFace { s with facesWaiting := [] }

def execHaloFaceReceive (window rowLen rows dstOff dstPitch : Nat) (sig : Bool) (barOff : Nat) (data : List Byte)
    (s : State) : Host.Outcome State Fault Refusal :=
  .next (takeFace s { lid := none, window := window, len := rowLen, rows := rows, dOff := dstOff, dPitch := dstPitch, sig := sig,
                      barOff := barOff, data := data })

/-- The chip is a current member of the group (R314). -/
def isMember (s : State) (chip : Nat) : Bool :=
  decide (2 ≤ s.canopy.state) && (chip == s.canopy.chip || s.canopy.members.any fun m => m.chip == chip)

/-- A face's rows as its source holds them. -/
def faceRows (s : State) (a : Actor) (f : Face) : Nat → Nat → Except XStop (List Byte) × State
  | 0, _ => (.ok [], s)
  | n + 1, r =>
    match readVirt s a (f.src.toNat + r * (if f.rows = 1 then 0 else f.sPitch)) f.len with
    | (.error x, s1) => (.error x, s1)
    | (.ok bs, s1) =>
      match faceRows s1 a f n (r + 1) with
      | (.error x, s2) => (.error x, s2)
      | (.ok rest, s2) => (.ok (bs ++ rest), s2)

/-- A face sent (R314), by the command of the wave `who` or by a release. What a peer answers is a free value; a face to this
chip's own window is received here. -/
def sendFace (s : State) (who : Option Nat) (f : Face) (data : List Byte) : FaceOut :=
  if !isMember s f.chip || s.linksLost.contains f.chip then .answered Cause.fabricDown.code s
  else if f.chip = s.canopy.chip then receiveFace s who f.window f.len f.rows f.dOff f.dPitch f.sig f.barOff data
  else
    let s1 := { s with
      haloAsked := s.haloAsked + 1
      haloSent := s.haloSent ++ [(f.chip, f.window, f.dOff, data, if f.sig then some f.barOff else none)] }
    match (Config.peerVerdict s.haloAsked).val with
    | 0 => .answered 0 s1
    | 1 => .answered Cause.haloTable.code s1
    | _ => .answered (if f.sig then Cause.barrierMisuse.code else 0) s1

/-- A command with a failing face noted: its status is that of the first in face order (R314). -/
def Command.failFace (x : Command) (face code : Nat) : Command :=
  let failed := mput x.failed face code
  { x with failed := failed, status := (failed.head?.map Prod.snd).getD 0 }

/-- A face's outcome noted in its command (R314): a failing one is left out of MASK, but for a refused barrier. -/
def noteFace (x : Command) (face code : Nat) : Command :=
  let x1 := if code = 0 || code = Cause.barrierMisuse.code then { x with mask := x.mask + 2 ^ face } else x
  if code = 0 then x1 else x1.failFace face code

/-- The faces of a halo command sent in ascending order from where it stands. -/
def runFaces (a : Actor) : List Nat → State → Command → PieceOut × State × Command
  | [], s, x => (.ok, s, x)
  | f :: fs, s, x =>
    if f < x.progress then runFaces a fs s x
    else
      let face := readFace x.table f
      match faceRows s a face face.rows 0 with
      | (.error e, s1) => (pieceStop (.inl e), s1, x)
      | (.ok data, s1) =>
        match sendFace s1 (some x.uid) face data with
        | .again s2 => (.again, s2, x)
        | .answered code s2 => runFaces a fs s2 { noteFace x f code with progress := f + 1 }

/-- The bytes of a halo command's faces, as it reads them (R323). -/
def readFaces (a : Actor) (table : List Byte) : List Nat → State → Except XStop (List (List Byte)) × State
  | [], s => (.ok [], s)
  | f :: fs, s =>
    match faceRows s a (readFace table f) (readFace table f).rows 0 with
    | (.error e, s1) => (.error e, s1)
    | (.ok data, s1) =>
      match readFaces a table fs s1 with
      | (.error e, s2) => (.error e, s2)
      | (.ok rest, s2) => (.ok (data :: rest), s2)

/-- The first of a block's held faces to the chip's own window that cannot be written yet, a line of it being pinned or its page
frozen (R119, R386): the block's release waits for it, since no part of a release is seen without the rest (R128). -/
def haloWaits (s : State) (b : Block) : Option State :=
  let faces := b.heldItems.flatMap fun i => match i with
    | .halo _ _ table mask (some data) => ((setBits 16 mask).map (readFace table)).zip data
    | _ => []
  (faces.filter fun x => x.1.chip == s.canopy.chip).findSome? fun x => match sendFace s none x.1 x.2 with
    | .again s1 => some s1
    | .answered _ _ => none

/-- A held HALO's faces sent at its block's release (R323). -/
def releaseHalo (s : State) (b : Block) (table : List Byte) (mask : Nat) (data : List (List Byte)) : State :=
  ((setBits 16 mask).zip data).foldl (fun s x =>
    let f := readFace table x.1
    match sendFace s none f x.2 with
    | .again s1 => { s1 with facesWaiting := s1.facesWaiting ++ [{ lid := some b.lid, window := f.window, len := f.len, rows := f.rows,
                                                                    dOff := f.dOff, dPitch := f.dPitch, sig := f.sig,
                                                                    barOff := f.barOff, data := x.2 }] }
    | .answered code s1 => if code = 0 then s1 else fabricDown s1 b.lid) s

/-- HALO performed: held by an unchecked run (R323), or sent, its sources read on the FB path (R314). Its word of SS is formed at every level (R358, R362). -/
def runHalo (s : State) (core chan : Nat) (x : Command) : State :=
  let a := { commandActor s x core with agent := .fabric }
  let ss := ssWord x.descAddr.toNat x.faceMask
  let again : Instr := .copyCommandExecute core chan
  if a.held then
    match readFaces a x.table (setBits 16 x.faceMask) s with
    | (.error e, s1) => (commandWait s1 core chan { x with started := true } again (pieceStop (.inl e))).getD
        ((setHead (fillHalo s1 core x none) core chan (stopStatus { x with started := true } (pieceStop (.inl e)))).schedule
          (moveClocks 0) (.copyCommandEnd core chan))
    | (.ok data, s1) =>
      (setHead (addSS (fillHalo s1 core x (some data)) a ss) core chan { x with mask := x.faceMask, ss := w64 ss, started := true, moved := true }).schedule
        (moveClocks 0) (.copyCommandEnd core chan)
  else
    match runFaces a (setBits 16 x.faceMask) s { x with started := true } with
    | (out, s1, x1) =>
      match commandWait s1 core chan x1 again out with
      | some s2 => s2
      | none => (setHead (addSS s1 a ss) core chan (stopStatus { x1 with ss := w64 ss } out)).schedule (moveClocks 0)
          (.copyCommandEnd core chan)

/-- The faces in flight to some chips fail (R314). A held HALO has sent none. -/
def failFaces (s : State) (gone : Nat → Bool) : State :=
  let hit : Command → Command := fun x =>
    if x.op = opHalo && x.started then
      (setBits 16 x.faceMask).foldl (fun x f =>
        if gone (readFace x.table f).chip && decide (f < x.progress) && bitOf x.mask f then
          Command.failFace { x with mask := x.mask - 2 ^ f } f Cause.fabricDown.code
        else x) x
    else x
  let upd : Core → Core := fun c => { c with channels := c.channels.map fun ch => ch.map hit }
  { s with cores := s.cores.map fun e => (e.1, upd e.2) }

def execFabricLinkLoss (chip : Nat) (s : State) : Host.Outcome State Fault Refusal :=
  .next { failFaces s (fun c => c == chip) with
    linksLost := if s.linksLost.contains chip then s.linksLost else s.linksLost ++ [chip] }

/-! ## The channel's events (R297, R301, R307, R318) -/

/-- The lines of global memory and of shares that a command has written, or of a portion on its target. What an unchecked run
writes to global memory is held, and performed at its release (R127). -/
def writtenLines (s : State) (x : Command) (core target : Nat) : List Loc :=
  let d := readDesc x.op x.desc
  let w := commandWave x target
  let a := waveActor s w
  (List.range d.rows).flatMap fun r =>
    match Nat.min d.dRow (x.progress - r * d.dRow), resolve s w .generic (ownAddr core d.dst + w64 (r * d.dPitch)) with
    | 0, _ => []
    | n, .ok (.global va) => if a.held then [] else targetLines a.asid (.global va) n
    | n, .ok t => targetLines a.asid t n
    | _, .error _ => []

/-- An engine release performs the lines its command has written at a scope (R112, R114): they are pinned to its domain by the
issuing wave (R118). A wave that has left or saved holds no pin (R119). -/
def performEngine (s : State) (x : Command) (scope : Nat) (lines : List Loc) : State :=
  match s.wave? x.uid with
  | none => s
  | some w => (pinAt s w scope lines fun p => p.uid == w.uid && lines.contains p.line).modWave w.uid fun y =>
      { y with dirty := y.dirty.filter fun l => !(l.1 == .cp && lines.contains l.2) }

/-- The scope of the barrier an address names for a command (R112). -/
def barrierScope (s : State) (w : Wave) (addr : Word) : Nat :=
  match resolve s w .generic addr with
  | .ok t => objScope s (s.waveAsid w) t
  | .error _ => 2

/-- A channel starts, or takes up again, its next accepted command (R301): it moves bytes up to the command's next boundary,
and goes on from there in the clocks they take. -/
def copyExecute (core chan : Nat) (s : State) : State :=
    match headCommand s core chan with
    | none => s
    | some x =>
      if x.waiting then s
      else if x.op = opHalo then runHalo s core chan x
      else
        let d := readDesc x.op x.desc
        if isMulticast x.op then
          match x.targets with
          | [] => (setHead s core chan { x with started := true }).schedule 0 (.copyCommandEnd core chan)
          | t :: _ => (setHead s core chan { x with started := true }).schedule
              (if x.started then 0 else moveClocks (nextStop d 0)) (.multicastDelivery core chan t)
        else
          match stepPieces core core d s { x with started := true } with
          | (out, s1, x1) =>
            match commandWait s1 core chan x1 (.copyCommandExecute core chan) out with
            | some s2 => s2
            | none =>
              if out = .ok && decide (x1.progress < d.total) then
                (setHead (unrefuse s1 x1.uid x1.tag) core chan x1).schedule (stepClocks d x.progress) (.copyCommandExecute core chan)
              else (setHead (unrefuse s1 x1.uid x1.tag) core chan (stopStatus x1 out)).schedule
                (600 + stepClocks d x.progress) (.copyCommandEnd core chan)

def execCopyCommandExecute (core chan : Nat) (s : State) : Host.Outcome State Fault Refusal :=
  .next (copyExecute core chan s)

/-- The phase of a barrier as an engine finds it. -/
def barrierPhase (s : State) (w : Wave) (a : Actor) (addr : Word) : Bool :=
  match resolve s w .generic addr with
  | .ok t =>
    let pa := match t with
      | .global va => (match (xlateParts s a .read [(va, 16)]).1 with
        | .ok ((_, pa, _) :: _) => pa
        | _ => 0)
      | _ => 0
    (parseBarrier (readTarget s a pa 16 t)).phase
  | .error _ => false

/-- A wave some of whose paths wait in PSAVE (R309). -/
def Wave.saving (w : Wave) : Bool := w.allPaths.any fun p => p.park == .saved

/-- What a delivery came to: the arrival performed or not taken, or stopped, to be made again. -/
inductive Delivery where
  | done (s : State) (taken : Bool)
  | stopped (s : State) (x : XStop)
  deriving DecidableEq, Repr

/-- One committed record delivered: its barrier is arrived on at once, a wave that waits in PSAVE is to be given an arrival
record, the record goes, and the DISARMs that waited only for it complete (R307 to R309, R323). -/
def deliverArm (s : State) (x : Command) (target : Nat) (b : Block) (r : ArmRec) : Delivery :=
  let w := blockAgent b target
  let a := { commandActor s x target with held := false }
  let phase := barrierPhase s w a r.barrier
  let finish : State → State := fun s1 =>
    let c := s1.core target
    let arms := c.arms.erase r
    let done := r.disarms.filter fun n => !arms.any fun a => a.uid == r.uid && a.disarms.contains n
    done.foldl (fun s n => s.schedule 4 (.instructionComplete r.uid n)) (s1.setCore target { c with arms := arms })
  match engineArrive s b target r.barrier true (x.older s a.asid) with
  | .stopped s1 e => .stopped s1 e
  | .notTaken s1 => .done (finish s1) false
  | .performed s1 => .done (finish (s1.modWave r.uid fun w =>
      if w.saving then { w with delivered := w.delivered ++ [{ addr := r.barrier, phase := phase }] } else w)) true

/-- The committed records of a command on a target delivered in turn; answers whether each arrival was performed. -/
def deliverArms (x : Command) (target : Nat) (b : Block) : List ArmRec → State → Delivery
  | [], s => .done s true
  | r :: rs, s =>
    match deliverArm s x target b r with
    | .stopped s1 e => .stopped s1 e
    | .done s1 t1 => match deliverArms x target b rs s1 with
      | .stopped s2 e => .stopped s2 e
      | .done s2 t2 => .done s2 (t1 && t2)

/-- The committed records of a command on a core. -/
def committedArms (s : State) (core target tag : Nat) : List ArmRec :=
  (s.core target).arms.filter fun a => a.state == .committed && a.source == core && a.tag == tag

/-- A target core's portion lands, step by step (R307): it is performed at GROVE, the target's records are delivered, and the
next target follows. An arrival that is stopped is made again; the records delivered before it are gone. -/
def multicastLand (core chan target : Nat) (s : State) : State :=
    match headCommand s core chan with
    | none => s
    | some x =>
      if x.waiting || x.targets.head? != some target then s
      else
        let d := readDesc x.op x.desc
        let again : Instr := .multicastDelivery core chan target
        match stepPieces core target d s x with
        | (out, s1, x1) =>
          match commandWait s1 core chan x1 again out with
          | some s2 => s2
          | none =>
            if out = .ok && !x1.moved && decide (x1.progress < d.total) then
              (setHead (unrefuse s1 x1.uid x1.tag) core chan x1).schedule (stepClocks d x1.progress) again
            else
              match s1.block? x.lid x.bid x.run with
              | none => s1
              | some b =>
                let x2 := if x1.moved then x1 else stopStatus x1 out
                let s2 := performEngine s1 x2 3 (writtenLines s1 x2 core target)
                match deliverArms x2 target b (committedArms s2 core target x.tag) s2 with
                | .stopped s3 e => (commandWait s3 core chan x2 again (pieceStop (.inl e))).getD s3
                | .done s3 taken =>
                  let s4 := if x.op = opCpymc && decide (d.total ≤ x2.progress) then
                      fillStage s3 target x.lid x.bid x.run (d.dst.toNat % 2 ^ 20) else s3
                  let x3 := { x2 with targets := x2.targets.drop 1, progress := 0, moved := false, mask := x2.mask + 2 ^ (target % 8),
                                      status := if taken then x2.status else Cause.barrierMisuse.code }
                  let s5 := setHead s4 core chan x3
                  match x3.targets with
                  | [] => s5.schedule 0 (.copyCommandEnd core chan)
                  | t :: _ => s5.schedule (moveClocks (nextStop d 0)) (.multicastDelivery core chan t)

def execMulticastDelivery (core chan target : Nat) (s : State) : Host.Outcome State Fault Refusal :=
  .next (multicastLand core chan target s)

/-- A command leaves its channel; one that waits for room is accepted, and the next starts (R296, R297). -/
def popCommand (s : State) (core chan : Nat) : State :=
  let c := s.core core
  let rest := (c.chan chan).drop 1
  let s1 := s.setCore core (c.setChan chan rest)
  match rest with
  | [] => s1
  | y :: _ => if y.waitSeq.isSome then acceptNext s1 core chan
    else (acceptNext s1 core chan).schedule 0 (.copyCommandExecute core chan)

/-- A command whose bytes have moved raises its fill once (R304), and its lines are its wave's writes on the CP path (R118). -/
def fillOnce (s : State) (core chan : Nat) (x : Command) : State × Command :=
  if x.filled then (s, x)
  else
    let d := readDesc x.op x.desc
    let x1 := { x with filled := true }
    let s1 := if x.op = opCpym && decide (d.total ≤ x.progress) then
        fillStage s core x.lid x.bid x.run (d.dst.toNat % 2 ^ 20) else s
    let s2 := if x.op = opHalo || isMulticast x.op then s1 else noteLines s1 x.uid .cp (writtenLines s1 x core core)
    (setHead s2 core chan x1, x1)

/-- A command's last acts (R318, R321): its words count (R362), its lines are performed at the scope of its releases (R112),
it leaves its channel, and its record is posted. -/
def commandDone (s : State) (core chan : Nat) (x : Command) (scope : Option Nat) : State :=
  let d := readDesc x.op x.desc
  let posts := x.op = opHalo || !d.norec
  -- a completion record is a release at CORE, and a neighbour write is performed at GROVE (R112, R310)
  let least := if x.op = opCpyn then 3 else 2
  let s1 := (unrefuse s x.uid x.tag).modAny x.uid fun w => { w with ownSS := w.ownSS + x.ss }
  let s2 := if x.op = opHalo || isMulticast x.op then s1
    else match scope, posts with
      | some n, _ => performEngine s1 x (Nat.max least n) (writtenLines s1 x core core)
      | none, true => performEngine s1 x least (writtenLines s1 x core core)
      | none, false => s1
  let s3 := if x.op == opHalo && x.status == Cause.fabricDown.code then fabricDown s2 x.lid else s2
  let s4 := popCommand s3 core chan
  if posts then postRecord s4 core x.lid x.bid x.run (w64 (recordOf x)) else s4

/-- A command's end (R304, R318, R321): its follow-on fill, its completion barrier arrival, and then its record. -/
def commandEnd (core chan : Nat) (s : State) : State :=
    match headCommand s core chan with
    | none => s
    | some x =>
      if x.waiting || !x.started then s
      else
        match s.block? x.lid x.bid x.run with
        | none => popCommand s core chan
        | some b =>
          let bar := if x.op = opHalo then 0 else (readDesc x.op x.desc).barrier
          match fillOnce s core chan x with
          | (s1, x1) =>
            if bar = 0 then commandDone s1 core chan x1 none
            else
              let w := commandWave x core
              match engineArrive s1 b core bar false (x.older s1 (s1.waveAsid w)) with
              | .stopped s2 e =>
                (commandWait s2 core chan x1 (.copyCommandEnd core chan) (pieceStop (.inl e))).getD
                  (commandDone s2 core chan { x1 with status := (match pieceStop (.inl e) with | .cause c => c.code | _ => x1.status) } none)
              | .notTaken s2 => commandDone s2 core chan { x1 with status := Cause.barrierMisuse.code } none
              | .performed s2 =>
                let word := if selector bar = 0 then ssWord (bar.toNat % 2 ^ 52) 1 else 0
                commandDone s2 core chan { x1 with ss := x1.ss + w64 word } (some (barrierScope s2 w bar))

def execCopyCommandEnd (core chan : Nat) (s : State) : Host.Outcome State Fault Refusal :=
  .next (commandEnd core chan s)

/-- Every channel takes the commands it has room for, and begins its head command (R296, R297): as when a kill has taken
commands out of it. -/
def settleChannels (s : State) : State :=
  s.cores.foldl (fun s e => (List.range e.2.channels.length).foldl (fun s k =>
    let s1 := if ((s.core e.1).chan k).take 16 |>.any fun x => x.waitSeq.isSome then acceptNext s e.1 k else s
    match headCommand s1 e.1 k with
    | some x => if x.started || x.waiting then s1 else s1.scheduleOnce 0 (.copyCommandExecute e.1 k)
    | none => s1) s) s

/-! ## Halo windows (R311) -/

/-- The selected window of a function. -/
def selectedWindow (s : State) (fn : Nat) : HaloWindow :=
  (mfind s.haloWindows (s.func fn).haloSel).getD { owner := fn, base := 0, len := 0, ctx := 0, group := none, enabled := false }

/-- The selected window replaced. -/
def setWindow (s : State) (fn : Nat) (h : HaloWindow) : State :=
  { s with haloWindows := mput s.haloWindows (s.func fn).haloSel h }

/-- The windows a test selects are disabled (R311, R402). -/
def disableWindows (s : State) (f : HaloWindow → Bool) : State :=
  let upd : HaloWindow → HaloWindow := fun h => if f h then { h with enabled := false } else h
  { s with haloWindows := s.haloWindows.map fun e => (e.1, upd e.2) }

/-- ERR of the function for its selected window. -/
def setWindowErr (s : State) (fn : Nat) (on : Bool) : State :=
  let f := s.func fn
  let rest := f.haloErr.filter fun n => n != f.haloSel
  s.setFunc fn { f with haloErr := if on then rest ++ [f.haloSel] else rest }

/-- HWCTL with ENABLE set (R311): the window is enabled or the write is refused with ERR. -/
def execHaloWindowEnable (fn : Nat) (value : Word) (s : State) : Host.Outcome State Fault Refusal :=
  .next (
    let h := selectedWindow s fn
    if h.enabled then (if h.owner = fn then s else setWindowErr s fn true)
    else
      let h1 := { h with ctx := bits value.toNat 0 4, owner := fn }
      if (s.ctx? fn h1.ctx).isNone || h1.len = 0 || 2 ^ 52 < h1.base + h1.len then
        setWindowErr (setWindow s fn h1) fn true
      else
        let group := if 2 ≤ s.canopy.state then some s.canopy.group else none
        setWindowErr (setWindow s fn { h1 with enabled := true, group := group }) fn false)

/-- HWCTL with ENABLE clear, on an enabled window of the function (R311). -/
def execHaloWindowDisable (fn : Nat) (s : State) : Host.Outcome State Fault Refusal :=
  .next (
    let h := selectedWindow s fn
    if h.owner = fn && h.enabled then setWindow s fn { h with enabled := false } else s)

end Sys2Proof.Machine
end

