-- ==== Sys2Proof/Machine/Cascade.lean ====
section
/-! DEFINITION. The Cascade worklist engine (R327 to R350): domains over the package's nodes, pushing with the floor's
lowering rounds, popping and parking, the spillway, stealing, termination, and the engine's events. -/

namespace Sys2Proof.Machine

/-! ## Domains and nodes -/

/-- A node's part of a domain when nothing was ever in it. -/
def emptyNode : NodeTasks :=
  { tasks := [], spilled := [], stealing := false, stealHeld := false, nextVictim := 0, served := false, stalled := false }

def Domain.node (d : Domain) (g : Nat) : NodeTasks := mget emptyNode d.nodes g
def Domain.setNode (d : Domain) (g : Nat) (x : NodeTasks) : Domain := { d with nodes := mset emptyNode d.nodes g x }

/-- A domain changed. -/
def State.modDomain (s : State) (dom : Nat) (f : Domain → Domain) : State :=
  { s with domains := s.domains.map fun d => if d.id == dom then f d else d }

/-- The domain of a wave's launch (R327). -/
def waveDomain (s : State) (w : Wave) : Option Domain := ((s.launch? w.lid).bind Launch.domain).bind s.domain?

/-- A task is admissible (R331). -/
def Domain.admits (d : Domain) (bucket : Nat) : Bool := decide (bucket ≤ d.floor + d.delta)

/-- A task queued at the tail of its bucket. -/
def insertTask (t : Task) : List Task → List Task
  | [] => [t]
  | x :: xs => if t.bucket < x.bucket then t :: x :: xs else x :: insertTask t xs

/-- The node has served a request since the last token wave (R345). -/
def noteServed (s : State) (dom g : Nat) : State :=
  s.modDomain dom fun d => d.setNode g { d.node g with served := true }

/-- The clocks of rounds, steals and token waves, which are not architectural (R343; log entry 3). -/
def roundClocks : Nat := 300
def tokenClocks : Nat := 4000

/-- Entries of a node in use, over every domain (R342). -/
def nodeEntries (s : State) (g : Nat) : Nat := sumNat (s.domains.map fun d => (d.node g).tasks.length)

/-- The ASID of a domain's context. -/
def domainAsid (s : State) (d : Domain) : Nat := ((s.ctx? d.fn d.ctx).map Context.asid).getD 0

/-- Lowest bucket queued in a domain, spilled tasks, tasks in flight and seeds that are still being entered included (R329, R330,
R332). -/
def lowestBucket (d : Domain) : Option Nat :=
  let bs := (d.nodes.flatMap fun e => e.2.tasks.map Task.bucket ++ e.2.spilled.map fun x => x.2.1) ++
    (d.inFlight.flatMap fun x => x.2.map Task.bucket) ++ (d.rounds.filter PushReq.seeds).flatMap fun r => r.tasks.map Prod.snd
  match bs with
  | [] => none
  | b :: rest => some (rest.foldl Nat.min b)

/-- A raise round is begun when the lowest queued bucket lies above F, or nothing is queued (R332). -/
def askRaise (s : State) (dom : Nat) : State :=
  match s.domain? dom with
  | none => s
  | some d =>
    match lowestBucket d with
    | some b => if d.floor < b then s.scheduleOnce roundClocks (.floorRaiseRound dom) else s
    | none => if d.noneQueued then s else s.scheduleOnce roundClocks (.floorRaiseRound dom)

/-! ## Waiters (R337, R338) -/

/-- A parked WPOPW: its wave, the order of its parking, its destination and askers. -/
structure PopWaiter where
  uid : Nat
  since : Nat
  dest : OpCode
  askers : Mask
  deriving DecidableEq, Repr

/-- The waiters of a domain parked on a node. -/
def domainWaiters (s : State) (d : Domain) (g : Nat) : List PopWaiter :=
  s.waves.flatMap fun w =>
    if w.lid == d.lid && groveOf w.core == g then
      w.allPaths.filterMap fun p => match p.park with
        | .worklist dest askers _ since => some { uid := w.uid, since := since, dest := dest, askers := askers }
        | _ => none
    else []

/-- The oldest waiter. -/
def oldestWaiter : List PopWaiter → Option PopWaiter
  | [] => none
  | x :: xs => some (xs.foldl (fun a b => if b.since < a.since then b else a) x)

/-- A pop's status word (R337). -/
def popWord (status bucket : Nat) : Word := w64 (bucket * 2 ^ 16 + status)

/-- What a lane of a pop is written: the task and its status, or zero and a status. -/
def popLane (d : OpCode) (l : Nat) (t : Option Task) (status : Nat) : List RegWrite :=
  match t with
  | some t => destWrite d l t.payload ++ destWrite (d + 1) l (popWord 0 t.bucket)
  | none => destWrite d l 0 ++ destWrite (d + 1) l (popWord status 0)

/-- Tasks given to askers in ascending lane order; those not served take a status. -/
def popWrites (d : OpCode) (status : Nat) : List Nat → List Task → List RegWrite
  | [], _ => []
  | l :: ls, [] => popLane d l none status ++ popWrites d status ls []
  | l :: ls, t :: ts => popLane d l (some t) status ++ popWrites d status ls ts

/-- The key of a lane's open count (R339). -/
def openKey (w : Wave) (l : Nat) : Nat := 32 * (1024 * w.bid + w.waveId) + l

/-- Open counts of some lanes raised by one. -/
def openLanes (d : Domain) (w : Wave) (ls : List Nat) : Domain :=
  { d with open_ := ls.foldl (fun m l => mset 0 m (openKey w l) (mget 0 m (openKey w l) + 1)) d.open_ }

/-- A park ends (R338): the waiter's lanes are written, and its path goes on. A hand-off of tasks is an acquire (R347). -/
def endPark (s : State) (x : PopWaiter) (writes : List RegWrite) (acquires : Bool) : State :=
  match s.wave? x.uid with
  | none => s
  | some w =>
    let sel : Path → Option (OpCode × Nat) := fun p => match p.park with
      | .worklist d _ n t => if t = x.since then some (d, n) else none
      | _ => none
    let r := w.satisfy sel 0
    -- what it wrote to its lanes with a full open count stands beside what its askers receive
    let rest : Nat → List RegWrite := fun n => (((w.pending.find? fun c => c.seqNo == n).map Completion.writes).getD []).filter
      fun z => !writes.any fun y => y.file == z.file && y.key == z.key
    let fill : Completion → Completion := fun c =>
      if r.2.contains c.seqNo then { c with writes := rest c.seqNo ++ writes } else c
    r.2.foldl (fun (s : State) n =>
        let s1 := s.schedule 0 (.instructionComplete w.uid n)
        if acquires then acquireUntil s1 w.uid n else s1)
      (s.setWave { r.1 with pending := r.1.pending.map fill })

/-- Tasks handed to a waiter, up to its number of askers, with its unserved askers EMPTY (R338). -/
def handTasks (s : State) (dom : Nat) (x : PopWaiter) (ts : List Task) : State :=
  match s.wave? x.uid with
  | none => s
  | some w =>
    let ls := lanesOf x.askers
    let s1 := s.modDomain dom fun d => openLanes d w (ls.take ts.length)
    endPark s1 x (popWrites x.dest 1 ls ts) true

/-- Every parked pop of a domain completes with a status (R345, R346). -/
def endParks (s : State) (d : Domain) (status : Nat) : State :=
  (s.waves.flatMap fun w =>
    if w.lid == d.lid then
      w.allPaths.filterMap fun p => match p.park with
        | .worklist dest askers _ since => some { uid := w.uid, since := since, dest := dest, askers := askers : PopWaiter }
        | _ => none
    else []).foldl (fun s x => endPark s x (popWrites x.dest status (lanesOf x.askers) []) false) s

/-- Waiters of a node served from its queue, oldest first (R338); a stalled node serves none (R341). -/
def serveWaiters (dom g : Nat) : Nat → State → State
  | 0, s => s
  | fuel + 1, s =>
    match s.domain? dom with
    | none => s
    | some d =>
      match oldestWaiter (domainWaiters s d g) with
      | none => s
      | some x =>
        let n := d.node g
        let ready := (n.tasks.filter fun t => d.admits t.bucket).take (popc x.askers)
        if ready.isEmpty || n.stalled then s
        else
          let s1 := s.setDomain (d.setNode g { n with tasks := n.tasks.filter fun t => !ready.contains t, served := true })
          serveWaiters dom g fuel (handTasks s1 dom x ready)

/-! ## The spillway (R341) -/

/-- A free entry of a node's chunks, or of a new chunk (R341): its address, and the domain that holds the chunk. -/
def spillSlot (d : Domain) (g : Nat) : Option (Nat × Domain) :=
  let used := (d.node g).spilled.map Prod.fst
  let base := d.spillBase.toNat
  let entries : Nat → List Nat := fun k => (List.range 256).map fun i => base + 4096 * k + 16 * i
  let mine := (d.chunks.filter fun c => c.2 == g).map Prod.fst
  match mine.findSome? fun k => (entries k).find? fun a => !used.contains a with
  | some a => some (a, d)
  | none =>
    match (List.range (d.spillSize / 4096)).find? fun k => !d.chunks.any fun c => c.1 == k with
    | some k => some (base + 4096 * k, { d with chunks := d.chunks ++ [(k, g)] })
    | none => none

/-- The number of entries a node can still spill (R336). -/
def spillRoom (d : Domain) (g : Nat) : Nat :=
  256 * (d.chunks.filter fun c => c.2 == g).length - (d.node g).spilled.length +
    256 * (d.spillSize / 4096 - d.chunks.length)

/-- A task entry's bytes (R329). -/
def taskBytes (t : Task) : List Byte := leBytes 8 t.payload.toNat ++ leBytes 2 t.bucket ++ List.replicate 6 0

/-- What an access of the spillway, or a step of a push, comes to. -/
inductive TakeOut where
  | taken (s : State)
  /-- it lies below F: the floor is lowered first (R332) -/
  | lower
  /-- no room now -/
  | blocked
  /-- a chunk is needed and none is free (R341) -/
  | full
  /-- the spillway's page is frozen, or its line pinned: it is tried again -/
  | again
  /-- a page fault of the node's own, in a domain's spillway -/
  | fault (s : State) (dom : Nat) (x : XFault)
  deriving DecidableEq, Repr

/-- A task spilled by a node. -/
def spillTask (s : State) (dom g : Nat) (t : Task) : TakeOut :=
  match s.domain? dom with
  | none => .blocked
  | some d =>
    match spillSlot d g with
    | none => .full
    | some (a, d1) =>
      match writeVirt s (plainActor (.node g) (domainAsid s d)) a (taskBytes t) with
      | (.error (.fault x), s1) => .fault s1 dom x
      | (.error _, _) => .again
      | (.ok _, s1) =>
        let n := d1.node g
        .taken (s1.setDomain (d1.setNode g { n with spilled := n.spilled ++ [(a, t.bucket, t.order)] }))

/-- The node's page fault queued to the host; its work for the domain stalls (R341). -/
def stallNode (s : State) (dom g : Nat) (x : XFault) : State :=
  postFault (s.modDomain dom fun d => d.setNode g { d.node g with stalled := true }) x 4 g (.node dom g)

/-- The priority of a domain's context (R342, R400). -/
def domainPriority (s : State) (d : Domain) : Nat := ctxPriority s d.fn d.ctx

/-- The highest-bucket task of a node's list. -/
def lastTask (ts : List Task) : Option Task := ts.getLast?

/-- The domain that gives up an entry of a full node for a task of `d` (R342): one of the lowest priority, the arriving
task's own first; none when only higher-priority tasks occupy it. -/
def displaced (s : State) (d : Domain) (g : Nat) : Option Domain :=
  let here := s.domains.filter fun x => !(x.node g).tasks.isEmpty
  let low := here.foldl (fun m x => Nat.min m (domainPriority s x)) (domainPriority s d)
  let cands := here.filter fun x => domainPriority s x == low
  if cands.any fun x => x.id == d.id then some d else cands.head?

/-- How a node comes to take a task: pushed there, given to it in a steal, or as a seed. -/
inductive TakeMode where
  | push | steal | seed
  deriving DecidableEq, Repr

/-- `take(task)` of R335 at a node. Only a pushed task is tested against F (R343), and a seed that finds no free entry goes
to the spillway itself (R329). -/
def takeTask (s : State) (dom g : Nat) (t : Task) (mode : TakeMode) : TakeOut :=
  match s.domain? dom with
  | none => .taken s
  | some d =>
    if mode == .push && decide (t.bucket < d.floor) then .lower
    else
      match if d.admits t.bucket then oldestWaiter (domainWaiters s d g) else none with
      | some x => .taken (handTasks (noteServed s dom g) dom x [t])
      | none =>
        let n := d.node g
        if d.floor + 1023 < t.bucket then spillTask s dom g t
        else if nodeEntries s g < 4096 then
          .taken (s.setDomain (d.setNode g { n with tasks := insertTask t n.tasks, served := true }))
        else if mode == .seed then spillTask s dom g t
        else
          match displaced s d g with
          | none => spillTask s dom g t
          | some y =>
            match lastTask (y.node g).tasks with
            | none => .blocked
            | some old =>
              if (y.node g).stalled then .blocked else
              match spillTask s y.id g old with
              | .taken s1 =>
                let s2 := s1.modDomain y.id fun z => z.setNode g { z.node g with tasks := (z.node g).tasks.erase old }
                .taken (s2.modDomain dom fun z => z.setNode g { z.node g with tasks := insertTask t (z.node g).tasks })
              | r => r

/-! ## Pushes (R332, R335, R336) -/

/-- The domain becomes active at its first push (R329, R330). -/
def activate (s : State) (dom bucket : Nat) : State :=
  match s.domain? dom with
  | some d => if d.state = .unseeded then
      (s.setDomain { d with state := .active, floor := bucket }).scheduleOnce tokenClocks (.terminationTokenWave dom)
    else s
  | none => s

/-- The tasks of a push taken in turn: the state, and what is left with the reason. -/
def takeTasks (dom g : Nat) (mode : TakeMode) : List (Word × Nat) → State → State × List (Word × Nat) × Option TakeOut
  | [], s => (s, [], none)
  | (p, b) :: rest, s =>
    let s0 := activate { s with counter := s.counter + 1 } dom b
    match takeTask s0 dom g { payload := p, bucket := b, order := s.counter } mode with
    | .taken s1 => takeTasks dom g mode rest s1
    | r => (s0, (p, b) :: rest, some r)

/-- A push of a higher-priority context waits for an entry of the node: pushes and refills of the others wait behind it
(R344). -/
def outrankedPush (s : State) (d : Domain) (g : Nat) : Bool :=
  s.domains.any fun y => decide (domainPriority s d < domainPriority s y) && y.rounds.any fun x => x.node == g && x.waits

/-- Two domains of one context. -/
def sameCtx (x y : Domain) : Bool := x.fn == y.fn && x.ctx == y.ctx

/-- A push of the same context reached the node before (R335, R344); what stalls for another domain's page fault holds only that
domain's work (R341). -/
def pushBefore (s : State) (d : Domain) (r : PushReq) : Bool :=
  s.domains.any fun y => sameCtx y d && (y.id == d.id || !(y.node r.node).stalled) &&
    y.rounds.any fun x => x.node == r.node && decide (x.id < r.id)

/-- A pop waits while a push that reached its node before it, of its context or of one of higher priority, is being taken (R344). A
push that waits for an entry lets pops go on, since they free entries. -/
def popBehind (s : State) (d : Domain) (g : Nat) : Bool :=
  s.domains.any fun y => (sameCtx y d || decide (domainPriority s d < domainPriority s y)) && !(y.node g).stalled && !outrankedPush s y g &&
    y.rounds.any fun x => x.node == g && !x.waits && !pushBefore s y x

/-- The next push that waits at a node is tried, of each domain. -/
def nextPush (s : State) (g : Nat) : State :=
  s.domains.foldl (fun s d => match d.rounds.find? fun x => x.node == g with
    | some x => s.scheduleOnce 0 (.floorLowerRound d.id x.id)
    | none => s) s

/-- The tasks of a push that would be spilled, above the window of the floor they find (R336). -/
def spillNeed : Nat → List Nat → Nat
  | _, [] => 0
  | f, b :: bs => let f' := Nat.min f b; b2n (decide (f' + 1023 < b)) + spillNeed f' bs

/-- The domain's state refuses a push, with its s60 (R336). -/
def domainGone (d : Domain) : Option Nat :=
  match d.state with | .terminated => some 1 | .down => some 2 | _ => none

/-- The cause and detail that refuse a push as its node comes to take it (R336): its domain is gone, or the spillway cannot hold
what it would spill. Its first task's bucket is the floor of a domain it makes active. -/
def pushRefused (d : Domain) (g : Nat) (tasks : List (Word × Nat)) : Option (Cause × Nat) :=
  let floor := if d.state = .unseeded then (tasks.head?.map Prod.snd).getD 0 else d.floor
  match domainGone d with
  | some k => some (.wlNoDomain, k)
  | none => if spillRoom d g < spillNeed floor (tasks.map Prod.snd) then some (.wlSpillFull, 0) else none

/-- A push refused while its path is held: its exception is taken there (R336). What tasks of it were taken before a lowering round
stay taken (DESIGN CHOICE, log entry 112: the spec has the check made once, and does not say what a floor lowered since does). -/
def refusePush (s : State) (dom : Nat) (r : PushReq) (pt : IssuePoint) (c : Cause) (detail : Nat) : State :=
  let s1 := s.modDomain dom fun d => { d with rounds := d.rounds.filter fun x => x.id != r.id }
  nextPush (match s1.anyWave? r.uid with
    | some w => commandTrap s1 w pt r.seqNo c (w64 detail)
    | none => s1) r.node

/-- A push accepted: its words of SS are formed (R358, at every level: R362), and it completes. -/
def acceptPush (s : State) (r : PushReq) : State :=
  match r.issuedAt, s.anyWave? r.uid with
  | some (_, ss), some w => (addSS s (waveActor s w) ss).schedule 60 (.instructionComplete r.uid r.seqNo)
  | _, _ => s

/-- A push goes on until its tasks are taken, or one must wait (R332, R335, R341). A node takes the pushes of one context in the
order they reach it, and one of a higher-priority context first (R344). -/
def advancePush (s : State) (dom req : Nat) : State :=
  match s.domain? dom with
  | none => s
  | some d =>
    match d.rounds.find? fun r => r.id == req with
    | none => s
    | some r =>
      let retry : Instr := .floorLowerRound dom req
      if (d.node r.node).stalled || pushBefore s d r then s
      else if outrankedPush s d r.node then s.schedule 60 retry
      else
        match r.issuedAt, pushRefused d r.node r.tasks with
        | some (pt, _), some (c, k) => refusePush s dom r pt c k
        | _, _ =>
          match takeTasks dom r.node (if r.seeds then .seed else .push) r.tasks s with
          | (s1, left, why) =>
            let keep : Bool → State → State := fun waits s => s.modDomain dom fun d =>
              { d with rounds := d.rounds.map fun x => if x.id == req then { x with tasks := left, waits := waits } else x }
            match why with
            | none =>
              let s2 := noteServed (s1.modDomain dom fun d => { d with rounds := d.rounds.filter fun x => x.id != req }) dom r.node
              askRaise (nextPush (acceptPush s2 r) r.node) dom
            | some .lower => (keep false s1).schedule roundClocks retry
            | some (.fault s2 y x) =>
              let s3 := stallNode (keep false s2) y r.node x
              if y = dom then s3 else s3.schedule 60 retry
            | some _ => (keep true s1).schedule 60 retry

/-- A push reaches a node. -/
def joinNode (s : State) (dom g uid seqNo : Nat) (tasks : List (Word × Nat)) (seeds : Bool) (pt : Option (IssuePoint × Nat)) :
    State :=
  let r : PushReq := { id := s.counter, node := g, uid := uid, seqNo := seqNo, tasks := tasks, seeds := seeds, waits := false,
                       issuedAt := pt }
  advancePush (({ s with counter := s.counter + 1 }).modDomain dom fun d => { d with rounds := d.rounds ++ [r] }) dom s.counter

/-- A push begun at a node that no path waits for: a release's, or a refilled task's. -/
def beginPush (s : State) (dom g : Nat) (tasks : List (Word × Nat)) : State := joinNode s dom g 0 0 tasks false none

/-- Seeds of the launch have still to be entered: none of its waves issues before (R329). -/
def seeding (s : State) (lid : Nat) : Bool :=
  match ((s.launch? lid).bind Launch.domain).bind s.domain? with
  | some d => d.rounds.any PushReq.seeds
  | none => false

/-- Every member has installed a push's lower floor and acknowledged it, and its tasks are taken (R332). -/
def execFloorLowerRound (dom req : Nat) (s : State) : Host.Outcome State Fault Refusal :=
  .next (
    match s.domain? dom with
    | none => s
    | some d =>
      match d.rounds.find? fun r => r.id == req with
      | some r => (match r.tasks with
        | (_, b) :: _ => if b < d.floor && !pushBefore s d r && !(d.node r.node).stalled then advancePush (s.setDomain { d with floor := b, lowered := true }) dom req
          else advancePush s dom req
        | [] => advancePush s dom req)
      | none => s)

/-- A Cascade instruction's domain, or WL_NO_DOMAIN (R327). -/
def withDomain (e : Env) (s : State) (f : Domain → Effect) : Effect :=
  match waveDomain s e.w with
  | none => .raise .wlNoDomain
  | some d => f d

/-- The words of SS of pushed tasks (R358). -/
def ssOfTasks (tasks : List (Word × Nat)) : Nat :=
  sumNat (tasks.map fun x => ssWord 0xFFFFFF00 (x.1.toNat % 2 ^ 32) + ssWord 0xFFFFFF04 (x.1.toNat / 2 ^ 32) +
    ssWord 0xFFFFFF08 x.2)

/-- A push of a redundant block, held until its release (R348), with its words of SS (R358). -/
def holdPush (e : Env) (s : State) (tasks : List (Word × Nat)) : Effect :=
  let a := waveActor s e.w
  let ss := ssOfTasks tasks
  let s1 := match s.waveBlock e.w with
    | some b => s.setBlock { b with heldItems := b.heldItems ++ tasks.map fun x => HeldItem.wpush x.1 x.2 }
    | none => s
  .done (pend (addSS s1 a ss) e (some 60) [] .wl false ss).2

/-- A code of kind u (R334). -/
def isUniform (c : OpCode) : Bool := !isVCode c && !isPCode c && c != 0xC8

/-- WPUSH (R335, R336): checked as it issues, and again as its node comes to take it. -/
def pushRun (e : Env) (s : State) (tasks : List (Word × Nat)) : Effect :=
  withDomain e s fun d =>
    let g := groveOf e.w.core
    match pushRefused d g tasks with
    | some (c, k) => .trap c none 0 (w64 k)
    | none =>
      if fenced e.w .wl then .waitFor 6
      else if runHeld s e.w.lid e.w.bid e.w.run then holdPush e s tasks
      else if tasks.isEmpty then e.finish s 60 []
      else
        let r := pend s e none [] .wl false (ssOfTasks tasks)
        let s1 := r.2.modWave e.w.uid fun w => w.modPath e.iss.place fun p => { p with park := .hold r.1 }
        .done (joinNode s1 d.id g e.w.uid r.1 tasks false (some (e.issuePoint, ssOfTasks tasks)))

/-- The tasks of some lanes: a payload from A and a bucket from B (R335). -/
def tasksOf (e : Env) (a b : OpCode) (ls : List Nat) : List (Word × Nat) := ls.map fun l => (e.i a l, (e.i b l).toNat % 65536)

def execWpush (a b : OpCode) (s : State) : Host.Outcome State Fault Refusal :=
  runInstr (.wpush a b) s fun e s =>
    let scalar := isUniform a && isUniform b
    let ls := if scalar then [0] else e.taking
    unsupported e s ls fun s keep => pushRun e s (tasksOf e a b (ls.filter keep))

/-- A task pushed by a redundant block taken at its release (R348): lost when the domain is gone. -/
def releasePush (s : State) (b : Block) (payload : Word) (bucket : Nat) : State :=
  match ((s.launch? b.lid).bind Launch.domain).bind s.domain? with
  | none => s
  | some d =>
    if (domainGone d).isSome then s
    else beginPush s d.id (groveOf ((b.shares.head?.map Share.core).getD 0)) [(payload, bucket)]

/-! ## Refills (R341) -/

/-- The spilled entry of a node of lowest bucket, oldest first. -/
def firstSpilled (n : NodeTasks) : Option (Nat × Nat × Nat) :=
  match n.spilled with
  | [] => none
  | x :: xs => some (xs.foldl (fun a b => if b.2.1 < a.2.1 || (b.2.1 == a.2.1 && b.2.2 < a.2.2) then b else a) x)

/-- Chunks with no entry in use freed. -/
def freeChunks (d : Domain) (g : Nat) : Domain :=
  let used := (d.node g).spilled.map fun x => (x.1 - d.spillBase.toNat) / 4096
  { d with chunks := d.chunks.filter fun c => c.2 != g || used.contains c.1 }

/-- One spilled entry read back as its bytes stand, and taken as if it were pushed at the node (R341): one that lies below F
begins a lowering round, and one that finds no room stays where it is. -/
def refillOne (s : State) (dom g : Nat) : TakeOut :=
  match s.domain? dom with
  | none => .blocked
  | some d =>
    match firstSpilled (d.node g) with
    | none => .blocked
    | some x =>
      match readVirt s (plainActor (.node g) (domainAsid s d)) x.1 16 with
      | (.error (.fault f), s1) => .fault s1 dom f
      | (.error _, _) => .again
      | (.ok bs, s1) =>
        let n := d.node g
        let d1 := freeChunks (d.setNode g { n with spilled := n.spilled.erase x }) g
        let s2 := { s1.setDomain d1 with counter := s1.counter + 1 }
        let p := w64 (field bs 0 8)
        let b := field bs 8 2
        match takeTask s2 dom g { payload := p, bucket := b, order := s1.counter } .push with
        | .lower => .taken (beginPush s2 dom g [(p, b)])
        | .fault _ y f => .fault s1 y f
        | r => r

/-- Spilled tasks that are admissible and lie below the lowest bucket the node had queued are brought back (R337). -/
def refillForPop (dom g : Nat) (lowest : Option Nat) : Nat → State → TakeOut
  | 0, s => .taken s
  | fuel + 1, s =>
    match s.domain? dom with
    | none => .taken s
    | some d =>
      match firstSpilled (d.node g) with
      | none => .taken s
      | some x =>
        if d.admits x.2.1 && lowest.all fun b => decide (x.2.1 < b) then
          match refillOne s dom g with
          | .taken s1 => refillForPop dom g lowest fuel s1
          | r => r
        else .taken s

/-- A node reads spilled tasks back while they lie in its window and it has free entries (R341), after the pushes that wait for
those (R344). -/
def refillWindow (dom g : Nat) : Nat → State → State
  | 0, s => s
  | fuel + 1, s =>
    match s.domain? dom with
    | none => s
    | some d =>
      let n := d.node g
      match firstSpilled n with
      | none => s
      | some x =>
        if !n.stalled && decide (x.2.1 ≤ d.floor + 1023) && decide (nodeEntries s g < 4096) then
          if outrankedPush s d g || s.domains.any (fun y => sameCtx y d && !(y.node g).stalled && y.rounds.any fun r => r.node == g && r.waits)
          then s.scheduleOnce 60 (.spillwayRefill dom g)
          else match refillOne s dom g with
          | .taken s1 => refillWindow dom g fuel s1
          | .fault s1 y f => stallNode s1 y g f
          | .again => s.scheduleOnce 60 (.spillwayRefill dom g)
          | _ => s
        else s

/-- Entries of a node have freed: its domains' spilled tasks are read back into them, those of higher-priority contexts first
(R341, R344). -/
def askNodeRefills (s : State) (g : Nat) : State :=
  (sortBy (fun x y => decide (domainPriority s y ≤ domainPriority s x)) s.domains).foldl (fun s d =>
    match firstSpilled (d.node g) with
    | some x =>
      if !(d.node g).stalled && decide (x.2.1 ≤ d.floor + 1023) then s.scheduleOnce 0 (.spillwayRefill d.id g) else s
    | none => s) s

/-- Tasks that lie above a node's window after a raise are spilled, the highest bucket first (R341). A node that is stopped goes on
when its page fault is answered or its page thaws; with no chunk free they stay in its entries. -/
def spillAbove (dom g : Nat) : List Task → State → State
  | [], s => s
  | t :: ts, s =>
    match spillTask s dom g t with
    | .taken s1 =>
      spillAbove dom g ts (s1.modDomain dom fun z => z.setNode g { z.node g with tasks := (z.node g).tasks.erase t })
    | .fault s1 y x => stallNode s1 y g x
    | .again => s.scheduleOnce 60 (.spillwayRefill dom g)
    | _ => s

/-- A node's tasks above its window spilled. -/
def spillNode (s : State) (dom g : Nat) : State :=
  match s.domain? dom with
  | none => s
  | some d =>
    let n := d.node g
    if n.stalled then s
    else spillAbove dom g ((n.tasks.filter fun t => decide (d.floor + 1023 < t.bucket)).reverse) s

/-- Every node's tasks above the window spilled. -/
def spillOver (s : State) (dom : Nat) : State :=
  match s.domain? dom with
  | none => s
  | some d => d.nodes.foldl (fun s e => spillNode s dom e.1) s

/-- A node works off what stands outside its window, and reads back what lies in it (R341). -/
def execSpillwayRefill (dom node : Nat) (s : State) : Host.Outcome State Fault Refusal :=
  .next (match s.domain? dom with
  | none => s
  | some _ =>
    let s1 := spillNode s dom node
    let k := ((s1.domain? dom).map fun d => (d.node node).spilled.length).getD 0
    askRaise (refillWindow dom node k s1) dom)

/-- A node's stall for a domain ends with the answer to its fault (R341, R384): its waiters are served, its pushes go on, and its
spills and refills are taken up again. -/
def resumeNode (s : State) (dom g : Nat) : State :=
  let s1 := serveWaiters dom g 1024 (s.modDomain dom fun d => d.setNode g { d.node g with stalled := false })
  (nextPush s1 g).schedule 0 (.spillwayRefill dom g)

/-- Domains have gone with their entries: the nodes' spilled tasks of the others are read back, those of higher-priority contexts
first (R341, R344). -/
def askAllRefills (s : State) : State :=
  (sortBy (fun x y => decide (domainPriority s y ≤ domainPriority s x)) s.domains).foldl (fun s d =>
    d.nodes.foldl (fun s e => match firstSpilled e.2 with
      | some x => if !e.2.stalled && decide (x.2.1 ≤ d.floor + 1023) then s.scheduleOnce 0 (.spillwayRefill d.id e.1) else s
      | none => s) s) s

/-! ## Pops (R337) -/

/-- The node holds waiters of a higher-priority context that it cannot serve (R343). -/
def outranked (s : State) (d : Domain) (g : Nat) : Bool :=
  s.domains.any fun x => decide (domainPriority s d < domainPriority s x) && !(domainWaiters s x g).isEmpty

/-- A node starts to steal for a domain, or is to start once nothing outranks it (R343). -/
def startSteal (s : State) (dom g : Nat) : State :=
  match s.domain? dom with
  | none => s
  | some d =>
    let n := d.node g
    if n.stealing || n.stealHeld || d.inFlight.any fun x => x.1 == g then s
    else
      let held := outranked s d g
      (s.setDomain (d.setNode g { n with stealing := !held, stealHeld := held, nextVictim := 0 })).scheduleOnce roundClocks
        (.stealRequest dom g)

/-- A node that holds no admissible task of a domain, and waiters of it, steals (R343). -/
def stealOn (s : State) (dom g : Nat) : State :=
  match s.domain? dom with
  | none => s
  | some d =>
    if (domainWaiters s d g).isEmpty || (d.node g).tasks.any fun t => d.admits t.bucket then s else startSteal s dom g

/-- A pop served at its node, after its refill (R337): an acquire when it returns a task (R347). -/
def popServe (e : Env) (s : State) (d : Domain) (dest : OpCode) (full askers : List Nat) (parks : Bool) : Effect :=
  let g := groveOf e.w.core
  let n := d.node g
  let fullWrites := full.flatMap fun l => popLane dest l none 3
  let done : State → List RegWrite → Bool → Effect := fun s ws acquires =>
    let r := pend s e (some 60) (fullWrites ++ ws) .wl false 0
    .done (if acquires then acquireUntil r.2 e.w.uid r.1 else r.2)
  match d.state with
  | .terminated => done s (popWrites dest 2 askers []) false
  | .down => done s (popWrites dest 4 askers []) false
  | _ =>
    let ready := (n.tasks.filter fun t => d.admits t.bucket).take askers.length
    let d1 := openLanes (d.setNode g { n with tasks := n.tasks.filter fun t => !ready.contains t, served := true }) e.w
      (askers.take ready.length)
    let s1 := askRaise (askNodeRefills (s.setDomain d1) g) d.id
    -- askers it could not serve: it holds no admissible task more
    let short := decide (ready.length < askers.length)
    if !ready.isEmpty || askers.isEmpty || !parks then
      done (if short then startSteal s1 d.id g else s1) (popWrites dest 1 askers ready) (!ready.isEmpty)
    else
      let s2 := startSteal { s1 with counter := s1.counter + 1 } d.id g
      let r := pend s2 e none (fullWrites ++ popWrites dest 1 askers []) .none false 0
      .done (r.2.modWave e.w.uid fun w => w.modPath e.iss.place
        (parkedAt e.iss.bundle e.iss.slot (.worklist dest (maskOf askers) r.1 s1.counter)))

/-- A pop whose refill meets a page fault: the node's work for the domain stalls until it is answered, and the path stands at
its pop again (R341). The fault is the node's own, and so no double fault of a trap handler's wave. -/
def popFault (e : Env) (s : State) (dom : Nat) (x : XFault) : Effect :=
  .done ((stallNode s dom (groveOf e.w.core) x).modWave e.w.uid fun w => w.modPath e.iss.place
    (parkedAt e.iss.bundle e.iss.slot .running))

/-- WPOP and WPOPW. -/
def popRun (e : Env) (s : State) (dest : OpCode) (ls : List Nat) (parks : Bool) : Effect :=
  withDomain e s fun d =>
    let g := groveOf e.w.core
    let full := ls.filter fun l => decide (15 ≤ mget 0 d.open_ (openKey e.w l))
    let askers := ls.filter fun l => !full.contains l
    if fenced e.w .wl || (d.node g).stalled || popBehind s d g then .waitFor 6
    else if (domainGone d).isSome then popServe e s d dest full askers parks
    else
      match refillForPop d.id g ((d.node g).tasks.head?.map Task.bucket) (d.node g).spilled.length s with
      | .fault s1 y x => popFault e s1 y x
      | .again => .waitFor 6
      | .taken s1 => (match s1.domain? d.id with
        | some d1 => popServe e s1 d1 dest full askers parks
        | none => .wait)
      | _ => popServe e s d dest full askers parks

def execWpop (d : OpCode) (s : State) : Host.Outcome State Fault Refusal :=
  runInstr (.wpop d) s fun e s =>
    unsupported e s e.taking fun s keep => popRun e s d (e.taking.filter keep) false

def execWpopw (d : OpCode) (s : State) : Host.Outcome State Fault Refusal :=
  runInstr (.wpopw d) s fun e s =>
    unsupported e s e.taking fun s keep => popRun e s d (e.taking.filter keep) true

/-! ## Closing, floor and status (R339, R340) -/

/-- Open counts of some lanes lowered by one where they are not 0. -/
def closeLanes (d : Domain) (w : Wave) (ls : List Nat) : Domain :=
  { d with open_ := ls.foldl (fun m l => mset 0 m (openKey w l) (mget 0 m (openKey w l) - 1)) d.open_ }

/-- Every open task of a wave closed (R339). -/
def closeAll (s : State) (w : Wave) : State :=
  match waveDomain s w with
  | none => s
  | some d => s.setDomain { d with open_ := (List.range 32).foldl (fun m l => merase m (openKey w l)) d.open_ }

/-- WDONE for some lanes (R339). -/
def closeRun (e : Env) (s : State) (ls : List Nat) : Effect :=
  withDomain e s fun d =>
    if fenced e.w .wl then .waitFor 6
    else
      let s1 := s.setDomain (closeLanes d e.w ls)
      .done (pend (noteServed s1 d.id (groveOf e.w.core)) e (some 60) [] .wl false 0).2

def execWdone (s : State) : Host.Outcome State Fault Refusal :=
  runInstr .wdone s fun e s => unsupported e s e.taking fun s keep => closeRun e s (e.taking.filter keep)

/-- The floor word (R340). -/
def floorWord (d : Domain) : Nat :=
  b2n (d.state = .down) * 2 ^ 18 + b2n (d.state = .terminated) * 2 ^ 17 + b2n d.noneQueued * 2 ^ 16 + d.floor

/-- The status word of a lane (R340). -/
def domainWord (s : State) (d : Domain) (w : Wave) (l : Nat) : Nat :=
  let g := groveOf w.core
  let n := d.node g
  let st := match d.state with | .active => 0 | .unseeded => 1 | .terminated => 2 | .down => 3
  let steals := b2n n.stealing
  mget 0 d.open_ (openKey w l) * 2 ^ 52 + st * 2 ^ 50 + d.delta * 2 ^ 40 + n.tasks.length * 2 ^ 27 +
    (domainWaiters s d g).length * 2 ^ 12 + steals

/-- A word of the domain written to some lanes. -/
def wordIssue (e : Env) (s : State) (d : OpCode) (ls : List Nat) (f : Domain → Nat → Nat) : Effect :=
  withDomain e s fun dom =>
    if fenced e.w .wl then .waitFor 6
    else .done (pend s e (some 60) (ls.flatMap fun l => destWrite d l (w64 (f dom l))) .wl false 0).2

/-- A word written to every lane that takes part, or once to an s destination (R334). -/
def wordRun (e : Env) (s : State) (d : OpCode) (f : Domain → Nat → Nat) : Effect :=
  unsupported e s (e.memLanes d) fun s keep => wordIssue e s d ((e.memLanes d).filter keep) f

def execWfloor (d : OpCode) (s : State) : Host.Outcome State Fault Refusal :=
  runInstr (.wfloor d) s fun e s => wordRun e s d fun dom _ => floorWord dom

def execWstat (d : OpCode) (s : State) : Host.Outcome State Fault Refusal :=
  runInstr (.wstat d) s fun e s => wordRun e s d fun dom l => domainWord s dom e.w l

/-! ## Raise rounds (R332) -/

/-- Nodes that hold spilled tasks within the window read them back. -/
def askRefills (s : State) (dom : Nat) : State :=
  match s.domain? dom with
  | none => s
  | some d => d.nodes.foldl (fun s e =>
      match firstSpilled e.2 with
      | some x => if x.2.1 ≤ d.floor + 1023 then s.scheduleOnce 0 (.spillwayRefill dom e.1) else s
      | none => s) s

/-- A raise round's result installed on every member (R332), unless a lowering was acknowledged since it began. Another
follows while tasks stand above F. -/
def execFloorRaiseRound (dom : Nat) (s : State) : Host.Outcome State Fault Refusal :=
  .next (
    match s.domain? dom with
    | none => s
    | some d =>
      if d.lowered then (s.setDomain { d with lowered := false }).schedule roundClocks (.floorRaiseRound dom)
      else
        match lowestBucket d with
        | none => s.setDomain { d with noneQueued := true }
        | some b =>
          let s1 := askRefills (spillOver (s.setDomain { d with floor := Nat.max d.floor b, noneQueued := false }) dom) dom
          askRaise ((List.range Config.groves).foldl (fun s g => serveWaiters dom g 1024 s) s1) dom)

/-! ## Stealing (R343) -/

/-- The victims a node asks, in order: the other nodes of its die, nearest first, then those of the other dies. The
mesh's distances are not given: nodes are taken by the difference of their numbers (log entry 30). -/
def victims (g : Nat) : List Nat :=
  let die := dieOfGrove g
  let mine := ((List.range 32).map (32 * die + ·)).filter fun v => v != g
  let dist : Nat → Nat := fun v => if v < g then g - v else v - g
  sortBy (fun a b => decide (dist a ≤ dist b)) mine ++ (List.range Config.groves).filter fun v => dieOfGrove v != die

/-- The tasks a victim gives: half of its admissible tasks, rounded up, at most 64, lowest bucket first (R343). -/
def stolen (d : Domain) (v : Nat) : List Task :=
  let ready := (d.node v).tasks.filter fun t => d.admits t.bucket
  ready.take (Nat.min 64 ((ready.length + 1) / 2))

/-- A thief's request reaches its victim, and is answered (R343): the next victim is asked, or the tasks it gave are on their way. A
thief whose waiters found nothing anywhere begins again later, and one that is outranked asks once it is not. -/
def execStealRequest (dom thief : Nat) (s : State) : Host.Outcome State Fault Refusal :=
  .next (
    match s.domain? dom with
    | none => s
    | some d =>
      let n := d.node thief
      let idle := s.setDomain (d.setNode thief { n with stealing := false, stealHeld := false, nextVictim := 0 })
      let ask : Nat → State := fun k =>
        let held := outranked s d thief
        (s.setDomain (d.setNode thief { n with stealing := !held, stealHeld := held, nextVictim := k })).schedule roundClocks
          (.stealRequest dom thief)
      let waits := !(domainWaiters s d thief).isEmpty
      if (domainGone d).isSome || (n.tasks.any fun t => d.admits t.bucket) || d.inFlight.any fun x => x.1 == thief then idle
      else if !n.stealing then (if n.stealHeld || waits then ask n.nextVictim else s)
      else
        match (victims thief)[n.nextVictim]? with
        | none => if waits then idle.schedule tokenClocks (.stealRequest dom thief) else idle
        | some v =>
          -- a stalled victim, or one with a push of a higher-priority context waiting, answers later (R341, R344)
          if (d.node v).stalled || outrankedPush s d v then s.schedule roundClocks (.stealRequest dom thief)
          else match stolen d v with
          | [] => ask (n.nextVictim + 1)
          | t :: ts =>
            let give := t :: ts
            let d1 := d.setNode thief { n with stealing := false, nextVictim := 0 }
            let m := d1.node v
            let d2 := d1.setNode v { m with tasks := m.tasks.filter fun x => !give.contains x, served := true }
            (askNodeRefills (s.setDomain { d2 with inFlight := d2.inFlight ++ [(thief, give)] }) v).schedule roundClocks
              (.stolenTaskArrival dom thief))

/-- Tasks taken without a floor check, one after another (R343); those that find no room stay. -/
def takeStolen (dom g : Nat) : List Task → State → State × List Task
  | [], s => (s, [])
  | t :: ts, s =>
    match takeTask s dom g t .steal with
    | .taken s1 => takeStolen dom g ts s1
    | .fault s1 y x => (stallNode s1 y g x, t :: ts)
    | _ => (s, t :: ts)

/-- Stolen tasks arrive at the thief (R343), which steals on for waiters that they did not serve. -/
def execStolenTaskArrival (dom thief : Nat) (s : State) : Host.Outcome State Fault Refusal :=
  .next (
    match s.domain? dom with
    | none => s
    | some d =>
      match d.inFlight.find? fun x => x.1 == thief with
      | none => s
      | some x =>
        if (d.node thief).stalled then s.schedule roundClocks (.stolenTaskArrival dom thief) else
        let d1 := { d with inFlight := d.inFlight.erase x }
        let s1 := s.setDomain (d1.setNode thief { d1.node thief with served := true })
        match takeStolen dom thief x.2 s1 with
        | (s2, []) => askRaise (stealOn s2 dom thief) dom
        | (s2, left) => (s2.modDomain dom fun d => { d with inFlight := d.inFlight ++ [(thief, left)] }).schedule roundClocks
            (.stolenTaskArrival dom thief))

/-! ## Termination (R345, R346) -/

/-- Every count of R345 is zero. -/
def domainIdle (s : State) (d : Domain) : Bool :=
  d.nodes.all (fun e => e.2.tasks.isEmpty && e.2.spilled.isEmpty) && d.open_.isEmpty && d.inFlight.isEmpty &&
    d.rounds.isEmpty && s.blocks.all fun b => b.lid != d.lid || b.heldItems.all fun i => match i with
      | .wpush _ _ => false
      | _ => true

/-- A token wave visits every member node; two clean waves in a row declare termination (R345). -/
def execTerminationTokenWave (dom : Nat) (s : State) : Host.Outcome State Fault Refusal :=
  .next (
    match s.domain? dom with
    | none => s
    | some d =>
      if d.state ≠ .active then s
      else
        let clean := domainIdle s d && d.nodes.all fun e => !e.2.served
        let nodes := (d.nodes.map fun e => (e.1, { e.2 with served := false })).filter fun e => e.2 != emptyNode
        let d1 : Domain := { d with nodes := nodes, cleanWaves := if clean then d.cleanWaves + 1 else 0 }
        if 2 ≤ d1.cleanWaves then endParks (s.setDomain { d1 with state := .terminated }) d1 2
        else (s.setDomain d1).schedule tokenClocks (.terminationTokenWave dom))

/-- A GROUP domain goes down (R346). -/
def execDomainDown (dom : Nat) (s : State) : Host.Outcome State Fault Refusal :=
  .next (
    match s.domain? dom with
    | none => s
    | some d =>
      if d.groupScope && (d.state = .active || d.state = .unseeded) then
        endParks (fabricDown (s.setDomain { d with state := .down }) d.lid) d 4
      else s)

end Sys2Proof.Machine
end

