-- ==== Sys2Proof/Machine/Check.lean ====
section
/-! DEFINITION. The check engine (R351 to R371): CKROLE and CKSIG, signatures, the release of held versions, the vote,
demerits and fences. -/

namespace Sys2Proof.Machine

/-! ## CKROLE and CKSIG (R360 to R362) -/

/-- RUN of CKROLE (R361). -/
def Run.code : Run → Nat
  | .plain => 0 | .original => 1 | .shadow => 2 | .tiebreak => 3

/-- The word of CKROLE (R361). -/
def roleWord (s : State) (w : Wave) : Word :=
  w64 (((s.launch? w.lid).map Launch.level).getD 0 + 16 * w.run.code + 256 * (s.core w.core).demerits)

/-- The registers whose bits a header's live-out mask sets (R359). -/
def liveOut (l : Launch) : List Nat := setBits 128 (field l.header 0x20 16)

/-- A wave's part of RS, with its registers as they stand (R358, R359). -/
def rsOf (s : State) (w : Wave) : Nat :=
  match s.launch? w.lid with
  | none => 0
  | some l => sumNat ((liveOut l).flatMap fun i => (List.range 32).map fun lane =>
      if i < w.budget then rot64 (w.vreg i lane).toNat ((i + lane) % 64) else 0)

def execCkrole (d : OpCode) (s : State) : Host.Outcome State Fault Refusal :=
  runInstr (.ckrole d) s fun e s => e.finish s 2 (e.all d (roleWord s e.w))

def execCksig (d : OpCode) (k : Byte) (s : State) : Host.Outcome State Fault Refusal :=
  runInstr (.cksig d k) s fun e s => e.finish s 8 (e.all d (if k = 0 then e.w.ownSS else w64 (rsOf s e.w)))

/-! ## Demerits and fences (R365) -/

/-- Core clocks of 24 hours. -/
def dayClocks : Nat := 86400 * 1000000 * Config.clocksPerUs

/-- A demerit given to a core: the count saturates at 15, and a count at the threshold fences the core. -/
def giveDemerit (s : State) (core : Nat) : State :=
  let c := s.core core
  if c.demerits = 15 then s
  else
    let n := c.demerits + 1
    (s.setCore core { c with demerits := n, demeritChange := s.clock, fenced := c.fenced || decide (s.mgmt.threshold ≤ n) }).schedule
      dayClocks (.demeritDecay core)

/-- Demerits given to every core a run used (R363). -/
def giveDemerits (s : State) (b : Block) : State := b.coresUsed.eraseDups.foldl giveDemerit s

def execDemeritDecay (core : Nat) (s : State) : Host.Outcome State Fault Refusal :=
  let c := s.core core
  if c.demerits = 0 || s.clock < c.demeritChange + dayClocks then .next s
  else
    let s1 := s.setCore core { c with demerits := c.demerits - 1, demeritChange := s.clock }
    .next (if c.demerits = 1 then s1 else s1.schedule dayClocks (.demeritDecay core))

/-- An explicit fence leaves the count (R365). -/
def execExplicitFence (core : Nat) (s : State) : Host.Outcome State Fault Refusal :=
  .next (if core < Config.cores then s.setCore core { s.core core with fenced := true } else s)

/-- An unfence sets the count to 0 (R365). Unplaced blocks may now find room. -/
def execExplicitUnfence (core : Nat) (s : State) : Host.Outcome State Fault Refusal :=
  .next (if core < Config.cores then
    let s1 := s.setCore core { s.core core with fenced := false, demerits := 0, demeritChange := s.clock }
    kickAll s1
  else s)

/-- The host sets the threshold, 1 to 15 (R365). A count is compared with it when it next changes. -/
def execDemeritThresholdSet (n : Nat) (s : State) : Host.Outcome State Fault Refusal :=
  .next (if 1 ≤ n && n ≤ 15 then { s with mgmt := { s.mgmt with threshold := n } } else s)

/-! ## Release (R128, R357) -/

/-- The committed actor of a released block. -/
def releaseActor (s : State) (b : Block) : Actor :=
  { waveActor s (blockAgent b ((b.shares.head?.map Share.core).getD 0)) with held := false, l1 := false }

/-- The sectors of a run reached for the release's writes: their physical addresses, or what stops it, a line pinned elsewhere
among it (R119). -/
def releaseXlate (s : State) (a : Actor) : List HeldSector → Except XStop (List (HeldSector × Nat)) × State
  | [] => (.ok [], s)
  | h :: rest =>
    match xlateParts s { a with asid := h.asid } .write [(64 * h.sector, 64)] with
    | (.error e, s1) => (.error e, s1)
    | (.ok ps, s1) =>
      match releaseXlate s1 a rest with
      | (.ok qs, s2) => (.ok ((h, (ps.head?.map fun p => p.2.1).getD 0) :: qs), s2)
      | (.error e, s2) => (.error e, s2)

/-- A sector's stored bytes performed at SYS (R128). -/
def releaseSector (a : Actor) (s : State) (x : HeldSector × Nat) : State :=
  performAtSys (x.1.stored.foldl (fun s e =>
    writeGlobal s { a with asid := x.1.asid } (64 * x.1.sector + e.1) (x.2 + e.1) [e.2]) s)
    [{ space := .global x.1.asid, addr := 256 * (x.1.sector / 4) }]

/-- A held item performed; `false` when an arrival is misuse (R357). -/
def releaseItem (s : State) (b : Block) : HeldItem → State × Bool
  | .arrive obj n =>
    match objOfLoc s (releaseActor s b) obj with
    | (none, s1) => (s1, true)
    | (some o, s1) =>
      match arriveAt s1 (releaseActor s1 b) none b o n 0 0 with
      | some s2 => (s2, true)
      | none => (s1, false)
  | .signal obj v =>
    match objOfLoc s (releaseActor s b) obj with
    | (none, s1) => (s1, true)
    | (some o, s1) =>
      match signalAt s1 (releaseActor s1 b) none b.fn b.ctx o v 0 0 with
      | some s2 => (s2, true)
      | none => (s1, false)
  | .wpush payload bucket => (releasePush s b payload bucket, true)
  | .halo _ _ table mask (some data) => (releaseHalo s b table mask data, true)
  | .halo _ _ _ _ none => (s, true)
  | .seal asid base len => (sealRange s asid base len, true)
  | .unseal asid base len => (unsealRange s asid base len, true)

/-- The held items performed in program order. -/
def releaseItems (s : State) (b : Block) : List HeldItem → State × Bool
  | [] => (s, true)
  | x :: xs =>
    match releaseItem s b x with
    | (s1, true) => releaseItems s1 b xs
    | (s1, false) => (s1, false)

/-- What a release came to. -/
inductive Release where
  | done (s : State)
  /-- its context errored -/
  | error (s : State)
  /-- it waits for a page: the vote is taken again -/
  | wait (s : State)
  deriving DecidableEq, Repr

/-- A run's held writes performed at SYS as one unit (R128); the run is no longer unchecked. A page fault is queued and the
release waits for its answer (log entry 44). -/
def releaseRun (s : State) (b : Block) : Release :=
  let mine : HeldSector → Bool := fun h => h.lid == b.lid && h.bid == b.bid && h.run == b.run
  let a := releaseActor s b
  let behind : HeldItem → Bool := fun i => match i with
    | .seal asid base len => atomicsTo s asid base len
    | _ => false
  if b.heldItems.any behind then .wait (s.schedule 1 (.checkVote b.lid b.bid)) else
  match haloWaits s b with
  | some s1 => .wait (s1.schedule 1 (.checkVote b.lid b.bid))
  | none =>
  match releaseXlate s a (s.heldSectors.filter mine) with
  | (.error (.fault x), s1) => .wait (postFault s1 x 7 (dieOf (b.coresUsed.headD 0)) (.release b.lid b.bid))
  | (.error (.blocked asid page), s1) => .wait ((blockPage s1 asid page).schedule Config.clocksPerUs (.checkVote b.lid b.bid))
  | (.error _, s1) => .wait (s1.schedule Config.clocksPerUs (.checkVote b.lid b.bid))
  | (.ok ps, s1) =>
    let s2 := ps.foldl (releaseSector a) { s1 with heldSectors := s1.heldSectors.filter fun h => !mine h }
    let b1 := { b with unchecked := false, heldItems := [], forced := false }
    let s3 := s2.setBlock b1
    let s4 := match s3.launch? b.lid with
      | some l => s3.setLaunch { l with checksum := l.checksum + (b.ss - b.txOpen) }
      | none => s3
    match releaseItems s4 b1 b.heldItems with
    | (s5, true) => .done s5
    | (s5, false) => .error (contextError s5 b.fn b.ctx .barrierMisuse)

/-! ## The vote (R363, R367) -/

/-- Everything the runs of a block hold is freed, with its log entries (R356). -/
def freeBlock (s : State) (lid bid : Nat) (gone : Run → Bool) : State :=
  let s1 := purgeRuns s fun l b r => l == lid && b == bid && gone r
  { s1 with blocks := s1.blocks.filter fun b => !(b.lid == lid && b.bid == bid && gone b.run) }

/-- A block that is done leaves: its launch counts it, and others may take its room (R397, R398). -/
def finishBlock (s : State) (lid bid : Nat) (ok : Bool) : State :=
  let s1 := freeBlock s lid bid fun _ => true
  let s2 := { s1 with atomicLog := s1.atomicLog.filter fun e => !(e.1 == lid && e.2.1 == bid) }
  match s2.launch? lid with
  | none => s2
  | some l =>
    (kickAll (s2.setLaunch { l with blocksDone := l.blocksDone + 1, blocksOk := l.blocksOk + b2n ok })).schedule 0
      (.launchCompletion lid)

/-- A check status found by a launch (R363, R398). -/
def findStatus (s : State) (lid status : Nat) : State :=
  match s.launch? lid with
  | some l => s.setLaunch { l with status := mergeStatus l.status status }
  | none => s

/-- Two runs match: equal sums, neither with a terminating fault nor departed from the atomic log (R363, R367). -/
def runsMatch (x y : Block) : Bool :=
  x.ss == y.ss && x.rs == y.rs && x.faulted.isNone && y.faulted.isNone && !x.departed && !y.departed

/-- A run commits and its block is done. What the vote decided about the other run's cores stands when a held arrival of the release
is misuse (R357, R363). -/
def commitRun (s : State) (b : Block) (after : State → State) : State :=
  match releaseRun s b with
  | .done s1 => finishBlock (after s1) b.lid b.bid true
  | .error s1 => after s1
  | .wait s1 => s1

/-- A held block released unverified (R355): its other runs are cancelled, and an original still running goes on as at
OFF. -/
def releaseUnchecked (s : State) (o : Block) : State :=
  match releaseRun s o with
  | .error s1 | .wait s1 => s1
  | .done s1 =>
    let s2 := freeBlock { s1 with mgmt := { s1.mgmt with releasedUnchecked := s1.mgmt.releasedUnchecked + 1 } } o.lid o.bid
      fun r => r != .original
    let s3 := { s2 with atomicLog := s2.atomicLog.filter fun e => !(e.1 == o.lid && e.2.1 == o.bid) }
    match o.phase with
    | .awaitingShadow | .awaitingTiebreak | .done => finishBlock s3 o.lid o.bid true
    | _ => s3

/-- The three runs judged (R363, R367). -/
def judge (s : State) (o sh tb : Block) : State :=
  if runsMatch tb o then commitRun s o fun s => giveDemerits s sh
  else if runsMatch tb sh then
    commitRun s sh fun s =>
      let s1 := giveDemerits s o
      if o.atomics then findStatus s1 o.lid 0x0104 else s1
  else
    match sh.faulted, tb.faulted with
    | some x, some y =>
      if x = y then contextError (giveDemerits s o) o.fn o.ctx x.1
      else finishBlock (findStatus (giveDemerits (giveDemerits (giveDemerits s o) sh) tb) o.lid Cause.checkUnresolved.code)
        o.lid o.bid false
    | _, _ =>
      finishBlock (findStatus (giveDemerits (giveDemerits (giveDemerits s o) sh) tb) o.lid Cause.checkUnresolved.code)
        o.lid o.bid false

def execCheckVote (lid bid : Nat) (s : State) : Host.Outcome State Fault Refusal :=
  .next (match s.block? lid bid .original with
    | none => s
    | some o =>
      if !o.unchecked then s
      else if o.forced then releaseUnchecked s o
      else
        match s.block? lid bid .shadow with
        | none => s
        | some sh =>
          if sh.phase != .done then s
          else
            match s.block? lid bid .tiebreak with
            | none =>
              if runsMatch o sh then commitRun s o id
              else (s.setBlock { o with phase := .awaitingTiebreak }).schedule 0 (.blockPlace lid)
            | some tb => if tb.phase = .done then judge s o sh tb else s)

/-! ## Refused held writes (R355, R356) -/

/-- The held write of a wave is still refused 1 ms after its first refusal: the context errors with CHECK_HOLD_FULL. -/
def execHoldFullTimeout (uid : Nat) (s : State) : Host.Outcome State Fault Refusal :=
  .next (match s.anyWave? uid with
    | none => s
    | some w =>
      if w.refused.any fun e => decide (e.2 + 1000 * Config.clocksPerUs ≤ s.clock) then contextError s w.fn w.ctx .checkHoldFull
      else s)

end Sys2Proof.Machine
end

