-- ==== Sys2Proof/Machine/Place.lean ====
section
/-! DEFINITION. Placement of blocks (R33, R211, R353, R395 to R397): what a core has room for, the cores of a grove a
block fits on, and the state in which a placed wave starts. -/

namespace Sys2Proof.Machine

/-! ## Kernel headers (R80, R81) -/

/-- A role record. -/
structure Role where
  entry : Word
  waves : Nat
  budget : Nat
  deriving DecidableEq, Repr

/-- Role `i` of a header. -/
def roleOf (h : List Byte) (i : Nat) : Role :=
  let o := 0x40 + 32 * i
  { entry := w64 (field h o 8), waves := field h (o + 8) 2, budget := field h (o + 10) 1 }

/-- The roles of a header. -/
def rolesOf (h : List Byte) : List Role := (List.range (field h 4 1)).map (roleOf h)

/-- Waves of a block, counted across its roles. -/
def headerWaves (h : List Byte) : Nat := sumNat ((rolesOf h).map Role.waves)

/-- A wave to place: its index in the block, its role and its budget. -/
structure WaveReq where
  waveId : Nat
  role : Nat
  budget : Nat
  deriving DecidableEq, Repr

/-- The waves of a block in the order of wave_id (R62). -/
def waveReqs (h : List Byte) : List WaveReq :=
  let flat := (List.range (field h 4 1)).flatMap fun r => List.replicate (roleOf h r).waves (r, (roleOf h r).budget)
  (List.range flat.length).map fun k => let x := flat.getD k (0, 8); { waveId := k, role := x.1, budget := x.2 }

/-- The waves of each of the block's `k` cores (R395). -/
def coreGroups (h : List Byte) (k : Nat) : List (List WaveReq) :=
  let per := ceilDiv (headerWaves h) k
  (List.range k).map fun c => (waveReqs h).filter fun w => w.waveId / per == c

/-- The share of a block on each of its `k` cores (R211). -/
def shareSizeOf (h : List Byte) (k : Nat) : Nat := ceilDiv (field h 8 4) (64 * k) * 64

/-! ## Room on a core -/

/-- A wave's place on a core. -/
structure Seat where
  req : WaveReq
  part : Nat
  slot : Nat
  deriving DecidableEq, Repr

/-- The seats of a core taken so far: partition, slot, budget. -/
abbrev Seats := List (Nat × Nat × Nat)

/-- A wave fits a partition: a free slot, and as many free rows as its budget (R395). -/
def partFits (xs : Seats) (budget p : Nat) : Bool :=
  let mine := xs.filter fun x => x.1 == p
  decide (mine.length < Config.waveSlots) && decide (sumNat (mine.map fun x => x.2.2) + budget ≤ Config.regRows)

/-- The partition with the fewest waves among some, the first on a tie. -/
def leastPart (xs : Seats) : List Nat → Option Nat
  | [] => none
  | p :: ps => match leastPart xs ps with
    | none => some p
    | some q => if (xs.filter fun x => x.1 == p).length ≤ (xs.filter fun x => x.1 == q).length then some p else some q

/-- The lowest free wave slot of a partition. -/
def freeWaveSlot (xs : Seats) (p : Nat) : Nat :=
  ((List.range Config.waveSlots).find? fun k => !xs.any fun x => x.1 == p && x.2.1 == k).getD 0

/-- Waves seated on a core one after another (R395). -/
def seatWaves (xs : Seats) : List WaveReq → Option (List Seat)
  | [] => some []
  | w :: ws =>
    match leastPart xs ((List.range Config.partitions).filter (partFits xs w.budget)) with
    | none => none
    | some p =>
      let k := freeWaveSlot xs p
      (seatWaves (xs ++ [(p, k, w.budget)]) ws).map fun rest => { req := w, part := p, slot := k } :: rest

/-- The lowest free physical offset for a share, a multiple of 256 (R211). -/
def freeOffset (taken : List (Nat × Nat)) (size : Nat) : Option Nat :=
  let starts := sortBy (fun a b => decide (a ≤ b)) (0 :: taken.map fun x => ceilDiv (x.1 + x.2) 256 * 256)
  starts.find? fun o => decide (o + size ≤ Config.scratchBytes) &&
    (size == 0 || taken.all fun x => decide (o + size ≤ x.1) || decide (x.1 + x.2 ≤ o) || x.2 == 0)

/-- What is resident on the cores, for a placement to find room beside. -/
structure Residents where
  waves : List Wave
  blocks : List Block
  /-- shares a function's reset has still to zero: core, offset, size (R402) -/
  unscrubbed : List (Nat × Nat × Nat)
  deriving DecidableEq, Repr

/-- An idle device. -/
def idle : Residents := { waves := [], blocks := [], unscrubbed := [] }
/-- What is resident now. -/
def State.residents (s : State) : Residents :=
  { waves := s.waves, blocks := s.blocks.filter (fun b => b.phase == .resident), unscrubbed := s.fns.flatMap fun e => e.2.scrub }

/-- A core's place in a placement. -/
structure CorePlan where
  core : Nat
  offset : Nat
  seats : List Seat
  deriving DecidableEq, Repr

/-- A group of waves with a share placed on a core, when both fit. -/
def fitCore (r : Residents) (size core : Nat) (ws : List WaveReq) : Option CorePlan :=
  let seats := (r.waves.filter fun w => w.core == core).map fun w => (w.part, w.wslot, w.budget)
  let taken := (r.blocks.flatMap fun b => (b.shares.filter fun x => x.core == core).map fun x => (x.offset, b.shareSize)) ++
    (r.unscrubbed.filter fun x => x.1 == core).map Prod.snd
  match seatWaves seats ws, freeOffset taken size with
  | some xs, some o => some { core := core, offset := o, seats := xs }
  | _, _ => none

/-- A distinct core for each group of waves, among some cores. -/
def fitCores (fit : Nat → List WaveReq → Option CorePlan) : List (List WaveReq) → List Nat → Option (List CorePlan)
  | [], _ => some []
  | g :: gs, cores => cores.findSome? fun c =>
      match fit c g with
      | none => none
      | some x => (fitCores fit gs (cores.erase c)).map fun rest => x :: rest

/-- The cores of a grove. -/
def coresOf (g : Nat) : List Nat := (List.range Config.coresPerGrove).map (Config.coresPerGrove * g + ·)

/-- The first of some groves on which every group fits, on cores the test allows (R395). -/
def fitGroves (r : Residents) (ok : Nat → Bool) (size : Nat) (groups : List (List WaveReq)) (groves : List Nat) :
    Option (List CorePlan) :=
  groves.findSome? fun g => fitCores (fitCore r size) groups ((coresOf g).filter ok)

/-- The groves in the order a queue's home die gives (R395). -/
def groveOrder (home : Nat) : List Nat :=
  let dies := home :: (List.range Config.dies).filter (· != home)
  dies.flatMap fun d => (List.range Config.grovesPerDie).map (Config.grovesPerDie * d + ·)

/-- The block fits on `k` idle cores. -/
def fitsIdle (h : List Byte) (k : Nat) : Bool :=
  (coreGroups h k).all fun g => (fitCore idle (shareSizeOf h k) 0 g).isSome

/-- The cores a block spans (R395): the packet's number, or the smallest on which it fits; none when there is none. -/
def coresSpanned (h packet : List Byte) : Option Nat :=
  let k := field packet 3 1
  if k ≠ 0 then (if fitsIdle h k then some k else none)
  else [1, 2, 3, 4, 5, 6, 7, 8].find? (fitsIdle h)

/-! ## Placing a run (R352, R353, R396) -/

/-- A wave's save slots taken in a context: those of its resident and saved waves (R389). -/
def slotsTaken (s : State) (fn ctx : Nat) : List Nat :=
  ((s.waves.filter fun w => w.fn == fn && w.ctx == ctx).map Wave.saveSlot) ++
    (s.blocks.flatMap fun b => if b.fn = fn && b.ctx = ctx then ((b.saved.map SavedBlock.waves).getD []).map Wave.saveSlot else [])

/-- The first `n` numbers that a list does not hold. -/
def freshNumbers (taken : List Nat) : Nat → Nat → List Nat
  | 0, _ => []
  | fuel + 1, k => if taken.contains k then freshNumbers taken fuel (k + 1) else k :: freshNumbers taken fuel (k + 1)

/-- Free save slots of a context, lowest first. -/
def freeSlots (s : State) (c : Context) : List Nat :=
  let total := c.saveSize.toNat / Config.saveSlotBytes
  freshNumbers (slotsTaken s c.fn c.id) (Nat.min total (Config.cores * 128)) 0

/-- The other runs of a chosen block (R353). -/
def otherRuns (s : State) (lid bid : Nat) : List Block := s.blocks.filter fun b => b.lid == lid && b.bid == bid

/-- The launch ended before its blocks did: by an error, a kill or a failed check (R394, R398). -/
def Launch.ended (l : Launch) : Bool := decide (statusRank l.status ≤ 2)

/-- Blocks of the grid. -/
def Launch.grid (l : Launch) : Nat := field l.packet 4 4

/-- A weight-stage launch admitted on a die keeps other launches' blocks off it until its own are done; of two, the one admitted
first runs first (R397). -/
def dieClosed (s : State) (l : Launch) (die : Nat) : Bool :=
  s.launches.any fun x => x.wstage && x.lid != l.lid && x.home == die && !x.ended && decide (x.blocksDone < x.grid) &&
    (!l.wstage || decide (x.lid < l.lid))

/-- A block of the launch may be placed on a core (R353, R365, R397). -/
def coreOpen (s : State) (l : Launch) (used : List Nat) (core : Nat) : Bool :=
  !(s.core core).fenced && !used.contains core && !dieClosed s l (dieOf core) && (!l.wstage || dieOf core == l.home)

/-- A weight-stage kernel waits until every block resident on its die has completed (R397). -/
def stageReady (s : State) (l : Launch) : Bool :=
  !l.wstage || s.blocks.all fun b => b.lid == l.lid || b.shares.all fun x => dieOf x.core != l.home || b.phase != .resident

/-- The groves a run tries, in their order: other groves than the block's earlier runs first (R353). -/
def runGroves (home : Nat) (used : List Nat) : List Nat :=
  let order := groveOrder home
  let seen := used.map groveOf
  order.filter (fun g => !seen.contains g) ++ order.filter (fun g => seen.contains g)

/-- Cores for `k` groups of waves of a launch's block beside some residents (R353, R395). -/
def findCores (s : State) (r : Residents) (l : Launch) (used : List Nat) (groups : List (List WaveReq)) (size : Nat) :
    Option (List CorePlan) :=
  if !stageReady s l then none
  else fitGroves r (coreOpen s l used) size groups (runGroves l.home used)

/-- Bytes of a share zero-filled, with its guard granules cleared (R211). -/
def clearShare (s : State) (core off size : Nat) : State :=
  let c := s.core core
  let c1 := { c with guards := c.guards.filter fun g => !(decide (off ≤ 64 * g) && decide (64 * g < off + size)) }
  { (s.setCore core c1) with scratch := clearRange s.scratch (scratchKey core off) size }

/-- A gated grove is ungated before placement (R26, R395). -/
def ungate (s : State) (g : Nat) : State :=
  let x := s.grove g
  if x.gated then s.setGrove g { x with gated := false, portClosed := false } else s

/-- The wave of a seat as it starts (R396). -/
def startWave (s : State) (l : Launch) (b : Block) (core : Nat) (x : Seat) (uid slot : Nat) : Wave :=
  let role := roleOf l.header x.req.role
  { emptyWave with
    uid := uid, lid := l.lid, bid := b.bid, run := b.run, fn := l.fn, ctx := l.ctx, core := core, part := x.part,
    wslot := x.slot, waveId := x.req.waveId, role := x.req.role, budget := x.req.budget, placedAt := s.clock,
    saveSlot := slot, s := (List.range l.args.length).foldl (fun m k => mset 0 m (4 + k) (l.args.getD k 0)) []
    places := [(0, newPath role.entry (BitVec.ofNat 32 0xFFFFFFFF))] }

/-- Every seat of a plan with its core. -/
def planSeats (plan : List CorePlan) : List (Nat × Seat) := plan.flatMap fun p => p.seats.map fun x => (p.core, x)

/-- The waves of a plan added in the order of wave_id, each with its packets (R411). -/
def addWaves (s : State) (mk : Nat → Seat → Nat → Nat → Wave) : List (Nat × Seat) → List Nat → State
  | (c, x) :: rest, k :: ks =>
    let w := mk c x (s.counter + 1) k
    addWaves (emitPlaced { s with counter := s.counter + 1, waves := s.waves ++ [w] } w) mk rest ks
  | _, _ => s

/-- The grove of a plan ungated and its shares zeroed. -/
def openPlan (s : State) (plan : List CorePlan) (size : Nat) : State :=
  plan.foldl (fun s p => clearShare (ungate s (groveOf p.core)) p.core p.offset size) s

/-- A block's owner identifier (R154): the one its other runs have, or one that no block of a live launch has. It is fixed
when the block is first placed, before which nothing can tell it. -/
def ownerOf (s : State) (lid bid : Nat) : Nat × State :=
  match s.launch? lid with
  | none => (0, s)
  | some l =>
    match mfind l.owners bid with
    | some x => (x, s)
    | none =>
      let used := s.launches.flatMap fun m => m.owners.map Prod.snd
      let cands := (List.range (used.length + 1)).map fun i => (Config.ownerDraw s.owners + i) % 2 ^ 32
      let x := (cands.find? fun x => !used.contains x).getD 0
      (x, { s with owners := s.owners + 1 }.setLaunch { l with owners := mput l.owners bid x })

/-- A run placed as a whole (R33): its block, its shares and its waves. -/
def placeRun (s : State) (l : Launch) (bid : Nat) (run : Run) (chosen : Bool) (plan : List CorePlan) (size : Nat)
    (slots : List Nat) : State :=
  let (owner, s0) := ownerOf s l.lid bid
  let s1 := openPlan s0 plan size
  let b : Block :=
    { lid := l.lid, bid := bid, run := run, fn := l.fn, ctx := l.ctx, owner := owner,
      unchecked := chosen, shares := plan.map fun p => { core := p.core, offset := p.offset }, shareSize := size,
      placedAt := s.clock, phase := .resident, waveCount := (planSeats plan).length, wavesLeft := (planSeats plan).length,
      ss := 0, rs := 0, faulted := none, departed := false, atomics := false, atomicIndex := [], txOpen := 0, quadSets := [],
      heldItems := [], saved := none, coresUsed := plan.map CorePlan.core, forced := false }
  addWaves { s1 with blocks := s1.blocks ++ [b] } (fun c x uid k => startWave s1 l b c x uid k) (planSeats plan) slots

end Sys2Proof.Machine
end

