-- ==== Sys2Proof/Machine/Launch.lean ====
section
/-! DEFINITION. The launch engine's queues and admission (R83, R328, R329, R387, R390 to R394): the checks of a packet, a
header and a domain descriptor, and the launches they admit. -/

namespace Sys2Proof.Machine

/-! ## Checks (R83, R328, R391) -/

/-- The lowest offset of a field found bad (R398). -/
def lowestBad (fields : List (Nat × Bool)) : Option Nat :=
  match (fields.filter Prod.snd).map Prod.fst with
  | [] => none
  | x :: xs => some (xs.foldl Nat.min x)

/-- The packet's type: KERNEL, WSTAGE or MARKER (R391). -/
def packetType (p : List Byte) : Nat := field p 0 1

/-- A virtual address field out of range or misaligned. An address at or beyond 2^52 names no global memory (log entry
46). -/
def badAddr (x align : Nat) : Bool := x % align != 0 || decide (2 ^ 52 ≤ x)

/-- The packet's bad fields (R391). A field that a MARKER must leave zero counts against the type too (R398). -/
def packetBad (p : List Byte) : Option Nat :=
  let ty := packetType p
  let n := field p 0x18 1
  let blocks := field p 4 4
  lowestBad
    [ (0, ty == 0 || decide (3 < ty) || (ty == 3 && (blocks != 0 || field p 8 8 != 0))),
      (1, bitOf (field p 1 1) 3 || bitOf (field p 1 1) 7),
      (2, decide (1 < field p 2 1)),
      (3, decide (8 < field p 3 1)),
      (4, if ty = 3 then blocks != 0 else blocks == 0 || decide (2 ^ 24 < blocks)),
      (8, if ty = 3 then field p 8 8 != 0 else badAddr (field p 8 8) 256),
      (0x10, badAddr (field p 0x10 8) 8 || (n == 0 && field p 0x10 8 != 0)),
      (0x18, decide (52 < n)),
      (0x19, !zeroField p 0x19 7),
      (0x20, badAddr (field p 0x20 8) 64),
      (0x28, badAddr (field p 0x28 8) 16),
      (0x30, badAddr (field p 0x30 8) 16),
      (0x38, !zeroField p 0x38 8) ]

/-- A role record of the header is malformed: a used one out of range, or an unused one that is not zero (R80, R81). -/
def badRole (h : List Byte) (i : Nat) : Bool :=
  let o := 0x40 + 32 * i
  let r := roleOf h i
  if i < field h 4 1 then
    r.entry.toNat % 16 != 0 || r.waves == 0 || decide (r.budget < 8) || decide (128 < r.budget) || r.budget % 8 != 0 ||
      !zeroField h (o + 11) 21
  else !zeroField h o 32

/-- The header's bad fields (R80, R81, R83), for a block that spans at most `k` cores; a weight-stage kernel's level is 0 (R397).
More than 1,024 waves together count against every role record. -/
def headerBad (h : List Byte) (k : Nat) (wstage : Bool) : Option Nat :=
  let roles := field h 4 1
  let points := field h 0x0C 4
  let table := field h 0x10 8
  lowestBad (
    [ (0, field h 0 4 != 1),
      (4, roles == 0 || decide (4 < roles)),
      (5, decide (4 < field h 5 1) || (wstage && field h 5 1 != 0)),
      (6, decide (1 < field h 6 2)),
      (8, field h 8 4 % 64 != 0 || decide (Config.scratchBytes * k < field h 8 4)),
      (0x0C, decide (255 < points) || (points == 0 && table != 0)),
      (0x10, badAddr table 64),
      (0x18, !zeroField h 0x18 8),
      (0x30, !zeroField h 0x30 16),
      (0xC0, !zeroField h 0xC0 64) ] ++
    ((List.range 4).map fun i => (0x40 + 32 * i, badRole h i)) ++
    [ (0x40, decide (1024 < headerWaves h)) ])

/-- The domain descriptor's bad fields (R328), its seed entries apart. -/
def domainBad (d : List Byte) : Option Nat :=
  let scope := field d 4 1
  let seeds := field d 0x28 4
  let size := field d 0x18 8
  lowestBad
    [ (0, field d 0 4 != 1),
      (4, (scope != 5 && scope != 6) || (scope == 5 && field d 8 4 != 0)),
      (5, !zeroField d 5 1),
      (6, decide (1023 < field d 6 2)),
      (8, scope == 5 && field d 8 4 != 0),
      (0x0C, !zeroField d 0x0C 4),
      (0x10, badAddr (field d 0x10 8) 4096),
      (0x18, size % 4096 != 0 || size == 0 || decide (2 ^ 40 < size)),
      (0x20, badAddr (field d 0x20 8) 16 || (seeds == 0 && field d 0x20 8 != 0)),
      (0x28, decide (4096 < seeds)),
      (0x2C, !zeroField d 0x2C 20) ]

/-- The seed tasks of an array (R329); none when an entry is malformed. -/
def parseSeeds (bs : List Byte) (n : Nat) : Option (List (Word × Nat)) :=
  if (List.range n).any fun i => !zeroField bs (16 * i + 10) 6 then none
  else some ((List.range n).map fun i => (w64 (field bs (16 * i) 8), field bs (16 * i + 8) 2))

/-! ## Launches -/

/-- A launch of a packet before its checks. -/
def newLaunch (s : State) (fn q : Nat) (c : Context) (home prio : Nat) (packet : List Byte) : Launch :=
  { lid := s.counter + 1, fn := fn, q := q, ctx := c.id, packet := packet, header := [], args := [], admittedAt := s.clock,
    nextBlock := 0, blocksDone := 0, blocksOk := 0, level := 0, sampleK := 0, domain := none,
    wstage := packetType packet == 2, home := home, marker := packetType packet == 3, status := 0, detail := 0, phase := 0,
    priority := prio, waitFault := none, checksum := 0, prev := 0, seeds := [], owners := [], recorded := false, replaySum := none }

/-- The launch still has blocks to place. -/
def Launch.unplaced (l : Launch) : Bool := !l.marker && decide (l.nextBlock < l.grid) && decide (2 < statusRank l.status)

/-- The launches of a queue, in the order of their admission. -/
def queueLaunches (s : State) (fn q : Nat) : List Launch := s.launches.filter fun l => l.fn == fn && l.q == q

/-- The queue of a launch. -/
def launchQueue (s : State) (l : Launch) : Queue := mget emptyQueue (s.func l.fn).queues l.q
/-- A queue changed. -/
def setQueueReg (s : State) (fn q : Nat) (x : Queue) : State :=
  let f := s.func fn
  s.setFunc fn { f with queues := mset emptyQueue f.queues q x }

/-- Fields of QCTL (R387). -/
def Queue.enabled (x : Queue) : Bool := bitOf x.ctl.toNat 63
def Queue.context (x : Queue) : Nat := bits x.ctl.toNat 16 4
def Queue.basePrio (x : Queue) : Nat := bits x.ctl.toNat 8 3
def Queue.home (x : Queue) : Nat := bits x.ctl.toNat 4 2
def Queue.sizeCode (x : Queue) : Nat := bits x.ctl.toNat 0 4
def Queue.slots (x : Queue) : Nat := 2 ^ (6 + x.sizeCode)

/-- A queue without launches waiting to be placed (R400). -/
def queueWaits (s : State) (fn q : Nat) : Bool := (queueLaunches s fn q).any Launch.unplaced

/-- Clocks of AGEINT (R387, R400). -/
def ageClocks (s : State) : Nat := s.ageInt * Config.clocksPerUs

/-- A queue's oldest launch begins to wait for placement (R400). -/
def startAgeing (s : State) (fn q : Nat) : State :=
  let x := mget emptyQueue (s.func fn).queues q
  (setQueueReg s fn q { x with agedAt := s.clock }).schedule (ageClocks s) (.priorityAgeing fn q)

/-- The priority of a queue given to its launches that have blocks to place (R400). -/
def spreadPriority (s : State) (fn q : Nat) : State :=
  let p := (mget emptyQueue (s.func fn).queues q).prio
  let upd : Launch → Launch := fun l => if l.fn = fn && l.q = q && l.unplaced then { l with priority := p } else l
  { s with launches := s.launches.map upd }

/-- Each AGEINT that passes while the queue waits raises its effective priority by one level, never above 6 (R400). -/
def execPriorityAgeing (fn q : Nat) (s : State) : Host.Outcome State Fault Refusal :=
  let x := mget emptyQueue (s.func fn).queues q
  .next (if !queueWaits s fn q then s
    else if s.clock < x.agedAt + ageClocks s then s.scheduleOnce (x.agedAt + ageClocks s - s.clock) (.priorityAgeing fn q)
    else
      let p := if x.basePrio = 7 || 6 ≤ x.prio then x.prio else x.prio + 1
      let s1 := spreadPriority (startAgeing (setQueueReg s fn q { x with prio := p }) fn q) fn q
      (queueLaunches s1 fn q).foldl (fun s l => if l.unplaced then s.schedule 0 (.blockPlace l.lid) else s) s1)

/-! ## Admission (R394) -/

/-- What reading the structures of a packet came to. -/
inductive Admit where
  /-- a structure's page faults: the queue waits -/
  | fault (x : XFault)
  /-- an access is to be tried again -/
  | again
  /-- the launch with its structures read, or ended by its first failure -/
  | launch (l : Launch) (dom : Option Domain)
  deriving DecidableEq, Repr

/-- Bytes the launch engine reads in a context's ASID (R439). -/
def engineRead (s : State) (c : Context) (home va n : Nat) : Except Admit (List Byte) × State :=
  match readVirt s (plainActor (.launch home) c.asid) va n with
  | (.ok bs, s1) => (.ok bs, s1)
  | (.error (.fault x), s1) => (.error (.fault x), s1)
  | (.error _, s1) => (.error .again, s1)

/-- A launch ended by a failed check (R394, R398). -/
def Launch.fail (l : Launch) (status detail : Nat) : Launch := { l with status := status, detail := detail }

/-- N of a sampled level (R351). -/
def sampleN : Nat → Nat
  | 1 => 64 | 2 => 16 | 3 => 4 | _ => 1

/-- Three disjoint placements of a block on the cores that are not fenced (R353). -/
def threePlacements (s : State) (l : Launch) (groups : List (List WaveReq)) (size : Nat) : Bool :=
  let find : List Nat → Option (List CorePlan) := fun used =>
    fitGroves idle (fun c => !(s.core c).fenced && !used.contains c) size groups (groveOrder l.home)
  match find [] with
  | none => false
  | some p1 =>
    match find (p1.map CorePlan.core) with
    | none => false
    | some p2 => (find (p1.map CorePlan.core ++ p2.map CorePlan.core)).isSome

/-- The grid's placement, and the check and worklist rules (R353, R394, R395). A block that fits on idle cores but not on those
that are not fenced is NO_PLACEMENT (R395), and CHECK_FENCED_CORE where the launch is redundant (R353). -/
def placementCheck (s : State) (c : Context) (l : Launch) : Launch :=
  match coresSpanned l.header l.packet with
  | none => l.fail 0x0103 0
  | some k =>
    let groups := coreGroups l.header k
    let size := shareSizeOf l.header k
    let open_ : Nat → Bool := fun x => (l.level != 0 || !(s.core x).fenced) && (!l.wstage || dieOf x == l.home)
    if c.saveSize.toNat / Config.saveSlotBytes < headerWaves l.header then l.fail 0x0103 0
    else if (fitGroves idle open_ size groups (groveOrder l.home)).isNone then l.fail 0x0103 0
    else if l.level ≠ 0 && !threePlacements s l groups size then l.fail Cause.checkFencedCore.code 0
    else if l.level ≠ 0 && bitOf (field l.header 6 2) 0 then l.fail Cause.wlRedundant.code 0
    else l

/-- A domain made of its descriptor and seeds (R328 to R330). -/
def newDomain (l : Launch) (id : Nat) (d : List Byte) (seeds : List (Word × Nat)) : Domain :=
  { id := id, lid := l.lid, fn := l.fn, ctx := l.ctx, groupScope := field d 4 1 == 6, number := field d 8 4,
    delta := field d 6 2, spillBase := w64 (field d 0x10 8), spillSize := field d 0x18 8,
    state := if seeds.isEmpty then .unseeded else .active
    floor := match seeds.map Prod.snd with | [] => 0 | b :: bs => bs.foldl Nat.min b
    nodes := [], chunks := [], open_ := [], inFlight := [], rounds := [], noneQueued := false, cleanWaves := 0,
    lowered := false }

/-- The domain descriptor and its seed array read and checked (R328, R394). -/
def admitDomain (s : State) (c : Context) (l : Launch) : Admit × State :=
  let addr := field l.packet 0x20 8
  if addr = 0 then (.launch (placementCheck s c l) none, s)
  else
    match engineRead s c l.home addr 64 with
    | (.error e, s1) => (e, s1)
    | (.ok d, s1) =>
      match domainBad d with
      | some off => (.launch (l.fail 0x0102 off) none, s1)
      | none =>
        let n := field d 0x28 4
        match engineRead s1 c l.home (field d 0x20 8) (16 * n) with
        | (.error e, s2) => (e, s2)
        | (.ok bs, s2) =>
          match parseSeeds bs n with
          | none => (.launch (l.fail 0x0102 0x20) none, s2)
          | some seeds =>
            (.launch (placementCheck s2 c { l with domain := some (l.lid + 1), seeds := seeds })
              (some (newDomain l (l.lid + 1) d seeds)), s2)

/-- The argument block and the header read and checked (R83, R394, R397). A replayed launch brings its argument words. -/
def admitKernel (s : State) (c : Context) (l : Launch) (args : Option (List Word)) : Admit × State :=
  let n := field l.packet 0x18 1
  match engineRead s c l.home (field l.packet 8 8) 256 with
  | (.error e, s1) => (e, s1)
  | (.ok h, s1) =>
    let l1 := { l with header := h }
    let k := field l.packet 3 1
    match headerBad h (if k = 0 then 8 else k) l.wstage with
    | some off => (.launch (l1.fail 0x0101 off) none, s1)
    | none =>
      match if args.isSome then (Except.ok [], s1) else engineRead s1 c l.home (field l.packet 0x10 8) (8 * n) with
      | (.error e, s2) => (e, s2)
      | (.ok bs, s2) =>
        let xs := args.getD ((List.range n).map fun i => w64 (field bs (8 * i) 8))
        admitDomain s2 c { l1 with args := xs.take n, level := field h 5 1 }

/-- A packet checked in the order of R394. -/
def admitPacket (s : State) (c : Context) (l : Launch) (args : Option (List Word)) : Admit × State :=
  match packetBad l.packet with
  | some off => (.launch (l.fail 0x0100 off) none, s)
  | none =>
    if l.marker then (.launch l none, s)
    else if l.wstage && !(s.func l.fn).wsok then (.launch (l.fail Cause.privileged.code 0) none, s)
    else admitKernel s c l args

/-- A launch entered among those running, its sampled k drawn (R351). -/
def enterLaunch (s : State) (l : Launch) (dom : Option Domain) : State :=
  let sampled := decide (1 ≤ l.level) && decide (l.level ≤ 3)
  let f := s.func l.fn
  let l1 := { l with
    sampleK := if sampled then Config.randomDraw s.draws % sampleN l.level else 0
    recorded := l.replaySum.isNone && f.capture.state == 2 && f.capture.ctx == l.ctx && !f.capture.stopping }
  let first := !queueWaits s l.fn l.q
  let s1 := { s with
    counter := s.counter + 2, draws := if sampled then s.draws + 1 else s.draws
    launches := s.launches ++ [l1]
    domains := if l1.ended then s.domains else s.domains ++ dom.toList }
  let s2 := if first && l1.unplaced then startAgeing s1 l.fn l.q else s1
  (if l1.unplaced then s2.schedule 0 (.blockPlace l1.lid) else s2).schedule 0 (.launchCompletion l1.lid)

/-- Nothing admits while the dies are in reset or DRAM is being wiped (R436, R437). -/
def admissionOpen (s : State) : Bool := s.mgmt.powered && s.mgmt.wiping.isNone && decide (5 ≤ s.mgmt.bringUp) && s.mgmt.imageOk

/-- A queue admits: its function, its context and its registers allow it (R390, R399, R402, R415). -/
def queueOpen (s : State) (fn q : Nat) : Option Context :=
  let f := s.func fn
  let x := mget emptyQueue f.queues q
  match s.ctx? fn x.context with
  | none => none
  | some c =>
    if admissionOpen s && f.enable && !f.flr && x.enabled && decide (x.sizeCode ≤ 10) && !x.stopped && x.read != x.widx &&
        x.waitFault.isNone && (c.state == .running || c.state == .preempted) && !(f.capture.state == 1 && f.capture.ctx == c.id) then some c
    else none

/-- The processor reads its next packet, and admits its launch or ends it (R390, R394). -/
def execPacketAdmit (fn q : Nat) (s : State) : Host.Outcome State Fault Refusal :=
  let x := mget emptyQueue (s.func fn).queues q
  .next (match queueOpen s fn q with
  | none => s
  | some c =>
    let wait : State → XFault → State := fun s f =>
      if f.cause.delivery = .pageFault then
        setQueueReg (postFault s f 7 x.home (.queue q)) fn q { x with waitFault := some 0 }
      else contextError s c.fn c.id f.cause
    match engineRead s c x.home (bits x.base.toNat 12 40 * 4096 + 64 * (x.read % x.slots)) 64 with
    | (.error (.fault f), s1) => wait s1 f
    | (.error _, s1) => s1.schedule Config.clocksPerUs (.packetAdmit fn q)
    | (.ok packet, s1) =>
      if packetType packet = 0 then setQueueReg s1 fn q { x with stopped := true }
      else
        match admitPacket s1 c (newLaunch s1 fn q c x.home x.prio packet) none with
        | (.fault f, s2) => wait s2 f
        | (.again, s2) => s2.schedule Config.clocksPerUs (.packetAdmit fn q)
        | (.launch l dom, s2) =>
          let s3 := setQueueReg s2 fn q { x with read := (x.read + 1) % 2 ^ 32, lastLid := l.lid }
          (enterLaunch s3 { l with prev := x.lastLid } dom).schedule 0 (.packetAdmit fn q))

/-! ## Queue registers (R387, R390) -/

/-- The processor is told that packets up to an index are written; a bad index is ignored (R390). -/
def notifyQueue (s : State) (fn q : Nat) : State :=
  let x := mget emptyQueue (s.func fn).queues q
  if x.slots < (x.lastW + 2 ^ 32 - x.read) % 2 ^ 32 then s
  else (setQueueReg s fn q { x with widx := x.lastW, stopped := false }).schedule 0 (.packetAdmit fn q)

def execQwidxWrite (fn q : Nat) (value : Word) (s : State) : Host.Outcome State Fault Refusal :=
  let x := mget emptyQueue (s.func fn).queues q
  .next (if 64 ≤ q then s else notifyQueue (setQueueReg s fn q { x with lastW := bits value.toNat 0 32 }) fn q)

/-- The bits of QCTL that hold values (R387). -/
def qctlBits (v : Nat) : Word :=
  w64 (bits v 63 1 * 2 ^ 63 + bits v 16 4 * 2 ^ 16 + bits v 8 3 * 2 ^ 8 + bits v 4 2 * 16 + bits v 0 4)

/-- A write of QCTL: while ENABLE is 1 only one that clears it acts (R387). Setting ENABLE notifies the processor as a
QWIDX write of the last value written would (R390). -/
def writeQctl (s : State) (fn q : Nat) (value : Word) : State :=
  let x := mget emptyQueue (s.func fn).queues q
  let v := qctlBits value.toNat
  if 64 ≤ q then s
  else if x.enabled then (if bitOf value.toNat 63 then s else setQueueReg s fn q { x with ctl := v })
  else
    let s1 := setQueueReg s fn q { x with ctl := v, prio := bits v.toNat 8 3 }
    if bitOf value.toNat 63 then notifyQueue s1 fn q else s1

def execQueueEnable (fn q : Nat) (value : Word) (s : State) : Host.Outcome State Fault Refusal :=
  .next (writeQctl s fn q value)

end Sys2Proof.Machine
end

