-- ==== Sys2Proof/Machine/Capture.lean ====
section
/-! DEFINITION. Capture and replay (R415 to R418): the snapshot, the launch records, and a replay's launches. -/

namespace Sys2Proof.Machine

def capBase : Nat := 0x300
def capSize : Nat := 0x308

/-- The capture area: its physical base and its bytes (R418). -/
def Function.capArea (f : Function) : Nat × Nat := (f.reg capBase, f.reg capSize)

/-- The capture state changed. -/
def setCapture (s : State) (fn : Nat) (c : Capture) : State := s.setFunc fn { s.func fn with capture := c }

/-- Where the parts and the launch records begin (R416). -/
def partsStart (parts : Nat) : Nat := ceilDiv (0x40 + 16 * parts) 65536 * 65536
def recordsStart (parts : Nat) : Nat := partsStart parts + 65536 * parts

/-- The valid leaves below a table of level `4 - n`, in ascending virtual order (R375, R415). -/
def tableLeaves (mem : List Host.Cell) : Nat → Nat → Nat → List TlbEntry
  | 0, _, _ => []
  | n + 1, base, va =>
    let level := 3 - n
    (List.range (2 ^ levelBits level)).flatMap fun i =>
      let entry := base + 8 * i
      let x := leNat (readBytes mem entry 8)
      let at' := va + i * 2 ^ levelShift level
      if !bitOf x 0 || entryMalformed level x then []
      else if bitOf x 1 then
        [{ tlb := 0, asid := 0, vbase := at', size := 2 ^ levelShift level, pbase := bits x 8 40 * 256, w := bitOf x 2,
           x := bitOf x 3, cow := bitOf x 4, nc := bitOf x 5, entry := entry, level := level }]
      else tableLeaves mem n (bits x 8 40 * 256) at'

/-- Every 64 KiB part of a leaf (R415). -/
def leafParts (e : TlbEntry) : List TlbEntry :=
  (List.range (e.size / 65536)).map fun i =>
    { e with vbase := e.vbase + 65536 * i, pbase := e.pbase + 65536 * i, size := 65536 }

/-- Physical bytes copied. -/
def copyPhys (s : State) (src dst n : Nat) : State := writePhys s dst (readPhys s src n)

/-- Physical memory as it is read, the dirty sectors of the L2 written into it. -/
def physMem (s : State) : List Host.Cell := s.l2.foldl (fun m l => flushSectors m l.pa l.sectors) s.dram

/-- A directory entry (R416). -/
def directoryEntry (e : TlbEntry) : List Byte :=
  leBytes 8 e.vbase ++ leBytes 8 (b2n e.w + 2 * b2n e.x + 4 * b2n e.cow + 8 * b2n e.nc)

/-- The header of the area (R416). -/
def captureHeader (parts records : Nat) : List Byte :=
  leBytes 4 1 ++ leBytes 4 parts ++ leBytes 4 records ++ List.replicate 52 0

/-- The queues of a context read their next packets. -/
def kickQueues (s : State) (fn ctx : Nat) : State :=
  (s.func fn).queues.foldl (fun s e => if e.2.context = ctx then s.schedule 0 (.packetAdmit fn e.1) else s) s

/-- The snapshot written, and recording begun; an area too small for it is full (R415). -/
def takeSnapshot (s : State) (fn : Nat) (c : Context) : State :=
  let f := s.func fn
  let area := f.capArea
  let parts := (tableLeaves (physMem s) 4 c.root 0).flatMap leafParts
  let p := parts.length
  if area.2 < recordsStart p then kickQueues (setCapture s fn { f.capture with state := 6, records := 0, parts := p }) fn c.id
  else
    let s1 := writePhys s area.1 (captureHeader p 0 ++ parts.flatMap directoryEntry)
    let s2 := (List.range p).foldl (fun s i => match parts[i]? with
      | some e => copyPhys s e.pbase (area.1 + partsStart p + 65536 * i) 65536
      | none => s) s1
    kickQueues (setCapture s2 fn { f.capture with state := 2, records := 0, parts := p }) fn c.id

/-- No launch of the context runs any more: the snapshot is written (R415). -/
def execCaptureSnapshot (fn : Nat) (s : State) : Host.Outcome State Fault Refusal :=
  let f := s.func fn
  .next (if f.capture.state ≠ 1 || s.launches.any fun l => l.inCtx fn f.capture.ctx then s
    else match s.ctx? fn f.capture.ctx with
      | some c => takeSnapshot s fn c
      | none => s)

/-- The function owns a context of that number (R412). -/
def ownsCtx (s : State) (fn ctx : Nat) : Bool := (s.ctx? fn ctx).isSome

/-- CAPCMD start (R415): admission stops until the snapshot is written. -/
def execCaptureStart (fn ctx : Nat) (s : State) : Host.Outcome State Fault Refusal :=
  let f := s.func fn
  let busy := f.capture.state == 1 || f.capture.state == 2 || f.capture.state == 3
  .next (if busy || !ownsCtx s fn ctx then s
    else (setCapture s fn { emptyCapture with state := 1, ctx := ctx }).schedule 0 (.captureSnapshot fn))

/-- CAPCMD stop: capture ends after the last recorded launch has completed (R415). -/
def execCaptureStop (fn : Nat) (s : State) : Host.Outcome State Fault Refusal :=
  let f := s.func fn
  .next (if f.capture.state = 1 then kickQueues (setCapture s fn { f.capture with state := 4 }) fn f.capture.ctx
    else if f.capture.state = 2 then
      if s.launches.any fun l => l.fn == fn && l.recorded then setCapture s fn { f.capture with stopping := true }
      else setCapture s fn { f.capture with state := 4 }
    else s)

/-- CAPCMD abort ends capture or replay at once; the records written stay (R418). -/
def execCaptureAbort (fn : Nat) (s : State) : Host.Outcome State Fault Refusal :=
  let f := s.func fn
  let busy := f.capture.state == 1 || f.capture.state == 2 || f.capture.state == 3
  .next (if busy then
    let upd : Launch → Launch := fun l => if l.fn = fn then { l with recorded := false, replaySum := none } else l
    kickQueues { setCapture s fn { f.capture with state := 0, stopping := false } with launches := s.launches.map upd } fn
      f.capture.ctx
  else s)

/-- The launch record of a completed launch (R416). -/
def launchRecord (l : Launch) : List Byte :=
  l.packet ++ (l.args.flatMap fun x => leBytes 8 x.toNat) ++ List.replicate (416 - 8 * l.args.length) 0 ++
    leBytes 8 l.checksum.toNat ++ leBytes 2 l.status ++ [0, 0] ++ leBytes 4 l.q ++ leBytes 8 (l.admittedAt / 2) ++
    List.replicate 8 0

/-- A recorded launch has completed: its record is appended, or the area is full (R415). The last one ends a stopping
capture. -/
def recordLaunch (s : State) (l : Launch) : State :=
  let f := s.func l.fn
  let c := f.capture
  if !l.recorded || c.state ≠ 2 then s
  else
    let area := f.capArea
    let off := recordsStart c.parts + 512 * c.records
    if area.2 < off + 512 then setCapture s l.fn { c with state := 6 }
    else
      let s1 := writePhys (writePhys s (area.1 + off) (launchRecord l)) (area.1 + 8) (leBytes 4 (c.records + 1))
      let others := s.launches.any fun x => x.lid != l.lid && x.fn == l.fn && x.recorded
      setCapture s1 l.fn
        { c with records := c.records + 1, state := if c.stopping && !others then 4 else 2 }

/-- The next recorded launch admitted, as if ORDER were set (R418). `none`: every record has been replayed. -/
def replayNext (s : State) (fn : Nat) : State :=
  let f := s.func fn
  let c := f.capture
  let base := f.capArea.1
  let total := leNat (readPhys s (base + 8) 4)
  match if c.state = 3 then s.ctx? fn c.ctx else none with
  | none => s
  | some x =>
    if total ≤ c.records then setCapture s fn { c with state := 4 }
    else
      let parts := leNat (readPhys s (base + 4) 4)
      let bs := readPhys s (base + recordsStart parts + 512 * c.records) 512
      let q := field bs 0x1EC 4
      let y := mget emptyQueue f.queues q
      let args := (List.range 52).map fun i => w64 (field bs (0x40 + 8 * i) 8)
      let l0 := { newLaunch s fn q x y.home y.prio (slice bs 0 64) with
        replaySum := some (w64 (field bs 0x1E0 8)), prev := y.lastLid }
      match admitPacket s x l0 (some args) with
      | (.fault g, s1) =>
        if g.cause.delivery = .pageFault then setCapture (postFault s1 g 7 y.home .replay) fn { c with pending := true } else contextError s1 fn x.id g.cause
      | (.again, s1) => s1
      | (.launch l dom, s1) =>
        enterLaunch (setQueueReg s1 fn q { mget emptyQueue (s1.func fn).queues q with lastLid := l.lid }) l dom

/-- CAPCMD replay (R418). -/
def execReplayStart (fn ctx : Nat) (s : State) : Host.Outcome State Fault Refusal :=
  let f := s.func fn
  let busy := f.capture.state == 1 || f.capture.state == 2 || f.capture.state == 3
  .next (if busy || !ownsCtx s fn ctx then s
    else replayNext (setCapture s fn { emptyCapture with state := 3, ctx := ctx }) fn)

/-- A replayed launch has completed: a mismatch ends the replay, and otherwise the next record is admitted (R418). -/
def afterReplay (s : State) (l : Launch) : State :=
  let c := (s.func l.fn).capture
  match l.replaySum with
  | none => s
  | some x =>
    if c.state ≠ 3 then s
    else if x ≠ l.checksum then setCapture s l.fn { c with state := 5 }
    else replayNext (setCapture s l.fn { c with records := c.records + 1 }) l.fn

end Sys2Proof.Machine
end

