-- ==== Sys2Proof/Machine/Launcher.lean ====
section
/-! DEFINITION. The launch engine's placement, restore and completion of blocks and launches, pre-emption requests, context
commands and function-level reset (R41, R43, R387, R393, R395, R398 to R402). -/

namespace Sys2Proof.Machine

/-! ## What a launch would place next (R353, R393, R396) -/

/-- The next block of a launch: a saved one, a check run of a chosen one, or the next of its grid. -/
inductive Candidate where
  | restore (b : Block)
  | check (b : Block) (run : Run)
  | fresh (bid : Nat)
  deriving DecidableEq, Repr

/-- The context places blocks: it runs, and no pre-emption request against it is pending (R401). -/
def ctxPlaces (c : Context) : Bool := (c.state == .running || c.state == .preempted) && c.preempt.isNone

/-- The queue's order lets a launch's first block be placed (R393). A replayed launch's ORDER counts as set (R418). -/
def orderAllows (s : State) (l : Launch) : Bool :=
  match s.launch? l.prev with
  | none => true
  | some p => if bitOf (field l.packet 2 1) 0 || l.replaySum.isSome then false else !p.unplaced

/-- A check run a block waits for (R353). -/
def pendingRun (s : State) (b : Block) : Option Run :=
  if b.run ≠ .original then none
  else if b.phase = .awaitingShadow && (s.block? b.lid b.bid .shadow).isNone then some .shadow
  else if b.phase = .awaitingTiebreak && (s.block? b.lid b.bid .tiebreak).isNone then some .tiebreak
  else none

/-- A saved block that waits to be placed, no restore of it being under way (R401, R439). -/
def Block.restorable (b : Block) : Bool := b.phase == .saved && b.saved.any fun x => !x.restoring

/-- What a launch may place, in the order it is tried: check runs, saved blocks, and the next of its grid. While a check run of its
context waits for a place, no block of a grid of the context takes one (R353). -/
def candidates (s : State) (l : Launch) : List Candidate :=
  if l.ended || l.marker || !((s.ctx? l.fn l.ctx).any ctxPlaces) then []
  else
    let mine := s.blocks.filter fun b => b.lid == l.lid
    let held := s.blocks.any fun b => b.fn == l.fn && b.ctx == l.ctx && (pendingRun s b).isSome
    (mine.filterMap fun b => (pendingRun s b).map fun r => Candidate.check b r) ++
      ((mine.filter Block.restorable).map Candidate.restore) ++
      (if l.unplaced && !held && (l.nextBlock != 0 || orderAllows s l) then [.fresh l.nextBlock] else [])

/-- Cores used by the other runs of a block (R353). -/
def usedCores (s : State) (lid bid : Nat) (run : Run) : List Nat :=
  ((otherRuns s lid bid).filter fun b => b.run != run).flatMap Block.coresUsed

/-- The number of cores a launch's blocks span. -/
def spanOfLaunch (l : Launch) : Nat := (coresSpanned l.header l.packet).getD 1

/-- The waves of a saved block on each of its cores, in the order of wave_id (R41). -/
def savedGroups (b : Block) : List (List WaveReq) :=
  match b.saved with
  | none => []
  | some x => b.shares.map fun h => ((x.waves.filter fun w => w.core == h.core).map fun w =>
      ({ waveId := w.waveId, role := w.role, budget := w.budget } : WaveReq))

/-- A place for a candidate beside some residents. -/
def planFor (s : State) (r : Residents) (l : Launch) : Candidate → Option (List CorePlan)
  | .restore b => findCores s r l (usedCores s b.lid b.bid b.run) (savedGroups b) b.shareSize
  | .check b run =>
    let k := spanOfLaunch l
    findCores s r l (usedCores s b.lid b.bid run) (coreGroups l.header k) (shareSizeOf l.header k)
  | .fresh _ =>
    let k := spanOfLaunch l
    findCores s r l [] (coreGroups l.header k) (shareSizeOf l.header k)

/-- The save slots a candidate's waves take (R389); none when there are too few. -/
def slotsFor (s : State) (l : Launch) : Candidate → Option (List Nat)
  | .restore _ => some []
  | _ => match s.ctx? l.fn l.ctx with
    | none => none
    | some c => let xs := freeSlots s c; if headerWaves l.header ≤ xs.length then some xs else none

/-- The launch's next block (R353, R396): the first that has a place now, or else the first. -/
def candidate (s : State) (l : Launch) : Option Candidate :=
  let xs := candidates s l
  (xs.find? fun x => (slotsFor s l x).isSome && (planFor s s.residents l x).isSome).or xs.head?

/-- A launch's candidate that fits now. -/
def fitting (s : State) (l : Launch) : Option (Candidate × List CorePlan × List Nat) :=
  match candidate s l with
  | none => none
  | some x =>
    match slotsFor s l x, planFor s s.residents l x with
    | some ks, some p => some (x, p, ks)
    | _, _ => none

/-- A candidate is a block of the grid. -/
def Candidate.isFresh : Candidate → Bool | .fresh _ => true | _ => false
/-- A candidate is a check run. -/
def Candidate.isCheck : Candidate → Bool | .check .. => true | _ => false

/-- A launch goes before another: by priority, then by admission (R400). -/
def goesBefore (m l : Launch) : Bool :=
  decide (l.priority < m.priority) || (m.priority == l.priority && decide (m.lid < l.lid))

/-- A launch that is to place a block before this one (R400). -/
def betterLaunch (s : State) (l : Launch) : Option Launch :=
  s.launches.find? fun m => goesBefore m l && (fitting s m).isSome

/-! ## Pre-emption requests (R43, R401) -/

/-- A request against a context: it merges with one pending, by the higher level and the earlier clock (R401). -/
def requestPreempt (s : State) (c : Context) (level : Nat) : State :=
  let p := match c.preempt with
    | some (l, t) => (Nat.max l level, t)
    | none => (level, s.clock)
  let due := p.2 + c.boundUs * Config.clocksPerUs
  (s.setCtx { c with preempt := some p }).schedule (due - s.clock) (.preemptBoundExpiry c.fn c.id)

/-- The residents less those of some contexts. -/
def withoutCtxs (s : State) (gone : Nat → Nat → Bool) : Residents :=
  { waves := s.residents.waves.filter fun w => !gone w.fn w.ctx, blocks := s.residents.blocks.filter fun b => !gone b.fn b.ctx
    unscrubbed := s.residents.unscrubbed }

/-- The contexts of lower priority that hold blocks, the lowest first and the youngest first on a tie (R401). -/
def preemptees (s : State) (l : Launch) : List Context :=
  let hold := s.ctxs.filter fun c => s.residents.blocks.any fun b => b.fn == c.fn && b.ctx == c.id
  let lower := hold.filter fun c => decide (ctxPriority s c.fn c.id < l.priority)
  sortBy (fun a b => decide (ctxPriority s a.fn a.id ≤ ctxPriority s b.fn b.id)) lower.reverse

/-- A launch that cannot place a block makes requests at its priority, until a placement of the block would fit (R401). A context
that has a request pending already gives its room, and takes the launch's by a merge where its level is the higher. -/
def preemptFor (s : State) (l : Launch) (x : Candidate) : State :=
  let vs := preemptees s l
  let pending := vs.filter fun c => c.preempt.isSome
  let fresh := vs.filter fun c => c.preempt.isNone
  let fits : List Context → Bool := fun cs =>
    (planFor s (withoutCtxs s fun fn ctx => cs.any fun c => c.fn == fn && c.id == ctx) l x).isSome
  let lower := pending.filter fun c => c.preempt.any fun p => decide (p.1 < l.priority)
  match (List.range (fresh.length + 1)).find? fun n => fits (pending ++ fresh.take n) with
  | some n => (lower ++ fresh.take n).foldl (fun s c => requestPreempt s c l.priority) s
  | none => s

/-- The host's request (R401). -/
def execCtxPreempt (fn ctx level : Nat) (s : State) : Host.Outcome State Fault Refusal :=
  .next (match s.ctx? fn ctx with
    | some c => if c.state == .running || c.state == .preempted then requestPreempt s c (level % 8) else s
    | none => s)

/-- A request passes the context's bound (R43): below level 7 the context's PREEMPTEV bit is set, and at level 7 the
context's waves are killed. -/
def execPreemptBoundExpiry (fn ctx : Nat) (s : State) : Host.Outcome State Fault Refusal :=
  .next (match s.ctx? fn ctx with
    | none => s
    | some c =>
      match c.preempt with
      | none => s
      | some (level, t) =>
        if s.clock < t + c.boundUs * Config.clocksPerUs then s
        else if level < 7 then
          let f := s.func fn
          s.setFunc fn { f with preemptEv := if bitOf f.preemptEv ctx then f.preemptEv else f.preemptEv + 2 ^ ctx }
        else killContext (s.setCtx { c with preempt := none }) fn ctx Cause.preemptTimeout.code)

/-- Writing 1 clears a context's PREEMPTEV bit (R387). -/
def execPreemptevClear (fn : Nat) (value : Word) (s : State) : Host.Outcome State Fault Refusal :=
  let f := s.func fn
  .next (s.setFunc fn { f with preemptEv := (w64 f.preemptEv &&& ~~~value).toNat % 2 ^ 16 })

/-! ## Placement (R395, R396, R400) -/

/-- A block of the grid is chosen for checking (R351). -/
def chosenBlock (l : Launch) (bid : Nat) : Bool :=
  match l.level with
  | 0 => false
  | 4 => true
  | n => bid % sampleN n == l.sampleK

/-- The seeds brought to the node of the first block's grove, which enters them before any wave of the launch issues
(R329). -/
def enterSeeds (s : State) (l : Launch) (plan : List CorePlan) : State :=
  match l.domain, l.seeds with
  | some d, _ :: _ =>
    let g := groveOf ((plan.head?.map CorePlan.core).getD 0)
    let s1 := joinNode s d g 0 0 l.seeds true none
    let s2 := match s1.launch? l.lid with
      | some l1 => s1.setLaunch { l1 with seeds := [] }
      | none => s1
    s2.scheduleOnce tokenClocks (.terminationTokenWave d)
  | _, _ => s

/-- A launch has placed a block of its grid: the last one ends its queue's ageing (R400). -/
def notePlaced (s : State) (l : Launch) : State :=
  let l0 := (s.launch? l.lid).getD l
  let l1 := { l0 with nextBlock := l0.nextBlock + 1 }
  let s1 := s.setLaunch l1
  if l1.unplaced then s1
  else
    let x := launchQueue s1 l
    let s2 := spreadPriority (setQueueReg s1 l.fn l.q { x with prio := x.basePrio }) l.fn l.q
    if queueWaits s2 l.fn l.q then startAgeing s2 l.fn l.q else s2

/-- A context that places a block is running (R387). -/
def ctxRuns (s : State) (fn ctx : Nat) : State :=
  match s.ctx? fn ctx with
  | some c => if c.state = .preempted then s.setCtx { c with state := .running } else s
  | none => s

/-- A saved block's restore begun, or put off. -/
def restoreUnderWay (s : State) (b : Block) (on : Bool) : State :=
  s.setBlock { b with saved := b.saved.map fun (x : SavedBlock) => { x with restoring := on } }

/-- A candidate placed. -/
def placeCandidate (s : State) (l : Launch) (x : Candidate) (plan : List CorePlan) (slots : List Nat) : State :=
  match x with
  | .restore b => (restoreUnderWay s b true).schedule 0 (.blockRestore b.lid b.bid b.run.code)
  | .check b run =>
    let s1 := if run = .tiebreak then { s with mgmt := { s.mgmt with tiebreaks := s.mgmt.tiebreaks + 1 } } else s
    ctxRuns (placeRun s1 l b.bid run true plan (shareSizeOf l.header (spanOfLaunch l)) slots) l.fn l.ctx
  | .fresh bid =>
    let chosen := chosenBlock l bid
    let s1 := placeRun s l bid (if chosen then .original else .plain) chosen plan
      (shareSizeOf l.header (spanOfLaunch l)) slots
    ctxRuns (notePlaced (enterSeeds s1 l plan) l) l.fn l.ctx

/-- A launch places its next block, when no launch that goes before it has one that fits (R400); otherwise it may ask for
room (R401). -/
def execBlockPlace (lid : Nat) (s : State) : Host.Outcome State Fault Refusal :=
  .next (match s.launch? lid with
  | none => s
  | some l =>
    match candidate s l with
    | none => s
    | some x =>
      match betterLaunch s l with
      | some m => (s.schedule 0 (.blockPlace m.lid)).schedule 0 (.blockPlace lid)
      | none =>
        match fitting s l with
        | some (x, plan, slots) =>
          let s1 := placeCandidate s l x plan slots
          if x.isFresh || x.isCheck then kickAll s1 else s1
        | none => preemptFor s l x)

/-! ## Restore (R41, R309, R324) -/

/-- A path rebuilt from its record (R40); none when it is not valid. One whose restore is pending starts its restore
routine when it stands in a place. -/
def readPath (bs : List Byte) (o born : Nat) : Option Path :=
  let place := field bs o 8
  let flags := field bs (o + 14) 2
  if !bitOf flags 0 then none
  else
    let p := newPath (w64 (place / 16 * 16)) (BitVec.ofNat 32 (field bs (o + 8) 4))
    let slot := place % 4
    some { p with
      slot := if slot = 0 then 1 else slot, fresh := slot == 0, safePoint := some (field bs (o + 12) 2)
      atRjoin := bitOf flags 1, waitResume := bitOf flags 2, restorePending := bitOf flags 3, resume := w64 place, born := born }

/-- The header has a bad version or a nonzero reserved field, those of the mode register and of REPSTATE among them (R41,
R65, R147). -/
def headerSaveBad (h : List Byte) : Bool :=
  field h 0 4 != 1 || field h 4 1 != 0 || field h 7 1 != 0 || !zeroField h 0x34 4 || !zeroField h 0xF0 16 ||
    bits (field h 8 8) 28 36 != 0 || bitOf (field h 8 8) 7 ||
    ((List.range 8).any fun i => bits (field h (0x40 + 16 * i + 14) 2) 4 12 != 0) ||
    ((List.range 4).any fun i => bits (field h (0x38 + 2 * i) 2) 6 9 != 0 || bits (field h (0xC8 + 2 * i) 2) 10 6 != 0 ||
      bits (field h (0xD0 + 8 * i) 8) 2 2 != 0)

/-- REPSTATE of a header (R147). -/
def readRep (x : Nat) : RepState :=
  if bitOf x 24 then { valid := true, path := bits x 25 3, stride := BitVec.ofNat 8 (bits x 16 8), next := bits x 8 8,
                       left := bits x 0 7 }
  else emptyRep

/-- A wave's control state rebuilt from its header and stack records (R41). Its registers hold what the spec leaves open
until its restore routine writes them; s56 to s63 still read as the frame of its last trap (R44), the permutation slots are
those of a placed wave (R202), its aborted lanes stay so (R262), and so do its broken pins (R232) and the reports of
EXACT_CELL_RANGE it has not taken (R246). Its PINSTAT is 0, as at placement (DESIGN CHOICE, log entry 106: the spec does not say
what a restored wave's PINSTAT reads). -/
def rebuildWave (count clock : Nat) (w : Wave) (h stack : List Byte) : Wave :=
  let depth := field h 0xC0 8
  let free : Nat → Nat → List (Nat × Nat) := fun file n => (List.range n).map fun k => (k, Config.restoredReg count file k)
  let places := (List.range 8).filterMap fun i => (readPath h (0x40 + 16 * i) (count + i)).map fun p =>
    (i, { p with restorePending := true })
  let arrivals := ((List.range 4).filterMap fun i =>
    let x := field h (0xD0 + 8 * i) 8
    if bitOf x 1 then some ({ addr := w64 (x / 16 * 16), phase := bitOf x 0 } : ArrivalRec) else none)
  let sets := (List.range 4).filterMap fun i =>
    let x := field h (0x38 + 2 * i) 2
    if bitOf x 15 then some (bits x 0 6, bits (field h (0xC8 + 2 * i) 2) 0 10) else none
  let w0 := { emptyWave with
    uid := w.uid, lid := w.lid, bid := w.bid, run := w.run, fn := w.fn, ctx := w.ctx, core := w.core, part := w.part,
    wslot := w.wslot, waveId := w.waveId, role := w.role, budget := w.budget, placedAt := clock, saveSlot := w.saveSlot,
    v := ((free 0 (32 * w.budget)).filter fun e => e.2 % 2 ^ 64 != 0).map fun e => (e.1, w64 e.2)
    s := ((free 1 56).filter fun e => e.2 % 2 ^ 64 != 0).map (fun e => (e.1, w64 e.2)) ++ w.s.filter fun e => decide (56 ≤ e.1)
    p := ((free 2 256).filter fun e => e.2 % 256 != 0).map fun e => (e.1, BitVec.ofNat 8 e.2)
    mode := modeFrom (w64 (field h 4 3)), tx := w.tx, brokenPins := w.brokenPins, cellReps := w.cellReps, rep := readRep (field h 8 8)
    regions := ((List.range (Nat.min 16 (field h 0x30 4))).map fun i => BitVec.ofNat 16 (field h (0x10 + 2 * i) 2)).reverse
    places := places, ownSS := w.ownSS
    stack := ((List.range (Nat.min 64 depth)).filterMap fun i => readPath stack (32 * i) (count + 8 + i)).reverse
    sets := sets, arrivals := arrivals, traceStop := w.traceStop, watchStop := w.watchStop, haltPending := w.haltPending }
  w.delivered.foldl (fun w r => w.recordArrival r.addr r.phase) w0

/-- The headers and stacks of a block's saved waves, read by the launch engine (R439). -/
def readHeaders (s : State) (c : Context) (home : Nat) : List Wave → Except Admit (List (Wave × List Byte × List Byte)) × State
  | [] => (.ok [], s)
  | w :: ws =>
    match engineRead s c home (slotBase s w) 0x900 with
    | (.error e, s1) => (.error e, s1)
    | (.ok bs, s1) =>
      match readHeaders s1 c home ws with
      | (.error e, s2) => (.error e, s2)
      | (.ok rest, s2) => (.ok ((w, bs.take 256, bs.drop 256) :: rest), s2)

/-- The core a core's waves move to. -/
def moveCore (b : Block) (plan : List CorePlan) (core : Nat) : Option CorePlan :=
  ((List.range b.shares.length).find? fun i => (b.shares[i]?).any fun h => h.core == core).bind fun i => plan[i]?

/-- A saved wave seated where the plan puts it. -/
def reseat (b : Block) (plan : List CorePlan) (w : Wave) : Wave :=
  match moveCore b plan w.core with
  | none => w
  | some p => match p.seats.find? fun x => x.req.waveId == w.waveId with
    | some x => { w with core := p.core, part := x.part, wslot := x.slot }
    | none => w

/-- A block restored whole from its headers (R41, R324). -/
def restoreBlock (s : State) (b : Block) (x : SavedBlock) (plan : List CorePlan) (hs : List (Wave × List Byte × List Byte)) :
    State :=
  let s1 := openPlan s plan b.shareSize
  let stop := ((s1.ctx? b.fn b.ctx).map Context.traceStop).getD false
  let ws := hs.map fun (w, h, st) =>
    let y := rebuildWave s.counter s.clock (reseat b plan w) h st
    if stop then { y with traceStop := true } else y
  let b1 := { b with
    phase := .resident, saved := none
    shares := plan.map fun p => { core := p.core, offset := p.offset }
    coresUsed := (b.coresUsed ++ plan.map CorePlan.core).eraseDups }
  let s2 := ws.foldl (fun (s : State) (w : Wave) => emitPlaced { s with waves := s.waves ++ [w] } w)
    { (s1.setBlock b1) with counter := s1.counter + 128 }
  let put : State → Nat × EventQueue → State := fun s q =>
    match moveCore b plan q.1 with
    | some p => let c := s.core p.core; s.setCore p.core { c with queues := c.queues ++ [q.2] }
    | none => s
  ctxRuns (x.queues.foldl put s2) b.fn b.ctx

/-- The launch engine restores a saved block whole (R41, R401). A page its headers lie on that is not present makes this restore
wait, and no other (R439). -/
def execBlockRestore (lid bid run : Nat) (s : State) : Host.Outcome State Fault Refusal :=
  let r : Run := match run with | 1 => .original | 2 => .shadow | 3 => .tiebreak | _ => .plain
  .next (match s.launch? lid, s.block? lid bid r with
  | some l, some b =>
    match s.ctx? l.fn l.ctx, b.saved with
    | some c, some x =>
      if b.phase ≠ .saved then s
      else if !ctxPlaces c then restoreUnderWay s b false
      else
        match planFor s s.residents l (.restore b) with
        | none => restoreUnderWay s b false
        | some plan =>
          match readHeaders s c l.home x.waves with
          | (.error (.fault f), s1) =>
            if f.cause.delivery = .pageFault then
              postFault s1 f 7 l.home (.restore lid bid run)
            else contextError s1 c.fn c.id f.cause
          | (.error _, s1) => s1.schedule Config.clocksPerUs (.blockRestore lid bid run)
          | (.ok hs, s1) =>
            if hs.any fun y => headerSaveBad y.2.1 then blockError s1 b.lid b.bid b.run b.fn b.ctx .safepointTable 0
            else kickAll (restoreBlock s1 b x plan hs)
    | _, _ => s
  | _, _ => s)

/-! ## Completion (R398) -/

/-- Every block has completed and every chosen one is released or discarded; or the launch was ended. A MARKER waits for
every launch admitted before it from its queue (R391, R398). -/
def completionDue (s : State) (l : Launch) : Bool :=
  if l.ended then true
  else if l.marker then (queueLaunches s l.fn l.q).all fun m => decide (l.lid ≤ m.lid)
  else decide (l.grid ≤ l.blocksDone) && !(s.facesWaiting.any fun f => f.lid == some l.lid)

/-- The completion record (R398). -/
def recordBytes (s : State) (l : Launch) : List Byte :=
  leBytes 2 l.status ++ leBytes 1 (if 0x100 ≤ l.status && l.status ≤ 0x102 then l.detail else 0) ++ leBytes 1 0 ++
    leBytes 4 l.blocksOk ++ leBytes 8 (nsNow s)

/-- What a launch's pins and bindings were ends with it (R118, R119, R159, R231). -/
def endPins (s : State) (lid : Nat) : State :=
  let s1 := endScopePins s fun p => p.lid == lid
  { s1 with pins := s1.pins.filter (fun p => p.lid != lid), bindings := s1.bindings.filter fun b => b.lid != lid }

/-- A step of a completion that waits for a page (R439). -/
def completionWait (s : State) (l : Launch) (x : XStop) : State :=
  match x with
  | .fault f =>
    if f.cause.delivery = .pageFault then
      -- while its function is reset, the fault is refused and the launch goes on without the write (R402, R439)
      if (s.func l.fn).flr then (s.setLaunch { l with phase := l.phase + 1 }).schedule 0 (.launchCompletion l.lid)
      else (postFault s f 7 l.home (.launch l.lid)).setLaunch { l with waitFault := some 0 }
    else contextError s l.fn l.ctx f.cause
  | _ => s.schedule Config.clocksPerUs (.launchCompletion l.lid)

/-- The record written as one store (R398 step 5); an address the packet check refused, or a sealed one, takes none. -/
def writeCompletion (s : State) (c : Context) (l : Launch) : Except XStop Unit × State :=
  let addr := field l.packet 0x28 8
  if addr = 0 || badAddr addr 16 || sealedRange s c.asid addr 16 then (.ok (), s)
  else writeVirt s (plainActor (.launch l.home) c.asid) addr (recordBytes s l)

/-- The signal's object reached (R398 step 6). -/
def signalObj (s : State) (c : Context) (l : Launch) : Except XStop (Option ObjAt) × State :=
  let addr := field l.packet 0x30 8
  if addr = 0 || badAddr addr 16 || sealedRange s c.asid addr 16 then (.ok none, s)
  else
    match xlateParts s (plainActor (.launch l.home) c.asid) .write [(addr, 16)] with
    | (.error e, s1) => (.error e, s1)
    | (.ok ((_, pa, _) :: _), s1) =>
      (.ok (some { target := .global addr, pa := pa, loc := { space := .global c.asid, addr := addr } }), s1)
    | (.ok [], s1) => (.ok none, s1)

/-- A launch is gone, its cancelled arm records with it (R308): later launches of its queue, a capture, a replay and a context's end may follow. -/
def dropLaunch (s : State) (l : Launch) : State :=
  let s1 := dropArms (recordLaunch s l) fun lid => lid == l.lid
  let s2 := { s1 with launches := s1.launches.filter (fun x => x.lid != l.lid), domains := s1.domains.filter fun d => d.lid != l.lid }
  let s3 := afterReplay s2 l
  let s4 := (queueLaunches s3 l.fn l.q).foldl (fun s m => s.schedule 0 (.launchCompletion m.lid)) (kickAll s3)
  let s5 := askAllRefills (if (s4.func l.fn).capture.state = 1 then s4.schedule 0 (.captureSnapshot l.fn) else s4)
  if s5.launches.any fun m => m.inCtx l.fn l.ctx then s5
  else { s5 with ctxs := s5.ctxs.filter fun c => !(c.fn == l.fn && c.id == l.ctx && c.state == .closing) }

/-- The check statuses a completed kernel counts under in the health record (R369). -/
def countStatus (s : State) (l : Launch) : State :=
  let m := s.mgmt
  if l.status = Cause.checkUnresolved.code then { s with mgmt := { m with unresolved := m.unresolved + 1 } }
  else if l.status = 0x0104 then { s with mgmt := { m with afterAtomic := m.afterAtomic + 1 } }
  else s

/-- The signal of a launch, and its end (R398 step 6). -/
def completeSignal (s : State) (c : Context) (l : Launch) : State :=
  match signalObj s c l with
  | (.error e, s1) => completionWait s1 l e
  | (.ok none, s1) => dropLaunch s1 l
  | (.ok (some o), s1) =>
    match signalAt s1 (plainActor (.launch l.home) c.asid) none l.fn l.ctx o 1 0 0 with
    | some s2 => dropLaunch s2 l
    | none => contextError (dropLaunch s1 l) l.fn l.ctx .barrierMisuse

/-- A replayed launch whose checksum differs ends with REPLAY_MISMATCH (R418). -/
def replayStatus (s : State) (l : Launch) : Launch :=
  match l.replaySum with
  | some x => if x ≠ l.checksum && (s.func l.fn).capture.state == 3 then
      { l with status := mergeStatus l.status Cause.replayMismatch.code } else l
  | none => l

/-- A launch's release performed (R130, R391): at SYS what its address space holds dirty reaches DRAM, where a synonym's next fill
reads it (R379). At a narrower scope every line of its is already seen through the L2. -/
def releaseLaunch (s : State) (c : Context) (l : Launch) : State :=
  if field l.packet 1 1 / 16 % 8 = 7 then
    performAtSys s ((s.l2.filter fun x => x.asid == c.asid).map fun x => { space := .global x.asid, addr := 256 * x.line })
  else s

/-- A launch ends in the order of R398. -/
def execLaunchCompletion (lid : Nat) (s : State) : Host.Outcome State Fault Refusal :=
  .next (match s.launch? lid with
  | none => s
  | some l0 =>
    if l0.waitFault.isSome || !completionDue s l0 then s
    else
      match s.ctx? l0.fn l0.ctx with
      | none => dropLaunch (endPins s lid) l0
      | some c =>
        if l0.phase = 0 then
          let l := replayStatus s l0
          match writeCompletion (releaseLaunch (endPins s lid) c l) c l with
          | (.error e, s1) => completionWait (s1.setLaunch l) l e
          | (.ok _, s1) =>
            let l1 := { l with phase := 1 }
            completeSignal (countStatus (s1.setLaunch l1) l1) c l1
        else if l0.phase = 1 then completeSignal s c l0
        else dropLaunch s l0)

/-! ## Contexts (R387, R388, R399) -/

/-- The function owns the ASID (R385). -/
def ownsAsid (f : Function) (asid : Nat) : Bool :=
  asid != 0 && decide (f.asidFirst ≤ asid) && decide (asid < f.asidFirst + f.asidCount)

/-- A context descriptor is malformed (R388). -/
def descBad (d : List Byte) : Bool :=
  let logSize := field d 0x30 8
  let save := field d 0x20 8
  field d 0 4 != 1 || decide (8 ≤ field d 6 1) || !zeroField d 7 1 || field d 8 8 % 65536 != 0 || decide (2 ^ 48 ≤ field d 8 8) ||
    field d 0x10 8 % 16 != 0 || badAddr (field d 0x18 8) 4096 || save % Config.saveSlotBytes != 0 || save == 0 ||
    badAddr (field d 0x28 8) 4096 || (logSize != 0 && (decide (logSize < 2 ^ 20) || decide (2 ^ 32 < logSize))) ||
    decide (1000000 < field d 0x38 4) || !zeroField d 0x3C 4

/-- The context of a descriptor. -/
def contextOf (fn ctx : Nat) (d : List Byte) : Context :=
  { fn := fn, id := ctx, state := .running, asid := field d 4 2, rr := bitOf (field d 6 1) 0,
    releaseUnchecked := bitOf (field d 6 1) 1, elide := bitOf (field d 6 1) 2, root := field d 8 8
    handler := w64 (field d 0x10 8), saveBase := w64 (field d 0x18 8), saveSize := w64 (field d 0x20 8)
    logBase := w64 (field d 0x28 8), logSize := w64 (if field d 0x30 8 = 0 then 2 ^ 26 else field d 0x30 8)
    boundUs := if field d 0x38 4 = 0 then 200 else field d 0x38 4, preempt := none, traceStop := false }

def ctxDesc : Nat := 0x100

/-- CTXCMD create reads and checks the descriptor at CTXDESC's physical address (R387, R388). Queues of the context that were
notified before it was present now admit (R390). -/
def execCtxCreate (fn ctx : Nat) (s : State) : Host.Outcome State Fault Refusal :=
  let f := s.func fn
  let d := readPhys s (f.reg ctxDesc) 64
  .next (if 16 ≤ ctx || ownsCtx s fn ctx then s
    else if descBad d || !ownsAsid f (field d 4 2) || (s.ctxOfAsid (field d 4 2)).isSome then
      s.setFunc fn { f with lastCause := 0x0100 }
    else kickQueues { s with ctxs := s.ctxs ++ [contextOf fn ctx d] } fn ctx)

/-- The queues of a context disabled (R399). -/
def disableQueues (s : State) (fn : Nat) (sel : Queue → Bool) : State :=
  let f := s.func fn
  let off : Nat × Queue → Nat × Queue := fun e =>
    if sel e.2 then (e.1, { e.2 with ctl := w64 (e.2.ctl.toNat % 2 ^ 63), waitFault := none }) else e
  s.setFunc fn { f with queues := (f.queues.map off).filter fun e => decide (e.2 ≠ emptyQueue) }

/-- A context reset: its waves are killed, its launches complete with CONTEXT_RESET, what it saved is discarded, and its
queues and windows are disabled and its seals end (R230, R311, R399). -/
def resetCtx (s : State) (c : Context) (st : CtxState) : State :=
  let s1 := killContext s c.fn c.id Cause.contextReset.code
  let s2 := s1.setCtx { c with state := st, preempt := none, traceStop := false }
  let s3 := disableWindows { s2 with seals := s2.seals.filter fun x => x.1 != c.asid } fun h => h.owner == c.fn && h.ctx == c.id
  kickAll (disableQueues s3 c.fn fun x => x.context == c.id)

def execCtxReset (fn ctx : Nat) (s : State) : Host.Outcome State Fault Refusal :=
  .next (match s.ctx? fn ctx with
    | some c => if c.state = .closing then s else resetCtx s c .running
    | none => s)

/-- Destroy does what reset does, and then makes the context absent (R399). -/
def execCtxDestroy (fn ctx : Nat) (s : State) : Host.Outcome State Fault Refusal :=
  .next (match s.ctx? fn ctx with
    | some c =>
      let s1 := resetCtx s c .closing
      if s1.launches.any fun l => l.inCtx fn ctx then s1
      else { s1 with ctxs := s1.ctxs.filter fun x => !(x.fn == fn && x.id == ctx) }
    | none => s)

/-! ## Function-level reset (R402) -/

/-- Clocks of a function's scrub (log entry 3). -/
def scrubClocks : Nat := 4000

/-- The memory, mesh and fabric requests of a wave that are not answered: its atomics apart, its loads, stores and pushes. -/
def openRequests (w : Wave) : List Nat :=
  (w.pending.filter fun c => c.path != .none && c.path != .at && !c.returned).map Completion.seqNo

/-- Requests outstanding that bear a function's tag (R387): its waves' atomics, loads, stores and pushes, the commands its channels
perform, its faces, and what its killed waves had sent. -/
def taggedRequests (s : State) (fn : Nat) : Nat :=
  let mine := s.everyWave.filter fun w => w.fn == fn
  let commands := s.cores.flatMap fun e => e.2.channels.flatMap fun ch => ch.filter fun x => x.fn == fn && x.started
  let faces := s.facesWaiting.filter fun f => f.lid.any fun lid => (s.launch? lid).any fun l => l.fn == fn
  Nat.min (2 ^ 32 - 1) ((s.atomics.filter fun r => mine.any fun w => w.uid == r.uid).length + (mine.flatMap openRequests).length +
    commands.length + faces.length + ((s.func fn).draining.filter fun t => decide (s.clock < t)).length)

/-- An atomic that has left its core is performed at its home, though its wave is to be killed; one that is stopped there is
answered and dropped (R402). -/
def drainAtomic (s : State) (r : AtomicReq) : State :=
  match s.anyWave? r.uid with
  | none => s
  | some w => match performAtomic s w r.setf r.entry.op (decide (r.mapGen < mget 0 s.mapGens (s.waveAsid w))) with
    | .ok s1 _ _ _ => s1
    | _ => s

/-- The kill (R402 phase 2): the function's requests that have left their cores are performed, every wave of it is killed, its
launches end with VF_RESET, its fault records are refused without an error, and its frozen map changes thaw. -/
def killFunction (s : State) (fn : Nat) : State :=
  let mine := s.everyWave.filter fun w => w.fn == fn
  let sent := s.atomics.filter fun r => mine.any fun w => w.uid == r.uid
  let answers := s.agenda.filterMap fun e => match e.2 with
    | .instructionComplete uid n => if mine.any fun w => w.uid == uid && (openRequests w).contains n then some e.1 else none
    | _ => none
  let shares := s.blocks.flatMap fun b =>
    if b.fn = fn && b.phase = .resident then b.shares.map fun x => (x.core, x.offset, b.shareSize) else []
  let s1 := sent.foldl drainAtomic s
  let s2 := s1.setFunc fn { s1.func fn with flr := true, flrPhase := 2, scrub := shares, draining := answers ++ sent.map AtomicReq.due }
  -- a launch killed while its record is being written writes no record and no signal
  let stop : Launch → Launch := fun l =>
    if l.fn = fn && l.waitFault.isSome && completionDue s2 l then { l with phase := 2 } else l
  let s3 : State := disableWindows { s2 with launches := s2.launches.map stop } fun h => h.owner == fn
  let s4 := (s3.ctxs.filter fun c => c.fn == fn).foldl (fun s c =>
    (killContext s fn c.id Cause.vfReset.code).setCtx { c with preempt := none, traceStop := false }) s3
  let g := s4.func fn
  let thaw := if g.mapStat = 1 || g.mapStat = 2 then 0 else g.mapStat
  let capture := if g.capture.state = 1 || g.capture.state = 2 || g.capture.state = 3 then emptyCapture else g.capture
  kickAll (s4.setFunc fn { g with faults := [], waitingFaults := [], mapStat := thaw, capture := capture })

/-- A function-level reset begins with its stop (R402 phase 1): its queues are disabled, and no packet is admitted. The other phases
follow a clock apart at least, so that VFSTAT shows each (log entry 3). -/
def execFunctionLevelReset (fn : Nat) (s : State) : Host.Outcome State Fault Refusal :=
  let f := s.func fn
  .next (if f.flr then s
    else (disableQueues (s.setFunc fn { f with flr := true, flrPhase := 1 }) fn fun _ => true).schedule 1 (.flrScrub fn))

/-- The scrub (R402 phase 4): the function's shares are zeroed, its lines written back and dropped with its held versions, its
translations and class records dropped. -/
def scrubFunction (s : State) (fn : Nat) : State :=
  let f := s.func fn
  let own : Nat → Bool := ownsAsid f
  let s1 := f.scrub.foldl (fun s x => clearShare s x.1 x.2.1 x.2.2) s
  let s2 := { s1 with heldSectors := s1.heldSectors.filter (fun h => !own h.asid), seals := s1.seals.filter (fun x => !own x.1) }
  let s3 := (s2.l2.filter fun l => own l.asid).foldl evictLine s2
  { s3 with
    tlb := s3.tlb.filter (fun e => !own e.asid), classes := s3.classes.filter (fun e => !own e.asid)
    classCopies := s3.classCopies.filter (fun e => !own e.asid) }

/-- The end of a function's reset (R402 phase 5): its contexts are absent, its queue registers as at reset, its count of lost packets
too (R412), and what the collectors still hold of it is gone. -/
def endFlr (s : State) (fn : Nat) : State :=
  let s1 := { s with launches := s.launches.filter (fun l => l.fn != fn), ctxs := s.ctxs.filter (fun c => c.fn != fn)
                     collected := s.collected.filter fun x => x.fn != fn }
  kickAll (s1.setFunc fn { s1.func fn with flr := false, flrPhase := 0, queues := [], draining := [], trLost := 0 })

/-- A function's reset goes on (R402): the kill, which lasts until its launches have ended; the drain, which lasts until no tagged
request is outstanding; the scrub; and the end. -/
def execFlrScrub (fn : Nat) (s : State) : Host.Outcome State Fault Refusal :=
  let f := s.func fn
  .next (if !f.flr then s
    else if f.flrPhase = 1 then (killFunction s fn).schedule 1 (.flrScrub fn)
    else if f.flrPhase = 2 then
      if s.launches.any fun l => l.fn == fn then s.schedule 1 (.flrScrub fn)
      else (s.setFunc fn { f with flrPhase := 3 }).schedule 1 (.flrScrub fn)
    else if f.flrPhase = 3 then
      if taggedRequests s fn ≠ 0 then s.schedule 1 (.flrScrub fn)
      else
        let s1 := scrubFunction s fn
        (s1.setFunc fn { s1.func fn with flrPhase := 4, scrub := [] }).schedule scrubClocks (.flrScrub fn)
    else endFlr s fn)

end Sys2Proof.Machine
end

