-- ==== Sys2Proof/Machine/Mapping.lean ====
section
/-! DEFINITION. The translation engine's events and its host interface (R377, R382 to R386): walks, answers to fault
records, the fault ring, invalidations and map changes. -/

namespace Sys2Proof.Machine

/-! ## Walks and classes -/

/-- A miss translated by its TLB (R377): a valid leaf is cached, and a refusal is queued to the host or errors the
context. A frozen range makes it wait (R386). -/
def execTlbMissWalk (asid va : Nat) (write fetch : Bool) (s : State) : Host.Outcome State Fault Refusal :=
  let k : AccKind := if fetch then .fetch else if write then .write else .read
  .next (match tlbAccess s (plainActor .host asid) va k with
    | (.ok _ _, _, s1) => s1
    | (.fault x, _, s1) =>
      if x.cause.delivery = .pageFault then postFault s1 x (if fetch then 5 else 0) 0 .none
      else match s1.ctxOfAsid asid with
        | some c => contextError s1 c.fn c.id x.cause
        | none => s1
    | (_, _, s1) => s1.schedule Config.clocksPerUs (.tlbMissWalk asid va write fetch))

/-- A private page becomes shared (R382): its misses are blocked, and the atomics on their way to its old home are performed
there first. -/
def execReclassification (asid page : Nat) (s : State) : Host.Outcome State Fault Refusal :=
  let s1 := blockPage s asid page
  .next (match s1.classes.find? fun r => r.asid == asid && r.page == page with
    | none => s
    | some r =>
      if r.shared then s
      else if reclassWaits s1 r then s1.schedule 1 (.reclassification asid page)
      else reclassify s1 asid page)

/-! ## The fault ring (R383, R385) -/

/-- The page-fault cause of a code (R383). -/
def pageCause (c : Nat) : Cause :=
  if c = Cause.writeProtect.code then .writeProtect else if c = Cause.copyOnWrite.code then .copyOnWrite
  else .pageNotPresent

/-- A waiting fault posted. -/
def repost (s : State) (x : WaitingFault) : State :=
  postFault s { cause := pageCause x.cause, asid := x.asid, va := x.va, flags := x.flags, entry := x.entry } x.kind
    x.requester x.waiter

/-- Faults that waited for room post their records, oldest first (R383). What finds no room waits again. -/
def flushWaiting (s : State) (fn : Nat) : State :=
  let f := s.func fn
  if f.ringFull then s
  else f.waitingFaults.foldl repost (s.setFunc fn { f with waitingFaults := [] })

def execFqheadWrite (fn : Nat) (value : Word) (s : State) : Host.Outcome State Fault Refusal :=
  .next (flushWaiting (s.setFunc fn { s.func fn with faultHead := bits value.toNat 0 32 }) fn)

/-! ## Answers (R384) -/

/-- The event that takes a command up again (R302): its bytes go on moving, or what follows them is tried again. -/
def resumeCommand (core chan : Nat) (x : Command) : Instr :=
  if isMulticast x.op then
    match x.targets with
    | t :: _ => .multicastDelivery core chan t
    | [] => .copyCommandEnd core chan
  else if x.moved then .copyCommandEnd core chan
  else .copyCommandExecute core chan

/-- The paths that wait with a ticket issue their instruction again. -/
def unfault (s : State) (uid fn ticket : Nat) : State :=
  s.modWave uid fun w => w.mapPaths fun p => if p.park == .faulted fn ticket then { p with park := .running } else p

/-- One requester retries its access (R384). -/
def retryRequester (s : State) (fn : Nat) : Requester → State
  | .logEntry uid seqNo => s.schedule 0 (.operandLogReplay uid seqNo)
  | .path uid ticket => unfault s uid fn ticket
  | .command core chan =>
    match headCommand s core chan with
    | some x => if x.waiting then (setHead s core chan { x with waiting := false }).schedule 0 (resumeCommand core chan x) else s
    | none => s
  | .node dom g => resumeNode s dom g
  | .stage core group => s.schedule 0 (.stageReadDone core group)
  | .launch lid =>
    match s.launch? lid with
    | some l => ((s.setLaunch { l with waitFault := none }).schedule 0 (.blockPlace lid)).schedule 0 (.launchCompletion lid)
    | none => s
  | .queue q =>
    let f := s.func fn
    let x := mget emptyQueue f.queues q
    (s.setFunc fn { f with queues := mset emptyQueue f.queues q { x with waitFault := none } }).schedule 0
      (.packetAdmit fn q)
  | .tracker core => s.schedule 0 (.trackerDrain core 0)
  | .replay => replayNext (setCapture s fn { (s.func fn).capture with pending := false }) fn
  | .release lid bid => s.schedule 0 (.checkVote lid bid)
  | .restore lid bid run => s.schedule 0 (.blockRestore lid bid run)
  | .none => s

/-- A record answered: it leaves the records that coalesce (R383). -/
def dropRecord (s : State) (fn seqNo : Nat) : State :=
  let f := s.func fn
  s.setFunc fn { f with faults := f.faults.filter fun r => r.seqNo != seqNo }

/-- Retried accesses walk again (R384): no TLB keeps a translation of the record's address. -/
def walkAgain (s : State) (asid va : Nat) : State :=
  { s with tlb := s.tlb.filter fun e => !(e.asid == asid && decide (e.vbase ≤ va) && decide (va < e.vbase + e.size)) }

/-- The answer replay (R384): every requester that waits on the record retries its access. -/
def execFqrespReplay (fn seqNo : Nat) (s : State) : Host.Outcome State Fault Refusal :=
  .next (match (s.func fn).faults.find? fun r => r.seqNo == seqNo with
    | none => s
    | some r => r.waiters.foldl (fun s x => retryRequester s fn x) (walkAgain (dropRecord s fn seqNo) r.asid r.va))

/-- The shadow or tiebreak run a requester belongs to, with the bundle of its instruction (R367). -/
def redundantWaiter (s : State) (r : Requester) : Option (Block × Word) :=
  let ofWave : Nat → (Wave → Word) → Option (Block × Word) := fun uid at' =>
    (s.anyWave? uid).bind fun w => (s.waveBlock w).map fun b => (b, at' w)
  let found : Option (Block × Word) := match r with
    | .logEntry uid seqNo => ofWave uid fun w => ((w.log.find? fun e => e.seqNo == seqNo).map LogEntry.bundle).getD 0
    | .path uid ticket => ofWave uid fun w =>
      ((w.allPaths.find? fun p => match p.park with | .faulted _ n => n == ticket | _ => false).map Path.pc).getD 0
    | .command core chan =>
      (headCommand s core chan).bind fun x => (s.block? x.lid x.bid x.run).map fun b => (b, x.issuedAt.bundle)
    | .stage core group =>
      ((s.core core).groups.find? fun g => g.id == group).bind fun g => (s.block? g.lid g.bid g.run).map fun b => (b, 0)
    | _ => none
  found.filter fun x => x.1.unchecked && (x.1.run == .shadow || x.1.run == .tiebreak)

/-- The cause becomes a context error (R384); a record on which only shadow or tiebreak runs wait ends those runs
(R367). -/
def execFqrespRefuse (fn seqNo : Nat) (s : State) : Host.Outcome State Fault Refusal :=
  .next (match (s.func fn).faults.find? fun r => r.seqNo == seqNo with
    | none => s
    | some r =>
      let s1 := dropRecord s fn seqNo
      let c := pageCause r.cause
      if !r.waiters.isEmpty && r.waiters.all fun x => (redundantWaiter s x).isSome then
        (r.waiters.filterMap (redundantWaiter s)).foldl (fun s x => blockError s x.1.lid x.1.bid x.1.run x.1.fn x.1.ctx c x.2) s1
      else match s1.ctxOfAsid r.asid with
        | some x =>
          -- a record or signal whose write is refused is not written (R439)
          let skip : Launch → Launch := fun l =>
            if r.waiters.contains (.launch l.lid) && completionDue s1 l then { l with phase := l.phase + 1, waitFault := none }
            else l
          contextError { s1 with launches := s1.launches.map skip } x.fn x.id c
        | none => s1)

/-! ## Invalidations (R385) -/

/-- The cached lines that some tag names are to be checked at their TLB at their next access (R385). -/
def markStale (s : State) (sel : Nat → Nat → Bool) : State :=
  let on (asid line : Nat) (p : LinePerms) : LinePerms := if sel asid line then { p with stale := true } else p
  { s with l2 := s.l2.map (fun l => { l with perms := on l.asid l.line l.perms })
           l1 := s.l1.map fun l => { l with perms := on l.asid l.line l.perms } }

/-- A 256 B line lies in a range of 64 KiB pages. -/
def lineInRange (first count line : Nat) : Bool := decide (first ≤ line / 256) && decide (line / 256 < first + count)

/-- A range of 64 KiB pages invalidated: its entries are dropped from every TLB, and its lines' bits are stale (R385). -/
def dropTlb (s : State) (asid first count : Nat) : State :=
  markStale { s with tlb := s.tlb.filter fun e =>
      !(e.asid == asid && decide (e.vbase < 65536 * (first + count)) && decide (65536 * first < e.vbase + e.size)) }
    fun x line => x == asid && lineInRange first count line

/-- Every translation of some ASIDs invalidated (R385). -/
def dropAsids (s : State) (sel : Nat → Bool) : State :=
  markStale { s with tlb := s.tlb.filter fun e => !sel e.asid } fun x _ => sel x

/-- Clocks until no access can use a dropped entry, and of a map change's drain and flush (log entry 3). -/
def invalidateClocks : Nat := 1000

/-- A write to TLBINVC: ignored for another function's ASID and while an invalidation is in progress (R385). -/
def invalidate (s : State) (fn asid : Nat) (drop : State → State) : State :=
  let f := s.func fn
  if !ownsAsid f asid || f.invalidating then s
  else (drop (s.setFunc fn { f with invalidating := true })).schedule invalidateClocks (.tlbInvalidateDone fn)

def execTlbinvRange (fn asid : Nat) (s : State) : Host.Outcome State Fault Refusal :=
  let r := (s.func fn).reg 0x28
  .next (invalidate s fn asid fun s => dropTlb s asid (bits r 16 36) (bits r 0 16 + 1))

def execTlbinvAsid (fn asid : Nat) (s : State) : Host.Outcome State Fault Refusal :=
  .next (invalidate s fn asid fun s => dropAsids s fun x => x == asid)

def execTlbinvFunction (fn asid : Nat) (s : State) : Host.Outcome State Fault Refusal :=
  .next (invalidate s fn asid fun s => dropAsids s (ownsAsid (s.func fn)))

def execTlbInvalidateDone (fn : Nat) (s : State) : Host.Outcome State Fault Refusal :=
  .next (s.setFunc fn { s.func fn with invalidating := false })

/-! ## Map changes (R386) -/

/-- A write to MAPCMD: checks, freeze, the ASID's next map generation, and invalidation. -/
def startMapChange (s : State) (fn asid : Nat) (force : Bool) : State :=
  let f := s.func fn
  let r := f.reg 0x40
  let first := bits r 16 36
  let count := bits r 0 16 + 1
  if !ownsAsid f asid || f.mapStat == 1 || f.mapStat == 2 then s
  else if 2 ^ 36 < first + count then s.setFunc fn { f with mapStat := 4, mapPinned := 0 }
  else
    let pinned := ((s.pins.filter fun p => p.asid == asid && lineInRange first count p.line).map Pin.line).eraseDups.length
    if pinned ≠ 0 && !force then s.setFunc fn { f with mapStat := 3, mapPinned := Nat.min pinned 0xFFFF }
    else
      let f1 := { f with mapStat := 1, mapPinned := Nat.min pinned 0xFFFF, mapAsid := asid,
                         mapFirst := first, mapCount := count }
      let s1 := { s with mapGens := mset 0 s.mapGens asid (mget 0 s.mapGens asid + 1) }
      (dropTlb (s1.setFunc fn f1) asid first count).schedule invalidateClocks (.mapChangeFrozen fn)

def execMapChange (fn asid : Nat) (s : State) : Host.Outcome State Fault Refusal := .next (startMapChange s fn asid false)

def execMapChangeForce (fn asid : Nat) (s : State) : Host.Outcome State Fault Refusal :=
  .next (startMapChange s fn asid true)

/-- A wave's pins in the range broken: one broken pin for each wave (R232, log entry 45). -/
def breakPins (s : State) (asid first count : Nat) : State :=
  let hit : Pin → Bool := fun p => p.asid == asid && lineInRange first count p.line
  let broken := s.pins.filter hit
  let upd : Wave → Wave := fun w =>
    let mine := (broken.filter fun p => p.uid == w.uid).map fun p => (p.line, s.counter)
    { w with brokenPins := w.brokenPins ++ mine }
  let onBlock : Block → Block := fun b =>
    { b with saved := b.saved.map fun (x : SavedBlock) => { x with waves := x.waves.map upd } }
  if broken.isEmpty then s
  else { s with counter := s.counter + 1, pins := s.pins.filter (fun p => !hit p), waves := s.waves.map upd,
                blocks := s.blocks.map onBlock }

/-- The global ranges a command reads and writes: its footprint (R298, R302), with the barriers it arrives on, those of a
multicast's arm records too (R307). -/
def commandRanges (s : State) (core : Nat) (x : Command) : List (Nat × Nat) :=
  let glob : Word → Nat → List (Nat × Nat) := fun a n => if selector a = 0 then [(a.toNat % 2 ^ 52, n)] else []
  if x.op = opHalo then
    (setBits 16 x.faceMask).flatMap fun k =>
      let f := readFace x.table k
      glob f.src (spanOf f.rows (if f.rows = 1 then 0 else f.sPitch) f.len)
  else
    let d := readDesc x.op x.desc
    glob d.src (spanOf d.rows d.sPitch d.sRow) ++ glob d.dst (spanOf d.rows d.dPitch d.dRow) ++
      (if x.op = opCpyd then glob d.scale (spanOf d.rows d.scPitch (d.len / 32)) else []) ++
      (if d.barrier = 0 then [] else glob d.barrier 16) ++
      x.targets.flatMap fun t => (committedArms s core t x.tag).flatMap fun a => glob a.barrier 16

/-- A command accepted under an older map generation, whose footprint meets the range, has not ended (R302, R386). -/
def olderCommand (s : State) (f : Function) : Bool :=
  s.cores.any fun e => e.2.channels.any fun ch => ch.any fun x =>
    x.waitSeq.isNone && decide (x.mapGen < mget 0 s.mapGens f.mapAsid) &&
      ((s.ctx? x.fn x.ctx).any fun c => c.asid == f.mapAsid) &&
      (commandRanges s e.1 x).any fun r =>
        decide (r.1 < 65536 * (f.mapFirst + f.mapCount)) && decide (65536 * f.mapFirst < r.1 + r.2)

/-- An atomic translated under an older map generation is on its way to the range (R386). -/
def olderAtomic (s : State) (f : Function) : Bool :=
  s.atomics.any fun r => decide (r.mapGen < mget 0 s.mapGens f.mapAsid) && (s.anyWave? r.uid).any fun w =>
    s.waveAsid w == f.mapAsid && (opPages s w r.entry.op).any fun p => decide (f.mapFirst ≤ p) && decide (p < f.mapFirst + f.mapCount)

/-- The lines of a range flushed (R386 step 5): dirty sectors are written back; a line under a narrow-scope pin stays, and one
with held versions keeps its place. -/
def flushRange (s : State) (asid first count : Nat) : State :=
  (linesIn s asid (65536 * first) (65536 * count)).foldl (fun s l =>
    if s.scopePins.any fun p => p.line == { space := .global asid, addr := 256 * l.line } then writeBack s l else flushLine s l) s

/-- The drain and the flush (R386): once older commands and requests have ended, pins are broken, lines flushed, and class
records untouched; no translation made meanwhile stays; the change is frozen. -/
def execMapChangeFrozen (fn : Nat) (s : State) : Host.Outcome State Fault Refusal :=
  let f := s.func fn
  .next (if f.mapStat ≠ 1 then s
    else if olderCommand s f || olderAtomic s f then s.schedule invalidateClocks (.mapChangeFrozen fn)
    else
      let s1 := flushRange (breakPins s f.mapAsid f.mapFirst f.mapCount) f.mapAsid f.mapFirst f.mapCount
      let inRange : Nat → Nat → Bool := fun asid page =>
        asid == f.mapAsid && decide (f.mapFirst ≤ page) && decide (page < f.mapFirst + f.mapCount)
      let s2 := dropTlb { s1 with
        classes := s1.classes.filter (fun r => !inRange r.asid r.page)
        classCopies := s1.classCopies.filter fun r => !inRange r.asid r.page } f.mapAsid f.mapFirst f.mapCount
      s2.setFunc fn { f with mapStat := 2 })

/-- The range thaws (R386). Accesses that waited are tried again and walk. -/
def execMapdone (fn : Nat) (s : State) : Host.Outcome State Fault Refusal :=
  let f := s.func fn
  .next (if f.mapStat = 2 then s.setFunc fn { f with mapStat := 0 } else s)

end Sys2Proof.Machine
end

