-- ==== Sys2Proof/Machine/Trace.lean ====
section
/-! DEFINITION. The trace engine (R403 to R414): TMARK, profile samples, TRACE_STOP requests, watchpoints, and the host's
writes that enable trace and free space in its ring. -/

namespace Sys2Proof.Machine

/-- A mark in the instruction trace, and no other effect (R404). -/
def execTmark (mark : BitVec 16) (s : State) : Host.Outcome State Fault Refusal :=
  runInstr (.tmark mark) s fun e s => e.noResult (emitRegion s e.w e.iss.place 3 mark.toNat e.w.regions)

/-! ## Profile samples (R405, R406) -/

/-- The sample interval of a function in core clocks (R412). -/
def sampleClocks (f : Function) : Nat := Nat.max 1 (bits (f.reg profCtl) 20 20) * Config.clocksPerUs

/-- The partitions whose counts run for a function close them at the next multiple of its sample interval, which a write of
PROFCTL has changed (R406). -/
def moveSamples (s : State) (fn : Nat) : State :=
  let n := sampleClocks (s.func fn)
  let mine : Nat → Nat → Bool := fun core part => ((s.part core part).sampleFns.head?.map fun k => k / 16) == some fn
  { s with agenda := s.agenda.foldl (fun xs e => match e.2 with
      | .profileSample core part => insertEvent (if mine core part then s.clock + (n - s.clock % n) else e.1) e.2 xs
      | _ => insertEvent e.1 e.2 xs) [] }

/-- A SAMPLE record (R414). The counts of clocks in which no wave was resident are made up at the close: they are idle
clocks with no eligible wave. -/
def sampleRecord (s : State) (core part ctx : Nat) : List Byte :=
  let pt := s.part core part
  let gap := s.clock - pt.since - sumNat pt.bins
  let bins := (List.range 9).map fun k => pt.bins.getD k 0 + (if k = 0 then gap else 0)
  let top := match oldestWave s core part with
    | some w => (w.regions.length, regionTop w)
    | none => (0, 0)
  padTo 128 (recordHead s 1 ctx core part 0xFF top.1 top.2 ++ (bins.flatMap fun n => leBytes 4 n) ++
    ((List.range 12).flatMap fun k => leBytes 4 (pt.reasons.getD k 0)) ++ leBytes 4 (pt.idle + gap))

/-- A partition closes its counts (R406). `sampleFns` holds 16 f + c for each context c of a function f that had a wave
resident during the interval. -/
def execProfileSample (core part : Nat) (s : State) : Host.Outcome State Fault Refusal :=
  let pt := s.part core part
  let fns := (pt.sampleFns.map fun k => k / 16).eraseDups
  let s1 := match fns with
    | [fn] =>
      let ctx := match oldestWave s core part with
        | some w => if w.fn = fn then w.ctx else (pt.sampleFns.getLast?.getD 0) % 16
        | none => (pt.sampleFns.getLast?.getD 0) % 16
      if profiled s fn ctx then writeRecord s fn (sampleRecord s core part ctx) else s
    | _ => fns.foldl loseRecord s
  .next (s1.setPart core part { s1.part core part with bins := [], reasons := [], idle := 0, sampleFns := [] })

/-! ## Stops (R409) -/

/-- TRACE_STOP requested for, or withdrawn from, every wave of a context, those saved and those to be restored
included. It is not accepted for a context that names no handler. -/
def traceStops (s : State) (fn ctx : Nat) (on : Bool) : State :=
  match s.ctx? fn ctx with
  | none => s
  | some c =>
    if c.handler = 0 then s
    else
      let upd : Wave → Wave := fun w => if w.fn = fn && w.ctx = ctx then { w with traceStop := on } else w
      let onBlock : Block → Block := fun b =>
        { b with saved := b.saved.map fun (x : SavedBlock) => { x with waves := x.waves.map upd } }
      { (s.setCtx { c with traceStop := on }) with waves := s.waves.map upd, blocks := s.blocks.map onBlock }

def execTraceStopRequest (fn ctx : Nat) (s : State) : Host.Outcome State Fault Refusal := .next (traceStops s fn ctx true)

def execTraceStopCancel (fn ctx : Nat) (s : State) : Host.Outcome State Fault Refusal := .next (traceStops s fn ctx false)

/-! ## Watchpoints (R407, R412) -/

/-- The assigned selectors of a generic address that names an object (R105, R407). -/
def watchAddrBad (a : Word) : Bool :=
  let x := a.toNat
  let sel := bits x 56 8
  x % 16 != 0 || (sel != 0 && sel != 0xFC && sel != 0xFD && sel != 0xFE)

/-- The bits of WPCTL that a write stores. -/
def wpctlBits (v : Nat) : Nat := bits v 12 2 * 2 ^ 12 + bits v 8 2 * 2 ^ 8 + bits v 0 4

/-- A write to WPCTL: an enabling one is refused with ERR set in the cases of R412; one that does not enable and names a context
the function does not own is ignored (log entry 63). -/
def writeWpctl (s : State) (fn w : Nat) (value : Word) : State :=
  let f := s.func fn
  let v := value.toNat
  let x := mget { addr := 0, ctl := 0 } f.watches w
  let put : Nat → State := fun c =>
    s.setFunc fn { f with watches := mset { addr := 0, ctl := 0 } f.watches w { x with ctl := w64 c } }
  if 8 ≤ w then s
  else if !bitOf v 63 then (if (s.ctx? fn (bits v 0 4)).isNone then s else put (wpctlBits v))
  else
    let handler := (s.ctx? fn (bits v 0 4)).map Context.handler
    let bad := watchAddrBad x.addr || bits v 12 2 == 0 || bits v 8 2 == 3 ||
      (match handler with | none => true | some h => bitOf v 13 && h == 0)
    put (wpctlBits v + (if bad then 2 ^ 62 else 2 ^ 63))

def execWatchpointEnable (fn w : Nat) (value : Word) (s : State) : Host.Outcome State Fault Refusal :=
  .next (writeWpctl s fn w value)

/-! ## Instruction trace (R411 to R413) -/

/-- The partitions that hold waves of a context, by core and then partition. -/
def ctxParts (s : State) (fn ctx : Nat) : List (Nat × Nat) :=
  sortBy (fun a b => decide (16 * a.1 + a.2 ≤ 16 * b.1 + b.2))
    (((s.waves.filter fun w => w.fn == fn && w.ctx == ctx).map fun w => (w.core, w.part)).eraseDups)

/-- A write that enables a context the function does not own is ignored (R412, log entry 63). -/
def namesAbsent (s : State) (fn value : Nat) : Bool := (setBits 16 value).any fun c => (s.ctx? fn c).isNone

/-- A write to PROFCTL (R412). -/
def writeProfctl (s : State) (fn : Nat) (value : Word) : State :=
  let v := value.toNat
  if namesAbsent s fn v then s
  else
    let f := s.func fn
    moveSamples (s.setFunc fn { f with regs := mset 0 f.regs profCtl (w64 (bits v 20 20 * 2 ^ 20 + bits v 0 16)) }) fn

/-- A write to TRCTL: each partition that holds waves of a newly traced context makes a sync point (R411). -/
def writeTrctl (s : State) (fn : Nat) (value : Word) : State :=
  let f := s.func fn
  let old := f.trctl
  let new := bits value.toNat 0 20
  if namesAbsent s fn new then s else
  let s1 := s.setFunc fn { f with regs := mset 0 f.regs trCtl (w64 (Nat.xor new 0x80000)) }
  let off : Stream → Bool := fun x => x.fn == fn && !x.mustSync && !bitOf new x.ctx
  let s2 := { s1 with streams := s1.streams.filter fun x => !off x }
  ((setBits 16 new).filter fun c => !bitOf old c).foldl
    (fun s c => (ctxParts s fn c).foldl (fun s p => syncPoint s p.1 p.2 fn c none) s) s2

def execTraceEnable (fn : Nat) (value : Word) (s : State) : Host.Outcome State Fault Refusal :=
  .next (writeTrctl s fn value)

/-- A stream that lost packets begins again: with a sync point, or with TIME ABS alone when no traced wave is resident
(R411). -/
def resync (s : State) (x : Stream) : State :=
  if bitOf (s.func x.fn).trctl x.ctx then syncPoint s x.core x.part x.fn x.ctx none
  else timeAbs (setStream s { x with mustSync := false, events := 0 }) x.core x.part x.fn x.ctx

/-- Space has returned in the trace ring: one LOSS packet with the count lost since the last, then the sync points
(R413). -/
def returnSpace (s : State) (fn : Nat) : State :=
  let f := s.func fn
  if f.trPendingLoss = 0 || traceFull s fn then s
  else
    let n := Nat.min (2 ^ 32 - 1) f.trPendingLoss
    let s1 := writePacket (s.setFunc fn { f with trPendingLoss := 0 }) 0 0 fn 0 (6 * 2 ^ 60 + n) 0
    let due := sortBy (fun a b => decide (16 * a.core + a.part ≤ 16 * b.core + b.part))
      (s1.streams.filter fun x => x.fn == fn && x.mustSync)
    due.foldl resync s1

/-- A write to TRRD (R412, R413). -/
def writeTrrd (s : State) (fn : Nat) (value : Word) : State :=
  let s1 := flushCollected s
  returnSpace (s1.setFunc fn { s1.func fn with trRd := bits value.toNat 0 32 }) fn

def execTraceRingRead (fn : Nat) (value : Word) (s : State) : Host.Outcome State Fault Refusal :=
  .next (writeTrrd s fn value)

end Sys2Proof.Machine
end

