-- ==== Sys2Proof/Machine/Power.lean ====
section
/-! DEFINITION. The power engine (R419 to R430): HALT, CLKQ and PWLOAD, the control interval with its rails, clocks, caps and
weight tables, over-current kills, and the Canopy logic. -/

namespace Sys2Proof.Machine

/-! ## Registers of the module window (R430) -/

/-- A register of the module window, kept as its difference from a reset value. -/
def powerReg (s : State) (off reset : Nat) : Nat := Nat.xor (mget 0 s.power.regs off).toNat reset

def plimitOff : Nat := 0x000
def gbudhiOff : Nat := 0x008
def gbudloOff : Nat := 0x010
def thwarnOff : Nat := 0x018
def thtripOff : Nat := 0x020
def grovectlOff (g : Nat) : Nat := 0x100 + 8 * g
def cnpleadOff : Nat := 0x510

/-- PLIMIT in W; values outside 500 to 3,000 are taken as 3,000. -/
def plimit (s : State) : Nat :=
  let x := powerReg s plimitOff 3000
  if 500 ≤ x && x ≤ 3000 then x else 3000
def gbudhi (s : State) : Nat := powerReg s gbudhiOff 20000000
def gbudlo (s : State) : Nat := powerReg s gbudloOff 12000000
def thwarn (s : State) : Nat := powerReg s thwarnOff 95
/-- THTRIP, taken as at least THWARN + 5. -/
def thtrip (s : State) : Nat := Nat.max (powerReg s thtripOff 105) (thwarn s + 5)
def grovectl (s : State) (g : Nat) : Nat := powerReg s (grovectlOff g) 5
/-- CNPLEAD in µs, taken within 200 to 10,000. -/
def cnplead (s : State) : Nat := Nat.min 10000 (Nat.max 200 (powerReg s cnpleadOff 200))

/-- Budget of a grove's rail (R423): that of the control interval, which a register changes at the next boundary (R419). -/
def groveBudget (s : State) (x : Grove) : Nat := if x.low then s.power.budLo else s.power.budHi

/-! ## The Canopy ceiling (R421, R427, R428) -/

/-- The ceiling the chip's groves use: 2,400 MHz alone, 1,200 MHz while it joins or awaits its first lowering. -/
def Canopy.ceil (c : Canopy) : Nat :=
  if c.state = 0 then 2400 else if c.state = 1 || c.holdLow then 1200 else c.ceiling

/-- The least proposal of the admitted members, and never below 1,200; 1,200 while one is silent (R427). -/
def Canopy.computed (c : Canopy) : Nat :=
  if c.members.any Member.silent then 1200
  else Nat.max 1200 (c.members.foldl (fun m x => Nat.min m x.proposal) (if 2 ≤ c.state then c.inForce else 2400))

/-- Group time in µs (R427). -/
def groupTime (s : State) : Nat := ((s.clock / Config.clocksPerUs : Nat) + s.canopy.offset).toNat

/-- µs since the epoch began (R369). -/
def epochUs (s : State) : Nat := (s.clock - s.mgmt.epochStart) / Config.clocksPerUs

/-- An entry among the 16 latest excursions (R369). -/
def noteExcursion (s : State) (grove : Option Nat) (before after kind : Nat) : State :=
  let c := s.canopy
  let g := grove.getD (Config.unnamedGrove (c.excursions + c.changes) % 65536)
  let bs := leBytes 8 (epochUs s) ++ leBytes 2 g ++ leBytes 2 before ++ leBytes 2 after ++ leBytes 2 kind
  { s with canopy := { c with
      latest := (bs :: c.latest).take 16
      excursions := if kind = 0 then c.excursions + 1 else c.excursions
      changes := if kind = 0 then c.changes else c.changes + 1 } }

/-- A chip has left the group, `none` being this one: the faces in flight to it fail, and the GROUP domains that it is a member
of go down (R314, R346). This chip is a member of each of its own, and which others a peer is a member of is
Config.domainMember's to say (R327, log entry 88). -/
def memberGone (s : State) (chip : Option Nat) : State :=
  let hit : Domain → Bool := fun d => d.groupScope && chip.all fun k => Config.domainMember k d.number
  (s.domains.filter hit).foldl (fun s d => s.schedule 0 (.domainDown d.id)) (failFaces s fun k => chip.all fun c => k == c)

/-- The chip out of its group (R428). -/
def leaveGroup (s : State) : State :=
  let c := s.canopy
  memberGone { s with canopy := { c with
    state := 0, ceiling := 2400, proposal := 2400, inForce := 2400, members := [], announces := [], requests := [], asked := [],
    carried := [], holdLow := false } } none

/-- One announcement takes effect (R427). A ceiling that changes by it is counted. -/
def applyOne (s : State) (a : Announce) : State :=
  let c := { s.canopy with announces := s.canopy.announces.erase a }
  let mine := a.chip == c.chip
  if mine && a.kind == .leave then leaveGroup { s with canopy := c }
  else
    let upd : Member → Member := fun m => if m.chip = a.chip then { m with proposal := a.proposal } else m
    let c1 := match a.kind with
      | .leave => { c with members := c.members.filter fun m => m.chip != a.chip }
      | .rise => c
      | _ => if mine then { c with inForce := a.proposal, holdLow := c.holdLow && decide (a.kind ≠ AnnounceKind.change) }
             else { c with members := c.members.map upd }
    let new := c1.computed
    let s1 := { s with canopy := { c1 with ceiling := new } }
    let s2 := if new ≠ c.ceiling && a.kind ≠ .emergency then noteExcursion s1 none c.ceiling new 1 else s1
    if a.kind = .leave then memberGone s2 (some a.chip) else s2

/-- The announcements that are due, by their times. -/
def applyAnnounces (s : State) : State :=
  let due := sortBy (fun a b => decide (a.due ≤ b.due)) (s.canopy.announces.filter fun a => decide (a.due ≤ s.clock))
  due.foldl (fun s a => if s.canopy.announces.contains a then applyOne s a else s) s

def execCanopyCeilingChange (s : State) : Host.Outcome State Fault Refusal := .next (applyAnnounces s)

/-- An announcement entered, with the event of its effect. One for the same time that is known already is not entered again;
an emergency lowers what its chip announced before it, so that none of that raises the ceiling later (R427). -/
def addAnnounce (s : State) (a : Announce) : State :=
  if s.canopy.announces.any fun b => b.chip == a.chip && b.time == a.time && b.kind == a.kind then s
  else
    let lower : Announce → Announce := fun b =>
      if a.kind == .emergency && b.chip == a.chip && b.kind == .change then { b with proposal := Nat.min b.proposal a.proposal } else b
    { s with canopy := { s.canopy with announces := s.canopy.announces.map lower ++ [a] } }.schedule (a.due - s.clock)
      .canopyCeilingChange

/-- The chip's own announcement, so many µs ahead. -/
def announceOwn (s : State) (proposal us : Nat) (kind : AnnounceKind) : State :=
  addAnnounce s { chip := s.canopy.chip, proposal := proposal, time := groupTime s + us,
                  due := s.clock + us * Config.clocksPerUs, kind := kind }

/-- µs between heartbeats (R427). -/
def beatUs : Nat := 20

/-- The next boundary after now. -/
def nextBoundary (s : State) : Nat := (s.clock / Config.clocksPerUs + 1) * Config.clocksPerUs

/-- A heartbeat sent. A member's carries the requests it has heard. -/
def sendBeat (s : State) (emergency : Bool) : State :=
  let c := s.canopy
  let own := (c.announces.filter fun a => a.chip == c.chip && (a.kind == .change || a.kind == .leave)).map fun a =>
    (if a.kind == .leave then 0 else a.proposal, a.time)
  let joins := if c.state = 1 then [c.chip] else c.requests
  let beat : Heartbeat := { chip := c.chip, seqNo := c.seqNo, groupTime := groupTime s, proposal := c.proposal,
                            announces := own, joins := joins, emergency := emergency }
  { s with canopy := { c with
      seqNo := c.seqNo + 1, sent := beat :: c.sent
      carried := if 2 ≤ c.state then c.carried ++ c.requests.map (fun j => (j, c.chip)) else c.carried } }

/-- Every carrier has carried a chip's join request twice (R428). -/
def carriedTwice (c : Canopy) (j : Nat) (carriers : List Nat) : Bool :=
  carriers.all fun m => decide (2 ≤ (c.carried.filter fun e => e == (j, m)).length)

/-- The chip is admitted (R428): a proposal below the ceiling is announced under the lowering rule, and until it takes
effect the groves stay at 1,200 MHz. -/
def admitSelf (s : State) : State :=
  let c := s.canopy
  let group := { c with state := 2, inForce := 2400 }.computed
  if c.proposal < group then
    announceOwn { s with canopy := { c with state := 2, inForce := 2400, ceiling := group, holdLow := true } } c.proposal
      (cnplead s) .change
  else { s with canopy := { c with state := 2, inForce := c.proposal, ceiling := group } }

/-- Admissions that have become due (R428). A group in which no member is heard for 1 ms has no member. -/
def admissions (s : State) : State :=
  let c := s.canopy
  if c.state = 1 then
    if c.members.isEmpty then
      (if c.since + 1000 * Config.clocksPerUs ≤ s.clock then admitSelf s else s)
    else if carriedTwice c c.chip (c.members.map Member.chip) then admitSelf s
    else s
  else
    let ready := c.requests.filter fun j => carriedTwice c j (c.chip :: c.members.map Member.chip)
    -- a proposal below the ceiling counts once its announcement takes effect
    let known : Nat → Nat := fun j => let p := mget 2400 c.asked j; if p < c.ceiling then 2400 else p
    let new := ready.map fun j => ({ chip := j, proposal := known j, lastHeard := s.clock, silent := false, heardRun := 0 } : Member)
    { s with canopy := { c with
        members := c.members ++ new, requests := c.requests.filter (fun j => !ready.contains j)
        asked := c.asked.filter fun e => !ready.contains e.1
        carried := c.carried.filter fun e => !ready.contains e.1 } }

def execCanopyHeartbeatSend (s : State) : Host.Outcome State Fault Refusal :=
  .next (if s.canopy.state = 0 then s
    else (admissions (sendBeat s false)).schedule (beatUs * Config.clocksPerUs) .canopyHeartbeatSend)

/-- A thermal trip or current emergency (R27, R427): in a group: the proposal becomes the lowest grove clock, is broadcast
at once, and is an excursion. A chip in no group counts and broadcasts it too, and its proposal stays (R27, log entry 89). -/
def excursion (s : State) (g before after : Nat) : State :=
  if s.canopy.state < 2 then sendBeat (noteExcursion s (some g) before after 0) true
  else
    let low := (List.range Config.groves).foldl (fun m k => Nat.min m (s.grove k).clock) 2400
    let p := Nat.max 1200 low
    let s1 := noteExcursion { s with canopy := { s.canopy with proposal := p } } (some g) before after 0
    let s2 := sendBeat s1 true
    addAnnounce s2 { chip := s2.canopy.chip, proposal := p, time := groupTime s2, due := nextBoundary s2, kind := .emergency }

/-- The silence timers of a member (R427). -/
def armSilence (s : State) (chip : Nat) : State :=
  (s.schedule (3 * beatUs * Config.clocksPerUs) (.canopyMemberSilent chip)).schedule (1000 * Config.clocksPerUs)
    (.canopyMemberExpel chip)

/-- A member heard: after two heartbeats a silent one is silent no more (R427). -/
def Member.heard (m : Member) (clock : Nat) : Member :=
  if m.silent then
    (if 1 ≤ m.heardRun then { m with silent := false, heardRun := 0, lastHeard := clock }
     else { m with heardRun := 1, lastHeard := clock })
  else { m with lastHeard := clock }

/-- A member's proposal as it is in force, of which no announcement was heard. A ceiling that changes by it is counted. -/
def takeProposal (s : State) (chip proposal : Nat) : State :=
  let c := s.canopy
  let upd : Member → Member := fun m => if m.chip = chip then { m with proposal := proposal } else m
  if c.members.all fun m => m.chip != chip || m.proposal == proposal then s
  else
    let c1 := { c with members := c.members.map upd }
    let s1 := { s with canopy := { c1 with ceiling := c1.computed } }
    if c1.computed = c.ceiling then s1 else noteExcursion s1 none c.ceiling c1.computed 1

/-- What a member's heartbeat brings: its announcements, an emergency, and the requests it carries (R427, R428). -/
def takeBeat (s : State) (chip beatTime proposal : Nat) (announces : List (Nat × Nat)) (joins : List Nat) (emergency : Bool) :
    State :=
  let c := s.canopy
  let upd : Member → Member := fun m => if m.chip = chip then m.heard s.clock else m
  let c1 := { c with members := c.members.map upd, carried := c.carried ++ joins.map (fun j => (j, chip)) }
  let woke := c.members.any fun m => m.chip == chip && m.silent && !(m.heard s.clock).silent
  let s1 := { s with canopy := if woke then { c1 with ceiling := c1.computed } else c1 }
  let s2 := announces.foldl (fun s a => addAnnounce s
    { chip := chip, proposal := a.1, time := a.2, due := s.clock + (a.2 - beatTime) * Config.clocksPerUs,
      kind := if a.1 = 0 then .leave else .change }) s1
  -- what a heartbeat proposes with no announcement pending is in force at its sender (log entry 95)
  let settled := !emergency && announces.isEmpty && !s2.canopy.announces.any fun a => a.chip == chip
  let s2 := if settled then takeProposal s2 chip proposal else s2
  let s3 := if emergency then
      addAnnounce (noteExcursion s2 none s2.canopy.ceiling (Nat.min s2.canopy.ceiling (Nat.max 1200 proposal)) 0)
        { chip := chip, proposal := proposal, time := beatTime, due := nextBoundary s2, kind := .emergency }
    else s2
  armSilence s3 chip

/-- A heartbeat arrives (R427). A chip outside the group that requests to join lists itself among the requests it carries;
a joining chip learns the members from their heartbeats. -/
def execCanopyHeartbeatReceive (chip seqNo beatTime proposal : Nat) (announces : List (Nat × Nat)) (joins : List Nat)
    (emergency : Bool) (s : State) : Host.Outcome State Fault Refusal :=
  let _ := seqNo
  let c := s.canopy
  .next (if c.state = 0 || chip = c.chip then s
    else if c.members.any fun m => m.chip == chip then
      let s1 := { s with canopy := { c with offset := (beatTime : Int) - (s.clock / Config.clocksPerUs : Nat) } }
      admissions (takeBeat s1 chip beatTime proposal announces joins emergency)
    else if joins.contains chip then
      { s with canopy := { c with
        requests := if c.requests.contains chip then c.requests else c.requests ++ [chip], asked := mput c.asked chip proposal } }
    else if c.state = 1 then
      let m : Member := { chip := chip, proposal := proposal, lastHeard := s.clock, silent := false, heardRun := 0 }
      let s1 := { s with canopy := { c with
        members := c.members ++ [m], offset := (beatTime : Int) - (s.clock / Config.clocksPerUs : Nat) } }
      admissions (takeBeat s1 chip beatTime proposal announces joins emergency)
    else s)

/-- A member silent for 3 heartbeats: the ceiling becomes 1,200 MHz at once (R427). -/
def execCanopyMemberSilent (chip : Nat) (s : State) : Host.Outcome State Fault Refusal :=
  let c := s.canopy
  .next (match c.members.find? fun m => m.chip == chip with
    | none => s
    | some m =>
      if m.silent || s.clock < m.lastHeard + 3 * beatUs * Config.clocksPerUs then s
      else
        let upd : Member → Member := fun x => if x.chip = chip then { x with silent := true, heardRun := 0 } else x
        noteExcursion { s with canopy := { c with members := c.members.map upd, ceiling := 1200 } } none c.ceiling 1200 0)

/-- A member silent for 1 ms is expelled; the rise of the ceiling follows the raise rule (R427). The event with this chip's own
number says that its group has expelled it, and it is out of the group (R428, log entry 96). -/
def execCanopyMemberExpel (chip : Nat) (s : State) : Host.Outcome State Fault Refusal :=
  let c := s.canopy
  .next (if chip = c.chip && 2 ≤ c.state then leaveGroup s else match c.members.find? fun m => m.chip == chip with
    | none => s
    | some m =>
      if s.clock < m.lastHeard + 1000 * Config.clocksPerUs then s
      else
        let s1 := { s with canopy := { c with
          members := c.members.filter (fun x => x.chip != chip), announces := c.announces.filter fun a => a.chip != chip } }
        announceOwn (memberGone s1 (some chip)) 0 (2 * beatUs) .rise)

/-! ## CNPCTL (R428, R430) -/

/-- A write to CNPCTL. -/
def writeCnpctl (s : State) (value : Word) : State :=
  let v := value.toNat
  let c0 := s.canopy
  let c := if c0.state = 0 then { c0 with chip := bits v 16 12, group := bits v 32 32 } else c0
  let s1 := { s with canopy := c }
  let s2 :=
    if bitOf v 0 && c.state = 0 then
      -- the heartbeats of an earlier membership have ended
      { s1 with canopy := { c with state := 1, since := s.clock, ceiling := 2400 }
                agenda := s1.agenda.filter fun e => e.2 != Instr.canopyHeartbeatSend }.schedule (beatUs * Config.clocksPerUs)
        .canopyHeartbeatSend
    else s1
  if !bitOf v 1 then s2
  else if s2.canopy.state = 1 then leaveGroup s2
  else if s2.canopy.state = 2 then
    announceOwn { s2 with canopy := { s2.canopy with state := 3 } } 0 (cnplead s) .leave
  else s2

def execCanopyJoin (value : Word) (s : State) : Host.Outcome State Fault Refusal := .next (writeCnpctl s (value ||| 1))

def execCanopyLeave (value : Word) (s : State) : Host.Outcome State Fault Refusal := .next (writeCnpctl s (value ||| 2))

/-! ## Instructions (R425) -/

/-- HALT is accepted only at the first clock of a control interval. -/
def execHalt (s : State) : Host.Outcome State Fault Refusal :=
  runInstr .halt s fun e s => if s.clock % Config.clocksPerUs = 0 then e.noResult s else .wait

/-- The ceiling after the next announced change, when one that changes it is pending. -/
def nextCeiling (s : State) : Option Nat :=
  let pend := sortBy (fun a b => decide (a.due ≤ b.due)) (s.canopy.announces.filter fun a => a.kind != .emergency)
  (pend.foldl (fun (x : State × Option Nat) a =>
    let s1 := applyOne x.1 a
    (s1, match x.2 with
      | some n => some n
      | none => if s1.canopy.ceil ≠ s.canopy.ceil then some s1.canopy.ceil else none)) (s, none)).2

/-- The word CLKQ writes (R425). -/
def clkqWord (s : State) (g : Nat) : Word :=
  let x := s.grove g
  let next := nextCeiling s
  w64 (x.limit * 2 ^ 48 + next.getD 0 * 2 ^ 36 + s.canopy.ceil * 2 ^ 24 + x.clock * 2 ^ 12 + b2n (!x.low) * 2 ^ 11 +
    b2n (decide (2 ≤ s.canopy.state)) * 2 ^ 10 + b2n next.isSome * 2 ^ 9)

def execClkq (d : OpCode) (s : State) : Host.Outcome State Fault Refusal :=
  runInstr (.clkq d) s fun e s => e.finish s 4 (e.all d (clkqWord s (groveOf e.w.core)))

/-- A weight-table load as the operand log holds it. -/
def pwOp (addr : Word) : MemOp :=
  { plainOp .pwload with scalar := true, base := addr
                         lanes := [{ lane := 0, addr := addr, width := 128, data := 0, data2 := 0 }] }

/-- A weight table read, for every grove of the die to install at the first boundary after the read completes; the
instruction completes then. -/
def performPwload (s : State) (w : Wave) (op : MemOp) : MemResult :=
  if selector op.base ≠ 0 then .trap .illegalAddress op.base none
  else
    let a := waveActor s w
    -- PIN_LOST is no cause of a power-engine instruction (R426)
    match accessObj s { w with brokenPins := [] } a op.base 128 128 false op with
    | (.error r, _) => r
    | (.ok o, s1) =>
      let bs := readTarget s1 a o.pa 128 o.target
      let read := s1.clock + accessLatency s1 w true false [(o.target, 128)]
      let due := (read / Config.clocksPerUs + 1) * Config.clocksPerUs
      let first := dieOf w.core * Config.grovesPerDie
      let s2 := (List.range Config.grovesPerDie).foldl (fun s k =>
        let x := s.grove (first + k)
        s.setGrove (first + k) { x with newWeights := x.newWeights ++ [(due, bs)] }) s1
      .ok s2 [] (due - s1.clock) 0

def execPwload (a : OpCode) (s : State) : Host.Outcome State Fault Refusal :=
  runInstr (.pwload a) s fun e s =>
    if !((s.launch? e.w.lid).map Launch.wstage).getD false then .raise .privileged
    else memRun e .ls s (pwOp (e.u a)) performPwload

/-! ## Clocks and caps (R420 to R422) -/

/-- The clock of R421 and the LIMIT code of R425, from the rail's limit or boost, the ceiling and the caps. -/
def clockOf (base : Nat) (boosted : Bool) (ceil : Nat) (current thermal : Option Nat) : Nat × Nat :=
  let c := Nat.min (Nat.min base ceil) (Nat.min (current.getD base) (thermal.getD base))
  (c, if !boosted && base = c then 0 else if thermal = some c then 1 else if current = some c then 2
      else if ceil = c then 3 else 4)

/-- The thermal cap over an interval, and whether it falls still (R422). One that falls does so until the temperature is below
THTRIP - 5; from then on it rises, but in an interval at whose end the temperature has reached THTRIP again, which trips it
anew. -/
def nextThermal (trip temp : Nat) (falls : Bool) : Option Nat → Option Nat × Bool
  | none => (none, false)
  | some c =>
    if falls && trip ≤ temp + 5 then (some (Nat.max 400 (c - 200)), true)
    else if trip ≤ temp then (some c, false)
    else (if 2400 ≤ c + 100 then none else some (c + 100), false)

/-- The current cap over an interval (R422), with the count of intervals in which module power stayed below PLIMIT. -/
def nextCurrent (limit power : Nat) (x : Grove) : Option Nat × Nat :=
  let run := if power < limit then x.coolRun + 1 else 0
  let cap := if limit < power then
      (if x.low then x.currentCap else some (Nat.max 400 (x.currentCap.getD x.clock - 100)))
    else match x.currentCap with
      | none => none
      | some c => if run < 8 then some c else if 2400 ≤ c + 100 then none else some (c + 100)
  (cap, run)

/-- Core clocks of a rail switch: 20 ns (R420). -/
def switchClocks : Nat := 40

/-- A grove over a boundary: its rail (R420), its caps (R422), its clock (R421), its current record (R423) and its weight
table (R425). -/
def nextGrove (s : State) (g : Nat) : Grove :=
  let x := s.grove g
  let ctl := grovectl s g
  let lowRun := if !x.low && 4 * x.charge < s.power.budHi then x.lowRun + 1 else 0
  let wantLow := match bits ctl 0 2 with
    | 1 => false
    | 2 => true
    | _ => if x.low then !(decide (s.power.budLo ≤ 2 * x.charge)) else decide (8 ≤ lowRun)
  let rail : Bool × Nat × Nat :=
    if x.switching = 1 then (true, 0, s.clock + switchClocks)
    else if x.low && !wantLow then (false, 2, s.clock + switchClocks)
    else if !x.low && wantLow then (false, 1, x.switchUntil)
    else (x.low, 0, x.switchUntil)
  let low := rail.1
  let boosted := !low && rail.2.1 = 0 && bitOf ctl 2 && decide (4 * x.charge < 3 * groveBudget s x) && decide (x.temp < thwarn s) &&
    decide (10 * s.power.modulePower < 9 * plimit s)
  let base := if low || rail.2.1 ≠ 0 then 1200 else if boosted then 2400 else 2000
  let current := nextCurrent (plimit s) s.power.modulePower x
  let thermal := nextThermal (thtrip s) x.temp x.tripped x.thermalCap
  let (clock, limit) := clockOf base boosted s.canopy.ceil current.1 thermal.1
  let due := x.newWeights.filter fun e => decide (e.1 ≤ s.clock)
  { x with
    low := low, switching := rail.2.1, switchUntil := rail.2.2, clock := clock, limit := limit, lastCharge := x.charge,
    charge := 0, lowRun := if low then 0 else lowRun, thermalCap := thermal.1, tripped := thermal.2, currentCap := current.1, coolRun := current.2
    weights := (due.getLast?.map Prod.snd).getD x.weights, newWeights := x.newWeights.filter fun e => !(decide (e.1 ≤ s.clock)) }

/-- A cap bites at once on a grove (R422), and is a Canopy excursion. -/
def bite (s : State) (g : Nat) (x : Grove) : State :=
  let before := (s.grove g).clock
  excursion (s.setGrove g x) g before x.clock

/-- The thermal cap set when a grove's temperature reaches THTRIP, also while an earlier one recovers (R422). -/
def thermalBite (s : State) (g : Nat) : State :=
  let x := s.grove g
  if x.temp < thtrip s || x.tripped then s
  else
    let cap := Nat.max 400 (x.clock - 200)
    bite s g { x with thermalCap := some cap, tripped := true, clock := Nat.min x.clock cap, limit := 1 }

def execThermalTrip (grove temp : Nat) (s : State) : Host.Outcome State Fault Refusal :=
  .next (if Config.groves ≤ grove then s else thermalBite (s.setGrove grove { s.grove grove with temp := temp }) grove)

/-- A grove's supply current passes its emergency limit (R422). -/
def execCurrentEmergency (grove : Nat) (s : State) : Host.Outcome State Fault Refusal :=
  .next (if Config.groves ≤ grove then s
    else
      let x := s.grove grove
      let clock := Nat.min x.clock 1200
      bite s grove { x with currentCap := some (Nat.min (x.currentCap.getD 1200) 1200), coolRun := 0, clock := clock,
                            limit := if x.clock ≤ 1200 then x.limit else 2 })

/-! ## The control interval (R419 to R423, R425 to R429) -/

/-- Power and temperature readings noted. -/
def noteReadings (s : State) (modulePower : Nat) (temps : List (Nat × Nat)) : State :=
  temps.foldl (fun s e => if e.1 < Config.groves then s.setGrove e.1 { s.grove e.1 with temp := e.2 } else s)
    { s with power := { s.power with modulePower := modulePower } }

/-- The context a power kill takes: the lowest priority, the youngest on a tie, and one of priority 7 only when no other
runs (R429). -/
def powerVictim (s : State) : Option Context :=
  let runs := s.ctxs.filter fun c => s.launches.any fun l => l.inCtx c.fn c.id
  let rank : Context → Nat := fun c => ctxPriority s c.fn c.id
  match runs with
  | [] => none
  | c :: cs =>
    let victim := cs.foldl (fun best x => if rank x ≤ rank best then x else best) c
    if rank victim = 7 && !cs.isEmpty then none else some victim

/-- Over-current (R429): after 10 intervals more than 10 % over PLIMIT, each further one kills a context. -/
def overCurrent (s : State) : State :=
  let excess := decide (11 * plimit s < 10 * s.power.modulePower)
  let run := if excess then s.power.overRun + 1 else 0
  let s1 := { s with power := { s.power with overRun := run } }
  if run ≤ 10 then s1
  else match powerVictim s1 with
    | none => s1
    | some c =>
      kickAll (killContext (s1.setCtx { c with preempt := none, state := if c.state = .preempted then .running else c.state }) c.fn
        c.id Cause.powerKill.code)

/-- A grove without a resident block is gated when its policy permits, and not otherwise (R26, R420). -/
def gateGrove (s : State) (g : Nat) : State :=
  let x := s.grove g
  let resident := s.blocks.any fun b => b.phase == .resident && b.shares.any fun h => groveOf h.core == g
  let gate := bitOf (grovectl s g) 3 && !resident
  if x.gated = gate then s else s.setGrove g { x with gated := gate, portClosed := gate }

/-- The chip's proposal (R427): 2,400 MHz, lowered in steps while a grove is warm. Each step is announced once the step
before it is in effect. -/
def updateProposal (s : State) : State :=
  let c := s.canopy
  let gs := (List.range Config.groves).map s.grove
  let hot := gs.any fun x => decide (thwarn s ≤ x.temp)
  let capped := gs.any fun x => x.thermalCap.isSome || x.currentCap.isSome
  let down := Nat.max 1200 (c.proposal - 200)
  let pending := c.announces.any fun a => a.chip == c.chip && (a.kind == .change || a.kind == .leave)
  if c.state = 0 then s
  else if c.state = 1 then
    { s with canopy := { c with proposal := if hot then down else 2400 } }
  else if pending then s
  else if hot then
    (if 1200 < c.proposal then announceOwn { s with canopy := { c with proposal := down } } down (cnplead s) .change else s)
  else if c.proposal < 2400 && !capped then
    announceOwn { s with canopy := { c with proposal := 2400 } } 2400 (2 * beatUs) .change
  else s

/-- A boundary of the control intervals. Readings that arrive between boundaries are noted only. -/
def execControlInterval (modulePower : Nat) (temps : List (Nat × Nat)) (s : State) : Host.Outcome State Fault Refusal :=
  let s0 := noteReadings s modulePower temps
  let n := s.clock / Config.clocksPerUs
  .next (if s.clock % Config.clocksPerUs ≠ 0 || n ≤ s.power.intervalDone then s0
    else
      let s1 := overCurrent (applyAnnounces { s0 with power := { s0.power with intervalDone := n } })
      let s2 := (List.range Config.groves).foldl (fun s g => s.setGrove g (nextGrove s g)) s1
      let s3 := (List.range Config.groves).foldl thermalBite
        { s2 with power := { s2.power with budHi := gbudhi s2, budLo := gbudlo s2 } }
      updateProposal ((List.range Config.groves).foldl gateGrove s3))

end Sys2Proof.Machine
end

