-- ==== Sys2Proof/Machine/Sign.lean ====
section
/-! DEFINITION. The signature of the health record (R369): the SHA-384 digest of its signed bytes, and ECDSA on curve P-384
over that digest. The constants are those of FIPS 180-4 and FIPS 186-5, which the rule names and does not print (log entry
90). -/

namespace Sys2Proof.Machine

/-! ## SHA-384 -/

/-- The 80 round constants: the first 64 bits of the fractional parts of the cube roots of the first 80 primes. -/
def shaConstants : List Nat :=
  [0x428A2F98D728AE22, 0x7137449123EF65CD, 0xB5C0FBCFEC4D3B2F, 0xE9B5DBA58189DBBC,
   0x3956C25BF348B538, 0x59F111F1B605D019, 0x923F82A4AF194F9B, 0xAB1C5ED5DA6D8118,
   0xD807AA98A3030242, 0x12835B0145706FBE, 0x243185BE4EE4B28C, 0x550C7DC3D5FFB4E2,
   0x72BE5D74F27B896F, 0x80DEB1FE3B1696B1, 0x9BDC06A725C71235, 0xC19BF174CF692694] ++
  [0xE49B69C19EF14AD2, 0xEFBE4786384F25E3, 0x0FC19DC68B8CD5B5, 0x240CA1CC77AC9C65,
   0x2DE92C6F592B0275, 0x4A7484AA6EA6E483, 0x5CB0A9DCBD41FBD4, 0x76F988DA831153B5,
   0x983E5152EE66DFAB, 0xA831C66D2DB43210, 0xB00327C898FB213F, 0xBF597FC7BEEF0EE4,
   0xC6E00BF33DA88FC2, 0xD5A79147930AA725, 0x06CA6351E003826F, 0x142929670A0E6E70] ++
  [0x27B70A8546D22FFC, 0x2E1B21385C26C926, 0x4D2C6DFC5AC42AED, 0x53380D139D95B3DF,
   0x650A73548BAF63DE, 0x766A0ABB3C77B2A8, 0x81C2C92E47EDAEE6, 0x92722C851482353B,
   0xA2BFE8A14CF10364, 0xA81A664BBC423001, 0xC24B8B70D0F89791, 0xC76C51A30654BE30,
   0xD192E819D6EF5218, 0xD69906245565A910, 0xF40E35855771202A, 0x106AA07032BBD1B8] ++
  [0x19A4C116B8D2D0C8, 0x1E376C085141AB53, 0x2748774CDF8EEB99, 0x34B0BCB5E19B48A8,
   0x391C0CB3C5C95A63, 0x4ED8AA4AE3418ACB, 0x5B9CCA4F7763E373, 0x682E6FF3D6B2B8A3,
   0x748F82EE5DEFB2FC, 0x78A5636F43172F60, 0x84C87814A1F0AB72, 0x8CC702081A6439EC,
   0x90BEFFFA23631E28, 0xA4506CEBDE82BDE9, 0xBEF9A3F7B2C67915, 0xC67178F2E372532B] ++
  [0xCA273ECEEA26619C, 0xD186B8C721C0C207, 0xEADA7DD6CDE0EB1E, 0xF57D4F7FEE6ED178,
   0x06F067AA72176FBA, 0x0A637DC5A2C898A6, 0x113F9804BEF90DAE, 0x1B710B35131C471B,
   0x28DB77F523047D84, 0x32CAAB7B40C72493, 0x3C9EBE0A15C9BEBC, 0x431D67C49C100D4C,
   0x4CC5D4BECB3E42B6, 0x597F299CFC657E2A, 0x5FCB6FAB3AD6FAEC, 0x6C44198C4A475817]

/-- The initial value: the first 64 bits of the fractional parts of the square roots of the 9th to 16th primes. -/
def shaInit : List Word :=
  [0xCBBB9D5DC1059ED8, 0x629A292A367CD507, 0x9159015A3070DD17, 0x152FECD8F70E5939,
   0x67332667FFC00B31, 0x8EB44A8768581511, 0xDB0C2E0D64F98FA7, 0x47B5481DBEFA4FA4]

/-- Three rotations, or two and a shift, of a word. -/
def shaMix (x : Word) (a b c : Nat) (shift : Bool) : Word :=
  x.rotateRight a ^^^ x.rotateRight b ^^^ (if shift then x >>> c else x.rotateRight c)

/-- The message schedule, latest word first. -/
def shaSchedule : Nat → List Word → List Word
  | 0, ws => ws
  | n + 1, ws =>
    let w := fun k => ws.getD k 0
    shaSchedule n ((shaMix (w 1) 19 61 6 true + w 6 + shaMix (w 14) 1 8 7 true + w 15) :: ws)

/-- One round, with its constant and its word. -/
def shaRound (v : List Word) (x : Nat × Word) : List Word :=
  match v with
  | [a, b, c, d, e, f, g, h] =>
    let t1 := h + shaMix e 14 18 41 false + ((e &&& f) ^^^ (~~~e &&& g)) + w64 x.1 + x.2
    let t2 := shaMix a 28 34 39 false + ((a &&& b) ^^^ (a &&& c) ^^^ (b &&& c))
    [t1 + t2, a, b, c, d + t1, e, f, g]
  | _ => v

/-- A big-endian number. -/
def beNat (bs : List Byte) : Nat := bs.foldl (fun n b => n * 256 + b.toNat) 0

/-- One block of 128 bytes taken into the hash value. -/
def shaBlock (v : List Word) (block : List Byte) : List Word :=
  let ws := (List.range 16).map fun k => w64 (beNat (slice block (8 * k) 8))
  let words := (shaSchedule 64 ws.reverse).reverse
  ((shaConstants.zip words).foldl shaRound v).zipWith (· + ·) v

/-- The message padded to whole blocks. -/
def shaPad (msg : List Byte) : List Byte :=
  let n := msg.length + 1
  msg ++ [0x80] ++ List.replicate ((112 + 128 - n % 128) % 128) 0 ++ beBytes 16 (8 * msg.length)

/-- SHA-384. -/
def sha384 (msg : List Byte) : List Byte :=
  let bs := shaPad msg
  let v := (List.range (bs.length / 128)).foldl (fun v k => shaBlock v (slice bs (128 * k) 128)) shaInit
  (v.take 6).flatMap fun x => beBytes 8 x.toNat

/-! ## ECDSA on P-384 -/

/-- The field's prime, the order of the base point, and the base point. -/
def p384 : Nat := 2 ^ 384 - 2 ^ 128 - 2 ^ 96 + 2 ^ 32 - 1
def p384Order : Nat := 0xFFFFFFFFFFFFFFFFFFFFFFFFFFFFFFFFFFFFFFFFFFFFFFFFC7634D81F4372DDF581A0DB248B0A77AECEC196ACCC52973
def p384Base : Nat × Nat :=
  (0xAA87CA22BE8B05378EB1C71EF320AD746E1D3B628BA79B9859F741E082542A385502F25DBF55296C3A545E3872760AB7,
   0x3617DE4A96262C6F5D9E98BF9292DC29F8F41DBD289A147CE9DA3113B5F0B8C00A60B1CE1D7E819D7A431D7C90EA0E5F)

/-- A power modulo `m`, of an exponent of so many bits. -/
def powMod (m : Nat) : Nat → Nat → Nat → Nat
  | 0, _, _ => 1
  | n + 1, b, e => let r := powMod m n (b * b % m) (e / 2); if e % 2 = 1 then b * r % m else r

/-- The inverse modulo a prime of 384 bits. -/
def invMod (m x : Nat) : Nat := powMod m 384 (x % m) (m - 2)

/-- The sum of two points of the curve, `none` the point at infinity. -/
def addPoints : Option (Nat × Nat) → Option (Nat × Nat) → Option (Nat × Nat)
  | none, q => q
  | p, none => p
  | some (x1, y1), some (x2, y2) =>
    if x1 = x2 && (y1 + y2) % p384 = 0 then none
    else
      let l := (if x1 = x2 then (3 * x1 * x1 + (p384 - 3)) * invMod p384 (2 * y1)
        else (y2 + (p384 - y1)) * invMod p384 (x2 + (p384 - x1))) % p384
      let x3 := (l * l + (p384 - x1) + (p384 - x2)) % p384
      some (x3, (l * (x1 + (p384 - x3)) + (p384 - y1)) % p384)

/-- A multiple of a point, by a factor of so many bits. -/
def mulPoint : Nat → Nat → Option (Nat × Nat) → Option (Nat × Nat)
  | 0, _, _ => none
  | n + 1, k, p => let r := mulPoint n (k / 2) (addPoints p p); if k % 2 = 1 then addPoints p r else r

/-- The signature of a digest with a key and a secret number; none when r or s would be 0. -/
def ecdsaWith (key k : Nat) (digest : List Byte) : Option (Nat × Nat) :=
  match mulPoint 384 k (some p384Base) with
  | none => none
  | some (x, _) =>
    let r := x % p384Order
    let sig := invMod p384Order k * ((beNat digest + r * key) % p384Order) % p384Order
    if r = 0 || sig = 0 then none else some (r, sig)

/-- The signature of a text (R369), r and s big-endian in 48 bytes each. The key is the module's and the secret number the
signer's choice, drawn again where it gives no signature. -/
def healthSignature (text : List Byte) : List Byte :=
  let key := 1 + Config.moduleKey % (p384Order - 1)
  let tries := (List.range 16).findSome? fun i =>
    ecdsaWith key (1 + Config.signNonce text i % (p384Order - 1)) (sha384 text)
  match tries with
  | some (r, sig) => beBytes 48 r ++ beBytes 48 sig
  | none => List.replicate 96 0

end Sys2Proof.Machine
end

