-- ==== Sys2Proof/Machine/HostSide.lean ====
section
/-! DEFINITION. The host complex and the management controller (R431 to R438): accesses to device memory, the register
windows, the management port, module reset and life-cycle changes, bring-up and the firmware image, and the ECC counts of
the health record (R369). -/

namespace Sys2Proof.Machine

/-! ## Device memory (R105, R126, R432) -/

/-- The virtual address at which a sealed region maps a physical byte. -/
def sealedPhys (s : State) (x : Nat × Nat × Nat) (pa : Nat) : Bool :=
  let first := x.2.1 / 65536
  let count := if x.2.2 = 0 then 0 else (x.2.1 + x.2.2 - 1) / 65536 - first + 1
  (List.range count).any fun k => match (translate s x.1 (65536 * (first + k))).1 with
    | .leaf e =>
      let va := e.vbase + (pa - e.pbase)
      decide (e.pbase ≤ pa) && decide (pa < e.pbase + e.size) && decide (x.2.1 ≤ va) && decide (va < x.2.1 + x.2.2)
    | .absent .. => false

/-- A write of the host or of a PCIe peer by physical address: a sealed region is read-only for every agent (R126), and
reservations on the lines are cleared (R255). -/
def writePhysical (s : State) (addr : Nat) (bytes : List Byte) : State :=
  (List.range bytes.length).foldl (fun s' i =>
    if s.seals.any fun x => sealedPhys s x (addr + i) then s' else writePhys s' (addr + i) [bytes.getD i 0]) s

/-- Some physical bytes lie on a line pinned outside an agent's reach (R119). -/
def pinnedPhys (s : State) (a : Agent) (addr n : Nat) : Bool :=
  s.scopePins.any fun p => !inDomain p a && frameMeets s p.line addr n

/-- A write by physical address that is made, or waits and is repeated while it meets a pinned line (R119). -/
def outsideWrite (s : State) (x : DmaWait) : State :=
  if pinnedPhys s (if x.pcie then .pcie else .host) x.addr x.bytes.length then { s with dmaWaiting := s.dmaWaiting ++ [x] }
  else writePhysical s x.addr x.bytes

/-- The outside writes that wait are tried again, in their order (R119). -/
def retryDma (s : State) : State := s.dmaWaiting.foldl outsideWrite { s with dmaWaiting := [] }

/-- A host core's access to device memory (R105). A load changes nothing. -/
def execHostMemoryAccess (write : Bool) (addr len : Nat) (data : List Byte) (s : State) : Host.Outcome State Fault Refusal :=
  .next (if write && addr + len ≤ 2 ^ 48 then outsideWrite s { pcie := false, addr := addr, bytes := padTo len data } else s)

/-- A PCIe peer's DMA reaches device memory as physical addresses (R432). -/
def execPciePeerDma (write : Bool) (addr len : Nat) (data : List Byte) (s : State) : Host.Outcome State Fault Refusal :=
  .next (if write && addr + len ≤ 2 ^ 48 then outsideWrite s { pcie := true, addr := addr, bytes := padTo len data } else s)

/-! ## ECC corrections (R369) -/

/-- The corrections of a place within 24 hours of now. -/
def recentEcc (s : State) (xs : List (Nat × Nat)) : List (Nat × Nat) := xs.filter fun e => decide (s.clock < e.2 + dayClocks)

/-- An ECC correction of an L2 slice (0 to 319), or of a DRAM row: `place` holds the die, channel, layer and bank in its
bytes 0 to 3, as the health record lays them out. -/
def execEccCorrection (slice : Bool) (place row : Nat) (s : State) : Host.Outcome State Fault Refusal :=
  let m := s.mgmt
  .next (if slice then
    let xs := recentEcc s m.sliceEcc ++ [(place, s.clock)]
    let hit := decide (16 ≤ (xs.filter fun e => e.1 == place).length) && !m.suspectSlices.contains place && decide (place < Config.l2Slices)
    { s with mgmt := { m with sliceEcc := xs, suspectSlices := if hit then m.suspectSlices ++ [place] else m.suspectSlices } }
  else if 128 ≤ m.suspectRows.length then s
  else
    let key := place % 2 ^ 32 + row % 2 ^ 32 * 2 ^ 32
    let xs := recentEcc s m.rowEcc ++ [(key, s.clock)]
    let hit := decide (2 ≤ (xs.filter fun e => e.1 == key).length) && !m.suspectRows.contains key
    { s with mgmt := { m with rowEcc := xs, suspectRows := if hit then m.suspectRows ++ [key] else m.suspectRows } })

/-! ## The health record (R369) -/

/-- Bytes of a bit map. -/
def bitMap (n : Nat) (f : Nat → Bool) : List Byte :=
  (List.range n).map fun k => BitVec.ofNat 8 (sumNat ((List.range 8).map fun j => b2n (f (8 * k + j)) * 2 ^ j))

/-- Bytes 0x000 to 0xF9F of the record, which the signature covers. -/
def healthText (s : State) (seqNo : Nat) : List Byte :=
  let m := s.mgmt
  let cores := List.range Config.cores
  let a := leBytes 4 1 ++ leBytes 4 4096 ++ padTo 16 Config.serialNumber ++ leBytes 8 m.epoch ++ leBytes 8 seqNo ++
    leBytes 8 (epochUs s) ++ leBytes 4 m.threshold ++ leBytes 4 (cores.filter fun c => (s.core c).fenced).length ++
    leBytes 8 m.releasedUnchecked ++ leBytes 8 m.unresolved ++ leBytes 8 m.afterAtomic ++ leBytes 8 m.tiebreaks ++ leBytes 8 0
  let b := bitMap 128 (fun c => (s.core c).fenced) ++
    ((List.range 512).map fun k => BitVec.ofNat 8 ((s.core (2 * k)).demerits + 16 * (s.core (2 * k + 1)).demerits)) ++
    bitMap 64 (fun k => m.suspectSlices.contains k)
  let c := leBytes 4 m.suspectRows.length ++ leBytes 4 0 ++ padTo 1024 (m.suspectRows.flatMap fun r => leBytes 8 r) ++
    leBytes 8 s.canopy.excursions ++ leBytes 8 s.canopy.changes ++ padTo 256 s.canopy.latest.flatten
  padTo 0xF80 (a ++ b ++ c) ++ leBytes 8 Config.keyIdentifier.toNat ++ List.replicate 24 0

/-- The signed record. -/
def healthRecord (s : State) (seqNo : Nat) : List Byte :=
  let text := healthText s seqNo
  text ++ healthSignature text

/-! ## Module reset (R435) -/

/-- Clocks that the DRAM wipe of a life-cycle change takes (R436): 3 s. -/
def wipeClocks : Nat := 3000000 * Config.clocksPerUs
/-- Clocks of verifying, and of writing, an image (log entry 3). -/
def imageClocks : Nat := 1000 * Config.clocksPerUs

/-- IMGSTAT reads 1 or 2. -/
def imageBusy (s : State) : Bool := s.mgmt.imgStat == 1 || s.mgmt.imgStat == 2

/-- The module after a reset: every register at its reset value, the scratchpads, tiles, caches and the weight store zero,
DRAM as it was, and a new epoch. The chip leaves its group silently. What the fabric and the management port have already
been given stays given, and what the outside world does next is its own. An image write under way goes on, and otherwise
IMGSTAT reads 0 (log entry 69). A wipe that is pending begins once the dies are let go (R437). -/
def moduleReset (s : State) : State :=
  let m := s.mgmt
  let r := State.reset
  let s1 : State := { r with
    counter := s.counter, draws := s.draws, inputs := s.inputs, dram := s.dram, haloSent := s.haloSent, linksLost := s.linksLost
    haloAnswers := s.haloAnswers, haloAsked := s.haloAsked, haltRefusals := s.haltRefusals, dmaWaiting := s.dmaWaiting
    canopy := { r.canopy with sent := s.canopy.sent }
    mgmt := { r.mgmt with
      powered := m.powered, bringUp := m.bringUp, imageOk := m.imageOk, slotGood := m.slotGood, life := m.life
      wiping := m.wiping, epoch := m.epoch + 1, imgStat := if imageBusy s then m.imgStat else 0, image := m.image, newImage := m.newImage
      images := m.images, answers := m.answers } }
  let s2 := if m.wiping.isSome && decide (5 ≤ m.bringUp) then s1.schedule wipeClocks .lifecycleWipeComplete else s1
  if imageBusy s then s2.schedule imageClocks .imageWriteComplete else s2

/-! ## The management port (R433, R434, R436) -/

/-- An answer given. -/
def answer (s : State) (a : Answer) : State := { s with mgmt := { s.mgmt with answers := a :: s.mgmt.answers } }

/-- A request other than STATE is served once bring-up has ended; until then it gets a retry response (R437). -/
def serve (s : State) (f : State → State) : State :=
  if !s.mgmt.powered then s else if s.mgmt.bringUp < 6 then answer s .retry else f s

/-- A new record with the next sequence number of the epoch; a retry while a wipe is in progress (R434). -/
def execHealthRequest (s : State) : Host.Outcome State Fault Refusal :=
  .next (serve s fun s =>
    if s.mgmt.wiping.isSome then answer s .retry
    else
      let n := s.mgmt.healthSeq + 1
      answer { s with mgmt := { s.mgmt with healthSeq := n } } (.health (healthRecord s n)))

def execCertRequest (s : State) : Host.Outcome State Fault Refusal :=
  .next (serve s fun s => answer s (.certificate Config.certificateChain))

/-- STATE is answered from step 1 of bring-up on, and reports a failed image check (R437). -/
def execStateRequest (s : State) : Host.Outcome State Fault Refusal :=
  let m := s.mgmt
  .next (if !m.powered then s
    else answer s (.status m.life m.epoch (Config.firmwareVersion m.image) (m.wiping.isSome || decide (m.bringUp < 5)) m.imageOk))

/-- RESET starts a module reset. During the wipe of a life-cycle change it restarts the whole change (R436). -/
def execResetRequest (s : State) : Host.Outcome State Fault Refusal :=
  .next (serve s fun s => moduleReset (answer s .started))

/-- The life-cycle state of a LIFECYCLE request's code: 0 PROVISIONING, 1 DEPLOYED, 2 RETURN. -/
def lifeOf : Nat → Option LifeCycle
  | 0 => some .provisioning | 1 => some .deployed | 2 => some .return_ | _ => none

/-- LIFECYCLE raises the epoch by one, performs a module reset and wipes DRAM (R436). -/
def execLifecycleRequest (state : Nat) (s : State) : Host.Outcome State Fault Refusal :=
  .next (serve s fun s =>
    match lifeOf state with
    | none => answer s .refused
    | some x =>
      if s.mgmt.wiping.isSome then answer s .retry
      else
        let s1 := answer s .started
        moduleReset { s1 with mgmt := { s1.mgmt with wiping := some x, epoch := s1.mgmt.epoch + 1 } })

/-- The wipe ends: every byte of DRAM is zero and the change is complete (R436). It is part of step 4 of bring-up, which a bad
image keeps from beginning (R437). -/
def execLifecycleWipeComplete (s : State) : Host.Outcome State Fault Refusal :=
  .next (match if 5 ≤ s.mgmt.bringUp then s.mgmt.wiping else none with
    | none => s
    | some x => { s with dram := [], l2 := [], l1 := [], mgmt := { s.mgmt with life := x, wiping := none } })

/-- A request outside the table is refused (R433). -/
def execOtherRequest (code : Nat) (s : State) : Host.Outcome State Fault Refusal :=
  let _ := code
  .next (serve s fun s => answer s .refused)

/-! ## Power and the firmware image (R437, R438) -/

/-- Steps 3 and 4 of bring-up: a stored image that passes its check lets the dies go, with the wipes of R435, or of R436
while a life-cycle change is pending. -/
def bringUpDies (s : State) : State :=
  let good := s.mgmt.slotGood
  moduleReset { s with mgmt := { s.mgmt with imageOk := good, bringUp := if good then 5 else 3 } }

/-- Power is applied (R437). -/
def execPowerOn (s : State) : Host.Outcome State Fault Refusal :=
  .next (if s.mgmt.powered then s else bringUpDies { s with mgmt := { s.mgmt with powered := true, bringUp := 1, imgStat := 0 } })

/-- Power is lost: memory and everything in progress goes, and an image write cut short leaves a slot that fails its check
(R438). -/
def execPowerLoss (s : State) : Host.Outcome State Fault Refusal :=
  let m := s.mgmt
  let kept := { m with powered := false, bringUp := 0, slotGood := m.slotGood && m.imgStat != 2, imgStat := 0, newImage := [] }
  .next { State.reset with
    counter := s.counter, draws := s.draws, inputs := s.inputs, haloSent := s.haloSent, linksLost := s.linksLost
    haloAnswers := s.haloAnswers, haloAsked := s.haloAsked, haltRefusals := s.haltRefusals
    canopy := { State.reset.canopy with sent := s.canopy.sent }
    mgmt := kept }

def imgAddrOff : Nat := 0x600
def imgLenOff : Nat := 0x608

/-- IMGCMD: the image is copied from host memory and its check begins (R438). -/
def startImage (s : State) : State :=
  let addr := powerReg s imgAddrOff 0
  let len := powerReg s imgLenOff 0
  let m := s.mgmt
  if imageBusy s then s
  else if len % 4096 ≠ 0 || len < 4096 || 2 ^ 28 < len || 2 ^ 48 < addr + len || !Config.inHostMemory addr len then { s with mgmt := { m with imgStat := 5 } }
  else
    { s with mgmt := { m with imgStat := 1, newImage := Config.hostImage addr len m.images, images := m.images + 1 } }.schedule
      imageClocks .imageWriteComplete

def execImageWrite (s : State) : Host.Outcome State Fault Refusal := .next (startImage s)

/-- A phase of the image write ends: a good image is written over the slot, and then the module is reset and bring-up
starts again at step 3; a bad one leaves the slot unchanged (R438). -/
def execImageWriteComplete (s : State) : Host.Outcome State Fault Refusal :=
  let m := s.mgmt
  .next (if m.imgStat = 1 then
    (if Config.imageSignatureGood m.newImage then
      { s with mgmt := { m with imgStat := 2 } }.schedule imageClocks .imageWriteComplete
     else { s with mgmt := { m with imgStat := 4, newImage := [] } })
  else if m.imgStat = 2 then
    let s1 := bringUpDies { s with mgmt := { m with imgStat := 3, image := m.newImage, newImage := [], slotGood := true } }
    { s1 with mgmt := { s1.mgmt with imgStat := 3 } }
  else s)

/-! ## The register windows (R431) -/

/-- The state an event's meaning answers. -/
def after (s : State) (o : Host.Outcome State Fault Refusal) : State :=
  match o with
  | .next t => t
  | _ => s

/-- A power register written, as its difference from its reset value. -/
def setPowerReg (s : State) (off reset v : Nat) : State :=
  { s with power := { s.power with regs := mset 0 s.power.regs off (w64 (Nat.xor v reset)) } }

/-- A write in the module window (R430, R438). -/
def writeModule (s : State) (off : Nat) (value : Word) : State :=
  let v := value.toNat
  if off = plimitOff then setPowerReg s off 3000 (bits v 0 12)
  else if off = gbudhiOff then setPowerReg s off 20000000 (bits v 0 32)
  else if off = gbudloOff then setPowerReg s off 12000000 (bits v 0 32)
  else if off = thwarnOff then setPowerReg s off 95 (bits v 0 8)
  else if off = thtripOff then setPowerReg s off 105 (bits v 0 8)
  else if grovectlOff 0 ≤ off && off < grovectlOff Config.groves then setPowerReg s off 5 (bits v 0 4)
  else if off = 0x500 then writeCnpctl s value
  else if off = cnpleadOff then setPowerReg s off 200 (bits v 0 14)
  else if off = imgAddrOff then (if imageBusy s then s else setPowerReg s off 0 (bits v 12 36 * 4096))
  else if off = imgLenOff then (if imageBusy s then s else setPowerReg s off 0 (bits v 0 32))
  else if off = 0x610 then (if bitOf v 0 then startImage s else s)
  else s

/-- A write of VFCTL (R387): ENABLE stays 0 until bring-up reaches step 5; enabling functions ends that step (R437). -/
def writeVfctl (s : State) (fn : Nat) (v : Nat) : State :=
  let f := s.func fn
  let on := bitOf v 0 && admissionOpen s
  let s1 := s.setFunc fn { f with enable := on, wsok := bitOf v 1 }
  let s2 := if on && s1.mgmt.bringUp = 5 then { s1 with mgmt := { s1.mgmt with bringUp := 6 } } else s1
  let s3 := if on then (s2.func fn).queues.foldl (fun s e => s.schedule 0 (.packetAdmit fn e.1)) s2 else s2
  if bitOf v 8 then after s3 (execFunctionLevelReset fn s3) else s3

/-- A write in the physical-function window (R387). -/
def writePf (s : State) (off : Nat) (value : Word) : State :=
  let v := value.toNat
  let fn := off / 0x40
  let f := s.func fn
  if off = 0x400 then { s with ageInt := Nat.max 1 (bits v 0 20) }
  else if 16 ≤ fn then s
  else if off % 0x40 = 0 then writeVfctl s fn v
  else if off % 0x40 = 8 then
    (if f.enable then s else s.setFunc fn { f with asidFirst := bits v 0 16, asidCount := bits v 16 16 })
  else s

/-- A size register that takes powers of two of a range; any other value is stored as 0 (R385, R412). -/
def powerSize (lo hi x : Nat) : Nat := if (List.range 21).any fun k => decide (lo ≤ 2 ^ k) && decide (2 ^ k ≤ hi) && 2 ^ k == x then x else 0

/-- A plain register of a function window. -/
def setReg (s : State) (fn off v : Nat) : State :=
  let f := s.func fn
  s.setFunc fn { f with regs := mset 0 f.regs off (w64 v) }

/-- CTXCMD (R387). -/
def ctxCommand (s : State) (fn v : Nat) : State :=
  let ctx := bits v 0 4
  match bits v 8 2 with
  | 0 => after s (execCtxCreate fn ctx s)
  | 1 => after s (execCtxDestroy fn ctx s)
  | 2 => after s (execCtxReset fn ctx s)
  | _ => after s (execCtxPreempt fn ctx (bits v 12 3) s)

/-- CAPCMD (R418). -/
def capCommand (s : State) (fn v : Nat) : State :=
  let ctx := bits v 0 4
  match bits v 8 2 with
  | 0 => after s (execCaptureStart fn ctx s)
  | 1 => after s (execCaptureStop fn s)
  | 2 => after s (execReplayStart fn ctx s)
  | _ => after s (execCaptureAbort fn s)

/-- HWCTL (R311). ERR tells of the last write that enabled: one with ENABLE 0 leaves it. -/
def writeHwctl (s : State) (fn : Nat) (value : Word) : State :=
  let h := selectedWindow s fn
  if bitOf value.toNat 63 then after s (execHaloWindowEnable fn value s)
  else if h.enabled then after s (execHaloWindowDisable fn s)
  else setWindow s fn { h with ctx := bits value.toNat 0 4, owner := fn }

/-- A write of a queue's registers (R387). -/
def writeQueueReg (s : State) (fn q reg : Nat) (value : Word) : State :=
  let x := mget emptyQueue (s.func fn).queues q
  match reg with
  | 0 => if x.enabled then s else setQueueReg s fn q { x with base := w64 (bits value.toNat 12 40 * 4096) }
  | 8 => writeQctl s fn q value
  | 0x18 => after s (execQwidxWrite fn q value s)
  | _ => s

/-- A write in a function window (R311, R385, R387, R412, R418). DESIGN CHOICE (log entry 91): a write to TLBINVC with the
extent code 3, of which R385 says nothing, is ignored. -/
def writeFn (s : State) (fn off : Nat) (value : Word) : State :=
  let v := value.toNat
  let h := selectedWindow s fn
  let f := s.func fn
  let free := !h.enabled
  if 0x1000 ≤ off && off < 0x1800 then writeQueueReg s fn ((off - 0x1000) / 0x20) ((off - 0x1000) % 0x20) value
  else if 0x260 ≤ off && off < 0x2E0 then
    let k := (off - 0x260) / 0x10
    (if off % 0x10 = 0 then
      let x := mget { addr := 0, ctl := 0 } f.watches k
      s.setFunc fn { f with watches := mset { addr := 0, ctl := 0 } f.watches k { x with addr := value } }
     else writeWpctl s fn k value)
  else match off with
    | 0x00 => setReg s fn off (bits v 12 36 * 4096)
    | 0x08 => flushWaiting (setReg s fn off (powerSize 64 65536 (bits v 0 17))) fn
    | 0x18 => after s (execFqheadWrite fn value s)
    | 0x20 => if bitOf v 32 then after s (execFqrespRefuse fn (bits v 0 32) s) else after s (execFqrespReplay fn (bits v 0 32) s)
    | 0x28 => setReg s fn off (bits v 0 52)
    | 0x30 => (match bits v 16 2 with
      | 0 => after s (execTlbinvRange fn (bits v 0 16) s)
      | 1 => after s (execTlbinvAsid fn (bits v 0 16) s)
      | 2 => after s (execTlbinvFunction fn (bits v 0 16) s)
      | _ => s)
    | 0x40 => setReg s fn off (bits v 0 52)
    | 0x48 => startMapChange s fn (bits v 0 16) (bitOf v 16)
    | 0x58 => after s (execMapdone fn s)
    | 0x100 => setReg s fn off (bits v 6 42 * 64)
    | 0x108 => ctxCommand s fn v
    | 0x118 => after s (execPreemptevClear fn value s)
    | 0x200 => writeTrctl s fn value
    | 0x208 => setReg s fn off (bits v 12 36 * 4096)
    | 0x210 => returnSpace (setReg s fn off (powerSize 256 (2 ^ 20) (bits v 0 21))) fn
    | 0x220 => writeTrrd s fn value
    | 0x230 => setReg s fn off (bits v 12 36 * 4096)
    | 0x238 => setReg s fn off (powerSize 64 65536 (bits v 0 17))
    | 0x248 => s.setFunc fn { f with prRd := bits v 0 32 }
    | 0x250 => writeProfctl s fn value
    | 0x2F0 => traceStops s fn (bits v 0 4) (bitOf v 8)
    | 0x300 => setReg s fn off (bits v 16 32 * 65536)
    | 0x308 => setReg s fn off (bits v 16 32 * 65536)
    | 0x310 => capCommand s fn v
    | 0x340 => s.setFunc fn { f with haloSel := bits v 0 8 }
    | 0x348 => if free then setWindow s fn { h with base := bits v 6 46 * 64, owner := fn } else s
    | 0x350 => if free then setWindow s fn { h with len := bits v 6 35 * 64, owner := fn } else s
    | 0x358 => writeHwctl s fn value
    | _ => s

/-! ## What the windows read as (R431) -/

/-- A register of the module window as it reads (R430, R438). -/
def readModule (s : State) (off : Nat) : Nat :=
  let c := s.canopy
  if off = plimitOff then powerReg s off 3000
  else if off = gbudhiOff then powerReg s off 20000000
  else if off = gbudloOff then powerReg s off 12000000
  else if off = thwarnOff then powerReg s off 95
  else if off = thtripOff then powerReg s off 105
  else if grovectlOff 0 ≤ off && off < grovectlOff Config.groves then powerReg s off 5
  else if off = 0x500 then c.group * 2 ^ 32 + c.chip * 2 ^ 16 + 2 * b2n (c.state == 3) + b2n (c.state == 1)
  else if off = 0x508 then
    -- a chip alone reads the whole register as zero, its reset value (R430, log entry 97)
    if c.state = 0 then 0
    else c.ceil * 2 ^ 36 + (c.members.length + b2n (decide (2 ≤ c.state))) * 2 ^ 16 + c.state
  else if off = cnpleadOff then powerReg s off 200
  else if off = imgAddrOff || off = imgLenOff then powerReg s off 0
  else if off = 0x618 then s.mgmt.imgStat + 256 * b2n s.mgmt.imageOk
  else 0

/-- A register of the physical-function window as it reads (R387). -/
def readPf (s : State) (off : Nat) : Nat :=
  let f := s.func (off / 0x40)
  if off = 0x400 then s.ageInt
  else if 0x400 < off then 0
  else match off % 0x40 with
    | 0 => b2n f.enable + 2 * b2n f.wsok + 256 * b2n f.flr
    | 8 => f.asidFirst + 65536 * f.asidCount
    | 0x10 => f.flrPhase + 65536 * taggedRequests s (off / 0x40)
    | _ => 0

/-- Two bits of CTXSTAT (R387). -/
def ctxCode (s : State) (fn ctx : Nat) : Nat :=
  match (s.ctx? fn ctx).map Context.state with
  | none => 0
  | some .running | some .closing => 1
  | some .errored => 2
  | some .preempted => 3

/-- A register of a function window as it reads (R311, R385, R387, R412, R418). -/
def readFn (s : State) (fn off : Nat) : Nat :=
  let f := s.func fn
  let h := selectedWindow s fn
  let other := h.enabled && h.owner != fn
  if 0x1000 ≤ off && off < 0x1800 then
    let x := mget emptyQueue f.queues ((off - 0x1000) / 0x20)
    match (off - 0x1000) % 0x20 with
    | 0 => x.base.toNat | 8 => x.ctl.toNat | 0x10 => x.read | _ => 0
  else if 0x260 ≤ off && off < 0x2E0 then
    let x := mget { addr := 0, ctl := 0 } f.watches ((off - 0x260) / 0x10)
    if off % 0x10 = 0 then x.addr.toNat else x.ctl.toNat
  else match off with
    | 0x10 => f.faultTail | 0x18 => f.faultHead | 0x38 => b2n f.invalidating
    | 0x50 => (if f.mapStat = 5 then 1 else f.mapStat) + f.mapPinned * 2 ^ 32
    | 0x110 => sumNat ((List.range 16).map fun c => ctxCode s fn c * 4 ^ c) + f.lastCause * 2 ^ 32
    | 0x118 => f.preemptEv | 0x200 => f.trctl | 0x218 => f.trWr | 0x220 => f.trRd | 0x228 => f.trLost | 0x240 => f.prWr
    | 0x248 => f.prRd | 0x258 => f.prLost | 0x318 => f.capture.state + f.capture.records * 2 ^ 32 | 0x340 => f.haloSel
    | 0x348 => if other then 0 else h.base
    | 0x350 => if other then 0 else h.len
    | 0x358 => if other then 2 ^ 62
               else b2n h.enabled * 2 ^ 63 + b2n (f.haloErr.contains f.haloSel) * 2 ^ 61 + h.ctx
    | 0x00 | 0x08 | 0x28 | 0x40 | 0x100 | 0x208 | 0x210 | 0x230 | 0x238 | 0x250 | 0x300 | 0x308 => f.reg off
    | _ => 0

/-- What a host's read of a register window returns (R431): zero for one that is misaligned, narrower or unmapped. -/
def readRegister (s : State) (window fn off size : Nat) : Word :=
  if size ≠ 8 || off % 8 ≠ 0 then 0
  else match window with
    | 0 => w64 (readModule s off)
    | 1 => w64 (readPf s off)
    | 2 => if fn < 16 then w64 (readFn s fn off) else 0
    | _ => 0

/-- A host write to a register window (R431): 0 the module window, 1 the physical-function window, 2 the window of a
function. A misaligned or narrower write, and one to an offset without a register, is ignored. -/
def execRegisterWrite (window fn off size : Nat) (value : Word) (s : State) : Host.Outcome State Fault Refusal :=
  .next (if size ≠ 8 || off % 8 ≠ 0 then s
    else match window with
      | 0 => writeModule s off value
      | 1 => writePf s off value
      | 2 => if fn < 16 then writeFn s fn off value else s
      | _ => s)

end Sys2Proof.Machine
end

