-- ==== Sys2Proof/Machine/Complete.lean ====
section
/-! DEFINITION. The end of an instruction (R38, R134, R135), the replay of the operand log (R50), the end of a wave and of
its block (R36, R352), halt requests (R47), and the refresh of the weight store (R222). -/

namespace Sys2Proof.Machine

/-! ## Completion (R38, R134, R135) -/

/-- What a completed instruction gives its wave besides its registers: its words of SS, a format state, the end of an
acquire or fence, and its path when that was held. -/
def noteComplete (w : Wave) (c : Completion) : Wave :=
  { (w.unhold c.seqNo) with
    ownSS := w.ownSS + c.ss
    fmt := match c.fmt with
      | some bs => some bs
      | none => w.fmt
    fences := w.fences.filter fun f => f.seqNo != c.seqNo }

/-- The completions of `w` that `w1` no longer has pending. -/
def endedIn (w w1 : Wave) : List Completion := w.pending.filter fun c => !w1.pending.any fun d => d.seqNo == c.seqNo

/-- A wave whose instruction's data has returned. -/
def Wave.completed (w : Wave) (seqNo : Nat) : Wave :=
  let w1 := w.returned seqNo none
  (endedIn w w1).foldl noteComplete w1

/-- An instruction completes: its results are written and its flag is lowered, unless an earlier instruction is still to
write one of its registers (R135). -/
def execInstructionComplete (uid seqNo : Nat) (s : State) : Host.Outcome State Fault Refusal :=
  .next (settleFences (s.modAny uid fun w => w.completed seqNo) uid)

/-! ## The operand log (R50) -/

/-- An entry leaves the log; one that waited for its place takes it, and its fault is queued. -/
def dropLog (s : State) (uid seqNo : Nat) : State :=
  match s.anyWave? uid with
  | none => s
  | some w =>
    let s1 := s.modAny uid fun x => { x.accepted (.entry seqNo) with log := x.log.filter fun l => l.seqNo != seqNo }
    match w.log[logPlaces]? with
    | some l => if l.seqNo = seqNo then s1 else s1.schedule 0 (.operandLogReplay uid l.seqNo)
    | none => s1

/-- A logged instruction performed: its values are known, and it completes after its latency. -/
def replayDone (s : State) (uid : Nat) (e : LogEntry) (writes : List RegWrite) (lat ss : Nat) : State :=
  ((dropLog s uid e.seqNo).modAny uid fun w => w.fill e.seqNo writes ss).schedule lat
    (.instructionComplete uid e.seqNo)

/-- The entry keeps its place with what is left to perform. -/
def keepLog (s : State) (uid : Nat) (e : LogEntry) (rest : MemOp) : State :=
  s.modAny uid fun w => { w with log := w.log.map fun l => if l.seqNo == e.seqNo then { l with op := rest } else l }

/-- What a replay comes to: a page fault again keeps the entry and queues a new fault; any other cause errors the
context; an access that is refused for a while is tried again. -/
def replayOutcome (s : State) (w : Wave) (e : LogEntry) : MemResult → State
  | .ok s1 writes lat ss => replayDone s1 w.uid e writes lat ss
  | .trap c _ _ => waveError (dropLog s w.uid e.seqNo) w e.bundle c
  | .stop s1 x rest =>
    match x with
    | .fault f =>
      if f.cause.delivery = .pageFault then postLogged (keepLog s1 w.uid e rest) w e.seqNo e.path f
      else waveError (dropLog s1 w.uid e.seqNo) w e.bundle f.cause
    | .noRoom line => (holdRefused s w line (.entry e.seqNo)).schedule 1 (.operandLogReplay w.uid e.seqNo)
    | .noLog => (logRefused s w (.entry e.seqNo)).schedule 1 (.operandLogReplay w.uid e.seqNo)
    | .blocked asid page => (blockPage s asid page).schedule 1 (.operandLogReplay w.uid e.seqNo)
    | .frozen | .pinned => s.schedule 1 (.operandLogReplay w.uid e.seqNo)

/-- The SETF of a pending instruction. -/
def setfOf (w : Wave) (seqNo : Nat) : Nat := ((w.pending.find? fun c => c.seqNo == seqNo).map Completion.setf).getD 0

/-- An atomic replayed: its checks again, and its request (R50, R242). -/
def replayAtomic (s : State) (w : Wave) (e : LogEntry) : State :=
  match firstFailure (laneChecks s w e.op.form (atomicAlign e.op) true) e.op.lanes with
  | some f => waveError (dropLog s w.uid e.seqNo) w e.bundle f.1
  | none =>
    match xlateLanes s w (committedActor s w) e.op.form .write e.op.lanes with
    | (.error x, s1) => replayOutcome s w e (.stop s1 x e.op)
    | (.ok ts, s1) =>
      match atomicLate s1 w e.op with
      | some f => waveError (dropLog s1 w.uid e.seqNo) w e.bundle f.1
      | none =>
        let fresh := e.op.vals.isEmpty
        if fresh && !logRoom s1 w (ts.filter fun x => x.2.1.isGlobal).length then
          (logRefused s1 w (.entry e.seqNo)).schedule 1 (.operandLogReplay w.uid e.seqNo)
        else
          let n := logNexts s1 w (e.op.lanes.map fun l => logLane e.op.scalar e.op.mask l.lane)
          let op := if fresh then { e.op with vals := n.1.map w64 } else e.op
          let s2 := if fresh then n.2 else s1
          sendAtomic (dropLog s2 w.uid e.seqNo) w (setfOf w e.seqNo) (atomicLatency s w e.op) { e with op := op }

/-- A synchronisation instruction replayed: it is performed at its object's home, and a wait parks its path there, its
result's place in the order of results held (R135). -/
def replaySync (s : State) (w : Wave) (e : LogEntry) : State :=
  match performSync s w e.op e.bundle with
  | .done s1 writes lat ss =>
    let s2 := replayDone s1 w.uid e writes lat ss
    if e.op.kind.waits then acquireUntil s2 w.uid e.seqNo else s2
  | .park s1 mk ss =>
    let parked : Path → Path := fun p =>
      if p.park == .hold e.seqNo then parkedAt e.bundle e.slot (mk e.seqNo s1.counter) p else p
    (dropLog { s1 with counter := s1.counter + 1 } w.uid e.seqNo).modAny w.uid fun x =>
      (x.fill e.seqNo (opKeys e.op) ss).mapPaths parked
  | .stop r => replayOutcome s w e r

/-- A command replayed: read, checked and put into its channel (R296). -/
def replayCommand (s : State) (w : Wave) (e : LogEntry) : State :=
  match commandTry s w e.op with
  | .trap c _ _ => waveError (dropLog s w.uid e.seqNo) w e.bundle c
  | .stop s1 x => replayOutcome s w e (.stop s1 x e.op)
  | .ready s1 x chan =>
    let writes := destAll e.op.dest e.op.mask 0
    let point : IssuePoint := { x.issuedAt with bundle := e.bundle, slot := e.slot, word := e.word, logged := true }
    queueCommand ((dropLog s1 w.uid e.seqNo).modAny w.uid fun y => y.fill e.seqNo writes 0) w.core chan
      { x with issuedAt := point } e.seqNo

/-- An ARM replayed: it waits for its record's place as at its issue (R306). -/
def replayArm (s : State) (w : Wave) (e : LogEntry) : State :=
  if armWaits s w e.op.arg then s.schedule 1 (.operandLogReplay w.uid e.seqNo) else replayOutcome s w e (performArm s w e.op)

/-- An MFMT replayed: the block is read and checked, and becomes the format state when it completes (R274). -/
def replayFmt (s : State) (w : Wave) (e : LogEntry) : State :=
  match readFmt s w e.op with
  | (.error r, _) => replayOutcome s w e r
  | (.ok (bs, lat), s1) =>
    let upd : Completion → Completion := fun c => if c.seqNo = e.seqNo then { c with fmt := some bs } else c
    replayOutcome (s1.modAny w.uid fun x => { x with pending := x.pending.map upd }) w e
      (.ok (s1.modAny w.uid fun x => { x with pending := x.pending.map upd }) [] lat 0)

/-- A MACCLD replayed; its tile is loaded, and later groups on it may start (R289). -/
def replayTileLoad (s : State) (w : Wave) (e : LogEntry) : State :=
  match performLoad s w e.op with
  | .ok s1 writes lat ss =>
    let c := s1.core w.core
    let s2 := s1.setCore w.core { c with tileOps := c.tileOps.filter fun t => !(t.uid == w.uid && t.entry.seqNo == e.seqNo) }
    (replayDone s2 w.uid e writes lat ss).schedule 0 (.matrixGroupStart w.core)
  | r => replayOutcome s w e r

/-- A logged instruction performed again from the values the log holds. -/
def replayEntry (s : State) (w : Wave) (e : LogEntry) : State :=
  match e.op.kind with
  | .load | .loadPair | .store | .storePair => replayOutcome s w e (performMixed s w e.op)
  | .expandLoad | .compressStore | .cinv | .cwb => replayOutcome s w e (performLanes s w e.op)
  | .loadAcquire => replayOutcome s w e (performAcquire s w e.op)
  | .storeRelease => replayOutcome s w e (performRelease s w e.op)
  | .tileLoad | .tileStore => replayOutcome s w e (performTile s w e.op)
  | .pin => replayOutcome s w e (performPin s w e.op)
  | .arm => replayArm s w e
  | .pwload => replayOutcome s w e (performPwload s w e.op)
  | .mdrain => replayOutcome s w e (performDrain s w e.op)
  | .maccld => replayTileLoad s w e
  | .mfmt => replayFmt s w e
  | .command | .haloCommand => replayCommand s w e
  | .atomic _ | .lres | .scond => replayAtomic s w e
  | .arrive | .waitb | .arrwait | .signal | .sigwait | .bind | .unbind => replaySync s w e

/-- An entry of the operand log is replayed once the host has resolved its fault (R50). `entry` is the sequence number of
the logged instruction. -/
def execOperandLogReplay (uid entry : Nat) (s : State) : Host.Outcome State Fault Refusal :=
  .next (match s.anyWave? uid with
  | none => s
  | some w =>
    match w.log.find? fun e => e.seqNo == entry with
    | none => s
    | some e => settleFences (replayEntry s w e) uid)

/-! ## The end of a wave (R36) -/

/-- The wave's outstanding stores and copies have drained (R36, R151), but for what `skip` names. A wave of an unchecked run
waits for everything it has outstanding, since its registers count in its signature (R358). -/
def drainedBut (s : State) (w : Wave) (skip : List Nat) : Bool :=
  (if uncheckedRun s w then w.pending.all fun c => skip.contains c.seqNo else w.pending.all fun c => !c.store || c.returned) &&
    w.log.isEmpty && (waveCommands s w).isEmpty

/-- The wave's outstanding stores and copies have drained (R36). -/
def drained (s : State) (w : Wave) : Bool := drainedBut s w []

/-- Every wave of a block's run has left (R36, R352, R353): an unchecked original waits for its shadow, a shadow or tiebreak
for the vote, and any other block is done. -/
def blockEnd (s : State) (b : Block) : State :=
  if !b.unchecked || b.run == .plain then finishBlock s b.lid b.bid true
  else
    let s1 := { purgeRuns s (fun lid bid run => lid == b.lid && bid == b.bid && run == b.run) with heldSectors := s.heldSectors }
    match b.run with
    | .original => kickAll (s1.setBlock { b with phase := .awaitingShadow })
    | _ => kickAll ((s1.setBlock { b with phase := .done }).schedule 0 (.checkVote b.lid b.bid))

/-- A wave that has left and drained counts in its block: its part of RS is added, and the last one ends the block (R358), once
the engines' arrivals for it are made (R284). -/
def countOut (s : State) (w : Wave) : State :=
  match s.waveBlock w with
  | none => s
  | some b =>
    let b1 := { b with rs := b.rs + (if b.unchecked then w64 (rsOf s w) else 0), wavesLeft := b.wavesLeft - 1 }
    let s1 := s.setBlock b1
    if b1.wavesLeft = 0 && !stageOwed s1 b.lid b.bid b.run then blockEnd s1 b1 else s1

/-- A wave leaves its partition: its open tasks are closed, its quads dissolved, its armed records cancelled, its
narrow-scope pins ended, and every set it was in loses it (R36, R118, R270, R309, R339). -/
def vacate (s : State) (w : Wave) : State :=
  let s1 := cancelArms (dissolveAll (closeAll s w) w) w
  let s2 := endScopePins { s1 with waves := s1.waves.filter fun x => x.uid != w.uid } fun p => p.uid == w.uid
  let s3 := w.sets.foldl (fun s x => match s.waveBlock w with
    | some b => recheckSet s b x.1
    | none => s) s2
  kickAll s3

/-- A wave whose last path has ended leaves (R36): after EXIT once it has drained, after TAIL at once, by way of the
retirement tracker. What an unchecked run's wave has in partial groups does not keep it: it leaves its quads first (R270). -/
def leaveWave (s : State) (uid : Nat) : State :=
  match s.wave? uid with
  | none => s
  | some w =>
    match w.leaving with
    | none => s
    | some true =>
      if drained s w then
        let s1 := vacate s w
        countOut s1 w
      else if drainedBut s w (partialSeqs s w) then dissolveAll s w
      else s
    | some false =>
      let s1 := vacate s w
      let c := s1.core w.core
      let n := c.tracker.length
      (s1.setCore w.core { c with tracker := c.tracker ++ [{ wave := w }] }).schedule 0 (.trackerDrain w.core n)

/-- An entry of a retirement tracker is freed once its wave's stores and copies have drained (R36). -/
def execTrackerDrain (core entry : Nat) (s : State) : Host.Outcome State Fault Refusal :=
  .next (
    let c := s.core core
    match c.tracker[entry]? with
    | none => s
    | some t =>
      if drained s t.wave then
        countOut (s.setCore core { c with tracker := c.tracker.eraseIdx entry }) t.wave
      else s)

/-! ## Halt requests (R47) -/

/-- A halt request of the host or a debugger: refused, and reported so, when the context names no handler. -/
def execHaltRequest (uid : Nat) (s : State) : Host.Outcome State Fault Refusal :=
  .next (match s.wave? uid with
  | none => s
  | some w =>
    match s.waveCtx w with
    | none => s
    | some c =>
      if c.handler = 0 then { s with haltRefusals := uid :: s.haltRefusals }
      else s.modWave uid fun x => { x with haltPending := true })

/-- The halt is delivered as a trap before the path's next instruction; inside a handler it is held until the TRET. -/
def execHaltTrapDelivery (uid path : Nat) (s : State) : Host.Outcome State Fault Refusal :=
  .next (match s.wave? uid with
  | none => s
  | some w => if w.haltPending && w.held.isNone then haltTrap s w path else s)

/-! ## The weight store's refresh (R222) -/

/-- The bank group whose refresh window is open at a clock. -/
def refreshGroup (clock : Nat) : Option Nat :=
  let t := clock % (64 * Config.clocksPerUs)
  if t % (4 * Config.clocksPerUs) < 2 * Config.clocksPerUs then some (t / (4 * Config.clocksPerUs)) else none

/-- A refresh window opens or closes. Reads that reach its group meanwhile wait until it closes. -/
def execWeightStoreRefresh (s : State) : Host.Outcome State Fault Refusal :=
  .next { s with wsRefresh := refreshGroup s.clock }

end Sys2Proof.Machine
end

