-- ==== Sys2Proof/Machine/Sched.lean ====
section
/-! DEFINITION. The sequencer's clock (R30, R54 to R59, R131 to R140): fetching a bundle, what keeps a path from issuing, the
order among paths, repeats, starvation, and the end of a clock with its histograms (R405). -/

namespace Sys2Proof.Machine

/-! ## Bundles (R54 to R59) -/

/-- The four words of a bundle's 16 bytes (R54). -/
def bundleWords (bs : List Byte) : List Word32 := (List.range 4).map fun k => BitVec.ofNat 32 (field bs (4 * k) 4)

/-- A bundle fetched for a wave. -/
inductive Fetch where
  | words (ws : List Word32)
  | fault (x : XFault)
  | frozen
  deriving DecidableEq, Repr

/-- The bundle at an address as the core fetches it: an access of the wave's ASID that needs execute permission (R54,
R377). Of an address with bits 63:52 set, which R144 refuses to JMPI, CALL and CALLI alone and which a branch or the
next bundle may still reach, the low 52 bits are fetched (DESIGN CHOICE, log entry 80). -/
def fetchBundle (s : State) (w : Wave) (pc : Word) : Fetch × State :=
  let a := waveActor s w
  let va := pc.toNat % 2 ^ 52
  match xlate s a va 16 .fetch with
  | (.frozen, s1) | (.blocked _, s1) => (.frozen, s1)
  | (.fault x, s1) => (.fault x, s1)
  | (.ok pa _, s1) => (.words (bundleWords (taggedBytes s1 a.asid va pa 16)), s1)

/-- Word `k` of a bundle: 0 the schedule word, 1 to 3 the slots. -/
def slotWord (ws : List Word32) (k : Nat) : Word32 := ws.getD k 0
/-- The control of slot `k` (R55). -/
def slotCtl (ws : List Word32) (k : Nat) : Nat := if 1 ≤ k && k ≤ 3 then bits (slotWord ws 0).toNat (18 - 6 * k) 6 else 0
/-- The WAIT field of a bundle (R55). -/
def waitMask (ws : List Word32) : Nat := bits (slotWord ws 0).toNat 20 12

/-- The slot that holds a literal, if any (R59). -/
def literalSlot (ws : List Word32) : Option Nat :=
  if wordTakesLiteral (slotWord ws 1) then some 2 else if wordTakesLiteral (slotWord ws 2) then some 3 else none

/-- The slots after one that may hold a further instruction: its literal is passed over. -/
def laterSlots (ws : List Word32) (slot : Nat) : List Nat :=
  let first := if wordTakesLiteral (slotWord ws slot) then slot + 2 else slot + 1
  [1, 2, 3].filter fun k => decide (first ≤ k)

/-- The path's next instruction repeats (R146). -/
def repeats (w : Wave) (place : Nat) : Bool := w.rep.valid && w.rep.path == place

/-- The issue record of the instruction a path stands at (R55 to R59, R146). -/
def issueOf (w : Wave) (place : Nat) (p : Path) (ws : List Word32) : Issue :=
  let again := repeats w place
  let isLast := (laterSlots ws p.slot).all fun k => slotWord ws k == 0
  { uid := w.uid, place := place, bundle := p.pc, slot := p.slot
    word := if again then steppedWord w.rep.stride w.rep.next (slotWord ws p.slot) else slotWord ws p.slot
    literal := slotWord ws (p.slot + 1), setf := slotCtl ws p.slot % 16, stall := slotCtl ws p.slot / 16
    laterUsed := [1, 2, 3].any fun k => decide (p.slot < k) && (slotWord ws k != 0 || slotCtl ws k != 0)
    literalCtl := slotCtl ws (p.slot + 1) != 0
    nextWord := if again then slotWord ws p.slot else slotWord ws (p.slot + 1)
    yieldBit := (bitOf (slotWord ws 0).toNat 19 || p.yieldPending) && isLast
    isLast := isLast
    skipYield := (bitOf (slotWord ws 0).toNat 19 || p.yieldPending) &&
      (laterSlots ws (p.slot + 1)).all fun k => slotWord ws k == 0
    iteration := if again then some w.rep.next else none }

/-! ## What a path would do next (R133) -/

/-- What a path would do next. -/
inductive Look where
  /-- it issues nothing now -/
  | blocked
  /-- its bundle cannot be fetched (R377) -/
  | fetchFault (x : XFault)
  /-- a cause raised before a slot issues: the slot it is tied to, and the address (R56, R59, R246) -/
  | bundleTrap (c : Cause) (slot : Nat) (addr : Word)
  /-- a NOP, which uses no clock (R134) -/
  | nop (ws : List Word32)
  /-- its next instruction is eligible (R133) -/
  | ready (ws : List Word32)
  deriving DecidableEq, Repr

/-- Condition 2 of R133, with the STALL of NOPs passed since (R134). -/
def farEnough (s : State) (p : Path) (stall : Nat) : Bool :=
  !p.issued || decide (p.lastIssue + 1 + b2n p.taken + stall + p.nopStall ≤ s.clock)

/-- Condition 3 of R133: a bundle's WAIT holds its first non-NOP slot. -/
def waitHolds (w : Wave) (p : Path) (ws : List Word32) : Bool := !p.fresh || w.flagsAtMost 0 (waitMask ws)

/-- Condition 6 of R133, and a grove between rails, which issues nothing (R25, R420, R423). -/
def powerAllows (s : State) (w : Wave) (op : Nat) : Bool :=
  let g := s.grove (groveOf w.core)
  decide (g.switchUntil ≤ s.clock) && (weightOf g op == 0 || decide (g.charge < groveBudget s g))

/-- The power engine takes a HALT only at the first clock of a control interval (R425). -/
def haltWaits (s : State) (op : Nat) : Bool := op == 0xE0 && s.clock % Config.clocksPerUs != 0

/-- A repeat waits while an iteration of it is in the operand log (R146). -/
def repLogged (w : Wave) (place : Nat) : Bool := repeats w place && w.log.any fun l => l.rep && l.place == place

/-- The pipe of an opcode takes an instruction at this clock (R131). `atStart`: it did when the clock began. -/
def pipeFree (s : State) (pt : Part) (op : Nat) (atStart : Bool) : Bool :=
  if pipeA op then (atStart && pt.aUsed) || decide (pt.aBusy ≤ s.clock)
  else (atStart && pt.bUsed) || decide (pt.bBusy ≤ s.clock)

/-- The OP byte of a word. -/
def opOf (word : Word32) : Nat := (word.extractLsb' 24 8).toNat

/-- The conditions of R133 on the instruction a path stands at, but for what its engine refuses when tried. -/
def eligible (s : State) (w : Wave) (place : Nat) (p : Path) (ws : List Word32) (atStart : Bool) : Bool :=
  let ctl := slotCtl ws p.slot
  let op := opOf (slotWord ws p.slot)
  farEnough s p (ctl / 16) && waitHolds w p ws && (decide (13 ≤ ctl % 16) || w.setfRoom (ctl % 16)) &&
    pipeFree s (s.part w.core w.part) op atStart && powerAllows s w op && !repLogged w place && !haltWaits s op

/-- A path that is live, on the core and not kept by its wave: the wave issues nothing while a fifth faulted instruction
waits for a place in its log (R50). -/
def mayIssue (w : Wave) (p : Path) : Bool := p.isRunning && !p.restorePending && !p.savePending && decide (w.log.length ≤ logPlaces)

/-- What a path would do next. No wave of a launch issues before its seeds are entered (R329). -/
def look (s : State) (w : Wave) (place : Nat) (p : Path) (atStart : Bool) : Look :=
  if !mayIssue w p || seeding s w.lid then .blocked
  else
    match (fetchBundle s w p.pc).1 with
    | .frozen => .blocked
    | .fault x => .fetchFault x
    | .words ws =>
      if bitOf (slotWord ws 0).toNat 18 then .bundleTrap .reservedField 0 0
      else if literalSlot ws = some p.slot && !repeats w place then .bundleTrap .literalSlot p.slot 0
      else if slotWord ws p.slot = 0 && !repeats w place then .nop ws
      else
        match if p.fresh then cellReportOf w (waitMask ws) else none with
        | some r => .bundleTrap .exactCellRange 0 r.addr
        | none => if eligible s w place p ws atStart then .ready ws else .blocked

/-! ## The order among paths (R30, R136 to R140) -/

/-- A path on a core: its wave, its place and the path. -/
abbrev Seated := Wave × Nat × Path

/-- The paths of a wave in the order slot 1, slot 2, fragments oldest first. -/
def wavePaths (w : Wave) : List Seated :=
  (w.places.filter fun e => decide (e.1 < 2)).map (fun e => (w, e.1, e.2)) ++ w.fragments.map fun e => (w, e.1, e.2)

/-- The paths of a partition, wave by wave in slot order. -/
def partPaths (s : State) (core part : Nat) : List Seated := (partWaves s core part).flatMap wavePaths

/-- The name of a path. -/
def Seated.name (x : Seated) : Nat × Nat := (x.1.uid, x.2.2.born)

/-- A path stands before another by age: a yielded path is the youngest, the later yield the younger (R136, R138). -/
def beforeByAge (a b : Seated) : Bool :=
  match a.2.2.yielded, b.2.2.yielded with
  | none, some _ => true
  | some _, none => false
  | some x, some y => decide (x < y) || (x == y && olderWave a.1 b.1)
  | none, none => olderWave a.1 b.1

/-- A path as it stands in this clock's order: one that has issued in it keeps the yield it had before. -/
def asRanked (pt : Part) (x : Seated) : Seated :=
  match pt.issued.find? fun e => (e.1, e.2.1) == x.name with
  | some e => (x.1, x.2.1, { x.2.2 with yielded := e.2.2.2 })
  | none => x

/-- The policy's order of a partition's paths in this clock (R136, R137, R140). -/
def policyOrder (s : State) (core part : Nat) : List Seated :=
  let xs := partPaths s core part
  let pt := s.part core part
  if partRr s core part then
    let dist : Seated → Nat := fun x => (x.1.wslot + Config.waveSlots - pt.pointer % Config.waveSlots) % Config.waveSlots
    sortBy (fun a b => decide (dist a ≤ dist b)) xs
  else
    let aged := sortBy (fun a b => beforeByAge (asRanked pt a) (asRanked pt b)) xs
    let isGreedy : Seated → Bool := fun x => pt.greedy == some x.name
    aged.filter isGreedy ++ aged.filter fun x => !isGreedy x

/-- A path of the partition issued in this clock. -/
def issuedNow (pt : Part) (x : Seated) : Bool := pt.issued.any fun e => (e.1, e.2.1) == x.name
/-- A path's engine did not accept its instruction in this clock. -/
def triedNow (pt : Part) (x : Seated) : Bool := pt.tried.any fun e => (e.1, e.2.1) == x.name

/-- The path would issue, were its turn to come. -/
def wouldIssue (s : State) (pt : Part) (x : Seated) : Bool :=
  !issuedNow pt x && !triedNow pt x && (match look s x.1 x.2.1 x.2.2 false with | .ready _ => true | _ => false)

/-- The slot that issued last gives way to the wave's other slot whenever that one is eligible (R30), but for a path passed
over for 256 clocks (R37). -/
def givesWay (s : State) (pt : Part) (x : Seated) : Bool :=
  !pt.first.contains x.name && decide (x.2.1 < 2) && x.1.lastSlot == x.2.1 && (match mfind x.1.places (1 - x.2.1) with
    | some q => wouldIssue s pt (x.1, 1 - x.2.1, q)
    | none => false)

/-- The paths that pairing puts first (R139): for the other pipe, those of at most 8 lanes, oldest first, while the grove's
charge is at least half its budget. -/
def pairedFirst (s : State) (core part : Nat) : List Seated :=
  let pt := s.part core part
  let g := s.grove (groveOf core)
  if pt.pairing = 0 || 2 * g.charge < groveBudget s g then []
  else
    let sparse : Seated → Bool := fun x => decide (popc x.2.2.mask ≤ 8) && (match look s x.1 x.2.1 x.2.2 false with
      | .ready ws => pipeA (opOf (slotWord ws x.2.2.slot)) == (pt.pairing == 1)
      | _ => false)
    (sortBy beforeByAge (partPaths s core part)).filter sparse

/-- The order in which a partition is offered its pipes: the starving paths, the oldest first, pairing, and then the policy
(R139). -/
def offerOrder (s : State) (core part : Nat) : List Seated :=
  let base := policyOrder s core part
  let first := (s.part core part).first
  (sortBy beforeByAge base).filter (fun x => first.contains x.name) ++ pairedFirst s core part ++ base

/-- A path's next act in this clock, if it has one. -/
def actOf (s : State) (pt : Part) (x : Seated) : Option (Seated × Look) :=
  match look s x.1 x.2.1 x.2.2 false with
  | .blocked => none
  | .ready ws => if issuedNow pt x || triedNow pt x || givesWay s pt x then none else some (x, .ready ws)
  | a => some (x, a)

/-- Partitions in order, each once. -/
def inPartOrder (xs : List (Nat × Nat)) : List (Nat × Nat) :=
  sortBy (fun a b => decide (16 * a.1 + a.2 ≤ 16 * b.1 + b.2)) xs.eraseDups

/-- The partitions that hold waves, in order. -/
def liveParts (s : State) : List (Nat × Nat) := inPartOrder (s.waves.map fun w => (w.core, w.part))

/-- The next act of this clock: partition by partition, path by path in the order offered. A partition whose clock stands
still issues nothing (R425). -/
def nextAct (s : State) : Option (Seated × Look) :=
  ((liveParts s).filter fun e => !(s.part e.1 e.2).stopped).findSome? fun e => (offerOrder s e.1 e.2).findSome? (actOf s (s.part e.1 e.2))

/-! ## Acts without an instruction -/

/-- A bundle that cannot be fetched: the path waits for the host's answer to its page fault, or the context errors (R377,
R439). Inside a handler it is a double fault (R46). -/
def fetchStop (s : State) (x : Seated) (f : XFault) : State :=
  if x.1.held.isSome then waveError s x.1 x.2.2.pc .doubleFault
  else if f.cause.delivery ≠ .pageFault then waveError s x.1 x.2.2.pc f.cause
  else
    let s1 := { s with counter := s.counter + 1 }
    let s2 := postFault s1 f 5 (waveRequester x.1) (.path x.1.uid s.counter)
    s2.modWave x.1.uid fun w => w.modPath x.2.1 fun p => { p with park := .faulted (s2.fnOfAsid f.asid) s.counter }

/-- A cause raised before a slot issues (R56, R59, R246): the path resumes where it stands. -/
def bundleStop (s : State) (x : Seated) (c : Cause) (slot : Nat) (addr : Word) (word : Word32) : State :=
  let t : TrapInfo := { cause := c, word := word, bundle := x.2.2.pc, slot := slot, addr := addr, lanes := none, detail := 0,
                        resumeBundle := x.2.2.pc, resumeSlot := slot }
  let s1 := enterTrap s (consumeReport x.1 c addr) x.2.1 t
  match s1.wave? x.1.uid with
  | none => s1
  | some w1 => match mfind w1.places 0 with
    | some p => if w1.held.isSome then emitMask s1 x.1 0 3 p.mask p.pc else s1
    | none => s1

/-- A word the decoder refuses: the path takes the cause (R67 steps 1 to 3). -/
def decodeStop (s : State) (c : Cause) : State :=
  match env? s with
  | none => { s with issue := none }
  | some e => takeTrap (account s e false) e false c none 0 0

/-! ## Repeats and starvation -/

/-- A repeat's next iteration is made ready to issue: the instruction at its path's slot with each stepped field advanced
(R146). -/
def execRepIteration (uid path : Nat) (s : State) : Host.Outcome State Fault Refusal :=
  .next (match s.wave? uid with
  | none => s
  | some w =>
    match mfind w.places path with
    | none => s
    | some p =>
      if !repeats w path || !mayIssue w p then s
      else
        match fetchBundle s w p.pc with
        | (.words ws, s1) => { s1 with issue := some (issueOf w path p ws) }
        | (_, s1) => s1)

/-- The paths of the partition that have been eligible for 256 clocks go first in this one, for whichever pipe each is, the
oldest before the others (R37, R139). -/
def execStarvationOverride (core part : Nat) (s : State) : Host.Outcome State Fault Refusal :=
  let starving := (sortBy beforeByAge (partPaths s core part)).filter fun x => decide (256 ≤ x.2.2.passed)
  .next (if starving.isEmpty then s else s.setPart core part { s.part core part with first := starving.map Seated.name })

/-! ## The end of a clock -/

/-- The path was eligible in this clock (R133, R139): it issued, or it would have, had its turn come. -/
def wasEligible (s : State) (pt : Part) (x : Seated) : Bool :=
  issuedNow pt x || (!triedNow pt x && (match look s x.1 x.2.1 x.2.2 true with | .ready _ => true | _ => false))

/-- An instruction of this opcode waits for a pending FENCE, XFENCE or acquire of its wave (R115 to R117): the paths its access
takes. -/
def fencedOp (w : Wave) (op : Nat) : Bool :=
  let on : List AccessPath → Bool := fun ps => ps.any (fenced w)
  if 0x11 < op && op < 0x19 then on [.ls]
  else if op == 0x9C || op == 0x9D then on [.ls, .at]
  else if 0x80 ≤ op && op < 0xA0 then on [.ls]
  else if 0xA0 ≤ op && op < 0xAE then on [.at]
  else if op == 0xB0 || op == 0xB1 || op == 0xB2 || op == 0xB5 || op == 0xB6 then on [.mx]
  else if op == 0xC5 then on [.ls, .fb]
  else if 0xC0 ≤ op && op < 0xCD then on [.ls, .cp]
  else 0xD0 ≤ op && op < 0xD5 && on [.wl]

/-- Why a path does not issue, the lowest code that holds (R405). -/
def stallReason (s : State) (pt : Part) (x : Seated) : Nat :=
  let w := x.1
  let p := x.2.2
  let tried := (pt.tried.find? fun e => (e.1, e.2.1) == x.name).map fun e => e.2.2
  if p.park == .saved || p.inSave then 0
  else match p.park with
    | .barrier .. => 1
    | .signal .. | .event .. | .worklist .. => 2
    | .rjoin _ => 3
    | .woken _ reason => reason
    | .hold n => if w.pending.any fun c => c.seqNo == n && c.path == .wl then 6 else 10
    | _ =>
      match (fetchBundle s w p.pc).1 with
      | .frozen | .fault _ => 4
      | .words ws =>
        let ctl := slotCtl ws p.slot
        let op := opOf (slotWord ws p.slot)
        if tried = some 5 then 5
        else if tried = some 6 || logPlaces < w.log.length || repLogged w x.2.1 || p.park != .running || fencedOp w op then 6
        else if tried = some 7 || !waitHolds w p ws || !w.setfRoom (ctl % 16) then 7
        else if !farEnough s p (ctl / 16) then 8
        else if !powerAllows s w op then 9
        else if tried.isSome || haltWaits s op then 10
        else 11

/-- One more at a place of a list of counts. -/
def bump (n : Nat) (xs : List Nat) : List Nat := (List.range (Nat.max n.succ xs.length)).map fun k => xs.getD k 0 + b2n (k == n)

/-- The histogram of a clock (R405). A wave that issued in the clock and has left counts as eligible in it. -/
def histogram (s : State) (core part : Nat) (pt : Part) : Part :=
  let ws := partWaves s core part
  let live := ws.filter fun w => (wavePaths w).any (wasEligible s pt)
  let left := ((pt.issued.map Prod.fst).eraseDups).filter fun n => ws.all fun w => w.uid != n
  let fns := (ws.map fun w => 16 * w.fn + w.ctx).eraseDups
  let pt1 := { pt with bins := bump (live.length + left.length) pt.bins
                       sampleFns := pt.sampleFns ++ fns.filter fun k => !pt.sampleFns.contains k }
  if !live.isEmpty || !left.isEmpty then pt1
  else match oldestWave s core part with
    | none => { pt1 with idle := pt.idle + 1 }
    | some w => match wavePaths w with
      | [] => { pt1 with reasons := bump 6 pt.reasons }
      | x :: _ => { pt1 with reasons := bump (stallReason s pt x) pt.reasons }

/-- The greedy path and the RR pointer of the next clock (R136, R137, R140). -/
def nextOrder (s : State) (core part : Nat) (pt : Part) : Part :=
  if partRr s core part then
    let dist : Nat → Nat := fun k => (k + Config.waveSlots - pt.pointer % Config.waveSlots) % Config.waveSlots
    match sortBy (fun a b => decide (dist a ≤ dist b)) (pt.issued.map fun e => e.2.2.1) with
    | k :: _ => { pt with pointer := (k + 1) % Config.waveSlots }
    | [] => pt
  else
    let stays : Seated → Bool := fun x => x.2.2.yielded.isNone
    if pt.issued.isEmpty then
      { pt with greedy := if (partPaths s core part).any fun x => pt.greedy == some x.name && stays x then pt.greedy else none }
    else
      { pt with greedy := ((policyOrder s core part).find? fun x => issuedNow pt x && stays x).map Seated.name }

/-- The wave with the counts of its paths that were eligible and did not issue raised (R139). -/
def countPassed (s : State) (pt : Part) (w : Wave) : Wave :=
  (wavePaths w).foldl (fun y x =>
    if !issuedNow pt x && wasEligible s pt x then y.modPath x.2.1 fun p => { p with passed := p.passed + 1 } else y) w

/-- The path stands at a HALT that waits for the boundary and for nothing else (R425). -/
def atHalt (s : State) (x : Seated) : Bool :=
  !x.1.haltPending && mayIssue x.1 x.2.2 && !seeding s x.1.lid && (match (fetchBundle s x.1 x.2.2.pc).1 with
    | .words ws =>
      let ctl := slotCtl ws x.2.2.slot
      haltWaits s (opOf (slotWord ws x.2.2.slot)) && farEnough s x.2.2 (ctl / 16) && waitHolds x.1 x.2.2 ws &&
        (decide (13 ≤ ctl % 16) || x.1.setfRoom (ctl % 16))
    | _ => false)

/-- The path is parked: in a wait, or at an RJOIN (R145, R156, R158, R319, R337). -/
def Path.isParked (p : Path) : Bool :=
  match p.park with
  | .barrier .. | .signal .. | .event .. | .worklist .. | .rjoin _ => true
  | _ => false

/-- The partition's clock stands still from the next clock on: every path of it waits at HALT or is parked, one at least at
HALT (R425; DESIGN CHOICE, log entry 98). -/
def stopsClock (s : State) (core part : Nat) : Bool :=
  let xs := partPaths s core part
  xs.any (atHalt s) && xs.all fun x => x.2.2.isParked || atHalt s x

/-- A clock of a partition that stands still: it issues and counts nothing, and runs again at the next boundary (R425). -/
def skipPartClock (s : State) (core part : Nat) : State :=
  let pt := s.part core part
  s.setPart core part { pt with since := pt.since + 1, stopped := decide ((s.clock + 1) % Config.clocksPerUs ≠ 0) }

/-- A partition's clock ends. Its first clock with a wave sets its next profile sample (R406). -/
def endPartClock (s : State) (core part : Nat) : State :=
  let pt0 := s.part core part
  let fn := ((oldestWave s core part).map Wave.fn).getD 0
  let n := sampleClocks (s.func fn)
  let starts := pt0.sampleFns.isEmpty && (oldestWave s core part).isSome
  let pt := if starts then { pt0 with since := s.clock - s.clock % n } else pt0
  let pt1 := nextOrder s core part (histogram s core part pt)
  let s1 := if starts then s.schedule (n - s.clock % n) (.profileSample core part) else s
  let mine : Wave → Bool := fun w => w.core == core && w.part == part
  let s2 := { s1 with waves := s1.waves.map fun w => if mine w then countPassed s pt w else w }
  let starving := (partPaths s2 core part).any fun x => decide (256 ≤ x.2.2.passed)
  let s3 := s2.setPart core part
    { pt1 with aUsed := false, bUsed := false, issued := [], tried := [], first := [], pairing := 0, policy := none
               stopped := decide ((s.clock + 1) % Config.clocksPerUs ≠ 0) && stopsClock s2 core part }
  if starving then s3.schedule 1 (.starvationOverride core part) else s3

/-- The partitions whose clock ends: those that hold waves, and those whose last wave left in this clock. -/
def endingParts (s : State) : List (Nat × Nat) :=
  inPartOrder ((s.waves.map fun w => (w.core, w.part)) ++
    (s.parts.filter fun e => e.2.policy.isSome || e.2.stopped).map fun e => (e.1 / 16, e.1 % 16))

/-- The state one clock later. -/
def State.nextClock (s : State) : State := { s with clock := s.clock + 1 }

/-- A clock ends: the partitions, what the clock gave the trace collectors (R411), then the clock itself, with the events due at the new one: a control
interval at each whole µs (R421), and the edges of the weight store's refresh windows (R222). -/
def tick (s : State) : State :=
  let s1 := (endingParts s).foldl (fun s e =>
    if (s.part e.1 e.2).stopped then skipPartClock s e.1 e.2 else endPartClock s e.1 e.2) s
  let s2 := (flushCollected s1).nextClock
  let s3 := if s2.clock % (2 * Config.clocksPerUs) = 0 then s2.schedule 0 .weightStoreRefresh else s2
  if s3.clock % Config.clocksPerUs = 0 then s3.schedule 0 (.controlInterval s3.power.modulePower []) else s3

end Sys2Proof.Machine
end

