-- ==== Sys2Proof/Machine/Dispatch.lean ====
section
/-! DEFINITION. One arm per constructor of `Instr`: a direct call of its meaning. -/

namespace Sys2Proof.Machine

def exec (i : Instr) (s : State) : Host.Outcome State Fault Refusal :=
  match i with
  | .nop => Sys2Proof.Machine.execNop s
  | .setmode lit => Sys2Proof.Machine.execSetmode lit s
  | .getmode d => Sys2Proof.Machine.execGetmode d s
  | .rep count stride => Sys2Proof.Machine.execRep count stride s
  | .bra off => Sys2Proof.Machine.execBra off s
  | .brp p off => Sys2Proof.Machine.execBrp p off s
  | .bru u off => Sys2Proof.Machine.execBru u off s
  | .jmpi a => Sys2Proof.Machine.execJmpi a s
  | .call d off => Sys2Proof.Machine.execCall d off s
  | .calli d a => Sys2Proof.Machine.execCalli d a s
  | .ret a => Sys2Proof.Machine.execRet a s
  | .rjoin token => Sys2Proof.Machine.execRjoin token s
  | .exit => Sys2Proof.Machine.execExit s
  | .tail => Sys2Proof.Machine.execTail s
  | .yield => Sys2Proof.Machine.execYield s
  | .waitf n flags => Sys2Proof.Machine.execWaitf n flags s
  | .setjoin d a => Sys2Proof.Machine.execSetjoin d a s
  | .setleave a => Sys2Proof.Machine.execSetleave a s
  | .arrive a b => Sys2Proof.Machine.execArrive a b s
  | .waitb d a => Sys2Proof.Machine.execWaitb d a s
  | .arrwait d a b => Sys2Proof.Machine.execArrwait d a b s
  | .signal a b => Sys2Proof.Machine.execSignal a b s
  | .sigwait d a b => Sys2Proof.Machine.execSigwait d a b s
  | .bind d a b => Sys2Proof.Machine.execBind d a b s
  | .unbind a b => Sys2Proof.Machine.execUnbind a b s
  | .rgnin id => Sys2Proof.Machine.execRgnin id s
  | .rgnout id => Sys2Proof.Machine.execRgnout id s
  | .spt n => Sys2Proof.Machine.execSpt n s
  | .psave => Sys2Proof.Machine.execPsave s
  | .trap code => Sys2Proof.Machine.execTrap code s
  | .tret => Sys2Proof.Machine.execTret s
  | .sysrd d lit => Sys2Proof.Machine.execSysrd d lit s
  | .syswr a lit => Sys2Proof.Machine.execSyswr a lit s
  | .add d a b => Sys2Proof.Machine.execAdd d a b s
  | .sub d a b => Sys2Proof.Machine.execSub d a b s
  | .mul d a b => Sys2Proof.Machine.execMul d a b s
  | .fma d a b => Sys2Proof.Machine.execFma d a b s
  | .fms d a b => Sys2Proof.Machine.execFms d a b s
  | .fnma d a b => Sys2Proof.Machine.execFnma d a b s
  | .min d a b => Sys2Proof.Machine.execMin d a b s
  | .max d a b => Sys2Proof.Machine.execMax d a b s
  | .abs d a => Sys2Proof.Machine.execAbs d a s
  | .neg d a => Sys2Proof.Machine.execNeg d a s
  | .adds d a b => Sys2Proof.Machine.execAdds d a b s
  | .subs d a b => Sys2Proof.Machine.execSubs d a b s
  | .mulhi d a b => Sys2Proof.Machine.execMulhi d a b s
  | .dot2 d a b => Sys2Proof.Machine.execDot2 d a b s
  | .divi d a b => Sys2Proof.Machine.execDivi d a b s
  | .remi d a b => Sys2Proof.Machine.execRemi d a b s
  | .and d a b => Sys2Proof.Machine.execAnd d a b s
  | .or d a b => Sys2Proof.Machine.execOr d a b s
  | .xor d a b => Sys2Proof.Machine.execXor d a b s
  | .andn d a b => Sys2Proof.Machine.execAndn d a b s
  | .shl d a b => Sys2Proof.Machine.execShl d a b s
  | .shrl d a b => Sys2Proof.Machine.execShrl d a b s
  | .shra d a b => Sys2Proof.Machine.execShra d a b s
  | .rol d a b => Sys2Proof.Machine.execRol d a b s
  | .cmpeq d a b => Sys2Proof.Machine.execCmpeq d a b s
  | .cmpne d a b => Sys2Proof.Machine.execCmpne d a b s
  | .cmplt d a b => Sys2Proof.Machine.execCmplt d a b s
  | .cmple d a b => Sys2Proof.Machine.execCmple d a b s
  | .cmpun d a b => Sys2Proof.Machine.execCmpun d a b s
  | .cls d a lit => Sys2Proof.Machine.execCls d a lit s
  | .sel d a b lit => Sys2Proof.Machine.execSel d a b lit s
  | .mov d a => Sys2Proof.Machine.execMov d a s
  | .cvt d a lit => Sys2Proof.Machine.execCvt d a lit s
  | .cvtr d a lit => Sys2Proof.Machine.execCvtr d a lit s
  | .pack d a b => Sys2Proof.Machine.execPack d a b s
  | .widen d a h => Sys2Proof.Machine.execWiden d a h s
  | .dec8 d a g => Sys2Proof.Machine.execDec8 d a g s
  | .enc8 d a b => Sys2Proof.Machine.execEnc8 d a b s
  | .dec6 d a g => Sys2Proof.Machine.execDec6 d a g s
  | .enc6 d a => Sys2Proof.Machine.execEnc6 d a s
  | .scaleb d a b => Sys2Proof.Machine.execScaleb d a b s
  | .rndint d a => Sys2Proof.Machine.execRndint d a s
  | .dot4 d a b => Sys2Proof.Machine.execDot4 d a b s
  | .sad d a b => Sys2Proof.Machine.execSad d a b s
  | .madi d a b => Sys2Proof.Machine.execMadi d a b s
  | .addc d a b lit => Sys2Proof.Machine.execAddc d a b lit s
  | .subb d a b lit => Sys2Proof.Machine.execSubb d a b lit s
  | .frcp2 d a => Sys2Proof.Machine.execFrcp2 d a s
  | .movl d lit => Sys2Proof.Machine.execMovl d lit s
  | .movs d lit => Sys2Proof.Machine.execMovs d lit s
  | .iota d a b => Sys2Proof.Machine.execIota d a b s
  | .shfl d a b lit => Sys2Proof.Machine.execShfl d a b lit s
  | .bcast d a b => Sys2Proof.Machine.execBcast d a b s
  | .lreduce d a lit => Sys2Proof.Machine.execLreduce d a lit s
  | .lscan d a lit => Sys2Proof.Machine.execLscan d a lit s
  | .ballot d p => Sys2Proof.Machine.execBallot d p s
  | .vote d p lit => Sys2Proof.Machine.execVote d p lit s
  | .plogic d a b lit => Sys2Proof.Machine.execPlogic d a b lit s
  | .pset d lit => Sys2Proof.Machine.execPset d lit s
  | .pget d p => Sys2Proof.Machine.execPget d p s
  | .pmov d a => Sys2Proof.Machine.execPmov d a s
  | .bmm d a b => Sys2Proof.Machine.execBmm d a b s
  | .bmmx d a b => Sys2Proof.Machine.execBmmx d a b s
  | .pdep d a b => Sys2Proof.Machine.execPdep d a b s
  | .pext d a b => Sys2Proof.Machine.execPext d a b s
  | .bpld k a => Sys2Proof.Machine.execBpld k a s
  | .bperm d a k => Sys2Proof.Machine.execBperm d a k s
  | .popc d a => Sys2Proof.Machine.execPopc d a s
  | .clz d a => Sys2Proof.Machine.execClz d a s
  | .ctz d a => Sys2Proof.Machine.execCtz d a s
  | .brev d a => Sys2Proof.Machine.execBrev d a s
  | .bfx d a lit => Sys2Proof.Machine.execBfx d a lit s
  | .bfi d a lit => Sys2Proof.Machine.execBfi d a lit s
  | .gfmul8 d a b => Sys2Proof.Machine.execGfmul8 d a b s
  | .clmul d a b => Sys2Proof.Machine.execClmul d a b s
  | .clmulh d a b => Sys2Proof.Machine.execClmulh d a b s
  | .byteperm d a b => Sys2Proof.Machine.execByteperm d a b s
  | .rcp d a => Sys2Proof.Machine.execRcp d a s
  | .rsq d a => Sys2Proof.Machine.execRsq d a s
  | .sqrt d a => Sys2Proof.Machine.execSqrt d a s
  | .exp2 d a => Sys2Proof.Machine.execExp2 d a s
  | .log2 d a => Sys2Proof.Machine.execLog2 d a s
  | .sinpi d a => Sys2Proof.Machine.execSinpi d a s
  | .cospi d a => Sys2Proof.Machine.execCospi d a s
  | .tanh d a => Sys2Proof.Machine.execTanh d a s
  | .divf d a b => Sys2Proof.Machine.execDivf d a b s
  | .ld8 d a b => Sys2Proof.Machine.execLd8 d a b s
  | .ld16 d a b => Sys2Proof.Machine.execLd16 d a b s
  | .ld32 d a b => Sys2Proof.Machine.execLd32 d a b s
  | .ld64 d a b => Sys2Proof.Machine.execLd64 d a b s
  | .st8 d a b => Sys2Proof.Machine.execSt8 d a b s
  | .st16 d a b => Sys2Proof.Machine.execSt16 d a b s
  | .st32 d a b => Sys2Proof.Machine.execSt32 d a b s
  | .st64 d a b => Sys2Proof.Machine.execSt64 d a b s
  | .ldl d a b => Sys2Proof.Machine.execLdl d a b s
  | .stl d a b => Sys2Proof.Machine.execStl d a b s
  | .sld d a b lit => Sys2Proof.Machine.execSld d a b lit s
  | .sst d a b lit => Sys2Proof.Machine.execSst d a b lit s
  | .nld d a b lit => Sys2Proof.Machine.execNld d a b lit s
  | .nst d a b lit => Sys2Proof.Machine.execNst d a b lit s
  | .wld d a b => Sys2Proof.Machine.execWld d a b s
  | .cstr d a p => Sys2Proof.Machine.execCstr d a p s
  | .xld d a p => Sys2Proof.Machine.execXld d a p s
  | .tld d a b lit => Sys2Proof.Machine.execTld d a b lit s
  | .tst d a b lit => Sys2Proof.Machine.execTst d a b lit s
  | .pref a b => Sys2Proof.Machine.execPref a b s
  | .sealRegion a b => Sys2Proof.Machine.execSealRegion a b s
  | .unsealRegion a b => Sys2Proof.Machine.execUnsealRegion a b s
  | .fence scope => Sys2Proof.Machine.execFence scope s
  | .xfence scope paths => Sys2Proof.Machine.execXfence scope paths s
  | .pin a b => Sys2Proof.Machine.execPin a b s
  | .unpin a b => Sys2Proof.Machine.execUnpin a b s
  | .cinv a b => Sys2Proof.Machine.execCinv a b s
  | .cwb a b => Sys2Proof.Machine.execCwb a b s
  | .ldacq d a b lit => Sys2Proof.Machine.execLdacq d a b lit s
  | .strel d a b lit => Sys2Proof.Machine.execStrel d a b lit s
  | .aadd d a b lit => Sys2Proof.Machine.execAadd d a b lit s
  | .amin d a b lit => Sys2Proof.Machine.execAmin d a b lit s
  | .amax d a b lit => Sys2Proof.Machine.execAmax d a b lit s
  | .aand d a b lit => Sys2Proof.Machine.execAand d a b lit s
  | .aor d a b lit => Sys2Proof.Machine.execAor d a b lit s
  | .axor d a b lit => Sys2Proof.Machine.execAxor d a b lit s
  | .aswp d a b lit => Sys2Proof.Machine.execAswp d a b lit s
  | .acas d a b lit => Sys2Proof.Machine.execAcas d a b lit s
  | .afadd d a b lit => Sys2Proof.Machine.execAfadd d a b lit s
  | .axadd d a b lit => Sys2Proof.Machine.execAxadd d a b lit s
  | .lres d a lit => Sys2Proof.Machine.execLres d a lit s
  | .scond d a b lit => Sys2Proof.Machine.execScond d a b lit s
  | .tbegin d => Sys2Proof.Machine.execTbegin d s
  | .tcommit d => Sys2Proof.Machine.execTcommit d s
  | .tabort code => Sys2Proof.Machine.execTabort code s
  | .tstat d => Sys2Proof.Machine.execTstat d s
  | .mfmt a => Sys2Proof.Machine.execMfmt a s
  | .mma acc a b => Sys2Proof.Machine.execMma acc a b s
  | .mmaz acc a b => Sys2Proof.Machine.execMmaz acc a b s
  | .mbatch n => Sys2Proof.Machine.execMbatch n s
  | .mwait n => Sys2Proof.Machine.execMwait n s
  | .mdrain acc a b => Sys2Proof.Machine.execMdrain acc a b s
  | .maccld acc a => Sys2Proof.Machine.execMaccld acc a s
  | .mstage n a b => Sys2Proof.Machine.execMstage n a b s
  | .mstat d acc => Sys2Proof.Machine.execMstat d acc s
  | .cpy d a => Sys2Proof.Machine.execCpy d a s
  | .cpyd d a => Sys2Proof.Machine.execCpyd d a s
  | .cpym d a => Sys2Proof.Machine.execCpym d a s
  | .cpymc d a => Sys2Proof.Machine.execCpymc d a s
  | .cpyn d a => Sys2Proof.Machine.execCpyn d a s
  | .halo d a b => Sys2Proof.Machine.execHalo d a b s
  | .haloq d a => Sys2Proof.Machine.execHaloq d a s
  | .evpop d => Sys2Proof.Machine.execEvpop d s
  | .evpeek d => Sys2Proof.Machine.execEvpeek d s
  | .wsld d a => Sys2Proof.Machine.execWsld d a s
  | .arm a b => Sys2Proof.Machine.execArm a b s
  | .disarm a => Sys2Proof.Machine.execDisarm a s
  | .cpyx d a => Sys2Proof.Machine.execCpyx d a s
  | .wpush a b => Sys2Proof.Machine.execWpush a b s
  | .wpop d => Sys2Proof.Machine.execWpop d s
  | .wpopw d => Sys2Proof.Machine.execWpopw d s
  | .wdone => Sys2Proof.Machine.execWdone s
  | .wfloor d => Sys2Proof.Machine.execWfloor d s
  | .wstat d => Sys2Proof.Machine.execWstat d s
  | .ckrole d => Sys2Proof.Machine.execCkrole d s
  | .cksig d k => Sys2Proof.Machine.execCksig d k s
  | .tmark mark => Sys2Proof.Machine.execTmark mark s
  | .halt => Sys2Proof.Machine.execHalt s
  | .clkq d => Sys2Proof.Machine.execClkq d s
  | .pwload a => Sys2Proof.Machine.execPwload a s
  | .instructionComplete uid seqNo => Sys2Proof.Machine.execInstructionComplete uid seqNo s
  | .repIteration uid path => Sys2Proof.Machine.execRepIteration uid path s
  | .starvationOverride core part => Sys2Proof.Machine.execStarvationOverride core part s
  | .operandLogReplay uid entry => Sys2Proof.Machine.execOperandLogReplay uid entry s
  | .haltTrapDelivery uid path => Sys2Proof.Machine.execHaltTrapDelivery uid path s
  | .trackerDrain core entry => Sys2Proof.Machine.execTrackerDrain core entry s
  | .preemptBoundExpiry fn ctx => Sys2Proof.Machine.execPreemptBoundExpiry fn ctx s
  | .blockRestore lid bid run => Sys2Proof.Machine.execBlockRestore lid bid run s
  | .weightStoreRefresh => Sys2Proof.Machine.execWeightStoreRefresh s
  | .atomicPerformAtHome req => Sys2Proof.Machine.execAtomicPerformAtHome req s
  | .matrixGroupStart core => Sys2Proof.Machine.execMatrixGroupStart core s
  | .stageReadDone core group => Sys2Proof.Machine.execStageReadDone core group s
  | .matrixGroupComplete core group => Sys2Proof.Machine.execMatrixGroupComplete core group s
  | .copyCommandExecute core chan => Sys2Proof.Machine.execCopyCommandExecute core chan s
  | .multicastDelivery core chan target => Sys2Proof.Machine.execMulticastDelivery core chan target s
  | .copyCommandEnd core chan => Sys2Proof.Machine.execCopyCommandEnd core chan s
  | .floorLowerRound dom req => Sys2Proof.Machine.execFloorLowerRound dom req s
  | .floorRaiseRound dom => Sys2Proof.Machine.execFloorRaiseRound dom s
  | .stealRequest dom thief => Sys2Proof.Machine.execStealRequest dom thief s
  | .stolenTaskArrival dom thief => Sys2Proof.Machine.execStolenTaskArrival dom thief s
  | .spillwayRefill dom node => Sys2Proof.Machine.execSpillwayRefill dom node s
  | .terminationTokenWave dom => Sys2Proof.Machine.execTerminationTokenWave dom s
  | .domainDown dom => Sys2Proof.Machine.execDomainDown dom s
  | .checkVote lid bid => Sys2Proof.Machine.execCheckVote lid bid s
  | .holdFullTimeout uid => Sys2Proof.Machine.execHoldFullTimeout uid s
  | .demeritDecay core => Sys2Proof.Machine.execDemeritDecay core s
  | .tlbMissWalk asid va write fetch => Sys2Proof.Machine.execTlbMissWalk asid va write fetch s
  | .reclassification asid page => Sys2Proof.Machine.execReclassification asid page s
  | .tlbInvalidateDone fn => Sys2Proof.Machine.execTlbInvalidateDone fn s
  | .mapChangeFrozen fn => Sys2Proof.Machine.execMapChangeFrozen fn s
  | .packetAdmit fn q => Sys2Proof.Machine.execPacketAdmit fn q s
  | .blockPlace lid => Sys2Proof.Machine.execBlockPlace lid s
  | .launchCompletion lid => Sys2Proof.Machine.execLaunchCompletion lid s
  | .priorityAgeing fn q => Sys2Proof.Machine.execPriorityAgeing fn q s
  | .flrScrub fn => Sys2Proof.Machine.execFlrScrub fn s
  | .controlInterval modulePower temps => Sys2Proof.Machine.execControlInterval modulePower temps s
  | .canopyMemberSilent chip => Sys2Proof.Machine.execCanopyMemberSilent chip s
  | .canopyMemberExpel chip => Sys2Proof.Machine.execCanopyMemberExpel chip s
  | .canopyHeartbeatSend => Sys2Proof.Machine.execCanopyHeartbeatSend s
  | .canopyCeilingChange => Sys2Proof.Machine.execCanopyCeilingChange s
  | .profileSample core part => Sys2Proof.Machine.execProfileSample core part s
  | .captureSnapshot fn => Sys2Proof.Machine.execCaptureSnapshot fn s
  | .imageWriteComplete => Sys2Proof.Machine.execImageWriteComplete s
  | .lifecycleWipeComplete => Sys2Proof.Machine.execLifecycleWipeComplete s
  | .haltRequest uid => Sys2Proof.Machine.execHaltRequest uid s
  | .haloFaceReceive window rowLen rows dstOff dstPitch sig barOff data => Sys2Proof.Machine.execHaloFaceReceive window rowLen rows dstOff dstPitch sig barOff data s
  | .fabricLinkLoss chip => Sys2Proof.Machine.execFabricLinkLoss chip s
  | .fqrespReplay fn seqNo => Sys2Proof.Machine.execFqrespReplay fn seqNo s
  | .fqrespRefuse fn seqNo => Sys2Proof.Machine.execFqrespRefuse fn seqNo s
  | .fqheadWrite fn value => Sys2Proof.Machine.execFqheadWrite fn value s
  | .tlbinvRange fn asid => Sys2Proof.Machine.execTlbinvRange fn asid s
  | .tlbinvAsid fn asid => Sys2Proof.Machine.execTlbinvAsid fn asid s
  | .tlbinvFunction fn asid => Sys2Proof.Machine.execTlbinvFunction fn asid s
  | .mapChange fn asid => Sys2Proof.Machine.execMapChange fn asid s
  | .mapChangeForce fn asid => Sys2Proof.Machine.execMapChangeForce fn asid s
  | .mapdone fn => Sys2Proof.Machine.execMapdone fn s
  | .ctxCreate fn ctx => Sys2Proof.Machine.execCtxCreate fn ctx s
  | .ctxDestroy fn ctx => Sys2Proof.Machine.execCtxDestroy fn ctx s
  | .ctxReset fn ctx => Sys2Proof.Machine.execCtxReset fn ctx s
  | .ctxPreempt fn ctx level => Sys2Proof.Machine.execCtxPreempt fn ctx level s
  | .preemptevClear fn value => Sys2Proof.Machine.execPreemptevClear fn value s
  | .qwidxWrite fn q value => Sys2Proof.Machine.execQwidxWrite fn q value s
  | .queueEnable fn q value => Sys2Proof.Machine.execQueueEnable fn q value s
  | .functionLevelReset fn => Sys2Proof.Machine.execFunctionLevelReset fn s
  | .currentEmergency grove => Sys2Proof.Machine.execCurrentEmergency grove s
  | .thermalTrip grove temp => Sys2Proof.Machine.execThermalTrip grove temp s
  | .canopyHeartbeatReceive chip seqNo groupTime proposal announces joins emergency => Sys2Proof.Machine.execCanopyHeartbeatReceive chip seqNo groupTime proposal announces joins emergency s
  | .canopyJoin value => Sys2Proof.Machine.execCanopyJoin value s
  | .canopyLeave value => Sys2Proof.Machine.execCanopyLeave value s
  | .traceStopRequest fn ctx => Sys2Proof.Machine.execTraceStopRequest fn ctx s
  | .traceStopCancel fn ctx => Sys2Proof.Machine.execTraceStopCancel fn ctx s
  | .watchpointEnable fn w value => Sys2Proof.Machine.execWatchpointEnable fn w value s
  | .traceEnable fn value => Sys2Proof.Machine.execTraceEnable fn value s
  | .traceRingRead fn value => Sys2Proof.Machine.execTraceRingRead fn value s
  | .captureStart fn ctx => Sys2Proof.Machine.execCaptureStart fn ctx s
  | .captureStop fn => Sys2Proof.Machine.execCaptureStop fn s
  | .replayStart fn ctx => Sys2Proof.Machine.execReplayStart fn ctx s
  | .captureAbort fn => Sys2Proof.Machine.execCaptureAbort fn s
  | .haloWindowEnable fn value => Sys2Proof.Machine.execHaloWindowEnable fn value s
  | .haloWindowDisable fn => Sys2Proof.Machine.execHaloWindowDisable fn s
  | .healthRequest => Sys2Proof.Machine.execHealthRequest s
  | .certRequest => Sys2Proof.Machine.execCertRequest s
  | .stateRequest => Sys2Proof.Machine.execStateRequest s
  | .resetRequest => Sys2Proof.Machine.execResetRequest s
  | .lifecycleRequest state => Sys2Proof.Machine.execLifecycleRequest state s
  | .powerOn => Sys2Proof.Machine.execPowerOn s
  | .imageWrite => Sys2Proof.Machine.execImageWrite s
  | .pciePeerDma write addr len data => Sys2Proof.Machine.execPciePeerDma write addr len data s
  | .registerWrite window fn off size value => Sys2Proof.Machine.execRegisterWrite window fn off size value s
  | .hostMemoryAccess write addr len data => Sys2Proof.Machine.execHostMemoryAccess write addr len data s
  | .eccCorrection slice place row => Sys2Proof.Machine.execEccCorrection slice place row s
  | .powerLoss => Sys2Proof.Machine.execPowerLoss s
  | .explicitFence core => Sys2Proof.Machine.execExplicitFence core s
  | .explicitUnfence core => Sys2Proof.Machine.execExplicitUnfence core s
  | .demeritThresholdSet n => Sys2Proof.Machine.execDemeritThresholdSet n s
  | .otherRequest code => Sys2Proof.Machine.execOtherRequest code s

end Sys2Proof.Machine
end

