-- ==== Sys2Proof/Machine/Settle.lean ====
section
/-! DEFINITION. What the machine does of itself after every step: paths parked at an RJOIN that resume (R145), safe points
taken by parked paths and restore routines entered (R41, R42), waves that complete PSAVE (R40), waves that leave (R36),
barriers found unsatisfiable (R157), and pre-emption requests withdrawn (R401). -/

namespace Sys2Proof.Machine

/-! ## Safe points of parked paths and of restored ones (R41, R42) -/

/-- The path at a place waits for the host's answer to a fault of its own (R439). -/
def placeFault (s : State) (w : Wave) (place : Nat) (x : XFault) : State :=
  if x.cause.delivery ≠ .pageFault then waveError s w 0 x.cause
  else
    let s1 := { s with counter := s.counter + 1 }
    let s2 := postFault s1 x 0 (waveRequester w) (.path w.uid s.counter)
    s2.modWave w.uid fun y => y.modPath place fun p => { p with park := .faulted (s2.fnOfAsid x.asid) s.counter }

/-- The park is the wait half of an ARRWAIT, whose arrival has counted (R42). -/
def Park.arrived : Park → Bool
  | .barrier _ _ _ arrwait _ _ => arrwait
  | _ => false

/-- What a path's own access met, other than a page fault: it is tried again. -/
def stoppedAgain (s : State) : XStop → State
  | .blocked asid page => blockPage s asid page
  | _ => s

/-- A path unlinked from its wait or its RJOIN (R42): what was to resume it is cut off, and what it resumes at is kept. -/
def unlinkPath (w : Wave) (place : Nat) (p : Path) : Wave :=
  ((match p.park.seqNo with | some k => w.cutOff k | none => w)).modPath place fun q =>
    { q with waitResume := q.waitResume || p.park.arrived, atRjoin := q.atRjoin || p.parkedRjoin, park := .running,
             savePending := true }

/-- A parked path takes its safe point (R42): it is unlinked, and its save routine starts, at once or when the host has answered
the fault of its table read. One without a safe point stays parked, and one whose elided section is open goes back to the
section's LRES first (R263). -/
def saveParked (s : State) (w : Wave) (place : Nat) (p : Path) : State :=
  match p.safePoint with
  | none => s
  | some n =>
    match w.sectionOf p with
    | some x => s.modWave w.uid fun y => y.endSection x
    | none =>
      match safePointEntry s w n with
      | (.error (.fault x), s1) => placeFault (s1.modWave w.uid fun y => unlinkPath y place p) w place x
      | (.error x, _) => stoppedAgain s x
      | (.ok none, s1) => waveError s1 w p.pc .safepointTable
      | (.ok (some sp), s1) =>
        let enter : Path → Path := fun q => { (enterSave sp n (placeWord q.pc q.slot) s.clock q) with savePending := false }
        s1.modWave w.uid fun y => ((unlinkPath y place p).leaveSection.abortTx 8).modPath place enter

/-- A restored path that stands in a place enters its restore routine, as if by CALL from its safe point (R41, R82). -/
def enterRestore (s : State) (w : Wave) (place : Nat) (p : Path) : State :=
  let n := p.safePoint.getD Config.noSafePoint
  match safePointEntry s w n with
  | (.error (.fault x), s1) => placeFault s1 w place x
  | (.error x, _) => stoppedAgain s x
  | (.ok none, s1) => waveError s1 w p.pc .safepointTable
  | (.ok (some sp), s1) =>
    s1.modWave w.uid fun y =>
      (y.setS (sp.link.toNat - 0x80) p.resume).modPath place fun q =>
        { (jump sp.restore 0 q) with restorePending := false, lastIssue := s.clock, issued := true, nopStall := 0 }

/-- A path that has executed PSAVE gives up its place to a fragment that has not, such as one pushed since (R40). -/
def swapSaved (s : State) (uid : Nat) : State :=
  match s.wave? uid with
  | none => s
  | some w =>
    match savedGivesUp s w with
    | none => s
    | some (.ok _, s1) => s1
    | some (.error (.fault x), s1) =>
      placeFault s1 w (((w.places.find? fun e => e.2.park == .saved).map Prod.fst).getD 0) x
    | some (.error x, _) => stoppedAgain s x

/-- The safe points a wave's paths take of themselves, outside a handler (R39, R40, R42). -/
def settlePaths (s : State) (uid : Nat) : State :=
  match s.wave? uid with
  | none => s
  | some w =>
    if w.held.isSome then s
    else swapSaved (w.places.foldl (fun s e =>
      match s.wave? uid with
      | none => s
      | some y =>
        match mfind y.places e.1 with
        | none => s
        | some p =>
          if p.restorePending && p.isRunning then enterRestore s y e.1 p
          else if p.savePending && p.isRunning then saveParked s y e.1 p
          else if (p.parkedWait || p.parkedRjoin) && !p.inSave && preemptPending s y then saveParked s y e.1 p
          else s) s) uid

/-! ## PSAVE completes (R40, R41, R324) -/

/-- The record of a path that has executed PSAVE (R40). -/
def savedRecord (p : Path) : List Byte := pathRecord { p with restorePending := true } p.resume

/-- A saved wave's header (R40). -/
def saveHeader (w : Wave) : List Byte :=
  let regions := w.regions.reverse
  leBytes 4 1 ++ leBytes 4 w.mode.toNat ++ leBytes 8 (repWord w.rep) ++
    ((List.range 16).flatMap fun i => leBytes 2 (regions.getD i 0).toNat) ++ leBytes 4 w.regions.length ++ leBytes 4 0 ++
    ((List.range 4).flatMap fun i => match w.sets[i]? with
      | some (n, _) => leBytes 2 (2 ^ 15 + n)
      | none => leBytes 2 0) ++
    ((List.range 8).flatMap fun i => match mfind w.places i with
      | some p => savedRecord p
      | none => leBytes 16 0) ++
    leBytes 8 w.stack.length ++
    ((List.range 4).flatMap fun i => match w.sets[i]? with
      | some (_, pos) => leBytes 2 (pos % 1024)
      | none => leBytes 2 0) ++
    ((List.range 4).flatMap fun i => match w.arrivals[i]? with
      | some r => leBytes 8 (r.addr.toNat / 16 * 16 + 2 + b2n r.phase)
      | none => leBytes 8 0) ++ leBytes 16 0

/-- The records of its fragment stack, the oldest lowest (R32, R40). -/
def saveStack (w : Wave) : List Byte := w.stack.reverse.flatMap fun p => savedRecord p ++ leBytes 16 0

/-- Every live path of the wave has executed PSAVE. -/
def Wave.allSaved (w : Wave) : Bool := !w.livePaths.isEmpty && w.held.isNone && w.livePaths.all fun p => p.park == .saved

/-- A wave of the context has executed PSAVE on every live path, and its conditions hold (R40): flags clear, the log empty,
and its armed records completed or cancelled. Nothing it issued is still outstanding. -/
def saveDue (s : State) (w : Wave) : Bool :=
  w.allSaved && w.pending.isEmpty && w.log.isEmpty &&
    !((s.core w.core).arms.any fun a => a.uid == w.uid && a.state == .committed)

/-- What a block still has on its cores besides its resident waves: entries of retirement trackers, commands, and arrivals
of stages. -/
def blockBusy (s : State) (b : Block) : Bool :=
  stageOwed s b.lid b.bid b.run || (s.waves.any fun w => w.lid == b.lid && w.bid == b.bid && w.run == b.run) ||
    b.shares.any fun h =>
      ((s.core h.core).tracker.any fun t => t.wave.lid == b.lid && t.wave.bid == b.bid && t.wave.run == b.run) ||
      (s.core h.core).channels.any fun ch => ch.any fun c => c.lid == b.lid && c.bid == b.bid && c.run == b.run

/-- The last wave of a block on a core saved: the block's tiles, stages and partial groups there end (R268, R293); an arrival
that a group still has to make stays (R284). -/
def releaseCore (s : State) (w : Wave) : State :=
  let mine : Nat → Nat → Run → Bool := fun lid bid run => lid == w.lid && bid == w.bid && run == w.run
  if s.waves.any fun x => x.core == w.core && mine x.lid x.bid x.run then s
  else
    let c := s.core w.core
    s.setCore w.core { c with
      tiles := (c.tiles.filter fun e => !mine e.2.owner.1 e.2.owner.2.1 e.2.owner.2.2)
      groups := (c.groups.filter fun g => !mine g.lid g.bid g.run || g.owes g.lid g.bid g.run)
      stages := (c.stages.filter fun g => !mine g.lid g.bid g.run) }

/-- The wave joins its block's saved ones, in the order of wave_id. -/
def keepSaved (s : State) (w : Wave) : State :=
  match s.waveBlock w with
  | none => s
  | some b =>
    let old := (b.saved.map SavedBlock.waves).getD []
    let queues := (b.saved.map SavedBlock.queues).getD []
    let kept : SavedBlock := { waves := sortBy (fun x y => decide (x.waveId ≤ y.waveId)) (old ++ [w]), queues := queues,
                               restoring := false }
    s.setBlock { b with saved := some kept }

/-- PSAVE completes (R40): the header and the stack's records are written, what the wave held is freed, and its residency
ends. Its pinned lines are performed at SYS (R119). The MASK packet of a path on the fragment stack, which has no place, names
PATH 7 (DESIGN CHOICE, log entry 100). -/
def completeSave (s : State) (w : Wave) : State :=
  match w.guardRep, w.places with
  | some _, (k, _) :: _ => s.modWave w.uid fun y => y.modPath k fun p => { p with park := .running }
  | _, _ =>
    match writeVirt s (committedActor s w) (slotBase s w) (saveHeader w ++ saveStack w) with
    | (.error (.fault x), s1) => placeFault s1 w ((w.places.head?.map Prod.fst).getD 0) x
    | (.error x, _) => stoppedAgain s x
    | (.ok _, s1) =>
      let s2 := w.stack.foldl (fun s p => emitMask s w 7 5 p.mask p.pc)
        (w.places.foldl (fun s e => emitMask s w e.1 5 e.2.mask e.2.pc) s1)
      let s3 := dissolveAll s2 w
      let s4 := endScopePins { s3 with waves := s3.waves.filter fun x => x.uid != w.uid } fun p => p.uid == w.uid
      kickAll (keepSaved (releaseCore s4 w) w)

/-- A block all of whose waves are saved or gone, with its commands ended, frees its cores; its event queues are kept with
it (R324, R401). -/
def saveBlocks (s : State) : State :=
  s.blocks.foldl (fun s b =>
    if b.phase == .resident && b.saved.isSome && !blockBusy s b then
      let mine : EventQueue → Bool := fun q => q.lid == b.lid && q.bid == b.bid && q.run == b.run
      let queues := b.shares.flatMap fun h => ((s.core h.core).queues.filter mine).map fun q => (h.core, q)
      let s1 := b.shares.foldl (fun s h =>
        let c := s.core h.core
        s.setCore h.core { c with queues := c.queues.filter fun q => !mine q }) s
      kickAll (s1.setBlock { b with phase := .saved, saved := b.saved.map fun (x : SavedBlock) => { x with queues := queues } })
    else s) s

/-- The requests of contexts whose waves are all saved or gone are withdrawn (R401). -/
def withdrawRequests (s : State) : State :=
  s.ctxs.foldl (fun s c =>
    if c.preempt.isSome && !(s.waves.any fun w => w.fn == c.fn && w.ctx == c.id) then
      let saved := s.blocks.any fun b => b.fn == c.fn && b.ctx == c.id && b.saved.isSome
      kickAll (s.setCtx { c with preempt := none, state := if saved && c.state == .running then .preempted else c.state })
    else s) s

/-! ## Unsatisfiable barriers (R157) -/

/-- A wave that can still arrive: a path of it is neither parked in a wait nor at an RJOIN, or an instruction of it stands
in the operand log. -/
def canArrive (w : Wave) : Bool := !w.log.isEmpty || w.allPaths.any fun p => !p.parkedWait && !p.parkedRjoin

/-- The object an address names for a block on a core. -/
def locOf (s : State) (b : Block) (core : Nat) (addr : Word) : Option Loc :=
  let w := blockAgent b core
  match resolve s w .generic addr with
  | .ok t => some (targetLoc (s.waveAsid w) t)
  | .error _ => none

/-- A matrix group, a command or an arm record of a core can still arrive on an object. -/
def coreArrives (s : State) (core : Nat) (c : Core) (obj : Loc) : Bool :=
  (c.groups.any fun g => g.formed && !g.readDone && (match g.stage, s.block? g.lid g.bid g.run with
    | some (_, a), some b => locOf s b core a == some obj
    | none, _ => c.stages.any fun x =>
        x.lid == g.lid && x.bid == g.bid && x.run == g.run && x.base == g.aOff && x.loc == obj
    | _, _ => false)) ||
  (c.channels.any fun ch => ch.any fun x => x.waitSeq.isNone && x.op != opHalo && (match s.block? x.lid x.bid x.run with
    | some b => (readDesc x.op x.desc).barrier != 0 && locOf s b core (readDesc x.op x.desc).barrier == some obj
    | none => false)) ||
  c.arms.any fun a => a.state == .committed && a.loc == obj

/-- A held arrival on the object that is not yet released. -/
def heldArrives (s : State) (obj : Loc) : Bool :=
  s.blocks.any fun b => b.heldItems.any fun i => match i with
    | .arrive o _ => o == obj
    | _ => false

/-- The object lies in an enabled halo window, so a peer may arrive on it at any time. -/
def peerArrives (s : State) (obj : Loc) : Bool :=
  match obj.space with
  | .global asid => inHaloWindow s asid obj.addr
  | _ => false

/-- The path waits on the object. -/
def waitsAt (obj : Loc) (p : Path) : Bool := match p.park with | .barrier o .. => o == obj | _ => false

/-- The waves that count for an object: those of its block for a scratchpad barrier, and those of its launch for a global
one. -/
def countedWaves (s : State) (obj : Loc) (w : Wave) : List Wave :=
  let all := s.waves ++ s.blocks.flatMap fun b => (b.saved.map SavedBlock.waves).getD []
  match obj.space with
  | .global _ => all.filter fun x => x.lid == w.lid
  | _ => all.filter fun x => x.lid == w.lid && x.bid == w.bid && x.run == w.run

/-- Nothing can still arrive on an object that a wave waits on. -/
def unsatisfiable (s : State) (obj : Loc) (w : Wave) : Bool :=
  let unplaced := match obj.space with
    | .global _ => (s.launch? w.lid).any Launch.unplaced
    | _ => false
  !(countedWaves s obj w).any canArrive && !heldArrives s obj && !unplaced && !peerArrives s obj &&
    !s.cores.any fun e => coreArrives s e.1 e.2 obj

/-- A waiter takes BARRIER_UNSATISFIABLE at its wait; in ARRWAIT only the wait half is left. -/
def failWait (s : State) (w : Wave) (place : Nat) (p : Path) : State :=
  let word := match (fetchBundle s w p.pc).1 with
    | .words ws => slotWord ws p.slot
    | _ => 0
  let cut := match p.park.seqNo with
    | some k => w.cutOff k
    | none => w
  let ready := cut.modPath place fun q => { q with park := .running, waitResume := q.park.arrived }
  let t : TrapInfo := { cause := .barrierUnsatisfiable, word := word, bundle := p.pc, slot := p.slot, addr := 0, lanes := none,
                        detail := 0, resumeBundle := p.pc, resumeSlot := p.slot }
  let s1 := enterTrap s ready place t
  match s1.wave? w.uid with
  | none => s1
  | some w1 => match mfind w1.places 0 with
    | some h => if w1.held.isSome then emitMask s1 w 0 3 h.mask h.pc else s1
    | none => s1

/-- Every wave with a waiter of an unsatisfiable barrier takes the trap, one path at a time. -/
def failBarrier (s : State) (obj : Loc) : State :=
  let waiters := s.waves.filter fun w => w.held.isNone && w.places.any fun e => waitsAt obj e.2
  let failed := waiters.filter fun w => unsatisfiable s obj w
  failed.foldl (fun s w =>
    match s.wave? w.uid with
    | none => s
    | some y => match y.places.find? fun e => waitsAt obj e.2 with
      | some e => failWait s y e.1 e.2
      | none => s) s

/-! ## After every step -/

/-- A wave's own affairs. A save first dissolves what its quads still gather (R270, R293). -/
def settleWave (s : State) (uid : Nat) : State :=
  let s1 := settlePaths (joinResume s uid) uid
  let s2 := leaveWave s1 uid
  match s2.wave? uid with
  | none => s2
  | some w =>
    let s3 := if w.allSaved then dissolveAll s2 w else s2
    settleFences (if w.leaving.isNone && saveDue s3 w then completeSave s3 w else s3) uid

/-- Retirement trackers with an entry that has drained (R36). -/
def drainTrackers (s : State) : State :=
  s.cores.foldl (fun s e =>
    match (List.range e.2.tracker.length).find? fun i => (e.2.tracker[i]?).any fun t => drained s t.wave with
    | some i => s.scheduleOnce 0 (.trackerDrain e.1 i)
    | none => s) s

/-- Blocks whose waves have all left and whose engines' arrivals are now made end (R36, R284). -/
def endBlocks (s : State) : State :=
  s.blocks.foldl (fun s b => match s.block? b.lid b.bid b.run with
    | some b1 => if b1.phase == .resident && b1.wavesLeft == 0 && !stageOwed s b.lid b.bid b.run then blockEnd s b1 else s
    | none => s) s

/-- A replay under way admits its next launch once the one before it has ended (R418). -/
def continueReplays (s : State) : State :=
  s.fns.foldl (fun s e =>
    let c := e.2.capture
    if c.state = 3 && !c.pending && !(s.launches.any fun l => l.fn == e.1 && l.replaySum.isSome) then replayNext s e.1 else s) s

/-- What the machine does of itself after a step: among the rest, the phases of killed members complete (R157), channels go on, and faces and outside writes that wait are
tried again (R119, R296, R311). -/
def settleAll (s : State) : State :=
  let s1 := loseMembers (s.waves.foldl (fun s w => settleWave s w.uid) s)
  let s2 := (waitedBarriers s1).foldl failBarrier s1
  withdrawRequests (continueReplays (drainTrackers (saveBlocks (endBlocks (retryDma (retryFaces (settleChannels s2)))))))

end Sys2Proof.Machine
end

