-- ==== Sys2Proof/Machine/Run.lean ====
section
/-! DEFINITION. What the machine does next: the instruction or event a step runs, the acts a step makes without one, and
the placing of one instruction where the machine fetches next. -/

namespace Sys2Proof.Machine

/-- What a step does. -/
inductive Todo where
  /-- it runs an instruction or an event in a state -/
  | run (i : Instr) (s : State)
  /-- it goes to a state without one -/
  | go (s : State)
  /-- the module has no power, and nothing applies it -/
  | off
  deriving DecidableEq, Repr

/-- A word is decoded and run by the path that issues it; one the decoder refuses is that path's cause (R67). -/
def decoded (slot : Nat) (word literal : Word32) (s : State) : Todo :=
  match decodeInstr slot word literal with
  | .ok i => .run i s
  | .error c => .go (decodeStop s c)

/-- An act of a path in this clock. A pending halt request is delivered as a trap before the path's next instruction, and
never inside a handler (R47). -/
def pathAct (s : State) (x : Seated) : Look → Todo
  | .blocked => .go (tick s)
  | .fetchFault f => .go (fetchStop s x f)
  | .bundleTrap c slot addr =>
    .go (bundleStop s x c slot addr (match (fetchBundle s x.1 x.2.2.pc).1 with
      | .words ws => if slot = 0 then 0 else slotWord ws slot
      | _ => 0))
  | .nop ws => .run .nop { s with issue := some (issueOf x.1 x.2.1 x.2.2 ws) }
  | .ready ws =>
    if x.1.haltPending && x.1.held.isNone then .run (.haltTrapDelivery x.1.uid x.2.1) s
    else if repeats x.1 x.2.1 then .run (.repIteration x.1.uid x.2.1) s
    else
      let iss := issueOf x.1 x.2.1 x.2.2 ws
      decoded iss.slot iss.word iss.literal { (fetchBundle s x.1 x.2.2.pc).2 with issue := some iss }

/-- What the outside world does while the module has no power: all that has an effect is that power is applied (R437,
R438). -/
def powerlessAct (s : State) : Todo :=
  match s.inputs.dropWhile fun i => i != .powerOn with
  | i :: rest => .run i { s with inputs := rest }
  | [] => .off

/-- What a step does: an armed instruction issues; then what the outside world does; then the events due; then the paths of
this clock in their order; and then the clock ends. -/
def todo (s : State) : Todo :=
  if !s.mgmt.powered then powerlessAct s
  else match s.issue with
  | some iss => decoded iss.slot iss.word iss.literal s
  | none =>
    match s.inputs with
    | i :: rest => .run i { s with inputs := rest }
    | [] =>
      match s.agenda with
      | (due, i) :: rest =>
        if due ≤ s.clock then .run i { s with agenda := rest }
        else match nextAct s with
          | some (x, a) => pathAct s x a
          | none => .go (tick s)
      | [] => match nextAct s with
        | some (x, a) => pathAct s x a
        | none => .go (tick s)

/-- The outcome of a step's instruction, followed by what the machine does of itself. -/
def settled : Host.Outcome State Fault Refusal → Host.Outcome State Fault Refusal
  | .next s => .next (settleAll s)
  | .fault r => .fault r
  | .refused r => .refused r

/-! ## One instruction placed where the machine fetches next -/

/-- Where a placed instruction's bundle lies, as a virtual and as a physical address. -/
def placedPc : Nat := 0x10000

/-- Bytes of the bundle that holds a placed instruction: no schedule, its word in slot 1, and the word after it in slot 2
(R54, R59). -/
def placedBundle (w : Nat) : List Byte := leBytes 4 0 ++ leBytes 4 w ++ leBytes 4 (w / 2 ^ 32) ++ leBytes 4 0

/-- The context of a placed program (R388). -/
def placedContext : Context :=
  { fn := 0, id := 0, state := .running, asid := 1, rr := false, releaseUnchecked := false, elide := false, root := 0,
    handler := 0, saveBase := 0, saveSize := 0, logBase := 0, logSize := 0, boundUs := 200, preempt := none,
    traceStop := false }

/-- Its launch of one block. -/
def placedLaunch : Launch :=
  { lid := 1, fn := 0, q := 0, ctx := 0, packet := [], header := [], args := [], admittedAt := 0, nextBlock := 1, blocksDone := 0,
    blocksOk := 0, level := 0, sampleK := 0, domain := none, wstage := false, home := 0, marker := false, status := 0, detail := 0,
    phase := 0, priority := 0, waitFault := none, checksum := 0, prev := 0, seeds := [], owners := [], recorded := false,
    replaySum := none }

/-- Its block, of one wave and a share of 64 KiB on core 0. -/
def placedBlock : Block :=
  { lid := 1, bid := 0, run := .plain, fn := 0, ctx := 0, owner := 0, unchecked := false, shares := [{ core := 0, offset := 0 }],
    shareSize := 65536, placedAt := 0, phase := .resident, waveCount := 1, wavesLeft := 1, ss := 0, rs := 0, faulted := none,
    departed := false, atomics := false, atomicIndex := [], txOpen := 0, quadSets := [], heldItems := [], saved := none, coresUsed := [0],
    forced := false }

/-- Its wave: one path with every lane active at the placed bundle, and a budget of all 128 vector registers. -/
def placedWave : Wave :=
  { emptyWave with
    uid := 1, lid := 1, budget := 128, places := [(0, newPath (w64 placedPc) (BitVec.ofNat 32 0xFFFFFFFF))] }

/-- The translation of its code page: 64 KiB that may be written and executed (R376). -/
def placedEntry : TlbEntry :=
  { tlb := tlbOfSlice (hashedSlice 1 placedPc), asid := 1, vbase := 0x10000, size := 0x10000, pbase := 0x10000, w := true,
    x := true, cow := false, nc := false, entry := 0, level := 3 }

/-- A program of one instruction loaded and placed, so that the next step fetches and runs it: function 0 with one context, a
launch of one block of one wave, its code page in the TLB, and nothing else for the machine to do first. -/
def loadWord (s : State) (w : Nat) : State :=
  let f := s.func 0
  let s1 := (s.setFunc 0 { f with enable := true, asidFirst := 1, asidCount := 1, mapStat := 0 }).setPart 0 0 emptyPart
  let s2 := s1.setGrove 0 { s1.grove 0 with switchUntil := 0, charge := 0 }
  { s2 with
    inputs := [], agenda := [], issue := none
    mgmt := { s.mgmt with powered := true }
    waves := [placedWave], blocks := [placedBlock], launches := [placedLaunch]
    ctxs := placedContext :: (s.ctxs.filter fun c => c.asid != 1 && !(c.fn == 0 && c.id == 0))
    tlb := placedEntry :: s.tlb
    l2 := s.l2.filter (fun l => l.asid != 1), l1 := s.l1.filter (fun l => l.asid != 1)
    classes := s.classes.filter (fun r => r.asid != 1), classCopies := s.classCopies.filter fun r => r.asid != 1
    counter := Nat.max s.counter 1
    dram := writeBytes s.dram placedPc (placedBundle w) }

end Sys2Proof.Machine
end

