-- ==== Sys2Proof/Machine/Step.lean ====
section
/-! DEFINITION. One step of the machine. -/

namespace Sys2Proof.Machine

/-- One step (R437 for a module without power). -/
def step (s : State) : Host.Outcome State Fault Refusal :=
  match todo s with
  | .run i s' => settled (exec i s')
  | .go s' => settled (.next s')
  | .off => .fault .powerOff

/-- The state with one instruction loaded where the next step fetches (log entry 5). -/
def State.withFetchWord (s : State) (nbits w : Nat) : State := loadWord s (w % 2 ^ nbits)

end Sys2Proof.Machine
end

