-- ==== Sys2Proof/Safety.lean ====
section
/-! DEFINITION. What claims call a well-formed or a safe state of the machine. -/

namespace Sys2Proof.Machine

/-- The three memories keep their canonical form: addresses strictly rising, and no entry equal to an unwritten byte. -/
def State.memoriesWf (s : State) : Bool := Memory.wf s.dram && Memory.wf s.scratch && Memory.wf s.weight

/-- A path stands behind the armed instruction, when one is armed. -/
def State.issuerPresent (s : State) : Bool := s.issue.isNone || (env? s).isSome

/-- Every pre-emption request is one of a context that still has a resident wave (R401). -/
def State.requestsLive (s : State) : Bool :=
  s.ctxs.all fun c => c.preempt.isNone || s.waves.any fun w => w.fn == c.fn && w.ctx == c.id

/-! ## An instruction that issues -/

/-- A path stands behind the armed instruction, and the checks of R67 pass for `i`. -/
def Issues (i : Instr) (s : State) (e : Env) : Prop := env? s = some e ∧ preCheck e i = none

/-- The state in which an instruction that moves on in order has its effect: the accounts of its issue made, and the path
past it. -/
def past (i : Instr) (s : State) (e : Env) : State := advance (account s e i.scalarForm) e i.takesLiteral

/-- The state after an instruction whose results `ws` are written `lat` clocks after its issue. `s` holds its other
effects. -/
def finished (e : Env) (s : State) (lat : Nat) (ws : List RegWrite) : State := (pend s e (some lat) ws .none false 0).2

/-- The wave but for its paths, its REPSTATE, the slot that issued last and the time since which held writes of its are refused
(R355): registers, mode, flags and every other component stand as they were. -/
def keepsWave (w w' : Wave) : Prop :=
  w' = { w with places := w'.places, rep := w'.rep, lastSlot := w'.lastSlot, refused := w'.refused }

/-- The register writes of a lane-wise result: one for each lane evaluated, to the destination in that lane (R168, R170). -/
def Env.results (e : Env) (d : OpCode) (f : Nat → Word) : List RegWrite := (e.evalLanes d).flatMap fun l => destWrite d l (f l)

/-- The destination and the result type of the lane-wise instructions that never divide (R165 to R187, R193 to R207), from
the spec's instruction tables. -/
def laneForm (et : EType) : Instr → Option (OpCode × EType)
  | .add d _ _ | .sub d _ _ | .mul d _ _ | .fma d _ _ | .fms d _ _ | .fnma d _ _ | .min d _ _ | .max d _ _ | .abs d _
  | .neg d _ | .adds d _ _ | .subs d _ _ | .mulhi d _ _ | .madi d _ _ | .and d _ _ | .or d _ _ | .xor d _ _ | .andn d _ _
  | .shl d _ _ | .shrl d _ _ | .shra d _ _ | .rol d _ _ | .sel d _ _ _ | .mov d _ | .movs d _ | .scaleb d _ _ | .rndint d _
  | .frcp2 d _ | .shfl d _ _ _ | .bcast d _ _ | .pdep d _ _ | .pext d _ _ | .popc d _ | .clz d _ | .ctz d _ | .brev d _
  | .gfmul8 d _ _ | .clmul d _ _ | .clmulh d _ _ | .rcp d _ | .rsq d _ | .sqrt d _ | .exp2 d _ | .log2 d _ | .sinpi d _
  | .cospi d _ | .tanh d _ | .divf d _ _ => some (d, et)
  | .movl d _ | .iota d _ _ | .pget d _ | .bmm d _ _ | .bmmx d _ _ | .bfx d _ _ | .bfi d _ _ | .byteperm d _ _
  | .bperm d _ _ => some (d, .n64)
  | .dot2 d _ _ | .dot4 d _ _ => some (d, if et.isFloat then .f32x2 else if et.isSigned then .i32x2 else .n32x2)
  | .sad d _ _ => some (d, .n32x2)
  | .cvt d _ lit | .cvtr d _ lit => some (d, (etypeOf (litBits lit 0 4)).getD .n64)
  | .pack d _ _ => some (d, narrowerType et)
  | .widen d _ _ => some (d, widerType et)
  | .dec8 d _ _ | .dec6 d _ _ => some (d, .bf16x4)
  | .enc8 d _ _ => some (d, .t8x8)
  | .enc6 d _ => some (d, .t6x10)
  | _ => none

/-- Clocks from issue to completion of a vector or a bit-and-function instruction, by the classes of R165 and R192. -/
def classLatency (et : EType) : Instr → Nat
  | .plogic .. | .pset .. | .pget .. | .pmov .. => 2
  | .add .. | .sub .. | .fma .. | .fms .. | .fnma .. => if et = .f64 then 6 else 4
  | .mul .. | .mulhi .. | .madi .. => if et = .i64 ∨ et = .n64 ∨ et = .f64 then 6 else 4
  | .shfl .. | .bcast .. | .lreduce .. | .lscan .. | .ballot .. | .vote .. => 8
  | .divi .. | .remi .. => 40
  | .bperm .. => 8
  | .rcp .. | .rsq .. | .sqrt .. | .exp2 .. | .log2 .. | .sinpi .. | .cospi .. | .tanh .. => 16
  | .divf .. => 32
  | .bmm .. | .bmmx .. | .pdep .. | .pext .. | .popc .. | .clz .. | .ctz .. | .brev .. | .bfx .. | .bfi .. | .gfmul8 ..
  | .clmul .. | .clmulh .. | .byteperm .. | .bpld .. => 6
  | _ => 4

/-! ## Memory accesses -/

/-- An access on a path may be performed now: no fence of the path is pending, the operand log holds nothing it overlaps,
and the wave has no transaction open (R50, R116, R257). -/
def accessFree (s : State) (e : Env) (path : AccessPath) (op : MemOp) : Prop :=
  fenced e.w path = false ∧ overlapsLog s e.w op = false ∧ e.w.tx = []

/-- No active lane of the path is transactional, nor lane 0, for which an instruction of uniform operands is performed: no
lane of it aborts with UNSUPPORTED (R257). -/
def plainLanes (e : Env) : Prop := ∀ l, l = 0 ∨ l ∈ e.lanes → e.w.inTx l = false

/-- An instruction that no transaction supports may be performed now on a path: no lane of its is transactional, no fence of
the path is pending, and the operand log holds nothing it overlaps (R50, R116, R257). -/
def pathFree (s : State) (e : Env) (path : AccessPath) (op : MemOp) : Prop :=
  fenced e.w path = false ∧ overlapsLog s e.w op = false ∧ plainLanes e

/-- A release on the object at an address has nothing to wait for: no logged store of the wave meets a region bound to the
object (R50, R113). -/
def releaseFree (s : State) (e : Env) (addr : Word) : Prop := releaseWaits s e.w addr = false

/-- The L2's lines are in form: each tag has one line, each line at most one copy of a sector, of 64 bytes, each dirty sector
lies in its line's frame, and no two lines hold dirty sectors of one place. -/
def State.cachesWf (s : State) : Prop :=
  (s.l2.map fun l => (l.asid, l.line)).Nodup ∧
  (∀ l ∈ s.l2, (l.sectors.map Prod.fst).Nodup ∧
    ∀ x ∈ l.sectors, x.2.bytes.length = 64 ∧ (x.2.dirty = true → x.1 < 4 ∧ l.pa % 256 = 0)) ∧
  (∀ l ∈ s.l2, ∀ m ∈ s.l2, ∀ x ∈ l.sectors, ∀ y ∈ m.sectors, x.2.dirty = true → y.2.dirty = true →
    l.pa / 64 + x.1 = m.pa / 64 + y.1 → l.asid = m.asid ∧ l.line = m.line)

/-- The per-lane loads (R216, R217, R221, R222): how an address is taken, the D, A and B fields, the width in bytes, and
whether the value is sign-extended. -/
def loadForm (et : EType) : Instr → Option (AddrForm × OpCode × OpCode × OpCode × Nat × Bool)
  | .ld8 d a b => some (.generic, d, a, b, 1, et.isSigned)
  | .ld16 d a b => some (.generic, d, a, b, 2, et.isSigned)
  | .ld32 d a b => some (.generic, d, a, b, 4, et.isSigned)
  | .ld64 d a b => some (.generic, d, a, b, 8, et.isSigned)
  | .sld d a b lit => some (.share, d, a, b, 2 ^ litBits lit 0 2, lit.getLsbD 2)
  | .nld d a b lit => some (.neighbour (litBits lit 8 3), d, a, b, 2 ^ litBits lit 0 2, lit.getLsbD 2)
  | .wld d a b => some (.weight, d, a, b, 8, false)
  | _ => none

/-- The per-lane stores (R216, R217, R221): how an address is taken, the D, A and B fields, and the width in bytes. -/
def storeForm : Instr → Option (AddrForm × OpCode × OpCode × OpCode × Nat)
  | .st8 d a b => some (.generic, d, a, b, 1)
  | .st16 d a b => some (.generic, d, a, b, 2)
  | .st32 d a b => some (.generic, d, a, b, 4)
  | .st64 d a b => some (.generic, d, a, b, 8)
  | .sst d a b lit => some (.share, d, a, b, 2 ^ litBits lit 0 2)
  | .nst d a b lit => some (.neighbour (litBits lit 8 3), d, a, b, 2 ^ litBits lit 0 2)
  | _ => none

/-- The lanes of an access with their addresses, base plus index times width, and their data (R214). -/
def laneAccesses (e : Env) (d a b : OpCode) (width : Nat) (data data2 : Nat → Word) : List LaneAcc :=
  (if isSCode d then [0] else e.taking).map fun l =>
    { lane := l, addr := e.u a + e.i b l * w64 width, width := width, data := data l, data2 := data2 l }

/-- The loads and stores that a transactional lane performs in its sets (R256): LD8 to LD64, ST8 to ST64, LDL and STL, with the
access each makes. -/
def txForm (e : Env) : Instr → Option MemOp
  | .ldl d a b => some { loadOp e .generic d a b 16 false with kind := .loadPair }
  | .stl d a b => let op := storeOp e .generic d a b 16
    some { op with kind := .storePair, lanes := op.lanes.map fun l => { l with data2 := e.w.vreg (d.toNat + 1) l.lane } }
  | .ld8 d a b => some (loadOp e .generic d a b 1 e.et.isSigned)
  | .ld16 d a b => some (loadOp e .generic d a b 2 e.et.isSigned)
  | .ld32 d a b => some (loadOp e .generic d a b 4 e.et.isSigned)
  | .ld64 d a b => some (loadOp e .generic d a b 8 e.et.isSigned)
  | .st8 d a b => some (storeOp e .generic d a b 1)
  | .st16 d a b => some (storeOp e .generic d a b 2)
  | .st32 d a b => some (storeOp e .generic d a b 4)
  | .st64 d a b => some (storeOp e .generic d a b 8)
  | _ => none

/-- The lanes of CSTR and XLD: the k-th selected lane at the base plus 8 k (R223). -/
def slotAccesses (e : Env) (a p : OpCode) (data : Nat → Word) : List LaneAcc :=
  let sel := e.taking.filter fun l => (e.w.preg (p.toNat - 0xC0) l).getLsbD 0
  (List.range sel.length).map fun k =>
    { lane := sel.getD k 0, addr := e.u a + w64 (8 * k), width := 8, data := data (sel.getD k 0), data2 := 0 }

/-- A performed memory instruction outstanding: it completes `lat` clocks from now. -/
def performed (e : Env) (s : State) (lat : Nat) (ws : List RegWrite) (path : AccessPath) (store : Bool) (ss : Nat) : State :=
  (pend s e (some lat) ws path store ss).2

/-- A byte of a virtual space, at a physical address, that a list of translated accesses of the space does not store to. -/
def offGlobal (asid : Nat) (ts : List (LaneAcc × Target × Nat)) (asid' a q : Nat) : Prop :=
  ∀ x ∈ ts, ∀ va, x.2.1 = .global va →
    (asid' ≠ asid ∨ a < va ∨ va + x.1.width ≤ a) ∧ (q < x.2.2 ∨ x.2.2 + x.1.width ≤ q)

/-- A byte of the scratchpads, by its place among them all, that a list of accesses does not store to. -/
def offScratch (ts : List (LaneAcc × Target × Nat)) (q : Nat) : Prop :=
  ∀ x ∈ ts, ∀ core off phys, x.2.1 = .scratch core off phys →
    q < scratchKey core phys ∨ scratchKey core phys + x.1.width ≤ q

/-- What lanes' stores leave (R4, R214): `t` has had the stores `ts` of an actor performed, `r` is the machine before them with
its pages translated, and `s` the machine before that. In a run that is not held, a lane's bytes that no other lane stores
to read, at its global address, as it stored them; in a scratchpad those outside the guard granules do; and every byte
outside the stored ones stands as it was. -/
def storesOnly (s r t : State) (A : Actor) (kind : MemKind) (ts : List (LaneAcc × Target × Nat)) : Prop :=
  (∀ asid va q, asid ≠ 0 → offGlobal A.asid ts asid va q ∨ A.held = true → taggedByte t asid va q = taggedByte r asid va q) ∧
  (∀ q, (offScratch ts q → readByte t.scratch q = readByte s.scratch q) ∧ readByte t.weight q = readByte s.weight q) ∧
  (∀ x ∈ ts, let bytes := storeBytes kind x.1
    let others := ts.filter fun y => y != x
    (∀ va, x.2.1 = .global va → A.held = false → A.asid ≠ 0 → s.cachesWf →
      (∀ k, k < bytes.length → offGlobal A.asid others A.asid (va + k) (x.2.2 + k)) →
      taggedBytes t A.asid va x.2.2 bytes.length = bytes) ∧
    (∀ core off phys, x.2.1 = .scratch core off phys →
      (∀ k, k < bytes.length → offScratch others (scratchKey core (phys + k))) →
      ∀ k, k < bytes.length → readByte t.scratch (scratchKey core (phys + k)) =
        if guarded r core (phys + k) then readByte s.scratch (scratchKey core (phys + k)) else bytes.getD k 0))

/-- A synchronisation object is reached: its address passes the checks of R215 and is translated. -/
def reaches (s : State) (e : Env) (addr : Word) (width : Nat) (writes : Bool) (o : ObjAt) (r : State) : Prop :=
  ∀ op, accessObj s e.w (waveActor s e.w) addr width width writes op = (.ok o, r)

/-- The path no longer resumes a wait, and the instruction is outstanding until `lat` clocks from now. -/
def synced (e : Env) (s : State) (lat : Nat) (ws : List RegWrite) (store : Bool) (ss : Nat) : Nat × State :=
  pend (e.move s fun p => { p with waitResume := false }) e (some lat) ws .ls store ss

/-- A wait that is not met: the path stands at its instruction, parked, with its completion pending; until then its
destination's registers `ws` hold their place in the order of results (R135). -/
def parks (e : Env) (s : State) (ws : List RegWrite) (park : Nat → Nat → Park) (ss : Nat) : State :=
  let r := pend { s with counter := s.counter + 1 } e none ws .none false ss
  e.move r.2 fun p => { p with pc := e.iss.bundle, slot := e.iss.slot, fresh := false, park := park r.1 s.counter
                               waitResume := p.waitResume && park r.1 s.counter == .saved }

/-- A context killed with a status (R36, R43, R399, R401): no wave, resident or in a retirement tracker, no block, held version or
Cascade domain of its launches is left, the others' waves and blocks stand, and each of its launches has the status, unless it
has one that goes before it (R398), waits for nothing, and is to complete. -/
def ctxKilled (s t : State) (fn id status : Nat) : Prop :=
  (∀ l ∈ s.launches, l.inCtx fn id = true →
    (∀ w ∈ t.waves, w.lid ≠ l.lid) ∧ (∀ e ∈ t.cores, ∀ x ∈ e.2.tracker, x.wave.lid ≠ l.lid) ∧ (∀ b ∈ t.blocks, b.lid ≠ l.lid) ∧
    (∀ h ∈ t.heldSectors, h.lid ≠ l.lid) ∧ (∀ d ∈ t.domains, d.lid ≠ l.lid) ∧
    { l with status := mergeStatus l.status status, waitFault := none } ∈ t.launches ∧
    ∃ due, (due, Instr.launchCompletion l.lid) ∈ t.agenda) ∧
  (∀ w ∈ s.waves, (∀ l ∈ s.launches, l.inCtx fn id = true → w.lid ≠ l.lid) → w ∈ t.waves) ∧
  (∀ b ∈ s.blocks, (∀ l ∈ s.launches, l.inCtx fn id = true → b.lid ≠ l.lid) → b ∈ t.blocks)

/-- What an MMA or MMAZ is checked for, in the order of R277, with the state right after its issue. -/
def mmaChecks (e : Env) (r : State) (zero : Bool) (acc : Nat) (addr : Word) (b : Nat) (f : FmtBlock) (set pos : Nat) : Prop :=
  ¬ (f.acc = 1 ∧ acc % 2 = 1) ∧ b + bGroup f.bf ≤ min e.w.budget 128 ∧ quadOf r e.w = some (set, pos) ∧
  aCheck r e.w addr f = none ∧ foreignTile (r.core e.w.core) e.w f.acc acc = none ∧
  (zero = false → fmtMatches (r.core e.w.core) f.acc acc = true) ∧
  (∀ g, stageAt (r.core e.w.core) e.w.lid e.w.bid e.w.run (addr.toNat % 2 ^ 20) = some g → g.broken = false)

/-- The request an atomic, LRES or SCOND sends to its home (R241, R243, R253, R254): 4 or 8 bytes at each lane's address,
16 for an exact cell, with the operand B and, for ACAS, the compare value D. -/
def requestOf (e : Env) (i : Instr) : Option MemOp :=
  let int := fun (k : AtomicOp) d a b lit => some (atomicOp e k d a lit i.scalarForm (e.i b) fun _ => 0)
  match i with
  | .aadd d a b lit => int .add d a b lit
  | .amin d a b lit => int .min d a b lit
  | .amax d a b lit => int .max d a b lit
  | .aand d a b lit => int .and d a b lit
  | .aor d a b lit => int .or d a b lit
  | .axor d a b lit => int .xor d a b lit
  | .aswp d a b lit => int .swap d a b lit
  | .acas d a b lit => some (atomicOp e .cas d a lit i.scalarForm (e.i b) (e.i d))
  | .afadd d a b lit => some (atomicOp e .fadd d a lit i.scalarForm (e.f (bitOf lit.toNat 4) b) fun _ => 0)
  | .axadd d a b lit => some (atomicOp e .xadd d a lit i.scalarForm (e.f (bitOf lit.toNat 4) b) fun _ => 0)
  | .lres d a lit => some (lresOp e i d a lit)
  | .scond d a b lit => some { plainOp .scond with
      dest := d, mask := e.p.mask, scalar := i.scalarForm, scope := litBits lit 0 3
      lanes := (if i.scalarForm then [0] else e.taking).map fun l =>
        { lane := l, addr := e.i a l, width := 8, data := e.i b l, data2 := 0 } }
  | _ => none

/-- The instructions that no transaction supports (R257), with the lanes each is issued for and what it does, in a state, for
those of them that it is performed for. -/
def unsupportedForm (e : Env) (i : Instr) : Option (List Nat × (State → (Nat → Bool) → Effect)) :=
  let perLane := fun (o : MemOp) (f : State → MemOp → Effect) =>
    some (o.lanes.map LaneAcc.lane, fun (s : State) (keep : Nat → Bool) => f s { o with lanes := o.lanes.filter fun l => keep l.lane })
  let whole := fun (f : State → Mask → Effect) =>
    some (e.lanes, fun (s : State) (keep : Nat → Bool) => f s (maskOf (e.lanes.filter keep)))
  let domain := fun (ls : List Nat) (f : State → List Nat → Effect) =>
    some (ls, fun (s : State) (keep : Nat → Bool) => f s (ls.filter keep))
  let region := fun (a b : OpCode) (f : State → Nat → Nat → Effect) => whole fun s _ => f s (e.u a).toNat (e.u b).toNat
  let object := fun (o : MemOp) => whole fun s keep => syncRun e s { o with mask := keep }
  let command := fun (o : MemOp) => whole fun s keep => commandIssue e s { o with mask := keep }
  match i with
  | .aadd .. | .amin .. | .amax .. | .aand .. | .aor .. | .axor .. | .aswp .. | .acas .. | .afadd .. | .axadd .. | .lres ..
  | .scond .. => (requestOf e i).bind fun o => perLane o fun s o => atomicIssue e s o
  | .cstr d a p => perLane { plainOp .compressStore with lanes := packedLanes e a p (e.x d) } fun s o => memRun e .ls s o performLanes
  | .xld d a p => perLane { plainOp .expandLoad with dest := d, mask := e.p.mask, lanes := packedLanes e a p fun _ => 0 }
      fun s o => memRun e .ls s o performLanes
  | .tld d a b lit => whole fun s keep => memRun e .ls s (tileLoadOp e d a b lit keep) performTile
  | .tst d a b lit => whole fun s _ => memRun e .ls s (tileStoreOp e d a b lit) performTile
  | .ldacq d a b lit => perLane (acquireOp e d a b lit) fun s o => acquireRun e s o
  | .strel d a b lit => perLane (releaseOp e d a b lit) fun s o => releaseStore e s o
  | .sealRegion a b => region a b fun s base len => sealRun e s base len true
  | .unsealRegion a b => region a b fun s base len => sealRun e s base len false
  | .pin a b => region a b fun s base len => pinRun e s base len
  | .unpin a b => region a b fun s base len => unpinRun e s base len
  | .cinv a b => region a b fun s base len => cinvRun e s base len
  | .cwb a b => region a b fun s base len => cwbRun e s base len
  | .arrive a b => object (objOp e .arrive (e.u a) (e.u b) 0 0xD0)
  | .waitb d a => object (objOp e .waitb (e.u a) 0 0 d)
  | .arrwait d a b => object (objOp e .arrwait (e.u a) (e.u b) 0 d)
  | .signal a b => object (objOp e .signal (e.u a) (e.u b) 0 0xD0)
  | .sigwait d a b => object (objOp e .sigwait (e.u a) (e.u b) 0 d)
  | .bind d a b => object (objOp e .bind (e.u a) (e.u d) (e.u b) 0xD0)
  | .unbind a b => object (objOp e .unbind (e.u a) 0 (e.u b) 0xD0)
  | .cpy d a => command (commandOp e opCpy d (e.u a) 0)
  | .cpyd d a => command (commandOp e opCpyd d (e.u a) 0)
  | .cpym d a => command (commandOp e opCpym d (e.u a) 0)
  | .cpymc d a => command (commandOp e opCpymc d (e.u a) 0)
  | .cpyn d a => command (commandOp e opCpyn d (e.u a) 0)
  | .cpyx d a => command (commandOp e opCpyx d (e.u a) 0)
  | .wsld d a => command (commandOp e opWsld d (e.u a) 0)
  | .halo d a b => command (commandOp e opHalo d (e.u a) (e.u b))
  | .mfmt a => whole fun s _ => fmtRun e s (e.u a)
  | .mma acc a b => whole fun s _ => mmaRun e s false acc.toNat (e.u a) b.toNat
  | .mmaz acc a b => whole fun s _ => mmaRun e s true acc.toNat (e.u a) b.toNat
  | .mbatch n => whole fun s _ => batchClose e s n.toNat
  | .mwait n => whole fun s _ => batchWait e s n.toNat
  | .mstage n a b => whole fun s _ => stageRun e s n.toNat (e.u a) (e.u b)
  | .mdrain acc a b => whole fun s _ => drainRun e s acc.toNat (e.u a) (e.u b)
  | .maccld acc a => whole fun s _ => fillRun e s acc.toNat (e.u a)
  | .mstat d acc => whole fun s keep => e.finish s 4 (destAll d keep (w64 (tileStatus s e.w acc.toNat)))
  | .wpush a b => domain (if isUniform a && isUniform b then [0] else e.taking) fun s ls => pushRun e s (tasksOf e a b ls)
  | .wpop d => domain e.taking fun s ls => popRun e s d ls false
  | .wpopw d => domain e.taking fun s ls => popRun e s d ls true
  | .wdone => domain e.taking fun s ls => closeRun e s ls
  | .wfloor d => domain (e.memLanes d) fun s ls => wordIssue e s d ls fun x _ => floorWord x
  | .wstat d => domain (e.memLanes d) fun s ls => wordIssue e s d ls fun x l => domainWord s x e.w l
  | _ => none

/-- Nothing comes before the test for a transaction (R257): a region's operands pass their checks and it waits for nothing, no
guard report is due at an arrival or wait, and the instruction is none of the three that an elided section performs (R263). -/
def metAsUnsupported (r : State) (e : Env) (i : Instr) : Prop :=
  let region := fun (a b : OpCode) (granule : Nat) =>
    regionCheck (e.u a) (e.u b) granule = none ∧ regionWaits e r (e.u a).toNat (e.u b).toNat = false
  match i with
  | .sealRegion a b | .unsealRegion a b | .pin a b | .unpin a b => region a b 256
  | .cinv a b | .cwb a b => region a b 64
  | .arrive .. | .waitb .. | .arrwait .. => e.w.guardRep = none
  | .lres _ _ lit => (bitOf lit.toNat 8 && elides r e.w) = false ∧
      e.w.elisions.all (fun x => !(x.plain && x.bundle == e.iss.bundle && x.slot == e.iss.slot && x.path == e.p.born)) = true
  | .scond .. => ∀ x o, e.w.sectionOf e.p = some x → requestOf e i = some o →
      onLockLine r e.w { o with lanes := o.lanes.take 1 } x = false
  | .strel d a b lit => ∀ x, e.w.sectionOf e.p = some x → onLockLine r e.w (releaseOp e d a b lit) x = false
  | _ => True

end Sys2Proof.Machine
end

