-- ==== Sys2Proof/Certificates/Slice0/Obligations.lean ====
section
/-! DEFINITION. The statements made of the model. Each docstring names the rules of the spec it formalises; what rests on a
choice of the model says so. -/

open Sys2Proof Sys2Proof.Machine

/-! ## Decoding, encoding and the step -/

/-- The decoder reads every instruction back from the words the encoder writes for it, at every value of every operand,
whatever word follows one that takes no literal; a literal stands in a later slot of the bundle (R58, R59, R69 to R74). -/
def Obligations.DecodeEncodeAgree : Prop :=
  ∀ (i : Instr) (w : Word32) (lit : Option Word32) (next : Word32) (slot : Nat), i.encodable = true →
    encode i = some (w, lit) → (lit.isSome = true → slot < 3) → decodeInstr slot w (lit.getD next) = .ok i

/-- Every opcode R68 lists as unassigned is refused with ILLEGAL_OPCODE, in every slot and whatever the word's other fields
hold. -/
def Obligations.UnassignedOpcodesRefused : Prop :=
  ∀ (slot : Nat) (w next : Word32),
    let n := (rawWord w).op.toNat
    (0x5D ≤ n ∧ n ≤ 0x5F) ∨ (0x79 ≤ n ∧ n ≤ 0x7F) ∨ (0x9E ≤ n ∧ n ≤ 0x9F) ∨ (0xB9 ≤ n ∧ n ≤ 0xBF) ∨
      (0xCD ≤ n ∧ n ≤ 0xCF) ∨ (0xD6 ≤ n ∧ n ≤ 0xD7) ∨ (0xDB ≤ n ∧ n ≤ 0xDF) ∨ 0xE3 ≤ n →
    decodeInstr slot w next = .error .illegalOpcode

/-- Words written out from the spec's own tables decode to the instructions they stand for, one of each family (R69 to R74, with
the form tables of R240, R273, R295, R360 and R404): fields D, A and B hold operand codes (v1 0x01, v2 0x02, v3 0x03, s4 0x84,
s10 0x8A), and a literal follows, which slot 3 has no room for (R59). -/
def Obligations.SampleWordsDecode : Prop :=
  decodeInstr 1 0x00000000 0 = .ok .nop ∧
  decodeInstr 1 0x20010203 0 = .ok (.add 0x01 0x02 0x03) ∧
  decodeInstr 1 0x60010203 0 = .ok (.bmm 0x01 0x02 0x03) ∧
  decodeInstr 1 0x83018402 0 = .ok (.ld64 0x01 0x84 0x02) ∧
  decodeInstr 1 0xAA8A8400 0x00000005 = .ok (.lres 0x8A 0x84 0x00000005) ∧
  decodeInstr 3 0xAA8A8400 0x00000005 = .error .literalSlot ∧
  decodeInstr 1 0xB7008A93 0 = .ok (.mstage 0x00 0x8A 0x93) ∧
  decodeInstr 1 0xCA009594 0 = .ok (.arm 0x95 0x94) ∧
  decodeInstr 1 0xD0000804 0 = .ok (.wpush 0x08 0x04) ∧
  decodeInstr 1 0xD9070100 0 = .ok (.cksig 0x07 0x01) ∧
  decodeInstr 1 0xDA001234 0 = .ok (.tmark 0x1234) ∧
  decodeInstr 1 0xE18A0000 0 = .ok (.clkq 0x8A)

/-- A step runs the instruction at the program counter. With power, no act of the outside world and no event due, a path that
the scheduler offers, whose bundle is fetched, runs the instruction its slot decodes to, on the state in which that slot is
armed, and then the machine settles; a word the decoder refuses traps there. Outside acts come first, then due events; an
instruction already armed runs as itself. -/
def Obligations.StepRunsTheDecodedInstruction : Prop :=
  (∀ (s : State) (x : Seated) (ws : List Word32), s.mgmt.powered = true → s.issue = none → s.inputs = [] →
    (∀ d i rest, s.agenda = (d, i) :: rest → s.clock < d) → nextAct s = some (x, .ready ws) →
    (x.1.haltPending && x.1.held.isNone) = false → repeats x.1 x.2.1 = false →
    let iss := issueOf x.1 x.2.1 x.2.2 ws
    let s' : State := { (fetchBundle s x.1 x.2.2.pc).2 with issue := some iss }
    (∀ i, decodeInstr iss.slot iss.word iss.literal = .ok i → step s = settled (exec i s')) ∧
    (∀ c, decodeInstr iss.slot iss.word iss.literal = .error c → step s = .next (settleAll (decodeStop s' c)))) ∧
  (∀ (s : State) (i : Instr) (rest : List Instr), s.mgmt.powered = true → s.issue = none → s.inputs = i :: rest →
    step s = settled (exec i { s with inputs := rest })) ∧
  (∀ (s : State) (d : Nat) (i : Instr) (rest : List (Nat × Instr)), s.mgmt.powered = true → s.issue = none →
    s.inputs = [] → s.agenda = (d, i) :: rest → d ≤ s.clock → step s = settled (exec i { s with agenda := rest })) ∧
  (∀ (s : State) (iss : Issue) (i : Instr), s.mgmt.powered = true → s.issue = some iss →
    decodeInstr iss.slot iss.word iss.literal = .ok i → step s = settled (exec i s))

/-- No instruction and no event stops the machine. With a path behind the armed instruction every instruction answers a next
state, and every event answers one in every state: a fault of the device is a state in which its trap, record or status
stands (R1, R49). A step stops only without power: it faults exactly when the module has no power and the outside world does
not apply it, and then the reason is that (R437, R438). -/
def Obligations.EveryInstructionAnswersAndOnlyPowerStops : Prop :=
  (∀ (i : Instr) (s : State),
     ((env? s).isSome = true → ∃ t, exec i s = .next t) ∧ (encode i = none → ∃ t, exec i s = .next t)) ∧
  (∀ (s : State) (r : Fault), step s = .fault r ↔
     (r = .powerOff ∧ s.mgmt.powered = false ∧ Instr.powerOn ∉ s.inputs))

/-- A pre-emption request stands only while its context has a resident wave (R401): after every step, from any state
whatever, no request is left on a context none of whose waves is resident. -/
def Obligations.StepKeepsRequestsLive : Prop :=
  ∀ s t : State, step s = .next t → t.requestsLive = true

/-- The machine right after reset has no pre-emption request without a resident wave. What module reset leaves (R435), with
the reset values the register tables give (R385, R387, R412, R430): nothing resident, every register file, scratchpad, tile
and weight-store byte zero, demerits and fences clear, and the registers at their reset values. The epoch's number, the
bring-up step and the life-cycle state are the model's choice (log entry 6). -/
def Obligations.ResetState : Prop :=
  (State.reset.requestsLive = true) ∧
  (let s := State.reset
   s.waves = [] ∧ s.blocks = [] ∧ s.launches = [] ∧ s.ctxs = [] ∧ s.heldSectors = [] ∧ s.tlb = [] ∧ s.seals = [] ∧
   s.pins = [] ∧ s.l2 = [] ∧ s.l1 = [] ∧ s.issue = none ∧ s.clock = 0 ∧ s.ageInt = 500 ∧
   (∀ a, readByte s.scratch a = 0) ∧ (∀ a, readByte s.weight a = 0) ∧
   (∀ c, (s.core c).demerits = 0 ∧ (s.core c).fenced = false ∧ (s.core c).tiles = [] ∧
     (s.core c).channels = [[], [], [], []] ∧ (s.core c).guards = []) ∧
   (∀ f q, (s.func f).enable = false ∧ (f < 16 → readRegister s 1 0 (0x40 * f) 8 = 0) ∧ (s.func f).preemptEv = 0 ∧
     (s.func f).faultTail = 0 ∧ (s.func f).faultHead = 0 ∧ (s.func f).mapStat = 0 ∧
     mget emptyQueue (s.func f).queues q = emptyQueue) ∧
   (∀ f, f < 16 → readRegister s 2 f 0x200 8 = 0x80000) ∧
   readRegister s 0 0 0x000 8 = 3000 ∧ readRegister s 0 0 0x008 8 = 20000000 ∧ readRegister s 0 0 0x010 8 = 12000000 ∧
   readRegister s 0 0 0x018 8 = 95 ∧ readRegister s 0 0 0x020 8 = 105 ∧ readRegister s 0 0 0x510 8 = 200 ∧ readRegister s 1 0 0x400 8 = 500 ∧
   (∀ g, g < 128 → readRegister s 0 0 (0x100 + 8 * g) 8 = 0x5))

/-- Memory reads back what was written: after bytes are written at an address, the bytes there read as written, every other
byte reads as before, and the canonical form is kept; clearing a range makes it read zero and leaves the rest. A multi-byte
value stored at an address has its least significant byte there, and is read back whole (R4). -/
def Obligations.MemoryReadsBackLittleEndian : Prop :=
  (∀ (m : List Host.Cell) (a : Nat) (xs : List Byte) (n : Nat),
     readBytes (writeBytes m a xs) a xs.length = xs ∧
     (∀ b, b < a ∨ a + xs.length ≤ b → readByte (writeBytes m a xs) b = readByte m b) ∧
     (∀ b, readByte (clearRange m a n) b = if a ≤ b ∧ b < a + n then 0 else readByte m b) ∧
     (Memory.wf m = true → Memory.wf (writeBytes m a xs) = true ∧ Memory.wf (clearRange m a n) = true)) ∧
  (∀ (m : List Host.Cell) (a n x : Nat),
     leNat (readBytes (writeBytes m a (leBytes n x)) a n) = x % 256 ^ n ∧
     (∀ k, k < n → (readByte (writeBytes m a (leBytes n x)) (a + k)).toNat = x / 256 ^ k % 256))

/-! ## Vector and bit-and-function instructions -/

/-- The lane-wise instructions complete. While FPX is clear, each one that issues answers the state in which its path has
moved past it, and after the latency of its class (R165, R192) its result stands in every lane evaluated; a sub-element the
guard does not let through keeps its old bits (R167, R168). With FPX set the same instructions complete in the same way, or
raise FP_EXCEPTION with the lanes named, and nothing else (R169). -/
def Obligations.LanewiseInstructionsComplete : Prop :=
  (∀ (i : Instr) (s : State) (e : Env) (d : OpCode) (t : EType), Issues i s e → laneForm e.et i = some (d, t) →
     modeFpx e.w.mode = false →
     ∃ v : Nat → Word, exec i s = .next (finished e (past i s e) (classLatency e.et i) (e.results d v)) ∧
       ∀ l ∈ e.evalLanes d, ∀ j, j < cnt t → e.writes d l j t = false → sub (v l) t j = sub (e.base d l) t j) ∧
  (∀ (i : Instr) (s : State) (e : Env) (d : OpCode) (t : EType), Issues i s e → laneForm e.et i = some (d, t) →
     (∃ v : Nat → Word, exec i s = .next (finished e (past i s e) (classLatency e.et i) (e.results d v))) ∨
     (modeFpx e.w.mode = true ∧ ∃ (lanes : Mask) (detail : Word), exec i s =
       .next (takeTrap (account s e i.scalarForm) e i.takesLiteral .fpException (some lanes) 0 detail)))

/-- ADD, SUB and MUL on integers without saturation give the sum, difference and product of the sub-elements modulo two to
their width, whether the type is signed or not (R86, R168, R172). ADDC and SUBB (R176): each passing sub-element gets the sum
with the carry, or the difference with the borrow, modulo two to its width, and the carry out or borrow out fills the
sub-element's bits of the predicate the literal names; the others keep their bits. The compares and CLASS complete. While FPX
is clear each writes, 4 clocks later, one predicate byte in every active lane: a byte's bit that belongs to a sub-element the
guard lets through is the outcome, and the others keep their value; on integers the outcome is the compare of the two numbers
(R167, R178, R179). -/
def Obligations.IntegerArithmeticCarriesAndCompares : Prop :=
  (∀ (s : State) (e : Env) (d a b : OpCode), e.et.isInt = true → modeSat e.w.mode = false →
     let n := 2 ^ e.et.wid
     let x := fun l j => sub (e.x a l) e.et j
     let y := fun l j => sub (e.x b l) e.et j
     let gives := fun (i : Instr) (f : Nat → Nat → Nat) => Issues i s e → ∃ v : Nat → Word,
       exec i s = .next (finished e (past i s e) (classLatency e.et i) (e.results d v)) ∧
       ∀ l ∈ e.evalLanes d, ∀ j, j < cnt e.et → e.writes d l j e.et = true → sub (v l) e.et j = f l j
     gives (.add d a b) (fun l j => (x l j + y l j) % n) ∧
     gives (.sub d a b) (fun l j => (x l j + n - y l j) % n) ∧
     gives (.mul d a b) (fun l j => (x l j * y l j) % n)) ∧
  (∀ (s : State) (e : Env) (d a b : OpCode) (lit : Word32), e.et.isInt = true →
     let pI := litBits lit 0 3
     let pO := litBits lit 4 3
     let n := 2 ^ e.et.wid
     let x := fun l j => sub (e.x a l) e.et j
     let y := fun l j => sub (e.x b l) e.et j
     let c := fun l j => if (e.w.preg pI l).getLsbD (e.et.wid * j / 8) then 1 else 0
     let gives := fun (i : Instr) (f : Nat → Nat → Nat) (out : Nat → Nat → Bool) => Issues i s e →
       ∃ (v : Nat → Word) (p : Nat → Byte),
         exec i s = .next (finished e (past i s e) 4 (e.lanes.flatMap fun l =>
           destWrite d l (v l) ++ [{ file := .predicate, key := 32 * pO + l, value := (p l).setWidth 64 }])) ∧
         ∀ l ∈ e.lanes, ∀ j, j < cnt e.et →
           (e.pass l j e.et = true → sub (v l) e.et j = f l j ∧
             ∀ q, e.et.wid * j ≤ 8 * q → 8 * q < e.et.wid * (j + 1) → (p l).getLsbD q = out l j) ∧
           (e.pass l j e.et = false → sub (v l) e.et j = sub (e.base d l) e.et j ∧
             ∀ q, e.et.wid * j ≤ 8 * q → 8 * q < e.et.wid * (j + 1) → (p l).getLsbD q = (e.w.preg pO l).getLsbD q)
     gives (.addc d a b lit) (fun l j => (x l j + y l j + c l j) % n) (fun l j => decide (n ≤ x l j + y l j + c l j)) ∧
     gives (.subb d a b lit) (fun l j => (x l j + n + n - y l j - c l j) % n) (fun l j => decide (x l j < y l j + c l j))) ∧
  (∀ (s : State) (e : Env) (d a b : OpCode) (lit : Word32), modeFpx e.w.mode = false →
     let byteOf := fun q => 8 * q / e.et.wid
     let gives := fun (i : Instr) (f : Option (Int → Int → Bool)) => Issues i s e → ∃ v : Nat → Byte,
       exec i s = .next (finished e (past i s e) 4 (e.lanes.flatMap fun l => destWrite d l ((v l).setWidth 64))) ∧
       ∀ l ∈ e.lanes, ∀ q, q < 8 →
         (e.pass l (byteOf q) e.et = false → (v l).getLsbD q = (e.pbyte d l).getLsbD q) ∧
         (e.pass l (byteOf q) e.et = true → e.et.isInt = true → ∀ g, f = some g → (v l).getLsbD q =
           g (intOf e.et (sub (e.x a l) e.et (byteOf q))) (intOf e.et (sub (e.x b l) e.et (byteOf q))))
     gives (.cmpeq d a b) (some fun x y => decide (x = y)) ∧
     gives (.cmpne d a b) (some fun x y => decide (x ≠ y)) ∧
     gives (.cmplt d a b) (some fun x y => decide (x < y)) ∧
     gives (.cmple d a b) (some fun x y => decide (x ≤ y)) ∧
     gives (.cmpun d a b) none ∧
     gives (.cls d a lit) none)

/-- AND, OR, XOR and ANDN act on all 64 bits, under the guard of ETYPE and with bits 63:60 of a T6x10 result zero; SHL, SHRL,
SHRA and ROL shift each sub-element of A by the count of B's sub-element modulo the width: left and right filling with zeros,
right filling with the top bit, and around (R177). SAT plays no part: no hypothesis names it. -/
def Obligations.LogicAndShifts : Prop :=
  ∀ (s : State) (e : Env) (d a b : OpCode),
    let w := e.et.wid
    let n := fun l j => sub (e.x b l) e.et j % w
    let gives := fun (i : Instr) (f : Nat → Nat → Nat → Bool) => Issues i s e → ∃ v : Nat → Word,
      exec i s = .next (finished e (past i s e) 4 (e.results d v)) ∧
      (∀ l ∈ e.evalLanes d, ∀ j, j < cnt e.et → ∀ k, k < w → (v l).getLsbD (w * j + k) =
        if e.writes d l j e.et then f l j k else (e.base d l).getLsbD (w * j + k)) ∧
      (e.et = .t6x10 → ∀ l ∈ e.evalLanes d, ∀ q, 60 ≤ q → (v l).getLsbD q = false)
    let x := fun l q => (e.x a l).getLsbD q
    let y := fun l q => (e.x b l).getLsbD q
    gives (.and d a b) (fun l j k => x l (w * j + k) && y l (w * j + k)) ∧
    gives (.or d a b) (fun l j k => x l (w * j + k) || y l (w * j + k)) ∧
    gives (.xor d a b) (fun l j k => x l (w * j + k) ^^ y l (w * j + k)) ∧
    gives (.andn d a b) (fun l j k => x l (w * j + k) && !y l (w * j + k)) ∧
    gives (.shl d a b) (fun l j k => decide (n l j ≤ k) && x l (w * j + (k - n l j))) ∧
    gives (.shrl d a b) (fun l j k => decide (k + n l j < w) && x l (w * j + (k + n l j))) ∧
    gives (.shra d a b) (fun l j k => x l (w * j + if k + n l j < w then k + n l j else w - 1)) ∧
    gives (.rol d a b) (fun l j k => x l (w * j + (k + (w - n l j)) % w))

/-- DIVI and REMI (R174): with a zero divisor in a sub-element that passes the guard they raise DIVIDE_BY_ZERO, write
nothing, and name the lanes concerned, lane 0 alone for the scalar form (the model's choice, log entry 23), with a detail word of
zero; otherwise DIVI gives the quotient rounded toward zero,
saturated under SAT and modulo two to the width without, and REMI the dividend less divisor times quotient. -/
def Obligations.Division : Prop :=
  ∀ (s : State) (e : Env) (d a b : OpCode), e.et.isInt = true →
    let x := fun l j => intOf e.et (sub (e.x a l) e.et j)
    let y := fun l j => intOf e.et (sub (e.x b l) e.et j)
    let zero := fun l => (List.range (cnt e.et)).any fun j => e.writes d l j e.et && y l j == 0
    let bad := (e.evalLanes d).filter zero
    let gives := fun (i : Instr) (f : Nat → Nat → Int) => Issues i s e →
      (bad ≠ [] → exec i s =
        .next (takeTrap (account s e i.scalarForm) e i.takesLiteral .divideByZero (some (maskOf bad)) 0 0)) ∧
      (bad = [] → ∃ v : Nat → Word, exec i s = .next (finished e (past i s e) 40 (e.results d v)) ∧
        ∀ l ∈ e.evalLanes d, ∀ j, j < cnt e.et → e.writes d l j e.et = true →
          sub (v l) e.et j = lowBits e.et.wid (f l j))
    gives (.divi d a b) (fun l j => let q := (x l j).tdiv (y l j)
      if modeSat e.w.mode then max (intLo e.et) (min q (intHi e.et)) else q) ∧
    gives (.remi d a b) (fun l j => x l j - y l j * (x l j).tdiv (y l j))

/-- BALLOT and VOTE (R189) read bit 0 of the predicate in the active lanes that pass the guard at lane granularity, and write
one value: the mask of the lanes whose bit is set, or whether all bits are set, whether one is, whether all agree, or how
many are set. Every active lane of a v destination gets it, whatever the guard, and an s destination once. -/
def Obligations.BallotAndVote : Prop :=
  ∀ (s : State) (e : Env) (d p : OpCode) (lit : Word32), isPCode p = true →
    let voters := e.lanes.filter fun l => e.pass l 0 .i64
    let yes := fun l => (e.w.preg (p.toNat - 0xC0) l).getLsbD 0
    let value := match litBits lit 0 2 with
      | 0 => if voters.all yes then 1 else 0
      | 1 => if voters.any yes then 1 else 0
      | 2 => if voters.all yes ∨ voters.any yes = false then 1 else 0
      | _ => (voters.filter yes).length
    (Issues (.ballot d p) s e → ∃ m : Word,
      exec (.ballot d p) s = .next (finished e (past (.ballot d p) s e) 8 (e.all d m)) ∧
      ∀ q, m.getLsbD q = decide (q ∈ voters ∧ yes q = true)) ∧
    (Issues (.vote d p lit) s e →
      exec (.vote d p lit) s = .next (finished e (past (.vote d p lit) s e) 8 (e.all d (w64 value))))

/-- The predicate instructions (R190): bit j of a predicate destination in an active lane is written only when bit j of the
guard predicate differs from GINV, or GEN is 0; PLOGIC writes the truth table's bit for the two source bits, PSET the
literal's byte, PMOV the low byte of its operand. PGET writes the predicate byte, zero-extended, under the guard's bit 0. -/
def Obligations.PredicateInstructions : Prop :=
  ∀ (s : State) (e : Env) (d a b : OpCode) (lit : Word32),
    let open_ := fun l j => !modeGen e.w.mode || ((e.w.preg (modeGp e.w.mode) l).getLsbD j != modeGinv e.w.mode)
    let gives := fun (i : Instr) (f : Nat → Nat → Bool) => Issues i s e → ∃ v : Nat → Byte,
      exec i s = .next (finished e (past i s e) 2 (e.lanes.flatMap fun l => destWrite d l ((v l).setWidth 64))) ∧
      ∀ l ∈ e.lanes, ∀ j, j < 8 → (v l).getLsbD j = if open_ l j then f l j else (e.pbyte d l).getLsbD j
    gives (.plogic d a b lit) (fun l j => lit.getLsbD
      (2 * (if (e.pbyte a l).getLsbD j then 1 else 0) + if (e.pbyte b l).getLsbD j then 1 else 0)) ∧
    gives (.pset d lit) (fun _ j => lit.getLsbD j) ∧
    gives (.pmov d a) (fun l j => (e.x a l).getLsbD j) ∧
    (Issues (.pget d a) s e → ∃ v : Nat → Word,
      exec (.pget d a) s = .next (finished e (past (.pget d a) s e) 2 (e.results d v)) ∧
      ∀ l ∈ e.evalLanes d, v l = if isSCode d || open_ l 0 then (e.pbyte a l).setWidth 64 else e.base d l)

/-- BMM and BMMX (R195): bit 8 r + c of the product is the XOR over k of a's bit 8 r + k and b's bit 8 k + c; BMMX XORs it
into the destination's old value, a null destination reading 0. -/
def Obligations.BitMatrixMultiply : Prop :=
  ∀ (s : State) (e : Env) (d a b : OpCode),
    let cell := fun l r c => (List.range 8).foldl
      (fun acc k => acc ^^ ((e.x a l).getLsbD (8 * r + k) && (e.x b l).getLsbD (8 * k + c))) false
    let gives := fun (i : Instr) (f : Nat → Nat → Nat → Bool) => Issues i s e → ∃ v : Nat → Word,
      exec i s = .next (finished e (past i s e) 6 (e.results d v)) ∧
      ∀ l ∈ e.evalLanes d, ∀ r c, r < 8 → c < 8 → (v l).getLsbD (8 * r + c) =
        if e.writes d l 0 .i64 then f l r c else (e.base d l).getLsbD (8 * r + c)
    gives (.bmm d a b) cell ∧
    gives (.bmmx d a b) (fun l r c => (e.base d l).getLsbD (8 * r + c) ^^ cell l r c)

/-- LREDUCE and LSCAN complete while FPX is clear (R188): LREDUCE writes one value to every active lane of a v destination or
once to an s destination, and LSCAN one to each active lane. An LREDUCE of operation 0 on integers without saturation gives,
at each position, the sum of the contributors' sub-elements modulo two to the width. BPLD loads a slot once for the wave from
the 384 bits of six s registers: index j is bits 6 j + 5 to 6 j, all 64 together, 6 clocks later. BPERM reads the slot at
issue and gives, in every active lane that passes the guard, bit j of the result as the bit of A that index j names (R200,
R201). -/
def Obligations.ReductionsAndPermutations : Prop :=
  (∀ (s : State) (e : Env) (d a : OpCode) (lit : Word32), modeFpx e.w.mode = false →
     (Issues (.lreduce d a lit) s e → ∃ v : Word,
       exec (.lreduce d a lit) s = .next (finished e (past (.lreduce d a lit) s e) 8 (e.all d v)) ∧
       (e.et.isInt = true → modeSat e.w.mode = false → litBits lit 0 4 = 0 → ∀ j, j < cnt e.et →
         sub v e.et j = (((e.lanes.filter fun l => e.pass l j e.et).map fun l => sub (e.x a l) e.et j).sum) % 2 ^ e.et.wid)) ∧
     (Issues (.lscan d a lit) s e → ∃ v : Nat → Word,
       exec (.lscan d a lit) s = .next (finished e (past (.lscan d a lit) s e) 8 (e.lanes.flatMap fun l => destWrite d l (v l))))) ∧
  (∀ (s : State) (e : Env) (d a : OpCode) (k : Byte),
     (Issues (.bpld k a) s e → ∃ x : Nat → Word,
       exec (.bpld k a) s = .next (finished e (past (.bpld k a) s e) 6
         ((List.range 64).map fun j => { file := .permutation, key := 64 * k.toNat + j, value := x j })) ∧
       ∀ j, j < 64 → ∀ q, (x j).getLsbD q = (decide (q < 6) &&
         (e.w.sreg (a.toNat - 0x80 + (6 * j + q) / 64)).getLsbD ((6 * j + q) % 64))) ∧
     (Issues (.bperm d a k) s e → ∃ v : Nat → Word,
       exec (.bperm d a k) s = .next (finished e (past (.bperm d a k) s e) 8 (e.results d v)) ∧
       ∀ l ∈ e.evalLanes d, ∀ j, j < 64 → (v l).getLsbD j =
         if e.writes d l 0 .i64 then (e.x a l).getLsbD (mget 0 e.w.perm (64 * k.toNat + j)) else (e.base d l).getLsbD j))

/-! ## Issue, exceptions and the sequencer -/

/-- What an issue with a result to come leaves alone (R38, R131, R134). Of the whole machine only the waves, the partition's
and the grove's accounts, the agenda and the consumed issue record change: no byte of memory, no other wave, and of the
issuing wave only its paths, its REPSTATE and which slot issued last, the flag SETF names, raised by one, the list of
outstanding instructions, which gains this one at its end, and the time since which a write of the path was refused (R355), which
is over. The registers change when it completes. -/
def Obligations.IssueFrame : Prop :=
  ∀ (i : Instr) (s : State) (e : Env) (lat : Nat) (ws : List RegWrite), Issues i s e →
    let t := finished e (past i s e) lat ws
    t = { s with waves := t.waves, parts := t.parts, groves := t.groves, issue := none
                 agenda := insertEvent (s.clock + lat) (.instructionComplete e.w.uid e.w.nextSeq) s.agenda } ∧
    (∀ a, readByte t.dram a = readByte s.dram a ∧ readByte t.scratch a = readByte s.scratch a ∧
      readByte t.weight a = readByte s.weight a) ∧
    (∀ u, u ≠ e.w.uid → t.wave? u = s.wave? u) ∧
    ∃ w c, t.wave? e.w.uid = some w ∧
      w = { e.w.raise e.iss.setf with
              nextSeq := e.w.nextSeq + 1, pending := e.w.pending ++ [c], places := w.places, rep := w.rep
              lastSlot := w.lastSlot, refused := e.w.refused.filter fun x => x.1 != .path e.p.born } ∧
      c.seqNo = e.w.nextSeq ∧ c.setf = e.iss.setf ∧ c.writes = ws ∧ c.returned = false

/-- An instruction that fails a check of R67 takes that exception in place of its effect: PRIVILEGED, MODE_INVALID,
REG_BUDGET, REP_BUDGET or RESERVED_FIELD, with no lane, address or detail of its own. TRAP takes SOFTWARE_TRAP with its code
as the detail (R162). -/
def Obligations.FailedChecksAndTrapInstruction : Prop :=
  (∀ (i : Instr) (s : State) (e : Env) (c : Cause), (encode i).isSome = true → i ≠ .nop → env? s = some e →
     preCheck e i = some c →
     exec i s = .next (takeTrap (account s e i.scalarForm) e i.takesLiteral c none 0 0)) ∧
  (∀ (s : State) (e : Env) (code : BitVec 16), Issues (.trap code) s e →
     exec (.trap code) s = .next (takeTrap (account s e false) e false .softwareTrap none 0 (code.setWidth 64)))

/-- Taking an exception (R44). When the context names a handler and the wave is in none, the wave's s56 to s62 hold the frame
(the word, the innermost region, whether the cause is restartable and precise, the slot and the cause's code; the bundle; the
address; the mask and the lanes; the detail; the resume point; the mode), the mode is zero, one path runs, at the handler
with the mask of the faulting path, the other paths and REPSTATE wait in the held copy, and every transactional lane that has not
aborted before does so with TRAP (R260, R262). No other s register and no v register or predicate changes. A path of an elided
section resumes at the section's LRES, which is then performed plainly, and the section's lanes are in no transaction any more
(R263). The four ways an exception ends the context or the run
instead (R46, R49): without a handler a cause other than HALT_REQUEST, and inside a handler any cause, which is then
DOUBLE_FAULT. A HALT_REQUEST without a handler does nothing. -/
def Obligations.TakingAnException : Prop :=
  (∀ (s : State) (e : Env) (lit : Bool) (c : Cause) (lanes : Option Mask) (addr detail : Word) (w : Wave) (x : Context)
     (p : Path), s.wave? e.w.uid = some w → s.waveCtx w = some x → mfind w.places e.iss.place = some p → x.handler ≠ 0 →
     w.held = none → w.section? = none →
     let word := if e.iss.iteration.isSome then e.iss.nextWord else e.iss.word
     let resume := if c.resumesNext then afterSlot e.iss.bundle e.iss.slot lit else (e.iss.bundle, e.iss.slot)
     ∃ w' h hc, (takeTrap s e lit c lanes addr detail).wave? e.w.uid = some w' ∧
       w'.s = (((((((w.setS 56 (w64 (word.toNat * 2 ^ 32 + (w.regions.headD 0).toNat * 2 ^ 16 +
           (if c.restartable then 2 ^ 9 else 0) + (if c.precise then 2 ^ 8 else 0) + e.iss.slot * 2 ^ 6 + c.code))).setS
         57 e.iss.bundle).setS 58 addr).setS 59 (w64 (p.mask.toNat * 2 ^ 32 + (lanes.getD p.mask).toNat))).setS 60
         detail).setS 61 (w64 (resume.1.toNat / 16 * 16 + resume.2))).setS 62 (w.mode.setWidth 64)).s ∧
       w'.v = w.v ∧ w'.p = w.p ∧ w'.mode = 0 ∧ w'.places = [(0, h)] ∧ w'.stack = [] ∧ w'.rep = emptyRep ∧
       h.pc = x.handler ∧ h.slot = 1 ∧ h.fresh = true ∧ h.mask = p.mask ∧ h.park = .running ∧
       w'.held = some hc ∧ hc.stack = w.stack ∧ hc.faultPlace = e.iss.place ∧ (c ≠ .repBudget → hc.rep = w.rep) ∧
       w'.tx = w.tx.map fun t => if t.status = 0 then { t with status := 7, code := 0, sectors := [] } else t) ∧
  (∀ (s : State) (e : Env) (lit : Bool) (c : Cause) (lanes : Option Mask) (addr detail : Word) (w : Wave) (x : Context)
     (p : Path) (y : Elision), s.wave? e.w.uid = some w → s.waveCtx w = some x → mfind w.places e.iss.place = some p →
     x.handler ≠ 0 → w.held = none → w.sectionOf p = some y →
     ∃ w' h hc q z, (takeTrap s e lit c lanes addr detail).wave? e.w.uid = some w' ∧
       w'.mode = 0 ∧ w'.places = [(0, h)] ∧ w'.stack = [] ∧ h.pc = x.handler ∧ h.mask = p.mask ∧
       w'.sreg 57 = e.iss.bundle ∧ w'.sreg 61 = w64 (y.bundle.toNat / 16 * 16 + y.slot) ∧
       w'.held = some hc ∧ hc.faultPlace = e.iss.place ∧ mfind hc.places e.iss.place = some q ∧
       q.pc = w64 (y.bundle.toNat / 16 * 16) ∧ q.park = .running ∧
       z ∈ w'.elisions ∧ z.path = p.born ∧ z.plain = true ∧ z.bundle = y.bundle ∧ z.slot = y.slot ∧
       (∀ t ∈ w'.tx, t.status ≠ 0 ∧ t.lane ∉ y.lanes)) ∧
  (∀ (s : State) (w : Wave) (x : Context) (place : Nat) (p : Path) (t : TrapInfo), s.waveCtx w = some x →
     mfind w.places place = some p →
     (w.held.isSome = true → enterTrap s w place t = waveError s w t.bundle .doubleFault) ∧
     (w.held = none → x.handler = 0 → t.cause ≠ .haltRequest → enterTrap s w place t = waveError s w t.bundle t.cause) ∧
     (w.held = none → x.handler = 0 → t.cause = .haltRequest → enterTrap s w place t = s))

/-- TRET (R45): the mode comes from s62, its low byte reading zero, and the held paths and REPSTATE come back, the faulting path at
the bundle and slot of s61, slot 0 being the bundle's start; a repeat of the faulting path is dropped when s61 no longer names where
it stood (R147). That a set bit 3 or 2 of s61 is ignored is the model's choice (log entry 79). Outside a handler TRET raises
PRIVILEGED; while the handler has another live path it is DOUBLE_FAULT. A halt request held through the handler is taken at once,
before the first instruction at the resume point, which the new frame's s61 and s62 name (R47). -/
def Obligations.ReturnFromException : Prop :=
  ∀ (s : State) (e : Env), Issues .tret s e →
    (e.w.held = none → exec .tret s = .next (takeTrap (account s e false) e false .privileged none 0 0)) ∧
    (∀ h, e.w.held = some h → (∃ x ∈ e.w.places, x.1 ≠ e.iss.place) →
      exec .tret s = .next (waveError (past .tret s e) e.w e.iss.bundle .doubleFault)) ∧
    (∀ h p, e.w.held = some h → (∀ x ∈ e.w.places, x.1 = e.iss.place) → e.w.haltPending = false →
      mfind h.places h.faultPlace = some p →
      let r := (e.w.sreg 61).toNat
      let same := p.pc = w64 (r / 16 * 16) ∧ (if r % 4 = 0 then p.fresh = true else p.fresh = false ∧ p.slot = r % 4)
      ∃ (t : State) (w : Wave) (q : Path), exec .tret s = .next t ∧ t.wave? e.w.uid = some w.refill ∧
        w.mode = ((e.w.sreg 62).setWidth 24 >>> 8) <<< 8 ∧ w.held = none ∧ w.stack = h.stack ∧ w.lastSlot = h.lastSlot ∧
        w.rep = (if h.rep.valid = true ∧ h.rep.path = h.faultPlace ∧ ¬ same then emptyRep else h.rep) ∧
        w.places = mput h.places h.faultPlace q ∧ q.mask = p.mask ∧ q.pc = w64 (r / 16 * 16) ∧
        q.slot = (if r % 4 = 0 then 1 else r % 4) ∧ q.fresh = decide (r % 4 = 0) ∧ q.park = .running ∧
        w.s = e.w.s ∧ w.v = e.w.v ∧ w.p = e.w.p) ∧
    (∀ h p x, e.w.held = some h → (∀ y ∈ e.w.places, y.1 = e.iss.place) → e.w.haltPending = true → e.w.section? = none →
      s.waveCtx e.w = some x → x.handler ≠ 0 → h.faultPlace < 2 → mfind h.places h.faultPlace = some p →
      ∃ (t : State) (w : Wave) (q : Path) (hc : HeldCopy), exec .tret s = .next t ∧ t.wave? e.w.uid = some w ∧
        w.haltPending = false ∧ w.mode = 0 ∧ w.places = [(0, q)] ∧ q.pc = x.handler ∧ q.mask = p.mask ∧
        w.held = some hc ∧ hc.faultPlace = h.faultPlace ∧
        w.sreg 61 = w64 ((e.w.sreg 61).toNat / 16 * 16 + (e.w.sreg 61).toNat % 4) ∧
        w.sreg 62 = w64 ((e.w.sreg 62).toNat / 256 % 2 ^ 16 * 256))

/-- SETMODE writes the mode at its issue, before the path's next instruction; a reserved code or a set low byte is
MODE_INVALID and writes nothing (R66). GETMODE writes the mode's 24 bits to every active lane, or once (R148). SYSRD writes a
system register's value to every active lane, or once, 2 clocks later; SYSWR guards a granule of the wave's own share on its
core (0x103), frees one (0x104), or, for any other writable register, does nothing (R163, R164, R219, R237). Of the
registers, WAVEPOS, FLAGCNT and CYCLE read as R164 lays them out, and PINSTAT the lines asked and pinned. RGNIN pushes its
identifier, dropping the oldest of sixteen, RGNOUT pops the innermost, and each emits its packet (R160, R403, R410); TMARK
emits its packet and has no other effect (R404). With no stop pending. -/
def Obligations.ModeAndSystemRegisters : Prop :=
  (∀ (s : State) (e : Env) (lit : Word32) (d : OpCode),
     let valid := litBits lit 20 4 < 14 ∧ litBits lit 17 3 < 5 ∧ litBits lit 0 8 = 0
     (Issues (.setmode lit) s e → valid → exec (.setmode lit) s =
       .next (finished e ((past (.setmode lit) s e).modWave e.w.uid fun w => { w with mode := lit.setWidth 24 }) 0 [])) ∧
     (Issues (.setmode lit) s e → ¬ valid →
       exec (.setmode lit) s = .next (takeTrap (account s e false) e true .modeInvalid none 0 0)) ∧
     (Issues (.getmode d) s e →
       exec (.getmode d) s = .next (finished e (past (.getmode d) s e) 2 (e.all d (e.w.mode.setWidth 64))))) ∧
  (∀ (s : State) (e : Env) (d a : OpCode) (lit : Word32),
     let n := litBits lit 0 16
     (Issues (.sysrd d lit) s e →
       exec (.sysrd d lit) s = .next (finished e (past (.sysrd d lit) s e) 2 (e.all d (sysReg (past (.sysrd d lit) s e) e.w n)))) ∧
     (Issues (.syswr a lit) s e →
       let r := past (.syswr a lit) s e
       (n ≠ 0x103 → n ≠ 0x104 → exec (.syswr a lit) s = .next (finished e r 1 [])) ∧
       (∀ c off phys, shareTarget r e.w e.w.core (e.u a).toNat = .ok (.scratch c off phys) →
         let others := (r.core c).guards.filter fun g => g != phys / 64
         (n = 0x103 → exec (.syswr a lit) s = .next (finished e (r.setCore c { r.core c with guards := others ++ [phys / 64] }) 1 [])) ∧
         (n = 0x104 → exec (.syswr a lit) s = .next (finished e (r.setCore c { r.core c with guards := others }) 1 [])))) ∧
     (∀ w : Wave, sysReg s w 1 = w64 (w.core * 2 ^ 10 + w.part * 2 ^ 6 + w.wslot) ∧ sysReg s w 3 = w.flagWord ∧
       sysReg s w 7 = w64 s.clock ∧ sysReg s w 0x102 = w64 (w.pinAsked * 2 ^ 32 + w.pinMade))) ∧
  (∀ (s : State) (e : Env) (x : BitVec 16), e.w.watchStop = false → e.w.traceStop = false →
     let gives := fun (i : Instr) (regions : List (BitVec 16)) (kind : Nat) => Issues i s e →
       exec i s = .next (finished e (emitRegion ((past i s e).modWave e.w.uid fun w => { w with regions := regions })
         e.w e.iss.place kind x.toNat regions) 1 [])
     gives (.rgnin x) ((x :: e.w.regions).take 16) 0 ∧
     gives (.rgnout x) e.w.regions.tail (if e.w.regions.head? = some x then 1 else 2) ∧
     (Issues (.tmark x) s e → exec (.tmark x) s =
       .next (finished e (emitRegion (past (.tmark x) s e) e.w e.iss.place 3 x.toNat e.w.regions) 1 [])))

/-- NOP does nothing but let its path move on: no account is made and nothing is left outstanding, a WAIT not yet met stays,
and its STALL adds to the distance of the path's next instruction (R134); one whose SETF is 13 to 15 raises RESERVED_FIELD (R56).
YIELD makes its path the youngest of the partition after its bundle's last issued slot, under GTO (R138, R150). WAITF goes on when every flag its mask names holds at most n,
and otherwise stays unissued (R149). REP starts a repeat of the next instruction, count + 1 times, with REPSTATE; a count of
0 passes over that instruction, and is its bundle's last issued slot where nothing follows it (R138, R146, R147). -/
def Obligations.NopYieldWaitAndRepeat : Prop :=
  (∀ (s : State) (e : Env), env? s = some e → e.iss.setf < 13 →
     exec .nop s = .next (e.move { s with issue := none } fun p =>
       { p with
         pc := if e.iss.slot < 3 then e.iss.bundle else e.iss.bundle + 16
         slot := if e.iss.slot < 3 then e.iss.slot + 1 else 1
         fresh := decide (3 ≤ e.iss.slot) || p.fresh
         nopStall := p.nopStall + e.iss.stall })) ∧
  (∀ (s : State) (e : Env), env? s = some e → 13 ≤ e.iss.setf →
     exec .nop s = .next (takeTrap { s with issue := none } e false .reservedField none 0 0)) ∧
  (∀ (s : State) (e : Env) (n count stride : Byte) (flags : BitVec 16),
     (Issues .yield s e → exec .yield s = .next (finished e (e.move (past .yield s e) fun p =>
       if e.iss.isLast then yieldAt (past .yield s e) e p else { p with yieldPending := true }) 1 [])) ∧
     (Issues (.waitf n flags) s e → e.w.cellReps = [] →
       let met := ∀ k, k < 12 → flags.getLsbD k = true → e.w.flag k ≤ n.toNat
       (met → exec (.waitf n flags) s = .next (finished e (past (.waitf n flags) s e) 1 [])) ∧
       (¬ met → exec (.waitf n flags) s = .next (noteTried s e 7))) ∧
     (Issues (.rep count stride) s e → repMisused e.iss.slot stride e.iss.nextWord = false → e.w.rep.valid = false →
       (count = 0 → exec (.rep count stride) s = .next (finished e (e.move (past (.rep count stride) s e) fun p =>
         let at' := afterSlot e.iss.bundle (e.iss.slot + 1) (wordTakesLiteral e.iss.nextWord)
         let q := { p with pc := at'.1, slot := if at'.2 = 0 then 1 else at'.2, fresh := at'.2 == 0 }
         if e.iss.skipYield then yieldAt (past (.rep count stride) s e) e { q with yieldPending := false } else q) 1 [])) ∧
       (count ≠ 0 → exec (.rep count stride) s = .next (finished e ((past (.rep count stride) s e).modWave e.w.uid fun w =>
         { w with rep := { valid := true, path := e.iss.place, stride := stride, next := 0, left := count.toNat + 1 } }) 1 []))))

/-- The branches (R142, R143). With no lane taking it the path goes on at the next bundle; with every lane taking it, at the
target; otherwise it splits: the smaller part, the taking one when they are equal, becomes a new path in the free
program-counter slot, else in the lowest free fragment place, else on the fragment stack, and the larger keeps the place.
With 64 paths on the stack the branch is FRAGMENT_OVERFLOW. BRA takes with every lane, BRP with those whose predicate byte's
bit 0 is set, BRU with all when its operand is not zero. JMPI, CALL, CALLI and RET move the whole path (R144): to the
operand, to the bundle's address plus 16 times the offset, or, for RET, to the bundle and slot laid out as s61 is. CALL and
CALLI write the next bundle's address. A target that is no bundle is MISALIGNED and one beyond 52 bits ILLEGAL_ADDRESS (for
RET the model's choice, log entry 23), with the target as the address. -/
def Obligations.BranchesJumpsAndCalls : Prop :=
  (∀ (s : State) (e : Env) (p u : OpCode) (far : BitVec 24) (near : BitVec 16),
     let next := e.iss.bundle + 16
     let traceOf := fun i (m : Mask) => emit (past i s e) e.w e.iss.place 2 0 m.toNat e.iss.bundle.toNat
     let gives := fun (i : Instr) (r : State) (take : Mask) (target : Word) => Issues i s e →
       let stay := e.p.mask &&& ~~~take
       let taking := e.p.mask &&& take
       let smaller := popc taking ≤ popc stay
       (taking = 0 → exec i s = .next (finished e (e.move r fun x => { x with pc := next, slot := 1, fresh := true }) 1 [])) ∧
       (taking ≠ 0 → stay = 0 → exec i s =
         .next (finished e (e.move r fun x => { x with pc := target, slot := 1, fresh := true, taken := true }) 1 [])) ∧
       (taking ≠ 0 → stay ≠ 0 → ∀ w, r.wave? e.w.uid = some w → ∃ q : Path,
         q.mask = (if smaller then taking else stay) ∧ q.pc = (if smaller then target else next) ∧ q.slot = 1 ∧
         q.fresh = true ∧ q.park = .running ∧
         let rest := w.modPath e.iss.place fun x =>
           { x with pc := if smaller then next else target, slot := 1, fresh := true, taken := true
                    mask := x.mask &&& ~~~q.mask }
         let r1 := { r with counter := r.counter + 1 }
         (∀ k, w.freeSlot = some k ∨ (w.freeSlot = none ∧ w.held = none ∧ w.freeFragment = some k) →
           exec i s = .next (finished e (r1.setWave { rest with places := mput rest.places k q }) 1 [])) ∧
         (w.freeSlot = none → w.held.isSome = true → exec i s = .next (waveError r e.w e.iss.bundle .doubleFault)) ∧
         (w.freeSlot = none → w.held = none → w.freeFragment = none →
           (64 ≤ w.stack.length →
             exec i s = .next (takeTrap (account s e i.scalarForm) e false .fragmentOverflow none 0 0)) ∧
           (w.stack.length < 64 → ∀ r2, pushRecord r1 w q = (.ok (), r2) →
             exec i s = .next (finished e (r2.modWave w.uid fun y =>
               { (y.modPath e.iss.place fun x =>
                   { x with pc := if smaller then next else target, slot := 1, fresh := true, taken := true
                            mask := x.mask &&& ~~~q.mask }) with stack := q :: y.stack }) 1 []))))
     let marked := maskOf (e.lanes.filter fun l => (e.w.preg (p.toNat - 0xC0) l).getLsbD 0)
     let all : Mask := if e.u u = 0 then 0 else e.p.mask
     gives (.bra far) (past (.bra far) s e) e.p.mask (e.iss.bundle + 16 * far.signExtend 64) ∧
     gives (.brp p near) (traceOf (.brp p near) marked) marked (e.iss.bundle + 16 * near.signExtend 64) ∧
     gives (.bru u near) (traceOf (.bru u near) all) all (e.iss.bundle + 16 * near.signExtend 64)) ∧
  (∀ (s : State) (e : Env) (d a : OpCode) (near : BitVec 16),
     let next := e.iss.bundle + 16
     let moved := fun (r : State) (pc : Word) (slot : Nat) =>
       e.move r fun x => { x with pc := pc, slot := if slot = 0 then 1 else slot, fresh := slot == 0, taken := true }
     let note := fun i (t : Word) => emit (past i s e) e.w e.iss.place 2 1 0 t.toNat
     let trap := fun (i : Instr) (c : Cause) (t : Word) =>
       exec i s = .next (takeTrap (account s e i.scalarForm) e false c none t 0)
     let moves := fun (i : Instr) (r : State) (t : Word) (ws : List RegWrite) => Issues i s e →
       (t.toNat % 16 ≠ 0 → trap i .misaligned t) ∧
       (t.toNat % 16 = 0 → 2 ^ 52 ≤ t.toNat → trap i .illegalAddress t) ∧
       (t.toNat % 16 = 0 → t.toNat < 2 ^ 52 → exec i s = .next (finished e (moved r t 0) 1 ws))
     let t := e.u a
     moves (.jmpi a) (note (.jmpi a) t) t [] ∧
     moves (.calli d a) (note (.calli d a) t) t (destWrite d 0 next) ∧
     moves (.call d near) (past (.call d near) s e) (e.iss.bundle + 16 * near.signExtend 64) (destWrite d 0 next) ∧
     (Issues (.ret a) s e →
       (t.toNat / 4 % 4 ≠ 0 → trap (.ret a) .misaligned t) ∧
       (t.toNat / 4 % 4 = 0 → 2 ^ 52 ≤ t.toNat → trap (.ret a) .illegalAddress t) ∧
       (t.toNat / 4 % 4 = 0 → t.toNat < 2 ^ 52 → exec (.ret a) s =
         .next (finished e (moved (note (.ret a) t) (w64 (t.toNat / 16 * 16)) (t.toNat % 4)) 1 []))))

/-- RJOIN (R145): the only live path of its wave goes on at the next bundle; otherwise the path parks at the instruction with
its token, merges with the paths parked at the same bundle, and the places it frees are refilled; a fragment parked so on the core
then gives its place up to the fragment stack, while that has room (R32). RJOIN_RESUME (R145): once every live path of a wave is
parked at an RJOIN or in a wait, one with the lowest token runs on at its next bundle with the mask it has, and the others stay as
they are; while a path runs, nothing resumes. EXIT and TAIL (R36, R151) end their path, and a repeat of it, and clear the wave's
reservation (R255). Other paths move into the freed place; after the last the wave is leaving, by EXIT or by TAIL. A report that an
atomic of the wave may still bring is waited for (log entry 84). Inside a handler they are DOUBLE_FAULT. TAIL's last path issues only while the retirement tracker has room. SPT (R39):
inside a handler it only goes on; with no pre-emption request it records its safe point and goes on; with one it enters the
save routine of its table entry, every transaction aborting, or is a context error when the entry is null; an elided section
of its path aborts first (R263). It ends its bundle, so it goes on, and returns, at the next (log entry 84). PSAVE (R40, R161) parks
a path that entered its save routine, and cancels its wave's armed records; with the wave's last path it dissolves the wave's partial groups (R270); outside a save routine it is PRIVILEGED. -/
def Obligations.JoiningEndingAndSafePoints : Prop :=
  (∀ (s : State) (e : Env) (token : BitVec 16) (w : Wave), Issues (.rjoin token) s e →
     (past (.rjoin token) s e).wave? e.w.uid = some w →
     (w.livePaths.length ≤ 1 → exec (.rjoin token) s = .next (finished e
       (e.move (past (.rjoin token) s e) fun x => { x with pc := e.iss.bundle + 16, slot := 1, fresh := true }) 1 [])) ∧
     (2 ≤ w.livePaths.length →
       let parked := w.modPath e.iss.place fun x =>
         { x with pc := e.iss.bundle, slot := e.iss.slot, fresh := false, park := .rjoin token.toNat, waitResume := false }
       let w1 := (parked.mergeJoin e.iss.bundle).refill
       let r := rePlace (past (.rjoin token) s e) w w1
       (w1.parkedFragments = [] ∨ 64 ≤ w1.stack.length → exec (.rjoin token) s = .next (finished e r 1 [])) ∧
       (∀ k p r1 w2, w1.parkedFragments = [(k, p)] → w1.stack.length < 64 → pushRecord r w1 p = (.ok (), r1) →
         r1.wave? e.w.uid = some w2 →
         let w3 := Wave.refill { w2 with places := merase w2.places k, stack := p :: w2.stack }
         w3.parkedFragments = [] →
         exec (.rjoin token) s = .next (finished e (rePlace r1 w2 w3) 1 [])))) ∧
  (∀ (s : State) (uid : Nat) (w : Wave), s.wave? uid = some w →
     ((∃ p ∈ w.livePaths, p.parkedRjoin = false ∧ p.parkedWait = false) → joinResume s uid = s) ∧
     ((∀ p ∈ w.livePaths, p.parkedRjoin = true ∨ p.parkedWait = true) → (∃ p ∈ w.livePaths, p.parkedRjoin = true) →
       (w.livePaths.map Path.born).Nodup → (w.places.map Prod.fst).Nodup →
       ∃ (q p : Path) (t : Nat) (w1 : Wave), q ∈ w.livePaths ∧ q.park = .rjoin t ∧
         (∀ x ∈ w.livePaths, ∀ u, x.park = .rjoin u → t ≤ u) ∧ (joinResume s uid).wave? uid = some w1 ∧
         p ∈ w1.livePaths ∧ p.born = q.born ∧ p.pc = q.pc + 16 ∧ p.slot = 1 ∧ p.fresh = true ∧ p.park = .running ∧
         p.mask = q.mask ∧ (∀ x ∈ w1.livePaths, x.born ≠ q.born → x ∈ w.livePaths) ∧ w1.s = w.s ∧ w1.v = w.v ∧ w1.p = w.p)) ∧
  (∀ (s : State) (e : Env) (i : Instr), i = .exit ∨ i = .tail → Issues i s e → e.w.guardRep = none →
     (e.w.held.isSome = true → exec i s = .next (waveError (past i s e) e.w e.iss.bundle .doubleFault)) ∧
     (e.w.held = none → unflaggedCell e.w = none → cellComing (past i s e) e.w = false →
       guardComing (past i s e) e.w = false →
       (2 ≤ e.w.livePaths.length → (∀ x ∈ e.w.elisions, x.holds e.p = false) → ∃ t w, exec i s = .next t ∧
         (finished e (past i s e) 1 []).wave? e.w.uid = some w ∧
         t.wave? e.w.uid = some (Wave.refill { w with
           places := merase w.places e.iss.place
           reservation := w.reservation.map fun r => { r with valid := false }
           rep := if w.rep.valid && w.rep.path == e.iss.place then emptyRep else w.rep })) ∧
       (e.w.livePaths.length ≤ 1 → (i = .tail → (s.core e.w.core).tracker.length < 64) →
         ∃ t w, exec i s = .next t ∧ t.wave? e.w.uid = some w ∧ w.leaving = some (i == .exit) ∧ w.livePaths = []))) ∧
  (∀ (s : State) (e : Env) (n : Byte),
     (Issues (.spt n) s e →
       let r := past (.spt n) s e
       let next := fun (p : Path) => { p with pc := e.iss.bundle + 16, slot := 1, fresh := true }
       (e.w.held.isSome = true → exec (.spt n) s = .next (finished e (e.move r next) 1 [])) ∧
       (e.w.held = none → preemptPending r e.w = false →
         exec (.spt n) s = .next (finished e (e.move r fun p => { next p with safePoint := some n.toNat }) 1 [])) ∧
       (e.w.held = none → preemptPending r e.w = true → ∀ x, e.w.sectionOf e.p = some x →
         exec (.spt n) s = .next (abortSection r e.w.uid x)) ∧
       (e.w.held = none → preemptPending r e.w = true → e.w.sectionOf e.p = none →
         (∀ r1, safePointEntry r e.w n.toNat = (.ok none, r1) →
           exec (.spt n) s = .next (waveError r1 e.w e.iss.bundle .safepointTable)) ∧
         (∀ r1 sp, safePointEntry r e.w n.toNat = (.ok (some sp), r1) →
           exec (.spt n) s = .next (finished e (e.move (r1.modWave e.w.uid fun w => w.leaveSection.abortTx 8) fun p =>
             { p with pc := sp.save, slot := 1, fresh := true, taken := true, park := .running, safePoint := some n.toNat
                      inSave := true, resume := e.iss.bundle + 16, lastIssue := r.clock, issued := true
                      nopStall := 0 }) 1 [])))) ∧
     (Issues .psave s e →
       (e.p.inSave = false → exec .psave s = .next (takeTrap (account s e false) e false .privileged none 0 0)) ∧
       (e.p.inSave = true → e.w.guardRep = none → (∀ q ∈ e.w.stack, q.park = .saved) →
         let r := e.move (finished e (cancelArms (past .psave s e) e.w) 1 []) fun p =>
           { p with pc := e.iss.bundle, slot := e.iss.slot, fresh := false, park := .saved }
         ∀ w, r.wave? e.w.uid = some w →
           exec .psave s = .next (if w.livePaths.all fun p => p.park == .saved then dissolveAll r w else r))))

/-! ## Synchronisation -/

/-- SETJOIN enters a set of the block at the lowest position no member holds, and writes the position; SETLEAVE leaves one
and lets the barriers bound to it complete (R152, R153). A set number above 63, one already joined or one not joined is
SET_MISUSE; a fifth set of the wave, or a fifth member of a set that holds a quad, is SET_FULL. WAITB, ARRWAIT and SIGWAIT
(R156, R158). A wait on a barrier is met when the wave has arrived there and the phase is no longer the one it arrived in,
and writes the phase; a wait on a signal when the value has reached the threshold, and writes the value; it is then an
acquire until it completes, and the core's L1 drops the regions bound to its object (R115). Otherwise the path parks at the instruction. ARRWAIT arrives first, but for one that resumes a
wait of its own. -/
def Obligations.SetsWaitsOnBarriersAndSignals : Prop :=
  (∀ (s : State) (e : Env) (d a : OpCode) (b : Block),
     let n := (e.u a).toNat
     let joined := e.w.sets.any fun x => x.1 == n
     (Issues (.setjoin d a) s e → (past (.setjoin d a) s e).waveBlock e.w = some b →
       let r := past (.setjoin d a) s e
       let taken := setPositions r b n
       (63 < n ∨ joined = true → exec (.setjoin d a) s = .next (takeTrap (account s e (Instr.setjoin d a).scalarForm) e false
         .setMisuse none 0 0)) ∧
       (n ≤ 63 → joined = false → 4 ≤ e.w.sets.length ∨ (b.quadSets.contains n = true ∧ 4 ≤ taken.length) → exec (.setjoin d a) s =
         .next (takeTrap (account s e (Instr.setjoin d a).scalarForm) e false .setFull none 0 0)) ∧
       (n ≤ 63 → joined = false → e.w.sets.length < 4 → (b.quadSets.contains n = true → taken.length < 4) →
         ∃ pos, exec (.setjoin d a) s = .next (finished e (r.modWave e.w.uid fun w => { w with sets := w.sets ++ [(n, pos)] }) 2
           (e.all d (w64 pos))) ∧ pos ∉ taken ∧ ∀ k, k < pos → k ∈ taken)) ∧
     (Issues (.setleave a) s e → (past (.setleave a) s e).waveBlock e.w = some b →
       let r := dissolveQuad (past (.setleave a) s e) e.w.lid e.w.bid e.w.run n
       (joined = false → exec (.setleave a) s = .next (takeTrap (account s e (Instr.setleave a).scalarForm) e false
         .setMisuse none 0 0)) ∧
       (joined = true → exec (.setleave a) s = .next (finished e
         (recheckSet (r.modWave e.w.uid fun w => { w with sets := w.sets.filter fun x => x.1 != n }) b n) 1 [])))) ∧
  (∀ (s : State) (e : Env) (d a b : OpCode) (o : ObjAt) (r : State),
     let addr := e.u a
     let result := fun (x : Word) => destAll d e.p.mask x
     let met := fun (i : Instr) (q : State) (w : Wave) (x : Word) (lat ss : Nat) (store : Bool) =>
       let t := synced e (dropBound q w o.loc) lat (result x) store ss
       exec i s = .next (acquireUntil t.2 e.w.uid t.1)
     let onBarrier := fun (i : Instr) (q : State) (w : Wave) (q1 : State) (lat ss : Nat) (arrwait : Bool) =>
       let x := readBarrier q1 (waveActor q w) o
       let q2 := noteGuards q1 e.w.uid (if arrwait then [] else [(o.target, 16)])
       let done := ∃ y, (w.arrivals.find? fun y => y.addr == addr) = some y ∧ y.phase ≠ x.phase
       x.malformed = false →
         (done → met i q2 w (w64 (b2n x.phase)) lat ss arrwait) ∧
         (¬ done → exec i s = .next (parks e q2 (result 0) (fun n k => .barrier o.loc x.phase d arrwait n k) ss))
     e.w.guardRep = none →
     (let i : Instr := .waitb d a
      Issues i s e → accessFree (past i s e) e .ls (objOp e .waitb addr 0 0 d) → reaches (past i s e) e addr 16 false o r →
       onBarrier i (past i s e) e.w r (homeLatency (past i s e) e.w o.target) 0 false) ∧
     (let i : Instr := .arrwait d a b
      let q := past i s e
      let op := objOp e .arrwait addr (e.u b) 0 d
      Issues i s e → accessFree q e .ls op → e.p.waitResume = true → reaches q e addr 16 false o r →
       onBarrier i q e.w r (homeLatency q e.w o.target) 0 true) ∧
     (let i : Instr := .arrwait d a b
      let q := past i s e
      let op := objOp e .arrwait addr (e.u b) 0 d
      Issues i s e → accessFree q e .ls op → releaseFree q e addr → e.p.waitResume = false → ∀ (o1 : ObjAt) (q1 : State) (w : Wave),
       doArrive q e.w op e.iss.bundle = .ok (o1, q1) → q1.wave? e.w.uid = some w →
       (∀ op, accessObj q1 w (waveActor q1 w) addr 16 16 false op = (.ok o, r)) →
       onBarrier i q1 w r (homeLatency q1 w o.target) (syncWord o1.target (e.u b).toNat) true) ∧
     (let i : Instr := .sigwait d a b
      let q := past i s e
      Issues i s e → accessFree q e .ls (objOp e .sigwait addr (e.u b) 0 d) → reaches q e addr 16 false o r →
       let bs := readTarget r (waveActor q e.w) o.pa 16 o.target
       let q2 := noteGuards r e.w.uid [(o.target, 16)]
       field bs 8 8 = 0 →
         ((e.u b).toNat ≤ field bs 0 8 → met i q2 e.w (w64 (field bs 0 8)) (homeLatency q e.w o.target) 0 false) ∧
         (field bs 0 8 < (e.u b).toNat → exec i s = .next (parks e q2 (result 0) (fun n k => .signal o.loc (e.u b) d n k) 0))))

/-- ARRIVE, SIGNAL, BIND and UNBIND at an object that is reached (R155, R158, R159). An arrival is performed when the barrier
is well formed, its count is not zero and, on a counted barrier, does not exceed what is expected, or, on a set barrier, is
one by a member, of the block that began the phase; any other is BARRIER_MISUSE with the object's address. A signal is added
when the object's second word is zero. BIND binds a region of 1 to 2^40 bytes, the ninth of an object being misuse, and a
base bound before gets the new length; UNBIND unbinds the region at its base. The object lies in no guard granule. An arrival
counts (R155): below what is expected the object's count rises by n; the arrival that makes it whole clears the count, turns
the phase and releases every waiter. Here with no watchpoint set, on a counted barrier. After a completion the object's bytes hold
a count of 0 and the phase turned, its expected count as it was, and each waiter's destination receives the new phase, 0 or 1, when
its instruction completes. -/
def Obligations.ArrivalsSignalsAndBindings : Prop :=
  (∀ (s : State) (e : Env) (d a b : OpCode) (o : ObjAt) (r : State) (blk : Block),
     let A := fun i => waveActor (past i s e) e.w
     let lat := fun i => homeLatency (past i s e) e.w o.target
     let open_ := fun (i : Instr) => ∀ t, resolve (past i s e) e.w .generic (e.u a) = .ok t → guardHit (past i s e) 16 t = none
     let misuse := fun (i : Instr) => open_ i →
       exec i s = .next (takeTrap (account s e i.scalarForm) e false .barrierMisuse none (e.u a) 0)
     let v := e.u b
     (let i : Instr := .arrive a b
      Issues i s e → e.w.guardRep = none → pathFree (past i s e) e .ls (objOp e .arrive (e.u a) v 0 0xD0) →
       releaseFree (past i s e) e (e.u a) → reaches (past i s e) e (e.u a) 16 true o r → r.waveBlock e.w = some blk →
       let r2 := releaseObj r e.w o.loc (objScope r (A i).asid o.target)
       let x := readBarrier r2 (A i) o
       let n := v.toNat
       let allowed := x.malformed = false ∧ n ≠ 0 ∧ (x.kind = 0 → x.arrived + n ≤ x.expected) ∧
         (x.kind = 1 → n = 1 ∧ (e.w.sets.any fun y => y.1 == x.set) = true ∧ (x.arrived = 0 ∨ x.owner = blk.owner))
       let ss := syncWord o.target n
       (allowed → ∃ r3, arriveAt r2 (A i) (some e.w) blk o n (lat i) e.iss.bundle = some r3 ∧
         exec i s = .next (synced e ((noteGuards (noteHeld (addSS r3 (A i) ss) (A i) o.target (.arrive o.loc n)) e.w.uid
           [(o.target, 16)]).modWave e.w.uid fun w => w.recordArrival (e.u a) x.phase) (lat i) [] true ss).2) ∧
       (¬ allowed → misuse i)) ∧
     (let i : Instr := .signal a b
      Issues i s e → pathFree (past i s e) e .ls (objOp e .signal (e.u a) v 0 0xD0) → releaseFree (past i s e) e (e.u a) →
       reaches (past i s e) e (e.u a) 16 true o r →
       let r2 := releaseObj r e.w o.loc (objScope r (A i).asid o.target)
       let clean := field (readTarget r2 (A i) o.pa 16 o.target) 8 8 = 0
       let ss := syncWord o.target v.toNat
       (clean → ∃ r3, signalAt r2 (A i) (some e.w) e.w.fn e.w.ctx o v (lat i) e.iss.bundle = some r3 ∧
         exec i s = .next (synced e (noteGuards (noteHeld (addSS r3 (A i) ss) (A i) o.target (.signal o.loc v)) e.w.uid
           [(o.target, 16)]) (lat i) [] true ss).2) ∧
       (¬ clean → misuse i)) ∧
     (let i : Instr := .bind d a b
      Issues i s e → pathFree (past i s e) e .ls (objOp e .bind (e.u a) (e.u d) v 0xD0) →
       reaches (past i s e) e (e.u a) 8 false o r →
       let len := (e.u d).toNat
       let mine := r.bindings.filter fun x => x.obj == o.loc
       let again := mine.any fun x => x.base == v
       let ok := 0 < len ∧ len ≤ 2 ^ 40
       (ok → again = true → exec i s = .next (synced e { r with bindings := r.bindings.map fun x =>
         if x.obj == o.loc && x.base == v then { x with len := len, lid := e.w.lid } else x } (lat i) [] false 0).2) ∧
       (ok → again = false → mine.length < 8 → exec i s = .next (synced e { r with bindings := r.bindings ++
         [{ obj := o.loc, base := v, len := len, lid := e.w.lid }] } (lat i) [] false 0).2) ∧
       (¬ ok ∨ (again = false ∧ 8 ≤ mine.length) → misuse i)) ∧
     (let i : Instr := .unbind a b
      Issues i s e → pathFree (past i s e) e .ls (objOp e .unbind (e.u a) 0 v 0xD0) →
       reaches (past i s e) e (e.u a) 8 false o r →
       exec i s = .next (synced e { r with bindings := r.bindings.filter fun x => !(x.obj == o.loc && x.base == v) }
         (lat i) [] false 0).2)) ∧
  (∀ (s : State) (A : Actor) (who : Option Wave) (blk : Block) (o : ObjAt) (n lat : Nat) (edge : Word),
     let x := readBarrier s A o
     x.malformed = false → x.kind = 0 → n ≠ 0 → (s.func blk.fn).watches = [] →
     (x.arrived + n < x.expected → arriveAt s A who blk o n lat edge =
       some (writeObj s A o.pa (barrierBytes { x with arrived := x.arrived + n }) o.target)) ∧
     (x.arrived + n = x.expected → arriveAt s A who blk o n lat edge =
       some (completeBarrier (writeObj s A o.pa (barrierBytes { x with arrived := x.arrived + n }) o.target) A o
         { x with arrived := x.arrived + n } lat)) ∧
     (x.expected < x.arrived + n → arriveAt s A who blk o n lat edge = none)) ∧
  (∀ (s : State) (A : Actor) (o : ObjAt) (x : BarrierObj) (lat : Nat), let t := completeBarrier s A o x lat
     (∀ w ∈ t.waves, ∀ p ∈ w.allPaths, ∀ phase d arrwait n k, p.park = .barrier o.loc phase d arrwait n k →
       waitsOn t A o.target w = false) ∧
     (A.held = false → (match o.target with
         | .global _ => A.asid ≠ 0 ∧ s.cachesWf
         | .scratch _ _ _ => guardHit s 16 o.target = none
         | .weight _ _ => False) →
       let y := readBarrier t A o
       y.arrived = 0 ∧ y.phase = !x.phase ∧ y.expected = x.expected % 2 ^ 32) ∧
     (let q := writeObj s A o.pa (barrierBytes { x with phase := !x.phase, arrived := 0 }) o.target
      (q.waves.map Wave.uid).Nodup → ∀ w ∈ q.waves, ∀ p ∈ w.allPaths, ∀ phase d arrwait n k c,
        p.park = .barrier o.loc phase d arrwait n k → waitsOn q A o.target w = true →
        (∀ p' ∈ w.allPaths, p'.park.seqNo = some n → p' = p) → c ∈ w.pending → c.seqNo = n →
        ∃ w1, t.wave? w.uid = some w1 ∧ { c with writes := destAll d p.mask (w64 (if x.phase then 0 else 1)) } ∈ w1.pending ∧
          (s.clock + lat, Instr.instructionComplete w.uid n) ∈ t.agenda))

/-! ## Memory instructions -/

/-- The per-lane loads (R214 to R217, R221, R222). When every lane passes the checks of R215 and its page translates, the
instruction issues; each lane's destination receives, when it completes, the bytes at its address, least significant first,
extended by the sign or by zeros. Without an unmet guard report nothing stops it. It writes no byte of any memory: reaching
its lines moves bytes between DRAM and the caches, and every physical byte reads as before. -/
def Obligations.LoadsComplete : Prop :=
  (∀ (i : Instr) (s : State) (e : Env) (form : AddrForm) (d a b : OpCode) (width : Nat) (signed : Bool), Issues i s e →
    loadForm e.et i = some (form, d, a, b, width, signed) →
    accessFree (past i s e) e .ls (loadOp e form d a b width signed) →
    let r := past i s e
    let A := waveActor r e.w
    let lanes := laneAccesses e d a b width (fun _ => 0) (fun _ => 0)
    ∀ ts r1, firstFailure (laneChecks r e.w form width false) lanes = none →
      xlateLanes r e.w A form .read lanes = (.ok ts, r1) →
      let value := fun (x : LaneAcc × Target × Nat) =>
        let bs := readTarget r1 A x.2.2 x.1.width x.2.1
        if signed then sext (leNat bs) (8 * bs.length) else w64 (leNat bs)
      ∃ t lat, exec i s = .next t ∧
        t = performed e (noteGuards r1 e.w.uid (widths ts)) lat (ts.flatMap fun x => destWrite d x.1.lane (value x)) .ls
          false 0 ∧
        t.scratch = s.scratch ∧ t.weight = s.weight ∧ (s.cachesWf → ∀ q, physByte t q = physByte s q)) ∧
  (∀ (s : State) (A : Actor) (va n : Nat) (k : AccKind),
    let t := (xlate s A va n k).2
    t.scratch = s.scratch ∧ t.weight = s.weight ∧ (s.cachesWf → t.cachesWf ∧ ∀ q, physByte t q = physByte s q))

/-- The per-lane stores (R214 to R217, R221): every lane that takes part stores its register's low bytes at its address, in
ascending order of the lanes; an unchecked run's global stores are held. No byte of memory outside the stored bytes changes,
in its own virtual space or another's, and none by a held global store. What a store leaves in memory (R4, R214): in a run
that is not held the bytes at a global address, and in a scratchpad the unguarded bytes at its place, are the value's, least
significant first. -/
def Obligations.StoresComplete : Prop :=
  (∀ (i : Instr) (s : State) (e : Env) (form : AddrForm) (d a b : OpCode) (width : Nat), Issues i s e →
     storeForm i = some (form, d, a, b, width) → accessFree (past i s e) e .ls (storeOp e form d a b width) →
     let r := past i s e
     let A := waveActor r e.w
     let lanes := laneAccesses e d a b width (e.x d) (fun _ => 0)
     ∀ ts r1, firstFailure (laneChecks r e.w form width true) lanes = none →
       xlateLanes r e.w A form .write lanes = (.ok ts, r1) → holdFull r1 A ts = none →
       ∃ t lat, exec i s = .next t ∧
         t = performed e (noteAccess (addSS (ts.foldl (fun m x =>
             writeTarget m A x.2.2 (leBytes x.1.width x.1.data.toNat) x.2.1) r1) A (ssOfLanes .store ts)) A e.w.uid true ts)
           lat [] .ls true (ssOfLanes .store ts) ∧
         (s.cachesWf → ∀ q, physByte r1 q = physByte s q) ∧
         (∀ asid va q, asid ≠ 0 → offGlobal A.asid ts asid va q ∨ A.held = true →
           taggedByte t asid va q = taggedByte r1 asid va q) ∧
         (∀ q, (offScratch ts q → readByte t.scratch q = readByte s.scratch q) ∧
           readByte t.weight q = readByte s.weight q)) ∧
  (∀ (s : State) (A : Actor) (pa : Nat) (bytes : List Byte) (va core off phys : Nat),
     (A.held = false → A.asid ≠ 0 → s.cachesWf →
       taggedBytes (writeTarget s A pa bytes (.global va)) A.asid va pa bytes.length = bytes) ∧
     (∀ k, k < bytes.length → readByte (writeTarget s A pa bytes (.scratch core off phys)).scratch (scratchKey core (phys + k)) =
       if guarded s core (phys + k) then readByte s.scratch (scratchKey core (phys + k)) else bytes.getD k 0))

/-- LDL loads two consecutive v registers with the 16 bytes of each lane's address, and STL stores them, the lower register's
eight bytes first (R216). CSTR stores its selected lanes' registers in consecutive doublewords from the base, in pieces that
each lie in one page, and XLD loads them (R223, R224). What an STL, and a CSTR whose doublewords lie in one page, leave in memory:
a lane's bytes that no other lane stores to read as it stored them, and every byte outside the stored ones stands (R4,
R214). -/
def Obligations.PairsCompressAndExpand : Prop :=
  (∀ (s : State) (e : Env) (d a b : OpCode) (ts : List (LaneAcc × Target × Nat)) (r1 : State),
     (let i : Instr := .ldl d a b
      let r := past i s e
      let A := waveActor r e.w
      let lanes := laneAccesses e d a b 16 (fun _ => 0) (fun _ => 0)
      Issues i s e → accessFree (past i s e) e .ls { loadOp e .generic d a b 16 false with kind := .loadPair } →
      firstFailure (laneChecks r e.w .generic 16 false) lanes = none →
      xlateLanes r e.w A .generic .read lanes = (.ok ts, r1) →
       ∃ lat, exec i s = .next (performed e (noteGuards r1 e.w.uid (widths ts)) lat (ts.flatMap fun x =>
         let bs := readTarget r1 A x.2.2 x.1.width x.2.1
         destWrite d x.1.lane (w64 (leNat (bs.take 8))) ++ destWrite (d + 1) x.1.lane (w64 (leNat (bs.drop 8)))) .ls false 0)) ∧
     (let i : Instr := .stl d a b
      let r := past i s e
      let A := waveActor r e.w
      let lanes := laneAccesses e d a b 16 (e.x d) (e.w.vreg (d.toNat + 1))
      Issues i s e → accessFree (past i s e) e .ls { storeOp e .generic d a b 16 with kind := .storePair } →
      firstFailure (laneChecks r e.w .generic 16 true) lanes = none →
      xlateLanes r e.w A .generic .write lanes = (.ok ts, r1) → holdFull r1 A ts = none →
       ∃ t lat, exec i s = .next t ∧
         t = performed e (noteAccess (addSS (storeLanes r1 A .storePair ts) A (ssOfLanes .storePair ts))
           A e.w.uid true ts) lat [] .ls true (ssOfLanes .storePair ts) ∧
         (∀ x ∈ ts, storeBytes .storePair x.1 =
           leBytes 8 (e.x d x.1.lane).toNat ++ leBytes 8 (e.w.vreg (d.toNat + 1) x.1.lane).toNat) ∧
         storesOnly s r1 t A .storePair ts)) ∧
  (∀ (s : State) (e : Env) (d a p : OpCode), (e.u a).toNat % 8 = 0 →
     (let i : Instr := .cstr d a p
      let r := past i s e
      let A := waveActor r e.w
      let lanes := slotAccesses e a p (e.x d)
      let op := { plainOp .compressStore with lanes := lanes }
      Issues i s e → accessFree (past i s e) e .ls op → firstFailure (laneChecks r e.w .generic 8 true) lanes = none →
      (∀ r1 ws n m ts, performPieces r e.w A op 40 lanes [] = (.ok r1 ws n m, ts) →
       exec i s = .next (performed e (noteAccess r1 A e.w.uid true ts) (accessLatency r e.w false false (widths ts)) [] .ls true
         (ssOfLanes .compressStore ts))) ∧
      (∀ ts r1, (∀ l ∈ lanes, l.addr.toNat / 65536 = (e.u a).toNat / 65536) →
        xlateLanes r e.w A .generic .write lanes = (.ok ts, r1) → holdFull r1 A ts = none →
        ∃ t, exec i s = .next t ∧
          t = performed e (noteAccess (addSS (storeLanes r1 A .compressStore ts) A (ssOfLanes .compressStore ts)) A e.w.uid true ts)
            (accessLatency r e.w false false (widths ts)) [] .ls true (ssOfLanes .compressStore ts) ∧
          storesOnly s r1 t A .compressStore ts)) ∧
     (let i : Instr := .xld d a p
      let r := past i s e
      let A := waveActor r e.w
      let lanes := slotAccesses e a p fun _ => 0
      Issues i s e → accessFree (past i s e) e .ls { plainOp .expandLoad with lanes := lanes } →
      firstFailure (laneChecks r e.w .generic 8 false) lanes = none →
      ∀ ts r1, xlateLanes r e.w A .generic .read lanes = (.ok ts, r1) →
       exec i s = .next (performed e (noteGuards r1 e.w.uid (widths ts)) (accessLatency r e.w true false (widths ts))
         (ts.flatMap fun x => destWrite d x.1.lane (w64 (leNat (readTarget r1 A x.2.2 x.1.width x.2.1)))) .ls false 0)))

/-- A load or store whose lane fails a check of R215 takes that check's exception, the first in the order of R215 that any
lane fails, with the lanes that fail it, lane 0 for a scalar access, and the address of the lowest of them (R214, R215); a
closed neighbour port is named as the 0xFD address (R221). That s59 names lane 0 for a scalar access is the model's choice (log
entry 23). It performs nothing. -/
def Obligations.AccessChecksTrap : Prop :=
  ∀ (i : Instr) (s : State) (e : Env) (form : AddrForm) (d a b : OpCode) (width : Nat) (writes signed : Bool)
    (c : Cause) (l : LaneAcc) (ls : List LaneAcc), Issues i s e →
    (writes = false ∧ loadForm e.et i = some (form, d, a, b, width, signed) ∧
        accessFree (past i s e) e .ls (loadOp e form d a b width signed) ∨
      writes = true ∧ storeForm i = some (form, d, a, b, width) ∧ accessFree (past i s e) e .ls (storeOp e form d a b width)) →
    firstFailure (laneChecks (past i s e) e.w form width writes)
      (laneAccesses e d a b width (if writes then e.x d else fun _ => 0) (fun _ => 0)) = some (c, l :: ls) →
    exec i s = .next (takeTrap (account s e i.scalarForm) e i.takesLiteral c
      (some (maskOf ((l :: ls).map LaneAcc.lane)))
      (match form with
        | .neighbour k => if c = .remoteScratchGone then w64 (0xFD * 2 ^ 56 + k * 2 ^ 24 + l.addr.toNat) else l.addr
        | _ => l.addr) 0)

/-- TLD loads and TST stores a tile of 64 rows (R225 to R227): each row at the base plus its number times the pitch; TLD
writes the active lanes' registers of the group, and TST stores every lane's. The region operations on a region that passes
R229 (R229 to R233). SEAL and UNSEAL add and cut sealed ranges, held in an unchecked run; PIN pins its lines, ascending, once
every page translates and no page's misses are blocked, and notes how many it asked for and pinned; UNPIN drops the wave's pins in the range; CINV leaves no
sector of the region in the L2 and CWB none that is dirty, and neither changes a physical byte. A region that fails is
ILLEGAL_ADDRESS or MISALIGNED with its base. -/
def Obligations.TilesAndRegionOperations : Prop :=
  (∀ (s : State) (e : Env) (d a b : OpCode) (lit : Word32) (ts : List (LaneAcc × Target × Nat)) (r1 : State),
     let out := bitOf lit.toNat 4
     let row := if out then 256 else 64
     let base := e.u a
     let pitch := (e.u b).toNat
     (let i : Instr := .tld d a b lit
      let r := past i s e
      let A := waveActor r e.w
      Issues i s e → accessFree (past i s e) e .ls
       { plainOp .tileLoad with
         dest := d, mask := e.p.mask, scope := litBits lit 0 3, option := out, base := base, arg := e.u b } →
      tileCheck r e.w base pitch row false = none → ∀ bytes, tileRead r e.w A base pitch row = (.ok (bytes, ts), r1) →
       exec i s = .next (performed e (noteTileGuard r1 e.w.uid (widths ts)) (accessLatency r e.w true false (widths ts))
         ((List.range 2).flatMap fun h => (List.range (row / 8)).flatMap fun j => e.lanes.map fun l =>
           { file := .vector, key := 32 * (d.toNat + row / 8 * h + j) + l
             value := w64 (leNat (slice bytes ((2 * l + h) * row + 8 * j) 8)) }) .ls false 0)) ∧
     (let i : Instr := .tst d a b lit
      let r := past i s e
      let A := waveActor r e.w
      let bytes := (List.range 64).flatMap fun q => (List.range (row / 8)).flatMap fun j =>
        leBytes 8 (e.w.vreg (d.toNat + row / 8 * (q % 2) + j) (q / 2)).toNat
      Issues i s e → accessFree (past i s e) e .ls
       { plainOp .tileStore with
         scope := litBits lit 0 3, option := out, base := base, arg := e.u b, vals := tileVals e d out } →
      tileCheck r e.w base pitch row true = none → tileWrite r e.w A base pitch row bytes = (.ok ts, r1) →
       exec i s = .next (performed e (noteDirty (noteTileGuard (addSS r1 A (ssOfTile bytes ts)) e.w.uid (widths ts)) A e.w.uid .ls
           (widths ts))
         (accessLatency r e.w false false (widths ts)) [] .ls true (ssOfTile bytes ts)))) ∧
  (∀ (s : State) (e : Env) (a b : OpCode), e.w.tx = [] → fenced e.w .ls = false →
     let x := (e.u a).toNat
     let n := (e.u b).toNat
     let wide := 2 ^ 52 ≤ x
     let odd := fun (g : Nat) => x % g ≠ 0 ∨ n % g ≠ 0
     let range := n = 0 ∨ 2 ^ 40 < n ∨ 2 ^ 52 < x + n
     let trap := fun (i : Instr) (c : Cause) => exec i s = .next (takeTrap (account s e false) e false c none (e.u a) 0)
     let region := fun (i : Instr) (g : Nat) (go : State → Prop) (eff : State → State → Prop) => Issues i s e →
       (wide → trap i .illegalAddress) ∧ (¬ wide → odd g → trap i .misaligned) ∧
       (¬ wide → ¬ odd g → range → trap i .illegalAddress) ∧
       (¬ wide → ¬ odd g → ¬ range → logMeets (past i s e) e.w x n = false → go (past i s e) →
         ∃ t, exec i s = .next t ∧ eff (past i s e) t)
     let always := fun (_ : State) => True
     let sealing := fun (on : Bool) (r t : State) =>
       let A := waveActor r e.w
       let r1 := if A.held then noteHeld r A (.global x) (if on then .seal A.asid x n else .unseal A.asid x n)
         else if on then { r with seals := r.seals ++ [(A.asid, x, n)] }
         else { r with
           l1 := r.l1.filter fun y => !(y.asid == A.asid && decide (256 * y.line < x + n) && decide (x < 256 * y.line + 256))
           seals := r.seals.flatMap fun y =>
             if y.1 = A.asid then (rangeMinus y.2.1 y.2.2 x n).map fun z => (A.asid, z.1, z.2) else [y] }
       t = (pend (addSS r1 A (ssWord x (n % 2 ^ 32))) e (some (regionLatency r e.w x)) [] .ls true (ssWord x (n % 2 ^ 32))).2
     let inside := fun (r : State) (l : L2Line) (k : Nat) =>
       l.asid = r.waveAsid e.w ∧ 256 * l.line + 64 * k < x + n ∧ x ≤ 256 * l.line + 64 * k
     let cleaned := fun (r t : State) (gone : L2Line → Nat × Sector → Prop) =>
       ∃ q, t = finished e q (regionLatency r e.w x) [] ∧ q.scratch = s.scratch ∧ q.weight = s.weight ∧
         (s.cachesWf → ∀ p, physByte q p = physByte s p) ∧
         ∀ l ∈ q.l2, ∀ y ∈ l.sectors, y.1 < 4 → inside r l y.1 → gone l y
     region (.sealRegion a b) 256 (fun r => sealWaits r e.w x n = false) (sealing true) ∧
     region (.unsealRegion a b) 256 always (sealing false) ∧
     region (.pin a b) 256 (fun r => overlapsLog r e.w { plainOp .pin with base := e.u a, arg := e.u b } = false ∧
         let A := { waveActor r e.w with l1 := false }
         let pages := (List.range ((x + n - 1) / 65536 - x / 65536 + 1)).map fun k => (65536 * (x / 65536 + k), 0)
         (∃ ps, (xlateParts r A .read pages).1 = .ok ps) ∧
         (∀ l ∈ linesOf x n, pinnedAgainst (xlateParts r A .read pages).2 A.agent
             { space := .global A.asid, addr := 256 * l } = false ∧
           (classStep (xlateParts r A .read pages).2 A (256 * l)).isSome = true))
       (fun r t =>
         let A := { waveActor r e.w with l1 := false }
         let pages := (List.range ((x + n - 1) / 65536 - x / 65536 + 1)).map fun k => (65536 * (x / 65536 + k), 0)
         let m := pinLines (xlateParts r A .read pages).2 e.w A (linesOf x n)
         t = performed e (m.1.modWave e.w.uid fun w => { w with pinAsked := (linesOf x n).length, pinMade := m.2 }) 600 []
           .ls false 0) ∧
     region (.unpin a b) 256 always (fun r t => t = finished e { r with pins := r.pins.filter fun p =>
       !(p.uid == e.w.uid && p.asid == r.waveAsid e.w && (linesOf x n).contains p.line) } 1 []) ∧
     region (.cinv a b) 64 always (fun r t => cleaned r t fun _ _ => False) ∧
     region (.cwb a b) 64 always (fun r t => cleaned r t fun _ y => y.2.dirty = false))

/-- PREF hints that the issuing core's L1 should fetch the lines of its lanes' addresses: it issues, never faults, and completes
1 clock after it issues. A line's fetch changes no value that any agent can read: every physical byte, scratchpad and weight
store byte and register stands, no fault is recorded, and an address that is invalid, unmapped, in a share or in the weight
store has no effect at all (R228). -/
def Obligations.PrefetchHasNoEffect : Prop :=
  (∀ (s : State) (e : Env) (a b : OpCode), Issues (.pref a b) s e →
    exec (.pref a b) s = .next (finished e (e.taking.foldl (fun q l => prefetch q e.w (e.u a + e.i b l * 1))
      (past (.pref a b) s e)) 1 [])) ∧
  (∀ (s : State) (w : Wave) (addr : Word), let t := prefetch s w addr
    t.scratch = s.scratch ∧ t.weight = s.weight ∧ t.fns = s.fns ∧ t.ctxs = s.ctxs ∧
    t.waves.map (fun x => { x with reservation := none }) = s.waves.map (fun x => { x with reservation := none }) ∧
    (s.cachesWf → ∀ q, physByte t q = physByte s q) ∧
    ((∀ va, resolve s w .generic addr = .ok (.global va) →
        ∀ pa nc, (xlate s (waveActor s w) (va / 256 * 256) 256 .read).1 ≠ .ok pa nc) → t = s))

/-- LDACQ loads as LD64 does, unsigned, drops the core's L1 copies of the regions bound to its words, and orders everything
after it until it completes; STREL stores as ST64 does and
performs the regions bound to each word it stores at its scope, outside an elided section (R112 to R115, R234). FENCE orders
the wave's LS and AT paths, XFENCE those its mask names, bit by bit in the order LS, AT, MX, CP, WL, FB (R13, R116, R235):
each stays outstanding, and holds later accesses of those paths, until its ordering holds. An XFENCE of no path has nothing
to order. With no unflagged cell report due or on its way. -/
def Obligations.AcquireReleaseAndFences : Prop :=
  (∀ (s : State) (e : Env) (d a b : OpCode) (lit : Word32) (ts : List (LaneAcc × Target × Nat)) (r1 : State),
     (let i : Instr := .ldacq d a b lit
      let r := past i s e
      let A := waveActor r e.w
      let lanes := laneAccesses e d a b 8 (fun _ => 0) (fun _ => 0)
      Issues i s e → accessFree (past i s e) e .ls { loadOp e .generic d a b 8 false with kind := .loadAcquire, scope := litBits lit 0 3 } →
      firstFailure (laneChecks r e.w .generic 8 false) lanes = none →
      xlateLanes r e.w A .generic .read lanes = (.ok ts, r1) →
       let dropped := lanes.foldl (fun q l => match rangeLoc q e.w .generic l.addr with
         | some x => dropBound q e.w x
         | none => q) (noteGuards r1 e.w.uid (widths ts))
       exec i s = .next (acquireUntil (performed e dropped (accessLatency r e.w true false (widths ts))
         (ts.flatMap fun x => destWrite d x.1.lane (w64 (leNat (readTarget r1 A x.2.2 x.1.width x.2.1)))) .ls false 0)
         e.w.uid e.w.nextSeq)) ∧
     (let i : Instr := .strel d a b lit
      let r := past i s e
      let A := waveActor r e.w
      let lanes := laneAccesses e d a b 8 (e.x d) (fun _ => 0)
      Issues i s e → e.w.sectionOf e.p = none → (∀ l ∈ lanes, releaseFree r e l.addr) →
      accessFree (past i s e) e .ls { storeOp e .generic d a b 8 with kind := .storeRelease, scope := litBits lit 0 3 } →
      firstFailure (laneChecks r e.w .generic 8 true) lanes = none →
      xlateLanes r e.w A .generic .write lanes = (.ok ts, r1) → holdFull r1 A ts = none →
       let stored := noteAccess (addSS (storeLanes r1 A .storeRelease ts) A (ssOfLanes .storeRelease ts)) A e.w.uid true ts
       exec i s = .next (performed e (lanes.foldl (fun q l =>
           match q.wave? e.w.uid, resolve q e.w .generic l.addr with
           | some w, .ok t => releaseObj q w (targetLoc (q.waveAsid e.w) t) (litBits lit 0 3)
           | _, _ => q) stored)
         (accessLatency r e.w false false (widths ts)) [] .ls true (ssOfLanes .storeRelease ts)))) ∧
  (∀ (s : State) (e : Env) (scope paths : Byte), unflaggedCell e.w = none →
     let fence := fun (i : Instr) (ps : List AccessPath) => Issues i s e → cellComing (past i s e) e.w = false →
       let r := pend (past i s e) e none [] .none false 0
       exec i s = .next (settleFences (r.2.modWave e.w.uid fun w => { w with fences := w.fences ++
         [{ seqNo := r.1, paths := ps, scope := scope.toNat, needsLog := ps.contains .ls, ready := false }] }) e.w.uid)
     fence (.fence scope) [.ls, .at] ∧
     (paths ≠ 0 → fence (.xfence scope paths)
       ([(0, AccessPath.ls), (1, .at), (2, .mx), (3, .cp), (4, .wl), (5, .fb)].filterMap fun x =>
         if paths.getLsbD x.1 then some x.2 else none)) ∧
     (paths = 0 → Issues (.xfence scope paths) s e →
       exec (.xfence scope paths) s = .next (finished e (past (.xfence scope paths) s e) 1 [])))

/-! ## Atomics and transactions -/

/-- The atomics, LRES and SCOND issue (R241 to R243, R249, R253, R254). With its path in no elided section and every lane past the
checks of R242, the wave's request goes to its homes, to be performed after its homes' latency; the order of the wave's requests
to one location is that of ATOMIC_PERFORM_AT_HOME. With no lane taking part the instruction completes after 1 clock, and a SCOND
ends its reservation. An LRES whose section has aborted is performed plainly once (R263). -/
def Obligations.AtomicsIssue : Prop :=
  ∀ (i : Instr) (s : State) (e : Env) (op : MemOp), Issues i s e → requestOf e i = some op →
    e.w.sectionOf e.p = none →
    let plain := fun (x : Elision) => x.plain && x.bundle == e.iss.bundle && x.slot == e.iss.slot && x.path == e.p.born
    let again := op.kind = .lres ∧ e.w.elisions.any plain = true
    let r := if again then
        (past i s e).modWave e.w.uid fun w => { w with elisions := w.elisions.filter fun x => !plain x }
      else past i s e
    accessFree r e .at op →
    (∀ d a lit, i = .lres d a lit → (lit.getLsbD 8 && elides (past i s e) e.w) = true → e.w.elisions.any plain = true) →
    ∀ ts r1, firstFailure (laneChecks r e.w .generic (atomicAlign op) true) op.lanes = none →
      xlateLanes r e.w (committedActor r e.w) .generic .write op.lanes = (.ok ts, r1) → atomicLate r e.w op = none →
      logRoom r e.w (ts.filter fun x => x.2.1.isGlobal).length = true →
      let p := pend r1 e none (opKeys op) .at true 0
      (op.lanes = [] → exec i s =
        .next ((reserve p.2 e.w (r.waveAsid e.w) op []).schedule 1 (.instructionComplete e.w.uid p.1))) ∧
      (op.lanes ≠ [] → ∃ (t q : State) (x : AtomicReq), exec i s = .next t ∧ t = { q with
            counter := q.counter + 1, atomics := q.atomics ++ [x]
            agenda := insertEvent (q.clock + (x.due - q.clock)) (.atomicPerformAtHome x.id) q.agenda } ∧
        q.atomics = p.2.atomics ∧ x.id = q.counter ∧ x.uid = e.w.uid ∧ x.setf = e.iss.setf ∧ x.entry.seqNo = p.1 ∧
        x.entry.op.kind = op.kind ∧ x.entry.op.lanes = op.lanes ∧ x.entry.op.dest = op.dest ∧
        x.handler = e.w.held.isSome ∧ q.clock = s.clock ∧ x.due = s.clock + atomicLatency r e.w op)

/-- What an integer atomic leaves at its home (R243, R247): the sum modulo two to the width, the lesser or the greater,
signed or unsigned, the bitwise results, the operand of a swap, and the operand of a compare-and-swap where the old value
equals the compare value; its lane receives the old value. AFADD leaves the sum rounded once, to nearest and ties to even, in
the width's format, with nothing flushed (R244). AXADD adds to an exact cell its operand divided by two to the cell's base,
rounded to the nearest integer and ties to even, modulo two to 96; a malformed cell stands, and is reported; a NaN, an
infinity and a quotient beyond 72 bits set their status bit, the last with a report; the lane's value is the old cell's (R246).
A global atomic drops its line from every L1 first, whether or not it writes (R239). A lane in a guard granule is not performed
and reads 0 (R252).
LRES leaves the wave's reservation on its address's line, and SCOND stores only while it is valid on the same line, writing 0
then and 1 otherwise (R253, R254); it ends the reservation either way. ATOMIC_PERFORM_AT_HOME (R243, R248): the request of a
wave, behind no earlier one to its location and not bounced, is performed at its home, is no longer in flight, and its values
are its instruction's when that completes, at once; one behind an earlier one waits; one whose page is gone, and that a trap
handler issued, is a double fault (R46). -/
def Obligations.AtomicOperations : Prop :=
  (∀ (s : State) (w : Wave) (A : Actor) (op : MemOp) (l : LaneAcc) (t : Target) (pa : Nat) (k : AtomicOp),
     op.kind = .atomic k → k ≠ .xadd → (l.width = 4 ∨ l.width = 8) →
     let f := if l.width = 4 then fmtF32 else fmtF64
     let q := match t with
       | .global va => dropL1 s A.asid (va / 256) fun _ => false
       | _ => s
     let old := leNat (readTarget s A pa l.width t)
     let x := l.data.toNat
     let bits := 8 * l.width
     let leq := if op.signed then toSigned bits old ≤ toSigned bits x else old ≤ x
     let r := atHome s w A op l t pa
     (∀ h, guardHit s l.width t = some h → r.state = s.modWave w.uid (fun y => y.guardAccess h) ∧ r.old = 0) ∧
     (guardHit s l.width t = none → r.old = old ∧
       let leaves := fun v => r.state = writeTarget q A pa (leBytes l.width v) t
       (k = .add → leaves ((old + x) % 2 ^ bits)) ∧
       (k = .min → leq → leaves old) ∧ (k = .min → ¬ leq → leaves x) ∧
       (k = .max → leq → leaves x) ∧ (k = .max → ¬ leq → leaves old) ∧
       (k = .and → old < 2 ^ 64 → leaves (Nat.land old x)) ∧
       (k = .or → old < 2 ^ 64 → leaves (Nat.lor old x)) ∧
       (k = .xor → old < 2 ^ 64 → leaves (Nat.xor old x)) ∧
       (k = .swap → leaves x) ∧
       (k = .fadd → leaves (flBits f .rne 0 (exactSum .rne [fdec f old, fdec f x]).1).1) ∧
       (k = .cas → old = l.data2.toNat → leaves x) ∧ (k = .cas → old ≠ l.data2.toNat → r.state = q))) ∧
  (∀ (s : State) (w : Wave) (A : Actor) (op : MemOp) (l : LaneAcc) (t : Target) (pa : Nat), op.kind = .atomic .xadd →
     guardHit s l.width t = none →
     let q := match t with
       | .global va => dropL1 s A.asid (va / 256) fun _ => false
       | _ => s
     let bs := readTarget s A pa l.width t
     let c := parseCell bs
     let y := fdec (if op.code = 4 then fmtF32 else fmtF64) l.data.toNat
     let r := atHome s w A op l t pa
     let leaves := fun xs => r.state = writeTarget q A pa xs t
     let marks := fun (k : Nat) => leaves (bs.set 14 (BitVec.ofNat 8 (c.status ||| k)))
     r.old = cellValue c ∧
     (c.malformed = true → r.state = q ∧ r.report = true) ∧
     (c.malformed = false →
       (∀ k, y = .nan k → marks 2 ∧ r.report = false) ∧
       (∀ neg, y = .inf neg → marks (if neg then 8 else 4) ∧ r.report = false) ∧
       (∀ neg, y = .zero neg → leaves bs ∧ r.report = false) ∧
       (∀ neg m ex, y = .fin neg m ex → ∃ n : Int,
         let x : Int := if neg then -(m : Int) else m
         let h : Int := 2 ^ (c.base - ex).toNat
         (c.base ≤ ex → n = x * 2 ^ (ex - c.base).toNat) ∧
         (ex < c.base → 2 * (n * h - x) ≤ h ∧ 2 * (x - n * h) ≤ h ∧
           (2 * (n * h - x) = h ∨ 2 * (x - n * h) = h → n % 2 = 0)) ∧
         (2 ^ 72 ≤ n.natAbs → marks 1 ∧ r.report = true) ∧
         (n.natAbs < 2 ^ 72 → leaves (leBytes 12 ((c.acc + n) % 2 ^ 96).toNat ++ bs.drop 12) ∧ r.report = false)))) ∧
  (∀ (s : State) (w : Wave) (A : Actor) (l : LaneAcc) (t : Target) (pa : Nat) (op : MemOp) (x : HomeLane) (xs : List HomeLane),
     guardHit s l.width t = none →
     (∀ v, w.reservation = some v → v.valid = true → v.line = lineOf A.asid t →
       (scondHome s w A l t pa).state = writeTarget s A pa (leBytes 8 l.data.toNat) t ∧ (scondHome s w A l t pa).old = 0) ∧
     ((∀ v, w.reservation = some v → v.valid = false ∨ v.line ≠ lineOf A.asid t) →
       (scondHome s w A l t pa).state = s ∧ (scondHome s w A l t pa).old = 1) ∧
     (op.kind = .scond → reserve s w A.asid op xs = s.modWave w.uid fun y => { y with reservation := none }) ∧
     (op.kind = .lres → (x.target.isGlobal && replays s w) = false →
       reserve s w A.asid op (x :: xs) = s.modWave w.uid fun y =>
         { y with reservation := some { line := lineOf A.asid x.target, addr := x.acc.addr, valid := true } })) ∧
  (∀ (s : State) (r : AtomicReq) (w : Wave) (s1 : State) (ws : List RegWrite) (lat ss : Nat),
     s.atomics.find? (fun x => x.id == r.id) = some r → s.anyWave? r.uid = some w →
     let s0 := { s with atomics := s.atomics.filter fun x => x.id != r.id }
     let out := performAtomic s0 w r.setf r.entry.op (decide (r.mapGen < mget 0 s.mapGens (s.waveAsid w)))
     let event := exec (.atomicPerformAtHome r.id) s
     (behindEarlier s0 w r = true → event = .next (s.schedule 1 (.atomicPerformAtHome r.id))) ∧
     (behindEarlier s0 w r = false → bounced s w r = false →
       (out = .ok s1 ws lat ss → event = .next ((s1.modAny w.uid fun x => x.fill r.entry.seqNo ws ss).schedule 0
         (.instructionComplete w.uid r.entry.seqNo))) ∧
       (∀ x rest, out = .stop s1 (.fault x) rest → r.handler = true →
         event = .next (waveError s1 w r.entry.bundle .doubleFault))))

/-- The transaction instructions (R256, R259 to R261). TBEGIN opens a transaction in every active lane and writes 0; a lane
that is in one already is TX_NESTED. TCOMMIT commits or fails each active lane's, ends them and writes each lane's status, 9
where it had none. TABORT ends its active lanes' with status 4 and its code. TSTAT writes status, entries, code and the
in-transaction bit, or 9; a chosen block's original logs the words of each, TABORT's with its code (R264). That TCOMMIT's word
shows no entries and that TSTAT writes 9 for a lane in no transaction are the model's choices (log entries 109, 110). Outside
elided sections, the commit neither fenced, nor held up by a page or a logged access, nor writing a sealed region. The lane
loads and stores of a wave with transactional lanes (R256, R258, R262): where every lane passes the checks of R215 and no page
holds one up, the lanes that are in no transaction, or not at a global address, are performed, and the others enter their
sets: a store changes no memory byte and the lane's later loads see it; a load returns the lane's own bytes where it has
written them and memory elsewhere, and its sector joins the lane's set with the value first read; a sector past the 64 that
the wave may hold aborts the lane with status 3, a page fault with status 6 and a record for the host; a lane that has aborted
loads 0 and its stores are dropped. -/
def Obligations.TransactionsComplete : Prop :=
  (∀ (s : State) (e : Env) (d : OpCode) (code : BitVec 16), e.w.section? = none →
    (Issues (.tbegin d) s e →
      let r := past (.tbegin d) s e
      let nested := e.lanes.filter e.w.inTx
      (nested = [] → logRoom r e.w e.lanes.length = true →
        let out := loggedWords r e.w 0 (e.lanes.map fun l => (l, 0))
        (replays r e.w = false → out.2 = e.lanes.map fun l => (l, 0)) ∧
        exec (.tbegin d) s = .next (finished e (out.1.modWave e.w.uid fun w =>
          { w with tx := w.tx ++ e.lanes.map fun l => { lane := l, sectors := [], status := 0, code := 0, ss := 0 } }) 2
          (commitWrites e d out.2))) ∧
      (nested ≠ [] → exec (.tbegin d) s =
        .next (takeTrap (account s e (isSCode d)) e false .txNested (some (maskOf nested)) 0 0))) ∧
    (Issues (.tcommit d) s e → fenced e.w .at = false →
      let r := past (.tcommit d) s e
      let ts := e.lanes.filterMap e.w.txLane
      txBehindLog r e.w ts = false → replays r e.w = false → (txSealed r e.w ts).1 = [] → txCommitStop r e.w ts = none →
      logRoom r e.w e.lanes.length = true →
      let c := txCommit r e.w ts false
      let word := fun l => match c.2.find? fun t => t.lane == l with
        | some t => t.status + t.code * 2 ^ 32
        | none => 9
      exec (.tcommit d) s = .next (pend ((if logs r e.w then logCommit c.1 e.w 0 (e.lanes.map fun l => (l, word l)) else c.1).modWave
          e.w.uid fun w => { w with tx := w.tx.filter fun t => !inMask e.p.mask t.lane }) e (some (txLatency r e.w ts))
        (e.lanes.flatMap fun l => destWrite d l (w64 (word l))) .at true 0).2) ∧
    (Issues (.tabort code) s e →
      let r := past (.tabort code) s e
      let abort := fun (t : TxLane) => if inMask e.p.mask t.lane = true ∧ t.status = 0 then
        { t with status := 4, code := code.toNat, sectors := [] } else t
      logRoom r e.w e.lanes.length = true → exec (.tabort code) s =
        .next (finished e ((loggedWords r e.w code.toNat (e.lanes.map fun l => (l, 0))).1.modWave e.w.uid fun w =>
          { w with tx := w.tx.map abort }) 1 [])) ∧
    (Issues (.tstat d) s e →
      let r := past (.tstat d) s e
      let word := fun l => match e.w.txLane l with
        | some t => t.status + t.code * 2 ^ 32 + t.sectors.length * 2 ^ 8 + 2 ^ 16
        | none => 9
      replays r e.w = false → logRoom r e.w e.lanes.length = true → exec (.tstat d) s = .next (finished e
        (if logs r e.w then logCommit r e.w 0 (e.lanes.map fun l => (l, word l)) else r) 2
        (e.lanes.flatMap fun l => destWrite d l (w64 (word l)))))) ∧
  (∀ (i : Instr) (s : State) (e : Env) (op : MemOp), Issues i s e → txForm e i = some op →
    let r := past i s e
    let tx := txPart r e.w op
    tx ≠ [] → (∀ x ∈ e.w.elisions, x.plain = true) → fenced e.w .ls = false → overlapsLog r e.w op = false →
    firstFailure (laneChecks r e.w .generic ((op.lanes.head?.map LaneAcc.width).getD 1) op.kind.writes) op.lanes = none →
    txBlocked r e.w op.kind.writes tx = none → logRoom r e.w tx.length = true →
    ∀ r1 ws lat ss,
      performLanes r e.w { op with lanes := op.lanes.filter fun l => !tx.any fun x => x.1.lane == l.lane } = .ok r1 ws lat ss →
      let out := txAccesses r1 e.w.uid op false tx
      ∃ n, exec i s = .next (pend out.state e (some n) (ws ++ out.writes) .ls op.kind.writes (ss + out.ss)).2) ∧
  (∀ (s : State) (w : Wave) (op : MemOp) (l : LaneAcc) (va : Nat) (t : TxLane), s.wave? w.uid = some w →
    w.txLane l.lane = some t → replays s w = false →
    let A := committedActor s w
    let at_ := xlateParts s A (if op.kind.writes then .write else .read) [(va, l.width)]
    let out := txAccess s w.uid op l va false
    let zero := if op.kind.writes then [] else loadWrites op l (List.replicate l.width 0)
    let new := t.sectors.any (fun x => x.sector == va / 64) = false
    let full := new ∧ 64 ≤ w.txEntries
    ((∀ x, at_.1 ≠ .error (.fault x)) → s.cachesWf → ∀ q, physByte out.state q = physByte s q) ∧
    out.state.scratch = s.scratch ∧ out.state.weight = s.weight ∧
    (t.status ≠ 0 → out.writes = zero ∧ out.state.dram = s.dram ∧ ∃ w1, out.state.wave? w.uid = some w1 ∧
      (w1.txLane l.lane).map (fun y => (y.status, y.sectors)) = some (t.status, t.sectors)) ∧
    (t.status = 0 → ∀ x, at_.1 = .error (.fault x) → out.writes = zero ∧ ∃ w1 t1, out.state.wave? w.uid = some w1 ∧
      w1.txLane l.lane = some t1 ∧ t1.status = 6 ∧ t1.sectors = []) ∧
    (t.status = 0 → ∀ pa, at_.1 = .ok [(va, pa, l.width)] → full → out.writes = zero ∧ ∃ w1 t1,
      out.state.wave? w.uid = some w1 ∧ w1.txLane l.lane = some t1 ∧ t1.status = 3 ∧ t1.sectors = []) ∧
    (t.status = 0 → ∀ pa, at_.1 = .ok [(va, pa, l.width)] → ¬ full → va % 64 + l.width ≤ 64 → l.width = (storeBytes op.kind l).length →
      ∃ w1 t1 x, out.state.wave? w.uid = some w1 ∧ w1.txLane l.lane = some t1 ∧ t1.status = 0 ∧ x ∈ t1.sectors ∧
        x.sector = va / 64 ∧
        (op.kind.writes = true → out.writes = [] ∧
          ∀ mem, mem.length = l.width → txSees w1 t1 va mem = storeBytes op.kind l) ∧
        (op.kind.writes = false →
          let mem := taggedBytes at_.2 A.asid (va / 64 * 64) (pa - va % 64) 64
          out.writes = loadWrites op l (txSees w t va ((mem.drop (va % 64)).take l.width)) ∧ x.readVal.isSome = true ∧
          (new → x.readVal = some mem))))

/-! ## Matrix engine -/

/-- MMA and MMAZ contribute (R270, R276, R277). With a format in force, past their checks, and with no reformatting to wait
for, the wave's contribution of its B registers joins the first partial group of its quad that it is not in, whose other
contributions agree with it and which becomes a formed group with its fourth, or begins one where there is none and the quad
has fewer than four; it is outstanding until the group completes. -/
def Obligations.MatrixContributions : Prop :=
  ∀ (s : State) (e : Env) (i : Instr) (zero : Bool) (acc : Byte) (a b : OpCode) (f : FmtBlock) (fb : List Byte) (set pos : Nat),
    i = (if zero then .mmaz acc a b else .mma acc a b) → Issues i s e → plainLanes e → fenced e.w .mx = false →
    e.w.fmtState = some f → e.w.fmt = some fb →
    let r := past i s e
    let c := r.core e.w.core
    let mine := c.groups.filter fun g => g.partialOf e.w.lid e.w.bid e.w.run set
    let open? := mine.find? fun g => !(g.contribs.any fun x => x.uid == e.w.uid)
    let formed := c.groups.filter Group.live
    mmaChecks e r zero acc.toNat (e.u a) b.toNat f set pos → reformatWaits c f.acc acc.toNat = false →
    (open? = none → mine.length < 4) →
    (∀ g, open? = some g → (g.zero = zero ∧ g.acc = acc.toNat ∧ g.aAddr = e.u a ∧ g.fmt = fb) ∧
      (g.contribs.length = 3 → formed.length < 8)) →
    ∃ (t : State) (w : Wave) (x : Contrib) (groups : List Group), exec i s = .next t ∧ t.wave? e.w.uid = some w ∧
      w.looseContribs = e.w.looseContribs ++ [x.id] ∧ w.liveContribs = e.w.liveContribs ++ [x.id] ∧
      (∃ k ∈ w.pending, k.seqNo = x.seqNo ∧ k.path = .mx) ∧
      x.uid = e.w.uid ∧ x.pos = pos ∧ x.regs = quarterRegs e.w b.toNat (bRegs f.bf) ∧
      (open? = none → ∃ g, groups = c.groups ++ [g] ∧ g.contribs = [x] ∧ g.formed = false ∧ g.zero = zero ∧
        g.acc = acc.toNat ∧ g.aAddr = e.u a ∧ g.fmt = fb ∧ g.partialOf e.w.lid e.w.bid e.w.run set = true) ∧
      (∀ g, open? = some g →
        (g.contribs.length ≠ 3 → groups = c.groups.map fun y =>
          if y.id = g.id then { g with contribs := g.contribs ++ [x] } else y) ∧
        (g.contribs.length = 3 → ∃ n, groups = (c.groups.filter fun y => y.id != g.id) ++
          [{ g with contribs := g.contribs ++ [x], formed := true, formedAt := s.clock, id := n }])) ∧
      t.cores = (r.setCore e.w.core (claimTile { c with groups := groups } e.w f.acc acc.toNat x.id)).cores

/-- MFMT reads its 64-byte format block, which becomes the wave's format when the instruction completes; its path waits until
then. A block that is not valid is MFMT_INVALID (R274). Here with none of the wave's drains waiting. MDRAIN and MACCLD past their checks take their place behind the
groups formed before them and are outstanding until they are done; what may be done at once is (R286 to R289). That drain's checks stand in the model's order between its
tiles (log entry 103). MSTAT writes
its tile's status word, which is all ones in bits 19:16 alone for an unclaimed tile and bit 4 alone for another block's (R290). MBATCH
closes the contributions made since the last into batch n, added to one of that number that is open; MWAIT goes on and
forgets its batch when none of its contributions is outstanding, stays unissued while one is, and is BATCH_UNKNOWN where
there is no such batch (R281, R282). MSTAGE (R283): a zero base unbinds stage n; otherwise, past its checks, the stage of the
block on this core is bound to the barrier and the operand base, gated or not, with no fill yet; binding it as it stands
changes nothing, and a base another stage of the block holds is STAGE_BARRIER. -/
def Obligations.FormatsTilesBatchesAndStages : Prop :=
  (∀ (s : State) (e : Env) (a : OpCode) (o : ObjAt) (r1 : State),
     let i : Instr := .mfmt a
     let r := past i s e
     let bs := readTarget r1 (waveActor r e.w) o.pa 64 o.target
     Issues i s e → pathFree r e .mx (fmtOp (e.u a)) → ((r.core e.w.core).tileOps.all fun t => t.uid != e.w.uid) = true →
     reaches r e (e.u a) 64 false o r1 →
     ((parseFmt bs).isSome = true → ∃ lat, let p := pend (noteGuards r1 e.w.uid [(o.target, 64)]) e (some lat) [] .mx false 0
       exec i s = .next (p.2.modWave e.w.uid fun w => { (w.modPath e.iss.place fun q => { q with park := .hold p.1 }) with
         pending := w.pending.map fun c => if c.seqNo = p.1 then { c with fmt := some bs } else c })) ∧
     (parseFmt bs = none → exec i s = .next (takeTrap (account s e false) e false .mfmtInvalid none 0 0))) ∧
  (∀ (s : State) (e : Env) (acc : Byte) (d a b : OpCode) (f : FmtBlock) (fb : List Byte), plainLanes e →
     let queued := fun (i : Instr) (op : MemOp) =>
       let r := past i s e
       let p := pend r e none [] .mx true 0
       ∃ k : TileWait, k.order = r.counter ∧ k.clock = s.clock ∧ k.uid = e.w.uid ∧ k.entry.op = op ∧ k.entry.seqNo = p.1 ∧
         let c := claimTile (r.core e.w.core) e.w f.acc acc.toNat r.counter
         exec i s = .next (runTileOps ({ p.2 with counter := r.counter + 1 }.setCore e.w.core
           { c with tileOps := c.tileOps ++ [k] }) e.w.core)
     let ready := fun (i : Instr) (op : MemOp) => Issues i s e ∧ e.w.fmtState = some f ∧ e.w.fmt = some fb ∧
       ¬ (f.acc = 1 ∧ acc.toNat % 2 = 1) ∧ foreignTile ((past i s e).core e.w.core) e.w f.acc acc.toNat = none ∧
       pathFree (past i s e) e .mx op
     (let i : Instr := .mdrain acc a b
      let copy := e.u b != 0
      let op := { plainOp .mdrain with
        base := e.u a, arg := e.u b, option := copy, code := acc.toNat, vals := fmtWords fb
        lanes := drainLanes f (e.u a) (e.u b) copy }
      ready i op → fmtMatches ((past i s e).core e.w.core) f.acc acc.toNat = true → (copy = true → f.copy ≠ 0) →
       (drainCheck (past i s e) e.w f (e.u a) (e.u b) copy = none → queued i op) ∧
       (∀ c x, drainCheck (past i s e) e.w f (e.u a) (e.u b) copy = some (c, x) →
         exec i s = .next (takeTrap (account s e false) e false c none x 0))) ∧
     (let i : Instr := .maccld acc a
      let op := { plainOp .maccld with
        base := e.u a, code := acc.toNat, vals := fmtWords fb, lanes := tileChunks (e.u a) f.dPitch f.rawRow }
      ready i op → reformatWaits ((past i s e).core e.w.core) f.acc acc.toNat = false →
       tileCheck (past i s e) e.w (e.u a) f.dPitch f.rawRow false = none → queued i op) ∧
     (let i : Instr := .mstat d acc
      let gives := fun (x : Nat) => exec i s = .next (finished e (past i s e) 4 (e.all d (w64 x)))
      Issues i s e →
       gives (tileStatus (past i s e) e.w acc.toNat) ∧
       (mfind (s.core e.w.core).tiles acc.toNat = none → gives 0xF0000) ∧
       (∀ t, mfind (s.core e.w.core).tiles acc.toNat = some t → t.fmt ≠ 3 → t.owner ≠ (e.w.lid, e.w.bid, e.w.run) →
         gives 16))) ∧
  (∀ (s : State) (e : Env) (n : Byte), plainLanes e →
     (Issues (.mbatch n) s e → exec (.mbatch n) s = .next (finished e ((past (.mbatch n) s e).modWave e.w.uid fun w =>
       { w with
         batches := if w.batches.any fun b => b.n == n.toNat then w.batches.map fun b =>
             if b.n == n.toNat then { b with contribs := b.contribs ++ w.looseContribs } else b
           else w.batches ++ [{ n := n.toNat, contribs := w.looseContribs }]
         looseContribs := [] }) 1 [])) ∧
     (Issues (.mwait n) s e →
       ((e.w.batches.find? fun b => b.n == n.toNat) = none →
         exec (.mwait n) s = .next (takeTrap (account s e false) e false .batchUnknown none 0 0)) ∧
       (∀ b, (e.w.batches.find? fun b => b.n == n.toNat) = some b →
         ((∀ c ∈ b.contribs, c ∉ e.w.liveContribs) → exec (.mwait n) s = .next (finished e
           ((past (.mwait n) s e).modWave e.w.uid fun w => { w with batches := w.batches.filter fun x => x.n != n.toNat }) 1 [])) ∧
         ((∃ c ∈ b.contribs, c ∈ e.w.liveContribs) → exec (.mwait n) s = .next (noteTried s e 10))))) ∧
  (∀ (s : State) (e : Env) (n : Byte) (a b : OpCode), plainLanes e →
     let i : Instr := .mstage n a b
     let r := past i s e
     let c := r.core e.w.core
     let mine := fun (g : Stage) => g.lid == e.w.lid && g.bid == e.w.bid && g.run == e.w.run
     let others := c.stages.filter fun g => !(mine g && g.n == n.toNat)
     let set := fun (xs : List Stage) => exec i s =
       .next (finished e ((r.setCore e.w.core { c with stages := xs }).schedule 0 (.matrixGroupStart e.w.core)) 1 [])
     let base := (e.u b).toNat % 2 ^ 20 / 2 * 2
     let gate := (e.u b).getLsbD 0
     let same := ∃ g ∈ c.stages, mine g = true ∧ g.n = n.toNat ∧ g.barrier = e.u a ∧ g.base = base ∧ g.gate = gate
     Issues i s e →
     (e.u b = 0 → set others) ∧
     (e.u b ≠ 0 → ∀ x, stageBarrierCheck r e.w (e.u a) = some x →
       exec i s = .next (takeTrap (account s e false) e false x none (e.u a) 0)) ∧
     (e.u b ≠ 0 → stageBarrierCheck r e.w (e.u a) = none → ∀ x, stageBaseCheck r e.w (e.u b) = some x →
       exec i s = .next (takeTrap (account s e false) e false x none (e.u b) 0)) ∧
     (e.u b ≠ 0 → stageBarrierCheck r e.w (e.u a) = none → stageBaseCheck r e.w (e.u b) = none →
       ((∃ g ∈ others, mine g = true ∧ g.base = base) →
         exec i s = .next (takeTrap (account s e false) e false .stageBarrier none 0 0)) ∧
       (¬ (∃ g ∈ others, mine g = true ∧ g.base = base) → same → exec i s = .next (finished e r 1 [])) ∧
       (¬ (∃ g ∈ others, mine g = true ∧ g.base = base) → ¬ same → ∃ loc, set (others ++
         [{ lid := e.w.lid, bid := e.w.bid, run := e.w.run, n := n.toNat, barrier := e.u a, loc := loc, base := base
            gate := gate, fill := 0, broken := false }]))))

/-- MATRIX_GROUP_START (R279, R285): with no drain or load waiting, the first ready group whose A operand may be read (R110, R119)
starts on a free engine, reads it, takes one fill of a gated stage, occupies the engine for its clocks, and completes twelve
clocks after them. That all of A is read at the group's first clock, and that the stage's barrier is the one bound then, are the
model's choices (log entries 101, 102). MATRIX_GROUP_COMPLETE (R278, R279): the tile holds the group's update and the group's
contributions end; a load it accumulates onto comes first (R289), and so does an earlier group on its tile.
STAGE_READ_DONE (R284): the engine arrives on the stage's empty barrier, and a stage whose barrier takes no arrival is
broken; an arrival that a pinned line stops is made again in the next clock (R119). -/
def Obligations.MatrixGroups : Prop :=
  ∀ (s : State) (core : Nat) (g : Group) (f : FmtBlock), parseFmt g.fmt = some f →
    let c := s.core core
    (∀ b, c.tileOps = [] → c.engineBusy ≤ s.clock →
      c.groups.find? (fun x => groupReady c x && !aHeld s core x) = some g →
      s.block? g.lid g.bid g.run = some b →
      let phys := (shareOn b core).getD 0
      let st := stageAt c g.lid g.bid g.run g.aOff
      ∃ q : State, exec (.matrixGroupStart core) s =
          .next ((q.schedule f.clocks (.matrixGroupStart core)).schedule (f.clocks + 12) (.matrixGroupComplete core g.id)) ∧
        (q.core core).engineBusy = s.clock + f.clocks ∧ q.dram = s.dram ∧ q.scratch = s.scratch ∧
        (q.core core).tiles = c.tiles ∧
        (∃ g1 ∈ (q.core core).groups, g1 = { g with
          started := true, stage := st.map fun x => (x.n, x.barrier), readDone := st.isNone
          aData := readRows s core g.aOff phys f.aPitch (aRow f.af) }) ∧
        (∀ x, st = some x → x.gate = true → ∃ y ∈ (q.core core).stages, y = { x with fill := x.fill - 1 })) ∧
    (∀ t, c.groups.find? (fun x => x.id == g.id && x.live && x.started) = some g → mfind c.tiles g.acc = some t →
      let first := allBefore (fun x => !(x.live && x.started && tilesMeet (accOf x.fmt) x.acc (accOf g.fmt) g.acc)) g.id c.groups
      (loadBefore c g = true ∨ first = false →
        exec (.matrixGroupComplete core g.id) s = .next (s.schedule 1 (.matrixGroupComplete core g.id))) ∧
      (loadBefore c g = false → first = true →
        let r := groupUpdate f (if g.zero then [] else t.elems) g.aData g.contribs
        let c1 := { c with tiles := mput c.tiles g.acc { t with elems := r.1, saturated := t.saturated || r.2 } }
        let c2 := if g.readDone then { c1 with groups := c1.groups.filter fun x => x.id != g.id }
          else c1.setGroup { g with contribs := [] }
        exec (.matrixGroupComplete core g.id) s =
          .next ((runTileOps (g.contribs.foldl endContrib (s.setCore core c2)) core).schedule 0 (.matrixGroupStart core)))) ∧
    (∀ n barrier b, c.groups.find? (fun x => x.id == g.id && x.started && !x.readDone) = some g →
      g.stage = some (n, barrier) → s.block? g.lid g.bid g.run = some b →
      let done := fun (q : State) => State.setCore { q with waves := q.waves.map fun w => w.accepted (.stage core g.id) } core
        (if g.contribs.isEmpty then { q.core core with groups := (q.core core).groups.filter fun x => x.id != g.id }
        else (q.core core).setGroup { g with readDone := true })
      let r := engineArrive s b core barrier false false
      (∀ s1, r = .performed s1 → exec (.stageReadDone core g.id) s = .next (done s1)) ∧
      (∀ s1 x, r = .notTaken s1 → (((done s1).core core).stages.find? fun x =>
          x.lid == g.lid && x.bid == g.bid && x.run == g.run && x.n == n && x.barrier == barrier) = some x →
        exec (.stageReadDone core g.id) s =
          .next ((done s1).setCore core (setStage ((done s1).core core) { x with broken := true }))) ∧
      (∀ s1, r = .stopped s1 .pinned → exec (.stageReadDone core g.id) s = .next (s1.schedule 1 (.stageReadDone core g.id))))

/-! ## Copy engine -/

/-- A command instruction whose descriptor, halo table or face mask passes its checks joins its channel, and keeps its path until
it is accepted (R295, R296, R300, R313); one that fails a check takes that check's exception. Where the channel holds fewer than
sixteen commands, all accepted, it is accepted at once: its path goes on, and its instruction completes 2 clocks later (the
model's choice, log entry 3) with the tag in D: the channel in bits 17:16 and the core's next number in bits 15:0. Acceptance
(R296, R297, R302, R305): the command takes its place at the end of its channel with that tag and with the map generation of
its context, and the core's next number advances. A multicast's armed records with its key become committed to it on each
target, its cancelled ones go, and a target core all of whose records were cancelled receives nothing (log entry 85); where a
target core holds no record of the key when the command comes to be accepted, it raises MULTICAST_UNARMED, with the mask of those
cores, or is the context's error when the operand log performed it. A HALO of a held run takes its place among the run's held
items (R323). -/
def Obligations.CommandsJoinTheirChannel : Prop :=
  (∀ (s : State) (e : Env) (d a b : OpCode), plainLanes e → fenced e.w .ls = false →
     let command := fun (i : Instr) (code : Nat) (mask : Word) (path : AccessPath) => Issues i s e →
       fenced e.w path = false → overlapsLog (past i s e) e.w (commandOp e code d (e.u a) mask) = false →
       let out := if code = 0xC5 then haloTry (past i s e) e.w (e.u a) mask else copyTry (past i s e) e.w code (e.u a)
       (∀ r x chan, out = .ready r x chan →
         let p := pend r e none (e.all d 0) path false 0
         let c := r.core e.w.core
         exec i s = .next (queueCommand (e.move p.2 fun q => { q with park := .hold p.1 }) e.w.core chan
           { x with issuedAt := e.issuePoint } p.1) ∧
         (chan < c.channels.length → (c.chan chan).length < 16 → (∀ y ∈ c.chan chan, y.waitSeq = none) →
           ∃ t w k, exec i s = .next t ∧ t.wave? e.w.uid = some w ∧ (∀ q ∈ w.allPaths, q.park ≠ .hold p.1) ∧
             k ∈ w.pending ∧ k.seqNo = p.1 ∧ k.writes = e.all d (w64 (chan * 2 ^ 16 + c.copySeq)) ∧
             (s.clock + 2, Instr.instructionComplete e.w.uid p.1) ∈ t.agenda)) ∧
       (∀ c addr detail, out = .trap c addr detail →
         exec i s = .next (takeTrap (account s e i.scalarForm) e false c none addr detail))
     command (.cpy d a) 0xC0 0 .cp ∧ command (.cpyd d a) 0xC1 0 .cp ∧ command (.cpym d a) 0xC2 0 .cp ∧
     command (.cpymc d a) 0xC3 0 .cp ∧ command (.cpyn d a) 0xC4 0 .cp ∧ command (.halo d a b) 0xC5 (e.u b) .fb ∧
     command (.wsld d a) 0xC9 0 .cp ∧ command (.cpyx d a) 0xCC 0 .cp) ∧
  (∀ (s : State) (core chan seq : Nat) (x : Command),
     let c := s.core core
     let cs := c.chan chan
     chan < c.channels.length → cs.length < 16 → (∀ y ∈ cs, y.waitSeq = none) →
     let asid := ((s.ctx? x.fn x.ctx).map Context.asid).getD 0
     let tag := chan * 2 ^ 16 + c.copySeq
     let mine := fun (a : ArmRec) => a.lid == x.lid && a.bid == x.bid && a.run == x.run && a.key == x.descAddr
     let live := x.targets.filter fun k => (s.core k).arms.any fun a => mine a && a.state != .cancelled
     let x1 := { x with tag := tag, waitSeq := none, targets := live, mapGen := mget 0 s.mapGens asid }
     let t := queueCommand s core chan x seq
     ((∀ k ∈ x.targets, ∃ a ∈ (s.core k).arms, mine a = true) →
       (t.core core).chan chan = cs ++ [x1] ∧ (t.core core).copySeq = (c.copySeq + 1) % 2 ^ 16 ∧
       (s.clock + 2, Instr.instructionComplete x.uid seq) ∈ t.agenda ∧ t.dram = s.dram ∧ t.scratch = s.scratch ∧
       (∀ w, s.wave? x.uid = some w → ∃ w1, t.wave? x.uid = some w1 ∧ (∀ q ∈ w1.allPaths, q.park ≠ .hold seq) ∧
         ∀ k ∈ w1.pending, k.seqNo = seq → ∀ y ∈ k.writes, y.value = w64 tag) ∧
       (x.targets.Nodup → ∀ k, (t.core k).arms = if k ∈ x.targets then
           ((s.core k).arms.filter fun a => !(mine a && a.state == .cancelled)).map fun a =>
             if mine a && a.state == .armed then { a with state := .committed, source := core, tag := tag } else a
         else (s.core k).arms) ∧
       (x.op = opHalo → runHeld s x.lid x.bid x.run = true → ∀ b, s.block? x.lid x.bid x.run = some b →
         ∃ b1, t.block? x.lid x.bid x.run = some b1 ∧
           b1.heldItems = b.heldItems ++ [.halo core tag x.table x.faceMask none])) ∧
     (let missing := x.targets.filter fun k => (s.core k).arms.all fun a => !mine a
      let q := s.setCore core (c.setChan chan cs)
      missing ≠ [] → ∀ w, q.anyWave? x.uid = some w →
        t = if x.issuedAt.logged then waveError q w x.issuedAt.bundle .multicastUnarmed
          else commandTrap q w x.issuedAt seq .multicastUnarmed (coreMask missing)))

/-- ARM records its key, in place of a record of that key the wave has, with its barrier and that barrier's phase as an
arrival of the wave; cancelled records of that key that the wave left on other cores go (R308); it waits while its key is
committed, and while a new record finds 32 in use (R306). DISARM cancels its
wave's armed records of a barrier, and waits for those a command has committed (R308). EVPOP takes the oldest record of its
block's queue on its core into its destination, and parks while there is none; EVPEEK reads it, or 0, and leaves it (R319); each
is an acquire when it got one (R321, R115), which holds back what its path issues later until it completes (the model's choice,
log entry 40). HALOQ writes its command's state: its status and faces while it runs, with bit 0 set once its record waits, and 2
when it is not known (R315). -/
def Obligations.ArmDisarmAndEventQueues : Prop :=
  (∀ (s : State) (e : Env) (a b : OpCode) (o : ObjAt) (r1 : State),
     (let i : Instr := .arm a b
      let r := past i s e
      Issues i s e →
       (∀ c x, armCheck r e.w (e.u a) (e.u b) = some (c, x) →
         exec i s = .next (takeTrap (account s e false) e false c none x 0)) ∧
       (armCheck r e.w (e.u a) (e.u b) = none → armWaits r e.w (e.u b) = true → exec i s = .next (noteTried s e 10)) ∧
       (armCheck r e.w (e.u a) (e.u b) = none → armWaits r e.w (e.u b) = false →
         let op := armOp (e.u a) (e.u b)
         fenced e.w .ls = false → overlapsLog r e.w op = false →
         accessObj r { e.w with brokenPins := [] } (waveActor r e.w) (e.u a) 16 16 false op = (.ok o, r1) →
         let r2 := dropOldArm r1 e.w (e.u b)
         let fresh : ArmRec := { uid := e.w.uid, lid := e.w.lid, bid := e.w.bid, run := e.w.run, key := e.u b
                                 barrier := e.u a, loc := o.loc, state := .armed, source := 0, tag := 0, disarms := [] }
         let c := r2.core e.w.core
         let arms := match ownArm c e.w (e.u b) with
           | some old => c.arms.map fun x => if x = old then fresh else x
           | none => c.arms ++ [fresh]
         let phase := (readBarrier r2 (waveActor r e.w) o).phase
         exec i s = .next (performed e ((r2.setCore e.w.core { c with arms := arms }).modWave e.w.uid fun w =>
           w.recordArrival (e.u a) phase) (homeLatency r e.w o.target + 4) [] .ls false 0))) ∧
     (let i : Instr := .disarm a
      let r := past i s e
      let arms := (s.core e.w.core).arms
      let mine := fun (x : ArmRec) => x.uid = e.w.uid ∧ x.barrier = e.u a
      Issues i s e →
       ((∀ x ∈ arms, mine x → x.state ≠ .committed) →
         let upd := fun (x : ArmRec) => if mine x ∧ x.state = .armed then { x with state := .cancelled } else x
         exec i s = .next ((pend r e (some 4) [] .none false 0).2.setCore e.w.core
           { s.core e.w.core with arms := arms.map upd })) ∧
       ((∃ x ∈ arms, mine x ∧ x.state = .committed) →
         let p := pend r e none [] .none false 0
         let upd := fun (x : ArmRec) => if mine x ∧ x.state = .armed then { x with state := .cancelled }
           else if mine x ∧ x.state = .committed then { x with disarms := x.disarms ++ [p.1] } else x
         exec i s = .next (e.move (p.2.setCore e.w.core { s.core e.w.core with arms := arms.map upd })
           fun q => { q with park := .hold p.1 })))) ∧
  (∀ (s : State) (e : Env) (d a : OpCode),
     let queue := fun (i : Instr) => blockQueue (past i s e) e.w.core e.w.lid e.w.bid e.w.run
     (let i : Instr := .evpop d
      Issues i s e →
       (∀ x rest, queue i = x :: rest →
         let p := pend (setQueue (past i s e) e.w.core e.w.lid e.w.bid e.w.run rest) e (some 4) (e.all d x) .none false 0
         exec i s = .next (acquireUntil p.2 e.w.uid p.1)) ∧
       (queue i = [] → exec i s = .next (parks e (past i s e) (e.all d 0) (fun n k => .event d n k) 0))) ∧
     (let i : Instr := .evpeek d
      Issues i s e →
       (∀ x rest, queue i = x :: rest →
         let p := pend (past i s e) e (some 4) (e.all d x) .none false 0
         exec i s = .next (acquireUntil p.2 e.w.uid p.1)) ∧
       (queue i = [] → exec i s = .next (finished e (past i s e) 4 (e.all d 0)))) ∧
     (let i : Instr := .haloq d a
      let r := past i s e
      let tag := (e.u a).toNat
      Issues i s e →
       ∃ v, exec i s = .next (finished e r 4 (e.all d (w64 v))) ∧
         (∀ c, ((blockCommands r e.w).find? fun c => c.tag == tag) = some c →
           v = c.status * 2 ^ 58 + c.mask * 2 ^ 40 + c.op * 2 ^ 32) ∧
         (((blockCommands r e.w).find? fun c => c.tag == tag) = none →
           (∀ x, ((queue i).find? fun x => bits x.toNat 0 18 == tag) = some x → v = x.toNat / 2 ^ 32 * 2 ^ 32 + 1) ∧
           (((queue i).find? fun x => bits x.toNat 0 18 == tag) = none → v = 2))))

/-- COPY_COMMAND_EXECUTE (R301, R302, R304): a command that is no HALO and no multicast moves its bytes in order to its next
boundary of 4 KiB, goes on in the clocks they take, and ends once all have moved; a piece that meets a cause stops it with the
cause as its status, a page fault pauses it and is queued, a pinned line is tried again; a multicast goes to its first target.
MULTICAST_DELIVERY (R307): a target's portion moves in the same way; landed, it is performed at GROVE, the arms committed
there are delivered, a follow-on fill of a CPYMC is raised, and the next target follows. COPY_COMMAND_END (R304, R318, R321):
a command arrives on its completion barrier, which performs what it wrote at its scope; a barrier that takes no arrival is its
status, and a page fault or a pinned line makes it wait. It leaves its channel, and its record is posted unless NOREC, which
performs its writes at CORE (R112), a neighbour copy's at GROVE (R310). HALO sends its faces in ascending order (R314): a peer
that is no member or whose link is lost gives FABRIC_DOWN, a peer answers as it does, which nothing constrains, and a face to
the chip's own window is received there; MASK names the faces that arrived, and the status is that of the first failing face;
FABRIC_DOWN is the kernel's too. A held run's sends are held with their bytes (R323). HALO_FACE_RECEIVE (R311, R314): a face
for a window not enabled, of an absent context or another group, or that would leave it is refused with HALO_TABLE and writes
nothing; one its pages admit is written by rows, and with SIG arrives on its barrier; it is answered 0, or BARRIER_MISUSE.
FABRIC_LINK_LOSS (R314): the faces in flight to the chip fail, and the link is known lost. HALO_WINDOW_ENABLE and _DISABLE
(R311): a window of a present context with a length is enabled for the function, and disabled only by its function. The
model's choices: boundaries (log entry 75), clocks (3), a window's group (86), a face meeting a sealed region (105). -/
def Obligations.CopyCommandsAndHaloWindows : Prop :=
  (∀ (s : State) (core chan : Nat) (x : Command), headCommand s core chan = some x → x.waiting = false → x.op ≠ opHalo →
     let d := readDesc x.op x.desc
     let total := d.rows * d.dRow
     let stop := min total ((x.progress / 4096 + 1) * 4096)
     let clocks := fun (y : Command) => ceilDiv (min total ((y.progress / 4096 + 1) * 4096) - y.progress) 64
     let go := { x with started := true }
     (∀ s1 x1, isMulticast x.op = false → x.moved = false → runPieces core core d stop 4096 s go = (.ok, s1, x1) →
       let next := fun (y : Command) => setHead (unrefuse s1 x1.uid x1.tag) core chan y
       (x1.progress < total → exec (.copyCommandExecute core chan) s =
         .next ((next x1).schedule (clocks x) (.copyCommandExecute core chan))) ∧
       (total ≤ x1.progress → exec (.copyCommandExecute core chan) s =
         .next ((next (stopStatus x1 .ok)).schedule (600 + clocks x) (.copyCommandEnd core chan)))) ∧
     (∀ out s1 x1, isMulticast x.op = false → x.moved = false → runPieces core core d stop 4096 s go = (out, s1, x1) →
       (∀ c, out = .cause c → exec (.copyCommandExecute core chan) s =
         .next ((setHead (unrefuse s1 x1.uid x1.tag) core chan { x1 with status := c.code, moved := true }).schedule
           (600 + clocks x) (.copyCommandEnd core chan))) ∧
       (∀ f, out = .fault f → exec (.copyCommandExecute core chan) s = .next (postFault
         (setHead s1 core chan { x1 with waiting := true }) f 3 (((s1.anyWave? x1.uid).map waveRequester).getD core)
         (.command core chan))) ∧
       (out = .again → exec (.copyCommandExecute core chan) s =
         .next ((setHead s1 core chan x1).schedule 1 (.copyCommandExecute core chan)))) ∧
     (isMulticast x.op = true → x.targets = [] → exec (.copyCommandExecute core chan) s =
       .next ((setHead s core chan go).schedule 0 (.copyCommandEnd core chan))) ∧
     (∀ t ts, isMulticast x.op = true → x.targets = t :: ts →
       exec (.copyCommandExecute core chan) s = .next ((setHead s core chan go).schedule
         (if x.started then 0 else moveClocks (min total 4096)) (.multicastDelivery core chan t)) ∧
       (∀ s1 x1, x.moved = false → runPieces core t d stop 4096 s x = (.ok, s1, x1) → x1.moved = false →
         (x1.progress < total → exec (.multicastDelivery core chan t) s =
           .next ((setHead (unrefuse s1 x1.uid x1.tag) core chan x1).schedule (clocks x1) (.multicastDelivery core chan t))) ∧
         (total ≤ x1.progress → ∀ b, s1.block? x.lid x.bid x.run = some b →
           let x2 := stopStatus x1 .ok
           let s2 := performEngine s1 x2 3 (writtenLines s1 x2 core t)
           ∀ s3 taken, deliverArms x2 t b (committedArms s2 core t x.tag) s2 = .done s3 taken →
             let s4 := if x.op = opCpymc ∧ total ≤ x2.progress then fillStage s3 t x.lid x.bid x.run (d.dst.toNat % 2 ^ 20) else s3
             let x3 := { x2 with targets := x2.targets.drop 1, progress := 0, moved := false, mask := x2.mask + 2 ^ (t % 8)
                                 status := if taken then x2.status else Cause.barrierMisuse.code }
             exec (.multicastDelivery core chan t) s = .next (match x3.targets with
               | [] => (setHead s4 core chan x3).schedule 0 (.copyCommandEnd core chan)
               | u :: _ => (setHead s4 core chan x3).schedule (moveClocks (min total 4096)) (.multicastDelivery core chan u))))) ∧
     (∀ b, x.started = true → s.block? x.lid x.bid x.run = some b →
       let q := fillOnce s core chan x
       let least := if x.op = opCpyn then 3 else 2
       let counted := fun (r : State) (y : Command) =>
         (unrefuse r y.uid y.tag).modAny y.uid fun w => { w with ownSS := w.ownSS + y.ss }
       let performs := fun (r : State) (y : Command) (scope : Nat) => if isMulticast x.op then counted r y
         else performEngine (counted r y) y scope (writtenLines (counted r y) y core core)
       let ends := fun (r : State) (y : Command) => if d.norec then popCommand r core chan
         else postRecord (popCommand r core chan) core x.lid x.bid x.run (w64 (recordOf y))
       let event := exec (.copyCommandEnd core chan) s
       let unbarred := fun (r : State) (y : Command) => event = .next (ends (if d.norec then counted r y else performs r y least) y)
       let w := commandWave x core
       (d.barrier = 0 → unbarred q.1 q.2) ∧
       (d.barrier ≠ 0 →
         let out := engineArrive q.1 b core d.barrier false (x.older q.1 (q.1.waveAsid w))
         (∀ s2, out = .performed s2 →
           let word := if selector d.barrier = 0 then ssWord (d.barrier.toNat % 2 ^ 52) 1 else 0
           let y := { q.2 with ss := q.2.ss + w64 word }
           event = .next (ends (performs s2 y (Nat.max least (barrierScope s2 w d.barrier))) y)) ∧
         (∀ s2, out = .notTaken s2 → unbarred s2 { q.2 with status := Cause.barrierMisuse.code }) ∧
         (∀ s2 f, (∃ y, out = .stopped s2 y ∧ pieceStop (.inl y) = .fault f) → event = .next (postFault
           (setHead s2 core chan { q.2 with waiting := true }) f 3 (((s2.anyWave? q.2.uid).map waveRequester).getD core)
           (.command core chan))) ∧
         (∀ s2, (∃ y, out = .stopped s2 y ∧ pieceStop (.inl y) = .again) →
           event = .next ((setHead s2 core chan q.2).schedule 1 (.copyCommandEnd core chan)))))) ∧
  ((∀ (s : State) (core chan : Nat) (x : Command), headCommand s core chan = some x → x.waiting = false → x.op = opHalo →
     let A := { commandActor s x core with agent := .fabric }
     let ss := ssWord x.descAddr.toNat x.faceMask
     let faces := setBits 16 x.faceMask
     let event := exec (.copyCommandExecute core chan) s
     (∀ s1 x1, A.held = false → runFaces A faces s { x with started := true } = (.ok, s1, x1) →
       event = .next ((setHead (addSS s1 A ss) core chan (stopStatus { x1 with ss := w64 ss } .ok)).schedule
         (moveClocks 0) (.copyCommandEnd core chan))) ∧
     (∀ data s1, A.held = true → readFaces A x.table faces s = (.ok data, s1) →
       event = .next ((setHead (addSS (fillHalo s1 core x (some data)) A ss) core chan { x with
         mask := x.faceMask, ss := w64 ss, started := true, moved := true }).schedule (moveClocks 0) (.copyCommandEnd core chan))) ∧
     (∀ b, x.started = true → s.block? x.lid x.bid x.run = some b →
       let q := fillOnce s core chan x
       let s1 := (unrefuse q.1 x.uid x.tag).modAny x.uid fun w => { w with ownSS := w.ownSS + q.2.ss }
       let s2 := if x.status = Cause.fabricDown.code then fabricDown s1 x.lid else s1
       exec (.copyCommandEnd core chan) s =
         .next (postRecord (popCommand s2 core chan) core x.lid x.bid x.run (w64 (recordOf q.2))))) ∧
   (∀ (s : State) (A : Actor) (x : Command) (f : Nat) (fs : List Nat),
     (f < x.progress → runFaces A (f :: fs) s x = runFaces A fs s x) ∧
     (x.progress ≤ f → ∀ data s1 code s2, faceRows s A (readFace x.table f) (readFace x.table f).rows 0 = (.ok data, s1) →
       sendFace s1 (some x.uid) (readFace x.table f) data = .answered code s2 →
       let failed := if code = 0 then x.failed else mput x.failed f code
       runFaces A (f :: fs) s x = runFaces A fs s2 { x with
         progress := f + 1, failed := failed
         mask := if code = 0 ∨ code = Cause.barrierMisuse.code then x.mask + 2 ^ f else x.mask
         status := if code = 0 then x.status else (failed.head?.map Prod.snd).getD 0 })) ∧
   (∀ (s : State) (who : Option Nat) (f : Face) (data : List Byte),
     (isMember s f.chip = false ∨ f.chip ∈ s.linksLost → sendFace s who f data = .answered Cause.fabricDown.code s) ∧
     (isMember s f.chip = true → f.chip ∉ s.linksLost → f.chip = s.canopy.chip →
       sendFace s who f data = receiveFace s who f.window f.len f.rows f.dOff f.dPitch f.sig f.barOff data) ∧
     (isMember s f.chip = true → f.chip ∉ s.linksLost → f.chip ≠ s.canopy.chip → ∃ code,
       (code = 0 ∨ code = Cause.haloTable.code ∨ (f.sig = true ∧ code = Cause.barrierMisuse.code)) ∧
       sendFace s who f data = .answered code { s with
         haloAsked := s.haloAsked + 1
         haloSent := s.haloSent ++ [(f.chip, f.window, f.dOff, data, if f.sig then some f.barOff else none)] }))) ∧
  ((∀ (s : State) (win len rows dOff dPitch barOff : Nat) (sig : Bool) (data : List Byte),
     let pitch := if rows = 1 then 0 else dPitch
     let span := spanOf rows pitch len
     let answer := fun (q : State) (a : Nat) =>
       exec (.haloFaceReceive win len rows dOff dPitch sig barOff data) s = .next { q with haloAnswers := q.haloAnswers ++ [a] }
     (mfind s.haloWindows win = none → answer s Cause.haloTable.code) ∧
     (∀ h, mfind s.haloWindows win = some h →
       (h.enabled = false ∨ h.len < dOff + span ∨ (sig = true ∧ h.len < barOff + 16) ∨ s.ctx? h.owner h.ctx = none ∨
         otherGroup s h = true → answer s Cause.haloTable.code) ∧
       (∀ c ps s1, h.enabled = true → otherGroup s h = false → dOff + span ≤ h.len → sig = false → s.ctx? h.owner h.ctx = some c →
         let ranges := (List.range rows).map fun r => (h.base + dOff + r * pitch, len)
         let a := plainActor .fabric c.asid
         xlateParts s a .write (pageChecks (h.base + dOff) span ++ ranges.flatMap fun x => partsOf x.1 x.2) = (.ok ps, s1) →
         ((∃ x ∈ ranges, sealedRange s c.asid x.1 x.2 = true) → answer s Cause.haloTable.code) ∧
         ((∀ x ∈ ranges, sealedRange s c.asid x.1 x.2 = false) →
           answer ((List.range rows).foldl (fun q r =>
             (writeVirt q a (h.base + dOff + r * pitch) (slice data (r * len) len)).2) s1) 0)) ∧
       (∀ c ps s1 o s3, h.enabled = true → otherGroup s h = false → dOff + span ≤ h.len → sig = true → barOff + 16 ≤ h.len →
         s.ctx? h.owner h.ctx = some c →
         let ranges := ((List.range rows).map fun r => (h.base + dOff + r * pitch, len)) ++ [(h.base + barOff, 16)]
         let a := plainActor .fabric c.asid
         xlateParts s a .write (pageChecks (h.base + dOff) span ++ ranges.flatMap fun x => partsOf x.1 x.2) = (.ok ps, s1) →
         (∀ x ∈ ranges, sealedRange s c.asid x.1 x.2 = false) →
         objOfLoc ((List.range rows).foldl (fun q r =>
           (writeVirt q a (h.base + dOff + r * pitch) (slice data (r * len) len)).2) s1) a
             { space := .global c.asid, addr := h.base + barOff } = (some o, s3) →
         ((readBarrier s3 a o).kind = 1 ∨ arriveAt s3 a none (fabricBlock h.owner h.ctx) o 1 0 0 = none →
           answer s3 Cause.barrierMisuse.code) ∧
         (∀ s4, (readBarrier s3 a o).kind ≠ 1 → arriveAt s3 a none (fabricBlock h.owner h.ctx) o 1 0 0 = some s4 →
           answer s4 0)))) ∧
   (∀ (s : State) (chip : Nat), exec (.fabricLinkLoss chip) s = .next { failFaces s (fun c => c == chip) with
     linksLost := if s.linksLost.contains chip then s.linksLost else s.linksLost ++ [chip] }) ∧
   (∀ (s : State) (fn : Nat) (v : Word),
     let h := selectedWindow s fn
     let h1 := { h with ctx := v.toNat % 16, owner := fn }
     (h.enabled = true → h.owner = fn → exec (.haloWindowEnable fn v) s = .next s) ∧
     (h.enabled = true → h.owner ≠ fn → exec (.haloWindowEnable fn v) s = .next (setWindowErr s fn true)) ∧
     (h.enabled = false → (s.ctx? fn h1.ctx).isSome = true → h.len ≠ 0 → h.base + h.len ≤ 2 ^ 52 →
       exec (.haloWindowEnable fn v) s = .next (setWindowErr (setWindow s fn { h1 with
         enabled := true, group := if 2 ≤ s.canopy.state then some s.canopy.group else none }) fn false)) ∧
     (h.enabled = false → (s.ctx? fn h1.ctx = none ∨ h.len = 0 ∨ 2 ^ 52 < h.base + h.len) →
       exec (.haloWindowEnable fn v) s = .next (setWindowErr (setWindow s fn h1) fn true)) ∧
     exec (.haloWindowDisable fn) s =
       .next (if h.owner = fn ∧ h.enabled = true then setWindow s fn { h with enabled := false } else s)))

/-! ## Cascade -/

/-- WPUSH (R334 to R336): the lanes' tasks, payload A and the low 16 bits of B as bucket, one task when both operands are
uniform, are pushed at the wave's node, and the path waits until they are taken; an unchecked run holds them, in order, for its
release, and no domain changes (R348). With no domain (R327), and in one that is terminated or down, it is WL_NO_DOMAIN, the
detail naming which; with too few free entries for what would be spilled, WL_SPILL_FULL. Which words of SS a push counts, and
when, is the model's choice (log entry 87). WDONE closes one open task of each lane that takes part and has one; WFLOOR writes the floor word, F with bit
16 when nothing is queued, 17 when terminated and 18 when down, and WSTAT the lane's status word: its open tasks, the
domain's state, delta, the node's tasks and waiters, and whether the node steals (R339, R340). -/
def Obligations.PushesAndClosing : Prop :=
  (∀ (s : State) (e : Env) (a b : OpCode), plainLanes e → Issues (.wpush a b) s e →
     let i : Instr := .wpush a b
     let r := past i s e
     let uniform := fun (c : OpCode) => !isVCode c && !isPCode c && c != 0xC8
     let tasks := (if uniform a && uniform b then [0] else e.taking).map fun l => (e.i a l, (e.i b l).toNat % 65536)
     let trap := fun c detail => exec i s = .next (takeTrap (account s e i.scalarForm) e false c none 0 detail)
     (waveDomain r e.w = none → trap .wlNoDomain 0) ∧
     (∀ d, waveDomain r e.w = some d →
       (d.state = .terminated → trap .wlNoDomain 1) ∧ (d.state = .down → trap .wlNoDomain 2) ∧
       (d.state = .active ∨ d.state = .unseeded →
         let floor := if d.state = .unseeded then ((tasks.head?.map Prod.snd).getD 0) else d.floor
         let need := spillNeed floor (tasks.map Prod.snd)
         (spillRoom d (groveOf e.w.core) < need → trap .wlSpillFull 0) ∧
         (need ≤ spillRoom d (groveOf e.w.core) → fenced e.w .wl = false →
           (runHeld r e.w.lid e.w.bid e.w.run = true → ∀ b, r.waveBlock e.w = some b →
             let q := r.setBlock { b with heldItems := b.heldItems ++ tasks.map fun x => HeldItem.wpush x.1 x.2 }
             let t := (pend (addSS q (waveActor r e.w) (ssOfTasks tasks)) e (some 60) [] .wl false (ssOfTasks tasks)).2
             exec i s = .next t ∧ t.domains = s.domains ∧
               ∃ b1, t.waveBlock e.w = some b1 ∧ b1.heldItems = b.heldItems ++ tasks.map fun x => HeldItem.wpush x.1 x.2) ∧
           (runHeld r e.w.lid e.w.bid e.w.run = false → tasks = [] → exec i s = .next (finished e r 60 [])) ∧
           (runHeld r e.w.lid e.w.bid e.w.run = false → tasks ≠ [] →
             let ss := ssOfTasks tasks
             let p := pend r e none [] .wl false ss
             exec i s = .next (joinNode (e.move p.2 fun q => { q with park := .hold p.1 }) d.id (groveOf e.w.core) e.w.uid p.1
               tasks false (some (e.issuePoint, ss)))))))) ∧
  (∀ (s : State) (e : Env) (x : OpCode) (d : Domain), plainLanes e → fenced e.w .wl = false →
     let lanes := if isSCode x then [0] else e.taking
     let g := groveOf e.w.core
     let writes := fun (r : State) (f : Nat → Nat) =>
       (pend r e (some 60) (lanes.flatMap fun l => destWrite x l (w64 (f l))) .wl false 0).2
     (Issues .wdone s e → waveDomain (past .wdone s e) e.w = some d →
       let counts := e.taking.foldl (fun m l => mset 0 m (openKey e.w l) (mget 0 m (openKey e.w l) - 1)) d.open_
       let r := (past .wdone s e).setDomain { d with open_ := counts }
       exec .wdone s = .next (pend (noteServed r d.id g) e (some 60) [] .wl false 0).2) ∧
     (Issues (.wfloor x) s e → waveDomain (past (.wfloor x) s e) e.w = some d →
       exec (.wfloor x) s = .next (writes (past (.wfloor x) s e) fun _ =>
         (if d.state = .down then 2 ^ 18 else 0) + (if d.state = .terminated then 2 ^ 17 else 0) +
           (if d.noneQueued then 2 ^ 16 else 0) + d.floor)) ∧
     (Issues (.wstat x) s e → waveDomain (past (.wstat x) s e) e.w = some d →
       let r := past (.wstat x) s e
       let code := match d.state with | .active => 0 | .unseeded => 1 | .terminated => 2 | .down => 3
       let steals := b2n (d.node g).stealing
       exec (.wstat x) s = .next (writes r fun l => mget 0 d.open_ (openKey e.w l) * 2 ^ 52 + code * 2 ^ 50 + d.delta * 2 ^ 40 +
         (d.node g).tasks.length * 2 ^ 27 + (domainWaiters r d g).length * 2 ^ 12 + steals)))

/-- WPOP and WPOPW at a node with nothing spilled (R337, R338, R339). A lane with fifteen open tasks gets 0 and status 3. The
others, in ascending order, get the node's admissible tasks, lowest bucket first, each with its bucket and opened, and status
1 when there are not enough, for which the node also starts to steal (R343); in a domain that is terminated they get status
2, and in one that is down 4. When no task can be given to any asker, WPOP answers so and WPOPW parks, its lanes with fifteen
open tasks to be written when the park ends. A pop that returns a task is an acquire, and no other is (R347). With no push that
reached the node before it being taken (R344). -/
def Obligations.PopsComplete : Prop :=
  ∀ (s : State) (e : Env) (dest : OpCode) (d : Domain) (parked : Bool), plainLanes e → fenced e.w .wl = false →
    let i : Instr := if parked then .wpopw dest else .wpop dest
    let r := past i s e
    let g := groveOf e.w.core
    let n := d.node g
    let full := e.taking.filter fun l => decide (15 ≤ mget 0 d.open_ (openKey e.w l))
    let askers := e.taking.filter fun l => !full.contains l
    let fullWrites := full.flatMap fun l => popLane dest l none 3
    let answers := fun (q : State) (ws : List RegWrite) (acquires : Bool) =>
      let p := pend q e (some 60) (fullWrites ++ ws) .wl false 0
      exec i s = .next (if acquires then acquireUntil p.2 e.w.uid p.1 else p.2)
    Issues i s e → waveDomain r e.w = some d → r.domain? d.id = some d → n.spilled = [] → n.stalled = false →
    popBehind r d g = false →
    (d.state = .terminated → answers r (popWrites dest 2 askers []) false) ∧
    (d.state = .down → answers r (popWrites dest 4 askers []) false) ∧
    (d.state = .active ∨ d.state = .unseeded →
      let ready := (n.tasks.filter fun t => decide (t.bucket ≤ d.floor + d.delta)).take askers.length
      let d1 := openLanes (d.setNode g { n with tasks := n.tasks.filter fun t => !ready.contains t, served := true }) e.w
        (askers.take ready.length)
      let q := askRaise (askNodeRefills (r.setDomain d1) g) d.id
      (ready ≠ [] ∨ askers = [] ∨ parked = false →
        answers (if ready.length < askers.length then startSteal q d.id g else q) (popWrites dest 1 askers ready)
          (!ready.isEmpty)) ∧
      (ready = [] → askers ≠ [] → parked = true →
        let z := startSteal { q with counter := q.counter + 1 } d.id g
        let p := pend z e none (fullWrites ++ popWrites dest 1 askers []) .none false 0
        exec i s = .next (e.move p.2 fun x => { x with
          pc := e.iss.bundle, slot := e.iss.slot, fresh := false, waitResume := false
          park := .worklist dest (maskOf askers) p.1 q.counter })))

/-- Rounds of the floor (R332). FLOOR_LOWER_ROUND: a push that is first at its node, and whose first task lies below F,
installs its bucket as the floor, marks the lowering, and goes on; any other push goes on. FLOOR_RAISE_ROUND: a round in
which a lowering was acknowledged is discarded and begun again; otherwise the lowest queued bucket, tasks in flight included,
is the new floor, never below the old one, tasks then above the window are spilled and spilled ones within it read back,
waiters are served, and another round follows while tasks stand above F; a domain with none queued keeps its F.
SPILLWAY_REFILL (R341): a node with no task above its window reads back spilled tasks that lie in it while it has free entries and
no push of its context or of one of higher priority waits there (R344). Stealing and the end of a domain. STEAL_REQUEST (R343): a thief that lacks
tasks asks its next victim, which gives half of its admissible tasks, rounded up, at most 64, lowest bucket first; a victim
with none answers so, and the next is asked, by a node that waiters of a higher priority do not hold back. STOLEN_TASK_ARRIVAL: the thief takes them, and steals on for waiters they did not
serve. TERMINATION_TOKEN_WAVE (R345): two waves in a row that find every count zero and no node served since terminate the
domain, and its parked pops complete with status 2. DOMAIN_DOWN (R346): a GROUP domain goes down and its parked pops complete
with status 4. The clocks of rounds, steals and token waves (log entry 3) and the order of the victims (log entry 30) are the
model's choices. -/
def Obligations.CascadeEvents : Prop :=
  (∀ (s : State) (d : Domain), s.domain? d.id = some d →
     (∀ r task bucket rest, d.rounds.find? (fun x => x.id == r.id) = some r → r.tasks = (task, bucket) :: rest →
       (bucket < d.floor → pushBefore s d r = false → (d.node r.node).stalled = false → exec (.floorLowerRound d.id r.id) s =
         .next (advancePush (s.setDomain { d with floor := bucket, lowered := true }) d.id r.id)) ∧
       (d.floor ≤ bucket ∨ pushBefore s d r = true ∨ (d.node r.node).stalled = true →
         exec (.floorLowerRound d.id r.id) s = .next (advancePush s d.id r.id))) ∧
     (d.lowered = true → exec (.floorRaiseRound d.id) s =
       .next ((s.setDomain { d with lowered := false }).schedule 300 (.floorRaiseRound d.id))) ∧
     (d.lowered = false → lowestBucket d = none →
       exec (.floorRaiseRound d.id) s = .next (s.setDomain { d with noneQueued := true })) ∧
     (∀ b, d.lowered = false → lowestBucket d = some b →
       let s1 := spillOver (s.setDomain { d with floor := Nat.max d.floor b, noneQueued := false }) d.id
       exec (.floorRaiseRound d.id) s = .next (askRaise ((List.range Config.groves).foldl
         (fun q g => serveWaiters d.id g 1024 q) (askRefills s1 d.id)) d.id)) ∧
     (∀ g, (∀ t ∈ (d.node g).tasks, t.bucket ≤ d.floor + 1023) → firstSpilled (d.node g) = none →
       exec (.spillwayRefill d.id g) s = .next (askRaise s d.id)) ∧
     (∀ g x s1, (∀ t ∈ (d.node g).tasks, t.bucket ≤ d.floor + 1023) → firstSpilled (d.node g) = some x →
       (d.node g).stalled = false → x.2.1 ≤ d.floor + 1023 → nodeEntries s g < 4096 → outrankedPush s d g = false →
       (∀ y ∈ s.domains, sameCtx y d = true → (y.node g).stalled = false → ∀ p ∈ y.rounds, p.node = g → p.waits = false) →
       refillOne s d.id g = .taken s1 →
       exec (.spillwayRefill d.id g) s = .next (askRaise (refillWindow d.id g ((d.node g).spilled.length - 1) s1) d.id))) ∧
  (∀ (s : State) (d : Domain), s.domain? d.id = some d →
     (∀ g v, (d.node g).stealing = true → d.state = .active ∨ d.state = .unseeded →
       (∀ t ∈ (d.node g).tasks, d.floor + d.delta < t.bucket) → (∀ x ∈ d.inFlight, x.1 ≠ g) →
       (victims g)[(d.node g).nextVictim]? = some v → (d.node v).stalled = false → outrankedPush s d v = false →
       let held := outranked s d g
       let ready := (d.node v).tasks.filter fun t => decide (t.bucket ≤ d.floor + d.delta)
       let give := ready.take (Nat.min 64 ((ready.length + 1) / 2))
       (ready = [] → exec (.stealRequest d.id g) s = .next ((s.setDomain
         (d.setNode g { d.node g with stealing := !held, stealHeld := held, nextVictim := (d.node g).nextVictim + 1 })).schedule 300
           (.stealRequest d.id g))) ∧
       (ready ≠ [] →
         let d1 := d.setNode g { d.node g with stealing := false, nextVictim := 0 }
         let d2 := d1.setNode v { d1.node v with tasks := (d1.node v).tasks.filter fun x => !give.contains x, served := true }
         exec (.stealRequest d.id g) s = .next ((askNodeRefills (s.setDomain { d2 with inFlight := d2.inFlight ++ [(g, give)] })
           v).schedule 300 (.stolenTaskArrival d.id g)))) ∧
     (∀ g ts s2, d.inFlight.find? (fun x => x.1 == g) = some (g, ts) → (d.node g).stalled = false →
       let d1 := { d with inFlight := d.inFlight.erase (g, ts) }
       takeStolen d.id g ts (s.setDomain (d1.setNode g { d1.node g with served := true })) = (s2, []) →
       exec (.stolenTaskArrival d.id g) s = .next (askRaise (stealOn s2 d.id g) d.id)) ∧
     (let clean := domainIdle s d = true ∧ ∀ n ∈ d.nodes, n.2.served = false
      let nodes := (d.nodes.map fun n => (n.1, { n.2 with served := false })).filter fun n => n.2 != emptyNode
      let again := fun k => (s.setDomain { d with nodes := nodes, cleanWaves := k }).schedule 4000 (.terminationTokenWave d.id)
      d.state = .active →
       (¬ clean → exec (.terminationTokenWave d.id) s = .next (again 0)) ∧
       (clean → d.cleanWaves = 0 → exec (.terminationTokenWave d.id) s = .next (again 1)) ∧
       (clean → 1 ≤ d.cleanWaves →
         let d1 := { d with nodes := nodes, cleanWaves := d.cleanWaves + 1 }
         exec (.terminationTokenWave d.id) s = .next (endParks (s.setDomain { d1 with state := .terminated }) d1 2))) ∧
     (d.groupScope = true → d.state = .active ∨ d.state = .unseeded → exec (.domainDown d.id) s =
       .next (endParks (fabricDown (s.setDomain { d with state := .down }) d.lid) d 4)) ∧
     (d.groupScope = false → exec (.domainDown d.id) s = .next s))

/-- What no transaction supports (R257, R263): an atomic, LRES or SCOND, CSTR, XLD, TLD, TST, LDACQ, STREL, a region operation, a
barrier, signal or BIND instruction, and a copy, matrix or Cascade command, issued for a transactional lane. With a lane of an
elided section among them, the section aborts and the instruction has no effect. Outside a section each transactional lane
among them aborts with status 5, holds nothing more and leaves memory as it was, and the instruction is performed for the
others, or traps, as in a wave with them alone; MBATCH, MSTAT and WDONE are stated whole. An elided section (R263). LRES with
`elide`, past the checks of a plain one, opens it: each lane it takes begins a transaction, and its load is theirs. Inside it a SCOND to the lock
line gives status 0 in the lowest lane and 2 in the others, and its value enters the lowest lane's set; a STREL to the line
commits every lane, its own store dropped, or, where one fails, aborts the section; and TBEGIN, TCOMMIT or another elided LRES
raises TX_NESTED. Aborted, its lanes are in no transaction, nothing is written, and each of its paths stands at the LRES, which is
then performed once as a plain one. That a section is its opening path's and its lanes', whichever path they are on, is read
from R263 (log entry 42). -/
def Obligations.UnsupportedInTransactions : Prop :=
  (∀ (s : State) (e : Env) (i : Instr), Issues i s e →
    let r := past i s e
    ∀ ls f, unsupportedForm e i = some (ls, f) → metAsUnsupported r e i →
    let tx := ls.filter e.w.inTx
    tx ≠ [] →
    (∀ x, e.w.elisions.find? (fun x => !x.plain && tx.any fun l => x.lanes.contains l) = some x →
      exec i s = .next (abortSection r e.w.uid x)) ∧
    ((∀ x ∈ e.w.elisions, x.plain = true ∨ ∀ l ∈ tx, l ∉ x.lanes) →
      let aborted := tx.foldl (fun q l => abortLane q e.w.uid l 5 0) r
      let eff := f aborted fun l => !tx.contains l
      (∀ t, eff = .done t → exec i s = .next t) ∧
      (∀ c lanes addr detail, eff = .trap c lanes addr detail →
        exec i s = .next (takeTrap (account s e i.scalarForm) e i.takesLiteral c lanes addr detail)) ∧
      aborted = { r with waves := aborted.waves } ∧
      ∀ w w1 l t, l ∈ tx → r.wave? e.w.uid = some w → aborted.wave? e.w.uid = some w1 → w.txLane l = some t →
        w1.txLane l = some (if t.status = 0 then { t with status := 5, code := 0, sectors := [] } else t))) ∧
  (∀ (s : State) (e : Env) (i : Instr), Issues i s e →
    let r := past i s e
    let tx := e.lanes.filter e.w.inTx
    let aborted := tx.foldl (fun q l => abortLane q e.w.uid l 5 0) r
    (e.w.guardRep = none → tx ≠ [] → ∀ x, e.w.section? = some x → (∃ l ∈ tx, l ∈ x.lanes) →
      (match i with
        | .arrive .. | .waitb .. | .arrwait .. | .signal .. | .sigwait .. | .bind .. | .unbind .. | .tld .. | .tst ..
        | .mfmt .. | .mma .. | .mmaz .. | .mbatch .. | .mwait .. | .mdrain .. | .maccld .. | .mstage .. | .mstat ..
        | .cpy .. | .cpyd .. | .cpym .. | .cpymc .. | .cpyn .. | .cpyx .. | .wsld .. | .halo .. => True
        | _ => False) →
      exec i s = .next (abortSection r e.w.uid x)) ∧
    (tx ≠ [] → e.w.section? = none →
      (∀ n, i = .mbatch n → exec i s = .next (finished e (aborted.modWave e.w.uid fun w =>
        { w with
          batches := if w.batches.any fun b => b.n == n.toNat then w.batches.map fun b =>
              if b.n == n.toNat then { b with contribs := b.contribs ++ w.looseContribs } else b
            else w.batches ++ [{ n := n.toNat, contribs := w.looseContribs }]
          looseContribs := [] }) 1 [])) ∧
      (∀ d acc, i = .mstat d acc → exec i s = .next (finished e aborted 4
        (destAll d (maskOf (e.lanes.filter fun l => !tx.contains l)) (w64 (tileStatus aborted e.w acc.toNat))))) ∧
      (∀ d, i = .wdone → e.taking.filter e.w.inTx = tx → waveDomain aborted e.w = some d → fenced e.w .wl = false →
        let counts := (e.taking.filter fun l => !tx.contains l).foldl
          (fun m l => mset 0 m (openKey e.w l) (mget 0 m (openKey e.w l) - 1)) d.open_
        exec i s = .next (pend (noteServed (aborted.setDomain { d with open_ := counts }) d.id (groveOf e.w.core)) e (some 60)
          [] .wl false 0).2))) ∧
  (∀ (s : State) (e : Env) (d a : OpCode) (lit : Word32), Issues (.lres d a lit) s e →
    let i : Instr := .lres d a lit
    let r := past i s e
    let mine := fun (x : Elision) => x.plain && x.bundle == e.iss.bundle && x.slot == e.iss.slot && x.path == e.p.born
    ∀ o, requestOf e i = some o →
    (bitOf lit.toNat 8 = true → elides r e.w = true → e.w.elisions.any mine = false →
      (∀ x, e.w.sectionOf e.p = some x → exec i s = .next (takeTrap (account s e i.scalarForm) e true .txNested none 0 0)) ∧
      (∀ s0 l0 rest t w1 r1 ws lat ss, e.w.sectionOf e.p = none → (∀ l ∈ o.lanes, e.w.inTx l.lane = false) →
        fenced e.w .at = false → overlapsLog r e.w o = false → elidedChecks e r o = .ok s0 → o.lanes = l0 :: rest →
        resolve r e.w o.form l0.addr = .ok t →
        let ls := o.lanes.map LaneAcc.lane
        let x : Elision := { line := lineOf (r.waveAsid e.w) t, bundle := e.iss.bundle, slot := e.iss.slot, path := e.p.born
                             lanes := ls, plain := false }
        let s1 := s0.modWave e.w.uid fun w => { w with elisions := w.elisions ++ [x]
                                                       tx := w.tx ++ ls.map fun l =>
                                                         { lane := l, sectors := [], status := 0, code := 0, ss := 0 } }
        s1.wave? e.w.uid = some w1 → performMixed s1 w1 { o with kind := .load } = .ok r1 ws lat ss →
        let out := (pend r1 e (some lat) ws .at false ss).2
        (∀ w2, out.wave? e.w.uid = some w2 → ∀ y ∈ w2.elisions, y.plain = false → ∀ k ∈ w2.tx, k.lane ∈ y.lanes → k.status = 0) →
        exec i s = .next out)) ∧
    (e.w.elisions.any mine = true → (∀ l ∈ o.lanes, e.w.inTx l.lane = false) →
      ∀ t, atomicIssue e (r.modWave e.w.uid fun w => { w with elisions := w.elisions.filter fun x => !mine x }) o = .done t →
        exec i s = .next t)) ∧
  (∀ (s : State) (e : Env) (x : Elision), e.w.sectionOf e.p = some x →
    let whole := fun (q : State) => ∀ w2, q.wave? e.w.uid = some w2 → ∀ y ∈ w2.elisions, y.plain = false →
      ∀ k ∈ w2.tx, k.lane ∈ y.lanes → k.status = 0
    (∀ d a b lit o, Issues (.scond d a b lit) s e → requestOf e (.scond d a b lit) = some o →
      let r := past (.scond d a b lit) s e
      let store := { o with kind := .store }
      onLockLine r e.w { o with lanes := o.lanes.take 1 } x = true → firstFailure (laneChecks r e.w o.form 8 true) o.lanes = none →
      txBlocked r e.w true (txPart r e.w store) = none → atomicLate r e.w o = none →
      (∀ y ∈ txPart r e.w store, ∀ v, (xlateParts r (committedActor r e.w) .write [(y.2, 8)]).1 ≠ .error (.fault v)) →
      let first := txAccesses r e.w.uid store true (txPart r e.w { store with lanes := o.lanes.take 1 })
      let words := (List.range o.lanes.length).flatMap fun k =>
        destWrite d ((o.lanes[k]?.map LaneAcc.lane).getD 0) (if k = 0 then 0 else 2)
      let out := (pend first.state e (some 2) words .at (isNull d) first.ss).2
      whole out → exec (.scond d a b lit) s = .next out) ∧
    (∀ d a b lit, Issues (.strel d a b lit) s e →
      let r := past (.strel d a b lit) s e
      let o := releaseOp e d a b lit
      let ts := e.w.tx.filter fun t => x.lanes.contains t.lane
      onLockLine r e.w o x = true → firstFailure (laneChecks r e.w .generic 8 true) o.lanes = none →
      fenced e.w .ls = false → fenced e.w .at = false → txBehindLog r e.w ts = false → (txSealed r e.w ts).1 = [] →
      txCommitStop r e.w ts = none →
      let c := txCommit r e.w ts true
      ((∀ t ∈ c.2, t.status = 0) → exec (.strel d a b lit) s = .next (pend (c.1.modWave e.w.uid fun w =>
        { w with tx := w.tx.filter (fun t => !x.lanes.contains t.lane), elisions := w.elisions.filter fun y => y != x })
          e (some (txLatency r e.w ts)) [] .at true 0).2) ∧
      ((∃ t ∈ c.2, t.status ≠ 0) → exec (.strel d a b lit) s = .next (abortSection c.1 e.w.uid x))) ∧
    (∀ i, (∃ d, i = .tbegin d ∨ i = .tcommit d) → Issues i s e →
      exec i s = .next (takeTrap (account s e i.scalarForm) e i.takesLiteral .txNested none 0 0))) ∧
  (∀ (s : State) (w w1 : Wave) (x : Elision), s.wave? w.uid = some w → (abortSection s w.uid x).wave? w.uid = some w1 →
    abortSection s w.uid x = { s with waves := (abortSection s w.uid x).waves } ∧
    (∀ t ∈ w1.tx, t.lane ∉ x.lanes) ∧ w1.v = w.v ∧ w1.s = w.s ∧ w1.p = w.p ∧ w1.pending = w.pending ∧
    (∀ place p, mfind w.places place = some p → x.holds p = true → ∃ q, mfind w1.places place = some q ∧ q.pc = x.bundle ∧
      q.slot = x.slot ∧ q.mask = p.mask ∧ ∃ y ∈ w1.elisions, y.plain = true ∧ y.bundle = x.bundle ∧ y.slot = x.slot ∧
        y.path = q.born) ∧
    (∀ place p, mfind w.places place = some p → x.holds p = false → mfind w1.places place = some p))

/-! ## Check and power engines -/

/-- CKROLE writes the launch's redundancy level, the run (0 outside a chosen block, 1 original, 2 shadow, 3 tiebreak) and the
core's demerits; CKSIG the sum over the wave's own stores, or the sum over its live-out registers (R360 to R362). HALT issues
only in the first clock of a control interval (R425). CLKQ writes its grove's clock word (R425). PWLOAD, for a kernel with
WSTAGE, reads 128 bytes for its die's groves to install at the next interval's boundary, and is PRIVILEGED for any other
(R424, R425). -/
def Obligations.CheckAndPowerInstructions : Prop :=
  ∀ (s : State) (e : Env) (d a : OpCode) (k : Byte),
    (Issues (.ckrole d) s e →
      let level := ((s.launch? e.w.lid).map Launch.level).getD 0
      let run := match e.w.run with | .plain => 0 | .original => 1 | .shadow => 2 | .tiebreak => 3
      exec (.ckrole d) s = .next (finished e (past (.ckrole d) s e) 2
        (e.all d (w64 (level + 16 * run + 256 * (s.core e.w.core).demerits))))) ∧
    (Issues (.cksig d k) s e → exec (.cksig d k) s = .next (finished e (past (.cksig d k) s e) 8
      (e.all d (if k = 0 then e.w.ownSS else w64 (rsOf s e.w))))) ∧
    (Issues .halt s e →
      (s.clock % Config.clocksPerUs = 0 → exec .halt s = .next (finished e (past .halt s e) 1 [])) ∧
      (s.clock % Config.clocksPerUs ≠ 0 → exec .halt s = .next (noteTried s e 10))) ∧
    (Issues (.clkq d) s e →
      let r := past (.clkq d) s e
      exec (.clkq d) s = .next (finished e r 4 (e.all d (clkqWord r (groveOf e.w.core))))) ∧
    (Issues (.pwload a) s e →
      let r := past (.pwload a) s e
      let staged := ((s.launch? e.w.lid).map Launch.wstage).getD false
      (staged = false → exec (.pwload a) s = .next (takeTrap (account s e false) e false .privileged none 0 0)) ∧
      let free := fenced e.w .ls = false ∧ overlapsLog r e.w (pwOp (e.u a)) = false
      (staged = true → selector (e.u a) ≠ 0 → free →
        exec (.pwload a) s = .next (takeTrap (account s e false) e false .illegalAddress none (e.u a) 0)) ∧
      (staged = true → selector (e.u a) = 0 → free → ∀ o r1,
        reaches r e (e.u a) 128 false o r1 →
        let bs := readTarget r1 (waveActor r e.w) o.pa 128 o.target
        ∃ due, due % Config.clocksPerUs = 0 ∧ r1.clock < due ∧
          let asked := fun (q : State) (n : Nat) =>
            q.setGrove n { q.grove n with newWeights := (q.grove n).newWeights ++ [(due, bs)] }
          exec (.pwload a) s = .next (performed e ((List.range Config.grovesPerDie).foldl (fun q j =>
            asked q (dieOf e.w.core * Config.grovesPerDie + j)) r1) (due - r1.clock) [] .ls false 0)))

/-- CHECK_VOTE (R352, R363): an original and a shadow that have ended with equal sums, neither faulted nor departed from the
atomic log, release the original; if they differ, a tiebreak is placed; and once it has ended the three are judged. The table of
R363: a tiebreak that matches the original commits it and gives the shadow's cores a demerit each; one that matches the shadow
commits that, gives the original's cores a demerit each, and makes the kernel's status SDC_AFTER_ATOMIC where the original
performed an atomic; one that matches neither commits nothing, gives each run's cores a demerit and makes the status
CHECK_UNRESOLVED, but where the shadow and the tiebreak ended with the same fault the context errors with it and the original's
cores get the demerit (R367). A committed run's block is done and none of its runs is left; what the vote decided stands when
its release errors the context (R357). HOLD_FULL_TIMEOUT (R355): a held write still refused 1 ms after its first refusal errors the
context with CHECK_HOLD_FULL, and nothing else happens before.
Demerits and fences (R365). DEMERIT_DECAY: a nonzero count falls by one 24 hours after its last change, and again while it
stays nonzero. EXPLICIT_FENCE fences a core and leaves its count; EXPLICIT_UNFENCE ends the fence and sets the count to 0.
DEMERIT_THRESHOLD_SET takes 1 to 15 and nothing else. -/
def Obligations.VotesDemeritsAndFences : Prop :=
  ((∀ (s : State) (o sh : Block), s.block? o.lid o.bid .original = some o → s.block? o.lid o.bid .shadow = some sh →
     o.unchecked = true → o.forced = false → sh.phase = .done →
     (s.block? o.lid o.bid .tiebreak = none →
       (o.ss = sh.ss ∧ o.rs = sh.rs ∧ o.faulted = none ∧ sh.faulted = none ∧ o.departed = false ∧ sh.departed = false →
         exec (.checkVote o.lid o.bid) s = .next (commitRun s o id)) ∧
       (o.ss ≠ sh.ss ∨ o.rs ≠ sh.rs ∨ o.faulted ≠ none ∨ sh.faulted ≠ none ∨ o.departed = true ∨ sh.departed = true → exec (.checkVote o.lid o.bid) s =
         .next ((s.setBlock { o with phase := .awaitingTiebreak }).schedule 0 (.blockPlace o.lid)))) ∧
     (∀ tb, s.block? o.lid o.bid .tiebreak = some tb → tb.phase = .done →
       let event := exec (.checkVote o.lid o.bid) s
       let same := fun (x y : Block) => x.ss = y.ss ∧ x.rs = y.rs ∧ x.faulted = none ∧ y.faulted = none ∧ x.departed = false ∧
         y.departed = false
       let third := giveDemerits (giveDemerits (giveDemerits s o) sh) tb
       (same tb o → event = .next (commitRun s o fun r => giveDemerits r sh)) ∧
       (¬ same tb o → same tb sh → event = .next (commitRun s sh fun r =>
         if o.atomics then findStatus (giveDemerits r o) o.lid 0x0104 else giveDemerits r o)) ∧
       (¬ same tb o → ¬ same tb sh →
         (∀ x, sh.faulted = some x → tb.faulted = some x →
           event = .next (contextError (giveDemerits s o) o.fn o.ctx x.1)) ∧
         ((∀ x, sh.faulted = some x → tb.faulted ≠ some x) →
           event = .next (finishBlock (findStatus third o.lid Cause.checkUnresolved.code) o.lid o.bid false))))) ∧
   (∀ (s s1 : State) (b : Block) (f : State → State),
     (releaseRun s b = .done s1 → commitRun s b f = finishBlock (f s1) b.lid b.bid true) ∧
     (releaseRun s b = .error s1 → commitRun s b f = f s1) ∧ (releaseRun s b = .wait s1 → commitRun s b f = s1) ∧
     (∀ ok, ∀ x ∈ (finishBlock s b.lid b.bid ok).blocks, ¬ (x.lid = b.lid ∧ x.bid = b.bid)) ∧
     (∀ core, let c := s.core core
       ((giveDemerits s b).core core).demerits =
         if core ∈ b.coresUsed ∧ c.demerits ≠ 15 then c.demerits + 1 else c.demerits) ∧
     (∀ lid k l, s.launch? lid = some l → ∃ l1, (findStatus s lid k).launch? lid = some l1 ∧
       l1.status = mergeStatus l.status k)) ∧
   (∀ (s : State) (uid : Nat) (w : Wave), s.anyWave? uid = some w →
     ((∃ x ∈ w.refused, x.2 + 1000 * Config.clocksPerUs ≤ s.clock) →
       exec (.holdFullTimeout uid) s = .next (contextError s w.fn w.ctx .checkHoldFull)) ∧
     ((∀ x ∈ w.refused, s.clock < x.2 + 1000 * Config.clocksPerUs) → exec (.holdFullTimeout uid) s = .next s))) ∧
  (∀ (s : State) (core : Nat),
     let c := s.core core
     let day := 86400 * 1000000 * Config.clocksPerUs
     let fallen := s.setCore core { c with demerits := c.demerits - 1, demeritChange := s.clock }
     (c.demerits = 1 → c.demeritChange + day ≤ s.clock → exec (.demeritDecay core) s = .next fallen) ∧
     (2 ≤ c.demerits → c.demeritChange + day ≤ s.clock →
       exec (.demeritDecay core) s = .next (fallen.schedule day (.demeritDecay core))) ∧
     (c.demerits = 0 ∨ s.clock < c.demeritChange + day → exec (.demeritDecay core) s = .next s) ∧
     (core < Config.cores → exec (.explicitFence core) s = .next (s.setCore core { c with fenced := true }) ∧
       exec (.explicitUnfence core) s =
         .next (kickAll (s.setCore core { c with fenced := false, demerits := 0, demeritChange := s.clock }))) ∧
     (∀ n, 1 ≤ n → n ≤ 15 → exec (.demeritThresholdSet n) s = .next { s with mgmt := { s.mgmt with threshold := n } }) ∧
     (∀ n, n = 0 ∨ 15 < n → exec (.demeritThresholdSet n) s = .next s))

/-- CONTROL_INTERVAL (R419 to R423): between boundaries the readings are only noted; at one, every grove goes over it: its
current record is cleared, and its clock is above neither 1,200 MHz on the low rail, nor the Canopy ceiling, nor a cap, and the
current budgets written since the last boundary hold. CURRENT_EMERGENCY and THERMAL_TRIP (R422): the grove's clock is at once no
more than 1,200 MHz, or 200 MHz lower and no less than 400, under a cap of its own; a grove whose cap still falls is not tripped
again. Each is a Canopy excursion (R27, R427): it is counted and broadcast, and in a group the chip's proposal becomes its lowest
grove clock, not below 1,200. That a chip in no group counts and broadcasts it too is read from R27 (log entry 89). -/
def Obligations.ControlIntervalsAndCaps : Prop :=
  (∀ (s : State) (power : Nat) (temps : List (Nat × Nat)),
    let s0 := noteReadings s power temps
    let n := s.clock / Config.clocksPerUs
    (s.clock % Config.clocksPerUs ≠ 0 ∨ n ≤ s.power.intervalDone → exec (.controlInterval power temps) s = .next s0) ∧
    (s.clock % Config.clocksPerUs = 0 → s.power.intervalDone < n →
      let s1 := overCurrent (applyAnnounces { s0 with power := { s0.power with intervalDone := n } })
      let s2 := (List.range Config.groves).foldl (fun q g => q.setGrove g (nextGrove q g)) s1
      let s3 := { s2 with power := { s2.power with budHi := gbudhi s2, budLo := gbudlo s2 } }
      exec (.controlInterval power temps) s = .next (updateProposal
        ((List.range Config.groves).foldl gateGrove ((List.range Config.groves).foldl thermalBite s3))))) ∧
  (∀ (s : State) (g : Nat), let x := nextGrove s g
    x.charge = 0 ∧ x.lastCharge = (s.grove g).charge ∧ x.temp = (s.grove g).temp ∧
    (x.low = true ∨ x.switching ≠ 0 → x.clock ≤ 1200) ∧ x.clock ≤ 2400 ∧ x.clock ≤ s.canopy.ceil ∧
    (∀ k, x.currentCap = some k → x.clock ≤ k) ∧ (∀ k, x.thermalCap = some k → x.clock ≤ k)) ∧
  (∀ (s : State) (g : Nat), g < Config.groves →
    let x := s.grove g
    let y := { x with currentCap := some (Nat.min (x.currentCap.getD 1200) 1200), coolRun := 0, clock := Nat.min x.clock 1200
                      limit := if x.clock ≤ 1200 then x.limit else 2 }
    exec (.currentEmergency g) s = .next (excursion (s.setGrove g y) g x.clock (Nat.min x.clock 1200))) ∧
  (∀ (s : State) (g temp : Nat), g < Config.groves →
    let r := s.setGrove g { s.grove g with temp := temp }
    let x := r.grove g
    (x.temp < thtrip r ∨ x.tripped = true → exec (.thermalTrip g temp) s = .next r) ∧
    (thtrip r ≤ x.temp → x.tripped = false →
      let cap := Nat.max 400 (x.clock - 200)
      let y := { x with thermalCap := some cap, tripped := true, clock := Nat.min x.clock cap, limit := 1 }
      exec (.thermalTrip g temp) s =
        .next (excursion (r.setGrove g y) g x.clock (Nat.min x.clock cap)))) ∧
  (∀ (s : State) (g before after : Nat), let t := excursion s g before after
    let c := s.canopy
    t.canopy.excursions = c.excursions + 1 ∧ t.canopy.sent.length = c.sent.length + 1 ∧ t.groves = s.groves ∧
    (c.state < 2 → t.canopy.proposal = c.proposal) ∧
    (2 ≤ c.state → t.canopy.proposal =
      Nat.max 1200 ((List.range Config.groves).foldl (fun m k => Nat.min m (s.grove k).clock) 2400)))

/-- Canopy heartbeats (R427, R428). CANOPY_HEARTBEAT_SEND sends one every 20 microseconds while the chip is in a group or
joins one. CANOPY_HEARTBEAT_RECEIVE: a member's is taken, the request of a chip outside is kept, a joining chip learns the
members from theirs, and a chip in no group hears none. CANOPY_MEMBER_SILENT: after three missed the ceiling is 1,200 MHz at
once. CANOPY_MEMBER_EXPEL: after 1 ms of silence the member is gone; with the chip's own number, its group has expelled it, and
it is in no group (log entry 96). CANOPY_CEILING_CHANGE: an announcement takes effect at its time, and none before: the proposal
of its chip counts as announced, or no more when it leaves, and the ceiling is then the least proposal, not below 1,200; this
chip's own leave takes it out of the group, its ceiling is 2,400 MHz and its GROUP domains go down (R346). CANOPY_JOIN and
CANOPY_LEAVE, writes of CNPCTL (R427, R428, R430): a chip in no group takes its number and its group from the write and begins to
join; a chip that joins leaves at once, and a member announces its leave CNPLEAD ahead. That what a heartbeat proposes with no
announcement pending is in force is the model's choice (log entry 95). -/
def Obligations.CanopyGroups : Prop :=
  (∀ s : State,
     let c := s.canopy
     (c.state = 0 → exec .canopyHeartbeatSend s = .next s) ∧
     (c.state ≠ 0 → exec .canopyHeartbeatSend s =
       .next ((admissions (sendBeat s false)).schedule (20 * Config.clocksPerUs) .canopyHeartbeatSend)) ∧
     (∀ chip n time proposal xs joins em,
       let i : Instr := .canopyHeartbeatReceive chip n time proposal xs joins em
       (c.state = 0 ∨ chip = c.chip → exec i s = .next s) ∧
       (c.state ≠ 0 → chip ≠ c.chip →
         ((∃ m ∈ c.members, m.chip = chip) → ∃ k, exec i s = .next (admissions
           (takeBeat { s with canopy := { c with offset := k } } chip time proposal xs joins em))) ∧
         ((∀ m ∈ c.members, m.chip ≠ chip) → chip ∈ joins → exec i s = .next { s with canopy := { c with
           requests := if chip ∈ c.requests then c.requests else c.requests ++ [chip], asked := mput c.asked chip proposal } }) ∧
         ((∀ m ∈ c.members, m.chip ≠ chip) → chip ∉ joins →
           (c.state ≠ 1 → exec i s = .next s) ∧
           (c.state = 1 → ∃ k, exec i s = .next (admissions (takeBeat { s with canopy := { c with
             members := c.members ++ [{ chip := chip, proposal := proposal, lastHeard := s.clock, silent := false, heardRun := 0 }]
             offset := k } } chip time proposal xs joins em)))))) ∧
     (∀ m, c.members.find? (fun x => x.chip == m.chip) = some m → m.chip ≠ c.chip →
       (m.silent = true ∨ s.clock < m.lastHeard + 60 * Config.clocksPerUs →
         exec (.canopyMemberSilent m.chip) s = .next s) ∧
       (m.silent = false → m.lastHeard + 60 * Config.clocksPerUs ≤ s.clock →
         ∃ t, exec (.canopyMemberSilent m.chip) s = .next t ∧ t.canopy.ceiling = 1200 ∧
           t.canopy.members.map Member.chip = c.members.map Member.chip ∧
           (∀ x ∈ t.canopy.members, x.chip = m.chip → x.silent = true) ∧ t.dram = s.dram ∧ t.waves = s.waves) ∧
       (s.clock < m.lastHeard + 1000 * Config.clocksPerUs → exec (.canopyMemberExpel m.chip) s = .next s) ∧
       (m.lastHeard + 1000 * Config.clocksPerUs ≤ s.clock → ∃ t, exec (.canopyMemberExpel m.chip) s = .next t ∧
         t.canopy.members = c.members.filter fun x => x.chip != m.chip)) ∧
     (2 ≤ c.state → exec (.canopyMemberExpel c.chip) s = .next (leaveGroup s)) ∧
     ((∀ a ∈ c.announces, s.clock < a.due) → exec .canopyCeilingChange s = .next s) ∧
     (∀ a, (c.announces.filter fun x => decide (x.due ≤ s.clock)) = [a] →
       ∃ t, exec .canopyCeilingChange s = .next t ∧ t.canopy.announces = (if a.chip = c.chip ∧ a.kind = .leave then []
           else c.announces.erase a) ∧
         let least := fun (ms : List Member) (own : Nat) => if ms.any Member.silent then 1200
           else Nat.max 1200 (ms.foldl (fun m x => Nat.min m x.proposal) (if 2 ≤ c.state then own else 2400))
         let changed := c.members.map fun m => if m.chip = a.chip then { m with proposal := a.proposal } else m
         let others := c.members.filter fun m => m.chip != a.chip
         (a.kind = .change ∨ a.kind = .emergency → a.chip ≠ c.chip → t.canopy.members = changed ∧ t.canopy.state = c.state ∧
           t.canopy.ceiling = least changed c.inForce) ∧
         (a.kind = .change ∨ a.kind = .emergency → a.chip = c.chip → t.canopy.members = c.members ∧ t.canopy.state = c.state ∧
           t.canopy.inForce = a.proposal ∧ t.canopy.ceiling = least c.members a.proposal ∧
           (a.kind = .change → t.canopy.holdLow = false)) ∧
         (a.kind = .rise → t.canopy.members = c.members ∧ t.canopy.state = c.state ∧
           t.canopy.ceiling = least c.members c.inForce) ∧
         (a.kind = .leave → a.chip ≠ c.chip → t.canopy.members = others ∧ t.canopy.state = c.state ∧
           t.canopy.ceiling = least others c.inForce) ∧
         (a.kind = .leave → a.chip = c.chip → t.canopy.state = 0 ∧ t.canopy.ceiling = 2400 ∧ t.canopy.members = [] ∧
           ∀ d ∈ s.domains, d.groupScope = true → (s.clock, Instr.domainDown d.id) ∈ t.agenda))) ∧
  (∀ (s : State) (v : Word),
     let c := s.canopy
     let placed := { c with chip := bits v.toNat 16 12, group := bits v.toNat 32 32 }
     (c.state = 0 → v.getLsbD 1 = false → exec (.canopyJoin v) s = .next (State.schedule { s with
       canopy := { placed with state := 1, since := s.clock, ceiling := 2400 }
       agenda := s.agenda.filter fun e => e.2 != Instr.canopyHeartbeatSend } (20 * Config.clocksPerUs) .canopyHeartbeatSend)) ∧
     (c.state ≠ 0 → v.getLsbD 1 = false → exec (.canopyJoin v) s = .next s) ∧
     (c.state = 0 → v.getLsbD 0 = false → exec (.canopyLeave v) s = .next { s with canopy := placed }) ∧
     (c.state = 1 → exec (.canopyLeave v) s = .next (leaveGroup s)) ∧
     (c.state = 2 → exec (.canopyLeave v) s =
       .next (announceOwn { s with canopy := { c with state := 3 } } 0 (cnplead s) .leave)) ∧
     (c.state = 3 → exec (.canopyLeave v) s = .next s) ∧
     (let t := leaveGroup s
      t.canopy.state = 0 ∧ t.canopy.ceiling = 2400 ∧ t.canopy.members = [] ∧ t.canopy.announces = [] ∧ t.dram = s.dram ∧
        ∀ d ∈ s.domains, d.groupScope = true → (s.clock, Instr.domainDown d.id) ∈ t.agenda))

/-! ## Other events -/

/-- INSTRUCTION_COMPLETE (R38, R56, R134, R135): an instruction of a wave with no fence outstanding, none of whose registers an
earlier one is still to write, writes its results, lowers its flag, adds its words to SS (R362), installs the format state it is
to install (R274), lets a path it holds, or has woken from its wait (R23), issue again (R131), and is no longer pending. Of the wave nothing else changes, neither
mode nor paths nor sets, of another wave nothing, resident or in a retirement tracker, of a core nothing but the tracker that
may hold the wave, and of the machine nothing else at all. -/
def Obligations.CompletionWritesResults : Prop :=
  ∀ (s : State) (w : Wave) (pre post : List Completion) (c : Completion),
    s.wave? w.uid = some w → w.fences = [] → w.pending = pre ++ c :: post →
    (∀ d ∈ pre ++ post, d.seqNo ≠ c.seqNo ∧ d.returned = false) →
    (∀ d ∈ pre, ∀ k ∈ writeKeys c.writes, k ∉ writeKeys d.writes) →
    let w1 := c.writes.foldl Wave.write w
    ∃ t, exec (.instructionComplete w.uid c.seqNo) s = .next t ∧
      t.wave? w.uid = some { w.unhold c.seqNo with
        v := w1.v, s := w1.s, p := w1.p, perm := w1.perm, flags := (w.lower c.setf).flags
        pending := pre ++ post, ownSS := w.ownSS + c.ss
        fmt := match c.fmt with
          | some bs => some bs
          | none => w.fmt } ∧
      (∀ e ∈ w.places, (e.2.park = .hold c.seqNo ∨ ∃ r, e.2.park = .woken c.seqNo r) →
        (e.1, { e.2 with park := .running }) ∈ (w.unhold c.seqNo).places) ∧
      (∀ uid, uid ≠ w.uid → t.wave? uid = s.wave? uid ∧ t.anyWave? uid = s.anyWave? uid) ∧
      (∀ k, { t.core k with tracker := [] } = { s.core k with tracker := [] }) ∧
      t = { s with waves := t.waves, cores := t.cores }

/-- REP_ITERATION (R146): the next iteration of a path's repeat is made ready, each stepped field of the instruction at the
path's slot advanced by the iterations already made (which fields step is log entry 22). STARVATION_OVERRIDE (R37, R139): the
paths of a partition passed over for 256 clocks or more go first in this one, in the order of age. OPERAND_LOG_REPLAY (R50): a
logged load or store is performed from the values the log holds. Performed, it leaves the log, its results become its
completion's, and it completes after its latency; an ordinary cause found then errors the wave's context. HALT_REQUEST (R47): it
is held for the wave, or refused when the context names no handler; that the refusal is reported in a list of the state, and that
the first path that would issue takes the halt, is the model's (log entry 28). HALT_TRAP_DELIVERY (R45, R47): outside a handler
the path takes the trap with cause HALT_REQUEST where it stands; inside one the halt stays held. TRACKER_DRAIN (R36): an entry of
a core's retirement tracker is freed once its wave's stores and copies have drained, and is held until then (what a wave of a
checked run waits for is log entry 33). WEIGHTSTORE_REFRESH (R222): group g refreshes from 4g to 4g + 2 microseconds of every
64, and between its windows none does (what WSPHASE then reads is log entry 107). -/
def Obligations.PathAndWaveEvents : Prop :=
  ((∀ (s s1 : State) (w : Wave) (p : Path) (place : Nat) (ws : List Word32),
     s.wave? w.uid = some w → mfind w.places place = some p → w.rep.valid = true → w.rep.path = place →
     mayIssue w p = true → fetchBundle s w p.pc = (.words ws, s1) →
     ∃ x, exec (.repIteration w.uid place) s = .next { s1 with issue := some x } ∧
       x.uid = w.uid ∧ x.place = place ∧ x.bundle = p.pc ∧ x.slot = p.slot ∧ x.iteration = some w.rep.next ∧
       x.word = steppedWord w.rep.stride w.rep.next (slotWord ws p.slot)) ∧
   (∀ (s : State) (core part : Nat),
     let starving := (sortBy beforeByAge (partPaths s core part)).filter fun x => decide (256 ≤ x.2.2.passed)
     (starving = [] → exec (.starvationOverride core part) s = .next s) ∧
     (starving ≠ [] → exec (.starvationOverride core part) s =
       .next (s.setPart core part { s.part core part with first := starving.map Seated.name })))) ∧
  (∀ (s : State) (uid : Nat) (w : Wave) (x : LogEntry), s.anyWave? uid = some w →
     w.log.find? (fun l => l.seqNo == x.seqNo) = some x → x.op.kind ∈ [MemKind.load, .loadPair, .store, .storePair] →
     (∀ s1 ws lat ss, performMixed s w x.op = .ok s1 ws lat ss →
       exec (.operandLogReplay uid x.seqNo) s = .next (settleFences (replayDone s1 w.uid x ws lat ss) uid)) ∧
     (∀ c va ls, performMixed s w x.op = .trap c va ls →
       exec (.operandLogReplay uid x.seqNo) s = .next (settleFences (waveError (dropLog s w.uid x.seqNo) w x.bundle c) uid))) ∧
  (∀ (s : State) (w : Wave) (c : Context), s.wave? w.uid = some w → s.waveCtx w = some c →
     (c.handler = 0 → exec (.haltRequest w.uid) s = .next { s with haltRefusals := w.uid :: s.haltRefusals }) ∧
     (c.handler ≠ 0 → exec (.haltRequest w.uid) s = .next (s.modWave w.uid fun x => { x with haltPending := true })) ∧
     (∀ place, w.held.isSome = true → exec (.haltTrapDelivery w.uid place) s = .next s) ∧
     (∀ place p, w.haltPending = true → w.held = none → c.handler ≠ 0 → mfind w.places place = some p →
       ∃ t w1 h, exec (.haltTrapDelivery w.uid place) s = .next t ∧ t.wave? w.uid = some w1 ∧ w1.haltPending = false ∧
         w1.mode = 0 ∧ mfind w1.places 0 = some h ∧ h.pc = c.handler ∧ h.mask = p.mask ∧
         (w1.held.map HeldCopy.faultPlace) = some place)) ∧
  ((∀ (s : State) (core k : Nat) (x : TrackerEntry), (s.core core).tracker[k]? = some x →
     (drained s x.wave = false → exec (.trackerDrain core k) s = .next s) ∧
     (drained s x.wave = true →
       let freed := s.setCore core { s.core core with tracker := (s.core core).tracker.eraseIdx k }
       exec (.trackerDrain core k) s = .next (countOut freed x.wave))) ∧
   (∀ s : State, let us := s.clock / Config.clocksPerUs % 64
     exec .weightStoreRefresh s = .next { s with wsRefresh := if us % 4 < 2 then some (us / 4) else none }))

/-- PACKET_ADMIT at a queue that admits (R390, R394): an empty slot stops the queue there; a launch admitted raises QREAD by
one, and the processor goes on to the next packet. QWIDX_WRITE (R390): the value is kept as the last written; one behind
QREAD, or more than the ring ahead of it, does nothing more, and any other tells the processor of the packets before it.
QUEUE_ENABLE (R387, R390): while ENABLE is set, a write acts only if it clears ENABLE; the write that sets ENABLE notifies
the processor of the last QWIDX value. PRIORITY_AGEING (R400): after AGEINT the priority of a queue that waits rises by one
level, not above 6, and a base priority of 7 stays; an event that comes sooner raises nothing and looks again when AGEINT has
passed. BLOCK_PLACE (R353, R395, R400, R401): a launch whose next new block or check run fits, and before which no other launch
with one that fits goes, has it placed, a saved block that fits begins its restore, and where nothing fits it may make
pre-emption requests. A launch of higher priority, or of the same and admitted earlier, that has one that fits is tried first, at
the same clock (the model's order of its events, log entry 73); which cores and shares a placement takes is log entry 61.
BLOCK_RESTORE (R41, R439): a saved block whose context places blocks and for which there is a place is restored whole from its
headers (the registers are free, log entry 9), one with a malformed header errors its launch with SAFEPOINT_TABLE, and one that
cannot be placed waits; no other wait of its launch holds it back. LAUNCH_COMPLETION (R130, R398): a launch whose blocks are done
and none of whose released faces waits ends its pins, performs its release, writes its record, and gives its signal; one with a
face still waiting (R314) stays as it is. -/
def Obligations.QueuesBlocksAndLaunches : Prop :=
  (∀ (s : State) (fn q : Nat), q < 64 →
     let x := mget emptyQueue (s.func fn).queues q
     let slot := bits x.base.toNat 12 40 * 4096 + 64 * (x.read % x.slots)
     (∀ c packet s1, queueOpen s fn q = some c → engineRead s c x.home slot 64 = (.ok packet, s1) →
       (packetType packet = 0 →
         exec (.packetAdmit fn q) s = .next (setQueueReg s1 fn q { x with stopped := true })) ∧
       (∀ l dom s2, packetType packet ≠ 0 →
         admitPacket s1 c (newLaunch s1 fn q c x.home x.prio packet) none = (.launch l dom, s2) →
         let s3 := setQueueReg s2 fn q { x with read := (x.read + 1) % 2 ^ 32, lastLid := l.lid }
         exec (.packetAdmit fn q) s = .next ((enterLaunch s3 { l with prev := x.lastLid } dom).schedule 0 (.packetAdmit fn q)))) ∧
     (∀ v : Word, exec (.qwidxWrite fn q v) s =
       .next (notifyQueue (setQueueReg s fn q { x with lastW := v.toNat % 2 ^ 32 }) fn q)) ∧
     (∀ r : State, let y := mget emptyQueue (r.func fn).queues q
       (y.slots < (y.lastW + 2 ^ 32 - y.read) % 2 ^ 32 → notifyQueue r fn q = r) ∧
       ((y.lastW + 2 ^ 32 - y.read) % 2 ^ 32 ≤ y.slots → notifyQueue r fn q =
         (setQueueReg r fn q { y with widx := y.lastW, stopped := false }).schedule 0 (.packetAdmit fn q))) ∧
     (∀ v : Word, let y := { x with ctl := qctlBits v.toNat }
       (x.enabled = true → v.getLsbD 63 = true → exec (.queueEnable fn q v) s = .next s) ∧
       (x.enabled = true → v.getLsbD 63 = false → exec (.queueEnable fn q v) s = .next (setQueueReg s fn q y)) ∧
       (x.enabled = false → v.getLsbD 63 = false →
         exec (.queueEnable fn q v) s = .next (setQueueReg s fn q { y with prio := bits (qctlBits v.toNat).toNat 8 3 })) ∧
       (x.enabled = false → v.getLsbD 63 = true →
         exec (.queueEnable fn q v) s =
           .next (notifyQueue (setQueueReg s fn q { y with prio := bits (qctlBits v.toNat).toNat 8 3 }) fn q))) ∧
     (queueWaits s fn q = true → x.agedAt + s.ageInt * Config.clocksPerUs ≤ s.clock →
       ∃ t, exec (.priorityAgeing fn q) s = .next t ∧
         (mget emptyQueue (t.func fn).queues q).prio = if x.basePrio = 7 ∨ 6 ≤ x.prio then x.prio else x.prio + 1) ∧
     (queueWaits s fn q = true → s.clock < x.agedAt + s.ageInt * Config.clocksPerUs →
       exec (.priorityAgeing fn q) s =
         .next (s.scheduleOnce (x.agedAt + s.ageInt * Config.clocksPerUs - s.clock) (.priorityAgeing fn q)))) ∧
  (∀ (s : State) (l : Launch), s.launch? l.lid = some l →
     (∀ x plan slots, fitting s l = some (x, plan, slots) →
       (∀ m ∈ s.launches, l.priority < m.priority ∨ m.priority = l.priority ∧ m.lid < l.lid → fitting s m = none) →
       exec (.blockPlace l.lid) s = .next (match x with
         | .restore _ => placeCandidate s l x plan slots
         | .check _ _ => kickAll (placeCandidate s l x plan slots)
         | .fresh _ => kickAll (placeCandidate s l x plan slots))) ∧
     (∀ x m, candidate s l = some x → betterLaunch s l = some m →
       exec (.blockPlace l.lid) s = .next ((s.schedule 0 (.blockPlace m.lid)).schedule 0 (.blockPlace l.lid)) ∧
         m ∈ s.launches ∧ fitting s m ≠ none ∧ (l.priority < m.priority ∨ m.priority = l.priority ∧ m.lid < l.lid)) ∧
     (∀ x, candidate s l = some x → betterLaunch s l = none → fitting s l = none →
       exec (.blockPlace l.lid) s = .next (preemptFor s l x)) ∧
     (candidate s l = none → exec (.blockPlace l.lid) s = .next s) ∧
     (∀ bid b c saved, s.block? l.lid bid .plain = some b → s.ctx? l.fn l.ctx = some c → b.saved = some saved →
       b.phase = .saved →
       (∀ plan hs s1, ctxPlaces c = true → planFor s s.residents l (.restore b) = some plan →
         readHeaders s c l.home saved.waves = (.ok hs, s1) →
         (hs.any (fun y => headerSaveBad y.2.1) = false →
           exec (.blockRestore l.lid bid 0) s = .next (kickAll (restoreBlock s1 b saved plan hs))) ∧
         (hs.any (fun y => headerSaveBad y.2.1) = true →
           exec (.blockRestore l.lid bid 0) s = .next (blockError s1 b.lid b.bid b.run b.fn b.ctx .safepointTable 0))) ∧
       (ctxPlaces c = false ∨ planFor s s.residents l (.restore b) = none →
         exec (.blockRestore l.lid bid 0) s = .next (restoreUnderWay s b false))) ∧
     (∀ c, s.ctx? l.fn l.ctx = some c → l.waitFault = none → l.phase = 0 → l.ended = false → l.replaySum = none →
       let faces := s.facesWaiting.any fun f => f.lid == some l.lid
       (∀ s1, (if l.marker then (queueLaunches s l.fn l.q).all (fun m => decide (l.lid ≤ m.lid))
             else decide (l.grid ≤ l.blocksDone) && !faces) = true →
         writeCompletion (releaseLaunch (endPins s l.lid) c l) c l = (.ok (), s1) →
         let l1 := { l with phase := 1 }
         exec (.launchCompletion l.lid) s = .next (completeSignal (countStatus (s1.setLaunch l1) l1) c l1)) ∧
       (l.marker = false → l.blocksDone < l.grid ∨ faces = true → exec (.launchCompletion l.lid) s = .next s)))

/-- CTX_CREATE (R387, R388): the context of a well-formed descriptor is made, its queues read on, and a malformed one, or an ASID the function
does not own or another context has, is reported and makes none. CTX_RESET and CTX_DESTROY (R399): no wave, block, held version
or domain of the context is left, its launches are to complete with CONTEXT_RESET, its queues are disabled, and it runs again
with no request pending, or is gone when no launch is left; destroy closes it until then. CTX_PREEMPT (R401): the request merges
with one pending, by the higher level and the earlier clock. PREEMPT_BOUND_EXPIRY (R43): past the context's bound, a request
below level 7 sets the context's PREEMPTEV bit and stands, and at level 7 none of its waves and blocks is left and its launches
are to complete with PREEMPT_TIMEOUT. PREEMPTEV_CLEAR (R387): writing 1 clears a bit, and the others stand.
FUNCTION_LEVEL_RESET (R402) stops: FLR and phase 1 read back, the function's queues are disabled, and its waves and launches
stand. FLR_SCRUB: after the stop the kill, at phase 2: of each context of the function no wave and no block is left and the
status of its launches is VF_RESET or one that goes before it, and the function's fault records are refused. The kill lasts until
the launches have ended; the drain, phase 3, goes on while a request with the function's tag is outstanding, and after it, at
phase 4, the function's translations, class records, held versions and cached lines are gone; the scrub over, its contexts and
launches are gone, its queue registers and its count of lost packets (R412) at reset, and FLR and the phase read 0; the contexts of
other functions stand. That a phase lasts a clock, and the scrub 4000, is the model's choice (log entry 3). -/
def Obligations.ContextsAndFunctions : Prop :=
  (∀ (s : State) (fn id : Nat),
     (id < 16 → s.ctx? fn id = none →
       let f := s.func fn
       let d := readPhys s (f.reg ctxDesc) 64
       let asid := field d 4 2
       (descBad d = false → ownsAsid f asid = true → s.ctxOfAsid asid = none →
         exec (.ctxCreate fn id) s = .next (kickQueues { s with ctxs := s.ctxs ++ [contextOf fn id d] } fn id)) ∧
       (descBad d = true ∨ ownsAsid f asid = false ∨ s.ctxOfAsid asid ≠ none →
         exec (.ctxCreate fn id) s = .next (s.setFunc fn { f with lastCause := 0x0100 }))) ∧
     (∀ c, s.ctx? fn id = some c →
       (c.state ≠ .closing → ∃ t, exec (.ctxReset fn id) s = .next t ∧ ctxKilled s t fn id Cause.contextReset.code ∧
         t.ctx? fn id = some { c with state := .running, preempt := none, traceStop := false } ∧
         ∀ q, (mget emptyQueue (t.func fn).queues q).context = id → (mget emptyQueue (t.func fn).queues q).enabled = false) ∧
       (∃ t, exec (.ctxDestroy fn id) s = .next t ∧ ctxKilled s t fn id Cause.contextReset.code ∧
         (∀ q, (mget emptyQueue (t.func fn).queues q).context = id → (mget emptyQueue (t.func fn).queues q).enabled = false) ∧
         ((∀ l ∈ s.launches, l.inCtx fn id = false) → t.ctx? fn id = none) ∧
         ((∃ l ∈ s.launches, l.inCtx fn id = true) →
           t.ctx? fn id = some { c with state := .closing, preempt := none, traceStop := false })) ∧
       (∀ level, level < 8 → c.state = .running ∨ c.state = .preempted →
         let merged := match c.preempt with
           | some (old, since) => (Nat.max old level, since)
           | none => (level, s.clock)
         exec (.ctxPreempt fn id level) s = .next ((s.setCtx { c with preempt := some merged }).schedule
           (merged.2 + c.boundUs * Config.clocksPerUs - s.clock) (.preemptBoundExpiry c.fn c.id))))) ∧
  ((∀ (s : State) (fn id : Nat) (c : Context) (level since : Nat), s.ctx? fn id = some c → c.preempt = some (level, since) →
     since + c.boundUs * Config.clocksPerUs ≤ s.clock →
     (level < 7 → ∃ ev, exec (.preemptBoundExpiry fn id) s = .next (s.setFunc fn { s.func fn with preemptEv := ev }) ∧
       ∀ k, ev.testBit k = (decide (k = id) || (s.func fn).preemptEv.testBit k)) ∧
     (7 ≤ level → ∃ t, exec (.preemptBoundExpiry fn id) s = .next t ∧ ctxKilled s t fn id Cause.preemptTimeout.code ∧
       t.ctx? fn id = some { c with preempt := none })) ∧
   (∀ (s : State) (fn : Nat) (v : Word), ∃ ev,
     exec (.preemptevClear fn v) s = .next (s.setFunc fn { s.func fn with preemptEv := ev }) ∧
     ∀ k, ev.testBit k = ((s.func fn).preemptEv.testBit k && decide (k < 16) && !v.getLsbD k))) ∧
  (∀ (s : State) (fn : Nat),
     ((s.func fn).flr = false → ∃ t, exec (.functionLevelReset fn) s = .next t ∧ (t.func fn).flr = true ∧
       (t.func fn).flrPhase = 1 ∧ (∀ q, (mget emptyQueue (t.func fn).queues q).enabled = false) ∧
       t.waves = s.waves ∧ t.blocks = s.blocks ∧ t.launches = s.launches ∧ t.ctxs = s.ctxs ∧
       (s.clock + 1, Instr.flrScrub fn) ∈ t.agenda) ∧
     ((s.func fn).flr = true → (s.func fn).flrPhase = 1 → ∃ t, exec (.flrScrub fn) s = .next t ∧ (t.func fn).flr = true ∧
       (t.func fn).flrPhase = 2 ∧ (t.func fn).faults = [] ∧ (t.func fn).waitingFaults = [] ∧
       (∃ due, (due, Instr.flrScrub fn) ∈ t.agenda) ∧
       (∀ c ∈ t.ctxs, c.fn = fn → c.preempt = none ∧ ∀ l ∈ t.launches, l.inCtx fn c.id = true →
         (∀ w ∈ t.waves, w.lid ≠ l.lid) ∧ (∀ b ∈ t.blocks, b.lid ≠ l.lid) ∧ (∀ d ∈ t.domains, d.lid ≠ l.lid) ∧
         statusRank l.status ≤ statusRank Cause.vfReset.code ∧ ∃ due, (due, Instr.launchCompletion l.lid) ∈ t.agenda)) ∧
     ((s.func fn).flr = true → (s.func fn).flrPhase = 2 →
       ((∃ l ∈ s.launches, l.fn = fn) → exec (.flrScrub fn) s = .next (s.schedule 1 (.flrScrub fn))) ∧
       ((∀ l ∈ s.launches, l.fn ≠ fn) → exec (.flrScrub fn) s =
         .next ((s.setFunc fn { s.func fn with flrPhase := 3 }).schedule 1 (.flrScrub fn)))) ∧
     ((s.func fn).flr = true → (s.func fn).flrPhase = 3 →
       (taggedRequests s fn ≠ 0 → exec (.flrScrub fn) s = .next (s.schedule 1 (.flrScrub fn))) ∧
       (taggedRequests s fn = 0 → ∃ t, exec (.flrScrub fn) s = .next t ∧ (t.func fn).flr = true ∧ (t.func fn).flrPhase = 4 ∧
         t.ctxs = s.ctxs ∧ (s.clock + 4000, Instr.flrScrub fn) ∈ t.agenda ∧ let own := ownsAsid (s.func fn)
         (∀ x ∈ t.tlb, own x.asid = false) ∧ (∀ x ∈ t.classes, own x.asid = false) ∧ (∀ x ∈ t.classCopies, own x.asid = false) ∧
         (∀ x ∈ t.heldSectors, own x.asid = false) ∧ (∀ x ∈ t.l2, own x.asid = false))) ∧
     ((s.func fn).flr = true → (s.func fn).flrPhase = 4 → ∃ t f, exec (.flrScrub fn) s = .next t ∧
       t.fns = mset emptyFunction s.fns fn f ∧ f.flr = false ∧ f.flrPhase = 0 ∧ f.queues = [] ∧ f.trLost = 0 ∧
       (∀ c ∈ t.ctxs, c.fn ≠ fn) ∧ (∀ l ∈ t.launches, l.fn ≠ fn) ∧ (∀ c, c.fn ≠ fn → (c ∈ t.ctxs ↔ c ∈ s.ctxs))))

/-- TLB_MISS_WALK (R373, R377): a miss that translates leaves its leaf in a TLB; a frozen range makes it wait; a fault queued
to the host leaves its record, and any other errors the ASID's context. RECLASSIFICATION (R382): a shared page stays so; a
private one with no atomic on its way to it becomes shared, its class generation rises by one, the class caches drop it, and
the reservations on it are cleared. Faults answered (R384, R385). FQRESP_REPLAY: the record is dropped, no TLB keeps its
address, and every requester that waits on it retries. FQRESP_REFUSE: the record is dropped and, with a requester that is no
shadow or tiebreak and no launch waiting on it, its cause becomes its context's error. FQHEAD_WRITE: the head moves, and
waiting faults post their records while there is room. A sequence number with no record changes nothing. -/
def Obligations.TranslationEvents : Prop :=
  ((∀ (s : State) (asid va : Nat) (write fetch : Bool),
     let k : AccKind := if fetch then .fetch else if write then .write else .read
     let i : Instr := .tlbMissWalk asid va write fetch
     let look := tlbAccess s (plainActor .host asid) va k
     (∀ pa nc x s1, look = (.ok pa nc, x, s1) → exec i s = .next s1 ∧
       ∃ e ∈ s1.tlb, e.asid = asid ∧ e.vbase ≤ va ∧ va < e.vbase + e.size ∧ pa = e.pbase + (va - e.vbase)) ∧
     (∀ x s1, look = (.frozen, x, s1) → exec i s = .next (s1.schedule Config.clocksPerUs i)) ∧
     (∀ x y s1, look = (.fault x, y, s1) →
       (x.cause.delivery = .pageFault → exec i s = .next (postFault s1 x (if fetch then 5 else 0) 0 .none)) ∧
       (∀ c, x.cause.delivery ≠ .pageFault → s1.ctxOfAsid asid = some c →
         exec i s = .next (contextError s1 c.fn c.id x.cause)))) ∧
   (∀ (s : State) (asid page : Nat) (r : ClassRec),
     s.classes.find? (fun x => x.asid == asid && x.page == page) = some r →
     (r.shared = true → exec (.reclassification asid page) s = .next s) ∧
     (r.shared = false → r.waits = none → (∀ a ∈ s.atomics, toPage s asid page a = false) →
       ∃ t, exec (.reclassification asid page) s = .next t ∧
         t.classes = s.classes.map (fun x => if x.asid == asid && x.page == page then
           { x with shared := true, generation := x.generation + 1, waits := none } else x) ∧
         t.classCopies = s.classCopies.filter (fun x => !(x.asid == asid && x.page == page)) ∧
         t.waves = s.waves.map (fun w => match w.reservation with
           | some v => if v.line.space = .global asid ∧ v.line.addr / 65536 = page then
               { w with reservation := some { v with valid := false } } else w
           | none => w) ∧
         t.tlb = s.tlb ∧ t.atomics = s.atomics ∧ t.scratch = s.scratch ∧ t.cores = s.cores))) ∧
  (∀ (s : State) (fn n : Nat),
     let f := s.func fn
     ((f.faults.find? fun r => r.seqNo == n) = none →
       exec (.fqrespReplay fn n) s = .next s ∧ exec (.fqrespRefuse fn n) s = .next s) ∧
     (∀ r, (f.faults.find? fun r => r.seqNo == n) = some r →
       let s1 := s.setFunc fn { f with faults := f.faults.filter fun r => r.seqNo != n }
       let s2 := { s1 with
         tlb := s1.tlb.filter fun e => !(e.asid == r.asid && decide (e.vbase ≤ r.va) && decide (r.va < e.vbase + e.size)) }
       exec (.fqrespReplay fn n) s = .next (r.waiters.foldl (fun q x => retryRequester q fn x) s2) ∧
       (∀ c, (∃ x ∈ r.waiters, redundantWaiter s x = none) → (∀ l, Requester.launch l ∉ r.waiters) → s1.ctxOfAsid r.asid = some c →
         exec (.fqrespRefuse fn n) s = .next (contextError s1 c.fn c.id (pageCause r.cause)))) ∧
     (∀ v : Word, exec (.fqheadWrite fn v) s =
       .next (flushWaiting (s.setFunc fn { f with faultHead := v.toNat % 2 ^ 32 }) fn)))

/-- TLBINVC (R385): a write that names an ASID the function does not own, or one while an invalidation is in progress,
changes nothing; any other drops the range's entries, the ASID's, or every entry of the function's ASIDs, makes the recorded
bits of their cached lines stale, and the invalidation is in progress until TLB_INVALIDATE_DONE. Its 1000 clocks are the
model's (log entry 3). Map changes (R386). MAP_CHANGE: a range that passes 2^52 gives MAPSTAT 4; a pinned line gives 3 unless
forced; otherwise the range is frozen, the ASID's map generation rises, and the range's translations are dropped.
MAP_CHANGE_FROZEN: once older copy commands and atomics have ended, pins in the range are broken, its lines flushed, its class
records untouched and its translations dropped, and MAPSTAT is 2. MAPDONE thaws a frozen range. -/
def Obligations.InvalidationsAndMapChanges : Prop :=
  (∀ (s : State) (fn asid : Nat),
     let f := s.func fn
     let i1 : Instr := .tlbinvRange fn asid
     let i2 : Instr := .tlbinvAsid fn asid
     let i3 : Instr := .tlbinvFunction fn asid
     let first := bits (f.reg 0x28) 16 36
     let count := bits (f.reg 0x28) 0 16 + 1
     let dropped := fun (gone : TlbEntry → Bool) (stale : Nat → Nat → Bool) =>
       let s1 := s.setFunc fn { f with invalidating := true }
       (markStale { s1 with tlb := s1.tlb.filter fun e => !gone e } stale).schedule 1000 (.tlbInvalidateDone fn)
     (ownsAsid f asid = false ∨ f.invalidating = true →
       exec i1 s = .next s ∧ exec i2 s = .next s ∧ exec i3 s = .next s) ∧
     (ownsAsid f asid = true → f.invalidating = false →
       exec i1 s = .next (dropped (fun e =>
         e.asid == asid && decide (e.vbase < 65536 * (first + count)) && decide (65536 * first < e.vbase + e.size))
           fun x line => x == asid && lineInRange first count line) ∧
       exec i2 s = .next (dropped (fun e => e.asid == asid) fun x _ => x == asid) ∧
       exec i3 s = .next (dropped (fun e => ownsAsid f e.asid) fun x _ => ownsAsid f x)) ∧
     exec (.tlbInvalidateDone fn) s = .next (s.setFunc fn { f with invalidating := false })) ∧
  (∀ (s : State) (fn asid : Nat),
     let f := s.func fn
     let first := bits (f.reg 0x40) 16 36
     let count := bits (f.reg 0x40) 0 16 + 1
     let met := ((s.pins.filter fun p => p.asid == asid && lineInRange first count p.line).map Pin.line).eraseDups.length
     let change : Bool → Instr := fun force => if force then .mapChangeForce fn asid else .mapChange fn asid
     let free := ownsAsid f asid = true ∧ f.mapStat ≠ 1 ∧ f.mapStat ≠ 2
     (∀ force, ¬ free → exec (change force) s = .next s) ∧
     (∀ force, free → 2 ^ 36 < first + count →
       exec (change force) s = .next (s.setFunc fn { f with mapStat := 4, mapPinned := 0 })) ∧
     (free → first + count ≤ 2 ^ 36 → met ≠ 0 →
       exec (change false) s = .next (s.setFunc fn { f with mapStat := 3, mapPinned := Nat.min met 0xFFFF })) ∧
     (∀ force, free → first + count ≤ 2 ^ 36 → met = 0 ∨ force = true →
       let r : State := { s with mapGens := mset 0 s.mapGens asid (mget 0 s.mapGens asid + 1) }
       exec (change force) s = .next ((dropTlb (r.setFunc fn { f with
         mapStat := 1, mapPinned := Nat.min met 0xFFFF, mapAsid := asid, mapFirst := first, mapCount := count })
           asid first count).schedule 1000 (.mapChangeFrozen fn))) ∧
     (f.mapStat = 1 → olderCommand s f = false → olderAtomic s f = false →
       let s1 := flushRange (breakPins s f.mapAsid f.mapFirst f.mapCount) f.mapAsid f.mapFirst f.mapCount
       let outside := fun (x page : Nat) => !(x == f.mapAsid && decide (f.mapFirst ≤ page) && decide (page < f.mapFirst + f.mapCount))
       exec (.mapChangeFrozen fn) s = .next ((dropTlb { s1 with
         classes := s1.classes.filter fun r => outside r.asid r.page
         classCopies := s1.classCopies.filter fun r => outside r.asid r.page } f.mapAsid f.mapFirst f.mapCount).setFunc fn
           { f with mapStat := 2 })) ∧
     (f.mapStat = 1 → olderCommand s f = true ∨ olderAtomic s f = true →
       exec (.mapChangeFrozen fn) s = .next (s.schedule 1000 (.mapChangeFrozen fn))) ∧
     (f.mapStat = 2 → exec (.mapdone fn) s = .next (s.setFunc fn { f with mapStat := 0 })) ∧
     (f.mapStat ≠ 2 → exec (.mapdone fn) s = .next s))

/-- PROFILE_SAMPLE (R406): a partition whose interval had the waves of one function writes that function's record, when the
function profiles it, one with the waves of several is counted lost for each, and the counts start again from zero. The record
joins its die's collector, unless the function's ring or the collector's queue of 4,096 is full, and is then counted lost
(R413, log entry 99). Which context of the function the record names is log entry 60. Trace registers of a function (R409, R412,
R413). TRACE_STOP_REQUEST and _CANCEL set and withdraw the stop of every wave of a context, and are not accepted for a context
that names no handler. WATCHPOINT_ENABLE: an enabling write sets ENABLE, or ERR where the watchpoint is malformed, its context
absent, or it would stop a context without a handler; one that does not enable and names an absent context is ignored.
TRACE_ENABLE sets the traced contexts, with a sync point for each new one, and is ignored where a bit names an absent context
(that these bits name contexts is log entry 63); TRACE_RING_READ moves the read index. -/
def Obligations.ProfilingAndTracing : Prop :=
  (∀ (s : State) (core part : Nat),
     let p := s.part core part
     let fns := (p.sampleFns.map fun k => k / 16).eraseDups
     let i : Instr := .profileSample core part
     let closed := fun (r : State) =>
       r.setPart core part { r.part core part with bins := [], reasons := [], idle := 0, sampleFns := [] }
     (fns = [] → exec i s = .next (closed s)) ∧
     (∀ fn w, fns = [fn] → oldestWave s core part = some w → w.fn = fn →
       let bytes := sampleRecord s core part w.ctx
       (bitOf ((s.func fn).reg profCtl) w.ctx = true → ∃ t, exec i s = .next (closed t) ∧
         (profileFull s fn = false ∧ collectorFull s (field bytes 2 2) = false → ∃ x : Collected,
           t = { s with collected := s.collected ++ [x] } ∧ x.fn = fn ∧ x.record = true ∧ x.bytes = bytes) ∧
         (profileFull s fn = true ∨ collectorFull s (field bytes 2 2) = true →
           t = s.setFunc fn { s.func fn with prLost := Nat.min (2 ^ 32 - 1) ((s.func fn).prLost + 1) })) ∧
       (bitOf ((s.func fn).reg profCtl) w.ctx = false → exec i s = .next (closed s))) ∧
     (2 ≤ fns.length → exec i s = .next (closed (fns.foldl (fun q fn =>
       q.setFunc fn { q.func fn with prLost := Nat.min (2 ^ 32 - 1) ((q.func fn).prLost + 1) }) s)))) ∧
  (∀ (s : State) (fn : Nat),
     (∀ id c, s.ctx? fn id = some c →
       (c.handler = 0 → exec (.traceStopRequest fn id) s = .next s ∧ exec (.traceStopCancel fn id) s = .next s) ∧
       (c.handler ≠ 0 → ∀ on, ∃ t, exec (if on then .traceStopRequest fn id else .traceStopCancel fn id) s = .next t ∧
         t.waves = s.waves.map (fun w => if w.fn = fn ∧ w.ctx = id then { w with traceStop := on } else w) ∧
         t.ctxs = (s.setCtx { c with traceStop := on }).ctxs ∧ t.dram = s.dram)) ∧
     (∀ k v, k < 8 →
       let f := s.func fn
       let x := mget { addr := 0, ctl := 0 } f.watches k
       let put := fun (c : Nat) => exec (.watchpointEnable fn k v) s =
         .next (s.setFunc fn { f with watches := mset { addr := 0, ctl := 0 } f.watches k { x with ctl := w64 c } })
       let stops := fun (c : Context) => v.getLsbD 13 = true ∧ c.handler = 0
       let misfit := watchAddrBad x.addr = true ∨ bits v.toNat 12 2 = 0 ∨ bits v.toNat 8 2 = 3
       (v.getLsbD 63 = false → s.ctx? fn (bits v.toNat 0 4) ≠ none → put (wpctlBits v.toNat)) ∧
       (v.getLsbD 63 = false → s.ctx? fn (bits v.toNat 0 4) = none → exec (.watchpointEnable fn k v) s = .next s) ∧
       (v.getLsbD 63 = true → misfit ∨ s.ctx? fn (bits v.toNat 0 4) = none → put (wpctlBits v.toNat + 2 ^ 62)) ∧
       (v.getLsbD 63 = true → ∀ c, s.ctx? fn (bits v.toNat 0 4) = some c →
         (stops c → put (wpctlBits v.toNat + 2 ^ 62)) ∧ (¬ misfit → ¬ stops c → put (wpctlBits v.toNat + 2 ^ 63)))) ∧
     (∀ v : Word, (∃ id, id < 16 ∧ v.getLsbD id = true ∧ s.ctx? fn id = none) → exec (.traceEnable fn v) s = .next s) ∧
     (∀ v : Word, (∀ id, id < 16 → v.getLsbD id = true → s.ctx? fn id ≠ none) → ∃ q : State,
       q.fns = (s.setFunc fn { s.func fn with
         regs := mset 0 (s.func fn).regs trCtl (w64 (Nat.xor (bits v.toNat 0 20) 0x80000)) }).fns ∧
       q.streams = s.streams.filter (fun x => !(x.fn == fn && !x.mustSync && !bitOf (bits v.toNat 0 20) x.ctx)) ∧
       q.waves = s.waves ∧ q.dram = s.dram ∧
       exec (.traceEnable fn v) s = .next (((setBits 16 v.toNat).filter fun c => !bitOf (s.func fn).trctl c).foldl
         (fun q c => (ctxParts q fn c).foldl (fun q p => syncPoint q p.1 p.2 fn c none) q) q)) ∧
     (∀ v, exec (.traceRingRead fn v) s =
       .next (returnSpace (s.setFunc fn { s.func fn with trRd := v.toNat % 2 ^ 32 }) fn)))

/-- Capture and replay (R415, R418). CAPTURE_START and REPLAY_START act when none is under way; CAPTURE_SNAPSHOT is written
once no launch of the context runs; CAPTURE_STOP ends a capture now, or after its last recorded launch; CAPTURE_ABORT ends
either at once, and CAPSTAT then reads 0, which is the model's reading (log entry 59). -/
def Obligations.CaptureAndReplay : Prop :=
  ∀ (s : State) (fn id : Nat),
    let f := s.func fn
    let busy := f.capture.state = 1 ∨ f.capture.state = 2 ∨ f.capture.state = 3
    let began := fun n => setCapture s fn { emptyCapture with state := n, ctx := id }
    (busy ∨ s.ctx? fn id = none → exec (.captureStart fn id) s = .next s ∧ exec (.replayStart fn id) s = .next s) ∧
    (¬ busy → s.ctx? fn id ≠ none →
      exec (.captureStart fn id) s = .next ((began 1).schedule 0 (.captureSnapshot fn)) ∧
      exec (.replayStart fn id) s = .next (replayNext (began 3) fn)) ∧
    (∀ c, f.capture.state = 1 → s.ctx? fn f.capture.ctx = some c →
      (∀ l ∈ s.launches, l.inCtx fn f.capture.ctx = false) → exec (.captureSnapshot fn) s = .next (takeSnapshot s fn c)) ∧
    (f.capture.state = 1 → exec (.captureStop fn) s =
      .next (kickQueues (setCapture s fn { f.capture with state := 4 }) fn f.capture.ctx)) ∧
    (f.capture.state = 2 → (∀ l ∈ s.launches, l.fn = fn → l.recorded = false) →
      exec (.captureStop fn) s = .next (setCapture s fn { f.capture with state := 4 })) ∧
    (f.capture.state = 2 → (∃ l ∈ s.launches, l.fn = fn ∧ l.recorded = true) →
      exec (.captureStop fn) s = .next (setCapture s fn { f.capture with stopping := true })) ∧
    (¬ busy → exec (.captureAbort fn) s = .next s) ∧
    (busy → exec (.captureAbort fn) s = .next (kickQueues { setCapture s fn { f.capture with state := 0, stopping := false } with
      launches := s.launches.map fun l => if l.fn = fn then { l with recorded := false, replaySum := none } else l } fn
        f.capture.ctx))

/-- A write of the host or of a PCIe peer by physical address (R105, R108, R119, R126, R432): with no line of the range pinned
outside its agent's reach and the caches in form, where no sealed region maps it each byte of the range, as it is read
coherently, is the data given, zero past its end; every other byte, and a byte of a sealed region, reads as before. One that
meets such a pinned line waits. A read, and an access that leaves the address space, changes nothing. That a write to a sealed
byte does nothing is the model's (log entry 71), and that such accesses find the cached copies (log entry 78). REGISTER_WRITE (R431): a misaligned or narrower write, one to no window, and one to an offset
without a register are ignored; registers take the bits their tables name and drop the others (R8, R311, R385, R387, R412,
R430). -/
def Obligations.HostAccessesAndRegisters : Prop :=
  (∀ (s : State) (write pcie : Bool) (addr len : Nat) (data : List Byte),
     let i : Instr := if pcie then .pciePeerDma write addr len data else .hostMemoryAccess write addr len data
     let met := pinnedPhys s (if pcie then .pcie else .host) addr len
     (write = false ∨ 2 ^ 48 < addr + len → exec i s = .next s) ∧
     (write = true → addr + len ≤ 2 ^ 48 → met = true → ∃ bytes, (∀ k, k < len → bytes.getD k 0 = data.getD k 0) ∧
       bytes.length = len ∧ exec i s =
         .next { s with dmaWaiting := s.dmaWaiting ++ [{ pcie := pcie, addr := addr, bytes := bytes }] }) ∧
     (write = true → addr + len ≤ 2 ^ 48 → met = false → s.cachesWf → ∃ t, exec i s = .next t ∧
       (∀ q, physByte t q =
         if addr ≤ q ∧ q < addr + len ∧ ∀ x ∈ s.seals, sealedPhys s x q = false then data.getD (q - addr) 0
         else physByte s q) ∧
       (Memory.wf s.dram = true → Memory.wf t.dram = true) ∧ t.scratch = s.scratch ∧ t.weight = s.weight ∧ t.ctxs = s.ctxs ∧ t.fns = s.fns)) ∧
  (∀ (s : State) (v : Word),
     let write := fun (win fn off : Nat) => exec (.registerWrite win fn off 8 v) s
     let n := v.toNat
     (∀ win fn off size, size ≠ 8 ∨ off % 8 ≠ 0 ∨ 3 ≤ win → exec (.registerWrite win fn off size v) s = .next s) ∧
     (∀ fn off, 16 ≤ fn → write 2 fn off = .next s) ∧
     write 0 0 0x030 = .next s ∧ write 0 0 0x620 = .next s ∧ write 1 0 0x018 = .next s ∧ write 2 0 0x120 = .next s ∧
     write 0 0 0x000 = .next (setPowerReg s 0x000 3000 (n % 2 ^ 12)) ∧
     write 0 0 0x008 = .next (setPowerReg s 0x008 20000000 (n % 2 ^ 32)) ∧
     write 0 0 0x020 = .next (setPowerReg s 0x020 105 (n % 2 ^ 8)) ∧
     (∀ g, g < 128 → write 0 0 (0x100 + 8 * g) = .next (setPowerReg s (0x100 + 8 * g) 5 (n % 16))) ∧
     write 1 0 0x400 = .next { s with ageInt := Nat.max 1 (n % 2 ^ 20) } ∧
     (∀ k, k < 16 → let f := s.func k
       write 1 0 (0x40 * k + 8) = .next (if f.enable then s else
         s.setFunc k { f with asidFirst := n % 2 ^ 16, asidCount := n / 2 ^ 16 % 2 ^ 16 }) ∧
       write 2 k 0x00 = .next (setReg s k 0x00 (n / 2 ^ 12 % 2 ^ 36 * 2 ^ 12)) ∧
       write 2 k 0x28 = .next (setReg s k 0x28 (n % 2 ^ 52)) ∧
       write 2 k 0x18 = exec (.fqheadWrite k v) s ∧ write 2 k 0x58 = exec (.mapdone k) s ∧
       write 2 k 0x118 = exec (.preemptevClear k v) s ∧ write 2 k 0x200 = exec (.traceEnable k v) s ∧
       write 2 k 0x340 = .next (s.setFunc k { f with haloSel := n % 2 ^ 8 }) ∧
       (∀ w, w < 8 → write 2 k (0x268 + 0x10 * w) = exec (.watchpointEnable k w v) s)))

/-- Requests of the management port (R433 to R437; what each answer carries is free, log entry 15). None but STATE is served before
bring-up ends, but is answered with a retry; HEALTH gives a record with the epoch's next number, or a retry during a wipe; CERT the certificate chain; STATE the
life-cycle state, the epoch, the stored image's firmware version and whether a reset is in progress; a request outside the
table is refused, and so is a state LIFECYCLE does not name (log entry 68). A module reset (R435, R436). RESET: every context,
wave, launch and function register is as at reset, the scratchpads and the weight store are zero, DRAM stands, IMGSTAT reads 0
unless an image write is under way (R438, log entry 69), and the epoch is one higher. LIFECYCLE raises the epoch by one more and
wipes: LIFECYCLE_WIPE_COMPLETE leaves every byte of DRAM zero and the state changed, but a bad image keeps the wipe from
beginning (R437). Power and the firmware image (R437, R438). POWER_LOSS: the device is as at reset, unpowered, and an image write
cut short leaves a slot that fails its check. POWER_ON and IMAGE_WRITE_COMPLETE: the dies are released if the stored image passes
its check, and a bad new image leaves the slot as it was; that power-on counts in the epoch is the model's (log entry 69).
IMAGE_WRITE: a length or an address out of range is refused, and one write at a time is made. Which addresses are in host memory,
what lies there and whether an image passes its check are not stated (log entry 16), and nor is a phase's time (log entry 70).
ECC_CORRECTION (R369): a slice is suspect once it has made 16 corrections within 24 hours, a row once it has made 2; a place
once suspect stays so, and when 128 rows are entered later ones are counted nowhere. -/
def Obligations.ManagementResetAndImages : Prop :=
  (∀ (s : State), s.mgmt.powered = true →
     let m := s.mgmt
     let served := fun (r : State) (a : Answer) => Host.Outcome.next { r with mgmt := { r.mgmt with answers := a :: r.mgmt.answers } }
     exec .stateRequest s = (served s (.status m.life m.epoch (Config.firmwareVersion m.image) (m.wiping.isSome || decide (m.bringUp < 5))
       m.imageOk) : Host.Outcome State Fault Refusal) ∧
     (∀ i, i ∈ [Instr.healthRequest, .certRequest, .resetRequest] ∨ (∃ k, i = .lifecycleRequest k ∨ i = .otherRequest k) →
       m.bringUp < 6 → exec i s = served s .retry) ∧
     (6 ≤ m.bringUp →
       (m.wiping.isSome = true → exec .healthRequest s = served s .retry) ∧
       (m.wiping = none → let r := { s with mgmt := { m with healthSeq := m.healthSeq + 1 } }
         exec .healthRequest s = served r (.health (healthRecord s (m.healthSeq + 1)))) ∧
       exec .certRequest s = served s (.certificate Config.certificateChain) ∧
       (∀ k, exec (.otherRequest k) s = served s .refused) ∧
       (∀ k, 3 ≤ k → exec (.lifecycleRequest k) s = served s .refused))) ∧
  ((∀ s : State, s.mgmt.powered = true → 6 ≤ s.mgmt.bringUp →
     let cleared := fun (t : State) => t.waves = [] ∧ t.blocks = [] ∧ t.launches = [] ∧ t.ctxs = [] ∧ t.cores = [] ∧ t.fns = [] ∧
       t.tlb = [] ∧ t.l2 = [] ∧ t.l1 = [] ∧ t.pins = [] ∧ t.seals = [] ∧ t.domains = [] ∧ t.issue = none ∧ t.dram = s.dram ∧
       (∀ a, readByte t.scratch a = 0) ∧ (∀ a, readByte t.weight a = 0)
     (∃ t, exec .resetRequest s = .next t ∧ cleared t ∧ t.mgmt.epoch = s.mgmt.epoch + 1 ∧ t.mgmt.life = s.mgmt.life ∧
       t.mgmt.imgStat = (if s.mgmt.imgStat = 1 ∨ s.mgmt.imgStat = 2 then s.mgmt.imgStat else 0) ∧
       t.mgmt.answers = .started :: s.mgmt.answers) ∧
     (∀ k x, lifeOf k = some x → s.mgmt.wiping = none → ∃ t, exec (.lifecycleRequest k) s = .next t ∧ cleared t ∧
       t.mgmt.epoch = s.mgmt.epoch + 2 ∧ t.mgmt.wiping = some x ∧ ∃ due, (due, Instr.lifecycleWipeComplete) ∈ t.agenda)) ∧
   (∀ s : State, s.mgmt.bringUp < 5 ∨ s.mgmt.wiping = none → exec .lifecycleWipeComplete s = .next s) ∧
   (∀ s x, s.mgmt.wiping = some x → 5 ≤ s.mgmt.bringUp → ∃ t, exec .lifecycleWipeComplete s = .next t ∧ (∀ a, physByte t a = 0) ∧
     t.mgmt.life = x ∧ t.mgmt.wiping = none ∧ t.mgmt.epoch = s.mgmt.epoch)) ∧
  (∀ s : State,
     let m := s.mgmt
     (∃ t, exec .powerLoss s = .next t ∧ t.mgmt.powered = false ∧ t.mgmt.bringUp = 0 ∧ t.waves = [] ∧ t.ctxs = [] ∧
       t.launches = [] ∧ (∀ a, readByte t.dram a = unwritten) ∧ t.mgmt.slotGood = (m.slotGood && m.imgStat != 2)) ∧
     (m.powered = true → exec .powerOn s = .next s) ∧
     (m.powered = false → ∃ t, exec .powerOn s = .next t ∧ t.mgmt.powered = true ∧ t.mgmt.imageOk = m.slotGood ∧
       t.mgmt.bringUp = (if m.slotGood then 5 else 3) ∧ t.waves = [] ∧ t.mgmt.epoch = m.epoch + 1) ∧
     (m.imgStat = 1 → Config.imageSignatureGood m.newImage = false → ∃ t, exec .imageWriteComplete s = .next t ∧
       t.mgmt = { m with imgStat := 4, newImage := [] } ∧ t.waves = s.waves ∧ t.dram = s.dram) ∧
     (m.imgStat = 1 → Config.imageSignatureGood m.newImage = true → ∃ t, exec .imageWriteComplete s = .next t ∧
       t.mgmt = { m with imgStat := 2 } ∧ t.waves = s.waves ∧ t.dram = s.dram ∧
       ∃ due, (due, Instr.imageWriteComplete) ∈ t.agenda) ∧
     (imageBusy s = false → exec .imageWriteComplete s = .next s) ∧
     (m.imgStat = 2 → ∃ t, exec .imageWriteComplete s = .next t ∧ t.mgmt.imgStat = 3 ∧ t.mgmt.image = m.newImage ∧
       t.mgmt.imageOk = true ∧ t.mgmt.bringUp = 5 ∧ t.waves = [] ∧ t.dram = s.dram) ∧
     (let addr := powerReg s 0x600 0
      let len := powerReg s 0x608 0
      let bad := len % 4096 ≠ 0 ∨ len < 4096 ∨ 2 ^ 28 < len ∨ 2 ^ 48 < addr + len ∨ Config.inHostMemory addr len = false
      (imageBusy s = true → exec .imageWrite s = .next s) ∧
      (imageBusy s = false → bad → exec .imageWrite s = .next { s with mgmt := { m with imgStat := 5 } }) ∧
      (imageBusy s = false → ¬ bad → ∃ t, exec .imageWrite s = .next t ∧
        t.mgmt.imgStat = 1 ∧ t.mgmt.image = m.image ∧ t.mgmt.slotGood = m.slotGood ∧ t.waves = s.waves ∧
        ∃ due, (due, Instr.imageWriteComplete) ∈ t.agenda))) ∧
  (∀ (s : State) (place row : Nat),
     let m := s.mgmt
     let recent := fun (xs : List (Nat × Nat)) (k : Nat) =>
       ((xs.filter fun e => decide (s.clock < e.2 + 86400 * 1000000 * Config.clocksPerUs)).filter fun e => e.1 == k).length
     let key := place % 2 ^ 32 + row % 2 ^ 32 * 2 ^ 32
     (∃ t, exec (.eccCorrection true place row) s = .next t ∧ t.waves = s.waves ∧ t.mgmt.suspectRows = m.suspectRows ∧
       (∀ k, k ∈ t.mgmt.suspectSlices ↔ k ∈ m.suspectSlices ∨
         (k = place ∧ place < Config.l2Slices ∧ 15 ≤ recent m.sliceEcc place))) ∧
     (m.suspectRows.length < 128 → ∃ t, exec (.eccCorrection false place row) s = .next t ∧ t.waves = s.waves ∧
       t.mgmt.suspectSlices = m.suspectSlices ∧
       (∀ k, k ∈ t.mgmt.suspectRows ↔ k ∈ m.suspectRows ∨ (k = key ∧ 1 ≤ recent m.rowEcc key))) ∧
     (128 ≤ m.suspectRows.length → exec (.eccCorrection false place row) s = .next s))
end

