-- ==== Sys2Proof/Laws/Bits.lean ====
section
/-! SUPPORT. Laws of bit fields, sub-elements (R168) and byte order (R4). -/

namespace Sys2Proof.Machine

theorem testBit_bits (x lo w i : Nat) : (bits x lo w).testBit i = (decide (i < w) && x.testBit (lo + i)) := by
  simp [bits, Nat.testBit_mod_two_pow, Nat.testBit_div_two_pow, Nat.add_comm]

/-- The three parts of `putBits` do not overlap. -/
theorem putBits_eq_or (x lo w y : Nat) :
    putBits x lo w y = (x >>> (lo + w)) <<< (lo + w) ||| ((y % 2 ^ w) <<< lo ||| x % 2 ^ lo) := by
  have h1 : x % 2 ^ lo < 2 ^ lo := Nat.mod_lt _ (Nat.two_pow_pos _)
  have h2 : y % 2 ^ w < 2 ^ w := Nat.mod_lt _ (Nat.two_pow_pos _)
  have h3 : (y % 2 ^ w) * 2 ^ lo + x % 2 ^ lo < 2 ^ (lo + w) := by
    have h4 := Nat.mul_le_mul_right (2 ^ lo) (Nat.succ_le_of_lt h2)
    rw [Nat.succ_mul] at h4
    rw [Nat.pow_add, Nat.mul_comm (2 ^ lo)]
    omega
  rw [← Nat.shiftLeft_add_eq_or_of_lt h1, ← Nat.shiftLeft_add_eq_or_of_lt (by rw [Nat.shiftLeft_eq]; exact h3)]
  simp only [putBits, Nat.shiftLeft_eq, Nat.shiftRight_eq_div_pow]
  omega

theorem testBit_putBits (x lo w y i : Nat) :
    (putBits x lo w y).testBit i = if lo ≤ i ∧ i < lo + w then y.testBit (i - lo) else x.testBit i := by
  rw [putBits_eq_or]
  simp only [Nat.testBit_or, Nat.testBit_shiftLeft, Nat.testBit_shiftRight, Nat.testBit_mod_two_pow]
  by_cases h1 : i < lo
  · have : ¬ (lo ≤ i ∧ i < lo + w) := by omega
    have h2 : ¬ (lo + w ≤ i) := by omega
    have h3 : ¬ lo ≤ i := by omega
    simp [h1, h2, h3]
  · by_cases h2 : i < lo + w
    · have h3 : lo ≤ i ∧ i < lo + w := by omega
      have h4 : ¬ lo + w ≤ i := by omega
      have h5 : i - lo < w := by omega
      simp [h1, h4, h5, h3.1, h3.2]
    · have h3 : ¬ (lo ≤ i ∧ i < lo + w) := by omega
      have h4 : lo + w ≤ i := by omega
      have h5 : ¬ i - lo < w := by omega
      have h6 : lo + w + (i - (lo + w)) = i := by omega
      simp [h1, h4, h5, h3, h6]

theorem bits_lt (x lo w : Nat) : bits x lo w < 2 ^ w := Nat.mod_lt _ (Nat.two_pow_pos _)

/-- A field reads back what was put into it. -/
theorem bits_putBits_same (x lo w y : Nat) : bits (putBits x lo w y) lo w = y % 2 ^ w := by
  apply Nat.eq_of_testBit_eq
  intro i
  rw [testBit_bits, testBit_putBits, Nat.testBit_mod_two_pow]
  by_cases h : i < w
  · have : lo ≤ lo + i ∧ lo + i < lo + w := by omega
    simp [h]
  · simp [h]

/-- A field reads as before when another was written. -/
theorem bits_putBits_other (x lo w y lo' w' : Nat) (h : lo + w ≤ lo' ∨ lo' + w' ≤ lo) :
    bits (putBits x lo w y) lo' w' = bits x lo' w' := by
  apply Nat.eq_of_testBit_eq
  intro i
  rw [testBit_bits, testBit_bits, testBit_putBits]
  by_cases hi : i < w'
  · have : ¬ (lo ≤ lo' + i ∧ lo' + i < lo + w) := by omega
    simp [hi, this]
  · simp [hi]

theorem putBits_lt (x lo w y n : Nat) (h : lo + w ≤ n) (hx : x < 2 ^ n) : putBits x lo w y < 2 ^ n := by
  apply Nat.lt_of_testBit n
  · rw [testBit_putBits]
    have : ¬ (lo ≤ n ∧ n < lo + w) := by omega
    simp only [this, if_false]
    exact Nat.testBit_lt_two_pow hx
  · exact Nat.testBit_two_pow_self
  · intro j hj
    rw [testBit_putBits]
    have : ¬ (lo ≤ j ∧ j < lo + w) := by omega
    simp only [this, if_false]
    rw [Nat.testBit_lt_two_pow (Nat.lt_of_lt_of_le hx (Nat.pow_le_pow_right (by decide) (Nat.le_of_lt hj))),
      Nat.testBit_two_pow_of_ne (by omega)]

/-- The sub-elements of a lane lie within its 64 bits (R168). -/
theorem wid_mul_cnt (t : EType) : t.wid * cnt t ≤ 64 := by cases t <;> decide

theorem wid_place {t : EType} {i : Nat} (h : i < cnt t) : t.wid * i + t.wid ≤ 64 := by
  have h1 := wid_mul_cnt t
  have h2 : t.wid * (i + 1) ≤ t.wid * cnt t := Nat.mul_le_mul_left _ h
  rw [Nat.mul_add, Nat.mul_one] at h2
  omega

/-- `put` then `sub` of R168. -/
theorem sub_put (x : Word) (t : EType) (i j y : Nat) (hi : i < cnt t) :
    sub (put x t i y) t j = if j = i then y % 2 ^ t.wid else sub x t j := by
  have hx : x.toNat < 2 ^ 64 := x.isLt
  have hp : putBits x.toNat (t.wid * i) t.wid y < 2 ^ 64 := putBits_lt _ _ _ _ _ (wid_place hi) hx
  have hw : (put x t i y).toNat = putBits x.toNat (t.wid * i) t.wid y := by
    simp only [put, w64, BitVec.toNat_ofNat]
    exact Nat.mod_eq_of_lt hp
  simp only [sub, hw]
  split
  · subst_vars; exact bits_putBits_same _ _ _ _
  · rename_i h
    apply bits_putBits_other
    rcases Nat.lt_or_gt_of_ne h with h | h
    · right; have := Nat.mul_le_mul_left t.wid (Nat.succ_le_of_lt h); simp only [Nat.mul_succ] at this; omega
    · left; have := Nat.mul_le_mul_left t.wid (Nat.succ_le_of_lt h); simp only [Nat.mul_succ] at this; omega

/-! ## Byte order -/

@[simp] theorem length_leBytes (n x : Nat) : (leBytes n x).length = n := by
  induction n generalizing x with
  | zero => rfl
  | succ n ih => simp [leBytes, ih]

theorem leNat_leBytes (n x : Nat) : leNat (leBytes n x) = x % 256 ^ n := by
  induction n generalizing x with
  | zero => simp [leBytes, leNat, Nat.mod_one]
  | succ n ih =>
    simp only [leBytes, leNat, ih, BitVec.toNat_ofNat]
    have h : 256 ^ (n + 1) = 256 * 256 ^ n := by rw [Nat.pow_succ, Nat.mul_comm]
    rw [h, Nat.mod_mul]

theorem leNat_lt (bs : List Byte) : leNat bs < 256 ^ bs.length := by
  induction bs with
  | nil => simp [leNat]
  | cons b bs ih =>
    have := b.isLt
    simp only [leNat, List.length_cons, Nat.pow_succ]
    omega

end Sys2Proof.Machine
end

