-- ==== Sys2Proof/Laws/State.lean ====
section
/-! SUPPORT. What each update of the state leaves of each field: one lemma per field per update, true by unfolding. -/

namespace Sys2Proof.Machine

variable (s : State)

/-! ## setWave -/

@[simp] theorem State.setWave_clock (w : Wave) : (s.setWave w).clock = s.clock := rfl
@[simp] theorem State.setWave_counter (w : Wave) : (s.setWave w).counter = s.counter := rfl
@[simp] theorem State.setWave_draws (w : Wave) : (s.setWave w).draws = s.draws := rfl
@[simp] theorem State.setWave_owners (w : Wave) : (s.setWave w).owners = s.owners := rfl
@[simp] theorem State.setWave_inputs (w : Wave) : (s.setWave w).inputs = s.inputs := rfl
@[simp] theorem State.setWave_agenda (w : Wave) : (s.setWave w).agenda = s.agenda := rfl
@[simp] theorem State.setWave_issue (w : Wave) : (s.setWave w).issue = s.issue := rfl
@[simp] theorem State.setWave_waves (w : Wave) :
    (s.setWave w).waves = s.waves.map fun x => if x.uid == w.uid then w else x := rfl
@[simp] theorem State.setWave_parts (w : Wave) : (s.setWave w).parts = s.parts := rfl
@[simp] theorem State.setWave_cores (w : Wave) : (s.setWave w).cores = s.cores := rfl
@[simp] theorem State.setWave_blocks (w : Wave) : (s.setWave w).blocks = s.blocks := rfl
@[simp] theorem State.setWave_launches (w : Wave) : (s.setWave w).launches = s.launches := rfl
@[simp] theorem State.setWave_ctxs (w : Wave) : (s.setWave w).ctxs = s.ctxs := rfl
@[simp] theorem State.setWave_fns (w : Wave) : (s.setWave w).fns = s.fns := rfl
@[simp] theorem State.setWave_ageInt (w : Wave) : (s.setWave w).ageInt = s.ageInt := rfl
@[simp] theorem State.setWave_dram (w : Wave) : (s.setWave w).dram = s.dram := rfl
@[simp] theorem State.setWave_scratch (w : Wave) : (s.setWave w).scratch = s.scratch := rfl
@[simp] theorem State.setWave_weight (w : Wave) : (s.setWave w).weight = s.weight := rfl
@[simp] theorem State.setWave_wsRefresh (w : Wave) : (s.setWave w).wsRefresh = s.wsRefresh := rfl
@[simp] theorem State.setWave_tlb (w : Wave) : (s.setWave w).tlb = s.tlb := rfl
@[simp] theorem State.setWave_l2 (w : Wave) : (s.setWave w).l2 = s.l2 := rfl
@[simp] theorem State.setWave_l1 (w : Wave) : (s.setWave w).l1 = s.l1 := rfl
@[simp] theorem State.setWave_classes (w : Wave) : (s.setWave w).classes = s.classes := rfl
@[simp] theorem State.setWave_classCopies (w : Wave) : (s.setWave w).classCopies = s.classCopies := rfl
@[simp] theorem State.setWave_mapGens (w : Wave) : (s.setWave w).mapGens = s.mapGens := rfl
@[simp] theorem State.setWave_seals (w : Wave) : (s.setWave w).seals = s.seals := rfl
@[simp] theorem State.setWave_pins (w : Wave) : (s.setWave w).pins = s.pins := rfl
@[simp] theorem State.setWave_scopePins (w : Wave) : (s.setWave w).scopePins = s.scopePins := rfl
@[simp] theorem State.setWave_bindings (w : Wave) : (s.setWave w).bindings = s.bindings := rfl
@[simp] theorem State.setWave_openPhases (w : Wave) : (s.setWave w).openPhases = s.openPhases := rfl
@[simp] theorem State.setWave_atomics (w : Wave) : (s.setWave w).atomics = s.atomics := rfl
@[simp] theorem State.setWave_heldSectors (w : Wave) : (s.setWave w).heldSectors = s.heldSectors := rfl
@[simp] theorem State.setWave_atomicLog (w : Wave) : (s.setWave w).atomicLog = s.atomicLog := rfl
@[simp] theorem State.setWave_domains (w : Wave) : (s.setWave w).domains = s.domains := rfl
@[simp] theorem State.setWave_haloWindows (w : Wave) : (s.setWave w).haloWindows = s.haloWindows := rfl
@[simp] theorem State.setWave_haloSent (w : Wave) : (s.setWave w).haloSent = s.haloSent := rfl
@[simp] theorem State.setWave_linksLost (w : Wave) : (s.setWave w).linksLost = s.linksLost := rfl
@[simp] theorem State.setWave_haloAnswers (w : Wave) : (s.setWave w).haloAnswers = s.haloAnswers := rfl
@[simp] theorem State.setWave_haloAsked (w : Wave) : (s.setWave w).haloAsked = s.haloAsked := rfl
@[simp] theorem State.setWave_facesWaiting (w : Wave) : (s.setWave w).facesWaiting = s.facesWaiting := rfl
@[simp] theorem State.setWave_dmaWaiting (w : Wave) : (s.setWave w).dmaWaiting = s.dmaWaiting := rfl
@[simp] theorem State.setWave_streams (w : Wave) : (s.setWave w).streams = s.streams := rfl
@[simp] theorem State.setWave_collected (w : Wave) : (s.setWave w).collected = s.collected := rfl
@[simp] theorem State.setWave_haltRefusals (w : Wave) : (s.setWave w).haltRefusals = s.haltRefusals := rfl
@[simp] theorem State.setWave_groves (w : Wave) : (s.setWave w).groves = s.groves := rfl
@[simp] theorem State.setWave_canopy (w : Wave) : (s.setWave w).canopy = s.canopy := rfl
@[simp] theorem State.setWave_power (w : Wave) : (s.setWave w).power = s.power := rfl
@[simp] theorem State.setWave_mgmt (w : Wave) : (s.setWave w).mgmt = s.mgmt := rfl

/-! ## modWave -/

@[simp] theorem State.modWave_clock (uid : Nat) (f : Wave → Wave) : (s.modWave uid f).clock = s.clock := rfl
@[simp] theorem State.modWave_counter (uid : Nat) (f : Wave → Wave) : (s.modWave uid f).counter = s.counter := rfl
@[simp] theorem State.modWave_draws (uid : Nat) (f : Wave → Wave) : (s.modWave uid f).draws = s.draws := rfl
@[simp] theorem State.modWave_owners (uid : Nat) (f : Wave → Wave) : (s.modWave uid f).owners = s.owners := rfl
@[simp] theorem State.modWave_inputs (uid : Nat) (f : Wave → Wave) : (s.modWave uid f).inputs = s.inputs := rfl
@[simp] theorem State.modWave_agenda (uid : Nat) (f : Wave → Wave) : (s.modWave uid f).agenda = s.agenda := rfl
@[simp] theorem State.modWave_issue (uid : Nat) (f : Wave → Wave) : (s.modWave uid f).issue = s.issue := rfl
@[simp] theorem State.modWave_waves (uid : Nat) (f : Wave → Wave) :
    (s.modWave uid f).waves = s.waves.map fun x => if x.uid == uid then f x else x := rfl
@[simp] theorem State.modWave_parts (uid : Nat) (f : Wave → Wave) : (s.modWave uid f).parts = s.parts := rfl
@[simp] theorem State.modWave_cores (uid : Nat) (f : Wave → Wave) : (s.modWave uid f).cores = s.cores := rfl
@[simp] theorem State.modWave_blocks (uid : Nat) (f : Wave → Wave) : (s.modWave uid f).blocks = s.blocks := rfl
@[simp] theorem State.modWave_launches (uid : Nat) (f : Wave → Wave) : (s.modWave uid f).launches = s.launches := rfl
@[simp] theorem State.modWave_ctxs (uid : Nat) (f : Wave → Wave) : (s.modWave uid f).ctxs = s.ctxs := rfl
@[simp] theorem State.modWave_fns (uid : Nat) (f : Wave → Wave) : (s.modWave uid f).fns = s.fns := rfl
@[simp] theorem State.modWave_ageInt (uid : Nat) (f : Wave → Wave) : (s.modWave uid f).ageInt = s.ageInt := rfl
@[simp] theorem State.modWave_dram (uid : Nat) (f : Wave → Wave) : (s.modWave uid f).dram = s.dram := rfl
@[simp] theorem State.modWave_scratch (uid : Nat) (f : Wave → Wave) : (s.modWave uid f).scratch = s.scratch := rfl
@[simp] theorem State.modWave_weight (uid : Nat) (f : Wave → Wave) : (s.modWave uid f).weight = s.weight := rfl
@[simp] theorem State.modWave_wsRefresh (uid : Nat) (f : Wave → Wave) : (s.modWave uid f).wsRefresh = s.wsRefresh := rfl
@[simp] theorem State.modWave_tlb (uid : Nat) (f : Wave → Wave) : (s.modWave uid f).tlb = s.tlb := rfl
@[simp] theorem State.modWave_l2 (uid : Nat) (f : Wave → Wave) : (s.modWave uid f).l2 = s.l2 := rfl
@[simp] theorem State.modWave_l1 (uid : Nat) (f : Wave → Wave) : (s.modWave uid f).l1 = s.l1 := rfl
@[simp] theorem State.modWave_classes (uid : Nat) (f : Wave → Wave) : (s.modWave uid f).classes = s.classes := rfl
@[simp] theorem State.modWave_classCopies (uid : Nat) (f : Wave → Wave) : (s.modWave uid f).classCopies = s.classCopies := rfl
@[simp] theorem State.modWave_mapGens (uid : Nat) (f : Wave → Wave) : (s.modWave uid f).mapGens = s.mapGens := rfl
@[simp] theorem State.modWave_seals (uid : Nat) (f : Wave → Wave) : (s.modWave uid f).seals = s.seals := rfl
@[simp] theorem State.modWave_pins (uid : Nat) (f : Wave → Wave) : (s.modWave uid f).pins = s.pins := rfl
@[simp] theorem State.modWave_scopePins (uid : Nat) (f : Wave → Wave) : (s.modWave uid f).scopePins = s.scopePins := rfl
@[simp] theorem State.modWave_bindings (uid : Nat) (f : Wave → Wave) : (s.modWave uid f).bindings = s.bindings := rfl
@[simp] theorem State.modWave_openPhases (uid : Nat) (f : Wave → Wave) : (s.modWave uid f).openPhases = s.openPhases := rfl
@[simp] theorem State.modWave_atomics (uid : Nat) (f : Wave → Wave) : (s.modWave uid f).atomics = s.atomics := rfl
@[simp] theorem State.modWave_heldSectors (uid : Nat) (f : Wave → Wave) : (s.modWave uid f).heldSectors = s.heldSectors := rfl
@[simp] theorem State.modWave_atomicLog (uid : Nat) (f : Wave → Wave) : (s.modWave uid f).atomicLog = s.atomicLog := rfl
@[simp] theorem State.modWave_domains (uid : Nat) (f : Wave → Wave) : (s.modWave uid f).domains = s.domains := rfl
@[simp] theorem State.modWave_haloWindows (uid : Nat) (f : Wave → Wave) : (s.modWave uid f).haloWindows = s.haloWindows := rfl
@[simp] theorem State.modWave_haloSent (uid : Nat) (f : Wave → Wave) : (s.modWave uid f).haloSent = s.haloSent := rfl
@[simp] theorem State.modWave_linksLost (uid : Nat) (f : Wave → Wave) : (s.modWave uid f).linksLost = s.linksLost := rfl
@[simp] theorem State.modWave_haloAnswers (uid : Nat) (f : Wave → Wave) : (s.modWave uid f).haloAnswers = s.haloAnswers := rfl
@[simp] theorem State.modWave_haloAsked (uid : Nat) (f : Wave → Wave) : (s.modWave uid f).haloAsked = s.haloAsked := rfl
@[simp] theorem State.modWave_facesWaiting (uid : Nat) (f : Wave → Wave) : (s.modWave uid f).facesWaiting = s.facesWaiting := rfl
@[simp] theorem State.modWave_dmaWaiting (uid : Nat) (f : Wave → Wave) : (s.modWave uid f).dmaWaiting = s.dmaWaiting := rfl
@[simp] theorem State.modWave_streams (uid : Nat) (f : Wave → Wave) : (s.modWave uid f).streams = s.streams := rfl
@[simp] theorem State.modWave_collected (uid : Nat) (f : Wave → Wave) : (s.modWave uid f).collected = s.collected := rfl
@[simp] theorem State.modWave_haltRefusals (uid : Nat) (f : Wave → Wave) : (s.modWave uid f).haltRefusals = s.haltRefusals := rfl
@[simp] theorem State.modWave_groves (uid : Nat) (f : Wave → Wave) : (s.modWave uid f).groves = s.groves := rfl
@[simp] theorem State.modWave_canopy (uid : Nat) (f : Wave → Wave) : (s.modWave uid f).canopy = s.canopy := rfl
@[simp] theorem State.modWave_power (uid : Nat) (f : Wave → Wave) : (s.modWave uid f).power = s.power := rfl
@[simp] theorem State.modWave_mgmt (uid : Nat) (f : Wave → Wave) : (s.modWave uid f).mgmt = s.mgmt := rfl

/-! ## setCore -/

@[simp] theorem State.setCore_clock (c : Nat) (x : Core) : (s.setCore c x).clock = s.clock := rfl
@[simp] theorem State.setCore_counter (c : Nat) (x : Core) : (s.setCore c x).counter = s.counter := rfl
@[simp] theorem State.setCore_draws (c : Nat) (x : Core) : (s.setCore c x).draws = s.draws := rfl
@[simp] theorem State.setCore_owners (c : Nat) (x : Core) : (s.setCore c x).owners = s.owners := rfl
@[simp] theorem State.setCore_inputs (c : Nat) (x : Core) : (s.setCore c x).inputs = s.inputs := rfl
@[simp] theorem State.setCore_agenda (c : Nat) (x : Core) : (s.setCore c x).agenda = s.agenda := rfl
@[simp] theorem State.setCore_issue (c : Nat) (x : Core) : (s.setCore c x).issue = s.issue := rfl
@[simp] theorem State.setCore_waves (c : Nat) (x : Core) : (s.setCore c x).waves = s.waves := rfl
@[simp] theorem State.setCore_parts (c : Nat) (x : Core) : (s.setCore c x).parts = s.parts := rfl
@[simp] theorem State.setCore_cores (c : Nat) (x : Core) :
    (s.setCore c x).cores = mset emptyCore s.cores c x := rfl
@[simp] theorem State.setCore_blocks (c : Nat) (x : Core) : (s.setCore c x).blocks = s.blocks := rfl
@[simp] theorem State.setCore_launches (c : Nat) (x : Core) : (s.setCore c x).launches = s.launches := rfl
@[simp] theorem State.setCore_ctxs (c : Nat) (x : Core) : (s.setCore c x).ctxs = s.ctxs := rfl
@[simp] theorem State.setCore_fns (c : Nat) (x : Core) : (s.setCore c x).fns = s.fns := rfl
@[simp] theorem State.setCore_ageInt (c : Nat) (x : Core) : (s.setCore c x).ageInt = s.ageInt := rfl
@[simp] theorem State.setCore_dram (c : Nat) (x : Core) : (s.setCore c x).dram = s.dram := rfl
@[simp] theorem State.setCore_scratch (c : Nat) (x : Core) : (s.setCore c x).scratch = s.scratch := rfl
@[simp] theorem State.setCore_weight (c : Nat) (x : Core) : (s.setCore c x).weight = s.weight := rfl
@[simp] theorem State.setCore_wsRefresh (c : Nat) (x : Core) : (s.setCore c x).wsRefresh = s.wsRefresh := rfl
@[simp] theorem State.setCore_tlb (c : Nat) (x : Core) : (s.setCore c x).tlb = s.tlb := rfl
@[simp] theorem State.setCore_l2 (c : Nat) (x : Core) : (s.setCore c x).l2 = s.l2 := rfl
@[simp] theorem State.setCore_l1 (c : Nat) (x : Core) : (s.setCore c x).l1 = s.l1 := rfl
@[simp] theorem State.setCore_classes (c : Nat) (x : Core) : (s.setCore c x).classes = s.classes := rfl
@[simp] theorem State.setCore_classCopies (c : Nat) (x : Core) : (s.setCore c x).classCopies = s.classCopies := rfl
@[simp] theorem State.setCore_mapGens (c : Nat) (x : Core) : (s.setCore c x).mapGens = s.mapGens := rfl
@[simp] theorem State.setCore_seals (c : Nat) (x : Core) : (s.setCore c x).seals = s.seals := rfl
@[simp] theorem State.setCore_pins (c : Nat) (x : Core) : (s.setCore c x).pins = s.pins := rfl
@[simp] theorem State.setCore_scopePins (c : Nat) (x : Core) : (s.setCore c x).scopePins = s.scopePins := rfl
@[simp] theorem State.setCore_bindings (c : Nat) (x : Core) : (s.setCore c x).bindings = s.bindings := rfl
@[simp] theorem State.setCore_openPhases (c : Nat) (x : Core) : (s.setCore c x).openPhases = s.openPhases := rfl
@[simp] theorem State.setCore_atomics (c : Nat) (x : Core) : (s.setCore c x).atomics = s.atomics := rfl
@[simp] theorem State.setCore_heldSectors (c : Nat) (x : Core) : (s.setCore c x).heldSectors = s.heldSectors := rfl
@[simp] theorem State.setCore_atomicLog (c : Nat) (x : Core) : (s.setCore c x).atomicLog = s.atomicLog := rfl
@[simp] theorem State.setCore_domains (c : Nat) (x : Core) : (s.setCore c x).domains = s.domains := rfl
@[simp] theorem State.setCore_haloWindows (c : Nat) (x : Core) : (s.setCore c x).haloWindows = s.haloWindows := rfl
@[simp] theorem State.setCore_haloSent (c : Nat) (x : Core) : (s.setCore c x).haloSent = s.haloSent := rfl
@[simp] theorem State.setCore_linksLost (c : Nat) (x : Core) : (s.setCore c x).linksLost = s.linksLost := rfl
@[simp] theorem State.setCore_haloAnswers (c : Nat) (x : Core) : (s.setCore c x).haloAnswers = s.haloAnswers := rfl
@[simp] theorem State.setCore_haloAsked (c : Nat) (x : Core) : (s.setCore c x).haloAsked = s.haloAsked := rfl
@[simp] theorem State.setCore_facesWaiting (c : Nat) (x : Core) : (s.setCore c x).facesWaiting = s.facesWaiting := rfl
@[simp] theorem State.setCore_dmaWaiting (c : Nat) (x : Core) : (s.setCore c x).dmaWaiting = s.dmaWaiting := rfl
@[simp] theorem State.setCore_streams (c : Nat) (x : Core) : (s.setCore c x).streams = s.streams := rfl
@[simp] theorem State.setCore_collected (c : Nat) (x : Core) : (s.setCore c x).collected = s.collected := rfl
@[simp] theorem State.setCore_haltRefusals (c : Nat) (x : Core) : (s.setCore c x).haltRefusals = s.haltRefusals := rfl
@[simp] theorem State.setCore_groves (c : Nat) (x : Core) : (s.setCore c x).groves = s.groves := rfl
@[simp] theorem State.setCore_canopy (c : Nat) (x : Core) : (s.setCore c x).canopy = s.canopy := rfl
@[simp] theorem State.setCore_power (c : Nat) (x : Core) : (s.setCore c x).power = s.power := rfl
@[simp] theorem State.setCore_mgmt (c : Nat) (x : Core) : (s.setCore c x).mgmt = s.mgmt := rfl

/-! ## setPart -/

@[simp] theorem State.setPart_clock (c p : Nat) (x : Part) : (s.setPart c p x).clock = s.clock := rfl
@[simp] theorem State.setPart_counter (c p : Nat) (x : Part) : (s.setPart c p x).counter = s.counter := rfl
@[simp] theorem State.setPart_draws (c p : Nat) (x : Part) : (s.setPart c p x).draws = s.draws := rfl
@[simp] theorem State.setPart_owners (c p : Nat) (x : Part) : (s.setPart c p x).owners = s.owners := rfl
@[simp] theorem State.setPart_inputs (c p : Nat) (x : Part) : (s.setPart c p x).inputs = s.inputs := rfl
@[simp] theorem State.setPart_agenda (c p : Nat) (x : Part) : (s.setPart c p x).agenda = s.agenda := rfl
@[simp] theorem State.setPart_issue (c p : Nat) (x : Part) : (s.setPart c p x).issue = s.issue := rfl
@[simp] theorem State.setPart_waves (c p : Nat) (x : Part) : (s.setPart c p x).waves = s.waves := rfl
@[simp] theorem State.setPart_parts (c p : Nat) (x : Part) :
    (s.setPart c p x).parts = mset emptyPart s.parts (16 * c + p) x := rfl
@[simp] theorem State.setPart_cores (c p : Nat) (x : Part) : (s.setPart c p x).cores = s.cores := rfl
@[simp] theorem State.setPart_blocks (c p : Nat) (x : Part) : (s.setPart c p x).blocks = s.blocks := rfl
@[simp] theorem State.setPart_launches (c p : Nat) (x : Part) : (s.setPart c p x).launches = s.launches := rfl
@[simp] theorem State.setPart_ctxs (c p : Nat) (x : Part) : (s.setPart c p x).ctxs = s.ctxs := rfl
@[simp] theorem State.setPart_fns (c p : Nat) (x : Part) : (s.setPart c p x).fns = s.fns := rfl
@[simp] theorem State.setPart_ageInt (c p : Nat) (x : Part) : (s.setPart c p x).ageInt = s.ageInt := rfl
@[simp] theorem State.setPart_dram (c p : Nat) (x : Part) : (s.setPart c p x).dram = s.dram := rfl
@[simp] theorem State.setPart_scratch (c p : Nat) (x : Part) : (s.setPart c p x).scratch = s.scratch := rfl
@[simp] theorem State.setPart_weight (c p : Nat) (x : Part) : (s.setPart c p x).weight = s.weight := rfl
@[simp] theorem State.setPart_wsRefresh (c p : Nat) (x : Part) : (s.setPart c p x).wsRefresh = s.wsRefresh := rfl
@[simp] theorem State.setPart_tlb (c p : Nat) (x : Part) : (s.setPart c p x).tlb = s.tlb := rfl
@[simp] theorem State.setPart_l2 (c p : Nat) (x : Part) : (s.setPart c p x).l2 = s.l2 := rfl
@[simp] theorem State.setPart_l1 (c p : Nat) (x : Part) : (s.setPart c p x).l1 = s.l1 := rfl
@[simp] theorem State.setPart_classes (c p : Nat) (x : Part) : (s.setPart c p x).classes = s.classes := rfl
@[simp] theorem State.setPart_classCopies (c p : Nat) (x : Part) : (s.setPart c p x).classCopies = s.classCopies := rfl
@[simp] theorem State.setPart_mapGens (c p : Nat) (x : Part) : (s.setPart c p x).mapGens = s.mapGens := rfl
@[simp] theorem State.setPart_seals (c p : Nat) (x : Part) : (s.setPart c p x).seals = s.seals := rfl
@[simp] theorem State.setPart_pins (c p : Nat) (x : Part) : (s.setPart c p x).pins = s.pins := rfl
@[simp] theorem State.setPart_scopePins (c p : Nat) (x : Part) : (s.setPart c p x).scopePins = s.scopePins := rfl
@[simp] theorem State.setPart_bindings (c p : Nat) (x : Part) : (s.setPart c p x).bindings = s.bindings := rfl
@[simp] theorem State.setPart_openPhases (c p : Nat) (x : Part) : (s.setPart c p x).openPhases = s.openPhases := rfl
@[simp] theorem State.setPart_atomics (c p : Nat) (x : Part) : (s.setPart c p x).atomics = s.atomics := rfl
@[simp] theorem State.setPart_heldSectors (c p : Nat) (x : Part) : (s.setPart c p x).heldSectors = s.heldSectors := rfl
@[simp] theorem State.setPart_atomicLog (c p : Nat) (x : Part) : (s.setPart c p x).atomicLog = s.atomicLog := rfl
@[simp] theorem State.setPart_domains (c p : Nat) (x : Part) : (s.setPart c p x).domains = s.domains := rfl
@[simp] theorem State.setPart_haloWindows (c p : Nat) (x : Part) : (s.setPart c p x).haloWindows = s.haloWindows := rfl
@[simp] theorem State.setPart_haloSent (c p : Nat) (x : Part) : (s.setPart c p x).haloSent = s.haloSent := rfl
@[simp] theorem State.setPart_linksLost (c p : Nat) (x : Part) : (s.setPart c p x).linksLost = s.linksLost := rfl
@[simp] theorem State.setPart_haloAnswers (c p : Nat) (x : Part) : (s.setPart c p x).haloAnswers = s.haloAnswers := rfl
@[simp] theorem State.setPart_haloAsked (c p : Nat) (x : Part) : (s.setPart c p x).haloAsked = s.haloAsked := rfl
@[simp] theorem State.setPart_facesWaiting (c p : Nat) (x : Part) : (s.setPart c p x).facesWaiting = s.facesWaiting := rfl
@[simp] theorem State.setPart_dmaWaiting (c p : Nat) (x : Part) : (s.setPart c p x).dmaWaiting = s.dmaWaiting := rfl
@[simp] theorem State.setPart_streams (c p : Nat) (x : Part) : (s.setPart c p x).streams = s.streams := rfl
@[simp] theorem State.setPart_collected (c p : Nat) (x : Part) : (s.setPart c p x).collected = s.collected := rfl
@[simp] theorem State.setPart_haltRefusals (c p : Nat) (x : Part) : (s.setPart c p x).haltRefusals = s.haltRefusals := rfl
@[simp] theorem State.setPart_groves (c p : Nat) (x : Part) : (s.setPart c p x).groves = s.groves := rfl
@[simp] theorem State.setPart_canopy (c p : Nat) (x : Part) : (s.setPart c p x).canopy = s.canopy := rfl
@[simp] theorem State.setPart_power (c p : Nat) (x : Part) : (s.setPart c p x).power = s.power := rfl
@[simp] theorem State.setPart_mgmt (c p : Nat) (x : Part) : (s.setPart c p x).mgmt = s.mgmt := rfl

/-! ## setGrove -/

@[simp] theorem State.setGrove_clock (g : Nat) (x : Grove) : (s.setGrove g x).clock = s.clock := rfl
@[simp] theorem State.setGrove_counter (g : Nat) (x : Grove) : (s.setGrove g x).counter = s.counter := rfl
@[simp] theorem State.setGrove_draws (g : Nat) (x : Grove) : (s.setGrove g x).draws = s.draws := rfl
@[simp] theorem State.setGrove_owners (g : Nat) (x : Grove) : (s.setGrove g x).owners = s.owners := rfl
@[simp] theorem State.setGrove_inputs (g : Nat) (x : Grove) : (s.setGrove g x).inputs = s.inputs := rfl
@[simp] theorem State.setGrove_agenda (g : Nat) (x : Grove) : (s.setGrove g x).agenda = s.agenda := rfl
@[simp] theorem State.setGrove_issue (g : Nat) (x : Grove) : (s.setGrove g x).issue = s.issue := rfl
@[simp] theorem State.setGrove_waves (g : Nat) (x : Grove) : (s.setGrove g x).waves = s.waves := rfl
@[simp] theorem State.setGrove_parts (g : Nat) (x : Grove) : (s.setGrove g x).parts = s.parts := rfl
@[simp] theorem State.setGrove_cores (g : Nat) (x : Grove) : (s.setGrove g x).cores = s.cores := rfl
@[simp] theorem State.setGrove_blocks (g : Nat) (x : Grove) : (s.setGrove g x).blocks = s.blocks := rfl
@[simp] theorem State.setGrove_launches (g : Nat) (x : Grove) : (s.setGrove g x).launches = s.launches := rfl
@[simp] theorem State.setGrove_ctxs (g : Nat) (x : Grove) : (s.setGrove g x).ctxs = s.ctxs := rfl
@[simp] theorem State.setGrove_fns (g : Nat) (x : Grove) : (s.setGrove g x).fns = s.fns := rfl
@[simp] theorem State.setGrove_ageInt (g : Nat) (x : Grove) : (s.setGrove g x).ageInt = s.ageInt := rfl
@[simp] theorem State.setGrove_dram (g : Nat) (x : Grove) : (s.setGrove g x).dram = s.dram := rfl
@[simp] theorem State.setGrove_scratch (g : Nat) (x : Grove) : (s.setGrove g x).scratch = s.scratch := rfl
@[simp] theorem State.setGrove_weight (g : Nat) (x : Grove) : (s.setGrove g x).weight = s.weight := rfl
@[simp] theorem State.setGrove_wsRefresh (g : Nat) (x : Grove) : (s.setGrove g x).wsRefresh = s.wsRefresh := rfl
@[simp] theorem State.setGrove_tlb (g : Nat) (x : Grove) : (s.setGrove g x).tlb = s.tlb := rfl
@[simp] theorem State.setGrove_l2 (g : Nat) (x : Grove) : (s.setGrove g x).l2 = s.l2 := rfl
@[simp] theorem State.setGrove_l1 (g : Nat) (x : Grove) : (s.setGrove g x).l1 = s.l1 := rfl
@[simp] theorem State.setGrove_classes (g : Nat) (x : Grove) : (s.setGrove g x).classes = s.classes := rfl
@[simp] theorem State.setGrove_classCopies (g : Nat) (x : Grove) : (s.setGrove g x).classCopies = s.classCopies := rfl
@[simp] theorem State.setGrove_mapGens (g : Nat) (x : Grove) : (s.setGrove g x).mapGens = s.mapGens := rfl
@[simp] theorem State.setGrove_seals (g : Nat) (x : Grove) : (s.setGrove g x).seals = s.seals := rfl
@[simp] theorem State.setGrove_pins (g : Nat) (x : Grove) : (s.setGrove g x).pins = s.pins := rfl
@[simp] theorem State.setGrove_scopePins (g : Nat) (x : Grove) : (s.setGrove g x).scopePins = s.scopePins := rfl
@[simp] theorem State.setGrove_bindings (g : Nat) (x : Grove) : (s.setGrove g x).bindings = s.bindings := rfl
@[simp] theorem State.setGrove_openPhases (g : Nat) (x : Grove) : (s.setGrove g x).openPhases = s.openPhases := rfl
@[simp] theorem State.setGrove_atomics (g : Nat) (x : Grove) : (s.setGrove g x).atomics = s.atomics := rfl
@[simp] theorem State.setGrove_heldSectors (g : Nat) (x : Grove) : (s.setGrove g x).heldSectors = s.heldSectors := rfl
@[simp] theorem State.setGrove_atomicLog (g : Nat) (x : Grove) : (s.setGrove g x).atomicLog = s.atomicLog := rfl
@[simp] theorem State.setGrove_domains (g : Nat) (x : Grove) : (s.setGrove g x).domains = s.domains := rfl
@[simp] theorem State.setGrove_haloWindows (g : Nat) (x : Grove) : (s.setGrove g x).haloWindows = s.haloWindows := rfl
@[simp] theorem State.setGrove_haloSent (g : Nat) (x : Grove) : (s.setGrove g x).haloSent = s.haloSent := rfl
@[simp] theorem State.setGrove_linksLost (g : Nat) (x : Grove) : (s.setGrove g x).linksLost = s.linksLost := rfl
@[simp] theorem State.setGrove_haloAnswers (g : Nat) (x : Grove) : (s.setGrove g x).haloAnswers = s.haloAnswers := rfl
@[simp] theorem State.setGrove_haloAsked (g : Nat) (x : Grove) : (s.setGrove g x).haloAsked = s.haloAsked := rfl
@[simp] theorem State.setGrove_facesWaiting (g : Nat) (x : Grove) : (s.setGrove g x).facesWaiting = s.facesWaiting := rfl
@[simp] theorem State.setGrove_dmaWaiting (g : Nat) (x : Grove) : (s.setGrove g x).dmaWaiting = s.dmaWaiting := rfl
@[simp] theorem State.setGrove_streams (g : Nat) (x : Grove) : (s.setGrove g x).streams = s.streams := rfl
@[simp] theorem State.setGrove_collected (g : Nat) (x : Grove) : (s.setGrove g x).collected = s.collected := rfl
@[simp] theorem State.setGrove_haltRefusals (g : Nat) (x : Grove) : (s.setGrove g x).haltRefusals = s.haltRefusals := rfl
@[simp] theorem State.setGrove_groves (g : Nat) (x : Grove) :
    (s.setGrove g x).groves = mset emptyGrove s.groves g x := rfl
@[simp] theorem State.setGrove_canopy (g : Nat) (x : Grove) : (s.setGrove g x).canopy = s.canopy := rfl
@[simp] theorem State.setGrove_power (g : Nat) (x : Grove) : (s.setGrove g x).power = s.power := rfl
@[simp] theorem State.setGrove_mgmt (g : Nat) (x : Grove) : (s.setGrove g x).mgmt = s.mgmt := rfl

/-! ## setFunc -/

@[simp] theorem State.setFunc_clock (n : Nat) (x : Function) : (s.setFunc n x).clock = s.clock := rfl
@[simp] theorem State.setFunc_counter (n : Nat) (x : Function) : (s.setFunc n x).counter = s.counter := rfl
@[simp] theorem State.setFunc_draws (n : Nat) (x : Function) : (s.setFunc n x).draws = s.draws := rfl
@[simp] theorem State.setFunc_owners (n : Nat) (x : Function) : (s.setFunc n x).owners = s.owners := rfl
@[simp] theorem State.setFunc_inputs (n : Nat) (x : Function) : (s.setFunc n x).inputs = s.inputs := rfl
@[simp] theorem State.setFunc_agenda (n : Nat) (x : Function) : (s.setFunc n x).agenda = s.agenda := rfl
@[simp] theorem State.setFunc_issue (n : Nat) (x : Function) : (s.setFunc n x).issue = s.issue := rfl
@[simp] theorem State.setFunc_waves (n : Nat) (x : Function) : (s.setFunc n x).waves = s.waves := rfl
@[simp] theorem State.setFunc_parts (n : Nat) (x : Function) : (s.setFunc n x).parts = s.parts := rfl
@[simp] theorem State.setFunc_cores (n : Nat) (x : Function) : (s.setFunc n x).cores = s.cores := rfl
@[simp] theorem State.setFunc_blocks (n : Nat) (x : Function) : (s.setFunc n x).blocks = s.blocks := rfl
@[simp] theorem State.setFunc_launches (n : Nat) (x : Function) : (s.setFunc n x).launches = s.launches := rfl
@[simp] theorem State.setFunc_ctxs (n : Nat) (x : Function) : (s.setFunc n x).ctxs = s.ctxs := rfl
@[simp] theorem State.setFunc_fns (n : Nat) (x : Function) :
    (s.setFunc n x).fns = mset emptyFunction s.fns n x := rfl
@[simp] theorem State.setFunc_ageInt (n : Nat) (x : Function) : (s.setFunc n x).ageInt = s.ageInt := rfl
@[simp] theorem State.setFunc_dram (n : Nat) (x : Function) : (s.setFunc n x).dram = s.dram := rfl
@[simp] theorem State.setFunc_scratch (n : Nat) (x : Function) : (s.setFunc n x).scratch = s.scratch := rfl
@[simp] theorem State.setFunc_weight (n : Nat) (x : Function) : (s.setFunc n x).weight = s.weight := rfl
@[simp] theorem State.setFunc_wsRefresh (n : Nat) (x : Function) : (s.setFunc n x).wsRefresh = s.wsRefresh := rfl
@[simp] theorem State.setFunc_tlb (n : Nat) (x : Function) : (s.setFunc n x).tlb = s.tlb := rfl
@[simp] theorem State.setFunc_l2 (n : Nat) (x : Function) : (s.setFunc n x).l2 = s.l2 := rfl
@[simp] theorem State.setFunc_l1 (n : Nat) (x : Function) : (s.setFunc n x).l1 = s.l1 := rfl
@[simp] theorem State.setFunc_classes (n : Nat) (x : Function) : (s.setFunc n x).classes = s.classes := rfl
@[simp] theorem State.setFunc_classCopies (n : Nat) (x : Function) : (s.setFunc n x).classCopies = s.classCopies := rfl
@[simp] theorem State.setFunc_mapGens (n : Nat) (x : Function) : (s.setFunc n x).mapGens = s.mapGens := rfl
@[simp] theorem State.setFunc_seals (n : Nat) (x : Function) : (s.setFunc n x).seals = s.seals := rfl
@[simp] theorem State.setFunc_pins (n : Nat) (x : Function) : (s.setFunc n x).pins = s.pins := rfl
@[simp] theorem State.setFunc_scopePins (n : Nat) (x : Function) : (s.setFunc n x).scopePins = s.scopePins := rfl
@[simp] theorem State.setFunc_bindings (n : Nat) (x : Function) : (s.setFunc n x).bindings = s.bindings := rfl
@[simp] theorem State.setFunc_openPhases (n : Nat) (x : Function) : (s.setFunc n x).openPhases = s.openPhases := rfl
@[simp] theorem State.setFunc_atomics (n : Nat) (x : Function) : (s.setFunc n x).atomics = s.atomics := rfl
@[simp] theorem State.setFunc_heldSectors (n : Nat) (x : Function) : (s.setFunc n x).heldSectors = s.heldSectors := rfl
@[simp] theorem State.setFunc_atomicLog (n : Nat) (x : Function) : (s.setFunc n x).atomicLog = s.atomicLog := rfl
@[simp] theorem State.setFunc_domains (n : Nat) (x : Function) : (s.setFunc n x).domains = s.domains := rfl
@[simp] theorem State.setFunc_haloWindows (n : Nat) (x : Function) : (s.setFunc n x).haloWindows = s.haloWindows := rfl
@[simp] theorem State.setFunc_haloSent (n : Nat) (x : Function) : (s.setFunc n x).haloSent = s.haloSent := rfl
@[simp] theorem State.setFunc_linksLost (n : Nat) (x : Function) : (s.setFunc n x).linksLost = s.linksLost := rfl
@[simp] theorem State.setFunc_haloAnswers (n : Nat) (x : Function) : (s.setFunc n x).haloAnswers = s.haloAnswers := rfl
@[simp] theorem State.setFunc_haloAsked (n : Nat) (x : Function) : (s.setFunc n x).haloAsked = s.haloAsked := rfl
@[simp] theorem State.setFunc_facesWaiting (n : Nat) (x : Function) : (s.setFunc n x).facesWaiting = s.facesWaiting := rfl
@[simp] theorem State.setFunc_dmaWaiting (n : Nat) (x : Function) : (s.setFunc n x).dmaWaiting = s.dmaWaiting := rfl
@[simp] theorem State.setFunc_streams (n : Nat) (x : Function) : (s.setFunc n x).streams = s.streams := rfl
@[simp] theorem State.setFunc_collected (n : Nat) (x : Function) : (s.setFunc n x).collected = s.collected := rfl
@[simp] theorem State.setFunc_haltRefusals (n : Nat) (x : Function) : (s.setFunc n x).haltRefusals = s.haltRefusals := rfl
@[simp] theorem State.setFunc_groves (n : Nat) (x : Function) : (s.setFunc n x).groves = s.groves := rfl
@[simp] theorem State.setFunc_canopy (n : Nat) (x : Function) : (s.setFunc n x).canopy = s.canopy := rfl
@[simp] theorem State.setFunc_power (n : Nat) (x : Function) : (s.setFunc n x).power = s.power := rfl
@[simp] theorem State.setFunc_mgmt (n : Nat) (x : Function) : (s.setFunc n x).mgmt = s.mgmt := rfl

/-! ## setCtx -/

@[simp] theorem State.setCtx_clock (c : Context) : (s.setCtx c).clock = s.clock := rfl
@[simp] theorem State.setCtx_counter (c : Context) : (s.setCtx c).counter = s.counter := rfl
@[simp] theorem State.setCtx_draws (c : Context) : (s.setCtx c).draws = s.draws := rfl
@[simp] theorem State.setCtx_owners (c : Context) : (s.setCtx c).owners = s.owners := rfl
@[simp] theorem State.setCtx_inputs (c : Context) : (s.setCtx c).inputs = s.inputs := rfl
@[simp] theorem State.setCtx_agenda (c : Context) : (s.setCtx c).agenda = s.agenda := rfl
@[simp] theorem State.setCtx_issue (c : Context) : (s.setCtx c).issue = s.issue := rfl
@[simp] theorem State.setCtx_waves (c : Context) : (s.setCtx c).waves = s.waves := rfl
@[simp] theorem State.setCtx_parts (c : Context) : (s.setCtx c).parts = s.parts := rfl
@[simp] theorem State.setCtx_cores (c : Context) : (s.setCtx c).cores = s.cores := rfl
@[simp] theorem State.setCtx_blocks (c : Context) : (s.setCtx c).blocks = s.blocks := rfl
@[simp] theorem State.setCtx_launches (c : Context) : (s.setCtx c).launches = s.launches := rfl
@[simp] theorem State.setCtx_ctxs (c : Context) :
    (s.setCtx c).ctxs = s.ctxs.map fun x => if x.fn == c.fn && x.id == c.id then c else x := rfl
@[simp] theorem State.setCtx_fns (c : Context) : (s.setCtx c).fns = s.fns := rfl
@[simp] theorem State.setCtx_ageInt (c : Context) : (s.setCtx c).ageInt = s.ageInt := rfl
@[simp] theorem State.setCtx_dram (c : Context) : (s.setCtx c).dram = s.dram := rfl
@[simp] theorem State.setCtx_scratch (c : Context) : (s.setCtx c).scratch = s.scratch := rfl
@[simp] theorem State.setCtx_weight (c : Context) : (s.setCtx c).weight = s.weight := rfl
@[simp] theorem State.setCtx_wsRefresh (c : Context) : (s.setCtx c).wsRefresh = s.wsRefresh := rfl
@[simp] theorem State.setCtx_tlb (c : Context) : (s.setCtx c).tlb = s.tlb := rfl
@[simp] theorem State.setCtx_l2 (c : Context) : (s.setCtx c).l2 = s.l2 := rfl
@[simp] theorem State.setCtx_l1 (c : Context) : (s.setCtx c).l1 = s.l1 := rfl
@[simp] theorem State.setCtx_classes (c : Context) : (s.setCtx c).classes = s.classes := rfl
@[simp] theorem State.setCtx_classCopies (c : Context) : (s.setCtx c).classCopies = s.classCopies := rfl
@[simp] theorem State.setCtx_mapGens (c : Context) : (s.setCtx c).mapGens = s.mapGens := rfl
@[simp] theorem State.setCtx_seals (c : Context) : (s.setCtx c).seals = s.seals := rfl
@[simp] theorem State.setCtx_pins (c : Context) : (s.setCtx c).pins = s.pins := rfl
@[simp] theorem State.setCtx_scopePins (c : Context) : (s.setCtx c).scopePins = s.scopePins := rfl
@[simp] theorem State.setCtx_bindings (c : Context) : (s.setCtx c).bindings = s.bindings := rfl
@[simp] theorem State.setCtx_openPhases (c : Context) : (s.setCtx c).openPhases = s.openPhases := rfl
@[simp] theorem State.setCtx_atomics (c : Context) : (s.setCtx c).atomics = s.atomics := rfl
@[simp] theorem State.setCtx_heldSectors (c : Context) : (s.setCtx c).heldSectors = s.heldSectors := rfl
@[simp] theorem State.setCtx_atomicLog (c : Context) : (s.setCtx c).atomicLog = s.atomicLog := rfl
@[simp] theorem State.setCtx_domains (c : Context) : (s.setCtx c).domains = s.domains := rfl
@[simp] theorem State.setCtx_haloWindows (c : Context) : (s.setCtx c).haloWindows = s.haloWindows := rfl
@[simp] theorem State.setCtx_haloSent (c : Context) : (s.setCtx c).haloSent = s.haloSent := rfl
@[simp] theorem State.setCtx_linksLost (c : Context) : (s.setCtx c).linksLost = s.linksLost := rfl
@[simp] theorem State.setCtx_haloAnswers (c : Context) : (s.setCtx c).haloAnswers = s.haloAnswers := rfl
@[simp] theorem State.setCtx_haloAsked (c : Context) : (s.setCtx c).haloAsked = s.haloAsked := rfl
@[simp] theorem State.setCtx_facesWaiting (c : Context) : (s.setCtx c).facesWaiting = s.facesWaiting := rfl
@[simp] theorem State.setCtx_dmaWaiting (c : Context) : (s.setCtx c).dmaWaiting = s.dmaWaiting := rfl
@[simp] theorem State.setCtx_streams (c : Context) : (s.setCtx c).streams = s.streams := rfl
@[simp] theorem State.setCtx_collected (c : Context) : (s.setCtx c).collected = s.collected := rfl
@[simp] theorem State.setCtx_haltRefusals (c : Context) : (s.setCtx c).haltRefusals = s.haltRefusals := rfl
@[simp] theorem State.setCtx_groves (c : Context) : (s.setCtx c).groves = s.groves := rfl
@[simp] theorem State.setCtx_canopy (c : Context) : (s.setCtx c).canopy = s.canopy := rfl
@[simp] theorem State.setCtx_power (c : Context) : (s.setCtx c).power = s.power := rfl
@[simp] theorem State.setCtx_mgmt (c : Context) : (s.setCtx c).mgmt = s.mgmt := rfl

/-! ## setLaunch -/

@[simp] theorem State.setLaunch_clock (l : Launch) : (s.setLaunch l).clock = s.clock := rfl
@[simp] theorem State.setLaunch_counter (l : Launch) : (s.setLaunch l).counter = s.counter := rfl
@[simp] theorem State.setLaunch_draws (l : Launch) : (s.setLaunch l).draws = s.draws := rfl
@[simp] theorem State.setLaunch_owners (l : Launch) : (s.setLaunch l).owners = s.owners := rfl
@[simp] theorem State.setLaunch_inputs (l : Launch) : (s.setLaunch l).inputs = s.inputs := rfl
@[simp] theorem State.setLaunch_agenda (l : Launch) : (s.setLaunch l).agenda = s.agenda := rfl
@[simp] theorem State.setLaunch_issue (l : Launch) : (s.setLaunch l).issue = s.issue := rfl
@[simp] theorem State.setLaunch_waves (l : Launch) : (s.setLaunch l).waves = s.waves := rfl
@[simp] theorem State.setLaunch_parts (l : Launch) : (s.setLaunch l).parts = s.parts := rfl
@[simp] theorem State.setLaunch_cores (l : Launch) : (s.setLaunch l).cores = s.cores := rfl
@[simp] theorem State.setLaunch_blocks (l : Launch) : (s.setLaunch l).blocks = s.blocks := rfl
@[simp] theorem State.setLaunch_launches (l : Launch) :
    (s.setLaunch l).launches = s.launches.map fun x => if x.lid == l.lid then l else x := rfl
@[simp] theorem State.setLaunch_ctxs (l : Launch) : (s.setLaunch l).ctxs = s.ctxs := rfl
@[simp] theorem State.setLaunch_fns (l : Launch) : (s.setLaunch l).fns = s.fns := rfl
@[simp] theorem State.setLaunch_ageInt (l : Launch) : (s.setLaunch l).ageInt = s.ageInt := rfl
@[simp] theorem State.setLaunch_dram (l : Launch) : (s.setLaunch l).dram = s.dram := rfl
@[simp] theorem State.setLaunch_scratch (l : Launch) : (s.setLaunch l).scratch = s.scratch := rfl
@[simp] theorem State.setLaunch_weight (l : Launch) : (s.setLaunch l).weight = s.weight := rfl
@[simp] theorem State.setLaunch_wsRefresh (l : Launch) : (s.setLaunch l).wsRefresh = s.wsRefresh := rfl
@[simp] theorem State.setLaunch_tlb (l : Launch) : (s.setLaunch l).tlb = s.tlb := rfl
@[simp] theorem State.setLaunch_l2 (l : Launch) : (s.setLaunch l).l2 = s.l2 := rfl
@[simp] theorem State.setLaunch_l1 (l : Launch) : (s.setLaunch l).l1 = s.l1 := rfl
@[simp] theorem State.setLaunch_classes (l : Launch) : (s.setLaunch l).classes = s.classes := rfl
@[simp] theorem State.setLaunch_classCopies (l : Launch) : (s.setLaunch l).classCopies = s.classCopies := rfl
@[simp] theorem State.setLaunch_mapGens (l : Launch) : (s.setLaunch l).mapGens = s.mapGens := rfl
@[simp] theorem State.setLaunch_seals (l : Launch) : (s.setLaunch l).seals = s.seals := rfl
@[simp] theorem State.setLaunch_pins (l : Launch) : (s.setLaunch l).pins = s.pins := rfl
@[simp] theorem State.setLaunch_scopePins (l : Launch) : (s.setLaunch l).scopePins = s.scopePins := rfl
@[simp] theorem State.setLaunch_bindings (l : Launch) : (s.setLaunch l).bindings = s.bindings := rfl
@[simp] theorem State.setLaunch_openPhases (l : Launch) : (s.setLaunch l).openPhases = s.openPhases := rfl
@[simp] theorem State.setLaunch_atomics (l : Launch) : (s.setLaunch l).atomics = s.atomics := rfl
@[simp] theorem State.setLaunch_heldSectors (l : Launch) : (s.setLaunch l).heldSectors = s.heldSectors := rfl
@[simp] theorem State.setLaunch_atomicLog (l : Launch) : (s.setLaunch l).atomicLog = s.atomicLog := rfl
@[simp] theorem State.setLaunch_domains (l : Launch) : (s.setLaunch l).domains = s.domains := rfl
@[simp] theorem State.setLaunch_haloWindows (l : Launch) : (s.setLaunch l).haloWindows = s.haloWindows := rfl
@[simp] theorem State.setLaunch_haloSent (l : Launch) : (s.setLaunch l).haloSent = s.haloSent := rfl
@[simp] theorem State.setLaunch_linksLost (l : Launch) : (s.setLaunch l).linksLost = s.linksLost := rfl
@[simp] theorem State.setLaunch_haloAnswers (l : Launch) : (s.setLaunch l).haloAnswers = s.haloAnswers := rfl
@[simp] theorem State.setLaunch_haloAsked (l : Launch) : (s.setLaunch l).haloAsked = s.haloAsked := rfl
@[simp] theorem State.setLaunch_facesWaiting (l : Launch) : (s.setLaunch l).facesWaiting = s.facesWaiting := rfl
@[simp] theorem State.setLaunch_dmaWaiting (l : Launch) : (s.setLaunch l).dmaWaiting = s.dmaWaiting := rfl
@[simp] theorem State.setLaunch_streams (l : Launch) : (s.setLaunch l).streams = s.streams := rfl
@[simp] theorem State.setLaunch_collected (l : Launch) : (s.setLaunch l).collected = s.collected := rfl
@[simp] theorem State.setLaunch_haltRefusals (l : Launch) : (s.setLaunch l).haltRefusals = s.haltRefusals := rfl
@[simp] theorem State.setLaunch_groves (l : Launch) : (s.setLaunch l).groves = s.groves := rfl
@[simp] theorem State.setLaunch_canopy (l : Launch) : (s.setLaunch l).canopy = s.canopy := rfl
@[simp] theorem State.setLaunch_power (l : Launch) : (s.setLaunch l).power = s.power := rfl
@[simp] theorem State.setLaunch_mgmt (l : Launch) : (s.setLaunch l).mgmt = s.mgmt := rfl

/-! ## setBlock -/

@[simp] theorem State.setBlock_clock (b : Block) : (s.setBlock b).clock = s.clock := rfl
@[simp] theorem State.setBlock_counter (b : Block) : (s.setBlock b).counter = s.counter := rfl
@[simp] theorem State.setBlock_draws (b : Block) : (s.setBlock b).draws = s.draws := rfl
@[simp] theorem State.setBlock_owners (b : Block) : (s.setBlock b).owners = s.owners := rfl
@[simp] theorem State.setBlock_inputs (b : Block) : (s.setBlock b).inputs = s.inputs := rfl
@[simp] theorem State.setBlock_agenda (b : Block) : (s.setBlock b).agenda = s.agenda := rfl
@[simp] theorem State.setBlock_issue (b : Block) : (s.setBlock b).issue = s.issue := rfl
@[simp] theorem State.setBlock_waves (b : Block) : (s.setBlock b).waves = s.waves := rfl
@[simp] theorem State.setBlock_parts (b : Block) : (s.setBlock b).parts = s.parts := rfl
@[simp] theorem State.setBlock_cores (b : Block) : (s.setBlock b).cores = s.cores := rfl
@[simp] theorem State.setBlock_blocks (b : Block) :
    (s.setBlock b).blocks = s.blocks.map fun x => if x.lid == b.lid && x.bid == b.bid && x.run == b.run then b else x := rfl
@[simp] theorem State.setBlock_launches (b : Block) : (s.setBlock b).launches = s.launches := rfl
@[simp] theorem State.setBlock_ctxs (b : Block) : (s.setBlock b).ctxs = s.ctxs := rfl
@[simp] theorem State.setBlock_fns (b : Block) : (s.setBlock b).fns = s.fns := rfl
@[simp] theorem State.setBlock_ageInt (b : Block) : (s.setBlock b).ageInt = s.ageInt := rfl
@[simp] theorem State.setBlock_dram (b : Block) : (s.setBlock b).dram = s.dram := rfl
@[simp] theorem State.setBlock_scratch (b : Block) : (s.setBlock b).scratch = s.scratch := rfl
@[simp] theorem State.setBlock_weight (b : Block) : (s.setBlock b).weight = s.weight := rfl
@[simp] theorem State.setBlock_wsRefresh (b : Block) : (s.setBlock b).wsRefresh = s.wsRefresh := rfl
@[simp] theorem State.setBlock_tlb (b : Block) : (s.setBlock b).tlb = s.tlb := rfl
@[simp] theorem State.setBlock_l2 (b : Block) : (s.setBlock b).l2 = s.l2 := rfl
@[simp] theorem State.setBlock_l1 (b : Block) : (s.setBlock b).l1 = s.l1 := rfl
@[simp] theorem State.setBlock_classes (b : Block) : (s.setBlock b).classes = s.classes := rfl
@[simp] theorem State.setBlock_classCopies (b : Block) : (s.setBlock b).classCopies = s.classCopies := rfl
@[simp] theorem State.setBlock_mapGens (b : Block) : (s.setBlock b).mapGens = s.mapGens := rfl
@[simp] theorem State.setBlock_seals (b : Block) : (s.setBlock b).seals = s.seals := rfl
@[simp] theorem State.setBlock_pins (b : Block) : (s.setBlock b).pins = s.pins := rfl
@[simp] theorem State.setBlock_scopePins (b : Block) : (s.setBlock b).scopePins = s.scopePins := rfl
@[simp] theorem State.setBlock_bindings (b : Block) : (s.setBlock b).bindings = s.bindings := rfl
@[simp] theorem State.setBlock_openPhases (b : Block) : (s.setBlock b).openPhases = s.openPhases := rfl
@[simp] theorem State.setBlock_atomics (b : Block) : (s.setBlock b).atomics = s.atomics := rfl
@[simp] theorem State.setBlock_heldSectors (b : Block) : (s.setBlock b).heldSectors = s.heldSectors := rfl
@[simp] theorem State.setBlock_atomicLog (b : Block) : (s.setBlock b).atomicLog = s.atomicLog := rfl
@[simp] theorem State.setBlock_domains (b : Block) : (s.setBlock b).domains = s.domains := rfl
@[simp] theorem State.setBlock_haloWindows (b : Block) : (s.setBlock b).haloWindows = s.haloWindows := rfl
@[simp] theorem State.setBlock_haloSent (b : Block) : (s.setBlock b).haloSent = s.haloSent := rfl
@[simp] theorem State.setBlock_linksLost (b : Block) : (s.setBlock b).linksLost = s.linksLost := rfl
@[simp] theorem State.setBlock_haloAnswers (b : Block) : (s.setBlock b).haloAnswers = s.haloAnswers := rfl
@[simp] theorem State.setBlock_haloAsked (b : Block) : (s.setBlock b).haloAsked = s.haloAsked := rfl
@[simp] theorem State.setBlock_facesWaiting (b : Block) : (s.setBlock b).facesWaiting = s.facesWaiting := rfl
@[simp] theorem State.setBlock_dmaWaiting (b : Block) : (s.setBlock b).dmaWaiting = s.dmaWaiting := rfl
@[simp] theorem State.setBlock_streams (b : Block) : (s.setBlock b).streams = s.streams := rfl
@[simp] theorem State.setBlock_collected (b : Block) : (s.setBlock b).collected = s.collected := rfl
@[simp] theorem State.setBlock_haltRefusals (b : Block) : (s.setBlock b).haltRefusals = s.haltRefusals := rfl
@[simp] theorem State.setBlock_groves (b : Block) : (s.setBlock b).groves = s.groves := rfl
@[simp] theorem State.setBlock_canopy (b : Block) : (s.setBlock b).canopy = s.canopy := rfl
@[simp] theorem State.setBlock_power (b : Block) : (s.setBlock b).power = s.power := rfl
@[simp] theorem State.setBlock_mgmt (b : Block) : (s.setBlock b).mgmt = s.mgmt := rfl

/-! ## setDomain -/

@[simp] theorem State.setDomain_clock (d : Domain) : (s.setDomain d).clock = s.clock := rfl
@[simp] theorem State.setDomain_counter (d : Domain) : (s.setDomain d).counter = s.counter := rfl
@[simp] theorem State.setDomain_draws (d : Domain) : (s.setDomain d).draws = s.draws := rfl
@[simp] theorem State.setDomain_owners (d : Domain) : (s.setDomain d).owners = s.owners := rfl
@[simp] theorem State.setDomain_inputs (d : Domain) : (s.setDomain d).inputs = s.inputs := rfl
@[simp] theorem State.setDomain_agenda (d : Domain) : (s.setDomain d).agenda = s.agenda := rfl
@[simp] theorem State.setDomain_issue (d : Domain) : (s.setDomain d).issue = s.issue := rfl
@[simp] theorem State.setDomain_waves (d : Domain) : (s.setDomain d).waves = s.waves := rfl
@[simp] theorem State.setDomain_parts (d : Domain) : (s.setDomain d).parts = s.parts := rfl
@[simp] theorem State.setDomain_cores (d : Domain) : (s.setDomain d).cores = s.cores := rfl
@[simp] theorem State.setDomain_blocks (d : Domain) : (s.setDomain d).blocks = s.blocks := rfl
@[simp] theorem State.setDomain_launches (d : Domain) : (s.setDomain d).launches = s.launches := rfl
@[simp] theorem State.setDomain_ctxs (d : Domain) : (s.setDomain d).ctxs = s.ctxs := rfl
@[simp] theorem State.setDomain_fns (d : Domain) : (s.setDomain d).fns = s.fns := rfl
@[simp] theorem State.setDomain_ageInt (d : Domain) : (s.setDomain d).ageInt = s.ageInt := rfl
@[simp] theorem State.setDomain_dram (d : Domain) : (s.setDomain d).dram = s.dram := rfl
@[simp] theorem State.setDomain_scratch (d : Domain) : (s.setDomain d).scratch = s.scratch := rfl
@[simp] theorem State.setDomain_weight (d : Domain) : (s.setDomain d).weight = s.weight := rfl
@[simp] theorem State.setDomain_wsRefresh (d : Domain) : (s.setDomain d).wsRefresh = s.wsRefresh := rfl
@[simp] theorem State.setDomain_tlb (d : Domain) : (s.setDomain d).tlb = s.tlb := rfl
@[simp] theorem State.setDomain_l2 (d : Domain) : (s.setDomain d).l2 = s.l2 := rfl
@[simp] theorem State.setDomain_l1 (d : Domain) : (s.setDomain d).l1 = s.l1 := rfl
@[simp] theorem State.setDomain_classes (d : Domain) : (s.setDomain d).classes = s.classes := rfl
@[simp] theorem State.setDomain_classCopies (d : Domain) : (s.setDomain d).classCopies = s.classCopies := rfl
@[simp] theorem State.setDomain_mapGens (d : Domain) : (s.setDomain d).mapGens = s.mapGens := rfl
@[simp] theorem State.setDomain_seals (d : Domain) : (s.setDomain d).seals = s.seals := rfl
@[simp] theorem State.setDomain_pins (d : Domain) : (s.setDomain d).pins = s.pins := rfl
@[simp] theorem State.setDomain_scopePins (d : Domain) : (s.setDomain d).scopePins = s.scopePins := rfl
@[simp] theorem State.setDomain_bindings (d : Domain) : (s.setDomain d).bindings = s.bindings := rfl
@[simp] theorem State.setDomain_openPhases (d : Domain) : (s.setDomain d).openPhases = s.openPhases := rfl
@[simp] theorem State.setDomain_atomics (d : Domain) : (s.setDomain d).atomics = s.atomics := rfl
@[simp] theorem State.setDomain_heldSectors (d : Domain) : (s.setDomain d).heldSectors = s.heldSectors := rfl
@[simp] theorem State.setDomain_atomicLog (d : Domain) : (s.setDomain d).atomicLog = s.atomicLog := rfl
@[simp] theorem State.setDomain_domains (d : Domain) :
    (s.setDomain d).domains = s.domains.map fun x => if x.id == d.id then d else x := rfl
@[simp] theorem State.setDomain_haloWindows (d : Domain) : (s.setDomain d).haloWindows = s.haloWindows := rfl
@[simp] theorem State.setDomain_haloSent (d : Domain) : (s.setDomain d).haloSent = s.haloSent := rfl
@[simp] theorem State.setDomain_linksLost (d : Domain) : (s.setDomain d).linksLost = s.linksLost := rfl
@[simp] theorem State.setDomain_haloAnswers (d : Domain) : (s.setDomain d).haloAnswers = s.haloAnswers := rfl
@[simp] theorem State.setDomain_haloAsked (d : Domain) : (s.setDomain d).haloAsked = s.haloAsked := rfl
@[simp] theorem State.setDomain_facesWaiting (d : Domain) : (s.setDomain d).facesWaiting = s.facesWaiting := rfl
@[simp] theorem State.setDomain_dmaWaiting (d : Domain) : (s.setDomain d).dmaWaiting = s.dmaWaiting := rfl
@[simp] theorem State.setDomain_streams (d : Domain) : (s.setDomain d).streams = s.streams := rfl
@[simp] theorem State.setDomain_collected (d : Domain) : (s.setDomain d).collected = s.collected := rfl
@[simp] theorem State.setDomain_haltRefusals (d : Domain) : (s.setDomain d).haltRefusals = s.haltRefusals := rfl
@[simp] theorem State.setDomain_groves (d : Domain) : (s.setDomain d).groves = s.groves := rfl
@[simp] theorem State.setDomain_canopy (d : Domain) : (s.setDomain d).canopy = s.canopy := rfl
@[simp] theorem State.setDomain_power (d : Domain) : (s.setDomain d).power = s.power := rfl
@[simp] theorem State.setDomain_mgmt (d : Domain) : (s.setDomain d).mgmt = s.mgmt := rfl

/-! ## setLine -/

@[simp] theorem State.setLine_clock (l : L2Line) : (s.setLine l).clock = s.clock := rfl
@[simp] theorem State.setLine_counter (l : L2Line) : (s.setLine l).counter = s.counter := rfl
@[simp] theorem State.setLine_draws (l : L2Line) : (s.setLine l).draws = s.draws := rfl
@[simp] theorem State.setLine_owners (l : L2Line) : (s.setLine l).owners = s.owners := rfl
@[simp] theorem State.setLine_inputs (l : L2Line) : (s.setLine l).inputs = s.inputs := rfl
@[simp] theorem State.setLine_agenda (l : L2Line) : (s.setLine l).agenda = s.agenda := rfl
@[simp] theorem State.setLine_issue (l : L2Line) : (s.setLine l).issue = s.issue := rfl
@[simp] theorem State.setLine_waves (l : L2Line) : (s.setLine l).waves = s.waves := rfl
@[simp] theorem State.setLine_parts (l : L2Line) : (s.setLine l).parts = s.parts := rfl
@[simp] theorem State.setLine_cores (l : L2Line) : (s.setLine l).cores = s.cores := rfl
@[simp] theorem State.setLine_blocks (l : L2Line) : (s.setLine l).blocks = s.blocks := rfl
@[simp] theorem State.setLine_launches (l : L2Line) : (s.setLine l).launches = s.launches := rfl
@[simp] theorem State.setLine_ctxs (l : L2Line) : (s.setLine l).ctxs = s.ctxs := rfl
@[simp] theorem State.setLine_fns (l : L2Line) : (s.setLine l).fns = s.fns := rfl
@[simp] theorem State.setLine_ageInt (l : L2Line) : (s.setLine l).ageInt = s.ageInt := rfl
@[simp] theorem State.setLine_dram (l : L2Line) : (s.setLine l).dram = s.dram := rfl
@[simp] theorem State.setLine_scratch (l : L2Line) : (s.setLine l).scratch = s.scratch := rfl
@[simp] theorem State.setLine_weight (l : L2Line) : (s.setLine l).weight = s.weight := rfl
@[simp] theorem State.setLine_wsRefresh (l : L2Line) : (s.setLine l).wsRefresh = s.wsRefresh := rfl
@[simp] theorem State.setLine_tlb (l : L2Line) : (s.setLine l).tlb = s.tlb := rfl
@[simp] theorem State.setLine_l2 (l : L2Line) :
    (s.setLine l).l2 = s.l2.map fun x => if x.asid == l.asid && x.line == l.line then l else x := rfl
@[simp] theorem State.setLine_l1 (l : L2Line) : (s.setLine l).l1 = s.l1 := rfl
@[simp] theorem State.setLine_classes (l : L2Line) : (s.setLine l).classes = s.classes := rfl
@[simp] theorem State.setLine_classCopies (l : L2Line) : (s.setLine l).classCopies = s.classCopies := rfl
@[simp] theorem State.setLine_mapGens (l : L2Line) : (s.setLine l).mapGens = s.mapGens := rfl
@[simp] theorem State.setLine_seals (l : L2Line) : (s.setLine l).seals = s.seals := rfl
@[simp] theorem State.setLine_pins (l : L2Line) : (s.setLine l).pins = s.pins := rfl
@[simp] theorem State.setLine_scopePins (l : L2Line) : (s.setLine l).scopePins = s.scopePins := rfl
@[simp] theorem State.setLine_bindings (l : L2Line) : (s.setLine l).bindings = s.bindings := rfl
@[simp] theorem State.setLine_openPhases (l : L2Line) : (s.setLine l).openPhases = s.openPhases := rfl
@[simp] theorem State.setLine_atomics (l : L2Line) : (s.setLine l).atomics = s.atomics := rfl
@[simp] theorem State.setLine_heldSectors (l : L2Line) : (s.setLine l).heldSectors = s.heldSectors := rfl
@[simp] theorem State.setLine_atomicLog (l : L2Line) : (s.setLine l).atomicLog = s.atomicLog := rfl
@[simp] theorem State.setLine_domains (l : L2Line) : (s.setLine l).domains = s.domains := rfl
@[simp] theorem State.setLine_haloWindows (l : L2Line) : (s.setLine l).haloWindows = s.haloWindows := rfl
@[simp] theorem State.setLine_haloSent (l : L2Line) : (s.setLine l).haloSent = s.haloSent := rfl
@[simp] theorem State.setLine_linksLost (l : L2Line) : (s.setLine l).linksLost = s.linksLost := rfl
@[simp] theorem State.setLine_haloAnswers (l : L2Line) : (s.setLine l).haloAnswers = s.haloAnswers := rfl
@[simp] theorem State.setLine_haloAsked (l : L2Line) : (s.setLine l).haloAsked = s.haloAsked := rfl
@[simp] theorem State.setLine_facesWaiting (l : L2Line) : (s.setLine l).facesWaiting = s.facesWaiting := rfl
@[simp] theorem State.setLine_dmaWaiting (l : L2Line) : (s.setLine l).dmaWaiting = s.dmaWaiting := rfl
@[simp] theorem State.setLine_streams (l : L2Line) : (s.setLine l).streams = s.streams := rfl
@[simp] theorem State.setLine_collected (l : L2Line) : (s.setLine l).collected = s.collected := rfl
@[simp] theorem State.setLine_haltRefusals (l : L2Line) : (s.setLine l).haltRefusals = s.haltRefusals := rfl
@[simp] theorem State.setLine_groves (l : L2Line) : (s.setLine l).groves = s.groves := rfl
@[simp] theorem State.setLine_canopy (l : L2Line) : (s.setLine l).canopy = s.canopy := rfl
@[simp] theorem State.setLine_power (l : L2Line) : (s.setLine l).power = s.power := rfl
@[simp] theorem State.setLine_mgmt (l : L2Line) : (s.setLine l).mgmt = s.mgmt := rfl

/-! ## modDomain -/

@[simp] theorem State.modDomain_clock (dom : Nat) (f : Domain → Domain) : (s.modDomain dom f).clock = s.clock := rfl
@[simp] theorem State.modDomain_counter (dom : Nat) (f : Domain → Domain) : (s.modDomain dom f).counter = s.counter := rfl
@[simp] theorem State.modDomain_draws (dom : Nat) (f : Domain → Domain) : (s.modDomain dom f).draws = s.draws := rfl
@[simp] theorem State.modDomain_owners (dom : Nat) (f : Domain → Domain) : (s.modDomain dom f).owners = s.owners := rfl
@[simp] theorem State.modDomain_inputs (dom : Nat) (f : Domain → Domain) : (s.modDomain dom f).inputs = s.inputs := rfl
@[simp] theorem State.modDomain_agenda (dom : Nat) (f : Domain → Domain) : (s.modDomain dom f).agenda = s.agenda := rfl
@[simp] theorem State.modDomain_issue (dom : Nat) (f : Domain → Domain) : (s.modDomain dom f).issue = s.issue := rfl
@[simp] theorem State.modDomain_waves (dom : Nat) (f : Domain → Domain) : (s.modDomain dom f).waves = s.waves := rfl
@[simp] theorem State.modDomain_parts (dom : Nat) (f : Domain → Domain) : (s.modDomain dom f).parts = s.parts := rfl
@[simp] theorem State.modDomain_cores (dom : Nat) (f : Domain → Domain) : (s.modDomain dom f).cores = s.cores := rfl
@[simp] theorem State.modDomain_blocks (dom : Nat) (f : Domain → Domain) : (s.modDomain dom f).blocks = s.blocks := rfl
@[simp] theorem State.modDomain_launches (dom : Nat) (f : Domain → Domain) : (s.modDomain dom f).launches = s.launches := rfl
@[simp] theorem State.modDomain_ctxs (dom : Nat) (f : Domain → Domain) : (s.modDomain dom f).ctxs = s.ctxs := rfl
@[simp] theorem State.modDomain_fns (dom : Nat) (f : Domain → Domain) : (s.modDomain dom f).fns = s.fns := rfl
@[simp] theorem State.modDomain_ageInt (dom : Nat) (f : Domain → Domain) : (s.modDomain dom f).ageInt = s.ageInt := rfl
@[simp] theorem State.modDomain_dram (dom : Nat) (f : Domain → Domain) : (s.modDomain dom f).dram = s.dram := rfl
@[simp] theorem State.modDomain_scratch (dom : Nat) (f : Domain → Domain) : (s.modDomain dom f).scratch = s.scratch := rfl
@[simp] theorem State.modDomain_weight (dom : Nat) (f : Domain → Domain) : (s.modDomain dom f).weight = s.weight := rfl
@[simp] theorem State.modDomain_wsRefresh (dom : Nat) (f : Domain → Domain) : (s.modDomain dom f).wsRefresh = s.wsRefresh := rfl
@[simp] theorem State.modDomain_tlb (dom : Nat) (f : Domain → Domain) : (s.modDomain dom f).tlb = s.tlb := rfl
@[simp] theorem State.modDomain_l2 (dom : Nat) (f : Domain → Domain) : (s.modDomain dom f).l2 = s.l2 := rfl
@[simp] theorem State.modDomain_l1 (dom : Nat) (f : Domain → Domain) : (s.modDomain dom f).l1 = s.l1 := rfl
@[simp] theorem State.modDomain_classes (dom : Nat) (f : Domain → Domain) : (s.modDomain dom f).classes = s.classes := rfl
@[simp] theorem State.modDomain_classCopies (dom : Nat) (f : Domain → Domain) : (s.modDomain dom f).classCopies = s.classCopies := rfl
@[simp] theorem State.modDomain_mapGens (dom : Nat) (f : Domain → Domain) : (s.modDomain dom f).mapGens = s.mapGens := rfl
@[simp] theorem State.modDomain_seals (dom : Nat) (f : Domain → Domain) : (s.modDomain dom f).seals = s.seals := rfl
@[simp] theorem State.modDomain_pins (dom : Nat) (f : Domain → Domain) : (s.modDomain dom f).pins = s.pins := rfl
@[simp] theorem State.modDomain_scopePins (dom : Nat) (f : Domain → Domain) : (s.modDomain dom f).scopePins = s.scopePins := rfl
@[simp] theorem State.modDomain_bindings (dom : Nat) (f : Domain → Domain) : (s.modDomain dom f).bindings = s.bindings := rfl
@[simp] theorem State.modDomain_openPhases (dom : Nat) (f : Domain → Domain) : (s.modDomain dom f).openPhases = s.openPhases := rfl
@[simp] theorem State.modDomain_atomics (dom : Nat) (f : Domain → Domain) : (s.modDomain dom f).atomics = s.atomics := rfl
@[simp] theorem State.modDomain_heldSectors (dom : Nat) (f : Domain → Domain) : (s.modDomain dom f).heldSectors = s.heldSectors := rfl
@[simp] theorem State.modDomain_atomicLog (dom : Nat) (f : Domain → Domain) : (s.modDomain dom f).atomicLog = s.atomicLog := rfl
@[simp] theorem State.modDomain_domains (dom : Nat) (f : Domain → Domain) :
    (s.modDomain dom f).domains = s.domains.map fun d => if d.id == dom then f d else d := rfl
@[simp] theorem State.modDomain_haloWindows (dom : Nat) (f : Domain → Domain) : (s.modDomain dom f).haloWindows = s.haloWindows := rfl
@[simp] theorem State.modDomain_haloSent (dom : Nat) (f : Domain → Domain) : (s.modDomain dom f).haloSent = s.haloSent := rfl
@[simp] theorem State.modDomain_linksLost (dom : Nat) (f : Domain → Domain) : (s.modDomain dom f).linksLost = s.linksLost := rfl
@[simp] theorem State.modDomain_haloAnswers (dom : Nat) (f : Domain → Domain) : (s.modDomain dom f).haloAnswers = s.haloAnswers := rfl
@[simp] theorem State.modDomain_haloAsked (dom : Nat) (f : Domain → Domain) : (s.modDomain dom f).haloAsked = s.haloAsked := rfl
@[simp] theorem State.modDomain_facesWaiting (dom : Nat) (f : Domain → Domain) : (s.modDomain dom f).facesWaiting = s.facesWaiting := rfl
@[simp] theorem State.modDomain_dmaWaiting (dom : Nat) (f : Domain → Domain) : (s.modDomain dom f).dmaWaiting = s.dmaWaiting := rfl
@[simp] theorem State.modDomain_streams (dom : Nat) (f : Domain → Domain) : (s.modDomain dom f).streams = s.streams := rfl
@[simp] theorem State.modDomain_collected (dom : Nat) (f : Domain → Domain) : (s.modDomain dom f).collected = s.collected := rfl
@[simp] theorem State.modDomain_haltRefusals (dom : Nat) (f : Domain → Domain) : (s.modDomain dom f).haltRefusals = s.haltRefusals := rfl
@[simp] theorem State.modDomain_groves (dom : Nat) (f : Domain → Domain) : (s.modDomain dom f).groves = s.groves := rfl
@[simp] theorem State.modDomain_canopy (dom : Nat) (f : Domain → Domain) : (s.modDomain dom f).canopy = s.canopy := rfl
@[simp] theorem State.modDomain_power (dom : Nat) (f : Domain → Domain) : (s.modDomain dom f).power = s.power := rfl
@[simp] theorem State.modDomain_mgmt (dom : Nat) (f : Domain → Domain) : (s.modDomain dom f).mgmt = s.mgmt := rfl

/-! ## schedule -/

@[simp] theorem State.schedule_clock (n : Nat) (i : Instr) : (s.schedule n i).clock = s.clock := rfl
@[simp] theorem State.schedule_counter (n : Nat) (i : Instr) : (s.schedule n i).counter = s.counter := rfl
@[simp] theorem State.schedule_draws (n : Nat) (i : Instr) : (s.schedule n i).draws = s.draws := rfl
@[simp] theorem State.schedule_owners (n : Nat) (i : Instr) : (s.schedule n i).owners = s.owners := rfl
@[simp] theorem State.schedule_inputs (n : Nat) (i : Instr) : (s.schedule n i).inputs = s.inputs := rfl
@[simp] theorem State.schedule_agenda (n : Nat) (i : Instr) :
    (s.schedule n i).agenda = insertEvent (s.clock + n) i s.agenda := rfl
@[simp] theorem State.schedule_issue (n : Nat) (i : Instr) : (s.schedule n i).issue = s.issue := rfl
@[simp] theorem State.schedule_waves (n : Nat) (i : Instr) : (s.schedule n i).waves = s.waves := rfl
@[simp] theorem State.schedule_parts (n : Nat) (i : Instr) : (s.schedule n i).parts = s.parts := rfl
@[simp] theorem State.schedule_cores (n : Nat) (i : Instr) : (s.schedule n i).cores = s.cores := rfl
@[simp] theorem State.schedule_blocks (n : Nat) (i : Instr) : (s.schedule n i).blocks = s.blocks := rfl
@[simp] theorem State.schedule_launches (n : Nat) (i : Instr) : (s.schedule n i).launches = s.launches := rfl
@[simp] theorem State.schedule_ctxs (n : Nat) (i : Instr) : (s.schedule n i).ctxs = s.ctxs := rfl
@[simp] theorem State.schedule_fns (n : Nat) (i : Instr) : (s.schedule n i).fns = s.fns := rfl
@[simp] theorem State.schedule_ageInt (n : Nat) (i : Instr) : (s.schedule n i).ageInt = s.ageInt := rfl
@[simp] theorem State.schedule_dram (n : Nat) (i : Instr) : (s.schedule n i).dram = s.dram := rfl
@[simp] theorem State.schedule_scratch (n : Nat) (i : Instr) : (s.schedule n i).scratch = s.scratch := rfl
@[simp] theorem State.schedule_weight (n : Nat) (i : Instr) : (s.schedule n i).weight = s.weight := rfl
@[simp] theorem State.schedule_wsRefresh (n : Nat) (i : Instr) : (s.schedule n i).wsRefresh = s.wsRefresh := rfl
@[simp] theorem State.schedule_tlb (n : Nat) (i : Instr) : (s.schedule n i).tlb = s.tlb := rfl
@[simp] theorem State.schedule_l2 (n : Nat) (i : Instr) : (s.schedule n i).l2 = s.l2 := rfl
@[simp] theorem State.schedule_l1 (n : Nat) (i : Instr) : (s.schedule n i).l1 = s.l1 := rfl
@[simp] theorem State.schedule_classes (n : Nat) (i : Instr) : (s.schedule n i).classes = s.classes := rfl
@[simp] theorem State.schedule_classCopies (n : Nat) (i : Instr) : (s.schedule n i).classCopies = s.classCopies := rfl
@[simp] theorem State.schedule_mapGens (n : Nat) (i : Instr) : (s.schedule n i).mapGens = s.mapGens := rfl
@[simp] theorem State.schedule_seals (n : Nat) (i : Instr) : (s.schedule n i).seals = s.seals := rfl
@[simp] theorem State.schedule_pins (n : Nat) (i : Instr) : (s.schedule n i).pins = s.pins := rfl
@[simp] theorem State.schedule_scopePins (n : Nat) (i : Instr) : (s.schedule n i).scopePins = s.scopePins := rfl
@[simp] theorem State.schedule_bindings (n : Nat) (i : Instr) : (s.schedule n i).bindings = s.bindings := rfl
@[simp] theorem State.schedule_openPhases (n : Nat) (i : Instr) : (s.schedule n i).openPhases = s.openPhases := rfl
@[simp] theorem State.schedule_atomics (n : Nat) (i : Instr) : (s.schedule n i).atomics = s.atomics := rfl
@[simp] theorem State.schedule_heldSectors (n : Nat) (i : Instr) : (s.schedule n i).heldSectors = s.heldSectors := rfl
@[simp] theorem State.schedule_atomicLog (n : Nat) (i : Instr) : (s.schedule n i).atomicLog = s.atomicLog := rfl
@[simp] theorem State.schedule_domains (n : Nat) (i : Instr) : (s.schedule n i).domains = s.domains := rfl
@[simp] theorem State.schedule_haloWindows (n : Nat) (i : Instr) : (s.schedule n i).haloWindows = s.haloWindows := rfl
@[simp] theorem State.schedule_haloSent (n : Nat) (i : Instr) : (s.schedule n i).haloSent = s.haloSent := rfl
@[simp] theorem State.schedule_linksLost (n : Nat) (i : Instr) : (s.schedule n i).linksLost = s.linksLost := rfl
@[simp] theorem State.schedule_haloAnswers (n : Nat) (i : Instr) : (s.schedule n i).haloAnswers = s.haloAnswers := rfl
@[simp] theorem State.schedule_haloAsked (n : Nat) (i : Instr) : (s.schedule n i).haloAsked = s.haloAsked := rfl
@[simp] theorem State.schedule_facesWaiting (n : Nat) (i : Instr) : (s.schedule n i).facesWaiting = s.facesWaiting := rfl
@[simp] theorem State.schedule_dmaWaiting (n : Nat) (i : Instr) : (s.schedule n i).dmaWaiting = s.dmaWaiting := rfl
@[simp] theorem State.schedule_streams (n : Nat) (i : Instr) : (s.schedule n i).streams = s.streams := rfl
@[simp] theorem State.schedule_collected (n : Nat) (i : Instr) : (s.schedule n i).collected = s.collected := rfl
@[simp] theorem State.schedule_haltRefusals (n : Nat) (i : Instr) : (s.schedule n i).haltRefusals = s.haltRefusals := rfl
@[simp] theorem State.schedule_groves (n : Nat) (i : Instr) : (s.schedule n i).groves = s.groves := rfl
@[simp] theorem State.schedule_canopy (n : Nat) (i : Instr) : (s.schedule n i).canopy = s.canopy := rfl
@[simp] theorem State.schedule_power (n : Nat) (i : Instr) : (s.schedule n i).power = s.power := rfl
@[simp] theorem State.schedule_mgmt (n : Nat) (i : Instr) : (s.schedule n i).mgmt = s.mgmt := rfl

/-! ## modAny -/

@[simp] theorem State.modAny_clock (uid : Nat) (f : Wave → Wave) : (s.modAny uid f).clock = s.clock := rfl
@[simp] theorem State.modAny_counter (uid : Nat) (f : Wave → Wave) : (s.modAny uid f).counter = s.counter := rfl
@[simp] theorem State.modAny_draws (uid : Nat) (f : Wave → Wave) : (s.modAny uid f).draws = s.draws := rfl
@[simp] theorem State.modAny_owners (uid : Nat) (f : Wave → Wave) : (s.modAny uid f).owners = s.owners := rfl
@[simp] theorem State.modAny_inputs (uid : Nat) (f : Wave → Wave) : (s.modAny uid f).inputs = s.inputs := rfl
@[simp] theorem State.modAny_agenda (uid : Nat) (f : Wave → Wave) : (s.modAny uid f).agenda = s.agenda := rfl
@[simp] theorem State.modAny_issue (uid : Nat) (f : Wave → Wave) : (s.modAny uid f).issue = s.issue := rfl
@[simp] theorem State.modAny_waves (uid : Nat) (f : Wave → Wave) :
    (s.modAny uid f).waves = s.waves.map fun x => if x.uid == uid then f x else x := rfl
@[simp] theorem State.modAny_parts (uid : Nat) (f : Wave → Wave) : (s.modAny uid f).parts = s.parts := rfl
@[simp] theorem State.modAny_blocks (uid : Nat) (f : Wave → Wave) : (s.modAny uid f).blocks = s.blocks := rfl
@[simp] theorem State.modAny_launches (uid : Nat) (f : Wave → Wave) : (s.modAny uid f).launches = s.launches := rfl
@[simp] theorem State.modAny_ctxs (uid : Nat) (f : Wave → Wave) : (s.modAny uid f).ctxs = s.ctxs := rfl
@[simp] theorem State.modAny_fns (uid : Nat) (f : Wave → Wave) : (s.modAny uid f).fns = s.fns := rfl
@[simp] theorem State.modAny_ageInt (uid : Nat) (f : Wave → Wave) : (s.modAny uid f).ageInt = s.ageInt := rfl
@[simp] theorem State.modAny_dram (uid : Nat) (f : Wave → Wave) : (s.modAny uid f).dram = s.dram := rfl
@[simp] theorem State.modAny_scratch (uid : Nat) (f : Wave → Wave) : (s.modAny uid f).scratch = s.scratch := rfl
@[simp] theorem State.modAny_weight (uid : Nat) (f : Wave → Wave) : (s.modAny uid f).weight = s.weight := rfl
@[simp] theorem State.modAny_wsRefresh (uid : Nat) (f : Wave → Wave) : (s.modAny uid f).wsRefresh = s.wsRefresh := rfl
@[simp] theorem State.modAny_tlb (uid : Nat) (f : Wave → Wave) : (s.modAny uid f).tlb = s.tlb := rfl
@[simp] theorem State.modAny_l2 (uid : Nat) (f : Wave → Wave) : (s.modAny uid f).l2 = s.l2 := rfl
@[simp] theorem State.modAny_l1 (uid : Nat) (f : Wave → Wave) : (s.modAny uid f).l1 = s.l1 := rfl
@[simp] theorem State.modAny_classes (uid : Nat) (f : Wave → Wave) : (s.modAny uid f).classes = s.classes := rfl
@[simp] theorem State.modAny_classCopies (uid : Nat) (f : Wave → Wave) : (s.modAny uid f).classCopies = s.classCopies := rfl
@[simp] theorem State.modAny_mapGens (uid : Nat) (f : Wave → Wave) : (s.modAny uid f).mapGens = s.mapGens := rfl
@[simp] theorem State.modAny_seals (uid : Nat) (f : Wave → Wave) : (s.modAny uid f).seals = s.seals := rfl
@[simp] theorem State.modAny_pins (uid : Nat) (f : Wave → Wave) : (s.modAny uid f).pins = s.pins := rfl
@[simp] theorem State.modAny_scopePins (uid : Nat) (f : Wave → Wave) : (s.modAny uid f).scopePins = s.scopePins := rfl
@[simp] theorem State.modAny_bindings (uid : Nat) (f : Wave → Wave) : (s.modAny uid f).bindings = s.bindings := rfl
@[simp] theorem State.modAny_openPhases (uid : Nat) (f : Wave → Wave) : (s.modAny uid f).openPhases = s.openPhases := rfl
@[simp] theorem State.modAny_atomics (uid : Nat) (f : Wave → Wave) : (s.modAny uid f).atomics = s.atomics := rfl
@[simp] theorem State.modAny_heldSectors (uid : Nat) (f : Wave → Wave) : (s.modAny uid f).heldSectors = s.heldSectors := rfl
@[simp] theorem State.modAny_atomicLog (uid : Nat) (f : Wave → Wave) : (s.modAny uid f).atomicLog = s.atomicLog := rfl
@[simp] theorem State.modAny_domains (uid : Nat) (f : Wave → Wave) : (s.modAny uid f).domains = s.domains := rfl
@[simp] theorem State.modAny_haloWindows (uid : Nat) (f : Wave → Wave) : (s.modAny uid f).haloWindows = s.haloWindows := rfl
@[simp] theorem State.modAny_haloSent (uid : Nat) (f : Wave → Wave) : (s.modAny uid f).haloSent = s.haloSent := rfl
@[simp] theorem State.modAny_linksLost (uid : Nat) (f : Wave → Wave) : (s.modAny uid f).linksLost = s.linksLost := rfl
@[simp] theorem State.modAny_haloAnswers (uid : Nat) (f : Wave → Wave) : (s.modAny uid f).haloAnswers = s.haloAnswers := rfl
@[simp] theorem State.modAny_haloAsked (uid : Nat) (f : Wave → Wave) : (s.modAny uid f).haloAsked = s.haloAsked := rfl
@[simp] theorem State.modAny_facesWaiting (uid : Nat) (f : Wave → Wave) : (s.modAny uid f).facesWaiting = s.facesWaiting := rfl
@[simp] theorem State.modAny_dmaWaiting (uid : Nat) (f : Wave → Wave) : (s.modAny uid f).dmaWaiting = s.dmaWaiting := rfl
@[simp] theorem State.modAny_streams (uid : Nat) (f : Wave → Wave) : (s.modAny uid f).streams = s.streams := rfl
@[simp] theorem State.modAny_collected (uid : Nat) (f : Wave → Wave) : (s.modAny uid f).collected = s.collected := rfl
@[simp] theorem State.modAny_haltRefusals (uid : Nat) (f : Wave → Wave) : (s.modAny uid f).haltRefusals = s.haltRefusals := rfl
@[simp] theorem State.modAny_groves (uid : Nat) (f : Wave → Wave) : (s.modAny uid f).groves = s.groves := rfl
@[simp] theorem State.modAny_canopy (uid : Nat) (f : Wave → Wave) : (s.modAny uid f).canopy = s.canopy := rfl
@[simp] theorem State.modAny_power (uid : Nat) (f : Wave → Wave) : (s.modAny uid f).power = s.power := rfl
@[simp] theorem State.modAny_mgmt (uid : Nat) (f : Wave → Wave) : (s.modAny uid f).mgmt = s.mgmt := rfl

/-! ## Registers of a wave -/

variable (w : Wave)

@[simp] theorem Wave.setV_uid (r l : Nat) (x : Word) : (w.setV r l x).uid = w.uid := rfl
@[simp] theorem Wave.setV_lid (r l : Nat) (x : Word) : (w.setV r l x).lid = w.lid := rfl
@[simp] theorem Wave.setV_bid (r l : Nat) (x : Word) : (w.setV r l x).bid = w.bid := rfl
@[simp] theorem Wave.setV_run (r l : Nat) (x : Word) : (w.setV r l x).run = w.run := rfl
@[simp] theorem Wave.setV_fn (r l : Nat) (x : Word) : (w.setV r l x).fn = w.fn := rfl
@[simp] theorem Wave.setV_ctx (r l : Nat) (x : Word) : (w.setV r l x).ctx = w.ctx := rfl
@[simp] theorem Wave.setV_core (r l : Nat) (x : Word) : (w.setV r l x).core = w.core := rfl
@[simp] theorem Wave.setV_part (r l : Nat) (x : Word) : (w.setV r l x).part = w.part := rfl
@[simp] theorem Wave.setV_wslot (r l : Nat) (x : Word) : (w.setV r l x).wslot = w.wslot := rfl
@[simp] theorem Wave.setV_waveId (r l : Nat) (x : Word) : (w.setV r l x).waveId = w.waveId := rfl
@[simp] theorem Wave.setV_role (r l : Nat) (x : Word) : (w.setV r l x).role = w.role := rfl
@[simp] theorem Wave.setV_budget (r l : Nat) (x : Word) : (w.setV r l x).budget = w.budget := rfl
@[simp] theorem Wave.setV_placedAt (r l : Nat) (x : Word) : (w.setV r l x).placedAt = w.placedAt := rfl
@[simp] theorem Wave.setV_saveSlot (r l : Nat) (x : Word) : (w.setV r l x).saveSlot = w.saveSlot := rfl
@[simp] theorem Wave.setV_s (r l : Nat) (x : Word) : (w.setV r l x).s = w.s := rfl
@[simp] theorem Wave.setV_p (r l : Nat) (x : Word) : (w.setV r l x).p = w.p := rfl
@[simp] theorem Wave.setV_mode (r l : Nat) (x : Word) : (w.setV r l x).mode = w.mode := rfl
@[simp] theorem Wave.setV_flags (r l : Nat) (x : Word) : (w.setV r l x).flags = w.flags := rfl
@[simp] theorem Wave.setV_rep (r l : Nat) (x : Word) : (w.setV r l x).rep = w.rep := rfl
@[simp] theorem Wave.setV_regions (r l : Nat) (x : Word) : (w.setV r l x).regions = w.regions := rfl
@[simp] theorem Wave.setV_places (r l : Nat) (x : Word) : (w.setV r l x).places = w.places := rfl
@[simp] theorem Wave.setV_stack (r l : Nat) (x : Word) : (w.setV r l x).stack = w.stack := rfl
@[simp] theorem Wave.setV_lastSlot (r l : Nat) (x : Word) : (w.setV r l x).lastSlot = w.lastSlot := rfl
@[simp] theorem Wave.setV_nextSeq (r l : Nat) (x : Word) : (w.setV r l x).nextSeq = w.nextSeq := rfl
@[simp] theorem Wave.setV_pending (r l : Nat) (x : Word) : (w.setV r l x).pending = w.pending := rfl
@[simp] theorem Wave.setV_log (r l : Nat) (x : Word) : (w.setV r l x).log = w.log := rfl
@[simp] theorem Wave.setV_held (r l : Nat) (x : Word) : (w.setV r l x).held = w.held := rfl
@[simp] theorem Wave.setV_sets (r l : Nat) (x : Word) : (w.setV r l x).sets = w.sets := rfl
@[simp] theorem Wave.setV_arrivals (r l : Nat) (x : Word) : (w.setV r l x).arrivals = w.arrivals := rfl
@[simp] theorem Wave.setV_guardRep (r l : Nat) (x : Word) : (w.setV r l x).guardRep = w.guardRep := rfl
@[simp] theorem Wave.setV_cellReps (r l : Nat) (x : Word) : (w.setV r l x).cellReps = w.cellReps := rfl
@[simp] theorem Wave.setV_perm (r l : Nat) (x : Word) : (w.setV r l x).perm = w.perm := rfl
@[simp] theorem Wave.setV_fmt (r l : Nat) (x : Word) : (w.setV r l x).fmt = w.fmt := rfl
@[simp] theorem Wave.setV_batches (r l : Nat) (x : Word) : (w.setV r l x).batches = w.batches := rfl
@[simp] theorem Wave.setV_looseContribs (r l : Nat) (x : Word) : (w.setV r l x).looseContribs = w.looseContribs := rfl
@[simp] theorem Wave.setV_liveContribs (r l : Nat) (x : Word) : (w.setV r l x).liveContribs = w.liveContribs := rfl
@[simp] theorem Wave.setV_reservation (r l : Nat) (x : Word) : (w.setV r l x).reservation = w.reservation := rfl
@[simp] theorem Wave.setV_tx (r l : Nat) (x : Word) : (w.setV r l x).tx = w.tx := rfl
@[simp] theorem Wave.setV_elisions (r l : Nat) (x : Word) : (w.setV r l x).elisions = w.elisions := rfl
@[simp] theorem Wave.setV_fences (r l : Nat) (x : Word) : (w.setV r l x).fences = w.fences := rfl
@[simp] theorem Wave.setV_pinAsked (r l : Nat) (x : Word) : (w.setV r l x).pinAsked = w.pinAsked := rfl
@[simp] theorem Wave.setV_pinMade (r l : Nat) (x : Word) : (w.setV r l x).pinMade = w.pinMade := rfl
@[simp] theorem Wave.setV_brokenPins (r l : Nat) (x : Word) : (w.setV r l x).brokenPins = w.brokenPins := rfl
@[simp] theorem Wave.setV_haltPending (r l : Nat) (x : Word) : (w.setV r l x).haltPending = w.haltPending := rfl
@[simp] theorem Wave.setV_watchStop (r l : Nat) (x : Word) : (w.setV r l x).watchStop = w.watchStop := rfl
@[simp] theorem Wave.setV_traceStop (r l : Nat) (x : Word) : (w.setV r l x).traceStop = w.traceStop := rfl
@[simp] theorem Wave.setV_leaving (r l : Nat) (x : Word) : (w.setV r l x).leaving = w.leaving := rfl
@[simp] theorem Wave.setV_ownSS (r l : Nat) (x : Word) : (w.setV r l x).ownSS = w.ownSS := rfl
@[simp] theorem Wave.setV_delivered (r l : Nat) (x : Word) : (w.setV r l x).delivered = w.delivered := rfl
@[simp] theorem Wave.setV_refused (r l : Nat) (x : Word) : (w.setV r l x).refused = w.refused := rfl
@[simp] theorem Wave.setV_dirty (r l : Nat) (x : Word) : (w.setV r l x).dirty = w.dirty := rfl

@[simp] theorem Wave.setS_uid (n : Nat) (x : Word) : (w.setS n x).uid = w.uid := rfl
@[simp] theorem Wave.setS_lid (n : Nat) (x : Word) : (w.setS n x).lid = w.lid := rfl
@[simp] theorem Wave.setS_bid (n : Nat) (x : Word) : (w.setS n x).bid = w.bid := rfl
@[simp] theorem Wave.setS_run (n : Nat) (x : Word) : (w.setS n x).run = w.run := rfl
@[simp] theorem Wave.setS_fn (n : Nat) (x : Word) : (w.setS n x).fn = w.fn := rfl
@[simp] theorem Wave.setS_ctx (n : Nat) (x : Word) : (w.setS n x).ctx = w.ctx := rfl
@[simp] theorem Wave.setS_core (n : Nat) (x : Word) : (w.setS n x).core = w.core := rfl
@[simp] theorem Wave.setS_part (n : Nat) (x : Word) : (w.setS n x).part = w.part := rfl
@[simp] theorem Wave.setS_wslot (n : Nat) (x : Word) : (w.setS n x).wslot = w.wslot := rfl
@[simp] theorem Wave.setS_waveId (n : Nat) (x : Word) : (w.setS n x).waveId = w.waveId := rfl
@[simp] theorem Wave.setS_role (n : Nat) (x : Word) : (w.setS n x).role = w.role := rfl
@[simp] theorem Wave.setS_budget (n : Nat) (x : Word) : (w.setS n x).budget = w.budget := rfl
@[simp] theorem Wave.setS_placedAt (n : Nat) (x : Word) : (w.setS n x).placedAt = w.placedAt := rfl
@[simp] theorem Wave.setS_saveSlot (n : Nat) (x : Word) : (w.setS n x).saveSlot = w.saveSlot := rfl
@[simp] theorem Wave.setS_v (n : Nat) (x : Word) : (w.setS n x).v = w.v := rfl
@[simp] theorem Wave.setS_p (n : Nat) (x : Word) : (w.setS n x).p = w.p := rfl
@[simp] theorem Wave.setS_mode (n : Nat) (x : Word) : (w.setS n x).mode = w.mode := rfl
@[simp] theorem Wave.setS_flags (n : Nat) (x : Word) : (w.setS n x).flags = w.flags := rfl
@[simp] theorem Wave.setS_rep (n : Nat) (x : Word) : (w.setS n x).rep = w.rep := rfl
@[simp] theorem Wave.setS_regions (n : Nat) (x : Word) : (w.setS n x).regions = w.regions := rfl
@[simp] theorem Wave.setS_places (n : Nat) (x : Word) : (w.setS n x).places = w.places := rfl
@[simp] theorem Wave.setS_stack (n : Nat) (x : Word) : (w.setS n x).stack = w.stack := rfl
@[simp] theorem Wave.setS_lastSlot (n : Nat) (x : Word) : (w.setS n x).lastSlot = w.lastSlot := rfl
@[simp] theorem Wave.setS_nextSeq (n : Nat) (x : Word) : (w.setS n x).nextSeq = w.nextSeq := rfl
@[simp] theorem Wave.setS_pending (n : Nat) (x : Word) : (w.setS n x).pending = w.pending := rfl
@[simp] theorem Wave.setS_log (n : Nat) (x : Word) : (w.setS n x).log = w.log := rfl
@[simp] theorem Wave.setS_held (n : Nat) (x : Word) : (w.setS n x).held = w.held := rfl
@[simp] theorem Wave.setS_sets (n : Nat) (x : Word) : (w.setS n x).sets = w.sets := rfl
@[simp] theorem Wave.setS_arrivals (n : Nat) (x : Word) : (w.setS n x).arrivals = w.arrivals := rfl
@[simp] theorem Wave.setS_guardRep (n : Nat) (x : Word) : (w.setS n x).guardRep = w.guardRep := rfl
@[simp] theorem Wave.setS_cellReps (n : Nat) (x : Word) : (w.setS n x).cellReps = w.cellReps := rfl
@[simp] theorem Wave.setS_perm (n : Nat) (x : Word) : (w.setS n x).perm = w.perm := rfl
@[simp] theorem Wave.setS_fmt (n : Nat) (x : Word) : (w.setS n x).fmt = w.fmt := rfl
@[simp] theorem Wave.setS_batches (n : Nat) (x : Word) : (w.setS n x).batches = w.batches := rfl
@[simp] theorem Wave.setS_looseContribs (n : Nat) (x : Word) : (w.setS n x).looseContribs = w.looseContribs := rfl
@[simp] theorem Wave.setS_liveContribs (n : Nat) (x : Word) : (w.setS n x).liveContribs = w.liveContribs := rfl
@[simp] theorem Wave.setS_reservation (n : Nat) (x : Word) : (w.setS n x).reservation = w.reservation := rfl
@[simp] theorem Wave.setS_tx (n : Nat) (x : Word) : (w.setS n x).tx = w.tx := rfl
@[simp] theorem Wave.setS_elisions (n : Nat) (x : Word) : (w.setS n x).elisions = w.elisions := rfl
@[simp] theorem Wave.setS_fences (n : Nat) (x : Word) : (w.setS n x).fences = w.fences := rfl
@[simp] theorem Wave.setS_pinAsked (n : Nat) (x : Word) : (w.setS n x).pinAsked = w.pinAsked := rfl
@[simp] theorem Wave.setS_pinMade (n : Nat) (x : Word) : (w.setS n x).pinMade = w.pinMade := rfl
@[simp] theorem Wave.setS_brokenPins (n : Nat) (x : Word) : (w.setS n x).brokenPins = w.brokenPins := rfl
@[simp] theorem Wave.setS_haltPending (n : Nat) (x : Word) : (w.setS n x).haltPending = w.haltPending := rfl
@[simp] theorem Wave.setS_watchStop (n : Nat) (x : Word) : (w.setS n x).watchStop = w.watchStop := rfl
@[simp] theorem Wave.setS_traceStop (n : Nat) (x : Word) : (w.setS n x).traceStop = w.traceStop := rfl
@[simp] theorem Wave.setS_leaving (n : Nat) (x : Word) : (w.setS n x).leaving = w.leaving := rfl
@[simp] theorem Wave.setS_ownSS (n : Nat) (x : Word) : (w.setS n x).ownSS = w.ownSS := rfl
@[simp] theorem Wave.setS_delivered (n : Nat) (x : Word) : (w.setS n x).delivered = w.delivered := rfl
@[simp] theorem Wave.setS_refused (n : Nat) (x : Word) : (w.setS n x).refused = w.refused := rfl
@[simp] theorem Wave.setS_dirty (n : Nat) (x : Word) : (w.setS n x).dirty = w.dirty := rfl

@[simp] theorem Wave.setP_uid (n l : Nat) (x : Byte) : (w.setP n l x).uid = w.uid := rfl
@[simp] theorem Wave.setP_lid (n l : Nat) (x : Byte) : (w.setP n l x).lid = w.lid := rfl
@[simp] theorem Wave.setP_bid (n l : Nat) (x : Byte) : (w.setP n l x).bid = w.bid := rfl
@[simp] theorem Wave.setP_run (n l : Nat) (x : Byte) : (w.setP n l x).run = w.run := rfl
@[simp] theorem Wave.setP_fn (n l : Nat) (x : Byte) : (w.setP n l x).fn = w.fn := rfl
@[simp] theorem Wave.setP_ctx (n l : Nat) (x : Byte) : (w.setP n l x).ctx = w.ctx := rfl
@[simp] theorem Wave.setP_core (n l : Nat) (x : Byte) : (w.setP n l x).core = w.core := rfl
@[simp] theorem Wave.setP_part (n l : Nat) (x : Byte) : (w.setP n l x).part = w.part := rfl
@[simp] theorem Wave.setP_wslot (n l : Nat) (x : Byte) : (w.setP n l x).wslot = w.wslot := rfl
@[simp] theorem Wave.setP_waveId (n l : Nat) (x : Byte) : (w.setP n l x).waveId = w.waveId := rfl
@[simp] theorem Wave.setP_role (n l : Nat) (x : Byte) : (w.setP n l x).role = w.role := rfl
@[simp] theorem Wave.setP_budget (n l : Nat) (x : Byte) : (w.setP n l x).budget = w.budget := rfl
@[simp] theorem Wave.setP_placedAt (n l : Nat) (x : Byte) : (w.setP n l x).placedAt = w.placedAt := rfl
@[simp] theorem Wave.setP_saveSlot (n l : Nat) (x : Byte) : (w.setP n l x).saveSlot = w.saveSlot := rfl
@[simp] theorem Wave.setP_v (n l : Nat) (x : Byte) : (w.setP n l x).v = w.v := rfl
@[simp] theorem Wave.setP_s (n l : Nat) (x : Byte) : (w.setP n l x).s = w.s := rfl
@[simp] theorem Wave.setP_mode (n l : Nat) (x : Byte) : (w.setP n l x).mode = w.mode := rfl
@[simp] theorem Wave.setP_flags (n l : Nat) (x : Byte) : (w.setP n l x).flags = w.flags := rfl
@[simp] theorem Wave.setP_rep (n l : Nat) (x : Byte) : (w.setP n l x).rep = w.rep := rfl
@[simp] theorem Wave.setP_regions (n l : Nat) (x : Byte) : (w.setP n l x).regions = w.regions := rfl
@[simp] theorem Wave.setP_places (n l : Nat) (x : Byte) : (w.setP n l x).places = w.places := rfl
@[simp] theorem Wave.setP_stack (n l : Nat) (x : Byte) : (w.setP n l x).stack = w.stack := rfl
@[simp] theorem Wave.setP_lastSlot (n l : Nat) (x : Byte) : (w.setP n l x).lastSlot = w.lastSlot := rfl
@[simp] theorem Wave.setP_nextSeq (n l : Nat) (x : Byte) : (w.setP n l x).nextSeq = w.nextSeq := rfl
@[simp] theorem Wave.setP_pending (n l : Nat) (x : Byte) : (w.setP n l x).pending = w.pending := rfl
@[simp] theorem Wave.setP_log (n l : Nat) (x : Byte) : (w.setP n l x).log = w.log := rfl
@[simp] theorem Wave.setP_held (n l : Nat) (x : Byte) : (w.setP n l x).held = w.held := rfl
@[simp] theorem Wave.setP_sets (n l : Nat) (x : Byte) : (w.setP n l x).sets = w.sets := rfl
@[simp] theorem Wave.setP_arrivals (n l : Nat) (x : Byte) : (w.setP n l x).arrivals = w.arrivals := rfl
@[simp] theorem Wave.setP_guardRep (n l : Nat) (x : Byte) : (w.setP n l x).guardRep = w.guardRep := rfl
@[simp] theorem Wave.setP_cellReps (n l : Nat) (x : Byte) : (w.setP n l x).cellReps = w.cellReps := rfl
@[simp] theorem Wave.setP_perm (n l : Nat) (x : Byte) : (w.setP n l x).perm = w.perm := rfl
@[simp] theorem Wave.setP_fmt (n l : Nat) (x : Byte) : (w.setP n l x).fmt = w.fmt := rfl
@[simp] theorem Wave.setP_batches (n l : Nat) (x : Byte) : (w.setP n l x).batches = w.batches := rfl
@[simp] theorem Wave.setP_looseContribs (n l : Nat) (x : Byte) : (w.setP n l x).looseContribs = w.looseContribs := rfl
@[simp] theorem Wave.setP_liveContribs (n l : Nat) (x : Byte) : (w.setP n l x).liveContribs = w.liveContribs := rfl
@[simp] theorem Wave.setP_reservation (n l : Nat) (x : Byte) : (w.setP n l x).reservation = w.reservation := rfl
@[simp] theorem Wave.setP_tx (n l : Nat) (x : Byte) : (w.setP n l x).tx = w.tx := rfl
@[simp] theorem Wave.setP_elisions (n l : Nat) (x : Byte) : (w.setP n l x).elisions = w.elisions := rfl
@[simp] theorem Wave.setP_fences (n l : Nat) (x : Byte) : (w.setP n l x).fences = w.fences := rfl
@[simp] theorem Wave.setP_pinAsked (n l : Nat) (x : Byte) : (w.setP n l x).pinAsked = w.pinAsked := rfl
@[simp] theorem Wave.setP_pinMade (n l : Nat) (x : Byte) : (w.setP n l x).pinMade = w.pinMade := rfl
@[simp] theorem Wave.setP_brokenPins (n l : Nat) (x : Byte) : (w.setP n l x).brokenPins = w.brokenPins := rfl
@[simp] theorem Wave.setP_haltPending (n l : Nat) (x : Byte) : (w.setP n l x).haltPending = w.haltPending := rfl
@[simp] theorem Wave.setP_watchStop (n l : Nat) (x : Byte) : (w.setP n l x).watchStop = w.watchStop := rfl
@[simp] theorem Wave.setP_traceStop (n l : Nat) (x : Byte) : (w.setP n l x).traceStop = w.traceStop := rfl
@[simp] theorem Wave.setP_leaving (n l : Nat) (x : Byte) : (w.setP n l x).leaving = w.leaving := rfl
@[simp] theorem Wave.setP_ownSS (n l : Nat) (x : Byte) : (w.setP n l x).ownSS = w.ownSS := rfl
@[simp] theorem Wave.setP_delivered (n l : Nat) (x : Byte) : (w.setP n l x).delivered = w.delivered := rfl
@[simp] theorem Wave.setP_refused (n l : Nat) (x : Byte) : (w.setP n l x).refused = w.refused := rfl
@[simp] theorem Wave.setP_dirty (n l : Nat) (x : Byte) : (w.setP n l x).dirty = w.dirty := rfl

@[simp] theorem Wave.raise_uid (n : Nat) : (w.raise n).uid = w.uid := by unfold Wave.raise; split <;> rfl
@[simp] theorem Wave.raise_lid (n : Nat) : (w.raise n).lid = w.lid := by unfold Wave.raise; split <;> rfl
@[simp] theorem Wave.raise_bid (n : Nat) : (w.raise n).bid = w.bid := by unfold Wave.raise; split <;> rfl
@[simp] theorem Wave.raise_run (n : Nat) : (w.raise n).run = w.run := by unfold Wave.raise; split <;> rfl
@[simp] theorem Wave.raise_fn (n : Nat) : (w.raise n).fn = w.fn := by unfold Wave.raise; split <;> rfl
@[simp] theorem Wave.raise_ctx (n : Nat) : (w.raise n).ctx = w.ctx := by unfold Wave.raise; split <;> rfl
@[simp] theorem Wave.raise_core (n : Nat) : (w.raise n).core = w.core := by unfold Wave.raise; split <;> rfl
@[simp] theorem Wave.raise_part (n : Nat) : (w.raise n).part = w.part := by unfold Wave.raise; split <;> rfl
@[simp] theorem Wave.raise_wslot (n : Nat) : (w.raise n).wslot = w.wslot := by unfold Wave.raise; split <;> rfl
@[simp] theorem Wave.raise_waveId (n : Nat) : (w.raise n).waveId = w.waveId := by unfold Wave.raise; split <;> rfl
@[simp] theorem Wave.raise_role (n : Nat) : (w.raise n).role = w.role := by unfold Wave.raise; split <;> rfl
@[simp] theorem Wave.raise_budget (n : Nat) : (w.raise n).budget = w.budget := by unfold Wave.raise; split <;> rfl
@[simp] theorem Wave.raise_placedAt (n : Nat) : (w.raise n).placedAt = w.placedAt := by unfold Wave.raise; split <;> rfl
@[simp] theorem Wave.raise_saveSlot (n : Nat) : (w.raise n).saveSlot = w.saveSlot := by unfold Wave.raise; split <;> rfl
@[simp] theorem Wave.raise_v (n : Nat) : (w.raise n).v = w.v := by unfold Wave.raise; split <;> rfl
@[simp] theorem Wave.raise_s (n : Nat) : (w.raise n).s = w.s := by unfold Wave.raise; split <;> rfl
@[simp] theorem Wave.raise_p (n : Nat) : (w.raise n).p = w.p := by unfold Wave.raise; split <;> rfl
@[simp] theorem Wave.raise_mode (n : Nat) : (w.raise n).mode = w.mode := by unfold Wave.raise; split <;> rfl
@[simp] theorem Wave.raise_rep (n : Nat) : (w.raise n).rep = w.rep := by unfold Wave.raise; split <;> rfl
@[simp] theorem Wave.raise_regions (n : Nat) : (w.raise n).regions = w.regions := by unfold Wave.raise; split <;> rfl
@[simp] theorem Wave.raise_places (n : Nat) : (w.raise n).places = w.places := by unfold Wave.raise; split <;> rfl
@[simp] theorem Wave.raise_stack (n : Nat) : (w.raise n).stack = w.stack := by unfold Wave.raise; split <;> rfl
@[simp] theorem Wave.raise_lastSlot (n : Nat) : (w.raise n).lastSlot = w.lastSlot := by unfold Wave.raise; split <;> rfl
@[simp] theorem Wave.raise_nextSeq (n : Nat) : (w.raise n).nextSeq = w.nextSeq := by unfold Wave.raise; split <;> rfl
@[simp] theorem Wave.raise_pending (n : Nat) : (w.raise n).pending = w.pending := by unfold Wave.raise; split <;> rfl
@[simp] theorem Wave.raise_log (n : Nat) : (w.raise n).log = w.log := by unfold Wave.raise; split <;> rfl
@[simp] theorem Wave.raise_held (n : Nat) : (w.raise n).held = w.held := by unfold Wave.raise; split <;> rfl
@[simp] theorem Wave.raise_sets (n : Nat) : (w.raise n).sets = w.sets := by unfold Wave.raise; split <;> rfl
@[simp] theorem Wave.raise_arrivals (n : Nat) : (w.raise n).arrivals = w.arrivals := by unfold Wave.raise; split <;> rfl
@[simp] theorem Wave.raise_guardRep (n : Nat) : (w.raise n).guardRep = w.guardRep := by unfold Wave.raise; split <;> rfl
@[simp] theorem Wave.raise_cellReps (n : Nat) : (w.raise n).cellReps = w.cellReps := by unfold Wave.raise; split <;> rfl
@[simp] theorem Wave.raise_perm (n : Nat) : (w.raise n).perm = w.perm := by unfold Wave.raise; split <;> rfl
@[simp] theorem Wave.raise_fmt (n : Nat) : (w.raise n).fmt = w.fmt := by unfold Wave.raise; split <;> rfl
@[simp] theorem Wave.raise_batches (n : Nat) : (w.raise n).batches = w.batches := by unfold Wave.raise; split <;> rfl
@[simp] theorem Wave.raise_looseContribs (n : Nat) : (w.raise n).looseContribs = w.looseContribs := by unfold Wave.raise; split <;> rfl
@[simp] theorem Wave.raise_liveContribs (n : Nat) : (w.raise n).liveContribs = w.liveContribs := by unfold Wave.raise; split <;> rfl
@[simp] theorem Wave.raise_reservation (n : Nat) : (w.raise n).reservation = w.reservation := by unfold Wave.raise; split <;> rfl
@[simp] theorem Wave.raise_tx (n : Nat) : (w.raise n).tx = w.tx := by unfold Wave.raise; split <;> rfl
@[simp] theorem Wave.raise_elisions (n : Nat) : (w.raise n).elisions = w.elisions := by unfold Wave.raise; split <;> rfl
@[simp] theorem Wave.raise_fences (n : Nat) : (w.raise n).fences = w.fences := by unfold Wave.raise; split <;> rfl
@[simp] theorem Wave.raise_pinAsked (n : Nat) : (w.raise n).pinAsked = w.pinAsked := by unfold Wave.raise; split <;> rfl
@[simp] theorem Wave.raise_pinMade (n : Nat) : (w.raise n).pinMade = w.pinMade := by unfold Wave.raise; split <;> rfl
@[simp] theorem Wave.raise_brokenPins (n : Nat) : (w.raise n).brokenPins = w.brokenPins := by unfold Wave.raise; split <;> rfl
@[simp] theorem Wave.raise_haltPending (n : Nat) : (w.raise n).haltPending = w.haltPending := by unfold Wave.raise; split <;> rfl
@[simp] theorem Wave.raise_watchStop (n : Nat) : (w.raise n).watchStop = w.watchStop := by unfold Wave.raise; split <;> rfl
@[simp] theorem Wave.raise_traceStop (n : Nat) : (w.raise n).traceStop = w.traceStop := by unfold Wave.raise; split <;> rfl
@[simp] theorem Wave.raise_leaving (n : Nat) : (w.raise n).leaving = w.leaving := by unfold Wave.raise; split <;> rfl
@[simp] theorem Wave.raise_ownSS (n : Nat) : (w.raise n).ownSS = w.ownSS := by unfold Wave.raise; split <;> rfl
@[simp] theorem Wave.raise_delivered (n : Nat) : (w.raise n).delivered = w.delivered := by unfold Wave.raise; split <;> rfl
@[simp] theorem Wave.raise_refused (n : Nat) : (w.raise n).refused = w.refused := by unfold Wave.raise; split <;> rfl
@[simp] theorem Wave.raise_dirty (n : Nat) : (w.raise n).dirty = w.dirty := by unfold Wave.raise; split <;> rfl

@[simp] theorem Wave.lower_uid (n : Nat) : (w.lower n).uid = w.uid := by unfold Wave.lower; split <;> rfl
@[simp] theorem Wave.lower_lid (n : Nat) : (w.lower n).lid = w.lid := by unfold Wave.lower; split <;> rfl
@[simp] theorem Wave.lower_bid (n : Nat) : (w.lower n).bid = w.bid := by unfold Wave.lower; split <;> rfl
@[simp] theorem Wave.lower_run (n : Nat) : (w.lower n).run = w.run := by unfold Wave.lower; split <;> rfl
@[simp] theorem Wave.lower_fn (n : Nat) : (w.lower n).fn = w.fn := by unfold Wave.lower; split <;> rfl
@[simp] theorem Wave.lower_ctx (n : Nat) : (w.lower n).ctx = w.ctx := by unfold Wave.lower; split <;> rfl
@[simp] theorem Wave.lower_core (n : Nat) : (w.lower n).core = w.core := by unfold Wave.lower; split <;> rfl
@[simp] theorem Wave.lower_part (n : Nat) : (w.lower n).part = w.part := by unfold Wave.lower; split <;> rfl
@[simp] theorem Wave.lower_wslot (n : Nat) : (w.lower n).wslot = w.wslot := by unfold Wave.lower; split <;> rfl
@[simp] theorem Wave.lower_waveId (n : Nat) : (w.lower n).waveId = w.waveId := by unfold Wave.lower; split <;> rfl
@[simp] theorem Wave.lower_role (n : Nat) : (w.lower n).role = w.role := by unfold Wave.lower; split <;> rfl
@[simp] theorem Wave.lower_budget (n : Nat) : (w.lower n).budget = w.budget := by unfold Wave.lower; split <;> rfl
@[simp] theorem Wave.lower_placedAt (n : Nat) : (w.lower n).placedAt = w.placedAt := by unfold Wave.lower; split <;> rfl
@[simp] theorem Wave.lower_saveSlot (n : Nat) : (w.lower n).saveSlot = w.saveSlot := by unfold Wave.lower; split <;> rfl
@[simp] theorem Wave.lower_v (n : Nat) : (w.lower n).v = w.v := by unfold Wave.lower; split <;> rfl
@[simp] theorem Wave.lower_s (n : Nat) : (w.lower n).s = w.s := by unfold Wave.lower; split <;> rfl
@[simp] theorem Wave.lower_p (n : Nat) : (w.lower n).p = w.p := by unfold Wave.lower; split <;> rfl
@[simp] theorem Wave.lower_mode (n : Nat) : (w.lower n).mode = w.mode := by unfold Wave.lower; split <;> rfl
@[simp] theorem Wave.lower_rep (n : Nat) : (w.lower n).rep = w.rep := by unfold Wave.lower; split <;> rfl
@[simp] theorem Wave.lower_regions (n : Nat) : (w.lower n).regions = w.regions := by unfold Wave.lower; split <;> rfl
@[simp] theorem Wave.lower_places (n : Nat) : (w.lower n).places = w.places := by unfold Wave.lower; split <;> rfl
@[simp] theorem Wave.lower_stack (n : Nat) : (w.lower n).stack = w.stack := by unfold Wave.lower; split <;> rfl
@[simp] theorem Wave.lower_lastSlot (n : Nat) : (w.lower n).lastSlot = w.lastSlot := by unfold Wave.lower; split <;> rfl
@[simp] theorem Wave.lower_nextSeq (n : Nat) : (w.lower n).nextSeq = w.nextSeq := by unfold Wave.lower; split <;> rfl
@[simp] theorem Wave.lower_pending (n : Nat) : (w.lower n).pending = w.pending := by unfold Wave.lower; split <;> rfl
@[simp] theorem Wave.lower_log (n : Nat) : (w.lower n).log = w.log := by unfold Wave.lower; split <;> rfl
@[simp] theorem Wave.lower_held (n : Nat) : (w.lower n).held = w.held := by unfold Wave.lower; split <;> rfl
@[simp] theorem Wave.lower_sets (n : Nat) : (w.lower n).sets = w.sets := by unfold Wave.lower; split <;> rfl
@[simp] theorem Wave.lower_arrivals (n : Nat) : (w.lower n).arrivals = w.arrivals := by unfold Wave.lower; split <;> rfl
@[simp] theorem Wave.lower_guardRep (n : Nat) : (w.lower n).guardRep = w.guardRep := by unfold Wave.lower; split <;> rfl
@[simp] theorem Wave.lower_cellReps (n : Nat) : (w.lower n).cellReps = w.cellReps := by unfold Wave.lower; split <;> rfl
@[simp] theorem Wave.lower_perm (n : Nat) : (w.lower n).perm = w.perm := by unfold Wave.lower; split <;> rfl
@[simp] theorem Wave.lower_fmt (n : Nat) : (w.lower n).fmt = w.fmt := by unfold Wave.lower; split <;> rfl
@[simp] theorem Wave.lower_batches (n : Nat) : (w.lower n).batches = w.batches := by unfold Wave.lower; split <;> rfl
@[simp] theorem Wave.lower_looseContribs (n : Nat) : (w.lower n).looseContribs = w.looseContribs := by unfold Wave.lower; split <;> rfl
@[simp] theorem Wave.lower_liveContribs (n : Nat) : (w.lower n).liveContribs = w.liveContribs := by unfold Wave.lower; split <;> rfl
@[simp] theorem Wave.lower_reservation (n : Nat) : (w.lower n).reservation = w.reservation := by unfold Wave.lower; split <;> rfl
@[simp] theorem Wave.lower_tx (n : Nat) : (w.lower n).tx = w.tx := by unfold Wave.lower; split <;> rfl
@[simp] theorem Wave.lower_elisions (n : Nat) : (w.lower n).elisions = w.elisions := by unfold Wave.lower; split <;> rfl
@[simp] theorem Wave.lower_fences (n : Nat) : (w.lower n).fences = w.fences := by unfold Wave.lower; split <;> rfl
@[simp] theorem Wave.lower_pinAsked (n : Nat) : (w.lower n).pinAsked = w.pinAsked := by unfold Wave.lower; split <;> rfl
@[simp] theorem Wave.lower_pinMade (n : Nat) : (w.lower n).pinMade = w.pinMade := by unfold Wave.lower; split <;> rfl
@[simp] theorem Wave.lower_brokenPins (n : Nat) : (w.lower n).brokenPins = w.brokenPins := by unfold Wave.lower; split <;> rfl
@[simp] theorem Wave.lower_haltPending (n : Nat) : (w.lower n).haltPending = w.haltPending := by unfold Wave.lower; split <;> rfl
@[simp] theorem Wave.lower_watchStop (n : Nat) : (w.lower n).watchStop = w.watchStop := by unfold Wave.lower; split <;> rfl
@[simp] theorem Wave.lower_traceStop (n : Nat) : (w.lower n).traceStop = w.traceStop := by unfold Wave.lower; split <;> rfl
@[simp] theorem Wave.lower_leaving (n : Nat) : (w.lower n).leaving = w.leaving := by unfold Wave.lower; split <;> rfl
@[simp] theorem Wave.lower_ownSS (n : Nat) : (w.lower n).ownSS = w.ownSS := by unfold Wave.lower; split <;> rfl
@[simp] theorem Wave.lower_delivered (n : Nat) : (w.lower n).delivered = w.delivered := by unfold Wave.lower; split <;> rfl
@[simp] theorem Wave.lower_refused (n : Nat) : (w.lower n).refused = w.refused := by unfold Wave.lower; split <;> rfl
@[simp] theorem Wave.lower_dirty (n : Nat) : (w.lower n).dirty = w.dirty := by unfold Wave.lower; split <;> rfl

@[simp] theorem Wave.modPath_uid (n : Nat) (f : Path → Path) : (w.modPath n f).uid = w.uid := by
  unfold Wave.modPath; split <;> rfl
@[simp] theorem Wave.modPath_lid (n : Nat) (f : Path → Path) : (w.modPath n f).lid = w.lid := by
  unfold Wave.modPath; split <;> rfl
@[simp] theorem Wave.modPath_bid (n : Nat) (f : Path → Path) : (w.modPath n f).bid = w.bid := by
  unfold Wave.modPath; split <;> rfl
@[simp] theorem Wave.modPath_run (n : Nat) (f : Path → Path) : (w.modPath n f).run = w.run := by
  unfold Wave.modPath; split <;> rfl
@[simp] theorem Wave.modPath_fn (n : Nat) (f : Path → Path) : (w.modPath n f).fn = w.fn := by
  unfold Wave.modPath; split <;> rfl
@[simp] theorem Wave.modPath_ctx (n : Nat) (f : Path → Path) : (w.modPath n f).ctx = w.ctx := by
  unfold Wave.modPath; split <;> rfl
@[simp] theorem Wave.modPath_core (n : Nat) (f : Path → Path) : (w.modPath n f).core = w.core := by
  unfold Wave.modPath; split <;> rfl
@[simp] theorem Wave.modPath_part (n : Nat) (f : Path → Path) : (w.modPath n f).part = w.part := by
  unfold Wave.modPath; split <;> rfl
@[simp] theorem Wave.modPath_wslot (n : Nat) (f : Path → Path) : (w.modPath n f).wslot = w.wslot := by
  unfold Wave.modPath; split <;> rfl
@[simp] theorem Wave.modPath_waveId (n : Nat) (f : Path → Path) : (w.modPath n f).waveId = w.waveId := by
  unfold Wave.modPath; split <;> rfl
@[simp] theorem Wave.modPath_role (n : Nat) (f : Path → Path) : (w.modPath n f).role = w.role := by
  unfold Wave.modPath; split <;> rfl
@[simp] theorem Wave.modPath_budget (n : Nat) (f : Path → Path) : (w.modPath n f).budget = w.budget := by
  unfold Wave.modPath; split <;> rfl
@[simp] theorem Wave.modPath_placedAt (n : Nat) (f : Path → Path) : (w.modPath n f).placedAt = w.placedAt := by
  unfold Wave.modPath; split <;> rfl
@[simp] theorem Wave.modPath_saveSlot (n : Nat) (f : Path → Path) : (w.modPath n f).saveSlot = w.saveSlot := by
  unfold Wave.modPath; split <;> rfl
@[simp] theorem Wave.modPath_v (n : Nat) (f : Path → Path) : (w.modPath n f).v = w.v := by
  unfold Wave.modPath; split <;> rfl
@[simp] theorem Wave.modPath_s (n : Nat) (f : Path → Path) : (w.modPath n f).s = w.s := by
  unfold Wave.modPath; split <;> rfl
@[simp] theorem Wave.modPath_p (n : Nat) (f : Path → Path) : (w.modPath n f).p = w.p := by
  unfold Wave.modPath; split <;> rfl
@[simp] theorem Wave.modPath_mode (n : Nat) (f : Path → Path) : (w.modPath n f).mode = w.mode := by
  unfold Wave.modPath; split <;> rfl
@[simp] theorem Wave.modPath_flags (n : Nat) (f : Path → Path) : (w.modPath n f).flags = w.flags := by
  unfold Wave.modPath; split <;> rfl
@[simp] theorem Wave.modPath_rep (n : Nat) (f : Path → Path) : (w.modPath n f).rep = w.rep := by
  unfold Wave.modPath; split <;> rfl
@[simp] theorem Wave.modPath_regions (n : Nat) (f : Path → Path) : (w.modPath n f).regions = w.regions := by
  unfold Wave.modPath; split <;> rfl
@[simp] theorem Wave.modPath_stack (n : Nat) (f : Path → Path) : (w.modPath n f).stack = w.stack := by
  unfold Wave.modPath; split <;> rfl
@[simp] theorem Wave.modPath_lastSlot (n : Nat) (f : Path → Path) : (w.modPath n f).lastSlot = w.lastSlot := by
  unfold Wave.modPath; split <;> rfl
@[simp] theorem Wave.modPath_nextSeq (n : Nat) (f : Path → Path) : (w.modPath n f).nextSeq = w.nextSeq := by
  unfold Wave.modPath; split <;> rfl
@[simp] theorem Wave.modPath_pending (n : Nat) (f : Path → Path) : (w.modPath n f).pending = w.pending := by
  unfold Wave.modPath; split <;> rfl
@[simp] theorem Wave.modPath_log (n : Nat) (f : Path → Path) : (w.modPath n f).log = w.log := by
  unfold Wave.modPath; split <;> rfl
@[simp] theorem Wave.modPath_held (n : Nat) (f : Path → Path) : (w.modPath n f).held = w.held := by
  unfold Wave.modPath; split <;> rfl
@[simp] theorem Wave.modPath_sets (n : Nat) (f : Path → Path) : (w.modPath n f).sets = w.sets := by
  unfold Wave.modPath; split <;> rfl
@[simp] theorem Wave.modPath_arrivals (n : Nat) (f : Path → Path) : (w.modPath n f).arrivals = w.arrivals := by
  unfold Wave.modPath; split <;> rfl
@[simp] theorem Wave.modPath_guardRep (n : Nat) (f : Path → Path) : (w.modPath n f).guardRep = w.guardRep := by
  unfold Wave.modPath; split <;> rfl
@[simp] theorem Wave.modPath_cellReps (n : Nat) (f : Path → Path) : (w.modPath n f).cellReps = w.cellReps := by
  unfold Wave.modPath; split <;> rfl
@[simp] theorem Wave.modPath_perm (n : Nat) (f : Path → Path) : (w.modPath n f).perm = w.perm := by
  unfold Wave.modPath; split <;> rfl
@[simp] theorem Wave.modPath_fmt (n : Nat) (f : Path → Path) : (w.modPath n f).fmt = w.fmt := by
  unfold Wave.modPath; split <;> rfl
@[simp] theorem Wave.modPath_batches (n : Nat) (f : Path → Path) : (w.modPath n f).batches = w.batches := by
  unfold Wave.modPath; split <;> rfl
@[simp] theorem Wave.modPath_looseContribs (n : Nat) (f : Path → Path) : (w.modPath n f).looseContribs = w.looseContribs := by
  unfold Wave.modPath; split <;> rfl
@[simp] theorem Wave.modPath_liveContribs (n : Nat) (f : Path → Path) : (w.modPath n f).liveContribs = w.liveContribs := by
  unfold Wave.modPath; split <;> rfl
@[simp] theorem Wave.modPath_reservation (n : Nat) (f : Path → Path) : (w.modPath n f).reservation = w.reservation := by
  unfold Wave.modPath; split <;> rfl
@[simp] theorem Wave.modPath_tx (n : Nat) (f : Path → Path) : (w.modPath n f).tx = w.tx := by
  unfold Wave.modPath; split <;> rfl
@[simp] theorem Wave.modPath_elisions (n : Nat) (f : Path → Path) : (w.modPath n f).elisions = w.elisions := by
  unfold Wave.modPath; split <;> rfl
@[simp] theorem Wave.modPath_fences (n : Nat) (f : Path → Path) : (w.modPath n f).fences = w.fences := by
  unfold Wave.modPath; split <;> rfl
@[simp] theorem Wave.modPath_pinAsked (n : Nat) (f : Path → Path) : (w.modPath n f).pinAsked = w.pinAsked := by
  unfold Wave.modPath; split <;> rfl
@[simp] theorem Wave.modPath_pinMade (n : Nat) (f : Path → Path) : (w.modPath n f).pinMade = w.pinMade := by
  unfold Wave.modPath; split <;> rfl
@[simp] theorem Wave.modPath_brokenPins (n : Nat) (f : Path → Path) : (w.modPath n f).brokenPins = w.brokenPins := by
  unfold Wave.modPath; split <;> rfl
@[simp] theorem Wave.modPath_haltPending (n : Nat) (f : Path → Path) : (w.modPath n f).haltPending = w.haltPending := by
  unfold Wave.modPath; split <;> rfl
@[simp] theorem Wave.modPath_watchStop (n : Nat) (f : Path → Path) : (w.modPath n f).watchStop = w.watchStop := by
  unfold Wave.modPath; split <;> rfl
@[simp] theorem Wave.modPath_traceStop (n : Nat) (f : Path → Path) : (w.modPath n f).traceStop = w.traceStop := by
  unfold Wave.modPath; split <;> rfl
@[simp] theorem Wave.modPath_leaving (n : Nat) (f : Path → Path) : (w.modPath n f).leaving = w.leaving := by
  unfold Wave.modPath; split <;> rfl
@[simp] theorem Wave.modPath_ownSS (n : Nat) (f : Path → Path) : (w.modPath n f).ownSS = w.ownSS := by
  unfold Wave.modPath; split <;> rfl
@[simp] theorem Wave.modPath_delivered (n : Nat) (f : Path → Path) : (w.modPath n f).delivered = w.delivered := by
  unfold Wave.modPath; split <;> rfl
@[simp] theorem Wave.modPath_refused (n : Nat) (f : Path → Path) : (w.modPath n f).refused = w.refused := by
  unfold Wave.modPath; split <;> rfl
@[simp] theorem Wave.modPath_dirty (n : Nat) (f : Path → Path) : (w.modPath n f).dirty = w.dirty := by
  unfold Wave.modPath; split <;> rfl

end Sys2Proof.Machine
end

