-- ==== Sys2Proof/Laws/Issue.lean ====
section
/-! SUPPORT. What running one issued instruction can do, said once: the outcomes of `runInstr`, and what the accounts of an
issue, the path's advance and a pending completion leave of the state. -/

namespace Sys2Proof.Machine

/-! ## The issuer -/

/-- The issuer is a resident wave, its path and the armed issue. -/
theorem env?_some {s : State} {e : Env} (h : env? s = some e) :
    s.issue = some e.iss ∧ s.wave? e.iss.uid = some e.w ∧ mfind e.w.places e.iss.place = some e.p ∧
      e.et = modeEtype e.w.mode ∧ e.clock = s.clock := by
  unfold env? at h
  split at h
  · cases h
  · split at h
    · cases h
    · split at h
      · cases h
      · cases h; exact ⟨by assumption, by assumption, by assumption, rfl, rfl⟩

theorem wave?_uid {s : State} {u : Nat} {w : Wave} (h : s.wave? u = some w) : w.uid = u := by
  have := List.find?_some h; simpa using this

theorem env?_uid {s : State} {e : Env} (h : env? s = some e) : e.w.uid = e.iss.uid := wave?_uid (env?_some h).2.1

theorem env?_wave {s : State} {e : Env} (h : env? s = some e) : s.wave? e.w.uid = some e.w := by
  rw [env?_uid h]; exact (env?_some h).2.1

/-! ## The waves of a state -/

theorem wave?_modWave (s : State) (u v : Nat) (f : Wave → Wave) (hf : ∀ w, (f w).uid = w.uid) :
    (s.modWave u f).wave? v = (s.wave? v).map fun w => if w.uid = u then f w else w := by
  simp only [State.wave?, State.modWave_waves]
  induction s.waves with
  | nil => rfl
  | cons w ws ih =>
    by_cases hu : w.uid = u
    · by_cases hv : w.uid = v
      · have : (f w).uid = v := by rw [hf]; exact hv
        simp [hu, this]
        simp_all
      · have : ¬ (f w).uid = v := by rw [hf]; exact hv
        simp_all
    · by_cases hv : w.uid = v
      · simp_all
      · simp_all

theorem wave?_setWave (s : State) (w : Wave) (v : Nat) :
    (s.setWave w).wave? v = (s.wave? v).map fun x => if x.uid = w.uid then w else x := by
  simp only [State.wave?, State.setWave_waves]
  induction s.waves with
  | nil => rfl
  | cons x ws ih =>
    by_cases hu : x.uid = w.uid
    · by_cases hv : w.uid = v <;> simp_all
    · by_cases hv : x.uid = v <;> simp_all

/-! ## Running an instruction -/

variable {s : State} {e : Env} {i : Instr} {body : Env → State → Effect}

theorem runInstr_noIssuer (h : env? s = none) : runInstr i s body = .refused .noIssuer := by
  simp [runInstr, h]

theorem runInstr_done {t : State} (h : env? s = some e) (hp : preCheck e i = none) (hb : body e (past i s e) = .done t) :
    runInstr i s body = .next t := by
  simp only [past] at hb
  simp [runInstr, h, hp, hb]

theorem runInstr_trap {c : Cause} {lanes : Option Mask} {addr detail : Word} (h : env? s = some e)
    (hp : preCheck e i = none) (hb : body e (past i s e) = .trap c lanes addr detail) :
    runInstr i s body = .next (takeTrap (account s e i.scalarForm) e i.takesLiteral c lanes addr detail) := by
  simp only [past] at hb
  simp [runInstr, h, hp, hb]

/-- A check of R67 that fails is the instruction's trap, whatever the instruction. -/
theorem runInstr_check {c : Cause} (h : env? s = some e) (hp : preCheck e i = some c) :
    runInstr i s body = .next (takeTrap (account s e i.scalarForm) e i.takesLiteral c none 0 0) := by
  simp [runInstr, h, hp]

/-- An instruction never stops the machine: with an issuer it answers a next state. -/
theorem runInstr_next (h : env? s = some e) : ∃ t, runInstr i s body = .next t := by
  unfold runInstr
  simp only [h]
  split
  · exact ⟨_, rfl⟩
  · split <;> (try exact ⟨_, rfl⟩)
    split <;> (try exact ⟨_, rfl⟩)
    split <;> exact ⟨_, rfl⟩

theorem runInstr_not_fault (r : Fault) : runInstr i s body ≠ .fault r := by
  cases h : env? s with
  | none => rw [runInstr_noIssuer h]; exact fun h => nomatch h
  | some e => obtain ⟨t, ht⟩ := runInstr_next (i := i) (body := body) h; rw [ht]; exact fun h => nomatch h

/-! ## What the accounts and the advance leave -/

theorem modPath_eq (w : Wave) (n : Nat) (f : Path → Path) : w.modPath n f = { w with places := (w.modPath n f).places } := by
  unfold Wave.modPath; split <;> rfl

/-- The state of an issue's accounts, whatever they are. -/
theorem charged_eq (s : State) (k : Nat) (g : Grove) (c p : Nat) (x : Part) (ws : List Wave) (t : State)
    (h : t = { ((s.setGrove k g).setPart c p x) with issue := none, waves := ws }) :
    t = { s with issue := none, groves := t.groves, parts := t.parts, waves := t.waves } := by subst h; rfl

theorem account_eq (s : State) (e : Env) (sc : Bool) :
    account s e sc = { s with
      issue := none, groves := (account s e sc).groves, parts := (account s e sc).parts, waves := (account s e sc).waves } := by
  exact charged_eq s _ _ _ _ _ _ _ rfl

theorem advance_eq (s : State) (e : Env) (lit : Bool) :
    advance s e lit = { s with waves := (advance s e lit).waves } := rfl

theorem followed_eq (s a : State) (ws : List Wave)
    (ha : a = { s with issue := none, groves := a.groves, parts := a.parts, waves := a.waves }) :
    ({ a with waves := ws } : State) = { s with issue := none, groves := a.groves, parts := a.parts, waves := ws } := by
  conv_lhs => rw [ha]

theorem past_eq (i : Instr) (s : State) (e : Env) :
    past i s e = { s with
      issue := none, groves := (past i s e).groves, parts := (past i s e).parts, waves := (past i s e).waves } := by
  have hp : past i s e = advance (account s e i.scalarForm) e i.takesLiteral := rfl
  rw [hp]
  generalize account s e i.scalarForm = a, account_eq s e i.scalarForm = ha
  have hg : (advance a e i.takesLiteral).groves = a.groves := by rw [advance_eq]
  have hr : (advance a e i.takesLiteral).parts = a.parts := by rw [advance_eq]
  rw [hg, hr, ← followed_eq s a _ ha]
  exact advance_eq a e _

theorem accepted_keeps (w : Wave) (r : Refuser) (n : Nat) (f : Path → Path) (k : Nat) :
    keepsWave w { ((w.accepted r).modPath n f) with lastSlot := k } := by
  unfold keepsWave; rw [modPath_eq]; rfl

theorem account_wave (h : env? s = some e) (sc : Bool) :
    ∃ w', (account s e sc).wave? e.w.uid = some w' ∧ keepsWave e.w w' := by
  have hw := env?_wave h
  have key : ∀ (ws : List Wave) (w1 : Wave), w1.uid = e.w.uid → ws.find? (fun w => w.uid == e.w.uid) = some e.w →
      (ws.map fun x => if x.uid == e.w.uid then w1 else x).find? (fun w => w.uid == e.w.uid) = some w1 := by
    intro ws w1 h1 hf
    induction ws with
    | nil => simp at hf
    | cons x ws ih =>
      by_cases hx : x.uid = e.w.uid
      · simp [hx, h1]
      · simp_all
  have h1 : (account s e sc).waves = s.waves.map (fun x => if x.uid == e.w.uid then issuedWave s e else x) := rfl
  have h2 : keepsWave e.w (issuedWave s e) := accepted_keeps ..
  have h3 : (issuedWave s e).uid = e.w.uid := by rw [h2]
  exact ⟨_, by unfold State.wave?; rw [h1]; exact key s.waves _ h3 hw, h2⟩

theorem advance_wave {u : Nat} {w : Wave} (h : s.wave? u = some w) (lit : Bool) :
    ∃ w', (advance s e lit).wave? u = some w' ∧ keepsWave w w' := by
  unfold advance
  rw [wave?_modWave]
  · rw [h]
    refine ⟨_, rfl, ?_⟩
    dsimp only
    by_cases hu : w.uid = e.w.uid
    · rw [if_pos hu]
      split
      · split <;> (rw [modPath_eq]; rfl)
      · rw [modPath_eq]; rfl
    · rw [if_neg hu]; rfl
  · intro w
    simp only [Wave.modPath_uid]
    split
    · split <;> rfl
    · rfl

theorem keepsWave.trans {a b c : Wave} (h1 : keepsWave a b) (h2 : keepsWave b c) : keepsWave a c := by
  unfold keepsWave at *; rw [h2, h1]

/-- Past its issue the wave has every component but its paths, REPSTATE and last slot. -/
theorem past_wave (h : env? s = some e) (i : Instr) :
    ∃ w', (past i s e).wave? e.w.uid = some w' ∧ keepsWave e.w w' := by
  obtain ⟨w1, h1, k1⟩ := account_wave h i.scalarForm
  obtain ⟨w2, h2, k2⟩ := advance_wave (e := e) h1 i.takesLiteral
  exact ⟨w2, h2, k1.trans k2⟩

end Sys2Proof.Machine
end

