-- ==== Sys2Proof/Laws/Exec.lean ====
section
/-! SUPPORT. How each constructor of `Instr` is run: an instruction through `runInstr` with a body of its own, an event to a
next state in every state. -/

namespace Sys2Proof.Machine

/-- The instruction runs through `runInstr` with some body. -/
def Runs (i : Instr) : Prop := ∃ body : Env → State → Effect, ∀ s, exec i s = runInstr i s body

/-- The event answers a next state in every state. -/
def Happens (i : Instr) : Prop := ∀ s, ∃ t, exec i s = .next t

theorem runs_setmode (lit : Word32) : Runs (.setmode lit) :=
  ⟨_, fun s => by change execSetmode lit s = _; unfold execSetmode; rfl⟩
theorem runs_getmode (d : OpCode) : Runs (.getmode d) :=
  ⟨_, fun s => by change execGetmode d s = _; unfold execGetmode; rfl⟩
theorem runs_rep (count stride : Byte) : Runs (.rep count stride) :=
  ⟨_, fun s => by change execRep count stride s = _; unfold execRep; rfl⟩
theorem runs_bra (off : BitVec 24) : Runs (.bra off) :=
  ⟨_, fun s => by change execBra off s = _; unfold execBra; rfl⟩
theorem runs_brp (p : OpCode) (off : BitVec 16) : Runs (.brp p off) :=
  ⟨_, fun s => by change execBrp p off s = _; unfold execBrp; rfl⟩
theorem runs_bru (u : OpCode) (off : BitVec 16) : Runs (.bru u off) :=
  ⟨_, fun s => by change execBru u off s = _; unfold execBru; rfl⟩
theorem runs_jmpi (a : OpCode) : Runs (.jmpi a) :=
  ⟨_, fun s => by change execJmpi a s = _; unfold execJmpi; rfl⟩
theorem runs_call (d : OpCode) (off : BitVec 16) : Runs (.call d off) :=
  ⟨_, fun s => by change execCall d off s = _; unfold execCall; rfl⟩
theorem runs_calli (d a : OpCode) : Runs (.calli d a) :=
  ⟨_, fun s => by change execCalli d a s = _; unfold execCalli; rfl⟩
theorem runs_ret (a : OpCode) : Runs (.ret a) :=
  ⟨_, fun s => by change execRet a s = _; unfold execRet; rfl⟩
theorem runs_rjoin (token : BitVec 16) : Runs (.rjoin token) :=
  ⟨_, fun s => by change execRjoin token s = _; unfold execRjoin; rfl⟩
theorem runs_exit : Runs .exit :=
  ⟨_, fun s => by change execExit s = _; unfold execExit; rfl⟩
theorem runs_tail : Runs .tail :=
  ⟨_, fun s => by change execTail s = _; unfold execTail; rfl⟩
theorem runs_yield : Runs .yield :=
  ⟨_, fun s => by change execYield s = _; unfold execYield; rfl⟩
theorem runs_waitf (n : Byte) (flags : BitVec 16) : Runs (.waitf n flags) :=
  ⟨_, fun s => by change execWaitf n flags s = _; unfold execWaitf; rfl⟩
theorem runs_setjoin (d a : OpCode) : Runs (.setjoin d a) :=
  ⟨_, fun s => by change execSetjoin d a s = _; unfold execSetjoin; rfl⟩
theorem runs_setleave (a : OpCode) : Runs (.setleave a) :=
  ⟨_, fun s => by change execSetleave a s = _; unfold execSetleave; rfl⟩
theorem runs_arrive (a b : OpCode) : Runs (.arrive a b) :=
  ⟨_, fun s => by change execArrive a b s = _; unfold execArrive; rfl⟩
theorem runs_waitb (d a : OpCode) : Runs (.waitb d a) :=
  ⟨_, fun s => by change execWaitb d a s = _; unfold execWaitb; rfl⟩
theorem runs_arrwait (d a b : OpCode) : Runs (.arrwait d a b) :=
  ⟨_, fun s => by change execArrwait d a b s = _; unfold execArrwait; rfl⟩
theorem runs_signal (a b : OpCode) : Runs (.signal a b) :=
  ⟨_, fun s => by change execSignal a b s = _; unfold execSignal; rfl⟩
theorem runs_sigwait (d a b : OpCode) : Runs (.sigwait d a b) :=
  ⟨_, fun s => by change execSigwait d a b s = _; unfold execSigwait; rfl⟩
theorem runs_bind (d a b : OpCode) : Runs (.bind d a b) :=
  ⟨_, fun s => by change execBind d a b s = _; unfold execBind; rfl⟩
theorem runs_unbind (a b : OpCode) : Runs (.unbind a b) :=
  ⟨_, fun s => by change execUnbind a b s = _; unfold execUnbind; rfl⟩
theorem runs_rgnin (id : BitVec 16) : Runs (.rgnin id) :=
  ⟨_, fun s => by change execRgnin id s = _; unfold execRgnin; rfl⟩
theorem runs_rgnout (id : BitVec 16) : Runs (.rgnout id) :=
  ⟨_, fun s => by change execRgnout id s = _; unfold execRgnout; rfl⟩
theorem runs_spt (n : Byte) : Runs (.spt n) :=
  ⟨_, fun s => by change execSpt n s = _; unfold execSpt; rfl⟩
theorem runs_psave : Runs .psave :=
  ⟨_, fun s => by change execPsave s = _; unfold execPsave; rfl⟩
theorem runs_trap (code : BitVec 16) : Runs (.trap code) :=
  ⟨_, fun s => by change execTrap code s = _; unfold execTrap; rfl⟩
theorem runs_tret : Runs .tret :=
  ⟨_, fun s => by change execTret s = _; unfold execTret; rfl⟩
theorem runs_sysrd (d : OpCode) (lit : Word32) : Runs (.sysrd d lit) :=
  ⟨_, fun s => by change execSysrd d lit s = _; unfold execSysrd; rfl⟩
theorem runs_syswr (a : OpCode) (lit : Word32) : Runs (.syswr a lit) :=
  ⟨_, fun s => by change execSyswr a lit s = _; unfold execSyswr; rfl⟩
theorem runs_add (d a b : OpCode) : Runs (.add d a b) :=
  ⟨_, fun s => by change execAdd d a b s = _; unfold execAdd; rfl⟩
theorem runs_sub (d a b : OpCode) : Runs (.sub d a b) :=
  ⟨_, fun s => by change execSub d a b s = _; unfold execSub; rfl⟩
theorem runs_mul (d a b : OpCode) : Runs (.mul d a b) :=
  ⟨_, fun s => by change execMul d a b s = _; unfold execMul; rfl⟩
theorem runs_fma (d a b : OpCode) : Runs (.fma d a b) :=
  ⟨_, fun s => by change execFma d a b s = _; unfold execFma; rfl⟩
theorem runs_fms (d a b : OpCode) : Runs (.fms d a b) :=
  ⟨_, fun s => by change execFms d a b s = _; unfold execFms; rfl⟩
theorem runs_fnma (d a b : OpCode) : Runs (.fnma d a b) :=
  ⟨_, fun s => by change execFnma d a b s = _; unfold execFnma; rfl⟩
theorem runs_min (d a b : OpCode) : Runs (.min d a b) :=
  ⟨_, fun s => by change execMin d a b s = _; unfold execMin; rfl⟩
theorem runs_max (d a b : OpCode) : Runs (.max d a b) :=
  ⟨_, fun s => by change execMax d a b s = _; unfold execMax; rfl⟩
theorem runs_abs (d a : OpCode) : Runs (.abs d a) :=
  ⟨_, fun s => by change execAbs d a s = _; unfold execAbs; rfl⟩
theorem runs_neg (d a : OpCode) : Runs (.neg d a) :=
  ⟨_, fun s => by change execNeg d a s = _; unfold execNeg; rfl⟩
theorem runs_adds (d a b : OpCode) : Runs (.adds d a b) :=
  ⟨_, fun s => by change execAdds d a b s = _; unfold execAdds; rfl⟩
theorem runs_subs (d a b : OpCode) : Runs (.subs d a b) :=
  ⟨_, fun s => by change execSubs d a b s = _; unfold execSubs; rfl⟩
theorem runs_mulhi (d a b : OpCode) : Runs (.mulhi d a b) :=
  ⟨_, fun s => by change execMulhi d a b s = _; unfold execMulhi; rfl⟩
theorem runs_dot2 (d a b : OpCode) : Runs (.dot2 d a b) :=
  ⟨_, fun s => by change execDot2 d a b s = _; unfold execDot2; rfl⟩
theorem runs_divi (d a b : OpCode) : Runs (.divi d a b) :=
  ⟨_, fun s => by change execDivi d a b s = _; unfold execDivi; rfl⟩
theorem runs_remi (d a b : OpCode) : Runs (.remi d a b) :=
  ⟨_, fun s => by change execRemi d a b s = _; unfold execRemi; rfl⟩
theorem runs_and (d a b : OpCode) : Runs (.and d a b) :=
  ⟨_, fun s => by change execAnd d a b s = _; unfold execAnd; rfl⟩
theorem runs_or (d a b : OpCode) : Runs (.or d a b) :=
  ⟨_, fun s => by change execOr d a b s = _; unfold execOr; rfl⟩
theorem runs_xor (d a b : OpCode) : Runs (.xor d a b) :=
  ⟨_, fun s => by change execXor d a b s = _; unfold execXor; rfl⟩
theorem runs_andn (d a b : OpCode) : Runs (.andn d a b) :=
  ⟨_, fun s => by change execAndn d a b s = _; unfold execAndn; rfl⟩
theorem runs_shl (d a b : OpCode) : Runs (.shl d a b) :=
  ⟨_, fun s => by change execShl d a b s = _; unfold execShl; rfl⟩
theorem runs_shrl (d a b : OpCode) : Runs (.shrl d a b) :=
  ⟨_, fun s => by change execShrl d a b s = _; unfold execShrl; rfl⟩
theorem runs_shra (d a b : OpCode) : Runs (.shra d a b) :=
  ⟨_, fun s => by change execShra d a b s = _; unfold execShra; rfl⟩
theorem runs_rol (d a b : OpCode) : Runs (.rol d a b) :=
  ⟨_, fun s => by change execRol d a b s = _; unfold execRol; rfl⟩
theorem runs_cmpeq (d a b : OpCode) : Runs (.cmpeq d a b) :=
  ⟨_, fun s => by change execCmpeq d a b s = _; unfold execCmpeq; rfl⟩
theorem runs_cmpne (d a b : OpCode) : Runs (.cmpne d a b) :=
  ⟨_, fun s => by change execCmpne d a b s = _; unfold execCmpne; rfl⟩
theorem runs_cmplt (d a b : OpCode) : Runs (.cmplt d a b) :=
  ⟨_, fun s => by change execCmplt d a b s = _; unfold execCmplt; rfl⟩
theorem runs_cmple (d a b : OpCode) : Runs (.cmple d a b) :=
  ⟨_, fun s => by change execCmple d a b s = _; unfold execCmple; rfl⟩
theorem runs_cmpun (d a b : OpCode) : Runs (.cmpun d a b) :=
  ⟨_, fun s => by change execCmpun d a b s = _; unfold execCmpun; rfl⟩
theorem runs_cls (d a : OpCode) (lit : Word32) : Runs (.cls d a lit) :=
  ⟨_, fun s => by change execCls d a lit s = _; unfold execCls; rfl⟩
theorem runs_sel (d a b : OpCode) (lit : Word32) : Runs (.sel d a b lit) :=
  ⟨_, fun s => by change execSel d a b lit s = _; unfold execSel; rfl⟩
theorem runs_mov (d a : OpCode) : Runs (.mov d a) :=
  ⟨_, fun s => by change execMov d a s = _; unfold execMov; rfl⟩
theorem runs_cvt (d a : OpCode) (lit : Word32) : Runs (.cvt d a lit) :=
  ⟨_, fun s => by change execCvt d a lit s = _; unfold execCvt; rfl⟩
theorem runs_cvtr (d a : OpCode) (lit : Word32) : Runs (.cvtr d a lit) :=
  ⟨_, fun s => by change execCvtr d a lit s = _; unfold execCvtr; rfl⟩
theorem runs_pack (d a b : OpCode) : Runs (.pack d a b) :=
  ⟨_, fun s => by change execPack d a b s = _; unfold execPack; rfl⟩
theorem runs_widen (d a : OpCode) (h : Byte) : Runs (.widen d a h) :=
  ⟨_, fun s => by change execWiden d a h s = _; unfold execWiden; rfl⟩
theorem runs_dec8 (d a : OpCode) (g : Byte) : Runs (.dec8 d a g) :=
  ⟨_, fun s => by change execDec8 d a g s = _; unfold execDec8; rfl⟩
theorem runs_enc8 (d a b : OpCode) : Runs (.enc8 d a b) :=
  ⟨_, fun s => by change execEnc8 d a b s = _; unfold execEnc8; rfl⟩
theorem runs_dec6 (d a : OpCode) (g : Byte) : Runs (.dec6 d a g) :=
  ⟨_, fun s => by change execDec6 d a g s = _; unfold execDec6; rfl⟩
theorem runs_enc6 (d a : OpCode) : Runs (.enc6 d a) :=
  ⟨_, fun s => by change execEnc6 d a s = _; unfold execEnc6; rfl⟩
theorem runs_scaleb (d a b : OpCode) : Runs (.scaleb d a b) :=
  ⟨_, fun s => by change execScaleb d a b s = _; unfold execScaleb; rfl⟩
theorem runs_rndint (d a : OpCode) : Runs (.rndint d a) :=
  ⟨_, fun s => by change execRndint d a s = _; unfold execRndint; rfl⟩
theorem runs_dot4 (d a b : OpCode) : Runs (.dot4 d a b) :=
  ⟨_, fun s => by change execDot4 d a b s = _; unfold execDot4; rfl⟩
theorem runs_sad (d a b : OpCode) : Runs (.sad d a b) :=
  ⟨_, fun s => by change execSad d a b s = _; unfold execSad; rfl⟩
theorem runs_madi (d a b : OpCode) : Runs (.madi d a b) :=
  ⟨_, fun s => by change execMadi d a b s = _; unfold execMadi; rfl⟩
theorem runs_addc (d a b : OpCode) (lit : Word32) : Runs (.addc d a b lit) :=
  ⟨_, fun s => by change execAddc d a b lit s = _; unfold execAddc; rfl⟩
theorem runs_subb (d a b : OpCode) (lit : Word32) : Runs (.subb d a b lit) :=
  ⟨_, fun s => by change execSubb d a b lit s = _; unfold execSubb; rfl⟩
theorem runs_frcp2 (d a : OpCode) : Runs (.frcp2 d a) :=
  ⟨_, fun s => by change execFrcp2 d a s = _; unfold execFrcp2; rfl⟩
theorem runs_movl (d : OpCode) (lit : Word32) : Runs (.movl d lit) :=
  ⟨_, fun s => by change execMovl d lit s = _; unfold execMovl; rfl⟩
theorem runs_movs (d : OpCode) (lit : Word32) : Runs (.movs d lit) :=
  ⟨_, fun s => by change execMovs d lit s = _; unfold execMovs; rfl⟩
theorem runs_iota (d a b : OpCode) : Runs (.iota d a b) :=
  ⟨_, fun s => by change execIota d a b s = _; unfold execIota; rfl⟩
theorem runs_shfl (d a b : OpCode) (lit : Word32) : Runs (.shfl d a b lit) :=
  ⟨_, fun s => by change execShfl d a b lit s = _; unfold execShfl; rfl⟩
theorem runs_bcast (d a b : OpCode) : Runs (.bcast d a b) :=
  ⟨_, fun s => by change execBcast d a b s = _; unfold execBcast; rfl⟩
theorem runs_lreduce (d a : OpCode) (lit : Word32) : Runs (.lreduce d a lit) :=
  ⟨_, fun s => by change execLreduce d a lit s = _; unfold execLreduce; rfl⟩
theorem runs_lscan (d a : OpCode) (lit : Word32) : Runs (.lscan d a lit) :=
  ⟨_, fun s => by change execLscan d a lit s = _; unfold execLscan; rfl⟩
theorem runs_ballot (d p : OpCode) : Runs (.ballot d p) :=
  ⟨_, fun s => by change execBallot d p s = _; unfold execBallot; rfl⟩
theorem runs_vote (d p : OpCode) (lit : Word32) : Runs (.vote d p lit) :=
  ⟨_, fun s => by change execVote d p lit s = _; unfold execVote; rfl⟩
theorem runs_plogic (d a b : OpCode) (lit : Word32) : Runs (.plogic d a b lit) :=
  ⟨_, fun s => by change execPlogic d a b lit s = _; unfold execPlogic; rfl⟩
theorem runs_pset (d : OpCode) (lit : Word32) : Runs (.pset d lit) :=
  ⟨_, fun s => by change execPset d lit s = _; unfold execPset; rfl⟩
theorem runs_pget (d p : OpCode) : Runs (.pget d p) :=
  ⟨_, fun s => by change execPget d p s = _; unfold execPget; rfl⟩
theorem runs_pmov (d a : OpCode) : Runs (.pmov d a) :=
  ⟨_, fun s => by change execPmov d a s = _; unfold execPmov; rfl⟩
theorem runs_bmm (d a b : OpCode) : Runs (.bmm d a b) :=
  ⟨_, fun s => by change execBmm d a b s = _; unfold execBmm; rfl⟩
theorem runs_bmmx (d a b : OpCode) : Runs (.bmmx d a b) :=
  ⟨_, fun s => by change execBmmx d a b s = _; unfold execBmmx; rfl⟩
theorem runs_pdep (d a b : OpCode) : Runs (.pdep d a b) :=
  ⟨_, fun s => by change execPdep d a b s = _; unfold execPdep; rfl⟩
theorem runs_pext (d a b : OpCode) : Runs (.pext d a b) :=
  ⟨_, fun s => by change execPext d a b s = _; unfold execPext; rfl⟩
theorem runs_bpld (k : Byte) (a : OpCode) : Runs (.bpld k a) :=
  ⟨_, fun s => by change execBpld k a s = _; unfold execBpld; rfl⟩
theorem runs_bperm (d a : OpCode) (k : Byte) : Runs (.bperm d a k) :=
  ⟨_, fun s => by change execBperm d a k s = _; unfold execBperm; rfl⟩
theorem runs_popc (d a : OpCode) : Runs (.popc d a) :=
  ⟨_, fun s => by change execPopc d a s = _; unfold execPopc; rfl⟩
theorem runs_clz (d a : OpCode) : Runs (.clz d a) :=
  ⟨_, fun s => by change execClz d a s = _; unfold execClz; rfl⟩
theorem runs_ctz (d a : OpCode) : Runs (.ctz d a) :=
  ⟨_, fun s => by change execCtz d a s = _; unfold execCtz; rfl⟩
theorem runs_brev (d a : OpCode) : Runs (.brev d a) :=
  ⟨_, fun s => by change execBrev d a s = _; unfold execBrev; rfl⟩
theorem runs_bfx (d a : OpCode) (lit : Word32) : Runs (.bfx d a lit) :=
  ⟨_, fun s => by change execBfx d a lit s = _; unfold execBfx; rfl⟩
theorem runs_bfi (d a : OpCode) (lit : Word32) : Runs (.bfi d a lit) :=
  ⟨_, fun s => by change execBfi d a lit s = _; unfold execBfi; rfl⟩
theorem runs_gfmul8 (d a b : OpCode) : Runs (.gfmul8 d a b) :=
  ⟨_, fun s => by change execGfmul8 d a b s = _; unfold execGfmul8; rfl⟩
theorem runs_clmul (d a b : OpCode) : Runs (.clmul d a b) :=
  ⟨_, fun s => by change execClmul d a b s = _; unfold execClmul; rfl⟩
theorem runs_clmulh (d a b : OpCode) : Runs (.clmulh d a b) :=
  ⟨_, fun s => by change execClmulh d a b s = _; unfold execClmulh; rfl⟩
theorem runs_byteperm (d a b : OpCode) : Runs (.byteperm d a b) :=
  ⟨_, fun s => by change execByteperm d a b s = _; unfold execByteperm; rfl⟩
theorem runs_rcp (d a : OpCode) : Runs (.rcp d a) :=
  ⟨_, fun s => by change execRcp d a s = _; unfold execRcp; rfl⟩
theorem runs_rsq (d a : OpCode) : Runs (.rsq d a) :=
  ⟨_, fun s => by change execRsq d a s = _; unfold execRsq; rfl⟩
theorem runs_sqrt (d a : OpCode) : Runs (.sqrt d a) :=
  ⟨_, fun s => by change execSqrt d a s = _; unfold execSqrt; rfl⟩
theorem runs_exp2 (d a : OpCode) : Runs (.exp2 d a) :=
  ⟨_, fun s => by change execExp2 d a s = _; unfold execExp2; rfl⟩
theorem runs_log2 (d a : OpCode) : Runs (.log2 d a) :=
  ⟨_, fun s => by change execLog2 d a s = _; unfold execLog2; rfl⟩
theorem runs_sinpi (d a : OpCode) : Runs (.sinpi d a) :=
  ⟨_, fun s => by change execSinpi d a s = _; unfold execSinpi; rfl⟩
theorem runs_cospi (d a : OpCode) : Runs (.cospi d a) :=
  ⟨_, fun s => by change execCospi d a s = _; unfold execCospi; rfl⟩
theorem runs_tanh (d a : OpCode) : Runs (.tanh d a) :=
  ⟨_, fun s => by change execTanh d a s = _; unfold execTanh; rfl⟩
theorem runs_divf (d a b : OpCode) : Runs (.divf d a b) :=
  ⟨_, fun s => by change execDivf d a b s = _; unfold execDivf; rfl⟩
theorem runs_ld8 (d a b : OpCode) : Runs (.ld8 d a b) :=
  ⟨_, fun s => by change execLd8 d a b s = _; unfold execLd8; rfl⟩
theorem runs_ld16 (d a b : OpCode) : Runs (.ld16 d a b) :=
  ⟨_, fun s => by change execLd16 d a b s = _; unfold execLd16; rfl⟩
theorem runs_ld32 (d a b : OpCode) : Runs (.ld32 d a b) :=
  ⟨_, fun s => by change execLd32 d a b s = _; unfold execLd32; rfl⟩
theorem runs_ld64 (d a b : OpCode) : Runs (.ld64 d a b) :=
  ⟨_, fun s => by change execLd64 d a b s = _; unfold execLd64; rfl⟩
theorem runs_st8 (d a b : OpCode) : Runs (.st8 d a b) :=
  ⟨_, fun s => by change execSt8 d a b s = _; unfold execSt8; rfl⟩
theorem runs_st16 (d a b : OpCode) : Runs (.st16 d a b) :=
  ⟨_, fun s => by change execSt16 d a b s = _; unfold execSt16; rfl⟩
theorem runs_st32 (d a b : OpCode) : Runs (.st32 d a b) :=
  ⟨_, fun s => by change execSt32 d a b s = _; unfold execSt32; rfl⟩
theorem runs_st64 (d a b : OpCode) : Runs (.st64 d a b) :=
  ⟨_, fun s => by change execSt64 d a b s = _; unfold execSt64; rfl⟩
theorem runs_ldl (d a b : OpCode) : Runs (.ldl d a b) :=
  ⟨_, fun s => by change execLdl d a b s = _; unfold execLdl; rfl⟩
theorem runs_stl (d a b : OpCode) : Runs (.stl d a b) :=
  ⟨_, fun s => by change execStl d a b s = _; unfold execStl; rfl⟩
theorem runs_sld (d a b : OpCode) (lit : Word32) : Runs (.sld d a b lit) :=
  ⟨_, fun s => by change execSld d a b lit s = _; unfold execSld; rfl⟩
theorem runs_sst (d a b : OpCode) (lit : Word32) : Runs (.sst d a b lit) :=
  ⟨_, fun s => by change execSst d a b lit s = _; unfold execSst; rfl⟩
theorem runs_nld (d a b : OpCode) (lit : Word32) : Runs (.nld d a b lit) :=
  ⟨_, fun s => by change execNld d a b lit s = _; unfold execNld; rfl⟩
theorem runs_nst (d a b : OpCode) (lit : Word32) : Runs (.nst d a b lit) :=
  ⟨_, fun s => by change execNst d a b lit s = _; unfold execNst; rfl⟩
theorem runs_wld (d a b : OpCode) : Runs (.wld d a b) :=
  ⟨_, fun s => by change execWld d a b s = _; unfold execWld; rfl⟩
theorem runs_cstr (d a p : OpCode) : Runs (.cstr d a p) :=
  ⟨_, fun s => by change execCstr d a p s = _; unfold execCstr; rfl⟩
theorem runs_xld (d a p : OpCode) : Runs (.xld d a p) :=
  ⟨_, fun s => by change execXld d a p s = _; unfold execXld; rfl⟩
theorem runs_tld (d a b : OpCode) (lit : Word32) : Runs (.tld d a b lit) :=
  ⟨_, fun s => by change execTld d a b lit s = _; unfold execTld; rfl⟩
theorem runs_tst (d a b : OpCode) (lit : Word32) : Runs (.tst d a b lit) :=
  ⟨_, fun s => by change execTst d a b lit s = _; unfold execTst; rfl⟩
theorem runs_pref (a b : OpCode) : Runs (.pref a b) :=
  ⟨_, fun s => by change execPref a b s = _; unfold execPref; rfl⟩
theorem runs_sealRegion (a b : OpCode) : Runs (.sealRegion a b) :=
  ⟨_, fun s => by change execSealRegion a b s = _; unfold execSealRegion; rfl⟩
theorem runs_unsealRegion (a b : OpCode) : Runs (.unsealRegion a b) :=
  ⟨_, fun s => by change execUnsealRegion a b s = _; unfold execUnsealRegion; rfl⟩
theorem runs_fence (scope : Byte) : Runs (.fence scope) :=
  ⟨_, fun s => by change execFence scope s = _; unfold execFence; rfl⟩
theorem runs_xfence (scope paths : Byte) : Runs (.xfence scope paths) :=
  ⟨_, fun s => by change execXfence scope paths s = _; unfold execXfence; rfl⟩
theorem runs_pin (a b : OpCode) : Runs (.pin a b) :=
  ⟨_, fun s => by change execPin a b s = _; unfold execPin; rfl⟩
theorem runs_unpin (a b : OpCode) : Runs (.unpin a b) :=
  ⟨_, fun s => by change execUnpin a b s = _; unfold execUnpin; rfl⟩
theorem runs_cinv (a b : OpCode) : Runs (.cinv a b) :=
  ⟨_, fun s => by change execCinv a b s = _; unfold execCinv; rfl⟩
theorem runs_cwb (a b : OpCode) : Runs (.cwb a b) :=
  ⟨_, fun s => by change execCwb a b s = _; unfold execCwb; rfl⟩
theorem runs_ldacq (d a b : OpCode) (lit : Word32) : Runs (.ldacq d a b lit) :=
  ⟨_, fun s => by change execLdacq d a b lit s = _; unfold execLdacq; rfl⟩
theorem runs_strel (d a b : OpCode) (lit : Word32) : Runs (.strel d a b lit) :=
  ⟨_, fun s => by change execStrel d a b lit s = _; unfold execStrel; rfl⟩
theorem runs_aadd (d a b : OpCode) (lit : Word32) : Runs (.aadd d a b lit) :=
  ⟨_, fun s => by change execAadd d a b lit s = _; unfold execAadd; rfl⟩
theorem runs_amin (d a b : OpCode) (lit : Word32) : Runs (.amin d a b lit) :=
  ⟨_, fun s => by change execAmin d a b lit s = _; unfold execAmin; rfl⟩
theorem runs_amax (d a b : OpCode) (lit : Word32) : Runs (.amax d a b lit) :=
  ⟨_, fun s => by change execAmax d a b lit s = _; unfold execAmax; rfl⟩
theorem runs_aand (d a b : OpCode) (lit : Word32) : Runs (.aand d a b lit) :=
  ⟨_, fun s => by change execAand d a b lit s = _; unfold execAand; rfl⟩
theorem runs_aor (d a b : OpCode) (lit : Word32) : Runs (.aor d a b lit) :=
  ⟨_, fun s => by change execAor d a b lit s = _; unfold execAor; rfl⟩
theorem runs_axor (d a b : OpCode) (lit : Word32) : Runs (.axor d a b lit) :=
  ⟨_, fun s => by change execAxor d a b lit s = _; unfold execAxor; rfl⟩
theorem runs_aswp (d a b : OpCode) (lit : Word32) : Runs (.aswp d a b lit) :=
  ⟨_, fun s => by change execAswp d a b lit s = _; unfold execAswp; rfl⟩
theorem runs_acas (d a b : OpCode) (lit : Word32) : Runs (.acas d a b lit) :=
  ⟨_, fun s => by change execAcas d a b lit s = _; unfold execAcas; rfl⟩
theorem runs_afadd (d a b : OpCode) (lit : Word32) : Runs (.afadd d a b lit) :=
  ⟨_, fun s => by change execAfadd d a b lit s = _; unfold execAfadd; rfl⟩
theorem runs_axadd (d a b : OpCode) (lit : Word32) : Runs (.axadd d a b lit) :=
  ⟨_, fun s => by change execAxadd d a b lit s = _; unfold execAxadd; rfl⟩
theorem runs_lres (d a : OpCode) (lit : Word32) : Runs (.lres d a lit) :=
  ⟨_, fun s => by change execLres d a lit s = _; unfold execLres; rfl⟩
theorem runs_scond (d a b : OpCode) (lit : Word32) : Runs (.scond d a b lit) :=
  ⟨_, fun s => by change execScond d a b lit s = _; unfold execScond; rfl⟩
theorem runs_tbegin (d : OpCode) : Runs (.tbegin d) :=
  ⟨_, fun s => by change execTbegin d s = _; unfold execTbegin; rfl⟩
theorem runs_tcommit (d : OpCode) : Runs (.tcommit d) :=
  ⟨_, fun s => by change execTcommit d s = _; unfold execTcommit; rfl⟩
theorem runs_tabort (code : BitVec 16) : Runs (.tabort code) :=
  ⟨_, fun s => by change execTabort code s = _; unfold execTabort; rfl⟩
theorem runs_tstat (d : OpCode) : Runs (.tstat d) :=
  ⟨_, fun s => by change execTstat d s = _; unfold execTstat; rfl⟩
theorem runs_mfmt (a : OpCode) : Runs (.mfmt a) :=
  ⟨_, fun s => by change execMfmt a s = _; unfold execMfmt; rfl⟩
theorem runs_mma (acc : Byte) (a b : OpCode) : Runs (.mma acc a b) :=
  ⟨_, fun s => by change execMma acc a b s = _; unfold execMma; rfl⟩
theorem runs_mmaz (acc : Byte) (a b : OpCode) : Runs (.mmaz acc a b) :=
  ⟨_, fun s => by change execMmaz acc a b s = _; unfold execMmaz; rfl⟩
theorem runs_mbatch (n : Byte) : Runs (.mbatch n) :=
  ⟨_, fun s => by change execMbatch n s = _; unfold execMbatch; rfl⟩
theorem runs_mwait (n : Byte) : Runs (.mwait n) :=
  ⟨_, fun s => by change execMwait n s = _; unfold execMwait; rfl⟩
theorem runs_mdrain (acc : Byte) (a b : OpCode) : Runs (.mdrain acc a b) :=
  ⟨_, fun s => by change execMdrain acc a b s = _; unfold execMdrain; rfl⟩
theorem runs_maccld (acc : Byte) (a : OpCode) : Runs (.maccld acc a) :=
  ⟨_, fun s => by change execMaccld acc a s = _; unfold execMaccld; rfl⟩
theorem runs_mstage (n : Byte) (a b : OpCode) : Runs (.mstage n a b) :=
  ⟨_, fun s => by change execMstage n a b s = _; unfold execMstage; rfl⟩
theorem runs_mstat (d : OpCode) (acc : Byte) : Runs (.mstat d acc) :=
  ⟨_, fun s => by change execMstat d acc s = _; unfold execMstat; rfl⟩
theorem runs_cpy (d a : OpCode) : Runs (.cpy d a) :=
  ⟨_, fun s => by change execCpy d a s = _; unfold execCpy; rfl⟩
theorem runs_cpyd (d a : OpCode) : Runs (.cpyd d a) :=
  ⟨_, fun s => by change execCpyd d a s = _; unfold execCpyd; rfl⟩
theorem runs_cpym (d a : OpCode) : Runs (.cpym d a) :=
  ⟨_, fun s => by change execCpym d a s = _; unfold execCpym; rfl⟩
theorem runs_cpymc (d a : OpCode) : Runs (.cpymc d a) :=
  ⟨_, fun s => by change execCpymc d a s = _; unfold execCpymc; rfl⟩
theorem runs_cpyn (d a : OpCode) : Runs (.cpyn d a) :=
  ⟨_, fun s => by change execCpyn d a s = _; unfold execCpyn; rfl⟩
theorem runs_halo (d a b : OpCode) : Runs (.halo d a b) :=
  ⟨_, fun s => by change execHalo d a b s = _; unfold execHalo; rfl⟩
theorem runs_haloq (d a : OpCode) : Runs (.haloq d a) :=
  ⟨_, fun s => by change execHaloq d a s = _; unfold execHaloq; rfl⟩
theorem runs_evpop (d : OpCode) : Runs (.evpop d) :=
  ⟨_, fun s => by change execEvpop d s = _; unfold execEvpop; rfl⟩
theorem runs_evpeek (d : OpCode) : Runs (.evpeek d) :=
  ⟨_, fun s => by change execEvpeek d s = _; unfold execEvpeek; rfl⟩
theorem runs_wsld (d a : OpCode) : Runs (.wsld d a) :=
  ⟨_, fun s => by change execWsld d a s = _; unfold execWsld; rfl⟩
theorem runs_arm (a b : OpCode) : Runs (.arm a b) :=
  ⟨_, fun s => by change execArm a b s = _; unfold execArm; rfl⟩
theorem runs_disarm (a : OpCode) : Runs (.disarm a) :=
  ⟨_, fun s => by change execDisarm a s = _; unfold execDisarm; rfl⟩
theorem runs_cpyx (d a : OpCode) : Runs (.cpyx d a) :=
  ⟨_, fun s => by change execCpyx d a s = _; unfold execCpyx; rfl⟩
theorem runs_wpush (a b : OpCode) : Runs (.wpush a b) :=
  ⟨_, fun s => by change execWpush a b s = _; unfold execWpush; rfl⟩
theorem runs_wpop (d : OpCode) : Runs (.wpop d) :=
  ⟨_, fun s => by change execWpop d s = _; unfold execWpop; rfl⟩
theorem runs_wpopw (d : OpCode) : Runs (.wpopw d) :=
  ⟨_, fun s => by change execWpopw d s = _; unfold execWpopw; rfl⟩
theorem runs_wdone : Runs .wdone :=
  ⟨_, fun s => by change execWdone s = _; unfold execWdone; rfl⟩
theorem runs_wfloor (d : OpCode) : Runs (.wfloor d) :=
  ⟨_, fun s => by change execWfloor d s = _; unfold execWfloor; rfl⟩
theorem runs_wstat (d : OpCode) : Runs (.wstat d) :=
  ⟨_, fun s => by change execWstat d s = _; unfold execWstat; rfl⟩
theorem runs_ckrole (d : OpCode) : Runs (.ckrole d) :=
  ⟨_, fun s => by change execCkrole d s = _; unfold execCkrole; rfl⟩
theorem runs_cksig (d : OpCode) (k : Byte) : Runs (.cksig d k) :=
  ⟨_, fun s => by change execCksig d k s = _; unfold execCksig; rfl⟩
theorem runs_tmark (mark : BitVec 16) : Runs (.tmark mark) :=
  ⟨_, fun s => by change execTmark mark s = _; unfold execTmark; rfl⟩
theorem runs_halt : Runs .halt :=
  ⟨_, fun s => by change execHalt s = _; unfold execHalt; rfl⟩
theorem runs_clkq (d : OpCode) : Runs (.clkq d) :=
  ⟨_, fun s => by change execClkq d s = _; unfold execClkq; rfl⟩
theorem runs_pwload (a : OpCode) : Runs (.pwload a) :=
  ⟨_, fun s => by change execPwload a s = _; unfold execPwload; rfl⟩
theorem happens_instructionComplete (uid seqNo : Nat) : Happens (.instructionComplete uid seqNo) := fun _ => ⟨_, rfl⟩
theorem happens_repIteration (uid path : Nat) : Happens (.repIteration uid path) := fun _ => ⟨_, rfl⟩
theorem happens_starvationOverride (core part : Nat) : Happens (.starvationOverride core part) := fun _ => ⟨_, rfl⟩
theorem happens_operandLogReplay (uid entry : Nat) : Happens (.operandLogReplay uid entry) := fun _ => ⟨_, rfl⟩
theorem happens_haltTrapDelivery (uid path : Nat) : Happens (.haltTrapDelivery uid path) := fun _ => ⟨_, rfl⟩
theorem happens_trackerDrain (core entry : Nat) : Happens (.trackerDrain core entry) := fun _ => ⟨_, rfl⟩
theorem happens_preemptBoundExpiry (fn ctx : Nat) : Happens (.preemptBoundExpiry fn ctx) := fun _ => ⟨_, rfl⟩
theorem happens_blockRestore (lid bid run : Nat) : Happens (.blockRestore lid bid run) := fun _ => ⟨_, rfl⟩
theorem happens_weightStoreRefresh : Happens .weightStoreRefresh := fun _ => ⟨_, rfl⟩
theorem happens_atomicPerformAtHome (req : Nat) : Happens (.atomicPerformAtHome req) := fun _ => ⟨_, rfl⟩
theorem happens_matrixGroupStart (core : Nat) : Happens (.matrixGroupStart core) := fun _ => ⟨_, rfl⟩
theorem happens_stageReadDone (core group : Nat) : Happens (.stageReadDone core group) := fun _ => ⟨_, rfl⟩
theorem happens_matrixGroupComplete (core group : Nat) : Happens (.matrixGroupComplete core group) := fun _ => ⟨_, rfl⟩
theorem happens_copyCommandExecute (core chan : Nat) : Happens (.copyCommandExecute core chan) := fun _ => ⟨_, rfl⟩
theorem happens_multicastDelivery (core chan target : Nat) : Happens (.multicastDelivery core chan target) := fun _ => ⟨_, rfl⟩
theorem happens_copyCommandEnd (core chan : Nat) : Happens (.copyCommandEnd core chan) := fun _ => ⟨_, rfl⟩
theorem happens_floorLowerRound (dom req : Nat) : Happens (.floorLowerRound dom req) := fun _ => ⟨_, rfl⟩
theorem happens_floorRaiseRound (dom : Nat) : Happens (.floorRaiseRound dom) := fun _ => ⟨_, rfl⟩
theorem happens_stealRequest (dom thief : Nat) : Happens (.stealRequest dom thief) := fun _ => ⟨_, rfl⟩
theorem happens_stolenTaskArrival (dom thief : Nat) : Happens (.stolenTaskArrival dom thief) := fun _ => ⟨_, rfl⟩
theorem happens_spillwayRefill (dom node : Nat) : Happens (.spillwayRefill dom node) := fun _ => ⟨_, rfl⟩
theorem happens_terminationTokenWave (dom : Nat) : Happens (.terminationTokenWave dom) := fun _ => ⟨_, rfl⟩
theorem happens_domainDown (dom : Nat) : Happens (.domainDown dom) := fun _ => ⟨_, rfl⟩
theorem happens_checkVote (lid bid : Nat) : Happens (.checkVote lid bid) := fun _ => ⟨_, rfl⟩
theorem happens_holdFullTimeout (uid : Nat) : Happens (.holdFullTimeout uid) := fun _ => ⟨_, rfl⟩
theorem happens_demeritDecay (core : Nat) : Happens (.demeritDecay core) := by intro s; unfold exec execDemeritDecay; dsimp only; split <;> exact ⟨_, rfl⟩
theorem happens_tlbMissWalk (asid va : Nat) (write fetch : Bool) : Happens (.tlbMissWalk asid va write fetch) := fun _ => ⟨_, rfl⟩
theorem happens_reclassification (asid page : Nat) : Happens (.reclassification asid page) := fun _ => ⟨_, rfl⟩
theorem happens_tlbInvalidateDone (fn : Nat) : Happens (.tlbInvalidateDone fn) := fun _ => ⟨_, rfl⟩
theorem happens_mapChangeFrozen (fn : Nat) : Happens (.mapChangeFrozen fn) := fun _ => ⟨_, rfl⟩
theorem happens_packetAdmit (fn q : Nat) : Happens (.packetAdmit fn q) := fun _ => ⟨_, rfl⟩
theorem happens_blockPlace (lid : Nat) : Happens (.blockPlace lid) := fun _ => ⟨_, rfl⟩
theorem happens_launchCompletion (lid : Nat) : Happens (.launchCompletion lid) := fun _ => ⟨_, rfl⟩
theorem happens_priorityAgeing (fn q : Nat) : Happens (.priorityAgeing fn q) := fun _ => ⟨_, rfl⟩
theorem happens_flrScrub (fn : Nat) : Happens (.flrScrub fn) := fun _ => ⟨_, rfl⟩
theorem happens_controlInterval (modulePower : Nat) (temps : List (Nat × Nat)) : Happens (.controlInterval modulePower temps) := fun _ => ⟨_, rfl⟩
theorem happens_canopyMemberSilent (chip : Nat) : Happens (.canopyMemberSilent chip) := fun _ => ⟨_, rfl⟩
theorem happens_canopyMemberExpel (chip : Nat) : Happens (.canopyMemberExpel chip) := fun _ => ⟨_, rfl⟩
theorem happens_canopyHeartbeatSend : Happens .canopyHeartbeatSend := fun _ => ⟨_, rfl⟩
theorem happens_canopyCeilingChange : Happens .canopyCeilingChange := fun _ => ⟨_, rfl⟩
theorem happens_profileSample (core part : Nat) : Happens (.profileSample core part) := fun _ => ⟨_, rfl⟩
theorem happens_captureSnapshot (fn : Nat) : Happens (.captureSnapshot fn) := fun _ => ⟨_, rfl⟩
theorem happens_imageWriteComplete : Happens .imageWriteComplete := fun _ => ⟨_, rfl⟩
theorem happens_lifecycleWipeComplete : Happens .lifecycleWipeComplete := fun _ => ⟨_, rfl⟩
theorem happens_haltRequest (uid : Nat) : Happens (.haltRequest uid) := fun _ => ⟨_, rfl⟩
theorem happens_haloFaceReceive (window rowLen rows : Nat) (dstOff dstPitch : Nat) (sig : Bool) (barOff : Nat) (data : List Byte) : Happens (.haloFaceReceive window rowLen rows dstOff dstPitch sig barOff data) := fun _ => ⟨_, rfl⟩
theorem happens_fabricLinkLoss (chip : Nat) : Happens (.fabricLinkLoss chip) := fun _ => ⟨_, rfl⟩
theorem happens_fqrespReplay (fn seqNo : Nat) : Happens (.fqrespReplay fn seqNo) := fun _ => ⟨_, rfl⟩
theorem happens_fqrespRefuse (fn seqNo : Nat) : Happens (.fqrespRefuse fn seqNo) := fun _ => ⟨_, rfl⟩
theorem happens_fqheadWrite (fn : Nat) (value : Word) : Happens (.fqheadWrite fn value) := fun _ => ⟨_, rfl⟩
theorem happens_tlbinvRange (fn asid : Nat) : Happens (.tlbinvRange fn asid) := fun _ => ⟨_, rfl⟩
theorem happens_tlbinvAsid (fn asid : Nat) : Happens (.tlbinvAsid fn asid) := fun _ => ⟨_, rfl⟩
theorem happens_tlbinvFunction (fn asid : Nat) : Happens (.tlbinvFunction fn asid) := fun _ => ⟨_, rfl⟩
theorem happens_mapChange (fn asid : Nat) : Happens (.mapChange fn asid) := fun _ => ⟨_, rfl⟩
theorem happens_mapChangeForce (fn asid : Nat) : Happens (.mapChangeForce fn asid) := fun _ => ⟨_, rfl⟩
theorem happens_mapdone (fn : Nat) : Happens (.mapdone fn) := fun _ => ⟨_, rfl⟩
theorem happens_ctxCreate (fn ctx : Nat) : Happens (.ctxCreate fn ctx) := fun _ => ⟨_, rfl⟩
theorem happens_ctxDestroy (fn ctx : Nat) : Happens (.ctxDestroy fn ctx) := fun _ => ⟨_, rfl⟩
theorem happens_ctxReset (fn ctx : Nat) : Happens (.ctxReset fn ctx) := fun _ => ⟨_, rfl⟩
theorem happens_ctxPreempt (fn ctx level : Nat) : Happens (.ctxPreempt fn ctx level) := fun _ => ⟨_, rfl⟩
theorem happens_preemptevClear (fn : Nat) (value : Word) : Happens (.preemptevClear fn value) := fun _ => ⟨_, rfl⟩
theorem happens_qwidxWrite (fn q : Nat) (value : Word) : Happens (.qwidxWrite fn q value) := fun _ => ⟨_, rfl⟩
theorem happens_queueEnable (fn q : Nat) (value : Word) : Happens (.queueEnable fn q value) := fun _ => ⟨_, rfl⟩
theorem happens_functionLevelReset (fn : Nat) : Happens (.functionLevelReset fn) := fun _ => ⟨_, rfl⟩
theorem happens_currentEmergency (grove : Nat) : Happens (.currentEmergency grove) := fun _ => ⟨_, rfl⟩
theorem happens_thermalTrip (grove temp : Nat) : Happens (.thermalTrip grove temp) := fun _ => ⟨_, rfl⟩
theorem happens_canopyHeartbeatReceive (chip seqNo groupTime proposal : Nat) (announces : List (Nat × Nat)) (joins : List Nat) (emergency : Bool) : Happens (.canopyHeartbeatReceive chip seqNo groupTime proposal announces joins emergency) := fun _ => ⟨_, rfl⟩
theorem happens_canopyJoin (value : Word) : Happens (.canopyJoin value) := fun _ => ⟨_, rfl⟩
theorem happens_canopyLeave (value : Word) : Happens (.canopyLeave value) := fun _ => ⟨_, rfl⟩
theorem happens_traceStopRequest (fn ctx : Nat) : Happens (.traceStopRequest fn ctx) := fun _ => ⟨_, rfl⟩
theorem happens_traceStopCancel (fn ctx : Nat) : Happens (.traceStopCancel fn ctx) := fun _ => ⟨_, rfl⟩
theorem happens_watchpointEnable (fn w : Nat) (value : Word) : Happens (.watchpointEnable fn w value) := fun _ => ⟨_, rfl⟩
theorem happens_traceEnable (fn : Nat) (value : Word) : Happens (.traceEnable fn value) := fun _ => ⟨_, rfl⟩
theorem happens_traceRingRead (fn : Nat) (value : Word) : Happens (.traceRingRead fn value) := fun _ => ⟨_, rfl⟩
theorem happens_captureStart (fn ctx : Nat) : Happens (.captureStart fn ctx) := fun _ => ⟨_, rfl⟩
theorem happens_captureStop (fn : Nat) : Happens (.captureStop fn) := fun _ => ⟨_, rfl⟩
theorem happens_replayStart (fn ctx : Nat) : Happens (.replayStart fn ctx) := fun _ => ⟨_, rfl⟩
theorem happens_captureAbort (fn : Nat) : Happens (.captureAbort fn) := fun _ => ⟨_, rfl⟩
theorem happens_haloWindowEnable (fn : Nat) (value : Word) : Happens (.haloWindowEnable fn value) := fun _ => ⟨_, rfl⟩
theorem happens_haloWindowDisable (fn : Nat) : Happens (.haloWindowDisable fn) := fun _ => ⟨_, rfl⟩
theorem happens_healthRequest : Happens .healthRequest := fun _ => ⟨_, rfl⟩
theorem happens_certRequest : Happens .certRequest := fun _ => ⟨_, rfl⟩
theorem happens_stateRequest : Happens .stateRequest := fun _ => ⟨_, rfl⟩
theorem happens_resetRequest : Happens .resetRequest := fun _ => ⟨_, rfl⟩
theorem happens_lifecycleRequest (state : Nat) : Happens (.lifecycleRequest state) := fun _ => ⟨_, rfl⟩
theorem happens_powerOn : Happens .powerOn := fun _ => ⟨_, rfl⟩
theorem happens_imageWrite : Happens .imageWrite := fun _ => ⟨_, rfl⟩
theorem happens_pciePeerDma (write : Bool) (addr len : Nat) (data : List Byte) : Happens (.pciePeerDma write addr len data) := fun _ => ⟨_, rfl⟩
theorem happens_registerWrite (window fn off size : Nat) (value : Word) : Happens (.registerWrite window fn off size value) := fun _ => ⟨_, rfl⟩
theorem happens_hostMemoryAccess (write : Bool) (addr len : Nat) (data : List Byte) : Happens (.hostMemoryAccess write addr len data) := fun _ => ⟨_, rfl⟩
theorem happens_eccCorrection (slice : Bool) (place row : Nat) : Happens (.eccCorrection slice place row) := fun _ => ⟨_, rfl⟩
theorem happens_powerLoss : Happens .powerLoss := fun _ => ⟨_, rfl⟩
theorem happens_explicitFence (core : Nat) : Happens (.explicitFence core) := fun _ => ⟨_, rfl⟩
theorem happens_explicitUnfence (core : Nat) : Happens (.explicitUnfence core) := fun _ => ⟨_, rfl⟩
theorem happens_demeritThresholdSet (n : Nat) : Happens (.demeritThresholdSet n) := fun _ => ⟨_, rfl⟩
theorem happens_otherRequest (code : Nat) : Happens (.otherRequest code) := fun _ => ⟨_, rfl⟩

theorem runs_nop {s : State} {e : Env} (h : env? s = some e) : ∃ t, exec .nop s = .next t := by
  unfold exec execNop
  rw [h]
  dsimp only
  split <;> exact ⟨_, rfl⟩

end Sys2Proof.Machine
end

