-- ==== Sys2Proof/Laws/Lanewise.lean ====
section
/-! SUPPORT. What `lanewise` (R168) can do, said once: the sub-elements of a lane's result, and the outcome of a lane-wise
instruction. -/

namespace Sys2Proof.Machine

/-- The bits cut off a T6x10 result lie outside its sub-elements. -/
theorem sub_trimT6 (t : EType) (x : Word) (j : Nat) (hj : j < cnt t) : sub (trimT6 t x) t j = sub x t j := by
  cases t
  case t6x10 =>
    simp only [trimT6, sub, EType.wid]
    apply Nat.eq_of_testBit_eq
    intro i
    rw [testBit_bits, testBit_bits]
    by_cases hi : i < 6
    · have hlt : 6 * j + i < 60 := by simp [cnt] at hj; omega
      simp only [hi, decide_true, Bool.true_and, beq_self_eq_true, if_true, BitVec.toNat_and, Nat.testBit_and]
      have : BitVec.toNat (0x0FFFFFFFFFFFFFFF : Word) = 2 ^ 60 - 1 := by decide
      rw [this, Nat.testBit_two_pow_sub_one]
      simp [hlt]
    · simp [hi]
  all_goals rfl

/-- Sub-element `j` of a lane's result: the function's value where it is written, and the old one elsewhere (R167,
R168). -/
theorem sub_laneResult (e : Env) (t : EType) (d : OpCode) (f : Nat → Nat → SubRes) (l j : Nat) (hj : j < cnt t) :
    sub (laneResult e t d f l).1 t j =
      if e.writes d l j t then (f l j).val % 2 ^ t.wid else sub (e.base d l) t j := by
  simp only [laneResult]
  rw [sub_trimT6 t _ j hj]
  have key : ∀ (n : Nat) (hn : n ≤ cnt t) (acc : Word × Detected),
      sub ((List.range n).foldl (fun (acc : Word × Detected) i =>
        if e.writes d l i t then (put acc.1 t i (f l i).val, acc.2.note l (f l i)) else acc) acc).1 t j =
      if j < n ∧ e.writes d l j t = true then (f l j).val % 2 ^ t.wid else sub acc.1 t j := by
    intro n
    induction n with
    | zero => intro hn acc; simp
    | succ n ih =>
      intro hn acc
      rw [List.range_succ, List.foldl_append, List.foldl_cons, List.foldl_nil]
      by_cases hw : e.writes d l n t = true
      · rw [if_pos hw]
        simp only
        rw [sub_put _ _ _ _ _ (by omega), ih (by omega)]
        by_cases hjn : j = n
        · subst hjn; simp [hw]
        · have h1 : (j < n + 1) = (j < n) := by simp; omega
          simp [hjn, h1]
      · rw [if_neg hw, ih (by omega)]
        by_cases hjn : j = n
        · subst hjn; simp [hw]
        · have h1 : (j < n + 1) = (j < n) := by simp; omega
          simp [h1]
  rw [key (cnt t) (Nat.le_refl _)]
  simp [hj]

/-- Nothing a sub-element detected traps: no zero divisor, and no exception while FPX is clear (R169, R174). -/
def quiet (f : Nat → Nat → SubRes) : Prop := ∀ l i, (f l i).divZero = false

theorem note_quiet (d : Detected) (l : Nat) (r : SubRes) (h : r.divZero = false) : (d.note l r).divZero = d.divZero := by
  simp [Detected.note, h, Detected.add]

theorem laneResult_divZero (e : Env) (t : EType) (d : OpCode) (f : Nat → Nat → SubRes) (l : Nat) (h : quiet f) :
    (laneResult e t d f l).2.divZero = [] := by
  simp only [laneResult]
  have key : ∀ (xs : List Nat) (acc : Word × Detected), acc.2.divZero = [] →
      (xs.foldl (fun (acc : Word × Detected) i =>
        if e.writes d l i t then (put acc.1 t i (f l i).val, acc.2.note l (f l i)) else acc) acc).2.divZero = [] := by
    intro xs
    induction xs with
    | nil => intro acc ha; simpa using ha
    | cons x xs ih =>
      intro acc ha
      rw [List.foldl_cons]
      apply ih
      split
      · simp [note_quiet _ _ _ (h l x), ha]
      · exact ha
  exact key _ _ rfl

theorem all_divZero (ds : List Detected) (h : ∀ d ∈ ds, d.divZero = []) : (Detected.all ds).divZero = [] := by
  have key : ∀ (ds : List Detected) (a : Detected), a.divZero = [] → (∀ d ∈ ds, d.divZero = []) →
      (ds.foldl Detected.merge a).divZero = [] := by
    intro ds
    induction ds with
    | nil => intro a ha _; simpa using ha
    | cons x xs ih =>
      intro a ha h
      rw [List.foldl_cons]
      apply ih
      · simp [Detected.merge, ha, h x (by simp)]
      · intro d hd; exact h d (by simp [hd])
  exact key ds _ rfl h

/-- A lane-wise instruction with FPX clear and no zero divisor writes each lane's result after its latency. -/
theorem lanewise_done (e : Env) (s : State) (lat : Nat) (t : EType) (d : OpCode) (f : Nat → Nat → SubRes)
    (hx : modeFpx e.w.mode = false) (hf : quiet f) :
    lanewise e s lat t d f =
      .done (finished e s lat ((e.evalLanes d).flatMap fun l => destWrite d l (laneResult e t d f l).1)) := by
  simp only [lanewise, Env.conclude, Env.valueTrap]
  rw [all_divZero]
  · simp [hx, Env.finish, finished, List.flatMap_map]
  · intro x hxm
    simp only [List.map_map, List.mem_map] at hxm
    obtain ⟨l, _, rfl⟩ := hxm
    exact laneResult_divZero e t d f l hf

/-- Nothing a sub-element detected traps, whatever FPX holds. -/
def silent (f : Nat → Nat → SubRes) : Prop := ∀ l i, (f l i).divZero = false ∧ (f l i).exc = 0

theorem silent.quiet {f : Nat → Nat → SubRes} (h : silent f) : quiet f := fun l i => (h l i).1

theorem note_silent (d : Detected) (l : Nat) (r : SubRes) (h : r.divZero = false ∧ r.exc = 0) (hd : d.exc = 0) :
    (d.note l r).exc = 0 := by
  simp [Detected.note, h.1, h.2, Detected.add, hd]

theorem laneResult_exc (e : Env) (t : EType) (d : OpCode) (f : Nat → Nat → SubRes) (l : Nat) (h : silent f) :
    (laneResult e t d f l).2.exc = 0 := by
  simp only [laneResult]
  have key : ∀ (xs : List Nat) (acc : Word × Detected), acc.2.exc = 0 →
      (xs.foldl (fun (acc : Word × Detected) i =>
        if e.writes d l i t then (put acc.1 t i (f l i).val, acc.2.note l (f l i)) else acc) acc).2.exc = 0 := by
    intro xs
    induction xs with
    | nil => intro acc ha; simpa using ha
    | cons x xs ih =>
      intro acc ha
      rw [List.foldl_cons]
      apply ih
      split
      · exact note_silent _ _ _ (h l x) ha
      · exact ha
  exact key _ _ rfl

theorem all_exc (ds : List Detected) (h : ∀ d ∈ ds, d.exc = 0) : (Detected.all ds).exc = 0 := by
  have key : ∀ (ds : List Detected) (a : Detected), a.exc = 0 → (∀ d ∈ ds, d.exc = 0) →
      (ds.foldl Detected.merge a).exc = 0 := by
    intro ds
    induction ds with
    | nil => intro a ha _; simpa using ha
    | cons x xs ih =>
      intro a ha h
      rw [List.foldl_cons]
      apply ih
      · simp [Detected.merge, ha, h x (by simp)]
      · intro d hd; exact h d (by simp [hd])
  exact key ds _ rfl h

/-- A lane-wise instruction whose sub-elements detect nothing writes each lane's result after its latency, whatever FPX
holds. -/
theorem lanewise_silent (e : Env) (s : State) (lat : Nat) (t : EType) (d : OpCode) (f : Nat → Nat → SubRes)
    (hf : silent f) :
    lanewise e s lat t d f =
      .done (finished e s lat ((e.evalLanes d).flatMap fun l => destWrite d l (laneResult e t d f l).1)) := by
  have h1 : (Detected.all (((e.evalLanes d).map fun l => (l, laneResult e t d f l)).map fun x => x.2.2)).divZero = [] :=
    all_divZero _ (by
      intro x hxm
      simp only [List.map_map, List.mem_map] at hxm
      obtain ⟨l, _, rfl⟩ := hxm
      exact laneResult_divZero e t d f l hf.quiet)
  have h2 : (Detected.all (((e.evalLanes d).map fun l => (l, laneResult e t d f l)).map fun x => x.2.2)).exc = 0 :=
    all_exc _ (by
      intro x hxm
      simp only [List.map_map, List.mem_map] at hxm
      obtain ⟨l, _, rfl⟩ := hxm
      exact laneResult_exc e t d f l hf)
  simp only [lanewise, Env.conclude, Env.valueTrap]
  rw [h1, h2]
  simp [Env.finish, finished, List.flatMap_map]

/-- A lane-wise instruction that never divides completes, or raises FP_EXCEPTION under FPX (R169). -/
theorem lanewise_cases (e : Env) (s : State) (lat : Nat) (t : EType) (d : OpCode) (f : Nat → Nat → SubRes) (hf : quiet f) :
    lanewise e s lat t d f =
      .done (finished e s lat ((e.evalLanes d).flatMap fun l => destWrite d l (laneResult e t d f l).1)) ∨
    (modeFpx e.w.mode = true ∧ ∃ (lanes : Mask) (detail : Word),
      lanewise e s lat t d f = .trap .fpException (some lanes) 0 detail) := by
  by_cases hx : modeFpx e.w.mode = true
  · have h1 : (Detected.all (((e.evalLanes d).map fun l => (l, laneResult e t d f l)).map fun x => x.2.2)).divZero = [] :=
      all_divZero _ (by
        intro x hxm
        simp only [List.map_map, List.mem_map] at hxm
        obtain ⟨l, _, rfl⟩ := hxm
        exact laneResult_divZero e t d f l hf)
    simp only [lanewise, Env.conclude, Env.valueTrap, h1, hx]
    simp only [List.isEmpty_nil, Bool.not_true, Bool.false_eq_true, if_false, Bool.true_and]
    by_cases hc : (Detected.all (((e.evalLanes d).map fun l => (l, laneResult e t d f l)).map fun x => x.2.2)).exc % 8 = 0
    · left
      rw [if_neg (by simpa using hc)]
      simp [Env.finish, finished, List.flatMap_map]
    · right
      rw [if_pos (by simpa using hc)]
      exact ⟨trivial, _, _, rfl⟩
  · left; exact lanewise_done e s lat t d f (by simpa using hx) hf

end Sys2Proof.Machine
end

