-- ==== Sys2Proof/Laws/Memory.lean ====
section
/-! SUPPORT. Laws of the sorted maps and of memory: what a look-up gives after an update, and that every update keeps the
canonical form. -/

namespace Sys2Proof.Machine

variable {α : Type}

/-- Every key of the map is above `b`. -/
theorem mrises_some_iff (b : Nat) (m : SMap α) :
    mrises (some b) m = true ↔ mrises none m = true ∧ ∀ e ∈ m, b < e.1 := by
  induction m generalizing b with
  | nil => simp [mrises]
  | cons e m ih =>
    obtain ⟨k, x⟩ := e
    simp only [mrises, Bool.and_eq_true, decide_eq_true_eq, Bool.true_and, List.mem_cons, forall_eq_or_imp]
    rw [ih k]
    constructor
    · rintro ⟨h1, h2, h3⟩; exact ⟨⟨h2, h3⟩, h1, fun e he => Nat.lt_trans h1 (h3 e he)⟩
    · rintro ⟨⟨h2, h3⟩, h1, _⟩; exact ⟨h1, h2, h3⟩

theorem mrises_mput (b : Option Nat) (m : SMap α) (k : Nat) (x : α) (h : mrises b m = true)
    (hb : ∀ c, b = some c → c < k) : mrises b (mput m k x) = true := by
  induction m generalizing b with
  | nil => cases b <;> simp_all [mput, mrises]
  | cons e m ih =>
    obtain ⟨k', y⟩ := e
    simp only [mrises, Bool.and_eq_true] at h
    simp only [mput]
    split
    · subst_vars; simp only [mrises, Bool.and_eq_true]; exact h
    · split
      · simp only [mrises, Bool.and_eq_true, decide_eq_true_eq]
        refine ⟨?_, by assumption, h.2⟩
        cases b with
        | none => rfl
        | some c => simpa using hb c rfl
      · simp only [mrises, Bool.and_eq_true]
        exact ⟨h.1, ih _ h.2 (by intro c hc; cases hc; omega)⟩

theorem mrises_weaken (b : Option Nat) (k : Nat) (m : SMap α) (h : mrises (some k) m = true)
    (hb : ∀ c, b = some c → c < k) : mrises b m = true := by
  cases m with
  | nil => rfl
  | cons e m =>
    obtain ⟨k', y⟩ := e
    simp only [mrises, Bool.and_eq_true, decide_eq_true_eq] at h ⊢
    refine ⟨?_, h.2⟩
    cases b with
    | none => rfl
    | some c => have := hb c rfl; simp; omega

theorem mrises_filter (b : Option Nat) (m : SMap α) (f : Nat × α → Bool) (h : mrises b m = true) :
    mrises b (m.filter f) = true := by
  induction m generalizing b with
  | nil => rfl
  | cons e m ih =>
    obtain ⟨k', y⟩ := e
    simp only [mrises, Bool.and_eq_true] at h
    simp only [List.filter_cons]
    split
    · simp only [mrises, Bool.and_eq_true]; exact ⟨h.1, ih _ h.2⟩
    · apply ih
      apply mrises_weaken b k' m h.2
      intro c hc; subst hc; simpa using h.1

theorem mrises_merase (b : Option Nat) (m : SMap α) (k : Nat) (h : mrises b m = true) : mrises b (merase m k) = true :=
  mrises_filter b m _ h

/-- A key's entry replaced or added is found, and every other key is found as before. -/
theorem mfind_mput (m : SMap α) (k j : Nat) (x : α) : mfind (mput m k x) j = if j = k then some x else mfind m j := by
  induction m with
  | nil =>
    by_cases hj : j = k
    · simp [mput, mfind, hj]
    · have : k ≠ j := fun h => hj h.symm
      simp [mput, mfind, hj, this]
  | cons e m ih =>
    obtain ⟨k', y⟩ := e
    simp only [mput]
    split
    · rename_i hk
      subst hk
      by_cases hj : j = k'
      · simp [mfind, hj]
      · have : ¬ k' = j := fun h => hj h.symm
        simp [mfind, hj, this]
    · rename_i hk
      split
      · by_cases hj : j = k
        · subst hj; simp [mfind]
        · have h1 : ¬ k = j := fun h => hj h.symm
          simp [mfind, hj, h1]
      · simp only [mfind]
        rw [ih]
        by_cases hj : j = k
        · subst hj; simp [hk]
        · simp [hj]

/-- A key erased is found no more, and every other key is found as before. -/
theorem mfind_merase (m : SMap α) (k j : Nat) : mfind (merase m k) j = if j = k then none else mfind m j := by
  induction m with
  | nil => simp [merase, mfind]
  | cons e m ih =>
    obtain ⟨k', y⟩ := e
    have hc : merase ((k', y) :: m) k = if k' = k then merase m k else (k', y) :: merase m k := by
      by_cases h : k' = k <;> simp [merase, h]
    rw [hc]
    by_cases hk : k' = k
    · rw [if_pos hk, ih]
      by_cases hj : j = k
      · simp [hj]
      · have h1 : ¬ k' = j := fun h => hj (h.symm.trans hk)
        simp [mfind, hj, h1]
    · rw [if_neg hk]
      simp only [mfind]
      rw [ih]
      by_cases hj : j = k
      · subst hj; simp [hk]
      · simp [hj]

theorem mem_mput (m : SMap α) (k : Nat) (x : α) (e : Nat × α) (h : e ∈ mput m k x) : e = (k, x) ∨ e ∈ m := by
  induction m with
  | nil => simpa [mput] using h
  | cons a m ih =>
    obtain ⟨k', y⟩ := a
    simp only [mput] at h
    split at h
    · simp only [List.mem_cons] at h ⊢; rcases h with h | h <;> simp [h]
    · split at h
      · simp only [List.mem_cons] at h ⊢; rcases h with h | h | h <;> simp [h]
      · simp only [List.mem_cons] at h ⊢
        rcases h with h | h
        · simp [h]
        · rcases ih h with h | h <;> simp [h]

theorem mem_merase (m : SMap α) (k : Nat) (e : Nat × α) (h : e ∈ merase m k) : e ∈ m := List.mem_of_mem_filter h

variable [DecidableEq α]

theorem mwf_rises (d : α) (m : SMap α) (h : mwf d m = true) : mrises none m = true := by
  simp only [mwf, Bool.and_eq_true] at h; exact h.1

/-- A map reads back what it was last given at a key, and every other key as before. -/
theorem mget_mset (d : α) (m : SMap α) (k j : Nat) (x : α) :
    mget d (mset d m k x) j = if j = k then x else mget d m j := by
  unfold mset mget
  split
  · subst_vars; rw [mfind_merase]; split <;> simp
  · rw [mfind_mput]; split <;> simp

/-- Setting a key keeps the canonical form. -/
theorem mwf_mset (d : α) (m : SMap α) (k : Nat) (x : α) (h : mwf d m = true) : mwf d (mset d m k x) = true := by
  have hr := mwf_rises d m h
  simp only [mwf, Bool.and_eq_true, List.all_eq_true, decide_eq_true_eq] at h ⊢
  unfold mset
  split
  · exact ⟨mrises_merase none m k hr, fun e he => h.2 e (mem_merase m k e he)⟩
  · refine ⟨mrises_mput none m k x hr (by intro c hc; cases hc), fun e he => ?_⟩
    rcases mem_mput m k x e he with h1 | h1
    · subst h1; assumption
    · exact h.2 e h1

theorem mwf_filter (d : α) (m : SMap α) (f : Nat × α → Bool) (h : mwf d m = true) : mwf d (m.filter f) = true := by
  simp only [mwf, Bool.and_eq_true, List.all_eq_true] at h ⊢
  exact ⟨mrises_filter none m f h.1, fun e he => h.2 e (List.mem_of_mem_filter he)⟩

/-! ## Memory -/

theorem Memory.wf_nil : Memory.wf [] = true := rfl

theorem Memory.wf_writeByte (m : List Host.Cell) (a : Nat) (x : Byte) (h : Memory.wf m = true) :
    Memory.wf (writeByte m a x) = true := mwf_mset unwritten m a x h

theorem Memory.wf_writeBytes (m : List Host.Cell) (a : Nat) (xs : List Byte) (h : Memory.wf m = true) :
    Memory.wf (writeBytes m a xs) = true := by
  induction xs generalizing m a with
  | nil => exact h
  | cons x xs ih => exact ih _ _ (Memory.wf_writeByte m a x h)

theorem Memory.wf_clearRange (m : List Host.Cell) (a n : Nat) (h : Memory.wf m = true) :
    Memory.wf (clearRange m a n) = true := mwf_filter unwritten m _ h

theorem Memory.wf_reset :
    Memory.wf State.reset.dram = true ∧ Memory.wf State.reset.scratch = true ∧ Memory.wf State.reset.weight = true :=
  ⟨rfl, rfl, rfl⟩

/-- One byte read after one byte written. -/
theorem readByte_writeByte (m : List Host.Cell) (a b : Nat) (x : Byte) :
    readByte (writeByte m a x) b = if b = a then x else readByte m b := mget_mset unwritten m a b x

end Sys2Proof.Machine
end

