-- ==== Sys2Proof/Laws/Pend.lean ====
section
/-! SUPPORT. An outstanding instruction, said once: what `pend` and `finished` change of the state and of the issuing
wave. -/

namespace Sys2Proof.Machine

variable {s : State} {e : Env}

/-- The completion `pend` queues for a wave. -/
def pended (w : Wave) (e : Env) (ws : List RegWrite) (path : AccessPath) (store : Bool) (ss : Nat) : Completion :=
  { seqNo := w.nextSeq, setf := e.iss.setf, writes := ws, path := path, store := store, returned := false, ss := w64 ss,
    fmt := none }

/-- The wave with an instruction outstanding. -/
def Wave.pends (w : Wave) (e : Env) (c : Completion) : Wave :=
  { w.raise e.iss.setf with nextSeq := w.nextSeq + 1, pending := w.pending ++ [c] }

theorem raise_eq (w : Wave) (k : Nat) : w.raise k = { w with flags := (w.raise k).flags } := by
  unfold Wave.raise; split <;> rfl

theorem Wave.pends_uid (w : Wave) (e : Env) (c : Completion) : (w.pends e c).uid = w.uid := by
  unfold Wave.pends Wave.raise; dsimp only; split <;> rfl

/-- What `pend` answers and leaves, for a wave that is there. -/
theorem pend_some {w : Wave} (h : s.wave? e.w.uid = some w) (lat : Nat) (ws : List RegWrite) (path : AccessPath)
    (store : Bool) (ss : Nat) :
    pend s e (some lat) ws path store ss = (w.nextSeq,
      (s.setWave (w.pends e (pended w e ws path store ss))).schedule lat (.instructionComplete w.uid w.nextSeq)) := by
  unfold pend; rw [h]; rfl

theorem pend_none {w : Wave} (h : s.wave? e.w.uid = some w) (ws : List RegWrite) (path : AccessPath)
    (store : Bool) (ss : Nat) :
    pend s e none ws path store ss = (w.nextSeq, s.setWave (w.pends e (pended w e ws path store ss))) := by
  unfold pend; rw [h]; rfl

theorem finished_wave {w : Wave} (h : s.wave? e.w.uid = some w) (lat : Nat) (ws : List RegWrite) :
    (finished e s lat ws).wave? e.w.uid = some (w.pends e (pended w e ws .none false 0)) := by
  have hu := wave?_uid h
  unfold finished
  rw [pend_some h]
  change (s.setWave _).wave? _ = _
  rw [wave?_setWave, h]
  simp [Wave.pends_uid]

theorem finished_clock {w : Wave} (h : s.wave? e.w.uid = some w) (lat : Nat) (ws : List RegWrite) :
    (finished e s lat ws).clock = s.clock := by
  unfold finished; rw [pend_some h]; rfl

end Sys2Proof.Machine
end

