-- ==== Sys2Proof/Laws/PerInstr.lean ====
section
/-! SUPPORT. The laws made per instruction. RoundTrip: the decoder reads back the words the encoder writes. -/

namespace Sys2Proof.Laws

/-! ## The fields of a word -/

theorem rawWord_word (op d a b : BitVec 8) :
    rawWord (word op d a b) = { op := op, d := d, a := a, b := b, ab := a ++ b, dab := d ++ a ++ b } := by
  unfold rawWord word
  congr 1 <;> (apply BitVec.eq_of_getLsbD_eq; intro i hi; simp only [BitVec.getLsbD_extractLsb', BitVec.getLsbD_append]; grind)

theorem rawWord_wordAB (op d : BitVec 8) (ab : BitVec 16) :
    rawWord (wordAB op d ab) =
      { op := op, d := d, a := ab.extractLsb' 8 8, b := ab.extractLsb' 0 8, ab := ab, dab := d ++ ab } := by
  unfold rawWord wordAB
  congr 1 <;> (apply BitVec.eq_of_getLsbD_eq; intro i hi; simp only [BitVec.getLsbD_extractLsb', BitVec.getLsbD_append]; grind)

theorem rawWord_wordWide (op : BitVec 8) (dab : BitVec 24) :
    rawWord (wordWide op dab) =
      { op := op, d := dab.extractLsb' 16 8, a := dab.extractLsb' 8 8, b := dab.extractLsb' 0 8,
        ab := dab.extractLsb' 0 16, dab := dab } := by
  unfold rawWord wordWide
  congr 1 <;> (apply BitVec.eq_of_getLsbD_eq; intro i hi; simp only [BitVec.getLsbD_extractLsb', BitVec.getLsbD_append]; grind)

/-- A literal-taking instruction outside slot 3 takes its literal. -/
theorem withLiteral_of_lt (slot : Nat) (next : Word32) (f : Word32 → Except Cause Instr) (h : slot < 3) :
    withLiteral slot next f = f next := if_pos h

/-! ## RoundTrip -/

/-- The decoder reads an instruction's words back as that instruction, whatever word follows one that takes no literal. -/
def RoundTrip.Statement (i : Instr) : Prop :=
  ∀ (w : Word32) (lit : Option Word32) (next : Word32) (slot : Nat), i.encodable = true → encode i = some (w, lit) →
    (lit.isSome = true → slot < 3) → decodeInstr slot w (lit.getD next) = .ok i

theorem RoundTrip.nop : Statement .nop := by
  intro w lit next slot hw he hs
  cases he
  unfold decodeInstr
  rw [rawWord_word]
  rfl
theorem RoundTrip.setmode (lit : Word32) : Statement (.setmode lit) := by
  intro w lit next slot hw he hs
  cases he
  unfold decodeInstr
  rw [rawWord_word]
  exact Eq.trans (b := withLiteral slot lit fun x => .ok (.setmode x)) rfl (withLiteral_of_lt slot lit _ (hs rfl))
theorem RoundTrip.getmode (d : OpCode) : Statement (.getmode d) := by
  intro w lit next slot hw he hs
  cases he
  unfold decodeInstr
  rw [rawWord_word]
  rfl
theorem RoundTrip.rep (count stride : Byte) : Statement (.rep count stride) := by
  intro w lit next slot hw he hs
  cases he
  unfold decodeInstr
  rw [rawWord_word]
  rfl
theorem RoundTrip.bra (off : BitVec 24) : Statement (.bra off) := by
  intro w lit next slot hw he hs
  cases he
  unfold decodeInstr
  rw [rawWord_wordWide]
  rfl
theorem RoundTrip.brp (p : OpCode) (off : BitVec 16) : Statement (.brp p off) := by
  intro w lit next slot hw he hs
  cases he
  unfold decodeInstr
  rw [rawWord_wordAB]
  rfl
theorem RoundTrip.bru (u : OpCode) (off : BitVec 16) : Statement (.bru u off) := by
  intro w lit next slot hw he hs
  cases he
  unfold decodeInstr
  rw [rawWord_wordAB]
  rfl
theorem RoundTrip.jmpi (a : OpCode) : Statement (.jmpi a) := by
  intro w lit next slot hw he hs
  cases he
  unfold decodeInstr
  rw [rawWord_word]
  rfl
theorem RoundTrip.call (d : OpCode) (off : BitVec 16) : Statement (.call d off) := by
  intro w lit next slot hw he hs
  cases he
  unfold decodeInstr
  rw [rawWord_wordAB]
  rfl
theorem RoundTrip.calli (d a : OpCode) : Statement (.calli d a) := by
  intro w lit next slot hw he hs
  cases he
  unfold decodeInstr
  rw [rawWord_word]
  rfl
theorem RoundTrip.ret (a : OpCode) : Statement (.ret a) := by
  intro w lit next slot hw he hs
  cases he
  unfold decodeInstr
  rw [rawWord_word]
  rfl
theorem RoundTrip.rjoin (token : BitVec 16) : Statement (.rjoin token) := by
  intro w lit next slot hw he hs
  cases he
  unfold decodeInstr
  rw [rawWord_wordAB]
  rfl
theorem RoundTrip.exit : Statement .exit := by
  intro w lit next slot hw he hs
  cases he
  unfold decodeInstr
  rw [rawWord_word]
  rfl
theorem RoundTrip.tail : Statement .tail := by
  intro w lit next slot hw he hs
  cases he
  unfold decodeInstr
  rw [rawWord_word]
  rfl
theorem RoundTrip.yield : Statement .yield := by
  intro w lit next slot hw he hs
  cases he
  unfold decodeInstr
  rw [rawWord_word]
  rfl
theorem RoundTrip.waitf (n : Byte) (flags : BitVec 16) : Statement (.waitf n flags) := by
  intro w lit next slot hw he hs
  cases he
  unfold decodeInstr
  rw [rawWord_wordAB]
  rfl
theorem RoundTrip.setjoin (d a : OpCode) : Statement (.setjoin d a) := by
  intro w lit next slot hw he hs
  cases he
  unfold decodeInstr
  rw [rawWord_word]
  rfl
theorem RoundTrip.setleave (a : OpCode) : Statement (.setleave a) := by
  intro w lit next slot hw he hs
  cases he
  unfold decodeInstr
  rw [rawWord_word]
  rfl
theorem RoundTrip.arrive (a b : OpCode) : Statement (.arrive a b) := by
  intro w lit next slot hw he hs
  cases he
  unfold decodeInstr
  rw [rawWord_word]
  rfl
theorem RoundTrip.waitb (d a : OpCode) : Statement (.waitb d a) := by
  intro w lit next slot hw he hs
  cases he
  unfold decodeInstr
  rw [rawWord_word]
  rfl
theorem RoundTrip.arrwait (d a b : OpCode) : Statement (.arrwait d a b) := by
  intro w lit next slot hw he hs
  cases he
  unfold decodeInstr
  rw [rawWord_word]
  rfl
theorem RoundTrip.signal (a b : OpCode) : Statement (.signal a b) := by
  intro w lit next slot hw he hs
  cases he
  unfold decodeInstr
  rw [rawWord_word]
  rfl
theorem RoundTrip.sigwait (d a b : OpCode) : Statement (.sigwait d a b) := by
  intro w lit next slot hw he hs
  cases he
  unfold decodeInstr
  rw [rawWord_word]
  rfl
theorem RoundTrip.bind (d a b : OpCode) : Statement (.bind d a b) := by
  intro w lit next slot hw he hs
  cases he
  unfold decodeInstr
  rw [rawWord_word]
  rfl
theorem RoundTrip.unbind (a b : OpCode) : Statement (.unbind a b) := by
  intro w lit next slot hw he hs
  cases he
  unfold decodeInstr
  rw [rawWord_word]
  rfl
theorem RoundTrip.rgnin (id : BitVec 16) : Statement (.rgnin id) := by
  intro w lit next slot hw he hs
  cases he
  unfold decodeInstr
  rw [rawWord_wordAB]
  rfl
theorem RoundTrip.rgnout (id : BitVec 16) : Statement (.rgnout id) := by
  intro w lit next slot hw he hs
  cases he
  unfold decodeInstr
  rw [rawWord_wordAB]
  rfl
theorem RoundTrip.spt (n : Byte) : Statement (.spt n) := by
  intro w lit next slot hw he hs
  cases he
  unfold decodeInstr
  rw [rawWord_word]
  simp only [Instr.encodable, bne_iff_ne, ne_eq] at hw
  exact Eq.trans (b := .ok (if n == 0xFF then .psave else .spt n)) rfl (congrArg Except.ok (if_neg (by simpa using hw)))
theorem RoundTrip.psave : Statement .psave := by
  intro w lit next slot hw he hs
  cases he
  unfold decodeInstr
  rw [rawWord_word]
  rfl
theorem RoundTrip.trap (code : BitVec 16) : Statement (.trap code) := by
  intro w lit next slot hw he hs
  cases he
  unfold decodeInstr
  rw [rawWord_wordAB]
  rfl
theorem RoundTrip.tret : Statement .tret := by
  intro w lit next slot hw he hs
  cases he
  unfold decodeInstr
  rw [rawWord_word]
  rfl
theorem RoundTrip.sysrd (d : OpCode) (lit : Word32) : Statement (.sysrd d lit) := by
  intro w lit next slot hw he hs
  cases he
  unfold decodeInstr
  rw [rawWord_word]
  exact Eq.trans (b := withLiteral slot lit fun x => .ok (.sysrd d x)) rfl (withLiteral_of_lt slot lit _ (hs rfl))
theorem RoundTrip.syswr (a : OpCode) (lit : Word32) : Statement (.syswr a lit) := by
  intro w lit next slot hw he hs
  cases he
  unfold decodeInstr
  rw [rawWord_word]
  exact Eq.trans (b := withLiteral slot lit fun x => .ok (.syswr a x)) rfl (withLiteral_of_lt slot lit _ (hs rfl))
theorem RoundTrip.add (d a b : OpCode) : Statement (.add d a b) := by
  intro w lit next slot hw he hs
  cases he
  unfold decodeInstr
  rw [rawWord_word]
  rfl
theorem RoundTrip.sub (d a b : OpCode) : Statement (.sub d a b) := by
  intro w lit next slot hw he hs
  cases he
  unfold decodeInstr
  rw [rawWord_word]
  rfl
theorem RoundTrip.mul (d a b : OpCode) : Statement (.mul d a b) := by
  intro w lit next slot hw he hs
  cases he
  unfold decodeInstr
  rw [rawWord_word]
  rfl
theorem RoundTrip.fma (d a b : OpCode) : Statement (.fma d a b) := by
  intro w lit next slot hw he hs
  cases he
  unfold decodeInstr
  rw [rawWord_word]
  rfl
theorem RoundTrip.fms (d a b : OpCode) : Statement (.fms d a b) := by
  intro w lit next slot hw he hs
  cases he
  unfold decodeInstr
  rw [rawWord_word]
  rfl
theorem RoundTrip.fnma (d a b : OpCode) : Statement (.fnma d a b) := by
  intro w lit next slot hw he hs
  cases he
  unfold decodeInstr
  rw [rawWord_word]
  rfl
theorem RoundTrip.min (d a b : OpCode) : Statement (.min d a b) := by
  intro w lit next slot hw he hs
  cases he
  unfold decodeInstr
  rw [rawWord_word]
  rfl
theorem RoundTrip.max (d a b : OpCode) : Statement (.max d a b) := by
  intro w lit next slot hw he hs
  cases he
  unfold decodeInstr
  rw [rawWord_word]
  rfl
theorem RoundTrip.abs (d a : OpCode) : Statement (.abs d a) := by
  intro w lit next slot hw he hs
  cases he
  unfold decodeInstr
  rw [rawWord_word]
  rfl
theorem RoundTrip.neg (d a : OpCode) : Statement (.neg d a) := by
  intro w lit next slot hw he hs
  cases he
  unfold decodeInstr
  rw [rawWord_word]
  rfl
theorem RoundTrip.adds (d a b : OpCode) : Statement (.adds d a b) := by
  intro w lit next slot hw he hs
  cases he
  unfold decodeInstr
  rw [rawWord_word]
  rfl
theorem RoundTrip.subs (d a b : OpCode) : Statement (.subs d a b) := by
  intro w lit next slot hw he hs
  cases he
  unfold decodeInstr
  rw [rawWord_word]
  rfl
theorem RoundTrip.mulhi (d a b : OpCode) : Statement (.mulhi d a b) := by
  intro w lit next slot hw he hs
  cases he
  unfold decodeInstr
  rw [rawWord_word]
  rfl
theorem RoundTrip.dot2 (d a b : OpCode) : Statement (.dot2 d a b) := by
  intro w lit next slot hw he hs
  cases he
  unfold decodeInstr
  rw [rawWord_word]
  rfl
theorem RoundTrip.divi (d a b : OpCode) : Statement (.divi d a b) := by
  intro w lit next slot hw he hs
  cases he
  unfold decodeInstr
  rw [rawWord_word]
  rfl
theorem RoundTrip.remi (d a b : OpCode) : Statement (.remi d a b) := by
  intro w lit next slot hw he hs
  cases he
  unfold decodeInstr
  rw [rawWord_word]
  rfl
theorem RoundTrip.and (d a b : OpCode) : Statement (.and d a b) := by
  intro w lit next slot hw he hs
  cases he
  unfold decodeInstr
  rw [rawWord_word]
  rfl
theorem RoundTrip.or (d a b : OpCode) : Statement (.or d a b) := by
  intro w lit next slot hw he hs
  cases he
  unfold decodeInstr
  rw [rawWord_word]
  rfl
theorem RoundTrip.xor (d a b : OpCode) : Statement (.xor d a b) := by
  intro w lit next slot hw he hs
  cases he
  unfold decodeInstr
  rw [rawWord_word]
  rfl
theorem RoundTrip.andn (d a b : OpCode) : Statement (.andn d a b) := by
  intro w lit next slot hw he hs
  cases he
  unfold decodeInstr
  rw [rawWord_word]
  rfl
theorem RoundTrip.shl (d a b : OpCode) : Statement (.shl d a b) := by
  intro w lit next slot hw he hs
  cases he
  unfold decodeInstr
  rw [rawWord_word]
  rfl
theorem RoundTrip.shrl (d a b : OpCode) : Statement (.shrl d a b) := by
  intro w lit next slot hw he hs
  cases he
  unfold decodeInstr
  rw [rawWord_word]
  rfl
theorem RoundTrip.shra (d a b : OpCode) : Statement (.shra d a b) := by
  intro w lit next slot hw he hs
  cases he
  unfold decodeInstr
  rw [rawWord_word]
  rfl
theorem RoundTrip.rol (d a b : OpCode) : Statement (.rol d a b) := by
  intro w lit next slot hw he hs
  cases he
  unfold decodeInstr
  rw [rawWord_word]
  rfl
theorem RoundTrip.cmpeq (d a b : OpCode) : Statement (.cmpeq d a b) := by
  intro w lit next slot hw he hs
  cases he
  unfold decodeInstr
  rw [rawWord_word]
  rfl
theorem RoundTrip.cmpne (d a b : OpCode) : Statement (.cmpne d a b) := by
  intro w lit next slot hw he hs
  cases he
  unfold decodeInstr
  rw [rawWord_word]
  rfl
theorem RoundTrip.cmplt (d a b : OpCode) : Statement (.cmplt d a b) := by
  intro w lit next slot hw he hs
  cases he
  unfold decodeInstr
  rw [rawWord_word]
  rfl
theorem RoundTrip.cmple (d a b : OpCode) : Statement (.cmple d a b) := by
  intro w lit next slot hw he hs
  cases he
  unfold decodeInstr
  rw [rawWord_word]
  rfl
theorem RoundTrip.cmpun (d a b : OpCode) : Statement (.cmpun d a b) := by
  intro w lit next slot hw he hs
  cases he
  unfold decodeInstr
  rw [rawWord_word]
  rfl
theorem RoundTrip.cls (d a : OpCode) (lit : Word32) : Statement (.cls d a lit) := by
  intro w lit next slot hw he hs
  cases he
  unfold decodeInstr
  rw [rawWord_word]
  exact Eq.trans (b := withLiteral slot lit fun x => .ok (.cls d a x)) rfl (withLiteral_of_lt slot lit _ (hs rfl))
theorem RoundTrip.sel (d a b : OpCode) (lit : Word32) : Statement (.sel d a b lit) := by
  intro w lit next slot hw he hs
  cases he
  unfold decodeInstr
  rw [rawWord_word]
  exact Eq.trans (b := withLiteral slot lit fun x => .ok (.sel d a b x)) rfl (withLiteral_of_lt slot lit _ (hs rfl))
theorem RoundTrip.mov (d a : OpCode) : Statement (.mov d a) := by
  intro w lit next slot hw he hs
  cases he
  unfold decodeInstr
  rw [rawWord_word]
  rfl
theorem RoundTrip.cvt (d a : OpCode) (lit : Word32) : Statement (.cvt d a lit) := by
  intro w lit next slot hw he hs
  cases he
  unfold decodeInstr
  rw [rawWord_word]
  exact Eq.trans (b := withLiteral slot lit fun x => .ok (.cvt d a x)) rfl (withLiteral_of_lt slot lit _ (hs rfl))
theorem RoundTrip.cvtr (d a : OpCode) (lit : Word32) : Statement (.cvtr d a lit) := by
  intro w lit next slot hw he hs
  cases he
  unfold decodeInstr
  rw [rawWord_word]
  exact Eq.trans (b := withLiteral slot lit fun x => .ok (.cvtr d a x)) rfl (withLiteral_of_lt slot lit _ (hs rfl))
theorem RoundTrip.pack (d a b : OpCode) : Statement (.pack d a b) := by
  intro w lit next slot hw he hs
  cases he
  unfold decodeInstr
  rw [rawWord_word]
  rfl
theorem RoundTrip.widen (d a : OpCode) (h : Byte) : Statement (.widen d a h) := by
  intro w lit next slot hw he hs
  cases he
  unfold decodeInstr
  rw [rawWord_word]
  rfl
theorem RoundTrip.dec8 (d a : OpCode) (g : Byte) : Statement (.dec8 d a g) := by
  intro w lit next slot hw he hs
  cases he
  unfold decodeInstr
  rw [rawWord_word]
  rfl
theorem RoundTrip.enc8 (d a b : OpCode) : Statement (.enc8 d a b) := by
  intro w lit next slot hw he hs
  cases he
  unfold decodeInstr
  rw [rawWord_word]
  rfl
theorem RoundTrip.dec6 (d a : OpCode) (g : Byte) : Statement (.dec6 d a g) := by
  intro w lit next slot hw he hs
  cases he
  unfold decodeInstr
  rw [rawWord_word]
  rfl
theorem RoundTrip.enc6 (d a : OpCode) : Statement (.enc6 d a) := by
  intro w lit next slot hw he hs
  cases he
  unfold decodeInstr
  rw [rawWord_word]
  rfl
theorem RoundTrip.scaleb (d a b : OpCode) : Statement (.scaleb d a b) := by
  intro w lit next slot hw he hs
  cases he
  unfold decodeInstr
  rw [rawWord_word]
  rfl
theorem RoundTrip.rndint (d a : OpCode) : Statement (.rndint d a) := by
  intro w lit next slot hw he hs
  cases he
  unfold decodeInstr
  rw [rawWord_word]
  rfl
theorem RoundTrip.dot4 (d a b : OpCode) : Statement (.dot4 d a b) := by
  intro w lit next slot hw he hs
  cases he
  unfold decodeInstr
  rw [rawWord_word]
  rfl
theorem RoundTrip.sad (d a b : OpCode) : Statement (.sad d a b) := by
  intro w lit next slot hw he hs
  cases he
  unfold decodeInstr
  rw [rawWord_word]
  rfl
theorem RoundTrip.madi (d a b : OpCode) : Statement (.madi d a b) := by
  intro w lit next slot hw he hs
  cases he
  unfold decodeInstr
  rw [rawWord_word]
  rfl
theorem RoundTrip.addc (d a b : OpCode) (lit : Word32) : Statement (.addc d a b lit) := by
  intro w lit next slot hw he hs
  cases he
  unfold decodeInstr
  rw [rawWord_word]
  exact Eq.trans (b := withLiteral slot lit fun x => .ok (.addc d a b x)) rfl (withLiteral_of_lt slot lit _ (hs rfl))
theorem RoundTrip.subb (d a b : OpCode) (lit : Word32) : Statement (.subb d a b lit) := by
  intro w lit next slot hw he hs
  cases he
  unfold decodeInstr
  rw [rawWord_word]
  exact Eq.trans (b := withLiteral slot lit fun x => .ok (.subb d a b x)) rfl (withLiteral_of_lt slot lit _ (hs rfl))
theorem RoundTrip.frcp2 (d a : OpCode) : Statement (.frcp2 d a) := by
  intro w lit next slot hw he hs
  cases he
  unfold decodeInstr
  rw [rawWord_word]
  rfl
theorem RoundTrip.movl (d : OpCode) (lit : Word32) : Statement (.movl d lit) := by
  intro w lit next slot hw he hs
  cases he
  unfold decodeInstr
  rw [rawWord_word]
  exact Eq.trans (b := withLiteral slot lit fun x => .ok (.movl d x)) rfl (withLiteral_of_lt slot lit _ (hs rfl))
theorem RoundTrip.movs (d : OpCode) (lit : Word32) : Statement (.movs d lit) := by
  intro w lit next slot hw he hs
  cases he
  unfold decodeInstr
  rw [rawWord_word]
  exact Eq.trans (b := withLiteral slot lit fun x => .ok (.movs d x)) rfl (withLiteral_of_lt slot lit _ (hs rfl))
theorem RoundTrip.iota (d a b : OpCode) : Statement (.iota d a b) := by
  intro w lit next slot hw he hs
  cases he
  unfold decodeInstr
  rw [rawWord_word]
  rfl
theorem RoundTrip.shfl (d a b : OpCode) (lit : Word32) : Statement (.shfl d a b lit) := by
  intro w lit next slot hw he hs
  cases he
  unfold decodeInstr
  rw [rawWord_word]
  exact Eq.trans (b := withLiteral slot lit fun x => .ok (.shfl d a b x)) rfl (withLiteral_of_lt slot lit _ (hs rfl))
theorem RoundTrip.bcast (d a b : OpCode) : Statement (.bcast d a b) := by
  intro w lit next slot hw he hs
  cases he
  unfold decodeInstr
  rw [rawWord_word]
  rfl
theorem RoundTrip.lreduce (d a : OpCode) (lit : Word32) : Statement (.lreduce d a lit) := by
  intro w lit next slot hw he hs
  cases he
  unfold decodeInstr
  rw [rawWord_word]
  exact Eq.trans (b := withLiteral slot lit fun x => .ok (.lreduce d a x)) rfl (withLiteral_of_lt slot lit _ (hs rfl))
theorem RoundTrip.lscan (d a : OpCode) (lit : Word32) : Statement (.lscan d a lit) := by
  intro w lit next slot hw he hs
  cases he
  unfold decodeInstr
  rw [rawWord_word]
  exact Eq.trans (b := withLiteral slot lit fun x => .ok (.lscan d a x)) rfl (withLiteral_of_lt slot lit _ (hs rfl))
theorem RoundTrip.ballot (d p : OpCode) : Statement (.ballot d p) := by
  intro w lit next slot hw he hs
  cases he
  unfold decodeInstr
  rw [rawWord_word]
  rfl
theorem RoundTrip.vote (d p : OpCode) (lit : Word32) : Statement (.vote d p lit) := by
  intro w lit next slot hw he hs
  cases he
  unfold decodeInstr
  rw [rawWord_word]
  exact Eq.trans (b := withLiteral slot lit fun x => .ok (.vote d p x)) rfl (withLiteral_of_lt slot lit _ (hs rfl))
theorem RoundTrip.plogic (d a b : OpCode) (lit : Word32) : Statement (.plogic d a b lit) := by
  intro w lit next slot hw he hs
  cases he
  unfold decodeInstr
  rw [rawWord_word]
  exact Eq.trans (b := withLiteral slot lit fun x => .ok (.plogic d a b x)) rfl (withLiteral_of_lt slot lit _ (hs rfl))
theorem RoundTrip.pset (d : OpCode) (lit : Word32) : Statement (.pset d lit) := by
  intro w lit next slot hw he hs
  cases he
  unfold decodeInstr
  rw [rawWord_word]
  exact Eq.trans (b := withLiteral slot lit fun x => .ok (.pset d x)) rfl (withLiteral_of_lt slot lit _ (hs rfl))
theorem RoundTrip.pget (d p : OpCode) : Statement (.pget d p) := by
  intro w lit next slot hw he hs
  cases he
  unfold decodeInstr
  rw [rawWord_word]
  rfl
theorem RoundTrip.pmov (d a : OpCode) : Statement (.pmov d a) := by
  intro w lit next slot hw he hs
  cases he
  unfold decodeInstr
  rw [rawWord_word]
  rfl
theorem RoundTrip.bmm (d a b : OpCode) : Statement (.bmm d a b) := by
  intro w lit next slot hw he hs
  cases he
  unfold decodeInstr
  rw [rawWord_word]
  rfl
theorem RoundTrip.bmmx (d a b : OpCode) : Statement (.bmmx d a b) := by
  intro w lit next slot hw he hs
  cases he
  unfold decodeInstr
  rw [rawWord_word]
  rfl
theorem RoundTrip.pdep (d a b : OpCode) : Statement (.pdep d a b) := by
  intro w lit next slot hw he hs
  cases he
  unfold decodeInstr
  rw [rawWord_word]
  rfl
theorem RoundTrip.pext (d a b : OpCode) : Statement (.pext d a b) := by
  intro w lit next slot hw he hs
  cases he
  unfold decodeInstr
  rw [rawWord_word]
  rfl
theorem RoundTrip.bpld (k : Byte) (a : OpCode) : Statement (.bpld k a) := by
  intro w lit next slot hw he hs
  cases he
  unfold decodeInstr
  rw [rawWord_word]
  rfl
theorem RoundTrip.bperm (d a : OpCode) (k : Byte) : Statement (.bperm d a k) := by
  intro w lit next slot hw he hs
  cases he
  unfold decodeInstr
  rw [rawWord_word]
  rfl
theorem RoundTrip.popc (d a : OpCode) : Statement (.popc d a) := by
  intro w lit next slot hw he hs
  cases he
  unfold decodeInstr
  rw [rawWord_word]
  rfl
theorem RoundTrip.clz (d a : OpCode) : Statement (.clz d a) := by
  intro w lit next slot hw he hs
  cases he
  unfold decodeInstr
  rw [rawWord_word]
  rfl
theorem RoundTrip.ctz (d a : OpCode) : Statement (.ctz d a) := by
  intro w lit next slot hw he hs
  cases he
  unfold decodeInstr
  rw [rawWord_word]
  rfl
theorem RoundTrip.brev (d a : OpCode) : Statement (.brev d a) := by
  intro w lit next slot hw he hs
  cases he
  unfold decodeInstr
  rw [rawWord_word]
  rfl
theorem RoundTrip.bfx (d a : OpCode) (lit : Word32) : Statement (.bfx d a lit) := by
  intro w lit next slot hw he hs
  cases he
  unfold decodeInstr
  rw [rawWord_word]
  exact Eq.trans (b := withLiteral slot lit fun x => .ok (.bfx d a x)) rfl (withLiteral_of_lt slot lit _ (hs rfl))
theorem RoundTrip.bfi (d a : OpCode) (lit : Word32) : Statement (.bfi d a lit) := by
  intro w lit next slot hw he hs
  cases he
  unfold decodeInstr
  rw [rawWord_word]
  exact Eq.trans (b := withLiteral slot lit fun x => .ok (.bfi d a x)) rfl (withLiteral_of_lt slot lit _ (hs rfl))
theorem RoundTrip.gfmul8 (d a b : OpCode) : Statement (.gfmul8 d a b) := by
  intro w lit next slot hw he hs
  cases he
  unfold decodeInstr
  rw [rawWord_word]
  rfl
theorem RoundTrip.clmul (d a b : OpCode) : Statement (.clmul d a b) := by
  intro w lit next slot hw he hs
  cases he
  unfold decodeInstr
  rw [rawWord_word]
  rfl
theorem RoundTrip.clmulh (d a b : OpCode) : Statement (.clmulh d a b) := by
  intro w lit next slot hw he hs
  cases he
  unfold decodeInstr
  rw [rawWord_word]
  rfl
theorem RoundTrip.byteperm (d a b : OpCode) : Statement (.byteperm d a b) := by
  intro w lit next slot hw he hs
  cases he
  unfold decodeInstr
  rw [rawWord_word]
  rfl
theorem RoundTrip.rcp (d a : OpCode) : Statement (.rcp d a) := by
  intro w lit next slot hw he hs
  cases he
  unfold decodeInstr
  rw [rawWord_word]
  rfl
theorem RoundTrip.rsq (d a : OpCode) : Statement (.rsq d a) := by
  intro w lit next slot hw he hs
  cases he
  unfold decodeInstr
  rw [rawWord_word]
  rfl
theorem RoundTrip.sqrt (d a : OpCode) : Statement (.sqrt d a) := by
  intro w lit next slot hw he hs
  cases he
  unfold decodeInstr
  rw [rawWord_word]
  rfl
theorem RoundTrip.exp2 (d a : OpCode) : Statement (.exp2 d a) := by
  intro w lit next slot hw he hs
  cases he
  unfold decodeInstr
  rw [rawWord_word]
  rfl
theorem RoundTrip.log2 (d a : OpCode) : Statement (.log2 d a) := by
  intro w lit next slot hw he hs
  cases he
  unfold decodeInstr
  rw [rawWord_word]
  rfl
theorem RoundTrip.sinpi (d a : OpCode) : Statement (.sinpi d a) := by
  intro w lit next slot hw he hs
  cases he
  unfold decodeInstr
  rw [rawWord_word]
  rfl
theorem RoundTrip.cospi (d a : OpCode) : Statement (.cospi d a) := by
  intro w lit next slot hw he hs
  cases he
  unfold decodeInstr
  rw [rawWord_word]
  rfl
theorem RoundTrip.tanh (d a : OpCode) : Statement (.tanh d a) := by
  intro w lit next slot hw he hs
  cases he
  unfold decodeInstr
  rw [rawWord_word]
  rfl
theorem RoundTrip.divf (d a b : OpCode) : Statement (.divf d a b) := by
  intro w lit next slot hw he hs
  cases he
  unfold decodeInstr
  rw [rawWord_word]
  rfl
theorem RoundTrip.ld8 (d a b : OpCode) : Statement (.ld8 d a b) := by
  intro w lit next slot hw he hs
  cases he
  unfold decodeInstr
  rw [rawWord_word]
  rfl
theorem RoundTrip.ld16 (d a b : OpCode) : Statement (.ld16 d a b) := by
  intro w lit next slot hw he hs
  cases he
  unfold decodeInstr
  rw [rawWord_word]
  rfl
theorem RoundTrip.ld32 (d a b : OpCode) : Statement (.ld32 d a b) := by
  intro w lit next slot hw he hs
  cases he
  unfold decodeInstr
  rw [rawWord_word]
  rfl
theorem RoundTrip.ld64 (d a b : OpCode) : Statement (.ld64 d a b) := by
  intro w lit next slot hw he hs
  cases he
  unfold decodeInstr
  rw [rawWord_word]
  rfl
theorem RoundTrip.st8 (d a b : OpCode) : Statement (.st8 d a b) := by
  intro w lit next slot hw he hs
  cases he
  unfold decodeInstr
  rw [rawWord_word]
  rfl
theorem RoundTrip.st16 (d a b : OpCode) : Statement (.st16 d a b) := by
  intro w lit next slot hw he hs
  cases he
  unfold decodeInstr
  rw [rawWord_word]
  rfl
theorem RoundTrip.st32 (d a b : OpCode) : Statement (.st32 d a b) := by
  intro w lit next slot hw he hs
  cases he
  unfold decodeInstr
  rw [rawWord_word]
  rfl
theorem RoundTrip.st64 (d a b : OpCode) : Statement (.st64 d a b) := by
  intro w lit next slot hw he hs
  cases he
  unfold decodeInstr
  rw [rawWord_word]
  rfl
theorem RoundTrip.ldl (d a b : OpCode) : Statement (.ldl d a b) := by
  intro w lit next slot hw he hs
  cases he
  unfold decodeInstr
  rw [rawWord_word]
  rfl
theorem RoundTrip.stl (d a b : OpCode) : Statement (.stl d a b) := by
  intro w lit next slot hw he hs
  cases he
  unfold decodeInstr
  rw [rawWord_word]
  rfl
theorem RoundTrip.sld (d a b : OpCode) (lit : Word32) : Statement (.sld d a b lit) := by
  intro w lit next slot hw he hs
  cases he
  unfold decodeInstr
  rw [rawWord_word]
  exact Eq.trans (b := withLiteral slot lit fun x => .ok (.sld d a b x)) rfl (withLiteral_of_lt slot lit _ (hs rfl))
theorem RoundTrip.sst (d a b : OpCode) (lit : Word32) : Statement (.sst d a b lit) := by
  intro w lit next slot hw he hs
  cases he
  unfold decodeInstr
  rw [rawWord_word]
  exact Eq.trans (b := withLiteral slot lit fun x => .ok (.sst d a b x)) rfl (withLiteral_of_lt slot lit _ (hs rfl))
theorem RoundTrip.nld (d a b : OpCode) (lit : Word32) : Statement (.nld d a b lit) := by
  intro w lit next slot hw he hs
  cases he
  unfold decodeInstr
  rw [rawWord_word]
  exact Eq.trans (b := withLiteral slot lit fun x => .ok (.nld d a b x)) rfl (withLiteral_of_lt slot lit _ (hs rfl))
theorem RoundTrip.nst (d a b : OpCode) (lit : Word32) : Statement (.nst d a b lit) := by
  intro w lit next slot hw he hs
  cases he
  unfold decodeInstr
  rw [rawWord_word]
  exact Eq.trans (b := withLiteral slot lit fun x => .ok (.nst d a b x)) rfl (withLiteral_of_lt slot lit _ (hs rfl))
theorem RoundTrip.wld (d a b : OpCode) : Statement (.wld d a b) := by
  intro w lit next slot hw he hs
  cases he
  unfold decodeInstr
  rw [rawWord_word]
  rfl
theorem RoundTrip.cstr (d a p : OpCode) : Statement (.cstr d a p) := by
  intro w lit next slot hw he hs
  cases he
  unfold decodeInstr
  rw [rawWord_word]
  rfl
theorem RoundTrip.xld (d a p : OpCode) : Statement (.xld d a p) := by
  intro w lit next slot hw he hs
  cases he
  unfold decodeInstr
  rw [rawWord_word]
  rfl
theorem RoundTrip.tld (d a b : OpCode) (lit : Word32) : Statement (.tld d a b lit) := by
  intro w lit next slot hw he hs
  cases he
  unfold decodeInstr
  rw [rawWord_word]
  exact Eq.trans (b := withLiteral slot lit fun x => .ok (.tld d a b x)) rfl (withLiteral_of_lt slot lit _ (hs rfl))
theorem RoundTrip.tst (d a b : OpCode) (lit : Word32) : Statement (.tst d a b lit) := by
  intro w lit next slot hw he hs
  cases he
  unfold decodeInstr
  rw [rawWord_word]
  exact Eq.trans (b := withLiteral slot lit fun x => .ok (.tst d a b x)) rfl (withLiteral_of_lt slot lit _ (hs rfl))
theorem RoundTrip.pref (a b : OpCode) : Statement (.pref a b) := by
  intro w lit next slot hw he hs
  cases he
  unfold decodeInstr
  rw [rawWord_word]
  rfl
theorem RoundTrip.sealRegion (a b : OpCode) : Statement (.sealRegion a b) := by
  intro w lit next slot hw he hs
  cases he
  unfold decodeInstr
  rw [rawWord_word]
  rfl
theorem RoundTrip.unsealRegion (a b : OpCode) : Statement (.unsealRegion a b) := by
  intro w lit next slot hw he hs
  cases he
  unfold decodeInstr
  rw [rawWord_word]
  rfl
theorem RoundTrip.fence (scope : Byte) : Statement (.fence scope) := by
  intro w lit next slot hw he hs
  cases he
  unfold decodeInstr
  rw [rawWord_word]
  rfl
theorem RoundTrip.xfence (scope paths : Byte) : Statement (.xfence scope paths) := by
  intro w lit next slot hw he hs
  cases he
  unfold decodeInstr
  rw [rawWord_word]
  rfl
theorem RoundTrip.pin (a b : OpCode) : Statement (.pin a b) := by
  intro w lit next slot hw he hs
  cases he
  unfold decodeInstr
  rw [rawWord_word]
  rfl
theorem RoundTrip.unpin (a b : OpCode) : Statement (.unpin a b) := by
  intro w lit next slot hw he hs
  cases he
  unfold decodeInstr
  rw [rawWord_word]
  rfl
theorem RoundTrip.cinv (a b : OpCode) : Statement (.cinv a b) := by
  intro w lit next slot hw he hs
  cases he
  unfold decodeInstr
  rw [rawWord_word]
  rfl
theorem RoundTrip.cwb (a b : OpCode) : Statement (.cwb a b) := by
  intro w lit next slot hw he hs
  cases he
  unfold decodeInstr
  rw [rawWord_word]
  rfl
theorem RoundTrip.ldacq (d a b : OpCode) (lit : Word32) : Statement (.ldacq d a b lit) := by
  intro w lit next slot hw he hs
  cases he
  unfold decodeInstr
  rw [rawWord_word]
  exact Eq.trans (b := withLiteral slot lit fun x => .ok (.ldacq d a b x)) rfl (withLiteral_of_lt slot lit _ (hs rfl))
theorem RoundTrip.strel (d a b : OpCode) (lit : Word32) : Statement (.strel d a b lit) := by
  intro w lit next slot hw he hs
  cases he
  unfold decodeInstr
  rw [rawWord_word]
  exact Eq.trans (b := withLiteral slot lit fun x => .ok (.strel d a b x)) rfl (withLiteral_of_lt slot lit _ (hs rfl))
theorem RoundTrip.aadd (d a b : OpCode) (lit : Word32) : Statement (.aadd d a b lit) := by
  intro w lit next slot hw he hs
  cases he
  unfold decodeInstr
  rw [rawWord_word]
  exact Eq.trans (b := withLiteral slot lit fun x => .ok (.aadd d a b x)) rfl (withLiteral_of_lt slot lit _ (hs rfl))
theorem RoundTrip.amin (d a b : OpCode) (lit : Word32) : Statement (.amin d a b lit) := by
  intro w lit next slot hw he hs
  cases he
  unfold decodeInstr
  rw [rawWord_word]
  exact Eq.trans (b := withLiteral slot lit fun x => .ok (.amin d a b x)) rfl (withLiteral_of_lt slot lit _ (hs rfl))
theorem RoundTrip.amax (d a b : OpCode) (lit : Word32) : Statement (.amax d a b lit) := by
  intro w lit next slot hw he hs
  cases he
  unfold decodeInstr
  rw [rawWord_word]
  exact Eq.trans (b := withLiteral slot lit fun x => .ok (.amax d a b x)) rfl (withLiteral_of_lt slot lit _ (hs rfl))
theorem RoundTrip.aand (d a b : OpCode) (lit : Word32) : Statement (.aand d a b lit) := by
  intro w lit next slot hw he hs
  cases he
  unfold decodeInstr
  rw [rawWord_word]
  exact Eq.trans (b := withLiteral slot lit fun x => .ok (.aand d a b x)) rfl (withLiteral_of_lt slot lit _ (hs rfl))
theorem RoundTrip.aor (d a b : OpCode) (lit : Word32) : Statement (.aor d a b lit) := by
  intro w lit next slot hw he hs
  cases he
  unfold decodeInstr
  rw [rawWord_word]
  exact Eq.trans (b := withLiteral slot lit fun x => .ok (.aor d a b x)) rfl (withLiteral_of_lt slot lit _ (hs rfl))
theorem RoundTrip.axor (d a b : OpCode) (lit : Word32) : Statement (.axor d a b lit) := by
  intro w lit next slot hw he hs
  cases he
  unfold decodeInstr
  rw [rawWord_word]
  exact Eq.trans (b := withLiteral slot lit fun x => .ok (.axor d a b x)) rfl (withLiteral_of_lt slot lit _ (hs rfl))
theorem RoundTrip.aswp (d a b : OpCode) (lit : Word32) : Statement (.aswp d a b lit) := by
  intro w lit next slot hw he hs
  cases he
  unfold decodeInstr
  rw [rawWord_word]
  exact Eq.trans (b := withLiteral slot lit fun x => .ok (.aswp d a b x)) rfl (withLiteral_of_lt slot lit _ (hs rfl))
theorem RoundTrip.acas (d a b : OpCode) (lit : Word32) : Statement (.acas d a b lit) := by
  intro w lit next slot hw he hs
  cases he
  unfold decodeInstr
  rw [rawWord_word]
  exact Eq.trans (b := withLiteral slot lit fun x => .ok (.acas d a b x)) rfl (withLiteral_of_lt slot lit _ (hs rfl))
theorem RoundTrip.afadd (d a b : OpCode) (lit : Word32) : Statement (.afadd d a b lit) := by
  intro w lit next slot hw he hs
  cases he
  unfold decodeInstr
  rw [rawWord_word]
  exact Eq.trans (b := withLiteral slot lit fun x => .ok (.afadd d a b x)) rfl (withLiteral_of_lt slot lit _ (hs rfl))
theorem RoundTrip.axadd (d a b : OpCode) (lit : Word32) : Statement (.axadd d a b lit) := by
  intro w lit next slot hw he hs
  cases he
  unfold decodeInstr
  rw [rawWord_word]
  exact Eq.trans (b := withLiteral slot lit fun x => .ok (.axadd d a b x)) rfl (withLiteral_of_lt slot lit _ (hs rfl))
theorem RoundTrip.lres (d a : OpCode) (lit : Word32) : Statement (.lres d a lit) := by
  intro w lit next slot hw he hs
  cases he
  unfold decodeInstr
  rw [rawWord_word]
  exact Eq.trans (b := withLiteral slot lit fun x => .ok (.lres d a x)) rfl (withLiteral_of_lt slot lit _ (hs rfl))
theorem RoundTrip.scond (d a b : OpCode) (lit : Word32) : Statement (.scond d a b lit) := by
  intro w lit next slot hw he hs
  cases he
  unfold decodeInstr
  rw [rawWord_word]
  exact Eq.trans (b := withLiteral slot lit fun x => .ok (.scond d a b x)) rfl (withLiteral_of_lt slot lit _ (hs rfl))
theorem RoundTrip.tbegin (d : OpCode) : Statement (.tbegin d) := by
  intro w lit next slot hw he hs
  cases he
  unfold decodeInstr
  rw [rawWord_word]
  rfl
theorem RoundTrip.tcommit (d : OpCode) : Statement (.tcommit d) := by
  intro w lit next slot hw he hs
  cases he
  unfold decodeInstr
  rw [rawWord_word]
  rfl
theorem RoundTrip.tabort (code : BitVec 16) : Statement (.tabort code) := by
  intro w lit next slot hw he hs
  cases he
  unfold decodeInstr
  rw [rawWord_wordAB]
  rfl
theorem RoundTrip.tstat (d : OpCode) : Statement (.tstat d) := by
  intro w lit next slot hw he hs
  cases he
  unfold decodeInstr
  rw [rawWord_word]
  rfl
theorem RoundTrip.mfmt (a : OpCode) : Statement (.mfmt a) := by
  intro w lit next slot hw he hs
  cases he
  unfold decodeInstr
  rw [rawWord_word]
  rfl
theorem RoundTrip.mma (acc : Byte) (a b : OpCode) : Statement (.mma acc a b) := by
  intro w lit next slot hw he hs
  cases he
  unfold decodeInstr
  rw [rawWord_word]
  rfl
theorem RoundTrip.mmaz (acc : Byte) (a b : OpCode) : Statement (.mmaz acc a b) := by
  intro w lit next slot hw he hs
  cases he
  unfold decodeInstr
  rw [rawWord_word]
  rfl
theorem RoundTrip.mbatch (n : Byte) : Statement (.mbatch n) := by
  intro w lit next slot hw he hs
  cases he
  unfold decodeInstr
  rw [rawWord_word]
  rfl
theorem RoundTrip.mwait (n : Byte) : Statement (.mwait n) := by
  intro w lit next slot hw he hs
  cases he
  unfold decodeInstr
  rw [rawWord_word]
  rfl
theorem RoundTrip.mdrain (acc : Byte) (a b : OpCode) : Statement (.mdrain acc a b) := by
  intro w lit next slot hw he hs
  cases he
  unfold decodeInstr
  rw [rawWord_word]
  rfl
theorem RoundTrip.maccld (acc : Byte) (a : OpCode) : Statement (.maccld acc a) := by
  intro w lit next slot hw he hs
  cases he
  unfold decodeInstr
  rw [rawWord_word]
  rfl
theorem RoundTrip.mstage (n : Byte) (a b : OpCode) : Statement (.mstage n a b) := by
  intro w lit next slot hw he hs
  cases he
  unfold decodeInstr
  rw [rawWord_word]
  rfl
theorem RoundTrip.mstat (d : OpCode) (acc : Byte) : Statement (.mstat d acc) := by
  intro w lit next slot hw he hs
  cases he
  unfold decodeInstr
  rw [rawWord_word]
  rfl
theorem RoundTrip.cpy (d a : OpCode) : Statement (.cpy d a) := by
  intro w lit next slot hw he hs
  cases he
  unfold decodeInstr
  rw [rawWord_word]
  rfl
theorem RoundTrip.cpyd (d a : OpCode) : Statement (.cpyd d a) := by
  intro w lit next slot hw he hs
  cases he
  unfold decodeInstr
  rw [rawWord_word]
  rfl
theorem RoundTrip.cpym (d a : OpCode) : Statement (.cpym d a) := by
  intro w lit next slot hw he hs
  cases he
  unfold decodeInstr
  rw [rawWord_word]
  rfl
theorem RoundTrip.cpymc (d a : OpCode) : Statement (.cpymc d a) := by
  intro w lit next slot hw he hs
  cases he
  unfold decodeInstr
  rw [rawWord_word]
  rfl
theorem RoundTrip.cpyn (d a : OpCode) : Statement (.cpyn d a) := by
  intro w lit next slot hw he hs
  cases he
  unfold decodeInstr
  rw [rawWord_word]
  rfl
theorem RoundTrip.halo (d a b : OpCode) : Statement (.halo d a b) := by
  intro w lit next slot hw he hs
  cases he
  unfold decodeInstr
  rw [rawWord_word]
  rfl
theorem RoundTrip.haloq (d a : OpCode) : Statement (.haloq d a) := by
  intro w lit next slot hw he hs
  cases he
  unfold decodeInstr
  rw [rawWord_word]
  rfl
theorem RoundTrip.evpop (d : OpCode) : Statement (.evpop d) := by
  intro w lit next slot hw he hs
  cases he
  unfold decodeInstr
  rw [rawWord_word]
  rfl
theorem RoundTrip.evpeek (d : OpCode) : Statement (.evpeek d) := by
  intro w lit next slot hw he hs
  cases he
  unfold decodeInstr
  rw [rawWord_word]
  rfl
theorem RoundTrip.wsld (d a : OpCode) : Statement (.wsld d a) := by
  intro w lit next slot hw he hs
  cases he
  unfold decodeInstr
  rw [rawWord_word]
  rfl
theorem RoundTrip.arm (a b : OpCode) : Statement (.arm a b) := by
  intro w lit next slot hw he hs
  cases he
  unfold decodeInstr
  rw [rawWord_word]
  rfl
theorem RoundTrip.disarm (a : OpCode) : Statement (.disarm a) := by
  intro w lit next slot hw he hs
  cases he
  unfold decodeInstr
  rw [rawWord_word]
  rfl
theorem RoundTrip.cpyx (d a : OpCode) : Statement (.cpyx d a) := by
  intro w lit next slot hw he hs
  cases he
  unfold decodeInstr
  rw [rawWord_word]
  rfl
theorem RoundTrip.wpush (a b : OpCode) : Statement (.wpush a b) := by
  intro w lit next slot hw he hs
  cases he
  unfold decodeInstr
  rw [rawWord_word]
  rfl
theorem RoundTrip.wpop (d : OpCode) : Statement (.wpop d) := by
  intro w lit next slot hw he hs
  cases he
  unfold decodeInstr
  rw [rawWord_word]
  rfl
theorem RoundTrip.wpopw (d : OpCode) : Statement (.wpopw d) := by
  intro w lit next slot hw he hs
  cases he
  unfold decodeInstr
  rw [rawWord_word]
  rfl
theorem RoundTrip.wdone : Statement .wdone := by
  intro w lit next slot hw he hs
  cases he
  unfold decodeInstr
  rw [rawWord_word]
  rfl
theorem RoundTrip.wfloor (d : OpCode) : Statement (.wfloor d) := by
  intro w lit next slot hw he hs
  cases he
  unfold decodeInstr
  rw [rawWord_word]
  rfl
theorem RoundTrip.wstat (d : OpCode) : Statement (.wstat d) := by
  intro w lit next slot hw he hs
  cases he
  unfold decodeInstr
  rw [rawWord_word]
  rfl
theorem RoundTrip.ckrole (d : OpCode) : Statement (.ckrole d) := by
  intro w lit next slot hw he hs
  cases he
  unfold decodeInstr
  rw [rawWord_word]
  rfl
theorem RoundTrip.cksig (d : OpCode) (k : Byte) : Statement (.cksig d k) := by
  intro w lit next slot hw he hs
  cases he
  unfold decodeInstr
  rw [rawWord_word]
  rfl
theorem RoundTrip.tmark (mark : BitVec 16) : Statement (.tmark mark) := by
  intro w lit next slot hw he hs
  cases he
  unfold decodeInstr
  rw [rawWord_wordAB]
  rfl
theorem RoundTrip.halt : Statement .halt := by
  intro w lit next slot hw he hs
  cases he
  unfold decodeInstr
  rw [rawWord_word]
  rfl
theorem RoundTrip.clkq (d : OpCode) : Statement (.clkq d) := by
  intro w lit next slot hw he hs
  cases he
  unfold decodeInstr
  rw [rawWord_word]
  rfl
theorem RoundTrip.pwload (a : OpCode) : Statement (.pwload a) := by
  intro w lit next slot hw he hs
  cases he
  unfold decodeInstr
  rw [rawWord_word]
  rfl
theorem RoundTrip.instructionComplete (uid seqNo : Nat) : Statement (.instructionComplete uid seqNo) := by
  intro w lit next slot hw he hs
  cases he
theorem RoundTrip.repIteration (uid path : Nat) : Statement (.repIteration uid path) := by
  intro w lit next slot hw he hs
  cases he
theorem RoundTrip.starvationOverride (core part : Nat) : Statement (.starvationOverride core part) := by
  intro w lit next slot hw he hs
  cases he
theorem RoundTrip.operandLogReplay (uid entry : Nat) : Statement (.operandLogReplay uid entry) := by
  intro w lit next slot hw he hs
  cases he
theorem RoundTrip.haltTrapDelivery (uid path : Nat) : Statement (.haltTrapDelivery uid path) := by
  intro w lit next slot hw he hs
  cases he
theorem RoundTrip.trackerDrain (core entry : Nat) : Statement (.trackerDrain core entry) := by
  intro w lit next slot hw he hs
  cases he
theorem RoundTrip.preemptBoundExpiry (fn ctx : Nat) : Statement (.preemptBoundExpiry fn ctx) := by
  intro w lit next slot hw he hs
  cases he
theorem RoundTrip.blockRestore (lid bid run : Nat) : Statement (.blockRestore lid bid run) := by
  intro w lit next slot hw he hs
  cases he
theorem RoundTrip.weightStoreRefresh : Statement .weightStoreRefresh := by
  intro w lit next slot hw he hs
  cases he
theorem RoundTrip.atomicPerformAtHome (req : Nat) : Statement (.atomicPerformAtHome req) := by
  intro w lit next slot hw he hs
  cases he
theorem RoundTrip.matrixGroupStart (core : Nat) : Statement (.matrixGroupStart core) := by
  intro w lit next slot hw he hs
  cases he
theorem RoundTrip.stageReadDone (core group : Nat) : Statement (.stageReadDone core group) := by
  intro w lit next slot hw he hs
  cases he
theorem RoundTrip.matrixGroupComplete (core group : Nat) : Statement (.matrixGroupComplete core group) := by
  intro w lit next slot hw he hs
  cases he
theorem RoundTrip.copyCommandExecute (core chan : Nat) : Statement (.copyCommandExecute core chan) := by
  intro w lit next slot hw he hs
  cases he
theorem RoundTrip.multicastDelivery (core chan target : Nat) : Statement (.multicastDelivery core chan target) := by
  intro w lit next slot hw he hs
  cases he
theorem RoundTrip.copyCommandEnd (core chan : Nat) : Statement (.copyCommandEnd core chan) := by
  intro w lit next slot hw he hs
  cases he
theorem RoundTrip.floorLowerRound (dom req : Nat) : Statement (.floorLowerRound dom req) := by
  intro w lit next slot hw he hs
  cases he
theorem RoundTrip.floorRaiseRound (dom : Nat) : Statement (.floorRaiseRound dom) := by
  intro w lit next slot hw he hs
  cases he
theorem RoundTrip.stealRequest (dom thief : Nat) : Statement (.stealRequest dom thief) := by
  intro w lit next slot hw he hs
  cases he
theorem RoundTrip.stolenTaskArrival (dom thief : Nat) : Statement (.stolenTaskArrival dom thief) := by
  intro w lit next slot hw he hs
  cases he
theorem RoundTrip.spillwayRefill (dom node : Nat) : Statement (.spillwayRefill dom node) := by
  intro w lit next slot hw he hs
  cases he
theorem RoundTrip.terminationTokenWave (dom : Nat) : Statement (.terminationTokenWave dom) := by
  intro w lit next slot hw he hs
  cases he
theorem RoundTrip.domainDown (dom : Nat) : Statement (.domainDown dom) := by
  intro w lit next slot hw he hs
  cases he
theorem RoundTrip.checkVote (lid bid : Nat) : Statement (.checkVote lid bid) := by
  intro w lit next slot hw he hs
  cases he
theorem RoundTrip.holdFullTimeout (uid : Nat) : Statement (.holdFullTimeout uid) := by
  intro w lit next slot hw he hs
  cases he
theorem RoundTrip.demeritDecay (core : Nat) : Statement (.demeritDecay core) := by
  intro w lit next slot hw he hs
  cases he
theorem RoundTrip.tlbMissWalk (asid va : Nat) (write fetch : Bool) : Statement (.tlbMissWalk asid va write fetch) := by
  intro w lit next slot hw he hs
  cases he
theorem RoundTrip.reclassification (asid page : Nat) : Statement (.reclassification asid page) := by
  intro w lit next slot hw he hs
  cases he
theorem RoundTrip.tlbInvalidateDone (fn : Nat) : Statement (.tlbInvalidateDone fn) := by
  intro w lit next slot hw he hs
  cases he
theorem RoundTrip.mapChangeFrozen (fn : Nat) : Statement (.mapChangeFrozen fn) := by
  intro w lit next slot hw he hs
  cases he
theorem RoundTrip.packetAdmit (fn q : Nat) : Statement (.packetAdmit fn q) := by
  intro w lit next slot hw he hs
  cases he
theorem RoundTrip.blockPlace (lid : Nat) : Statement (.blockPlace lid) := by
  intro w lit next slot hw he hs
  cases he
theorem RoundTrip.launchCompletion (lid : Nat) : Statement (.launchCompletion lid) := by
  intro w lit next slot hw he hs
  cases he
theorem RoundTrip.priorityAgeing (fn q : Nat) : Statement (.priorityAgeing fn q) := by
  intro w lit next slot hw he hs
  cases he
theorem RoundTrip.flrScrub (fn : Nat) : Statement (.flrScrub fn) := by
  intro w lit next slot hw he hs
  cases he
theorem RoundTrip.controlInterval (modulePower : Nat) (temps : List (Nat × Nat)) : Statement (.controlInterval modulePower temps) := by
  intro w lit next slot hw he hs
  cases he
theorem RoundTrip.canopyMemberSilent (chip : Nat) : Statement (.canopyMemberSilent chip) := by
  intro w lit next slot hw he hs
  cases he
theorem RoundTrip.canopyMemberExpel (chip : Nat) : Statement (.canopyMemberExpel chip) := by
  intro w lit next slot hw he hs
  cases he
theorem RoundTrip.canopyHeartbeatSend : Statement .canopyHeartbeatSend := by
  intro w lit next slot hw he hs
  cases he
theorem RoundTrip.canopyCeilingChange : Statement .canopyCeilingChange := by
  intro w lit next slot hw he hs
  cases he
theorem RoundTrip.profileSample (core part : Nat) : Statement (.profileSample core part) := by
  intro w lit next slot hw he hs
  cases he
theorem RoundTrip.captureSnapshot (fn : Nat) : Statement (.captureSnapshot fn) := by
  intro w lit next slot hw he hs
  cases he
theorem RoundTrip.imageWriteComplete : Statement .imageWriteComplete := by
  intro w lit next slot hw he hs
  cases he
theorem RoundTrip.lifecycleWipeComplete : Statement .lifecycleWipeComplete := by
  intro w lit next slot hw he hs
  cases he
theorem RoundTrip.haltRequest (uid : Nat) : Statement (.haltRequest uid) := by
  intro w lit next slot hw he hs
  cases he
theorem RoundTrip.haloFaceReceive (window rowLen rows : Nat) (dstOff dstPitch : Nat) (sig : Bool) (barOff : Nat) (data : List Byte) : Statement (.haloFaceReceive window rowLen rows dstOff dstPitch sig barOff data) := by
  intro w lit next slot hw he hs
  cases he
theorem RoundTrip.fabricLinkLoss (chip : Nat) : Statement (.fabricLinkLoss chip) := by
  intro w lit next slot hw he hs
  cases he
theorem RoundTrip.fqrespReplay (fn seqNo : Nat) : Statement (.fqrespReplay fn seqNo) := by
  intro w lit next slot hw he hs
  cases he
theorem RoundTrip.fqrespRefuse (fn seqNo : Nat) : Statement (.fqrespRefuse fn seqNo) := by
  intro w lit next slot hw he hs
  cases he
theorem RoundTrip.fqheadWrite (fn : Nat) (value : Word) : Statement (.fqheadWrite fn value) := by
  intro w lit next slot hw he hs
  cases he
theorem RoundTrip.tlbinvRange (fn asid : Nat) : Statement (.tlbinvRange fn asid) := by
  intro w lit next slot hw he hs
  cases he
theorem RoundTrip.tlbinvAsid (fn asid : Nat) : Statement (.tlbinvAsid fn asid) := by
  intro w lit next slot hw he hs
  cases he
theorem RoundTrip.tlbinvFunction (fn asid : Nat) : Statement (.tlbinvFunction fn asid) := by
  intro w lit next slot hw he hs
  cases he
theorem RoundTrip.mapChange (fn asid : Nat) : Statement (.mapChange fn asid) := by
  intro w lit next slot hw he hs
  cases he
theorem RoundTrip.mapChangeForce (fn asid : Nat) : Statement (.mapChangeForce fn asid) := by
  intro w lit next slot hw he hs
  cases he
theorem RoundTrip.mapdone (fn : Nat) : Statement (.mapdone fn) := by
  intro w lit next slot hw he hs
  cases he
theorem RoundTrip.ctxCreate (fn ctx : Nat) : Statement (.ctxCreate fn ctx) := by
  intro w lit next slot hw he hs
  cases he
theorem RoundTrip.ctxDestroy (fn ctx : Nat) : Statement (.ctxDestroy fn ctx) := by
  intro w lit next slot hw he hs
  cases he
theorem RoundTrip.ctxReset (fn ctx : Nat) : Statement (.ctxReset fn ctx) := by
  intro w lit next slot hw he hs
  cases he
theorem RoundTrip.ctxPreempt (fn ctx level : Nat) : Statement (.ctxPreempt fn ctx level) := by
  intro w lit next slot hw he hs
  cases he
theorem RoundTrip.preemptevClear (fn : Nat) (value : Word) : Statement (.preemptevClear fn value) := by
  intro w lit next slot hw he hs
  cases he
theorem RoundTrip.qwidxWrite (fn q : Nat) (value : Word) : Statement (.qwidxWrite fn q value) := by
  intro w lit next slot hw he hs
  cases he
theorem RoundTrip.queueEnable (fn q : Nat) (value : Word) : Statement (.queueEnable fn q value) := by
  intro w lit next slot hw he hs
  cases he
theorem RoundTrip.functionLevelReset (fn : Nat) : Statement (.functionLevelReset fn) := by
  intro w lit next slot hw he hs
  cases he
theorem RoundTrip.currentEmergency (grove : Nat) : Statement (.currentEmergency grove) := by
  intro w lit next slot hw he hs
  cases he
theorem RoundTrip.thermalTrip (grove temp : Nat) : Statement (.thermalTrip grove temp) := by
  intro w lit next slot hw he hs
  cases he
theorem RoundTrip.canopyHeartbeatReceive (chip seqNo groupTime proposal : Nat) (announces : List (Nat × Nat)) (joins : List Nat) (emergency : Bool) : Statement (.canopyHeartbeatReceive chip seqNo groupTime proposal announces joins emergency) := by
  intro w lit next slot hw he hs
  cases he
theorem RoundTrip.canopyJoin (value : Word) : Statement (.canopyJoin value) := by
  intro w lit next slot hw he hs
  cases he
theorem RoundTrip.canopyLeave (value : Word) : Statement (.canopyLeave value) := by
  intro w lit next slot hw he hs
  cases he
theorem RoundTrip.traceStopRequest (fn ctx : Nat) : Statement (.traceStopRequest fn ctx) := by
  intro w lit next slot hw he hs
  cases he
theorem RoundTrip.traceStopCancel (fn ctx : Nat) : Statement (.traceStopCancel fn ctx) := by
  intro w lit next slot hw he hs
  cases he
theorem RoundTrip.watchpointEnable (fn w : Nat) (value : Word) : Statement (.watchpointEnable fn w value) := by
  intro w lit next slot hw he hs
  cases he
theorem RoundTrip.traceEnable (fn : Nat) (value : Word) : Statement (.traceEnable fn value) := by
  intro w lit next slot hw he hs
  cases he
theorem RoundTrip.traceRingRead (fn : Nat) (value : Word) : Statement (.traceRingRead fn value) := by
  intro w lit next slot hw he hs
  cases he
theorem RoundTrip.captureStart (fn ctx : Nat) : Statement (.captureStart fn ctx) := by
  intro w lit next slot hw he hs
  cases he
theorem RoundTrip.captureStop (fn : Nat) : Statement (.captureStop fn) := by
  intro w lit next slot hw he hs
  cases he
theorem RoundTrip.replayStart (fn ctx : Nat) : Statement (.replayStart fn ctx) := by
  intro w lit next slot hw he hs
  cases he
theorem RoundTrip.captureAbort (fn : Nat) : Statement (.captureAbort fn) := by
  intro w lit next slot hw he hs
  cases he
theorem RoundTrip.haloWindowEnable (fn : Nat) (value : Word) : Statement (.haloWindowEnable fn value) := by
  intro w lit next slot hw he hs
  cases he
theorem RoundTrip.haloWindowDisable (fn : Nat) : Statement (.haloWindowDisable fn) := by
  intro w lit next slot hw he hs
  cases he
theorem RoundTrip.healthRequest : Statement .healthRequest := by
  intro w lit next slot hw he hs
  cases he
theorem RoundTrip.certRequest : Statement .certRequest := by
  intro w lit next slot hw he hs
  cases he
theorem RoundTrip.stateRequest : Statement .stateRequest := by
  intro w lit next slot hw he hs
  cases he
theorem RoundTrip.resetRequest : Statement .resetRequest := by
  intro w lit next slot hw he hs
  cases he
theorem RoundTrip.lifecycleRequest (state : Nat) : Statement (.lifecycleRequest state) := by
  intro w lit next slot hw he hs
  cases he
theorem RoundTrip.powerOn : Statement .powerOn := by
  intro w lit next slot hw he hs
  cases he
theorem RoundTrip.imageWrite : Statement .imageWrite := by
  intro w lit next slot hw he hs
  cases he
theorem RoundTrip.pciePeerDma (write : Bool) (addr len : Nat) (data : List Byte) : Statement (.pciePeerDma write addr len data) := by
  intro w lit next slot hw he hs
  cases he
theorem RoundTrip.registerWrite (window fn off size : Nat) (value : Word) : Statement (.registerWrite window fn off size value) := by
  intro w lit next slot hw he hs
  cases he
theorem RoundTrip.hostMemoryAccess (write : Bool) (addr len : Nat) (data : List Byte) : Statement (.hostMemoryAccess write addr len data) := by
  intro w lit next slot hw he hs
  cases he
theorem RoundTrip.eccCorrection (slice : Bool) (place row : Nat) : Statement (.eccCorrection slice place row) := by
  intro w lit next slot hw he hs
  cases he
theorem RoundTrip.powerLoss : Statement .powerLoss := by
  intro w lit next slot hw he hs
  cases he
theorem RoundTrip.explicitFence (core : Nat) : Statement (.explicitFence core) := by
  intro w lit next slot hw he hs
  cases he
theorem RoundTrip.explicitUnfence (core : Nat) : Statement (.explicitUnfence core) := by
  intro w lit next slot hw he hs
  cases he
theorem RoundTrip.demeritThresholdSet (n : Nat) : Statement (.demeritThresholdSet n) := by
  intro w lit next slot hw he hs
  cases he
theorem RoundTrip.otherRequest (code : Nat) : Statement (.otherRequest code) := by
  intro w lit next slot hw he hs
  cases he

end Sys2Proof.Laws
end

