-- ==== Sys2Proof/Laws/Trace.lean ====
section
/-! SUPPORT. What the trace engine's packets and records touch, said once: the collectors' queues, the functions' counts of what
was lost, and the streams. -/

namespace Sys2Proof.Machine

/-- Two states differ at most in the collectors' queues, functions and streams. -/
def tracesOnly (s t : State) : Prop := t = { s with fns := t.fns, streams := t.streams, collected := t.collected }

theorem tracesOnly.refl (s : State) : tracesOnly s s := rfl

theorem tracesOnly.trans {s t u : State} (h1 : tracesOnly s t) (h2 : tracesOnly t u) : tracesOnly s u := by
  unfold tracesOnly at *; rw [h2, h1]

theorem tracesOnly.clock {s t : State} (h : tracesOnly s t) : t.clock = s.clock := by rw [h]
theorem tracesOnly.ctxs {s t : State} (h : tracesOnly s t) : t.ctxs = s.ctxs := by rw [h]
theorem tracesOnly.waves {s t : State} (h : tracesOnly s t) : t.waves = s.waves := by rw [h]
theorem tracesOnly.dram {s t : State} (h : tracesOnly s t) : t.dram = s.dram := by rw [h]

theorem tracesOnly.wave? {s t : State} (h : tracesOnly s t) (u : Nat) : t.wave? u = s.wave? u := by
  unfold State.wave?; rw [h.waves]

theorem setStream_only (s : State) (x : Stream) : tracesOnly s (setStream s x) := by
  unfold setStream; simp only; split <;> exact rfl

theorem setFunc_only (s : State) (f : Nat) (x : Function) : tracesOnly s (s.setFunc f x) := rfl

theorem writePacket_only (s : State) (c p f k a b : Nat) : tracesOnly s (writePacket s c p f k a b) := by
  unfold writePacket losePacket; split
  · exact (setFunc_only s _ _).trans (setStream_only _ _)
  · exact rfl

theorem foldl_only {α : Type} (g : State → α → State) (hg : ∀ s x, tracesOnly s (g s x)) (xs : List α) (s : State) :
    tracesOnly s (xs.foldl g s) := by
  induction xs generalizing s with
  | nil => exact .refl s
  | cons x xs ih => exact (hg s x).trans (ih _)

theorem timeAbs_only (s : State) (c p f k : Nat) : tracesOnly s (timeAbs s c p f k) :=
  (writePacket_only s _ _ _ _ _ _).trans (setStream_only _ _)

theorem syncWave_only (s : State) (w : Wave) : tracesOnly s (syncWave s w) := by
  unfold syncWave
  have h := foldl_only (fun (s : State) i => match w.places[i]? with
    | some (k, p) => writePacket s w.core w.part w.fn w.ctx
        (packetWord 1 w.core w.part w.wslot k (b2n (i + 1 == w.places.length) * 128 + w.stack.length) p.mask.toNat) p.pc.toNat
    | none => s) (fun s i => by split; exact writePacket_only _ _ _ _ _ _ _; exact .refl s) (List.range w.places.length) s
  split
  · exact h
  · exact h.trans (writePacket_only _ _ _ _ _ _ _)

theorem syncPoint_only (s : State) (c p f k : Nat) (b : Option Wave) : tracesOnly s (syncPoint s c p f k b) := by
  unfold syncPoint
  exact ((setStream_only s _).trans (timeAbs_only _ _ _ _ _)).trans (foldl_only _ (fun s w => syncWave_only s _) _ _)

/-- A packet of a wave's path touches the trace alone. -/
theorem emit_only (s : State) (w : Wave) (p t sub v x : Nat) : tracesOnly s (emit s w p t sub v x) := by
  unfold emit
  split
  · exact .refl s
  · refine tracesOnly.trans ?_ (setStream_only _ _)
    refine tracesOnly.trans ?_ (writePacket_only _ _ _ _ _ _ _)
    dsimp only
    split
    · exact syncPoint_only _ _ _ _ _ _
    · split
      · exact (writePacket_only _ _ _ _ _ _ _).trans (setStream_only _ _)
      · exact .refl s

theorem emitMask_only (s : State) (w : Wave) (p sub : Nat) (m : Mask) (pc : Word) : tracesOnly s (emitMask s w p sub m pc) :=
  emit_only _ _ _ _ _ _ _

theorem emitRegion_only (s : State) (w : Wave) (p sub ident : Nat) (after : List (BitVec 16)) :
    tracesOnly s (emitRegion s w p sub ident after) := emit_only _ _ _ _ _ _ _

theorem writeRecord_only (s : State) (f : Nat) (bs : List Byte) : tracesOnly s (writeRecord s f bs) := by
  unfold writeRecord loseRecord; simp only; split
  · exact setFunc_only s _ _
  · exact rfl

theorem stopRecord_only (s : State) (w : Wave) (edge : Word) (c : Cause) (d : Bool) : tracesOnly s (stopRecord s w edge c d) :=
  writeRecord_only _ _ _

end Sys2Proof.Machine
end

