-- ==== Sys2Proof/Tests/Slice0.lean ====
section
/-! SUPPORT. Tests: a term that each check of well-formedness refuses, words written out from the spec's tables with what they
decode to, single steps, and for every statement with hypotheses states and operands that meet them. -/

namespace Sys2Proof.Tests
open Sys2Proof Sys2Proof.Machine

set_option Elab.async false

/-! ## Well-formedness: one ill-formed term for each check -/

theorem test_wf_kind_dst : Instr.wf .i64 (.add 0xC1 0x02 0x03) = false := by decide
theorem test_wf_kind_dstLink : Instr.wf .i64 (.calli 0x01 0x84) = false := by decide
theorem test_wf_kind_dstV : Instr.wf .i64 (.tbegin 0x84) = false := by decide
theorem test_wf_kind_pd : Instr.wf .i64 (.cmpeq 0x01 0x02 0x03) = false := by decide
theorem test_wf_kind_x : Instr.wf .i64 (.add 0x01 0xF8 0x03) = false := by decide
theorem test_wf_kind_xInt : Instr.wf .f64 (.ld64 0x01 0x84 0xF8) = false := by decide
theorem test_wf_kind_xFloat : Instr.wf .i64 (.afadd 0x01 0x02 0xD0 0) = false := by decide
theorem test_wf_kind_u : Instr.wf .i64 (.jmpi 0x01) = false := by decide
theorem test_wf_kind_ps : Instr.wf .i64 (.ballot 0x01 0x02) = false := by decide
theorem test_wf_kind_vg : Instr.wf .bf16x4 (.enc6 0x01 0x84) = false := by decide
theorem test_wf_kind_vgEven : Instr.wf .i64 (.ldl 0x01 0x84 0x02) = false := by decide
theorem test_wf_kind_vgTile : Instr.wf .i64 (.tld 0x84 0x84 0x85 0) = false := by decide
theorem test_wf_kind_sg6 : Instr.wf .i64 (.bpld 0x00 0xBB) = false := by decide
theorem test_wf_immediate_range : Instr.wf .i64 (.mbatch 0x10) = false := by decide
theorem test_wf_step : Instr.wf .i64 (.rep 0x02 0x08) = false := by decide
theorem test_wf_literal_reserved_bit : Instr.wf .i64 (.vote 0x01 0xC1 0x00000004) = false := by decide
theorem test_wf_literal_range : Instr.wf .i64 (.bfx 0x01 0x02 0x00000000) = false := by decide
theorem test_wf_system_register_unassigned : Instr.wf .i64 (.sysrd 0x01 0x00000009) = false := by decide
theorem test_wf_scalar_sources : Instr.wf .i64 (.add 0x84 0x02 0x03) = false := by decide
theorem test_wf_scalar_refused : Instr.wf .i64 (.sel 0x84 0x85 0x86 0x00000000) = false := by decide
theorem test_wf_waitf_flags : Instr.wf .i64 (.waitf 0x00 0x1000) = false := by decide
theorem test_wf_acas_null : Instr.wf .i64 (.acas 0xD0 0x02 0x03 0x00000000) = false := by decide
theorem test_wf_spt_is_psave : Instr.wf .i64 (.spt 0xFF) = false := by decide
theorem test_wf_budget : Instr.budgetOk 8 (.add 0x01 0x02 0x08) = false := by decide
theorem test_wf_group_budget : Instr.budgetOk 18 (.tld 0x04 0x84 0x85 0) = false := by decide
theorem test_wf_type : Instr.typeOk .i64 (.fma 0x01 0x02 0x03) = false := by decide
theorem test_wf_frame_register : Instr.dstPermitted false (.mov 0xB8 0x84) = false := by decide
theorem test_wf_boundaries_accepted :
    Instr.wf .i64 (.bfx 0x7F 0x7F 0x00004000) = true ∧ Instr.wf .i64 (.waitf 0x0E 0x0FFF) = true ∧
    Instr.wf .i64 (.bpld 0x07 0xBA) = true ∧ Instr.wf .i64 (.calli 0xB7 0x80) = true ∧
    Instr.dstPermitted true (.mov 0xBF 0x84) = true := by decide

/-! ## Words written out from the spec's encoding tables -/

/-- A word with the literal after it, the ETYPE code of a mode it is valid in, and the instruction it stands for. -/
structure Sample where
  word : Word32
  lit : Word32
  et : Nat
  i : Instr

/-- The decoder gives a sample's instruction. -/
def Sample.decodes (x : Sample) : Bool := decide (decodeInstr 1 x.word x.lit = .ok x.i)

/-- The words of the sequencer instructions (R69). -/
def sequencerSamples : List Sample :=
  [⟨0x01000000, 0x00902200, 0, .setmode 0x00902200⟩,
   ⟨0x02010000, 0, 0, .getmode 0x01⟩,
   ⟨0x03021700, 0, 0, .rep 0x02 0x17⟩,
   ⟨0x04000002, 0, 0, .bra 0x000002⟩,
   ⟨0x05C1FFFE, 0, 0, .brp 0xC1 0xFFFE⟩,
   ⟨0x068A0003, 0, 0, .bru 0x8A 0x0003⟩,
   ⟨0x07008A00, 0, 0, .jmpi 0x8A⟩,
   ⟨0x08B70102, 0, 0, .call 0xB7 0x0102⟩,
   ⟨0x09858A00, 0, 0, .calli 0x85 0x8A⟩,
   ⟨0x0A008A00, 0, 0, .ret 0x8A⟩,
   ⟨0x0B001234, 0, 0, .rjoin 0x1234⟩,
   ⟨0x0C000000, 0, 0, .exit⟩,
   ⟨0x0D000000, 0, 0, .tail⟩,
   ⟨0x0E000000, 0, 0, .yield⟩,
   ⟨0x0F0E0FFF, 0, 0, .waitf 0x0E 0x0FFF⟩,
   ⟨0x10018A00, 0, 0, .setjoin 0x01 0x8A⟩] ++
  [⟨0x11008A00, 0, 0, .setleave 0x8A⟩,
   ⟨0x12008A8B, 0, 0, .arrive 0x8A 0x8B⟩,
   ⟨0x13018A00, 0, 0, .waitb 0x01 0x8A⟩,
   ⟨0x14018A8B, 0, 0, .arrwait 0x01 0x8A 0x8B⟩,
   ⟨0x15008A8B, 0, 0, .signal 0x8A 0x8B⟩,
   ⟨0x16018A8B, 0, 0, .sigwait 0x01 0x8A 0x8B⟩,
   ⟨0x178C8A8B, 0, 0, .bind 0x8C 0x8A 0x8B⟩,
   ⟨0x18008A8B, 0, 0, .unbind 0x8A 0x8B⟩,
   ⟨0x19001234, 0, 0, .rgnin 0x1234⟩,
   ⟨0x1A001234, 0, 0, .rgnout 0x1234⟩,
   ⟨0x1BFE0000, 0, 0, .spt 0xFE⟩,
   ⟨0x1BFF0000, 0, 0, .psave⟩,
   ⟨0x1C001234, 0, 0, .trap 0x1234⟩,
   ⟨0x1D000000, 0, 0, .tret⟩,
   ⟨0x1E010000, 0x00000003, 0, .sysrd 0x01 0x00000003⟩,
   ⟨0x1F008A00, 0x00000103, 0, .syswr 0x8A 0x00000103⟩]

theorem test_decode_sequencer : sequencerSamples.all Sample.decodes = true := by decide +kernel

/-- The words of the vector instructions (R70). -/
def vectorSamples : List Sample :=
  [⟨0x20010203, 0, 0, .add 0x01 0x02 0x03⟩,
   ⟨0x21010203, 0, 1, .sub 0x01 0x02 0x03⟩,
   ⟨0x22010203, 0, 2, .mul 0x01 0x02 0x03⟩,
   ⟨0x26010203, 0, 3, .min 0x01 0x02 0x03⟩,
   ⟨0x27010203, 0, 4, .max 0x01 0x02 0x03⟩,
   ⟨0x2A010203, 0, 0, .adds 0x01 0x02 0x03⟩,
   ⟨0x2B010203, 0, 4, .subs 0x01 0x02 0x03⟩,
   ⟨0x2C010203, 0, 1, .mulhi 0x01 0x02 0x03⟩,
   ⟨0x2E010203, 0, 0, .divi 0x01 0x02 0x03⟩,
   ⟨0x2F010203, 0, 3, .remi 0x01 0x02 0x03⟩,
   ⟨0x30010203, 0, 13, .and 0x01 0x02 0x03⟩,
   ⟨0x31010203, 0, 0, .or 0x01 0x02 0x03⟩,
   ⟨0x32010203, 0, 8, .xor 0x01 0x02 0x03⟩,
   ⟨0x33010203, 0, 1, .andn 0x01 0x02 0x03⟩,
   ⟨0x34010203, 0, 0, .shl 0x01 0x02 0x03⟩,
   ⟨0x35010203, 0, 1, .shrl 0x01 0x02 0x03⟩] ++
  [⟨0x36010203, 0, 2, .shra 0x01 0x02 0x03⟩,
   ⟨0x37010203, 0, 7, .rol 0x01 0x02 0x03⟩,
   ⟨0x42010203, 0, 0, .pack 0x01 0x02 0x03⟩,
   ⟨0x45010203, 0, 11, .enc8 0x01 0x02 0x03⟩,
   ⟨0x48010203, 0, 8, .scaleb 0x01 0x02 0x03⟩,
   ⟨0x23010203, 0, 9, .fma 0x01 0x02 0x03⟩,
   ⟨0x24010203, 0, 10, .fms 0x01 0x02 0x03⟩,
   ⟨0x25010203, 0, 11, .fnma 0x01 0x02 0x03⟩,
   ⟨0x2D010203, 0, 2, .dot2 0x01 0x02 0x03⟩,
   ⟨0x4A010203, 0, 3, .dot4 0x01 0x02 0x03⟩,
   ⟨0x4B010203, 0, 7, .sad 0x01 0x02 0x03⟩,
   ⟨0x4C010203, 0, 0, .madi 0x01 0x02 0x03⟩,
   ⟨0x28010200, 0, 0, .abs 0x01 0x02⟩,
   ⟨0x29010200, 0, 1, .neg 0x01 0x02⟩,
   ⟨0x3F010200, 0, 0, .mov 0x01 0x02⟩,
   ⟨0x49010200, 0, 9, .rndint 0x01 0x02⟩] ++
  [⟨0x4F010200, 0, 8, .frcp2 0x01 0x02⟩,
   ⟨0x38C20203, 0, 0, .cmpeq 0xC2 0x02 0x03⟩,
   ⟨0x39C20203, 0, 1, .cmpne 0xC2 0x02 0x03⟩,
   ⟨0x3AC20203, 0, 2, .cmplt 0xC2 0x02 0x03⟩,
   ⟨0x3BC20203, 0, 7, .cmple 0xC2 0x02 0x03⟩,
   ⟨0x3CC20203, 0, 8, .cmpun 0xC2 0x02 0x03⟩,
   ⟨0x3DC20200, 0x000003FF, 9, .cls 0xC2 0x02 0x000003FF⟩,
   ⟨0x3E010203, 0x0000000F, 0, .sel 0x01 0x02 0x03 0x0000000F⟩,
   ⟨0x40010200, 0x0000000D, 8, .cvt 0x01 0x02 0x0000000D⟩,
   ⟨0x41010200, 0x00000048, 0, .cvtr 0x01 0x02 0x00000048⟩,
   ⟨0x43010201, 0, 1, .widen 0x01 0x02 0x01⟩,
   ⟨0x44010201, 0, 12, .dec8 0x01 0x02 0x01⟩,
   ⟨0x46010202, 0, 13, .dec6 0x01 0x02 0x02⟩,
   ⟨0x47010200, 0, 11, .enc6 0x01 0x02⟩,
   ⟨0x4D010203, 0x00000021, 0, .addc 0x01 0x02 0x03 0x00000021⟩,
   ⟨0x4E010203, 0x00000077, 1, .subb 0x01 0x02 0x03 0x00000077⟩] ++
  [⟨0x50010000, 0x89ABCDEF, 0, .movl 0x01 0x89ABCDEF⟩,
   ⟨0x51010000, 0x000000FF, 3, .movs 0x01 0x000000FF⟩,
   ⟨0x52018A8B, 0, 0, .iota 0x01 0x8A 0x8B⟩,
   ⟨0x53010203, 0x00000013, 0, .shfl 0x01 0x02 0x03 0x00000013⟩,
   ⟨0x5401028A, 0, 0, .bcast 0x01 0x02 0x8A⟩,
   ⟨0x55010200, 0x00000005, 0, .lreduce 0x01 0x02 0x00000005⟩,
   ⟨0x56010200, 0x00000010, 0, .lscan 0x01 0x02 0x00000010⟩,
   ⟨0x5701C100, 0, 0, .ballot 0x01 0xC1⟩,
   ⟨0x5801C100, 0x00000003, 0, .vote 0x01 0xC1 0x00000003⟩,
   ⟨0x59C2C1C7, 0x00000006, 0, .plogic 0xC2 0xC1 0xC7 0x00000006⟩,
   ⟨0x5AC20000, 0x0000005A, 0, .pset 0xC2 0x0000005A⟩,
   ⟨0x5B01C100, 0, 0, .pget 0x01 0xC1⟩,
   ⟨0x5CC20200, 0, 0, .pmov 0xC2 0x02⟩]

theorem test_decode_vector : vectorSamples.all Sample.decodes = true := by decide +kernel

/-- The words of the bitFunction instructions (R71). -/
def bitFunctionSamples : List Sample :=
  [⟨0x60010203, 0, 0, .bmm 0x01 0x02 0x03⟩,
   ⟨0x62010203, 0, 0, .pdep 0x01 0x02 0x03⟩,
   ⟨0x63010203, 0, 0, .pext 0x01 0x02 0x03⟩,
   ⟨0x6C010203, 0, 3, .gfmul8 0x01 0x02 0x03⟩,
   ⟨0x6D010203, 0, 0, .clmul 0x01 0x02 0x03⟩,
   ⟨0x6E010203, 0, 1, .clmulh 0x01 0x02 0x03⟩,
   ⟨0x6F010203, 0, 0, .byteperm 0x01 0x02 0x03⟩,
   ⟨0x78010203, 0, 8, .divf 0x01 0x02 0x03⟩,
   ⟨0x61010203, 0, 0, .bmmx 0x01 0x02 0x03⟩,
   ⟨0x6407BA00, 0, 0, .bpld 0x07 0xBA⟩,
   ⟨0x65010207, 0, 0, .bperm 0x01 0x02 0x07⟩,
   ⟨0x66010200, 0, 0, .popc 0x01 0x02⟩,
   ⟨0x67010200, 0, 1, .clz 0x01 0x02⟩,
   ⟨0x68010200, 0, 2, .ctz 0x01 0x02⟩,
   ⟨0x69010200, 0, 3, .brev 0x01 0x02⟩,
   ⟨0x70010200, 0, 8, .rcp 0x01 0x02⟩] ++
  [⟨0x71010200, 0, 9, .rsq 0x01 0x02⟩,
   ⟨0x72010200, 0, 10, .sqrt 0x01 0x02⟩,
   ⟨0x73010200, 0, 11, .exp2 0x01 0x02⟩,
   ⟨0x74010200, 0, 8, .log2 0x01 0x02⟩,
   ⟨0x75010200, 0, 9, .sinpi 0x01 0x02⟩,
   ⟨0x76010200, 0, 9, .cospi 0x01 0x02⟩,
   ⟨0x77010200, 0, 9, .tanh 0x01 0x02⟩,
   ⟨0x6A010200, 0x00014000, 0, .bfx 0x01 0x02 0x00014000⟩,
   ⟨0x6B010200, 0x0000013F, 0, .bfi 0x01 0x02 0x0000013F⟩]

theorem test_decode_bitFunction : bitFunctionSamples.all Sample.decodes = true := by decide +kernel

/-- The words of the loadStore instructions (R72). -/
def loadStoreSamples : List Sample :=
  [⟨0x80018A02, 0, 0, .ld8 0x01 0x8A 0x02⟩,
   ⟨0x81018A02, 0, 0, .ld16 0x01 0x8A 0x02⟩,
   ⟨0x82018A02, 0, 0, .ld32 0x01 0x8A 0x02⟩,
   ⟨0x83018A02, 0, 0, .ld64 0x01 0x8A 0x02⟩,
   ⟨0x84018A02, 0, 0, .st8 0x01 0x8A 0x02⟩,
   ⟨0x85018A02, 0, 0, .st16 0x01 0x8A 0x02⟩,
   ⟨0x86018A02, 0, 0, .st32 0x01 0x8A 0x02⟩,
   ⟨0x87018A02, 0, 0, .st64 0x01 0x8A 0x02⟩,
   ⟨0x887E8A02, 0, 0, .ldl 0x7E 0x8A 0x02⟩,
   ⟨0x89068A02, 0, 0, .stl 0x06 0x8A 0x02⟩,
   ⟨0x8A018B02, 0x00000007, 0, .sld 0x01 0x8B 0x02 0x00000007⟩,
   ⟨0x8B018B02, 0x00000003, 0, .sst 0x01 0x8B 0x02 0x00000003⟩,
   ⟨0x8C018B02, 0x00000002, 0, .nld 0x01 0x8B 0x02 0x00000002⟩,
   ⟨0x8D018B02, 0x00000701, 0, .nst 0x01 0x8B 0x02 0x00000701⟩,
   ⟨0x8E018B02, 0, 0, .wld 0x01 0x8B 0x02⟩,
   ⟨0x8F018AC1, 0, 0, .cstr 0x01 0x8A 0xC1⟩] ++
  [⟨0x90018AC1, 0, 0, .xld 0x01 0x8A 0xC1⟩,
   ⟨0x91108A8C, 0x00000017, 0, .tld 0x10 0x8A 0x8C 0x00000017⟩,
   ⟨0x92708A8C, 0x00000007, 0, .tst 0x70 0x8A 0x8C 0x00000007⟩,
   ⟨0x93008A02, 0, 0, .pref 0x8A 0x02⟩,
   ⟨0x94008A8D, 0, 0, .sealRegion 0x8A 0x8D⟩,
   ⟨0x95008A8D, 0, 0, .unsealRegion 0x8A 0x8D⟩,
   ⟨0x98008A8D, 0, 0, .pin 0x8A 0x8D⟩,
   ⟨0x99008A8D, 0, 0, .unpin 0x8A 0x8D⟩,
   ⟨0x9A008A8D, 0, 0, .cinv 0x8A 0x8D⟩,
   ⟨0x9B008A8D, 0, 0, .cwb 0x8A 0x8D⟩,
   ⟨0x96070000, 0, 0, .fence 0x07⟩,
   ⟨0x97073F00, 0, 0, .xfence 0x07 0x3F⟩,
   ⟨0x9C018A02, 0x00000007, 0, .ldacq 0x01 0x8A 0x02 0x00000007⟩,
   ⟨0x9D018A02, 0x00000005, 0, .strel 0x01 0x8A 0x02 0x00000005⟩]

theorem test_decode_loadStore : loadStoreSamples.all Sample.decodes = true := by decide +kernel

/-- The words of the atomic instructions (R73). -/
def atomicSamples : List Sample :=
  [⟨0xA0018A03, 0x00000017, 0, .aadd 0x01 0x8A 0x03 0x00000017⟩,
   ⟨0xA1018A03, 0x00000000, 0, .amin 0x01 0x8A 0x03 0x00000000⟩,
   ⟨0xA2018A03, 0x00000005, 0, .amax 0x01 0x8A 0x03 0x00000005⟩,
   ⟨0xA3018A03, 0x00000010, 0, .aand 0x01 0x8A 0x03 0x00000010⟩,
   ⟨0xA4018A03, 0x00000006, 0, .aor 0x01 0x8A 0x03 0x00000006⟩,
   ⟨0xA5018A03, 0x00000003, 0, .axor 0x01 0x8A 0x03 0x00000003⟩,
   ⟨0xA6018A03, 0x00000007, 0, .aswp 0x01 0x8A 0x03 0x00000007⟩,
   ⟨0xA7018A03, 0x00000004, 0, .acas 0x01 0x8A 0x03 0x00000004⟩,
   ⟨0xA8018A03, 0x00000010, 0, .afadd 0x01 0x8A 0x03 0x00000010⟩,
   ⟨0xA9018A03, 0x00000005, 0, .axadd 0x01 0x8A 0x03 0x00000005⟩,
   ⟨0xAA818A00, 0x00000105, 0, .lres 0x81 0x8A 0x00000105⟩,
   ⟨0xAB018A03, 0x00000007, 0, .scond 0x01 0x8A 0x03 0x00000007⟩,
   ⟨0xAC010000, 0, 0, .tbegin 0x01⟩,
   ⟨0xAD010000, 0, 0, .tcommit 0x01⟩,
   ⟨0xAE001234, 0, 0, .tabort 0x1234⟩,
   ⟨0xAF010000, 0, 0, .tstat 0x01⟩]

theorem test_decode_atomic : atomicSamples.all Sample.decodes = true := by decide +kernel

/-- The words of the matrixCopy instructions (R74). -/
def matrixCopySamples : List Sample :=
  [⟨0xB0008A00, 0, 0, .mfmt 0x8A⟩,
   ⟨0xB10F8B7C, 0, 0, .mma 0x0F 0x8B 0x7C⟩,
   ⟨0xB2028B04, 0, 0, .mmaz 0x02 0x8B 0x04⟩,
   ⟨0xB30F0000, 0, 0, .mbatch 0x0F⟩,
   ⟨0xB4030000, 0, 0, .mwait 0x03⟩,
   ⟨0xB5028A8E, 0, 0, .mdrain 0x02 0x8A 0x8E⟩,
   ⟨0xB6028A00, 0, 0, .maccld 0x02 0x8A⟩,
   ⟨0xB7078A8E, 0, 0, .mstage 0x07 0x8A 0x8E⟩,
   ⟨0xB8010F00, 0, 0, .mstat 0x01 0x0F⟩,
   ⟨0xC0018A00, 0, 0, .cpy 0x01 0x8A⟩,
   ⟨0xC1018A00, 0, 0, .cpyd 0x01 0x8A⟩,
   ⟨0xC2018A00, 0, 0, .cpym 0x01 0x8A⟩,
   ⟨0xC3018A00, 0, 0, .cpymc 0x01 0x8A⟩,
   ⟨0xC4018A00, 0, 0, .cpyn 0x01 0x8A⟩,
   ⟨0xCC018A00, 0, 0, .cpyx 0x01 0x8A⟩,
   ⟨0xC9018A00, 0, 0, .wsld 0x01 0x8A⟩] ++
  [⟨0xC6018A00, 0, 0, .haloq 0x01 0x8A⟩,
   ⟨0xC5018A8E, 0, 0, .halo 0x01 0x8A 0x8E⟩,
   ⟨0xC7010000, 0, 0, .evpop 0x01⟩,
   ⟨0xC8010000, 0, 0, .evpeek 0x01⟩,
   ⟨0xCA008A8C, 0, 0, .arm 0x8A 0x8C⟩,
   ⟨0xCB008A00, 0, 0, .disarm 0x8A⟩]

theorem test_decode_matrixCopy : matrixCopySamples.all Sample.decodes = true := by decide +kernel

/-- The words of the cascadeSystem instructions (R74). -/
def cascadeSystemSamples : List Sample :=
  [⟨0xD0000804, 0, 0, .wpush 0x08 0x04⟩,
   ⟨0xD17E0000, 0, 0, .wpop 0x7E⟩,
   ⟨0xD2050000, 0, 0, .wpopw 0x05⟩,
   ⟨0xD3000000, 0, 0, .wdone⟩,
   ⟨0xE0000000, 0, 0, .halt⟩,
   ⟨0xD4810000, 0, 0, .wfloor 0x81⟩,
   ⟨0xD5810000, 0, 0, .wstat 0x81⟩,
   ⟨0xD8810000, 0, 0, .ckrole 0x81⟩,
   ⟨0xE1810000, 0, 0, .clkq 0x81⟩,
   ⟨0xD9070100, 0, 0, .cksig 0x07 0x01⟩,
   ⟨0xDA001234, 0, 0, .tmark 0x1234⟩,
   ⟨0xE2008A00, 0, 0, .pwload 0x8A⟩]

theorem test_decode_cascadeSystem : cascadeSystemSamples.all Sample.decodes = true := by decide +kernel

theorem test_decode_nop : decodeInstr 1 0x00000000 0 = .ok .nop := by decide +kernel


/-! ## States to run an instruction in -/

/-- A word and the word after it placed where the machine fetches, and armed at its slot. -/
def armed (w : Nat) : State :=
  let s := State.reset.withFetchWord 64 w
  { s with issue := some (issueOf placedWave 0 (newPath (w64 placedPc) 0xFFFFFFFF) (bundleWords (placedBundle w))) }

/-- An instruction armed, by its encoding, with its wave changed. -/
def bench (i : Instr) (f : Wave → Wave := id) : State :=
  match encode i with
  | some (w, lit) => (armed (w.toNat + 2 ^ 32 * (lit.getD 0).toNat)).modWave 1 f
  | none => State.reset

/-- A wave in a mode with an element type. -/
def ofType (et : Nat) (w : Wave) : Wave := { w with mode := BitVec.ofNat 24 (et * 2 ^ 20) }

/-- An instruction, a state, and what is asked of its environment there. -/
structure Case where
  s : State
  i : Instr
  p : State → Env → Bool

/-- The instruction issues there, and what is asked holds. -/
def Case.met (c : Case) : Bool :=
  match env? c.s with
  | some e => (preCheck e c.i).isNone && c.p c.s e
  | none => false

theorem issues_of_met {c : Case} (h : c.met = true) : ∃ e, Issues c.i c.s e ∧ c.p c.s e = true := by
  unfold Case.met at h
  split at h
  · rename_i e he
    simp only [Bool.and_eq_true, Option.isNone_iff_eq_none] at h
    exact ⟨e, ⟨he, h.1⟩, h.2⟩
  · cases h

/-- Every case of a list is one in which its instruction issues and what is asked holds. -/
def allMet (cs : List Case) : Prop := ∀ c ∈ cs, ∃ e, Issues c.i c.s e ∧ c.p c.s e = true

theorem allMet_of {cs : List Case} (h : cs.all Case.met = true) : allMet cs :=
  fun c hc => issues_of_met (List.all_eq_true.mp h c hc)

/-- A sample issues in its mode, and more is asked. -/
def Sample.case (p : Instr → Env → Bool) (x : Sample) : Case :=
  { s := (armed (x.word.toNat + 2 ^ 32 * x.lit.toNat)).modWave 1 (ofType x.et), i := x.i, p := fun _ e => p x.i e }

theorem witness_issue_sequencer : allMet (sequencerSamples.map (Sample.case fun _ _ => true)) :=
  allMet_of (by decide +kernel)
theorem witness_issue_loadStore : allMet (loadStoreSamples.map (Sample.case fun _ _ => true)) :=
  allMet_of (by decide +kernel)
theorem witness_issue_atomic : allMet (atomicSamples.map (Sample.case fun _ _ => true)) :=
  allMet_of (by decide +kernel)
theorem witness_issue_matrixCopy : allMet (matrixCopySamples.map (Sample.case fun _ _ => true)) :=
  allMet_of (by decide +kernel)
theorem witness_issue_cascadeSystem : allMet (cascadeSystemSamples.map (Sample.case fun _ _ => true)) :=
  allMet_of (by decide +kernel)

theorem witness_issue_vector : allMet (vectorSamples.map (Sample.case fun _ _ => true)) := allMet_of (by decide +kernel)
theorem witness_issue_bitFunction : allMet (bitFunctionSamples.map (Sample.case fun _ _ => true)) :=
  allMet_of (by decide +kernel)

/-- The placed page translated by every TLB, for data anywhere in it. -/
def mapped (s : State) : State := { s with tlb := (List.range 128).map fun k => { placedEntry with tlb := k } }
/-- One case. -/
def row (i : Instr) (p : State → Env → Bool := fun _ _ => true) (f : Wave → Wave := id) (g : State → State := id) : Case :=
  { s := g (mapped (bench i f)), i := i, p := p }

/-! Changes of a wave and of a state. -/

def modeIs (m : Nat) (w : Wave) : Wave := { w with mode := BitVec.ofNat 24 m }
/-- Scalar registers s10 and s11 of the samples. -/
def regs (x y : Nat) (w : Wave) : Wave := (w.setS 10 (w64 x)).setS 11 (w64 y)
/-- A predicate register with bit 0 set in the lanes of a list. -/
def predOn (n : Nat) (ls : List Nat) (w : Wave) : Wave := { w with p := ls.map fun l => (32 * n + l, 1) }
/-- Live paths in the first `n` places. -/
def pathsLive (n : Nat) (w : Wave) : Wave :=
  { w with places := (List.range n).map fun k => (k, newPath (w64 placedPc) 0xFF) }
/-- A handler's wave: one path, and a copy held. -/
def inHandler (w : Wave) : Wave :=
  { w with held := some { places := w.places, stack := [], rep := emptyRep, faultPlace := 0, lastSlot := 2 } }
def modCtx (f : Context → Context) (s : State) : State := { s with ctxs := s.ctxs.map f }
def modLaunch (f : Launch → Launch) (s : State) : State := { s with launches := s.launches.map f }
def modBlock (f : Block → Block) (s : State) : State := { s with blocks := s.blocks.map f }
def modCore (f : Core → Core) (s : State) : State := s.setCore 0 (f (s.core 0))
/-- Bytes in the page the placed context translates. -/
def inMem (a : Nat) (bs : List Byte) (s : State) : State := { s with dram := writeBytes s.dram a bs }
def okIn {ε α : Type} : Except ε α × State → Bool
  | (.ok _, _) => true
  | _ => false
/-- An object reached, whatever operation would be logged. -/
def reached (s : State) (i : Instr) (e : Env) (addr : Word) (width : Nat) (writes : Bool) : Bool :=
  okIn (accessObj (past i s e) e.w (waveActor (past i s e) e.w) addr width width writes (plainOp .waitb))
def free (s : State) (e : Env) (path : AccessPath) (op : MemOp) : Bool :=
  !fenced e.w path && !overlapsLog s e.w op && e.w.tx.isEmpty

theorem reaches_of_reached {s : State} {i : Instr} {e : Env} {addr : Word} {width : Nat} {writes : Bool}
    (h : reached s i e addr width writes = true) : ∃ o r, reaches (past i s e) e addr width writes o r := by
  unfold reached okIn at h
  split at h
  · rename_i o r hx
    refine ⟨o, r, fun op => ?_⟩
    revert hx
    unfold accessObj
    dsimp only
    split
    · intro hx; cases hx
    · split
      · intro hx; cases hx
      · split
        · intro hx; cases hx
        · exact id
      · intro hx; cases hx
  · cases h
theorem accessFree_of_free {s : State} {e : Env} {path : AccessPath} {op : MemOp} (h : free s e path op = true) :
    accessFree s e path op := by
  unfold free at h
  unfold accessFree
  simpa [and_assoc] using h
theorem plainLanes_of_empty {e : Env} (h : e.w.tx = []) : plainLanes e := by
  intro l _
  simp [Wave.inTx, Wave.txLane, h]
theorem plainLanes_of_all {e : Env} (h : (0 :: e.lanes).all (fun l => !e.w.inTx l) = true) : plainLanes e := by
  simp only [List.all_cons, List.all_eq_true, Bool.and_eq_true, Bool.not_eq_true'] at h
  rintro l (rfl | hl)
  · exact h.1
  · exact h.2 l hl
theorem pathFree_of_free {s : State} {e : Env} {path : AccessPath} {op : MemOp} (h : free s e path op = true) :
    pathFree s e path op := by
  obtain ⟨h1, h2, h3⟩ := accessFree_of_free h
  exact ⟨h1, h2, plainLanes_of_empty h3⟩

/-! ## Witnesses: decoding, encoding and the step -/

/-- DecodeEncodeAgree and UnassignedOpcodesRefused: an instruction with a literal and one without; the ends of the ranges of
unassigned opcodes. -/
theorem witness_encodings :
    encode (.lres 0x8A 0x84 0x00000005) = some (0xAA8A8400, some 0x00000005) ∧ (Instr.lres 0x8A 0x84 0x00000005).encodable = true ∧
    encode (.add 0x01 0x02 0x03) = some (0x20010203, none) ∧
    ([0x5D000000, 0x5F000000, 0xDF000000, 0xE3000000, 0xFFFFFFFF] : List Word32).map (fun w => (rawWord w).op.toNat) =
      [0x5D, 0x5F, 0xDF, 0xE3, 0xFF] := by decide +kernel
/-- StepRunsTheDecodedInstruction: a path that the scheduler offers, its word decoded and refused; an act of the outside world, an
event due, and an instruction armed. -/
def offered (w : Nat) : Bool :=
  let s := State.reset.withFetchWord 32 w
  s.mgmt.powered && s.issue.isNone && s.inputs.isEmpty && s.agenda.isEmpty && match nextAct s with
  | some (x, .ready ws) => !(x.1.haltPending && x.1.held.isNone) && !repeats x.1 x.2.1 &&
      (let iss := issueOf x.1 x.2.1 x.2.2 ws
       (match decodeInstr iss.slot iss.word iss.literal with
        | .ok _ => true
        | .error _ => false) == (w != 0x5D000000))
  | _ => false
/-- The next step runs an instruction, armed. -/
def runsNext (s : State) (i : Instr) : Bool := match todo s with
  | .run j q => decide (j = i) && (env? q).isSome
  | _ => false
theorem run_of_runsNext {s : State} {i : Instr} (h : runsNext s i = true) : ∃ q, todo s = .run i q ∧ (env? q).isSome = true := by
  unfold runsNext at h
  split at h
  · rename_i j q hq
    simp only [Bool.and_eq_true, decide_eq_true_eq] at h
    exact ⟨q, h.1 ▸ hq, h.2⟩
  · cases h
theorem witness_step :
    runsNext (State.reset.withFetchWord 32 0x20010203) (.add 0x01 0x02 0x03) = true ∧
    offered 0x20010203 = true ∧ offered 0x5D000000 = true ∧
    (armed 0x20010203).mgmt.powered = true ∧ (armed 0x20010203).issue.isSome = true ∧
    ({ State.reset with inputs := [.powerLoss] }.mgmt.powered = true ∧ State.reset.issue = none) ∧
    ({ State.reset with agenda := [(0, .canopyHeartbeatSend)] }.inputs = [] ∧ 0 ≤ State.reset.clock) := by decide +kernel
/-- EveryInstructionAnswersAndOnlyPowerStops and MemoryReadsBackLittleEndian: an event, a state without power, memory in form. -/
theorem witness_answers : encode .powerLoss = none ∧ (env? (armed 0x20010203)).isSome = true ∧
    { State.reset.mgmt with powered := false }.powered = false ∧ Memory.wf (writeBytes [] 7 [1, 0, 2]) = true := by decide +kernel

/-! ## Witnesses: vector and bit-and-function instructions -/

def laneSamples : List Sample :=
  (vectorSamples ++ bitFunctionSamples).filter fun x => (laneForm ((etypeOf x.et).getD .i64) x.i).isSome

/-- LanewiseInstructionsComplete: every instruction it is about, in a valid type, FPX clear; then with FPX set, and with a
guard that lets nothing through. -/
theorem witness_lanewise : allMet (laneSamples.map (Sample.case fun i e => (laneForm e.et i).isSome && !modeFpx e.w.mode)) :=
  allMet_of (by decide +kernel)
theorem witness_lanewise_fpx_and_guard : allMet
    [row (.add 0x01 0x02 0x03) (fun _ e => modeFpx e.w.mode && e.et == .f64) (modeIs 0x800100),
     row (.add 0x01 0x02 0x03) (fun _ e => e.evalLanes 0x01 != [] && !e.writes 0x01 0 0 .i64) (modeIs 0x002200),
     row (.add 0x80 0x81 0x82) (fun _ e => e.evalLanes 0x80 != [])] :=
  allMet_of (by decide +kernel)

/-- IntegerArithmeticCarriesAndCompares. -/
theorem witness_integer : allMet (
    [.add 0x01 0x02 0x03, .sub 0x01 0x02 0x03, .mul 0x80 0x81 0x82, .addc 0x01 0x02 0x03 0x21, .subb 0x01 0x02 0x03 0x77].map
      (fun i => row i (fun _ e => e.et.isInt && !modeSat e.w.mode && e.pass 0 0 e.et) (ofType 7)) ++
    [.cmpeq 0xC2 0x02 0x03, .cmpne 0xC2 0x02 0x03, .cmplt 0xC7 0x02 0x03, .cmple 0xC0 0x02 0x03].map
      (fun i => row i (fun _ e => e.et.isInt && !modeFpx e.w.mode && e.pass 0 0 e.et) (ofType 3)) ++
    [.cmpun 0xC2 0x02 0x03, .cls 0xC2 0x02 0x3FF].map (fun i => row i (fun _ e => !modeFpx e.w.mode) (ofType 8)) ++
    [row (.addc 0x01 0x02 0x03 0x21) (fun _ e => e.et.isInt && e.lanes != [] && !e.pass 0 0 e.et) (modeIs 0x402200),
     row (.cmpeq 0xC2 0x02 0x03) (fun _ e => e.lanes != [] && !e.pass 0 0 e.et) (modeIs 0x402200)]) :=
  allMet_of (by decide +kernel)

/-- LogicAndShifts: each instruction, a T6x10 word, and a guard that lets nothing through. -/
theorem witness_logicShift : allMet (
    [.and 0x01 0x02 0x03, .or 0x01 0x02 0x03, .xor 0x01 0x02 0x03, .andn 0x01 0x02 0x03, .shl 0x01 0x02 0x03,
     .shrl 0x01 0x02 0x03, .shra 0x01 0x02 0x03, .rol 0x01 0x02 0x03].map
      (fun i => row i (fun _ e => e.evalLanes 0x01 != [] && e.writes 0x01 0 0 e.et) (ofType 1)) ++
    [row (.xor 0x01 0x02 0x03) (fun _ e => e.et == .t6x10) (ofType 13),
     row (.shl 0x01 0x02 0x03) (fun _ e => !e.writes 0x01 0 0 e.et) (modeIs 0x102200)]) :=
  allMet_of (by decide +kernel)

/-- A sub-element that passes the guard has a zero divisor. -/
def zeroDivisors (e : Env) (d b : OpCode) : List Nat :=
  (e.evalLanes d).filter fun l => (List.range (cnt e.et)).any fun j => e.writes d l j e.et && intOf e.et (sub (e.x b l) e.et j) == 0

/-- Division: a zero divisor, and none. -/
theorem witness_division : allMet
    [row (.divi 0x01 0x02 0x03) fun _ e => e.et.isInt && zeroDivisors e 0x01 0x03 != [],
     row (.remi 0x80 0x81 0x82) fun _ e => e.et.isInt && zeroDivisors e 0x80 0x82 != [],
     row (.divi 0x80 0x81 0x82) (fun _ e => e.et.isInt && zeroDivisors e 0x80 0x82 == [])
       (fun w => (w.setS 1 (BitVec.ofNat 64 (2 ^ 63))).setS 2 (BitVec.ofNat 64 (2 ^ 64 - 1))),
     row (.remi 0x80 0x81 0x82) (fun _ e => e.et.isInt && zeroDivisors e 0x80 0x82 == []) (fun w => w.setS 2 1)] :=
  allMet_of (by decide +kernel)

/-- BallotAndVote, each mode of VOTE; PredicateInstructions, with and without a guard; BitMatrixMultiply. -/
theorem witness_predicates : allMet (
    [.ballot 0x01 0xC1, .vote 0x80 0xC0 0, .vote 0x01 0xC1 1, .vote 0x01 0xC7 2, .vote 0x01 0xC1 3].map
      (fun i => row i (fun _ e => isPCode 0xC1 && e.lanes != []) (predOn 1 [0])) ++
    [.plogic 0xC2 0xC1 0xC7 6, .pset 0xC2 0xFF, .pmov 0xC2 0x02, .pget 0x01 0xC1, .bmm 0x01 0x02 0x03, .bmmx 0x01 0x02 0x03].map
      (fun i => row i (fun _ e => e.lanes != [])) ++
    [row (.pset 0xC2 0x5A) (fun _ e => modeGen e.w.mode && ((e.w.preg 1 0).getLsbD 0 == modeGinv e.w.mode)) (modeIs 0x002200)]) :=
  allMet_of (by decide +kernel)

/-- ReductionsAndPermutations. -/
theorem witness_reductions : allMet
    [row (.lreduce 0x01 0x02 0) (fun _ e => !modeFpx e.w.mode && e.et.isInt && !modeSat e.w.mode) (ofType 2),
     row (.lscan 0x01 0x02 0x10) (fun _ e => !modeFpx e.w.mode) (ofType 8),
     row (.bpld 0x07 0xBA), row (.bperm 0x01 0x02 0x07) (fun _ e => e.writes 0x01 0 0 .i64),
     row (.bperm 0x01 0x02 0x07) (fun _ e => !e.writes 0x01 0 0 .i64) (modeIs 0x002200)] :=
  allMet_of (by decide +kernel)

/-! ## Witnesses: issue, exceptions and the sequencer -/

/-- FailedChecksAndTrapInstruction: a check of R67 fails with each of its causes. -/
def failsWith (i : Instr) (c : Cause) (f : Wave → Wave) : Bool :=
  let s := bench i f
  match env? s with
  | some e => (encode i).isSome && decide (i ≠ .nop) && decide (preCheck e i = some c)
  | none => false
theorem env_of_failsWith {i : Instr} {c : Cause} {f : Wave → Wave} (h : failsWith i c f = true) :
    ∃ e, (encode i).isSome = true ∧ i ≠ .nop ∧ env? (bench i f) = some e ∧ preCheck e i = some c := by
  unfold failsWith at h
  dsimp only at h
  split at h
  · rename_i e he
    simp only [Bool.and_eq_true, decide_eq_true_eq] at h
    exact ⟨e, h.1.1, h.1.2, he, h.2⟩
  · cases h
theorem witness_failedChecks :
    failsWith (.add 0xC1 0x02 0x03) .reservedField id = true ∧ failsWith (.fma 0x01 0x02 0x03) .modeInvalid id = true ∧
    failsWith (.add 0x01 0x02 0x03) .modeInvalid (modeIs 0xE00000) = true ∧
    failsWith (.add 0x01 0x02 0x08) .regBudget (fun w => { w with budget := 8 }) = true ∧
    failsWith (.mov 0xB8 0x84) .privileged id = true := by decide +kernel

/-- A handler for the context. -/
def handled : State → State := modCtx fun c => { c with handler := 0x20000 }
/-- The wave, its context and the path at the place, as TakingAnException asks for them. -/
def trapReady (s : State) (e : Env) : Bool :=
  match s.wave? e.w.uid with
  | some w => match s.waveCtx w with
    | some x => (mfind w.places e.iss.place).isSome && decide (x.handler ≠ 0) && w.held.isNone && w.section?.isNone
    | none => false
  | none => false
/-- TakingAnException: with a handler; and the ways an exception ends the context or the run. -/
theorem witness_takingAnException : allMet
    [row (.trap 0x1234) trapReady id handled,
     row (.trap 0x1234) (fun s e => (s.waveCtx e.w).isSome && (mfind e.w.places 0).isSome && e.w.held.isSome) inHandler handled,
     row (.trap 0x1234) fun s e => ((s.waveCtx e.w).map fun x => decide (x.handler = 0)) == some true && e.w.held.isNone &&
       (mfind e.w.places 0).isSome] :=
  allMet_of (by decide +kernel)

/-- ReturnFromException: outside a handler; with another live path; and a return. -/
theorem witness_tret : allMet
    [row .tret fun _ e => e.w.held.isNone,
     row .tret (fun _ e => e.w.held.isSome && e.w.places.any fun x => x.1 != e.iss.place)
       (fun w => { inHandler w with places := (pathsLive 2 w).places }),
     row .tret (fun _ e => ((e.w.held.bind fun h => mfind h.places h.faultPlace).isSome) && !e.w.haltPending &&
       e.w.places.all fun x => x.1 == e.iss.place) inHandler] :=
  allMet_of (by decide +kernel)

def okShare (r : Except (Bool × Cause) Target) : Bool := match r with
  | .ok (.scratch _ _ _) => true
  | _ => false
/-- ModeAndSystemRegisters: the last codes in range and the first reserved ones, the ends of the share, and a region left in
and out of order. -/
theorem witness_modeAndSystemRegisters : allMet (
    [0x00D8FF00, 0x00000000].map (fun x => row (.setmode x) fun _ _ =>
      decide (litBits x 20 4 < 14 ∧ litBits x 17 3 < 5 ∧ litBits x 0 8 = 0)) ++
    [0x00E00000, 0x000A0000, 0x00000001].map (fun x => row (.setmode x) fun _ _ =>
      !decide (litBits x 20 4 < 14 ∧ litBits x 17 3 < 5 ∧ litBits x 0 8 = 0)) ++
    [row (.getmode 0x80), row (.sysrd 0x01 0x0003), row (.sysrd 0x01 0x0501), row (.syswr 0x8A 0x0102),
     row (.syswr 0x8A 0x0103) fun s e => okShare (shareTarget s e.w e.w.core (e.u 0x8A).toNat),
     row (.syswr 0x8A 0x0104) (fun s e => okShare (shareTarget s e.w e.w.core (e.u 0x8A).toNat)) (regs 0xFFFF 0)] ++
    [.rgnin 0x1234, .rgnout 0x1234, .tmark 0x1234].map (fun i => row i fun _ e => !e.w.watchStop && !e.w.traceStop) ++
    [row (.rgnout 0x1234) (fun _ e => !e.w.watchStop && !e.w.traceStop && e.w.regions.head? == some 0x1234)
       fun w => { w with regions := [0x1234] }]) :=
  allMet_of (by decide +kernel)

theorem witness_nop : ((env? (bench .nop)).any fun e => decide (e.iss.setf < 13)) = true := by decide +kernel
def flagsMet (e : Env) (n : Nat) (flags : BitVec 16) : Bool :=
  (List.range 12).all fun k => !flags.getLsbD k || decide (e.w.flag k ≤ n)
/-- A REP and the instruction it repeats. -/
def repCase (count : Byte) : Case :=
  { s := armed (0x03001700 + 65536 * count.toNat + 2 ^ 32 * 0x20010203), i := .rep count 0x17
    p := fun _ e => !repMisused e.iss.slot 0x17 e.iss.nextWord && !e.w.rep.valid }
/-- NopYieldWaitAndRepeat: flags met and not met, counts 0, 1 and 64. -/
theorem witness_nopYieldWaitRepeat : allMet
    [row .yield, row (.waitf 0x0E 0x0FFF) fun _ e => e.w.cellReps.isEmpty && flagsMet e 14 0x0FFF,
     row (.waitf 0x00 0x0800) (fun _ e => e.w.cellReps.isEmpty && !flagsMet e 0 0x0800) (fun w => { w with flags := [(11, 1)] }),
     repCase 0, repCase 1, repCase 64] :=
  allMet_of (by decide +kernel)

/-- The lanes a BRP takes with, out of the path's. -/
def taken (e : Env) (p : OpCode) : Mask × Mask :=
  let m := maskOf (e.lanes.filter fun l => (e.w.preg (p.toNat - 0xC0) l).getLsbD 0)
  (e.p.mask &&& m, e.p.mask &&& ~~~m)
def splits (e : Env) (p : OpCode) : Bool := (taken e p).1 != 0 && (taken e p).2 != 0
def brp (p : State → Env → Bool) (f : Wave → Wave) (g : State → State := id) : Case := row (.brp 0xC1 0xFFFE) p f g
/-- BranchesJumpsAndCalls: no lane, every lane and some lanes taking; the place of the new path in a free slot, a fragment
place, a handler, and the stack with 63 and 64 paths; and targets that are bundles, that are none, and that are too far. -/
theorem witness_branches : allMet (
    [row (.bra 0x000002), row (.bru 0x8A 0x0003) (fun _ e => e.u 0x8A == 0),
     row (.bru 0x8A 0x0003) (fun _ e => e.u 0x8A != 0) (regs 1 0),
     brp (fun _ e => (taken e 0xC1).1 == 0) id,
     brp (fun _ e => (taken e 0xC1).1 != 0 && (taken e 0xC1).2 == 0) (predOn 1 (List.range 32)),
     brp (fun _ e => splits e 0xC1 && e.w.freeSlot == some 1) (predOn 1 [31]),
     brp (fun _ e => splits e 0xC1 && e.w.freeSlot.isNone && e.w.held.isNone && e.w.freeFragment == some 2)
       (fun w => predOn 1 [0] (pathsLive 2 w)),
     brp (fun _ e => splits e 0xC1 && e.w.freeSlot.isNone && e.w.held.isSome)
       (fun w => { predOn 1 [0] (inHandler w) with places := (pathsLive 2 w).places }),
     brp (fun s e => splits e 0xC1 && e.w.freeSlot.isNone && e.w.held.isNone && e.w.freeFragment.isNone &&
         decide (e.w.stack.length < 64) && okIn (pushRecord (past (.brp 0xC1 0xFFFE) s e) e.w (newPath 0 1)))
       (fun w => { predOn 1 [0] (pathsLive 8 w) with stack := List.replicate 63 (newPath 0 1) })
       (modCtx fun c => { c with saveBase := 0x18000 }),
     brp (fun _ e => splits e 0xC1 && e.w.freeSlot.isNone && e.w.held.isNone && e.w.freeFragment.isNone &&
         decide (64 ≤ e.w.stack.length))
       (fun w => { predOn 1 [0] (pathsLive 8 w) with stack := List.replicate 64 (newPath 0 1) })] ++
    [.jmpi 0x8A, .calli 0x85 0x8A].flatMap (fun i =>
      [row i (fun _ e => decide ((e.u 0x8A).toNat % 16 ≠ 0)) (regs 0x10008 0),
       row i (fun _ e => decide ((e.u 0x8A).toNat % 16 = 0 ∧ 2 ^ 52 ≤ (e.u 0x8A).toNat)) (regs (2 ^ 52) 0),
       row i (fun _ e => decide ((e.u 0x8A).toNat % 16 = 0 ∧ (e.u 0x8A).toNat < 2 ^ 52)) (regs (2 ^ 52 - 16) 0)]) ++
    [row (.call 0xB7 0x7FFF) fun _ e => decide ((e.iss.bundle + 16 * (0x7FFF : BitVec 16).signExtend 64).toNat < 2 ^ 52),
     row (.call 0xB7 0x8000) fun _ e => decide (2 ^ 52 ≤ (e.iss.bundle + 16 * (0x8000 : BitVec 16).signExtend 64).toNat),
     row (.ret 0x8A) (fun _ e => decide ((e.u 0x8A).toNat / 4 % 4 ≠ 0)) (regs 0x1000C 0),
     row (.ret 0x8A) (fun _ e => decide ((e.u 0x8A).toNat / 4 % 4 = 0 ∧ 2 ^ 52 ≤ (e.u 0x8A).toNat)) (regs (2 ^ 52) 0),
     row (.ret 0x8A) (fun _ e => decide ((e.u 0x8A).toNat / 4 % 4 = 0 ∧ (e.u 0x8A).toNat < 2 ^ 52)) (regs 0x10003 0)]) :=
  allMet_of (by decide +kernel)

/-- The wave right after issue. -/
def after (i : Instr) (s : State) (e : Env) (p : Wave → Bool) : Bool := ((past i s e).wave? e.w.uid).any p
def requested : State → State := modCtx fun c => { c with preempt := some (0, 0) }
def inSection (w : Wave) : Wave :=
  { w with elisions := [{ line := ⟨.global 1, 0⟩, bundle := 0x10000, slot := 1, path := 0, lanes := [0], plain := false }] }
def sptEntry (s : State) (e : Env) (n : Nat) : Option (Option SafePoint) :=
  match safePointEntry (past (.spt 0xFE) s e) e.w n with
  | (.ok x, _) => some x
  | _ => none
/-- A kernel with 255 safe points, the last of them well formed. -/
def withTable (s : State) : State := inMem (0x18000 + 24 * 254) (leBytes 8 0x12000 ++ leBytes 8 0x13000 ++ leBytes 8 0xB7)
  (modLaunch (fun l => { l with header := List.replicate 12 0 ++ leBytes 4 255 ++ leBytes 8 0x18000 ++ List.replicate 232 0 }) s)
/-- JoiningEndingAndSafePoints: one live path and two; a handler; a request with an elided section, with a null entry and with
one; PSAVE outside a save routine and in one. -/
theorem witness_joiningAndEnding : allMet (
    [row (.rjoin 0x1234) fun s e => after (.rjoin 0x1234) s e fun w => decide (w.livePaths.length ≤ 1),
     row (.rjoin 0x1234) (fun s e => after (.rjoin 0x1234) s e fun w => decide (2 ≤ w.livePaths.length) &&
       (((w.modPath e.iss.place fun x => { x with pc := e.iss.bundle, slot := e.iss.slot, fresh := false
                                                  park := .rjoin 0x1234, waitResume := false }).mergeJoin
         e.iss.bundle).refill.parkedFragments.isEmpty)) (pathsLive 2)] ++
    [.exit, .tail].flatMap (fun i =>
      [row i (fun _ e => e.w.guardRep.isNone && e.w.held.isSome) inHandler,
       row i (fun _ e => e.w.guardRep.isNone && e.w.held.isNone && (unflaggedCell e.w).isNone && decide (2 ≤ e.w.livePaths.length))
         (pathsLive 2),
       row i fun s e => e.w.guardRep.isNone && e.w.held.isNone && (unflaggedCell e.w).isNone && decide (e.w.livePaths.length ≤ 1) &&
         decide ((s.core e.w.core).tracker.length < 64)]) ++
    [row (.spt 0xFE) (fun _ e => e.w.held.isSome) inHandler,
     row (.spt 0x00) fun s e => e.w.held.isNone && !preemptPending (past (.spt 0x00) s e) e.w,
     row (.spt 0xFE) (fun s e => e.w.held.isNone && preemptPending (past (.spt 0xFE) s e) e.w && e.w.section?.isSome) inSection
       requested,
     row (.spt 0xFE) (fun s e => e.w.held.isNone && preemptPending (past (.spt 0xFE) s e) e.w && e.w.section?.isNone &&
       sptEntry s e 254 == some none) id requested,
     row (.spt 0xFE) (fun s e => e.w.held.isNone && preemptPending (past (.spt 0xFE) s e) e.w && e.w.section?.isNone &&
       (sptEntry s e 254).any Option.isSome) id fun s => requested (withTable s),
     row .psave fun _ e => !e.p.inSave,
     row .psave (fun _ e => e.p.inSave && e.w.guardRep.isNone && e.w.stack.all fun q => q.park == .saved)
       fun w => w.modPath 0 fun p => { p with inSave := true }]) :=
  allMet_of (by decide +kernel)

/-! ## Witnesses: synchronisation -/

/-- The object an instruction reaches, with the state then. -/
def objAt (s : State) (i : Instr) (e : Env) (addr : Word) (width : Nat) (writes : Bool) : Option (ObjAt × State) :=
  match accessObj (past i s e) e.w (waveActor (past i s e) e.w) addr width width writes (plainOp .waitb) with
  | (.ok o, r) => some (o, r)
  | _ => none
def barrier (expected arrived : Nat) (phase : Bool) (kind set owner : Nat) : List Byte :=
  barrierBytes { expected := expected, arrived := arrived, phase := phase, kind := kind, set := set, owner := owner
                 malformed := false }
/-- The barrier an instruction names, which is reached, meets a check. -/
def onBarrier (s : State) (i : Instr) (e : Env) (addr : Word) (writes : Bool) (p : BarrierObj → Bool) : Bool :=
  reached s i e addr 16 writes && (objAt s i e addr 16 writes).any fun x => p (readBarrier x.2 (waveActor (past i s e) e.w) x.1)
def joins (xs : List (Nat × Nat)) (w : Wave) : Wave := { w with sets := xs }
/-- Four other waves of the block, in set 5. -/
def fourMembers (s : State) : State :=
  modBlock (fun b => { b with quadSets := [5] })
    { s with waves := s.waves ++ [2, 3, 4, 5].map fun k => { emptyWave with uid := k, lid := 1, sets := [(5, k - 2)] } }
def setCase (i : Instr) (n : Nat) (p : List Nat → Block → Bool → Env → Bool) (f : Wave → Wave) (g : State → State := id) : Case :=
  row i (fun s e => match (past i s e).waveBlock e.w with
    | some b => decide ((e.u 0x8A).toNat = n) && p (setPositions (past i s e) b n) b (e.w.sets.any fun x => x.1 == n) e
    | none => false) (fun w => f (regs n 0 w)) g
/-- SetsWaitsOnBarriersAndSignals, its sets: numbers 63 and 64, one joined before, four sets and three, and a quad of four. -/
theorem witness_sets : allMet
    [setCase (.setjoin 0x01 0x8A) 64 (fun _ _ _ _ => true) id,
     setCase (.setjoin 0x01 0x8A) 63 (fun _ _ j _ => j) (joins [(63, 0)]),
     setCase (.setjoin 0x01 0x8A) 63 (fun _ _ j e => !j && decide (4 ≤ e.w.sets.length)) (joins [(0, 0), (1, 0), (2, 0), (3, 0)]),
     setCase (.setjoin 0x01 0x8A) 5 (fun t b j _ => !j && b.quadSets.contains 5 && decide (4 ≤ t.length)) id fourMembers,
     setCase (.setjoin 0x01 0x8A) 63 (fun _ b j e => !j && decide (e.w.sets.length < 4) && !b.quadSets.contains 63)
       (joins [(0, 0), (1, 0), (2, 0)]),
     setCase (.setleave 0x8A) 5 (fun _ _ j _ => !j) id, setCase (.setleave 0x8A) 5 (fun _ _ j _ => j) (joins [(5, 0)])] :=
  allMet_of (by decide +kernel)

/-- A wave that has arrived at s10's barrier in the phase before, with s10 and s11 set. -/
def arrivedAt (x y : Nat) (w : Wave) : Wave := { regs x y w with arrivals := [{ addr := w64 x, phase := true }] }
def doneAt (e : Env) (x : BarrierObj) : Bool := (e.w.arrivals.find? fun y => y.addr == e.u 0x8A).any fun y => y.phase != x.phase
def resuming (w : Wave) : Wave := w.modPath 0 fun p => { p with waitResume := true }
def counted (s : State) : State := inMem 0x18000 (barrier 2 0 false 0 0 0) s
/-- A wait on the barrier at s10: waiting, met or not. -/
def waitCase (i : Instr) (op : Env → MemOp) (resume done : Bool) (f : Wave → Wave) : Case :=
  row i (fun s e => e.w.guardRep.isNone && free s e .ls (op e) && e.p.waitResume == resume &&
    onBarrier s i e (e.u 0x8A) false fun x => !x.malformed && doneAt e x == done) f counted
/-- ARRWAIT's own arrival is made, and then the barrier is read. -/
def arrives (s : State) (e : Env) (done : Bool) : Bool :=
  let i : Instr := .arrwait 0x01 0x8A 0x8B
  match doArrive (past i s e) e.w (objOp e .arrwait (e.u 0x8A) (e.u 0x8B) 0 0x01) e.iss.bundle with
  | .ok (_, q1) => (q1.wave? e.w.uid).any fun w => match accessObj q1 w (waveActor q1 w) (e.u 0x8A) 16 16 false (plainOp .waitb) with
    | (.ok o, r) => let x := readBarrier r (waveActor q1 w) o
      !x.malformed && ((w.arrivals.find? fun y => y.addr == e.u 0x8A).any fun y => y.phase != x.phase) == done
    | _ => false
  | .error _ => false
def sigValue (s : State) (e : Env) (p : Nat → Nat → Bool) : Bool :=
  let i : Instr := .sigwait 0x01 0x8A 0x8B
  reached s i e (e.u 0x8A) 16 false && (objAt s i e (e.u 0x8A) 16 false).any fun x =>
    let bs := readTarget x.2 (waveActor (past i s e) e.w) x.1.pa 16 x.1.target
    p (field bs 0 8) (field bs 8 8)
/-- Its waits: met and not, an ARRWAIT that arrives (the last one, and not) and one that resumes, a signal at its threshold and
one below it. -/
theorem witness_waits : allMet
    [waitCase (.waitb 0x01 0x8A) (fun e => objOp e .waitb (e.u 0x8A) 0 0 0x01) false true (arrivedAt 0x18000 0),
     waitCase (.waitb 0x01 0x8A) (fun e => objOp e .waitb (e.u 0x8A) 0 0 0x01) false false (regs 0x18000 0),
     waitCase (.arrwait 0x01 0x8A 0x8B) (fun e => objOp e .arrwait (e.u 0x8A) (e.u 0x8B) 0 0x01) true true
       (fun w => resuming (arrivedAt 0x18000 1 w)),
     waitCase (.arrwait 0x01 0x8A 0x8B) (fun e => objOp e .arrwait (e.u 0x8A) (e.u 0x8B) 0 0x01) true false
       (fun w => resuming (regs 0x18000 1 w)),
     row (.arrwait 0x01 0x8A 0x8B) (fun s e => e.w.guardRep.isNone && !e.p.waitResume && arrives s e true &&
       !releaseWaits (past (.arrwait 0x01 0x8A 0x8B) s e) e.w (e.u 0x8A) &&
       free s e .ls (objOp e .arrwait (e.u 0x8A) (e.u 0x8B) 0 0x01)) (regs 0x18000 2) counted,
     row (.arrwait 0x01 0x8A 0x8B) (fun s e => e.w.guardRep.isNone && !e.p.waitResume && arrives s e false &&
       !releaseWaits (past (.arrwait 0x01 0x8A 0x8B) s e) e.w (e.u 0x8A) &&
       free s e .ls (objOp e .arrwait (e.u 0x8A) (e.u 0x8B) 0 0x01)) (regs 0x18000 1) counted,
     row (.sigwait 0x01 0x8A 0x8B) (fun s e => free s e .ls (objOp e .sigwait (e.u 0x8A) (e.u 0x8B) 0 0x01) &&
       sigValue s e fun v z => z == 0 && decide ((e.u 0x8B).toNat ≤ v)) (regs 0x18000 7) (inMem 0x18000 (leBytes 16 7)),
     row (.sigwait 0x01 0x8A 0x8B) (fun s e => free s e .ls (objOp e .sigwait (e.u 0x8A) (e.u 0x8B) 0 0x01) &&
       sigValue s e fun v z => z == 0 && decide (v < (e.u 0x8B).toNat)) (regs 0x18000 8) (inMem 0x18000 (leBytes 16 7))] :=
  allMet_of (by decide +kernel)

/-- An arrival at s10's barrier that is allowed, or is not (R155). -/
def allowedAt (s : State) (e : Env) : Option Bool :=
  let i : Instr := .arrive 0x8A 0x8B
  match objAt s i e (e.u 0x8A) 16 true with
  | some (o, r) => (r.waveBlock e.w).map fun blk =>
    let x := readBarrier (releaseObj r e.w o.loc (objScope r (waveActor (past i s e) e.w).asid o.target)) (waveActor (past i s e) e.w) o
    let n := (e.u 0x8B).toNat
    decide (x.malformed = false ∧ n ≠ 0 ∧ (x.kind = 0 → x.arrived + n ≤ x.expected) ∧
      (x.kind = 1 → n = 1 ∧ (e.w.sets.any fun y => y.1 == x.set) = true ∧ (x.arrived = 0 ∨ x.owner = blk.owner)))
  | none => none
def arriveCase (allowed : Bool) (n : Nat) (bs : List Byte) (f : Wave → Wave := id) : Case :=
  row (.arrive 0x8A 0x8B) (fun s e => e.w.guardRep.isNone && free s e .ls (objOp e .arrive (e.u 0x8A) (e.u 0x8B) 0 0xD0) &&
    !releaseWaits (past (.arrive 0x8A 0x8B) s e) e.w (e.u 0x8A) &&
    reached s (.arrive 0x8A 0x8B) e (e.u 0x8A) 16 true && allowedAt s e == some allowed) (fun w => f (regs 0x18000 n w))
    (inMem 0x18000 bs)
def signalClean (s : State) (e : Env) : Option Bool :=
  let i : Instr := .signal 0x8A 0x8B
  (objAt s i e (e.u 0x8A) 16 true).map fun x =>
    field (readTarget (releaseObj x.2 e.w x.1.loc (objScope x.2 (waveActor (past i s e) e.w).asid x.1.target)) (waveActor (past i s e) e.w) x.1.pa 16 x.1.target) 8 8 == 0
def bound (base : Nat) : Binding := { obj := ⟨.global 1, 0x18000⟩, base := w64 base, len := 64, lid := 1 }
/-- A BIND of `len` bytes at s11 to the object at s10: whether its base is bound before, and how many the object has. -/
def bindCase (len : Nat) (p : Nat → Bool → Nat → Bool) (xs : List Binding) : Case :=
  row (.bind 0x8C 0x8A 0x8B) (fun s e => free s e .ls (objOp e .bind (e.u 0x8A) (e.u 0x8C) (e.u 0x8B) 0xD0) &&
    reached s (.bind 0x8C 0x8A 0x8B) e (e.u 0x8A) 8 false &&
    (objAt s (.bind 0x8C 0x8A 0x8B) e (e.u 0x8A) 8 false).any fun x =>
      let mine := x.2.bindings.filter fun y => y.obj == x.1.loc
      p (e.u 0x8C).toNat (mine.any fun y => y.base == e.u 0x8B) mine.length)
    (fun w => (regs 0x18000 0x19000 w).setS 12 (w64 len)) fun s => { s with bindings := xs }
/-- ArrivalsSignalsAndBindings: the arrival that makes a counted barrier whole and one too many, a count of zero, a set barrier
by a member and by none, a malformed one; a clean signal and one that is not; lengths 0, 1, 2^40 and more, a base bound before,
the eighth region and the ninth. -/
theorem witness_arrivals : allMet
    [arriveCase true 1 (barrier 2 1 false 0 0 0), arriveCase true 1 (barrier 2 0 true 0 0 0),
     arriveCase false 2 (barrier 2 1 false 0 0 0), arriveCase false 0 (barrier 2 0 false 0 0 0),
     arriveCase true 1 (barrier 0 0 false 1 63 0) (joins [(63, 0)]), arriveCase false 1 (barrier 0 0 false 1 63 0),
     arriveCase false 1 (barrier 0 0 false 0 0 0),
     row (.signal 0x8A 0x8B) (fun s e => free s e .ls (objOp e .signal (e.u 0x8A) (e.u 0x8B) 0 0xD0) &&
       !releaseWaits (past (.signal 0x8A 0x8B) s e) e.w (e.u 0x8A) &&
       reached s (.signal 0x8A 0x8B) e (e.u 0x8A) 16 true && signalClean s e == some true) (regs 0x18000 9),
     row (.signal 0x8A 0x8B) (fun s e => free s e .ls (objOp e .signal (e.u 0x8A) (e.u 0x8B) 0 0xD0) &&
       !releaseWaits (past (.signal 0x8A 0x8B) s e) e.w (e.u 0x8A) &&
       reached s (.signal 0x8A 0x8B) e (e.u 0x8A) 16 true && signalClean s e == some false) (regs 0x18000 9) (inMem 0x18008 [1]),
     bindCase (2 ^ 40) (fun n again _ => decide (0 < n ∧ n ≤ 2 ^ 40) && again) [bound 0x19000],
     bindCase 1 (fun n again k => decide (0 < n ∧ n ≤ 2 ^ 40) && !again && decide (k = 7)) ((List.range 7).map bound),
     bindCase 1 (fun n again k => decide (0 < n ∧ n ≤ 2 ^ 40) && !again && decide (k = 8)) ((List.range 8).map bound),
     bindCase 0 (fun n _ _ => decide (n = 0)) [], bindCase (2 ^ 40 + 1) (fun n _ _ => decide (2 ^ 40 < n)) [],
     row (.unbind 0x8A 0x8B) (fun s e => free s e .ls (objOp e .unbind (e.u 0x8A) 0 (e.u 0x8B) 0xD0) &&
       reached s (.unbind 0x8A 0x8B) e (e.u 0x8A) 8 false) (regs 0x18000 0x19000)] :=
  allMet_of (by decide +kernel)
/-- Its counting clause: below what is expected, the arrival that makes it whole, and one more. -/
theorem witness_counting :
    let s := inMem 0x18000 (barrier 3 1 false 0 0 0) (bench .yield)
    let x := readBarrier s (plainActor (.core 0) 1) { target := .global 0x18000, pa := 0x18000, loc := ⟨.global 1, 0x18000⟩ }
    x.malformed = false ∧ x.kind = 0 ∧ (s.func 0).watches = [] ∧ x.arrived + 1 < x.expected ∧ x.arrived + 2 = x.expected ∧
      x.expected < x.arrived + 3 := by decide +kernel

/-- TakingAnException, a path of an elided section. -/
theorem witness_sectionTrap : allMet
    [row (.trap 0x1234) (fun s e => (s.wave? e.w.uid).any fun w => (s.waveCtx w).any (fun x => decide (x.handler ≠ 0)) &&
       w.held.isNone && (mfind w.places e.iss.place).any fun p => (w.sectionOf p).isSome) inSection handled] :=
  allMet_of (by decide +kernel)
/-- ReturnFromException with a halt request held through the handler. -/
theorem witness_tretHalt : allMet
    [row .tret (fun s e => e.w.haltPending && e.w.section?.isNone && (e.w.places.all fun x => x.1 == e.iss.place) &&
       (s.waveCtx e.w).any (fun x => decide (x.handler ≠ 0)) &&
       e.w.held.any fun h => decide (h.faultPlace < 2) && (mfind h.places h.faultPlace).isSome)
       (fun w => { inHandler w with haltPending := true }) handled] :=
  allMet_of (by decide +kernel)
/-- A NOP whose SETF is 13. -/
theorem witness_nopReserved :
    (let s := bench .nop
     ((env? { s with issue := s.issue.map fun x => { x with setf := 13 } }).any fun e => decide (13 ≤ e.iss.setf)) = true) := by
  decide +kernel

/-- A path parked at an RJOIN. -/
def joining (pc token born : Nat) : Path := { newPath (w64 pc) 0xFF with park := .rjoin token, fresh := false, born := born }
/-- Two live paths, and a fragment parked at an RJOIN of another bundle. -/
def parkedFragment (w : Wave) : Wave :=
  { w with places := (pathsLive 2 w).places ++ [(2, joining 0x10040 7 9)] }
def rjoined (s : State) (e : Env) (p : State → Wave → Wave → Bool) : Bool :=
  let i : Instr := .rjoin 0x1234
  ((past i s e).wave? e.w.uid).any fun w =>
    let parked := w.modPath e.iss.place fun x =>
      { x with pc := e.iss.bundle, slot := e.iss.slot, fresh := false, park := .rjoin 0x1234, waitResume := false }
    let w1 := (parked.mergeJoin e.iss.bundle).refill
    decide (2 ≤ w.livePaths.length) && p (rePlace (past i s e) w w1) w w1
/-- JoiningEndingAndSafePoints: a fragment that gives its place up to the stack, and one that cannot, the stack full; EXIT and TAIL
with no atomic or guard report to come and no section of the path; SPT in a section of the path. -/
theorem witness_fragmentsAndSections : allMet (
    [row (.rjoin 0x1234) (fun s e => rjoined s e fun r w w1 => match w1.parkedFragments with
       | [(k, p)] => decide (w1.stack.length < 64) && (match pushRecord r w1 p with
         | (.ok (), r1) => (r1.wave? w.uid).any fun w2 =>
             (Wave.refill { w2 with places := merase w2.places k, stack := p :: w2.stack }).parkedFragments.isEmpty
         | _ => false)
       | _ => false) parkedFragment (modCtx fun c => { c with saveBase := 0x18000 }),
     row (.rjoin 0x1234) (fun s e => rjoined s e fun _ _ w1 => !w1.parkedFragments.isEmpty && decide (64 ≤ w1.stack.length))
       fun w => { parkedFragment w with stack := List.replicate 64 (joining 0x10080 7 9) }] ++
    [.exit, .tail].flatMap (fun i =>
      [row i (fun s e => e.w.guardRep.isNone && e.w.held.isNone && (unflaggedCell e.w).isNone && !cellComing (past i s e) e.w &&
         !guardComing (past i s e) e.w && decide (2 ≤ e.w.livePaths.length) && e.w.elisions.all fun x => !x.holds e.p) (pathsLive 2),
       row i fun s e => e.w.guardRep.isNone && e.w.held.isNone && (unflaggedCell e.w).isNone && !cellComing (past i s e) e.w &&
         !guardComing (past i s e) e.w && decide (e.w.livePaths.length ≤ 1) && decide ((s.core e.w.core).tracker.length < 64)]) ++
    [row (.spt 0xFE) (fun s e => e.w.held.isNone && preemptPending (past (.spt 0xFE) s e) e.w && (e.w.sectionOf e.p).isSome)
       inSection requested,
     row (.spt 0xFE) (fun s e => e.w.held.isNone && preemptPending (past (.spt 0xFE) s e) e.w && (e.w.sectionOf e.p).isNone &&
       sptEntry s e 254 == some none) (fun w => { w with elisions := (inSection w).elisions.map fun x => { x with path := 5, lanes := [] } })
       requested]) :=
  allMet_of (by decide +kernel)
/-- RJOIN_RESUME: two paths parked at RJOINs with different tokens, one of them a fragment on the stack, with one in a wait; and a
path that runs. -/
theorem witness_joinResume :
    let s := fun (w : Wave → Wave) => bench .yield w
    let waiting := fun (w : Wave) => { w with
      places := [(0, joining 0x10000 7 1), (1, { joining 0x10040 0 2 with park := .signal ⟨.global 1, 0x18000⟩ 1 0xD0 4 4 })]
      stack := [joining 0x10080 6 3] }
    (((s waiting).wave? 1).any fun w => (w.livePaths.all fun p => p.parkedRjoin || p.parkedWait) &&
      (w.livePaths.any fun p => p.parkedRjoin) && decide ((w.livePaths.map Path.born).Nodup ∧ (w.places.map Prod.fst).Nodup)) = true ∧
    (((s fun w => { w with places := [(0, joining 0x10000 7 1), (1, { newPath 0x10040 1 with born := 2 })] }).wave? 1).any fun w =>
      w.livePaths.any fun p => !p.parkedRjoin && !p.parkedWait) = true := by decide +kernel

/-- A wave that waits for the phase 0 of the barrier at 0x18000 to end. -/
def waiterOf (uid : Nat) : Wave :=
  { emptyWave with
    uid := uid, lid := 1
    places := [(0, { newPath 0x10000 0xFF with park := .barrier ⟨.global 1, 0x18000⟩ false 0x01 false 4 4 })]
    pending := [{ seqNo := 4, setf := 0, writes := [], path := .none, store := false, returned := false, ss := 0, fmt := none }] }
/-- ArrivalsSignalsAndBindings, a completion: a barrier in global memory and one in a scratchpad, by an actor that does not hold
its writes, with two waiters. -/
theorem witness_completeBarrier :
    let A := plainActor (.core 0) 1
    let o : ObjAt := { target := .global 0x18000, pa := 0x18000, loc := ⟨.global 1, 0x18000⟩ }
    let x : BarrierObj := { expected := 2, arrived := 2, phase := false, kind := 0, set := 0, owner := 0, malformed := false }
    let s := { bench .yield with waves := [waiterOf 2, waiterOf 3] }
    let q := writeObj s A o.pa (barrierBytes { x with phase := !x.phase, arrived := 0 }) o.target
    A.held = false ∧ A.asid ≠ 0 ∧ s.l2 = [] ∧ guardHit s 16 (.scratch 0 0 0) = none ∧ (q.waves.map Wave.uid).Nodup ∧
    (q.waves.all fun w => waitsOn q A o.target w && w.allPaths.all fun p => p.park.seqNo == some 4) = true := by decide +kernel

/-! ## Witnesses: memory instructions -/

/-- The base s10 at the placed page's data, s11 an offset, and in v2 each lane's number as index. -/
def indexed (x y : Nat) (w : Wave) : Wave :=
  { regs x y w with v := (List.range 32).map fun l => (64 + l, w64 l) }
def checksPass (s : State) (i : Instr) (e : Env) (form : AddrForm) (align : Nat) (writes : Bool) (ls : List LaneAcc) : Bool :=
  let r := past i s e
  (firstFailure (laneChecks r e.w form align writes) ls).isNone &&
    okIn (xlateLanes r e.w (waveActor r e.w) form (if writes then .write else .read) ls)
def roomFor (s : State) (i : Instr) (e : Env) (form : AddrForm) (ls : List LaneAcc) : Bool :=
  let r := past i s e
  match xlateLanes r e.w (waveActor r e.w) form .write ls with
  | (.ok ts, r1) => (holdFull r1 (waveActor r e.w) ts).isNone
  | _ => false
def loadGoes (i : Instr) (s : State) (e : Env) : Bool :=
  match loadForm e.et i with
  | some (form, d, a, b, width, signed) => free s e .ls (loadOp e form d a b width signed) &&
    checksPass s i e form width false (laneAccesses e d a b width (fun _ => 0) (fun _ => 0))
  | none => false
def storeGoes (i : Instr) (s : State) (e : Env) : Bool :=
  match storeForm i with
  | some (form, d, a, b, width) => free s e .ls (storeOp e form d a b width) &&
    checksPass s i e form width true (laneAccesses e d a b width (e.x d) (fun _ => 0)) &&
    roomFor s i e form (laneAccesses e d a b width (e.x d) (fun _ => 0))
  | none => false
/-- The block's run is unchecked. -/
def unchecked (run : Run) (s : State) : State :=
  modBlock (fun b => { b with run := run, unchecked := true }) (s.modWave 1 fun w => { w with run := run })

/-- LoadsComplete: each load over 32 lanes, a scalar one, and the ends of the share. -/
theorem witness_loads : allMet (
    ([.ld8 0x01 0x8A 0x02, .ld16 0x01 0x8A 0x02, .ld32 0x80 0x8A 0xD1, .ld64 0x01 0x8A 0x02, .wld 0x01 0x8B 0x02,
      .sld 0x01 0x8B 0x02 7, .nld 0x01 0x8B 0x02 0x002].map fun i => row i (loadGoes i) (indexed 0x18000 0)) ++
    [row (.sld 0x80 0x8B 0xD1 0) (loadGoes (.sld 0x80 0x8B 0xD1 0)) (indexed 0 0xFFFF)]) :=
  allMet_of (by decide +kernel)
/-- StoresComplete: each store, and a held one. -/
theorem witness_stores : allMet (
    ([.st8 0x01 0x8A 0x02, .st16 0x01 0x8A 0x02, .st32 0x80 0x8A 0xD1, .st64 0x01 0x8A 0x02, .sst 0x01 0x8B 0x02 3,
      .nst 0x01 0x8B 0x02 0x001].map fun i => row i (storeGoes i) (indexed 0x18000 0)) ++
    [row (.st64 0x01 0x8A 0x02) (fun s e => storeGoes (.st64 0x01 0x8A 0x02) s e &&
       (waveActor (past (.st64 0x01 0x8A 0x02) s e) e.w).held) (indexed 0x18000 0) (unchecked .original),
     row (.sst 0x80 0x8B 0xD1 0) (storeGoes (.sst 0x80 0x8B 0xD1 0)) (indexed 0 0xFFFF)]) :=
  allMet_of (by decide +kernel)
/-- PairsCompressAndExpand. -/
theorem witness_pairs : allMet
    [row (.ldl 0x7E 0x8A 0x02) (fun s e => free s e .ls { loadOp e .generic 0x7E 0x8A 0x02 16 false with kind := .loadPair } &&
       checksPass s (.ldl 0x7E 0x8A 0x02) e .generic 16 false (laneAccesses e 0x7E 0x8A 0x02 16 (fun _ => 0) fun _ => 0))
       (indexed 0x18000 0),
     row (.stl 0x06 0x8A 0x02) (fun s e => free s e .ls { storeOp e .generic 0x06 0x8A 0x02 16 with kind := .storePair } &&
       let ls := laneAccesses e 0x06 0x8A 0x02 16 (e.x 0x06) (e.w.vreg 7)
       checksPass s (.stl 0x06 0x8A 0x02) e .generic 16 true ls && roomFor s (.stl 0x06 0x8A 0x02) e .generic ls)
       (indexed 0x18000 0),
     row (.cstr 0x01 0x8A 0xC1) (fun s e => decide ((e.u 0x8A).toNat % 8 = 0) &&
       let ls := slotAccesses e 0x8A 0xC1 (e.x 0x01)
       let op := { plainOp .compressStore with lanes := ls }
       let r := past (.cstr 0x01 0x8A 0xC1) s e
       free s e .ls op && (firstFailure (laneChecks r e.w .generic 8 true) ls).isNone && decide (ls.length = 2) &&
         match performPieces r e.w (waveActor r e.w) op 40 ls [] with
         | (.ok _ _ _ _, _) => true
         | _ => false) (fun w => predOn 1 [3, 31] (regs 0x18000 0 w)),
     row (.xld 0x01 0x8A 0xC1) (fun s e => decide ((e.u 0x8A).toNat % 8 = 0) &&
       let ls := slotAccesses e 0x8A 0xC1 fun _ => 0
       free s e .ls { plainOp .expandLoad with lanes := ls } && checksPass s (.xld 0x01 0x8A 0xC1) e .generic 8 false ls &&
         decide (ls.length = 32)) (fun w => predOn 1 (List.range 32) (regs 0x18000 0 w))] :=
  allMet_of (by decide +kernel)
/-- The first check some lanes fail. -/
def failsCheck (i : Instr) (c : Cause) (s : State) (e : Env) : Bool :=
  let r := past i s e
  match loadForm e.et i, storeForm i with
  | some (form, d, a, b, width, signed), _ => free s e .ls (loadOp e form d a b width signed) &&
    (firstFailure (laneChecks r e.w form width false) (laneAccesses e d a b width (fun _ => 0) (fun _ => 0))).any fun x => x.1 == c
  | none, some (form, d, a, b, width) => free s e .ls (storeOp e form d a b width) &&
    (firstFailure (laneChecks r e.w form width true) (laneAccesses e d a b width (e.x d) (fun _ => 0))).any fun x => x.1 == c
  | _, _ => false
/-- AccessChecksTrap: each check, of a load or of a store, with the first address that fails it. -/
theorem witness_accessChecks : allMet
    [row (.ld64 0x01 0x8A 0x02) (failsCheck (.ld64 0x01 0x8A 0x02) .illegalAddress) (indexed (2 ^ 52) 0),
     row (.st32 0x01 0x8A 0x02) (failsCheck (.st32 0x01 0x8A 0x02) .misaligned) (indexed 0x18001 0),
     row (.sld 0x80 0x8B 0xD1 0) (failsCheck (.sld 0x80 0x8B 0xD1 0) .scratchRange) (indexed 0 0x10000),
     row (.st8 0x80 0x8A 0xD1) (failsCheck (.st8 0x80 0x8A 0xD1) .weightWrite) (indexed (0xFE * 2 ^ 56) 0),
     row (.st8 0x80 0x8A 0xD1) (failsCheck (.st8 0x80 0x8A 0xD1) .sealedStore) (indexed 0x180FF 0)
       fun s => { s with seals := [(1, 0x18000, 0x100)] },
     row (.ld8 0x80 0x8A 0xD1) (failsCheck (.ld8 0x80 0x8A 0xD1) .pinLost)
       fun w => { indexed 0x18000 0 w with brokenPins := [(0x180, 0)] }] :=
  allMet_of (by decide +kernel)

def tileRegs (base pitch : Nat) (w : Wave) : Wave := (w.setS 10 (w64 base)).setS 12 (w64 pitch)
def regionRegs (base len : Nat) (w : Wave) : Wave := (w.setS 10 (w64 base)).setS 13 (w64 len)
/-- A region operation on a base and a length, and what R229 says of it: whether it lies too high, is misaligned, or is of a
length out of range. -/
def regionCase (i : Instr) (g base len : Nat) (wide odd range : Bool) : Case :=
  row i (fun s e => e.w.tx.isEmpty && !fenced e.w .ls &&
    let x := (e.u 0x8A).toNat
    let n := (e.u 0x8D).toNat
    decide (2 ^ 52 ≤ x) == wide && decide (x % g ≠ 0 ∨ n % g ≠ 0) == odd && decide (n = 0 ∨ 2 ^ 40 < n ∨ 2 ^ 52 < x + n) == range &&
      !logMeets (past i s e) e.w x n)
    (regionRegs base len)
def regionCases (i : Instr) (g : Nat) : List Case :=
  [regionCase i g (2 ^ 52) g true false true, regionCase i g (0x18000 + g / 2) g false true false,
   regionCase i g 0x18000 0 false false true, regionCase i g 0x18000 (2 ^ 40 + g) false false true,
   regionCase i g (2 ^ 52 - g) (2 * g) false false true, regionCase i g (2 ^ 52 - g) g false false false,
   regionCase i g 0x18000 g false false false]
/-- TilesAndRegionOperations: both tile shapes, and each region operation at the limits of R229. -/
theorem witness_tiles : allMet
    [row (.tld 0x10 0x8A 0x8C 0x10) (fun s e =>
       let r := past (.tld 0x10 0x8A 0x8C 0x10) s e
       (tileCheck r e.w (e.u 0x8A) (e.u 0x8C).toNat 256 false).isNone && e.w.tx.isEmpty && !fenced e.w .ls && e.w.log.isEmpty &&
         okIn (tileRead r e.w (waveActor r e.w) (e.u 0x8A) (e.u 0x8C).toNat 256)) (tileRegs (0xFC * 2 ^ 56) 256),
     row (.tst 0x70 0x8A 0x8C 0x07) (fun s e =>
       let r := past (.tst 0x70 0x8A 0x8C 0x07) s e
       (tileCheck r e.w (e.u 0x8A) (e.u 0x8C).toNat 64 true).isNone && e.w.tx.isEmpty && !fenced e.w .ls && e.w.log.isEmpty &&
         okIn (tileWrite r e.w (waveActor r e.w) (e.u 0x8A) (e.u 0x8C).toNat 64 (List.replicate 4096 0))) (tileRegs 0x1F000 64)] :=
  allMet_of (by decide +kernel)
theorem witness_regions : allMet (
    ([.sealRegion 0x8A 0x8D, .unsealRegion 0x8A 0x8D, .pin 0x8A 0x8D, .unpin 0x8A 0x8D].flatMap fun i => regionCases i 256) ++
    ([.cinv 0x8A 0x8D, .cwb 0x8A 0x8D].flatMap fun i => regionCases i 64) ++
    [row (.pin 0x8A 0x8D) (fun s e =>
       let r := past (.pin 0x8A 0x8D) s e
       let x := (e.u 0x8A).toNat
       let n := (e.u 0x8D).toNat
       let A := { waveActor r e.w with l1 := false }
       let q := xlateParts r A .read [(x / 65536 * 65536, 0)]
       okIn q && decide (n ≤ 65536) && (linesOf x n).all fun l =>
         !pinnedAgainst q.2 A.agent { space := .global A.asid, addr := 256 * l } && (classStep q.2 A (256 * l)).isSome)
       (regionRegs 0x1F800 0x800)] ++
    [true, false].map (fun held => row (.sealRegion 0x8A 0x8D) (fun s e =>
       let r := past (.sealRegion 0x8A 0x8D) s e
       (waveActor r e.w).held == held && !sealWaits r e.w (e.u 0x8A).toNat (e.u 0x8D).toNat) (regionRegs 0x18000 0x100)
       (if held then unchecked .original else id)) ++
    [row (.pref 0x8A 0x02)]) :=
  allMet_of (by decide +kernel)
/-- AcquireReleaseAndFences. -/
theorem witness_fences : allMet
    [row (.ldacq 0x01 0x8A 0x02 7) (fun s e =>
       free s e .ls { loadOp e .generic 0x01 0x8A 0x02 8 false with kind := .loadAcquire, scope := 7 } &&
       checksPass s (.ldacq 0x01 0x8A 0x02 7) e .generic 8 false (laneAccesses e 0x01 0x8A 0x02 8 (fun _ => 0) fun _ => 0))
       (indexed 0x18000 0),
     row (.strel 0x01 0x8A 0x02 5) (fun s e => e.w.section?.isNone &&
       (laneAccesses e 0x01 0x8A 0x02 8 (e.x 0x01) fun _ => 0).all (fun l =>
         !releaseWaits (past (.strel 0x01 0x8A 0x02 5) s e) e.w l.addr) &&
       free s e .ls { storeOp e .generic 0x01 0x8A 0x02 8 with kind := .storeRelease, scope := 5 } &&
       let ls := laneAccesses e 0x01 0x8A 0x02 8 (e.x 0x01) fun _ => 0
       checksPass s (.strel 0x01 0x8A 0x02 5) e .generic 8 true ls && roomFor s (.strel 0x01 0x8A 0x02 5) e .generic ls)
       (indexed 0x18000 0),
     row (.fence 0x07) fun s e => (unflaggedCell e.w).isNone && !cellComing (past (.fence 0x07) s e) e.w,
     row (.xfence 0x07 0x3F) fun s e => (unflaggedCell e.w).isNone && !cellComing (past (.xfence 0x07 0x3F) s e) e.w,
     row (.xfence 0x00 0x20) fun s e => (unflaggedCell e.w).isNone && !cellComing (past (.xfence 0x00 0x20) s e) e.w, row (.xfence 0x07 0x00) fun _ e => (unflaggedCell e.w).isNone] :=
  allMet_of (by decide +kernel)

/-! ## Witnesses: atomics and transactions -/

def guardShut : Wave → Wave := fun w => { w with mode := BitVec.ofNat 24 0x002200 }
def atomicGoes (i : Instr) (none_ : Bool) (s : State) (e : Env) : Bool :=
  match requestOf e i with
  | some op =>
    let r := past i s e
    free s e .at op && e.w.elisions.isEmpty && op.lanes.isEmpty == none_ && (op.kind != .lres || !elides r e.w) &&
      (firstFailure (laneChecks r e.w .generic (atomicAlign op) true) op.lanes).isNone &&
      (match xlateLanes r e.w (committedActor r e.w) .generic .write op.lanes with
       | (.ok ts, r1) => (atomicLate r1 e.w op).isNone && logRoom r1 e.w (ts.filter fun x => x.2.1.isGlobal).length
       | _ => false)
  | none => false
/-- AtomicsIssue: each instruction over its lanes; the scalar and the no-return forms; the exact cell; and no lane at all. -/
theorem witness_atomics : allMet (
    ([.aadd 0x01 0x8A 0x03 0x17, .amin 0x01 0x8A 0x03 0, .amax 0xD0 0x8A 0x03 0, .aand 0x80 0x8A 0x8B 0x10, .aor 0xD0 0x8A 0x8B 0,
      .axor 0x01 0x8A 0x03 0, .aswp 0x01 0x8A 0x03 7, .acas 0x01 0x8A 0x03 4, .afadd 0x01 0x8A 0x03 0x10, .axadd 0x01 0x8A 0x03 5,
      .lres 0x81 0x8A 5, .scond 0x01 0x8A 0x03 7, .lres 0x01 0x8A 0x103].map fun i => row i (atomicGoes i false) (regs 0x18000 1)) ++
    ([.aadd 0x01 0x8A 0x03 0, .scond 0x01 0x8A 0x03 7].map fun i => row i (atomicGoes i true) fun w => guardShut (regs 0x18000 1 w))) :=
  allMet_of (by decide +kernel)

/-- What AtomicOperations says of a home: the widths of 4 and 8 bytes, signed and not; a guard granule met, and not. -/
theorem witness_atHome :
    let s := inMem 0x18000 (leBytes 8 (2 ^ 64 - 1)) (bench .yield)
    let A := plainActor (.core 0) 1
    let t : Target := .global 0x18000
    let old := fun n => leNat (readTarget s A 0x18000 n t)
    guardHit s 8 t = none ∧ old 8 = 2 ^ 64 - 1 ∧ old 4 = 2 ^ 32 - 1 ∧ toSigned 64 (old 8) = -1 ∧ toSigned 32 1 = 1 ∧
    guardHit (modCore (fun c => { c with guards := [0] }) s) 8 (.scratch 0 0 0) = some (0, 0) ∧
    guardHit (modCore (fun c => { c with guards := [1] }) s) 8 (.scratch 0 56 56) = none := by decide +kernel
/-- A reservation that is valid on the line, and one that is on another. -/
theorem witness_reservation :
    let l := lineOf 1 (.global 0x180FF)
    lineOf 1 (.global 0x18000) = l ∧ lineOf 1 (.global 0x18100) ≠ l ∧
    (∃ v : Reservation, v.valid = true ∧ v.line = lineOf 1 (.global 0x18000)) :=
  ⟨by decide +kernel, by decide +kernel, ⟨{ line := lineOf 1 (.global 0x18000), addr := 0x18000, valid := true }, rfl, rfl⟩⟩
/-- A request in flight after an AADD, which is performed at its home. -/
def requestPerforms (i : Instr) : Bool :=
  match exec i (mapped (bench i (regs 0x18000 1))) with
  | .next t => match t.atomics with
    | [r] => match t.anyWave? r.uid with
      | some w => decide (t.atomics.find? (fun x => x.id == r.id) = some r) &&
        (match performAtomic { t with atomics := t.atomics.filter fun x => x.id != r.id } w r.setf r.entry.op false with
         | .ok _ _ _ _ => true
         | _ => false)
      | none => false
    | _ => false
  | _ => false
theorem witness_performAtHome : requestPerforms (.aadd 0x01 0x8A 0x03 0) = true ∧ requestPerforms (.scond 0x01 0x8A 0x03 7) = true := by
  decide +kernel

def inTxLanes (ls : List Nat) (w : Wave) : Wave :=
  { w with tx := ls.map fun l => { lane := l, sectors := [], status := 0, code := 0, ss := 0 } }
def nestedLanes (e : Env) : List Nat := e.lanes.filter e.w.inTx
/-- TransactionsComplete: no lane nested and some; a commit of open lanes and of none. -/
theorem witness_transactions : allMet (
    [row (.tbegin 0x01) fun _ e => e.w.section?.isNone && nestedLanes e == [],
     row (.tbegin 0xD0) (fun _ e => e.w.section?.isNone && nestedLanes e == [31]) (inTxLanes [31]),
     row (.tabort 0x1234) (fun _ e => e.w.section?.isNone) (inTxLanes [0]), row (.tstat 0x01) (fun _ e => e.w.section?.isNone)] ++
    [inTxLanes [], inTxLanes [0, 31]].map fun f => row (.tcommit 0x01) (fun s e => e.w.section?.isNone && !fenced e.w .at &&
      let r := past (.tcommit 0x01) s e
      let ts := e.lanes.filterMap e.w.txLane
      !replays r e.w && (txCommitStop r e.w ts).isNone && logRoom r e.w ts.length) f) :=
  allMet_of (by decide +kernel)

def pairGoes (s : State) (e : Env) : Bool :=
  let i : Instr := .stl 0x06 0x8A 0x02
  let ls := laneAccesses e 0x06 0x8A 0x02 16 (e.x 0x06) (e.w.vreg 7)
  free s e .ls { storeOp e .generic 0x06 0x8A 0x02 16 with kind := .storePair } &&
    checksPass s i e .generic 16 true ls && roomFor s i e .generic ls
def onePage (s : State) (e : Env) : Bool :=
  let i : Instr := .cstr 0x01 0x8A 0xC1
  let ls := slotAccesses e 0x8A 0xC1 (e.x 0x01)
  decide ((e.u 0x8A).toNat % 8 = 0) && free s e .ls { plainOp .compressStore with lanes := ls } &&
    (ls.all fun l => l.addr.toNat / 65536 == (e.u 0x8A).toNat / 65536) && checksPass s i e .generic 8 true ls &&
    roomFor s i e .generic ls
/-- PairsCompressAndExpand, its bytes: an STL to memory, of a held run and to a share; a CSTR of one page, up to the page's end, and
a held one. -/
theorem witness_pairBytes : allMet (
    let held := fun (i : Instr) (s : State) (e : Env) => (waveActor (past i s e) e.w).held
    [row (.stl 0x06 0x8A 0x02) (fun s e => pairGoes s e && !held (.stl 0x06 0x8A 0x02) s e) (indexed 0x18000 0),
     row (.stl 0x06 0x8A 0x02) (fun s e => pairGoes s e && held (.stl 0x06 0x8A 0x02) s e) (indexed 0x18000 0) (unchecked .original),
     row (.stl 0x06 0x8A 0x02) pairGoes (indexed (0xFC * 2 ^ 56 + 0xFE00) 0),
     row (.cstr 0x01 0x8A 0xC1) (fun s e => onePage s e && !held (.cstr 0x01 0x8A 0xC1) s e)
       (fun w => predOn 1 (List.range 32) (regs 0x1FF00 0 w)),
     row (.cstr 0x01 0x8A 0xC1) (fun s e => onePage s e && held (.cstr 0x01 0x8A 0xC1) s e) (fun w => predOn 1 [3, 31] (regs 0x18000 0 w))
       (unchecked .original)]) :=
  allMet_of (by decide +kernel)
/-- AcquireReleaseAndFences: an STREL while another path is in an elided section. AtomicsIssue: an LRES at which a section has
aborted, which is performed plainly; and an atomic of a trap handler. -/
theorem witness_sectionsElsewhere : allMet
    [row (.strel 0x01 0x8A 0x02 5) (fun s e => e.w.section?.isSome && (e.w.sectionOf e.p).isNone &&
       free s e .ls { storeOp e .generic 0x01 0x8A 0x02 8 with kind := .storeRelease, scope := 5 } &&
       let ls := laneAccesses e 0x01 0x8A 0x02 8 (e.x 0x01) fun _ => 0
       checksPass s (.strel 0x01 0x8A 0x02 5) e .generic 8 true ls && roomFor s (.strel 0x01 0x8A 0x02 5) e .generic ls)
       (fun w => { indexed 0x18000 0 w with elisions := (inSection w).elisions.map fun x => { x with path := 5, lanes := [] } }),
     row (.lres 0x81 0x8A 0x105) (fun s e => (e.w.sectionOf e.p).isNone && elides (past (.lres 0x81 0x8A 0x105) s e) e.w &&
       e.w.elisions.any fun x => x.plain && x.bundle == e.iss.bundle && x.slot == e.iss.slot && x.path == e.p.born)
       (fun w => { regs 0x18000 0 w with elisions := (inSection w).elisions.map fun x => { x with plain := true } })
       (modCtx fun c => { c with elide := true }),
     row (.aadd 0x01 0x8A 0x03 0) (fun s e => e.w.held.isSome && e.w.elisions.isEmpty &&
       (requestOf e (.aadd 0x01 0x8A 0x03 0)).any fun op => free s e .at op) fun w => inHandler (regs 0x18000 0 w)] :=
  allMet_of (by decide +kernel)

/-- AtomicOperations, the floating and the exact sums: a cell of base -1150 and of base 1000, malformed ones, and operands that are a
NaN, an infinity, zeros and numbers above and below the cell's base; a quotient within 72 bits and one beyond. -/
theorem witness_exactSums :
    let cell := fun (base status : Nat) => parseCell (leBytes 12 5 ++ leBytes 2 base ++ [BitVec.ofNat 8 status, 0])
    let d := fun x => fdec fmtF64 x
    (cell (65536 - 1150) 15).malformed = false ∧ (cell 1000 0).malformed = false ∧ (cell 1001 0).malformed = true ∧
    (cell (65536 - 1151) 0).malformed = true ∧ (cell 0 16).malformed = true ∧
    d 0x7FF8000000000000 = .nan false ∧ d 0xFFF0000000000000 = .inf true ∧ d 0x8000000000000000 = .zero true ∧
    d 0x4000000000000000 = .fin false (2 ^ 52) (-51) ∧ (cell (65536 - 51) 0).base ≤ -51 ∧ -51 < (cell (65536 - 50) 0).base ∧
    (2 ^ 72 ≤ ((2 ^ 52 : Int) * 2 ^ 20).natAbs) ∧ (((2 ^ 52 : Int) * 2 ^ 19).natAbs < 2 ^ 72) := by decide +kernel
/-- A request of the placed wave. -/
def requestOn (id addr : Nat) (handler : Bool) : AtomicReq :=
  { id := id, uid := 1, setf := 0, due := 9, handler := handler, classGen := [], mapGen := 0
    entry := { word := 0, bundle := 0, slot := 0, place := 0, seqNo := id, path := .at, rep := false
               op := { plainOp (.atomic .add) with lanes := [{ lane := 0, addr := w64 addr, width := 8, data := 1, data2 := 0 }] } } }
/-- What comes of the last of some requests: it is performed, waits behind an earlier one, or stops on a fault. -/
def homeEnd (xs : List AtomicReq) (r : AtomicReq) : Nat :=
  let s := { mapped (bench .yield) with atomics := xs ++ [r] }
  match s.anyWave? r.uid with
  | some w =>
    let s0 := { s with atomics := s.atomics.filter fun x => x.id != r.id }
    if s.atomics.find? (fun x => x.id == r.id) ≠ some r ∨ bounced s w r = true then 9
    else if behindEarlier s0 w r then 1
    else match performAtomic s0 w r.setf r.entry.op (decide (r.mapGen < mget 0 s.mapGens (s.waveAsid w))) with
      | .ok _ _ _ _ => 0
      | .stop _ (.fault _) _ => 2
      | _ => 3
  | none => 9
/-- Its event: a request behind one to another location, behind an earlier one to its own, and one of a handler whose page is
gone. -/
theorem witness_homeEvents :
    homeEnd [requestOn 2 0x18008 false] (requestOn 3 0x18000 false) = 0 ∧
    homeEnd [requestOn 2 0x18004 false] (requestOn 3 0x18000 false) = 1 ∧ homeEnd [] (requestOn 3 0x20000 true) = 2 := by
  decide +kernel

/-- The sectors of a transactional lane, none of them written. -/
def txSectors (n : Nat) : List TxSector := (List.range n).map fun k => { sector := 0x4000 + k, readVal := none, writes := [], locks := [] }
def txWith (status n : Nat) (w : Wave) : Wave :=
  { w with tx := [{ lane := 0, sectors := if status = 0 then txSectors n else [], status := status, code := 0, ss := 0 }] }
def txGoes (i : Instr) (n : Nat) (s : State) (e : Env) : Bool :=
  match txForm e i with
  | some op =>
    let r := past i s e
    let tx := txPart r e.w op
    decide (tx.length = n) && (e.w.elisions.all fun x => x.plain) && !fenced e.w .ls && !overlapsLog r e.w op &&
      (firstFailure (laneChecks r e.w .generic ((op.lanes.head?.map LaneAcc.width).getD 1) op.kind.writes) op.lanes).isNone &&
      (txBlocked r e.w op.kind.writes tx).isNone && logRoom r e.w tx.length &&
      (match performLanes r e.w { op with lanes := op.lanes.filter fun l => !tx.any fun x => x.1.lane == l.lane } with
       | .ok _ _ _ _ => true
       | _ => false)
  | none => false
/-- TransactionsComplete, accesses: each load and store with one lane of 32 in a transaction and with two. -/
theorem witness_txForms : allMet (
    ([.ld8 0x01 0x8A 0x02, .ld16 0x01 0x8A 0x02, .ld32 0x01 0x8A 0x02, .ld64 0x01 0x8A 0x02, .ldl 0x7E 0x8A 0x02, .stl 0x06 0x8A 0x02,
      .st8 0x01 0x8A 0x02, .st16 0x01 0x8A 0x02, .st32 0x01 0x8A 0x02, .st64 0x01 0x8A 0x02].map fun i =>
        row i (txGoes i 1) fun w => txWith 0 0 (indexed 0x18000 0 w)) ++
    [row (.st64 0x01 0x8A 0x02) (txGoes (.st64 0x01 0x8A 0x02) 2) fun w => inTxLanes [0, 31] (indexed 0x18000 0 w)]) :=
  allMet_of (by decide +kernel)
/-- A lane's access: of a lane aborted before, to a page that is not mapped, a sector past 64, the 64th, and the last of a sector's
bytes. -/
theorem witness_txAccess :
    let s := fun status n => mapped (bench .yield (txWith status n))
    let op := { plainOp .store with lanes := [{ lane := 0, addr := 0x18038, width := 8, data := 7, data2 := 0 }] }
    let at_ := fun va => match (xlateParts (s 0 0) (plainActor (.core 0) 1) .write [(va, 8)]).1 with
      | .ok ps => ps == [(va, va, 8)]
      | .error (.fault _) => false
      | .error _ => true
    (∀ x ∈ [(3, 0), (0, 0), (0, 63), (0, 64)], ((s x.1 x.2).wave? 1).any (fun w => (w.txLane 0).isSome && !replays (s x.1 x.2) w &&
      w.txEntries == x.2) = true) ∧ at_ 0x18038 = true ∧ at_ 0x20000 = false ∧ 0x18038 % 64 + 8 = 64 ∧
      op.lanes.all (fun l => l.width == (storeBytes op.kind l).length) = true := by decide +kernel

/-! ## Witnesses: matrix engine -/

/-- A format block: BF16 operands, BF16 drain, pitches 64 and 512. -/
def block16 : List Byte :=
  leBytes 4 1 ++ [0, 0, 32, 1] ++ leBytes 4 64 ++ [1, 0, 0, 0] ++ leBytes 4 512 ++ List.replicate 44 0
def withFmt (w : Wave) : Wave := { w with fmt := some block16 }
/-- The wave in a quad of its own, its A operand at an offset of its share. -/
def inQuad (off : Nat) (w : Wave) : Wave := joins [(63, 2)] ((withFmt w).setS 11 (w64 (0xFC * 2 ^ 56 + off)))
def mmaReady (i : Instr) (zero : Bool) (acc : Nat) (b : Nat) (joined : Option Nat) (s : State) (e : Env) : Bool :=
  let r := past i s e
  let c := r.core e.w.core
  let mine := c.groups.filter fun g => g.partialOf e.w.lid e.w.bid e.w.run 63
  let open? := mine.find? fun g => !(g.contribs.any fun x => x.uid == e.w.uid)
  match e.w.fmtState with
  | some f => (open?.map fun g => g.contribs.length) == joined && (match open? with
      | none => decide (mine.length < 4)
      | some g => g.zero == zero && g.acc == acc && g.aAddr == e.u 0x8B && some g.fmt == e.w.fmt &&
          (g.contribs.length != 3 || decide ((c.groups.filter Group.live).length < 8))) && e.w.tx.isEmpty && !fenced e.w .mx && e.w.fmt.isSome && !(f.acc == 1 && acc % 2 == 1) &&
      decide (b + bGroup f.bf ≤ Nat.min e.w.budget 128) && (quadOf r e.w).isSome && (aCheck r e.w (e.u 0x8B) f).isNone &&
      (foreignTile c e.w f.acc acc).isNone && (zero || fmtMatches c f.acc acc) &&
      ((stageAt c e.w.lid e.w.bid e.w.run ((e.u 0x8B).toNat % 2 ^ 20)).all fun g => !g.broken) && !reformatWaits c f.acc acc
  | none => false
/-- A partial group of the wave's quad, with the contributions of other waves of it. -/
def partialGroup (zero : Bool) (acc : Nat) (uids : List Nat) (s : State) : State :=
  modCore (fun c => { c with groups := c.groups ++
    [{ id := 5, zero := zero, acc := acc, aAddr := w64 (0xFC * 2 ^ 56), aOff := 0, fmt := block16, lid := 1, bid := 0, run := .plain
       set := 63, contribs := uids.map (fun u => { id := 40 + u, uid := u, seqNo := 0, pos := u - 1, regs := [] }), formed := false
       started := false, stage := none, readDone := true, aData := [], formedAt := 0 }] }) s
/-- MatrixContributions: MMA and MMAZ, at the last tile, the last registers and the last offset of the share; that begin a group,
beside one that has the wave's contribution; that join one as its second and as its fourth. -/
theorem witness_contributions : allMet
    [row (.mma 0x0F 0x8B 0x7C) (mmaReady (.mma 0x0F 0x8B 0x7C) false 15 0x7C none) (inQuad 0),
     row (.mmaz 0x02 0x8B 0x04) (mmaReady (.mmaz 0x02 0x8B 0x04) true 2 4 none) (inQuad 0xF000),
     row (.mmaz 0x02 0x8B 0x04) (mmaReady (.mmaz 0x02 0x8B 0x04) true 2 4 none) (inQuad 0) (partialGroup true 2 [1]),
     row (.mma 0x0F 0x8B 0x7C) (mmaReady (.mma 0x0F 0x8B 0x7C) false 15 0x7C (some 1)) (inQuad 0) (partialGroup false 15 [2]),
     row (.mmaz 0x02 0x8B 0x04) (mmaReady (.mmaz 0x02 0x8B 0x04) true 2 4 (some 3)) (inQuad 0) (partialGroup true 2 [2, 3, 4])] :=
  allMet_of (by decide +kernel)

/-- A tile of a block of the launch. -/
def tileOf (bid : Nat) : Tile := { owner := (1, bid, .plain), fmt := 0, elems := [], discarded := false, saturated := false }
def tileReady (acc : Nat) (op : FmtBlock → MemOp) (i : Instr) (s : State) (e : Env) : Bool :=
  match e.w.fmtState with
  | some f => e.w.tx.isEmpty && e.w.fmt.isSome && !(f.acc == 1 && acc % 2 == 1) &&
      (foreignTile ((past i s e).core e.w.core) e.w f.acc acc).isNone && free s e .mx (op f) &&
      fmtMatches ((past i s e).core e.w.core) f.acc acc
  | none => false
def drainOp (e : Env) (f : FmtBlock) : MemOp :=
  { plainOp .mdrain with base := e.u 0x8A, arg := e.u 0x8E, code := 2, vals := fmtWords block16
                         lanes := drainLanes f (e.u 0x8A) (e.u 0x8E) false }
def loadTileOp (e : Env) (f : FmtBlock) : MemOp :=
  { plainOp .maccld with base := e.u 0x8A, code := 2, vals := fmtWords block16, lanes := tileChunks (e.u 0x8A) f.dPitch f.rawRow }
def drainFails (s : State) (e : Env) : Option (Option Cause) :=
  e.w.fmtState.map fun f => (drainCheck (past (.mdrain 0x02 0x8A 0x8E) s e) e.w f (e.u 0x8A) (e.u 0x8E) false).map Prod.fst
def mfmtParses (s : State) (e : Env) : Option Bool :=
  (objAt s (.mfmt 0x8A) e (e.u 0x8A) 64 false).map fun x =>
    (parseFmt (readTarget x.2 (waveActor (past (.mfmt 0x8A) s e) e.w) x.1.pa 64 x.1.target)).isSome
def mfmtCase (ok : Bool) (bs : List Byte) : Case :=
  row (.mfmt 0x8A) (fun s e => free s e .mx (fmtOp (e.u 0x8A)) && ((s.core e.w.core).tileOps.all fun t => t.uid != e.w.uid) && reached s (.mfmt 0x8A) e (e.u 0x8A) 64 false &&
    mfmtParses s e == some ok) (regs 0x18000 0) (inMem 0x18000 bs)
def batched (cs live : List Nat) (w : Wave) : Wave := { w with batches := [{ n := 3, contribs := cs }], liveContribs := live }
def stageOf (n base : Nat) : Stage :=
  { lid := 1, bid := 0, run := .plain, n := n, barrier := 0x18000, loc := ⟨.global 1, 0x18000⟩, base := base, gate := true
    fill := 0, broken := false }
/-- MSTAGE of stage 7 with s10 as barrier and s14 as base, bit 0 of which gates. -/
def stageCase (barrier base : Nat) (p : State → Env → Bool) (xs : List Stage) : Case :=
  row (.mstage 0x07 0x8A 0x8E) (fun s e => e.w.tx.isEmpty && p (past (.mstage 0x07 0x8A 0x8E) s e) e)
    (fun w => (regs barrier 0 w).setS 14 (w64 base)) (modCore fun c => { c with stages := xs })
def stageChecks (r : State) (e : Env) : Bool :=
  e.u 0x8E != 0 && (stageBarrierCheck r e.w (e.u 0x8A)).isNone && (stageBaseCheck r e.w (e.u 0x8E)).isNone
def stageClash (r : State) (e : Env) : Bool :=
  (r.core 0).stages.any fun g => g.n != 7 && g.lid == e.w.lid && g.base == (e.u 0x8E).toNat % 2 ^ 20 / 2 * 2
def stageSame (r : State) (e : Env) : Bool :=
  (r.core 0).stages.any fun g => g == { stageOf 7 ((e.u 0x8E).toNat % 2 ^ 20 / 2 * 2) with barrier := e.u 0x8A }
/-- FormatsTilesBatchesAndStages. -/
theorem witness_tilesAndBatches : allMet
    [mfmtCase true block16, mfmtCase false [],
     row (.mdrain 0x02 0x8A 0x8E) (fun s e => tileReady 2 (drainOp e) (.mdrain 0x02 0x8A 0x8E) s e && e.u 0x8E == 0 &&
       drainFails s e == some none) (fun w => withFmt (regs 0x18000 0 w)),
     row (.mdrain 0x02 0x8A 0x8E) (fun s e => tileReady 2 (drainOp e) (.mdrain 0x02 0x8A 0x8E) s e && e.u 0x8E == 0 &&
       drainFails s e == some (some .tileMisaligned)) (fun w => withFmt (regs 0x18080 0 w)),
     row (.maccld 0x02 0x8A) (fun s e => tileReady 2 (loadTileOp e) (.maccld 0x02 0x8A) s e && e.w.fmtState.any fun f =>
       !reformatWaits ((past (.maccld 0x02 0x8A) s e).core e.w.core) f.acc 2 &&
       (tileCheck (past (.maccld 0x02 0x8A) s e) e.w (e.u 0x8A) f.dPitch f.rawRow false).isNone) (fun w => withFmt (regs 0x18000 0 w)),
     row (.mstat 0x01 0x0F) fun s e => (mfind (s.core e.w.core).tiles 15).isNone,
     row (.mstat 0x01 0x0F) (fun s e => (mfind (s.core e.w.core).tiles 15).any fun t => t.fmt != 3 &&
       decide (t.owner ≠ (e.w.lid, e.w.bid, e.w.run))) id (modCore fun c => { c with tiles := [(15, tileOf 1)] }),
     row (.mbatch 0x0F) fun _ e => e.w.tx.isEmpty,
     row (.mwait 0x03) fun _ e => e.w.tx.isEmpty && (e.w.batches.find? fun b => b.n == 3).isNone,
     row (.mwait 0x03) (fun _ e => e.w.tx.isEmpty && (e.w.batches.find? fun b => b.n == 3).any fun b =>
       b.contribs.all fun c => !e.w.liveContribs.contains c) (batched [1, 2] [3]),
     row (.mwait 0x03) (fun _ e => e.w.tx.isEmpty && (e.w.batches.find? fun b => b.n == 3).any fun b =>
       b.contribs.any fun c => e.w.liveContribs.contains c) (batched [1, 2] [2]),
     stageCase 0x18000 0 (fun _ e => e.u 0x8E == 0) [],
     stageCase 0x18008 (0xFC * 2 ^ 56) (fun r e => e.u 0x8E != 0 && (stageBarrierCheck r e.w (e.u 0x8A)) == some .misaligned) [],
     stageCase 0x18000 (0xFC * 2 ^ 56 + 0x1080) (fun r e => e.u 0x8E != 0 && (stageBarrierCheck r e.w (e.u 0x8A)).isNone &&
       stageBaseCheck r e.w (e.u 0x8E) == some .tileMisaligned) [],
     stageCase 0x18000 (0xFC * 2 ^ 56 + 0x101) (fun r e => stageChecks r e && stageClash r e) [stageOf 6 0x100],
     stageCase 0x18000 (0xFC * 2 ^ 56 + 0x101) (fun r e => stageChecks r e && !stageClash r e && stageSame r e) [stageOf 7 0x100],
     stageCase 0x18000 (0xFC * 2 ^ 56 + 0xFF01) (fun r e => stageChecks r e && !stageClash r e && !stageSame r e) [stageOf 7 0x100]] :=
  allMet_of (by decide +kernel)

/-- A group of one contribution: formed, or started. -/
def groupOf (started : Bool) (stage : Option (Nat × Word)) : Group :=
  { id := 5, zero := false, acc := 2, aAddr := 0, aOff := 0x100, fmt := block16, lid := 1, bid := 0, run := .plain, set := 63
    contribs := [{ id := 4, uid := 1, seqNo := 0, pos := 2, regs := [] }], formed := true, started := started, stage := stage
    readDone := stage.isNone, aData := [], formedAt := 3 }
/-- A load of tile 2 issued at a clock. -/
def loadOf (clock : Nat) : TileWait :=
  { order := 0, clock := clock, uid := 1
    entry := { word := 0, bundle := 0, slot := 0, place := 0, seqNo := 0, path := .mx, rep := false
               op := { plainOp .maccld with code := 2, vals := fmtWords block16 } } }
def withGroup (g : Group) (xs : List Stage) (s : State) : State :=
  modCore (fun c => { c with groups := [g], stages := xs
                             tiles := [(2, tileOf 0)] }) s
/-- How an engine's arrival on the barrier at 0x18000 ends: made, not taken, and stopped by a pin. -/
def arrival (s : State) (b : Block) : Nat := match engineArrive s b 0 0x18000 false false with
  | .performed _ => 0
  | .notTaken _ => 1
  | .stopped _ .pinned => 2
  | .stopped _ _ => 3
/-- Its line pinned narrowly by a wave of another core. -/
def pinnedLine (s : State) : State :=
  { s with scopePins := [{ line := ⟨.global 1, 0x18000⟩, uid := 9, lid := 9, scope := 1, core := 5 }] }
/-- MatrixGroups: a group that may start, with no stage and with a gated one that has a fill; one that is complete; and one whose
read is done, its stage's barrier taking the arrival, taking none, and on a line another agent has pinned; and loads at the clock
the group was formed in and after it. -/
theorem witness_groups :
    let start := fun xs => withGroup (groupOf false none) xs (bench .yield)
    let done := fun xs => withGroup (groupOf true none) xs (bench .yield)
    let read := fun bs => inMem 0x18000 bs (mapped (withGroup (groupOf true (some (7, 0x18000))) [stageOf 7 0x100] (bench .yield)))
    let ready := fun (s : State) => (s.core 0).tileOps = [] ∧ (s.core 0).engineBusy ≤ s.clock ∧
      (s.core 0).groups.find? (groupReady (s.core 0)) = some (groupOf false none) ∧ (s.block? 1 0 .plain).isSome = true
    (parseFmt block16).isSome = true ∧ ready (start []) ∧ ready (start [{ stageOf 7 0x100 with fill := 1 }]) ∧
    ((done []).core 0).groups.find? (fun x => x.id == 5 && x.live && x.started) = some (groupOf true none) ∧
    (mfind ((done []).core 0).tiles 2).isSome = true ∧
    ((read []).core 0).groups.find? (fun x => x.id == 5 && x.started) = some (groupOf true (some (7, 0x18000))) ∧
    (∃ b, (read []).block? 1 0 .plain = some b ∧ arrival (read (barrier 1 0 false 0 0 0)) b = 0 ∧ arrival (read []) b = 1 ∧
      arrival (pinnedLine (read [])) b = 2) ∧
    (let c := fun n => { ((done []).core 0) with tileOps := [loadOf n] }
     loadBefore (c 3) (groupOf true none) = true ∧ loadBefore (c 4) (groupOf true none) = false) :=
  ⟨by decide +kernel, ⟨by decide +kernel, by decide +kernel, by decide +kernel, by decide +kernel⟩,
    ⟨by decide +kernel, by decide +kernel, by decide +kernel, by decide +kernel⟩, by decide +kernel, by decide +kernel,
    by decide +kernel, ⟨placedBlock, by decide +kernel, by decide +kernel, by decide +kernel, by decide +kernel⟩, by decide +kernel⟩

/-! ## Witnesses: copy engine -/

/-- A descriptor (R298): its flags, its spans and its row. -/
def desc (norec form cores : Byte) (src dst len rows pitch scale : Nat) : List Byte :=
  leBytes 4 1 ++ [norec, 0, form, cores] ++ leBytes 8 src ++ leBytes 8 dst ++ leBytes 4 len ++ leBytes 4 rows ++
    leBytes 4 pitch ++ leBytes 4 pitch ++ leBytes 8 scale ++ List.replicate 16 0
def own (off : Nat) : Nat := 0xFC * 2 ^ 56 + off
def armOf (st : ArmState) (tag : Nat) : ArmRec :=
  { uid := 1, lid := 1, bid := 0, run := .plain, key := 0x18000, barrier := 0x1A000, loc := ⟨.global 1, 0x1A000⟩, state := st
    source := 0, tag := tag, disarms := [] }
def withArms (xs : List ArmRec) : State → State := modCore fun c => { c with arms := xs }
/-- What a command instruction comes to there. -/
def cmdOut (i : Instr) (code : Nat) (s : State) (e : Env) : CmdOut :=
  if code = 0xC5 then haloTry (past i s e) e.w (e.u 0x8A) (e.u 0x8E) else copyTry (past i s e) e.w code (e.u 0x8A)
def cmdReady (i : Instr) (code : Nat) (s : State) (e : Env) : Bool :=
  e.w.tx.isEmpty && !fenced e.w .ls && !fenced e.w (if code = 0xC5 then .fb else .cp) && match cmdOut i code s e with
  | .ready _ _ _ => true
  | _ => false
def cmdTraps (i : Instr) (code : Nat) (c : Cause) (s : State) (e : Env) : Bool :=
  e.w.tx.isEmpty && !fenced e.w .ls && !fenced e.w (if code = 0xC5 then .fb else .cp) && match cmdOut i code s e with
  | .trap k _ _ => k == c
  | _ => false
def twoShares : State → State := modBlock fun b => { b with shares := [{ core := 0, offset := 0 }, { core := 1, offset := 0 }] }
/-- A halo table of one face, of one row of 64 bytes (R312). -/
def haloTable : List Byte :=
  leBytes 4 1 ++ [1] ++ List.replicate 59 0 ++ leBytes 2 9 ++ [3, 0] ++ leBytes 4 64 ++ leBytes 8 0x19000 ++ leBytes 4 1 ++
    List.replicate 44 0
def cmdCase (i : Instr) (code : Nat) (bs : List Byte) (g : State → State := id) : Case :=
  row i (cmdReady i code) (fun w => (regs 0x18000 0 w).setS 14 1) fun s => g (inMem 0x18000 bs s)
/-- CommandsJoinTheirChannel: each command accepted, at the end of the share, and commands that fail a check. -/
theorem witness_commands : allMet
    [cmdCase (.cpy 0x01 0x8A) 0xC0 (desc 0 0 0 0x19000 (own 0xFF00) 256 1 0 0),
     cmdCase (.cpyd 0x01 0x8A) 0xC1 (desc 1 0 0 0x19000 (own 0) 32 1 64 0x1A000),
     cmdCase (.cpym 0x01 0x8A) 0xC2 (desc 0 0 0 0x19000 (own 0) 1 1 0 0),
     cmdCase (.cpymc 0x01 0x8A) 0xC3 (desc 0 0 1 0x19000 (own 0) 64 1 0 0) (withArms [armOf .armed 0]),
     cmdCase (.cpyn 0x01 0x8A) 0xC4 (desc 0 0 0 (own 0) (0xFD * 2 ^ 56 + 2 ^ 24) 64 1 0 0) twoShares,
     cmdCase (.wsld 0x01 0x8A) 0xC9 (desc 0 0 0 0x19000 (0xFE * 2 ^ 56) 64 1 0 0) (modLaunch fun l => { l with wstage := true }),
     cmdCase (.cpyx 0x01 0x8A) 0xCC (desc 0 0 1 0x19000 (own 0) 64 1 0 0) (withArms [armOf .armed 0]),
     cmdCase (.halo 0x01 0x8A 0x8E) 0xC5 haloTable,
     row (.cpy 0x01 0x8A) (cmdTraps (.cpy 0x01 0x8A) 0xC0 .copyBadDesc) (regs 0x18000 0),
     row (.cpy 0x01 0x8A) (cmdTraps (.cpy 0x01 0x8A) 0xC0 .misaligned) (regs 0x18020 0),
     row (.cpyx 0x01 0x8A) (cmdTraps (.cpyx 0x01 0x8A) 0xCC .multicastUnarmed) (regs 0x18000 0)
       (inMem 0x18000 (desc 0 0 1 0x19000 (own 0) 64 1 0 0)),
     row (.halo 0x01 0x8A 0x8E) (cmdTraps (.halo 0x01 0x8A 0x8E) 0xC5 .haloTable) (regs 0x18000 0)] :=
  allMet_of (by decide +kernel)
def command (op : Nat) (bs : List Byte) (started : Bool) (ts : List Nat) : Command :=
  { newCommand placedWave op 0x18000 with desc := bs, started := started, targets := ts }
def withCommands (xs : List Command) : State → State := modCore fun c => { c with channels := [xs, [], [], []] }
/-- Its queue clause: fifteen commands stand before it. -/
theorem witness_queue :
    let c := (withCommands (List.replicate 15 (command 0xC0 [] false [])) (bench .yield)).core 0
    0 < c.channels.length ∧ (c.chan 0).length < 16 ∧ (∀ y ∈ c.chan 0, y.waitSeq = none) ∧ (command 0xC0 [] false []).targets = [] := by
  decide +kernel

def armCase (key : Nat) (p : State → Env → Bool) (xs : List ArmRec) : Case :=
  row (.arm 0x8A 0x8B) (fun s e => p (past (.arm 0x8A 0x8B) s e) e) (regs 0x1A000 key)
    fun s => withArms xs (inMem 0x1A000 (barrier 1 0 false 0 0 0) s)
def armGoes (r : State) (e : Env) : Bool :=
  (armCheck r e.w (e.u 0x8A) (e.u 0x8B)).isNone && !armWaits r e.w (e.u 0x8B) &&
    !fenced e.w .ls && !overlapsLog r e.w (armOp (e.u 0x8A) (e.u 0x8B)) &&
    okIn (accessObj r { e.w with brokenPins := [] } (waveActor r e.w) (e.u 0x8A) 16 16 false (armOp (e.u 0x8A) (e.u 0x8B)))
def mineCommitted (r : State) (e : Env) : Bool :=
  (r.core 0).arms.any fun x => x.uid == e.w.uid && x.barrier == e.u 0x8A && x.state == .committed
def withQueue (xs : List Word) (s : State) : State := setQueue s 0 1 0 .plain xs
def queueAt (i : Instr) (s : State) (e : Env) : List Word := blockQueue (past i s e) e.w.core e.w.lid e.w.bid e.w.run
/-- ArmDisarmAndEventQueues: ARM of a bad key, of a committed one, of a 33rd, of a new one and of one it has; DISARM with and
without a committed record; a queue with a record and an empty one; a command known by its tag, by its record, and not known. -/
theorem witness_arms : allMet (
    [armCase 0x18020 (fun r e => (armCheck r e.w (e.u 0x8A) (e.u 0x8B)).isSome) [],
     armCase 0x18000 (fun r e => (armCheck r e.w (e.u 0x8A) (e.u 0x8B)).isNone && armWaits r e.w (e.u 0x8B)) [armOf .committed 0],
     armCase 0x18000 (fun r e => (armCheck r e.w (e.u 0x8A) (e.u 0x8B)).isNone && armWaits r e.w (e.u 0x8B))
       (List.replicate 32 { armOf .armed 0 with uid := 2 }),
     armCase 0x18000 armGoes (List.replicate 31 { armOf .armed 0 with uid := 2 }), armCase 0x18000 armGoes [armOf .armed 0],
     row (.disarm 0x8A) (fun s e => !mineCommitted s e) (regs 0x1A000 0) (withArms [armOf .armed 0]),
     row (.disarm 0x8A) mineCommitted (regs 0x1A000 0) (withArms [armOf .armed 0, armOf .committed 5])] ++
    [.evpop 0x01, .evpeek 0x80].flatMap (fun i =>
      [row i (fun s e => queueAt i s e != []) id (withQueue [7, 8]), row i (fun s e => queueAt i s e == [])]) ++
    [row (.haloq 0x01 0x8A) (fun s e => ((blockCommands (past (.haloq 0x01 0x8A) s e) e.w).find? fun c =>
       c.tag == (e.u 0x8A).toNat).isSome) (regs 0x20003 0) (withCommands [{ command 0xC5 [] false [] with tag := 0x20003 }]),
     row (.haloq 0x01 0x8A) (fun s e => (blockCommands (past (.haloq 0x01 0x8A) s e) e.w).isEmpty &&
       ((queueAt (.haloq 0x01 0x8A) s e).find? fun x => bits x.toNat 0 18 == (e.u 0x8A).toNat).isSome) (regs 0x20003 0)
       (withQueue [0x20003]),
     row (.haloq 0x01 0x8A) fun s e => (blockCommands (past (.haloq 0x01 0x8A) s e) e.w).isEmpty &&
       (queueAt (.haloq 0x01 0x8A) s e).isEmpty]) :=
  allMet_of (by decide +kernel)

/-- A state with one command at the head of channel 0. -/
def moving (x : Command) : State := mapped (withCommands [x] (bench .yield))
def stillMap (s : State) : Bool := s.fns.all fun e => e.2.mapStat == 0
/-- The command at the head of channel 0 moves its bytes to a core's share as far as its next boundary without a stop, all of
them or not. -/
def moves (s : State) (target : Nat) (whole : Bool) : Bool :=
  match headCommand s 0 0 with
  | some x =>
    let d := readDesc x.op x.desc
    let total := d.rows * d.dRow
    let stop := min total ((x.progress / 4096 + 1) * 4096)
    !x.waiting && x.op != opHalo && !x.moved && match runPieces 0 target d stop 4096 s { x with started := true } with
    | (.ok, s1, x1) => decide (total ≤ x1.progress) == whole && !x1.moved && match s1.block? x.lid x.bid x.run with
      | some b => let x2 := stopStatus x1 .ok
        let s2 := performEngine s1 x2 3 (writtenLines s1 x2 0 target)
        (match deliverArms x2 target b (committedArms s2 0 target x.tag) s2 with
         | .done _ _ => true
         | _ => false)
      | none => false
    | _ => false
  | none => false
/-- CopyCommandsAndHaloWindows: a copy of two rows, and one of 4,352 bytes; a multicast with no target left, with one and with
two, one of them with a receive barrier, and a fill to raise; the end of a command that has moved its bytes, with a record and
with NOREC. -/
theorem witness_copyEvents :
    moves (moving (command 0xC0 (desc 0 0 0 0x19000 (own 0) 16 2 32 0) false [])) 0 true = true ∧ isMulticast 0xC0 = false ∧
    moves (moving (command 0xC0 (desc 0 0 0 (own 0x4000) (own 0) 4352 1 0 0) false [])) 0 false = true ∧
    moves (inMem 0x1A000 (barrier 1 0 false 0 0 0)
      (withArms [armOf .committed 0] (moving (command 0xC3 (desc 0 0 1 0x19000 (own 0) 16 1 0 0) true [0])))) 0 true = true ∧
    isMulticast 0xCC = true ∧ isMulticast 0xC3 = true ∧
    headCommand (moving (command 0xC3 [] true [])) 0 0 = some (command 0xC3 [] true []) ∧
    moves (moving (command 0xCC (desc 0 0 1 0x19000 (own 0) 16 1 0 0) true [0])) 0 true = true ∧
    moves (moving (command 0xCC (desc 0 0 1 0x19000 (own 0) 16 1 0 0) true [0, 1])) 0 true = true ∧
    (∀ n ∈ [0, 1], ∀ op ∈ [0xC0, 0xC4, 0xCC], let x := command op (desc n 0 0 0x19000 (own 0) 16 1 0 0) true []
      let s := moving x
      headCommand s 0 0 = some x ∧ (readDesc x.op x.desc).barrier = 0 ∧ (readDesc x.op x.desc).norec = (n == 1) ∧
        (s.block? 1 0 .plain).isSome = true) := by decide +kernel
def window (base len : Nat) (enabled : Bool) : HaloWindow :=
  { owner := 0, base := base, len := len, ctx := 0, group := none, enabled := enabled }
def withWindow (h : HaloWindow) : State := { mapped (bench .yield) with haloWindows := [(0, h)] }
/-- A face of two rows at the end of a window; windows not enabled, too short, without its barrier, and of no context; and the
writes that enable one. -/
theorem witness_halo :
    let s := withWindow (window 0x18000 96 true)
    mfind s.haloWindows 1 = none ∧ mfind s.haloWindows 0 = some (window 0x18000 96 true) ∧
    (32 + spanOf 2 48 16 = 96) ∧ (s.ctx? 0 0).map Context.asid = some 1 ∧
    okIn (xlateParts s (plainActor .fabric 1) .write (pageChecks 0x18020 64 ++ [0, 1].flatMap fun r => partsOf (0x18020 + r * 48) 16))
      = true ∧ otherGroup s (window 0x18000 96 true) = false ∧ otherGroup s { window 0x18000 96 true with group := some 5 } = true ∧
    sealedRange s 1 0x18020 16 = false ∧ sealedRange s 1 0x18050 16 = false ∧
    (window 0x18000 95 true).len < 32 + spanOf 2 48 16 ∧ (window 0x18000 96 true).len < 96 + 16 ∧ s.ctx? 1 0 = none ∧
    (selectedWindow s 0).enabled = true ∧ (selectedWindow s 0).owner = 0 ∧ (selectedWindow (s.setFunc 1 { s.func 1 with haloSel := 0 }) 1).owner ≠ 1 ∧
    (selectedWindow (withWindow (window (2 ^ 52 - 64) 64 false)) 0).enabled = false ∧ (2 ^ 52 - 64) + 64 ≤ 2 ^ 52 ∧
    (selectedWindow (withWindow (window (2 ^ 52 - 64) 65 false)) 0).len = 65 := by decide +kernel

/-- MatrixGroups: a group whose A operand may be read, and one whose A operand a wave of another core has pinned. -/
theorem witness_aOperand :
    let s := mapped (withGroup (groupOf false none) [] (bench .yield))
    let pinned := { s with scopePins := [{ line := ⟨.scratch 0, 0x100⟩, uid := 9, lid := 9, scope := 1, core := 5 }] }
    (s.core 0).tileOps = [] ∧ (s.core 0).engineBusy ≤ s.clock ∧
    (s.core 0).groups.find? (fun x => groupReady (s.core 0) x && !aHeld s 0 x) = some (groupOf false none) ∧
    (pinned.core 0).groups.find? (fun x => groupReady (pinned.core 0) x && !aHeld pinned 0 x) = none := by decide +kernel

/-- A multicast command to targets, with the armed records of core 0; a HALO command. -/
def multicast (ts : List Nat) : Command := { command 0xC3 (desc 0 0 1 0x19000 (own 0) 64 1 0 0) false ts with descAddr := 0x18000 }
/-- CommandsJoinTheirChannel, acceptance: fifteen commands before it; a target with an armed, a committed and a cancelled record; one
with none; and a HALO of a run that is held. -/
theorem witness_acceptance :
    let key := fun (st : ArmState) => [{ armOf st 0 with key := 0x18000 }]
    let s := fun (xs : List ArmRec) => withArms xs (withCommands (List.replicate 15 (command 0xC0 [] false [])) (bench .yield))
    let mine := fun (a : ArmRec) => a.lid == 1 && a.bid == 0 && a.run == .plain && a.key == 0x18000
    (0 < ((s []).core 0).channels.length ∧ (((s []).core 0).chan 0).length < 16 ∧ ∀ y ∈ ((s []).core 0).chan 0, y.waitSeq = none) ∧
    (∀ st ∈ [ArmState.armed, .committed, .cancelled], ∃ a ∈ ((s (key st)).core 0).arms, mine a = true) ∧
    ((multicast [0]).targets.filter fun k => ((s []).core k).arms.all fun a => !mine a) = [0] ∧
    ((s []).anyWave? (multicast [0]).uid).isSome = true ∧ (multicast [0]).issuedAt.logged = true ∧ (multicast [0]).targets.Nodup ∧
    (let q := unchecked .original (bench .yield)
     runHeld q 1 0 .original = true ∧ (q.block? 1 0 .original).isSome = true) := by
  refine ⟨by decide +kernel, fun st h => ?_, by decide +kernel, by decide +kernel, by decide +kernel, by decide +kernel, by decide +kernel⟩
  refine ⟨{ armOf st 0 with key := 0x18000 }, ?_, ?_⟩
  · simp only [List.mem_cons, List.not_mem_nil, or_false] at h
    rcases h with rfl | rfl | rfl <;> decide +kernel
  · rfl

/-- A descriptor with a completion barrier. -/
def withBarrier (addr : Nat) (bs : List Byte) : List Byte := bs.take 56 ++ leBytes 8 addr
/-- How far the command at the head of channel 0 comes: to its next boundary, or to what stops it. -/
def pieceEnd (s : State) : Nat :=
  match headCommand s 0 0 with
  | some x =>
    let d := readDesc x.op x.desc
    match runPieces 0 0 d (min (d.rows * d.dRow) ((x.progress / 4096 + 1) * 4096)) 4096 s { x with started := true } with
    | (.ok, _, _) => 0
    | (.cause _, _, _) => 1
    | (.fault _, _, _) => 2
    | (.again, _, _) => 3
    | _ => 4
  | none => 9
/-- CopyCommandsAndHaloWindows, pieces that stop: on an address of no space, on a page that is not mapped, and on a line pinned by
another core's wave. -/
theorem witness_stoppedPieces :
    ([desc 0 0 0 (0x55 * 2 ^ 56) (own 0) 16 1 0 0, desc 0 0 0 0x20000 (own 0) 16 1 0 0].map fun d =>
      pieceEnd (moving (command 0xC0 d false []))) = [1, 2] ∧
    pieceEnd (pinnedLine (moving (command 0xC0 (desc 0 0 0 0x18000 (own 0) 16 1 0 0) false []))) = 3 := by decide +kernel

/-- What the arrival on a command's completion barrier comes to. -/
def barrierEnd (s : State) (addr : Nat) : Nat :=
  let x := command 0xC0 (withBarrier addr (desc 0 0 0 0x19000 (own 0) 16 1 0 0)) true []
  let q := fillOnce s 0 0 x
  match s.block? 1 0 .plain with
  | some b =>
    if (readDesc x.op x.desc).barrier = 0 then 9
    else match engineArrive q.1 b 0 (readDesc x.op x.desc).barrier false (x.older q.1 (q.1.waveAsid (commandWave x 0))) with
      | .performed _ => 0
      | .notTaken _ => 1
      | .stopped _ y => match pieceStop (.inl y) with
        | .fault _ => 3
        | .again => 4
        | _ => 5
  | none => 9
/-- A completion barrier that takes the arrival, one that does not, one whose page is not mapped, one pinned by another core's
wave. -/
theorem witness_completionBarriers :
    let s := fun bs => inMem 0x18000 bs (mapped (bench .yield))
    barrierEnd (s (barrier 1 0 false 0 0 0)) 0x18000 = 0 ∧ barrierEnd (s []) 0x18000 = 1 ∧ barrierEnd (s []) 0x20000 = 3 ∧
    barrierEnd (pinnedLine (s (barrier 1 0 false 0 0 0))) 0x18000 = 4 := by decide +kernel

/-- This chip, number 0, in a group with chip 9. -/
def grouped (s : State) : State := { s with canopy := { s.canopy with state := 2, members := [{ chip := 9, proposal := 2400, lastHeard := 4, silent := false, heardRun := 0 }] } }
def haloOf (held : Bool) : Command :=
  { command 0xC5 [] false [] with table := haloTable, faceMask := 1, run := if held then .original else .plain }
/-- Its HALO: a face sent to a peer and read whole, in a run that is held and in one that is not; a peer whose link is lost, no peer,
and this chip itself; and a face done already. -/
theorem witness_haloSends :
    let s := fun held => grouped (moving (haloOf held))
    let A := fun held => { commandActor (s held) (haloOf held) 0 with agent := .fabric }
    let f := readFace haloTable 0
    headCommand (s false) 0 0 = some (haloOf false) ∧ (A false).held = false ∧
    (match faceRows (s false) (A false) f f.rows 0 with
     | (.ok data, _) => data.length == 64
     | _ => false) = true ∧
    isMember (s false) 9 = true ∧ f.chip = 9 ∧ isMember (s false) 8 = false ∧ (9 ∈ { s false with linksLost := [9] }.linksLost) ∧
    isMember (s false) 0 = true ∧ (s false).canopy.chip = 0 ∧ 0 < { haloOf false with progress := 1 }.progress ∧
    (s false).block? 1 0 .plain = some placedBlock ∧
    (let q := unchecked .original (s true)
     let B := { commandActor q (haloOf true) 0 with agent := .fabric }
     B.held = true ∧ (match readFaces B haloTable [0] q with
      | (.ok _, _) => true
      | _ => false) = true) := by decide +kernel
/-- A signalling face at the end of a window: its barrier takes the arrival, takes none, and is a set barrier. -/
theorem witness_signallingFace :
    let s := fun bs => inMem 0x18050 bs (withWindow (window 0x18000 96 true))
    let a := plainActor .fabric 1
    let out := fun bs => match objOfLoc (s bs) a { space := .global 1, addr := 0x18050 } with
      | (some o, s3) => if (readBarrier s3 a o).kind = 1 then 2
        else if (arriveAt s3 a none (fabricBlock 0 0) o 1 0 0).isSome then 0 else 1
      | _ => 9
    80 + 16 ≤ (window 0x18000 96 true).len ∧ out (barrier 1 0 false 0 0 0) = 0 ∧ out [] = 1 ∧ out (barrier 0 0 false 1 3 0) = 2 ∧
    sealedRange { s [] with seals := [(1, 0x18000, 0x100)] } 1 0x18050 16 = true := by decide +kernel

/-! ## Witnesses: Cascade -/

/-- A domain of the placed launch. -/
def domainOf (st : DomState) (floor : Nat) (nodes : SMap NodeTasks) : Domain :=
  { id := 7, lid := 1, fn := 0, ctx := 0, groupScope := true, number := 0, delta := 2, spillBase := 0x18000, spillSize := 8192
    state := st, floor := floor, nodes := nodes, chunks := [], open_ := [], inFlight := [], rounds := [], noneQueued := false
    cleanWaves := 0, lowered := false }
def withDomain (d : Domain) (s : State) : State := { modLaunch (fun l => { l with domain := some 7 }) s with domains := [d] }
def tasksOf (bs : List Nat) : List Task := bs.map fun b => { payload := w64 b, bucket := b, order := b }
def nodeOf (bs : List Nat) : NodeTasks := { emptyNode with tasks := tasksOf bs }
def pushTasks (e : Env) (a b : OpCode) : List (Word × Nat) :=
  (if !isVCode a && !isVCode b then [0] else e.taking).map fun l => (e.i a l, (e.i b l).toNat % 65536)
/-- A WPUSH whose need of spill entries meets the node's room or passes it. -/
def pushFits (fits held : Bool) (i : Instr) (a b : OpCode) (s : State) (e : Env) : Bool :=
  match waveDomain (past i s e) e.w with
  | some d =>
    let ts := pushTasks e a b
    let floor := if d.state = .unseeded then ((ts.head?.map Prod.snd).getD 0) else d.floor
    e.w.tx.isEmpty && (d.state == .active || d.state == .unseeded) && !fenced e.w .wl &&
      runHeld (past i s e) e.w.lid e.w.bid e.w.run == held &&
      decide (spillNeed floor (ts.map Prod.snd) ≤ spillRoom d (groveOf e.w.core)) == fits
  | none => false
/-- PushesAndClosing: no domain; one terminated, down, unseeded and active; too little room to spill; a held run; no lane; and
the instructions that close and report. -/
theorem witness_pushes : allMet (
    [row (.wpush 0x08 0x04) fun s e => e.w.tx.isEmpty && (waveDomain (past (.wpush 0x08 0x04) s e) e.w).isNone,
     row (.wpush 0x08 0x04) (fun s e => e.w.tx.isEmpty && (waveDomain (past (.wpush 0x08 0x04) s e) e.w).any fun d =>
       d.state == .terminated) id (withDomain (domainOf .terminated 0 [])),
     row (.wpush 0x08 0x04) (fun s e => e.w.tx.isEmpty && (waveDomain (past (.wpush 0x08 0x04) s e) e.w).any fun d =>
       d.state == .down) id (withDomain (domainOf .down 0 [])),
     row (.wpush 0x08 0x04) (pushFits true false (.wpush 0x08 0x04) 0x08 0x04) id (withDomain (domainOf .unseeded 0 [])),
     row (.wpush 0x08 0x04) (pushFits true false (.wpush 0x08 0x04) 0x08 0x04) guardShut (withDomain (domainOf .active 5 [])),
     row (.wpush 0x8A 0x8B) (pushFits true false (.wpush 0x8A 0x8B) 0x8A 0x8B) (regs 9 1024) (withDomain (domainOf .active 0 [])),
     row (.wpush 0x8A 0x8B) (pushFits false false (.wpush 0x8A 0x8B) 0x8A 0x8B) (regs 9 1024)
       (withDomain { domainOf .active 0 [] with spillSize := 0 }),
     row (.wpush 0x8A 0x8B) (pushFits true true (.wpush 0x8A 0x8B) 0x8A 0x8B) (regs 9 1023)
       fun s => unchecked .original (withDomain { domainOf .active 0 [] with spillSize := 0 } s)] ++
    [.wdone, .wfloor 0x81, .wstat 0x01].map fun i => row i (fun s e => e.w.tx.isEmpty && !fenced e.w .wl &&
      (waveDomain (past i s e) e.w).isSome) id (withDomain (domainOf .active 0 []))) :=
  allMet_of (by decide +kernel)

/-- A pop, and what PopsComplete asks of it: its domain's node, the lanes that ask, and the tasks that are ready. -/
def popCase (i : Instr) (d : Domain) (p : Nat → Nat → Nat → Bool) (f : Wave → Wave := id) : Case :=
  row i (fun s e =>
    let r := past i s e
    let n := d.node (groveOf e.w.core)
    let full := e.taking.filter fun l => decide (15 ≤ mget 0 d.open_ (openKey e.w l))
    let askers := e.taking.filter fun l => !full.contains l
    e.w.tx.isEmpty && !fenced e.w .wl && decide (waveDomain r e.w = some d) && decide (r.domain? d.id = some d) && n.spilled.isEmpty &&
      !n.stalled && p full.length askers.length ((n.tasks.filter fun t => decide (t.bucket ≤ d.floor + d.delta)).take askers.length).length)
    f (withDomain d)
def active (nodes : SMap NodeTasks) : Domain := domainOf .active 0 nodes
/-- PopsComplete: a domain terminated and down; tasks for some lanes, at the edge of the window; none ready; a lane with fifteen
open; no lane asking. -/
theorem witness_pops : allMet (
    [.wpop 0x7E, .wpopw 0x05].flatMap fun i =>
      [popCase i (domainOf .terminated 0 []) fun _ _ _ => true, popCase i (domainOf .down 0 []) fun _ _ _ => true,
       popCase i (active [(0, nodeOf [2, 2, 3])]) fun _ a t => decide (a = 32 ∧ t = 2),
       popCase i (active [(0, nodeOf [3])]) fun _ a t => decide (a = 32 ∧ t = 0),
       popCase i { active [] with open_ := [(31, 15)] } fun f a t => decide (f = 1 ∧ a = 31 ∧ t = 0),
       popCase i (active [(0, nodeOf [0])]) (fun _ a t => decide (a = 0 ∧ t = 0)) guardShut]) :=
  allMet_of (by decide +kernel)

def cascade (d : Domain) : State := withDomain d (mapped (bench .yield))
/-- CascadeEvents, the floor: a round below the floor, one at it, and one with a push before it; a raise discarded, with nothing queued and with a lowest
bucket; a refill with nothing spilled and with an entry that comes back. -/
theorem witness_floor :
    let req := fun (id b : Nat) =>
      ({ id := id, node := 0, uid := 0, seqNo := 0, tasks := [(9, b)], seeds := false, waits := false, issuedAt := none } : PushReq)
    let push := fun (b : Nat) => { domainOf .active 5 [] with rounds := [req 3 b] }
    let behind := { domainOf .active 5 [] with rounds := [req 2 5, req 3 4] }
    let spilled := { domainOf .active 0 [(0, { emptyNode with spilled := [(0x18000, 1023, 0)] })] with chunks := [(0, 0)] }
    (∀ b ∈ [4, 5], (cascade (push b)).domain? 7 = some (push b) ∧
      (push b).rounds.find? (fun x => x.id == 3) = some (req 3 b) ∧ pushBefore (cascade (push b)) (push b) (req 3 b) = false) ∧
    pushBefore (cascade behind) behind (req 3 4) = true ∧ outrankedPush (cascade spilled) spilled 0 = false ∧
    lowestBucket (active []) = none ∧ lowestBucket (active [(0, nodeOf [6, 8])]) = some 6 ∧
    lowestBucket { active [] with inFlight := [(1, tasksOf [2])] } = some 2 ∧ firstSpilled ((active []).node 0) = none ∧
    firstSpilled (spilled.node 0) = some (0x18000, 1023, 0) ∧ (spilled.node 0).stalled = false ∧ 1023 ≤ spilled.floor + 1023 ∧
    nodeEntries (cascade spilled) 0 < 4096 ∧
    (match refillOne (cascade spilled) 7 0 with
     | .taken _ => true
     | _ => false) = true := by decide +kernel
/-- Its steals and its end: a thief whose victim has nothing and one whose victim has tasks; an arrival that is taken whole; a
token wave that is not clean, and the first and the second that are. -/
theorem witness_steals :
    let thief := fun (bs : List Nat) => active [(0, { emptyNode with stealing := true }), (1, nodeOf bs)]
    let coming := { active [(0, { emptyNode with stealing := true })] with inFlight := [(0, tasksOf [1])] }
    let d1 := { coming with inFlight := coming.inFlight.erase (0, tasksOf [1]) }
    (∀ bs ∈ [[], [0, 1, 2, 9]], ((thief bs).node 0).stealing = true ∧ outranked (cascade (thief bs)) (thief bs) 0 = false ∧
      (victims 0)[((thief bs).node 0).nextVictim]? = some 1 ∧ (thief bs).node 1 = nodeOf bs ∧
      (∀ t ∈ ((thief bs).node 0).tasks, (thief bs).floor + (thief bs).delta < t.bucket)) ∧
    coming.inFlight.find? (fun x => x.1 == 0) = some (0, tasksOf [1]) ∧
    (takeStolen 7 0 (tasksOf [1]) ((cascade coming).setDomain
      (d1.setNode 0 { d1.node 0 with served := true }))).2 = [] ∧
    (∀ bs ∈ [[], [0, 1, 2, 9]], ((thief bs).node 1).stalled = false ∧ ∀ x ∈ (thief bs).inFlight, x.1 ≠ 0) ∧
    domainIdle (cascade (active [])) (active []) = true ∧ domainIdle (cascade (active [(0, nodeOf [1])])) (active [(0, nodeOf [1])]) = false ∧
    { active [] with cleanWaves := 1 }.state = .active := by decide +kernel

/-- A section open for lanes of path 0, which are transactional. -/
def elided (ls : List Nat) (w : Wave) : Wave :=
  { inTxLanes ls w with elisions := [{ line := ⟨.global 1, 0⟩, bundle := 0x10000, slot := 1, path := 0, lanes := ls, plain := false }] }
def sectionMeets (e : Env) : Bool :=
  e.w.guardRep.isNone && e.w.section?.any fun x => (e.lanes.filter e.w.inTx).any fun l => x.lanes.contains l
def abortedLanes (i : Instr) (s : State) (e : Env) : State :=
  (e.lanes.filter e.w.inTx).foldl (fun q l => abortLane q e.w.uid l 5 0) (past i s e)
/-- UnsupportedInTransactions: in an elided section, an instruction of each kind; outside one, the three that act for the wave's
other lanes, with transactional lanes at both ends. -/
theorem witness_unsupported : allMet (
    ([.arrive 0x8A 0x8B, .waitb 0x01 0x8A, .sigwait 0x01 0x8A 0x8B, .bind 0x8C 0x8A 0x8B, .tld 0x10 0x8A 0x8C 0x10, .mma 0x0F 0x8B 0x7C,
      .mwait 0x03, .mstat 0x01 0x0F, .cpy 0x01 0x8A, .halo 0x01 0x8A 0x8E].map fun i => row i (fun _ e => sectionMeets e) (elided [31])) ++
    ([.mbatch 0x0F, .mstat 0x01 0x0F].map fun i => row i (fun _ e => e.lanes.filter e.w.inTx == [0, 31] && e.w.section?.isNone)
      (inTxLanes [0, 31])) ++
    [row .wdone (fun s e => e.w.section?.isNone && !fenced e.w .wl && e.taking.filter e.w.inTx == e.lanes.filter e.w.inTx &&
       e.lanes.filter e.w.inTx == [31] && (waveDomain (abortedLanes .wdone s e) e.w).isSome) (inTxLanes [31])
       (withDomain (domainOf .active 0 []))]) :=
  allMet_of (by decide +kernel)
/-- A lane of another path in a transaction leaves the instruction's own lanes plain. -/
theorem witness_plainLanes :
    let s := bench (.wdone) fun w => { inTxLanes [31] w with places := [(0, newPath (w64 placedPc) 0xFF)] }
    (env? s).any (fun e => (0 :: e.lanes).all (fun l => !e.w.inTx l) && e.w.tx != []) = true := by decide +kernel

def pushAt (id b : Nat) (waits : Bool) : PushReq :=
  { id := id, node := 0, uid := 0, seqNo := 0, tasks := [(9, b)], seeds := false, waits := waits, issuedAt := none }
/-- PopsComplete: a node with a push that waits for an entry, which lets the pop go on. CascadeEvents: a lower round at a node that
stalls; a refill beside such a push, beside none; a victim outranked by no push; a GROUP domain and one that is not. -/
theorem witness_pushOrder :
    let d := active [(0, nodeOf [2])]
    let waiting := { d with rounds := [pushAt 3 4 true] }
    let taken := { d with rounds := [pushAt 3 4 false] }
    let stalled := { domainOf .active 5 [(0, { emptyNode with stalled := true })] with rounds := [pushAt 3 4 false] }
    popBehind (cascade d) d 0 = false ∧ popBehind (cascade taken) taken 0 = true ∧
    (stalled.node (pushAt 3 4 false).node).stalled = true ∧ stalled.rounds.find? (fun x => x.id == 3) = some (pushAt 3 4 false) ∧
    (∀ y ∈ (cascade d).domains, ∀ p ∈ y.rounds, p.node ≠ 0) ∧ outrankedPush (cascade waiting) waiting 1 = false ∧
    outranked (cascade d) d 0 = false ∧ d.groupScope = true ∧ { d with groupScope := false }.groupScope = false := by decide +kernel

/-- An instruction of UnsupportedInTransactions outside a section, lanes of which are transactional; what comes first is passed. -/
def unsupportedCase (i : Instr) (f : Wave → Wave) (g : State → State := id) : Case :=
  row i (fun s e =>
    let r := past i s e
    (unsupportedForm e i).any fun x =>
      let tx := x.1.filter e.w.inTx
      tx != [] && (e.w.elisions.all fun y => y.plain || tx.all fun l => !y.lanes.contains l) && e.w.guardRep.isNone &&
        (match i with
         | .sealRegion a b | .unsealRegion a b | .pin a b | .unpin a b =>
           (regionCheck (e.u a) (e.u b) 256).isNone && !regionWaits e r (e.u a).toNat (e.u b).toNat
         | .cinv a b | .cwb a b => (regionCheck (e.u a) (e.u b) 64).isNone && !regionWaits e r (e.u a).toNat (e.u b).toNat
         | .lres _ _ lit => !(bitOf lit.toNat 8) && e.w.elisions.isEmpty
         | .scond .. | .strel .. => (e.w.sectionOf e.p).isNone
         | _ => true) &&
        (match x.2 (tx.foldl (fun q l => abortLane q e.w.uid l 5 0) r) fun l => !tx.contains l with
         | .done _ | .trap _ _ _ _ => true
         | _ => false)) f g
def txRegs (x y : Nat) (w : Wave) : Wave := inTxLanes [0, 31] (indexed x y w)
/-- UnsupportedInTransactions, outside a section: each class of instruction, with transactional lanes at both ends. -/
theorem witness_unsupportedOutside : allMet (
    ([.aadd 0x01 0x8A 0x03 0x17, .acas 0x01 0x8A 0x03 4, .axadd 0x01 0x8A 0x03 5, .lres 0x01 0x8A 0x003, .scond 0x01 0x8A 0x03 7,
      .xld 0x01 0x8A 0xC1, .cstr 0x01 0x8A 0xC1, .ldacq 0x01 0x8A 0x02 7, .strel 0x01 0x8A 0x02 5].map fun i =>
        unsupportedCase i fun w => predOn 1 (List.range 32) (txRegs 0x18000 0 w)) ++
    [unsupportedCase (.tld 0x10 0x8A 0x8C 0x10) (fun w => inTxLanes [0, 31] (tileRegs (own 0) 256 w)),
     unsupportedCase (.tst 0x70 0x8A 0x8C 0x07) (fun w => inTxLanes [0, 31] (tileRegs 0x18000 64 w))] ++
    ([.sealRegion 0x8A 0x8D, .unsealRegion 0x8A 0x8D, .pin 0x8A 0x8D, .unpin 0x8A 0x8D, .cinv 0x8A 0x8D, .cwb 0x8A 0x8D].map fun i =>
      unsupportedCase i fun w => inTxLanes [0, 31] (regionRegs 0x18000 256 w))) :=
  allMet_of (by decide +kernel)
theorem witness_unsupportedOutsideMore : allMet (
    ([.arrive 0x8A 0x8B, .waitb 0x01 0x8A, .arrwait 0x01 0x8A 0x8B, .signal 0x8A 0x8B, .sigwait 0x01 0x8A 0x8B, .unbind 0x8A 0x8B].map
      fun i => unsupportedCase i (txRegs 0x18000 1) (inMem 0x18000 (barrier 2 0 false 0 0 0))) ++
    [unsupportedCase (.bind 0x8C 0x8A 0x8B) (fun w => (txRegs 0x18000 0x19000 w).setS 12 64),
     unsupportedCase (.cpy 0x01 0x8A) (txRegs 0x18000 0) (inMem 0x18000 (desc 0 0 0 0x19000 (own 0) 256 1 0 0)),
     unsupportedCase (.mfmt 0x8A) (txRegs 0x18000 0) (inMem 0x18000 block16), unsupportedCase (.mbatch 0x0F) (txRegs 0 0),
     unsupportedCase (.mmaz 0x02 0x8B 0x04) (fun w => inTxLanes [0, 31] (inQuad 0 w)), unsupportedCase (.mwait 0x03) (txRegs 0 0),
     unsupportedCase (.mstage 0x07 0x8A 0x8E) (txRegs 0x18000 0), unsupportedCase (.mstat 0x01 0x0F) (txRegs 0 0)] ++
    ([.wpush 0x08 0x04, .wpop 0x7E, .wpopw 0x05, .wdone, .wfloor 0x01, .wstat 0x81].map fun i =>
      unsupportedCase i (txRegs 0 0) (withDomain (domainOf .active 0 [])))) :=
  allMet_of (by decide +kernel)

/-- A section of the placed path on the lock line of 0x18000, for lanes that hold what a list gives. -/
def sectionOn (ls : List Nat) (xs : List TxSector) (w : Wave) : Wave :=
  { elided ls w with
    tx := ls.map fun l => { lane := l, sectors := xs, status := 0, code := 0, ss := 0 }
    elisions := (elided ls w).elisions.map fun x => { x with line := lineOf 1 (.global 0x18000) } }
def wholeSection (q : State) : Bool := (q.wave? 1).all fun w => w.elisions.all fun y => y.plain ||
  w.tx.all fun k => !y.lanes.contains k.lane || k.status == 0
def opensSection (s : State) (e : Env) : Bool :=
  let i : Instr := .lres 0x01 0x8A 0x103
  let r := past i s e
  match requestOf e i with
  | some o =>
    elides r e.w && e.w.elisions.isEmpty && (o.lanes.all fun l => !e.w.inTx l.lane) && !fenced e.w .at && !overlapsLog r e.w o &&
      match elidedChecks e r o, o.lanes with
      | .ok s0, l0 :: _ => (match resolve r e.w o.form l0.addr with
        | .ok t =>
          let ls := o.lanes.map LaneAcc.lane
          let x : Elision := { line := lineOf (r.waveAsid e.w) t, bundle := e.iss.bundle, slot := e.iss.slot, path := e.p.born
                               lanes := ls, plain := false }
          let s1 := s0.modWave 1 fun w => { w with elisions := w.elisions ++ [x]
                                                   tx := w.tx ++ ls.map fun l =>
                                                     { lane := l, sectors := [], status := 0, code := 0, ss := 0 } }
          (s1.wave? 1).any fun w1 => match performMixed s1 w1 { o with kind := .load } with
            | .ok r1 ws lat ss => wholeSection (pend r1 e (some lat) ws .at false ss).2
            | _ => false
        | _ => false)
      | _, _ => false
  | none => false
def eliding : State → State := modCtx fun c => { c with elide := true }
def lockStore (s : State) (e : Env) : Bool :=
  let i : Instr := .scond 0x01 0x8A 0x03 7
  (requestOf e i).any fun o =>
    let r := past i s e
    let store := { o with kind := .store }
    (e.w.sectionOf e.p).any (fun x => onLockLine r e.w { o with lanes := o.lanes.take 1 } x) &&
      (firstFailure (laneChecks r e.w o.form 8 true) o.lanes).isNone && (txBlocked r e.w true (txPart r e.w store)).isNone &&
      (atomicLate r e.w o).isNone && ((txPart r e.w store).all fun y => okIn (xlateParts r (committedActor r e.w) .write [(y.2, 8)])) &&
      wholeSection (txAccesses r e.w.uid store true (txPart r e.w { store with lanes := o.lanes.take 1 })).state
/-- The STREL that closes the section: whether every lane commits. -/
def closing (s : State) (e : Env) : Option Bool :=
  let r := past (.strel 0x01 0x8A 0x02 5) s e
  let o := releaseOp e 0x01 0x8A 0x02 5
  (e.w.sectionOf e.p).bind fun x =>
    let ts := e.w.tx.filter fun t => x.lanes.contains t.lane
    if onLockLine r e.w o x && (firstFailure (laneChecks r e.w .generic 8 true) o.lanes).isNone && !fenced e.w .ls &&
      !fenced e.w .at && !txBehindLog r e.w ts && (txSealed r e.w ts).1.isEmpty && (txCommitStop r e.w ts).isNone
    then some ((txCommit r e.w ts true).2.all fun t => t.status == 0) else none
/-- Its sections: an elided LRES that opens one, one in a section, and a plain one after the abort; a SCOND to the lock line; an
STREL whose lanes commit, and one whose lane has read a value that memory no longer holds; TBEGIN and TCOMMIT in a section. -/
theorem witness_sections : allMet (
    [row (.lres 0x01 0x8A 0x103) opensSection (regs 0x18000 0) eliding,
     row (.lres 0x01 0x8A 0x103) (fun s e => elides (past (.lres 0x01 0x8A 0x103) s e) e.w && (e.w.sectionOf e.p).isSome &&
       e.w.elisions.all fun x => !x.plain) (fun w => elided [0] (regs 0x18000 0 w)) eliding,
     row (.lres 0x01 0x8A 0x103) (fun s e =>
       let i : Instr := .lres 0x01 0x8A 0x103
       let mine := fun (x : Elision) => x.plain && x.bundle == e.iss.bundle && x.slot == e.iss.slot && x.path == e.p.born
       e.w.elisions.any mine && (requestOf e i).any fun o => match atomicIssue e ((past i s e).modWave e.w.uid fun w =>
         { w with elisions := w.elisions.filter fun x => !mine x }) o with
       | .done _ => true
       | _ => false)
       (fun w => { regs 0x18000 0 w with elisions := (elided [0] w).elisions.map fun x => { x with plain := true } }) eliding,
     row (.scond 0x01 0x8A 0x03 7) lockStore (fun w => sectionOn (List.range 32) [] (regs 0x18000 0 w)),
     row (.strel 0x01 0x8A 0x02 5) (fun s e => closing s e == some true) (fun w => sectionOn (List.range 32) [] (regs 0x18000 0 w)),
     row (.strel 0x01 0x8A 0x02 5) (fun s e => closing s e == some false) (fun w => sectionOn [0]
       [{ sector := 0x18040 / 64, readVal := some (List.replicate 64 7), writes := [], locks := [] }] (regs 0x18000 0 w))] ++
    ([.tbegin 0x01, .tcommit 0x01].map fun i => row i (fun _ e => (e.w.sectionOf e.p).isSome) (elided [0]))) :=
  allMet_of (by decide +kernel)
/-- An abort: a path that opened the section, one that holds a lane of it, and one outside it. -/
theorem witness_abortSection :
    (((bench .yield fun w => { elided [31] w with
        places := [(0, newPath 0x10000 1), (1, { newPath 0x10040 0x80000000 with born := 3 }), (2, { newPath 0x10080 2 with born := 4 })] }).wave? 1).map
      fun w => w.places.map fun y => w.elisions.any fun x => x.holds y.2) = some [true, true, false] := by decide +kernel

/-! ## Witnesses: check and power engines -/

def pwGoes (s : State) (e : Env) : Bool :=
  ((s.launch? e.w.lid).map Launch.wstage).getD false && selector (e.u 0x8A) == 0 && free s e .ls (pwOp (e.u 0x8A)) &&
    reached s (.pwload 0x8A) e (e.u 0x8A) 128 false
def staged : State → State := modLaunch fun l => { l with wstage := true }
/-- CheckAndPowerInstructions: both signatures; HALT in the first clock of an interval and in its last; PWLOAD by a kernel that is
no weight stage, from another space, and from memory. -/
theorem witness_checkAndPower : allMet
    [row (.ckrole 0x81), row (.cksig 0x07 0x00), row (.cksig 0x80 0x01), row (.clkq 0x81),
     row .halt fun s _ => s.clock % Config.clocksPerUs == 0,
     row .halt (fun s _ => s.clock % Config.clocksPerUs != 0) id fun s => { s with clock := Config.clocksPerUs - 1 },
     row (.pwload 0x8A) fun s e => !((s.launch? e.w.lid).map Launch.wstage).getD false,
     row (.pwload 0x8A) (fun s e => ((s.launch? e.w.lid).map Launch.wstage).getD false && selector (e.u 0x8A) != 0 &&
       free s e .ls (pwOp (e.u 0x8A))) (regs (own 0) 0) staged,
     row (.pwload 0x8A) pwGoes (regs 0x1FF80 0) staged] :=
  allMet_of (by decide +kernel)

/-- A chosen block's runs that have ended, with a sum each. -/
def runsEnded (xs : List (Run × Nat)) : State :=
  { bench .yield with blocks := xs.map fun x => { placedBlock with run := x.1, unchecked := true, phase := .done, ss := w64 x.2 } }
/-- VotesDemeritsAndFences: two runs that agree and two that differ, without a tiebreak and with one; a write refused for 1 ms. -/
theorem witness_votes :
    (∀ x ∈ [5, 6], let s := runsEnded [(.original, 5), (.shadow, x)]
      ∃ o sh, s.block? 1 0 .original = some o ∧ s.block? 1 0 .shadow = some sh ∧ o.unchecked = true ∧ o.forced = false ∧
        sh.phase = .done ∧ s.block? 1 0 .tiebreak = none ∧ (o.ss = sh.ss ↔ x = 5) ∧ o.rs = sh.rs ∧ o.faulted = none ∧
        sh.faulted = none ∧ o.departed = false ∧ sh.departed = false) ∧
    ((runsEnded [(.original, 5), (.shadow, 6), (.tiebreak, 5)]).block? 1 0 .tiebreak).map Block.phase = some .done ∧
    (∀ n ∈ [0, 1], let s := { bench .yield (fun w => { w with refused := [(.entry 4, 1)] }) with clock := n + 1000 * Config.clocksPerUs }
     (s.anyWave? 1).any (fun w => w.refused.any fun x => decide (x.2 + 1000 * Config.clocksPerUs ≤ s.clock)) = (n == 1)) ∧
    ((bench .yield).anyWave? 1).map Wave.refused = some [] := by
  refine ⟨fun x hx => ?_, by decide +kernel, by decide +kernel, by decide +kernel⟩
  simp only [List.mem_cons, List.not_mem_nil, or_false] at hx
  rcases hx with rfl | rfl
  · exact ⟨{ placedBlock with run := .original, unchecked := true, phase := .done, ss := 5 },
      { placedBlock with run := .shadow, unchecked := true, phase := .done, ss := 5 }, by decide +kernel⟩
  · exact ⟨{ placedBlock with run := .original, unchecked := true, phase := .done, ss := 5 },
      { placedBlock with run := .shadow, unchecked := true, phase := .done, ss := 6 }, by decide +kernel⟩
/-- Counts of 0, 1, 2 and 15 a day after their change, and one clock less. -/
theorem witness_demerits :
    let day := 86400 * 1000000 * Config.clocksPerUs
    let s := fun n => modCore (fun c => { c with demerits := n, demeritChange := 3 }) { State.reset with clock := 3 + day }
    (∀ n ∈ [0, 1, 2, 15], ((s n).core 0).demerits = n ∧ ((s n).core 0).demeritChange + day ≤ (s n).clock) ∧
    ({ s 1 with clock := 2 + day }).clock < ((s 1).core 0).demeritChange + day ∧ 1023 < Config.cores := by decide +kernel
/-- ControlIntervalsAndCaps: a clock off a boundary, one on a boundary gone over, and one to go over; a grove at its trip
temperature and one degree below; the last grove. -/
theorem witness_intervals :
    (1 : Nat) % Config.clocksPerUs ≠ 0 ∧ (Config.clocksPerUs * 5) % Config.clocksPerUs = 0 ∧ Config.clocksPerUs * 5 / Config.clocksPerUs = 5 ∧
    State.reset.power.intervalDone = 0 ∧ Config.groves = 128 ∧ (State.reset.grove 127).thermalCap = none ∧
    thtrip (State.reset.setGrove 127 { State.reset.grove 127 with temp := 105 }) = 105 := by decide +kernel
def member (chip heard : Nat) : Member := { chip := chip, proposal := 2400, lastHeard := heard, silent := false, heardRun := 0 }
/-- CanopyGroups: a chip in a group with a member, silent for three heartbeats, for 1 ms, and one clock less; alone, joining and
leaving. -/
theorem witness_canopy :
    let s := fun n clock => { State.reset with clock := clock, canopy := { State.reset.canopy with state := n, members := [member 9 4] } }
    let c := (s 2 0).canopy
    State.reset.canopy.state = 0 ∧ c.state ≠ 0 ∧ c.chip ≠ 9 ∧ (∃ m ∈ c.members, m.chip = 9) ∧ (∀ m ∈ c.members, m.chip ≠ 8) ∧
    c.members.find? (fun x => x.chip == 9) = some (member 9 4) ∧ (member 9 4).silent = false ∧
    (s 2 (4 + 60 * Config.clocksPerUs)).clock = (member 9 4).lastHeard + 60 * Config.clocksPerUs ∧
    (s 2 (3 + 60 * Config.clocksPerUs)).clock < (member 9 4).lastHeard + 60 * Config.clocksPerUs ∧
    (s 2 (4 + 1000 * Config.clocksPerUs)).clock = (member 9 4).lastHeard + 1000 * Config.clocksPerUs ∧
    ([0, 1, 2, 3].map fun n => (s n 0).canopy.state) = [0, 1, 2, 3] := by decide +kernel

/-! ## Witnesses: other events -/

/-- An instruction of a wave outstanding. -/
def outstanding (n : Nat) (ws : List RegWrite) (store : Bool) : Completion :=
  { seqNo := n, setf := 1, writes := ws, path := .ls, store := store, returned := false, ss := 0, fmt := none }
/-- CompletionWritesResults: the second of three outstanding, which writes a register none before it writes. -/
theorem witness_completion :
    let c := outstanding 1 [{ file := .vector, key := 32, value := 7 }] false
    let pre := [outstanding 0 [{ file := .vector, key := 64, value := 7 }] false]
    let post := [outstanding 2 [{ file := .vector, key := 32, value := 9 }] false]
    let s := bench .yield fun w => { w with pending := pre ++ c :: post, nextSeq := 3, flags := [(0, 3)] }
    (s.wave? 1).any (fun w => decide (w.uid = 1 ∧ w.fences = [] ∧ w.pending = pre ++ c :: post)) = true ∧
    (∀ d ∈ pre ++ post, d.seqNo ≠ c.seqNo ∧ d.returned = false) ∧
    (∀ d ∈ pre, ∀ k ∈ writeKeys c.writes, k ∉ writeKeys d.writes) := by decide +kernel

/-- CompletionWritesResults, the path's clause: a path woken from its wait (R23) issues again with the wait's completion. -/
theorem witness_completion_woken :
    let s := bench .yield fun w => { w with
      pending := [outstanding 1 [] false], nextSeq := 2, flags := [(0, 1)], places := w.places.map fun e => (e.1, { e.2 with park := .woken 1 2 }) }
    ((s.wave? 1).map fun w => w.places.map fun e => e.2.park) = some [.woken 1 2] ∧
    (match execInstructionComplete 1 1 s with
     | .next t => (t.wave? 1).map fun w => w.places.map fun e => e.2.park
     | _ => none) = some [.running] := by decide +kernel

def repeating (w : Wave) : Wave :=
  { w with rep := { valid := true, path := 0, stride := 0, next := 0, left := 65 } }
def loggedLoad (addr : Nat) : LogEntry :=
  { word := 0x83018402, bundle := 0x10000, slot := 1, place := 0, seqNo := 0, path := .ls, rep := false
    op := { plainOp .load with dest := 1, mask := 1, lanes := [{ lane := 0, addr := w64 addr, width := 8, data := 0, data2 := 0 }] } }
def replayOf (s : State) (x : LogEntry) : Option Bool :=
  match s.anyWave? 1 with
  | some w => if w.log.find? (fun l => l.seqNo == x.seqNo) = some x then match performMixed s w x.op with
    | .ok _ _ _ _ => some true
    | .trap _ _ _ => some false
    | _ => none else none
  | none => none
def logging (x : LogEntry) : State := mapped (bench .yield fun w => { w with log := [x] })
/-- PathAndWaveEvents: a repeat of the path whose bundle is fetched; a path passed over for 256 clocks; a logged load that is
performed and one that traps; a wave with and without a handler, in one, and with a halt pending; a retirement entry that has
drained and one with a store outstanding. -/
theorem witness_pathAndWave :
    (let s := mapped (bench (.add 0x01 0x02 0x03) repeating)
     (s.wave? 1).any (fun w => w.rep.valid && w.rep.path == 0 && (mfind w.places 0).any (fun p => mayIssue w p &&
       (match fetchBundle s w p.pc with
        | (.words _, _) => true
        | _ => false))) = true) ∧
    (∀ n ∈ [255, 256], (((sortBy beforeByAge (partPaths (bench .yield fun w => w.modPath 0 fun p => { p with passed := n }) 0 0)).filter
      fun x => decide (256 ≤ x.2.2.passed)) == []) = (n == 255)) ∧
    replayOf (logging (loggedLoad 0x18000)) (loggedLoad 0x18000) = some true ∧
    replayOf (logging (loggedLoad 0x18001)) (loggedLoad 0x18001) = some false ∧
    (∀ s ∈ [bench .yield, handled (bench .yield), handled (bench .yield inHandler),
        handled (bench .yield fun w => { w with haltPending := true })],
      (s.wave? 1).any (fun w => (s.waveCtx w).isSome && (mfind w.places 0).isSome) = true) ∧
    (∀ b ∈ [false, true], let w := { placedWave with pending := [outstanding 0 [] b] }
      let s := modCore (fun c => { c with tracker := [{ wave := w }] }) State.reset
      (s.core 0).tracker[0]? = some { wave := w } ∧ drained s w = !b) := by decide +kernel

/-! ## Witnesses: queues, blocks and launches -/

/-- A queue that admits: enabled, of the context 0, its ring in the placed page, one packet ahead. -/
def openQueue : Queue := { emptyQueue with base := 0x18000, ctl := BitVec.ofNat 64 (2 ^ 63), widx := 1, lastW := 1 }
def queued (x : Queue) : State := let s := mapped (bench .yield)
  s.setFunc 0 { s.func 0 with queues := [(0, x)] }
def packetAt (s : State) : Option (List Byte) :=
  match queueOpen s 0 0 with
  | some c => (match engineRead s c 0 0x18000 64 with
    | (.ok p, _) => some p
    | _ => none)
  | none => none
def admits (s : State) : Bool :=
  match queueOpen s 0 0, packetAt s with
  | some c, some p => packetType p != 0 && (match admitPacket s c (newLaunch s 0 0 c 0 0 p) none with
    | (.launch _ _, _) => true
    | _ => false)
  | _, _ => false
/-- A header of one role of one wave; a packet of `n` blocks of a kernel whose header is at 0x19000. -/
def header1 : List Byte :=
  leBytes 4 1 ++ [1, 0, 0, 0] ++ leBytes 4 64 ++ List.replicate 52 0 ++ leBytes 8 0x10000 ++ leBytes 2 1 ++ [8] ++ List.replicate 181 0
def packet1 (n : Nat) : List Byte := [1, 0, 0, 0] ++ leBytes 4 n ++ leBytes 8 0x19000 ++ List.replicate 48 0
def launch1 (lid prio : Nat) : Launch :=
  { placedLaunch with lid := lid, header := header1, packet := packet1 2, priority := prio }
def launching (ls : List Launch) (saveSize : Nat) : State :=
  { modCtx (fun c => { c with saveBase := 0x18000, saveSize := w64 saveSize }) (mapped (bench .yield)) with launches := ls }
/-- QueuesBlocksAndLaunches, its queue: an empty slot, a packet admitted, a queue enabled and not, one that waits, at the
priorities where ageing stops. -/
theorem witness_queues :
    packetAt (queued openQueue) = some (List.replicate 64 0) ∧ packetType (List.replicate 64 0) = 0 ∧
    admits (inMem 0x18000 (packet1 2) (inMem 0x19000 header1 (queued openQueue))) = true ∧ openQueue.enabled = true ∧ emptyQueue.enabled = false ∧
    (∀ p ∈ [0, 5, 6, 7], let s := { queued { openQueue with prio := p } with launches := [launch1 1 0], clock := 500 * Config.clocksPerUs }
      queueWaits s 0 0 = true ∧ (mget emptyQueue (s.func 0).queues 0).agedAt + s.ageInt * Config.clocksPerUs ≤ s.clock) := by
  decide +kernel
def fits (s : State) (l : Launch) (bid : Nat) : Bool := match fitting s l with
  | some (.fresh b, _, _) => b == bid
  | _ => false
def savedState (version : Nat) : State :=
  let w := { placedWave with uid := 3 }
  inMem 0x18000 (leBytes 4 version) { launching [launch1 1 0] (16 * Config.saveSlotBytes) with
    waves := [], blocks := [{ placedBlock with phase := .saved, saved := some { waves := [w], queues := [], restoring := true } }] }
/-- Its blocks and launches: a block that fits; one that does not; a launch before which another goes; a saved block with a place,
its header well formed and not; a launch whose blocks are done. -/
theorem witness_placing :
    (let s := launching [launch1 1 0] (16 * Config.saveSlotBytes)
     s.launch? 1 = some (launch1 1 0) ∧ fits s (launch1 1 0) 1 = true ∧ betterLaunch s (launch1 1 0) = none) ∧
    (let s := launching [launch1 1 0] 0
     candidate s (launch1 1 0) = some (.fresh 1) ∧ fitting s (launch1 1 0) = none ∧ betterLaunch s (launch1 1 0) = none) ∧
    (let s := launching [launch1 1 0, launch1 2 1] (16 * Config.saveSlotBytes)
     candidate s (launch1 1 0) = some (.fresh 1) ∧ betterLaunch s (launch1 1 0) = some (launch1 2 1)) ∧
    (∀ v ∈ [1, 2], let s := savedState v
      (s.ctx? 0 0).any (fun c => ctxPlaces c && (s.block? 1 0 .plain).any fun b => b.phase == .saved &&
        (planFor s s.residents (launch1 1 0) (.restore b)).isSome && (b.saved.any fun x => match readHeaders s c 0 x.waves with
          | (.ok hs, _) => hs.any (fun y => headerSaveBad y.2.1) == (v == 2)
          | _ => false)) = true) ∧
    (let l := { launch1 1 0 with blocksDone := 2 }
     let s := launching [l] 0
     l.waitFault = none ∧ l.phase = 0 ∧ l.ended = false ∧ l.replaySum = none ∧ l.marker = false ∧ l.grid ≤ l.blocksDone ∧
       (s.ctx? 0 0).any (fun c => okIn (writeCompletion (endPins s 1) c l)) = true) := by
  refine ⟨by decide +kernel, by decide +kernel, by decide +kernel, by decide +kernel, by decide +kernel⟩

/-! ## Witnesses: contexts, translation, trace, capture and the host -/

/-- A context descriptor (R388), well formed for a version of 1. -/
def descriptor (version : Nat) : List Byte :=
  leBytes 4 version ++ leBytes 2 2 ++ List.replicate 26 0 ++ leBytes 8 Config.saveSlotBytes ++ List.replicate 24 0
def described (version : Nat) : State :=
  let s := inMem 0x18000 (descriptor version) (mapped (bench .yield))
  s.setFunc 0 { s.func 0 with asidCount := 2, regs := [(ctxDesc, 0x18000)] }
/-- An atomic of the placed wave on its way to an address. -/
def withRequest (addr : Nat) (s : State) : State :=
  { s with atomics := [{
      id := 3, uid := 1, setf := 0, due := 9, handler := false, classGen := [], mapGen := 0
      entry := { word := 0, bundle := 0, slot := 0, place := 0, seqNo := 0, path := .at, rep := false
                 op := { plainOp (.atomic .add) with lanes := [{ lane := 0, addr := w64 addr, width := 8, data := 1, data2 := 0 }] } } }] }
/-- ContextsAndFunctions: a descriptor that makes context 15, a malformed one, an ASID not owned and one another context has; a
context to reset, running, with and without a request; requests past their bound at levels 6 and 7; a function not in reset, one that drains with a request outstanding and with none,
and one in its scrub. -/
theorem witness_contexts :
    (let s := described 1
     let d := readBytes s.dram ((s.func 0).reg ctxDesc) 64
     s.ctx? 0 15 = none ∧ descBad d = false ∧ field d 4 2 = 2 ∧ ownsAsid (s.func 0) 2 = true ∧ s.ctxOfAsid 2 = none ∧
       ownsAsid (s.func 0) 3 = false ∧ (s.ctxOfAsid 1).isSome = true) ∧
    descBad (readBytes (described 2).dram ((described 2).func 0 |>.reg ctxDesc) 64) = true ∧
    ((bench .yield).ctx? 0 0).map (fun c => (c.state, c.preempt)) = some (.running, none) ∧
    (∀ n ∈ [0, 6, 7], ((modCtx (fun c => { c with preempt := some (n, 0) }) (bench .yield)).ctx? 0 0).map
      (fun c => (c.preempt, c.boundUs)) = some (some (n, 0), 200)) ∧
    (State.reset.func 0).flr = false ∧
    (let s := fun n => (bench .yield).setFunc 0 { (bench .yield).func 0 with flr := true, flrPhase := n }
     (∀ n ∈ [1, 2, 3, 4], ((s n).func 0).flr = true ∧ ((s n).func 0).flrPhase = n) ∧
       taggedRequests (s 3) 0 = 0 ∧ taggedRequests (withRequest 0x18000 (s 3)) 0 = 1) := by
  decide +kernel

def classRec (shared : Bool) : ClassRec := { asid := 1, page := 1, shared := shared, owner := 0, generation := 0, waits := none }
def faultRec (waiters : List Requester) : FaultRec :=
  { seqNo := 4, va := 0x18000, asid := 1, cause := Cause.pageNotPresent.code, kind := 0, flags := 0, coalesced := 0, requester := 0
    entry := 0, waiters := waiters, answered := false }
def faulted (waiters : List Requester) : State := let s := bench .yield
  s.setFunc 0 { s.func 0 with faults := [faultRec waiters] }
/-- What a translation comes to: a page, a frozen range, a fault for the host, and another fault. -/
def xlateEnd (s : State) (va : Nat) (k : AccKind) : Nat := match (tlbAccess s (plainActor .host 1) va k).1 with
  | .ok _ _ => 0
  | .frozen => 1
  | .blocked _ => 4
  | .fault x => if x.cause.delivery = .pageFault then 2 else 3
/-- TranslationEvents. -/
theorem witness_translation :
    (let s := mapped (bench .yield)
     xlateEnd s 0x1FFFF .read = 0 ∧
     xlateEnd (s.setFunc 0 { s.func 0 with mapStat := 2, mapAsid := 1, mapFirst := 1, mapCount := 1 }) 0x10000 .read = 1 ∧
     xlateEnd s 0x20000 .read = 2 ∧
     xlateEnd { s with tlb := s.tlb.map fun e => { e with x := false } } 0x18000 .fetch = 3 ∧ (s.ctxOfAsid 1).isSome = true) ∧
    (∀ b ∈ [false, true], ({ State.reset with classes := [classRec b] }.classes.find? fun x => x.asid == 1 && x.page == 1) = some (classRec b)) ∧
    ({ State.reset with classes := [classRec false] }.atomics.any (toPage { State.reset with classes := [classRec false] } 1 1)) = false ∧
    (((faulted [.path 1 0]).func 0).faults.find? fun r => r.seqNo == 4) = some (faultRec [.path 1 0]) ∧
    (((faulted []).func 0).faults.find? fun r => r.seqNo == 5) = none ∧
    (∃ x ∈ (faultRec [.path 1 0]).waiters, redundantWaiter (faulted [.path 1 0]) x = none) ∧
    (∀ l, Requester.launch l ∉ (faultRec [.path 1 0]).waiters) ∧ (((faulted [.path 1 0]).ctxOfAsid 1).isSome = true) := by
  refine ⟨by decide +kernel, by decide +kernel, by decide +kernel, by decide +kernel, by decide +kernel,
    ⟨.path 1 0, by decide, by decide +kernel⟩, ?_,
    by decide +kernel⟩
  intro l h
  simp [faultRec] at h

/-- Function 0 of a state with two ASIDs from 1 on, about to change the map of some pages. -/
def mapping (stat first count : Nat) (pins : List Pin) : State :=
  let s := { mapped (bench .yield) with pins := pins }
  s.setFunc 0 { s.func 0 with mapStat := stat, mapAsid := 1, mapFirst := 1, mapCount := 1
                              regs := [(0x28, w64 (first * 65536 + count)), (0x40, w64 (first * 65536 + count))] }
/-- InvalidationsAndMapChanges: an ASID owned and one that is not, a change under way, a range to the end of the address space and
one page more, a pinned line in the range, and each state a change goes through; a copy command and an atomic older than the change. -/
theorem witness_mapChanges :
    (let f := (mapping 0 (2 ^ 36 - 1) 0 []).func 0
     ownsAsid f 1 = true ∧ ownsAsid f 2 = false ∧ f.invalidating = false ∧ bits (f.reg 0x40) 16 36 + (bits (f.reg 0x40) 0 16 + 1) = 2 ^ 36) ∧
    (let f := (mapping 0 (2 ^ 36 - 1) 1 []).func 0
     bits (f.reg 0x40) 16 36 + (bits (f.reg 0x40) 0 16 + 1) = 2 ^ 36 + 1) ∧
    (lineInRange 1 1 0x1FF = true ∧ lineInRange 1 1 0x200 = false) ∧
    ([0, 1, 2, 3].map fun n => ((mapping n 1 0 []).func 0).mapStat) = [0, 1, 2, 3] ∧
    olderCommand (mapping 1 1 0 []) ((mapping 1 1 0 []).func 0) = false ∧
    (let s := withCommands [{ command 0xC0 (desc 0 0 0 0x19000 (own 0) 16 1 0 0) true [] with waitSeq := none }] (mapping 1 1 0 [])
     olderCommand { s with mapGens := [(1, 1)] } (s.func 0) = true) ∧
    olderAtomic (mapping 1 1 0 []) ((mapping 1 1 0 []).func 0) = false ∧
    (let s := withRequest 0x18000 (mapping 1 1 0 [])
     olderAtomic { s with mapGens := [(1, 1)] } (s.func 0) = true) := by decide +kernel

def sampled (fns : List Nat) (profiled : Bool) : State :=
  let s := (bench .yield).setPart 0 0 { (bench .yield).part 0 0 with sampleFns := fns }
  s.setFunc 0 { s.func 0 with regs := [(profCtl, if profiled then 0xFFFF else 0)] }
/-- ProfilingAndTracing: an interval of no function, of one profiled and not, and of two; a context with a handler and without; a
watchpoint well formed, malformed, of an absent context, and one that would stop a context without a handler. -/
theorem witness_tracing :
    (([[], [3], [3, 19]] : List (List Nat)).map fun xs => (((sampled xs true).part 0 0).sampleFns.map fun k => k / 16).eraseDups) =
      [[], [0], [0, 1]] ∧
    (∀ b ∈ [false, true], (oldestWave (sampled [3] b) 0 0).any (fun w => w.fn == 0 &&
      bitOf (((sampled [3] b).func 0).reg profCtl) w.ctx == b) = true) ∧
    ((bench .yield).ctx? 0 0).map Context.handler = some 0 ∧ ((handled (bench .yield)).ctx? 0 0).map Context.handler = some 0x20000 ∧
    (let v : Word := BitVec.ofNat 64 (2 ^ 63 + 2 ^ 12 + 2 ^ 8)
     v.getLsbD 63 = true ∧ v.getLsbD 13 = false ∧ watchAddrBad 0x18000 = false ∧ bits v.toNat 12 2 = 1 ∧ bits v.toNat 8 2 = 1) ∧
    watchAddrBad 0x18008 = true ∧ ((bench .yield).ctx? 0 1) = none ∧
    (BitVec.ofNat 64 (2 ^ 63 + 2 ^ 13) : Word).getLsbD 13 = true := by decide +kernel

def capturing (n ctx : Nat) (ls : List Launch) : State :=
  let s := { bench .yield with launches := ls }
  s.setFunc 0 { s.func 0 with capture := { emptyCapture with state := n, ctx := ctx } }
/-- CaptureAndReplay: none under way, one about to be snapshot with no launch running, one recording with a recorded launch and
without, and a replay. -/
theorem witness_capture :
    ([0, 1, 2, 3, 4].map fun n => ((capturing n 0 []).func 0).capture.state) = [0, 1, 2, 3, 4] ∧
    ((capturing 1 0 []).ctx? 0 ((capturing 1 0 []).func 0).capture.ctx).isSome = true ∧ (capturing 1 0 []).launches = [] ∧
    (∃ l ∈ (capturing 2 0 [{ placedLaunch with recorded := true }]).launches, l.fn = 0 ∧ l.recorded = true) ∧
    (∀ l ∈ (capturing 2 0 [placedLaunch]).launches, l.fn = 0 → l.recorded = false) ∧ ((capturing 0 0 []).ctx? 0 1) = none := by
  decide +kernel

def dirtyLine : L2Line :=
  { asid := 1, line := 0x180, pa := 0x18000, perms := { w := true, x := true, cow := false, size := 65536, mapGen := 0, stale := false }
    sectors := [(0, { bytes := List.replicate 64 7, dirty := true })] }
/-- HostAccessesAndRegisters: the last byte of the address space and one more; a sealed byte and the bytes beside it; the ends of
the windows. -/
theorem witness_host :
    (2 ^ 48 - 1) + 1 ≤ 2 ^ 48 ∧ 2 ^ 48 < 2 ^ 48 + 1 ∧
    (let s := mapped (bench .yield)
     sealedPhys s (1, 0x18000, 256) 0x18000 = true ∧ sealedPhys s (1, 0x18000, 256) 0x180FF = true ∧
       sealedPhys s (1, 0x18000, 256) 0x18100 = false ∧ sealedPhys s (1, 0x18000, 256) 0x17FFF = false) ∧
    (let s := mapped (bench .yield)
     pinnedPhys s .host 0x18000 8 = false ∧ pinnedPhys (pinnedLine s) .host 0x18000 8 = true ∧ pinnedPhys (pinnedLine s) .pcie 0x18000 8 = true ∧
       pinnedPhys (pinnedLine s) .host 0x18100 8 = false) ∧
    (State.reset.func 15).enable = false ∧ ((bench .yield).func 0).enable = true := by decide +kernel
/-- Caches in form: none, and a line with a dirty sector. -/
theorem witness_caches : State.reset.cachesWf ∧ { State.reset with l2 := [dirtyLine] }.cachesWf := by
  refine ⟨⟨List.nodup_nil, fun l h => ?_, fun l h => ?_⟩, ⟨by decide, fun l h => ?_, fun l h m g x hx y hy _ _ _ => ?_⟩⟩
  · cases h
  · cases h
  · cases List.mem_singleton.mp h
    decide
  · cases List.mem_singleton.mp h
    cases List.mem_singleton.mp g
    exact ⟨rfl, rfl⟩

def managed (m : Mgmt → Mgmt) : State := { State.reset with mgmt := m State.reset.mgmt }
/-- ManagementResetAndImages: bring-up before its end and after it, a wipe under way, power off with a good slot and a bad one, an
image write at each state and of the first and last lengths, and 127 and 128 suspect rows. -/
theorem witness_management :
    State.reset.mgmt.powered = true ∧ State.reset.mgmt.bringUp = 5 ∧
    (managed fun m => { m with bringUp := 6 }).mgmt.wiping = none ∧
    (managed fun m => { m with bringUp := 6, wiping := some .deployed }).mgmt.wiping.isSome = true ∧
    lifeOf 2 = some .return_ ∧ lifeOf 3 = none ∧
    (∀ b ∈ [false, true], (managed fun m => { m with powered := false, slotGood := b }).mgmt.powered = false) ∧
    ([0, 1, 2, 3].map fun n => imageBusy (managed fun m => { m with imgStat := n })) = [false, true, true, false] ∧
    (∀ n ∈ [4096, 2 ^ 28], powerReg { State.reset with power := { State.reset.power with regs := [(0x608, w64 n)] } } 0x608 0 = n ∧
      n % 4096 = 0 ∧ 4096 ≤ n ∧ n ≤ 2 ^ 28) ∧
    (managed fun m => { m with suspectRows := List.range 127 }).mgmt.suspectRows.length < 128 ∧
    (managed fun m => { m with suspectRows := List.range 128 }).mgmt.suspectRows.length = 128 := by decide +kernel

/-- A run that has ended, with its sum. -/
def ended (run : Run) (ss : Nat) : Block :=
  { placedBlock with run := run, unchecked := true, phase := .done, ss := w64 ss }
def sameRuns (x y : Block) : Bool := x.ss == y.ss && x.rs == y.rs && x.faulted.isNone && y.faulted.isNone && !x.departed && !y.departed
/-- VotesDemeritsAndFences, the table: a tiebreak that matches the original, one that matches the shadow, and one that matches
neither, with the same fault as the shadow and without. -/
theorem witness_judge :
    let o := ended .original 5
    let sh := ended .shadow 6
    let bad := fun (b : Block) (k : Cause) => { b with faulted := some (k, 0) }
    let s := fun (sh tb : Block) => { bench .yield with blocks := [o, sh, tb] }
    let tie := ended .tiebreak
    sameRuns (tie 5) o = true ∧ sameRuns (tie 6) o = false ∧ sameRuns (tie 6) sh = true ∧
    sameRuns (tie 7) o = false ∧ sameRuns (tie 7) sh = false ∧ sameRuns (bad (tie 5) .misaligned) o = false ∧
    (bad sh .misaligned).faulted = (bad (tie 5) .misaligned).faulted ∧ (bad sh .misaligned).faulted ≠ (bad (tie 5) .sealedStore).faulted ∧
    ((s sh (tie 7)).block? 1 0 .tiebreak).map Block.phase = some .done ∧ 0 ∈ o.coresUsed ∧ 1 ∉ o.coresUsed ∧
    ((s sh (tie 7)).launch? 1).isSome = true := by decide +kernel
/-- ControlIntervalsAndCaps: a grove that has tripped and one whose trip is to come; a chip alone, joining, in a group and leaving. -/
theorem witness_excursions :
    let s := State.reset.setGrove 127 { State.reset.grove 127 with temp := 105, tripped := true }
    (s.grove 127).tripped = true ∧ thtrip s ≤ (s.grove 127).temp ∧ (State.reset.grove 127).tripped = false ∧ (State.reset.grove 127).temp < 105 ∧
    ([0, 1, 2, 3].map fun n => decide (n < 2)) = [true, true, false, false] := by decide +kernel
def announced (kind : AnnounceKind) (chip state : Nat) : State :=
  { bench .yield with
    domains := [domainOf .active 0 []], clock := 7
    canopy := { State.reset.canopy with
      state := state, members := [member 9 4], announces := [⟨chip, 1800, 0, 7, kind⟩, ⟨9, 1500, 0, 8, .change⟩] } }
/-- CanopyGroups: one announcement due and one a clock later, of a member and of this chip, of each kind; this chip named as
expelled; a chip that joins, with a chip it does not know, which asks to join or does not; and the writes of CNPCTL. -/
theorem witness_announcements :
    (∀ k ∈ [AnnounceKind.change, .emergency, .rise, .leave], ∀ chip ∈ [0, 9], let c := (announced k chip 2).canopy
      (c.announces.filter fun x => decide (x.due ≤ (announced k chip 2).clock)) = [⟨chip, 1800, 0, 7, k⟩]) ∧
    (announced .leave 0 2).canopy.chip = 0 ∧ 2 ≤ (announced .leave 0 2).canopy.state ∧
    (∃ d ∈ (announced .leave 0 2).domains, d.groupScope = true) ∧
    (∀ a ∈ ({ announced .leave 0 2 with clock := 6 }).canopy.announces, 6 < a.due) ∧ (announced .leave 0 1).canopy.state = 1 ∧
    (∀ m ∈ (announced .leave 0 1).canopy.members, m.chip ≠ 8) ∧
    (1 : Word).getLsbD 1 = false ∧ (2 : Word).getLsbD 0 = false := by
  refine ⟨by decide +kernel, by decide +kernel, by decide +kernel, ⟨domainOf .active 0 [], List.mem_singleton.mpr rfl, rfl⟩,
    by decide +kernel, by decide +kernel, by decide +kernel, by decide +kernel, by decide +kernel⟩

/-- QueuesBlocksAndLaunches: a check run that fits; a launch with nothing to place; a saved block whose context places none; a
launch with a face still waiting, and one with blocks to come; and an ageing event that comes a clock early. -/
theorem witness_placingMore :
    (let s := { launching [launch1 1 0] (16 * Config.saveSlotBytes) with
       blocks := [{ placedBlock with run := .original, phase := .awaitingShadow, unchecked := true, coresUsed := [] }] }
     (match fitting s (launch1 1 0) with
      | some (.check _ .shadow, _, _) => true
      | _ => false) = true ∧ (∀ m ∈ s.launches, ¬ ((launch1 1 0).priority < m.priority ∨ m.priority = 0 ∧ m.lid < 1))) ∧
    candidate (launching [{ launch1 1 0 with nextBlock := 2 }] 0) { launch1 1 0 with nextBlock := 2 } = none ∧
    (let s := modCtx (fun c => { c with preempt := some (0, 0) }) (savedState 1)
     (s.ctx? 0 0).map ctxPlaces = some false ∧ (s.block? 1 0 .plain).any (fun b => b.phase == .saved && b.saved.isSome) = true) ∧
    (let s := { launching [launch1 1 0] 0 with facesWaiting := [⟨some 1, 0, 16, 1, 0, 0, false, 0, []⟩] }
     (s.facesWaiting.any fun f => f.lid == some (launch1 1 0).lid) = true ∧ (launch1 1 0).blocksDone < (launch1 1 0).grid) ∧
    (let s := { queued openQueue with launches := [launch1 1 0], clock := 500 * Config.clocksPerUs - 1 }
     queueWaits s 0 0 = true ∧ s.clock < (mget emptyQueue (s.func 0).queues 0).agedAt + s.ageInt * Config.clocksPerUs) ∧
    (let l := { launch1 1 0 with blocksDone := 2 }
     let s := launching [l] 0
     l.grid ≤ l.blocksDone ∧ s.facesWaiting = [] ∧
       (s.ctx? 0 0).any (fun c => okIn (writeCompletion (releaseLaunch (endPins s 1) c l) c l)) = true) := by
  refine ⟨⟨by decide +kernel, by decide +kernel⟩, by decide +kernel, by decide +kernel, by decide +kernel, by decide +kernel, by decide +kernel⟩
/-- ContextsAndFunctions: a context with a launch and one with none; a request at level 7 past its bound; and a function in each
phase of its reset, with launches left and with none. -/
theorem witness_resets :
    (bench .yield).launches.any (fun l => l.inCtx 0 0) = true ∧ { bench .yield with launches := [] }.launches = [] ∧
    ((bench .yield).ctx? 0 0).map (fun c => c.state) = some .running ∧
    (let s := modCtx (fun c => { c with preempt := some (7, 0) }) { bench .yield with clock := 200 * Config.clocksPerUs }
     (s.ctx? 0 0).any (fun c => decide (0 + c.boundUs * Config.clocksPerUs ≤ s.clock)) = true) ∧
    (∀ n ∈ [1, 2, 3, 4], let s := (bench .yield).setFunc 0 { (bench .yield).func 0 with flr := true, flrPhase := n }
      (s.func 0).flr = true ∧ (s.func 0).flrPhase = n ∧ (s.launches.any fun l => l.fn == 0) = true ∧
        (∀ l ∈ { s with launches := [] }.launches, l.fn ≠ 0)) := by decide +kernel
/-- ProfilingAndTracing: the collector's queue with room for one and full; a watchpoint that does not enable, of a present and of an
absent context; a traced context absent. -/
theorem witness_collector :
    let x : Collected := { core := 255, part := 0, fn := 3, ctx := 0, record := true, bytes := [] }
    let s := fun (size n : Nat) => let q := bench .yield
      { q.setFunc 0 { q.func 0 with regs := [(prSize, w64 size)] } with collected := List.replicate n x }
    profileFull (s 4096 0) 0 = false ∧ profileFull (s 0 0) 0 = true ∧ collectorFull (s 4096 4095) 0 = false ∧
    collectorFull (s 4096 4096) 0 = true ∧
    (0 : Word).getLsbD 63 = false ∧ (bench .yield).ctx? 0 (bits (0 : Word).toNat 0 4) ≠ none ∧
    (bench .yield).ctx? 0 (bits (1 : Word).toNat 0 4) = none ∧ ((2 : Word).getLsbD 1 = true ∧ (bench .yield).ctx? 0 1 = none) := by
  decide +kernel
/-- ManagementResetAndImages: a wipe in a bring-up that stays at its third step; an image write while another is under way, of a
length in range at the top of memory and one byte over. -/
theorem witness_wipes :
    (managed fun m => { m with bringUp := 3, wiping := some .deployed }).mgmt.bringUp < 5 ∧
    (managed fun m => { m with bringUp := 5, wiping := some .deployed }).mgmt.wiping.isSome = true ∧
    (managed fun m => { m with imgStat := 2 }).mgmt.imgStat = 2 ∧ imageBusy (managed fun m => { m with imgStat := 2 }) = true ∧
    imageBusy (managed fun m => { m with imgStat := 0 }) = false ∧
    (2 ^ 48 < powerReg { State.reset with power := { State.reset.power with regs := [(0x600, w64 (2 ^ 48 - 4095)), (0x608, 4096)] } } 0x600 0 + 4096) := by
  decide +kernel

/-! ## Single steps -/

/-- The words an instruction in the placed bundle leaves to be written when it completes. -/
def written (i : Instr) (f : Wave → Wave) : List Word :=
  match exec i (mapped (bench i f)) with
  | .next t => match t.wave? 1 with
    | some w => (w.pending.flatMap Completion.writes).map RegWrite.value
    | none => []
  | _ => []
/-- s5 and s6, in a mode with an element type. -/
def operands (et a b : Nat) (w : Wave) : Wave := ((ofType et w).setS 5 (w64 a)).setS 6 (w64 b)

/-! Expected values are worked out by hand from R168 to R207. -/
theorem test_add_wraps_each_half : written (.add 0x84 0x85 0x86) (operands 5 0x00000001FFFFFFFF 0x0000000100000001) =
    [0x0000000200000000] := by decide +kernel
theorem test_adds_saturates : written (.adds 0x84 0x85 0x86) (operands 3 0x7F80 0x01FF) = [0x7F80] := by decide +kernel
theorem test_mulhi_unsigned : written (.mulhi 0x84 0x85 0x86) (operands 4 (2 ^ 63) 6) = [3] := by decide +kernel
theorem test_divi_rounds_to_zero : written (.divi 0x84 0x85 0x86) (operands 0 (2 ^ 64 - 7) 2) = [0xFFFFFFFFFFFFFFFD] := by
  decide +kernel
theorem test_remi_sign_of_dividend : written (.remi 0x84 0x85 0x86) (operands 0 (2 ^ 64 - 7) 2) = [0xFFFFFFFFFFFFFFFF] := by
  decide +kernel
theorem test_shra_count_modulo_width : written (.shra 0x84 0x85 0x86) (operands 2 0x80008000 0x00140004) = [0xF800F800] := by
  decide +kernel
theorem test_rol_wraps : written (.rol 0x84 0x85 0x86) (operands 7 0x81 0x01) = [0x03] := by decide +kernel
theorem test_fma_f64 : written (.fma 0x84 0x85 0x86) (fun w => (operands 8 0x4000000000000000 0x4008000000000000 w).setS 4
    0x3FF0000000000000) = [0x401C000000000000] := by decide +kernel
theorem test_add_f32x2 : written (.add 0x84 0x85 0x86) (operands 9 0x3F80000040000000 0x3F80000040400000) =
    [0x4000000040A00000] := by decide +kernel
theorem test_bfx_sign_extends : written (.bfx 0x84 0x85 0x00010804) (operands 0 0xABC 0) = [0xFFFFFFFFFFFFFFAB] := by
  decide +kernel
theorem test_bmm_identity : written (.bmm 0x84 0x85 0x86) (operands 0 0x8040201008040201 0x0123456789ABCDEF) =
    [0x0123456789ABCDEF] := by decide +kernel
theorem test_clmul : written (.clmul 0x84 0x85 0x86) (operands 4 7 3) = [9] := by decide +kernel
theorem test_popc : written (.popc 0x84 0x85) (operands 4 0xF0F0 0) = [8] := by decide +kernel
theorem test_ld32_sign_extends_signed_type :
    (match exec (.ld32 0x84 0x8A 0xD1) (inMem 0x18000 [0xFE, 0xFF, 0xFF, 0xFF] (mapped (bench (.ld32 0x84 0x8A 0xD1) (regs 0x18000 0)))) with
     | .next t => (t.wave? 1).map fun w => (w.pending.flatMap Completion.writes).map RegWrite.value
     | _ => none) = some [0xFFFFFFFFFFFFFFFE] := by decide +kernel
theorem test_st64_least_significant_byte_first :
    (match exec (.st64 0x85 0x8A 0xD1) (mapped (bench (.st64 0x85 0x8A 0xD1) fun w => operands 0 0x0123456789ABCDEF 0 (regs 0x18000 0 w))) with
     | .next t => (List.range 8).map fun k => physByte t (0x18000 + k)
     | _ => []) = [0xEF, 0xCD, 0xAB, 0x89, 0x67, 0x45, 0x23, 0x01] := by decide +kernel
/-- The frame of a TRAP (R44, R162): the word, the bundle, the mask of all lanes twice, the code, and the slot after. -/
theorem test_trap_frame :
    (match exec (.trap 0x1234) (handled (bench (.trap 0x1234))) with
     | .next t => (t.wave? 1).map fun w => [w.sreg 57, w.sreg 59, w.sreg 60, w.sreg 61, w64 ((w.sreg 56).toNat / 2 ^ 32)]
     | _ => none) = (some [0x10000, 0xFFFFFFFFFFFFFFFF, 0x1234, 0x10002, 0x1C001234] : Option (List Word)) := by decide +kernel
/-- The spec's encoded excerpt: the words of its three bundles. -/
theorem test_encoded_excerpt :
    decodeInstr 1 0x01000000 0x00902200 = .ok (.setmode 0x00902200) ∧ decodeInstr 3 0x83028401 0 = .ok (.ld64 0x02 0x84 0x01) ∧
    decodeInstr 1 0x23050203 0 = .ok (.fma 0x05 0x02 0x03) ∧ decodeInstr 1 0x87058501 0x0C000000 = .ok (.st64 0x05 0x85 0x01) ∧
    decodeInstr 2 0x0C000000 0 = .ok .exit := by decide +kernel
/-- A step runs the word placed where the machine fetches next. -/
theorem test_step_runs_placed_word :
    (match step (State.reset.withFetchWord 64 (0x01000000 + 2 ^ 32 * 0x00902200)) with
     | .next t => (t.wave? 1).map Wave.mode
     | _ => none) = (some 0x902200 : Option ModeReg) ∧ decodeTableWord 32 0x20010203 = some (.add 0x01 0x02 0x03) ∧ decodeTableWord 32 0x5D000000 = none := by
  decide +kernel

end Sys2Proof.Tests
end

section
/-! PROOF. Every instruction and every event answers (O5): what `exec` can come to, and when a step finds the power off. -/

namespace Sys2Proof.Machine

/-- An assigned instruction runs through `runInstr`, NOP has a meaning of its own, and an event happens in every state. -/
theorem runs_or_nop_or_happens : ∀ i : Instr, ((encode i).isSome = true ∧ Runs i) ∨ i = .nop ∨ Happens i
  | .nop => .inr (.inl rfl)
  | .setmode _ => .inl ⟨rfl, runs_setmode _⟩
  | .getmode _ => .inl ⟨rfl, runs_getmode _⟩
  | .rep _ _ => .inl ⟨rfl, runs_rep _ _⟩
  | .bra _ => .inl ⟨rfl, runs_bra _⟩
  | .brp _ _ => .inl ⟨rfl, runs_brp _ _⟩
  | .bru _ _ => .inl ⟨rfl, runs_bru _ _⟩
  | .jmpi _ => .inl ⟨rfl, runs_jmpi _⟩
  | .call _ _ => .inl ⟨rfl, runs_call _ _⟩
  | .calli _ _ => .inl ⟨rfl, runs_calli _ _⟩
  | .ret _ => .inl ⟨rfl, runs_ret _⟩
  | .rjoin _ => .inl ⟨rfl, runs_rjoin _⟩
  | .exit => .inl ⟨rfl, runs_exit⟩
  | .tail => .inl ⟨rfl, runs_tail⟩
  | .yield => .inl ⟨rfl, runs_yield⟩
  | .waitf _ _ => .inl ⟨rfl, runs_waitf _ _⟩
  | .setjoin _ _ => .inl ⟨rfl, runs_setjoin _ _⟩
  | .setleave _ => .inl ⟨rfl, runs_setleave _⟩
  | .arrive _ _ => .inl ⟨rfl, runs_arrive _ _⟩
  | .waitb _ _ => .inl ⟨rfl, runs_waitb _ _⟩
  | .arrwait _ _ _ => .inl ⟨rfl, runs_arrwait _ _ _⟩
  | .signal _ _ => .inl ⟨rfl, runs_signal _ _⟩
  | .sigwait _ _ _ => .inl ⟨rfl, runs_sigwait _ _ _⟩
  | .bind _ _ _ => .inl ⟨rfl, runs_bind _ _ _⟩
  | .unbind _ _ => .inl ⟨rfl, runs_unbind _ _⟩
  | .rgnin _ => .inl ⟨rfl, runs_rgnin _⟩
  | .rgnout _ => .inl ⟨rfl, runs_rgnout _⟩
  | .spt _ => .inl ⟨rfl, runs_spt _⟩
  | .psave => .inl ⟨rfl, runs_psave⟩
  | .trap _ => .inl ⟨rfl, runs_trap _⟩
  | .tret => .inl ⟨rfl, runs_tret⟩
  | .sysrd _ _ => .inl ⟨rfl, runs_sysrd _ _⟩
  | .syswr _ _ => .inl ⟨rfl, runs_syswr _ _⟩
  | .add _ _ _ => .inl ⟨rfl, runs_add _ _ _⟩
  | .sub _ _ _ => .inl ⟨rfl, runs_sub _ _ _⟩
  | .mul _ _ _ => .inl ⟨rfl, runs_mul _ _ _⟩
  | .fma _ _ _ => .inl ⟨rfl, runs_fma _ _ _⟩
  | .fms _ _ _ => .inl ⟨rfl, runs_fms _ _ _⟩
  | .fnma _ _ _ => .inl ⟨rfl, runs_fnma _ _ _⟩
  | .min _ _ _ => .inl ⟨rfl, runs_min _ _ _⟩
  | .max _ _ _ => .inl ⟨rfl, runs_max _ _ _⟩
  | .abs _ _ => .inl ⟨rfl, runs_abs _ _⟩
  | .neg _ _ => .inl ⟨rfl, runs_neg _ _⟩
  | .adds _ _ _ => .inl ⟨rfl, runs_adds _ _ _⟩
  | .subs _ _ _ => .inl ⟨rfl, runs_subs _ _ _⟩
  | .mulhi _ _ _ => .inl ⟨rfl, runs_mulhi _ _ _⟩
  | .dot2 _ _ _ => .inl ⟨rfl, runs_dot2 _ _ _⟩
  | .divi _ _ _ => .inl ⟨rfl, runs_divi _ _ _⟩
  | .remi _ _ _ => .inl ⟨rfl, runs_remi _ _ _⟩
  | .and _ _ _ => .inl ⟨rfl, runs_and _ _ _⟩
  | .or _ _ _ => .inl ⟨rfl, runs_or _ _ _⟩
  | .xor _ _ _ => .inl ⟨rfl, runs_xor _ _ _⟩
  | .andn _ _ _ => .inl ⟨rfl, runs_andn _ _ _⟩
  | .shl _ _ _ => .inl ⟨rfl, runs_shl _ _ _⟩
  | .shrl _ _ _ => .inl ⟨rfl, runs_shrl _ _ _⟩
  | .shra _ _ _ => .inl ⟨rfl, runs_shra _ _ _⟩
  | .rol _ _ _ => .inl ⟨rfl, runs_rol _ _ _⟩
  | .cmpeq _ _ _ => .inl ⟨rfl, runs_cmpeq _ _ _⟩
  | .cmpne _ _ _ => .inl ⟨rfl, runs_cmpne _ _ _⟩
  | .cmplt _ _ _ => .inl ⟨rfl, runs_cmplt _ _ _⟩
  | .cmple _ _ _ => .inl ⟨rfl, runs_cmple _ _ _⟩
  | .cmpun _ _ _ => .inl ⟨rfl, runs_cmpun _ _ _⟩
  | .cls _ _ _ => .inl ⟨rfl, runs_cls _ _ _⟩
  | .sel _ _ _ _ => .inl ⟨rfl, runs_sel _ _ _ _⟩
  | .mov _ _ => .inl ⟨rfl, runs_mov _ _⟩
  | .cvt _ _ _ => .inl ⟨rfl, runs_cvt _ _ _⟩
  | .cvtr _ _ _ => .inl ⟨rfl, runs_cvtr _ _ _⟩
  | .pack _ _ _ => .inl ⟨rfl, runs_pack _ _ _⟩
  | .widen _ _ _ => .inl ⟨rfl, runs_widen _ _ _⟩
  | .dec8 _ _ _ => .inl ⟨rfl, runs_dec8 _ _ _⟩
  | .enc8 _ _ _ => .inl ⟨rfl, runs_enc8 _ _ _⟩
  | .dec6 _ _ _ => .inl ⟨rfl, runs_dec6 _ _ _⟩
  | .enc6 _ _ => .inl ⟨rfl, runs_enc6 _ _⟩
  | .scaleb _ _ _ => .inl ⟨rfl, runs_scaleb _ _ _⟩
  | .rndint _ _ => .inl ⟨rfl, runs_rndint _ _⟩
  | .dot4 _ _ _ => .inl ⟨rfl, runs_dot4 _ _ _⟩
  | .sad _ _ _ => .inl ⟨rfl, runs_sad _ _ _⟩
  | .madi _ _ _ => .inl ⟨rfl, runs_madi _ _ _⟩
  | .addc _ _ _ _ => .inl ⟨rfl, runs_addc _ _ _ _⟩
  | .subb _ _ _ _ => .inl ⟨rfl, runs_subb _ _ _ _⟩
  | .frcp2 _ _ => .inl ⟨rfl, runs_frcp2 _ _⟩
  | .movl _ _ => .inl ⟨rfl, runs_movl _ _⟩
  | .movs _ _ => .inl ⟨rfl, runs_movs _ _⟩
  | .iota _ _ _ => .inl ⟨rfl, runs_iota _ _ _⟩
  | .shfl _ _ _ _ => .inl ⟨rfl, runs_shfl _ _ _ _⟩
  | .bcast _ _ _ => .inl ⟨rfl, runs_bcast _ _ _⟩
  | .lreduce _ _ _ => .inl ⟨rfl, runs_lreduce _ _ _⟩
  | .lscan _ _ _ => .inl ⟨rfl, runs_lscan _ _ _⟩
  | .ballot _ _ => .inl ⟨rfl, runs_ballot _ _⟩
  | .vote _ _ _ => .inl ⟨rfl, runs_vote _ _ _⟩
  | .plogic _ _ _ _ => .inl ⟨rfl, runs_plogic _ _ _ _⟩
  | .pset _ _ => .inl ⟨rfl, runs_pset _ _⟩
  | .pget _ _ => .inl ⟨rfl, runs_pget _ _⟩
  | .pmov _ _ => .inl ⟨rfl, runs_pmov _ _⟩
  | .bmm _ _ _ => .inl ⟨rfl, runs_bmm _ _ _⟩
  | .bmmx _ _ _ => .inl ⟨rfl, runs_bmmx _ _ _⟩
  | .pdep _ _ _ => .inl ⟨rfl, runs_pdep _ _ _⟩
  | .pext _ _ _ => .inl ⟨rfl, runs_pext _ _ _⟩
  | .bpld _ _ => .inl ⟨rfl, runs_bpld _ _⟩
  | .bperm _ _ _ => .inl ⟨rfl, runs_bperm _ _ _⟩
  | .popc _ _ => .inl ⟨rfl, runs_popc _ _⟩
  | .clz _ _ => .inl ⟨rfl, runs_clz _ _⟩
  | .ctz _ _ => .inl ⟨rfl, runs_ctz _ _⟩
  | .brev _ _ => .inl ⟨rfl, runs_brev _ _⟩
  | .bfx _ _ _ => .inl ⟨rfl, runs_bfx _ _ _⟩
  | .bfi _ _ _ => .inl ⟨rfl, runs_bfi _ _ _⟩
  | .gfmul8 _ _ _ => .inl ⟨rfl, runs_gfmul8 _ _ _⟩
  | .clmul _ _ _ => .inl ⟨rfl, runs_clmul _ _ _⟩
  | .clmulh _ _ _ => .inl ⟨rfl, runs_clmulh _ _ _⟩
  | .byteperm _ _ _ => .inl ⟨rfl, runs_byteperm _ _ _⟩
  | .rcp _ _ => .inl ⟨rfl, runs_rcp _ _⟩
  | .rsq _ _ => .inl ⟨rfl, runs_rsq _ _⟩
  | .sqrt _ _ => .inl ⟨rfl, runs_sqrt _ _⟩
  | .exp2 _ _ => .inl ⟨rfl, runs_exp2 _ _⟩
  | .log2 _ _ => .inl ⟨rfl, runs_log2 _ _⟩
  | .sinpi _ _ => .inl ⟨rfl, runs_sinpi _ _⟩
  | .cospi _ _ => .inl ⟨rfl, runs_cospi _ _⟩
  | .tanh _ _ => .inl ⟨rfl, runs_tanh _ _⟩
  | .divf _ _ _ => .inl ⟨rfl, runs_divf _ _ _⟩
  | .ld8 _ _ _ => .inl ⟨rfl, runs_ld8 _ _ _⟩
  | .ld16 _ _ _ => .inl ⟨rfl, runs_ld16 _ _ _⟩
  | .ld32 _ _ _ => .inl ⟨rfl, runs_ld32 _ _ _⟩
  | .ld64 _ _ _ => .inl ⟨rfl, runs_ld64 _ _ _⟩
  | .st8 _ _ _ => .inl ⟨rfl, runs_st8 _ _ _⟩
  | .st16 _ _ _ => .inl ⟨rfl, runs_st16 _ _ _⟩
  | .st32 _ _ _ => .inl ⟨rfl, runs_st32 _ _ _⟩
  | .st64 _ _ _ => .inl ⟨rfl, runs_st64 _ _ _⟩
  | .ldl _ _ _ => .inl ⟨rfl, runs_ldl _ _ _⟩
  | .stl _ _ _ => .inl ⟨rfl, runs_stl _ _ _⟩
  | .sld _ _ _ _ => .inl ⟨rfl, runs_sld _ _ _ _⟩
  | .sst _ _ _ _ => .inl ⟨rfl, runs_sst _ _ _ _⟩
  | .nld _ _ _ _ => .inl ⟨rfl, runs_nld _ _ _ _⟩
  | .nst _ _ _ _ => .inl ⟨rfl, runs_nst _ _ _ _⟩
  | .wld _ _ _ => .inl ⟨rfl, runs_wld _ _ _⟩
  | .cstr _ _ _ => .inl ⟨rfl, runs_cstr _ _ _⟩
  | .xld _ _ _ => .inl ⟨rfl, runs_xld _ _ _⟩
  | .tld _ _ _ _ => .inl ⟨rfl, runs_tld _ _ _ _⟩
  | .tst _ _ _ _ => .inl ⟨rfl, runs_tst _ _ _ _⟩
  | .pref _ _ => .inl ⟨rfl, runs_pref _ _⟩
  | .sealRegion _ _ => .inl ⟨rfl, runs_sealRegion _ _⟩
  | .unsealRegion _ _ => .inl ⟨rfl, runs_unsealRegion _ _⟩
  | .fence _ => .inl ⟨rfl, runs_fence _⟩
  | .xfence _ _ => .inl ⟨rfl, runs_xfence _ _⟩
  | .pin _ _ => .inl ⟨rfl, runs_pin _ _⟩
  | .unpin _ _ => .inl ⟨rfl, runs_unpin _ _⟩
  | .cinv _ _ => .inl ⟨rfl, runs_cinv _ _⟩
  | .cwb _ _ => .inl ⟨rfl, runs_cwb _ _⟩
  | .ldacq _ _ _ _ => .inl ⟨rfl, runs_ldacq _ _ _ _⟩
  | .strel _ _ _ _ => .inl ⟨rfl, runs_strel _ _ _ _⟩
  | .aadd _ _ _ _ => .inl ⟨rfl, runs_aadd _ _ _ _⟩
  | .amin _ _ _ _ => .inl ⟨rfl, runs_amin _ _ _ _⟩
  | .amax _ _ _ _ => .inl ⟨rfl, runs_amax _ _ _ _⟩
  | .aand _ _ _ _ => .inl ⟨rfl, runs_aand _ _ _ _⟩
  | .aor _ _ _ _ => .inl ⟨rfl, runs_aor _ _ _ _⟩
  | .axor _ _ _ _ => .inl ⟨rfl, runs_axor _ _ _ _⟩
  | .aswp _ _ _ _ => .inl ⟨rfl, runs_aswp _ _ _ _⟩
  | .acas _ _ _ _ => .inl ⟨rfl, runs_acas _ _ _ _⟩
  | .afadd _ _ _ _ => .inl ⟨rfl, runs_afadd _ _ _ _⟩
  | .axadd _ _ _ _ => .inl ⟨rfl, runs_axadd _ _ _ _⟩
  | .lres _ _ _ => .inl ⟨rfl, runs_lres _ _ _⟩
  | .scond _ _ _ _ => .inl ⟨rfl, runs_scond _ _ _ _⟩
  | .tbegin _ => .inl ⟨rfl, runs_tbegin _⟩
  | .tcommit _ => .inl ⟨rfl, runs_tcommit _⟩
  | .tabort _ => .inl ⟨rfl, runs_tabort _⟩
  | .tstat _ => .inl ⟨rfl, runs_tstat _⟩
  | .mfmt _ => .inl ⟨rfl, runs_mfmt _⟩
  | .mma _ _ _ => .inl ⟨rfl, runs_mma _ _ _⟩
  | .mmaz _ _ _ => .inl ⟨rfl, runs_mmaz _ _ _⟩
  | .mbatch _ => .inl ⟨rfl, runs_mbatch _⟩
  | .mwait _ => .inl ⟨rfl, runs_mwait _⟩
  | .mdrain _ _ _ => .inl ⟨rfl, runs_mdrain _ _ _⟩
  | .maccld _ _ => .inl ⟨rfl, runs_maccld _ _⟩
  | .mstage _ _ _ => .inl ⟨rfl, runs_mstage _ _ _⟩
  | .mstat _ _ => .inl ⟨rfl, runs_mstat _ _⟩
  | .cpy _ _ => .inl ⟨rfl, runs_cpy _ _⟩
  | .cpyd _ _ => .inl ⟨rfl, runs_cpyd _ _⟩
  | .cpym _ _ => .inl ⟨rfl, runs_cpym _ _⟩
  | .cpymc _ _ => .inl ⟨rfl, runs_cpymc _ _⟩
  | .cpyn _ _ => .inl ⟨rfl, runs_cpyn _ _⟩
  | .halo _ _ _ => .inl ⟨rfl, runs_halo _ _ _⟩
  | .haloq _ _ => .inl ⟨rfl, runs_haloq _ _⟩
  | .evpop _ => .inl ⟨rfl, runs_evpop _⟩
  | .evpeek _ => .inl ⟨rfl, runs_evpeek _⟩
  | .wsld _ _ => .inl ⟨rfl, runs_wsld _ _⟩
  | .arm _ _ => .inl ⟨rfl, runs_arm _ _⟩
  | .disarm _ => .inl ⟨rfl, runs_disarm _⟩
  | .cpyx _ _ => .inl ⟨rfl, runs_cpyx _ _⟩
  | .wpush _ _ => .inl ⟨rfl, runs_wpush _ _⟩
  | .wpop _ => .inl ⟨rfl, runs_wpop _⟩
  | .wpopw _ => .inl ⟨rfl, runs_wpopw _⟩
  | .wdone => .inl ⟨rfl, runs_wdone⟩
  | .wfloor _ => .inl ⟨rfl, runs_wfloor _⟩
  | .wstat _ => .inl ⟨rfl, runs_wstat _⟩
  | .ckrole _ => .inl ⟨rfl, runs_ckrole _⟩
  | .cksig _ _ => .inl ⟨rfl, runs_cksig _ _⟩
  | .tmark _ => .inl ⟨rfl, runs_tmark _⟩
  | .halt => .inl ⟨rfl, runs_halt⟩
  | .clkq _ => .inl ⟨rfl, runs_clkq _⟩
  | .pwload _ => .inl ⟨rfl, runs_pwload _⟩
  | .instructionComplete _ _ => .inr (.inr (happens_instructionComplete _ _))
  | .repIteration _ _ => .inr (.inr (happens_repIteration _ _))
  | .starvationOverride _ _ => .inr (.inr (happens_starvationOverride _ _))
  | .operandLogReplay _ _ => .inr (.inr (happens_operandLogReplay _ _))
  | .haltTrapDelivery _ _ => .inr (.inr (happens_haltTrapDelivery _ _))
  | .trackerDrain _ _ => .inr (.inr (happens_trackerDrain _ _))
  | .preemptBoundExpiry _ _ => .inr (.inr (happens_preemptBoundExpiry _ _))
  | .blockRestore _ _ _ => .inr (.inr (happens_blockRestore _ _ _))
  | .weightStoreRefresh => .inr (.inr happens_weightStoreRefresh)
  | .atomicPerformAtHome _ => .inr (.inr (happens_atomicPerformAtHome _))
  | .matrixGroupStart _ => .inr (.inr (happens_matrixGroupStart _))
  | .stageReadDone _ _ => .inr (.inr (happens_stageReadDone _ _))
  | .matrixGroupComplete _ _ => .inr (.inr (happens_matrixGroupComplete _ _))
  | .copyCommandExecute _ _ => .inr (.inr (happens_copyCommandExecute _ _))
  | .multicastDelivery _ _ _ => .inr (.inr (happens_multicastDelivery _ _ _))
  | .copyCommandEnd _ _ => .inr (.inr (happens_copyCommandEnd _ _))
  | .floorLowerRound _ _ => .inr (.inr (happens_floorLowerRound _ _))
  | .floorRaiseRound _ => .inr (.inr (happens_floorRaiseRound _))
  | .stealRequest _ _ => .inr (.inr (happens_stealRequest _ _))
  | .stolenTaskArrival _ _ => .inr (.inr (happens_stolenTaskArrival _ _))
  | .spillwayRefill _ _ => .inr (.inr (happens_spillwayRefill _ _))
  | .terminationTokenWave _ => .inr (.inr (happens_terminationTokenWave _))
  | .domainDown _ => .inr (.inr (happens_domainDown _))
  | .checkVote _ _ => .inr (.inr (happens_checkVote _ _))
  | .holdFullTimeout _ => .inr (.inr (happens_holdFullTimeout _))
  | .demeritDecay _ => .inr (.inr (happens_demeritDecay _))
  | .tlbMissWalk _ _ _ _ => .inr (.inr (happens_tlbMissWalk _ _ _ _))
  | .reclassification _ _ => .inr (.inr (happens_reclassification _ _))
  | .tlbInvalidateDone _ => .inr (.inr (happens_tlbInvalidateDone _))
  | .mapChangeFrozen _ => .inr (.inr (happens_mapChangeFrozen _))
  | .packetAdmit _ _ => .inr (.inr (happens_packetAdmit _ _))
  | .blockPlace _ => .inr (.inr (happens_blockPlace _))
  | .launchCompletion _ => .inr (.inr (happens_launchCompletion _))
  | .priorityAgeing _ _ => .inr (.inr (happens_priorityAgeing _ _))
  | .flrScrub _ => .inr (.inr (happens_flrScrub _))
  | .controlInterval _ _ => .inr (.inr (happens_controlInterval _ _))
  | .canopyMemberSilent _ => .inr (.inr (happens_canopyMemberSilent _))
  | .canopyMemberExpel _ => .inr (.inr (happens_canopyMemberExpel _))
  | .canopyHeartbeatSend => .inr (.inr happens_canopyHeartbeatSend)
  | .canopyCeilingChange => .inr (.inr happens_canopyCeilingChange)
  | .profileSample _ _ => .inr (.inr (happens_profileSample _ _))
  | .captureSnapshot _ => .inr (.inr (happens_captureSnapshot _))
  | .imageWriteComplete => .inr (.inr happens_imageWriteComplete)
  | .lifecycleWipeComplete => .inr (.inr happens_lifecycleWipeComplete)
  | .haltRequest _ => .inr (.inr (happens_haltRequest _))
  | .haloFaceReceive _ _ _ _ _ _ _ _ => .inr (.inr (happens_haloFaceReceive _ _ _ _ _ _ _ _))
  | .fabricLinkLoss _ => .inr (.inr (happens_fabricLinkLoss _))
  | .fqrespReplay _ _ => .inr (.inr (happens_fqrespReplay _ _))
  | .fqrespRefuse _ _ => .inr (.inr (happens_fqrespRefuse _ _))
  | .fqheadWrite _ _ => .inr (.inr (happens_fqheadWrite _ _))
  | .tlbinvRange _ _ => .inr (.inr (happens_tlbinvRange _ _))
  | .tlbinvAsid _ _ => .inr (.inr (happens_tlbinvAsid _ _))
  | .tlbinvFunction _ _ => .inr (.inr (happens_tlbinvFunction _ _))
  | .mapChange _ _ => .inr (.inr (happens_mapChange _ _))
  | .mapChangeForce _ _ => .inr (.inr (happens_mapChangeForce _ _))
  | .mapdone _ => .inr (.inr (happens_mapdone _))
  | .ctxCreate _ _ => .inr (.inr (happens_ctxCreate _ _))
  | .ctxDestroy _ _ => .inr (.inr (happens_ctxDestroy _ _))
  | .ctxReset _ _ => .inr (.inr (happens_ctxReset _ _))
  | .ctxPreempt _ _ _ => .inr (.inr (happens_ctxPreempt _ _ _))
  | .preemptevClear _ _ => .inr (.inr (happens_preemptevClear _ _))
  | .qwidxWrite _ _ _ => .inr (.inr (happens_qwidxWrite _ _ _))
  | .queueEnable _ _ _ => .inr (.inr (happens_queueEnable _ _ _))
  | .functionLevelReset _ => .inr (.inr (happens_functionLevelReset _))
  | .currentEmergency _ => .inr (.inr (happens_currentEmergency _))
  | .thermalTrip _ _ => .inr (.inr (happens_thermalTrip _ _))
  | .canopyHeartbeatReceive _ _ _ _ _ _ _ => .inr (.inr (happens_canopyHeartbeatReceive _ _ _ _ _ _ _))
  | .canopyJoin _ => .inr (.inr (happens_canopyJoin _))
  | .canopyLeave _ => .inr (.inr (happens_canopyLeave _))
  | .traceStopRequest _ _ => .inr (.inr (happens_traceStopRequest _ _))
  | .traceStopCancel _ _ => .inr (.inr (happens_traceStopCancel _ _))
  | .watchpointEnable _ _ _ => .inr (.inr (happens_watchpointEnable _ _ _))
  | .traceEnable _ _ => .inr (.inr (happens_traceEnable _ _))
  | .traceRingRead _ _ => .inr (.inr (happens_traceRingRead _ _))
  | .captureStart _ _ => .inr (.inr (happens_captureStart _ _))
  | .captureStop _ => .inr (.inr (happens_captureStop _))
  | .replayStart _ _ => .inr (.inr (happens_replayStart _ _))
  | .captureAbort _ => .inr (.inr (happens_captureAbort _))
  | .haloWindowEnable _ _ => .inr (.inr (happens_haloWindowEnable _ _))
  | .haloWindowDisable _ => .inr (.inr (happens_haloWindowDisable _))
  | .healthRequest => .inr (.inr happens_healthRequest)
  | .certRequest => .inr (.inr happens_certRequest)
  | .stateRequest => .inr (.inr happens_stateRequest)
  | .resetRequest => .inr (.inr happens_resetRequest)
  | .lifecycleRequest _ => .inr (.inr (happens_lifecycleRequest _))
  | .powerOn => .inr (.inr happens_powerOn)
  | .imageWrite => .inr (.inr happens_imageWrite)
  | .pciePeerDma _ _ _ _ => .inr (.inr (happens_pciePeerDma _ _ _ _))
  | .registerWrite _ _ _ _ _ => .inr (.inr (happens_registerWrite _ _ _ _ _))
  | .hostMemoryAccess _ _ _ _ => .inr (.inr (happens_hostMemoryAccess _ _ _ _))
  | .eccCorrection _ _ _ => .inr (.inr (happens_eccCorrection _ _ _))
  | .powerLoss => .inr (.inr happens_powerLoss)
  | .explicitFence _ => .inr (.inr (happens_explicitFence _))
  | .explicitUnfence _ => .inr (.inr (happens_explicitUnfence _))
  | .demeritThresholdSet _ => .inr (.inr (happens_demeritThresholdSet _))
  | .otherRequest _ => .inr (.inr (happens_otherRequest _))
theorem exec_next_of_issuer {s : State} (i : Instr) (h : (env? s).isSome = true) : ∃ t, exec i s = .next t := by
  obtain ⟨e, he⟩ := Option.isSome_iff_exists.mp h
  rcases runs_or_nop_or_happens i with ⟨-, body, hb⟩ | rfl | hh
  · rw [hb s]; exact runInstr_next he
  · exact runs_nop he
  · exact hh s

theorem exec_next_of_event {i : Instr} (h : encode i = none) (s : State) : ∃ t, exec i s = .next t := by
  rcases runs_or_nop_or_happens i with ⟨hs, -⟩ | rfl | hh
  · rw [h] at hs; cases hs
  · cases h
  · exact hh s

theorem exec_nop_noIssuer {s : State} (h : env? s = none) : exec .nop s = .refused .noIssuer := by
  change execNop s = _
  unfold execNop; rw [h]

/-- No meaning is a fault, with or without an issuer. -/
theorem exec_ne_fault (i : Instr) (s : State) (r : Fault) : exec i s ≠ .fault r := by
  have next_ne : (∃ t, exec i s = .next t) → exec i s ≠ .fault r := by
    rintro ⟨t, ht⟩ h; rw [ht] at h; cases h
  rcases runs_or_nop_or_happens i with ⟨-, body, hb⟩ | rfl | hh
  · rw [hb s]; exact runInstr_not_fault r
  · cases he : env? s with
    | none => rw [exec_nop_noIssuer he]; exact fun h => nomatch h
    | some e => exact next_ne (runs_nop he)
  · exact next_ne (hh s)

theorem settled_eq_fault_iff (o : Host.Outcome State Fault Refusal) (r : Fault) : settled o = .fault r ↔ o = .fault r := by
  cases o <;> simp [settled]

theorem decoded_ne_off (slot : Nat) (word literal : Word32) (s : State) : decoded slot word literal s ≠ .off := by
  unfold decoded; split <;> exact fun h => nomatch h

theorem pathAct_ne_off (s : State) (x : Seated) (l : Look) : pathAct s x l ≠ .off := by
  cases l with
  | ready ws =>
    dsimp only [pathAct]
    split
    · exact fun h => nomatch h
    · split
      · exact fun h => nomatch h
      · exact decoded_ne_off _ _ _ _
  | _ => exact fun h => nomatch h

theorem nextPath_ne_off (s : State) :
    (match nextAct s with
      | some (x, a) => pathAct s x a
      | none => Todo.go (tick s)) ≠ .off := by
  split
  · exact pathAct_ne_off _ _ _
  · exact fun h => nomatch h

/-- Without power a step waits for power to be applied, and does nothing else. -/
theorem powerlessAct_eq_off_iff (s : State) : powerlessAct s = .off ↔ Instr.powerOn ∉ s.inputs := by
  have h : Instr.powerOn ∉ s.inputs ↔ s.inputs.dropWhile (fun i => i != .powerOn) = [] := by
    rw [List.dropWhile_eq_nil_iff]
    constructor
    · intro hn i hi; simp only [bne_iff_ne]; rintro rfl; exact hn hi
    · intro ha hi; simpa using ha _ hi
  rw [h]
  unfold powerlessAct
  split <;> simp_all

theorem todo_eq_off_iff (s : State) : todo s = .off ↔ s.mgmt.powered = false ∧ Instr.powerOn ∉ s.inputs := by
  unfold todo
  cases hp : s.mgmt.powered with
  | false => simpa using powerlessAct_eq_off_iff s
  | true =>
    simp only [Bool.not_true, Bool.false_eq_true, if_false, Bool.true_eq_false, false_and, iff_false]
    split
    · exact decoded_ne_off _ _ _ _
    · split
      · exact fun h => nomatch h
      · split
        · split
          · exact fun h => nomatch h
          · exact nextPath_ne_off s
        · exact nextPath_ne_off s

/-- A step faults exactly when it finds the power off. -/
theorem step_eq_fault_iff (s : State) (r : Fault) : step s = .fault r ↔ r = .powerOff ∧ todo s = .off := by
  unfold step
  cases h : todo s with
  | run i t => simp [settled_eq_fault_iff, exec_ne_fault]
  | go t => simp [settled_eq_fault_iff]
  | off => simp

/-- Settles O5: each constructor's own law of how it runs, and a case split on what a step finds to do. -/
theorem everyInstructionAnswersAndOnlyPowerStops : Obligations.EveryInstructionAnswersAndOnlyPowerStops := by
  unfold Obligations.EveryInstructionAnswersAndOnlyPowerStops
  refine ⟨fun i s => ⟨exec_next_of_issuer i, fun h => exec_next_of_event h s⟩, fun s r => ?_⟩
  rw [step_eq_fault_iff, todo_eq_off_iff]

end Sys2Proof.Machine
end

section
/-! PROOF. Memory reads back what was written (O8): runs of bytes written, read and cleared, and the order of bytes (R4). -/

namespace Sys2Proof.Machine

/-- A byte after a run of bytes was written: the run's, or as before. -/
theorem readByte_writeBytes (m : List Host.Cell) (a b : Nat) (xs : List Byte) :
    readByte (writeBytes m a xs) b = if a ≤ b ∧ b < a + xs.length then xs.getD (b - a) 0 else readByte m b := by
  induction xs generalizing m a with
  | nil => simp [writeBytes]
  | cons x xs ih =>
    simp only [writeBytes, ih, readByte_writeByte, List.length_cons]
    by_cases hb : b = a
    · subst hb; simp
    · by_cases hin : a + 1 ≤ b ∧ b < a + 1 + xs.length
      · obtain ⟨k, hk⟩ : ∃ k, b - a = k + 1 := ⟨b - (a + 1), by omega⟩
        rw [if_pos hin, if_pos (by omega), hk, List.getD_cons_succ]
        congr 1; omega
      · rw [if_neg hin, if_neg hb, if_neg (by omega)]

theorem readByte_writeBytes_off {m : List Host.Cell} {a b : Nat} {xs : List Byte} (h : b < a ∨ a + xs.length ≤ b) :
    readByte (writeBytes m a xs) b = readByte m b := by
  rw [readByte_writeBytes, if_neg (by omega)]

theorem readByte_writeBytes_at {m : List Host.Cell} {a k : Nat} {xs : List Byte} (h : k < xs.length) :
    readByte (writeBytes m a xs) (a + k) = xs.getD k 0 := by
  rw [readByte_writeBytes, if_pos (by omega), Nat.add_sub_cancel_left]

@[simp] theorem length_readBytes (m : List Host.Cell) (a n : Nat) : (readBytes m a n).length = n := by
  induction n generalizing a with
  | zero => rfl
  | succ n ih => simp [readBytes, ih]

theorem getD_readBytes (m : List Host.Cell) (a n k : Nat) (h : k < n) : (readBytes m a n).getD k 0 = readByte m (a + k) := by
  induction n generalizing a k with
  | zero => omega
  | succ n ih =>
    cases k with
    | zero => rfl
    | succ k => rw [readBytes, List.getD_cons_succ, ih _ _ (by omega)]; congr 1; omega

/-- Lists of bytes of one length are equal when they agree at every place. -/
theorem bytes_ext {xs ys : List Byte} (hl : xs.length = ys.length) (h : ∀ k, k < xs.length → xs.getD k 0 = ys.getD k 0) :
    xs = ys := by
  refine List.ext_getElem hl fun k h1 h2 => ?_
  have := h k h1
  rwa [List.getD_eq_getElem _ _ h1, List.getD_eq_getElem _ _ h2] at this

theorem readBytes_writeBytes_same (m : List Host.Cell) (a : Nat) (xs : List Byte) :
    readBytes (writeBytes m a xs) a xs.length = xs := by
  refine bytes_ext (length_readBytes _ _ _) fun k hk => ?_
  rw [length_readBytes] at hk
  rw [getD_readBytes _ _ _ _ hk, readByte_writeBytes_at hk]

/-- A look-up in a map cut down by a test of its keys. -/
theorem mfind_filter_keys {α : Type} (m : SMap α) (p : Nat → Bool) (k : Nat) :
    mfind (m.filter fun e => p e.1) k = if p k = true then mfind m k else none := by
  induction m with
  | nil => simp [mfind]
  | cons e m ih =>
    obtain ⟨j, x⟩ := e
    by_cases hj : j = k
    · subst hj
      cases hp : p j <;> simp [mfind, hp, ih]
    · cases hp : p j <;> simp [mfind, hp, hj, ih]

theorem readByte_clearRange (m : List Host.Cell) (a n b : Nat) :
    readByte (clearRange m a n) b = if a ≤ b ∧ b < a + n then 0 else readByte m b := by
  unfold readByte mget clearRange
  rw [mfind_filter_keys m (fun k => !(decide (a ≤ k) && decide (k < a + n)))]
  by_cases h : a ≤ b ∧ b < a + n
  · simp [h, unwritten]
  · rw [if_neg h, if_pos (by simp only [Bool.not_eq_true', Bool.and_eq_false_iff, decide_eq_false_iff_not]; omega)]

theorem toNat_getD_leBytes (n x k : Nat) (h : k < n) : ((leBytes n x).getD k 0).toNat = x / 256 ^ k % 256 := by
  induction n generalizing x k with
  | zero => omega
  | succ n ih =>
    cases k with
    | zero => simp [leBytes]
    | succ k => rw [leBytes, List.getD_cons_succ, ih _ _ (by omega), Nat.div_div_eq_div_mul, Nat.pow_succ, Nat.mul_comm 256]

/-- Settles O8, from what one byte reads as after a run of bytes was written or cleared. -/
theorem memoryReadsBackLittleEndian : Obligations.MemoryReadsBackLittleEndian := by
  unfold Obligations.MemoryReadsBackLittleEndian
  refine ⟨fun m a xs n => ⟨readBytes_writeBytes_same m a xs, fun b => readByte_writeBytes_off, readByte_clearRange m a n,
    fun h => ⟨Memory.wf_writeBytes m a xs h, Memory.wf_clearRange m a n h⟩⟩, fun m a n x => ⟨?_, fun k hk => ?_⟩⟩
  · have h := readBytes_writeBytes_same m a (leBytes n x)
    rw [length_leBytes] at h
    rw [h, leNat_leBytes]
  · rw [readByte_writeBytes_at (by rwa [length_leBytes]), toNat_getD_leBytes n x k hk]

end Sys2Proof.Machine
end

section
/-! PROOF. Physical bytes as they are read coherently: what a line's dirty copy gives, and what a write outside the virtual
spaces leaves (R105, R108, R432). -/

namespace Sys2Proof.Machine

/-! ## A line's dirty copy -/

/-- The byte a dirty copy of a line gives at a physical address. -/
def L2Line.dirtyByte (l : L2Line) (q : Nat) : Option Byte :=
  (l.sectorAt q).bind fun x => if x.dirty then some (x.bytes.getD (q % 64) 0) else none

/-- A physical byte reads as the first dirty copy has it, or as DRAM. -/
theorem physByte_eq (s : State) (q : Nat) :
    physByte s q = (s.l2.findSome? fun l => l.dirtyByte q).getD (readByte s.dram q) := by
  unfold physByte
  change (match s.l2.findSome? fun l => l.dirtyByte q with | some x => x | none => readByte s.dram q) = _
  cases s.l2.findSome? fun l => l.dirtyByte q <;> rfl

/-- The copies of a line's sectors are 64 bytes, and a dirty one lies in the line's frame. -/
def L2Line.fits (l : L2Line) : Prop :=
  ∀ x ∈ l.sectors, x.2.bytes.length = 64 ∧ (x.2.dirty = true → x.1 < 4 ∧ l.pa % 256 = 0)

theorem cachesWf_fits {s : State} (h : s.cachesWf) : ∀ l ∈ s.l2, l.fits := fun l hl => (h.2.1 l hl).2

theorem mem_of_mfind {α : Type} {m : SMap α} {k : Nat} {x : α} (h : mfind m k = some x) : (k, x) ∈ m := by
  induction m with
  | nil => cases h
  | cons e m ih =>
    obtain ⟨j, y⟩ := e
    simp only [mfind] at h
    split at h
    · rename_i hj; cases h; subst hj; exact .head _
    · exact .tail _ (ih h)

/-- A line holds a sector of a physical byte exactly when the byte is in its frame and the sector is among its own. -/
theorem sectorAt_eq_some_iff (l : L2Line) (q : Nat) (x : Sector) :
    l.sectorAt q = some x ↔ (l.pa ≤ q ∧ q < l.pa + 256) ∧ mfind l.sectors ((q - l.pa) / 64) = some x := by
  unfold L2Line.sectorAt; simp

theorem dirtyByte_eq_some_iff (l : L2Line) (q : Nat) (b : Byte) :
    l.dirtyByte q = some b ↔ ∃ x, l.sectorAt q = some x ∧ x.dirty = true ∧ x.bytes.getD (q % 64) 0 = b := by
  simp [L2Line.dirtyByte, Option.bind_eq_some_iff]

theorem putPhys_fits {l : L2Line} (h : l.fits) (pa : Nat) (x : Byte) : (l.putPhys pa x).fits := by
  unfold L2Line.putPhys
  split
  case h_2 => exact h
  case h_1 c hc =>
    obtain ⟨-, hf⟩ := (sectorAt_eq_some_iff _ _ _).mp hc
    intro e he
    rcases mem_mput _ _ _ _ he with rfl | he
    · simpa using h _ (mem_of_mfind hf)
    · exact h e he

/-- A sector's byte after one of its bytes is set. -/
theorem getD_set_mod (bs : List Byte) (hl : bs.length = 64) (a q : Nat) (x : Byte) :
    (bs.set (a % 64) x).getD (q % 64) 0 = if q % 64 = a % 64 then x else bs.getD (q % 64) 0 := by
  have hq : q % 64 < bs.length := by omega
  rw [List.getD_eq_getElem _ _ (by simpa using hq), List.getElem_set, List.getD_eq_getElem _ _ hq]
  simp only [eq_comm]

/-- A byte put into a line's copy changes that byte of its dirty copy alone. -/
theorem dirtyByte_putPhys {l : L2Line} (h : l.fits) (pa : Nat) (x : Byte) (q : Nat) :
    (l.putPhys pa x).dirtyByte q = if q = pa then (l.dirtyByte pa).map (fun _ => x) else l.dirtyByte q := by
  unfold L2Line.putPhys
  split
  case h_2 hn =>
    split
    · rename_i hq; subst hq; simp [L2Line.dirtyByte, hn]
    · rfl
  case h_1 c hc =>
    obtain ⟨⟨hlo, hhi⟩, hf⟩ := (sectorAt_eq_some_iff _ _ _).mp hc
    obtain ⟨hlen, hdirty⟩ := h _ (mem_of_mfind hf)
    dsimp only at hlen hdirty
    have hpa : l.dirtyByte pa = if c.dirty then some (c.bytes.getD (pa % 64) 0) else none := by
      simp [L2Line.dirtyByte, hc]
    by_cases hin : (l.pa ≤ q ∧ q < l.pa + 256) ∧ (q - l.pa) / 64 = (pa - l.pa) / 64
    · obtain ⟨⟨hlo', hhi'⟩, hk⟩ := hin
      simp only [L2Line.dirtyByte, L2Line.sectorAt, mfind_mput, hk, hlo, hhi, hlo', hhi', hf]
      cases hd : c.dirty with
      | false => simp [hd]
      | true =>
        obtain ⟨-, hal⟩ := hdirty hd
        have hiff : q % 64 = pa % 64 ↔ q = pa := by omega
        simp only [hd, getD_set_mod _ hlen, hiff, Option.bind_some, decide_true, Bool.and_self, if_true, Option.map_some]
        split <;> rfl
    · have hne : q ≠ pa := by rintro rfl; exact hin ⟨⟨hlo, hhi⟩, rfl⟩
      rw [if_neg hne]
      by_cases hr : l.pa ≤ q ∧ q < l.pa + 256
      · have hk : ¬ (q - l.pa) / 64 = (pa - l.pa) / 64 := fun hk => hin ⟨hr, hk⟩
        simp [L2Line.dirtyByte, L2Line.sectorAt, mfind_mput, hk]
      · have hr' : ¬ (decide (l.pa ≤ q) && decide (q < l.pa + 256)) = true := by simpa using hr
        simp [L2Line.dirtyByte, L2Line.sectorAt, hr']

/-! ## A write outside the virtual spaces -/

theorem findSome?_congr {α β : Type} {xs : List α} {f g : α → Option β} (h : ∀ x ∈ xs, f x = g x) :
    xs.findSome? f = xs.findSome? g := by
  induction xs with
  | nil => rfl
  | cons x xs ih =>
    rw [List.findSome?_cons, List.findSome?_cons, h x (.head _), ih fun y hy => h y (.tail _ hy)]

theorem findSome?_map_some {α β : Type} (xs : List α) (f : α → Option β) (y : β) :
    xs.findSome? (fun a => (f a).map fun _ => y) = (xs.findSome? f).map fun _ => y := by
  induction xs with
  | nil => rfl
  | cons x xs ih =>
    simp only [List.findSome?_cons, ih]
    cases f x <;> rfl

/-- One byte written by an agent outside the virtual spaces reads back, and every other stands. -/
theorem physByte_writePhys {s : State} (h : ∀ l ∈ s.l2, l.fits) (pa : Nat) (x : Byte) (q : Nat) :
    physByte (writePhys s pa [x]) q = if q = pa then x else physByte s q := by
  have hl2 : (writePhys s pa [x]).l2 = s.l2.map fun l => l.putPhys pa x := rfl
  have hdram : (writePhys s pa [x]).dram = writeByte s.dram pa x := rfl
  have hlines : (s.l2.map fun l => l.putPhys pa x).findSome? (fun l => l.dirtyByte q) =
      s.l2.findSome? fun l => if q = pa then (l.dirtyByte pa).map (fun _ => x) else l.dirtyByte q := by
    rw [List.findSome?_map]
    exact findSome?_congr fun l hl => dirtyByte_putPhys (h l hl) pa x q
  rw [physByte_eq, physByte_eq, hl2, hdram, readByte_writeByte, hlines]
  split
  · rw [findSome?_map_some]
    cases s.l2.findSome? fun l => l.dirtyByte pa <;> rfl
  · rfl

theorem writePhys_fits {s : State} (h : ∀ l ∈ s.l2, l.fits) (pa : Nat) (x : Byte) : ∀ l ∈ (writePhys s pa [x]).l2, l.fits := by
  intro l hl
  have hl2 : (writePhys s pa [x]).l2 = s.l2.map fun l => l.putPhys pa x := rfl
  rw [hl2, List.mem_map] at hl
  obtain ⟨m, hm, rfl⟩ := hl
  exact putPhys_fits (h m hm) pa x

/-- What a write by physical address leaves besides the bytes it writes. -/
structure OnlyPhysical (s t : State) : Prop where
  wf : Memory.wf s.dram = true → Memory.wf t.dram = true
  scratch : t.scratch = s.scratch
  weight : t.weight = s.weight
  ctxs : t.ctxs = s.ctxs
  fns : t.fns = s.fns

theorem OnlyPhysical.refl (s : State) : OnlyPhysical s s := ⟨id, rfl, rfl, rfl, rfl⟩

theorem OnlyPhysical.trans {s t u : State} (h1 : OnlyPhysical s t) (h2 : OnlyPhysical t u) : OnlyPhysical s u :=
  ⟨h2.wf ∘ h1.wf, h2.scratch.trans h1.scratch, h2.weight.trans h1.weight, h2.ctxs.trans h1.ctxs, h2.fns.trans h1.fns⟩

theorem writePhys_onlyPhysical (s : State) (pa : Nat) (x : Byte) : OnlyPhysical s (writePhys s pa [x]) :=
  ⟨Memory.wf_writeByte s.dram pa x, rfl, rfl, rfl, rfl⟩

/-- A sealed region maps the physical byte. -/
def State.sealsByte (s : State) (q : Nat) : Bool := s.seals.any fun x => sealedPhys s x q

theorem sealsByte_eq_false_iff (s : State) (q : Nat) : s.sealsByte q = false ↔ ∀ x ∈ s.seals, sealedPhys s x q = false := by
  simp [State.sealsByte]

/-- The first `n` bytes of a write by physical address: each unsealed one reads as written, and every other as before. -/
theorem writePhysical_prefix (s : State) (h : ∀ l ∈ s.l2, l.fits) (addr : Nat) (bytes : List Byte) (n : Nat) :
    let t := (List.range n).foldl (fun s' i =>
      if s.sealsByte (addr + i) = true then s' else writePhys s' (addr + i) [bytes.getD i 0]) s
    (∀ l ∈ t.l2, l.fits) ∧ OnlyPhysical s t ∧
      ∀ q, physByte t q = if (addr ≤ q ∧ q < addr + n) ∧ s.sealsByte q = false then bytes.getD (q - addr) 0
        else physByte s q := by
  induction n with
  | zero => exact ⟨h, .refl s, fun q => by simp⟩
  | succ n ih =>
    simp only [List.range_succ, List.foldl_append, List.foldl_cons, List.foldl_nil]
    generalize (List.range n).foldl _ s = t at ih ⊢
    obtain ⟨hfit, honly, hbyte⟩ := ih
    cases hs : s.sealsByte (addr + n) with
    | true =>
      rw [if_pos rfl]
      refine ⟨hfit, honly, fun q => ?_⟩
      rw [hbyte]
      by_cases hq : q = addr + n
      · subst hq; simp [hs]
      · have : (addr ≤ q ∧ q < addr + (n + 1)) ↔ (addr ≤ q ∧ q < addr + n) := by omega
        simp only [this]
    | false =>
      rw [if_neg Bool.false_ne_true]
      refine ⟨writePhys_fits hfit _ _, honly.trans (writePhys_onlyPhysical _ _ _), fun q => ?_⟩
      rw [physByte_writePhys hfit, hbyte]
      by_cases hq : q = addr + n
      · subst hq; simp [hs]
      · have : (addr ≤ q ∧ q < addr + (n + 1)) ↔ (addr ≤ q ∧ q < addr + n) := by omega
        simp only [if_neg hq, this]

theorem physByte_writePhysical {s : State} (h : ∀ l ∈ s.l2, l.fits) (addr : Nat) (bytes : List Byte) :
    OnlyPhysical s (writePhysical s addr bytes) ∧ ∀ q, physByte (writePhysical s addr bytes) q =
      if (addr ≤ q ∧ q < addr + bytes.length) ∧ s.sealsByte q = false then bytes.getD (q - addr) 0 else physByte s q :=
  (writePhysical_prefix s h addr bytes bytes.length).2

/-! ## The host's and PCIe peers' accesses -/

@[simp] theorem length_padTo (n : Nat) (bs : List Byte) : (padTo n bs).length = n := by
  simp [padTo]; omega

/-- Padding gives zero past the end of the data. -/
theorem getD_padTo {n k : Nat} (bs : List Byte) (h : k < n) : (padTo n bs).getD k 0 = bs.getD k 0 := by
  unfold padTo
  by_cases hk : k < bs.length
  · rw [List.getD_append _ _ _ _ (by simp; omega)]
    simp [List.getD_eq_getElem?_getD, h]
  · rw [List.getD_append_right _ _ _ _ (by simp; omega), List.getD_eq_default bs _ (by omega)]
    simp [List.getD_eq_getElem?_getD, List.getElem?_replicate]
    split <;> rfl

/-- The two ways the outside world reaches memory are one access by physical address (R105, R432). -/
theorem exec_outsideAccess (s : State) (write pcie : Bool) (addr len : Nat) (data : List Byte) :
    exec (if pcie then .pciePeerDma write addr len data else .hostMemoryAccess write addr len data) s =
      .next (if write && addr + len ≤ 2 ^ 48 then outsideWrite s { pcie := pcie, addr := addr, bytes := padTo len data }
        else s) := by
  cases pcie <;> rfl

theorem outsideWrite_met {s : State} {x : DmaWait}
    (h : pinnedPhys s (if x.pcie then .pcie else .host) x.addr x.bytes.length = true) :
    outsideWrite s x = { s with dmaWaiting := s.dmaWaiting ++ [x] } := by
  unfold outsideWrite; rw [if_pos h]

theorem outsideWrite_clear {s : State} {x : DmaWait}
    (h : pinnedPhys s (if x.pcie then .pcie else .host) x.addr x.bytes.length = false) :
    outsideWrite s x = writePhysical s x.addr x.bytes := by
  unfold outsideWrite; rw [if_neg (by rw [h]; exact Bool.false_ne_true)]

/-! ## The register windows -/

section Registers
variable (s : State) (v : Word)

theorem exec_registerWrite_ignored {win off size : Nat} (fn : Nat) (h : size ≠ 8 ∨ off % 8 ≠ 0 ∨ 3 ≤ win) :
    exec (.registerWrite win fn off size v) s = .next s := by
  change execRegisterWrite win fn off size v s = _
  unfold execRegisterWrite
  by_cases h8 : size ≠ 8 ∨ off % 8 ≠ 0
  · rw [if_pos (by simpa using h8)]
  · rw [if_neg (by simpa using h8)]
    match win, h with
    | win + 3, _ => rfl
    | 0, h => omega
    | 1, h => omega
    | 2, h => omega

/-- A write of the module window at an aligned offset. -/
theorem exec_registerWrite_module {off : Nat} (fn : Nat) (h : off % 8 = 0) :
    exec (.registerWrite 0 fn off 8 v) s = .next (writeModule s off v) := by
  change Host.Outcome.next (if 8 ≠ 8 || off % 8 ≠ 0 then s else writeModule s off v) = _
  rw [if_neg (by simp [h])]

theorem exec_registerWrite_pf {off : Nat} (fn : Nat) (h : off % 8 = 0) :
    exec (.registerWrite 1 fn off 8 v) s = .next (writePf s off v) := by
  change Host.Outcome.next (if 8 ≠ 8 || off % 8 ≠ 0 then s else writePf s off v) = _
  rw [if_neg (by simp [h])]

theorem exec_registerWrite_fn {off fn : Nat} (h : off % 8 = 0) (hf : fn < 16) :
    exec (.registerWrite 2 fn off 8 v) s = .next (writeFn s fn off v) := by
  change Host.Outcome.next (if 8 ≠ 8 || off % 8 ≠ 0 then s else if fn < 16 then writeFn s fn off v else s) = _
  rw [if_neg (by simp [h]), if_pos hf]

/-- There is no window for a function past the last. -/
theorem exec_registerWrite_noFn {fn : Nat} (off : Nat) (hf : 16 ≤ fn) : exec (.registerWrite 2 fn off 8 v) s = .next s := by
  change Host.Outcome.next (if 8 ≠ 8 || off % 8 ≠ 0 then s else if fn < 16 then writeFn s fn off v else s) = _
  rw [if_neg (by omega : ¬ fn < 16), ite_self]

theorem writeModule_grovectl {g : Nat} (h : g < 128) :
    writeModule s (0x100 + 8 * g) v = setPowerReg s (0x100 + 8 * g) 5 (v.toNat % 16) := by
  unfold writeModule plimitOff gbudhiOff gbudloOff thwarnOff thtripOff grovectlOff Config.groves
  rw [if_neg (by omega), if_neg (by omega), if_neg (by omega), if_neg (by omega), if_neg (by omega),
    if_pos (by simp; omega)]
  simp [bits]

theorem writePf_asids {k : Nat} (h : k < 16) : writePf s (0x40 * k + 8) v =
    if (s.func k).enable then s else s.setFunc k
      { s.func k with asidFirst := v.toNat % 2 ^ 16, asidCount := v.toNat / 2 ^ 16 % 2 ^ 16 } := by
  have hk : (0x40 * k + 8) / 0x40 = k := by omega
  unfold writePf
  rw [if_neg (by omega), hk, if_neg (by omega), if_neg (by omega), if_pos (by omega)]
  simp [bits]

theorem writeFn_watch (k : Nat) {w : Nat} (h : w < 8) : writeFn s k (0x268 + 0x10 * w) v = writeWpctl s k w v := by
  have hw : (0x268 + 0x10 * w - 0x260) / 0x10 = w := by omega
  unfold writeFn
  rw [if_neg (by simp; omega), if_pos (by simp; omega), hw, if_neg (by omega)]

end Registers

/-- Settles O58: a write by physical address byte by byte, and the register windows offset by offset. -/
theorem hostAccessesAndRegisters : Obligations.HostAccessesAndRegisters := by
  unfold Obligations.HostAccessesAndRegisters
  refine ⟨fun s write pcie addr len data => ?_, fun s v => ?_⟩
  · dsimp only
    rw [exec_outsideAccess]
    have hlen := length_padTo len data
    refine ⟨fun h => ?_, fun hw hr hm => ⟨padTo len data, fun k => getD_padTo data, hlen, ?_⟩, fun hw hr hm hc => ⟨_, rfl, ?_⟩⟩
    · rw [if_neg (by rcases h with rfl | h <;> simp; omega)]
    · rw [if_pos (by simpa [hw] using hr), outsideWrite_met (by rw [hlen]; exact hm)]
    · rw [if_pos (by simpa [hw] using hr), outsideWrite_clear (by rw [hlen]; exact hm)]
      obtain ⟨honly, hbyte⟩ := physByte_writePhysical (cachesWf_fits hc) addr (padTo len data)
      refine ⟨fun q => ?_, honly.wf, honly.scratch, honly.weight, honly.ctxs, honly.fns⟩
      simp only [hbyte, hlen, sealsByte_eq_false_iff, and_assoc]
      split
      · rename_i hq; rw [getD_padTo data (by omega)]
      · rfl
  · dsimp only
    refine ⟨fun win fn off size => exec_registerWrite_ignored s v fn, fun fn off => exec_registerWrite_noFn s v off,
      exec_registerWrite_module s v 0 rfl, exec_registerWrite_module s v 0 rfl, exec_registerWrite_pf s v 0 rfl,
      exec_registerWrite_fn s v rfl (by decide), ?_, ?_, ?_, fun g hg => ?_, ?_,
      fun k hk => ⟨?_, ?_, ?_, ?_, ?_, ?_, ?_, ?_, fun w hw => ?_⟩⟩
    · exact (exec_registerWrite_module s v 0 rfl).trans (by simp [writeModule, plimitOff, bits])
    · exact (exec_registerWrite_module s v 0 rfl).trans (by simp [writeModule, plimitOff, gbudhiOff, bits])
    · exact (exec_registerWrite_module s v 0 rfl).trans
        (by simp [writeModule, plimitOff, gbudhiOff, gbudloOff, thwarnOff, thtripOff, bits])
    · rw [exec_registerWrite_module s v 0 (by omega), writeModule_grovectl s v hg]
    · exact (exec_registerWrite_pf s v 0 rfl).trans (by simp [writePf, bits])
    · rw [exec_registerWrite_pf s v 0 (by omega), writePf_asids s v hk]
    · exact (exec_registerWrite_fn s v rfl hk).trans (by simp [writeFn, bits])
    · exact (exec_registerWrite_fn s v rfl hk).trans (by simp [writeFn, bits])
    · exact exec_registerWrite_fn s v rfl hk
    · exact exec_registerWrite_fn s v rfl hk
    · exact exec_registerWrite_fn s v rfl hk
    · exact exec_registerWrite_fn s v rfl hk
    · exact (exec_registerWrite_fn s v rfl hk).trans (by simp [writeFn, bits])
    · rw [exec_registerWrite_fn s v (by omega) hk, writeFn_watch s v k hw]; rfl

end Sys2Proof.Machine
end

section
/-! PROOF. Reaching memory moves bytes between DRAM and the caches and changes no byte as it is read (R20, R372 to R382): an
invariant of the L2's lines that every translation keeps. -/

namespace Sys2Proof.Machine

/-! ## What a movement of lines leaves -/

/-- A wave but for its reservation. -/
def Wave.unreserved (w : Wave) : Wave := { w with reservation := none }

/-- `t` is `s` with lines, tags, TLB entries and classes moved: nothing else of the state is changed but reservations. -/
structure LinesMoved (s t : State) : Prop where
  frame : t = { s.withCaches t with waves := t.waves }
  waves : t.waves.map Wave.unreserved = s.waves.map Wave.unreserved

/-- Lines are moved, and with the L2 in form every physical byte reads as before and the L2 stays in form. -/
structure CacheMove (s t : State) : Prop extends LinesMoved s t where
  bytes : s.cachesWf → t.cachesWf ∧ ∀ q, physByte t q = physByte s q

section
variable {s t u : State}

theorem LinesMoved.refl (s : State) : LinesMoved s s := ⟨rfl, rfl⟩

theorem LinesMoved.trans (h1 : LinesMoved s t) (h2 : LinesMoved t u) : LinesMoved s u :=
  ⟨by rw [h2.frame, h1.frame]; rfl, h2.waves.trans h1.waves⟩

theorem CacheMove.refl (s : State) : CacheMove s s := ⟨.refl s, fun h => ⟨h, fun _ => rfl⟩⟩

theorem CacheMove.trans (h1 : CacheMove s t) (h2 : CacheMove t u) : CacheMove s u := by
  refine ⟨h1.toLinesMoved.trans h2.toLinesMoved, fun hs => ?_⟩
  obtain ⟨ht, hb⟩ := h1.bytes hs
  obtain ⟨hu, hc⟩ := h2.bytes ht
  exact ⟨hu, fun q => (hc q).trans (hb q)⟩

/-- A movement that leaves DRAM and the L2's lines as they are. -/
theorem LinesMoved.cacheMove (h : LinesMoved s t) (hl : t.l2 = s.l2) (hd : t.dram = s.dram) : CacheMove s t := by
  refine ⟨h, fun hs => ⟨?_, fun q => ?_⟩⟩
  · unfold State.cachesWf; rw [hl]; exact hs
  · unfold physByte; rw [hl, hd]

theorem LinesMoved.scratch (h : LinesMoved s t) : t.scratch = s.scratch := by rw [h.frame]; rfl
theorem LinesMoved.weight (h : LinesMoved s t) : t.weight = s.weight := by rw [h.frame]; rfl
theorem LinesMoved.cores (h : LinesMoved s t) : t.cores = s.cores := by rw [h.frame]; rfl
theorem LinesMoved.ctxs (h : LinesMoved s t) : t.ctxs = s.ctxs := by rw [h.frame]; rfl

end

/-! ## Lines and their tags -/

theorem line?_eq_some {s : State} {asid line : Nat} {l : L2Line} (h : s.line? asid line = some l) :
    l ∈ s.l2 ∧ l.asid = asid ∧ l.line = line := by
  have := List.find?_some h
  simp only [Bool.and_eq_true, beq_iff_eq] at this
  exact ⟨List.mem_of_find?_eq_some h, this⟩

theorem line?_eq_none {s : State} {asid line : Nat} (h : s.line? asid line = none) :
    ∀ l ∈ s.l2, ¬ (l.asid = asid ∧ l.line = line) := by
  intro l hl
  simpa using List.find?_eq_none.mp h l hl

theorem setLine_l2 (s : State) (l : L2Line) :
    (s.setLine l).l2 = s.l2.map fun x => if x.asid = l.asid ∧ x.line = l.line then l else x := by
  simp [State.setLine]

/-- With the L2 in form a tag has one line. -/
theorem cachesWf_tag {s : State} (h : s.cachesWf) {l m : L2Line} (hl : l ∈ s.l2) (hm : m ∈ s.l2)
    (ha : l.asid = m.asid) (hn : l.line = m.line) : l = m :=
  List.inj_on_of_nodup_map h.1 hl hm (by rw [ha, hn])

/-- With the L2 in form a physical byte has one dirty copy. -/
theorem dirtyByte_unique {s : State} (h : s.cachesWf) {l m : L2Line} (hl : l ∈ s.l2) (hm : m ∈ s.l2) {q : Nat} {b c : Byte}
    (hb : l.dirtyByte q = some b) (hc : m.dirtyByte q = some c) : l = m := by
  obtain ⟨x, hx, hxd, -⟩ := (dirtyByte_eq_some_iff _ _ _).mp hb
  obtain ⟨y, hy, hyd, -⟩ := (dirtyByte_eq_some_iff _ _ _).mp hc
  obtain ⟨hxr, hxf⟩ := (sectorAt_eq_some_iff _ _ _).mp hx
  obtain ⟨hyr, hyf⟩ := (sectorAt_eq_some_iff _ _ _).mp hy
  obtain ⟨-, hla⟩ := (cachesWf_fits h l hl _ (mem_of_mfind hxf)).2 hxd
  obtain ⟨-, hma⟩ := (cachesWf_fits h m hm _ (mem_of_mfind hyf)).2 hyd
  obtain ⟨ha, hn⟩ := h.2.2 l hl m hm _ (mem_of_mfind hxf) _ (mem_of_mfind hyf) hxd hyd (by dsimp only; omega)
  exact cachesWf_tag h hl hm ha hn

theorem physByte_of_dirtyByte {s : State} (h : s.cachesWf) {l : L2Line} (hl : l ∈ s.l2) {q : Nat} {b : Byte}
    (hb : l.dirtyByte q = some b) : physByte s q = b := by
  rw [physByte_eq]
  cases hf : s.l2.findSome? fun l => l.dirtyByte q with
  | none => have := List.findSome?_eq_none_iff.mp hf l hl; rw [this] at hb; cases hb
  | some c =>
    obtain ⟨m, hm, hc⟩ := List.exists_of_findSome?_eq_some hf
    have := dirtyByte_unique h hl hm hb hc
    subst this; rw [hb] at hc; cases hc; rfl

theorem dirtyByte_of_no_sectors {l : L2Line} (h : l.sectors = []) (q : Nat) : l.dirtyByte q = none := by
  simp [L2Line.dirtyByte, L2Line.sectorAt, h, mfind]

/-! ## The L2 stays in form -/

theorem cachesWf_of_sublist {s t : State} (h : s.cachesWf) (hs : t.l2.Sublist s.l2) : t.cachesWf :=
  ⟨h.1.sublist (hs.map _), fun l hl => h.2.1 l (hs.subset hl), fun l hl m hm => h.2.2 l (hs.subset hl) m (hs.subset hm)⟩

/-- A line may be put in another's place when it is in form itself, and dirty only where the other was. -/
structure Replaces (l l' : L2Line) : Prop where
  asid : l'.asid = l.asid
  line : l'.line = l.line
  nodup : (l'.sectors.map Prod.fst).Nodup
  fits : l'.fits
  dirty : ∀ x ∈ l'.sectors, x.2.dirty = true → l'.pa = l.pa ∧ ∃ y ∈ l.sectors, y.1 = x.1 ∧ y.2.dirty = true

theorem Replaces.self {s : State} (h : s.cachesWf) {l : L2Line} (hl : l ∈ s.l2) : Replaces l l :=
  ⟨rfl, rfl, (h.2.1 l hl).1, cachesWf_fits h l hl, fun x hx hd => ⟨rfl, x, hx, rfl, hd⟩⟩

theorem cachesWf_of_map {s t : State} (h : s.cachesWf) (g : L2Line → L2Line) (ht : t.l2 = s.l2.map g)
    (hg : ∀ l ∈ s.l2, Replaces l (g l)) : t.cachesWf := by
  unfold State.cachesWf
  rw [ht]
  refine ⟨?_, ?_, ?_⟩
  · have : (s.l2.map g).map (fun l => (l.asid, l.line)) = s.l2.map fun l => (l.asid, l.line) := by
      rw [List.map_map]
      exact List.map_congr_left fun l hl => by simp [(hg l hl).asid, (hg l hl).line]
    rw [this]; exact h.1
  · intro l hl
    obtain ⟨m, hm, rfl⟩ := List.mem_map.mp hl
    exact ⟨(hg m hm).nodup, (hg m hm).fits⟩
  · intro l' hl' m' hm' x hx y hy hxd hyd he
    obtain ⟨l, hl, rfl⟩ := List.mem_map.mp hl'
    obtain ⟨m, hm, rfl⟩ := List.mem_map.mp hm'
    obtain ⟨hlp, x', hx', hxk, hxd'⟩ := (hg l hl).dirty x hx hxd
    obtain ⟨hmp, y', hy', hyk, hyd'⟩ := (hg m hm).dirty y hy hyd
    rw [(hg l hl).asid, (hg l hl).line, (hg m hm).asid, (hg m hm).line]
    exact h.2.2 l hl m hm x' hx' y' hy' hxd' hyd' (by rw [hxk, hyk, ← hlp, ← hmp]; exact he)

/-- A line of a new tag, without sectors, joins the others. -/
theorem cachesWf_append {s t : State} (h : s.cachesWf) {l : L2Line} (ht : t.l2 = s.l2 ++ [l]) (hs : l.sectors = [])
    (hn : ∀ m ∈ s.l2, ¬ (m.asid = l.asid ∧ m.line = l.line)) : t.cachesWf := by
  unfold State.cachesWf
  rw [ht]
  refine ⟨?_, ?_, ?_⟩
  · rw [List.map_append, List.nodup_append]
    refine ⟨h.1, by simp, ?_⟩
    intro a ha b hb
    obtain ⟨m, hm, rfl⟩ := List.mem_map.mp ha
    simp only [List.map_cons, List.map_nil, List.mem_singleton] at hb
    subst hb
    exact fun he => hn m hm ⟨congrArg Prod.fst he, congrArg Prod.snd he⟩
  · intro m hm
    rcases List.mem_append.mp hm with hm | hm
    · exact h.2.1 m hm
    · rw [List.mem_singleton.mp hm, hs]; simp
  · intro a ha b hb x hx y hy
    have mem_old : ∀ m ∈ s.l2 ++ [l], ∀ z ∈ m.sectors, m ∈ s.l2 := by
      intro m hm z hz
      rcases List.mem_append.mp hm with hm | hm
      · exact hm
      · rw [List.mem_singleton.mp hm, hs] at hz; cases hz
    exact h.2.2 a (mem_old a ha x hx) b (mem_old b hb y hy) x hx y hy

/-- A line replaced in its place by one with the same dirty bytes changes no byte. -/
theorem setLine_bytes {s : State} (h : s.cachesWf) {l l' : L2Line} (hl : l ∈ s.l2) (hr : Replaces l l')
    (hd : ∀ q, l'.dirtyByte q = l.dirtyByte q) :
    (s.setLine l').cachesWf ∧ ∀ q, physByte (s.setLine l') q = physByte s q := by
  have old : ∀ x ∈ s.l2, x.asid = l'.asid ∧ x.line = l'.line → x = l := fun x hx ht =>
    cachesWf_tag h hx hl (ht.1.trans hr.asid) (ht.2.trans hr.line)
  constructor
  · refine cachesWf_of_map h _ (setLine_l2 s l') fun x hx => ?_
    split
    · rename_i ht; rw [old x hx ht]; exact hr
    · exact .self h hx
  · intro q
    have hdram : (s.setLine l').dram = s.dram := rfl
    rw [physByte_eq, physByte_eq, setLine_l2, hdram, List.findSome?_map]
    congr 1
    refine findSome?_congr fun x hx => ?_
    dsimp only [Function.comp]
    split
    · rename_i ht; rw [old x hx ht, hd]
    · rfl

theorem setLine_move {s : State} {l l' : L2Line} (hl : l ∈ s.l2) (hr : s.cachesWf → Replaces l l')
    (hd : ∀ q, l'.dirtyByte q = l.dirtyByte q) : CacheMove s (s.setLine l') :=
  ⟨⟨rfl, rfl⟩, fun h => setLine_bytes h hl (hr h) hd⟩

/-! ## Lines written back -/

/-- DRAM after a line's dirty sectors were written into it: their bytes, or as before. -/
theorem readByte_flushSectors (l : L2Line) (m : SMap Sector) (mem : List Host.Cell) (q : Nat) (hn : (m.map Prod.fst).Nodup)
    (hf : ({ l with sectors := m } : L2Line).fits) :
    readByte (flushSectors mem l.pa m) q = (({ l with sectors := m } : L2Line).dirtyByte q).getD (readByte mem q) := by
  induction m generalizing mem with
  | nil => rw [dirtyByte_of_no_sectors rfl]; rfl
  | cons e m ih =>
    obtain ⟨k, x⟩ := e
    rw [List.map_cons, List.nodup_cons] at hn
    obtain ⟨hlen, hdirty⟩ := hf (k, x) (.head _)
    dsimp only at hlen hdirty
    rw [flushSectors, ih _ hn.2 fun y hy => hf y (.tail _ hy)]
    by_cases hin : (l.pa ≤ q ∧ q < l.pa + 256) ∧ k = (q - l.pa) / 64
    · obtain ⟨⟨hlo, hhi⟩, hk⟩ := hin
      have hrest : mfind m ((q - l.pa) / 64) = none := by
        cases hm : mfind m ((q - l.pa) / 64) with
        | none => rfl
        | some y => exact absurd (List.mem_map_of_mem (mem_of_mfind hm)) (hk ▸ hn.1)
      cases hd : x.dirty with
      | false => simp [L2Line.dirtyByte, L2Line.sectorAt, mfind, hlo, hhi, hrest, hk, hd]
      | true =>
        obtain ⟨-, hal⟩ := hdirty hd
        have hq : readByte (writeBytes mem (l.pa + 64 * k) x.bytes) q = x.bytes.getD (q % 64) 0 := by
          rw [readByte_writeBytes, if_pos (by omega)]
          congr 1; omega
        rw [← hk] at hrest
        simp only [L2Line.dirtyByte, L2Line.sectorAt, mfind, hlo, hhi, hrest, ← hk, hd, hq, decide_true, Bool.and_self, if_true,
          Option.bind_none, Option.bind_some, Option.getD_none, Option.getD_some]
    · have hother : ({ l with sectors := (k, x) :: m } : L2Line).dirtyByte q =
          ({ l with sectors := m } : L2Line).dirtyByte q := by
        by_cases hr : l.pa ≤ q ∧ q < l.pa + 256
        · have hk : ¬ k = (q - l.pa) / 64 := fun hk => hin ⟨hr, hk⟩
          simp [L2Line.dirtyByte, L2Line.sectorAt, mfind, hk]
        · have hr' : ¬ (decide (l.pa ≤ q) && decide (q < l.pa + 256)) = true := by simpa using hr
          simp [L2Line.dirtyByte, L2Line.sectorAt, hr']
      rw [hother]
      congr 1
      split
      · rename_i hd
        obtain ⟨hk4, hal⟩ := hdirty hd
        rw [readByte_writeBytes_off (by omega)]
      · rfl

/-- A line's bytes written into DRAM, and its copies given up: every physical byte reads as before. -/
theorem physByte_flushed {s t : State} (h : s.cachesWf) {l : L2Line} (hl : l ∈ s.l2)
    (hd : t.dram = flushSectors s.dram l.pa l.sectors)
    (ht : ∀ q, t.l2.findSome? (fun m => m.dirtyByte q) =
      s.l2.findSome? fun m => if m.asid = l.asid ∧ m.line = l.line then none else m.dirtyByte q) (q : Nat) :
    physByte t q = physByte s q := by
  have same : ∀ m ∈ s.l2, m.asid = l.asid ∧ m.line = l.line → m = l := fun m hm he => cachesWf_tag h hm hl he.1 he.2
  rw [physByte_eq, ht, hd, readByte_flushSectors l l.sectors s.dram q (h.2.1 l hl).1 (cachesWf_fits h l hl)]
  change _ = physByte s q
  cases hb : l.dirtyByte q with
  | some b =>
    have hnone : (s.l2.findSome? fun m => if m.asid = l.asid ∧ m.line = l.line then none else m.dirtyByte q) = none := by
      refine List.findSome?_eq_none_iff.mpr fun m hm => ?_
      split
      · rfl
      · rename_i hne
        cases hc : m.dirtyByte q with
        | none => rfl
        | some c => exact absurd (by rw [dirtyByte_unique h hm hl hc hb]; exact ⟨rfl, rfl⟩) hne
    rw [hnone, physByte_of_dirtyByte h hl hb]; rfl
  | none =>
    rw [physByte_eq]
    congr 1
    · refine findSome?_congr fun m hm => ?_
      split
      · rename_i he; rw [same m hm he, hb]
      · rfl

theorem findSome?_filter_not {α β : Type} (xs : List α) (p : α → Prop) [DecidablePred p] (f : α → Option β) :
    (xs.filter fun x => !decide (p x)).findSome? f = xs.findSome? fun x => if p x then none else f x := by
  induction xs with
  | nil => rfl
  | cons x xs ih =>
    by_cases hx : p x <;> simp [hx, ih, List.findSome?_cons]

theorem clearReservations_waves (s : State) (x : Loc) :
    (clearReservations s x).waves.map Wave.unreserved = s.waves.map Wave.unreserved := by
  unfold clearReservations
  simp only [List.map_map]
  refine List.map_congr_left fun w _ => ?_
  dsimp only [Function.comp]
  split
  · split <;> rfl
  · rfl

theorem evictLine_l2 (s : State) (l : L2Line) :
    (evictLine s l).l2 = s.l2.filter fun x => !decide (x.asid = l.asid ∧ x.line = l.line) := by
  have : (evictLine s l).l2 = s.l2.filter fun x => !(x.asid == l.asid && x.line == l.line) := rfl
  rw [this]
  refine List.filter_congr fun x _ => ?_
  rw [Bool.decide_and]; rfl

theorem evictLine_linesMoved (s : State) (l : L2Line) : LinesMoved s (evictLine s l) := ⟨rfl, clearReservations_waves _ _⟩

theorem evictLine_move {s : State} {l : L2Line} (hl : l ∈ s.l2) : CacheMove s (evictLine s l) := by
  refine ⟨evictLine_linesMoved s l, fun h => ⟨cachesWf_of_sublist h (by rw [evictLine_l2]; exact List.filter_sublist), ?_⟩⟩
  refine physByte_flushed h hl rfl fun q => ?_
  rw [evictLine_l2, findSome?_filter_not]

/-- The lines after one of theirs was flushed: it keeps its place without its sectors, or is gone. -/
theorem flushLine_l2 (s : State) (l : L2Line) : (flushLine s l).l2 =
    if lineMarked s l.asid l.line then
      s.l2.map fun x => if x.asid = l.asid ∧ x.line = l.line then { l with sectors := [] } else x
    else s.l2.filter fun x => !decide (x.asid = l.asid ∧ x.line = l.line) := by
  unfold flushLine
  split
  · exact setLine_l2 { s with dram := _ } { l with sectors := [] }
  · exact evictLine_l2 s l

theorem flushLine_linesMoved (s : State) (l : L2Line) : LinesMoved s (flushLine s l) := by
  unfold flushLine
  split
  · exact ⟨rfl, rfl⟩
  · exact evictLine_linesMoved s l

theorem flushLine_dram (s : State) (l : L2Line) : (flushLine s l).dram = flushSectors s.dram l.pa l.sectors := by
  unfold flushLine
  split <;> rfl

theorem flushLine_move {s : State} {l : L2Line} (hl : l ∈ s.l2) : CacheMove s (flushLine s l) := by
  refine ⟨flushLine_linesMoved s l, fun h => ?_⟩
  have hl2 := flushLine_l2 s l
  split at hl2
  · refine ⟨cachesWf_of_map h _ hl2 fun x hx => ?_, physByte_flushed h hl (flushLine_dram s l) fun q => ?_⟩
    · split
      · rename_i he
        exact ⟨he.1.symm, he.2.symm, List.nodup_nil, fun y hy => (nomatch hy), fun y hy => (nomatch hy)⟩
      · exact .self h hx
    · rw [hl2, List.findSome?_map]
      refine findSome?_congr fun x _ => ?_
      dsimp only [Function.comp]
      split
      · exact dirtyByte_of_no_sectors rfl q
      · rfl
  · refine ⟨cachesWf_of_sublist h (by rw [hl2]; exact List.filter_sublist),
      physByte_flushed h hl (flushLine_dram s l) fun q => ?_⟩
    rw [hl2, findSome?_filter_not]

/-- A line of another tag stands when a line is flushed. -/
theorem mem_flushLine {s : State} {l m : L2Line} (hm : m ∈ s.l2) (hne : ¬ (m.asid = l.asid ∧ m.line = l.line)) :
    m ∈ (flushLine s l).l2 := by
  rw [flushLine_l2]
  split
  · exact List.mem_map.mpr ⟨m, hm, if_neg hne⟩
  · exact List.mem_filter.mpr ⟨hm, by simpa only [Bool.not_eq_true', decide_eq_false_iff_not] using hne⟩

/-- A flushed line that keeps its place holds no sector. -/
theorem line?_flushLine {s : State} {l l1 : L2Line} (h : (flushLine s l).line? l.asid l.line = some l1) :
    l1.sectors = [] := by
  obtain ⟨hm, ha, hn⟩ := line?_eq_some h
  rw [flushLine_l2] at hm
  split at hm
  · obtain ⟨x, -, rfl⟩ := List.mem_map.mp hm
    split
    · rfl
    · rename_i hne; rw [if_neg hne] at ha hn; exact absurd ⟨ha, hn⟩ hne
  · simp [ha, hn] at hm

theorem flushLines_linesMoved (ls : List L2Line) (s : State) : LinesMoved s (ls.foldl flushLine s) := by
  induction ls generalizing s with
  | nil => exact .refl s
  | cons l ls ih => exact (flushLine_linesMoved s l).trans (ih _)

theorem flushLines_move (ls : List L2Line) {s : State} (hl : ∀ l ∈ ls, l ∈ s.l2)
    (hn : (ls.map fun l => (l.asid, l.line)).Nodup) : CacheMove s (ls.foldl flushLine s) := by
  induction ls generalizing s with
  | nil => exact .refl s
  | cons l ls ih =>
    rw [List.map_cons, List.nodup_cons] at hn
    refine (flushLine_move (hl l (.head _))).trans (ih (fun m hm => mem_flushLine (hl m (.tail _ hm)) ?_) hn.2)
    rintro ⟨ha, hb⟩
    exact hn.1 (List.mem_map.mpr ⟨m, hm, by rw [ha, hb]⟩)

/-- With the L2 in form, its lines that meet a range are written back one after another. -/
theorem flushLinesIn_move (s : State) (asid base n : Nat) : CacheMove s ((linesIn s asid base n).foldl flushLine s) := by
  refine ⟨flushLines_linesMoved _ s, fun h => (flushLines_move _ (fun l hl => List.mem_of_mem_filter hl) ?_).bytes h⟩
  exact h.1.sublist (List.filter_sublist.map _)

end Sys2Proof.Machine
end

section
/-! PROOF. Fills, walks and translated accesses keep every byte as it is read (R20, R372 to R382). -/

namespace Sys2Proof.Machine

/-! ## Fills -/

theorem makeRoom_move {s s1 : State} {asid line : Nat} (h : makeRoom s asid line = some s1) :
    CacheMove s s1 ∧ s1.l2.Sublist s.l2 := by
  have evicted : ∀ cands : List L2Line, (∀ l ∈ cands, l ∈ s.l2) → evictOne s cands = some s1 →
      CacheMove s s1 ∧ s1.l2.Sublist s.l2 := by
    intro cands hc he
    obtain ⟨l, hl, rfl⟩ := Option.map_eq_some_iff.mp he
    have hm : l ∈ s.l2 := hc l (List.mem_of_getElem? hl)
    have hcount : CacheMove s { s with counter := s.counter + 1 } := LinesMoved.cacheMove ⟨rfl, rfl⟩ rfl rfl
    exact ⟨hcount.trans (evictLine_move hm), by rw [evictLine_l2]; exact List.filter_sublist⟩
  unfold makeRoom at h
  dsimp only at h
  split at h
  · exact evicted _ (fun l hl => List.mem_of_mem_filter (List.mem_of_mem_filter hl)) h
  · split at h
    · cases h; exact ⟨.refl s, List.Sublist.refl _⟩
    · exact evicted _ (fun l hl => List.mem_of_mem_filter (List.mem_of_mem_filter hl)) h

/-- A line of a new tag, without sectors, put behind the others. -/
theorem addLine_move {s : State} {l : L2Line} (hs : l.sectors = [])
    (hn : ∀ m ∈ s.l2, ¬ (m.asid = l.asid ∧ m.line = l.line)) : CacheMove s { s with l2 := s.l2 ++ [l] } := by
  refine ⟨⟨rfl, rfl⟩, fun h => ⟨cachesWf_append h rfl hs hn, fun q => ?_⟩⟩
  rw [physByte_eq, physByte_eq]
  change (List.findSome? _ (s.l2 ++ [l])).getD (readByte s.dram q) = _
  rw [List.findSome?_append]
  simp [dirtyByte_of_no_sectors hs]

/-- A line given a way of its set, where one can be had. -/
def freshLine (s : State) (asid line pa : Nat) (perms : LinePerms) : State :=
  match makeRoom s asid line with
  | none => s
  | some s1 => { s1 with l2 := s1.l2 ++ [{ asid := asid, line := line, pa := pa, perms := perms, sectors := [] }] }

theorem freshLine_move {s : State} {asid line : Nat} (pa : Nat) (perms : LinePerms) (h : s.line? asid line = none) :
    CacheMove s (freshLine s asid line pa perms) := by
  unfold freshLine
  split
  · exact .refl s
  · rename_i s1 hr
    obtain ⟨hm, hsub⟩ := makeRoom_move hr
    exact hm.trans (addLine_move rfl fun m hm => line?_eq_none h m (hsub.subset hm))

theorem fillLine_eq (s : State) (asid line pa : Nat) (perms : LinePerms) : fillLine s asid line pa perms =
    match s.line? asid line with
    | some l => if l.pa = pa then s.setLine { l with perms := perms } else
        (match (flushLine s l).line? asid line with
         | some l1 => (flushLine s l).setLine { l1 with pa := pa, perms := perms }
         | none => freshLine (flushLine s l) asid line pa perms)
    | none => freshLine s asid line pa perms := by
  unfold fillLine freshLine
  rfl

theorem fillLine_move (s : State) (asid line pa : Nat) (perms : LinePerms) : CacheMove s (fillLine s asid line pa perms) := by
  rw [fillLine_eq]
  cases hl : s.line? asid line with
  | none => exact freshLine_move pa perms hl
  | some l =>
    obtain ⟨hm, ha, hn⟩ := line?_eq_some hl
    dsimp only
    split
    · exact setLine_move hm (fun h => ⟨rfl, rfl, (h.2.1 l hm).1, cachesWf_fits h l hm, fun x hx hd => ⟨rfl, x, hx, rfl, hd⟩⟩)
        fun q => rfl
    · refine (flushLine_move hm).trans ?_
      cases hl1 : (flushLine s l).line? asid line with
      | none => exact freshLine_move pa perms hl1
      | some l1 =>
        have hs : l1.sectors = [] := by subst ha hn; exact line?_flushLine hl1
        refine setLine_move (line?_eq_some hl1).1 (fun _ => ?_) fun q => ?_
        · refine ⟨rfl, rfl, ?_, ?_, ?_⟩ <;> simp [hs, L2Line.fits]
        · rw [dirtyByte_of_no_sectors hs, dirtyByte_of_no_sectors (l := { l1 with pa := pa, perms := perms }) hs]

theorem mfind_ne_none {α : Type} {m : SMap α} {k : Nat} (h : k ∈ m.map Prod.fst) : mfind m k ≠ none := by
  induction m with
  | nil => cases h
  | cons e m ih =>
    obtain ⟨j, y⟩ := e
    simp only [mfind]
    split
    · exact Option.some_ne_none y
    · rename_i hj; exact ih ((List.mem_cons.mp h).resolve_left fun hk => hj hk.symm)

theorem map_fst_mput_of_none {α : Type} (m : SMap α) (k : Nat) (x : α) (h : mfind m k = none) :
    ((mput m k x).map Prod.fst).Perm (k :: m.map Prod.fst) := by
  induction m with
  | nil => exact .refl _
  | cons e m ih =>
    obtain ⟨j, y⟩ := e
    have hj : ¬ j = k := by rintro rfl; simp [mfind] at h
    simp only [mfind, if_neg hj] at h
    simp only [mput, if_neg hj]
    split
    · exact .refl _
    · exact ((ih h).cons j).trans (.swap k j _)

/-- Sectors fetched are clean and whole, and those the line holds stand. -/
structure Fetched (m m' : SMap Sector) : Prop where
  nodup : (m.map Prod.fst).Nodup → (m'.map Prod.fst).Nodup
  entries : ∀ e ∈ m', e ∈ m ∨ (e.2.dirty = false ∧ e.2.bytes.length = 64)
  found : ∀ k, mfind m' k = mfind m k ∨ (mfind m k = none ∧ ∃ x, mfind m' k = some x ∧ x.dirty = false)

theorem fetchSectors_fetched (mem : List Host.Cell) (pa k n : Nat) (m : SMap Sector) :
    Fetched m (fetchSectors mem pa k n m) := by
  induction n generalizing k m with
  | zero => exact ⟨id, fun e he => .inl he, fun k => .inl rfl⟩
  | succ n ih =>
    unfold fetchSectors
    cases hk : mfind m k with
    | some x => exact ih _ _
    | none =>
      obtain ⟨h1, h2, h3⟩ := ih (k + 1) (mput m k { bytes := readBytes mem (pa + 64 * k) 64, dirty := false })
      refine ⟨fun hn => h1 ?_, fun e he => ?_, fun j => ?_⟩
      · refine (map_fst_mput_of_none m k _ hk).nodup_iff.mpr (List.nodup_cons.mpr ⟨fun hmem => ?_, hn⟩)
        exact mfind_ne_none hmem hk
      · rcases h2 e he with h | h
        · rcases mem_mput _ _ _ _ h with rfl | h
          · exact .inr ⟨rfl, length_readBytes _ _ _⟩
          · exact .inl h
        · exact .inr h
      · have hj := h3 j
        rw [mfind_mput] at hj
        split at hj
        · rename_i hjk; subst hjk
          rcases hj with hj | ⟨hj, -⟩
          · exact .inr ⟨hk, _, hj, rfl⟩
          · cases hj
        · exact hj

theorem fetchRange_move (s : State) (asid va n : Nat) : CacheMove s (fetchRange s asid va n) := by
  unfold fetchRange
  cases hl : s.line? asid (va / 256) with
  | none => exact .refl s
  | some l =>
    obtain ⟨hm, -, -⟩ := line?_eq_some hl
    dsimp only
    have hf := fetchSectors_fetched s.dram l.pa (va % 256 / 64) ((va % 64 + n + 63) / 64) l.sectors
    generalize fetchSectors s.dram l.pa (va % 256 / 64) ((va % 64 + n + 63) / 64) l.sectors = m at hf
    refine setLine_move hm (fun h => ⟨rfl, rfl, hf.nodup (h.2.1 l hm).1, fun e he => ?_, fun e he hd => ?_⟩) fun q => ?_
    · rcases hf.entries e he with he | ⟨hc, hlen⟩
      · exact cachesWf_fits h l hm e he
      · exact ⟨hlen, fun hd => by rw [hc] at hd; cases hd⟩
    · rcases hf.entries e he with he | ⟨hc, -⟩
      · exact ⟨rfl, e, he, rfl, hd⟩
      · rw [hc] at hd; cases hd
    · by_cases hr : l.pa ≤ q ∧ q < l.pa + 256
      · rcases hf.found ((q - l.pa) / 64) with h | ⟨h, x, hx, hc⟩
        · simp [L2Line.dirtyByte, L2Line.sectorAt, h]
        · simp [L2Line.dirtyByte, L2Line.sectorAt, h, hx, hc]
      · have hr' : ¬ (decide (l.pa ≤ q) && decide (q < l.pa + 256)) = true := by simpa using hr
        simp [L2Line.dirtyByte, L2Line.sectorAt, hr']

/-! ## Walks -/

theorem walkRead_move (s : State) (pa : Nat) : CacheMove s (walkRead s pa).2 := by
  unfold walkRead
  refine CacheMove.trans ?_ (fetchRange_move _ _ _ _)
  split
  · exact .refl s
  · exact fillLine_move _ _ _ _ _

theorem walkFrom_move (tlb asid va : Nat) (n base : Nat) (s : State) : CacheMove s (walkFrom s tlb asid va n base).2 := by
  induction n generalizing s base with
  | zero => exact .refl s
  | succ n ih =>
    have hr := walkRead_move s (base + 8 * bits va (levelShift (3 - n)) (levelBits (3 - n)))
    unfold walkFrom
    dsimp only
    split
    · exact hr
    · split
      · exact hr
      · split
        · exact hr
        · exact hr.trans (ih _ _)

theorem translate_move (s : State) (asid va : Nat) : CacheMove s (translate s asid va).2 := by
  unfold translate
  dsimp only
  split
  · exact .refl s
  · split
    · exact .refl s
    · rename_i c _
      have hw := walkFrom_move (tlbOfSlice (homeSlice s asid va)) asid va 4 c.root s
      split
      · rename_i e s1 he
        rw [he] at hw
        split
        · exact hw
        · exact hw.trans (LinesMoved.cacheMove ⟨rfl, rfl⟩ rfl rfl)
      · exact hw

/-! ## Private and shared pages -/

theorem learnClass_move (s : State) (core : Nat) (r : ClassRec) : CacheMove s (learnClass s core r) := by
  unfold learnClass
  dsimp only
  split
  · exact .refl s
  · exact LinesMoved.cacheMove ⟨rfl, rfl⟩ rfl rfl

theorem reclassify_move (s : State) (asid page : Nat) : CacheMove s (reclassify s asid page) := by
  unfold reclassify
  split
  · exact .refl s
  · split
    · exact .refl s
    · refine (flushLinesIn_move s asid (65536 * page) 65536).trans (LinesMoved.cacheMove ⟨rfl, ?_⟩ rfl rfl)
      dsimp only
      rw [List.map_map]
      refine List.map_congr_left fun w _ => ?_
      dsimp only [Function.comp]
      split
      · split <;> rfl
      · rfl

theorem touchPage_move {s s1 : State} {asid va core : Nat} (h : touchPage s asid va core = some s1) : CacheMove s s1 := by
  unfold touchPage at h
  split at h
  · cases h
    refine CacheMove.trans ?_ (learnClass_move _ _ _)
    exact LinesMoved.cacheMove ⟨rfl, rfl⟩ rfl rfl
  · split at h
    · cases h; exact learnClass_move _ _ _
    · split at h
      · cases h
      · cases h
        refine (reclassify_move s asid (va / 65536)).trans ?_
        split
        · exact learnClass_move _ _ _
        · exact .refl _

theorem classStep_move {s s1 : State} {A : Actor} {va : Nat} (h : classStep s A va = some s1) : CacheMove s s1 := by
  unfold classStep at h
  split at h
  · exact touchPage_move h
  · cases h; exact .refl s

/-! ## Translated accesses -/

theorem fillL1_move (s : State) (x : L1Line) : CacheMove s (fillL1 s x) := by
  unfold fillL1
  split
  · exact .refl s
  · exact LinesMoved.cacheMove ⟨rfl, rfl⟩ rfl rfl

theorem keepL1_move (s : State) (A : Actor) (va : Nat) (k : AccKind) : CacheMove s (keepL1 s A va k) := by
  unfold keepL1
  split
  · split
    · exact fillL1_move _ _
    · exact .refl s
  · exact .refl s

theorem tlbAccess_move (s : State) (A : Actor) (va : Nat) (k : AccKind) : CacheMove s (tlbAccess s A va k).2.2 := by
  unfold tlbAccess
  split
  · exact .refl s
  · have ht := translate_move s A.asid va
    split
    · rename_i he; rw [he] at ht; exact ht
    · rename_i he; rw [he] at ht
      split <;> exact ht

/-- A translated access moves lines, whatever it comes to. -/
theorem xlate_move (s : State) (A : Actor) (va n : Nat) (k : AccKind) : CacheMove s (xlate s A va n k).2 := by
  unfold xlate
  split
  · split
    · exact .refl s
    · split
      · exact .refl s
      · split
        · exact .refl s
        · rename_i s1 hc
          exact (classStep_move hc).trans ((fetchRange_move _ _ _ _).trans (keepL1_move _ _ _ _))
  · have ht := tlbAccess_move s A va k
    split
    · rename_i he; rw [he] at ht
      split
      · exact ht
      · split
        · refine ht.trans ?_
          dsimp only
          split
          · rename_i hl; exact flushLine_move (line?_eq_some hl).1
          · exact .refl _
        · split
          · exact ht
          · rename_i s2 hc
            exact ht.trans ((classStep_move hc).trans
              ((fillLine_move _ _ _ _ _).trans ((fetchRange_move _ _ _ _).trans (keepL1_move _ _ _ _))))
    · rename_i he; rw [he] at ht; exact ht

theorem xlateParts_move (s : State) (A : Actor) (k : AccKind) (ps : List (Nat × Nat)) :
    CacheMove s (xlateParts s A k ps).2 := by
  induction ps generalizing s with
  | nil => exact .refl s
  | cons p ps ih =>
    obtain ⟨va, n⟩ := p
    have hx := xlate_move s A va n k
    unfold xlateParts
    split
    · rename_i he; rw [he] at hx; exact hx
    · rename_i he; rw [he] at hx; exact hx
    · rename_i he; rw [he] at hx; exact hx
    · rename_i s1 he; rw [he] at hx
      split
      · exact hx
      · have hr := hx.trans (ih s1)
        split
        · rename_i he2; rw [he2] at hr; exact hr
        · rename_i he2; rw [he2] at hr; exact hr

theorem xlateLanes_move (s : State) (w : Wave) (A : Actor) (form : AddrForm) (k : AccKind) (ls : List LaneAcc) :
    CacheMove s (xlateLanes s w A form k ls).2 := by
  induction ls generalizing s with
  | nil => exact .refl s
  | cons l ls ih =>
    unfold xlateLanes
    split
    · exact ih s
    · rename_i va _
      have hx := xlateParts_move s A k [(va, l.width)]
      split
      · rename_i he; rw [he] at hx; exact hx
      · rename_i s1 he; rw [he] at hx
        have hr := hx.trans (ih s1)
        dsimp only
        split
        · rename_i he2; rw [he2] at hr; exact hr
        · rename_i he2; rw [he2] at hr; exact hr
    · split
      · exact .refl s
      · have hr := ih s
        split
        · rename_i he2; rw [he2] at hr; exact hr
        · rename_i he2; rw [he2] at hr; exact hr

end Sys2Proof.Machine
end

section
/-! PROOF. What a store leaves in memory (R4, R214, R219): one byte under a tag, then the bytes of a lane, then the lanes'
stores in turn. -/

namespace Sys2Proof.Machine

/-! ## The sector behind an access under a tag -/

/-- The L2's copy of the sector of an address under a tag. -/
def State.hitSector (s : State) (asid va : Nat) : Option Sector :=
  (s.line? asid (va / 256)).bind fun l => mfind l.sectors (va % 256 / 64)

theorem taggedByte_eq (s : State) (asid va pa : Nat) : taggedByte s asid va pa =
    ((s.hitSector asid va).map fun x => x.bytes.getD (va % 64) 0).getD (readByte s.dram pa) := by
  unfold taggedByte
  change (match s.hitSector asid va with | some x => x.bytes.getD (va % 64) 0 | none => readByte s.dram pa) = _
  cases s.hitSector asid va <;> rfl

theorem taggedByte_congr {s t : State} (hl : t.l2 = s.l2) (hd : t.dram = s.dram) (asid va pa : Nat) :
    taggedByte t asid va pa = taggedByte s asid va pa := by
  unfold taggedByte State.line?; rw [hl, hd]

theorem line?_setLine (s : State) (l : L2Line) (asid line : Nat) : (s.setLine l).line? asid line =
    if asid = l.asid ∧ line = l.line then (s.line? asid line).map fun _ => l else s.line? asid line := by
  have htag : (fun y : L2Line => y.asid == asid && y.line == line) ∘
      (fun x => if x.asid = l.asid ∧ x.line = l.line then l else x) = fun y => y.asid == asid && y.line == line := by
    funext x
    dsimp only [Function.comp]
    split
    · rename_i he; rw [he.1, he.2]
    · rfl
  have hfind : (s.setLine l).line? asid line =
      (s.line? asid line).map fun x => if x.asid = l.asid ∧ x.line = l.line then l else x := by
    unfold State.line?
    rw [setLine_l2, List.find?_map, htag]
  rw [hfind]
  cases hl : s.line? asid line with
  | none => split <;> rfl
  | some x =>
    obtain ⟨-, rfl, rfl⟩ := line?_eq_some hl
    rw [Option.map_some]
    split <;> rfl

/-- A write at the channel controller drops lines of walks alone. -/
theorem line?_dropWalkLine (s : State) (pa : Nat) {asid : Nat} (h : asid ≠ 0) (line : Nat) :
    (dropWalkLine s pa).line? asid line = s.line? asid line := by
  simp only [State.line?, dropWalkLine, List.find?_filter]
  congr 1
  funext l
  by_cases hl : l.asid = asid
  · simp [hl, h, Bool.beq_eq_decide_eq]
  · simp [hl]

/-- The byte's sector written into, as a hit leaves it. -/
def Sector.put (c : Sector) (va : Nat) (x : Byte) : Sector := { bytes := c.bytes.set (va % 64) x, dirty := true }

theorem hitSector_writeTagged (s : State) (asid va pa : Nat) (x : Byte) {asid' : Nat} (h : asid' ≠ 0) (va' : Nat) :
    (writeTagged s asid va pa x).hitSector asid' va' =
      if asid' = asid ∧ va' / 64 = va / 64 then (s.hitSector asid va).map fun c => c.put va x
      else s.hitSector asid' va' := by
  have missed : s.hitSector asid va = none →
      (dropWalkLine { s with dram := writeByte s.dram pa x } pa).hitSector asid' va' =
        if asid' = asid ∧ va' / 64 = va / 64 then (s.hitSector asid va).map fun c => c.put va x
        else s.hitSector asid' va' := by
    intro hm
    have hl : (dropWalkLine { s with dram := writeByte s.dram pa x } pa).hitSector asid' va' = s.hitSector asid' va' := by
      unfold State.hitSector; rw [line?_dropWalkLine _ _ h]; rfl
    rw [hl]
    split
    · rename_i he
      obtain ⟨rfl, hs⟩ := he
      have h1 : va' / 256 = va / 256 := by omega
      have h2 : va' % 256 / 64 = va % 256 / 64 := by omega
      unfold State.hitSector at hm ⊢
      rw [h1, h2, hm]; rfl
    · rfl
  unfold writeTagged
  cases hl : s.line? asid (va / 256) with
  | none => exact missed (by unfold State.hitSector; rw [hl]; rfl)
  | some l =>
    obtain ⟨-, hla, hln⟩ := line?_eq_some hl
    dsimp only
    cases hc : mfind l.sectors (va % 256 / 64) with
    | none => exact missed (by unfold State.hitSector; rw [hl]; exact hc)
    | some c =>
      have hhit : s.hitSector asid va = some c := by unfold State.hitSector; rw [hl]; exact hc
      rw [hhit]
      unfold State.hitSector
      rw [line?_setLine]
      by_cases ht : asid' = asid ∧ va' / 256 = va / 256
      · obtain ⟨rfl, hv⟩ := ht
        dsimp only
        rw [if_pos ⟨hla.symm, hv.trans hln.symm⟩, hv, hl]
        simp only [Option.map_some, Option.bind_some, mfind_mput]
        by_cases hs : va' / 64 = va / 64
        · rw [if_pos (by omega), if_pos (by simpa using hs)]; rfl
        · rw [if_neg (by omega), if_neg (by simpa using hs)]
      · dsimp only
        rw [if_neg (by rw [hla, hln]; exact ht), if_neg (fun h => ht ⟨h.1, by omega⟩)]

theorem dram_writeTagged (s : State) (asid va pa : Nat) (x : Byte) : (writeTagged s asid va pa x).dram =
    if s.hitSector asid va = none then writeByte s.dram pa x else s.dram := by
  unfold writeTagged
  cases hl : s.line? asid (va / 256) with
  | none =>
    have hh : s.hitSector asid va = none := by unfold State.hitSector; rw [hl]; rfl
    rw [if_pos hh]; rfl
  | some l =>
    have hh : s.hitSector asid va = mfind l.sectors (va % 256 / 64) := by unfold State.hitSector; rw [hl]; rfl
    rw [hh]
    dsimp only
    cases mfind l.sectors (va % 256 / 64) <;> rfl

/-! ## One byte under a tag -/

/-- A byte of another address, in another place, stands when a byte is written. -/
theorem taggedByte_writeTagged_off (s : State) {asid va pa : Nat} (x : Byte) {asid' va' pa' : Nat} (h : asid' ≠ 0)
    (hv : asid' ≠ asid ∨ va' ≠ va) (hp : pa' ≠ pa) :
    taggedByte (writeTagged s asid va pa x) asid' va' pa' = taggedByte s asid' va' pa' := by
  have hdram : readByte (writeTagged s asid va pa x).dram pa' = readByte s.dram pa' := by
    rw [dram_writeTagged]
    split
    · rw [readByte_writeByte, if_neg hp]
    · rfl
  rw [taggedByte_eq, taggedByte_eq, hdram, hitSector_writeTagged s asid va pa x h]
  split
  · rename_i he
    obtain ⟨rfl, hs⟩ := he
    have hne : va' ≠ va := hv.resolve_left fun hn => hn rfl
    have hsame : s.hitSector asid' va' = s.hitSector asid' va := by
      have h1 : va' / 256 = va / 256 := by omega
      have h2 : va' % 256 / 64 = va % 256 / 64 := by omega
      unfold State.hitSector; rw [h1, h2]
    rw [hsame]
    cases s.hitSector asid' va with
    | none => rfl
    | some c =>
      have hm : ¬ va % 64 = va' % 64 := by omega
      simp [Sector.put, List.getElem?_set_ne hm]
  · rfl

/-- Every sector an address space's accesses hit is whole. -/
def State.sectorsWhole (s : State) (asid : Nat) : Prop := ∀ va c, s.hitSector asid va = some c → c.bytes.length = 64

theorem cachesWf_sectorsWhole {s : State} (h : s.cachesWf) (asid : Nat) : s.sectorsWhole asid := by
  intro va c hc
  obtain ⟨l, hl, hf⟩ := Option.bind_eq_some_iff.mp hc
  exact (cachesWf_fits h l (line?_eq_some hl).1 _ (mem_of_mfind hf)).1

theorem writeTagged_sectorsWhole {s : State} {asid : Nat} (ha : asid ≠ 0) (h : s.sectorsWhole asid) (asid' va pa : Nat)
    (x : Byte) : (writeTagged s asid' va pa x).sectorsWhole asid := by
  intro va' c hc
  rw [hitSector_writeTagged s asid' va pa x ha] at hc
  split at hc
  · rename_i he
    obtain ⟨rfl, -⟩ := he
    obtain ⟨d, hd, rfl⟩ := Option.map_eq_some_iff.mp hc
    simpa [Sector.put] using h va d hd
  · exact h va' c hc

/-- A byte written under a tag reads back. -/
theorem taggedByte_writeTagged_same {s : State} {asid : Nat} (ha : asid ≠ 0) (h : s.sectorsWhole asid) (va pa : Nat)
    (x : Byte) : taggedByte (writeTagged s asid va pa x) asid va pa = x := by
  rw [taggedByte_eq, hitSector_writeTagged s asid va pa x ha, if_pos ⟨rfl, rfl⟩, dram_writeTagged]
  cases hc : s.hitSector asid va with
  | none => simp [readByte_writeByte]
  | some c =>
    have hlen := h va c hc
    simp only [Option.map_some, Option.getD_some, Sector.put]
    rw [getD_set_mod _ hlen, if_pos rfl]

/-! ## Bytes under a tag -/

theorem taggedByte_writeTaggedBytes_off (xs : List Byte) (s : State) {asid va pa asid' va' pa' : Nat} (h : asid' ≠ 0)
    (hv : asid' ≠ asid ∨ va' < va ∨ va + xs.length ≤ va') (hp : pa' < pa ∨ pa + xs.length ≤ pa') :
    taggedByte (writeTaggedBytes s asid va pa xs) asid' va' pa' = taggedByte s asid' va' pa' := by
  induction xs generalizing s va pa with
  | nil => rfl
  | cons x xs ih =>
    rw [List.length_cons] at hv hp
    rw [writeTaggedBytes, ih _ (by omega) (by omega), taggedByte_writeTagged_off s x h (by omega) (by omega)]

theorem writeTaggedBytes_sectorsWhole {asid : Nat} (ha : asid ≠ 0) (xs : List Byte) {s : State} (h : s.sectorsWhole asid)
    (asid' va pa : Nat) : (writeTaggedBytes s asid' va pa xs).sectorsWhole asid := by
  induction xs generalizing s va pa with
  | nil => exact h
  | cons x xs ih => exact ih (writeTagged_sectorsWhole ha h _ _ _ _) _ _

theorem taggedByte_writeTaggedBytes_at {asid : Nat} (ha : asid ≠ 0) (xs : List Byte) {s : State} (h : s.sectorsWhole asid)
    (va pa : Nat) {k : Nat} (hk : k < xs.length) :
    taggedByte (writeTaggedBytes s asid va pa xs) asid (va + k) (pa + k) = xs.getD k 0 := by
  induction xs generalizing s va pa k with
  | nil => cases hk
  | cons x xs ih =>
    have hw := writeTagged_sectorsWhole ha h asid va pa x
    rw [writeTaggedBytes]
    cases k with
    | zero =>
      rw [taggedByte_writeTaggedBytes_off xs _ ha (by omega) (by omega)]
      exact taggedByte_writeTagged_same ha h va pa x
    | succ k =>
      have := ih hw (va + 1) (pa + 1) (Nat.lt_of_succ_lt_succ hk)
      rwa [Nat.add_right_comm, Nat.add_right_comm pa] at this

/-! ## What a store leaves besides the bytes it writes -/

/-- A wave but for its reservation, its guard report and the lines it wrote. -/
def Wave.bare (w : Wave) : Wave := { w with reservation := none, guardRep := none, dirty := [] }

/-- Two states hold the same waves but for what a performed access notes in them. -/
def SameWaves (s t : State) : Prop := t.waves.map Wave.bare = s.waves.map Wave.bare

theorem SameWaves.of_unreserved {s t : State} (h : t.waves.map Wave.unreserved = s.waves.map Wave.unreserved) :
    SameWaves s t := by
  have := congrArg (List.map Wave.bare) h
  rwa [List.map_map, List.map_map] at this

theorem SameWaves.modWave (s : State) (u : Nat) {f : Wave → Wave} (hf : ∀ w, (f w).bare = w.bare) :
    SameWaves s (s.modWave u f) := by
  unfold SameWaves
  rw [State.modWave_waves, List.map_map]
  refine List.map_congr_left fun w _ => ?_
  dsimp only [Function.comp]
  split
  · exact hf w
  · rfl

/-- A wave is found in both states, the same but for its notes. -/
theorem SameWaves.wave? {s t : State} (h : SameWaves s t) {u : Nat} {w : Wave} (hw : s.wave? u = some w) :
    ∃ w', t.wave? u = some w' ∧ w'.bare = w.bare := by
  have find_bare : ∀ r : State, (r.waves.map Wave.bare).find? (fun w => w.uid == u) = (r.wave? u).map Wave.bare :=
    fun r => List.find?_map ..
  have ht := find_bare t
  rw [h, find_bare s, hw] at ht
  obtain ⟨w', hw', he⟩ := Option.map_eq_some_iff.mp ht.symm
  exact ⟨w', hw', he⟩

/-- What no store of a lane touches: the weight store and the cores; and of the waves only their notes. -/
structure StoreFrame (s t : State) : Prop where
  weight : t.weight = s.weight
  cores : t.cores = s.cores
  waves : SameWaves s t

theorem StoreFrame.refl (s : State) : StoreFrame s s := ⟨rfl, rfl, rfl⟩

theorem StoreFrame.trans {s t u : State} (h1 : StoreFrame s t) (h2 : StoreFrame t u) : StoreFrame s u :=
  ⟨h2.weight.trans h1.weight, h2.cores.trans h1.cores, Eq.trans h2.waves h1.waves⟩

/-- A fold of steps that each keep a reflexive and transitive relation keeps it. -/
theorem foldl_rel {α : Type} {R : State → State → Prop} (refl : ∀ s, R s s) (trans : ∀ {s t u}, R s t → R t u → R s u)
    {g : State → α → State} (hg : ∀ s x, R s (g s x)) (xs : List α) (s : State) : R s (xs.foldl g s) := by
  induction xs generalizing s with
  | nil => exact refl s
  | cons x xs ih => exact trans (hg s x) (ih _)

/-- The two states hold the same bytes, in DRAM, the L2, the scratchpads and the weight store. -/
structure SameMemory (s t : State) : Prop where
  dram : t.dram = s.dram
  l2 : t.l2 = s.l2
  scratch : t.scratch = s.scratch
  weight : t.weight = s.weight

theorem SameMemory.refl (s : State) : SameMemory s s := ⟨rfl, rfl, rfl, rfl⟩

theorem SameMemory.trans {s t u : State} (h1 : SameMemory s t) (h2 : SameMemory t u) : SameMemory s u :=
  ⟨h2.dram.trans h1.dram, h2.l2.trans h1.l2, h2.scratch.trans h1.scratch, h2.weight.trans h1.weight⟩

theorem clearReservations_storeFrame (s : State) (x : Loc) : StoreFrame s (clearReservations s x) :=
  ⟨rfl, rfl, .of_unreserved (clearReservations_waves s x)⟩

theorem claimLines_sameMemory (A : Actor) (ls : List Nat) (s : State) :
    SameMemory s (ls.foldl (fun s l => claimLine s A l) s) :=
  foldl_rel SameMemory.refl SameMemory.trans (g := fun s l => claimLine s A l) (fun _ _ => ⟨rfl, rfl, rfl, rfl⟩) ls s

theorem claimLines_storeFrame (A : Actor) (ls : List Nat) (s : State) :
    StoreFrame s (ls.foldl (fun s l => claimLine s A l) s) :=
  foldl_rel StoreFrame.refl StoreFrame.trans (g := fun s l => claimLine s A l)
    (fun s _ => ⟨rfl, rfl, (clearReservations_storeFrame s _).waves⟩) ls s

/-- Bytes written under a tag touch the L2 and DRAM alone. -/
theorem writeTaggedBytes_only (xs : List Byte) (s : State) (asid va pa : Nat) :
    writeTaggedBytes s asid va pa xs = { s with
      dram := (writeTaggedBytes s asid va pa xs).dram, l2 := (writeTaggedBytes s asid va pa xs).l2 } := by
  induction xs generalizing s va pa with
  | nil => rfl
  | cons x xs ih =>
    have h1 : writeTagged s asid va pa x = { s with
        dram := (writeTagged s asid va pa x).dram, l2 := (writeTagged s asid va pa x).l2 } := by
      unfold writeTagged
      split
      · split <;> rfl
      · rfl
    rw [writeTaggedBytes, ih, h1]

/-- A held byte touches the run's versions alone. -/
theorem holdBytes_only (xs : List Byte) (s : State) (A : Actor) (keep : Bool) (va pa : Nat) :
    holdBytes s A keep va pa xs = { s with heldSectors := (holdBytes s A keep va pa xs).heldSectors } := by
  induction xs generalizing s va pa with
  | nil => rfl
  | cons x xs ih =>
    have h1 : holdByte s A keep va pa x = { s with heldSectors := (holdByte s A keep va pa x).heldSectors } := by
      unfold holdByte
      split <;> rfl
    rw [holdBytes, ih, h1]

end Sys2Proof.Machine
end

section
/-! PROOF. The lanes' stores in turn (R214, R219, R223), and what every performed access notes in its wave. -/

namespace Sys2Proof.Machine

/-! ## Global memory -/

theorem writeGlobal_committed {s : State} {A : Actor} (h : A.held = false) (va pa : Nat) (bytes : List Byte) :
    SameMemory (writeTaggedBytes s A.asid va pa bytes) (writeGlobal s A va pa bytes) := by
  unfold writeGlobal
  rw [h, if_neg Bool.false_ne_true]
  exact claimLines_sameMemory A _ _

theorem writeGlobal_held {s : State} {A : Actor} (h : A.held = true) (va pa : Nat) (bytes : List Byte) :
    SameMemory s (writeGlobal s A va pa bytes) := by
  unfold writeGlobal
  rw [if_pos h, holdBytes_only]
  exact ⟨rfl, rfl, rfl, rfl⟩

theorem writeGlobal_storeFrame (s : State) (A : Actor) (va pa : Nat) (bytes : List Byte) :
    StoreFrame s (writeGlobal s A va pa bytes) := by
  unfold writeGlobal
  split
  · rw [holdBytes_only]; exact ⟨rfl, rfl, rfl⟩
  · refine StoreFrame.trans ?_ (claimLines_storeFrame A _ _)
    rw [writeTaggedBytes_only]; exact ⟨rfl, rfl, rfl⟩

theorem writeGlobal_scratch (s : State) (A : Actor) (va pa : Nat) (bytes : List Byte) :
    (writeGlobal s A va pa bytes).scratch = s.scratch := by
  cases h : A.held with
  | true => exact (writeGlobal_held h va pa bytes).scratch
  | false => rw [(writeGlobal_committed h va pa bytes).scratch, writeTaggedBytes_only]

/-! ## Scratchpads -/

theorem scratchKey_add (core phys k : Nat) : scratchKey core phys + k = scratchKey core (phys + k) := by
  unfold scratchKey; omega

/-- Bytes written into a scratchpad touch the scratchpads alone. -/
theorem writeScratch_only (xs : List Byte) (s : State) (core phys : Nat) :
    writeScratch s core phys xs = { s with scratch := (writeScratch s core phys xs).scratch } := by
  induction xs generalizing s phys with
  | nil => rfl
  | cons x xs ih =>
    have h1 : (if guarded s core phys then s else { s with scratch := writeByte s.scratch (scratchKey core phys) x }) =
        { s with scratch := (if guarded s core phys then s else
            { s with scratch := writeByte s.scratch (scratchKey core phys) x }).scratch } := by
      split <;> rfl
    rw [writeScratch, ih, h1]

theorem guarded_congr {s t : State} (h : t.cores = s.cores) (core phys : Nat) : guarded t core phys = guarded s core phys := by
  unfold guarded State.core; rw [h]

theorem readByte_writeScratch_off (xs : List Byte) (s : State) {core phys q : Nat}
    (h : q < scratchKey core phys ∨ scratchKey core phys + xs.length ≤ q) :
    readByte (writeScratch s core phys xs).scratch q = readByte s.scratch q := by
  induction xs generalizing s phys with
  | nil => rfl
  | cons x xs ih =>
    rw [List.length_cons] at h
    have hk := scratchKey_add core phys 1
    rw [writeScratch, ih _ (by omega)]
    split
    · rfl
    · exact (readByte_writeByte _ _ _ _).trans (if_neg (by omega))

theorem readByte_writeScratch_at (xs : List Byte) (s : State) (core phys : Nat) {k : Nat} (h : k < xs.length) :
    readByte (writeScratch s core phys xs).scratch (scratchKey core (phys + k)) =
      if guarded s core (phys + k) then readByte s.scratch (scratchKey core (phys + k)) else xs.getD k 0 := by
  induction xs generalizing s phys k with
  | nil => cases h
  | cons x xs ih =>
    rw [writeScratch]
    generalize hs1 : (if guarded s core phys then s else
      { s with scratch := writeByte s.scratch (scratchKey core phys) x }) = s1
    have hcores : s1.cores = s.cores := by rw [← hs1]; split <;> rfl
    have hbyte : ∀ q, readByte s1.scratch q =
        if q = scratchKey core phys ∧ guarded s core phys = false then x else readByte s.scratch q := by
      intro q
      rw [← hs1]
      cases hg : guarded s core phys with
      | true => simp
      | false => simpa using readByte_writeByte s.scratch (scratchKey core phys) q x
    cases k with
    | zero =>
      have hk := scratchKey_add core phys 1
      rw [readByte_writeScratch_off xs s1 (by rw [Nat.add_zero]; omega), hbyte, Nat.add_zero]
      cases guarded s core phys <;> simp
    | succ k =>
      have hne : ¬ scratchKey core (phys + (k + 1)) = scratchKey core phys := by unfold scratchKey; omega
      have hkeep : readByte s1.scratch (scratchKey core (phys + (k + 1))) =
          readByte s.scratch (scratchKey core (phys + (k + 1))) := by rw [hbyte, if_neg fun hq => hne hq.1]
      have := ih s1 (phys + 1) (Nat.lt_of_succ_lt_succ h)
      rw [Nat.add_right_comm, Nat.add_assoc phys, guarded_congr hcores, hkeep] at this
      exact this

/-! ## A target's bytes -/

/-- Reservations cleared on some lines: the bytes stand. -/
theorem clearLines_sameMemory (core : Nat) (ls : List Nat) (s : State) : SameMemory s
    (ls.foldl (fun s l => clearReservations s { space := .scratch core, addr := 256 * l }) s) :=
  foldl_rel SameMemory.refl SameMemory.trans
    (g := fun s l => clearReservations s { space := .scratch core, addr := 256 * l }) (fun _ _ => ⟨rfl, rfl, rfl, rfl⟩) ls s

theorem writeTarget_scratch_sameMemory (s : State) (A : Actor) (pa : Nat) (bytes : List Byte) (core off phys : Nat) :
    SameMemory (writeScratch s core phys bytes) (writeTarget s A pa bytes (.scratch core off phys)) :=
  clearLines_sameMemory core _ _

theorem writeTarget_storeFrame (s : State) (A : Actor) (pa : Nat) (bytes : List Byte) (t : Target) :
    StoreFrame s (writeTarget s A pa bytes t) := by
  cases t with
  | global va => exact writeGlobal_storeFrame s A va pa bytes
  | weight die off => exact .refl s
  | scratch core off phys =>
    have h1 : StoreFrame s (writeScratch s core phys bytes) := by rw [writeScratch_only]; exact ⟨rfl, rfl, rfl⟩
    exact h1.trans (foldl_rel StoreFrame.refl StoreFrame.trans
      (g := fun s l => clearReservations s { space := .scratch core, addr := 256 * l })
      (fun s _ => clearReservations_storeFrame s _) _ _)

/-- A byte of a virtual space, at a physical address, that a write of `n` bytes to a target does not store to. -/
def offTarget (asid pa n : Nat) (t : Target) (asid' a q : Nat) : Prop :=
  ∀ va, t = .global va → (asid' ≠ asid ∨ a < va ∨ va + n ≤ a) ∧ (q < pa ∨ pa + n ≤ q)

theorem taggedByte_writeTarget_off {s : State} {A : Actor} {pa : Nat} {bytes : List Byte} {t : Target} {asid a q : Nat}
    (h : asid ≠ 0) (ht : offTarget A.asid pa bytes.length t asid a q ∨ A.held = true) :
    taggedByte (writeTarget s A pa bytes t) asid a q = taggedByte s asid a q := by
  cases t with
  | global va =>
    change taggedByte (writeGlobal s A va pa bytes) asid a q = _
    cases hh : A.held with
    | true => exact taggedByte_congr (writeGlobal_held hh va pa bytes).l2 (writeGlobal_held hh va pa bytes).dram _ _ _
    | false =>
      have hm := writeGlobal_committed (s := s) hh va pa bytes
      obtain ⟨hv, hq⟩ := ht.resolve_right (by rw [hh]; exact Bool.false_ne_true) va rfl
      rw [taggedByte_congr hm.l2 hm.dram, taggedByte_writeTaggedBytes_off bytes s h hv hq]
  | scratch core off phys =>
    have hm := writeTarget_scratch_sameMemory s A pa bytes core off phys
    rw [taggedByte_congr hm.l2 hm.dram, writeScratch_only]; rfl
  | weight die off => rfl

theorem hitSector_congr {s t : State} (h : t.l2 = s.l2) (asid va : Nat) : t.hitSector asid va = s.hitSector asid va := by
  unfold State.hitSector State.line?; rw [h]

theorem sectorsWhole_congr {s t : State} {asid : Nat} (hl : t.l2 = s.l2) (h : s.sectorsWhole asid) : t.sectorsWhole asid :=
  fun va c hc => h va c (by rwa [hitSector_congr hl] at hc)

theorem writeTarget_sectorsWhole {s : State} {asid : Nat} (ha : asid ≠ 0) (h : s.sectorsWhole asid) (A : Actor) (pa : Nat)
    (bytes : List Byte) (t : Target) : (writeTarget s A pa bytes t).sectorsWhole asid := by
  cases t with
  | global va =>
    change (writeGlobal s A va pa bytes).sectorsWhole asid
    cases hh : A.held with
    | true => exact sectorsWhole_congr (writeGlobal_held hh va pa bytes).l2 h
    | false =>
      exact sectorsWhole_congr (writeGlobal_committed hh va pa bytes).l2 (writeTaggedBytes_sectorsWhole ha bytes h A.asid va pa)
  | scratch core off phys =>
    refine sectorsWhole_congr (writeTarget_scratch_sameMemory s A pa bytes core off phys).l2 ?_
    rw [writeScratch_only]; exact h
  | weight die off => exact h

theorem taggedByte_writeTarget_at {s : State} {A : Actor} (hA : A.held = false) (ha : A.asid ≠ 0)
    (h : s.sectorsWhole A.asid) (va pa : Nat) (bytes : List Byte) {k : Nat} (hk : k < bytes.length) :
    taggedByte (writeTarget s A pa bytes (.global va)) A.asid (va + k) (pa + k) = bytes.getD k 0 := by
  have hm := writeGlobal_committed (s := s) hA va pa bytes
  rw [← taggedByte_writeTaggedBytes_at ha bytes h va pa hk]
  exact taggedByte_congr hm.l2 hm.dram _ _ _

theorem scratch_writeTarget_off {s : State} {A : Actor} {pa : Nat} {bytes : List Byte} {t : Target} {q : Nat}
    (h : ∀ core off phys, t = .scratch core off phys →
      q < scratchKey core phys ∨ scratchKey core phys + bytes.length ≤ q) :
    readByte (writeTarget s A pa bytes t).scratch q = readByte s.scratch q := by
  cases t with
  | global va => exact congrArg (readByte · q) (writeGlobal_scratch s A va pa bytes)
  | scratch core off phys =>
    rw [(writeTarget_scratch_sameMemory s A pa bytes core off phys).scratch]
    exact readByte_writeScratch_off bytes s (h core off phys rfl)
  | weight die off => rfl

theorem scratch_writeTarget_at (s : State) (A : Actor) (pa : Nat) (bytes : List Byte) (core off phys : Nat) {k : Nat}
    (hk : k < bytes.length) :
    readByte (writeTarget s A pa bytes (.scratch core off phys)).scratch (scratchKey core (phys + k)) =
      if guarded s core (phys + k) then readByte s.scratch (scratchKey core (phys + k)) else bytes.getD k 0 := by
  rw [(writeTarget_scratch_sameMemory s A pa bytes core off phys).scratch]
  exact readByte_writeScratch_at bytes s core phys hk

/-- Bytes under a tag are what each of them reads as. -/
theorem taggedBytes_eq {s : State} {asid va pa : Nat} {bytes : List Byte}
    (h : ∀ k, k < bytes.length → taggedByte s asid (va + k) (pa + k) = bytes.getD k 0) :
    taggedBytes s asid va pa bytes.length = bytes := by
  unfold taggedBytes
  refine bytes_ext (by simp) fun k hk => ?_
  simp only [List.length_map, List.length_range] at hk
  rw [← h k hk]
  simp [List.getD_eq_getElem?_getD, hk]

/-! ## The lanes' stores -/

section Lanes
variable (A : Actor) (kind : MemKind)

theorem storeLanes_cons (s : State) (x : LaneAcc × Target × Nat) (ts : List (LaneAcc × Target × Nat)) :
    storeLanes s A kind (x :: ts) = storeLanes (writeTarget s A x.2.2 (storeBytes kind x.1) x.2.1) A kind ts := rfl

theorem storeLanes_storeFrame (ts : List (LaneAcc × Target × Nat)) (s : State) : StoreFrame s (storeLanes s A kind ts) := by
  induction ts generalizing s with
  | nil => exact .refl s
  | cons x ts ih => exact (writeTarget_storeFrame s A _ _ _).trans (ih _)

theorem storeLanes_sectorsWhole {asid : Nat} (ha : asid ≠ 0) (ts : List (LaneAcc × Target × Nat)) {s : State}
    (h : s.sectorsWhole asid) : (storeLanes s A kind ts).sectorsWhole asid := by
  induction ts generalizing s with
  | nil => exact h
  | cons x ts ih => exact ih (writeTarget_sectorsWhole ha h A _ _ _)

variable {A kind}

theorem taggedByte_storeLanes_off {ts : List (LaneAcc × Target × Nat)} (hw : ∀ x ∈ ts, (storeBytes kind x.1).length = x.1.width)
    (s : State) {asid a q : Nat} (h : asid ≠ 0) (ht : offGlobal A.asid ts asid a q ∨ A.held = true) :
    taggedByte (storeLanes s A kind ts) asid a q = taggedByte s asid a q := by
  induction ts generalizing s with
  | nil => rfl
  | cons x ts ih =>
    rw [storeLanes_cons, ih (fun y hy => hw y (.tail _ hy)) _ (ht.imp_left fun hg y hy => hg y (.tail _ hy))]
    refine taggedByte_writeTarget_off h (ht.imp_left fun hg => ?_)
    rw [hw x (.head _)]
    exact hg x (.head _)

theorem scratch_storeLanes_off {ts : List (LaneAcc × Target × Nat)} (hw : ∀ x ∈ ts, (storeBytes kind x.1).length = x.1.width)
    (s : State) {q : Nat} (h : offScratch ts q) : readByte (storeLanes s A kind ts).scratch q = readByte s.scratch q := by
  induction ts generalizing s with
  | nil => rfl
  | cons x ts ih =>
    rw [storeLanes_cons, ih (fun y hy => hw y (.tail _ hy)) _ fun y hy => h y (.tail _ hy)]
    refine scratch_writeTarget_off ?_
    rw [hw x (.head _)]
    exact h x (.head _)

/-- A lane's byte that no other lane stores to reads as the lane stored it. -/
theorem taggedByte_storeLanes_at {ts : List (LaneAcc × Target × Nat)} (hw : ∀ x ∈ ts, (storeBytes kind x.1).length = x.1.width)
    (hA : A.held = false) (ha : A.asid ≠ 0) {s : State} (hs : s.sectorsWhole A.asid) {x : LaneAcc × Target × Nat} (hx : x ∈ ts)
    {va k : Nat} (hva : x.2.1 = .global va) (hk : k < (storeBytes kind x.1).length)
    (hoff : offGlobal A.asid (ts.filter fun y => y != x) A.asid (va + k) (x.2.2 + k)) :
    taggedByte (storeLanes s A kind ts) A.asid (va + k) (x.2.2 + k) = (storeBytes kind x.1).getD k 0 := by
  induction ts generalizing s with
  | nil => cases hx
  | cons y ts ih =>
    have hw' : ∀ z ∈ ts, (storeBytes kind z.1).length = z.1.width := fun z hz => hw z (.tail _ hz)
    rw [storeLanes_cons]
    by_cases hin : x ∈ ts
    · refine ih hw' (writeTarget_sectorsWhole ha hs A _ _ _) hin fun z hz => hoff z ?_
      obtain ⟨hz, hne⟩ := List.mem_filter.mp hz
      exact List.mem_filter.mpr ⟨.tail _ hz, hne⟩
    · obtain rfl : x = y := (List.mem_cons.mp hx).resolve_right hin
      rw [taggedByte_storeLanes_off hw' _ ha (.inl fun z hz => hoff z (List.mem_filter.mpr ⟨.tail _ hz, ?_⟩)), hva]
      · exact taggedByte_writeTarget_at hA ha hs va x.2.2 _ hk
      · simpa using fun he : z = x => hin (he ▸ hz)

theorem scratch_storeLanes_at {ts : List (LaneAcc × Target × Nat)} (hw : ∀ x ∈ ts, (storeBytes kind x.1).length = x.1.width)
    (s : State) {x : LaneAcc × Target × Nat} (hx : x ∈ ts) {core off phys k : Nat} (ht : x.2.1 = .scratch core off phys)
    (hk : k < (storeBytes kind x.1).length)
    (hoff : offScratch (ts.filter fun y => y != x) (scratchKey core (phys + k))) :
    readByte (storeLanes s A kind ts).scratch (scratchKey core (phys + k)) =
      if guarded s core (phys + k) then readByte s.scratch (scratchKey core (phys + k)) else (storeBytes kind x.1).getD k 0 := by
  induction ts generalizing s with
  | nil => cases hx
  | cons y ts ih =>
    have hw' : ∀ z ∈ ts, (storeBytes kind z.1).length = z.1.width := fun z hz => hw z (.tail _ hz)
    rw [storeLanes_cons]
    by_cases hin : x ∈ ts
    · have hkeep : guarded s core (phys + k) = true →
          readByte (writeTarget s A y.2.2 (storeBytes kind y.1) y.2.1).scratch (scratchKey core (phys + k)) =
            readByte s.scratch (scratchKey core (phys + k)) := by
        intro hg
        by_cases hy : y = x
        · subst hy; rw [ht, scratch_writeTarget_at s A _ _ core off phys hk, if_pos hg]
        · refine scratch_writeTarget_off ?_
          rw [hw y (.head _)]
          exact hoff y (List.mem_filter.mpr ⟨.head _, by simpa using hy⟩)
      rw [ih hw' _ hin fun z hz => hoff z ?_]
      · rw [guarded_congr (writeTarget_storeFrame s A _ _ _).cores]
        split
        · rename_i hg; exact hkeep hg
        · rfl
      · obtain ⟨hz, hne⟩ := List.mem_filter.mp hz
        exact List.mem_filter.mpr ⟨.tail _ hz, hne⟩
    · obtain rfl : x = y := (List.mem_cons.mp hx).resolve_right hin
      rw [scratch_storeLanes_off hw' _ fun z hz => hoff z (List.mem_filter.mpr ⟨.tail _ hz, ?_⟩), ht]
      · exact scratch_writeTarget_at s A _ _ core off phys hk
      · simpa using fun he : z = x => hin (he ▸ hz)

/-- The lanes' stores, and what is noted of them after: what `storesOnly` says, for the state `s` before their pages were
translated. -/
theorem storeLanes_storesOnly {ts : List (LaneAcc × Target × Nat)} (hw : ∀ x ∈ ts, (storeBytes kind x.1).length = x.1.width)
    {s r t : State} (hs : r.scratch = s.scratch) (hwt : r.weight = s.weight) (hwhole : s.cachesWf → r.cachesWf)
    (ht : SameMemory (storeLanes r A kind ts) t) : storesOnly s r t A kind ts := by
  refine ⟨fun asid va q ha hoff => ?_, fun q => ⟨fun hq => ?_, ?_⟩, fun x hx => ⟨fun va hva hA ha hc hoff => ?_,
    fun core off phys hp hoff k hk => ?_⟩⟩
  · rw [taggedByte_congr ht.l2 ht.dram, taggedByte_storeLanes_off hw r ha hoff]
  · rw [ht.scratch, scratch_storeLanes_off hw r hq, hs]
  · rw [ht.weight, (storeLanes_storeFrame A kind ts r).weight, hwt]
  · refine taggedBytes_eq fun k hk => ?_
    rw [taggedByte_congr ht.l2 ht.dram]
    exact taggedByte_storeLanes_at hw hA ha (cachesWf_sectorsWhole (hwhole hc) _) hx hva hk (hoff k hk)
  · rw [ht.scratch, scratch_storeLanes_at hw r hx hp hk (hoff k hk), hs]

end Lanes

/-! ## What a performed access notes -/

/-- What is noted of an access touches no byte, and of the waves their notes alone. -/
def Notes (s t : State) : Prop := SameMemory s t ∧ SameWaves s t

theorem Notes.refl (s : State) : Notes s s := ⟨.refl s, rfl⟩

theorem Notes.trans {s t u : State} (h1 : Notes s t) (h2 : Notes t u) : Notes s u :=
  ⟨h1.1.trans h2.1, Eq.trans h2.2 h1.2⟩

theorem addSS_notes (s : State) (A : Actor) (x : Nat) : Notes s (addSS s A x) := by
  unfold addSS
  split
  · split <;> exact ⟨⟨rfl, rfl, rfl, rfl⟩, rfl⟩
  · split <;> exact ⟨⟨rfl, rfl, rfl, rfl⟩, rfl⟩

theorem guardAccess_bare (w : Wave) (h : Nat × Nat) : (w.guardAccess h).bare = w.bare := by
  unfold Wave.guardAccess
  split <;> rfl

theorem modWave_notes (s : State) (u : Nat) {f : Wave → Wave} (hf : ∀ w, (f w).bare = w.bare) : Notes s (s.modWave u f) :=
  ⟨⟨rfl, rfl, rfl, rfl⟩, .modWave s u hf⟩

theorem noteGuards_notes (s : State) (uid : Nat) (ts : List (Target × Nat)) : Notes s (noteGuards s uid ts) :=
  foldl_rel Notes.refl Notes.trans (g := fun s h => s.modWave uid fun w => w.guardAccess h)
    (fun s h => modWave_notes s uid fun w => guardAccess_bare w h) _ s

theorem noteLines_notes (s : State) (uid : Nat) (path : AccessPath) (ls : List Loc) : Notes s (noteLines s uid path ls) := by
  unfold noteLines
  split
  · exact .refl s
  · exact modWave_notes s uid fun w => rfl

theorem noteAccess_notes (s : State) (A : Actor) (uid : Nat) (writes : Bool) (ts : List (LaneAcc × Target × Nat)) :
    Notes s (noteAccess s A uid writes ts) := by
  unfold noteAccess
  dsimp only
  split
  · exact (noteGuards_notes s uid _).trans (noteLines_notes _ _ _ _)
  · exact noteGuards_notes s uid _

theorem performed_sameMemory (e : Env) (s : State) (lat : Nat) (ws : List RegWrite) (path : AccessPath) (store : Bool)
    (ss : Nat) : SameMemory s (performed e s lat ws path store ss) := by
  unfold performed pend
  split <;> exact ⟨rfl, rfl, rfl, rfl⟩

end Sys2Proof.Machine
end

section
/-! PROOF. A memory instruction that nothing holds back is performed (R50, R116, R215), and what the per-lane stores leave
(O28). -/

namespace Sys2Proof.Machine

/-! ## The issuing wave, from its issue to its completion -/

theorem past_sameMemory (i : Instr) (s : State) (e : Env) : SameMemory s (past i s e) := by
  rw [past_eq]; exact ⟨rfl, rfl, rfl, rfl⟩

theorem SameMemory.cachesWf {s t : State} (h : SameMemory s t) (hs : s.cachesWf) : t.cachesWf := by
  unfold State.cachesWf; rw [h.l2]; exact hs

theorem SameMemory.physByte {s t : State} (h : SameMemory s t) (q : Nat) : physByte t q = physByte s q := by
  unfold Machine.physByte; rw [h.l2, h.dram]

/-- A movement of lines after an issue, seen from before it. -/
theorem CacheMove.from_past {i : Instr} {s r : State} {e : Env} (h : CacheMove (past i s e) r) (hs : s.cachesWf) :
    r.cachesWf ∧ ∀ q, physByte r q = physByte s q := by
  have hp := past_sameMemory i s e
  obtain ⟨hr, hb⟩ := h.bytes (hp.cachesWf hs)
  exact ⟨hr, fun q => (hb q).trans (hp.physByte q)⟩

/-- While a performed access does no more than note itself in its wave, the wave's transactions and its next sequence number
are those it had at its issue. -/
theorem issuer_after {i : Instr} {s q : State} {e : Env} (h : Issues i s e) (hq : SameWaves (past i s e) q) :
    ∃ w, q.wave? e.w.uid = some w ∧ w.tx = e.w.tx ∧ w.nextSeq = e.w.nextSeq := by
  obtain ⟨w1, h1, k1⟩ := past_wave h.1 i
  obtain ⟨w2, h2, k2⟩ := hq.wave? h1
  have htx : w2.bare.tx = w1.bare.tx := by rw [k2]
  have hseq : w2.bare.nextSeq = w1.bare.nextSeq := by rw [k2]
  exact ⟨w2, h2, htx.trans (by rw [k1]; rfl), hseq.trans (by rw [k1]; rfl)⟩

theorem performed_wave {q : State} {e : Env} {w : Wave} (h : q.wave? e.w.uid = some w) (lat : Nat) (ws : List RegWrite)
    (path : AccessPath) (store : Bool) (ss : Nat) :
    (performed e q lat ws path store ss).wave? e.w.uid = some (w.pends e (pended w e ws path store ss)) := by
  have hu := wave?_uid h
  unfold performed
  rw [pend_some h]
  change (q.setWave _).wave? _ = _
  rw [wave?_setWave, h]
  simp [Wave.pends_uid]

theorem Wave.pends_tx (w : Wave) (e : Env) (c : Completion) : (w.pends e c).tx = w.tx := by
  unfold Wave.pends; rw [raise_eq]

/-! ## Checks -/

theorem firstFailure_nil (cs : List LaneCheck) : firstFailure cs [] = none := by
  induction cs with
  | nil => rfl
  | cons c cs ih => exact ih

/-- The width of the lanes of an access stands for the alignment that check 2 of R215 asks for. -/
theorem firstFailure_align {ls : List LaneAcc} {n : Nat} (h : ∀ l ∈ ls, l.width = n) (s : State) (w : Wave) (form : AddrForm)
    (writes : Bool) : firstFailure (laneChecks s w form ((ls.head?.map LaneAcc.width).getD 1) writes) ls =
      firstFailure (laneChecks s w form n writes) ls := by
  cases ls with
  | nil => rw [firstFailure_nil, firstFailure_nil]
  | cons l ls =>
    have hl : ((l :: ls).head?.map LaneAcc.width).getD 1 = n := h l (.head _)
    rw [hl]

theorem xlateLanes_mem {s r : State} {w : Wave} {A : Actor} {form : AddrForm} {k : AccKind} {ls : List LaneAcc}
    {ts : List (LaneAcc × Target × Nat)} (h : xlateLanes s w A form k ls = (.ok ts, r)) : ∀ x ∈ ts, x.1 ∈ ls := by
  induction ls generalizing s ts with
  | nil => cases h; exact fun x hx => nomatch hx
  | cons l ls ih =>
    have cons : ∀ {t : Target} {pa : Nat} {s1 : State} {us : List (LaneAcc × Target × Nat)},
        xlateLanes s1 w A form k ls = (.ok us, r) → ∀ x ∈ (l, t, pa) :: us, x.1 ∈ l :: ls := by
      intro t pa s1 us hu x hx
      rcases List.mem_cons.mp hx with rfl | hx
      · exact .head _
      · exact .tail _ (ih hu x hx)
    unfold xlateLanes at h
    split at h
    · exact fun x hx => .tail _ (ih h x hx)
    · split at h
      · cases h
      · dsimp only at h
        split at h
        · rename_i hu; cases h; exact cons hu
        · cases h
    · split at h
      · cases h
      · split at h
        · rename_i hu; cases h; exact cons hu
        · cases h

/-! ## Performing -/

/-- The address is an offset in a neighbour's share (R221). -/
def AddrForm.isNeighbour : AddrForm → Bool
  | .neighbour _ => true
  | _ => false

/-- The machine after lanes' stores were performed, counted and noted in their wave. -/
def stored (s : State) (A : Actor) (kind : MemKind) (uid : Nat) (ts : List (LaneAcc × Target × Nat)) : State :=
  noteAccess (addSS (storeLanes s A kind ts) A (ssOfLanes kind ts)) A uid true ts

section Perform
variable {s r1 : State} {w : Wave} {op : MemOp} {n : Nat} {ts : List (LaneAcc × Target × Nat)}

/-- The lanes' stores once their checks pass, their pages translate and a held write finds room. -/
theorem performStores_ok {A : Actor} {ls : List LaneAcc} (hx : xlateLanes s w A op.form .write ls = (.ok ts, r1))
    (hh : holdFull r1 A ts = none) :
    performStores s w A op ls = (.ok ts, addSS (storeLanes r1 A op.kind ts) A (ssOfLanes op.kind ts)) := by
  unfold performStores
  rw [hx]
  dsimp only
  rw [hh]

theorem performLanes_store (hk : op.kind.writes = true) (hc : op.kind ≠ .compressStore) (hn : ∀ l ∈ op.lanes, l.width = n)
    (hchk : firstFailure (laneChecks s w op.form n true) op.lanes = none)
    (hx : xlateLanes s w (waveActor s w) op.form .write op.lanes = (.ok ts, r1))
    (hh : holdFull r1 (waveActor s w) ts = none) :
    performLanes s w op = .ok (stored r1 (waveActor s w) op.kind w.uid ts) []
      (accessLatency s w false op.form.isNeighbour (widths ts)) (ssOfLanes op.kind ts) := by
  unfold performLanes
  dsimp only
  rw [hk, firstFailure_align hn, hchk]
  dsimp only
  split
  · rename_i h; exact absurd h hc
  · rw [if_pos rfl, performStores_ok hx hh]; rfl

theorem performLanes_load (hk : op.kind.writes = false) (hn : ∀ l ∈ op.lanes, l.width = n)
    (hchk : firstFailure (laneChecks s w op.form n false) op.lanes = none)
    (hx : xlateLanes s w (waveActor s w) op.form .read op.lanes = (.ok ts, r1)) :
    performLanes s w op =
      .ok (noteGuards r1 w.uid (widths ts))
        (ts.flatMap fun x => loadWrites op x.1 (readTarget r1 (waveActor s w) x.2.2 x.1.width x.2.1))
        (accessLatency s w true op.form.isNeighbour (widths ts)) 0 := by
  unfold performLanes
  dsimp only
  rw [hk, firstFailure_align hn, hchk]
  dsimp only
  split
  · rename_i h; rw [h] at hk; cases hk
  · rw [if_neg Bool.false_ne_true, hx]; rfl

/-- An access with no transactional lane is one of memory. -/
theorem performMixed_of_noTx (h : w.tx = []) : performMixed s w op = performLanes s w op := by
  have hnone : txPart s w op = [] := by
    unfold txPart Wave.inTx Wave.txLane
    rw [h]
    simp
  unfold performMixed
  rw [hnone]

theorem memRun_ok {e : Env} {path : AccessPath} {perform : State → Wave → MemOp → MemResult} {q : State} {ws : List RegWrite}
    {lat ss : Nat} (hf : fenced e.w path = false) (ho : overlapsLog s e.w op = false) (hp : perform s e.w op = .ok q ws lat ss) :
    memRun e path s op perform = .done (performed e q lat ws path op.kind.writes ss) := by
  unfold memRun
  rw [hf, ho, hp]
  rfl

/-- A wave without transactions has none to abort at the end of an instruction. -/
theorem sectionEnd_of_noTx {e : Env} {t : State} (h : ∀ w, t.wave? e.w.uid = some w → w.tx = []) :
    sectionEnd e (.done t) = .done t := by
  unfold sectionEnd
  dsimp only
  cases hw : t.wave? e.w.uid with
  | none => rfl
  | some w =>
    have hnone : (w.elisions.find? fun x => !x.plain && w.tx.any fun t => x.lanes.contains t.lane && t.status ≠ 0) = none := by
      rw [h w hw]; simp
    dsimp only
    rw [hnone]

/-- A load or store of the LS path that nothing holds back is performed. -/
theorem lanesRun_ok {i : Instr} {e : Env} {q : State} {ws : List RegWrite} {lat ss : Nat} (hi : Issues i s e)
    (hfree : accessFree (past i s e) e .ls op) (hp : performLanes (past i s e) e.w op = .ok q ws lat ss)
    (hq : SameWaves (past i s e) q) :
    lanesRun e (past i s e) op = .done (performed e q lat ws .ls op.kind.writes ss) := by
  obtain ⟨hf, ho, htx⟩ := hfree
  unfold lanesRun
  rw [memRun_ok hf ho ((performMixed_of_noTx htx).trans hp)]
  refine sectionEnd_of_noTx fun w' hw' => ?_
  obtain ⟨w, hw, hwt, -⟩ := issuer_after hi hq
  rw [performed_wave hw] at hw'
  cases hw'
  rw [Wave.pends_tx, hwt, htx]

/-- The lanes' stores and what is noted of them leave the waves as they are but for their notes. -/
theorem stored_sameWaves (A : Actor) (kind : MemKind) (uid : Nat) (h : LinesMoved s r1) :
    SameWaves s (stored r1 A kind uid ts) :=
  (noteAccess_notes _ A uid true ts).2.trans ((addSS_notes _ A _).2.trans
    ((storeLanes_storeFrame A kind ts r1).waves.trans (SameWaves.of_unreserved h.waves)))

/-- What an instruction's stores leave, from before its issue to after its completion is queued. -/
theorem storesOnly_performed {i : Instr} {e : Env} {A : Actor} {kind : MemKind} {uid : Nat}
    (hm : CacheMove (past i s e) r1) (hw : ∀ x ∈ ts, (storeBytes kind x.1).length = x.1.width) (lat : Nat) (ws : List RegWrite)
    (path : AccessPath) (store : Bool) (ss : Nat) :
    storesOnly s r1 (performed e (stored r1 A kind uid ts) lat ws path store ss) A kind ts := by
  have hp := past_sameMemory i s e
  exact storeLanes_storesOnly hw (hm.scratch.trans hp.scratch) (hm.weight.trans hp.weight) (fun hc => (hm.from_past hc).1)
    ((addSS_notes _ A _).1.trans ((noteAccess_notes _ A uid true ts).1.trans (performed_sameMemory e _ lat ws path store ss)))

end Perform

/-! ## The per-lane stores -/

theorem exec_storeForm {i : Instr} {form : AddrForm} {d a b : OpCode} {width : Nat}
    (h : storeForm i = some (form, d, a, b, width)) (s : State) :
    exec i s = runInstr i s fun e s => lanesRun e s (storeOp e form d a b width) := by
  unfold storeForm at h
  split at h
  case h_7 => cases h
  all_goals cases h; rfl

theorem storeOp_lanes (e : Env) (form : AddrForm) (d a b : OpCode) (width : Nat) :
    (storeOp e form d a b width).lanes = laneAccesses e d a b width (e.x d) (fun _ => 0) := rfl

theorem laneAccesses_width (e : Env) (d a b : OpCode) (width : Nat) (data data2 : Nat → Word) :
    ∀ l ∈ laneAccesses e d a b width data data2, l.width = width := by
  intro l hl
  obtain ⟨k, -, rfl⟩ := List.mem_map.mp hl
  rfl

theorem foldl_writeTarget_eq_storeLanes (A : Actor) (ts : List (LaneAcc × Target × Nat)) (s : State) :
    ts.foldl (fun m x => writeTarget m A x.2.2 (leBytes x.1.width x.1.data.toNat) x.2.1) s = storeLanes s A .store ts := by
  induction ts generalizing s with
  | nil => rfl
  | cons x ts ih => exact ih _

/-- Settles O28: the store is performed, and what the lanes' stores leave is what `storesOnly` says. -/
theorem storesComplete : Obligations.StoresComplete := by
  unfold Obligations.StoresComplete
  refine ⟨fun i s e form d a b width hi hform hfree => ?_, fun s A pa bytes va core off phys => ⟨fun hA ha hc => ?_, fun k => ?_⟩⟩
  · intro r A lanes ts r1 hchk hx hh
    have hmove : CacheMove r r1 := by simpa only [hx] using xlateLanes_move r e.w A form .write lanes
    have hp := performLanes_store (op := storeOp e form d a b width) rfl (fun h => nomatch h)
      (laneAccesses_width e d a b width _ _) hchk hx hh
    have hrun := lanesRun_ok hi hfree hp (stored_sameWaves _ _ _ hmove.toLinesMoved)
    obtain ⟨hglobal, hscratch, -⟩ := storesOnly_performed (A := A) (kind := .store) (ts := ts) (uid := e.w.uid) hmove
      (fun x _ => length_leBytes _ _) (accessLatency r e.w false form.isNeighbour (widths ts)) [] .ls true (ssOfLanes .store ts)
    refine ⟨_, accessLatency r e.w false form.isNeighbour (widths ts),
      (exec_storeForm hform s).trans (runInstr_done hi.1 hi.2 hrun), ?_, fun hc => (hmove.from_past hc).2, hglobal, hscratch⟩
    rw [foldl_writeTarget_eq_storeLanes]
    rfl
  · exact taggedBytes_eq fun k hk => taggedByte_writeTarget_at hA ha (cachesWf_sectorsWhole hc _) va pa bytes hk
  · exact scratch_writeTarget_at s A pa bytes core off phys

end Sys2Proof.Machine
end

section
/-! PROOF. Acquires, releases and fences are performed and ordered as they name (O33: R112 to R116, R234, R235). -/

namespace Sys2Proof.Machine

/-! ## Instructions that no transaction supports, outside one -/

theorem unsupported_of_noTx {e : Env} (h : e.w.tx = []) (s : State) (lanes : List Nat) (f : State → (Nat → Bool) → Effect) :
    unsupported e s lanes f = f s fun _ => true := by
  have hnone : lanes.filter e.w.inTx = [] := by
    rw [List.filter_eq_nil_iff]
    intro l _
    simp [Wave.inTx, Wave.txLane, h]
  unfold unsupported
  rw [hnone]

theorem unsupportedOp_of_noTx {e : Env} (h : e.w.tx = []) (s : State) (op : MemOp) (f : State → MemOp → Effect) :
    unsupportedOp e s op f = f s op := by
  unfold unsupportedOp
  rw [unsupported_of_noTx h, List.filter_true]

/-! ## LDACQ -/

/-- The L1 copies of the regions bound to some lanes' words dropped: no wave is touched. -/
theorem dropBound_waves (s : State) (w : Wave) (obj : Loc) : (dropBound s w obj).waves = s.waves := by
  unfold dropBound
  dsimp only
  split <;> rfl

/-- The regions bound to each lane's word leave the core's L1 (R115, R234). -/
def dropLanes (w : Wave) (lanes : List LaneAcc) (s : State) : State :=
  lanes.foldl (fun q l => match rangeLoc q w .generic l.addr with
    | some x => dropBound q w x
    | none => q) s

theorem dropLanes_sameWaves (w : Wave) (lanes : List LaneAcc) (s : State) : SameWaves s (dropLanes w lanes s) := by
  refine foldl_rel (R := SameWaves) (fun _ => rfl) (fun h1 h2 => Eq.trans h2 h1) (fun q l => ?_) lanes s
  split
  · unfold SameWaves; rw [dropBound_waves]
  · rfl

section Acquire
variable {s r1 : State} {e : Env} {d a b : OpCode} {lit : Word32} {ts : List (LaneAcc × Target × Nat)}

/-- An LDACQ that nothing holds back is performed, and orders what follows until it completes. -/
theorem acquireRun_ok {i : Instr} (hi : Issues i s e) (hfree : accessFree (past i s e) e .ls (acquireOp e d a b lit))
    (hchk : firstFailure (laneChecks (past i s e) e.w .generic 8 false) (acquireOp e d a b lit).lanes = none)
    (hx : xlateLanes (past i s e) e.w (waveActor (past i s e) e.w) .generic .read (acquireOp e d a b lit).lanes =
      (.ok ts, r1)) :
    acquireRun e (past i s e) (acquireOp e d a b lit) = .done (acquireUntil
      (performed e (dropLanes e.w (acquireOp e d a b lit).lanes (noteGuards r1 e.w.uid (widths ts)))
        (accessLatency (past i s e) e.w true false (widths ts))
        (ts.flatMap fun x => destWrite d x.1.lane
          (w64 (leNat (readTarget r1 (waveActor (past i s e) e.w) x.2.2 x.1.width x.2.1)))) .ls false 0)
      e.w.uid e.w.nextSeq) := by
  obtain ⟨hf, ho, -⟩ := hfree
  have hmove := (xlateLanes_move (past i s e) e.w (waveActor (past i s e) e.w) .generic .read
    (acquireOp e d a b lit).lanes).toLinesMoved
  rw [hx] at hmove
  have hload := performLanes_load (op := acquireOp e d a b lit) rfl (laneAccesses_width e d a b 8 _ _) hchk hx
  have hperform : performAcquire (past i s e) e.w (acquireOp e d a b lit) =
      .ok (dropLanes e.w (acquireOp e d a b lit).lanes (noteGuards r1 e.w.uid (widths ts)))
        (ts.flatMap fun x => destWrite d x.1.lane
          (w64 (leNat (readTarget r1 (waveActor (past i s e) e.w) x.2.2 x.1.width x.2.1))))
        (accessLatency (past i s e) e.w true false (widths ts)) 0 := by
    unfold performAcquire; rw [hload]; rfl
  have hwaves : SameWaves (past i s e) (dropLanes e.w (acquireOp e d a b lit).lanes (noteGuards r1 e.w.uid (widths ts))) :=
    (dropLanes_sameWaves _ _ _).trans ((noteGuards_notes r1 e.w.uid _).2.trans (SameWaves.of_unreserved hmove.waves))
  obtain ⟨w, hw, -, hseq⟩ := issuer_after hi hwaves
  unfold acquireRun
  rw [memRun_ok hf ho hperform]
  dsimp only
  rw [performed_wave hw]
  dsimp only
  rw [Wave.pends_uid, wave?_uid hw, ← hseq]
  unfold Wave.pends
  rfl

end Acquire

/-! ## STREL -/

/-- The regions bound to each lane's word are performed at a scope (R114, R234). -/
def releaseLanes (e : Env) (lanes : List LaneAcc) (scope : Nat) (s : State) : State :=
  lanes.foldl (fun q l => match q.wave? e.w.uid, resolve q e.w .generic l.addr with
    | some w, .ok t => releaseObj q w (targetLoc (q.waveAsid e.w) t) scope
    | _, _ => q) s

/-- A STREL behind no logged store of its regions is performed with its release. -/
theorem releaseStore_ok {r r1 : State} {e : Env} {d a b : OpCode} {lit : Word32} {ts : List (LaneAcc × Target × Nat)}
    (hrel : ∀ l ∈ (releaseOp e d a b lit).lanes, releaseFree r e l.addr)
    (hfree : accessFree r e .ls (releaseOp e d a b lit))
    (hchk : firstFailure (laneChecks r e.w .generic 8 true) (releaseOp e d a b lit).lanes = none)
    (hx : xlateLanes r e.w (waveActor r e.w) .generic .write (releaseOp e d a b lit).lanes = (.ok ts, r1))
    (hh : holdFull r1 (waveActor r e.w) ts = none) :
    releaseStore e r (releaseOp e d a b lit) = .done (performed e
      (releaseLanes e (releaseOp e d a b lit).lanes (litBits lit 0 3) (stored r1 (waveActor r e.w) .storeRelease e.w.uid ts))
      (accessLatency r e.w false false (widths ts)) [] .ls true (ssOfLanes .storeRelease ts)) := by
  obtain ⟨hf, ho, -⟩ := hfree
  have hstore := performLanes_store (op := releaseOp e d a b lit) rfl (fun h => nomatch h)
    (laneAccesses_width e d a b 8 _ _) hchk hx hh
  have hperform : performRelease r e.w (releaseOp e d a b lit) =
      .ok (releaseLanes e (releaseOp e d a b lit).lanes (litBits lit 0 3) (stored r1 (waveActor r e.w) .storeRelease e.w.uid ts))
        [] (accessLatency r e.w false false (widths ts)) (ssOfLanes .storeRelease ts) := by
    unfold performRelease; rw [hstore]; rfl
  have hwait : ((releaseOp e d a b lit).lanes.any fun l => releaseWaits r e.w l.addr) = false := by
    rw [List.any_eq_false]
    intro l hl
    rw [hrel l hl]
    exact Bool.false_ne_true
  unfold releaseStore
  rw [hwait, if_neg Bool.false_ne_true, memRun_ok hf ho hperform]
  rfl

/-! ## Fences -/

theorem filterMap_cons_if {α : Type} (f : Nat → Bool) (k : Nat) (x : α) (xs : List (Nat × α)) :
    ((k, x) :: xs).filterMap (fun y => if f y.1 then some y.2 else none) =
      (if f k then [x] else []) ++ xs.filterMap fun y => if f y.1 then some y.2 else none := by
  cases h : f k <;> simp [h]

/-- The access paths of a mask, bit by bit (R13). -/
theorem pathsOf_eq (m : Byte) : pathsOf m.toNat =
    [(0, AccessPath.ls), (1, .at), (2, .mx), (3, .cp), (4, .wl), (5, .fb)].filterMap fun x =>
      if m.getLsbD x.1 then some x.2 else none := by
  simp only [filterMap_cons_if, List.filterMap_nil, List.append_nil]
  simp only [pathsOf, bitOf, BitVec.getLsbD, List.append_assoc]
  rfl

theorem execFence_ok {s : State} {e : Env} {scope : Byte} (hu : unflaggedCell e.w = none) (hi : Issues (.fence scope) s e)
    (hc : cellComing (past (.fence scope) s e) e.w = false) :
    ∃ t, fenceRun e (past (.fence scope) s e) scope.toNat [.ls, .at] = .done t ∧ exec (.fence scope) s = .next t := by
  refine ⟨_, rfl, ?_⟩
  change execFence scope s = _
  unfold execFence
  refine runInstr_done hi.1 hi.2 ?_
  rw [hu]
  dsimp only
  rw [hc, if_neg Bool.false_ne_true]
  rfl

theorem execXfence_ok {s : State} {e : Env} {scope paths : Byte} (hu : unflaggedCell e.w = none)
    (hp : paths ≠ 0) (hi : Issues (.xfence scope paths) s e)
    (hc : cellComing (past (.xfence scope paths) s e) e.w = false) :
    ∃ t, fenceRun e (past (.xfence scope paths) s e) scope.toNat (pathsOf paths.toNat) = .done t ∧
      exec (.xfence scope paths) s = .next t := by
  refine ⟨_, rfl, ?_⟩
  change execXfence scope paths s = _
  unfold execXfence
  refine runInstr_done hi.1 hi.2 ?_
  rw [hu]
  dsimp only
  rw [hc, Bool.and_false, if_neg Bool.false_ne_true, if_neg hp]
  rfl

/-- An XFENCE of no path has nothing to order. -/
theorem execXfence_noPath {s : State} {e : Env} {scope : Byte} (hu : unflaggedCell e.w = none) (hi : Issues (.xfence scope 0) s e) :
    exec (.xfence scope 0) s = .next (finished e (past (.xfence scope 0) s e) 1 []) := by
  change execXfence scope 0 s = _
  unfold execXfence
  refine runInstr_done hi.1 hi.2 ?_
  rw [hu]
  rfl

/-- Settles O33: LDACQ and STREL from what a load and a store of lanes come to, the fences from `fenceRun`. -/
theorem acquireReleaseAndFences : Obligations.AcquireReleaseAndFences := by
  unfold Obligations.AcquireReleaseAndFences
  refine ⟨fun s e d a b lit ts r1 => ⟨?_, ?_⟩, fun s e scope paths hu => ?_⟩
  · intro i r A lanes hi hfree hchk hx dropped
    have hrun := acquireRun_ok (lit := lit) hi hfree hchk hx
    refine runInstr_done (body := fun e s => unsupportedOp e s (acquireOp e d a b lit) fun s op => acquireRun e s op)
      hi.1 hi.2 ?_
    rw [unsupportedOp_of_noTx hfree.2.2, hrun]
    rfl
  · intro i r A lanes hi hsec hrel hfree hchk hx hh stored
    have hrun := releaseStore_ok (lit := lit) hrel hfree hchk hx hh
    change execStrel d a b lit s = _
    unfold execStrel
    refine runInstr_done hi.1 hi.2 ?_
    dsimp only
    rw [hsec]
    dsimp only
    rw [unsupportedOp_of_noTx hfree.2.2]
    exact hrun
  · dsimp only
    refine ⟨fun hi hc => ?_, fun hp hi hc => ?_, fun hp hi => ?_⟩
    · obtain ⟨t, ht, hex⟩ := execFence_ok hu hi hc
      cases ht; exact hex
    · obtain ⟨t, ht, hex⟩ := execXfence_ok hu hp hi hc
      rw [pathsOf_eq] at ht
      cases ht; exact hex
    · subst hp; exact execXfence_noPath hu hi

end Sys2Proof.Machine
end

section
/-! PROOF. What a CSTR that stores nothing leaves of the launches (O29: R223). -/

namespace Sys2Proof.Machine

/-! ## A CSTR with no lane selected

It stores nothing, and reaches no access: the launch's checksum is not written. The one-page clause of O29 has it written with
nothing added, through `State.setLaunch`, which makes every launch of that number one and the same. -/

/-- A CSTR of v1 in the lanes p1 selects, from the base s10. -/
def emptyCstr : Instr := .cstr 0x01 0x8A 0xC1

/-- The CSTR issues, in a wave whose p1 selects no lane; two launches of the wave's number stand, of different statuses. -/
def twinLaunches : State :=
  { State.reset.withFetchWord 64 0x8F018AC1 with
    issue := some (issueOf placedWave 0 (newPath (w64 placedPc) (BitVec.ofNat 32 0xFFFFFFFF)) (bundleWords (placedBundle 0x8F018AC1)))
    launches := [placedLaunch, { placedLaunch with status := 1 }] }

/-- What the CSTR is issued with there. -/
def twinEnv : Env :=
  { w := placedWave, p := newPath (w64 placedPc) (BitVec.ofNat 32 0xFFFFFFFF)
    iss := issueOf placedWave 0 (newPath (w64 placedPc) (BitVec.ofNat 32 0xFFFFFFFF)) (bundleWords (placedBundle 0x8F018AC1))
    et := .i64, clock := 0 }

/-- The statuses of the launches in the state an instruction answers. -/
def nextStatuses : Host.Outcome State Fault Refusal → List Nat
  | .next s => s.launches.map Launch.status
  | _ => []

theorem emptyCstr_issues : Issues emptyCstr twinLaunches twinEnv := ⟨by decide +kernel, by decide +kernel⟩

theorem emptyCstr_noLane : slotAccesses twinEnv 0x8A 0xC1 (twinEnv.x 0x01) = [] := by decide +kernel

theorem emptyCstr_free : accessFree (past emptyCstr twinLaunches twinEnv) twinEnv .ls { plainOp .compressStore with lanes := [] } :=
  ⟨by decide +kernel, by decide +kernel, rfl⟩

/-- The CSTR leaves both launches as they stand. -/
theorem emptyCstr_statuses : nextStatuses (exec emptyCstr twinLaunches) = [0, 1] := by decide +kernel

/-- Adding nothing to the checksum leaves two copies of one launch. -/
theorem addSS_twin_statuses :
    let r := past emptyCstr twinLaunches twinEnv
    let A := waveActor r twinEnv.w
    (performed twinEnv (noteAccess (addSS r A 0) A twinEnv.w.uid true []) (accessLatency r twinEnv.w false false []) [] .ls true
      0).launches.map Launch.status = [0, 0] := by
  decide +kernel

/-- Refutes O29: a CSTR whose one-page clause has no lane selected performs nothing and leaves the launches alone, while the
clause has zero added to the checksum of the wave's launch; with two launches of one number, 0 and 1 their statuses, that
addition would make both the first of them. -/
theorem not_pairsCompressAndExpand : ¬ Obligations.PairsCompressAndExpand := by
  unfold Obligations.PairsCompressAndExpand
  rintro ⟨-, hpacked⟩
  obtain ⟨hcstr, -⟩ := hpacked twinLaunches twinEnv 0x01 0x8A 0xC1 (by decide +kernel)
  dsimp only at hcstr
  rw [emptyCstr_noLane] at hcstr
  obtain ⟨-, honePage⟩ := hcstr emptyCstr_issues emptyCstr_free rfl
  obtain ⟨t, hnext, ht, -⟩ := honePage [] (past emptyCstr twinLaunches twinEnv) (by simp) rfl rfl
  have hstatuses : nextStatuses (exec emptyCstr twinLaunches) = [0, 0] := by
    rw [emptyCstr, hnext, ht]
    exact addSS_twin_statuses
  rw [emptyCstr_statuses] at hstatuses
  exact absurd hstatuses (by decide)

end Sys2Proof.Machine
end

section
/-! PROOF. The clocks and caps of the groves, and Canopy excursions (O48: R27, R419 to R423, R427). -/

namespace Sys2Proof.Machine

/-! ## Clocks and caps (R421, R422) -/

section ClockOf

variable {base ceil : Nat} {boosted : Bool} {current thermal : Option Nat}

theorem clockOf_le_base : (clockOf base boosted ceil current thermal).1 ≤ base :=
  (Nat.min_le_left _ _).trans (Nat.min_le_left _ _)

theorem clockOf_le_ceil : (clockOf base boosted ceil current thermal).1 ≤ ceil :=
  (Nat.min_le_left _ _).trans (Nat.min_le_right _ _)

theorem clockOf_le_current {k : Nat} (h : current = some k) : (clockOf base boosted ceil current thermal).1 ≤ k := by
  subst h; exact (Nat.min_le_right _ _).trans (Nat.min_le_left _ _)

theorem clockOf_le_thermal {k : Nat} (h : thermal = some k) : (clockOf base boosted ceil current thermal).1 ≤ k := by
  subst h; exact (Nat.min_le_right _ _).trans (Nat.min_le_right _ _)

end ClockOf

/-- The limit of a grove's rail, or its boost, in MHz (R420, R421): 1,200 on the low rail and while the rail switches. -/
def railLimit (low : Bool) (switching : Nat) (boosted : Bool) : Nat :=
  if low || switching ≠ 0 then 1200 else if boosted then 2400 else 2000

theorem railLimit_le (low : Bool) (switching : Nat) (boosted : Bool) : railLimit low switching boosted ≤ 2400 := by
  unfold railLimit
  split
  · omega
  · split <;> omega

theorem railLimit_low {low : Bool} {switching : Nat} (h : low = true ∨ switching ≠ 0) (boosted : Bool) :
    railLimit low switching boosted = 1200 :=
  if_pos (by simpa using h)

/-- A grove's clock over a boundary is that of R421, from the rail and the caps it goes into the interval with. -/
theorem nextGrove_clock (s : State) (g : Nat) : ∃ boosted, (nextGrove s g).clock =
    (clockOf (railLimit (nextGrove s g).low (nextGrove s g).switching boosted) boosted s.canopy.ceil
      (nextGrove s g).currentCap (nextGrove s g).thermalCap).1 :=
  ⟨_, rfl⟩

/-! ## Events of a grove -/

theorem exec_currentEmergency {g : Nat} (h : g < Config.groves) (s : State) : exec (.currentEmergency g) s =
    .next (bite s g { s.grove g with
      currentCap := some (Nat.min ((s.grove g).currentCap.getD 1200) 1200), coolRun := 0, clock := Nat.min (s.grove g).clock 1200
      limit := if (s.grove g).clock ≤ 1200 then (s.grove g).limit else 2 }) :=
  congrArg Host.Outcome.next (if_neg (Nat.not_le.mpr h))

theorem exec_thermalTrip {g : Nat} (h : g < Config.groves) (temp : Nat) (s : State) :
    exec (.thermalTrip g temp) s = .next (thermalBite (s.setGrove g { s.grove g with temp := temp }) g) :=
  congrArg Host.Outcome.next (if_neg (Nat.not_le.mpr h))

theorem thermalBite_off {s : State} {g : Nat} (h : (s.grove g).temp < thtrip s ∨ (s.grove g).tripped = true) :
    thermalBite s g = s := by
  unfold thermalBite
  exact if_pos (by simpa using h)

theorem thermalBite_trips {s : State} {g : Nat} (h : thtrip s ≤ (s.grove g).temp) (ht : (s.grove g).tripped = false) :
    thermalBite s g = bite s g { s.grove g with
      thermalCap := some (Nat.max 400 ((s.grove g).clock - 200)), tripped := true
      clock := Nat.min (s.grove g).clock (Nat.max 400 ((s.grove g).clock - 200)), limit := 1 } := by
  unfold thermalBite
  exact if_neg (by simpa [ht] using h)

/-! ## The control interval (R419) -/

/-- The groves over a boundary, with the readings noted: the announcements due and the over-current of R429, then each grove's
step, the budgets written, the trips, the gates, and the chip's proposal. -/
def boundary (s : State) (power : Nat) (temps : List (Nat × Nat)) : State :=
  let s0 := noteReadings s power temps
  let s1 := overCurrent (applyAnnounces { s0 with power := { s0.power with intervalDone := s.clock / Config.clocksPerUs } })
  let s2 := (List.range Config.groves).foldl (fun q g => q.setGrove g (nextGrove q g)) s1
  let s3 := { s2 with power := { s2.power with budHi := gbudhi s2, budLo := gbudlo s2 } }
  updateProposal ((List.range Config.groves).foldl gateGrove ((List.range Config.groves).foldl thermalBite s3))

section Interval

variable {s : State} (power : Nat) (temps : List (Nat × Nat))

theorem exec_controlInterval_between (h : s.clock % Config.clocksPerUs ≠ 0 ∨ s.clock / Config.clocksPerUs ≤ s.power.intervalDone) :
    exec (.controlInterval power temps) s = .next (noteReadings s power temps) :=
  congrArg Host.Outcome.next (if_pos (by simpa using h))

theorem exec_controlInterval_boundary (h0 : s.clock % Config.clocksPerUs = 0)
    (h : s.power.intervalDone < s.clock / Config.clocksPerUs) :
    exec (.controlInterval power temps) s = .next (boundary s power temps) :=
  congrArg Host.Outcome.next (if_neg (by simpa [h0] using h))

end Interval

/-! ## Canopy excursions (R27, R427) -/

/-! An announcement is entered among the announcements: it counts nothing, sends nothing and proposes nothing. A heartbeat is
sent, an excursion counted. None of them changes a grove. -/

section Steps

variable (s : State)

@[simp] theorem addAnnounce_excursions (a : Announce) :
    (addAnnounce s a).canopy.excursions = s.canopy.excursions := by unfold addAnnounce; split <;> rfl

@[simp] theorem addAnnounce_sent (a : Announce) : (addAnnounce s a).canopy.sent = s.canopy.sent := by
  unfold addAnnounce; split <;> rfl

@[simp] theorem addAnnounce_proposal (a : Announce) : (addAnnounce s a).canopy.proposal = s.canopy.proposal := by
  unfold addAnnounce; split <;> rfl

@[simp] theorem addAnnounce_groves (a : Announce) : (addAnnounce s a).groves = s.groves := by
  unfold addAnnounce; split <;> rfl

@[simp] theorem sendBeat_excursions (emergency : Bool) :
    (sendBeat s emergency).canopy.excursions = s.canopy.excursions := rfl

@[simp] theorem sendBeat_sent_length (emergency : Bool) :
    (sendBeat s emergency).canopy.sent.length = s.canopy.sent.length + 1 := rfl

@[simp] theorem sendBeat_proposal (emergency : Bool) : (sendBeat s emergency).canopy.proposal = s.canopy.proposal := rfl

@[simp] theorem sendBeat_groves (emergency : Bool) : (sendBeat s emergency).groves = s.groves := rfl

@[simp] theorem noteExcursion_excursions (g : Option Nat) (before after : Nat) :
    (noteExcursion s g before after 0).canopy.excursions = s.canopy.excursions + 1 := rfl

@[simp] theorem noteExcursion_sent (g : Option Nat) (before after kind : Nat) :
    (noteExcursion s g before after kind).canopy.sent = s.canopy.sent := rfl

@[simp] theorem noteExcursion_proposal (g : Option Nat) (before after kind : Nat) :
    (noteExcursion s g before after kind).canopy.proposal = s.canopy.proposal := rfl

@[simp] theorem noteExcursion_groves (g : Option Nat) (before after kind : Nat) :
    (noteExcursion s g before after kind).groves = s.groves := rfl

end Steps

/-- Each excursion is counted and broadcast, and changes no grove. -/
theorem excursion_counted (s : State) (g before after : Nat) :
    (excursion s g before after).canopy.excursions = s.canopy.excursions + 1 ∧
    (excursion s g before after).canopy.sent.length = s.canopy.sent.length + 1 ∧
    (excursion s g before after).groves = s.groves := by
  unfold excursion
  split <;> simp

theorem excursion_proposal_outside {s : State} (h : s.canopy.state < 2) (g before after : Nat) :
    (excursion s g before after).canopy.proposal = s.canopy.proposal := by
  simp [excursion, h]

theorem excursion_proposal_inGroup {s : State} (h : 2 ≤ s.canopy.state) (g before after : Nat) :
    (excursion s g before after).canopy.proposal =
      Nat.max 1200 ((List.range Config.groves).foldl (fun m k => Nat.min m (s.grove k).clock) 2400) := by
  simp only [excursion, if_neg (Nat.not_lt.mpr h), addAnnounce_proposal, sendBeat_proposal, noteExcursion_proposal]

/-- Settles O48: each event by its own law, and a grove's clock by the least of its base, the ceiling and the caps. -/
theorem controlIntervalsAndCaps : Obligations.ControlIntervalsAndCaps := by
  unfold Obligations.ControlIntervalsAndCaps
  refine ⟨fun s power temps => ⟨exec_controlInterval_between power temps, exec_controlInterval_boundary power temps⟩,
    fun s g => ?_, fun s g hg => exec_currentEmergency hg s, fun s g temp hg => ⟨fun h => ?_, fun h ht => ?_⟩,
    fun s g before after => ?_⟩
  · obtain ⟨boosted, hclock⟩ := nextGrove_clock s g
    refine ⟨rfl, rfl, rfl, fun h => ?_, ?_, ?_, fun k hk => ?_, fun k hk => ?_⟩ <;> rw [hclock]
    · exact clockOf_le_base.trans (railLimit_low h boosted).le
    · exact clockOf_le_base.trans (railLimit_le _ _ _)
    · exact clockOf_le_ceil
    · exact clockOf_le_current hk
    · exact clockOf_le_thermal hk
  · rw [exec_thermalTrip hg, thermalBite_off h]
  · rw [exec_thermalTrip hg, thermalBite_trips h ht]
    rfl
  · obtain ⟨hcount, hsent, hgroves⟩ := excursion_counted s g before after
    exact ⟨hcount, hsent, hgroves, fun h => excursion_proposal_outside h g before after,
      fun h => excursion_proposal_inGroup h g before after⟩

end Sys2Proof.Machine
end

section
/-! PROOF. What an instruction's completion changes (O50: R23, R38, R56, R134, R135). -/

namespace Sys2Proof.Machine

/-! ## Register writes -/

/-- Writes change the register files and nothing else of the wave. -/
theorem foldl_write_eq (xs : List RegWrite) (w : Wave) : xs.foldl Wave.write w =
    { w with v := (xs.foldl Wave.write w).v, s := (xs.foldl Wave.write w).s, p := (xs.foldl Wave.write w).p,
             perm := (xs.foldl Wave.write w).perm } := by
  induction xs generalizing w with
  | nil => rfl
  | cons x xs ih =>
    have hx : w.write x = { w with v := (w.write x).v, s := (w.write x).s, p := (w.write x).p, perm := (w.write x).perm } := by
      unfold Wave.write; split <;> rfl
    rw [List.foldl_cons, ih, hx]

/-- What is outstanding plays no part in a write. -/
theorem foldl_write_pending (xs : List RegWrite) (w : Wave) (cs : List Completion) :
    xs.foldl Wave.write { w with pending := cs } = { xs.foldl Wave.write w with pending := cs } := by
  induction xs generalizing w with
  | nil => rfl
  | cons x xs ih =>
    have hx : Wave.write { w with pending := cs } x = { w.write x with pending := cs } := by
      unfold Wave.write; split <;> rfl
    rw [List.foldl_cons, hx, ih, List.foldl_cons]

@[simp] theorem foldl_write_uid (xs : List RegWrite) (w : Wave) : (xs.foldl Wave.write w).uid = w.uid := by
  rw [foldl_write_eq]

theorem lower_eq (w : Wave) (k : Nat) : w.lower k = { w with flags := (w.lower k).flags } := by
  unfold Wave.lower; split <;> rfl

/-- What is outstanding plays no part in the lowering of a flag. -/
theorem lower_pending (w : Wave) (k : Nat) (cs : List Completion) :
    Wave.lower { w with pending := cs } k = { w.lower k with pending := cs } := by
  unfold Wave.lower; split <;> rfl

theorem lower_flags_congr {w w1 : Wave} (h : w1.flags = w.flags) (k : Nat) : (w1.lower k).flags = (w.lower k).flags := by
  unfold Wave.lower Wave.flag; split <;> simp only [h]

/-! ## Results written in issue order (R135) -/

/-- Nothing that has not returned is written. -/
theorem settle_of_unreturned (cs : List Completion) (blocked : List (RegFile × Nat)) (w : Wave)
    (h : ∀ d ∈ cs, d.returned = false) : settle cs blocked w = (cs, w) := by
  induction cs generalizing blocked with
  | nil => rfl
  | cons d cs ih =>
    obtain ⟨hd, hcs⟩ := List.forall_mem_cons.mp h
    simp [settle, hd, ih _ hcs]

/-- The one instruction that has returned is written, when nothing before it is still to write a register of its. -/
theorem settle_of_one_returned (pre post : List Completion) (c : Completion) (blocked : List (RegFile × Nat)) (w : Wave)
    (hc : c.returned = true) (hpre : ∀ d ∈ pre, d.returned = false) (hpost : ∀ d ∈ post, d.returned = false)
    (hfree : ∀ k ∈ writeKeys c.writes, k ∉ blocked) (hkeys : ∀ d ∈ pre, ∀ k ∈ writeKeys c.writes, k ∉ writeKeys d.writes) :
    settle (pre ++ c :: post) blocked w = (pre ++ post, (c.writes.foldl Wave.write w).lower c.setf) := by
  induction pre generalizing blocked with
  | nil =>
    have hall : ((writeKeys c.writes).all fun k => !blocked.contains k) = true :=
      List.all_eq_true.mpr fun k hk => by simpa using hfree k hk
    rw [List.nil_append, settle, hc, hall]
    exact settle_of_unreturned post _ _ hpost
  | cons d pre ih =>
    obtain ⟨hd, hpre⟩ := List.forall_mem_cons.mp hpre
    obtain ⟨hdk, hkeys⟩ := List.forall_mem_cons.mp hkeys
    have hfree' : ∀ k ∈ writeKeys c.writes, k ∉ blocked ++ writeKeys d.writes := fun k hk => by
      simpa using ⟨hfree k hk, hdk k hk⟩
    simp [settle, hd, ih _ hpre hfree' hkeys]

theorem settled_of_one_returned {w : Wave} {pre post : List Completion} {c : Completion} (hp : w.pending = pre ++ c :: post)
    (hc : c.returned = true) (hun : ∀ d ∈ pre ++ post, d.returned = false)
    (hkeys : ∀ d ∈ pre, ∀ k ∈ writeKeys c.writes, k ∉ writeKeys d.writes) :
    w.settled = { (c.writes.foldl Wave.write w).lower c.setf with pending := pre ++ post } := by
  unfold Wave.settled
  rw [hp, settle_of_one_returned pre post c [] w hc (fun d hd => hun d (List.mem_append_left _ hd))
    (fun d hd => hun d (List.mem_append_right _ hd)) (fun _ _ => List.not_mem_nil) hkeys]

theorem settle_uid (cs : List Completion) (blocked : List (RegFile × Nat)) (w : Wave) :
    (settle cs blocked w).2.uid = w.uid := by
  induction cs generalizing blocked w with
  | nil => rfl
  | cons d cs ih =>
    rw [settle]
    split
    · rw [ih]; simp
    · exact ih _ _

/-! ## The wave whose instruction completes -/

theorem completed_uid (w : Wave) (n : Nat) : (w.completed n).uid = w.uid := by
  have hnote : ∀ (cs : List Completion) (x : Wave), (cs.foldl noteComplete x).uid = x.uid := by
    intro cs
    induction cs with
    | nil => exact fun _ => rfl
    | cons c cs ih => exact fun x => ih (noteComplete x c)
  exact (hnote _ _).trans (settle_uid _ _ _)

theorem map_if_of_ne {n : Nat} {g : Completion → Completion} {cs : List Completion} (h : ∀ d ∈ cs, d.seqNo ≠ n) :
    (cs.map fun d => if d.seqNo = n then g d else d) = cs :=
  (List.map_congr_left fun d hd => if_neg (h d hd)).trans (List.map_id' cs)

section Completing

variable {w : Wave} {pre post : List Completion} {c : Completion}
  (hp : w.pending = pre ++ c :: post) (hothers : ∀ d ∈ pre ++ post, d.seqNo ≠ c.seqNo ∧ d.returned = false)
include hp hothers

/-- Its data returned, the instruction is written and its flag lowered, and only it is pending no more. -/
theorem returned_eq (hkeys : ∀ d ∈ pre, ∀ k ∈ writeKeys c.writes, k ∉ writeKeys d.writes) :
    w.returned c.seqNo none = { (c.writes.foldl Wave.write w).lower c.setf with pending := pre ++ post } := by
  have hun : ∀ d ∈ pre ++ post, d.returned = false := fun d hd => (hothers d hd).2
  have hret := settled_of_one_returned (w := { w with pending := pre ++ { c with returned := true } :: post })
    (c := { c with returned := true }) rfl rfl hun hkeys
  rw [foldl_write_pending, lower_pending] at hret
  unfold Wave.returned
  rw [hp, List.map_append, List.map_cons, map_if_of_ne fun d hd => (hothers d (List.mem_append_left _ hd)).1,
    map_if_of_ne fun d hd => (hothers d (List.mem_append_right _ hd)).1, if_pos rfl]
  exact hret

/-- Only the instruction has ended. -/
theorem endedIn_eq {w1 : Wave} (h1 : w1.pending = pre ++ post) : endedIn w w1 = [c] := by
  have kept : ∀ cs : List Completion, (∀ d ∈ cs, d ∈ pre ++ post) →
      (cs.filter fun d => !(pre ++ post).any fun x => x.seqNo == d.seqNo) = [] := by
    intro cs hcs
    refine List.filter_eq_nil_iff.mpr fun d hd => ?_
    have : ((pre ++ post).any fun x => x.seqNo == d.seqNo) = true := List.any_eq_true.mpr ⟨d, hcs d hd, beq_self_eq_true _⟩
    simp [this]
  have hc : ((pre ++ post).any fun x => x.seqNo == c.seqNo) = false :=
    List.any_eq_false.mpr fun d hd => by simpa using (hothers d hd).1
  rw [endedIn, hp, h1, List.filter_append, List.filter_cons, hc, kept pre fun d hd => List.mem_append_left _ hd,
    kept post fun d hd => List.mem_append_right _ hd]
  rfl

/-- The wave after the completion: results, flag, SS, format state and the held path, and nothing else. -/
theorem completed_eq (hf : w.fences = []) (hkeys : ∀ d ∈ pre, ∀ k ∈ writeKeys c.writes, k ∉ writeKeys d.writes) :
    let w1 := c.writes.foldl Wave.write w
    w.completed c.seqNo = { w.unhold c.seqNo with
      v := w1.v, s := w1.s, p := w1.p, perm := w1.perm, flags := (w.lower c.setf).flags
      pending := pre ++ post, ownSS := w.ownSS + c.ss, fmt := (noteComplete w c).fmt } := by
  intro w1
  have hflags : (w1.lower c.setf).flags = (w.lower c.setf).flags :=
    lower_flags_congr (by rw [show w1 = _ from foldl_write_eq c.writes w]) _
  have hw1 : w1.lower c.setf =
      { w with v := w1.v, s := w1.s, p := w1.p, perm := w1.perm, flags := (w.lower c.setf).flags } := by
    rw [lower_eq, hflags, show w1 = _ from foldl_write_eq c.writes w]
  unfold Wave.completed
  dsimp only
  rw [returned_eq hp hothers hkeys, endedIn_eq hp hothers rfl, List.foldl_cons, List.foldl_nil, hw1]
  simp [noteComplete, Wave.unhold, Wave.mapPaths, hf]

end Completing

/-- A path held by the instruction, or woken from its wait, issues again. -/
theorem mem_unhold_places {w : Wave} {n : Nat} {e : Nat × Path} (he : e ∈ w.places)
    (hpark : e.2.park = .hold n ∨ ∃ r, e.2.park = .woken n r) : (e.1, { e.2 with park := .running }) ∈ (w.unhold n).places := by
  have hheld : e.2.park.heldBy n = true := by
    rcases hpark with h | ⟨r, h⟩ <;> simp [h, Park.heldBy]
  exact List.mem_map.mpr ⟨e, he, Prod.ext rfl (if_pos hheld)⟩

/-! ## A wave changed wherever it stands -/

theorem wave?_modAny (s : State) (u v : Nat) {f : Wave → Wave} (hf : ∀ w, (f w).uid = w.uid) :
    (s.modAny u f).wave? v = (s.wave? v).map fun w => if w.uid = u then f w else w := wave?_modWave s u v f hf

theorem wave?_modAny_of_ne (s : State) {u v : Nat} (h : v ≠ u) {f : Wave → Wave} (hf : ∀ w, (f w).uid = w.uid) :
    (s.modAny u f).wave? v = s.wave? v := by
  rw [wave?_modAny s u v hf]
  cases hw : s.wave? v with
  | none => rfl
  | some w => rw [Option.map_some, if_neg (wave?_uid hw ▸ h)]

/-- A wave of another number stays as it is, resident or in a retirement tracker. -/
theorem anyWave?_modAny_of_ne (s : State) {u v : Nat} (h : v ≠ u) {f : Wave → Wave} (hf : ∀ w, (f w).uid = w.uid) :
    (s.modAny u f).anyWave? v = s.anyWave? v := by
  have htracker : ∀ ts : List TrackerEntry,
      ((ts.map fun t => if t.wave.uid == u then { t with wave := f t.wave } else t).findSome? fun t =>
        if t.wave.uid == v then some t.wave else none) =
      ts.findSome? fun t => if t.wave.uid == v then some t.wave else none := by
    intro ts
    rw [List.findSome?_map]
    refine congrArg (fun g => ts.findSome? g) (funext fun t => ?_)
    by_cases hu : t.wave.uid = u
    · have hv : ¬ u = v := fun e => h e.symm
      simp [hu, hf, hv]
    · simp [hu]
  unfold State.anyWave?
  rw [wave?_modAny_of_ne s h hf]
  cases s.wave? v with
  | some w => rfl
  | none =>
    change (s.cores.map _).findSome? _ = _
    rw [List.findSome?_map]
    exact congrArg (fun g => s.cores.findSome? g) (funext fun e => htracker e.2.tracker)

/-- Of a core only the retirement tracker changes. -/
theorem core_modAny (s : State) (u : Nat) (f : Wave → Wave) (k : Nat) :
    { (s.modAny u f).core k with tracker := [] } = { s.core k with tracker := [] } := by
  change { mget emptyCore (s.cores.map _) k with tracker := [] } = { mget emptyCore s.cores k with tracker := [] }
  unfold mget
  induction s.cores with
  | nil => rfl
  | cons e cs ih =>
    simp only [List.map_cons, mfind]
    split
    · rfl
    · exact ih

/-- A wave with no fence outstanding has none to settle. -/
theorem settleFences_of_no_fence {s : State} {u : Nat} {w : Wave} (hw : s.wave? u = some w) (hf : w.fences = []) :
    settleFences s u = s := by
  unfold settleFences; rw [hw]; dsimp only; rw [hf]; rfl

/-- Settles O50: the return of its data lets the instruction be written (R135), and the wave changes where it stands, resident
or in a retirement tracker. -/
theorem completionWritesResults : Obligations.CompletionWritesResults := by
  unfold Obligations.CompletionWritesResults
  intro s w pre post c hw hfences hpending hothers hkeys w1
  have huid : ∀ x : Wave, (x.completed c.seqNo).uid = x.uid := fun x => completed_uid x c.seqNo
  have hdone := completed_eq hpending hothers hfences hkeys
  have hwave : (s.modAny w.uid fun x => x.completed c.seqNo).wave? w.uid = some (w.completed c.seqNo) := by
    rw [wave?_modAny s w.uid w.uid huid, hw, Option.map_some, if_pos rfl]
  refine ⟨s.modAny w.uid fun x => x.completed c.seqNo, ?_, ?_, fun e he => mem_unhold_places he,
    fun uid h => ⟨wave?_modAny_of_ne s h huid, anyWave?_modAny_of_ne s h huid⟩, core_modAny s w.uid _, rfl⟩
  · change Host.Outcome.next (settleFences _ _) = _
    rw [settleFences_of_no_fence hwave (by rw [hdone]; exact hfences)]
  · rw [hwave, hdone]
    rfl

end Sys2Proof.Machine
end

section
/-! PROOF. What an issue with a result to come leaves alone (O17: R38, R131, R134, R355). -/

namespace Sys2Proof.Machine

/-! ## The waves past an issue -/

theorem issuedWave_uid (s : State) (e : Env) : (issuedWave s e).uid = e.w.uid := by
  unfold issuedWave; dsimp only; rw [Wave.modPath_uid]; rfl

/-- A refusal of the issuing path's write is over (R355). -/
theorem issuedWave_refused (s : State) (e : Env) :
    (issuedWave s e).refused = e.w.refused.filter fun x => x.1 != .path e.p.born := by
  unfold issuedWave; dsimp only; rw [Wave.modPath_refused]; rfl

theorem wave?_account (s : State) (e : Env) (sc : Bool) (u : Nat) :
    (account s e sc).wave? u = (s.wave? u).map fun x => if x.uid = e.w.uid then issuedWave s e else x := by
  have h := wave?_setWave s (issuedWave s e) u
  rw [issuedWave_uid] at h
  rw [← h]
  unfold State.wave?
  rw [State.setWave_waves, issuedWave_uid]
  rfl

/-- REPSTATE moved to its next iteration, or ended by its last (R146). -/
def repAdvanced (e : Env) (w : Wave) : Wave :=
  if e.iss.iteration.isSome then
    if e.iss.iteration.isSome && decide (1 < e.w.rep.left) then
      { w with rep := { w.rep with next := w.rep.next + 1, left := w.rep.left - 1 } }
    else { w with rep := emptyRep }
  else w

/-- The issuing path's advance (R132, R138). -/
def pathAdvanced (s : State) (e : Env) (lit : Bool) (p : Path) : Path :=
  let more := e.iss.iteration.isSome && decide (1 < e.w.rep.left)
  let p1 := if more then p else pathPast e.iss.bundle e.iss.slot lit p
  if e.iss.yieldBit && !more then yieldAt s e { p1 with yieldPending := false } else p1

/-- The wave with its path advanced. -/
def advancedWave (s : State) (e : Env) (lit : Bool) (w : Wave) : Wave :=
  (repAdvanced e w).modPath e.iss.place (pathAdvanced s e lit)

theorem repAdvanced_eq (e : Env) (w : Wave) : repAdvanced e w = { w with rep := (repAdvanced e w).rep } := by
  unfold repAdvanced
  split
  · split <;> rfl
  · rfl

theorem advancedWave_eq (s : State) (e : Env) (lit : Bool) (w : Wave) : advancedWave s e lit w =
    { w with rep := (repAdvanced e w).rep, places := (w.modPath e.iss.place (pathAdvanced s e lit)).places } := by
  unfold advancedWave
  rw [repAdvanced_eq, modPath_eq]
  unfold Wave.modPath
  dsimp only
  cases mfind w.places e.iss.place <;> rfl

theorem wave?_advance (s : State) (e : Env) (lit : Bool) (u : Nat) : (advance s e lit).wave? u =
    (s.wave? u).map fun w => if w.uid = e.w.uid then advancedWave s e lit w else w :=
  wave?_modWave s e.w.uid u (advancedWave s e lit) fun w => by rw [advancedWave_eq]

/-- The issuing wave past its issue. -/
theorem wave?_past {s : State} {e : Env} (h : env? s = some e) (i : Instr) : (past i s e).wave? e.w.uid =
    some (advancedWave (account s e i.scalarForm) e i.takesLiteral (issuedWave s e)) := by
  unfold past
  rw [wave?_advance, wave?_account, env?_wave h]
  simp [issuedWave_uid]

/-- The issuing wave past its issue: a refusal of its path's write is over. -/
theorem past_wave_refused {s : State} {e : Env} (h : env? s = some e) (i : Instr) :
    ∃ w, (past i s e).wave? e.w.uid = some w ∧ keepsWave e.w w ∧
      w.refused = e.w.refused.filter fun x => x.1 != .path e.p.born := by
  refine ⟨_, wave?_past h i, keepsWave.trans (b := issuedWave s e) (accepted_keeps ..) ?_, ?_⟩
  · rw [advancedWave_eq]; rfl
  · rw [advancedWave_eq]; exact issuedWave_refused s e

/-- No other wave is changed by an issue. -/
theorem wave?_past_of_ne (i : Instr) (s : State) (e : Env) {u : Nat} (h : u ≠ e.w.uid) : (past i s e).wave? u = s.wave? u := by
  unfold past
  rw [wave?_advance, wave?_account]
  cases hw : s.wave? u with
  | none => rfl
  | some w => simp [wave?_uid hw, h]

/-! ## The issue with its result to come -/

/-- Settles O17: the issue's accounts and advance, then the outstanding instruction on the issuing wave. -/
theorem issueFrame : Obligations.IssueFrame := by
  unfold Obligations.IssueFrame
  intro i s e lat ws hi t
  obtain ⟨w, hw, hkeep, hrefused⟩ := past_wave_refused hi.1 i
  have huid : w.uid = e.w.uid := wave?_uid hw
  have hseq : w.nextSeq = e.w.nextSeq := by rw [hkeep]
  have ht : t = ((past i s e).setWave (w.pends e (pended w e ws .none false 0))).schedule lat
      (.instructionComplete w.uid w.nextSeq) := congrArg Prod.snd (pend_some hw lat ws .none false 0)
  have hframe : t = { s with waves := t.waves, parts := t.parts, groves := t.groves, issue := none
                             agenda := insertEvent (s.clock + lat) (.instructionComplete e.w.uid e.w.nextSeq) s.agenda } := by
    rw [ht, past_eq i s e, huid, hseq]
    rfl
  refine ⟨hframe, fun a => ?_, fun u hu => ?_, w.pends e (pended w e ws .none false 0), pended w e ws .none false 0,
    finished_wave hw lat ws, ?_, hseq, rfl, rfl, rfl⟩
  · rw [hframe]; exact ⟨rfl, rfl, rfl⟩
  · rw [ht]
    change ((past i s e).setWave _).wave? u = _
    rw [wave?_setWave, wave?_past_of_ne i s e hu]
    cases hx : s.wave? u with
    | none => rfl
    | some x => simp [Wave.pends_uid, huid, wave?_uid hx, hu]
  · obtain ⟨places, rep, last, rfl⟩ : ∃ places rep last, w = { e.w with
        places := places, rep := rep, lastSlot := last, refused := e.w.refused.filter fun x => x.1 != .path e.p.born } :=
      ⟨w.places, w.rep, w.lastSlot, by rw [← hrefused]; exact hkeep⟩
    unfold Wave.pends Wave.raise
    split <;> rfl

end Sys2Proof.Machine
end

section
/-! PROOF. Taking an exception (O19: R44, R46, R49, R260, R262, R263). -/

namespace Sys2Proof.Machine

/-! ## Elided sections ended -/

/-- Ending a section changes paths, REPSTATE, transactional lanes and sections, and nothing else of the wave. -/
def sectionsOnly (w w' : Wave) : Prop :=
  w' = { w with places := w'.places, stack := w'.stack, held := w'.held, tx := w'.tx, elisions := w'.elisions, rep := w'.rep }

theorem sectionsOnly.trans {a b c : Wave} (h1 : sectionsOnly a b) (h2 : sectionsOnly b c) : sectionsOnly a c := by
  unfold sectionsOnly at *; rw [h2, h1]

theorem endSection_sectionsOnly (w : Wave) (x : Elision) : sectionsOnly w (w.endSection x) := rfl

theorem endSections_sectionsOnly (xs : List Elision) (w : Wave) : sectionsOnly w (xs.foldl Wave.endSection w) := by
  induction xs generalizing w with
  | nil => rfl
  | cons x xs ih => exact (endSection_sectionsOnly w x).trans (ih _)

theorem leaveSection_sectionsOnly (w : Wave) : sectionsOnly w w.leaveSection := endSections_sectionsOnly _ w

theorem leaveSection_uid (w : Wave) : w.leaveSection.uid = w.uid := by rw [leaveSection_sectionsOnly w]

theorem leaveSection_of_none {w : Wave} (h : w.section? = none) : w.leaveSection = w := by
  have : (w.elisions.filter fun x => !x.plain) = [] := by
    rw [List.filter_eq_nil_iff]
    exact fun x hx => List.find?_eq_none.mp h x hx
  unfold Wave.leaveSection
  rw [this]
  rfl

/-! ## The trap frame -/

/-- The frame's seven registers written one after another. -/
theorem writeFrame_eq (w : Wave) (mask : Mask) (t : TrapInfo) : w.writeFrame mask t =
    ((((((w.setS 56 (w64 (t.word.toNat * 2 ^ 32 + (w.regions.headD 0).toNat * 2 ^ 16 +
        (if t.cause.restartable then 2 ^ 9 else 0) + (if t.cause.precise then 2 ^ 8 else 0) + t.slot * 2 ^ 6 + t.cause.code))).setS
      57 t.bundle).setS 58 t.addr).setS 59 (w64 (mask.toNat * 2 ^ 32 + (t.lanes.getD mask).toNat))).setS 60
      t.detail).setS 61 (w64 (t.resumeBundle.toNat / 16 * 16 + t.resumeSlot))).setS 62 (w.mode.setWidth 64) := by
  have hb : ∀ (b : Bool) (n : Nat), (if b = true then n else 0) = b2n b * n := by
    intro b n; cases b <;> simp [b2n]
  have hr : List.range 7 = [0, 1, 2, 3, 4, 5, 6] := rfl
  simp only [Wave.writeFrame, trapFrame, hr, List.foldl, hb, List.getD_cons_zero, List.getD_cons_succ, w64, BitVec.ofNat_toNat]

theorem setSs_keeps (ks : List Nat) (f : Nat → Word) (w : Wave) : ks.foldl (fun w k => w.setS (56 + k) (f k)) w =
    { w with s := (ks.foldl (fun w k => w.setS (56 + k) (f k)) w).s } := by
  induction ks generalizing w with
  | nil => rfl
  | cons k ks ih => exact ih (w.setS (56 + k) (f k))

theorem writeFrame_keeps (w : Wave) (mask : Mask) (t : TrapInfo) :
    w.writeFrame mask t = { w with s := (w.writeFrame mask t).s } := setSs_keeps _ _ w

@[simp] theorem writeFrame_uid (w : Wave) (mask : Mask) (t : TrapInfo) : (w.writeFrame mask t).uid = w.uid := by
  rw [writeFrame_keeps]
@[simp] theorem writeFrame_v (w : Wave) (mask : Mask) (t : TrapInfo) : (w.writeFrame mask t).v = w.v := by rw [writeFrame_keeps]
@[simp] theorem writeFrame_p (w : Wave) (mask : Mask) (t : TrapInfo) : (w.writeFrame mask t).p = w.p := by rw [writeFrame_keeps]
@[simp] theorem writeFrame_tx (w : Wave) (mask : Mask) (t : TrapInfo) : (w.writeFrame mask t).tx = w.tx := by rw [writeFrame_keeps]
@[simp] theorem writeFrame_elisions (w : Wave) (mask : Mask) (t : TrapInfo) : (w.writeFrame mask t).elisions = w.elisions := by
  rw [writeFrame_keeps]

@[simp] theorem writeFrame_haltPending (w : Wave) (mask : Mask) (t : TrapInfo) :
    (w.writeFrame mask t).haltPending = w.haltPending := by rw [writeFrame_keeps]

/-! ## Entering the handler -/

/-- The point a trap's path resumes at: its own, or the LRES of the section it is in (R263). -/
def resumePoint (w : Wave) (p : Path) (t : TrapInfo) : TrapInfo :=
  match w.sectionOf p with
  | some x => { t with resumeBundle := x.bundle, resumeSlot := x.slot }
  | none => t

/-- The path that waits in the held copy (R44). -/
def stoppedPath (t : TrapInfo) (p : Path) : Path :=
  { p with pc := w64 (t.resumeBundle.toNat / 16 * 16), slot := if t.resumeSlot = 0 then 1 else t.resumeSlot
           fresh := t.resumeSlot == 0, park := .running }

/-- What waits for TRET behind the handler (R44). -/
def heldCopy (w : Wave) (place : Nat) (p : Path) (t : TrapInfo) : HeldCopy :=
  let w0 := (w.accepted (.path p.born)).leaveSection
  { places := mput w0.places place (stoppedPath t p), stack := w0.stack
    rep := if t.cause = .repBudget && w0.rep.path == place then emptyRep else w0.rep
    faultPlace := place, lastSlot := w.lastSlot }

/-- The path that runs the handler (R44). -/
def handlerPath (s : State) (x : Context) (p : Path) : Path :=
  { newPath x.handler p.mask with lastIssue := s.clock, issued := true, taken := true, born := s.counter }

/-- The wave as it enters the handler: its sections ended, its transactions aborted and the frame written (R44, R262, R263). -/
def framedWave (w : Wave) (p : Path) (t : TrapInfo) : Wave :=
  ((w.accepted (.path p.born)).leaveSection.abortTx 7).writeFrame p.mask (resumePoint w p t)

/-- A wave whose handler runs, with the copy held behind it. -/
def Wave.inHandler (w : Wave) (h : Path) (hc : HeldCopy) : Wave :=
  { w with mode := 0, places := [(0, h)], stack := [], rep := emptyRep, held := some hc, lastSlot := 2 }

@[simp] theorem Wave.inHandler_uid (w : Wave) (h : Path) (hc : HeldCopy) : (w.inHandler h hc).uid = w.uid := rfl
@[simp] theorem Wave.inHandler_s (w : Wave) (h : Path) (hc : HeldCopy) : (w.inHandler h hc).s = w.s := rfl
@[simp] theorem Wave.inHandler_v (w : Wave) (h : Path) (hc : HeldCopy) : (w.inHandler h hc).v = w.v := rfl
@[simp] theorem Wave.inHandler_p (w : Wave) (h : Path) (hc : HeldCopy) : (w.inHandler h hc).p = w.p := rfl
@[simp] theorem Wave.inHandler_tx (w : Wave) (h : Path) (hc : HeldCopy) : (w.inHandler h hc).tx = w.tx := rfl
@[simp] theorem Wave.inHandler_elisions (w : Wave) (h : Path) (hc : HeldCopy) : (w.inHandler h hc).elisions = w.elisions := rfl
@[simp] theorem Wave.inHandler_haltPending (w : Wave) (h : Path) (hc : HeldCopy) :
    (w.inHandler h hc).haltPending = w.haltPending := rfl

/-- The wave in its handler. -/
def trappedWave (s : State) (w : Wave) (x : Context) (place : Nat) (p : Path) (t : TrapInfo) : Wave :=
  (framedWave w p t).inHandler (handlerPath s x p) (heldCopy w place p (resumePoint w p t))

section Enter
variable {s : State} {w : Wave} {x : Context} {place : Nat} {p : Path}

@[simp] theorem framedWave_uid (t : TrapInfo) : (framedWave w p t).uid = w.uid := by
  rw [framedWave, writeFrame_uid]; exact leaveSection_uid _

theorem framedWave_haltPending (t : TrapInfo) : (framedWave w p t).haltPending = w.haltPending := by
  have h : (w.accepted (.path p.born)).leaveSection.haltPending = w.haltPending := by rw [leaveSection_sectionsOnly]; rfl
  rw [framedWave, writeFrame_haltPending, ← h]
  rfl

theorem trappedWave_uid (t : TrapInfo) : (trappedWave s w x place p t).uid = w.uid := by
  rw [trappedWave, Wave.inHandler_uid, framedWave_uid]

theorem trappedWave_s (t : TrapInfo) : (trappedWave s w x place p t).s = (framedWave w p t).s := by
  rw [trappedWave, Wave.inHandler_s]

theorem trappedWave_v (t : TrapInfo) : (trappedWave s w x place p t).v = w.v := by
  have h : (w.accepted (.path p.born)).leaveSection.v = w.v := by rw [leaveSection_sectionsOnly]; rfl
  rw [trappedWave, Wave.inHandler_v, framedWave, writeFrame_v, ← h]
  rfl

theorem trappedWave_p (t : TrapInfo) : (trappedWave s w x place p t).p = w.p := by
  have h : (w.accepted (.path p.born)).leaveSection.p = w.p := by rw [leaveSection_sectionsOnly]; rfl
  rw [trappedWave, Wave.inHandler_p, framedWave, writeFrame_p, ← h]
  rfl

theorem trappedWave_held (t : TrapInfo) :
    (trappedWave s w x place p t).held = some (heldCopy w place p (resumePoint w p t)) := rfl

theorem trappedWave_tx (t : TrapInfo) :
    (trappedWave s w x place p t).tx = ((w.accepted (.path p.born)).leaveSection.abortTx 7).tx := by
  rw [trappedWave, Wave.inHandler_tx, framedWave, writeFrame_tx]

theorem trappedWave_elisions (t : TrapInfo) :
    (trappedWave s w x place p t).elisions = (w.accepted (.path p.born)).leaveSection.elisions := by
  rw [trappedWave, Wave.inHandler_elisions, framedWave, writeFrame_elisions]; rfl

theorem trappedWave_sreg (t : TrapInfo) (n : Nat) : (trappedWave s w x place p t).sreg n = (framedWave w p t).sreg n := by
  rw [Wave.sreg, trappedWave_s, Wave.sreg]

/-- With a handler that the wave is not in, the path enters it. -/
theorem enterTrap_handler (hx : s.waveCtx w = some x) (hp : mfind w.places place = some p) (hh : w.held = none)
    (h0 : x.handler ≠ 0) (t : TrapInfo) :
    enterTrap s w place t = State.setWave { s with counter := s.counter + 1 } (trappedWave s w x place p t) := by
  unfold enterTrap
  simp only [hx, hp, hh, h0, Option.isSome_none, Bool.false_eq_true, if_false]
  rfl

theorem enterTrap_inHandler (hx : s.waveCtx w = some x) (hp : mfind w.places place = some p) (hh : w.held.isSome = true)
    (t : TrapInfo) : enterTrap s w place t = waveError s w t.bundle .doubleFault := by
  unfold enterTrap
  simp only [hx, hp, hh, if_true]

theorem enterTrap_noHandler (hx : s.waveCtx w = some x) (hp : mfind w.places place = some p) (hh : w.held = none)
    (h0 : x.handler = 0) (t : TrapInfo) :
    enterTrap s w place t = if t.cause = .haltRequest then s else waveError s w t.bundle t.cause := by
  unfold enterTrap
  simp only [hx, hp, hh, h0, Option.isSome_none, Bool.false_eq_true, if_false, if_true]

end Enter

/-! ## The trap an issuing path takes -/

/-- What the trap of an issuing path reports. -/
def issuedTrap (e : Env) (lit : Bool) (c : Cause) (lanes : Option Mask) (addr detail : Word) : TrapInfo :=
  let resume := if c.resumesNext then afterSlot e.iss.bundle e.iss.slot lit else (e.iss.bundle, e.iss.slot)
  { cause := c, word := if e.iss.iteration.isSome then e.iss.nextWord else e.iss.word, bundle := e.iss.bundle,
    slot := e.iss.slot, addr := addr, lanes := lanes, detail := detail, resumeBundle := resume.1, resumeSlot := resume.2 }

/-- The wave as its trap finds it: its path's yield has acted (R138), and the report the trap brings is cleared (R51). -/
def reportedWave (s : State) (e : Env) (w : Wave) (c : Cause) (addr : Word) : Wave :=
  consumeReport (if c.resumesNext && e.iss.yieldBit then
    w.modPath e.iss.place fun p => yieldAt s e { p with yieldPending := false } else w) c addr

/-- The same wave but for its paths' yields and the reports due. -/
def reportsOnly (w w' : Wave) : Prop :=
  w' = { w with places := w'.places, guardRep := w'.guardRep, cellReps := w'.cellReps, brokenPins := w'.brokenPins }

theorem reportsOnly.trans {a b c : Wave} (h1 : reportsOnly a b) (h2 : reportsOnly b c) : reportsOnly a c := by
  unfold reportsOnly at *; rw [h2, h1]

theorem consumeReport_reportsOnly (w : Wave) (c : Cause) (addr : Word) : reportsOnly w (consumeReport w c addr) := by
  unfold consumeReport
  split
  · rfl
  · split <;> rfl
  · split <;> rfl
  · rfl

theorem consumeReport_places (w : Wave) (c : Cause) (addr : Word) : (consumeReport w c addr).places = w.places := by
  unfold consumeReport
  split
  · rfl
  · split <;> rfl
  · split <;> rfl
  · rfl

theorem mfind_modPath {w : Wave} {place : Nat} {p : Path} (h : mfind w.places place = some p) (f : Path → Path) :
    mfind (w.modPath place f).places place = some (f p) := by
  unfold Wave.modPath; rw [h]; simp [mfind_mput]

theorem reportedWave_reportsOnly (s : State) (e : Env) (w : Wave) (c : Cause) (addr : Word) :
    reportsOnly w (reportedWave s e w c addr) := by
  refine reportsOnly.trans ?_ (consumeReport_reportsOnly _ c addr)
  split
  · unfold reportsOnly; rw [modPath_eq]
  · rfl

/-- The trapping path has its mask and its number. -/
theorem reportedWave_path {s : State} {e : Env} {w : Wave} {p : Path} (hp : mfind w.places e.iss.place = some p) (c : Cause)
    (addr : Word) : ∃ q, mfind (reportedWave s e w c addr).places e.iss.place = some q ∧ q.mask = p.mask ∧ q.born = p.born := by
  unfold reportedWave
  rw [consumeReport_places]
  split
  · refine ⟨_, mfind_modPath hp _, ?_⟩
    unfold yieldAt; split <;> exact ⟨rfl, rfl⟩
  · exact ⟨p, hp, rfl, rfl⟩

/-- The MASK packet of a handler that has been entered (R410). -/
def handlerMask (s : State) (w : Wave) : State :=
  match s.wave? w.uid with
  | none => s
  | some w1 => match mfind w1.places 0 with
    | some p => if w1.held.isSome then emitMask s w 0 3 p.mask p.pc else s
    | none => s

theorem handlerMask_only (s : State) (w : Wave) : tracesOnly s (handlerMask s w) := by
  unfold handlerMask
  split
  · exact .refl s
  · split
    · split
      · exact emitMask_only ..
      · exact .refl s
    · exact .refl s

/-- An issuing path's trap is taken as R44 says, and its MASK packet follows. -/
theorem takeTrap_eq {s : State} {e : Env} {w : Wave} (hw : s.wave? e.w.uid = some w) (lit : Bool) (c : Cause)
    (lanes : Option Mask) (addr detail : Word) : takeTrap s e lit c lanes addr detail =
      handlerMask (enterTrap s (reportedWave s e w c addr) e.iss.place (issuedTrap e lit c lanes addr detail)) w := by
  unfold takeTrap issuedTrap reportedWave handlerMask
  rw [hw]
  cases e.iss.iteration <;> cases c.resumesNext <;> rfl

/-- The wave in the handler that its trap enters. -/
theorem wave?_trapped {s : State} {w : Wave} {x : Context} {place : Nat} {p : Path} {y : Wave} (hw : s.wave? w.uid = some y)
    (t : TrapInfo) : (State.setWave { s with counter := s.counter + 1 } (trappedWave s w x place p t)).wave? w.uid =
      some (trappedWave s w x place p t) := by
  rw [wave?_setWave]
  change (s.wave? w.uid).map _ = _
  rw [hw, Option.map_some, trappedWave_uid, if_pos (wave?_uid hw)]

/-- With a handler that the wave is not in, an issuing path's trap enters it. -/
theorem takeTrap_handler {s : State} {e : Env} {w : Wave} {x : Context} {q : Path} {c : Cause} {addr : Word}
    (hw : s.wave? e.w.uid = some w) (hx : s.waveCtx w = some x) (hh : w.held = none) (h0 : x.handler ≠ 0)
    (hq : mfind (reportedWave s e w c addr).places e.iss.place = some q) (lit : Bool) (lanes : Option Mask) (detail : Word) :
    (takeTrap s e lit c lanes addr detail).wave? e.w.uid =
      some (trappedWave s (reportedWave s e w c addr) x e.iss.place q (issuedTrap e lit c lanes addr detail)) := by
  have hr := reportedWave_reportsOnly s e w c addr
  have hwu := wave?_uid hw
  have hu : (reportedWave s e w c addr).uid = e.w.uid := by rw [hr]; exact hwu
  rw [takeTrap_eq hw, (handlerMask_only _ w).wave?,
    enterTrap_handler (x := x) (by rw [hr]; exact hx) hq (by rw [hr]; exact hh) h0, ← hu]
  exact wave?_trapped (hu ▸ hw) _

/-! ## Outside any section -/

/-- Outside any section a trap finds the wave's paths as they stand. -/
theorem accepted_leaveSection {w : Wave} (h : w.section? = none) (r : Refuser) : (w.accepted r).leaveSection = w.accepted r :=
  leaveSection_of_none h

theorem abortTx_eq (w : Wave) (status : Nat) : (w.abortTx status).tx =
    w.tx.map fun t => if t.status = 0 then { t with status := status, code := 0, sectors := [] } else t := rfl

theorem resumePoint_of_none {w : Wave} (h : w.section? = none) (p : Path) (t : TrapInfo) : resumePoint w p t = t := by
  have hp : w.sectionOf p = none := by
    have hs := List.find?_eq_none.mp h
    refine List.find?_eq_none.mpr fun x hx hh => hs x hx ?_
    simp_all
  unfold resumePoint; rw [hp]

/-! ## In a section -/

section Sections
variable {w : Wave} {x y z : Elision} {q : Path}

theorem holds_congr {p q : Path} (hb : q.born = p.born) (hm : q.mask = p.mask) (x : Elision) : x.holds q = x.holds p := by
  unfold Elision.holds; rw [hb, hm]

theorem allPaths_mapPaths (w : Wave) (f : Path → Path) : (w.mapPaths f).allPaths = w.allPaths.map f := by
  unfold Wave.allPaths Wave.mapPaths
  cases w.held <;> simp [List.map_map, Function.comp_def]

/-- A path of a section that ends stands again at its LRES (R263). -/
def backToLock (x : Elision) (p : Path) : Path :=
  if x.holds p then
    { p with pc := x.bundle, slot := x.slot, fresh := false, taken := true, park := if p.parkedRjoin then .running else p.park }
  else p

theorem allPaths_endSection (w : Wave) (x : Elision) : (w.endSection x).allPaths = w.allPaths.map (backToLock x) := by
  rw [← allPaths_mapPaths]
  dsimp only [Wave.allPaths, Wave.endSection]
  rfl

/-- Ending a section moves its paths; each keeps its number and mask. -/
theorem mem_allPaths_endSection (hq : q ∈ w.allPaths) (x : Elision) :
    ∃ p ∈ (w.endSection x).allPaths, p.born = q.born ∧ p.mask = q.mask := by
  rw [allPaths_endSection]
  refine ⟨_, List.mem_map.mpr ⟨q, hq, rfl⟩, ?_⟩
  unfold backToLock
  split <;> exact ⟨rfl, rfl⟩

/-- A path of the ended section is to perform its LRES plainly (R263). -/
theorem endSection_plain (hq : q ∈ w.allPaths) (hx : x.holds q = true) :
    { x with path := q.born, lanes := [], plain := true } ∈ (w.endSection x).elisions :=
  List.mem_append_right _ (List.mem_map.mpr ⟨q, List.mem_filter.mpr ⟨hq, hx⟩, rfl⟩)

theorem endSection_keeps_plain (hz : z ∈ w.elisions) (hp : z.plain = true) (hx : x.plain = false) :
    z ∈ (w.endSection x).elisions := by
  refine List.mem_append_left _ (List.mem_filter.mpr ⟨hz, ?_⟩)
  rw [bne_iff_ne]
  rintro rfl
  rw [hp] at hx
  cases hx

theorem mem_endSection_tx {t : TxLane} (ht : t ∈ (w.endSection x).tx) : t ∈ w.tx ∧ t.lane ∉ x.lanes := by
  have := List.mem_filter.mp (show t ∈ w.tx.filter fun t => !x.lanes.contains t.lane from ht)
  simpa using this

/-! The sections of a list ended one after another. -/

theorem mem_allPaths_endSections (xs : List Elision) {w : Wave} (hq : q ∈ w.allPaths) :
    ∃ p ∈ (xs.foldl Wave.endSection w).allPaths, p.born = q.born ∧ p.mask = q.mask := by
  induction xs generalizing w q with
  | nil => exact ⟨q, hq, rfl, rfl⟩
  | cons x xs ih =>
    obtain ⟨p, hp, hb, hm⟩ := mem_allPaths_endSection hq x
    obtain ⟨p', hp', hb', hm'⟩ := ih hp
    exact ⟨p', hp', hb'.trans hb, hm'.trans hm⟩

theorem endSections_keep_plain {xs : List Elision} (hxs : ∀ x ∈ xs, x.plain = false) {w : Wave} (hz : z ∈ w.elisions)
    (hp : z.plain = true) : z ∈ (xs.foldl Wave.endSection w).elisions := by
  induction xs generalizing w with
  | nil => exact hz
  | cons x xs ih =>
    exact ih (fun y hy => hxs y (List.mem_cons_of_mem _ hy)) (endSection_keeps_plain hz hp (hxs x List.mem_cons_self))

theorem mem_endSections_tx {xs : List Elision} {w : Wave} {t : TxLane} (ht : t ∈ (xs.foldl Wave.endSection w).tx) :
    t ∈ w.tx ∧ ∀ x ∈ xs, t.lane ∉ x.lanes := by
  induction xs generalizing w with
  | nil => exact ⟨ht, fun x hx => nomatch hx⟩
  | cons x xs ih =>
    obtain ⟨h1, h2⟩ := ih ht
    obtain ⟨h3, h4⟩ := mem_endSection_tx h1
    exact ⟨h3, fun y hy => by rcases List.mem_cons.mp hy with rfl | hy; exacts [h4, h2 y hy]⟩

/-- Of a list of open sections the one that a path is in is left to be performed plainly by it (R263). -/
theorem endSections_plain {xs : List Elision} (hxs : ∀ x ∈ xs, x.plain = false) (hy : y ∈ xs) (hq : q ∈ w.allPaths)
    (hh : y.holds q = true) :
    { y with path := q.born, lanes := [], plain := true } ∈ (xs.foldl Wave.endSection w).elisions := by
  obtain ⟨pre, post, rfl⟩ := List.append_of_mem hy
  obtain ⟨p, hp, hb, hm⟩ := mem_allPaths_endSections pre hq
  rw [List.foldl_append, List.foldl_cons, ← hb]
  refine endSections_keep_plain (fun x hx => hxs x (by simp [hx])) (endSection_plain hp ?_) rfl
  rw [holds_congr hb hm, hh]

/-- The section a path is in is open, and holds it. -/
theorem sectionOf_some {p : Path} (h : w.sectionOf p = some y) : y ∈ w.elisions ∧ y.plain = false ∧ y.holds p = true := by
  have := List.find?_some h
  simp only [Bool.and_eq_true, Bool.not_eq_true'] at this
  exact ⟨List.mem_of_find?_eq_some h, this⟩

theorem mem_openSections (hy : y ∈ w.elisions) (hp : y.plain = false) : y ∈ w.elisions.filter fun x => !x.plain :=
  List.mem_filter.mpr ⟨hy, by rw [hp]; rfl⟩

theorem openSections_open : ∀ x ∈ w.elisions.filter fun x => !x.plain, x.plain = false := by
  intro x hx
  simpa using (List.mem_filter.mp hx).2

end Sections

theorem writeFrame_sreg_bundle (w : Wave) (mask : Mask) (t : TrapInfo) : (w.writeFrame mask t).sreg 57 = t.bundle := by
  rw [writeFrame_eq]; simp [Wave.sreg, Wave.setS, mget_mset]

theorem writeFrame_sreg_resume (w : Wave) (mask : Mask) (t : TrapInfo) :
    (w.writeFrame mask t).sreg 61 = w64 (t.resumeBundle.toNat / 16 * 16 + t.resumeSlot) := by
  rw [writeFrame_eq]; simp [Wave.sreg, Wave.setS, mget_mset]

theorem writeFrame_sreg_mode (w : Wave) (mask : Mask) (t : TrapInfo) : (w.writeFrame mask t).sreg 62 = w.mode.setWidth 64 := by
  rw [writeFrame_eq]; simp [Wave.sreg, Wave.setS, mget_mset]

theorem mem_abortTx {w : Wave} {status : Nat} {t : TxLane} (hs : status ≠ 0) (h : t ∈ (w.abortTx status).tx) :
    t.status ≠ 0 ∧ ∃ u ∈ w.tx, u.lane = t.lane := by
  obtain ⟨u, hu, rfl⟩ := List.mem_map.mp h
  unfold TxLane.abort
  split
  · exact ⟨hs, u, hu, rfl⟩
  · exact ⟨by assumption, u, hu, rfl⟩

/-- Settles O19: outside any section the wave's paths are held as they stand; in one they stand at its LRES, and the section's
lanes have left their transactions. -/
theorem takingAnException : Obligations.TakingAnException := by
  unfold Obligations.TakingAnException
  refine ⟨?_, ?_, ?_⟩
  · intro s e lit c lanes addr detail w x p hw hx hp h0 hh hsec word resume
    obtain ⟨q, hq, hmask, hborn⟩ := reportedWave_path (s := s) (e := e) hp c addr
    have hr := reportedWave_reportsOnly s e w c addr
    have hsec1 : (reportedWave s e w c addr).section? = none := by rw [hr]; exact hsec
    refine ⟨_, handlerPath s x q, heldCopy (reportedWave s e w c addr) e.iss.place q (issuedTrap e lit c lanes addr detail),
      takeTrap_handler hw hx hh h0 hq lit lanes detail, ?_⟩
    rw [trappedWave_s, trappedWave_v, trappedWave_p, trappedWave_tx, accepted_leaveSection hsec1, abortTx_eq]
    refine ⟨?_, by rw [hr], by rw [hr], rfl, rfl, rfl, rfl, rfl, rfl, rfl, hmask, rfl, ?_, ?_, rfl, ?_, ?_⟩
    · rw [framedWave, resumePoint_of_none hsec1, accepted_leaveSection hsec1, writeFrame_eq, hr, hmask]
      rfl
    · rw [trappedWave_held, resumePoint_of_none hsec1]
    · unfold heldCopy; rw [accepted_leaveSection hsec1, hr]; rfl
    · intro hc
      unfold heldCopy
      rw [accepted_leaveSection hsec1, hr]
      simp [issuedTrap, hc]
      rfl
    · rw [hr]; rfl
  · intro s e lit c lanes addr detail w x p y hw hx hp h0 hh hy
    obtain ⟨q, hq, hmask, hborn⟩ := reportedWave_path (s := s) (e := e) hp c addr
    have hr := reportedWave_reportsOnly s e w c addr
    set w1 := reportedWave s e w c addr
    have helisions : w1.elisions = w.elisions := by rw [hr]
    have hy1 : w1.sectionOf q = some y := by
      unfold Wave.sectionOf
      rw [helisions, funext fun x => congrArg (!x.plain && ·) (holds_congr hborn hmask x)]
      exact hy
    obtain ⟨hmem, hopen, hholds⟩ := sectionOf_some hy1
    have hpoint : resumePoint w1 q (issuedTrap e lit c lanes addr detail) =
        { issuedTrap e lit c lanes addr detail with resumeBundle := y.bundle, resumeSlot := y.slot } := by
      unfold resumePoint; rw [hy1]
    have hpath : q ∈ (w1.accepted (.path q.born)).allPaths :=
      List.mem_append_left _ (List.mem_append_left _ (List.mem_map.mpr ⟨_, mem_of_mfind hq, rfl⟩))
    refine ⟨_, handlerPath s x q, heldCopy w1 e.iss.place q (resumePoint w1 q (issuedTrap e lit c lanes addr detail)),
      stoppedPath (resumePoint w1 q (issuedTrap e lit c lanes addr detail)) q, { y with path := q.born, lanes := [], plain := true },
      takeTrap_handler hw hx hh h0 hq lit lanes detail, rfl, rfl, rfl, rfl, hmask, ?_, ?_, rfl, rfl, ?_, ?_, rfl, ?_, hborn, rfl, rfl,
      rfl, ?_⟩
    · rw [trappedWave_sreg, framedWave, writeFrame_sreg_bundle, hpoint]
      rfl
    · rw [trappedWave_sreg, framedWave, writeFrame_sreg_resume, hpoint]
    · unfold heldCopy; simp [mfind_mput]
    · rw [hpoint]; rfl
    · rw [trappedWave_elisions]
      exact endSections_plain openSections_open (mem_openSections hmem hopen) hpath hholds
    · intro t ht
      rw [trappedWave_tx] at ht
      obtain ⟨hs, u, hu, hl⟩ := mem_abortTx (by decide) ht
      exact ⟨hs, hl ▸ (mem_endSections_tx hu).2 y (mem_openSections hmem hopen)⟩
  · intro s w x place p t hx hp
    refine ⟨fun hh => enterTrap_inHandler hx hp hh t, fun hh h0 hc => ?_, fun hh h0 hc => ?_⟩
    · rw [enterTrap_noHandler hx hp hh h0, if_neg hc]
    · rw [enterTrap_noHandler hx hp hh h0, if_pos hc]

end Sys2Proof.Machine
end

section
/-! PROOF. Returning from an exception (O20: R45, R47, R147). -/

namespace Sys2Proof.Machine

/-! ## Outcomes of an issued instruction -/

section Outcomes
variable {s t : State} {e : Env} {i : Instr} {body : Env → State → Effect}

theorem runInstr_error {c : Cause} (hi : Issues i s e) (hb : body e (past i s e) = .error t c) :
    runInstr i s body = .next (waveError t e.w e.iss.bundle c) := by
  have hp := hi.2
  simp only [past] at hb
  simp [runInstr, hi.1, hp, hb]

end Outcomes

/-! ## Freed places refilled -/

/-- Moves into freed places change a wave's paths, and where REPSTATE and the operand log find them. -/
def placesOnly (w w' : Wave) : Prop :=
  w' = { w with places := w'.places, stack := w'.stack, rep := w'.rep, log := w'.log }

theorem placesOnly.trans {a b c : Wave} (h1 : placesOnly a b) (h2 : placesOnly b c) : placesOnly a c := by
  unfold placesOnly at *; rw [h2, h1]

theorem refillOnce_placesOnly (w : Wave) : placesOnly w w.refillOnce := by
  unfold Wave.refillOnce
  split
  · rfl
  · split <;> rfl

theorem foldl_keeps {α β : Type} (P : β → β → Prop) (hr : ∀ b, P b b) (ht : ∀ a b c, P a b → P b c → P a c) (f : β → α → β)
    (hf : ∀ b a, P b (f b a)) (xs : List α) (b : β) : P b (xs.foldl f b) := by
  induction xs generalizing b with
  | nil => exact hr b
  | cons x xs ih => exact ht _ _ _ (hf b x) (ih _)

theorem refill_placesOnly (w : Wave) : placesOnly w w.refill :=
  foldl_keeps placesOnly (fun _ => rfl) (fun _ _ _ => placesOnly.trans) _ (fun w _ => refillOnce_placesOnly w) _ w

/-- A path in a program-counter slot keeps it. -/
def keepsSlot (k : Nat) (p : Path) (w w' : Wave) : Prop := mfind w.places k = some p → mfind w'.places k = some p

theorem freeSlot_free {w : Wave} {k : Nat} (h : w.freeSlot = some k) : mfind w.places k = none := by
  have := List.find?_some h
  simpa using this

theorem freeFragment_ge {w : Wave} {k : Nat} (h : w.freeFragment = some k) : 2 ≤ k := by
  have := List.mem_of_find?_eq_some h
  simp at this
  omega

theorem mem_insertBy {α : Type} (le : α → α → Bool) (x y : α) (ys : List α) : x ∈ insertBy le y ys ↔ x = y ∨ x ∈ ys := by
  induction ys with
  | nil => simp [insertBy]
  | cons z zs ih =>
    unfold insertBy
    split
    · simp
    · simp only [List.mem_cons, ih]; tauto

theorem mem_sortBy {α : Type} (le : α → α → Bool) (x : α) (ys : List α) : x ∈ sortBy le ys ↔ x ∈ ys := by
  induction ys with
  | nil => simp [sortBy]
  | cons y ys ih => rw [sortBy, mem_insertBy, ih, List.mem_cons]

theorem fragments_ge {w : Wave} {x : Nat × Path} (h : x ∈ w.fragments) : x ∈ w.places ∧ 2 ≤ x.1 := by
  have := (mem_sortBy _ x _).mp h
  simpa using this

theorem refillOnce_keepsSlot {k : Nat} (hk : k < 2) (p : Path) (w : Wave) : keepsSlot k p w w.refillOnce := by
  intro h
  unfold Wave.refillOnce
  split
  next j src q _ hj hf =>
    have hsrc := (fragments_ge (hf ▸ List.mem_cons_self)).2
    have hne : k ≠ j := by rintro rfl; rw [freeSlot_free hj] at h; cases h
    simp only [Wave.movePath, mfind_mput, mfind_merase]
    rw [if_neg hne, if_neg (by dsimp only at hsrc; omega), h]
  · split
    next j q rest hj _ =>
      have := freeFragment_ge hj
      simp only [mfind_mput]
      rw [if_neg (by omega), h]
    · exact h

theorem refill_keepsSlot {w : Wave} {k : Nat} {p : Path} (hk : k < 2) (h : mfind w.places k = some p) :
    mfind w.refill.places k = some p :=
  foldl_keeps (keepsSlot k p) (fun _ => id) (fun _ _ _ h1 h2 h => h2 (h1 h)) _ (fun w _ => refillOnce_keepsSlot hk p w) _ w h

/-! ## The mode of a return -/

theorem modeFrom_eq (x : Word) : modeFrom x = (x.setWidth 24 >>> 8) <<< 8 := by
  apply BitVec.eq_of_toNat_eq
  simp only [modeFrom, BitVec.toNat_ofNat, BitVec.toNat_shiftLeft, BitVec.toNat_ushiftRight, BitVec.toNat_setWidth,
    Nat.shiftRight_eq_div_pow, Nat.shiftLeft_eq]
  omega

theorem modeFrom_setWidth (x : Word) : (modeFrom x).setWidth 64 = w64 (x.toNat / 256 % 2 ^ 16 * 256) := by
  apply BitVec.eq_of_toNat_eq
  simp only [modeFrom, w64, BitVec.toNat_ofNat, BitVec.toNat_setWidth]
  omega

/-! ## Returning -/

/-- The faulting path at the point s61 names, which is slot 0 for the bundle's start (R45). -/
def resumedPath (clock : Nat) (r : Word) (p : Path) : Path :=
  { p with pc := w64 (r.toNat / 16 * 16), slot := if r.toNat % 4 = 0 then 1 else r.toNat % 4, fresh := r.toNat % 4 == 0
           lastIssue := clock, taken := true, issued := true, park := .running, nopStall := 0 }

/-- A path stands where a resume point names (R147). -/
def standsAt (r : Word) (p : Path) : Bool :=
  p.pc == w64 (r.toNat / 16 * 16) && (if r.toNat % 4 = 0 then p.fresh else !p.fresh && p.slot == r.toNat % 4)

theorem standsAt_iff (r : Word) (p : Path) : standsAt r p = true ↔ p.pc = w64 (r.toNat / 16 * 16) ∧
    (if r.toNat % 4 = 0 then p.fresh = true else p.fresh = false ∧ p.slot = r.toNat % 4) := by
  unfold standsAt
  split <;> simp

/-- The wave that TRET brings back, before freed places are refilled: a repeat of the faulting path is dropped when the path
resumes elsewhere (R147). -/
def returnedWave (clock : Nat) (w : Wave) (h : HeldCopy) (p : Path) : Wave :=
  { w with mode := modeFrom (w.sreg 62), places := mput h.places h.faultPlace (resumedPath clock (w.sreg 61) p)
           stack := h.stack, held := none, lastSlot := h.lastSlot
           rep := if h.rep.valid && h.rep.path == h.faultPlace && !standsAt (w.sreg 61) p then emptyRep else h.rep }

theorem leaveTrap_eq {s : State} {w : Wave} {h : HeldCopy} {p : Path} (hh : w.held = some h)
    (hp : mfind h.places h.faultPlace = some p) : leaveTrap s w = s.setWave (returnedWave s.clock w h p).refill := by
  unfold leaveTrap
  simp only [hh, hp, Wave.modPath]
  rfl

/-! ## The halt taken at a return -/

/-- What a halt request's trap reports: the path's place, and no lane (R44, R47). -/
def haltInfo (p : Path) : TrapInfo :=
  { cause := .haltRequest, word := 0, bundle := p.pc, slot := 0, addr := 0, lanes := some 0, detail := 0,
    resumeBundle := p.pc, resumeSlot := if p.fresh then 0 else p.slot }

/-- The wave once its halt request is taken up. -/
def Wave.halted (w : Wave) : Wave := { w with haltPending := false }

theorem haltTrap_eq {s : State} {w : Wave} {place : Nat} {p : Path} (hp : mfind w.places place = some p) :
    haltTrap s w place = handlerMask (enterTrap (s.setWave w.halted) w.halted place (haltInfo p)) w := by
  unfold haltTrap handlerMask
  rw [hp]
  rfl

/-- With a handler that the wave is not in, a halt request's trap enters it. -/
theorem haltTrap_handler {s : State} {w y : Wave} {x : Context} {place : Nat} {p : Path} (hw : s.wave? w.uid = some y)
    (hx : s.waveCtx w = some x) (hh : w.held = none) (h0 : x.handler ≠ 0) (hp : mfind w.places place = some p) :
    (haltTrap s w place).wave? w.uid = some (trappedWave (s.setWave w.halted) w.halted x place p (haltInfo p)) := by
  have hw1 : (s.setWave w.halted).wave? w.halted.uid = some w.halted := by
    rw [wave?_setWave]
    change (s.wave? w.uid).map _ = _
    rw [hw, Option.map_some]
    exact congrArg some (if_pos (wave?_uid hw))
  rw [haltTrap_eq hp, (handlerMask_only _ w).wave?, enterTrap_handler (s := s.setWave w.halted) (w := w.halted) (x := x) hx hp hh h0]
  exact wave?_trapped hw1 _

/-- The MASK packet of a return (R410). -/
def returnMask (s : State) (w w1 : Wave) (place : Nat) : State :=
  match mfind w1.places place with
  | some p => emitMask s w place 4 p.mask p.pc
  | none => s

theorem returnMask_only (s : State) (w w1 : Wave) (place : Nat) : tracesOnly s (returnMask s w w1 place) := by
  unfold returnMask
  split
  · exact emitMask_only ..
  · exact .refl s

/-! ## TRET -/

section Tret
variable {s : State} {e : Env} {w : Wave} {h : HeldCopy}

/-- TRET outside a handler. -/
theorem exec_tret_privileged (hi : Issues .tret s e) (hh : e.w.held = none) :
    exec .tret s = .next (takeTrap (account s e false) e false .privileged none 0 0) := by
  change execTret s = _
  unfold execTret
  exact runInstr_trap hi.1 hi.2 (by rw [hh]; rfl)

/-- TRET while the handler has another live path. -/
theorem exec_tret_doubleFault (hi : Issues .tret s e) (hh : e.w.held = some h) (ho : ∃ x ∈ e.w.places, x.1 ≠ e.iss.place) :
    exec .tret s = .next (waveError (past .tret s e) e.w e.iss.bundle .doubleFault) := by
  have ha : (e.w.places.any fun x => x.1 != e.iss.place) = true := by simpa using ho
  change execTret s = _
  unfold execTret
  exact runInstr_error hi (by rw [hh]; dsimp only; rw [if_pos ha])

/-- The wave with an instruction of its issued and outstanding, whatever its accounts. -/
def issuesOnly (w w' : Wave) : Prop :=
  w' = { w with places := w'.places, rep := w'.rep, lastSlot := w'.lastSlot, refused := w'.refused, flags := w'.flags
                nextSeq := w'.nextSeq, pending := w'.pending }

theorem finished_issuesOnly {i : Instr} (hi : Issues i s e) (lat : Nat) (ws : List RegWrite) :
    ∃ w, (finished e (past i s e) lat ws).wave? e.w.uid = some w ∧ issuesOnly e.w w := by
  obtain ⟨w, hw, hkeep⟩ := past_wave hi.1 i
  refine ⟨_, finished_wave hw lat ws, ?_⟩
  unfold Wave.pends
  rw [raise_eq, hkeep]
  rfl

/-- TRET of the handler's only path: the wave is brought back, and a halt request held is then taken. -/
theorem exec_tret_returns (hi : Issues .tret s e) (hh : e.w.held = some h) (ho : ∀ x ∈ e.w.places, x.1 = e.iss.place) {p : Path}
    (hp : mfind h.places h.faultPlace = some p) :
    ∃ (w : Wave) (r : State), issuesOnly e.w w ∧ r.wave? e.w.uid = some (returnedWave s.clock w h p).refill ∧ r.ctxs = s.ctxs ∧
      exec .tret s = .next (if (returnedWave s.clock w h p).refill.haltPending then
        haltTrap r (returnedWave s.clock w h p).refill h.faultPlace else r) := by
  obtain ⟨w, hw, hiss⟩ := finished_issuesOnly hi 1 []
  have hwu : w.uid = e.w.uid := by rw [hiss]
  have hwh : w.held = some h := by rw [hiss]; exact hh
  obtain ⟨w0, hw0, -⟩ := past_wave hi.1 .tret
  obtain ⟨t, hfin⟩ : ∃ t, (pend (past .tret s e) e (some 1) [] .none false 0).2 = t := ⟨_, rfl⟩
  have hwt : t.wave? w.uid = some w := by rw [hwu, ← hfin]; exact hw
  have hclock : t.clock = s.clock := by rw [← hfin, pend_some hw0, State.schedule_clock, State.setWave_clock, past_eq]
  have hctxs : t.ctxs = s.ctxs := by rw [← hfin, pend_some hw0, State.schedule_ctxs, State.setWave_ctxs, past_eq]
  have hother : (e.w.places.any fun x => x.1 != e.iss.place) = false := by simpa using ho
  have hreturn := leaveTrap_eq (s := t) hwh hp
  rw [hclock] at hreturn
  have huid : (returnedWave s.clock w h p).refill.uid = w.uid := by rw [refill_placesOnly]; rfl
  have hwave : (t.setWave (returnedWave s.clock w h p).refill).wave? w.uid = some (returnedWave s.clock w h p).refill := by
    rw [wave?_setWave, hwt, Option.map_some, huid, if_pos rfl]
  refine ⟨w, ?_⟩
  generalize (returnedWave s.clock w h p).refill = y at hreturn huid hwave ⊢
  have hr := returnMask_only (t.setWave y) e.w y h.faultPlace
  refine ⟨returnMask (t.setWave y) e.w y h.faultPlace, hiss, ?_, ?_, ?_⟩
  · rw [hr.wave?, ← hwu, hwave]
  · rw [hr.ctxs, State.setWave_ctxs, hctxs]
  · change execTret s = _
    unfold execTret
    refine runInstr_done hi.1 hi.2 ?_
    simp only [hh, hother, Bool.false_eq_true, if_false, hfin, ← hwu, hwt, hreturn, hwave]
    cases y.haltPending <;> rfl

end Tret

theorem issuesOnly.sreg {w w' : Wave} (h : issuesOnly w w') (n : Nat) : w'.sreg n = w.sreg n := by rw [h]; rfl

theorem returned_haltPending (clock : Nat) (w : Wave) (h : HeldCopy) (p : Path) :
    (returnedWave clock w h p).refill.haltPending = w.haltPending := by rw [refill_placesOnly]; rfl

/-- The resume point as a handler's frame would name it: bits 3:2 of s61 are dropped (log entry 79). -/
theorem haltInfo_resumePoint (clock : Nat) (r : Word) (p : Path) :
    w64 ((haltInfo (resumedPath clock r p)).resumeBundle.toNat / 16 * 16 + (haltInfo (resumedPath clock r p)).resumeSlot) =
      w64 (r.toNat / 16 * 16 + r.toNat % 4) := by
  have hr := r.isLt
  by_cases h : r.toNat % 4 = 0 <;>
    simp only [haltInfo, resumedPath, h, w64, BitVec.toNat_ofNat, beq_self_eq_true, beq_iff_eq, if_true, if_false] <;>
    congr 1 <;> omega

/-- Settles O20: what is held comes back with s61 and s62, and a halt request held through the handler is taken there. -/
theorem returnFromException : Obligations.ReturnFromException := by
  unfold Obligations.ReturnFromException
  intro s e hi
  refine ⟨exec_tret_privileged hi, fun h => exec_tret_doubleFault hi, ?_, ?_⟩
  · intro h p hh ho hp hpf r same
    obtain ⟨w, t, hiss, hw, -, hexec⟩ := exec_tret_returns hi hh ho hpf
    have hw61 : w.sreg 61 = e.w.sreg 61 := hiss.sreg 61
    rw [returned_haltPending, show w.haltPending = false by rw [hiss]; exact hp] at hexec
    refine ⟨t, returnedWave s.clock w h p, resumedPath s.clock (w.sreg 61) p, hexec, hw, ?_, rfl, rfl, rfl, ?_, rfl, rfl, ?_, ?_,
      ?_, rfl, ?_, ?_, ?_⟩
    · rw [← modeFrom_eq, ← hiss.sreg]; rfl
    · refine if_congr ?_ rfl rfl
      have hsame : standsAt (w.sreg 61) p = true ↔ same := by rw [hw61]; exact standsAt_iff _ p
      rw [Bool.and_eq_true, Bool.and_eq_true, beq_iff_eq, Bool.not_eq_true', ← Bool.not_eq_true, hsame, and_assoc]
    · rw [hw61]; rfl
    · rw [hw61]; rfl
    · rw [hw61]; rfl
    · rw [hiss]; rfl
    · rw [hiss]; rfl
    · rw [hiss]; rfl
  · intro h p x hh ho hp hsec hx h0 hk hpf
    obtain ⟨w, t, hiss, hw, hctxs, hexec⟩ := exec_tret_returns hi hh ho hpf
    have hwu : w.uid = e.w.uid := by rw [hiss]
    rw [returned_haltPending, show w.haltPending = true by rw [hiss]; exact hp] at hexec
    obtain ⟨y, hy⟩ : ∃ y, (returnedWave s.clock w h p).refill = y := ⟨_, rfl⟩
    have hplaces : placesOnly (returnedWave s.clock w h p) y := hy ▸ refill_placesOnly _
    have hpath : mfind y.places h.faultPlace = some (resumedPath s.clock (w.sreg 61) p) := by
      rw [← hy]
      exact refill_keepsSlot hk (by simp [returnedWave, mfind_mput])
    rw [hy] at hw hexec
    have hyu : y.uid = e.w.uid := by rw [hplaces]; exact hwu
    have hyx : t.waveCtx y = some x := by
      rw [← hx, hplaces]
      unfold State.waveCtx State.ctx?
      rw [hctxs]
      dsimp only [returnedWave]
      rw [hiss]
    have hysec : y.halted.section? = none := by
      rw [← hsec, hplaces]
      unfold Wave.section?
      dsimp only [returnedWave, Wave.halted]
      rw [hiss]
    have htrap := haltTrap_handler (by rw [hyu]; exact hw) hyx (by rw [hplaces]; rfl) h0 hpath
    rw [hyu] at htrap
    refine ⟨_, _, _, heldCopy y.halted h.faultPlace (resumedPath s.clock (w.sreg 61) p)
      (resumePoint y.halted (resumedPath s.clock (w.sreg 61) p) (haltInfo (resumedPath s.clock (w.sreg 61) p))), hexec, htrap, ?_, rfl,
      rfl, rfl, rfl, ?_, rfl, ?_, ?_⟩
    · rw [trappedWave, Wave.inHandler_haltPending, framedWave_haltPending]; rfl
    · rw [trappedWave_held]
    · rw [trappedWave_sreg, framedWave, writeFrame_sreg_resume, resumePoint_of_none hysec, haltInfo_resumePoint, hiss.sreg]
    · rw [trappedWave_sreg, framedWave, writeFrame_sreg_mode, accepted_leaveSection hysec, ← hiss.sreg, ← modeFrom_setWidth]
      rw [hplaces]
      rfl

end Sys2Proof.Machine
end

section
/-! PROOF. Joining, ending and safe points (O24: R32, R36, R39, R40, R145, R151, R161, R255, R263, R270). -/

namespace Sys2Proof.Machine

/-! ## Live paths through a refill -/

theorem mput_perm {α : Type} (m : SMap α) (k : Nat) (x : α) (h : mfind m k = none) : (mput m k x).Perm ((k, x) :: m) := by
  induction m with
  | nil => exact .refl _
  | cons e m ih =>
    obtain ⟨j, y⟩ := e
    have hj : ¬ j = k := by rintro rfl; simp [mfind] at h
    simp only [mfind, if_neg hj] at h
    simp only [mput, if_neg hj]
    split
    · exact .refl _
    · exact ((ih h).cons _).trans (.swap _ _ _)

theorem perm_merase {α : Type} {m : SMap α} (hn : (m.map Prod.fst).Nodup) {k : Nat} {x : α} (h : (k, x) ∈ m) :
    m.Perm ((k, x) :: merase m k) := by
  induction m with
  | nil => cases h
  | cons e m ih =>
    obtain ⟨hk, hn⟩ := List.nodup_cons.mp hn
    rcases List.mem_cons.mp h with rfl | h
    · have : merase ((k, x) :: m) k = m := by
        unfold merase
        rw [List.filter_cons_of_neg (by simp), List.filter_eq_self]
        intro a ha
        have : a.1 ≠ k := fun hak => hk (List.mem_map.mpr ⟨a, ha, hak⟩)
        simpa using this
      rw [this]
    · have hne : e.1 ≠ k := fun hek => hk (List.mem_map.mpr ⟨_, h, hek.symm⟩)
      have : merase (e :: m) k = e :: merase m k := List.filter_cons_of_pos (by simpa using hne)
      rw [this]
      exact ((ih hn h).cons e).trans (.swap _ _ _)

theorem not_mem_of_mfind_none {α : Type} {m : SMap α} {k : Nat} (h : mfind m k = none) : k ∉ m.map Prod.fst :=
  fun hk => mfind_ne_none hk h

theorem takeFirst_perm {f : Path → Bool} {ps : List Path} {p : Path} {rest : List Path} (h : takeFirst f ps = some (p, rest)) :
    ps.Perm (p :: rest) := by
  induction ps generalizing p rest with
  | nil => cases h
  | cons q qs ih =>
    unfold takeFirst at h
    split at h
    · cases h; exact .refl _
    · cases hq : takeFirst f qs with
      | none => rw [hq] at h; cases h
      | some y =>
        rw [hq] at h
        cases h
        exact ((ih hq).cons q).trans (.swap _ _ _)

/-- The same live paths, at places that are each held once. -/
def sameLive (w w' : Wave) : Prop :=
  (w.places.map Prod.fst).Nodup → (w'.places.map Prod.fst).Nodup ∧ w'.livePaths.Perm w.livePaths

theorem sameLive.trans {a b c : Wave} (h1 : sameLive a b) (h2 : sameLive b c) : sameLive a c := by
  intro h
  obtain ⟨hb, pb⟩ := h1 h
  obtain ⟨hc, pc⟩ := h2 hb
  exact ⟨hc, pc.trans pb⟩

theorem refillOnce_sameLive (w : Wave) : sameLive w w.refillOnce := by
  intro hn
  unfold Wave.refillOnce
  split
  next k src p rest hk hf =>
    have hmem := (fragments_ge (hf ▸ List.mem_cons_self)).1
    have hnone : mfind (merase w.places src) k = none := by rw [mfind_merase, freeSlot_free hk, ite_self]
    have hkeys : ((merase w.places src).map Prod.fst).Nodup := hn.sublist (List.filter_sublist.map _)
    refine ⟨?_, ?_⟩
    · refine ((mput_perm _ k p hnone).map Prod.fst).nodup_iff.mpr (List.nodup_cons.mpr ⟨not_mem_of_mfind_none hnone, hkeys⟩)
    · refine List.Perm.append_right w.stack (((mput_perm _ k p hnone).map Prod.snd).trans ?_)
      exact ((perm_merase hn hmem).map Prod.snd).symm
  · split
    next k p rest hk ht =>
      have hnone : mfind w.places k = none := by
        have := List.find?_some hk
        simpa using this
      refine ⟨((mput_perm _ k p hnone).map Prod.fst).nodup_iff.mpr (List.nodup_cons.mpr ⟨not_mem_of_mfind_none hnone, hn⟩), ?_⟩
      refine (((mput_perm _ k p hnone).map Prod.snd).append_right rest).trans ?_
      refine List.Perm.trans ?_ ((takeFirst_perm ht).symm.append_left _)
      exact List.perm_middle.symm
    · exact ⟨hn, .refl _⟩

theorem refill_sameLive (w : Wave) : sameLive w w.refill :=
  foldl_keeps sameLive (fun _ h => ⟨h, .refl _⟩) (fun _ _ _ => sameLive.trans) _ (fun w _ => refillOnce_sameLive w) _ w

/-! ## Waves with their paths replaced -/

theorem rePlace_only (s : State) (w w' : Wave) : tracesOnly (s.setWave w') (rePlace s w w') := by
  unfold rePlace
  dsimp only
  exact foldl_only _ (fun _ _ => emitMask_only _ _ _ _ _ _) _ _

theorem wave?_rePlace {s : State} {u : Nat} {y w w' : Wave} (h : s.wave? u = some y) (hu : w'.uid = u) :
    (rePlace s w w').wave? u = some w' := by
  rw [(rePlace_only s w w').wave?, wave?_setWave, h, Option.map_some, if_pos (by rw [wave?_uid h, hu])]

theorem refill_uid (w : Wave) : w.refill.uid = w.uid := by rw [refill_placesOnly]

/-! ## The lowest token (R145) -/

theorem parkedRjoin_iff (p : Path) : p.parkedRjoin = true ↔ ∃ t, p.park = .rjoin t := by
  unfold Path.parkedRjoin
  cases p.park <;> simp

theorem lowestJoin_none {ps : List Path} (h : ∀ p ∈ ps, p.parkedRjoin = false) : lowestJoin ps = none := by
  induction ps with
  | nil => rfl
  | cons p ps ih =>
    rw [lowestJoin, ih fun q hq => h q (List.mem_cons_of_mem _ hq)]
    simp [h p List.mem_cons_self]

theorem lowestJoin_some {ps : List Path} (h : ∃ p ∈ ps, p.parkedRjoin = true) :
    ∃ q t, lowestJoin ps = some q ∧ q ∈ ps ∧ q.park = .rjoin t ∧ ∀ x ∈ ps, ∀ u, x.park = .rjoin u → t ≤ u := by
  induction ps with
  | nil => obtain ⟨p, hp, -⟩ := h; cases hp
  | cons p ps ih =>
    by_cases hrest : ∃ p ∈ ps, p.parkedRjoin = true
    · obtain ⟨q, t, hq, hmem, hpark, hle⟩ := ih hrest
      cases hp : p.park with
      | rjoin u =>
        by_cases htu : u ≤ t
        · refine ⟨p, u, by simp [lowestJoin, hq, hp, hpark, htu], List.mem_cons_self, hp, fun x hx v hv => ?_⟩
          rcases List.mem_cons.mp hx with rfl | hx
          · rw [hp] at hv; cases hv; exact le_refl _
          · exact htu.trans (hle x hx v hv)
        · refine ⟨q, t, by simp [lowestJoin, hq, hp, hpark, htu], List.mem_cons_of_mem _ hmem, hpark, fun x hx v hv => ?_⟩
          rcases List.mem_cons.mp hx with rfl | hx
          · rw [hp] at hv; cases hv; exact le_of_not_ge htu
          · exact hle x hx v hv
      | _ =>
        refine ⟨q, t, by simp [lowestJoin, hq, hp], List.mem_cons_of_mem _ hmem, hpark, fun x hx v hv => ?_⟩
        rcases List.mem_cons.mp hx with rfl | hx
        · rw [hp] at hv; cases hv
        · exact hle x hx v hv
    · obtain ⟨x, hx, hxp⟩ := h
      obtain rfl : x = p := (List.mem_cons.mp hx).resolve_right fun hx => hrest ⟨x, hx, hxp⟩
      obtain ⟨t, ht⟩ := (parkedRjoin_iff x).mp hxp
      have hnone : lowestJoin ps = none := lowestJoin_none fun y hy => by
        have := fun hyp => hrest ⟨y, hy, hyp⟩
        simpa using this
      refine ⟨x, t, by simp [lowestJoin, hnone, hxp], List.mem_cons_self, ht, fun y hy v hv => ?_⟩
      rcases List.mem_cons.mp hy with rfl | hy
      · rw [ht] at hv; cases hv; exact le_refl _
      · exact absurd ⟨y, hy, (parkedRjoin_iff y).mpr ⟨v, hv⟩⟩ hrest

/-! ## RJOIN_RESUME (R145) -/

theorem joinResume_running {s : State} {uid : Nat} {w : Wave} (hw : s.wave? uid = some w)
    (h : ∃ p ∈ w.livePaths, p.parkedRjoin = false ∧ p.parkedWait = false) : joinResume s uid = s := by
  obtain ⟨p, hp, hr, hwait⟩ := h
  have hall : (w.livePaths.all fun p => p.parkedRjoin || p.parkedWait) = false := by
    rw [List.all_eq_false]
    exact ⟨p, hp, by simp [hr, hwait]⟩
  unfold joinResume
  rw [hw]
  dsimp only
  rw [hall]
  rfl

/-- The path of a number that is parked at an RJOIN runs on at its next bundle (R145). -/
def joinGo (clock : Nat) (q p : Path) : Path :=
  if p.parkedRjoin && p.born == q.born then
    { jump (p.pc + 16) 0 p with park := .running, lastIssue := clock, issued := true, nopStall := 0 }
  else p

theorem joinGo_born (clock : Nat) (q p : Path) : (joinGo clock q p).born = p.born := by
  unfold joinGo; split <;> rfl

theorem joinGo_of_ne {clock : Nat} {q p : Path} (h : p.born ≠ q.born) : joinGo clock q p = p := by
  unfold joinGo; rw [if_neg (by simp [h])]

theorem joinGo_self {clock : Nat} {q : Path} (h : q.parkedRjoin = true) : joinGo clock q q =
    { jump (q.pc + 16) 0 q with park := .running, lastIssue := clock, issued := true, nopStall := 0 } := by
  unfold joinGo; rw [if_pos (by simp [h])]

/-- The wave whose path runs on. -/
def Wave.joinGone (w : Wave) (clock : Nat) (q : Path) : Wave :=
  { w with places := w.places.map fun e => (e.1, joinGo clock q e.2), stack := w.stack.map (joinGo clock q) }

theorem joinGone_livePaths (w : Wave) (clock : Nat) (q : Path) :
    (w.joinGone clock q).livePaths = w.livePaths.map (joinGo clock q) := by
  simp [Wave.livePaths, Wave.joinGone, Function.comp_def]

theorem joinResume_joined {s : State} {uid : Nat} {w : Wave} {q : Path} (hw : s.wave? uid = some w)
    (hall : ∀ p ∈ w.livePaths, p.parkedRjoin = true ∨ p.parkedWait = true) (hq : lowestJoin w.livePaths = some q) :
    (joinResume s uid).wave? uid = some (w.joinGone s.clock q).refill := by
  have h : (w.livePaths.all fun p => p.parkedRjoin || p.parkedWait) = true := by simpa using hall
  have huid := wave?_uid hw
  unfold joinResume
  rw [hw]
  dsimp only
  rw [h, if_pos rfl, hq]
  refine wave?_rePlace (y := w) ?_ (by rw [refill_uid]; exact huid)
  rw [(emitMask_only ..).wave?, hw]

theorem joinResume_lowest {s : State} {uid : Nat} {w : Wave} (hw : s.wave? uid = some w)
    (hall : ∀ p ∈ w.livePaths, p.parkedRjoin = true ∨ p.parkedWait = true) (hjoin : ∃ p ∈ w.livePaths, p.parkedRjoin = true)
    (hn : (w.places.map Prod.fst).Nodup) :
    ∃ (q p : Path) (t : Nat) (w1 : Wave), q ∈ w.livePaths ∧ q.park = .rjoin t ∧
      (∀ x ∈ w.livePaths, ∀ u, x.park = .rjoin u → t ≤ u) ∧ (joinResume s uid).wave? uid = some w1 ∧
      p ∈ w1.livePaths ∧ p.born = q.born ∧ p.pc = q.pc + 16 ∧ p.slot = 1 ∧ p.fresh = true ∧ p.park = .running ∧
      p.mask = q.mask ∧ (∀ x ∈ w1.livePaths, x.born ≠ q.born → x ∈ w.livePaths) ∧ w1.s = w.s ∧ w1.v = w.v ∧ w1.p = w.p := by
  obtain ⟨q, t, hq, hmem, hpark, hle⟩ := lowestJoin_some hjoin
  have hqj : q.parkedRjoin = true := (parkedRjoin_iff q).mpr ⟨t, hpark⟩
  have hkeys : ((w.joinGone s.clock q).places.map Prod.fst).Nodup := by simpa [Wave.joinGone, Function.comp_def] using hn
  obtain ⟨-, hperm⟩ := refill_sameLive (w.joinGone s.clock q) hkeys
  rw [joinGone_livePaths] at hperm
  have hplaces := refill_placesOnly (w.joinGone s.clock q)
  refine ⟨q, joinGo s.clock q q, t, _, hmem, hpark, hle, joinResume_joined hw hall hq,
    hperm.mem_iff.mpr (List.mem_map_of_mem hmem), joinGo_born .., ?_, ?_, ?_, ?_, ?_, fun x hx hne => ?_, ?_, ?_, ?_⟩
  · rw [joinGo_self hqj]; rfl
  · rw [joinGo_self hqj]; rfl
  · rw [joinGo_self hqj]; rfl
  · rw [joinGo_self hqj]
  · rw [joinGo_self hqj]; rfl
  · obtain ⟨y, hy, rfl⟩ := List.mem_map.mp (hperm.mem_iff.mp hx)
    rw [joinGo_born] at hne
    rwa [joinGo_of_ne hne]
  · rw [hplaces]; rfl
  · rw [hplaces]; rfl
  · rw [hplaces]; rfl

/-! ## RJOIN (R145) -/

section Rjoin
variable {s : State} {e : Env} {token : BitVec 16} {w : Wave}

theorem exec_rjoin_alone (hi : Issues (.rjoin token) s e) (hw : (past (.rjoin token) s e).wave? e.w.uid = some w)
    (hl : w.livePaths.length ≤ 1) : exec (.rjoin token) s = .next (finished e
      (e.move (past (.rjoin token) s e) fun x => { x with pc := e.iss.bundle + 16, slot := 1, fresh := true }) 1 []) := by
  change execRjoin token s = _
  unfold execRjoin
  refine runInstr_done hi.1 hi.2 ?_
  rw [hw]
  dsimp only
  rw [if_pos hl]
  rfl

/-- The wave with its path parked at its RJOIN, merged with those there, and the freed places refilled. -/
def joinParked (e : Env) (token : BitVec 16) (w : Wave) : Wave :=
  ((w.modPath e.iss.place (parkedAt e.iss.bundle e.iss.slot (.rjoin token.toNat))).mergeJoin e.iss.bundle).refill

theorem mergeJoin_uid (w : Wave) (bundle : Word) : (w.mergeJoin bundle).uid = w.uid := by
  unfold Wave.mergeJoin
  dsimp only
  split
  · rfl
  · split
    · rfl
    · split <;> rfl

theorem joinParked_uid (e : Env) (token : BitVec 16) (w : Wave) : (joinParked e token w).uid = w.uid := by
  rw [joinParked, refill_uid, mergeJoin_uid, Wave.modPath_uid]

/-- An RJOIN of a wave with other live paths parks, and then gives its place up where it can. -/
theorem exec_rjoin_parks (hi : Issues (.rjoin token) s e) (hw : (past (.rjoin token) s e).wave? e.w.uid = some w)
    (hl : 2 ≤ w.livePaths.length) {r : State}
    (hs : stackParked (rePlace (past (.rjoin token) s e) w (joinParked e token w)) w.uid 8 = (.ok (), r)) :
    exec (.rjoin token) s = .next (finished e r 1 []) := by
  change execRjoin token s = _
  unfold execRjoin
  refine runInstr_done hi.1 hi.2 ?_
  rw [hw]
  dsimp only
  rw [if_neg (by omega)]
  unfold joinParked at hs
  rw [hs]
  rfl

theorem stackParked_done {s : State} {uid : Nat} (hw : s.wave? uid = some w)
    (h : w.parkedFragments = [] ∨ 64 ≤ w.stack.length) (n : Nat) : stackParked s uid n = (.ok (), s) := by
  cases n with
  | zero => rfl
  | succ n =>
    unfold stackParked
    rw [hw]
    dsimp only
    cases hp : w.parkedFragments with
    | nil => rfl
    | cons x xs =>
      have h64 : 64 ≤ w.stack.length := h.resolve_left (by rw [hp]; exact List.cons_ne_nil _ _)
      dsimp only
      rw [if_pos h64]

theorem stackParked_pushed {s r1 : State} {uid k : Nat} {p : Path} {w2 : Wave} {xs : List (Nat × Path)} (hw : s.wave? uid = some w)
    (hp : w.parkedFragments = (k, p) :: xs) (hl : w.stack.length < 64) (hr : pushRecord s w p = (.ok (), r1))
    (hw2 : r1.wave? uid = some w2) (n : Nat) : stackParked s uid (n + 1) =
      stackParked (rePlace r1 w2 (Wave.refill { w2 with places := merase w2.places k, stack := p :: w2.stack })) uid n := by
  rw [stackParked, hw]
  dsimp only
  rw [hp]
  dsimp only
  rw [if_neg (by omega), hr]
  dsimp only
  rw [hw2]

end Rjoin

/-! ## EXIT and TAIL (R36, R151) -/

theorem withGuard_of_none {e : Env} (h : e.w.guardRep = none) (eff : Effect) : withGuard e eff = eff := by
  unfold withGuard; rw [h]

/-- What EXIT and TAIL leave of a wave before its place frees: outside any section of the path, its repeat ends and the
reservation is cleared (R151, R255). -/
def endedWave (place : Nat) (w : Wave) : Wave :=
  { w with rep := if w.rep.valid && w.rep.path == place then emptyRep else w.rep
           reservation := w.reservation.map fun r => { r with valid := false } }

section End
variable {s : State} {e : Env} {i : Instr}

/-- EXIT runs as an end by EXIT, and TAIL as one by TAIL. -/
theorem exec_end (hx : i = .exit ∨ i = .tail) (s : State) :
    exec i s = runInstr i s fun e s => endRun e s (i == .exit) := by
  rcases hx with rfl | rfl
  · change execExit s = _
    unfold execExit
    rfl
  · change execTail s = _
    unfold execTail
    rfl

theorem exec_end_inHandler (hx : i = .exit ∨ i = .tail) (hi : Issues i s e) (hg : e.w.guardRep = none)
    (hh : e.w.held.isSome = true) : exec i s = .next (waveError (past i s e) e.w e.iss.bundle .doubleFault) := by
  rw [exec_end hx]
  refine runInstr_error hi ?_
  unfold endRun
  rw [withGuard_of_none hg, if_pos hh]

/-- The wave after the path's end, before its place frees. -/
def endingWave (e : Env) (w : Wave) : Wave :=
  let left : Elision → List Nat := fun x => x.lanes.filter fun l => !inMask e.p.mask l
  let ended : Elision → Bool := fun x => x.holds e.p && (x.plain || (left x).isEmpty || !(w.allPaths.any fun p =>
    p.born != e.p.born && x.holds p))
  let dropped : TxLane → Bool := fun t => w.elisions.any fun x =>
    x.holds e.p && !x.plain && x.lanes.contains t.lane && (ended x || inMask e.p.mask t.lane)
  { w with
    rep := if w.rep.valid && w.rep.path == e.iss.place then emptyRep else w.rep
    reservation := w.reservation.map fun (r : Reservation) => { r with valid := false }
    tx := w.tx.filter fun t => !dropped t
    elisions := (w.elisions.filter fun x => !ended x).map fun (x : Elision) => if x.plain then x else { x with lanes := left x } }

/-- Outside any section of the path, its end leaves sections and transactions as they are. -/
theorem endingWave_outside {w : Wave} (h : ∀ x ∈ w.elisions, x.holds e.p = false) :
    endingWave e w = endedWave e.iss.place w := by
  have hleft : ∀ x ∈ w.elisions, (x.lanes.filter fun l => !inMask e.p.mask l) = x.lanes := by
    intro x hx
    rw [List.filter_eq_self]
    intro l hl
    have hall := (Bool.or_eq_false_iff.mp (h x hx)).2
    simpa using List.any_eq_false.mp hall l hl
  have htx : ∀ t ∈ w.tx, (!(w.elisions.any fun x => x.holds e.p && !x.plain && x.lanes.contains t.lane &&
      ((x.holds e.p && (x.plain || (x.lanes.filter fun l => !inMask e.p.mask l).isEmpty || !(w.allPaths.any fun p =>
        p.born != e.p.born && x.holds p))) || inMask e.p.mask t.lane))) = true := by
    intro t _
    rw [Bool.not_eq_true', List.any_eq_false]
    intro x hx
    simp [h x hx]
  have hkept : (w.elisions.filter fun x => !(x.holds e.p && (x.plain || (x.lanes.filter fun l => !inMask e.p.mask l).isEmpty ||
      !(w.allPaths.any fun p => p.born != e.p.born && x.holds p)))) = w.elisions := by
    rw [List.filter_eq_self]
    intro x hx
    simp [h x hx]
  have hmap : (w.elisions.map fun x => if x.plain then x else { x with lanes := x.lanes.filter fun l => !inMask e.p.mask l }) =
      w.elisions := by
    conv_rhs => rw [← List.map_id w.elisions]
    refine List.map_congr_left fun x hx => ?_
    rw [hleft x hx]
    exact ite_self _
  unfold endingWave endedWave
  dsimp only
  rw [hkept, hmap, List.filter_eq_self.mpr htx]

theorem dropPlace_uid (w : Wave) (place : Nat) : (w.dropPlace place).uid = w.uid := refill_uid _

/-- What lets an end take effect: no handler, no report due or still to come. -/
def endsNow (i : Instr) (s : State) (e : Env) : Prop :=
  e.w.guardRep = none ∧ e.w.held = none ∧ unflaggedCell e.w = none ∧ cellComing (past i s e) e.w = false ∧
    guardComing (past i s e) e.w = false

/-- The end's MASK packet, after it is outstanding. -/
def endMask (i : Instr) (s : State) (e : Env) : State :=
  emitMask (finished e (past i s e) 1 []) e.w e.iss.place 2 0 e.iss.bundle

theorem endMask_wave? (i : Instr) (s : State) (e : Env) (u : Nat) :
    (endMask i s e).wave? u = (finished e (past i s e) 1 []).wave? u := (emitMask_only ..).wave? u

theorem exec_end_stays (hx : i = .exit ∨ i = .tail) (hi : Issues i s e) (hn : endsNow i s e) (hl : 2 ≤ e.w.livePaths.length)
    {w : Wave} (hw : (finished e (past i s e) 1 []).wave? e.w.uid = some w) :
    exec i s = .next (rePlace (endMask i s e) w ((endingWave e w).dropPlace e.iss.place)) := by
  obtain ⟨hg, hh, hu, hc, hgc⟩ := hn
  have hlast : decide (e.w.livePaths.length ≤ 1) = false := decide_eq_false (by omega)
  rw [exec_end hx]
  refine runInstr_done hi.1 hi.2 ?_
  unfold endRun
  rw [withGuard_of_none hg, hh, hu, hc, hgc, hlast]
  change (match (endMask i s e).wave? e.w.uid with
    | none => _
    | some w => _) = _
  rw [endMask_wave?, hw]
  rfl

theorem exec_end_leaves (hx : i = .exit ∨ i = .tail) (hi : Issues i s e) (hn : endsNow i s e) (hl : e.w.livePaths.length ≤ 1)
    (hroom : i = .tail → (s.core e.w.core).tracker.length < 64)
    {w : Wave} (hw : (finished e (past i s e) 1 []).wave? e.w.uid = some w) :
    exec i s = .next (dropStops ((endMask i s e).setWave { (endingWave e w).dropPlace e.iss.place with leaving := some (i == .exit) })
      ((endingWave e w).dropPlace e.iss.place) e.iss.bundle) := by
  obtain ⟨hg, hh, hu, hc, hgc⟩ := hn
  have hlast : decide (e.w.livePaths.length ≤ 1) = true := by simpa using hl
  have hcore : ((past i s e).core e.w.core).tracker = (s.core e.w.core).tracker := by rw [past_eq]; rfl
  have htracker : (true && !(i == .exit) && decide (Config.trackerEntries ≤ ((past i s e).core e.w.core).tracker.length)) = false := by
    rcases hx with rfl | rfl
    · rfl
    · rw [hcore]; exact decide_eq_false (Nat.not_le_of_lt (hroom rfl))
  rw [exec_end hx]
  refine runInstr_done hi.1 hi.2 ?_
  unfold endRun
  rw [withGuard_of_none hg, hh, hu, hc, hgc, hlast]
  simp only [Option.isSome_none, Bool.false_eq_true, if_false, Bool.or_self, htracker]
  change (match (endMask i s e).wave? e.w.uid with
    | none => _
    | some w => _) = _
  rw [endMask_wave?, hw]
  rfl

theorem modPath_single {w : Wave} {k : Nat} {p : Path} (h : w.places = [(k, p)]) (f : Path → Path) :
    (w.modPath k f).places = [(k, f p)] := by
  simp [Wave.modPath, h, mfind, mput]

theorem livePaths_single {w : Wave} {k : Nat} {p : Path} (hp : mfind w.places k = some p) (hl : w.livePaths.length ≤ 1) :
    w.places = [(k, p)] ∧ w.stack = [] := by
  have hmem := mem_of_mfind hp
  have hlen : w.places.length + w.stack.length ≤ 1 := by simpa [Wave.livePaths] using hl
  have hpos := List.length_pos_of_mem hmem
  obtain ⟨x, hx⟩ := List.length_eq_one_iff.mp (show w.places.length = 1 by omega)
  rw [hx] at hmem ⊢
  rw [List.mem_singleton.mp hmem]
  exact ⟨rfl, List.length_eq_zero_iff.mp (by omega)⟩

/-- The place of the wave's only path is still its only one past its issue. -/
theorem finished_places_single (hi : Issues i s e) (hl : e.w.livePaths.length ≤ 1) {w : Wave}
    (hw : (finished e (past i s e) 1 []).wave? e.w.uid = some w) : (∃ q, w.places = [(e.iss.place, q)]) ∧ w.stack = [] := by
  obtain ⟨hp, hs⟩ := livePaths_single (env?_some hi.1).2.2.1 hl
  have hpast := wave?_past hi.1 i
  rw [finished_wave hpast] at hw
  obtain ⟨q, hq⟩ : ∃ q, (issuedWave s e).places = [(e.iss.place, q)] :=
    ⟨_, (modPath_single (w := e.w.accepted (.path e.p.born)) hp _)⟩
  have hstack : (issuedWave s e).stack = e.w.stack := by
    unfold issuedWave; dsimp only; rw [Wave.modPath_stack]; rfl
  cases hw
  unfold Wave.pends
  rw [raise_eq, advancedWave_eq]
  exact ⟨⟨_, modPath_single hq _⟩, hstack.trans hs⟩

theorem refill_empty {w : Wave} (hp : w.places = []) (hs : w.stack = []) : w.refill = w := by
  have hfrag : w.fragments = [] := by unfold Wave.fragments; rw [hp]; rfl
  have honce : w.refillOnce = w := by
    unfold Wave.refillOnce
    rw [hfrag, hs]
    split
    · contradiction
    · split
      · contradiction
      · rfl
  unfold Wave.refill
  generalize List.range 8 = ks
  induction ks with
  | nil => rfl
  | cons k ks ih => rw [List.foldl_cons, honce, ih]

theorem stopRecord_if_only (s : State) (w : Wave) (edge : Word) (c : Cause) (b : Bool) :
    tracesOnly s (if b then stopRecord s w edge c true else s) := by
  split
  · exact stopRecord_only ..
  · exact .refl s

theorem wave?_dropStops {t : State} {w y : Wave} (h : t.wave? w.uid = some y) (edge : Word) :
    (dropStops t w edge).wave? w.uid = some { y with watchStop := false, traceStop := false } := by
  have hu := wave?_uid h
  have htraces := (stopRecord_if_only t w edge .watchpoint w.watchStop).trans
    (stopRecord_if_only _ w edge .traceStop w.traceStop)
  unfold dropStops
  dsimp only
  rw [wave?_modWave _ w.uid w.uid (fun x => { x with watchStop := false, traceStop := false }) (fun _ => rfl), htraces.wave?, h,
    Option.map_some, if_pos hu]

/-- A wave whose last path has ended leaves. -/
theorem leaves_wave {w w1 : Wave} {t : State} (hw : t.wave? w1.uid = some w) {place : Nat} (byExit : Bool)
    (hp : ∃ q, w1.places = [(place, q)]) (hs : w1.stack = []) (edge : Word) :
    ∃ y, (dropStops (t.setWave { w1.dropPlace place with leaving := some byExit }) (w1.dropPlace place) edge).wave? w1.uid = some y ∧
      y.leaving = some byExit ∧ y.livePaths = [] := by
  obtain ⟨q, hq⟩ := hp
  have hempty : w1.dropPlace place = { w1 with places := [] } := by
    unfold Wave.dropPlace
    rw [show merase w1.places place = [] by rw [hq]; simp [merase]]
    exact refill_empty rfl hs
  have hlive : (w1.dropPlace place).livePaths = [] := by rw [hempty]; simp [Wave.livePaths, hs]
  have huid := dropPlace_uid w1 place
  generalize w1.dropPlace place = w2 at hlive huid ⊢
  rw [← huid] at hw ⊢
  have hset : (t.setWave { w2 with leaving := some byExit }).wave? w2.uid = some { w2 with leaving := some byExit } := by
    have hu := wave?_uid hw
    rw [wave?_setWave, hw, Option.map_some]
    exact congrArg some (if_pos hu)
  exact ⟨_, wave?_dropStops hset edge, rfl, hlive⟩

end End

/-! ## SPT and PSAVE (R39, R40) -/

section SafePoints
variable {s : State} {e : Env}

/-- The path goes on at the next bundle. -/
def nextBundle (e : Env) (p : Path) : Path := { p with pc := e.iss.bundle + 16, slot := 1, fresh := true }

section Spt
variable {n : Byte}

theorem exec_spt_inHandler (hi : Issues (.spt n) s e) (hh : e.w.held.isSome = true) :
    exec (.spt n) s = .next (finished e (e.move (past (.spt n) s e) (nextBundle e)) 1 []) := by
  change execSpt n s = _
  unfold execSpt
  refine runInstr_done hi.1 hi.2 ?_
  dsimp only
  rw [if_pos hh]
  rfl

theorem exec_spt_passes (hi : Issues (.spt n) s e) (hh : e.w.held = none) (hp : preemptPending (past (.spt n) s e) e.w = false) :
    exec (.spt n) s = .next (finished e (e.move (past (.spt n) s e) fun p =>
      { nextBundle e p with safePoint := some n.toNat }) 1 []) := by
  change execSpt n s = _
  unfold execSpt
  refine runInstr_done hi.1 hi.2 ?_
  dsimp only
  rw [hh, hp]
  rfl

theorem exec_spt_section (hi : Issues (.spt n) s e) (hh : e.w.held = none) (hp : preemptPending (past (.spt n) s e) e.w = true)
    {x : Elision} (hx : e.w.sectionOf e.p = some x) :
    exec (.spt n) s = .next (abortSection (past (.spt n) s e) e.w.uid x) := by
  change execSpt n s = _
  unfold execSpt
  refine runInstr_done hi.1 hi.2 ?_
  dsimp only
  rw [hh, hp, hx]
  rfl

theorem exec_spt_null (hi : Issues (.spt n) s e) (hh : e.w.held = none) (hp : preemptPending (past (.spt n) s e) e.w = true)
    (hx : e.w.sectionOf e.p = none) {r1 : State} (hr : safePointEntry (past (.spt n) s e) e.w n.toNat = (.ok none, r1)) :
    exec (.spt n) s = .next (waveError r1 e.w e.iss.bundle .safepointTable) := by
  change execSpt n s = _
  unfold execSpt
  refine runInstr_error hi ?_
  dsimp only
  rw [hh, hp, hx, hr]
  rfl

theorem exec_spt_saves (hi : Issues (.spt n) s e) (hh : e.w.held = none) (hp : preemptPending (past (.spt n) s e) e.w = true)
    (hx : e.w.sectionOf e.p = none) {r1 : State} {sp : SafePoint}
    (hr : safePointEntry (past (.spt n) s e) e.w n.toNat = (.ok (some sp), r1)) :
    exec (.spt n) s = .next (finished e (e.move (r1.modWave e.w.uid fun w => w.leaveSection.abortTx 8)
      (enterSave sp n.toNat e.next (past (.spt n) s e).clock)) 1 []) := by
  change execSpt n s = _
  unfold execSpt
  refine runInstr_done hi.1 hi.2 ?_
  dsimp only
  rw [hh, hp, hx, hr]
  rfl

end Spt

theorem exec_psave_privileged (hi : Issues .psave s e) (hs : e.p.inSave = false) :
    exec .psave s = .next (takeTrap (account s e false) e false .privileged none 0 0) := by
  change execPsave s = _
  unfold execPsave
  exact runInstr_trap hi.1 hi.2 (by rw [hs]; rfl)

theorem takeFirst_none {f : Path → Bool} {ps : List Path} (h : ∀ p ∈ ps, f p = false) : takeFirst f ps = none := by
  induction ps with
  | nil => rfl
  | cons p ps ih =>
    unfold takeFirst
    rw [h p List.mem_cons_self, ih fun q hq => h q (List.mem_cons_of_mem _ hq)]
    rfl

/-- The state in which a path has executed PSAVE: its wave's armed records are cancelled and the path is parked (R309). -/
def psaved (s : State) (e : Env) : State :=
  e.move (finished e (cancelArms (past .psave s e) e.w) 1 []) (parkedAt e.iss.bundle e.iss.slot .saved)

/-- PSAVE moves nothing on the fragment stack. -/
theorem psaved_stack (hi : Issues .psave s e) {w : Wave} (hw : (psaved s e).wave? e.w.uid = some w) : w.stack = e.w.stack := by
  obtain ⟨w0, hw0, hkeep⟩ := past_wave hi.1 .psave
  have hcancel : (cancelArms (past .psave s e) e.w).wave? e.w.uid = some w0 := hw0
  have hf := finished_wave hcancel 1 []
  unfold psaved Env.move at hw
  rw [wave?_modWave _ _ _ _ (fun w => Wave.modPath_uid w _ _), hf, Option.map_some, if_pos (wave?_uid hf)] at hw
  cases hw
  rw [Wave.modPath_stack, Wave.pends, raise_eq, hkeep]

/-- PSAVE of a path while every path on the fragment stack has executed it. -/
theorem exec_psave_parks (hi : Issues .psave s e) (hs : e.p.inSave = true) (hg : e.w.guardRep = none)
    (hstack : ∀ q ∈ e.w.stack, q.park = .saved) {w : Wave} (hw : (psaved s e).wave? e.w.uid = some w) :
    exec .psave s = .next (if w.livePaths.all fun p => p.park == .saved then dissolveAll (psaved s e) w else psaved s e) := by
  have hgives : savedGivesUp (psaved s e) w = none := by
    unfold savedGivesUp
    rw [takeFirst_none (ps := w.stack) fun p hp => by simp [hstack p (psaved_stack hi hw ▸ hp)]]
  change execPsave s = _
  unfold execPsave
  refine runInstr_done hi.1 hi.2 ?_
  dsimp only
  rw [hs, withGuard_of_none hg]
  change (match (psaved s e).wave? e.w.uid with
    | none => _
    | some w => _) = _
  rw [hw]
  dsimp only
  change (match savedGivesUp (psaved s e) w with
    | some (.error x, s3) => _
    | some (.ok _, s3) => _
    | none => _) = _
  rw [hgives]
  rfl

end SafePoints

theorem parkedAt_rjoin (bundle : Word) (slot n : Nat) : parkedAt bundle slot (.rjoin n) = fun p =>
    { p with pc := bundle, slot := slot, fresh := false, park := .rjoin n, waitResume := false } := by
  funext p
  unfold parkedAt
  rw [show (Park.rjoin n == Park.saved) = false from rfl, Bool.and_false]

theorem parkedAt_saved (bundle : Word) (slot : Nat) : parkedAt bundle slot .saved = fun p =>
    { p with pc := bundle, slot := slot, fresh := false, park := .saved } := by
  funext p
  unfold parkedAt
  rw [show (Park.saved == Park.saved) = true from rfl, Bool.and_true]

theorem issuesOnly.elisions {w w' : Wave} (h : issuesOnly w w') : w'.elisions = w.elisions := by rw [h]

theorem endedWave_dropPlace (place : Nat) (w : Wave) : (endedWave place w).dropPlace place = Wave.refill { w with
    places := merase w.places place
    reservation := w.reservation.map fun r => { r with valid := false }
    rep := if w.rep.valid && w.rep.path == place then emptyRep else w.rep } := by
  unfold endedWave Wave.dropPlace
  dsimp only

/-- An end that leaves the wave another path frees its place, and another path may move into it. -/
theorem endMask_dropPlace {i : Instr} {w : Wave} (hw : (finished e (past i s e) 1 []).wave? e.w.uid = some w)
    (hout : ∀ x ∈ w.elisions, x.holds e.p = false) :
    (rePlace (endMask i s e) w ((endingWave e w).dropPlace e.iss.place)).wave? e.w.uid =
      some ((endedWave e.iss.place w).dropPlace e.iss.place) := by
  rw [endingWave_outside hout]
  have hwu : w.uid = e.w.uid := wave?_uid hw
  have huid : ((endedWave e.iss.place w).dropPlace e.iss.place).uid = e.w.uid := (dropPlace_uid ..).trans hwu
  exact wave?_rePlace ((endMask_wave? ..).trans hw) huid

/-- An end of the wave's only path leaves the wave no path. -/
theorem endMask_leaves {i : Instr} (hi : Issues i s e) (hl : e.w.livePaths.length ≤ 1) {w : Wave}
    (hw : (finished e (past i s e) 1 []).wave? e.w.uid = some w) (byExit : Bool) :
    ∃ y, (dropStops ((endMask i s e).setWave { (endingWave e w).dropPlace e.iss.place with leaving := some byExit })
      ((endingWave e w).dropPlace e.iss.place) e.iss.bundle).wave? e.w.uid = some y ∧ y.leaving = some byExit ∧ y.livePaths = [] := by
  obtain ⟨hplaces, hstack⟩ := finished_places_single hi hl hw
  have hwu : w.uid = e.w.uid := wave?_uid hw
  have huid : (endingWave e w).uid = e.w.uid := hwu
  have hends := leaves_wave (w := w) (w1 := endingWave e w) (t := endMask i s e)
    ((congrArg _ huid).trans ((endMask_wave? ..).trans hw)) byExit hplaces hstack e.iss.bundle
  rwa [huid] at hends

/-- Settles O24: RJOIN, RJOIN_RESUME, EXIT, TAIL, SPT and PSAVE, each by its own cases; the refill of freed places keeps the
live paths, and so the path an RJOIN_RESUME releases and those it leaves alone are found again after it. -/
theorem joiningEndingAndSafePoints : Obligations.JoiningEndingAndSafePoints := by
  unfold Obligations.JoiningEndingAndSafePoints
  refine ⟨?_, ?_, ?_, ?_⟩
  · intro s e token w hi hw
    refine ⟨exec_rjoin_alone hi hw, fun hl => ?_⟩
    intro parked w1 r
    have hw1 : w1 = joinParked e token w := by
      unfold joinParked
      rw [parkedAt_rjoin]
    have huid : w.uid = e.w.uid := wave?_uid hw
    have hr : r.wave? w.uid = some w1 := by
      rw [huid]
      exact wave?_rePlace hw (by rw [hw1, joinParked_uid, huid])
    have hparks : ∀ {q : State}, stackParked r w.uid 8 = (.ok (), q) → exec (.rjoin token) s = .next (finished e q 1 []) := by
      intro q hq
      refine exec_rjoin_parks hi hw hl ?_
      rw [← hw1]
      exact hq
    refine ⟨fun hfull => hparks (stackParked_done hr hfull 8), fun k p r1 w2 hp hroom hpush hw2 => ?_⟩
    rw [← huid] at hw2
    have hwu : w2.uid = w.uid := wave?_uid hw2
    have hpushed := stackParked_pushed hr hp hroom hpush hw2 7
    have hu3 := refill_uid { w2 with places := merase w2.places k, stack := p :: w2.stack }
    revert hpushed hu3
    generalize Wave.refill { w2 with places := merase w2.places k, stack := p :: w2.stack } = w3
    intro hpushed hu3 _ hnone
    exact hparks (hpushed.trans (stackParked_done (wave?_rePlace hw2 (hu3.trans hwu)) (.inl hnone) 7))
  · intro s uid w hw
    exact ⟨joinResume_running hw, fun hall hjoin _ hn => joinResume_lowest hw hall hjoin hn⟩
  · intro s e i hx hi hg
    refine ⟨exec_end_inHandler hx hi hg, fun hh hu hc hgc => ⟨fun hl hout => ?_, fun hl hroom => ?_⟩⟩
    · obtain ⟨w, hw, hiss⟩ := finished_issuesOnly hi 1 []
      have hout' : ∀ x ∈ w.elisions, x.holds e.p = false := fun x hm => hout x (hiss.elisions ▸ hm)
      refine ⟨_, w, exec_end_stays hx hi ⟨hg, hh, hu, hc, hgc⟩ hl hw, hw, ?_⟩
      rw [← endedWave_dropPlace]
      exact endMask_dropPlace hw hout'
    · obtain ⟨w, hw, -⟩ := finished_issuesOnly hi 1 []
      obtain ⟨y, hy⟩ := endMask_leaves hi hl hw (i == .exit)
      exact ⟨_, y, exec_end_leaves hx hi ⟨hg, hh, hu, hc, hgc⟩ hl hroom hw, hy⟩
  · intro s e n
    refine ⟨fun hi => ?_, fun hi => ⟨exec_psave_privileged hi, fun hs hg hstack => ?_⟩⟩
    · exact ⟨exec_spt_inHandler hi, exec_spt_passes hi, fun hh hp x hx => exec_spt_section hi hh hp hx, fun hh hp hx =>
        ⟨fun r1 hr => exec_spt_null hi hh hp hx hr, fun r1 sp hr => exec_spt_saves hi hh hp hx hr⟩⟩
    · intro r w hw
      have hr : r = psaved s e := by
        unfold psaved
        rw [parkedAt_saved]
      rw [hr] at hw ⊢
      exact exec_psave_parks hi hs hg hstack hw

end Sys2Proof.Machine
end

section
/-! PROOF. Atomic operations at their homes (O35: R46, R239, R243, R244, R246, R247, R248, R252, R253, R254). -/

namespace Sys2Proof.Machine

/-! ## Rounding to the nearest integer, ties to even -/

/-- A magnitude `m / h` rounds to the integer `n`: no other is nearer, and of two as near it is the even one. -/
def nearestEven (n x h : Int) : Prop :=
  2 * (n * h - x) ≤ h ∧ 2 * (x - n * h) ≤ h ∧ (2 * (n * h - x) = h ∨ 2 * (x - n * h) = h → n % 2 = 0)

theorem nearestEven.neg {n x h : Int} (hn : nearestEven n x h) : nearestEven (-n) (-x) h := by
  obtain ⟨hlo, hhi, hties⟩ := hn
  have hmul : -n * h = -(n * h) := Int.neg_mul ..
  unfold nearestEven
  rw [hmul]
  exact ⟨by omega, by omega, fun htie => by have := hties (by omega); omega⟩

theorem nearestEven_zero {m h : Int} (h0 : 0 ≤ m) (hm : 2 * m < h) : nearestEven 0 m h :=
  ⟨by omega, by omega, fun _ => rfl⟩

/-- The quotient with its remainder against half the divisor. -/
theorem roundAt_nearestEven (neg : Bool) (m : Nat) {e : Int} (he : e < 0) :
    nearestEven ((roundAt .rne neg m e 0).1 : Int) m ((2 ^ (-e).toNat : Nat) : Int) := by
  obtain ⟨d, hd⟩ : ∃ d, (-e).toNat = d + 1 := ⟨(-e).toNat - 1, by omega⟩
  have hd0 : (0 - e).toNat = d + 1 := by omega
  unfold roundAt
  rw [if_neg (by omega), hd0, hd]
  simp only [Nat.add_sub_cancel]
  have hdiv := Nat.div_add_mod m (2 ^ (d + 1))
  have hlt := Nat.mod_lt m (Nat.two_pow_pos (d + 1))
  have hhalf : 2 ^ (d + 1) = 2 * 2 ^ d := by rw [pow_succ]; omega
  generalize 2 ^ (d + 1) = h at *
  generalize 2 ^ d = half at *
  generalize m / h = n at *
  generalize m % h = r at *
  have hm : (m : Int) = n * h + r := by rw [← hdiv]; push_cast; ring
  unfold nearestEven
  rw [hm]
  by_cases hup : half < r ∨ half = r ∧ n % 2 = 1
  · have hup' : (decide (half < r) || decide (half = r) && n % 2 == 1) = true := by simpa using hup
    rw [hup', show ((n + b2n true : Nat) : Int) = n + 1 from rfl, add_mul]
    exact ⟨by omega, by omega, fun htie => by omega⟩
  · have hup' : (decide (half < r) || decide (half = r) && n % 2 == 1) = false := by
      rw [← Bool.not_eq_true]; simpa using hup
    rw [hup', show ((n + b2n false : Nat) : Int) = n from rfl]
    exact ⟨by omega, by omega, fun htie => by omega⟩

/-- `±m × 2^e` as an integer is its multiple where the exponent is not negative. -/
theorem roundInt_exact (neg : Bool) (m : Nat) {e : Int} (he : 0 ≤ e) :
    (roundInt .rne (.fin neg m e)).1 = (if neg then -(m : Int) else m) * 2 ^ e.toNat := by
  have hfar : decide (e + Nat.log2 m < -70) = false := decide_eq_false (by omega)
  unfold roundInt roundAt
  simp only [hfar, Bool.false_eq_true, if_false, if_pos he, Int.sub_zero]
  cases neg <;> simp

theorem roundInt_nearestEven (neg : Bool) (m : Nat) {e : Int} (he : e < 0) :
    nearestEven (roundInt .rne (.fin neg m e)).1 (if neg then -(m : Int) else m) (2 ^ (-e).toNat) := by
  have hmag : nearestEven ((roundAt .rne neg (if decide (e + Nat.log2 m < -70) then 1 else m)
      (if decide (e + Nat.log2 m < -70) then -70 else e) 0).1 : Int) m (2 ^ (-e).toNat) := by
    by_cases hfar : e + Nat.log2 m < -70
    · rw [decide_eq_true hfar, if_pos rfl, if_pos rfl]
      have hround : ((roundAt .rne neg 1 (-70) 0).1 : Int) = 0 := by cases neg <;> decide
      have hm : m < 2 ^ (Nat.log2 m + 1) := Nat.lt_log2_self
      have hpow : 2 * 2 ^ (Nat.log2 m + 1) ≤ 2 ^ (-e).toNat := by
        rw [← pow_succ']
        exact Nat.pow_le_pow_right (by decide) (by omega)
      rw [hround]
      refine nearestEven_zero (by omega) ?_
      exact_mod_cast (by omega : 2 * m < 2 ^ (-e).toNat)
    · rw [decide_eq_false hfar]
      have := roundAt_nearestEven neg m he
      push_cast at this
      exact this
  unfold roundInt
  dsimp only
  cases neg
  · exact hmag
  · exact hmag.neg

/-! ## The integer operations (R243) -/

section Pick
variable {signed greater : Bool} {w old x : Nat}

theorem atomicPick_le (h : if signed then toSigned (8 * w) old ≤ toSigned (8 * w) x else old ≤ x) :
    atomicPick signed greater w old x = if greater then x else old := by
  unfold atomicPick
  cases signed <;> cases greater <;> simp_all

theorem atomicPick_not_le (h : ¬ if signed then toSigned (8 * w) old ≤ toSigned (8 * w) x else old ≤ x) :
    atomicPick signed greater w old x = if greater then old else x := by
  unfold atomicPick
  cases signed <;> cases greater <;> simp_all

end Pick

section Bits
variable {x y : Nat}

theorem toNat_w64 (h : x < 2 ^ 64) : (w64 x).toNat = x := by
  unfold w64
  rw [BitVec.toNat_ofNat, Nat.mod_eq_of_lt h]

theorem natBits_and (hx : x < 2 ^ 64) (hy : y < 2 ^ 64) : natBits (· &&& ·) x y = Nat.land x y := by
  unfold natBits
  rw [BitVec.toNat_and, toNat_w64 hx, toNat_w64 hy]
  rfl

theorem natBits_or (hx : x < 2 ^ 64) (hy : y < 2 ^ 64) : natBits (· ||| ·) x y = Nat.lor x y := by
  unfold natBits
  rw [BitVec.toNat_or, toNat_w64 hx, toNat_w64 hy]
  rfl

theorem natBits_xor (hx : x < 2 ^ 64) (hy : y < 2 ^ 64) : natBits (· ^^^ ·) x y = Nat.xor x y := by
  unfold natBits
  rw [BitVec.toNat_xor, toNat_w64 hx, toNat_w64 hy]
  rfl

end Bits

/-! ## One lane at its home (R239, R243, R246, R252) -/

/-- A global atomic's line leaves every L1 (R239). -/
def leftL1 (s : State) (asid : Nat) : Target → State
  | .global va => dropL1 s asid (va / 256) fun _ => false
  | _ => s

section Lane
variable {s : State} {w : Wave} {A : Actor} {op : MemOp} {l : LaneAcc} {t : Target} {pa : Nat}

theorem atHome_guarded {h : Nat × Nat} (hg : guardHit s l.width t = some h) :
    atHome s w A op l t pa = { state := s.modWave w.uid fun y => y.guardAccess h, old := 0, report := false } := by
  unfold atHome
  rw [hg]

theorem atHome_integer {k : AtomicOp} (hk : op.kind = .atomic k) (hx : k ≠ .xadd) (hg : guardHit s l.width t = none) :
    atHome s w A op l t pa = { state := writeHome (leftL1 s A.asid t) A t pa ((atomicNew k op.signed l.width
      (leNat (readTarget s A pa l.width t)) l.data.toNat l.data2.toNat).map (leBytes l.width))
                               old := leNat (readTarget s A pa l.width t), report := false } := by
  unfold atHome
  rw [hg, hk]
  cases k with
  | xadd => exact absurd rfl hx
  | _ => cases t <;> rfl

/-- An exact cell's addition at its home. -/
theorem atHome_exact (hk : op.kind = .atomic .xadd) (hg : guardHit s l.width t = none) {bs : List Byte}
    (hbs : bs = readTarget s A pa l.width t) {y : FVal} (hy : y = fdec (if op.code = 4 then fmtF32 else fmtF64) l.data.toNat) :
    atHome s w A op l t pa = { state := writeHome (leftL1 s A.asid t) A t pa
                                 (if (parseCell bs).malformed then none else some (cellAdd bs y).1)
                               old := cellValue (parseCell bs), report := (cellAdd bs y).2 } := by
  subst hbs hy
  unfold atHome
  rw [hg, hk]
  cases t <;> rfl

end Lane

theorem lowBits_eq (n : Nat) (i : Int) : lowBits n i = (i % 2 ^ n).toNat := by
  unfold lowBits
  push_cast
  rfl

theorem cellAdd_malformed {bs : List Byte} (h : (parseCell bs).malformed = true) (y : FVal) : cellAdd bs y = (bs, true) := by
  unfold cellAdd
  exact if_pos h

/-- The cell with status bits set besides its own. -/
def cellMarked (bs : List Byte) (k : Nat) : List Byte := bs.set 14 (BitVec.ofNat 8 ((parseCell bs).status ||| k))

theorem cellAdd_nan {bs : List Byte} (h : (parseCell bs).malformed = false) (k : Bool) :
    cellAdd bs (.nan k) = (cellMarked bs 2, false) := if_neg (by rw [h]; decide)

theorem cellAdd_inf {bs : List Byte} (h : (parseCell bs).malformed = false) (neg : Bool) :
    cellAdd bs (.inf neg) = (cellMarked bs (if neg then 8 else 4), false) := if_neg (by rw [h]; decide)

theorem cellAdd_zero {bs : List Byte} (h : (parseCell bs).malformed = false) (neg : Bool) :
    cellAdd bs (.zero neg) = (bs, false) := if_neg (by rw [h]; decide)

/-- The integer that a number adds to a cell. -/
def cellAddend (bs : List Byte) (neg : Bool) (m : Nat) (ex : Int) : Int :=
  (roundInt .rne (.fin neg m (ex - (parseCell bs).base))).1

theorem cellAdd_out {bs : List Byte} (h : (parseCell bs).malformed = false) {neg : Bool} {m : Nat} {ex : Int}
    (hn : 2 ^ 72 ≤ (cellAddend bs neg m ex).natAbs) : cellAdd bs (.fin neg m ex) = (cellMarked bs 1, true) := by
  unfold cellAdd
  exact (if_neg (by rw [h]; decide)).trans (if_pos hn)

theorem cellAdd_sum {bs : List Byte} (h : (parseCell bs).malformed = false) {neg : Bool} {m : Nat} {ex : Int}
    (hn : (cellAddend bs neg m ex).natAbs < 2 ^ 72) : cellAdd bs (.fin neg m ex) =
      (leBytes 12 (((parseCell bs).acc + cellAddend bs neg m ex) % 2 ^ 96).toNat ++ bs.drop 12, false) := by
  rw [← lowBits_eq]
  unfold cellAdd
  exact (if_neg (by rw [h]; decide)).trans (if_neg (Nat.not_le_of_lt hn))

/-! ## SCOND and the reservation (R253, R254) -/

section Scond
variable {s : State} {w : Wave} {A : Actor} {l : LaneAcc} {t : Target} {pa : Nat}

theorem scondHome_stores (hg : guardHit s l.width t = none) {v : Reservation} (hv : w.reservation = some v)
    (hvalid : v.valid = true) (hline : v.line = lineOf A.asid t) : scondHome s w A l t pa =
      { state := writeTarget s A pa (leBytes 8 l.data.toNat) t, old := 0, report := false } := by
  unfold scondHome
  rw [hv, hg]
  simp [hvalid, hline]

theorem scondHome_fails (hg : guardHit s l.width t = none)
    (h : ∀ v, w.reservation = some v → v.valid = false ∨ v.line ≠ lineOf A.asid t) :
    scondHome s w A l t pa = { state := s, old := 1, report := false } := by
  unfold scondHome
  rw [hg]
  cases hv : w.reservation with
  | none => rfl
  | some v => rcases h v hv with h | h <;> simp [h]

end Scond

/-! ## ATOMIC_PERFORM_AT_HOME (R46, R243, R248) -/

section Request
variable {s s1 : State} {r : AtomicReq} {w : Wave}

/-- The state without a request. -/
def requestOut (s : State) (r : AtomicReq) : State := { s with atomics := s.atomics.filter fun x => x.id != r.id }

/-- What the performance of a wave's request comes to. -/
def requestResult (s : State) (r : AtomicReq) (w : Wave) : MemResult :=
  performAtomic (requestOut s r) w r.setf r.entry.op (decide (r.mapGen < mget 0 s.mapGens (s.waveAsid w)))

theorem exec_atHome_waits (hr : s.atomics.find? (fun x => x.id == r.id) = some r) (hw : s.anyWave? r.uid = some w)
    (hb : behindEarlier (requestOut s r) w r = true) :
    exec (.atomicPerformAtHome r.id) s = .next (s.schedule 1 (.atomicPerformAtHome r.id)) := by
  change execAtomicPerformAtHome r.id s = _
  unfold execAtomicPerformAtHome
  unfold requestOut at hb
  rw [hr]
  dsimp only
  rw [hw]
  dsimp only
  rw [if_pos hb]

theorem exec_atHome_performs (hr : s.atomics.find? (fun x => x.id == r.id) = some r) (hw : s.anyWave? r.uid = some w)
    (hb : behindEarlier (requestOut s r) w r = false) (hn : bounced s w r = false) {ws : List RegWrite} {lat ss : Nat}
    (ho : requestResult s r w = .ok s1 ws lat ss) : exec (.atomicPerformAtHome r.id) s =
      .next ((s1.modAny w.uid fun x => x.fill r.entry.seqNo ws ss).schedule 0 (.instructionComplete w.uid r.entry.seqNo)) := by
  change execAtomicPerformAtHome r.id s = _
  unfold execAtomicPerformAtHome
  unfold requestResult requestOut at ho
  unfold requestOut at hb
  rw [hr]
  dsimp only
  rw [hw]
  dsimp only
  rw [hb, hn, ho]
  rfl

theorem exec_atHome_doubleFault (hr : s.atomics.find? (fun x => x.id == r.id) = some r) (hw : s.anyWave? r.uid = some w)
    (hb : behindEarlier (requestOut s r) w r = false) (hn : bounced s w r = false) {x : XFault} {rest : MemOp}
    (ho : requestResult s r w = .stop s1 (.fault x) rest) (hh : r.handler = true) :
    exec (.atomicPerformAtHome r.id) s = .next (waveError s1 w r.entry.bundle .doubleFault) := by
  change execAtomicPerformAtHome r.id s = _
  unfold execAtomicPerformAtHome
  unfold requestResult requestOut at ho
  unfold requestOut at hb
  rw [hr]
  dsimp only
  rw [hw]
  dsimp only
  rw [hb, hn, ho]
  dsimp only
  rw [hh]
  rfl

end Request

/-- Settles O35: each operation's value from the equations of its lane at its home, with AXADD's rounding shown nearest and
even on ties, and ATOMIC_PERFORM_AT_HOME from what the request's performance comes to. -/
theorem atomicOperations : Obligations.AtomicOperations := by
  unfold Obligations.AtomicOperations
  refine ⟨?_, ?_, ?_, ?_⟩
  · intro s w A op l t pa k hk hx hwidth f q old x bits leq r
    have hq : q = leftL1 s A.asid t := by cases t <;> rfl
    refine ⟨fun h hg => ?_, fun hg => ?_⟩
    · have hr : r = _ := atHome_guarded hg
      rw [hr]
      exact ⟨rfl, rfl⟩
    · have hr : r = _ := atHome_integer hk hx hg
      rw [hr, hq]
      have hleaves : ∀ {v : Nat}, atomicNew k op.signed l.width old x l.data2.toNat = some v →
          writeHome (leftL1 s A.asid t) A t pa ((atomicNew k op.signed l.width old x l.data2.toNat).map (leBytes l.width)) =
            writeTarget (leftL1 s A.asid t) A pa (leBytes l.width v) t := fun h => by rw [h]; rfl
      refine ⟨rfl, ?_, ?_, ?_, ?_, ?_, ?_, ?_, ?_, ?_, ?_, ?_, ?_⟩
      · rintro rfl
        exact hleaves rfl
      · rintro rfl hle
        exact hleaves (congrArg some (atomicPick_le hle))
      · rintro rfl hle
        exact hleaves (congrArg some (atomicPick_not_le hle))
      · rintro rfl hle
        exact hleaves (congrArg some (atomicPick_le hle))
      · rintro rfl hle
        exact hleaves (congrArg some (atomicPick_not_le hle))
      · rintro rfl hold
        exact hleaves (congrArg some (natBits_and hold l.data.isLt))
      · rintro rfl hold
        exact hleaves (congrArg some (natBits_or hold l.data.isLt))
      · rintro rfl hold
        exact hleaves (congrArg some (natBits_xor hold l.data.isLt))
      · rintro rfl
        exact hleaves rfl
      · rintro rfl
        exact hleaves rfl
      · rintro rfl hcmp
        exact hleaves (if_pos hcmp)
      · rintro rfl hcmp
        rw [show atomicNew .cas op.signed l.width old x l.data2.toNat = none from if_neg hcmp]
        rfl
  · intro s w A op l t pa hk hg q bs c y r leaves marks
    have hq : q = leftL1 s A.asid t := by cases t <;> rfl
    have hr : r = _ := atHome_exact hk hg (bs := bs) rfl (y := y) rfl
    refine ⟨by rw [hr], fun hm => ?_, fun hm => ?_⟩
    · rw [hr, cellAdd_malformed hm, hm, hq]
      exact ⟨rfl, rfl⟩
    · have hleaves : ∀ {xs : List Byte} {b : Bool}, cellAdd bs y = (xs, b) → leaves xs ∧ r.report = b := by
        intro xs b hadd
        change r.state = writeTarget q A pa xs t ∧ r.report = b
        rw [hr, hadd, hq, hm]
        exact ⟨rfl, rfl⟩
      refine ⟨fun k hy => hleaves (hy ▸ cellAdd_nan hm k), fun neg hy => hleaves (hy ▸ cellAdd_inf hm neg),
        fun neg hy => hleaves (hy ▸ cellAdd_zero hm neg), fun neg m ex hy => ⟨cellAddend bs neg m ex, fun hle => ?_, fun hlt => ?_,
        fun hn => hleaves (hy ▸ cellAdd_out hm hn), fun hn => hleaves (hy ▸ cellAdd_sum hm hn)⟩⟩
      · exact roundInt_exact neg m (Int.sub_nonneg_of_le hle)
      · have hnear := roundInt_nearestEven neg m (show ex - c.base < 0 by omega)
        rwa [Int.neg_sub] at hnear
  · intro s w A l t pa op x xs hg
    refine ⟨fun v hv hvalid hline => ?_, fun h => ?_, fun hk => ?_, fun hk hrep => ?_⟩
    · rw [scondHome_stores hg hv hvalid hline]
      exact ⟨rfl, rfl⟩
    · rw [scondHome_fails hg h]
      exact ⟨rfl, rfl⟩
    · unfold reserve
      rw [hk]
    · unfold reserve
      rw [hk]
      dsimp only
      rw [hrep]
      rfl
  · intro s r w s1 ws lat ss hr hw s0 out event
    exact ⟨exec_atHome_waits hr hw, fun hb hn => ⟨exec_atHome_performs hr hw hb hn, fun x rest =>
      exec_atHome_doubleFault hr hw hb hn⟩⟩

end Sys2Proof.Machine
end

section
/-! PROOF. Events of paths and waves (O51: R36, R37, R45, R47, R50, R139, R146, R222). -/

namespace Sys2Proof.Machine

/-! ## Repeats and starvation (R37, R139, R146) -/

theorem repeats_of {w : Wave} {place : Nat} (hv : w.rep.valid = true) (hp : w.rep.path = place) : repeats w place = true := by
  unfold repeats
  rw [hv, hp, beq_self_eq_true]
  rfl

/-- The issue record of a repeating path: the next iteration of the instruction at its slot. -/
theorem issueOf_repeats {w : Wave} {place : Nat} (h : repeats w place = true) (p : Path) (ws : List Word32) :
    (issueOf w place p ws).iteration = some w.rep.next ∧
      (issueOf w place p ws).word = steppedWord w.rep.stride w.rep.next (slotWord ws p.slot) := by
  unfold issueOf
  rw [h]
  exact ⟨rfl, rfl⟩

theorem exec_repIteration {s s1 : State} {w : Wave} {p : Path} {place : Nat} {ws : List Word32} (hw : s.wave? w.uid = some w)
    (hp : mfind w.places place = some p) (hr : repeats w place = true) (hm : mayIssue w p = true)
    (hf : fetchBundle s w p.pc = (.words ws, s1)) :
    exec (.repIteration w.uid place) s = .next { s1 with issue := some (issueOf w place p ws) } := by
  change execRepIteration w.uid place s = _
  unfold execRepIteration
  rw [hw]
  dsimp only
  rw [hp]
  dsimp only
  rw [hr, hm, hf]
  rfl

/-- The paths of a partition that starve, in the order of age. -/
def starvingPaths (s : State) (core part : Nat) : List Seated :=
  (sortBy beforeByAge (partPaths s core part)).filter fun x => decide (256 ≤ x.2.2.passed)

theorem exec_starvationOverride (s : State) (core part : Nat) : exec (.starvationOverride core part) s =
    .next (if (starvingPaths s core part).isEmpty then s
      else s.setPart core part { s.part core part with first := (starvingPaths s core part).map Seated.name }) := rfl

/-! ## The operand log (R50) -/

section Replay
variable {s s1 : State} {uid : Nat} {w : Wave} {x : LogEntry}

theorem replayEntry_access (hk : x.op.kind ∈ [MemKind.load, .loadPair, .store, .storePair]) :
    replayEntry s w x = replayOutcome s w x (performMixed s w x.op) := by
  simp only [List.mem_cons, List.not_mem_nil, or_false] at hk
  unfold replayEntry
  rcases hk with hk | hk | hk | hk <;> rw [hk]

/-- The replay of a logged load or store is what its performance comes to. -/
theorem exec_operandLogReplay (hw : s.anyWave? uid = some w) (hx : w.log.find? (fun l => l.seqNo == x.seqNo) = some x)
    (hk : x.op.kind ∈ [MemKind.load, .loadPair, .store, .storePair]) :
    exec (.operandLogReplay uid x.seqNo) s = .next (settleFences (replayOutcome s w x (performMixed s w x.op)) uid) := by
  change execOperandLogReplay uid x.seqNo s = _
  unfold execOperandLogReplay
  rw [hw]
  dsimp only
  rw [hx]
  dsimp only
  rw [replayEntry_access hk]

end Replay

/-! ## Halt requests (R45, R47) -/

section Halt
variable {s : State} {w : Wave} {c : Context}

theorem exec_haltRequest (hw : s.wave? w.uid = some w) (hc : s.waveCtx w = some c) : exec (.haltRequest w.uid) s =
    .next (if c.handler = 0 then { s with haltRefusals := w.uid :: s.haltRefusals }
      else s.modWave w.uid fun x => { x with haltPending := true }) := by
  change execHaltRequest w.uid s = _
  unfold execHaltRequest
  rw [hw]
  dsimp only
  rw [hc]

theorem exec_haltTrapDelivery (hw : s.wave? w.uid = some w) (place : Nat) : exec (.haltTrapDelivery w.uid place) s =
    .next (if w.haltPending && w.held.isNone then haltTrap s w place else s) := by
  change execHaltTrapDelivery w.uid place s = _
  unfold execHaltTrapDelivery
  rw [hw]

theorem trappedWave_haltPending {x : Context} {place : Nat} {p : Path} (t : TrapInfo) :
    (trappedWave s w x place p t).haltPending = w.haltPending := by
  rw [trappedWave, Wave.inHandler_haltPending, framedWave_haltPending]

end Halt

/-! ## Retirement trackers (R36) -/

theorem exec_trackerDrain {s : State} {core k : Nat} {x : TrackerEntry} (hx : (s.core core).tracker[k]? = some x) :
    exec (.trackerDrain core k) s = .next (if drained s x.wave then
      countOut (s.setCore core { s.core core with tracker := (s.core core).tracker.eraseIdx k }) x.wave else s) := by
  change execTrackerDrain core k s = _
  unfold execTrackerDrain
  dsimp only
  rw [hx]

/-! ## The refresh of the weight store (R222) -/

/-- Each group's window is the first two microseconds of its four. -/
theorem refreshGroup_eq (clock : Nat) : refreshGroup clock =
    if clock / Config.clocksPerUs % 64 % 4 < 2 then some (clock / Config.clocksPerUs % 64 / 4) else none := by
  unfold refreshGroup Config.clocksPerUs
  have hwindow : clock % (64 * 2000) % (4 * 2000) < 2 * 2000 ↔ clock / 2000 % 64 % 4 < 2 := by omega
  have hgroup : clock % (64 * 2000) / (4 * 2000) = clock / 2000 % 64 / 4 := by omega
  simp only [hwindow, hgroup]

/-- Settles O51: each event from what its function does where its wave, its path or its entry is the one named. -/
theorem pathAndWaveEvents : Obligations.PathAndWaveEvents := by
  unfold Obligations.PathAndWaveEvents
  refine ⟨⟨?_, ?_⟩, ?_, ?_, ?_, ?_⟩
  · intro s s1 w p place ws hw hp hvalid hpath hm hf
    have hrep := repeats_of hvalid hpath
    obtain ⟨hiter, hword⟩ := issueOf_repeats hrep p ws
    exact ⟨issueOf w place p ws, exec_repIteration hw hp hrep hm hf, rfl, rfl, rfl, rfl, hiter, hword⟩
  · intro s core part starving
    have hexec : exec (.starvationOverride core part) s = .next (if starving.isEmpty then s else _) :=
      exec_starvationOverride s core part
    refine ⟨fun h => ?_, fun h => ?_⟩
    · rw [hexec, h]
      rfl
    · rw [hexec, if_neg (by simpa using h)]
      rfl
  · intro s uid w x hw hx hk
    refine ⟨fun s1 ws lat ss h => ?_, fun c va ls h => ?_⟩
    · rw [exec_operandLogReplay hw hx hk, h]
      rfl
    · rw [exec_operandLogReplay hw hx hk, h]
      rfl
  · intro s w c hw hc
    refine ⟨fun h => ?_, fun h => ?_, fun place hh => ?_, fun place p hhalt hh h0 hp => ?_⟩
    · rw [exec_haltRequest hw hc, if_pos h]
    · rw [exec_haltRequest hw hc, if_neg h]
    · obtain ⟨y, hy⟩ := Option.isSome_iff_exists.mp hh
      rw [exec_haltTrapDelivery hw, hy, Option.isNone_some, Bool.and_false]
      rfl
    · have hexec : exec (.haltTrapDelivery w.uid place) s = .next (haltTrap s w place) := by
        rw [exec_haltTrapDelivery hw, hhalt, hh]
        rfl
      refine ⟨_, _, handlerPath (s.setWave w.halted) c p, hexec, haltTrap_handler hw hc hh h0 hp, ?_, rfl, rfl, rfl, rfl, rfl⟩
      rw [trappedWave_haltPending]
      rfl
  · intro s core k x hx
    refine ⟨fun hd => ?_, fun hd => ?_⟩
    · rw [exec_trackerDrain hx, hd]
      rfl
    · rw [exec_trackerDrain hx, hd]
      rfl
  · intro s us
    change Host.Outcome.next { s with wsRefresh := refreshGroup s.clock } = _
    rw [refreshGroup_eq]

end Sys2Proof.Machine
end

section
/-! PROOF. Queues, blocks and launches (O52: R41, R130, R314, R353, R387, R390, R394, R395, R398, R400, R401, R439). -/

namespace Sys2Proof.Machine

/-! ## Queues (R387, R390, R394, R400) -/

/-- A queue of a function. -/
def State.queue (s : State) (fn q : Nat) : Queue := mget emptyQueue (s.func fn).queues q

theorem queue_setQueueReg (s : State) (fn q : Nat) (x : Queue) : (setQueueReg s fn q x).queue fn q = x := by
  unfold setQueueReg State.queue State.func State.setFunc
  dsimp only
  rw [mget_mset, if_pos rfl, mget_mset, if_pos rfl]

section Queues
variable {s s1 : State} {fn q : Nat}

/-- Where the processor reads its queue's next packet. -/
def Queue.nextSlot (x : Queue) : Nat := bits x.base.toNat 12 40 * 4096 + 64 * (x.read % x.slots)

theorem exec_packetAdmit_empty {c : Context} {packet : List Byte} (hc : queueOpen s fn q = some c)
    (hr : engineRead s c (s.queue fn q).home (s.queue fn q).nextSlot 64 = (.ok packet, s1)) (ht : packetType packet = 0) :
    exec (.packetAdmit fn q) s = .next (setQueueReg s1 fn q { s.queue fn q with stopped := true }) := by
  change execPacketAdmit fn q s = _
  unfold execPacketAdmit
  unfold Queue.nextSlot State.queue at hr
  rw [hc]
  dsimp only
  rw [hr]
  dsimp only
  rw [if_pos ht]
  rfl

theorem exec_packetAdmit_launch {s2 : State} {c : Context} {packet : List Byte} {l : Launch} {dom : Option Domain}
    (hc : queueOpen s fn q = some c)
    (hr : engineRead s c (s.queue fn q).home (s.queue fn q).nextSlot 64 = (.ok packet, s1)) (ht : packetType packet ≠ 0)
    (ha : admitPacket s1 c (newLaunch s1 fn q c (s.queue fn q).home (s.queue fn q).prio packet) none = (.launch l dom, s2)) :
    exec (.packetAdmit fn q) s = .next ((enterLaunch
      (setQueueReg s2 fn q { s.queue fn q with read := ((s.queue fn q).read + 1) % 2 ^ 32, lastLid := l.lid })
      { l with prev := (s.queue fn q).lastLid } dom).schedule 0 (.packetAdmit fn q)) := by
  change execPacketAdmit fn q s = _
  unfold execPacketAdmit
  unfold Queue.nextSlot State.queue at hr
  unfold State.queue at ha
  rw [hc]
  dsimp only
  rw [hr]
  dsimp only
  rw [if_neg ht, ha]
  rfl

theorem exec_qwidxWrite (hq : q < 64) (v : Word) : exec (.qwidxWrite fn q v) s =
    .next (notifyQueue (setQueueReg s fn q { s.queue fn q with lastW := v.toNat % 2 ^ 32 }) fn q) := by
  have hbits : bits v.toNat 0 32 = v.toNat % 2 ^ 32 := by unfold bits; rw [pow_zero, Nat.div_one]
  change execQwidxWrite fn q v s = _
  unfold execQwidxWrite
  dsimp only
  rw [if_neg (by omega), hbits]
  rfl

theorem notifyQueue_ignored {y : Queue} (hy : s.queue fn q = y) (h : y.slots < (y.lastW + 2 ^ 32 - y.read) % 2 ^ 32) :
    notifyQueue s fn q = s := by
  unfold State.queue at hy
  unfold notifyQueue
  rw [hy]
  dsimp only
  rw [if_pos h]

theorem notifyQueue_told {y : Queue} (hy : s.queue fn q = y) (h : (y.lastW + 2 ^ 32 - y.read) % 2 ^ 32 ≤ y.slots) :
    notifyQueue s fn q = (setQueueReg s fn q { y with widx := y.lastW, stopped := false }).schedule 0 (.packetAdmit fn q) := by
  unfold State.queue at hy
  unfold notifyQueue
  rw [hy]
  dsimp only
  rw [if_neg (Nat.not_lt_of_le h)]

/-- A write of QCTL by whether the queue is enabled and the value enables. -/
theorem exec_queueEnable (hq : q < 64) (v : Word) : exec (.queueEnable fn q v) s = .next (
    if (s.queue fn q).enabled then
      (if v.getLsbD 63 then s else setQueueReg s fn q { s.queue fn q with ctl := qctlBits v.toNat })
    else
      let s1 := setQueueReg s fn q { s.queue fn q with ctl := qctlBits v.toNat, prio := bits (qctlBits v.toNat).toNat 8 3 }
      if v.getLsbD 63 then notifyQueue s1 fn q else s1) := by
  change Host.Outcome.next (writeQctl s fn q v) = _
  unfold writeQctl
  rw [if_neg (by omega)]
  rfl

/-! ## Ageing (R400) -/

theorem spreadPriority_queue (s : State) : (spreadPriority s fn q).queue fn q = s.queue fn q := rfl

theorem startAgeing_prio (s : State) : ((startAgeing s fn q).queue fn q).prio = (s.queue fn q).prio := by
  unfold startAgeing
  change ((setQueueReg s fn q { s.queue fn q with agedAt := s.clock }).queue fn q).prio = _
  rw [queue_setQueueReg]

theorem schedulePlaces_queue (ls : List Launch) (s : State) :
    (ls.foldl (fun s l => if l.unplaced then s.schedule 0 (.blockPlace l.lid) else s) s).queue fn q = s.queue fn q := by
  induction ls generalizing s with
  | nil => rfl
  | cons l ls ih =>
    rw [List.foldl_cons, ih]
    split <;> rfl

/-- The priority a queue has aged to (R400). -/
def Queue.agedPrio (x : Queue) : Nat := if x.basePrio = 7 || 6 ≤ x.prio then x.prio else x.prio + 1

/-- The launches of a queue after its ageing: with the priority risen and the placements asked for (R400). -/
def agedQueue (s : State) (fn q : Nat) : State :=
  let s1 := spreadPriority (startAgeing (setQueueReg s fn q { s.queue fn q with prio := (s.queue fn q).agedPrio }) fn q) fn q
  (queueLaunches s1 fn q).foldl (fun s l => if l.unplaced then s.schedule 0 (.blockPlace l.lid) else s) s1

theorem agedQueue_prio : ((agedQueue s fn q).queue fn q).prio = if (s.queue fn q).basePrio = 7 ∨ 6 ≤ (s.queue fn q).prio then
    (s.queue fn q).prio else (s.queue fn q).prio + 1 := by
  unfold agedQueue
  rw [schedulePlaces_queue, spreadPriority_queue, startAgeing_prio, queue_setQueueReg]
  unfold Queue.agedPrio
  simp only [Bool.or_eq_true, decide_eq_true_eq]

theorem exec_priorityAgeing_raises (hw : queueWaits s fn q = true) (hd : (s.queue fn q).agedAt + ageClocks s ≤ s.clock) :
    exec (.priorityAgeing fn q) s = .next (agedQueue s fn q) := by
  change execPriorityAgeing fn q s = _
  unfold execPriorityAgeing
  unfold State.queue at hd
  dsimp only
  rw [hw, if_neg (by decide), if_neg (Nat.not_lt_of_le hd)]
  rfl

theorem exec_priorityAgeing_early (hw : queueWaits s fn q = true) (hd : s.clock < (s.queue fn q).agedAt + ageClocks s) :
    exec (.priorityAgeing fn q) s =
      .next (s.scheduleOnce ((s.queue fn q).agedAt + ageClocks s - s.clock) (.priorityAgeing fn q)) := by
  change execPriorityAgeing fn q s = _
  unfold execPriorityAgeing
  unfold State.queue at hd
  dsimp only
  rw [hw, if_neg (by decide), if_pos hd]
  rfl

end Queues

/-! ## Placement (R353, R395, R400, R401) -/

section Place
variable {s : State} {l : Launch}

theorem goesBefore_iff (m l : Launch) :
    goesBefore m l = true ↔ l.priority < m.priority ∨ m.priority = l.priority ∧ m.lid < l.lid := by
  unfold goesBefore
  simp

theorem betterLaunch_none (h : ∀ m ∈ s.launches, l.priority < m.priority ∨ m.priority = l.priority ∧ m.lid < l.lid →
    fitting s m = none) : betterLaunch s l = none := by
  refine List.find?_eq_none.mpr fun m hm hbetter => ?_
  obtain ⟨hbefore, hfits⟩ := Bool.and_eq_true_iff.mp hbetter
  rw [h m hm ((goesBefore_iff m l).mp hbefore)] at hfits
  cases hfits

theorem betterLaunch_some {m : Launch} (h : betterLaunch s l = some m) : m ∈ s.launches ∧ fitting s m ≠ none ∧
    (l.priority < m.priority ∨ m.priority = l.priority ∧ m.lid < l.lid) := by
  unfold betterLaunch at h
  have hm := List.find?_some h
  obtain ⟨hbefore, hfits⟩ := Bool.and_eq_true_iff.mp hm
  exact ⟨List.mem_of_find?_eq_some h, Option.isSome_iff_ne_none.mp hfits, (goesBefore_iff m l).mp hbefore⟩

/-- What fits is the launch's candidate. -/
theorem candidate_of_fitting {x : Candidate} {plan : List CorePlan} {slots : List Nat}
    (h : fitting s l = some (x, plan, slots)) : candidate s l = some x := by
  unfold fitting at h
  split at h
  · cases h
  next y hy =>
    split at h
    · cases h
      exact hy
    · cases h

theorem exec_blockPlace_places (hl : s.launch? l.lid = some l) {x : Candidate} {plan : List CorePlan} {slots : List Nat}
    (hf : fitting s l = some (x, plan, slots)) (hb : betterLaunch s l = none) : exec (.blockPlace l.lid) s =
      .next (if x.isFresh || x.isCheck then kickAll (placeCandidate s l x plan slots) else placeCandidate s l x plan slots) := by
  change execBlockPlace l.lid s = _
  unfold execBlockPlace
  rw [hl]
  dsimp only
  rw [candidate_of_fitting hf]
  dsimp only
  rw [hb]
  dsimp only
  rw [hf]

theorem exec_blockPlace_yields (hl : s.launch? l.lid = some l) {x : Candidate} {m : Launch} (hx : candidate s l = some x)
    (hb : betterLaunch s l = some m) :
    exec (.blockPlace l.lid) s = .next ((s.schedule 0 (.blockPlace m.lid)).schedule 0 (.blockPlace l.lid)) := by
  change execBlockPlace l.lid s = _
  unfold execBlockPlace
  rw [hl]
  dsimp only
  rw [hx]
  dsimp only
  rw [hb]

theorem exec_blockPlace_asks (hl : s.launch? l.lid = some l) {x : Candidate} (hx : candidate s l = some x)
    (hb : betterLaunch s l = none) (hf : fitting s l = none) : exec (.blockPlace l.lid) s = .next (preemptFor s l x) := by
  change execBlockPlace l.lid s = _
  unfold execBlockPlace
  rw [hl]
  dsimp only
  rw [hx]
  dsimp only
  rw [hb]
  dsimp only
  rw [hf]

theorem exec_blockPlace_none (hl : s.launch? l.lid = some l) (hx : candidate s l = none) :
    exec (.blockPlace l.lid) s = .next s := by
  change execBlockPlace l.lid s = _
  unfold execBlockPlace
  rw [hl]
  dsimp only
  rw [hx]

end Place

/-! ## Restore (R41, R439) -/

section Restore
variable {s : State} {l : Launch} {bid : Nat} {b : Block} {c : Context} {saved : SavedBlock}

theorem exec_blockRestore_headers (hl : s.launch? l.lid = some l) (hb : s.block? l.lid bid .plain = some b)
    (hc : s.ctx? l.fn l.ctx = some c) (hs : b.saved = some saved) (hp : b.phase = .saved) {plan : List CorePlan}
    {hs' : List (Wave × List Byte × List Byte)} {s1 : State} (hplaces : ctxPlaces c = true)
    (hplan : planFor s s.residents l (.restore b) = some plan) (hh : readHeaders s c l.home saved.waves = (.ok hs', s1)) :
    exec (.blockRestore l.lid bid 0) s = .next (if hs'.any fun y => headerSaveBad y.2.1 then
      blockError s1 b.lid b.bid b.run b.fn b.ctx .safepointTable 0 else kickAll (restoreBlock s1 b saved plan hs')) := by
  change execBlockRestore l.lid bid 0 s = _
  unfold execBlockRestore
  change Host.Outcome.next (match s.launch? l.lid, s.block? l.lid bid .plain with
    | some _, some _ => _
    | _, _ => _) = _
  rw [hl, hb]
  dsimp only
  rw [hc, hs]
  dsimp only
  rw [if_neg (not_not.mpr hp), hplaces, hplan, hh]
  rfl

theorem exec_blockRestore_waits (hl : s.launch? l.lid = some l) (hb : s.block? l.lid bid .plain = some b)
    (hc : s.ctx? l.fn l.ctx = some c) (hs : b.saved = some saved) (hp : b.phase = .saved)
    (h : ctxPlaces c = false ∨ planFor s s.residents l (.restore b) = none) :
    exec (.blockRestore l.lid bid 0) s = .next (restoreUnderWay s b false) := by
  change execBlockRestore l.lid bid 0 s = _
  unfold execBlockRestore
  change Host.Outcome.next (match s.launch? l.lid, s.block? l.lid bid .plain with
    | some _, some _ => _
    | _, _ => _) = _
  rw [hl, hb]
  dsimp only
  rw [hc, hs]
  dsimp only
  rw [if_neg (not_not.mpr hp)]
  rcases h with h | h
  · rw [h]
    rfl
  · rw [h]
    exact congrArg _ (ite_self _)

end Restore

/-! ## Completion (R130, R314, R398) -/

section Completion
variable {s : State} {l : Launch} {c : Context}

theorem completionDue_of_not_ended (he : l.ended = false) : completionDue s l =
    if l.marker then (queueLaunches s l.fn l.q).all fun m => decide (l.lid ≤ m.lid)
    else decide (l.grid ≤ l.blocksDone) && !(s.facesWaiting.any fun f => f.lid == some l.lid) := by
  unfold completionDue
  rw [he]
  rfl

theorem exec_launchCompletion_waits (hl : s.launch? l.lid = some l) (hd : completionDue s l = false) :
    exec (.launchCompletion l.lid) s = .next s := by
  change execLaunchCompletion l.lid s = _
  unfold execLaunchCompletion
  rw [hl]
  dsimp only
  rw [hd, Bool.not_false, Bool.or_true]
  rfl

theorem replayStatus_of_none (h : l.replaySum = none) : replayStatus s l = l := by
  unfold replayStatus
  rw [h]

theorem exec_launchCompletion_ends (hl : s.launch? l.lid = some l) (hd : completionDue s l = true)
    (hc : s.ctx? l.fn l.ctx = some c) (hw : l.waitFault = none) (hp : l.phase = 0) (hr : l.replaySum = none) {s1 : State}
    (hwrite : writeCompletion (releaseLaunch (endPins s l.lid) c l) c l = (.ok (), s1)) : exec (.launchCompletion l.lid) s =
      .next (completeSignal (countStatus (s1.setLaunch { l with phase := 1 }) { l with phase := 1 }) c { l with phase := 1 }) := by
  change execLaunchCompletion l.lid s = _
  unfold execLaunchCompletion
  rw [hl]
  dsimp only
  rw [if_neg (by rw [hw, hd]; decide), hc]
  dsimp only
  rw [if_pos hp, replayStatus_of_none hr, hwrite]

end Completion

/-- Settles O52: each event of a queue, a block and a launch by its cases, the launch that goes first found among those that
fit. -/
theorem queuesBlocksAndLaunches : Obligations.QueuesBlocksAndLaunches := by
  unfold Obligations.QueuesBlocksAndLaunches
  refine ⟨?_, ?_⟩
  · intro s fn q hq x slot
    refine ⟨fun c packet s1 hc hr => ⟨fun ht => exec_packetAdmit_empty hc hr ht, fun l dom s2 ht ha =>
      exec_packetAdmit_launch hc hr ht ha⟩, fun v => exec_qwidxWrite hq v, fun r => ?_, fun v => ?_,
      fun hw hd => ⟨_, exec_priorityAgeing_raises hw hd, agedQueue_prio⟩, fun hw hd => exec_priorityAgeing_early hw hd⟩
    · exact ⟨notifyQueue_ignored rfl, notifyQueue_told rfl⟩
    · have hexec := exec_queueEnable (s := s) (fn := fn) hq v
      exact ⟨fun he hv => hexec.trans (congrArg _ ((if_pos he).trans (if_pos hv))),
        fun he hv => hexec.trans (congrArg _ ((if_pos he).trans (if_neg (ne_true_of_eq_false hv)))),
        fun he hv => hexec.trans (congrArg _ ((if_neg (ne_true_of_eq_false he)).trans (if_neg (ne_true_of_eq_false hv)))),
        fun he hv => hexec.trans (congrArg _ ((if_neg (ne_true_of_eq_false he)).trans (if_pos hv)))⟩
  · intro s l hl
    refine ⟨fun x plan slots hf hbest => ?_, fun x m hx hb => ⟨exec_blockPlace_yields hl hx hb, betterLaunch_some hb⟩,
      fun x hx hb hf => exec_blockPlace_asks hl hx hb hf, exec_blockPlace_none hl, fun bid b c saved hb hc hs hp => ?_,
      fun c hc hw hp he hr => ?_⟩
    · rw [exec_blockPlace_places hl hf (betterLaunch_none hbest)]
      cases x <;> rfl
    · refine ⟨fun plan hs' s1 hplaces hplan hh => ?_, exec_blockRestore_waits hl hb hc hs hp⟩
      have hexec := exec_blockRestore_headers hl hb hc hs hp hplaces hplan hh
      refine ⟨fun hbad => ?_, fun hbad => ?_⟩ <;>
      · rw [hexec, hbad]
        rfl
    · have hdue := completionDue_of_not_ended (s := s) he
      refine ⟨fun s1 hd hwrite => exec_launchCompletion_ends hl (hdue.trans hd) hc hw hp hr hwrite, fun hm hwaits => ?_⟩
      refine exec_launchCompletion_waits hl (hdue.trans ?_)
      rw [hm]
      rcases hwaits with hlt | hface
      · rw [decide_eq_false (Nat.not_le_of_lt hlt)]
        rfl
      · rw [hface, Bool.not_true, Bool.and_false]
        rfl

end Sys2Proof.Machine
end

section
/-! PROOF. Contexts and functions (O53: R43, R387, R388, R399, R401, R402, R412). -/

namespace Sys2Proof.Machine

/-! ## A bit set by adding its power (R43) -/

theorem testBit_add_one_of_even {a : Nat} (h : a.testBit 0 = false) (j : Nat) : (a + 1).testBit j = (decide (j = 0) || a.testBit j) := by
  have heven : a % 2 = 0 := by simpa [Nat.testBit_zero] using h
  cases j with
  | zero => simp [Nat.testBit_zero]; omega
  | succ j =>
    rw [Nat.testBit_succ, Nat.testBit_succ, show (a + 1) / 2 = a / 2 by omega]
    simp

theorem testBit_add_two_pow {x i : Nat} (h : x.testBit i = false) (k : Nat) :
    (x + 2 ^ i).testBit k = (decide (k = i) || x.testBit k) := by
  have hx : x = 2 ^ i * (x / 2 ^ i) + x % 2 ^ i := (Nat.div_add_mod x (2 ^ i)).symm
  have hlt : x % 2 ^ i < 2 ^ i := Nat.mod_lt _ (Nat.two_pow_pos i)
  have hsum : x + 2 ^ i = 2 ^ i * (x / 2 ^ i + 1) + x % 2 ^ i := by rw [Nat.mul_add]; omega
  have heven : (x / 2 ^ i).testBit 0 = false := by rw [Nat.testBit_div_two_pow, Nat.zero_add]; exact h
  rw [hsum, Nat.testBit_two_pow_mul_add _ hlt]
  conv_rhs => rw [hx, Nat.testBit_two_pow_mul_add _ hlt]
  split
  next hk => simp [show k ≠ i by omega]
  next hk =>
    rw [testBit_add_one_of_even heven]
    rw [show decide (k - i = 0) = decide (k = i) from decide_eq_decide.mpr (by omega)]

/-! ## The agenda -/

theorem mem_insertEvent (due : Nat) (i : Instr) (xs : List (Nat × Instr)) (e : Nat × Instr) :
    e ∈ insertEvent due i xs ↔ e = (due, i) ∨ e ∈ xs := by
  induction xs with
  | nil => simp [insertEvent]
  | cons x xs ih =>
    obtain ⟨d, j⟩ := x
    unfold insertEvent
    split
    · simp
    · simp only [List.mem_cons, ih]
      tauto

/-- An event is still to come. -/
def toCome (s : State) (i : Instr) : Prop := ∃ due, (due, i) ∈ s.agenda

theorem mem_schedule (s : State) (n : Nat) (i : Instr) : (s.clock + n, i) ∈ (s.schedule n i).agenda :=
  (mem_insertEvent ..).mpr (.inl rfl)

/-- Events are added, and nothing else changes. -/
structure Awaits (s t : State) : Prop where
  frame : t = { s with agenda := t.agenda }
  kept : ∀ e ∈ s.agenda, e ∈ t.agenda

theorem Awaits.refl (s : State) : Awaits s s := ⟨rfl, fun _ h => h⟩

theorem Awaits.trans {s t u : State} (h1 : Awaits s t) (h2 : Awaits t u) : Awaits s u :=
  ⟨by rw [h2.frame, h1.frame], fun e h => h2.kept e (h1.kept e h)⟩

theorem Awaits.queue {s t : State} (h : Awaits s t) (fn q : Nat) : t.queue fn q = s.queue fn q := by
  unfold State.queue State.func
  rw [h.frame]

theorem schedule_awaits (s : State) (n : Nat) (i : Instr) : Awaits s (s.schedule n i) :=
  ⟨rfl, fun _ h => (mem_insertEvent ..).mpr (.inr h)⟩

theorem scheduleOnce_awaits (s : State) (n : Nat) (i : Instr) : Awaits s (s.scheduleOnce n i) := by
  unfold State.scheduleOnce
  split
  · exact .refl s
  · exact schedule_awaits s n i

theorem scheduleOnce_toCome (s : State) (n : Nat) (i : Instr) : toCome (s.scheduleOnce n i) i := by
  unfold State.scheduleOnce
  split
  next h =>
    obtain ⟨e, he, hi⟩ := List.any_eq_true.mp h
    exact ⟨e.1, by rw [← eq_of_beq hi]; exact he⟩
  next => exact ⟨_, mem_schedule s n i⟩

theorem Awaits.toCome {s t : State} (h : Awaits s t) {i : Instr} (hi : toCome s i) : toCome t i := by
  obtain ⟨due, hdue⟩ := hi
  exact ⟨due, h.kept _ hdue⟩

theorem kickAll_awaits (s : State) : Awaits s (kickAll s) :=
  foldl_keeps Awaits .refl (fun _ _ _ => .trans) _ (fun s (l : Launch) => schedule_awaits s 0 (.blockPlace l.lid)) s.launches s

/-- Completions asked for, for each of some launches. -/
theorem scheduleCompletions_awaits (lids : List Nat) (s : State) :
    Awaits s (lids.foldl (fun s lid => s.scheduleOnce 0 (.launchCompletion lid)) s) :=
  foldl_keeps Awaits .refl (fun _ _ _ => .trans) _ (fun s _ => scheduleOnce_awaits s 0 _) _ s

theorem scheduleCompletions_toCome {lids : List Nat} {lid : Nat} (h : lid ∈ lids) (s : State) :
    toCome (lids.foldl (fun s lid => s.scheduleOnce 0 (.launchCompletion lid)) s) (.launchCompletion lid) := by
  induction lids generalizing s with
  | nil => cases h
  | cons x xs ih =>
    rcases List.mem_cons.mp h with rfl | h
    · exact (scheduleCompletions_awaits xs _).toCome (scheduleOnce_toCome s 0 _)
    · exact ih h _

/-! ## Pins that end -/

theorem performAtSys_linesOnly (s : State) (xs : List Loc) :
    ∃ l2 dram, performAtSys s xs = { s with l2 := l2, dram := dram } := by
  have h := foldl_keeps (fun (s t : State) => t = { s with l2 := t.l2, dram := t.dram }) (fun _ => rfl)
    (fun a b c h1 h2 => by rw [h2, h1]) (fun (s : State) (x : Loc) => match x.space with
      | .global asid => (match (s.line? asid (x.addr / 256)).filter fun l => l.sectors.any fun e => e.2.dirty with
        | some l => writeBack s l
        | none => s)
      | _ => s) (fun s x => by
        split
        · split <;> rfl
        · rfl) xs s
  exact ⟨_, _, h⟩

theorem endScopePins_linesOnly (s : State) (gone : ScopePin → Bool) :
    ∃ l2 dram pins, endScopePins s gone = { s with l2 := l2, dram := dram, scopePins := pins } := by
  obtain ⟨l2, dram, h⟩ := performAtSys_linesOnly s ((s.scopePins.filter gone).map ScopePin.line)
  refine ⟨l2, dram, s.scopePins.filter fun p => !gone p, ?_⟩
  unfold endScopePins
  rw [h]

/-! ## A kill (R36, R43, R398, R399) -/

/-- The launches of a context. -/
def lidsOf (s : State) (fn ctx : Nat) : List Nat := (s.launches.filter fun l => l.inCtx fn ctx).map Launch.lid

theorem mem_lidsOf {s : State} {fn ctx : Nat} {l : Launch} (hl : l ∈ s.launches) (hin : l.inCtx fn ctx = true) :
    l.lid ∈ lidsOf s fn ctx := List.mem_map_of_mem (List.mem_filter.mpr ⟨hl, hin⟩)

theorem not_mem_lidsOf {s : State} {fn ctx n : Nat} (h : ∀ l ∈ s.launches, l.inCtx fn ctx = true → n ≠ l.lid) :
    n ∉ lidsOf s fn ctx := by
  intro hn
  obtain ⟨l, hl, rfl⟩ := List.mem_map.mp hn
  obtain ⟨hl, hin⟩ := List.mem_filter.mp hl
  exact h l hl hin rfl

/-- A launch ends with a status where it is one of those named. -/
def endedLaunch (lids : List Nat) (status : Nat) (l : Launch) : Launch :=
  if lids.contains l.lid then { l with status := mergeStatus l.status status, waitFault := none } else l

/-- What a kill of some launches leaves of the state. -/
structure Killed (s t : State) (lids : List Nat) (status : Nat) : Prop where
  waves : t.waves = s.waves.filter fun w => !lids.contains w.lid
  blocks : t.blocks = s.blocks.filter fun b => !lids.contains b.lid
  held : t.heldSectors = s.heldSectors.filter fun h => !lids.contains h.lid
  domains : t.domains = s.domains.filter fun d => !lids.contains d.lid
  trackers : ∀ e ∈ t.cores, ∀ x ∈ e.2.tracker, x.wave.lid ∉ lids
  launches : t.launches = s.launches.map (endedLaunch lids status)
  completions : ∀ lid ∈ lids, toCome t (.launchCompletion lid)
  kept : ∀ lid, toCome s (.launchCompletion lid) → toCome t (.launchCompletion lid)

/-- The runs of some launches purged. -/
theorem purgeRuns_kills (s : State) (lids : List Nat) :
    let t := purgeRuns s fun lid _ _ => lids.contains lid
    t = { s with
      waves := s.waves.filter fun w => !lids.contains w.lid
      heldSectors := s.heldSectors.filter fun h => !lids.contains h.lid
      agenda := t.agenda, cores := t.cores, atomics := t.atomics, l2 := t.l2, dram := t.dram, scopePins := t.scopePins } ∧
    (∀ e ∈ t.cores, ∀ x ∈ e.2.tracker, x.wave.lid ∉ lids) ∧
    (∀ lid, toCome s (.launchCompletion lid) → toCome t (.launchCompletion lid)) := by
  unfold purgeRuns
  dsimp only
  obtain ⟨l2, dram, pins, h⟩ := endScopePins_linesOnly s fun p =>
    (((s.everyWave.filter fun w => lids.contains w.lid).map Wave.uid).contains p.uid)
  rw [h]
  refine ⟨rfl, fun e he x hx => ?_, fun lid hcome => ?_⟩
  · obtain ⟨he, -⟩ := List.mem_filter.mp he
    obtain ⟨y, -, rfl⟩ := List.mem_map.mp he
    obtain ⟨-, hx⟩ := List.mem_filter.mp hx
    simpa using hx
  · obtain ⟨due, hdue⟩ := hcome
    refine ⟨due, List.mem_filter.mpr ⟨hdue, ?_⟩⟩
    simp [ofChannel]

/-- What the waves and blocks of some launches hold is freed. -/
def purgeLaunches (s : State) (lids : List Nat) : State :=
  let s1 := endScopePins (dropArms (purgeRuns s fun lid _ _ => lids.contains lid) fun lid => lids.contains lid)
    fun p => lids.contains p.lid
  { s1 with
    blocks := s1.blocks.filter fun b => !lids.contains b.lid
    pins := s1.pins.filter fun p => !lids.contains p.lid
    bindings := s1.bindings.filter fun b => !lids.contains b.lid
    atomicLog := s1.atomicLog.filter fun e => !lids.contains e.1
    domains := s1.domains.filter fun d => !lids.contains d.lid }

theorem purgeContext_eq (s : State) (fn ctx : Nat) : purgeContext s fn ctx = purgeLaunches s (lidsOf s fn ctx) := rfl

theorem purgeLaunches_kills (s : State) (lids : List Nat) :
    let t := purgeLaunches s lids
    t = { s with
      waves := s.waves.filter fun w => !lids.contains w.lid
      blocks := s.blocks.filter fun b => !lids.contains b.lid
      heldSectors := s.heldSectors.filter fun h => !lids.contains h.lid
      domains := s.domains.filter fun d => !lids.contains d.lid
      agenda := t.agenda, cores := t.cores, atomics := t.atomics, l2 := t.l2, dram := t.dram, scopePins := t.scopePins
      pins := t.pins, bindings := t.bindings, atomicLog := t.atomicLog } ∧
    (∀ e ∈ t.cores, ∀ x ∈ e.2.tracker, x.wave.lid ∉ lids) ∧
    (∀ lid, toCome s (.launchCompletion lid) → toCome t (.launchCompletion lid)) := by
  obtain ⟨hruns, htrackers, hcome⟩ := purgeRuns_kills s lids
  obtain ⟨l2, dram, pins, h⟩ := endScopePins_linesOnly
    (dropArms (purgeRuns s fun lid _ _ => lids.contains lid) fun lid => lids.contains lid) fun p => lids.contains p.lid
  unfold purgeLaunches
  dsimp only
  rw [h]
  generalize purgeRuns s (fun lid _ _ => lids.contains lid) = r at hruns htrackers hcome ⊢
  refine ⟨?_, fun e he x hx => ?_, hcome⟩
  · unfold dropArms
    rw [hruns]
  · obtain ⟨he, -⟩ := List.mem_filter.mp he
    obtain ⟨y, hy, rfl⟩ := List.mem_map.mp he
    exact htrackers y hy x hx

theorem endLaunches_awaits (s : State) (fn ctx status : Nat) :
    Awaits { s with launches := s.launches.map (endedLaunch (lidsOf s fn ctx) status) } (endLaunches s fn ctx status) :=
  scheduleCompletions_awaits (lidsOf s fn ctx) _

theorem endLaunches_toCome (s : State) (fn ctx status : Nat) {lid : Nat} (h : lid ∈ lidsOf s fn ctx) :
    toCome (endLaunches s fn ctx status) (.launchCompletion lid) :=
  scheduleCompletions_toCome h _

/-- A kill of a context is one of its launches, and leaves contexts and functions. -/
theorem killContext_killed (s : State) (fn ctx status : Nat) :
    Killed s (killContext s fn ctx status) (lidsOf s fn ctx) status ∧ (killContext s fn ctx status).ctxs = s.ctxs ∧
      (killContext s fn ctx status).fns = s.fns := by
  obtain ⟨hframe, htrackers, hcome⟩ := purgeLaunches_kills s (lidsOf s fn ctx)
  unfold killContext
  rw [purgeContext_eq]
  generalize purgeLaunches s (lidsOf s fn ctx) = r at hframe htrackers hcome ⊢
  have hlids : lidsOf r fn ctx = lidsOf s fn ctx := by rw [hframe]; rfl
  have hends := endLaunches_awaits r fn ctx status
  have hasks : ∀ lid ∈ lidsOf s fn ctx, toCome (endLaunches r fn ctx status) (.launchCompletion lid) :=
    fun lid h => endLaunches_toCome r fn ctx status (hlids.symm ▸ h)
  generalize endLaunches r fn ctx status = t at hends hasks
  have hend := hends.frame
  rw [hlids] at hend
  refine ⟨?_, by rw [hend, hframe], by rw [hend, hframe]⟩
  constructor
  case completions => exact hasks
  case kept => exact fun lid h => hends.toCome (hcome lid h)
  case trackers => rw [hend]; exact htrackers
  all_goals
    rw [hend, hframe]

/-- The waves, blocks and launches stand, and what is to come is still to come. -/
structure SameRuns (s t : State) : Prop where
  waves : t.waves = s.waves
  cores : t.cores = s.cores
  blocks : t.blocks = s.blocks
  held : t.heldSectors = s.heldSectors
  domains : t.domains = s.domains
  launches : t.launches = s.launches
  kept : ∀ i, toCome s i → toCome t i

theorem SameRuns.trans {s t u : State} (h1 : SameRuns s t) (h2 : SameRuns t u) : SameRuns s u where
  waves := h2.waves.trans h1.waves
  cores := h2.cores.trans h1.cores
  blocks := h2.blocks.trans h1.blocks
  held := h2.held.trans h1.held
  domains := h2.domains.trans h1.domains
  launches := h2.launches.trans h1.launches
  kept := fun i h => h2.kept i (h1.kept i h)

theorem Awaits.sameRuns {s t : State} (h : Awaits s t) : SameRuns s t := by
  constructor
  case kept => exact fun _ => h.toCome
  all_goals
    rw [h.frame]

/-- What changes after a kill, but for the runs, is nothing to it. -/
theorem Killed.sameRuns {s t u : State} {lids : List Nat} {status : Nat} (h : Killed s t lids status) (hu : SameRuns t u) :
    Killed s u lids status where
  waves := hu.waves.trans h.waves
  blocks := hu.blocks.trans h.blocks
  held := hu.held.trans h.held
  domains := hu.domains.trans h.domains
  trackers := hu.cores ▸ h.trackers
  launches := hu.launches.trans h.launches
  completions := fun lid hl => hu.kept _ (h.completions lid hl)
  kept := fun lid hl => hu.kept _ (h.kept lid hl)

/-- A kill of a context's launches is one of the context (R36, R399). -/
theorem Killed.ctxKilled {s t : State} {fn id status : Nat} (h : Killed s t (lidsOf s fn id) status) :
    ctxKilled s t fn id status := by
  have hgone : ∀ {l : Launch}, l ∈ s.launches → l.inCtx fn id = true → ∀ {n : Nat}, (!(lidsOf s fn id).contains n) = true →
      n ≠ l.lid := by
    rintro l hl hin n hn rfl
    simp [mem_lidsOf hl hin] at hn
  refine ⟨fun l hl hin => ⟨?_, ?_, ?_, ?_, ?_, ?_, ?_⟩, fun w hw hout => ?_, fun b hb hout => ?_⟩
  · rw [h.waves]
    exact fun w hw => hgone hl hin (List.mem_filter.mp hw).2
  · exact fun e he x hx heq => h.trackers e he x hx (heq ▸ mem_lidsOf hl hin)
  · rw [h.blocks]
    exact fun b hb => hgone hl hin (List.mem_filter.mp hb).2
  · rw [h.held]
    exact fun x hx => hgone hl hin (List.mem_filter.mp hx).2
  · rw [h.domains]
    exact fun d hd => hgone hl hin (List.mem_filter.mp hd).2
  · rw [h.launches]
    refine List.mem_map.mpr ⟨l, hl, ?_⟩
    unfold endedLaunch
    rw [if_pos (by simpa using mem_lidsOf hl hin)]
  · exact h.completions _ (mem_lidsOf hl hin)
  · rw [h.waves]
    exact List.mem_filter.mpr ⟨hw, by simpa using not_mem_lidsOf hout⟩
  · rw [h.blocks]
    exact List.mem_filter.mpr ⟨hb, by simpa using not_mem_lidsOf hout⟩

/-! ## Contexts (R387, R388, R399, R401) -/

/-- A context that is found is of its function and number. -/
theorem ctx?_keys {s : State} {fn id : Nat} {c : Context} (h : s.ctx? fn id = some c) : c.fn = fn ∧ c.id = id := by
  have hc := List.find?_some h
  simpa using hc

theorem ctx?_setCtx {s : State} {fn id : Nat} {c c' : Context} (h : s.ctx? fn id = some c) (hfn : c'.fn = c.fn)
    (hid : c'.id = c.id) : (s.setCtx c').ctx? fn id = some c' := by
  obtain ⟨hf, hi⟩ := ctx?_keys h
  have hkeys : ∀ x : Context, (x.fn == c'.fn && x.id == c'.id) = (x.fn == fn && x.id == id) := by
    intro x
    rw [hfn, hid, hf, hi]
  unfold State.ctx? State.setCtx at *
  dsimp only
  rw [List.find?_map]
  have hsel : ((fun x : Context => x.fn == fn && x.id == id) ∘ fun x => if x.fn == c'.fn && x.id == c'.id then c' else x) =
      fun x : Context => x.fn == fn && x.id == id := by
    funext x
    dsimp only [Function.comp]
    split
    next hx => rw [← hkeys c', ← hkeys x, hx]; simp
    next => rfl
  rw [hsel, h, Option.map_some, if_pos]
  rw [hkeys, hf, hi]
  simp

theorem func_setFunc (s : State) (fn : Nat) (f : Function) : (s.setFunc fn f).func fn = f := by
  unfold State.func State.setFunc
  dsimp only
  rw [mget_mset, if_pos rfl]

theorem setFunc_sameRuns (s : State) (fn : Nat) (f : Function) : SameRuns s (s.setFunc fn f) :=
  ⟨rfl, rfl, rfl, rfl, rfl, rfl, fun _ h => h⟩

theorem setCtx_sameRuns (s : State) (c : Context) : SameRuns s (s.setCtx c) :=
  ⟨rfl, rfl, rfl, rfl, rfl, rfl, fun _ h => h⟩

theorem disableQueues_sameRuns (s : State) (fn : Nat) (sel : Queue → Bool) : SameRuns s (disableQueues s fn sel) :=
  setFunc_sameRuns ..

/-- A queue disabled. -/
def disabledQueue (x : Queue) : Queue := { x with ctl := w64 (x.ctl.toNat % 2 ^ 63), waitFault := none }

theorem disabledQueue_enabled (x : Queue) : (disabledQueue x).enabled = false := by
  have hlt : x.ctl.toNat % 2 ^ 63 < 2 ^ 63 := Nat.mod_lt _ (by decide)
  unfold disabledQueue Queue.enabled bitOf
  dsimp only
  rw [toNat_w64 (by omega)]
  exact Nat.testBit_lt_two_pow hlt

/-- A value that a default stands in for has what the default and every value of the map have. -/
theorem mget_of_forall {α : Type} {P : α → Prop} {d : α} {m : SMap α} (hd : P d) (hm : ∀ e ∈ m, P e.2) (k : Nat) :
    P (mget d m k) := by
  unfold mget
  cases h : mfind m k with
  | none => exact hd
  | some x => exact hm _ (mem_of_mfind h)

/-- Every queue that is selected is disabled (R399, R402). -/
theorem disableQueues_disabled (s : State) (fn : Nat) {sel : Queue → Bool} (q : Nat)
    (h : sel ((disableQueues s fn sel).queue fn q) = true) : ((disableQueues s fn sel).queue fn q).enabled = false := by
  revert h
  unfold State.queue disableQueues
  dsimp only
  rw [func_setFunc]
  refine mget_of_forall (P := fun x => sel x = true → x.enabled = false) (fun _ => by decide) (fun e he => ?_) q
  obtain ⟨y, -, rfl⟩ := List.mem_map.mp (List.mem_filter.mp he).1
  change sel (if sel y.2 then (y.1, disabledQueue y.2) else y).2 = true → (if sel y.2 then (y.1, disabledQueue y.2) else y).2.enabled = false
  split
  next => exact fun _ => disabledQueue_enabled y.2
  next hy => exact fun h => absurd h hy

section Contexts
variable {s : State} {fn id : Nat} {c : Context}

theorem exec_ctxCreate_makes (hid : id < 16) (hn : s.ctx? fn id = none)
    (hd : descBad (readPhys s ((s.func fn).reg ctxDesc) 64) = false)
    (ha : ownsAsid (s.func fn) (field (readPhys s ((s.func fn).reg ctxDesc) 64) 4 2) = true)
    (hfree : s.ctxOfAsid (field (readPhys s ((s.func fn).reg ctxDesc) 64) 4 2) = none) : exec (.ctxCreate fn id) s =
      .next (kickQueues { s with ctxs := s.ctxs ++ [contextOf fn id (readPhys s ((s.func fn).reg ctxDesc) 64)] } fn id) := by
  change execCtxCreate fn id s = _
  unfold execCtxCreate ownsCtx
  dsimp only
  rw [hn, decide_eq_false (show ¬ 16 ≤ id by omega), hd, ha, hfree]
  rfl

theorem exec_ctxCreate_reports (hid : id < 16) (hn : s.ctx? fn id = none)
    (h : descBad (readPhys s ((s.func fn).reg ctxDesc) 64) = true ∨
      ownsAsid (s.func fn) (field (readPhys s ((s.func fn).reg ctxDesc) 64) 4 2) = false ∨
      s.ctxOfAsid (field (readPhys s ((s.func fn).reg ctxDesc) 64) 4 2) ≠ none) :
    exec (.ctxCreate fn id) s = .next (s.setFunc fn { s.func fn with lastCause := 0x0100 }) := by
  change execCtxCreate fn id s = _
  unfold execCtxCreate ownsCtx
  dsimp only
  rw [hn, decide_eq_false (show ¬ 16 ≤ id by omega), if_neg (by decide), if_pos]
  simpa only [Bool.or_eq_true, Bool.not_eq_true', Option.isSome_iff_ne_none, or_assoc] using h

/-- The context after a reset, in a state. -/
def afterReset (c : Context) (st : CtxState) : Context := { c with state := st, preempt := none, traceStop := false }

/-- The state of a context reset but for its queues: its waves killed, its seals ended and its windows disabled. -/
def resetBase (s : State) (c : Context) (st : CtxState) : State :=
  let s2 := (killContext s c.fn c.id Cause.contextReset.code).setCtx (afterReset c st)
  disableWindows { s2 with seals := s2.seals.filter fun x => x.1 != c.asid } fun h => h.owner == c.fn && h.ctx == c.id

theorem resetCtx_eq (s : State) (c : Context) (st : CtxState) :
    resetCtx s c st = kickAll (disableQueues (resetBase s c st) c.fn fun x => x.context == c.id) := rfl

theorem resetCtx_killed (s : State) (c : Context) (st : CtxState) :
    Killed s (resetCtx s c st) (lidsOf s c.fn c.id) Cause.contextReset.code := by
  have hbase : SameRuns (killContext s c.fn c.id Cause.contextReset.code) (resetBase s c st) := by
    unfold resetBase
    generalize killContext s c.fn c.id Cause.contextReset.code = r
    exact ⟨rfl, rfl, rfl, rfl, rfl, rfl, fun _ h => h⟩
  rw [resetCtx_eq]
  exact (killContext_killed ..).1.sameRuns (hbase.trans ((disableQueues_sameRuns ..).trans (kickAll_awaits _).sameRuns))

theorem resetCtx_ctxs (s : State) (c : Context) (st : CtxState) :
    (resetCtx s c st).ctxs = (s.setCtx (afterReset c st)).ctxs := by
  obtain ⟨-, hkill, -⟩ := killContext_killed s c.fn c.id Cause.contextReset.code
  rw [resetCtx_eq, (kickAll_awaits _).frame]
  unfold resetBase
  generalize killContext s c.fn c.id Cause.contextReset.code = r at hkill ⊢
  change (r.setCtx (afterReset c st)).ctxs = _
  unfold State.setCtx
  dsimp only
  rw [hkill]

theorem resetCtx_ctx? (hc : s.ctx? fn id = some c) (st : CtxState) :
    (resetCtx s c st).ctx? fn id = some (afterReset c st) := by
  unfold State.ctx?
  rw [resetCtx_ctxs]
  exact ctx?_setCtx (c' := afterReset c st) hc rfl rfl

theorem resetCtx_disabled (hc : s.ctx? fn id = some c) (st : CtxState) (q : Nat)
    (h : ((resetCtx s c st).queue fn q).context = id) : ((resetCtx s c st).queue fn q).enabled = false := by
  obtain ⟨rfl, rfl⟩ := ctx?_keys hc
  have hqueue := (kickAll_awaits (disableQueues (resetBase s c st) c.fn fun x => x.context == c.id)).queue c.fn q
  rw [← resetCtx_eq] at hqueue
  rw [hqueue] at h ⊢
  exact disableQueues_disabled _ _ q (by simpa using h)

theorem exec_ctxReset (hc : s.ctx? fn id = some c) (h : c.state ≠ .closing) :
    exec (.ctxReset fn id) s = .next (resetCtx s c .running) := by
  change execCtxReset fn id s = _
  unfold execCtxReset
  rw [hc]
  dsimp only
  rw [if_neg h]

/-- A context gone. -/
def withoutCtx (s : State) (fn id : Nat) : State := { s with ctxs := s.ctxs.filter fun x => !(x.fn == fn && x.id == id) }

theorem withoutCtx_ctx? (s : State) (fn id : Nat) : (withoutCtx s fn id).ctx? fn id = none := by
  refine List.find?_eq_none.mpr fun x hx hkey => ?_
  have hkeep := (List.mem_filter.mp hx).2
  rw [hkey] at hkeep
  cases hkeep

theorem withoutCtx_queue (s : State) (fn id n q : Nat) : (withoutCtx s fn id).queue n q = s.queue n q := rfl

theorem withoutCtx_sameRuns (s : State) (fn id : Nat) : SameRuns s (withoutCtx s fn id) :=
  ⟨rfl, rfl, rfl, rfl, rfl, rfl, fun _ h => h⟩

theorem exec_ctxDestroy (hc : s.ctx? fn id = some c) : exec (.ctxDestroy fn id) s =
    .next (if (resetCtx s c .closing).launches.any fun l => l.inCtx fn id then resetCtx s c .closing
      else withoutCtx (resetCtx s c .closing) fn id) := by
  change execCtxDestroy fn id s = _
  unfold execCtxDestroy
  rw [hc]
  rfl

theorem endedLaunch_inCtx (lids : List Nat) (status : Nat) (l : Launch) (fn id : Nat) :
    (endedLaunch lids status l).inCtx fn id = l.inCtx fn id := by
  unfold endedLaunch
  split <;> rfl

theorem endedLaunch_lid (lids : List Nat) (status : Nat) (l : Launch) : (endedLaunch lids status l).lid = l.lid := by
  unfold endedLaunch
  split <;> rfl

/-- A reset leaves its context the launches it had. -/
theorem resetCtx_launches (s : State) (c : Context) (st : CtxState) (fn id : Nat) :
    ((resetCtx s c st).launches.any fun l => l.inCtx fn id) = s.launches.any fun l => l.inCtx fn id := by
  rw [(resetCtx_killed s c st).launches, List.any_map]
  congr 1
  funext l
  exact endedLaunch_inCtx ..

/-- A destroyed context is killed, whether it is gone or closes. -/
theorem ctxDestroy_killed (hc : s.ctx? fn id = some c) : ∃ t, exec (.ctxDestroy fn id) s = .next t ∧
    ctxKilled s t fn id Cause.contextReset.code ∧
    (∀ q, (t.queue fn q).context = id → (t.queue fn q).enabled = false) ∧
    ((∀ l ∈ s.launches, l.inCtx fn id = false) → t.ctx? fn id = none) ∧
    ((∃ l ∈ s.launches, l.inCtx fn id = true) → t.ctx? fn id = some (afterReset c .closing)) := by
  have hexec := exec_ctxDestroy hc
  rw [resetCtx_launches] at hexec
  have hctx := resetCtx_ctx? hc .closing
  have hqueues := resetCtx_disabled hc .closing
  have hkilled := resetCtx_killed s c .closing
  obtain ⟨rfl, rfl⟩ := ctx?_keys hc
  cases hany : s.launches.any fun l => l.inCtx c.fn c.id with
  | true =>
    rw [hany, if_pos rfl] at hexec
    refine ⟨_, hexec, hkilled.ctxKilled, hqueues, fun hnone => ?_, fun _ => hctx⟩
    obtain ⟨l, hl, hin⟩ := List.any_eq_true.mp hany
    rw [hnone l hl] at hin
    cases hin
  | false =>
    rw [hany, if_neg (by decide)] at hexec
    refine ⟨_, hexec, (hkilled.sameRuns (withoutCtx_sameRuns ..)).ctxKilled, fun q => ?_, fun _ => withoutCtx_ctx? ..,
      fun ⟨l, hl, hin⟩ => ?_⟩
    · rw [withoutCtx_queue]
      exact hqueues q
    · rw [List.any_eq_false] at hany
      exact absurd hin (hany l hl)

theorem exec_ctxPreempt (hc : s.ctx? fn id = some c) (hs : c.state = .running ∨ c.state = .preempted) {level : Nat}
    (hl : level < 8) : exec (.ctxPreempt fn id level) s = .next (requestPreempt s c level) := by
  have hrun : (c.state == .running || c.state == .preempted) = true := by simpa using hs
  change execCtxPreempt fn id level s = _
  unfold execCtxPreempt
  rw [hc]
  dsimp only
  rw [hrun, if_pos rfl, Nat.mod_eq_of_lt hl]

/-! ## Bounds of requests (R43, R387) -/

/-- PREEMPTEV with a context's bit set. -/
def withPreemptEv (ev id : Nat) : Nat := if bitOf ev id then ev else ev + 2 ^ id

theorem withPreemptEv_testBit (ev id k : Nat) : (withPreemptEv ev id).testBit k = (decide (k = id) || ev.testBit k) := by
  unfold withPreemptEv bitOf
  split
  next h =>
    by_cases hk : k = id
    · rw [hk, h, Bool.or_true]
    · rw [decide_eq_false hk, Bool.false_or]
  next h => exact testBit_add_two_pow (by simpa using h) k

section Bound
variable {level since : Nat}

theorem exec_preemptBoundExpiry (hc : s.ctx? fn id = some c) (hp : c.preempt = some (level, since))
    (hd : since + c.boundUs * Config.clocksPerUs ≤ s.clock) : exec (.preemptBoundExpiry fn id) s =
      .next (if level < 7 then s.setFunc fn { s.func fn with preemptEv := withPreemptEv (s.func fn).preemptEv id }
        else killContext (s.setCtx { c with preempt := none }) fn id Cause.preemptTimeout.code) := by
  change execPreemptBoundExpiry fn id s = _
  unfold execPreemptBoundExpiry
  rw [hc]
  dsimp only
  rw [hp]
  dsimp only
  rw [if_neg (Nat.not_lt_of_le hd)]
  rfl

/-- A kill past the bound is one of the context, whose request is no longer pending. -/
theorem boundKill (hc : s.ctx? fn id = some c) (status : Nat) :
    ctxKilled s (killContext (s.setCtx { c with preempt := none }) fn id status) fn id status ∧
      (killContext (s.setCtx { c with preempt := none }) fn id status).ctx? fn id = some { c with preempt := none } := by
  obtain ⟨hkilled, hctxs, -⟩ := killContext_killed (s.setCtx { c with preempt := none }) fn id status
  have hctx := ctx?_setCtx (c' := { c with preempt := none }) hc rfl rfl
  generalize killContext (s.setCtx { c with preempt := none }) fn id status = t at hkilled hctxs ⊢
  refine ⟨hkilled.ctxKilled, ?_⟩
  unfold State.ctx?
  rw [hctxs]
  exact hctx

end Bound

theorem exec_preemptevClear (s : State) (fn : Nat) (v : Word) : exec (.preemptevClear fn v) s =
    .next (s.setFunc fn { s.func fn with preemptEv := (w64 (s.func fn).preemptEv &&& ~~~v).toNat % 2 ^ 16 }) := rfl

theorem clearedBits_testBit (ev : Nat) (v : Word) (k : Nat) :
    ((w64 ev &&& ~~~v).toNat % 2 ^ 16).testBit k = (ev.testBit k && decide (k < 16) && !v.getLsbD k) := by
  rw [Nat.testBit_mod_two_pow, BitVec.testBit_toNat, BitVec.getLsbD_and, BitVec.getLsbD_not, w64, BitVec.getLsbD_ofNat]
  by_cases hk : k < 16
  · rw [decide_eq_true hk, decide_eq_true (show k < 64 by omega)]
    simp
  · rw [decide_eq_false hk]
    simp

end Contexts

/-! ## Function-level reset (R402) -/

section Flr
variable {s : State} {fn : Nat}

theorem schedule_func (s : State) (n : Nat) (i : Instr) (fn : Nat) : (s.schedule n i).func fn = s.func fn := rfl

/-- The state after a function's stop. -/
def stopped (s : State) (fn : Nat) : State :=
  (disableQueues (s.setFunc fn { s.func fn with flr := true, flrPhase := 1 }) fn fun _ => true).schedule 1 (.flrScrub fn)

theorem exec_functionLevelReset (h : (s.func fn).flr = false) : exec (.functionLevelReset fn) s = .next (stopped s fn) := by
  change execFunctionLevelReset fn s = _
  unfold execFunctionLevelReset
  dsimp only
  rw [h]
  rfl

theorem stopped_func (s : State) (fn : Nat) : ((stopped s fn).func fn).flr = true ∧ ((stopped s fn).func fn).flrPhase = 1 := by
  unfold stopped disableQueues
  rw [schedule_func]
  dsimp only
  rw [func_setFunc, func_setFunc]
  exact ⟨rfl, rfl⟩

theorem stopped_disabled (s : State) (fn q : Nat) : ((stopped s fn).queue fn q).enabled = false := by
  unfold stopped
  rw [(schedule_awaits ..).queue]
  exact disableQueues_disabled _ fn q rfl

/-- A stop leaves the waves, the blocks, the launches and the contexts, and is followed by the kill. -/
theorem stopped_rest (s : State) (fn : Nat) : (stopped s fn).waves = s.waves ∧ (stopped s fn).blocks = s.blocks ∧
    (stopped s fn).launches = s.launches ∧ (stopped s fn).ctxs = s.ctxs ∧
    (s.clock + 1, Instr.flrScrub fn) ∈ (stopped s fn).agenda := by
  have hagenda := mem_schedule (disableQueues (s.setFunc fn { s.func fn with flr := true, flrPhase := 1 }) fn fun _ => true) 1
    (.flrScrub fn)
  unfold stopped disableQueues at *
  simp only [State.schedule_waves, State.schedule_blocks, State.schedule_launches, State.schedule_ctxs, State.setFunc_waves,
    State.setFunc_blocks, State.setFunc_launches, State.setFunc_ctxs, State.setFunc_clock] at hagenda ⊢
  exact ⟨trivial, trivial, trivial, trivial, hagenda⟩

/-! ### The kill -/

/-- A context's waves and blocks are gone, its launches are to complete with a kill's status, and no request is pending. -/
structure Done (s : State) (fn id : Nat) : Prop where
  requests : ∀ c ∈ s.ctxs, c.fn = fn → c.id = id → c.preempt = none
  waves : ∀ l ∈ s.launches, l.inCtx fn id = true → ∀ w ∈ s.waves, w.lid ≠ l.lid
  blocks : ∀ l ∈ s.launches, l.inCtx fn id = true → ∀ b ∈ s.blocks, b.lid ≠ l.lid
  domains : ∀ l ∈ s.launches, l.inCtx fn id = true → ∀ d ∈ s.domains, d.lid ≠ l.lid
  status : ∀ l ∈ s.launches, l.inCtx fn id = true → statusRank l.status ≤ statusRank Cause.vfReset.code
  completes : ∀ l ∈ s.launches, l.inCtx fn id = true → toCome s (.launchCompletion l.lid)

theorem Done.sameRuns {t : State} {id : Nat} (h : Done s fn id) (hr : SameRuns s t) (hc : t.ctxs = s.ctxs) : Done t fn id := by
  constructor
  case requests => rw [hc]; exact h.requests
  case waves => rw [hr.launches, hr.waves]; exact h.waves
  case blocks => rw [hr.launches, hr.blocks]; exact h.blocks
  case domains => rw [hr.launches, hr.domains]; exact h.domains
  case status => rw [hr.launches]; exact h.status
  case completes => rw [hr.launches]; exact fun l hl hin => hr.kept _ (h.completes l hl hin)

/-- The kill of one context of a function that is reset. -/
def killCtx (fn : Nat) (s : State) (c : Context) : State :=
  (killContext s fn c.id Cause.vfReset.code).setCtx { c with preempt := none, traceStop := false }

/-- The contexts with one of them changed. -/
theorem killCtx_ctxs (s : State) (c : Context) :
    (killCtx fn s c).ctxs = (s.setCtx { c with preempt := none, traceStop := false }).ctxs := by
  obtain ⟨-, hkill, -⟩ := killContext_killed s fn c.id Cause.vfReset.code
  unfold killCtx
  generalize killContext s fn c.id Cause.vfReset.code = r at hkill ⊢
  unfold State.setCtx
  dsimp only
  rw [hkill]

theorem killCtx_fns (s : State) (c : Context) : (killCtx fn s c).fns = s.fns :=
  (killContext_killed s fn c.id Cause.vfReset.code).2.2

theorem mergeStatus_rank_le_old (old new : Nat) : statusRank (mergeStatus old new) ≤ statusRank old := by
  unfold mergeStatus
  split <;> omega

theorem mergeStatus_rank_le_new (old new : Nat) : statusRank (mergeStatus old new) ≤ statusRank new := by
  unfold mergeStatus
  split <;> omega

theorem endedLaunch_rank_le (lids : List Nat) (status : Nat) (l : Launch) :
    statusRank (endedLaunch lids status l).status ≤ statusRank l.status := by
  unfold endedLaunch
  split
  · exact mergeStatus_rank_le_old ..
  · exact le_refl _

/-- A launch after a kill, and the one it was. -/
theorem Killed.launch_of {t : State} {lids : List Nat} {status id : Nat} (h : Killed s t lids status) {l : Launch}
    (hl : l ∈ t.launches) (hin : l.inCtx fn id = true) : ∃ y ∈ s.launches, l = endedLaunch lids status y ∧ y.lid = l.lid ∧
      y.inCtx fn id = true := by
  rw [h.launches] at hl
  obtain ⟨y, hy, rfl⟩ := List.mem_map.mp hl
  exact ⟨y, hy, rfl, (endedLaunch_lid ..).symm, by rwa [endedLaunch_inCtx] at hin⟩

theorem killCtx_killed (s : State) (c : Context) : Killed s (killCtx fn s c) (lidsOf s fn c.id) Cause.vfReset.code :=
  (killContext_killed s fn c.id Cause.vfReset.code).1.sameRuns (setCtx_sameRuns ..)

/-- A context killed is done. -/
theorem killCtx_done (s : State) {c : Context} (hc : c.fn = fn) : Done (killCtx fn s c) fn c.id := by
  have hkill := killCtx_killed (fn := fn) s c
  have hmem : ∀ l ∈ (killCtx fn s c).launches, l.inCtx fn c.id = true → l.lid ∈ lidsOf s fn c.id := by
    intro l hl hin
    obtain ⟨y, hy, -, hlid, hyin⟩ := hkill.launch_of hl hin
    exact hlid ▸ mem_lidsOf hy hyin
  have hgone : ∀ l ∈ (killCtx fn s c).launches, l.inCtx fn c.id = true → ∀ {n : Nat},
      (!(lidsOf s fn c.id).contains n) = true → n ≠ l.lid := by
    rintro l hl hin n hn rfl
    simp [hmem l hl hin] at hn
  constructor
  case requests =>
    intro x hx hfn hid
    rw [killCtx_ctxs] at hx
    obtain ⟨y, -, rfl⟩ := List.mem_map.mp hx
    split at hfn
    next h => rw [if_pos h]
    next h =>
      rw [if_neg h] at hid
      exact absurd (by simp [hfn, hid, hc]) h
  case waves =>
    intro l hl hin w hw
    rw [hkill.waves] at hw
    exact hgone l hl hin (List.mem_filter.mp hw).2
  case blocks =>
    intro l hl hin b hb
    rw [hkill.blocks] at hb
    exact hgone l hl hin (List.mem_filter.mp hb).2
  case domains =>
    intro l hl hin d hd
    rw [hkill.domains] at hd
    exact hgone l hl hin (List.mem_filter.mp hd).2
  case status =>
    intro l hl hin
    obtain ⟨y, hy, rfl, -, hyin⟩ := hkill.launch_of hl hin
    unfold endedLaunch
    rw [if_pos (by simpa using mem_lidsOf hy hyin)]
    exact mergeStatus_rank_le_new ..
  case completes => exact fun l hl hin => hkill.completions _ (hmem l hl hin)

/-- A context that is done stays so when another is killed. -/
theorem killCtx_keeps {id : Nat} (h : Done s fn id) (c : Context) : Done (killCtx fn s c) fn id := by
  have hkill := killCtx_killed (fn := fn) s c
  constructor
  case requests =>
    intro x hx hfn hid
    rw [killCtx_ctxs] at hx
    obtain ⟨y, hy, rfl⟩ := List.mem_map.mp hx
    split at hfn
    next hk => rw [if_pos hk]
    next hk =>
      rw [if_neg hk] at hid ⊢
      exact h.requests y hy hfn hid
  case waves =>
    intro l hl hin w hw
    obtain ⟨y, hy, -, hlid, hyin⟩ := hkill.launch_of hl hin
    rw [hkill.waves] at hw
    exact hlid ▸ h.waves y hy hyin w (List.mem_filter.mp hw).1
  case blocks =>
    intro l hl hin b hb
    obtain ⟨y, hy, -, hlid, hyin⟩ := hkill.launch_of hl hin
    rw [hkill.blocks] at hb
    exact hlid ▸ h.blocks y hy hyin b (List.mem_filter.mp hb).1
  case domains =>
    intro l hl hin d hd
    obtain ⟨y, hy, -, hlid, hyin⟩ := hkill.launch_of hl hin
    rw [hkill.domains] at hd
    exact hlid ▸ h.domains y hy hyin d (List.mem_filter.mp hd).1
  case status =>
    intro l hl hin
    obtain ⟨y, hy, rfl, -, hyin⟩ := hkill.launch_of hl hin
    exact (endedLaunch_rank_le ..).trans (h.status y hy hyin)
  case completes =>
    intro l hl hin
    obtain ⟨y, hy, -, hlid, hyin⟩ := hkill.launch_of hl hin
    exact hlid ▸ hkill.kept _ (h.completes y hy hyin)

/-- Killed one after another, every context that was done or is named is done. -/
theorem killCtxs_done {cs : List Context} (hcs : ∀ c ∈ cs, c.fn = fn) {id : Nat} (s : State)
    (h : Done s fn id ∨ ∃ c ∈ cs, c.id = id) : Done (cs.foldl (killCtx fn) s) fn id := by
  induction cs generalizing s with
  | nil => exact h.resolve_right fun ⟨_, hc, _⟩ => nomatch hc
  | cons c cs ih =>
    refine ih (fun x hx => hcs x (List.mem_cons_of_mem _ hx)) _ ?_
    rcases h with h | ⟨x, hx, rfl⟩
    · exact .inl (killCtx_keeps h c)
    · rcases List.mem_cons.mp hx with rfl | hx
      · exact .inl (killCtx_done s (hcs x List.mem_cons_self))
      · exact .inr ⟨x, hx, rfl⟩

/-- A context after the kills is of a function and number that one had before. -/
theorem killCtxs_keys {cs : List Context} (s : State) {x : Context} (hx : x ∈ (cs.foldl (killCtx fn) s).ctxs) :
    ∃ y ∈ s.ctxs, y.fn = x.fn ∧ y.id = x.id := by
  induction cs generalizing s with
  | nil => exact ⟨x, hx, rfl, rfl⟩
  | cons c cs ih =>
    obtain ⟨y, hy, hfn, hid⟩ := ih _ hx
    rw [killCtx_ctxs] at hy
    obtain ⟨z, hz, rfl⟩ := List.mem_map.mp hy
    refine ⟨z, hz, ?_⟩
    split at hfn
    next hk =>
      rw [if_pos hk] at hid
      have hkeys : z.fn = c.fn ∧ z.id = c.id := by simpa using hk
      exact ⟨hkeys.1.trans hfn, hkeys.2.trans hid⟩
    next hk =>
      rw [if_neg hk] at hid
      exact ⟨hfn, hid⟩

theorem killCtxs_fns (cs : List Context) (s : State) : (cs.foldl (killCtx fn) s).fns = s.fns :=
  foldl_keeps (fun s t : State => t.fns = s.fns) (fun _ => rfl) (fun _ _ _ h1 h2 => h2.trans h1) _ (fun s c => killCtx_fns s c) cs s

/-- The function's records after its kill: its fault records refused, its map change thawed. -/
def killedFunction (f : Function) : Function :=
  let thaw := if f.mapStat = 1 || f.mapStat = 2 then 0 else f.mapStat
  let capture := if f.capture.state = 1 || f.capture.state = 2 || f.capture.state = 3 then emptyCapture else f.capture
  { f with faults := [], waitingFaults := [], mapStat := thaw, capture := capture }

/-- The function's contexts killed, in a state in which its kill has begun. -/
def killContexts (s : State) (fn : Nat) : State := (s.ctxs.filter fun c => c.fn == fn).foldl (killCtx fn) s

theorem killFunction_eq (s : State) (fn : Nat) : ∃ s1, (s1.func fn).flr = true ∧ (s1.func fn).flrPhase = 2 ∧
    killFunction s fn = kickAll ((killContexts s1 fn).setFunc fn (killedFunction ((killContexts s1 fn).func fn))) := by
  refine ⟨_, ?_, ?_, rfl⟩
  · exact congrArg Function.flr (func_setFunc ..)
  · exact congrArg Function.flrPhase (func_setFunc ..)

theorem killContexts_func (s : State) (fn : Nat) : (killContexts s fn).func fn = s.func fn := by
  unfold State.func killContexts
  rw [killCtxs_fns]

theorem killContexts_done (s : State) (fn : Nat) : ∀ c ∈ (killContexts s fn).ctxs, c.fn = fn → Done (killContexts s fn) fn c.id := by
  intro c hc hfn
  obtain ⟨y, hy, hyfn, hyid⟩ := killCtxs_keys s hc
  refine killCtxs_done (fun x hx => by simpa using (List.mem_filter.mp hx).2) s (.inr ⟨y, List.mem_filter.mpr ⟨hy, ?_⟩, hyid⟩)
  simp [hyfn, hfn]

/-- The kill of a function's reset: phase 2, its contexts done and its fault records refused. -/
theorem killFunction_kills (s : State) (fn : Nat) : ((killFunction s fn).func fn).flr = true ∧
    ((killFunction s fn).func fn).flrPhase = 2 ∧ ((killFunction s fn).func fn).faults = [] ∧
    ((killFunction s fn).func fn).waitingFaults = [] ∧
    ∀ c ∈ (killFunction s fn).ctxs, c.fn = fn → Done (killFunction s fn) fn c.id := by
  obtain ⟨s1, hflr, hphase, heq⟩ := killFunction_eq s fn
  have hdone := killContexts_done s1 fn
  have hfunc := killContexts_func s1 fn
  rw [heq]
  generalize killContexts s1 fn = r at hdone hfunc ⊢
  have hkick := kickAll_awaits (r.setFunc fn (killedFunction (r.func fn)))
  have hkicked : (kickAll (r.setFunc fn (killedFunction (r.func fn)))).func fn = killedFunction (s1.func fn) := by
    rw [hkick.frame, ← hfunc]
    exact func_setFunc ..
  have hctxs : (kickAll (r.setFunc fn (killedFunction (r.func fn)))).ctxs = r.ctxs := by
    rw [hkick.frame]
    rfl
  rw [hkicked, hctxs]
  exact ⟨hflr, hphase, rfl, rfl, fun c hc hfn => (hdone c hc hfn).sameRuns ((setFunc_sameRuns ..).trans hkick.sameRuns) hctxs⟩

theorem exec_flrScrub_kills (hf : (s.func fn).flr = true) (hp : (s.func fn).flrPhase = 1) :
    exec (.flrScrub fn) s = .next ((killFunction s fn).schedule 1 (.flrScrub fn)) := by
  change execFlrScrub fn s = _
  unfold execFlrScrub
  dsimp only
  rw [hf, hp]
  rfl

theorem exec_flrScrub_waits (hf : (s.func fn).flr = true) (hp : (s.func fn).flrPhase = 2) : exec (.flrScrub fn) s =
    .next (if s.launches.any fun l => l.fn == fn then s.schedule 1 (.flrScrub fn)
      else (s.setFunc fn { s.func fn with flrPhase := 3 }).schedule 1 (.flrScrub fn)) := by
  change execFlrScrub fn s = _
  unfold execFlrScrub
  dsimp only
  rw [hf, hp]
  rfl

/-! ### The scrub -/

/-- The state of a scrub under way. -/
def scrubbing (s : State) (fn : Nat) : State :=
  ((scrubFunction s fn).setFunc fn { (scrubFunction s fn).func fn with flrPhase := 4, scrub := [] }).schedule scrubClocks (.flrScrub fn)

theorem exec_flrScrub_drains (hf : (s.func fn).flr = true) (hp : (s.func fn).flrPhase = 3) : exec (.flrScrub fn) s =
    .next (if taggedRequests s fn ≠ 0 then s.schedule 1 (.flrScrub fn) else scrubbing s fn) := by
  change execFlrScrub fn s = _
  unfold execFlrScrub
  dsimp only
  rw [hf, hp]
  rfl

theorem evictLines_linesMoved (ls : List L2Line) (s : State) : LinesMoved s (ls.foldl evictLine s) :=
  foldl_keeps LinesMoved .refl (fun _ _ _ => .trans) _ evictLine_linesMoved ls s

/-- What is left of the L2 was there, and is none of the lines evicted. -/
theorem mem_evictLines_l2 {ls : List L2Line} {x : L2Line} (h : x ∈ (ls.foldl evictLine s).l2) :
    x ∈ s.l2 ∧ ∀ l ∈ ls, ¬ (x.asid = l.asid ∧ x.line = l.line) := by
  induction ls generalizing s with
  | nil => exact ⟨h, fun _ hl => nomatch hl⟩
  | cons l ls ih =>
    obtain ⟨hx, hrest⟩ := ih h
    rw [evictLine_l2] at hx
    obtain ⟨hx, hne⟩ := List.mem_filter.mp hx
    refine ⟨hx, fun y hy => ?_⟩
    rcases List.mem_cons.mp hy with rfl | hy
    · exact of_decide_eq_false ((Bool.not_eq_true' _).mp hne)
    · exact hrest y hy

/-- Shares are cleared in the cores and their scratchpads. -/
theorem clearShares_only (xs : List (Nat × Nat × Nat)) (s : State) :
    ∃ cores scratch, xs.foldl (fun s x => clearShare s x.1 x.2.1 x.2.2) s = { s with cores := cores, scratch := scratch } :=
  ⟨_, _, foldl_keeps (fun s t : State => t = { s with cores := t.cores, scratch := t.scratch }) (fun _ => rfl)
    (fun a b c h1 h2 => by rw [h2, h1]) (fun s (x : Nat × Nat × Nat) => clearShare s x.1 x.2.1 x.2.2) (fun _ _ => rfl) xs s⟩

/-- The scrub leaves the function and the contexts, and nothing the function's ASIDs held. -/
theorem scrubFunction_scrubs (s : State) (fn : Nat) : (scrubFunction s fn).fns = s.fns ∧ (scrubFunction s fn).ctxs = s.ctxs ∧
    (scrubFunction s fn).clock = s.clock ∧ let own := ownsAsid (s.func fn)
    (∀ x ∈ (scrubFunction s fn).tlb, own x.asid = false) ∧ (∀ x ∈ (scrubFunction s fn).classes, own x.asid = false) ∧
    (∀ x ∈ (scrubFunction s fn).classCopies, own x.asid = false) ∧
    (∀ x ∈ (scrubFunction s fn).heldSectors, own x.asid = false) ∧ (∀ x ∈ (scrubFunction s fn).l2, own x.asid = false) := by
  unfold scrubFunction
  dsimp only
  generalize ownsAsid (s.func fn) = own
  obtain ⟨cores, scratch, hshares⟩ := clearShares_only (s.func fn).scrub s
  rw [hshares]
  dsimp only
  have hmoved := evictLines_linesMoved (s.l2.filter fun l => own l.asid) { s with
    cores := cores, scratch := scratch, heldSectors := s.heldSectors.filter fun h => !own h.asid
    seals := s.seals.filter fun x => !own x.1 }
  have hl2 : ∀ x ∈ ((s.l2.filter fun l => own l.asid).foldl evictLine { s with
      cores := cores, scratch := scratch, heldSectors := s.heldSectors.filter fun h => !own h.asid
      seals := s.seals.filter fun x => !own x.1 }).l2, own x.asid = false := by
    intro x hx
    obtain ⟨hx, hne⟩ := mem_evictLines_l2 hx
    by_contra hown
    exact hne x (List.mem_filter.mpr ⟨hx, by simpa using hown⟩) ⟨rfl, rfl⟩
  generalize (s.l2.filter fun l => own l.asid).foldl evictLine _ = t at hmoved hl2 ⊢
  have hframe := hmoved.frame
  have hfiltered : ∀ {α : Type} {xs : List α} {f : α → Nat}, ∀ x ∈ xs.filter (fun e => !own (f e)), own (f x) = false :=
    fun x hx => by simpa using (List.mem_filter.mp hx).2
  refine ⟨?_, ?_, ?_, hfiltered, hfiltered, hfiltered, ?_, hl2⟩
  · rw [hframe]; rfl
  · rw [hframe]; rfl
  · rw [hframe]; rfl
  · rw [hframe]; exact hfiltered

theorem scrubbing_func (s : State) (fn : Nat) :
    (scrubbing s fn).func fn = { s.func fn with flrPhase := 4, scrub := [] } := by
  have hfunc : (scrubFunction s fn).func fn = s.func fn := by
    unfold State.func
    rw [(scrubFunction_scrubs s fn).1]
  unfold scrubbing
  generalize scrubFunction s fn = t at hfunc ⊢
  rw [← hfunc]
  exact func_setFunc ..

theorem scrubbing_agenda (s : State) (fn : Nat) : (s.clock + 4000, Instr.flrScrub fn) ∈ (scrubbing s fn).agenda := by
  obtain ⟨-, -, hclock, -⟩ := scrubFunction_scrubs s fn
  rw [← hclock]
  exact mem_schedule ..

/-! ### The end -/

theorem exec_flrScrub_ends (hf : (s.func fn).flr = true) (hp : (s.func fn).flrPhase = 4) :
    exec (.flrScrub fn) s = .next (endFlr s fn) := by
  change execFlrScrub fn s = _
  unfold execFlrScrub
  dsimp only
  rw [hf, hp]
  rfl

/-- The function as its reset leaves it. -/
def resetFunction (f : Function) : Function := { f with flr := false, flrPhase := 0, queues := [], draining := [], trLost := 0 }

theorem endFlr_ends (s : State) (fn : Nat) : (endFlr s fn).fns = mset emptyFunction s.fns fn (resetFunction (s.func fn)) ∧
    (endFlr s fn).ctxs = (s.ctxs.filter fun c => c.fn != fn) ∧ (endFlr s fn).launches = (s.launches.filter fun l => l.fn != fn) := by
  have hkick := (kickAll_awaits ({ s with
    launches := s.launches.filter (fun l => l.fn != fn), ctxs := s.ctxs.filter (fun c => c.fn != fn)
    collected := s.collected.filter fun x => x.fn != fn }.setFunc fn (resetFunction (s.func fn)))).frame
  have hend : endFlr s fn = _ := hkick
  rw [hend]
  exact ⟨rfl, rfl, rfl⟩

end Flr

/-- Settles O53: a kill of a context is one of its launches, which leaves none of their waves and blocks; a function's kill is
that of each of its contexts, and a later one leaves an earlier one's context as it was. -/
theorem contextsAndFunctions : Obligations.ContextsAndFunctions := by
  unfold Obligations.ContextsAndFunctions
  refine ⟨fun s fn id => ⟨fun hid hn => ⟨exec_ctxCreate_makes hid hn, exec_ctxCreate_reports hid hn⟩, fun c hc => ⟨fun hs => ?_, ?_,
    fun level hl hs => exec_ctxPreempt hc hs hl⟩⟩, ⟨fun s fn id c level since hc hp hd => ⟨fun hl => ?_, fun hl => ?_⟩,
    fun s fn v => ⟨_, exec_preemptevClear s fn v, clearedBits_testBit _ v⟩⟩, fun s fn => ⟨fun hf => ?_, fun hf hp => ?_,
    fun hf hp => ?_, fun hf hp => ?_, fun hf hp => ?_⟩⟩
  · have hkilled := resetCtx_killed s c .running
    have hctx := resetCtx_ctx? hc .running
    have hqueues := resetCtx_disabled hc .running
    have hexec := exec_ctxReset hc hs
    obtain ⟨rfl, rfl⟩ := ctx?_keys hc
    have hctxKilled := hkilled.ctxKilled
    generalize resetCtx s c .running = t at hctxKilled hctx hqueues hexec
    exact ⟨t, hexec, hctxKilled, hctx, hqueues⟩
  · exact ctxDestroy_killed hc
  · refine ⟨_, ?_, withPreemptEv_testBit _ id⟩
    rw [exec_preemptBoundExpiry hc hp hd, if_pos hl]
  · refine ⟨_, ?_, boundKill hc _⟩
    rw [exec_preemptBoundExpiry hc hp hd, if_neg (Nat.not_lt_of_le hl)]
  · obtain ⟨hflr, hphase⟩ := stopped_func s fn
    obtain ⟨hwaves, hblocks, hlaunches, hctxs, hagenda⟩ := stopped_rest s fn
    exact ⟨_, exec_functionLevelReset hf, hflr, hphase, stopped_disabled s fn, hwaves, hblocks, hlaunches, hctxs, hagenda⟩
  · obtain ⟨hflr, hphase, hfaults, hwaiting, hdone⟩ := killFunction_kills s fn
    have hexec := exec_flrScrub_kills hf hp
    generalize killFunction s fn = t at hflr hphase hfaults hwaiting hdone hexec
    have hawaits := schedule_awaits t 1 (.flrScrub fn)
    refine ⟨_, hexec, hflr, hphase, hfaults, hwaiting, ⟨_, mem_schedule t 1 _⟩, fun c hc hfn => ?_⟩
    have hd := (hdone c hc hfn).sameRuns hawaits.sameRuns rfl
    exact ⟨hd.requests c hc hfn rfl, fun l hl hin => ⟨hd.waves l hl hin, hd.blocks l hl hin, hd.domains l hl hin,
      hd.status l hl hin, hd.completes l hl hin⟩⟩
  · have hexec := exec_flrScrub_waits hf hp
    refine ⟨fun ⟨l, hl, hfn⟩ => ?_, fun hnone => ?_⟩
    · rw [hexec, if_pos (List.any_eq_true.mpr ⟨l, hl, by simpa using hfn⟩)]
    · rw [hexec, if_neg (by simpa using hnone)]
  · have hexec := exec_flrScrub_drains hf hp
    refine ⟨fun hn => by rw [hexec, if_pos hn], fun hn => ?_⟩
    rw [if_neg (not_not.mpr hn)] at hexec
    have hfunc := scrubbing_func s fn
    have hagenda := scrubbing_agenda s fn
    obtain ⟨-, hctxs, -, hgone⟩ := scrubFunction_scrubs s fn
    refine ⟨_, hexec, by rw [hfunc]; exact hf, by rw [hfunc], hctxs, hagenda, hgone⟩
  · obtain ⟨hfns, hctxs, hlaunches⟩ := endFlr_ends s fn
    refine ⟨_, resetFunction (s.func fn), exec_flrScrub_ends hf hp, hfns, rfl, rfl, rfl, rfl, ?_, ?_, ?_⟩
    · rw [hctxs]
      exact fun c hc => by simpa using (List.mem_filter.mp hc).2
    · rw [hlaunches]
      exact fun l hl => by simpa using (List.mem_filter.mp hl).2
    · rw [hctxs]
      intro c hc
      simp [List.mem_filter, hc]

end Sys2Proof.Machine
end

section
/-! PROOF. The decoder reads back what the encoder writes (O1: R58, R59, R69 to R74). -/

namespace Sys2Proof.Machine

/-- Every instruction keeps its round trip; an event has no word. -/
theorem roundTrip (i : Instr) : Laws.RoundTrip.Statement i := by
  cases i with
  | nop => exact Laws.RoundTrip.nop
  | setmode lit => exact Laws.RoundTrip.setmode lit
  | getmode d => exact Laws.RoundTrip.getmode d
  | rep count stride => exact Laws.RoundTrip.rep count stride
  | bra off => exact Laws.RoundTrip.bra off
  | brp p off => exact Laws.RoundTrip.brp p off
  | bru u off => exact Laws.RoundTrip.bru u off
  | jmpi a => exact Laws.RoundTrip.jmpi a
  | call d off => exact Laws.RoundTrip.call d off
  | calli d a => exact Laws.RoundTrip.calli d a
  | ret a => exact Laws.RoundTrip.ret a
  | rjoin token => exact Laws.RoundTrip.rjoin token
  | exit => exact Laws.RoundTrip.exit
  | tail => exact Laws.RoundTrip.tail
  | yield => exact Laws.RoundTrip.yield
  | waitf n flags => exact Laws.RoundTrip.waitf n flags
  | setjoin d a => exact Laws.RoundTrip.setjoin d a
  | setleave a => exact Laws.RoundTrip.setleave a
  | arrive a b => exact Laws.RoundTrip.arrive a b
  | waitb d a => exact Laws.RoundTrip.waitb d a
  | arrwait d a b => exact Laws.RoundTrip.arrwait d a b
  | signal a b => exact Laws.RoundTrip.signal a b
  | sigwait d a b => exact Laws.RoundTrip.sigwait d a b
  | bind d a b => exact Laws.RoundTrip.bind d a b
  | unbind a b => exact Laws.RoundTrip.unbind a b
  | rgnin id => exact Laws.RoundTrip.rgnin id
  | rgnout id => exact Laws.RoundTrip.rgnout id
  | spt n => exact Laws.RoundTrip.spt n
  | psave => exact Laws.RoundTrip.psave
  | trap code => exact Laws.RoundTrip.trap code
  | tret => exact Laws.RoundTrip.tret
  | sysrd d lit => exact Laws.RoundTrip.sysrd d lit
  | syswr a lit => exact Laws.RoundTrip.syswr a lit
  | add d a b => exact Laws.RoundTrip.add d a b
  | sub d a b => exact Laws.RoundTrip.sub d a b
  | mul d a b => exact Laws.RoundTrip.mul d a b
  | fma d a b => exact Laws.RoundTrip.fma d a b
  | fms d a b => exact Laws.RoundTrip.fms d a b
  | fnma d a b => exact Laws.RoundTrip.fnma d a b
  | min d a b => exact Laws.RoundTrip.min d a b
  | max d a b => exact Laws.RoundTrip.max d a b
  | abs d a => exact Laws.RoundTrip.abs d a
  | neg d a => exact Laws.RoundTrip.neg d a
  | adds d a b => exact Laws.RoundTrip.adds d a b
  | subs d a b => exact Laws.RoundTrip.subs d a b
  | mulhi d a b => exact Laws.RoundTrip.mulhi d a b
  | dot2 d a b => exact Laws.RoundTrip.dot2 d a b
  | divi d a b => exact Laws.RoundTrip.divi d a b
  | remi d a b => exact Laws.RoundTrip.remi d a b
  | and d a b => exact Laws.RoundTrip.and d a b
  | or d a b => exact Laws.RoundTrip.or d a b
  | xor d a b => exact Laws.RoundTrip.xor d a b
  | andn d a b => exact Laws.RoundTrip.andn d a b
  | shl d a b => exact Laws.RoundTrip.shl d a b
  | shrl d a b => exact Laws.RoundTrip.shrl d a b
  | shra d a b => exact Laws.RoundTrip.shra d a b
  | rol d a b => exact Laws.RoundTrip.rol d a b
  | cmpeq d a b => exact Laws.RoundTrip.cmpeq d a b
  | cmpne d a b => exact Laws.RoundTrip.cmpne d a b
  | cmplt d a b => exact Laws.RoundTrip.cmplt d a b
  | cmple d a b => exact Laws.RoundTrip.cmple d a b
  | cmpun d a b => exact Laws.RoundTrip.cmpun d a b
  | cls d a lit => exact Laws.RoundTrip.cls d a lit
  | sel d a b lit => exact Laws.RoundTrip.sel d a b lit
  | mov d a => exact Laws.RoundTrip.mov d a
  | cvt d a lit => exact Laws.RoundTrip.cvt d a lit
  | cvtr d a lit => exact Laws.RoundTrip.cvtr d a lit
  | pack d a b => exact Laws.RoundTrip.pack d a b
  | widen d a h => exact Laws.RoundTrip.widen d a h
  | dec8 d a g => exact Laws.RoundTrip.dec8 d a g
  | enc8 d a b => exact Laws.RoundTrip.enc8 d a b
  | dec6 d a g => exact Laws.RoundTrip.dec6 d a g
  | enc6 d a => exact Laws.RoundTrip.enc6 d a
  | scaleb d a b => exact Laws.RoundTrip.scaleb d a b
  | rndint d a => exact Laws.RoundTrip.rndint d a
  | dot4 d a b => exact Laws.RoundTrip.dot4 d a b
  | sad d a b => exact Laws.RoundTrip.sad d a b
  | madi d a b => exact Laws.RoundTrip.madi d a b
  | addc d a b lit => exact Laws.RoundTrip.addc d a b lit
  | subb d a b lit => exact Laws.RoundTrip.subb d a b lit
  | frcp2 d a => exact Laws.RoundTrip.frcp2 d a
  | movl d lit => exact Laws.RoundTrip.movl d lit
  | movs d lit => exact Laws.RoundTrip.movs d lit
  | iota d a b => exact Laws.RoundTrip.iota d a b
  | shfl d a b lit => exact Laws.RoundTrip.shfl d a b lit
  | bcast d a b => exact Laws.RoundTrip.bcast d a b
  | lreduce d a lit => exact Laws.RoundTrip.lreduce d a lit
  | lscan d a lit => exact Laws.RoundTrip.lscan d a lit
  | ballot d p => exact Laws.RoundTrip.ballot d p
  | vote d p lit => exact Laws.RoundTrip.vote d p lit
  | plogic d a b lit => exact Laws.RoundTrip.plogic d a b lit
  | pset d lit => exact Laws.RoundTrip.pset d lit
  | pget d p => exact Laws.RoundTrip.pget d p
  | pmov d a => exact Laws.RoundTrip.pmov d a
  | bmm d a b => exact Laws.RoundTrip.bmm d a b
  | bmmx d a b => exact Laws.RoundTrip.bmmx d a b
  | pdep d a b => exact Laws.RoundTrip.pdep d a b
  | pext d a b => exact Laws.RoundTrip.pext d a b
  | bpld k a => exact Laws.RoundTrip.bpld k a
  | bperm d a k => exact Laws.RoundTrip.bperm d a k
  | popc d a => exact Laws.RoundTrip.popc d a
  | clz d a => exact Laws.RoundTrip.clz d a
  | ctz d a => exact Laws.RoundTrip.ctz d a
  | brev d a => exact Laws.RoundTrip.brev d a
  | bfx d a lit => exact Laws.RoundTrip.bfx d a lit
  | bfi d a lit => exact Laws.RoundTrip.bfi d a lit
  | gfmul8 d a b => exact Laws.RoundTrip.gfmul8 d a b
  | clmul d a b => exact Laws.RoundTrip.clmul d a b
  | clmulh d a b => exact Laws.RoundTrip.clmulh d a b
  | byteperm d a b => exact Laws.RoundTrip.byteperm d a b
  | rcp d a => exact Laws.RoundTrip.rcp d a
  | rsq d a => exact Laws.RoundTrip.rsq d a
  | sqrt d a => exact Laws.RoundTrip.sqrt d a
  | exp2 d a => exact Laws.RoundTrip.exp2 d a
  | log2 d a => exact Laws.RoundTrip.log2 d a
  | sinpi d a => exact Laws.RoundTrip.sinpi d a
  | cospi d a => exact Laws.RoundTrip.cospi d a
  | tanh d a => exact Laws.RoundTrip.tanh d a
  | divf d a b => exact Laws.RoundTrip.divf d a b
  | ld8 d a b => exact Laws.RoundTrip.ld8 d a b
  | ld16 d a b => exact Laws.RoundTrip.ld16 d a b
  | ld32 d a b => exact Laws.RoundTrip.ld32 d a b
  | ld64 d a b => exact Laws.RoundTrip.ld64 d a b
  | st8 d a b => exact Laws.RoundTrip.st8 d a b
  | st16 d a b => exact Laws.RoundTrip.st16 d a b
  | st32 d a b => exact Laws.RoundTrip.st32 d a b
  | st64 d a b => exact Laws.RoundTrip.st64 d a b
  | ldl d a b => exact Laws.RoundTrip.ldl d a b
  | stl d a b => exact Laws.RoundTrip.stl d a b
  | sld d a b lit => exact Laws.RoundTrip.sld d a b lit
  | sst d a b lit => exact Laws.RoundTrip.sst d a b lit
  | nld d a b lit => exact Laws.RoundTrip.nld d a b lit
  | nst d a b lit => exact Laws.RoundTrip.nst d a b lit
  | wld d a b => exact Laws.RoundTrip.wld d a b
  | cstr d a p => exact Laws.RoundTrip.cstr d a p
  | xld d a p => exact Laws.RoundTrip.xld d a p
  | tld d a b lit => exact Laws.RoundTrip.tld d a b lit
  | tst d a b lit => exact Laws.RoundTrip.tst d a b lit
  | pref a b => exact Laws.RoundTrip.pref a b
  | sealRegion a b => exact Laws.RoundTrip.sealRegion a b
  | unsealRegion a b => exact Laws.RoundTrip.unsealRegion a b
  | fence scope => exact Laws.RoundTrip.fence scope
  | xfence scope paths => exact Laws.RoundTrip.xfence scope paths
  | pin a b => exact Laws.RoundTrip.pin a b
  | unpin a b => exact Laws.RoundTrip.unpin a b
  | cinv a b => exact Laws.RoundTrip.cinv a b
  | cwb a b => exact Laws.RoundTrip.cwb a b
  | ldacq d a b lit => exact Laws.RoundTrip.ldacq d a b lit
  | strel d a b lit => exact Laws.RoundTrip.strel d a b lit
  | aadd d a b lit => exact Laws.RoundTrip.aadd d a b lit
  | amin d a b lit => exact Laws.RoundTrip.amin d a b lit
  | amax d a b lit => exact Laws.RoundTrip.amax d a b lit
  | aand d a b lit => exact Laws.RoundTrip.aand d a b lit
  | aor d a b lit => exact Laws.RoundTrip.aor d a b lit
  | axor d a b lit => exact Laws.RoundTrip.axor d a b lit
  | aswp d a b lit => exact Laws.RoundTrip.aswp d a b lit
  | acas d a b lit => exact Laws.RoundTrip.acas d a b lit
  | afadd d a b lit => exact Laws.RoundTrip.afadd d a b lit
  | axadd d a b lit => exact Laws.RoundTrip.axadd d a b lit
  | lres d a lit => exact Laws.RoundTrip.lres d a lit
  | scond d a b lit => exact Laws.RoundTrip.scond d a b lit
  | tbegin d => exact Laws.RoundTrip.tbegin d
  | tcommit d => exact Laws.RoundTrip.tcommit d
  | tabort code => exact Laws.RoundTrip.tabort code
  | tstat d => exact Laws.RoundTrip.tstat d
  | mfmt a => exact Laws.RoundTrip.mfmt a
  | mma acc a b => exact Laws.RoundTrip.mma acc a b
  | mmaz acc a b => exact Laws.RoundTrip.mmaz acc a b
  | mbatch n => exact Laws.RoundTrip.mbatch n
  | mwait n => exact Laws.RoundTrip.mwait n
  | mdrain acc a b => exact Laws.RoundTrip.mdrain acc a b
  | maccld acc a => exact Laws.RoundTrip.maccld acc a
  | mstage n a b => exact Laws.RoundTrip.mstage n a b
  | mstat d acc => exact Laws.RoundTrip.mstat d acc
  | cpy d a => exact Laws.RoundTrip.cpy d a
  | cpyd d a => exact Laws.RoundTrip.cpyd d a
  | cpym d a => exact Laws.RoundTrip.cpym d a
  | cpymc d a => exact Laws.RoundTrip.cpymc d a
  | cpyn d a => exact Laws.RoundTrip.cpyn d a
  | halo d a b => exact Laws.RoundTrip.halo d a b
  | haloq d a => exact Laws.RoundTrip.haloq d a
  | evpop d => exact Laws.RoundTrip.evpop d
  | evpeek d => exact Laws.RoundTrip.evpeek d
  | wsld d a => exact Laws.RoundTrip.wsld d a
  | arm a b => exact Laws.RoundTrip.arm a b
  | disarm a => exact Laws.RoundTrip.disarm a
  | cpyx d a => exact Laws.RoundTrip.cpyx d a
  | wpush a b => exact Laws.RoundTrip.wpush a b
  | wpop d => exact Laws.RoundTrip.wpop d
  | wpopw d => exact Laws.RoundTrip.wpopw d
  | wdone => exact Laws.RoundTrip.wdone
  | wfloor d => exact Laws.RoundTrip.wfloor d
  | wstat d => exact Laws.RoundTrip.wstat d
  | ckrole d => exact Laws.RoundTrip.ckrole d
  | cksig d k => exact Laws.RoundTrip.cksig d k
  | tmark mark => exact Laws.RoundTrip.tmark mark
  | halt => exact Laws.RoundTrip.halt
  | clkq d => exact Laws.RoundTrip.clkq d
  | pwload a => exact Laws.RoundTrip.pwload a
  | _ => exact fun _ _ _ _ _ hword => nomatch hword

/-- Settles O1: each instruction's own round trip. -/
theorem decodeEncodeAgree : Obligations.DecodeEncodeAgree := by
  unfold Obligations.DecodeEncodeAgree
  exact fun i w lit next slot => roundTrip i w lit next slot

end Sys2Proof.Machine
end

section
/-! PROOF. What the decoder refuses and what sample words decode to (O2, O3: R59, R67 to R74). -/

namespace Sys2Proof.Machine

/-! ## Unassigned opcodes (R68) -/

section Unassigned
variable {r : RawWord}

theorem decodeVector_unassigned (slot : Nat) (next : Word32) (h : 0x5D ≤ r.op.toNat) :
    decodeVector slot next r = .error .illegalOpcode := by
  unfold decodeVector
  split
  case h_62 => rfl
  all_goals omega

theorem decodeBitFn_unassigned (slot : Nat) (next : Word32) (h : 0x79 ≤ r.op.toNat) :
    decodeBitFn slot next r = .error .illegalOpcode := by
  unfold decodeBitFn
  split
  case h_26 => rfl
  all_goals omega

theorem decodeLoadStore_unassigned (slot : Nat) (next : Word32) (h : 0x9E ≤ r.op.toNat) :
    decodeLoadStore slot next r = .error .illegalOpcode := by
  unfold decodeLoadStore
  split
  case h_31 => rfl
  all_goals omega

theorem decodeMatrix_unassigned (h : 0xB9 ≤ r.op.toNat) : decodeMatrix r = .error .illegalOpcode := by
  unfold decodeMatrix
  split
  case h_10 => rfl
  all_goals omega

theorem decodeCopy_unassigned (h : 0xCD ≤ r.op.toNat) : decodeCopy r = .error .illegalOpcode := by
  unfold decodeCopy
  split
  case h_14 => rfl
  all_goals omega

theorem decodeSystem_unassigned (h : (0xD6 ≤ r.op.toNat ∧ r.op.toNat ≤ 0xD7) ∨ (0xDB ≤ r.op.toNat ∧ r.op.toNat ≤ 0xDF) ∨
    0xE3 ≤ r.op.toNat) : decodeSystem r = .error .illegalOpcode := by
  unfold decodeSystem
  split
  case h_13 => rfl
  all_goals omega

end Unassigned

/-- Settles O2: an opcode's group decodes it, and in its group each unassigned opcode is past or between the assigned ones. -/
theorem unassignedOpcodesRefused : Obligations.UnassignedOpcodesRefused := by
  unfold Obligations.UnassignedOpcodesRefused
  intro slot w next n h
  unfold decodeInstr
  dsimp only
  split_ifs
  · omega
  · exact decodeVector_unassigned slot next (by omega)
  · exact decodeBitFn_unassigned slot next (by omega)
  · exact decodeLoadStore_unassigned slot next (by omega)
  · omega
  · exact decodeMatrix_unassigned (by omega)
  · exact decodeCopy_unassigned (by omega)
  · exact decodeSystem_unassigned (by omega)

/-- Settles O3: closed words, each decoded. -/
theorem sampleWordsDecode : Obligations.SampleWordsDecode := by
  unfold Obligations.SampleWordsDecode
  exact ⟨rfl, rfl, rfl, rfl, rfl, rfl, rfl, rfl, rfl, rfl, rfl, rfl⟩

end Sys2Proof.Machine
end

section
/-! PROOF. A step runs the instruction it finds (O4: R67, R131, R133). -/

namespace Sys2Proof.Machine

/-! ## What a step finds to do -/

section Todo
variable {s : State}

theorem step_run {i : Instr} {t : State} (h : todo s = .run i t) : step s = settled (exec i t) := by
  unfold step; rw [h]

theorem step_go {t : State} (h : todo s = .go t) : step s = .next (settleAll t) := by
  unfold step; rw [h]; rfl

/-- A word the decoder reads is run. -/
theorem decoded_ok {slot : Nat} {word literal : Word32} {i : Instr} (h : decodeInstr slot word literal = .ok i) (t : State) :
    decoded slot word literal t = .run i t := by
  unfold decoded; rw [h]

/-- A word the decoder refuses is the path's cause. -/
theorem decoded_error {slot : Nat} {word literal : Word32} {c : Cause} (h : decodeInstr slot word literal = .error c)
    (t : State) : decoded slot word literal t = .go (decodeStop t c) := by
  unfold decoded; rw [h]

theorem todo_armed {iss : Issue} (hp : s.mgmt.powered = true) (hi : s.issue = some iss) :
    todo s = decoded iss.slot iss.word iss.literal s := by
  unfold todo; simp [hp, hi]

theorem todo_input {i : Instr} {rest : List Instr} (hp : s.mgmt.powered = true) (hi : s.issue = none)
    (hin : s.inputs = i :: rest) : todo s = .run i { s with inputs := rest } := by
  unfold todo; simp [hp, hi, hin]

theorem todo_event {d : Nat} {i : Instr} {rest : List (Nat × Instr)} (hp : s.mgmt.powered = true) (hi : s.issue = none)
    (hin : s.inputs = []) (ha : s.agenda = (d, i) :: rest) (hd : d ≤ s.clock) :
    todo s = .run i { s with agenda := rest } := by
  unfold todo; simp [hp, hi, hin, ha, hd]

/-- With no input and no event due, a step makes the next act of a path. -/
theorem todo_act {x : Seated} {a : Look} (hp : s.mgmt.powered = true) (hi : s.issue = none) (hin : s.inputs = [])
    (ha : ∀ d i rest, s.agenda = (d, i) :: rest → s.clock < d) (hn : nextAct s = some (x, a)) : todo s = pathAct s x a := by
  unfold todo
  cases hag : s.agenda with
  | nil => simp [hp, hi, hin, hn]
  | cons ev rest =>
    have hlate : ¬ ev.1 ≤ s.clock := Nat.not_le_of_lt (ha ev.1 ev.2 rest hag)
    simp [hp, hi, hin, hn, hlate]

/-- A path that is ready has the word at its slot decoded, armed. -/
theorem pathAct_ready {x : Seated} (ws : List Word32) (hh : (x.1.haltPending && x.1.held.isNone) = false)
    (hr : repeats x.1 x.2.1 = false) :
    let iss := issueOf x.1 x.2.1 x.2.2 ws
    pathAct s x (.ready ws) =
      decoded iss.slot iss.word iss.literal { (fetchBundle s x.1 x.2.2.pc).2 with issue := some iss } := by
  simp only [pathAct, hh, hr, Bool.false_eq_true, if_false]

end Todo

/-- Settles O4: what each kind of thing to do makes of a step. -/
theorem stepRunsTheDecodedInstruction : Obligations.StepRunsTheDecodedInstruction := by
  unfold Obligations.StepRunsTheDecodedInstruction
  refine ⟨fun s x ws hp hi hin ha hn hh hr => ?_, fun s i rest hp hi hin => step_run (todo_input hp hi hin),
    fun s d i rest hp hi hin ha hd => step_run (todo_event hp hi hin ha hd),
    fun s iss i hp hi hdec => step_run ((todo_armed hp hi).trans (decoded_ok hdec s))⟩
  have hact := (todo_act hp hi hin ha hn).trans (pathAct_ready ws hh hr)
  exact ⟨fun i hdec => step_run (hact.trans (decoded_ok hdec _)), fun c hdec => step_go (hact.trans (decoded_error hdec _))⟩

end Sys2Proof.Machine
end

section
/-! PROOF. An instruction that fails a check of R67 takes that exception in place of its effect, and TRAP takes its own (O18:
R67, R162). -/

namespace Sys2Proof.Machine

/-- Every instruction with a word but NOP runs through `runInstr`. -/
theorem runs_of_word {i : Instr} (hw : (encode i).isSome = true) (hn : i ≠ .nop) : Runs i := by
  cases i with
  | nop => exact absurd rfl hn
  | setmode lit => exact runs_setmode lit
  | getmode d => exact runs_getmode d
  | rep count stride => exact runs_rep count stride
  | bra off => exact runs_bra off
  | brp p off => exact runs_brp p off
  | bru u off => exact runs_bru u off
  | jmpi a => exact runs_jmpi a
  | call d off => exact runs_call d off
  | calli d a => exact runs_calli d a
  | ret a => exact runs_ret a
  | rjoin token => exact runs_rjoin token
  | exit => exact runs_exit
  | tail => exact runs_tail
  | yield => exact runs_yield
  | waitf n flags => exact runs_waitf n flags
  | setjoin d a => exact runs_setjoin d a
  | setleave a => exact runs_setleave a
  | arrive a b => exact runs_arrive a b
  | waitb d a => exact runs_waitb d a
  | arrwait d a b => exact runs_arrwait d a b
  | signal a b => exact runs_signal a b
  | sigwait d a b => exact runs_sigwait d a b
  | bind d a b => exact runs_bind d a b
  | unbind a b => exact runs_unbind a b
  | rgnin id => exact runs_rgnin id
  | rgnout id => exact runs_rgnout id
  | spt n => exact runs_spt n
  | psave => exact runs_psave
  | trap code => exact runs_trap code
  | tret => exact runs_tret
  | sysrd d lit => exact runs_sysrd d lit
  | syswr a lit => exact runs_syswr a lit
  | add d a b => exact runs_add d a b
  | sub d a b => exact runs_sub d a b
  | mul d a b => exact runs_mul d a b
  | fma d a b => exact runs_fma d a b
  | fms d a b => exact runs_fms d a b
  | fnma d a b => exact runs_fnma d a b
  | min d a b => exact runs_min d a b
  | max d a b => exact runs_max d a b
  | abs d a => exact runs_abs d a
  | neg d a => exact runs_neg d a
  | adds d a b => exact runs_adds d a b
  | subs d a b => exact runs_subs d a b
  | mulhi d a b => exact runs_mulhi d a b
  | dot2 d a b => exact runs_dot2 d a b
  | divi d a b => exact runs_divi d a b
  | remi d a b => exact runs_remi d a b
  | and d a b => exact runs_and d a b
  | or d a b => exact runs_or d a b
  | xor d a b => exact runs_xor d a b
  | andn d a b => exact runs_andn d a b
  | shl d a b => exact runs_shl d a b
  | shrl d a b => exact runs_shrl d a b
  | shra d a b => exact runs_shra d a b
  | rol d a b => exact runs_rol d a b
  | cmpeq d a b => exact runs_cmpeq d a b
  | cmpne d a b => exact runs_cmpne d a b
  | cmplt d a b => exact runs_cmplt d a b
  | cmple d a b => exact runs_cmple d a b
  | cmpun d a b => exact runs_cmpun d a b
  | cls d a lit => exact runs_cls d a lit
  | sel d a b lit => exact runs_sel d a b lit
  | mov d a => exact runs_mov d a
  | cvt d a lit => exact runs_cvt d a lit
  | cvtr d a lit => exact runs_cvtr d a lit
  | pack d a b => exact runs_pack d a b
  | widen d a h => exact runs_widen d a h
  | dec8 d a g => exact runs_dec8 d a g
  | enc8 d a b => exact runs_enc8 d a b
  | dec6 d a g => exact runs_dec6 d a g
  | enc6 d a => exact runs_enc6 d a
  | scaleb d a b => exact runs_scaleb d a b
  | rndint d a => exact runs_rndint d a
  | dot4 d a b => exact runs_dot4 d a b
  | sad d a b => exact runs_sad d a b
  | madi d a b => exact runs_madi d a b
  | addc d a b lit => exact runs_addc d a b lit
  | subb d a b lit => exact runs_subb d a b lit
  | frcp2 d a => exact runs_frcp2 d a
  | movl d lit => exact runs_movl d lit
  | movs d lit => exact runs_movs d lit
  | iota d a b => exact runs_iota d a b
  | shfl d a b lit => exact runs_shfl d a b lit
  | bcast d a b => exact runs_bcast d a b
  | lreduce d a lit => exact runs_lreduce d a lit
  | lscan d a lit => exact runs_lscan d a lit
  | ballot d p => exact runs_ballot d p
  | vote d p lit => exact runs_vote d p lit
  | plogic d a b lit => exact runs_plogic d a b lit
  | pset d lit => exact runs_pset d lit
  | pget d p => exact runs_pget d p
  | pmov d a => exact runs_pmov d a
  | bmm d a b => exact runs_bmm d a b
  | bmmx d a b => exact runs_bmmx d a b
  | pdep d a b => exact runs_pdep d a b
  | pext d a b => exact runs_pext d a b
  | bpld k a => exact runs_bpld k a
  | bperm d a k => exact runs_bperm d a k
  | popc d a => exact runs_popc d a
  | clz d a => exact runs_clz d a
  | ctz d a => exact runs_ctz d a
  | brev d a => exact runs_brev d a
  | bfx d a lit => exact runs_bfx d a lit
  | bfi d a lit => exact runs_bfi d a lit
  | gfmul8 d a b => exact runs_gfmul8 d a b
  | clmul d a b => exact runs_clmul d a b
  | clmulh d a b => exact runs_clmulh d a b
  | byteperm d a b => exact runs_byteperm d a b
  | rcp d a => exact runs_rcp d a
  | rsq d a => exact runs_rsq d a
  | sqrt d a => exact runs_sqrt d a
  | exp2 d a => exact runs_exp2 d a
  | log2 d a => exact runs_log2 d a
  | sinpi d a => exact runs_sinpi d a
  | cospi d a => exact runs_cospi d a
  | tanh d a => exact runs_tanh d a
  | divf d a b => exact runs_divf d a b
  | ld8 d a b => exact runs_ld8 d a b
  | ld16 d a b => exact runs_ld16 d a b
  | ld32 d a b => exact runs_ld32 d a b
  | ld64 d a b => exact runs_ld64 d a b
  | st8 d a b => exact runs_st8 d a b
  | st16 d a b => exact runs_st16 d a b
  | st32 d a b => exact runs_st32 d a b
  | st64 d a b => exact runs_st64 d a b
  | ldl d a b => exact runs_ldl d a b
  | stl d a b => exact runs_stl d a b
  | sld d a b lit => exact runs_sld d a b lit
  | sst d a b lit => exact runs_sst d a b lit
  | nld d a b lit => exact runs_nld d a b lit
  | nst d a b lit => exact runs_nst d a b lit
  | wld d a b => exact runs_wld d a b
  | cstr d a p => exact runs_cstr d a p
  | xld d a p => exact runs_xld d a p
  | tld d a b lit => exact runs_tld d a b lit
  | tst d a b lit => exact runs_tst d a b lit
  | pref a b => exact runs_pref a b
  | sealRegion a b => exact runs_sealRegion a b
  | unsealRegion a b => exact runs_unsealRegion a b
  | fence scope => exact runs_fence scope
  | xfence scope paths => exact runs_xfence scope paths
  | pin a b => exact runs_pin a b
  | unpin a b => exact runs_unpin a b
  | cinv a b => exact runs_cinv a b
  | cwb a b => exact runs_cwb a b
  | ldacq d a b lit => exact runs_ldacq d a b lit
  | strel d a b lit => exact runs_strel d a b lit
  | aadd d a b lit => exact runs_aadd d a b lit
  | amin d a b lit => exact runs_amin d a b lit
  | amax d a b lit => exact runs_amax d a b lit
  | aand d a b lit => exact runs_aand d a b lit
  | aor d a b lit => exact runs_aor d a b lit
  | axor d a b lit => exact runs_axor d a b lit
  | aswp d a b lit => exact runs_aswp d a b lit
  | acas d a b lit => exact runs_acas d a b lit
  | afadd d a b lit => exact runs_afadd d a b lit
  | axadd d a b lit => exact runs_axadd d a b lit
  | lres d a lit => exact runs_lres d a lit
  | scond d a b lit => exact runs_scond d a b lit
  | tbegin d => exact runs_tbegin d
  | tcommit d => exact runs_tcommit d
  | tabort code => exact runs_tabort code
  | tstat d => exact runs_tstat d
  | mfmt a => exact runs_mfmt a
  | mma acc a b => exact runs_mma acc a b
  | mmaz acc a b => exact runs_mmaz acc a b
  | mbatch n => exact runs_mbatch n
  | mwait n => exact runs_mwait n
  | mdrain acc a b => exact runs_mdrain acc a b
  | maccld acc a => exact runs_maccld acc a
  | mstage n a b => exact runs_mstage n a b
  | mstat d acc => exact runs_mstat d acc
  | cpy d a => exact runs_cpy d a
  | cpyd d a => exact runs_cpyd d a
  | cpym d a => exact runs_cpym d a
  | cpymc d a => exact runs_cpymc d a
  | cpyn d a => exact runs_cpyn d a
  | halo d a b => exact runs_halo d a b
  | haloq d a => exact runs_haloq d a
  | evpop d => exact runs_evpop d
  | evpeek d => exact runs_evpeek d
  | wsld d a => exact runs_wsld d a
  | arm a b => exact runs_arm a b
  | disarm a => exact runs_disarm a
  | cpyx d a => exact runs_cpyx d a
  | wpush a b => exact runs_wpush a b
  | wpop d => exact runs_wpop d
  | wpopw d => exact runs_wpopw d
  | wdone => exact runs_wdone
  | wfloor d => exact runs_wfloor d
  | wstat d => exact runs_wstat d
  | ckrole d => exact runs_ckrole d
  | cksig d k => exact runs_cksig d k
  | tmark mark => exact runs_tmark mark
  | halt => exact runs_halt
  | clkq d => exact runs_clkq d
  | pwload a => exact runs_pwload a
  | _ => exact nomatch hw

section Trap
variable {s : State} {e : Env}

/-- A failed check is the instruction's exception, whatever its own effect (R67). -/
theorem exec_check {i : Instr} {c : Cause} (hw : (encode i).isSome = true) (hn : i ≠ .nop) (he : env? s = some e)
    (hc : preCheck e i = some c) :
    exec i s = .next (takeTrap (account s e i.scalarForm) e i.takesLiteral c none 0 0) := by
  obtain ⟨body, hbody⟩ := runs_of_word hw hn
  rw [hbody s, runInstr_check he hc]

theorem exec_trap {code : BitVec 16} (hi : Issues (.trap code) s e) : exec (.trap code) s =
    .next (takeTrap (account s e false) e false .softwareTrap none 0 (code.setWidth 64)) := by
  rw [← BitVec.ofNat_toNat]
  change execTrap code s = _
  unfold execTrap
  exact runInstr_trap hi.1 hi.2 rfl

end Trap

/-- Settles O18: a failed check comes before the instruction's own effect, and that of TRAP is its exception. -/
theorem failedChecksAndTrapInstruction : Obligations.FailedChecksAndTrapInstruction := by
  unfold Obligations.FailedChecksAndTrapInstruction
  exact ⟨fun i s e c hw hn he hc => exec_check hw hn he hc, fun s e code hi => exec_trap hi⟩

end Sys2Proof.Machine
end

section
/-! PROOF. The mode, the system registers, regions and marks (O21: R66, R148, R160, R163, R164, R219, R237, R404). -/

namespace Sys2Proof.Machine

/-! ## SETMODE and GETMODE (R66, R148) -/

section Mode
variable {s : State} {e : Env} {lit : Word32} {d : OpCode}

theorem etypeOf_isSome_iff (n : Nat) : (etypeOf n).isSome = true ↔ n < 14 := by
  have hassigned : ∀ k < 14, (etypeOf k).isSome = true := by decide
  by_cases h : n < 14
  · exact iff_of_true (hassigned n h) h
  · obtain ⟨k, rfl⟩ := Nat.exists_eq_add_of_le' (Nat.le_of_not_lt h)
    exact iff_of_false Bool.false_ne_true h

theorem rndOf_isSome_iff (n : Nat) : (rndOf n).isSome = true ↔ n < 5 := by
  have hassigned : ∀ k < 5, (rndOf k).isSome = true := by decide
  by_cases h : n < 5
  · exact iff_of_true (hassigned n h) h
  · obtain ⟨k, rfl⟩ := Nat.exists_eq_add_of_le' (Nat.le_of_not_lt h)
    exact iff_of_false Bool.false_ne_true h

/-- A field of a number is that of its low bits. -/
theorem bits_mod_two_pow {lo w n : Nat} (h : lo + w ≤ n) (x : Nat) : bits (x % 2 ^ n) lo w = bits x lo w := by
  unfold bits
  obtain ⟨k, rfl⟩ := Nat.exists_eq_add_of_le h
  rw [Nat.add_assoc, Nat.pow_add, Nat.mod_mul_right_div_self, Nat.pow_add, Nat.mod_mul_right_mod]

/-- A literal's mode holds no reserved code and a clear low byte (R65, R66). -/
theorem modeOk_literal_iff (lit : Word32) :
    modeOk (lit.setWidth 24) = true ↔ litBits lit 20 4 < 14 ∧ litBits lit 17 3 < 5 ∧ litBits lit 0 8 = 0 := by
  have hfield : ∀ lo w, lo + w ≤ 24 → bits (lit.setWidth 24).toNat lo w = litBits lit lo w := fun lo w h => by
    rw [BitVec.toNat_setWidth]; exact bits_mod_two_pow h _
  simp only [modeOk, modeEtypeCode, modeRndCode, hfield 20 4 (by decide), hfield 17 3 (by decide), hfield 0 8 (by decide),
    Bool.and_eq_true, etypeOf_isSome_iff, rndOf_isSome_iff, beq_iff_eq, and_assoc]

theorem exec_setmode_valid (hi : Issues (.setmode lit) s e) (hm : modeOk (lit.setWidth 24) = true) : exec (.setmode lit) s =
    .next (finished e ((past (.setmode lit) s e).modWave e.w.uid fun w => { w with mode := lit.setWidth 24 }) 0 []) := by
  change execSetmode lit s = _
  unfold execSetmode
  exact runInstr_done hi.1 hi.2 (if_pos hm)

theorem exec_setmode_invalid (hi : Issues (.setmode lit) s e) (hm : ¬ modeOk (lit.setWidth 24) = true) :
    exec (.setmode lit) s = .next (takeTrap (account s e false) e true .modeInvalid none 0 0) := by
  change execSetmode lit s = _
  unfold execSetmode
  exact runInstr_trap hi.1 hi.2 (if_neg hm)

theorem exec_getmode (hi : Issues (.getmode d) s e) :
    exec (.getmode d) s = .next (finished e (past (.getmode d) s e) 2 (e.all d (e.w.mode.setWidth 64))) := by
  rw [← BitVec.ofNat_toNat]
  change execGetmode d s = _
  unfold execGetmode
  exact runInstr_done hi.1 hi.2 rfl

end Mode

/-! ## SYSRD and SYSWR (R163, R164) -/

section SystemRegisters
variable {s : State} {e : Env} {lit : Word32} {d a : OpCode}

theorem exec_sysrd (hi : Issues (.sysrd d lit) s e) : exec (.sysrd d lit) s = .next (finished e (past (.sysrd d lit) s e) 2
    (e.all d (sysReg (past (.sysrd d lit) s e) e.w (litBits lit 0 16)))) := by
  change execSysrd d lit s = _
  unfold execSysrd
  exact runInstr_done hi.1 hi.2 rfl

theorem sysReg_wavepos (t : State) (w : Wave) : sysReg t w 1 = w64 (w.core * 2 ^ 10 + w.part * 2 ^ 6 + w.wslot) := rfl

/-- The register's number is kept opaque: the kernel would compute it from the flags. -/
theorem sequencerReg_flagcnt {t : State} {w : Wave} {n : Nat} (hn : w.flagWord.toNat = n) : sequencerReg t w 3 = n := by
  unfold sequencerReg
  rw [hn]
  rfl

theorem sysReg_flagcnt (t : State) (w : Wave) : sysReg t w 3 = w.flagWord := by
  rw [sysReg, if_pos (by decide), sequencerReg_flagcnt rfl, w64, BitVec.ofNat_toNat, BitVec.setWidth_eq]

theorem sysReg_cycle (t : State) (w : Wave) : sysReg t w 7 = w64 t.clock := rfl

theorem sysReg_pinstat (t : State) (w : Wave) : sysReg t w 0x102 = w64 (w.pinAsked * 2 ^ 32 + w.pinMade) := rfl

/-- A write to no guard register has no effect of its own. -/
theorem exec_syswr_plain (hi : Issues (.syswr a lit) s e) (hset : litBits lit 0 16 ≠ 0x103) (hclr : litBits lit 0 16 ≠ 0x104) :
    exec (.syswr a lit) s = .next (finished e (past (.syswr a lit) s e) 1 []) := by
  change execSyswr a lit s = _
  unfold execSyswr
  refine runInstr_done hi.1 hi.2 ?_
  split
  · contradiction
  · contradiction
  · rfl

/-- A core with a granule guarded, or no longer so (R219). -/
def guarding (c : Core) (granule : Nat) (on : Bool) : Core :=
  { c with guards := if on then (c.guards.filter fun g => g != granule) ++ [granule] else c.guards.filter fun g => g != granule }

/-- A guard register's write to an offset of the share changes its core's guards alone. -/
theorem guardWrite_share {t : State} {x : Word} {c off phys : Nat}
    (ht : shareTarget t e.w e.w.core x.toNat = .ok (.scratch c off phys)) (on : Bool) : guardWrite e t x on = e.noResult (t.setCore c (guarding (t.core c) (phys / 64) on)) := by
  unfold guardWrite
  rw [ht]
  rfl

theorem exec_syswr_guard {c off phys : Nat} (hi : Issues (.syswr a lit) s e) {on : Bool}
    (hn : litBits lit 0 16 = if on then 0x103 else 0x104)
    (ht : shareTarget (past (.syswr a lit) s e) e.w e.w.core (e.u a).toNat = .ok (.scratch c off phys)) :
    exec (.syswr a lit) s = .next (finished e ((past (.syswr a lit) s e).setCore c
      (guarding ((past (.syswr a lit) s e).core c) (phys / 64) on)) 1 []) := by
  change execSyswr a lit s = _
  unfold execSyswr
  refine runInstr_done hi.1 hi.2 ?_
  rw [hn]
  cases on
  · exact guardWrite_share ht false
  · exact guardWrite_share ht true

end SystemRegisters

/-! ## Regions and marks (R160, R404) -/

section Regions
variable {s : State} {e : Env}

/-- An edge of a region with no stop pending: the wave's regions, and the packet. -/
theorem edgeRun_noStop {t : State} {w : Wave} (hw : t.wave? e.w.uid = some w) (hwatch : e.w.watchStop = false)
    (htrace : e.w.traceStop = false) (regions : List (BitVec 16)) (sub ident : Nat) : edgeRun e t regions sub ident =
    .done (finished e (emitRegion (t.modWave e.w.uid fun w => { w with regions := regions }) e.w e.iss.place sub ident regions)
      1 []) := by
  have hmod : (t.modWave e.w.uid fun w => { w with regions := regions }).wave? e.w.uid = some { w with regions := regions } := by
    have h := wave?_modWave t e.w.uid e.w.uid (fun w => { w with regions := regions }) fun _ => rfl
    rw [h, hw, Option.map_some, if_pos (wave?_uid hw)]
  unfold edgeRun
  simp only [hmod, hwatch, htrace, Bool.false_eq_true, if_false, ite_self]
  rfl

variable {x : BitVec 16}

theorem exec_rgnin (hwatch : e.w.watchStop = false) (htrace : e.w.traceStop = false) (hi : Issues (.rgnin x) s e) :
    exec (.rgnin x) s = .next (finished e (emitRegion ((past (.rgnin x) s e).modWave e.w.uid fun w =>
      { w with regions := (x :: e.w.regions).take 16 }) e.w e.iss.place 0 x.toNat ((x :: e.w.regions).take 16)) 1 []) := by
  obtain ⟨w, hw, -⟩ := past_wave hi.1 (.rgnin x)
  change execRgnin x s = _
  unfold execRgnin
  exact runInstr_done hi.1 hi.2 (edgeRun_noStop hw hwatch htrace _ _ _)

theorem exec_rgnout (hwatch : e.w.watchStop = false) (htrace : e.w.traceStop = false) (hi : Issues (.rgnout x) s e) :
    exec (.rgnout x) s = .next (finished e (emitRegion ((past (.rgnout x) s e).modWave e.w.uid fun w =>
      { w with regions := e.w.regions.tail }) e.w e.iss.place (if e.w.regions.head? = some x then 1 else 2) x.toNat
      e.w.regions.tail) 1 []) := by
  obtain ⟨w, hw, -⟩ := past_wave hi.1 (.rgnout x)
  rw [← List.drop_one]
  change execRgnout x s = _
  unfold execRgnout
  exact runInstr_done hi.1 hi.2 (edgeRun_noStop hw hwatch htrace _ _ _)

theorem exec_tmark (hi : Issues (.tmark x) s e) : exec (.tmark x) s =
    .next (finished e (emitRegion (past (.tmark x) s e) e.w e.iss.place 3 x.toNat e.w.regions) 1 []) := by
  change execTmark x s = _
  unfold execTmark
  exact runInstr_done hi.1 hi.2 rfl

end Regions

/-- Settles O21: each instruction's own effect, run once its checks pass. -/
theorem modeAndSystemRegisters : Obligations.ModeAndSystemRegisters := by
  unfold Obligations.ModeAndSystemRegisters
  refine ⟨fun s e lit d => ⟨fun hi hv => exec_setmode_valid hi ((modeOk_literal_iff lit).mpr hv),
      fun hi hv => exec_setmode_invalid hi (mt (modeOk_literal_iff lit).mp hv), exec_getmode⟩,
    fun s e d a lit => ⟨exec_sysrd, fun hi => ⟨exec_syswr_plain hi, fun c off phys ht =>
      ⟨fun hn => exec_syswr_guard hi (on := true) hn ht, fun hn => exec_syswr_guard hi (on := false) hn ht⟩⟩,
      fun w => ⟨sysReg_wavepos s w, sysReg_flagcnt s w, sysReg_cycle s w, sysReg_pinstat s w⟩⟩,
    fun s e x hwatch htrace => ⟨exec_rgnin hwatch htrace, exec_rgnout hwatch htrace, exec_tmark⟩⟩

end Sys2Proof.Machine
end

section
/-! PROOF. NOP, YIELD, WAITF and REP (O22: R56, R134, R138, R146, R147, R149, R150). -/

namespace Sys2Proof.Machine

/-! ## NOP (R134) -/

section Nop
variable {s : State} {e : Env}

theorem exec_nop_moves (he : env? s = some e) (hs : e.iss.setf < 13) :
    exec .nop s = .next (e.move { s with issue := none } (nopPast e.iss.bundle e.iss.slot e.iss.stall)) := by
  change execNop s = _
  unfold execNop
  rw [he]
  exact if_neg (Nat.not_le_of_lt hs)

theorem exec_nop_reserved (he : env? s = some e) (hs : 13 ≤ e.iss.setf) :
    exec .nop s = .next (takeTrap { s with issue := none } e false .reservedField none 0 0) := by
  change execNop s = _
  unfold execNop
  rw [he]
  exact if_pos hs

/-- Past a NOP a path stands at its bundle's next slot, or at the next bundle's start after slot 3, and keeps its WAIT. -/
theorem nopPast_eq (bundle : Word) (slot stall : Nat) (p : Path) : nopPast bundle slot stall p =
    { p with pc := if slot < 3 then bundle else bundle + 16, slot := if slot < 3 then slot + 1 else 1
             fresh := decide (3 ≤ slot) || p.fresh, nopStall := p.nopStall + stall } := by
  have hnext : (bundle + 16 != bundle) = true := by simp
  unfold nopPast pathPast
  by_cases h : slot < 3
  · have hle : ¬ 3 ≤ slot := Nat.not_le_of_lt h
    simp [h, hle]
  · have hle : 3 ≤ slot := Nat.le_of_not_lt h
    simp [h, hle]

end Nop

/-! ## YIELD, WAITF and REP (R138, R146, R147, R149, R150) -/

section Flow
variable {s : State} {e : Env}

/-- An instruction not accepted in this clock stays unissued (R131). -/
theorem runInstr_waitFor {i : Instr} {body : Env → State → Effect} {reason : Nat} (hi : Issues i s e)
    (hb : body e (past i s e) = .waitFor reason) : runInstr i s body = .next (noteTried s e reason) := by
  have hp := hi.2
  simp only [past] at hb
  simp [runInstr, hi.1, hp, hb]

theorem exec_yield (hi : Issues .yield s e) : exec .yield s = .next (finished e (e.move (past .yield s e) fun p =>
    if e.iss.isLast then yieldAt (past .yield s e) e p else { p with yieldPending := true }) 1 []) := by
  change execYield s = _
  unfold execYield
  refine runInstr_done hi.1 hi.2 ?_
  cases e.iss.isLast
  · simp only [Bool.false_eq_true, if_false]; rfl
  · simp only [if_true]; rfl

/-- The flags a 12-bit mask names hold at most `n` (R149). -/
theorem flagsAtMost_iff (w : Wave) (n : Nat) (flags : BitVec 16) :
    w.flagsAtMost n flags.toNat = true ↔ ∀ k, k < 12 → flags.getLsbD k = true → w.flag k ≤ n := by
  simp only [Wave.flagsAtMost, maskedFlags, setBits, bitOf, List.all_eq_true, List.mem_filter, List.mem_range,
    decide_eq_true_eq, and_imp]
  rfl

variable {n : Byte} {flags : BitVec 16}

theorem exec_waitf_met (hi : Issues (.waitf n flags) s e) (hc : e.w.cellReps = [])
    (hm : e.w.flagsAtMost n.toNat flags.toNat = true) :
    exec (.waitf n flags) s = .next (finished e (past (.waitf n flags) s e) 1 []) := by
  change execWaitf n flags s = _
  unfold execWaitf cellReportOf
  refine runInstr_done hi.1 hi.2 ?_
  rw [hc]
  exact if_pos hm

theorem exec_waitf_unmet (hi : Issues (.waitf n flags) s e) (hc : e.w.cellReps = [])
    (hm : ¬ e.w.flagsAtMost n.toNat flags.toNat = true) : exec (.waitf n flags) s = .next (noteTried s e 7) := by
  change execWaitf n flags s = _
  unfold execWaitf cellReportOf
  refine runInstr_waitFor hi ?_
  rw [hc]
  exact if_neg hm

variable {count stride : Byte}

/-- A REP of count 0 passes over the next instruction (R146). -/
theorem exec_rep_zero (hi : Issues (.rep count stride) s e) (hm : repMisused e.iss.slot stride e.iss.nextWord = false)
    (hv : e.w.rep.valid = false) (h0 : count = 0) :
    let after := afterSlot e.iss.bundle (e.iss.slot + 1) (wordTakesLiteral e.iss.nextWord)
    exec (.rep count stride) s = .next (finished e (e.move (past (.rep count stride) s e) fun p =>
      if e.iss.skipYield then yieldAt (past (.rep count stride) s e) e { goto after.1 after.2 p with yieldPending := false }
      else goto after.1 after.2 p) 1 []) := by
  change execRep count stride s = _
  unfold execRep
  refine runInstr_done hi.1 hi.2 ?_
  simp only [hm, hv, h0, Bool.false_eq_true, if_false, if_true]
  rfl

/-- A REP repeats the next instruction, count + 1 times (R146, R147). -/
theorem exec_rep_starts (hi : Issues (.rep count stride) s e) (hm : repMisused e.iss.slot stride e.iss.nextWord = false)
    (hv : e.w.rep.valid = false) (h0 : count ≠ 0) :
    exec (.rep count stride) s = .next (finished e ((past (.rep count stride) s e).modWave e.w.uid fun w =>
      { w with rep := { valid := true, path := e.iss.place, stride := stride, next := 0, left := count.toNat + 1 } }) 1 []) := by
  change execRep count stride s = _
  unfold execRep
  refine runInstr_done hi.1 hi.2 ?_
  simp only [hm, hv, h0, Bool.false_eq_true, if_false]
  rfl

end Flow

/-- Settles O22: each instruction's own effect, run once its checks pass; NOP has no checks but that of its SETF. -/
theorem nopYieldWaitAndRepeat : Obligations.NopYieldWaitAndRepeat := by
  unfold Obligations.NopYieldWaitAndRepeat
  refine ⟨fun s e he hs => ?_, fun s e he hs => exec_nop_reserved he hs, fun s e n count stride flags => ⟨exec_yield,
    fun hi hc => ⟨fun hm => exec_waitf_met hi hc ((flagsAtMost_iff ..).mpr hm),
      fun hm => exec_waitf_unmet hi hc (mt (flagsAtMost_iff ..).mp hm)⟩,
    fun hi hm hv => ⟨exec_rep_zero hi hm hv, exec_rep_starts hi hm hv⟩⟩⟩
  rw [exec_nop_moves he hs, funext (nopPast_eq e.iss.bundle e.iss.slot e.iss.stall)]

end Sys2Proof.Machine
end

section
/-! PROOF. Integer ADD, SUB and MUL, the carry chains and the compares (O10: R86, R167, R168, R172, R176, R178, R179). -/

namespace Sys2Proof.Machine

/-! ## Element types (R166, R168) -/

theorem isFloat_of_isInt {t : EType} (h : t.isInt = true) : t.isFloat = false := by
  revert h
  cases t <;> decide

/-- The sub-elements of an integer or floating type are whole bytes, and fill the lane. -/
theorem wid_whole_bytes {t : EType} (h : (t.isInt || t.isFloat) = true) : ∃ k, 0 < k ∧ t.wid = 8 * k ∧ k * cnt t = 8 := by
  cases t
  case t8x8 | t6x10 => cases h
  case i64 | n64 | f64 => exact ⟨8, by decide⟩
  case i32x2 | n32x2 | f32x2 => exact ⟨4, by decide⟩
  case i16x4 | n16x4 | f16x4 | bf16x4 => exact ⟨2, by decide⟩
  case i8x8 | n8x8 => exact ⟨1, by decide⟩

/-- Each byte of a lane belongs to a sub-element of such a type. -/
theorem byte_owner_lt_cnt {t : EType} (h : (t.isInt || t.isFloat) = true) {q : Nat} (hq : q < 8) : 8 * q / t.wid < cnt t := by
  obtain ⟨k, hk, hw, hc⟩ := wid_whole_bytes h
  rw [hw, Nat.mul_div_mul_left _ _ (by decide), Nat.div_lt_iff_lt_mul hk, Nat.mul_comm, hc]
  exact hq

/-- An instruction that passes its checks takes the element type (R67). -/
theorem typeOk_of_preCheck {e : Env} {i : Instr} (h : preCheck e i = none) : i.typeOk e.et = true := by
  unfold preCheck at h
  split at h
  · cases h
  · split at h
    · cases h
    · split at h
      · cases h
      · simp_all

/-! ## A fold over a lane's sub-elements -/

/-- What a fold over sub-elements leaves where one of them alone writes: that one's value if it passes. -/
theorem read_foldl_range {α β : Type} {read : α → β} {v : β} {pass : Nat → Bool} {write : α → Nat → α} {j n : Nat}
    (hj : j < n) (h : ∀ a, ∀ i < n, read (write a i) = if i = j then v else read a) (a : α) :
    read ((List.range n).foldl (fun a i => if pass i then write a i else a) a) = if pass j then v else read a := by
  have key : ∀ m ≤ n, read ((List.range m).foldl (fun a i => if pass i then write a i else a) a) =
      if j < m ∧ pass j = true then v else read a := by
    intro m hm
    induction m with
    | zero => simp
    | succ m ih =>
      rw [List.range_succ, List.foldl_append, List.foldl_cons, List.foldl_nil]
      have hlt (hmj : ¬ m = j) : j < m + 1 ↔ j < m := by omega
      by_cases hp : pass m = true
      · rw [if_pos hp, h _ m (by omega), ih (by omega)]
        by_cases hmj : m = j
        · simp [hmj, hmj ▸ hp]
        · simp [hmj, hlt hmj]
      · rw [if_neg hp, ih (by omega)]
        by_cases hmj : m = j
        · simp [hmj ▸ hp]
        · simp [hlt hmj]
  simpa [hj] using key n (Nat.le_refl n)

/-! ## Integers modulo two to their width (R86) -/

theorem lowBits_of_modEq {w k : Nat} {i : Int} (h : i ≡ k [ZMOD (2 ^ w : Nat)]) : lowBits w i = k % 2 ^ w := by
  unfold lowBits
  rw [h, ← Int.natCast_mod, Int.toNat_natCast]

theorem intOf_modEq (t : EType) (x : Nat) : intOf t x ≡ x [ZMOD (2 ^ t.wid : Nat)] := by
  have hunsigned : ((x % 2 ^ t.wid : Nat) : Int) ≡ x [ZMOD (2 ^ t.wid : Nat)] := by
    rw [Int.natCast_mod]
    exact Int.mod_modEq ..
  unfold intOf toSigned
  split
  · split
    · exact (Int.modEq_sub_modulus_iff.mpr rfl).symm.trans hunsigned
    · exact hunsigned
  · exact hunsigned

theorem sub_lt_two_pow (x : Word) (t : EType) (j : Nat) : sub x t j < 2 ^ t.wid := bits_lt ..

/-! ## ADD, SUB and MUL (R172) -/

section Arithmetic
variable {s : State} {e : Env} {i : Instr} {d a b : OpCode}

theorem numOp_of_isInt (h : e.et.isInt = true) (fi : Int → Int → SubRes) (ff : FVal → FVal → FVal × Nat) :
    numOp e a b fi ff = intOp e a b fi := by
  funext l j
  unfold numOp
  rw [isFloat_of_isInt h]
  rfl

theorem ires_val_of_modEq (hs : modeSat e.w.mode = false) {t : EType} {x : Int} {k : Nat}
    (h : x ≡ k [ZMOD (2 ^ t.wid : Nat)]) : (e.ires t x).val = k % 2 ^ t.wid := by
  unfold Env.ires ires
  rw [hs]
  exact lowBits_of_modEq h

/-- An instruction of class NUM on integers without SAT gives each sub-element modulo two to its width. -/
theorem exec_integer {lat : EType → Nat} {g : Int → Int → Int} {ff : Env → FVal → FVal → FVal × Nat} {f : Nat → Nat → Nat}
    (hrun : exec i s = runInstr i s fun e s => lanewise e s (lat e.et) e.et d
      (numOp e a b (fun x y => e.ires e.et (g x y)) (ff e)))
    (hint : e.et.isInt = true) (hsat : modeSat e.w.mode = false) (hlat : lat e.et = classLatency e.et i)
    (hg : ∀ x y, y < 2 ^ e.et.wid → g (intOf e.et x) (intOf e.et y) ≡ f x y [ZMOD (2 ^ e.et.wid : Nat)])
    (hi : Issues i s e) :
    ∃ v : Nat → Word, exec i s = .next (finished e (past i s e) (classLatency e.et i) (e.results d v)) ∧
      ∀ l ∈ e.evalLanes d, ∀ j, j < cnt e.et → e.writes d l j e.et = true →
        sub (v l) e.et j = f (sub (e.x a l) e.et j) (sub (e.x b l) e.et j) % 2 ^ e.et.wid := by
  refine ⟨fun l => (laneResult e e.et d (intOp e a b fun x y => e.ires e.et (g x y)) l).1, ?_, fun l _ j hj hw => ?_⟩
  · rw [hrun]
    refine runInstr_done hi.1 hi.2 ?_
    rw [numOp_of_isInt hint, ← hlat]
    exact lanewise_silent _ _ _ _ _ _ fun _ _ => ⟨rfl, rfl⟩
  · have hval := ires_val_of_modEq hsat (hg (sub (e.x a l) e.et j) _ (sub_lt_two_pow (e.x b l) e.et j))
    rw [sub_laneResult _ _ _ _ _ _ hj, if_pos hw]
    exact (congrArg (· % 2 ^ e.et.wid) hval).trans (Nat.mod_mod ..)

end Arithmetic

/-- The latency of a product of integers: 6 clocks at a 64-bit type (R165). -/
theorem latW64_eq_mul {t : EType} (h : t.isInt = true) (d a b : OpCode) : latW64 t = classLatency t (.mul d a b) := by
  revert h
  cases t <;> simp [EType.isInt, latW64, EType.wid, classLatency]

/-- The latency of a sum: 6 clocks at F64 alone (R165). -/
theorem latWF64_eq_add (t : EType) (d a b : OpCode) : latWF64 t = classLatency t (.add d a b) := by
  simp [latWF64, classLatency]

/-! ## The outcome bits of a sub-element (R176, R178) -/

theorem getLsbD_putOutcome {t : EType} {i q : Nat} (c : Bool) (b : Byte) (hq : q < 8)
    (hle : t.wid * i / 8 ≤ (t.wid * (i + 1) - 1) / 8) : (putOutcome t i c b).getLsbD q =
      if t.wid * i / 8 ≤ q ∧ q ≤ (t.wid * (i + 1) - 1) / 8 then c else b.getLsbD q := by
  unfold putOutcome
  simp only [BitVec.getLsbD_ofNat, hq, decide_true, Bool.true_and, testBit_putBits]
  generalize t.wid * i / 8 = lo at *
  generalize (t.wid * (i + 1) - 1) / 8 = hi at *
  have hrange : (lo ≤ q ∧ q < lo + (hi - lo + 1)) ↔ (lo ≤ q ∧ q ≤ hi) := by omega
  simp only [hrange]
  split
  · cases c
    · exact Nat.zero_testBit _
    · have hlt : q - lo < hi - lo + 1 := by omega
      simp [Nat.testBit_two_pow_sub_one, hlt]
  · exact BitVec.testBit_toNat b

/-- The outcome of a sub-element goes to the bits of the bytes it holds, and to no other. -/
theorem getLsbD_putOutcome_owner {t : EType} (h : (t.isInt || t.isFloat) = true) {q : Nat} (hq : q < 8)
    (c : Nat → Bool) (i : Nat) (b : Byte) :
    (putOutcome t i (c i) b).getLsbD q = if i = 8 * q / t.wid then c (8 * q / t.wid) else b.getLsbD q := by
  obtain ⟨k, hk, hw, -⟩ := wid_whole_bytes h
  have hlo : t.wid * i / 8 = k * i := by rw [hw, Nat.mul_assoc, Nat.mul_div_cancel_left _ (by decide)]
  have hhi : (t.wid * (i + 1) - 1) / 8 = k * i + k - 1 := by
    rw [hw, Nat.mul_assoc, Nat.mul_succ]
    omega
  have howner : (k * i ≤ q ∧ q ≤ k * i + k - 1) ↔ i = 8 * q / t.wid := by
    rw [hw, Nat.mul_div_mul_left _ _ (by decide), eq_comm, Nat.div_eq_iff hk, Nat.mul_comm i]
  rw [getLsbD_putOutcome (c i) b hq (by omega), hlo, hhi]
  simp only [howner]
  split
  case isTrue hown => rw [hown]
  case isFalse => rfl

/-! ## ADDC and SUBB (R176) -/

section Carry
variable {s : State} {e : Env} {i : Instr} {d a b : OpCode} {pI pO : Nat}

/-- The carry or borrow that sub-element `j` takes in, as a number. -/
def carryIn (e : Env) (pI l j : Nat) : Nat := if (e.w.preg pI l).getLsbD (e.et.wid * j / 8) then 1 else 0

theorem carryIn_le_one (e : Env) (pI l j : Nat) : carryIn e pI l j ≤ 1 := by
  unfold carryIn
  split <;> decide

/-- What a carry chain makes of one sub-element. -/
def carryOf (e : Env) (a b : OpCode) (pI : Nat) (f : Nat → Nat → Nat → Int × Bool) (l j : Nat) : Int × Bool :=
  f (sub (e.x a l) e.et j) (sub (e.x b l) e.et j) (carryIn e pI l j)

/-- The turn of a sub-element that passes in `carryLane`: its result, and its carry out. -/
def carryStep (e : Env) (a b : OpCode) (pI : Nat) (f : Nat → Nat → Nat → Int × Bool) (l : Nat) (acc : Word × Byte)
    (i : Nat) : Word × Byte :=
  (put acc.1 e.et i (lowBits e.et.wid (carryOf e a b pI f l i).1), putOutcome e.et i (carryOf e a b pI f l i).2 acc.2)

/-- The register and the predicate byte that `carryLane` writes. -/
def carryRegs (e : Env) (d a b : OpCode) (pI pO : Nat) (f : Nat → Nat → Nat → Int × Bool) (l : Nat) : Word × Byte :=
  (List.range (cnt e.et)).foldl (fun acc i => if e.pass l i e.et then carryStep e a b pI f l acc i else acc)
    (e.base d l, e.w.preg pO l)

theorem carryLane_eq (f : Nat → Nat → Nat → Int × Bool) (l : Nat) :
    carryLane e d a b pI pO f l = destWrite d l (carryRegs e d a b pI pO f l).1 ++
      [{ file := .predicate, key := 32 * pO + l, value := (carryRegs e d a b pI pO f l).2.setWidth 64 }] := rfl

theorem sub_carryRegs {j : Nat} (hj : j < cnt e.et) (f : Nat → Nat → Nat → Int × Bool) (l : Nat) :
    sub (carryRegs e d a b pI pO f l).1 e.et j =
    if e.pass l j e.et then lowBits e.et.wid (carryOf e a b pI f l j).1 % 2 ^ e.et.wid else sub (e.base d l) e.et j := by
  refine read_foldl_range (read := fun acc : Word × Byte => sub acc.1 e.et j) hj (fun acc i hi => ?_) _
  refine (sub_put _ _ _ _ _ hi).trans ?_
  by_cases hij : i = j
  · rw [if_pos hij, if_pos hij.symm, hij]
  · rw [if_neg hij, if_neg (Ne.symm hij)]

theorem getLsbD_carryRegs (ht : (e.et.isInt || e.et.isFloat) = true) {q : Nat} (hq : q < 8)
    (f : Nat → Nat → Nat → Int × Bool) (l : Nat) :
    (carryRegs e d a b pI pO f l).2.getLsbD q =
      if e.pass l (8 * q / e.et.wid) e.et then (carryOf e a b pI f l (8 * q / e.et.wid)).2 else (e.w.preg pO l).getLsbD q := by
  refine read_foldl_range (read := fun acc : Word × Byte => acc.2.getLsbD q) (byte_owner_lt_cnt ht hq) (fun acc i _ => ?_) _
  exact getLsbD_putOutcome_owner ht hq (fun i => (carryOf e a b pI f l i).2) i _

/-- A carry chain gives, where the guard lets through, the result modulo two to the width and the carry out, and leaves every
other sub-element and its bits of the predicate. -/
theorem exec_carry {f : Env → Nat → Nat → Nat → Int × Bool} {r : Nat → Nat → Nat → Nat} {out : Nat → Nat → Nat → Bool}
    (hrun : exec i s = runInstr i s fun e s => e.finish s latS (e.lanes.flatMap (carryLane e d a b pI pO (f e))))
    (hint : e.et.isInt = true)
    (hf : ∀ x y c, y < 2 ^ e.et.wid → c ≤ 1 →
      (f e x y c).1 ≡ r x y c [ZMOD (2 ^ e.et.wid : Nat)] ∧ (f e x y c).2 = out x y c)
    (hi : Issues i s e) :
    ∃ (v : Nat → Word) (p : Nat → Byte),
      exec i s = .next (finished e (past i s e) 4 (e.lanes.flatMap fun l =>
        destWrite d l (v l) ++ [{ file := .predicate, key := 32 * pO + l, value := (p l).setWidth 64 }])) ∧
      ∀ l ∈ e.lanes, ∀ j, j < cnt e.et →
        (e.pass l j e.et = true →
          sub (v l) e.et j = r (sub (e.x a l) e.et j) (sub (e.x b l) e.et j) (carryIn e pI l j) % 2 ^ e.et.wid ∧
          ∀ q, e.et.wid * j ≤ 8 * q → 8 * q < e.et.wid * (j + 1) →
            (p l).getLsbD q = out (sub (e.x a l) e.et j) (sub (e.x b l) e.et j) (carryIn e pI l j)) ∧
        (e.pass l j e.et = false → sub (v l) e.et j = sub (e.base d l) e.et j ∧
          ∀ q, e.et.wid * j ≤ 8 * q → 8 * q < e.et.wid * (j + 1) → (p l).getLsbD q = (e.w.preg pO l).getLsbD q) := by
  refine ⟨fun l => (carryRegs e d a b pI pO (f e) l).1, fun l => (carryRegs e d a b pI pO (f e) l).2, ?_,
    fun l _ j hj => ?_⟩
  · rw [hrun]
    refine runInstr_done hi.1 hi.2 ?_
    rw [funext (carryLane_eq (f e))]
    rfl
  · have hbit : ∀ q, e.et.wid * j ≤ 8 * q → 8 * q < e.et.wid * (j + 1) →
        (carryRegs e d a b pI pO (f e) l).2.getLsbD q =
        if e.pass l j e.et then (carryOf e a b pI (f e) l j).2 else (e.w.preg pO l).getLsbD q := by
      intro q hlo hhi
      have hq : q < 8 := by have := wid_place hj; rw [Nat.mul_succ] at hhi; omega
      have howner : 8 * q / e.et.wid = j := Nat.div_eq_of_lt_le (by rwa [Nat.mul_comm]) (by rwa [Nat.mul_comm (j + 1)])
      rw [getLsbD_carryRegs (by rw [hint]; rfl) hq, howner]
    obtain ⟨hval, hout⟩ := hf (sub (e.x a l) e.et j) _ _ (sub_lt_two_pow (e.x b l) e.et j) (carryIn_le_one e pI l j)
    refine ⟨fun hp => ⟨?_, fun q hlo hhi => ?_⟩, fun hp => ⟨?_, fun q hlo hhi => ?_⟩⟩
    · rw [sub_carryRegs hj, if_pos hp, carryOf, lowBits_of_modEq hval, Nat.mod_mod]
    · rw [hbit q hlo hhi, if_pos hp, carryOf, hout]
    · rw [sub_carryRegs hj, hp, if_neg Bool.false_ne_true]
    · rw [hbit q hlo hhi, hp, if_neg Bool.false_ne_true]

/-- A difference with a borrow, brought above zero by twice the modulus. -/
theorem sub_borrow_modEq {n x y c : Nat} (hy : y < n) (hc : c ≤ 1) :
    (x : Int) - y - c ≡ (x + n + n - y - c : Nat) [ZMOD (n : Nat)] :=
  Int.modEq_iff_dvd.mpr ⟨2, by omega⟩

end Carry

/-! ## Compares and CLASS (R178, R179) -/

theorem b2n_ne_zero (c : Bool) : (b2n c != 0) = c := by cases c <;> rfl

section Compare
variable {s : State} {e : Env} {i : Instr} {d a b : OpCode} {f : Nat → Nat → SubRes}

theorem getLsbD_compareLane (ht : (e.et.isInt || e.et.isFloat) = true) {q : Nat} (hq : q < 8) (l : Nat) :
    (compareLane e d f l).1.getLsbD q =
      if e.pass l (8 * q / e.et.wid) e.et then (f l (8 * q / e.et.wid)).val != 0 else (e.pbyte d l).getLsbD q :=
  read_foldl_range (read := fun acc : Byte × Detected => acc.1.getLsbD q) (byte_owner_lt_cnt ht hq)
    (fun acc i _ => getLsbD_putOutcome_owner ht hq (fun i => (f l i).val != 0) i acc.1) _

theorem compareLane_divZero (hf : quiet f) (l : Nat) : (compareLane e d f l).2.divZero = [] := by
  refine foldl_keeps (fun x y : Byte × Detected => y.2.divZero = x.2.divZero) (fun _ => rfl)
    (fun _ _ _ hab hbc => hbc.trans hab) _ (fun acc i => ?_) _ _
  split
  · exact note_quiet _ _ _ (hf l i)
  · rfl

/-- A compare whose values divide by nothing completes while FPX is clear (R169, R178). -/
theorem compare_done (hx : modeFpx e.w.mode = false) (hf : quiet f) (s : State) : compare e s d f =
    .done (finished e s 4 (e.lanes.flatMap fun l => destWrite d l ((compareLane e d f l).1.setWidth 64))) := by
  have hdiv : (Detected.all ((e.lanes.map fun l => (l, compareLane e d f l)).map fun x => x.2.2)).divZero = [] :=
    all_divZero _ (by
      intro _ hmem
      simp only [List.map_map, List.mem_map] at hmem
      obtain ⟨l, -, rfl⟩ := hmem
      exact compareLane_divZero hf l)
  simp only [compare, Env.conclude, Env.valueTrap, hdiv]
  simp [hx, Env.finish, finished, latS, List.flatMap_map]

/-- A compare or CLASS completes, and writes each byte's outcome where the guard lets its sub-element through; `g` is the
outcome on integers, where there is one. -/
def comparesTo (i : Instr) (s : State) (e : Env) (d a b : OpCode) (g : Option (Int → Int → Bool)) : Prop :=
  ∃ v : Nat → Byte,
    exec i s = .next (finished e (past i s e) 4 (e.lanes.flatMap fun l => destWrite d l ((v l).setWidth 64))) ∧
    ∀ l ∈ e.lanes, ∀ q, q < 8 →
      (e.pass l (8 * q / e.et.wid) e.et = false → (v l).getLsbD q = (e.pbyte d l).getLsbD q) ∧
      (e.pass l (8 * q / e.et.wid) e.et = true → e.et.isInt = true → ∀ g', g = some g' → (v l).getLsbD q =
        g' (e.si a l (8 * q / e.et.wid)) (e.si b l (8 * q / e.et.wid)))

theorem exec_compare {op : Env → Nat → Nat → SubRes} {g : Option (Int → Int → Bool)}
    (hrun : exec i s = runInstr i s fun e s => compare e s d (op e))
    (htype : i.typeOk e.et = true → (e.et.isInt || e.et.isFloat) = true) (hquiet : quiet (op e))
    (hop : e.et.isInt = true → ∀ g', g = some g' → ∀ l j, (op e l j).val = b2n (g' (e.si a l j) (e.si b l j)))
    (hx : modeFpx e.w.mode = false) (hi : Issues i s e) : comparesTo i s e d a b g := by
  have ht := htype (typeOk_of_preCheck hi.2)
  refine ⟨fun l => (compareLane e d (op e) l).1, ?_, fun l _ q hq => ⟨fun hp => ?_, fun hp hint g' hg => ?_⟩⟩
  · rw [hrun]
    exact runInstr_done hi.1 hi.2 (compare_done hx hquiet _)
  · rw [getLsbD_compareLane ht hq, hp, if_neg Bool.false_ne_true]
  · rw [getLsbD_compareLane ht hq, if_pos hp, hop hint g' hg]
    exact b2n_ne_zero _

theorem compareOp_quiet (fi : Int → Int → Bool) (ff : Ordering → Bool) (nan anyNaN : Bool) :
    quiet (compareOp e a b fi ff nan anyNaN) := by
  intro l j
  unfold compareOp
  split <;> rfl

/-- On integers a compare's outcome is that of the two numbers. -/
theorem compareOp_val_of_isInt (hint : e.et.isInt = true) (fi : Int → Int → Bool) (ff : Ordering → Bool) (nan anyNaN : Bool)
    (l j : Nat) : (compareOp e a b fi ff nan anyNaN l j).val = b2n (fi (e.si a l j) (e.si b l j)) := by
  unfold compareOp
  rw [isFloat_of_isInt hint]
  rfl

/-- A compare of class NUM. -/
theorem exec_compareOp {fi : Int → Int → Bool} {ff : Ordering → Bool} {nan anyNaN : Bool}
    (hrun : exec i s = runInstr i s fun e s => compare e s d (compareOp e a b fi ff nan anyNaN))
    (htype : ∀ t, i.typeOk t = (t.isInt || t.isFloat)) (hx : modeFpx e.w.mode = false) (hi : Issues i s e) :
    comparesTo i s e d a b (some fi) :=
  exec_compare hrun (fun h => htype e.et ▸ h) (compareOp_quiet fi ff nan anyNaN)
    (fun hint _ hg => Option.some.inj hg ▸ compareOp_val_of_isInt hint fi ff nan anyNaN) hx hi

/-- A comparison without an outcome on integers: its class is FLT. -/
theorem exec_compare_float {op : Env → Nat → Nat → SubRes} (hrun : exec i s = runInstr i s fun e s => compare e s d (op e))
    (htype : ∀ t, i.typeOk t = t.isFloat) (hquiet : quiet (op e)) (hx : modeFpx e.w.mode = false) (hi : Issues i s e) :
    comparesTo i s e d a b none :=
  exec_compare hrun (fun h => by rw [← htype e.et, h, Bool.or_true]) hquiet (fun _ _ hg => nomatch hg) hx hi

end Compare

/-- Settles O10: integers modulo two to the width, one sub-element's turn of a carry chain, and the bytes of an outcome. -/
theorem integerArithmeticCarriesAndCompares : Obligations.IntegerArithmeticCarriesAndCompares := by
  unfold Obligations.IntegerArithmeticCarriesAndCompares
  refine ⟨fun s e d a b hint hsat => ⟨?_, ?_, ?_⟩, fun s e d a b lit hint => ⟨?_, ?_⟩,
    fun s e d a b lit hx => ⟨?_, ?_, ?_, ?_, ?_, ?_⟩⟩
  · exact exec_integer (g := fun x y => x + y) (f := fun x y => x + y) rfl hint hsat (latWF64_eq_add e.et d a b)
      fun x y _ => by push_cast; exact (intOf_modEq _ x).add (intOf_modEq _ y)
  · exact exec_integer (g := fun x y => x - y) (f := fun x y => x + 2 ^ e.et.wid - y) rfl hint hsat
      (latWF64_eq_add e.et d a b)
      fun x y hy => ((intOf_modEq _ x).sub (intOf_modEq _ y)).trans (Int.modEq_iff_dvd.mpr ⟨1, by omega⟩)
  · exact exec_integer (g := fun x y => x * y) (f := fun x y => x * y) rfl hint hsat (latW64_eq_mul hint d a b)
      fun x y _ => by push_cast; exact (intOf_modEq _ x).mul (intOf_modEq _ y)
  · exact exec_carry (r := fun x y c => x + y + c) (out := fun x y c => decide (2 ^ e.et.wid ≤ x + y + c)) rfl hint
      fun x y c _ _ => ⟨Int.ModEq.refl _, rfl⟩
  · exact exec_carry (r := fun x y c => x + 2 ^ e.et.wid + 2 ^ e.et.wid - y - c) (out := fun x y c => decide (x < y + c))
      rfl hint fun x y c hy hc => ⟨sub_borrow_modEq hy hc, decide_eq_decide.mpr (by omega)⟩
  · exact exec_compareOp rfl (fun _ => rfl) hx
  · exact exec_compareOp rfl (fun _ => rfl) hx
  · exact exec_compareOp rfl (fun _ => rfl) hx
  · exact exec_compareOp rfl (fun _ => rfl) hx
  · exact exec_compare_float rfl (fun _ => rfl) (compareOp_quiet _ _ _ _) hx
  · exact exec_compare_float rfl (fun _ => rfl) (fun _ _ => rfl) hx

end Sys2Proof.Machine
end

section
/-! PROOF. Sets joined and left, and waits on barriers and signals (O25: R115, R152, R153, R156, R158). -/

namespace Sys2Proof.Machine

/-! ## The mask of a path's lanes -/

theorem getLsbD_foldl_or (ls : List Nat) (m : Mask) (k : Nat) :
    (ls.foldl (fun m l => m ||| BitVec.ofNat 32 (2 ^ l)) m).getLsbD k =
      (m.getLsbD k || (decide (k < 32) && decide (k ∈ ls))) := by
  induction ls generalizing m with
  | nil => simp
  | cons l ls ih =>
    have hbit : (BitVec.ofNat 32 (2 ^ l)).getLsbD k = (decide (k < 32) && decide (k = l)) := by
      rw [BitVec.getLsbD_ofNat, Nat.testBit_two_pow]
      simp [eq_comm]
    rw [List.foldl_cons, ih, BitVec.getLsbD_or, hbit]
    cases decide (k < 32) <;> simp [Bool.or_assoc]

theorem maskOf_lanesOf (m : Mask) : maskOf (lanesOf m) = m := by
  apply BitVec.eq_of_getLsbD_eq
  intro k hk
  unfold maskOf lanesOf setBits
  rw [getLsbD_foldl_or]
  simp [hk, bitOf, BitVec.getLsbD]

/-! ## Sets (R152, R153) -/

/-- More positions than members: one of the first `n + 1` is free. -/
theorem freePosition_spec (taken : List Nat) :
    freePosition taken ∉ taken ∧ ∀ k, k < freePosition taken → k ∈ taken := by
  have hfree : ((List.range (taken.length + 1)).find? fun k => !taken.contains k).isSome = true := by
    rw [List.find?_isSome]
    by_contra hall
    have hsub : List.range (taken.length + 1) ⊆ taken := fun k hk => by
      by_contra hn
      exact hall ⟨k, hk, by simpa using hn⟩
    have := (List.nodup_range.subperm hsub).length_le
    simp at this
  obtain ⟨n, hn⟩ := Option.isSome_iff_exists.mp hfree
  have hpos : freePosition taken = n := by unfold freePosition; rw [hn]; rfl
  rw [hpos]
  refine ⟨by simpa using List.find?_some hn, fun k hk => ?_⟩
  obtain ⟨-, -, hbefore⟩ := List.find?_range_eq_some.mp hn
  simpa using hbefore k hk

section Sets
variable {s : State} {e : Env} {d a : OpCode} {b : Block}

theorem exec_setjoin_misuse (hi : Issues (.setjoin d a) s e) (hb : (past (.setjoin d a) s e).waveBlock e.w = some b)
    (h : 63 < (e.u a).toNat ∨ (e.w.sets.any fun x => x.1 == (e.u a).toNat) = true) : exec (.setjoin d a) s =
      .next (takeTrap (account s e (Instr.setjoin d a).scalarForm) e false .setMisuse none 0 0) := by
  change execSetjoin d a s = _
  unfold execSetjoin
  refine runInstr_trap hi.1 hi.2 ?_
  rw [hb]
  exact if_pos (by simpa using h)

theorem exec_setjoin_full (hi : Issues (.setjoin d a) s e) (hb : (past (.setjoin d a) s e).waveBlock e.w = some b)
    (hn : (e.u a).toNat ≤ 63) (hj : (e.w.sets.any fun x => x.1 == (e.u a).toNat) = false)
    (h : 4 ≤ e.w.sets.length ∨ (b.quadSets.contains (e.u a).toNat = true ∧
      4 ≤ (setPositions (past (.setjoin d a) s e) b (e.u a).toNat).length)) : exec (.setjoin d a) s =
      .next (takeTrap (account s e (Instr.setjoin d a).scalarForm) e false .setFull none 0 0) := by
  change execSetjoin d a s = _
  unfold execSetjoin
  refine runInstr_trap hi.1 hi.2 ?_
  rw [hb]
  refine (if_neg ?_).trans (if_pos (by simpa using h))
  rw [hj]
  simpa using hn

theorem exec_setjoin_joins (hi : Issues (.setjoin d a) s e) (hb : (past (.setjoin d a) s e).waveBlock e.w = some b)
    (hn : (e.u a).toNat ≤ 63) (hj : (e.w.sets.any fun x => x.1 == (e.u a).toNat) = false) (hl : e.w.sets.length < 4)
    (hq : b.quadSets.contains (e.u a).toNat = true → (setPositions (past (.setjoin d a) s e) b (e.u a).toNat).length < 4) :
    let pos := freePosition (setPositions (past (.setjoin d a) s e) b (e.u a).toNat)
    exec (.setjoin d a) s = .next (finished e ((past (.setjoin d a) s e).modWave e.w.uid fun w =>
      { w with sets := w.sets ++ [((e.u a).toNat, pos)] }) 2 (e.all d (w64 pos))) := by
  change execSetjoin d a s = _
  unfold execSetjoin
  refine runInstr_done hi.1 hi.2 ?_
  rw [hb]
  refine (if_neg ?_).trans (if_neg ?_)
  · rw [hj]
    simpa using hn
  · simpa [hl] using hq

theorem exec_setleave_misuse (hi : Issues (.setleave a) s e) (hb : (past (.setleave a) s e).waveBlock e.w = some b)
    (hj : (e.w.sets.any fun x => x.1 == (e.u a).toNat) = false) : exec (.setleave a) s =
      .next (takeTrap (account s e (Instr.setleave a).scalarForm) e false .setMisuse none 0 0) := by
  change execSetleave a s = _
  unfold execSetleave
  refine runInstr_trap hi.1 hi.2 ?_
  rw [hb]
  exact if_neg (by rw [hj]; exact Bool.false_ne_true)

theorem exec_setleave_leaves (hi : Issues (.setleave a) s e) (hb : (past (.setleave a) s e).waveBlock e.w = some b)
    (hj : (e.w.sets.any fun x => x.1 == (e.u a).toNat) = true) :
    let r := dissolveQuad (past (.setleave a) s e) e.w.lid e.w.bid e.w.run (e.u a).toNat
    exec (.setleave a) s = .next (finished e (recheckSet (r.modWave e.w.uid fun w =>
      { w with sets := w.sets.filter fun x => x.1 != (e.u a).toNat }) b (e.u a).toNat) 1 []) := by
  change execSetleave a s = _
  unfold execSetleave
  refine runInstr_done hi.1 hi.2 ?_
  rw [hb]
  exact if_pos hj

end Sets

/-! ## Synchronisation instructions that nothing holds back (R50, R113, R116) -/

theorem objRun_of_noTx {e : Env} {op : MemOp} (h : e.w.tx = []) (hm : op.mask = e.p.mask) (s : State) :
    objRun e s op = syncRun e s op := by
  have hop : { op with mask := e.p.mask } = op := by rw [← hm]
  unfold objRun unsupportedWave
  rw [unsupported_of_noTx h, List.filter_true]
  simp only [Env.lanes, maskOf_lanesOf, hop]

section Sync
variable {s s1 : State} {e : Env} {op : MemOp} {ss : Nat}

/-- The instruction waits for no fence, no logged access and no logged store it would release. -/
def syncFree (s : State) (e : Env) (op : MemOp) : Prop :=
  accessFree s e .ls op ∧ (op.releases && releaseWaits s e.w op.base) = false

theorem syncRun_wait_done {writes : List RegWrite} {lat : Nat} (hf : syncFree s e op) (hk : op.kind.waits = true)
    (hp : performSync s e.w op e.iss.bundle = .done s1 writes lat ss) :
    syncRun e s op = .done (acquireUntil (synced e s1 lat writes op.kind.writes ss).2 e.w.uid
      (synced e s1 lat writes op.kind.writes ss).1) := by
  obtain ⟨⟨hfence, hlog, -⟩, hrel⟩ := hf
  unfold syncRun
  rw [hfence, hlog, hrel, hp]
  exact congrArg Effect.done (if_pos hk)

theorem syncRun_park {mk : Nat → Nat → Park} (hf : syncFree s e op)
    (hp : performSync s e.w op e.iss.bundle = .park s1 mk ss) :
    syncRun e s op = .done (parks e s1 (destAll op.dest op.mask 0) mk ss) := by
  obtain ⟨⟨hfence, hlog, -⟩, hrel⟩ := hf
  unfold syncRun
  rw [hfence, hlog, hrel, hp]
  exact if_neg Bool.false_ne_true

end Sync

/-! ## Waits on a barrier (R156) -/

/-- The wave has arrived on the barrier at an address, in another phase than the one it is in. -/
def arrivedBefore (w : Wave) (addr : Word) (x : BarrierObj) : Prop :=
  ∃ y, (w.arrivals.find? fun y => y.addr == addr) = some y ∧ y.phase ≠ x.phase

section Waitb
variable {s r : State} {w : Wave} {op : MemOp} {o : ObjAt}

/-- The guard report of the object waited on, which an ARRWAIT's arrival has left before (R219). -/
def waitNoted (s : State) (w : Wave) (o : ObjAt) (arrwait : Bool) : State :=
  noteGuards s w.uid (if arrwait then [] else [(o.target, 16)])

theorem doWaitb_met (ho : accessObj s w (waveActor s w) op.base 16 16 false op = (.ok o, r))
    (hx : (readBarrier r (waveActor s w) o).malformed = false)
    (hd : arrivedBefore w op.base (readBarrier r (waveActor s w) o)) (arrwait : Bool) (ss : Nat) :
    doWaitb s w op arrwait ss = .done (dropBound (waitNoted r w o arrwait) w o.loc)
      (destAll op.dest op.mask (w64 (b2n (readBarrier r (waveActor s w) o).phase))) (homeLatency s w o.target) ss := by
  obtain ⟨y, hy, hne⟩ := hd
  unfold doWaitb
  simp only [ho, hx, hy, bne_iff_ne, hne, ne_eq, not_false_eq_true, if_true, Bool.false_eq_true, if_false]
  rfl

theorem doWaitb_unmet (ho : accessObj s w (waveActor s w) op.base 16 16 false op = (.ok o, r))
    (hx : (readBarrier r (waveActor s w) o).malformed = false)
    (hd : ¬ arrivedBefore w op.base (readBarrier r (waveActor s w) o)) (arrwait : Bool) (ss : Nat) :
    doWaitb s w op arrwait ss = .park (waitNoted r w o arrwait)
      (fun n k => .barrier o.loc (readBarrier r (waveActor s w) o).phase op.dest arrwait n k) ss := by
  unfold doWaitb
  simp only [ho, hx, Bool.false_eq_true, if_false]
  cases hy : w.arrivals.find? fun y => y.addr == op.base with
  | none => rfl
  | some y =>
    have heq : ¬ (y.phase != (readBarrier r (waveActor s w) o).phase) = true := fun h =>
      hd ⟨y, hy, by simpa using h⟩
    exact if_neg heq

end Waitb

section Waits
variable {s q r : State} {e : Env} {i : Instr} {op : MemOp} {w : Wave} {o : ObjAt}

/-- The instruction comes down to an operation on a synchronisation object that nothing holds back. -/
def performsSync (i : Instr) (s : State) (e : Env) (op : MemOp) : Prop :=
  (∃ body, exec i s = runInstr i s body ∧ body e (past i s e) = syncRun e (past i s e) op) ∧ syncFree (past i s e) e op

theorem exec_wait_done {t : State} {writes : List RegWrite} {lat ss : Nat} (hi : Issues i s e) (hs : performsSync i s e op)
    (hk : op.kind.waits = true) (hp : performSync (past i s e) e.w op e.iss.bundle = .done t writes lat ss) :
    exec i s = .next (acquireUntil (synced e t lat writes op.kind.writes ss).2 e.w.uid
      (synced e t lat writes op.kind.writes ss).1) := by
  obtain ⟨⟨body, hexec, hbody⟩, hf⟩ := hs
  rw [hexec]
  exact runInstr_done hi.1 hi.2 (hbody.trans (syncRun_wait_done hf hk hp))

theorem exec_wait_parks {t : State} {mk : Nat → Nat → Park} {ss : Nat} (hi : Issues i s e) (hs : performsSync i s e op)
    (hp : performSync (past i s e) e.w op e.iss.bundle = .park t mk ss) :
    exec i s = .next (parks e t (destAll op.dest op.mask 0) mk ss) := by
  obtain ⟨⟨body, hexec, hbody⟩, hf⟩ := hs
  rw [hexec]
  exact runInstr_done hi.1 hi.2 (hbody.trans (syncRun_park hf hp))

/-- An instruction that comes down to a wait on a barrier is met, or its path parks. -/
theorem exec_barrierWait {arrwait : Bool} {ss : Nat} (hi : Issues i s e) (hs : performsSync i s e op)
    (hk : op.kind.waits = true) (hu : w.uid = e.w.uid)
    (hp : performSync (past i s e) e.w op e.iss.bundle = doWaitb q w op arrwait ss)
    (ho : accessObj q w (waveActor q w) op.base 16 16 false op = (.ok o, r))
    (hx : (readBarrier r (waveActor q w) o).malformed = false) :
    let x := readBarrier r (waveActor q w) o
    let noted := noteGuards r e.w.uid (if arrwait then [] else [(o.target, 16)])
    let t := synced e (dropBound noted w o.loc) (homeLatency q w o.target) (destAll op.dest op.mask (w64 (b2n x.phase)))
      op.kind.writes ss
    (arrivedBefore w op.base x → exec i s = .next (acquireUntil t.2 e.w.uid t.1)) ∧
    (¬ arrivedBefore w op.base x → exec i s = .next (parks e noted (destAll op.dest op.mask 0)
      (fun n k => .barrier o.loc x.phase op.dest arrwait n k) ss)) := by
  have hn : waitNoted r w o arrwait = noteGuards r e.w.uid (if arrwait then [] else [(o.target, 16)]) := by
    unfold waitNoted; rw [hu]
  rw [← hn]
  exact ⟨fun hd => exec_wait_done hi hs hk (hp.trans (doWaitb_met ho hx hd arrwait ss)),
    fun hd => exec_wait_parks hi hs (hp.trans (doWaitb_unmet ho hx hd arrwait ss))⟩

variable {d a b : OpCode}

theorem waitb_performsSync (hg : e.w.guardRep = none)
    (hf : accessFree (past (.waitb d a) s e) e .ls (objOp e .waitb (e.u a) 0 0 d)) :
    performsSync (.waitb d a) s e (objOp e .waitb (e.u a) 0 0 d) :=
  ⟨⟨fun e s => withGuard e (objRun e s (objOp e .waitb (e.u a) 0 0 d)), rfl,
    (withGuard_of_none hg _).trans (objRun_of_noTx hf.2.2 rfl _)⟩, hf, rfl⟩

theorem arrwait_performsSync (hg : e.w.guardRep = none)
    (hf : accessFree (past (.arrwait d a b) s e) e .ls (objOp e .arrwait (e.u a) (e.u b) 0 d))
    (hr : e.p.waitResume = true ∨ releaseFree (past (.arrwait d a b) s e) e (e.u a)) :
    performsSync (.arrwait d a b) s e (objOp e .arrwait (e.u a) (e.u b) 0 d) := by
  refine ⟨⟨fun e s => withGuard e (objRun e s (objOp e .arrwait (e.u a) (e.u b) 0 d)), rfl,
    (withGuard_of_none hg _).trans (objRun_of_noTx hf.2.2 rfl _)⟩, hf, ?_⟩
  change (!e.p.waitResume && releaseWaits (past (.arrwait d a b) s e) e.w (e.u a)) = false
  rcases hr with hr | hr
  · rw [hr]; rfl
  · rw [show releaseWaits _ _ _ = false from hr, Bool.and_false]

theorem sigwait_performsSync (hf : accessFree (past (.sigwait d a b) s e) e .ls (objOp e .sigwait (e.u a) (e.u b) 0 d)) :
    performsSync (.sigwait d a b) s e (objOp e .sigwait (e.u a) (e.u b) 0 d) :=
  ⟨⟨fun e s => objRun e s (objOp e .sigwait (e.u a) (e.u b) 0 d), rfl, objRun_of_noTx hf.2.2 rfl _⟩, hf, rfl⟩

/-- An ARRWAIT that resumes a wait of its own performs the wait alone. -/
theorem performSync_arrwait_resumes (h : e.p.waitResume = true) (q : State) (w : Wave) (edge : Word) (addr n : Word) :
    performSync q w (objOp e .arrwait addr n 0 d) edge = doWaitb q w (objOp e .arrwait addr n 0 d) true 0 :=
  if_pos h

/-- An ARRWAIT arrives first, and then waits as the wave then stands. -/
theorem performSync_arrwait_arrives {o1 : ObjAt} {q1 : State} {w1 : Wave} {addr n edge : Word} (h : e.p.waitResume = false)
    (ha : doArrive q w (objOp e .arrwait addr n 0 d) edge = .ok (o1, q1)) (hw : q1.wave? w.uid = some w1) :
    performSync q w (objOp e .arrwait addr n 0 d) edge =
      doWaitb q1 w1 (objOp e .arrwait addr n 0 d) true (syncWord o1.target n.toNat) := by
  have hopt : (objOp e .arrwait addr n 0 d).option = false := h
  change (if (objOp e .arrwait addr n 0 d).option = true then _ else _) = _
  rw [hopt, if_neg Bool.false_ne_true, ha]
  simp only [hw]
  rfl

/-! ## Waits on a signal (R158) -/

theorem doSigwait_met (ho : accessObj s w (waveActor s w) op.base 16 16 false op = (.ok o, r)) :
    let bs := readTarget r (waveActor s w) o.pa 16 o.target
    field bs 8 8 = 0 → op.arg.toNat ≤ field bs 0 8 → doSigwait s w op =
      .done (dropBound (noteGuards r w.uid [(o.target, 16)]) w o.loc) (destAll op.dest op.mask (w64 (field bs 0 8)))
        (homeLatency s w o.target) 0 := by
  intro bs hz hle
  unfold doSigwait
  dsimp only
  rw [ho]
  exact (if_neg (by simpa using hz)).trans (if_pos hle)

theorem doSigwait_unmet (ho : accessObj s w (waveActor s w) op.base 16 16 false op = (.ok o, r)) :
    let bs := readTarget r (waveActor s w) o.pa 16 o.target
    field bs 8 8 = 0 → field bs 0 8 < op.arg.toNat → doSigwait s w op =
      .park (noteGuards r w.uid [(o.target, 16)]) (fun n k => .signal o.loc op.arg op.dest n k) 0 := by
  intro bs hz hlt
  unfold doSigwait
  dsimp only
  rw [ho]
  exact (if_neg (by simpa using hz)).trans (if_neg (Nat.not_le_of_lt hlt))

/-- A SIGWAIT is met, or its path parks. -/
theorem exec_sigwait (hi : Issues (.sigwait d a b) s e)
    (hf : accessFree (past (.sigwait d a b) s e) e .ls (objOp e .sigwait (e.u a) (e.u b) 0 d))
    (ho : reaches (past (.sigwait d a b) s e) e (e.u a) 16 false o r) :
    let q := past (.sigwait d a b) s e
    let bs := readTarget r (waveActor q e.w) o.pa 16 o.target
    let noted := noteGuards r e.w.uid [(o.target, 16)]
    let t := synced e (dropBound noted e.w o.loc) (homeLatency q e.w o.target) (destAll d e.p.mask (w64 (field bs 0 8))) false 0
    field bs 8 8 = 0 →
      ((e.u b).toNat ≤ field bs 0 8 → exec (.sigwait d a b) s = .next (acquireUntil t.2 e.w.uid t.1)) ∧
      (field bs 0 8 < (e.u b).toNat → exec (.sigwait d a b) s = .next (parks e noted (destAll d e.p.mask 0)
        (fun n k => .signal o.loc (e.u b) d n k) 0)) := by
  intro q bs noted t hz
  have hs := sigwait_performsSync hf
  have hobj := ho (objOp e .sigwait (e.u a) (e.u b) 0 d)
  refine ⟨fun hle => ?_, fun hlt => ?_⟩
  · have hmet := doSigwait_met (op := objOp e .sigwait (e.u a) (e.u b) 0 d) hobj hz hle
    exact (exec_wait_done hi hs rfl hmet :)
  · have hunmet := doSigwait_unmet (op := objOp e .sigwait (e.u a) (e.u b) 0 d) hobj hz hlt
    exact (exec_wait_parks hi hs hunmet :)

end Waits

/-- Settles O25: the position taken is the lowest free one; each wait comes down to its object, met or parked on. -/
theorem setsWaitsOnBarriersAndSignals : Obligations.SetsWaitsOnBarriersAndSignals := by
  unfold Obligations.SetsWaitsOnBarriersAndSignals
  refine ⟨fun s e d a b => ⟨fun hi hb => ⟨exec_setjoin_misuse hi hb, exec_setjoin_full hi hb, fun hn hj hl hq =>
      ⟨_, exec_setjoin_joins hi hb hn hj hl hq, freePosition_spec _⟩⟩,
    fun hi hb => ⟨exec_setleave_misuse hi hb, exec_setleave_leaves hi hb⟩⟩, fun s e d a b o r => ?_⟩
  intro addr result met onBarrier hg
  refine ⟨?_, ?_, ?_, ?_⟩
  · intro i hi hf ho hx
    exact exec_barrierWait hi (waitb_performsSync hg hf) rfl rfl rfl (ho _) hx
  · intro i q op hi hf hr ho hx
    exact exec_barrierWait hi (arrwait_performsSync hg hf (.inl hr)) rfl rfl
      (performSync_arrwait_resumes hr _ _ _ _ _) (ho _) hx
  · intro i q op hi hf hrel hr o1 q1 w ha hw ho hx
    exact exec_barrierWait hi (arrwait_performsSync hg hf (.inr hrel)) rfl (wave?_uid hw)
      (performSync_arrwait_arrives hr ha hw) (ho _) hx
  · intro i q hi hf ho bs q2 hz
    exact exec_sigwait hi hf ho hz

end Sys2Proof.Machine
end

section
/-! PROOF. ARM, DISARM, EVPOP, EVPEEK and HALOQ (O41: R306, R308, R315, R319, R321). -/

namespace Sys2Proof.Machine

/-! ## ARM (R306) -/

section Arm
variable {s r1 : State} {e : Env} {a b : OpCode} {o : ObjAt}

theorem exec_arm_check {c : Cause} {x : Word} (hi : Issues (.arm a b) s e)
    (hc : armCheck (past (.arm a b) s e) e.w (e.u a) (e.u b) = some (c, x)) :
    exec (.arm a b) s = .next (takeTrap (account s e false) e false c none x 0) := by
  change execArm a b s = _
  unfold execArm
  refine runInstr_trap hi.1 hi.2 ?_
  rw [hc]
  rfl

/-- An instruction not accepted in this clock, for the reason ENGINE of R405, stays unissued (R131). -/
theorem runInstr_wait {i : Instr} {body : Env → State → Effect} (hi : Issues i s e) (hb : body e (past i s e) = .wait) :
    runInstr i s body = .next (noteTried s e 10) := by
  have hp := hi.2
  simp only [past] at hb
  simp [runInstr, hi.1, hp, hb]

theorem exec_arm_waits (hi : Issues (.arm a b) s e) (hc : armCheck (past (.arm a b) s e) e.w (e.u a) (e.u b) = none)
    (hw : armWaits (past (.arm a b) s e) e.w (e.u b) = true) : exec (.arm a b) s = .next (noteTried s e 10) := by
  change execArm a b s = _
  unfold execArm
  refine runInstr_wait hi ?_
  rw [hc]
  exact if_pos hw

/-- The record that an ARM of a wave leaves on its core. -/
def freshArm (w : Wave) (barrier key : Word) (loc : Loc) : ArmRec :=
  { uid := w.uid, lid := w.lid, bid := w.bid, run := w.run, key := key, barrier := barrier, loc := loc, state := .armed
    source := 0, tag := 0, disarms := [] }

/-- A record entered among a core's, in place of the wave's own of its key. -/
def armsWith (c : Core) (w : Wave) (x : ArmRec) : List ArmRec :=
  match ownArm c w x.key with
  | some old => c.arms.map fun y => if y = old then x else y
  | none => c.arms ++ [x]

theorem performArm_ok {w : Wave} {op : MemOp} (hc : armCheck s w op.base op.arg = none)
    (ho : accessObj s { w with brokenPins := [] } (waveActor s w) op.base 16 16 false op = (.ok o, r1)) :
    let r2 := dropOldArm r1 w op.arg
    let c := r2.core w.core
    performArm s w op = .ok ((r2.setCore w.core { c with arms := armsWith c w (freshArm w op.base op.arg o.loc) }).modWave
      w.uid fun x => x.recordArrival op.base (readBarrier r2 (waveActor s w) o).phase) [] (homeLatency s w o.target + 4) 0 := by
  unfold performArm
  simp only [hc, ho, armsWith, freshArm, beq_iff_eq] <;> rfl

theorem exec_arm_records (hi : Issues (.arm a b) s e) (hc : armCheck (past (.arm a b) s e) e.w (e.u a) (e.u b) = none)
    (hw : armWaits (past (.arm a b) s e) e.w (e.u b) = false) (hf : fenced e.w .ls = false)
    (hl : overlapsLog (past (.arm a b) s e) e.w (armOp (e.u a) (e.u b)) = false)
    (ho : accessObj (past (.arm a b) s e) { e.w with brokenPins := [] } (waveActor (past (.arm a b) s e) e.w) (e.u a) 16 16
      false (armOp (e.u a) (e.u b)) = (.ok o, r1)) :
    let r := past (.arm a b) s e
    let r2 := dropOldArm r1 e.w (e.u b)
    let c := r2.core e.w.core
    exec (.arm a b) s = .next (performed e ((r2.setCore e.w.core
      { c with arms := armsWith c e.w (freshArm e.w (e.u a) (e.u b) o.loc) }).modWave e.w.uid fun w =>
        w.recordArrival (e.u a) (readBarrier r2 (waveActor r e.w) o).phase)
      (homeLatency r e.w o.target + 4) [] .ls false 0) := by
  change execArm a b s = _
  unfold execArm
  refine runInstr_done hi.1 hi.2 ?_
  rw [hc]
  refine (if_neg (by rw [hw]; exact Bool.false_ne_true)).trans ?_
  exact memRun_ok hf hl (performArm_ok (op := armOp (e.u a) (e.u b)) hc ho)

end Arm

/-! ## DISARM (R308) -/

section Disarm
variable {s : State} {e : Env} {a : OpCode}

theorem past_cores (i : Instr) (s : State) (e : Env) : (past i s e).cores = s.cores := by rw [past_eq]

theorem past_core (i : Instr) (s : State) (e : Env) (k : Nat) : (past i s e).core k = s.core k := by
  unfold State.core; rw [past_cores]

theorem pend_cores (s : State) (e : Env) (lat : Option Nat) (ws : List RegWrite) (path : AccessPath) (store : Bool)
    (ss : Nat) : (pend s e lat ws path store ss).2.cores = s.cores := by
  unfold pend
  split
  · rfl
  · cases lat <;> rfl

theorem pend_core (s : State) (e : Env) (lat : Option Nat) (ws : List RegWrite) (path : AccessPath) (store : Bool)
    (ss : Nat) (k : Nat) : (pend s e lat ws path store ss).2.core k = s.core k := by
  unfold State.core; rw [pend_cores]

/-- A command has committed a record that the wave has of a barrier. -/
def committedTo (w : Wave) (barrier : Word) (x : ArmRec) : Prop := (x.uid = w.uid ∧ x.barrier = barrier) ∧ x.state = .committed

/-- What DISARM makes of each record: an armed one of its own is cancelled, and a committed one tells it of its delivery. -/
def disarmed (w : Wave) (barrier : Word) (n : Nat) (x : ArmRec) : ArmRec :=
  if (x.uid = w.uid ∧ x.barrier = barrier) ∧ x.state = .armed then { x with state := .cancelled }
  else if (x.uid = w.uid ∧ x.barrier = barrier) ∧ x.state = .committed then { x with disarms := x.disarms ++ [n] }
  else x

theorem disarmed_eq (w : Wave) (barrier : Word) (n : Nat) : disarmed w barrier n = fun x =>
    if !(x.uid == w.uid && x.barrier == barrier) then x
    else if x.state == .armed then { x with state := .cancelled }
    else if x.state == .committed then { x with disarms := x.disarms ++ [n] } else x := by
  funext x
  unfold disarmed
  by_cases hm : x.uid = w.uid ∧ x.barrier = barrier
  · simp [hm]
  · have hb : (x.uid == w.uid && x.barrier == barrier) = false := by simpa using hm
    simp [hm, hb]

theorem disarmed_of_not_committed {w : Wave} {barrier : Word} {x : ArmRec} (h : ¬ committedTo w barrier x) (n : Nat) :
    disarmed w barrier n x =
      if (x.uid = w.uid ∧ x.barrier = barrier) ∧ x.state = .armed then { x with state := .cancelled } else x := by
  unfold disarmed
  rw [if_neg (show ¬ ((x.uid = w.uid ∧ x.barrier = barrier) ∧ x.state = .committed) from h)]

theorem anyCommitted_iff (w : Wave) (barrier : Word) (xs : List ArmRec) :
    (xs.any fun x => x.uid == w.uid && x.barrier == barrier && x.state == .committed) = true ↔
      ∃ x ∈ xs, committedTo w barrier x := by
  simp [List.any_eq_true, committedTo]

theorem exec_disarm_cancels (hi : Issues (.disarm a) s e) (h : ∀ x ∈ (s.core e.w.core).arms, ¬ committedTo e.w (e.u a) x) :
    exec (.disarm a) s = .next ((pend (past (.disarm a) s e) e (some 4) [] .none false 0).2.setCore e.w.core
      { s.core e.w.core with arms := (s.core e.w.core).arms.map fun x =>
        if (x.uid = e.w.uid ∧ x.barrier = e.u a) ∧ x.state = .armed then { x with state := .cancelled } else x }) := by
  have hnone : ((s.core e.w.core).arms.any fun x =>
      x.uid == e.w.uid && x.barrier == e.u a && x.state == .committed) = false := by
    rw [Bool.eq_false_iff, ne_eq, anyCommitted_iff]
    rintro ⟨x, hx, hc⟩
    exact h x hx hc
  rw [← List.map_congr_left fun x hx => disarmed_of_not_committed (h x hx)
    (pend (past (.disarm a) s e) e (some 4) [] .none false 0).1, disarmed_eq]
  change execDisarm a s = _
  unfold execDisarm
  refine runInstr_done hi.1 hi.2 ?_
  simp only [past_core, pend_core, hnone, Bool.false_eq_true, if_false]

theorem exec_disarm_waits (hi : Issues (.disarm a) s e) (h : ∃ x ∈ (s.core e.w.core).arms, committedTo e.w (e.u a) x) :
    let p := pend (past (.disarm a) s e) e none [] .none false 0
    exec (.disarm a) s = .next (e.move (p.2.setCore e.w.core { s.core e.w.core with
      arms := (s.core e.w.core).arms.map (disarmed e.w (e.u a) p.1) }) fun q => { q with park := .hold p.1 }) := by
  intro p
  rw [disarmed_eq]
  change execDisarm a s = _
  unfold execDisarm
  refine runInstr_done hi.1 hi.2 ?_
  simp only [past_core, pend_core, (anyCommitted_iff e.w (e.u a) _).mpr h, if_true]
  rfl

end Disarm

/-! ## EVPOP, EVPEEK and HALOQ (R315, R319, R321) -/

section Queue
variable {s : State} {e : Env} {d a : OpCode}

theorem exec_evpop_takes {x : Word} {rest : List Word} (hi : Issues (.evpop d) s e)
    (hq : blockQueue (past (.evpop d) s e) e.w.core e.w.lid e.w.bid e.w.run = x :: rest) :
    let p := pend (setQueue (past (.evpop d) s e) e.w.core e.w.lid e.w.bid e.w.run rest) e (some 4) (e.all d x) .none false 0
    exec (.evpop d) s = .next (acquireUntil p.2 e.w.uid p.1) := by
  change execEvpop d s = _
  unfold execEvpop
  refine runInstr_done hi.1 hi.2 ?_
  rw [hq]

theorem exec_evpop_parks (hi : Issues (.evpop d) s e)
    (hq : blockQueue (past (.evpop d) s e) e.w.core e.w.lid e.w.bid e.w.run = []) :
    exec (.evpop d) s = .next (parks e (past (.evpop d) s e) (e.all d 0) (fun n k => .event d n k) 0) := by
  change execEvpop d s = _
  unfold execEvpop
  refine runInstr_done hi.1 hi.2 ?_
  rw [hq]
  rfl

theorem exec_evpeek_reads {x : Word} {rest : List Word} (hi : Issues (.evpeek d) s e)
    (hq : blockQueue (past (.evpeek d) s e) e.w.core e.w.lid e.w.bid e.w.run = x :: rest) :
    let p := pend (past (.evpeek d) s e) e (some 4) (e.all d x) .none false 0
    exec (.evpeek d) s = .next (acquireUntil p.2 e.w.uid p.1) := by
  change execEvpeek d s = _
  unfold execEvpeek
  refine runInstr_done hi.1 hi.2 ?_
  rw [hq]
  rfl

theorem exec_evpeek_empty (hi : Issues (.evpeek d) s e)
    (hq : blockQueue (past (.evpeek d) s e) e.w.core e.w.lid e.w.bid e.w.run = []) :
    exec (.evpeek d) s = .next (finished e (past (.evpeek d) s e) 4 (e.all d 0)) := by
  change execEvpeek d s = _
  unfold execEvpeek
  refine runInstr_done hi.1 hi.2 ?_
  rw [hq]
  rfl

theorem exec_haloq (hi : Issues (.haloq d a) s e) : exec (.haloq d a) s = .next (finished e (past (.haloq d a) s e) 4
    (e.all d (w64 (commandState (past (.haloq d a) s e) e.w (e.u a).toNat)))) := by
  change execHaloq d a s = _
  unfold execHaloq
  exact runInstr_done hi.1 hi.2 rfl

theorem commandState_runs {w : Wave} {tag : Nat} {c : Command}
    (h : ((blockCommands s w).find? fun c => c.tag == tag) = some c) :
    commandState s w tag = c.status * 2 ^ 58 + c.mask * 2 ^ 40 + c.op * 2 ^ 32 := by
  unfold commandState; rw [h]

theorem commandState_queued {w : Wave} {tag : Nat} {x : Word} (h : ((blockCommands s w).find? fun c => c.tag == tag) = none)
    (hx : ((blockQueue s w.core w.lid w.bid w.run).find? fun x => bits x.toNat 0 18 == tag) = some x) :
    commandState s w tag = x.toNat / 2 ^ 32 * 2 ^ 32 + 1 := by
  unfold commandState; rw [h]; dsimp only; rw [hx]

theorem commandState_unknown {w : Wave} {tag : Nat} (h : ((blockCommands s w).find? fun c => c.tag == tag) = none)
    (hx : ((blockQueue s w.core w.lid w.bid w.run).find? fun x => bits x.toNat 0 18 == tag) = none) :
    commandState s w tag = 2 := by
  unfold commandState; rw [h]; dsimp only; rw [hx]

end Queue

/-- Settles O41: ARM and DISARM by what they make of the records, the queue's instructions by its first record, and HALOQ by
where its command is found. -/
theorem armDisarmAndEventQueues : Obligations.ArmDisarmAndEventQueues := by
  unfold Obligations.ArmDisarmAndEventQueues
  refine ⟨fun s e a b o r1 => ⟨fun hi => ⟨fun _ _ => exec_arm_check hi, exec_arm_waits hi, exec_arm_records hi⟩, fun hi =>
      ⟨fun h => exec_disarm_cancels hi fun x hx hc => h x hx hc.1 hc.2, fun ⟨x, hx, hm, hc⟩ =>
        exec_disarm_waits hi ⟨x, hx, hm, hc⟩⟩⟩,
    fun s e d a => ⟨fun hi => ⟨fun _ _ => exec_evpop_takes hi, exec_evpop_parks hi⟩,
      fun hi => ⟨fun _ _ => exec_evpeek_reads hi, exec_evpeek_empty hi⟩, fun hi => ⟨_, exec_haloq hi, ?_⟩⟩⟩
  exact ⟨fun _ => commandState_runs, fun hn => ⟨fun _ => commandState_queued hn, commandState_unknown hn⟩⟩

end Sys2Proof.Machine
end

section
/-! PROOF. Matrix groups start, complete and arrive on their stage's barrier (O39: R278, R279, R284, R285, R289). -/

namespace Sys2Proof.Machine

/-! ## A core changed -/

theorem core_setCore (s : State) (k : Nat) (c : Core) : (s.setCore k c).core k = c := by
  unfold State.core State.setCore
  rw [mget_mset, if_pos rfl]

theorem noteTileGuard_only (s : State) (uid : Nat) (ts : List (Target × Nat)) :
    noteTileGuard s uid ts = { s with waves := (noteTileGuard s uid ts).waves } := by
  unfold noteTileGuard
  split <;> rfl

theorem runTileOps_none {s : State} {core : Nat} (h : (s.core core).tileOps = []) : runTileOps s core = s := by
  unfold runTileOps
  rw [h]
  rfl

/-! ## A group changed, and a stage -/

theorem mem_setGroup {c : Core} {g : Group} (h : g ∈ c.groups) {g1 : Group} (hid : g1.id = g.id) :
    g1 ∈ (c.setGroup g1).groups :=
  List.mem_map.mpr ⟨g, h, by simp [hid]⟩

theorem mem_setStage {c : Core} {x : Stage} (h : x ∈ c.stages) {y : Stage} (hl : y.lid = x.lid) (hb : y.bid = x.bid)
    (hr : y.run = x.run) (hn : y.n = x.n) : y ∈ (setStage c y).stages :=
  List.mem_map.mpr ⟨x, h, by simp [hl, hb, hr, hn]⟩

theorem mem_of_stageAt {c : Core} {lid bid : Nat} {run : Run} {off : Nat} {x : Stage}
    (h : stageAt c lid bid run off = some x) : x ∈ c.stages := List.mem_of_find?_eq_some h

/-! ## MATRIX_GROUP_START (R279, R285) -/

section Start
variable {s : State} {core : Nat} {g : Group} {f : FmtBlock} {b : Block}

/-- The group as it starts: its A operand read, and its stage's barrier noted. -/
def startedGroup (s : State) (core : Nat) (g : Group) (f : FmtBlock) (b : Block) : Group :=
  let st := stageAt (s.core core) g.lid g.bid g.run g.aOff
  { g with started := true, stage := st.map fun x => (x.n, x.barrier), readDone := st.isNone
           aData := readRows s core g.aOff ((shareOn b core).getD 0) f.aPitch (aRow f.af) }

/-- A core with one fill taken of a gated stage (R285). -/
def fillTaken (c : Core) : Option Stage → Core
  | some x => if x.gate then setStage c { x with fill := x.fill - 1 } else c
  | none => c

theorem fillTaken_only (c : Core) (st : Option Stage) : fillTaken c st = { c with stages := (fillTaken c st).stages } := by
  unfold fillTaken
  split
  · split <;> rfl
  · rfl

/-- The core as the group starts. -/
def startedCore (s : State) (core : Nat) (g : Group) (f : FmtBlock) (b : Block) : Core :=
  { (fillTaken (s.core core) (stageAt (s.core core) g.lid g.bid g.run g.aOff)).setGroup (startedGroup s core g f b) with
    engineBusy := s.clock + f.clocks }

/-- The last contributor has the guard report of the A operand (R280). -/
def operandNoted (s : State) (core : Nat) (g : Group) (f : FmtBlock) (b : Block) : State :=
  match g.contribs.getLast? with
  | some x => noteTileGuard s x.uid (aRows core g.aOff ((shareOn b core).getD 0) f.aPitch (aRow f.af))
  | none => s

theorem operandNoted_only (s : State) (core : Nat) (g : Group) (f : FmtBlock) (b : Block) :
    operandNoted s core g f b = { s with waves := (operandNoted s core g f b).waves } := by
  unfold operandNoted
  split
  · exact noteTileGuard_only ..
  · rfl

/-- The arrival on the group's stage is to come once the operand is read (R284). -/
def arrivalDue (s : State) (core : Nat) (g : Group) (f : FmtBlock) (b : Block) : Option Stage → State
  | some x =>
    let lat := match resolve s (blockAgent b core) .generic x.barrier with
      | .ok t => homeLatency s (blockAgent b core) t
      | .error _ => 0
    s.schedule (f.clocks + lat) (.stageReadDone core g.id)
  | none => s

theorem arrivalDue_only (s : State) (core : Nat) (g : Group) (f : FmtBlock) (b : Block) (st : Option Stage) :
    arrivalDue s core g f b st = { s with agenda := (arrivalDue s core g f b st).agenda } := by
  cases st <;> rfl

/-- The machine once the group has started, but for the engine's next events. -/
def groupStarted (s : State) (core : Nat) (g : Group) (f : FmtBlock) (b : Block) : State :=
  arrivalDue (operandNoted (s.setCore core (startedCore s core g f b)) core g f b) core g f b
    (stageAt (s.core core) g.lid g.bid g.run g.aOff)

theorem groupStarted_only (s : State) (core : Nat) (g : Group) (f : FmtBlock) (b : Block) : groupStarted s core g f b =
    { s.setCore core (startedCore s core g f b) with
      waves := (groupStarted s core g f b).waves, agenda := (groupStarted s core g f b).agenda } := by
  unfold groupStarted
  rw [arrivalDue_only, operandNoted_only]

theorem groupStarted_core (s : State) (core : Nat) (g : Group) (f : FmtBlock) (b : Block) :
    (groupStarted s core g f b).core core = startedCore s core g f b := by
  rw [groupStarted_only]
  exact core_setCore s core _

theorem exec_groupStart (ht : (s.core core).tileOps = []) (hbusy : (s.core core).engineBusy ≤ s.clock)
    (hg : (s.core core).groups.find? (fun x => groupReady (s.core core) x && !aHeld s core x) = some g)
    (hf : parseFmt g.fmt = some f) (hb : s.block? g.lid g.bid g.run = some b) :
    exec (.matrixGroupStart core) s = .next (((groupStarted s core g f b).schedule f.clocks (.matrixGroupStart core)).schedule
      (f.clocks + 12) (.matrixGroupComplete core g.id)) := by
  change Host.Outcome.next (startGroup (runTileOps s core) core) = _
  rw [runTileOps_none ht]
  unfold startGroup
  rw [if_neg (Nat.not_lt_of_le hbusy), hg]
  dsimp only
  rw [hf, hb]
  rfl

theorem startedGroup_mem (hg : g ∈ (s.core core).groups) : startedGroup s core g f b ∈ (startedCore s core g f b).groups := by
  have hgroups : (fillTaken (s.core core) (stageAt (s.core core) g.lid g.bid g.run g.aOff)).groups = (s.core core).groups := by
    rw [fillTaken_only]
  refine mem_setGroup (g := g) ?_ rfl
  rw [hgroups]
  exact hg

theorem startedCore_fill {x : Stage} (hx : stageAt (s.core core) g.lid g.bid g.run g.aOff = some x) (hgate : x.gate = true) :
    { x with fill := x.fill - 1 } ∈ (startedCore s core g f b).stages := by
  change _ ∈ (fillTaken (s.core core) (stageAt (s.core core) g.lid g.bid g.run g.aOff)).stages
  rw [hx, fillTaken, if_pos hgate]
  exact mem_setStage (mem_of_stageAt hx) rfl rfl rfl rfl

theorem startedCore_tiles : (startedCore s core g f b).tiles = (s.core core).tiles := by
  change (fillTaken (s.core core) (stageAt (s.core core) g.lid g.bid g.run g.aOff)).tiles = _
  rw [fillTaken_only]

end Start

/-! ## MATRIX_GROUP_COMPLETE (R278, R279, R289) -/

section Complete
variable {s : State} {core : Nat} {g : Group}

/-- No earlier group that has started is on a tile of the group. -/
def firstOnTile (c : Core) (g : Group) : Bool :=
  allBefore (fun x => !(x.live && x.started && tilesMeet (accOf x.fmt) x.acc (accOf g.fmt) g.acc)) g.id c.groups

theorem exec_groupComplete_waits (hg : (s.core core).groups.find? (fun x => x.id == g.id && x.live && x.started) = some g)
    (h : loadBefore (s.core core) g = true ∨ firstOnTile (s.core core) g = false) :
    exec (.matrixGroupComplete core g.id) s = .next (s.schedule 1 (.matrixGroupComplete core g.id)) := by
  change execMatrixGroupComplete core g.id s = _
  unfold execMatrixGroupComplete
  dsimp only
  rw [hg]
  exact congrArg Host.Outcome.next (if_pos (by simpa [firstOnTile] using h))

/-- The core with the group's update in its tile, and the group's contributions gone (R278). -/
def completedCore (c : Core) (g : Group) (f : FmtBlock) (t : Tile) : Core :=
  let r := groupUpdate f (if g.zero then [] else t.elems) g.aData g.contribs
  let c1 := { c with tiles := mput c.tiles g.acc { t with elems := r.1, saturated := t.saturated || r.2 } }
  if g.readDone then { c1 with groups := c1.groups.filter fun x => x.id != g.id } else c1.setGroup { g with contribs := [] }

theorem exec_groupComplete_updates {f : FmtBlock} {t : Tile}
    (hg : (s.core core).groups.find? (fun x => x.id == g.id && x.live && x.started) = some g)
    (hf : parseFmt g.fmt = some f) (ht : mfind (s.core core).tiles g.acc = some t)
    (hload : loadBefore (s.core core) g = false) (hfirst : firstOnTile (s.core core) g = true) :
    exec (.matrixGroupComplete core g.id) s = .next ((runTileOps (g.contribs.foldl endContrib
      (s.setCore core (completedCore (s.core core) g f t))) core).schedule 0 (.matrixGroupStart core)) := by
  change execMatrixGroupComplete core g.id s = _
  unfold execMatrixGroupComplete
  dsimp only
  rw [hg]
  refine congrArg Host.Outcome.next ((if_neg (by simpa [firstOnTile, hload] using hfirst)).trans ?_)
  rw [hf, ht]
  rfl

end Complete

/-! ## STAGE_READ_DONE (R284) -/

section StageRead
variable {s s1 : State} {core : Nat} {g : Group} {b : Block} {n : Nat} {barrier : Word}

/-- What the engine's arrival is made for: a group that has started and owes its stage's barrier an arrival. -/
def owesArrival (s : State) (core : Nat) (g : Group) (n : Nat) (barrier : Word) (b : Block) : Prop :=
  (s.core core).groups.find? (fun x => x.id == g.id && x.started && !x.readDone) = some g ∧ g.stage = some (n, barrier) ∧
    s.block? g.lid g.bid g.run = some b

/-- The stage of a block's barrier on a core. -/
def boundStage (c : Core) (g : Group) (n : Nat) (barrier : Word) : Option Stage :=
  c.stages.find? fun x => x.lid == g.lid && x.bid == g.bid && x.run == g.run && x.n == n && x.barrier == barrier

/-- What the event makes of the engine's arrival; `w` is the wave for whose operand it arrives. -/
def stageArrived (core : Nat) (g : Group) (n : Nat) (barrier : Word) (w : Wave) : EngineArrival → State
  | .performed s1 => stageRead s1 core g
  | .notTaken s1 =>
    match boundStage ((stageRead s1 core g).core core) g n barrier with
    | some x => (stageRead s1 core g).setCore core (setStage ((stageRead s1 core g).core core) { x with broken := true })
    | none => stageRead s1 core g
  | .stopped s1 x => arriveAgain s1 w .mx (.stage core g.id) (.stage core g.id) (.stageReadDone core g.id) x

theorem exec_stageReadDone (h : owesArrival s core g n barrier b) : exec (.stageReadDone core g.id) s =
    .next (stageArrived core g n barrier (stageWave s g b core) (engineArrive s b core barrier false false)) := by
  obtain ⟨hg, hst, hb⟩ := h
  change execStageReadDone core g.id s = _
  unfold execStageReadDone
  dsimp only
  rw [hg]
  dsimp only
  rw [hst, hb]
  dsimp only
  cases engineArrive s b core barrier false false <;> rfl

theorem exec_stageReadDone_breaks {x : Stage} (h : owesArrival s core g n barrier b)
    (hr : engineArrive s b core barrier false false = .notTaken s1)
    (hx : boundStage ((stageRead s1 core g).core core) g n barrier = some x) :
    exec (.stageReadDone core g.id) s = .next ((stageRead s1 core g).setCore core
      (setStage ((stageRead s1 core g).core core) { x with broken := true })) := by
  rw [exec_stageReadDone h, hr, stageArrived, hx]

end StageRead

/-- Settles O39: each event by the cases of its function; the core as a group starts holds the group's change and its fill. -/
theorem matrixGroups : Obligations.MatrixGroups := by
  unfold Obligations.MatrixGroups
  intro s core g f hf
  refine ⟨fun b ht hbusy hg hb => ⟨groupStarted s core g f b, exec_groupStart ht hbusy hg hf hb, ?_⟩,
    fun t hg ht => ⟨exec_groupComplete_waits hg, exec_groupComplete_updates hg hf ht⟩,
    fun n barrier b hg hst hb => ⟨fun s1 hr => by rw [exec_stageReadDone ⟨hg, hst, hb⟩, hr]; rfl,
      fun s1 x hr hx => exec_stageReadDone_breaks ⟨hg, hst, hb⟩ hr hx,
      fun s1 hr => by rw [exec_stageReadDone ⟨hg, hst, hb⟩, hr]; rfl⟩⟩
  rw [groupStarted_core]
  refine ⟨rfl, by rw [groupStarted_only]; rfl, by rw [groupStarted_only]; rfl, startedCore_tiles,
    ⟨_, startedGroup_mem (List.mem_of_find?_eq_some hg), rfl⟩, fun x hx hgate => ⟨_, startedCore_fill hx hgate, rfl⟩⟩

end Sys2Proof.Machine
end

section
/-! PROOF. Copy commands step by step, to their record (O42: R112, R301, R302, R304, R307, R310, R318, R321). -/

namespace Sys2Proof.Machine

/-! ## COPY_COMMAND_EXECUTE (R301, R302, R304) -/

section Execute
variable {s s1 : State} {core chan : Nat} {x x1 : Command} {out : PieceOut}

/-- The copy at the head of a channel steps to its next boundary, and its pieces come to `out`. -/
def copySteps (s : State) (core chan : Nat) (x : Command) (out : PieceOut) (s1 : State) (x1 : Command) : Prop :=
  headCommand s core chan = some x ∧ x.waiting = false ∧ x.op ≠ opHalo ∧ isMulticast x.op = false ∧ x.moved = false ∧
    runPieces core core (readDesc x.op x.desc) (nextStop (readDesc x.op x.desc) x.progress) 4096 s { x with started := true } =
      (out, s1, x1)

theorem stepPieces_unmoved {d : CopyDesc} {target : Nat} (h : x.moved = false)
    (hp : runPieces core target d (nextStop d x.progress) 4096 s x = (out, s1, x1)) :
    stepPieces core target d s x = (out, s1, x1) := by
  unfold stepPieces
  exact (if_neg (by rw [h]; exact Bool.false_ne_true)).trans hp

/-- A copy's step is what its pieces come to: a wait of its own, its next step, or its end. -/
theorem exec_copyStep (h : copySteps s core chan x out s1 x1) :
    let d := readDesc x.op x.desc
    exec (.copyCommandExecute core chan) s = .next ((commandWait s1 core chan x1 (.copyCommandExecute core chan) out).getD
      (if out = .ok ∧ x1.progress < d.total then
        (setHead (unrefuse s1 x1.uid x1.tag) core chan x1).schedule (stepClocks d x.progress) (.copyCommandExecute core chan)
      else (setHead (unrefuse s1 x1.uid x1.tag) core chan (stopStatus x1 out)).schedule (600 + stepClocks d x.progress)
        (.copyCommandEnd core chan))) := by
  obtain ⟨hh, hw, hop, hm, hmoved, hp⟩ := h
  have hstep : stepPieces core core (readDesc x.op x.desc) s { x with started := true } = (out, s1, x1) :=
    stepPieces_unmoved hmoved hp
  change Host.Outcome.next (copyExecute core chan s) = _
  unfold copyExecute
  rw [hh]
  refine congrArg Host.Outcome.next ((if_neg (by rw [hw]; exact Bool.false_ne_true)).trans ((if_neg hop).trans
    ((if_neg (by rw [hm]; exact Bool.false_ne_true)).trans ?_)))
  rw [hstep]
  dsimp only
  cases commandWait s1 core chan x1 (.copyCommandExecute core chan) out with
  | some s2 => rfl
  | none => simp only [Option.getD_none, Bool.and_eq_true, decide_eq_true_eq]

theorem exec_copyStep_waits {s2 : State} (h : copySteps s core chan x out s1 x1)
    (hc : commandWait s1 core chan x1 (.copyCommandExecute core chan) out = some s2) :
    exec (.copyCommandExecute core chan) s = .next s2 := by
  rw [exec_copyStep h, hc]
  rfl

theorem exec_copyStep_goes (h : copySteps s core chan x .ok s1 x1) (hlt : x1.progress < (readDesc x.op x.desc).total) :
    exec (.copyCommandExecute core chan) s = .next ((setHead (unrefuse s1 x1.uid x1.tag) core chan x1).schedule
      (stepClocks (readDesc x.op x.desc) x.progress) (.copyCommandExecute core chan)) :=
  (exec_copyStep h).trans (congrArg Host.Outcome.next (if_pos ⟨rfl, hlt⟩))

theorem exec_copyStep_ends (h : copySteps s core chan x out s1 x1)
    (hc : commandWait s1 core chan x1 (.copyCommandExecute core chan) out = none)
    (hend : out = .ok → (readDesc x.op x.desc).total ≤ x1.progress) :
    exec (.copyCommandExecute core chan) s = .next ((setHead (unrefuse s1 x1.uid x1.tag) core chan (stopStatus x1 out)).schedule
      (600 + stepClocks (readDesc x.op x.desc) x.progress) (.copyCommandEnd core chan)) := by
  rw [exec_copyStep h, hc]
  exact congrArg Host.Outcome.next (if_neg fun hn => Nat.not_lt_of_le (hend hn.1) hn.2)

theorem exec_multicast_noTarget (hh : headCommand s core chan = some x) (hw : x.waiting = false) (hop : x.op ≠ opHalo)
    (hm : isMulticast x.op = true) (ht : x.targets = []) : exec (.copyCommandExecute core chan) s =
      .next ((setHead s core chan { x with started := true }).schedule 0 (.copyCommandEnd core chan)) := by
  change Host.Outcome.next (copyExecute core chan s) = _
  unfold copyExecute
  rw [hh]
  simp only [hw, hop, hm, ht, Bool.false_eq_true, if_false, if_true]

theorem exec_multicast_target {t : Nat} {ts : List Nat} (hh : headCommand s core chan = some x) (hw : x.waiting = false)
    (hop : x.op ≠ opHalo) (hm : isMulticast x.op = true) (ht : x.targets = t :: ts) :
    exec (.copyCommandExecute core chan) s = .next ((setHead s core chan { x with started := true }).schedule
      (if x.started then 0 else moveClocks (nextStop (readDesc x.op x.desc) 0)) (.multicastDelivery core chan t)) := by
  change Host.Outcome.next (copyExecute core chan s) = _
  unfold copyExecute
  rw [hh]
  simp only [hw, hop, hm, ht, Bool.false_eq_true, if_false, if_true]

end Execute

/-! ## MULTICAST_DELIVERY (R307) -/

section Deliver
variable {s s1 : State} {core chan t : Nat} {x x1 : Command}

/-- The multicast at the head of a channel steps to its next boundary on its first target, with nothing in its way. -/
def portionSteps (s : State) (core chan t : Nat) (x : Command) (s1 : State) (x1 : Command) : Prop :=
  headCommand s core chan = some x ∧ x.waiting = false ∧ (∃ ts, x.targets = t :: ts) ∧ x.moved = false ∧
    runPieces core t (readDesc x.op x.desc) (nextStop (readDesc x.op x.desc) x.progress) 4096 s x = (.ok, s1, x1) ∧
    x1.moved = false

theorem exec_multicast_goes (h : portionSteps s core chan t x s1 x1) (hlt : x1.progress < (readDesc x.op x.desc).total) :
    exec (.multicastDelivery core chan t) s = .next ((setHead (unrefuse s1 x1.uid x1.tag) core chan x1).schedule
      (stepClocks (readDesc x.op x.desc) x1.progress) (.multicastDelivery core chan t)) := by
  obtain ⟨hh, hw, ⟨ts, ht⟩, hmoved, hp, hx1⟩ := h
  change Host.Outcome.next (multicastLand core chan t s) = _
  unfold multicastLand
  rw [hh]
  simp [hw, ht, stepPieces_unmoved hmoved hp, commandWait, hx1, hlt]

/-- A multicast's portion on a target is done: the target gives way to the next, and its core is in MASK. -/
def portionDone (x : Command) (t : Nat) (taken : Bool) : Command :=
  { x with targets := x.targets.drop 1, progress := 0, moved := false, mask := x.mask + 2 ^ (t % 8)
           status := if taken then x.status else Cause.barrierMisuse.code }

/-- The follow-on fill that a whole portion of a CPYMC raises on its target (R285). -/
def portionFill (s : State) (x x2 : Command) (t : Nat) : State :=
  let d := readDesc x.op x.desc
  if x.op = opCpymc ∧ d.total ≤ x2.progress then fillStage s t x.lid x.bid x.run (d.dst.toNat % 2 ^ 20) else s

/-- The command goes on to its next target, or ends. -/
def nextTarget (s : State) (core chan : Nat) (d : CopyDesc) (x3 : Command) : State :=
  match x3.targets with
  | [] => (setHead s core chan x3).schedule 0 (.copyCommandEnd core chan)
  | u :: _ => (setHead s core chan x3).schedule (moveClocks (nextStop d 0)) (.multicastDelivery core chan u)

theorem exec_multicast_lands {b : Block} {s3 : State} {taken : Bool} (h : portionSteps s core chan t x s1 x1)
    (hle : (readDesc x.op x.desc).total ≤ x1.progress) (hb : s1.block? x.lid x.bid x.run = some b) :
    let x2 := stopStatus x1 .ok
    let s2 := performEngine s1 x2 3 (writtenLines s1 x2 core t)
    deliverArms x2 t b (committedArms s2 core t x.tag) s2 = .done s3 taken →
    exec (.multicastDelivery core chan t) s =
      .next (nextTarget (portionFill s3 x x2 t) core chan (readDesc x.op x.desc) (portionDone x2 t taken)) := by
  intro x2 s2 hd
  obtain ⟨hh, hw, ⟨ts, ht⟩, hmoved, hp, hx1⟩ := h
  have hnlt : ¬ x1.progress < (readDesc x.op x.desc).total := Nat.not_lt_of_le hle
  change Host.Outcome.next (multicastLand core chan t s) = _
  unfold multicastLand
  rw [hh]
  simp only [hw, ht, stepPieces_unmoved hmoved hp, commandWait, hx1, hnlt, hb, List.head?_cons, bne_self_eq_false,
    Bool.or_self, Bool.false_eq_true, if_false, decide_false, Bool.and_false, Bool.not_false]
  rw [hd]
  simp only [portionFill, Bool.and_eq_true, decide_eq_true_eq]
  rfl

end Deliver

/-! ## COPY_COMMAND_END (R304, R318, R321) -/

section Done
variable {s : State} {core chan : Nat} {x : Command}

/-- A command's words count with its wave's (R362), and the time of its refusals ends (R355). -/
def wordsCounted (s : State) (x : Command) : State :=
  (unrefuse s x.uid x.tag).modAny x.uid fun w => { w with ownSS := w.ownSS + x.ss }

/-- A command's release performs the lines it wrote at a scope; a multicast's portions were performed as they landed (R112). -/
def writesPerformed (s : State) (core : Nat) (x : Command) (scope : Nat) : State :=
  if isMulticast x.op then wordsCounted s x
  else performEngine (wordsCounted s x) x scope (writtenLines (wordsCounted s x) x core core)

/-- The scope of a completion record, and of a neighbour copy's (R112, R310). -/
def leastScope (x : Command) : Nat := if x.op = opCpyn then 3 else 2

/-- A command leaves its channel, and its record is posted unless NOREC. -/
def commandLeaves (s : State) (core chan : Nat) (x : Command) : State :=
  if (readDesc x.op x.desc).norec then popCommand s core chan
  else postRecord (popCommand s core chan) core x.lid x.bid x.run (w64 (recordOf x))

theorem commandDone_unbarred (hop : x.op ≠ opHalo) : commandDone s core chan x none =
    commandLeaves (if (readDesc x.op x.desc).norec then wordsCounted s x else writesPerformed s core x (leastScope x))
      core chan x := by
  have hne : (x.op == opHalo) = false := by simpa using hop
  unfold commandDone commandLeaves writesPerformed wordsCounted leastScope
  simp only [hop, hne, decide_false, Bool.false_or, Bool.false_and, Bool.false_eq_true, if_false]
  cases (readDesc x.op x.desc).norec <;> cases isMulticast x.op <;> rfl

theorem commandDone_barred (hop : x.op ≠ opHalo) (n : Nat) : commandDone s core chan x (some n) =
    commandLeaves (writesPerformed s core x (Nat.max (leastScope x) n)) core chan x := by
  have hne : (x.op == opHalo) = false := by simpa using hop
  unfold commandDone commandLeaves writesPerformed wordsCounted leastScope
  simp only [hop, hne, decide_false, Bool.false_or, Bool.false_and, Bool.false_eq_true, if_false]
  cases (readDesc x.op x.desc).norec <;> cases isMulticast x.op <;> rfl

theorem commandDone_halo (hop : x.op = opHalo) (scope : Option Nat) : commandDone s core chan x scope =
    postRecord (popCommand (if x.status = Cause.fabricDown.code then fabricDown (wordsCounted s x) x.lid
      else wordsCounted s x) core chan) core x.lid x.bid x.run (w64 (recordOf x)) := by
  unfold commandDone wordsCounted
  simp only [hop, beq_self_eq_true, decide_true, Bool.true_or, Bool.true_and, if_true, beq_iff_eq]

theorem fillOnce_command (s : State) (core chan : Nat) (x : Command) :
    (fillOnce s core chan x).2 = { x with filled := true } := by
  unfold fillOnce
  split
  · next h => rw [← h]
  · rfl

end Done

section End
variable {s : State} {core chan : Nat} {x : Command} {b : Block}

/-- A command that can end: the head of its channel, started, and not waiting, of a block that is there. -/
def mayEnd (s : State) (core chan : Nat) (x : Command) (b : Block) : Prop :=
  headCommand s core chan = some x ∧ x.waiting = false ∧ x.started = true ∧ s.block? x.lid x.bid x.run = some b

/-- What a command's end makes of the arrival on its completion barrier. -/
def endArrived (core chan : Nat) (x : Command) (bar : Word) : EngineArrival → State
  | .stopped s2 e => (commandWait s2 core chan x (.copyCommandEnd core chan) (pieceStop (.inl e))).getD
      (commandDone s2 core chan { x with status := (match pieceStop (.inl e) with | .cause c => c.code | _ => x.status) } none)
  | .notTaken s2 => commandDone s2 core chan { x with status := Cause.barrierMisuse.code } none
  | .performed s2 =>
    let word := if selector bar = 0 then ssWord (bar.toNat % 2 ^ 52) 1 else 0
    commandDone s2 core chan { x with ss := x.ss + w64 word } (some (barrierScope s2 (commandWave x core) bar))

theorem exec_commandEnd_unbarred (h : mayEnd s core chan x b) (hbar : x.op = opHalo ∨ (readDesc x.op x.desc).barrier = 0) :
    exec (.copyCommandEnd core chan) s =
      .next (commandDone (fillOnce s core chan x).1 core chan { x with filled := true } none) := by
  obtain ⟨hh, hw, hs, hb⟩ := h
  have hzero : (if x.op = opHalo then 0 else (readDesc x.op x.desc).barrier) = 0 := by
    rcases hbar with hop | hz
    · exact if_pos hop
    · rw [hz, ite_self]
  change Host.Outcome.next (commandEnd core chan s) = _
  unfold commandEnd
  rw [hh]
  refine congrArg Host.Outcome.next ((if_neg (by rw [hw, hs]; exact Bool.false_ne_true)).trans ?_)
  rw [hb, ← fillOnce_command s core chan x]
  exact if_pos hzero

/-- A command with no barrier to arrive on leaves its channel. -/
theorem exec_commandEnd_leaves (h : mayEnd s core chan x b) (hop : x.op ≠ opHalo)
    (hbar : (readDesc x.op x.desc).barrier = 0) :
    let q := (fillOnce s core chan x).1
    let y := { x with filled := true }
    exec (.copyCommandEnd core chan) s = .next (commandLeaves
      (if (readDesc x.op x.desc).norec then wordsCounted q y else writesPerformed q core y (leastScope x)) core chan y) := by
  intro q y
  rw [exec_commandEnd_unbarred h (.inr hbar)]
  exact congrArg Host.Outcome.next (commandDone_unbarred (x := y) hop)

theorem exec_commandEnd_arrived {r : EngineArrival} (h : mayEnd s core chan x b) (hop : x.op ≠ opHalo)
    (hbar : (readDesc x.op x.desc).barrier ≠ 0) :
    let q := (fillOnce s core chan x).1
    engineArrive q b core (readDesc x.op x.desc).barrier false (x.older q (q.waveAsid (commandWave x core))) = r →
    exec (.copyCommandEnd core chan) s =
      .next (endArrived core chan { x with filled := true } (readDesc x.op x.desc).barrier r) := by
  obtain ⟨hh, hw, hs, hb⟩ := h
  rintro q rfl
  have hbarrier : (if x.op = opHalo then 0 else (readDesc x.op x.desc).barrier) = (readDesc x.op x.desc).barrier := if_neg hop
  have hq : fillOnce s core chan x = (q, { x with filled := true }) := Prod.ext rfl (fillOnce_command s core chan x)
  change Host.Outcome.next (commandEnd core chan s) = _
  unfold commandEnd
  rw [hh]
  refine congrArg Host.Outcome.next ((if_neg (by rw [hw, hs]; exact Bool.false_ne_true)).trans ?_)
  rw [hb]
  dsimp only
  rw [hbarrier]
  refine (if_neg hbar).trans ?_
  rw [hq]
  dsimp only
  cases engineArrive q b core (readDesc x.op x.desc).barrier false (x.older q (q.waveAsid (commandWave x core))) <;> rfl

/-- What stops the arrival is the command's own wait: it ends later, and nothing of its end is done yet. -/
theorem endArrived_waits {s2 t : State} {e : XStop} {bar : Word}
    (h : commandWait s2 core chan x (.copyCommandEnd core chan) (pieceStop (.inl e)) = some t) :
    endArrived core chan x bar (.stopped s2 e) = t := by
  unfold endArrived
  dsimp only
  rw [h]
  rfl

/-- A command that has arrived on its completion barrier: the arrival's word counts where the barrier is in global memory
(R358). -/
def arrivedCommand (x : Command) : Command :=
  let bar := (readDesc x.op x.desc).barrier
  { x with filled := true, ss := x.ss + w64 (if selector bar = 0 then ssWord (bar.toNat % 2 ^ 52) 1 else 0) }

section Arrival
variable {s2 : State} (h : mayEnd s core chan x b) (hop : x.op ≠ opHalo) (hbar : (readDesc x.op x.desc).barrier ≠ 0)
include h hop hbar

theorem exec_commandEnd_performed :
    let q := (fillOnce s core chan x).1
    engineArrive q b core (readDesc x.op x.desc).barrier false (x.older q (q.waveAsid (commandWave x core))) = .performed s2 →
    exec (.copyCommandEnd core chan) s = .next (commandLeaves (writesPerformed s2 core (arrivedCommand x)
      (Nat.max (leastScope x) (barrierScope s2 (commandWave x core) (readDesc x.op x.desc).barrier))) core chan
        (arrivedCommand x)) := by
  intro q hr
  rw [exec_commandEnd_arrived h hop hbar hr]
  exact congrArg Host.Outcome.next (commandDone_barred (x := arrivedCommand x) hop _)

theorem exec_commandEnd_notTaken :
    let q := (fillOnce s core chan x).1
    let y := { x with filled := true, status := Cause.barrierMisuse.code }
    engineArrive q b core (readDesc x.op x.desc).barrier false (x.older q (q.waveAsid (commandWave x core))) = .notTaken s2 →
    exec (.copyCommandEnd core chan) s = .next (commandLeaves
      (if (readDesc x.op x.desc).norec then wordsCounted s2 y else writesPerformed s2 core y (leastScope x)) core chan y) := by
  intro q y hr
  rw [exec_commandEnd_arrived h hop hbar hr]
  exact congrArg Host.Outcome.next (commandDone_unbarred (x := y) hop)

/-- An arrival that is stopped makes the command wait: it ends later. -/
theorem exec_commandEnd_waits {t : State} {e : XStop} :
    let q := (fillOnce s core chan x).1
    engineArrive q b core (readDesc x.op x.desc).barrier false (x.older q (q.waveAsid (commandWave x core))) = .stopped s2 e →
    commandWait s2 core chan { x with filled := true } (.copyCommandEnd core chan) (pieceStop (.inl e)) = some t →
    exec (.copyCommandEnd core chan) s = .next t := by
  intro q hr hw
  rw [exec_commandEnd_arrived h hop hbar hr, endArrived_waits hw]

end Arrival

end End

end Sys2Proof.Machine
end

section
/-! PROOF. Halo faces sent and received, and halo windows (O42: R311, R314, R323). -/

namespace Sys2Proof.Machine

/-! ## HALO (R314, R323) -/

section Halo
variable {s s1 : State} {core chan : Nat} {x x1 : Command}

/-- The agent of a HALO: it reads its faces on the FB path. -/
def haloActor (s : State) (x : Command) (core : Nat) : Actor := { commandActor s x core with agent := .fabric }

/-- The word of SS that a HALO forms at every level (R358, R362). -/
def haloWord (x : Command) : Nat := ssWord x.descAddr.toNat x.faceMask

theorem exec_halo_eq (hh : headCommand s core chan = some x) (hw : x.waiting = false) (hop : x.op = opHalo) :
    exec (.copyCommandExecute core chan) s = .next (runHalo s core chan x) := by
  change Host.Outcome.next (copyExecute core chan s) = _
  unfold copyExecute
  rw [hh]
  exact congrArg Host.Outcome.next ((if_neg (by rw [hw]; exact Bool.false_ne_true)).trans (if_pos hop))

theorem runHalo_sends (hA : (haloActor s x core).held = false)
    (hr : runFaces (haloActor s x core) (setBits 16 x.faceMask) s { x with started := true } = (.ok, s1, x1)) :
    runHalo s core chan x = (setHead (addSS s1 (haloActor s x core) (haloWord x)) core chan
      (stopStatus { x1 with ss := w64 (haloWord x) } .ok)).schedule (moveClocks 0) (.copyCommandEnd core chan) := by
  unfold haloActor at hA hr
  unfold runHalo
  refine (if_neg (by rw [hA]; exact Bool.false_ne_true)).trans ?_
  rw [hr]
  rfl

theorem runHalo_holds {data : List (List Byte)} (hA : (haloActor s x core).held = true)
    (hr : readFaces (haloActor s x core) x.table (setBits 16 x.faceMask) s = (.ok data, s1)) :
    runHalo s core chan x = (setHead (addSS (fillHalo s1 core x (some data)) (haloActor s x core) (haloWord x)) core chan
      { x with mask := x.faceMask, ss := w64 (haloWord x), started := true, moved := true }).schedule (moveClocks 0)
        (.copyCommandEnd core chan) := by
  unfold haloActor at hA hr
  unfold runHalo
  refine (if_pos hA).trans ?_
  rw [hr]
  rfl

end Halo

/-! ## Faces sent (R314) -/

section Faces
variable {s s1 s2 : State} {A : Actor} {x : Command} {f : Nat} {fs : List Nat}

theorem runFaces_skips (h : f < x.progress) : runFaces A (f :: fs) s x = runFaces A fs s x := if_pos h

/-- A face's outcome in its command: a failing one is kept with its cause, and one that arrived is in MASK. -/
theorem noteFace_eq (x : Command) (f code : Nat) : noteFace x f code =
    let failed := if code = 0 then x.failed else mput x.failed f code
    { x with
      failed := failed
      mask := if code = 0 ∨ code = Cause.barrierMisuse.code then x.mask + 2 ^ f else x.mask
      status := if code = 0 then x.status else (failed.head?.map Prod.snd).getD 0 } := by
  unfold noteFace
  by_cases hz : code = 0
  · simp [hz]
  · simp only [hz, decide_false, Bool.false_or, decide_eq_true_eq, false_or, if_false]
    split <;> rfl

theorem runFaces_sends {data : List Byte} {code : Nat} (h : x.progress ≤ f)
    (hd : faceRows s A (readFace x.table f) (readFace x.table f).rows 0 = (.ok data, s1))
    (hs : sendFace s1 (some x.uid) (readFace x.table f) data = .answered code s2) :
    runFaces A (f :: fs) s x = runFaces A fs s2 { noteFace x f code with progress := f + 1 } := by
  change (if f < x.progress then _ else _) = _
  rw [if_neg (Nat.not_lt_of_le h)]
  dsimp only
  rw [hd]
  dsimp only
  rw [hs]

variable {who : Option Nat} {face : Face} {data : List Byte}

theorem sendFace_down (h : isMember s face.chip = false ∨ face.chip ∈ s.linksLost) :
    sendFace s who face data = .answered Cause.fabricDown.code s := by
  unfold sendFace
  exact if_pos (by simpa using h)

theorem sendFace_own (hm : isMember s face.chip = true) (hl : face.chip ∉ s.linksLost) (hc : face.chip = s.canopy.chip) :
    sendFace s who face data =
      receiveFace s who face.window face.len face.rows face.dOff face.dPitch face.sig face.barOff data := by
  unfold sendFace
  rw [if_neg (by simpa [hm] using hl), if_pos hc]

/-- A peer answers as it does, which nothing constrains but the face: only a signalling one is refused its barrier. -/
theorem sendFace_peer (hm : isMember s face.chip = true) (hl : face.chip ∉ s.linksLost) (hc : face.chip ≠ s.canopy.chip) :
    ∃ code, (code = 0 ∨ code = Cause.haloTable.code ∨ (face.sig = true ∧ code = Cause.barrierMisuse.code)) ∧
      sendFace s who face data = .answered code { s with
        haloAsked := s.haloAsked + 1
        haloSent := s.haloSent ++
          [(face.chip, face.window, face.dOff, data, if face.sig then some face.barOff else none)] } := by
  unfold sendFace
  rw [if_neg (by simpa [hm] using hl), if_neg hc]
  dsimp only
  split
  · exact ⟨_, .inl rfl, rfl⟩
  · exact ⟨_, .inr (.inl rfl), rfl⟩
  · cases hsig : face.sig
    · exact ⟨_, .inl rfl, rfl⟩
    · exact ⟨_, .inr (.inr ⟨rfl, rfl⟩), rfl⟩

end Faces

/-! ## Faces received (R311, R314) -/

section Receive
variable {s s1 s3 : State} {win len rows dOff dPitch barOff : Nat} {sig : Bool} {data : List Byte}

/-- The span of a face at its window. -/
def faceSpan (len rows dPitch : Nat) : Nat := spanOf rows (if rows = 1 then 0 else dPitch) len

/-- The ranges of a face's rows in its window's space. -/
def faceRanges (h : HaloWindow) (len rows dOff dPitch : Nat) : List (Nat × Nat) :=
  (List.range rows).map fun r => (h.base + dOff + r * (if rows = 1 then 0 else dPitch), len)

/-- The pages and lines a face's ranges are translated by. -/
def faceParts (h : HaloWindow) (len rows dOff dPitch : Nat) (ranges : List (Nat × Nat)) : List (Nat × Nat) :=
  pageChecks (h.base + dOff) (faceSpan len rows dPitch) ++ ranges.flatMap fun x => partsOf x.1 x.2

/-- A face's rows written. -/
def faceWritten (s : State) (a : Actor) (h : HaloWindow) (len rows dOff dPitch : Nat) (data : List Byte) : State :=
  (List.range rows).foldl (fun q r =>
    (writeVirt q a (h.base + dOff + r * (if rows = 1 then 0 else dPitch)) (slice data (r * len) len)).2) s

theorem exec_faceReceive {q : State} {code : Nat}
    (h : receiveFace s none win len rows dOff dPitch sig barOff data = .answered code q) :
    exec (.haloFaceReceive win len rows dOff dPitch sig barOff data) s =
      .next { q with haloAnswers := q.haloAnswers ++ [code] } := by
  change Host.Outcome.next (takeFace s _) = _
  unfold takeFace
  rw [h]

theorem receiveFace_noWindow (h : mfind s.haloWindows win = none) (who : Option Nat) :
    receiveFace s who win len rows dOff dPitch sig barOff data = .answered Cause.haloTable.code s := by
  unfold receiveFace
  rw [h]

/-- A window refuses a face: it is not enabled, of another group or of no context, or the face leaves it. -/
def refusesFace (s : State) (h : HaloWindow) (span dOff : Nat) (sig : Bool) (barOff : Nat) : Prop :=
  h.enabled = false ∨ h.len < dOff + span ∨ (sig = true ∧ h.len < barOff + 16) ∨ s.ctx? h.owner h.ctx = none ∨
    otherGroup s h = true

theorem receiveFace_refused {h : HaloWindow} (hwin : mfind s.haloWindows win = some h)
    (hr : refusesFace s h (faceSpan len rows dPitch) dOff sig barOff) (who : Option Nat) :
    receiveFace s who win len rows dOff dPitch sig barOff data = .answered Cause.haloTable.code s := by
  unfold receiveFace
  rw [hwin]
  dsimp only
  cases hc : s.ctx? h.owner h.ctx with
  | none => rfl
  | some c =>
    refine if_pos ?_
    simp only [Bool.or_eq_true, Bool.not_eq_true', Bool.and_eq_true, decide_eq_true_eq]
    unfold refusesFace faceSpan at hr
    rw [hc] at hr
    tauto

/-- A face's barrier in its window is arrived on, once its rows are written (R311). -/
def faceArrives (s : State) (who : Option Nat) (h : HaloWindow) (asid barOff : Nat) (ranges : List (Nat × Nat)) : FaceOut :=
  let a := plainActor .fabric asid
  match objOfLoc s a { space := .global asid, addr := h.base + barOff } with
  | (none, s3) => .answered 0 s3
  | (some o, s3) =>
    if (readBarrier s3 a o).kind = 1 then .answered Cause.barrierMisuse.code s3
    else match arriveAt s3 a none (fabricBlock h.owner h.ctx) o 1 0 0 with
      | some s4 => .answered 0 (pinFace s4 who (ranges.flatMap fun x => targetLines asid (.global x.1) x.2))
      | none => .answered Cause.barrierMisuse.code s3

section Admitted
variable {h : HaloWindow} {c : Context} {ps : List (Nat × Nat × Nat)} {who : Option Nat}

/-- A window takes a face: enabled, of this group and of a context, and with the face and its barrier in it. -/
def takesFace (s : State) (h : HaloWindow) (c : Context) (span dOff : Nat) (sig : Bool) (barOff : Nat) : Prop :=
  h.enabled = true ∧ otherGroup s h = false ∧ dOff + span ≤ h.len ∧ (sig = true → barOff + 16 ≤ h.len) ∧
    s.ctx? h.owner h.ctx = some c

theorem receiveFace_admitted (hwin : mfind s.haloWindows win = some h)
    (ht : takesFace s h c (faceSpan len rows dPitch) dOff sig barOff) (who : Option Nat) :
    let a := plainActor .fabric c.asid
    let ranges := faceRanges h len rows dOff dPitch ++ if sig then [(h.base + barOff, 16)] else []
    xlateParts s a .write (faceParts h len rows dOff dPitch ranges) = (.ok ps, s1) →
    receiveFace s who win len rows dOff dPitch sig barOff data =
      if ranges.any fun x => sealedRange s c.asid x.1 x.2 then .answered Cause.haloTable.code s
      else
        let q := faceWritten s1 a h len rows dOff dPitch data
        if sig then faceArrives q who h c.asid barOff ranges else .answered 0 q := by
  intro a ranges hx
  obtain ⟨hen, hgr, hlen, hbar, hc⟩ := ht
  have hfits : ¬ (!h.enabled || otherGroup s h || decide (h.len < dOff + faceSpan len rows dPitch) ||
      (sig && decide (h.len < barOff + 16))) = true := by
    simp only [hen, hgr, Bool.not_true, Bool.or_self, Bool.false_or, Bool.or_eq_true, decide_eq_true_eq, Bool.and_eq_true]
    rintro (hlt | ⟨hs, hlt⟩)
    · exact Nat.not_lt_of_le hlen hlt
    · exact Nat.not_lt_of_le (hbar hs) hlt
  unfold receiveFace
  rw [hwin]
  dsimp only
  rw [hc]
  refine (if_neg hfits).trans ?_
  dsimp only [a, ranges, faceParts, faceSpan, faceRanges] at hx
  rw [hx]
  cases sig <;> rfl

theorem not_sealed {asid : Nat} {ranges : List (Nat × Nat)} (hs : ∀ x ∈ ranges, sealedRange s asid x.1 x.2 = false) :
    ¬ (ranges.any fun x => sealedRange s asid x.1 x.2) = true := by
  simpa using hs

/-- A face that signals nothing is written whole, or refused whole at a sealed region. -/
theorem receiveFace_rows (hwin : mfind s.haloWindows win = some h)
    (ht : takesFace s h c (faceSpan len rows dPitch) dOff false barOff)
    (hx : xlateParts s (plainActor .fabric c.asid) .write
      (faceParts h len rows dOff dPitch (faceRanges h len rows dOff dPitch)) = (.ok ps, s1)) (who : Option Nat) :
    receiveFace s who win len rows dOff dPitch false barOff data =
      if (faceRanges h len rows dOff dPitch).any fun x => sealedRange s c.asid x.1 x.2 then .answered Cause.haloTable.code s
      else .answered 0 (faceWritten s1 (plainActor .fabric c.asid) h len rows dOff dPitch data) := by
  have heq := receiveFace_admitted (s1 := s1) (ps := ps) (data := data) hwin ht who
  simp only [Bool.false_eq_true, if_false, List.append_nil] at heq
  exact heq hx

theorem receiveFace_signals (hwin : mfind s.haloWindows win = some h)
    (ht : takesFace s h c (faceSpan len rows dPitch) dOff true barOff) (who : Option Nat) :
    let ranges := faceRanges h len rows dOff dPitch ++ [(h.base + barOff, 16)]
    xlateParts s (plainActor .fabric c.asid) .write (faceParts h len rows dOff dPitch ranges) = (.ok ps, s1) →
    (∀ x ∈ ranges, sealedRange s c.asid x.1 x.2 = false) →
    receiveFace s who win len rows dOff dPitch true barOff data =
      faceArrives (faceWritten s1 (plainActor .fabric c.asid) h len rows dOff dPitch data) who h c.asid barOff ranges := by
  intro ranges hx hs
  exact (receiveFace_admitted hwin ht who hx).trans (if_neg (not_sealed hs))

variable {asid : Nat} {ranges : List (Nat × Nat)} {o : ObjAt} {s4 : State}

theorem faceArrives_misused (ho : objOfLoc s (plainActor .fabric asid) { space := .global asid, addr := h.base + barOff } =
      (some o, s3))
    (hb : (readBarrier s3 (plainActor .fabric asid) o).kind = 1 ∨
      arriveAt s3 (plainActor .fabric asid) none (fabricBlock h.owner h.ctx) o 1 0 0 = none) :
    faceArrives s who h asid barOff ranges = .answered Cause.barrierMisuse.code s3 := by
  unfold faceArrives
  dsimp only
  rw [ho]
  dsimp only
  split
  · rfl
  · next hk => rw [hb.resolve_left hk]

theorem faceArrives_arrives (ho : objOfLoc s (plainActor .fabric asid) { space := .global asid, addr := h.base + barOff } =
      (some o, s3))
    (hk : (readBarrier s3 (plainActor .fabric asid) o).kind ≠ 1)
    (ha : arriveAt s3 (plainActor .fabric asid) none (fabricBlock h.owner h.ctx) o 1 0 0 = some s4) :
    faceArrives s none h asid barOff ranges = .answered 0 s4 := by
  unfold faceArrives
  dsimp only
  rw [ho]
  refine (if_neg hk).trans ?_
  rw [ha]
  rfl

end Admitted

end Receive

/-! ## Halo windows (R311) -/

section Window
variable {s : State} {fn : Nat} {v : Word}

/-- The window a write of HWCTL selects, with the context it names. -/
def namedWindow (s : State) (fn : Nat) (v : Word) : HaloWindow := { selectedWindow s fn with ctx := v.toNat % 16, owner := fn }

theorem exec_windowEnable_enabled (he : (selectedWindow s fn).enabled = true) : exec (.haloWindowEnable fn v) s =
    .next (if (selectedWindow s fn).owner = fn then s else setWindowErr s fn true) :=
  congrArg Host.Outcome.next (if_pos he)

/-- A window can be enabled: for a context that is there, with a length, and below 2^52. -/
def enables (s : State) (fn : Nat) (h : HaloWindow) : Prop :=
  (s.ctx? fn h.ctx).isSome = true ∧ h.len ≠ 0 ∧ h.base + h.len ≤ 2 ^ 52

theorem exec_windowEnable_disabled (he : (selectedWindow s fn).enabled = false) :
    (enables s fn (namedWindow s fn v) → exec (.haloWindowEnable fn v) s =
      .next (setWindowErr (setWindow s fn { namedWindow s fn v with
        enabled := true, group := if 2 ≤ s.canopy.state then some s.canopy.group else none }) fn false)) ∧
    (¬ enables s fn (namedWindow s fn v) → exec (.haloWindowEnable fn v) s =
      .next (setWindowErr (setWindow s fn (namedWindow s fn v)) fn true)) := by
  have hctx : bits v.toNat 0 4 = v.toNat % 16 := by simp [bits]
  have hrefused : ((s.ctx? fn (namedWindow s fn v).ctx).isNone || decide ((namedWindow s fn v).len = 0) ||
      decide (2 ^ 52 < (namedWindow s fn v).base + (namedWindow s fn v).len)) = true ↔ ¬ enables s fn (namedWindow s fn v) := by
    unfold enables
    rw [← Nat.not_lt]
    cases s.ctx? fn (namedWindow s fn v).ctx <;> simp [or_iff_not_imp_left]
  change (_ → execHaloWindowEnable fn v s = _) ∧ (_ → execHaloWindowEnable fn v s = _)
  unfold execHaloWindowEnable
  dsimp only
  rw [if_neg (by rw [he]; exact Bool.false_ne_true), hctx]
  exact ⟨fun h => congrArg Host.Outcome.next (if_neg fun hn => hrefused.mp hn h),
    fun h => congrArg Host.Outcome.next (if_pos (hrefused.mpr h))⟩

theorem exec_windowDisable : exec (.haloWindowDisable fn) s =
    .next (if (selectedWindow s fn).owner = fn ∧ (selectedWindow s fn).enabled = true then
      setWindow s fn { selectedWindow s fn with enabled := false } else s) := by
  change execHaloWindowDisable fn s = _
  unfold execHaloWindowDisable
  simp only [Bool.and_eq_true, decide_eq_true_eq]

end Window

/-- Settles O42: a command's step, delivery and end by what their pieces and arrivals come to; faces by what is sent, received
and answered. -/
theorem copyCommandsAndHaloWindows : Obligations.CopyCommandsAndHaloWindows := by
  unfold Obligations.CopyCommandsAndHaloWindows
  refine ⟨fun s core chan x hh hw hop => ?_, ⟨fun s core chan x hh hw hop => ?_, fun s A x f fs => ?_, fun s who f data => ?_⟩,
    fun s win len rows dOff dPitch barOff sig data => ?_, fun s chip => rfl, fun s fn v => ?_⟩
  · intro d total stop clocks go
    refine ⟨fun s1 x1 hm hmv hp => ?_, fun out s1 x1 hm hmv hp => ?_, fun hm ht => exec_multicast_noTarget hh hw hop hm ht,
      fun t ts hm ht => ⟨exec_multicast_target hh hw hop hm ht, fun s1 x1 hmv hp hx1 => ?_⟩, fun b hs hb => ?_⟩
    · have hstep : copySteps s core chan x .ok s1 x1 := ⟨hh, hw, hop, hm, hmv, hp⟩
      exact ⟨exec_copyStep_goes hstep, fun hle => exec_copyStep_ends hstep rfl fun _ => hle⟩
    · have hstep : copySteps s core chan x out s1 x1 := ⟨hh, hw, hop, hm, hmv, hp⟩
      refine ⟨?_, ?_, ?_⟩
      · rintro c rfl
        exact exec_copyStep_ends hstep rfl fun h => nomatch h
      · rintro f rfl
        exact exec_copyStep_waits hstep rfl
      · rintro rfl
        exact exec_copyStep_waits hstep rfl
    · have hstep : portionSteps s core chan t x s1 x1 := ⟨hh, hw, ⟨ts, ht⟩, hmv, hp, hx1⟩
      exact ⟨exec_multicast_goes hstep, fun hle b hb s3 taken => exec_multicast_lands hstep hle hb⟩
    · have hend : mayEnd s core chan x b := ⟨hh, hw, hs, hb⟩
      have hleaves := exec_commandEnd_leaves hend hop
      have hperformed := fun s2 hnz => exec_commandEnd_performed (s2 := s2) hend hop hnz
      have hrefused := fun s2 hnz => exec_commandEnd_notTaken (s2 := s2) hend hop hnz
      have hwaits := fun s2 t e hnz => exec_commandEnd_waits (s2 := s2) (t := t) (e := e) hend hop hnz
      have hfilled := fillOnce_command s core chan x
      generalize fillOnce s core chan x = q at hleaves hperformed hrefused hwaits hfilled ⊢
      obtain ⟨q1, q2⟩ := q
      obtain rfl : q2 = { x with filled := true } := hfilled
      exact ⟨hleaves, fun hnz => ⟨fun s2 => hperformed s2 hnz, fun s2 => hrefused s2 hnz,
        fun s2 f ⟨y, ho, hy⟩ => hwaits s2 _ y hnz ho (by rw [hy]; rfl),
        fun s2 ⟨y, ho, hy⟩ => hwaits s2 _ y hnz ho (by rw [hy]; rfl)⟩⟩
  · intro A ss faces event
    refine ⟨fun s1 x1 hA hr => (exec_halo_eq hh hw hop).trans (congrArg Host.Outcome.next (runHalo_sends hA hr)),
      fun data s1 hA hr => (exec_halo_eq hh hw hop).trans (congrArg Host.Outcome.next (runHalo_holds hA hr)), fun b hs hb => ?_⟩
    have hend := exec_commandEnd_unbarred ⟨hh, hw, hs, hb⟩ (.inl hop)
    have hfilled := fillOnce_command s core chan x
    generalize fillOnce s core chan x = q at hend hfilled ⊢
    obtain ⟨q1, q2⟩ := q
    obtain rfl : q2 = { x with filled := true } := hfilled
    exact hend.trans (congrArg Host.Outcome.next (commandDone_halo hop none))
  · refine ⟨runFaces_skips, fun hle data s1 code s2 hd hs => ?_⟩
    rw [runFaces_sends hle hd hs, noteFace_eq]
  · exact ⟨sendFace_down, sendFace_own, sendFace_peer⟩
  · intro pitch span answer
    refine ⟨fun hn => exec_faceReceive (receiveFace_noWindow hn none), fun h hwin =>
      ⟨fun hr => exec_faceReceive (receiveFace_refused hwin hr none), ?_, ?_⟩⟩
    · rintro c ps s1 hen hgr hlen rfl hc ranges a hx
      have hface := receiveFace_rows (data := data) (barOff := barOff) hwin
        ⟨hen, hgr, hlen, fun hf => absurd hf Bool.false_ne_true, hc⟩ hx none
      exact ⟨fun hs => exec_faceReceive (hface.trans (if_pos (List.any_eq_true.mpr hs))),
        fun hs => exec_faceReceive (hface.trans (if_neg (not_sealed hs)))⟩
    · rintro c ps s1 o s3 hen hgr hlen rfl hbar hc ranges a hx hs ho
      have hface := receiveFace_signals (data := data) hwin ⟨hen, hgr, hlen, fun _ => hbar, hc⟩ none hx hs
      exact ⟨fun hb => exec_faceReceive (hface.trans (faceArrives_misused ho hb)),
        fun s4 hk ha => exec_faceReceive (hface.trans (faceArrives_arrives ho hk ha))⟩
  · refine ⟨fun he ho => ?_, fun he ho => ?_, fun he hc hl hb => (exec_windowEnable_disabled he).1 ⟨hc, hl, hb⟩,
      fun he hr => (exec_windowEnable_disabled he).2 ?_, exec_windowDisable⟩
    · exact (exec_windowEnable_enabled he).trans (congrArg Host.Outcome.next (if_pos ho))
    · exact (exec_windowEnable_enabled he).trans (congrArg Host.Outcome.next (if_neg ho))
    · rintro ⟨hc, hl, hb⟩
      rcases hr with hr | hr | hr
      · rw [show s.ctx? fn (namedWindow s fn v).ctx = none from hr] at hc
        exact Bool.false_ne_true hc
      · exact hl hr
      · exact Nat.not_lt_of_le hb hr

end Sys2Proof.Machine
end

section
/-! PROOF. Branches, jumps, calls and returns (O23: R44, R142, R143, R144). -/

namespace Sys2Proof.Machine

/-! ## A branch and its path's lanes (R142) -/

section Branch
variable {s r : State} {e : Env} {i : Instr} {take : Mask} {target : Word} {w : Wave} {k : Nat}

/-- The lanes of the path that take a branch. -/
def takingLanes (e : Env) (take : Mask) : Mask := e.p.mask &&& take

/-- The lanes of the path that do not. -/
def stayingLanes (e : Env) (take : Mask) : Mask := e.p.mask &&& ~~~take

theorem and_not_and_self (m t : Mask) : m &&& ~~~(m &&& t) = m &&& ~~~t := by
  ext k hk
  simp only [BitVec.getElem_and, BitVec.getElem_not]
  cases m[k] <;> rfl

/-- The taking lanes are the smaller part of a split, or as many as the others. -/
abbrev takersLeave (e : Env) (take : Mask) : Prop := popc (takingLanes e take) ≤ popc (stayingLanes e take)

/-- The smaller part of a split, which becomes a path of its own. -/
def splitOff (e : Env) (r : State) (take : Mask) (target : Word) : Path :=
  { newPath (if takersLeave e take then target else e.next)
      (if takersLeave e take then takingLanes e take else stayingLanes e take) with
    safePoint := e.p.safePoint, inSave := e.p.inSave, resume := e.p.resume, lastIssue := r.clock, issued := true,
    taken := true, born := r.counter }

/-- The path once the smaller part has left it. -/
def splitRest (e : Env) (take : Mask) (target : Word) (p : Path) : Path :=
  { jump (if takersLeave e take then e.next else target) 0 p with
    mask := p.mask &&& ~~~(if takersLeave e take then takingLanes e take else stayingLanes e take) }

/-- Some lanes of the path take the branch, and some do not. -/
def splits (e : Env) (take : Mask) : Prop := takingLanes e take ≠ 0 ∧ stayingLanes e take ≠ 0

theorem branchRun_none (h : takingLanes e take = 0) :
    branchRun e r take target = .done (finished e (e.move r (goto e.next 0)) 1 []) :=
  if_pos h

theorem branchRun_all (ht : takingLanes e take ≠ 0) (hs : stayingLanes e take = 0) :
    branchRun e r take target = .done (finished e (e.move r (jump target 0)) 1 []) := by
  rw [stayingLanes, ← and_not_and_self] at hs
  exact (if_neg ht).trans (if_pos hs)

/-- Where the smaller part goes: a place of the wave, or the fragment stack (R142). -/
theorem branchRun_splits (h : splits e take) (hw : r.wave? e.w.uid = some w) :
    let r1 := { r with counter := r.counter + 1 }
    let q := splitOff e r take target
    let rest := w.modPath e.iss.place (splitRest e take target)
    let placed := fun k => e.noResult (r1.setWave { rest with places := mput rest.places k q })
    branchRun e r take target = match w.freeSlot with
      | some k => placed k
      | none => if w.held.isSome then .error r .doubleFault else
        match w.freeFragment with
        | some k => placed k
        | none => if 64 ≤ w.stack.length then .raise .fragmentOverflow else
          match pushRecord r1 w q with
          | (.error x, r2) => pathStop r2 x
          | (.ok _, r2) => e.noResult (r2.modWave w.uid fun y =>
              { (y.modPath e.iss.place (splitRest e take target)) with stack := q :: y.stack }) := by
  obtain ⟨ht, hs⟩ := h
  have hstay : e.p.mask &&& ~~~(e.p.mask &&& take) = stayingLanes e take := and_not_and_self _ _
  unfold branchRun
  dsimp only
  rw [hstay, if_neg (c := e.p.mask &&& take = 0) ht, if_neg hs, hw]
  simp only [decide_eq_true_eq] <;> rfl

/-- The wave with the path split, the smaller part in a place. -/
theorem branchRun_placed (h : splits e take) (hw : r.wave? e.w.uid = some w)
    (hk : w.freeSlot = some k ∨ (w.freeSlot = none ∧ w.held = none ∧ w.freeFragment = some k)) :
    let rest := w.modPath e.iss.place (splitRest e take target)
    branchRun e r take target = .done (finished e (({ r with counter := r.counter + 1 } : State).setWave
      { rest with places := mput rest.places k (splitOff e r take target) }) 1 []) := by
  rw [branchRun_splits h hw]
  rcases hk with hk | ⟨hs, hh, hk⟩
  · rw [hk]; rfl
  · rw [hs, hh, hk]; rfl

theorem branchRun_inHandler (h : splits e take) (hw : r.wave? e.w.uid = some w) (hs : w.freeSlot = none)
    (hh : w.held.isSome = true) : branchRun e r take target = .error r .doubleFault := by
  rw [branchRun_splits h hw, hs]
  exact if_pos hh

theorem branchRun_overflows (h : splits e take) (hw : r.wave? e.w.uid = some w) (hs : w.freeSlot = none)
    (hh : w.held = none) (hf : w.freeFragment = none) (hl : 64 ≤ w.stack.length) :
    branchRun e r take target = .raise .fragmentOverflow := by
  rw [branchRun_splits h hw, hs, hh, hf]
  exact if_pos hl

theorem branchRun_stacked {r2 : State} (h : splits e take) (hw : r.wave? e.w.uid = some w) (hs : w.freeSlot = none)
    (hh : w.held = none) (hf : w.freeFragment = none) (hl : w.stack.length < 64)
    (hp : pushRecord { r with counter := r.counter + 1 } w (splitOff e r take target) = (.ok (), r2)) :
    branchRun e r take target = .done (finished e (r2.modWave w.uid fun y =>
      { (y.modPath e.iss.place (splitRest e take target)) with stack := splitOff e r take target :: y.stack }) 1 []) := by
  rw [branchRun_splits h hw, hs, hh, hf]
  refine (if_neg (Nat.not_le_of_lt hl)).trans ?_
  rw [hp]
  rfl

/-! ## The branches (R143) -/

/-- The instruction comes down to a branch to a target, which some lanes take. -/
def branches (i : Instr) (s : State) (e : Env) (r : State) (take : Mask) (target : Word) : Prop :=
  i.takesLiteral = false ∧
    ∃ body, exec i s = runInstr i s body ∧ body e (past i s e) = branchRun e r take target

theorem exec_branch_done {t : State} (hi : Issues i s e) (hb : branches i s e r take target)
    (hr : branchRun e r take target = .done t) : exec i s = .next t := by
  obtain ⟨-, body, hexec, hbody⟩ := hb
  rw [hexec]
  exact runInstr_done hi.1 hi.2 (hbody.trans hr)

theorem exec_branch_inHandler (hi : Issues i s e) (hb : branches i s e r take target)
    (hr : branchRun e r take target = .error r .doubleFault) :
    exec i s = .next (waveError r e.w e.iss.bundle .doubleFault) := by
  obtain ⟨-, body, hexec, hbody⟩ := hb
  rw [hexec]
  exact runInstr_error hi (hbody.trans hr)

theorem exec_branch_overflows (hi : Issues i s e) (hb : branches i s e r take target)
    (hr : branchRun e r take target = .raise .fragmentOverflow) :
    exec i s = .next (takeTrap (account s e i.scalarForm) e false .fragmentOverflow none 0 0) := by
  obtain ⟨hl, body, hexec, hbody⟩ := hb
  rw [hexec, ← hl]
  exact runInstr_trap hi.1 hi.2 (hbody.trans hr)

/-- A sign-extended offset as a 64-bit word. -/
theorem sext_toNat {n : Nat} (x : BitVec n) : sext x.toNat n = x.signExtend 64 := by
  have hx : toSigned n x.toNat = x.toInt := by
    unfold toSigned
    rw [Nat.mod_eq_of_lt x.isLt, BitVec.toInt_eq_toNat_cond]
    cases n with
    | zero => have := x.isLt; simp_all
    | succ n => rw [Nat.add_sub_cancel, Nat.pow_succ]; split <;> split <;> omega
  unfold sext lowBits
  rw [hx, BitVec.signExtend]
  apply BitVec.eq_of_toNat_eq
  rw [BitVec.toNat_ofInt, BitVec.toNat_ofNat, Nat.mod_eq_of_lt (by omega)]

theorem Env.target_eq {n : Nat} (x : BitVec n) : e.target x.toNat n = e.iss.bundle + 16 * x.signExtend 64 := by
  unfold Env.target
  rw [sext_toNat]
  congr 1

variable {p u : OpCode} {far : BitVec 24} {near : BitVec 16}

theorem bra_branches : branches (.bra far) s e (past (.bra far) s e) e.p.mask (e.iss.bundle + 16 * far.signExtend 64) := by
  rw [← Env.target_eq]
  exact ⟨rfl, fun e s => branchRun e s e.p.mask (e.target far.toNat 24), rfl, rfl⟩

theorem brp_branches : branches (.brp p near) s e (emit (past (.brp p near) s e) e.w e.iss.place 2 0
      (predLanes e p).toNat e.iss.bundle.toNat) (predLanes e p) (e.iss.bundle + 16 * near.signExtend 64) := by
  rw [← Env.target_eq]
  exact ⟨rfl, fun e s => branchRun e (emit s e.w e.iss.place 2 0 (predLanes e p).toNat e.iss.bundle.toNat) (predLanes e p)
    (e.target near.toNat 16), rfl, rfl⟩

/-- The lanes that take a branch on a uniform operand: all or none (R143). -/
def uniformTakes (e : Env) (u : OpCode) : Mask := if e.u u = 0 then 0 else e.p.mask

theorem bru_branches : branches (.bru u near) s e (emit (past (.bru u near) s e) e.w e.iss.place 2 0
    (uniformTakes e u).toNat e.iss.bundle.toNat) (uniformTakes e u)
      (e.iss.bundle + 16 * near.signExtend 64) := by
  rw [← Env.target_eq]
  exact ⟨rfl, fun e s => branchRun e (emit s e.w e.iss.place 2 0 (uniformTakes e u).toNat e.iss.bundle.toNat)
    (uniformTakes e u) (e.target near.toNat 16), rfl, rfl⟩

end Branch

/-! ## Jumps, calls and returns (R144) -/

section Jump
variable {s r : State} {e : Env} {i : Instr} {t : Word} {ws : List RegWrite}

/-- The instruction moves its whole path to a target, leaving `r` and writing registers. -/
def jumps (i : Instr) (s : State) (e : Env) (r : State) (t : Word) (ws : List RegWrite) : Prop :=
  i.takesLiteral = false ∧ ∃ body indirect, exec i s = runInstr i s body ∧
    body e (past i s e) = jumpRun e (past i s e) t indirect ws ∧
    r = if indirect then emit (past i s e) e.w e.iss.place 2 1 0 t.toNat else past i s e

theorem targetCause_misaligned (h : t.toNat % 16 ≠ 0) : targetCause t = some .misaligned := if_pos h

theorem targetCause_illegal (h : t.toNat % 16 = 0) (hb : 2 ^ 52 ≤ t.toNat) : targetCause t = some .illegalAddress :=
  (if_neg (not_not_intro h)).trans (if_pos hb)

theorem targetCause_none (h : t.toNat % 16 = 0) (hb : t.toNat < 2 ^ 52) : targetCause t = none :=
  (if_neg (not_not_intro h)).trans (if_neg (Nat.not_le_of_lt hb))

theorem exec_jump_traps {c : Cause} (hi : Issues i s e) (hj : jumps i s e r t ws) (hc : targetCause t = some c) :
    exec i s = .next (takeTrap (account s e i.scalarForm) e false c none t 0) := by
  obtain ⟨hl, body, indirect, hexec, hbody, -⟩ := hj
  rw [hexec, ← hl]
  refine runInstr_trap hi.1 hi.2 (hbody.trans ?_)
  unfold jumpRun
  rw [hc]
  rfl

theorem exec_jump_moves (hi : Issues i s e) (hj : jumps i s e r t ws) (hc : targetCause t = none) :
    exec i s = .next (finished e (e.move r (jump t 0)) 1 ws) := by
  obtain ⟨-, body, indirect, hexec, hbody, rfl⟩ := hj
  rw [hexec]
  refine runInstr_done hi.1 hi.2 (hbody.trans ?_)
  unfold jumpRun
  rw [hc]
  rfl

variable {d a : OpCode} {near : BitVec 16}

theorem jmpi_jumps : jumps (.jmpi a) s e (emit (past (.jmpi a) s e) e.w e.iss.place 2 1 0 (e.u a).toNat) (e.u a) [] :=
  ⟨rfl, fun e s => jumpRun e s (e.u a) true [], true, rfl, rfl, rfl⟩

theorem calli_jumps : jumps (.calli d a) s e (emit (past (.calli d a) s e) e.w e.iss.place 2 1 0 (e.u a).toNat) (e.u a)
    (destWrite d 0 e.next) :=
  ⟨rfl, fun e s => jumpRun e s (e.u a) true (destWrite d 0 e.next), true, rfl, rfl, rfl⟩

theorem call_jumps : jumps (.call d near) s e (past (.call d near) s e) (e.iss.bundle + 16 * near.signExtend 64)
    (destWrite d 0 e.next) := by
  rw [← Env.target_eq]
  exact ⟨rfl, fun e s => jumpRun e s (e.target near.toNat 16) false (destWrite d 0 e.next), false, rfl, rfl, rfl⟩

theorem exec_ret_misaligned (hi : Issues (.ret a) s e) (h : (e.u a).toNat / 4 % 4 ≠ 0) :
    exec (.ret a) s = .next (takeTrap (account s e (Instr.ret a).scalarForm) e false .misaligned none (e.u a) 0) := by
  change execRet a s = _
  unfold execRet
  exact runInstr_trap hi.1 hi.2 (if_pos h)

theorem exec_ret_illegal (hi : Issues (.ret a) s e) (h : (e.u a).toNat / 4 % 4 = 0) (hb : 2 ^ 52 ≤ (e.u a).toNat) :
    exec (.ret a) s = .next (takeTrap (account s e (Instr.ret a).scalarForm) e false .illegalAddress none (e.u a) 0) := by
  change execRet a s = _
  unfold execRet
  exact runInstr_trap hi.1 hi.2 ((if_neg (not_not_intro h)).trans (if_pos hb))

theorem exec_ret_moves (hi : Issues (.ret a) s e) (h : (e.u a).toNat / 4 % 4 = 0) (hb : (e.u a).toNat < 2 ^ 52) :
    exec (.ret a) s = .next (finished e (e.move (emit (past (.ret a) s e) e.w e.iss.place 2 1 0 (e.u a).toNat)
      (jump (w64 ((e.u a).toNat / 16 * 16)) ((e.u a).toNat % 4))) 1 []) := by
  change execRet a s = _
  unfold execRet
  exact runInstr_done hi.1 hi.2 ((if_neg (not_not_intro h)).trans (if_neg (Nat.not_le_of_lt hb)))

end Jump

/-- Settles O23: each branch comes down to its lanes' procedure, each jump and call to its target's checks. -/
theorem branchesJumpsAndCalls : Obligations.BranchesJumpsAndCalls := by
  unfold Obligations.BranchesJumpsAndCalls
  refine ⟨fun s e p u far near => ?_, fun s e d a near => ?_⟩
  · intro next traceOf gives marked all
    have branch : ∀ {i r take target}, branches i s e r take target → gives i r take target := by
      intro i r take target hb hi stay taking smaller
      refine ⟨fun ht => exec_branch_done hi hb (branchRun_none ht),
        fun ht hs => exec_branch_done hi hb (branchRun_all ht hs), fun ht hs w hw =>
          ⟨splitOff e r take target, rfl, rfl, rfl, rfl, rfl, ?_⟩⟩
      have hsplit : splits e take := ⟨ht, hs⟩
      exact ⟨fun k hk => exec_branch_done hi hb (branchRun_placed hsplit hw hk),
        fun hn hh => exec_branch_inHandler hi hb (branchRun_inHandler hsplit hw hn hh),
        fun hn hh hf => ⟨fun hl => exec_branch_overflows hi hb (branchRun_overflows hsplit hw hn hh hf hl),
          fun hl r2 hp => exec_branch_done hi hb (branchRun_stacked hsplit hw hn hh hf hl hp)⟩⟩
    exact ⟨branch bra_branches, branch brp_branches, branch bru_branches⟩
  · intro next moved note trap moves t
    have jump : ∀ {i r t ws}, jumps i s e r t ws → moves i r t ws := fun hj hi =>
      ⟨fun h => exec_jump_traps hi hj (targetCause_misaligned h), fun h hb => exec_jump_traps hi hj (targetCause_illegal h hb),
        fun h hb => exec_jump_moves hi hj (targetCause_none h hb)⟩
    exact ⟨jump jmpi_jumps, jump calli_jumps, jump call_jumps, fun hi =>
      ⟨exec_ret_misaligned hi, exec_ret_illegal hi, exec_ret_moves hi⟩⟩

end Sys2Proof.Machine
end

section
/-! PROOF. What an arrival counts and what a completion leaves (O26: R115, R154, R155, R156). -/

namespace Sys2Proof.Machine

/-! ## The bytes of a barrier (R154) -/

theorem field_leBytes (n x : Nat) (ys : List Byte) : field (leBytes n x ++ ys) 0 n = x % 256 ^ n := by
  have hslice : slice (leBytes n x ++ ys) 0 n = leBytes n x := by
    refine bytes_ext (by simp [slice]) fun k hk => ?_
    have hk : k < n := by simpa [slice] using hk
    simp [slice, List.getD_eq_getElem?_getD, hk, List.getElem?_append_left]
  rw [field, hslice, leNat_leBytes]

theorem field_leBytes_skip {n off : Nat} (h : n ≤ off) (x len : Nat) (ys : List Byte) :
    field (leBytes n x ++ ys) off len = field ys (off - n) len := by
  unfold field slice
  congr 1
  refine List.map_congr_left fun i _ => ?_
  rw [List.getD_append_right _ _ _ _ (by rw [length_leBytes]; omega), length_leBytes]
  congr 1
  omega

theorem length_barrierBytes (x : BarrierObj) : (barrierBytes x).length = 16 := by simp [barrierBytes]

/-- The expected count, the count and the phase read back from a barrier's bytes. -/
theorem parseBarrier_barrierBytes (x : BarrierObj) :
    (parseBarrier (barrierBytes x)).expected = x.expected % 2 ^ 32 ∧
    (parseBarrier (barrierBytes x)).arrived = x.arrived % 2 ^ 32 ∧ (parseBarrier (barrierBytes x)).phase = x.phase := by
  unfold parseBarrier barrierBytes
  simp only [List.append_assoc]
  refine ⟨field_leBytes _ _ _, ?_, ?_⟩
  · rw [field_leBytes_skip (Nat.le_refl 4)]
    exact field_leBytes _ _ _
  · rw [field_leBytes_skip (by decide), field_leBytes_skip (Nat.le_refl 4), Nat.sub_self, field_leBytes]
    cases x.phase <;> rfl

/-! ## An object's bytes changed -/

/-- A change of memory, its caches, its held versions and the waves that are resident: nothing else of the state. -/
def memoryOnly (s t : State) : Prop :=
  t = { s with dram := t.dram, scratch := t.scratch, l2 := t.l2, l1 := t.l1, heldSectors := t.heldSectors, waves := t.waves }

theorem memoryOnly.trans {s t u : State} (h1 : memoryOnly s t) (h2 : memoryOnly t u) : memoryOnly s u := by
  unfold memoryOnly at *; rw [h2, h1]

theorem writeTarget_memoryOnly (s : State) (A : Actor) (pa : Nat) (bytes : List Byte) (t : Target) :
    memoryOnly s (writeTarget s A pa bytes t) := by
  have hfold : ∀ {g : State → Nat → State}, (∀ s l, memoryOnly s (g s l)) → ∀ (ls : List Nat) s,
      memoryOnly s (ls.foldl g s) := fun hg => foldl_keeps memoryOnly (fun _ => rfl) (fun _ _ _ => memoryOnly.trans) _ hg
  cases t with
  | weight die off => rfl
  | scratch core off phys =>
    have h1 : memoryOnly s (writeScratch s core phys bytes) := by rw [writeScratch_only]; rfl
    exact h1.trans (hfold (g := fun s l => clearReservations s { space := .scratch core, addr := 256 * l }) (fun _ _ => rfl) _ _)
  | global va =>
    change memoryOnly s (writeGlobal s A va pa bytes)
    unfold writeGlobal
    split
    · rw [holdBytes_only]; rfl
    · have h1 : memoryOnly s (writeTaggedBytes s A.asid va pa bytes) := by rw [writeTaggedBytes_only]; rfl
      exact h1.trans (hfold (g := fun s l => claimLine s A l) (fun _ _ => rfl) _ _)

theorem writeObj_memoryOnly (s : State) (A : Actor) (pa : Nat) (bytes : List Byte) (t : Target) :
    memoryOnly s (writeObj s A pa bytes t) := by
  cases t with
  | global va =>
    unfold writeObj
    dsimp only
    split
    · rw [holdBytes_only]; rfl
    · exact writeTarget_memoryOnly s A pa bytes _
  | scratch core off phys => exact writeTarget_memoryOnly s A pa bytes (.scratch core off phys)
  | weight die off => exact writeTarget_memoryOnly s A pa bytes (.weight die off)

/-- The bytes that an actor, one that does not hold its writes, writes to a target it reads back: in global memory through
caches in form, in a scratchpad outside the guard granules. -/
def readsBack (s : State) (A : Actor) (n : Nat) (t : Target) : Prop :=
  match t with
  | .global _ => A.asid ≠ 0 ∧ s.cachesWf
  | .scratch _ _ _ => guardHit s n t = none
  | .weight _ _ => False

theorem readTarget_writeObj {s : State} {A : Actor} {bytes : List Byte} {t : Target} (pa : Nat) (hA : A.held = false)
    (ht : readsBack s A bytes.length t) : readTarget (writeObj s A pa bytes t) A pa bytes.length t = bytes := by
  cases t with
  | weight die off => exact ht.elim
  | global va =>
    obtain ⟨ha, hc⟩ := ht
    have hw : writeObj s A pa bytes (.global va) = writeTarget s A pa bytes (.global va) :=
      if_neg (by rw [hA]; exact Bool.false_ne_true)
    rw [hw]
    change readGlobal _ A va pa bytes.length = bytes
    unfold readGlobal
    rw [hA]
    exact taggedBytes_eq fun k hk => taggedByte_writeTarget_at hA ha (cachesWf_sectorsWhole hc _) va pa bytes hk
  | scratch core off phys =>
    have hclear : ∀ k, k < bytes.length → guarded s core (phys + k) = false := by
      intro k hk
      have hany : ¬ ((List.range bytes.length).any fun i => guarded s core (phys + i)) = true := fun h => by
        unfold readsBack guardHit at ht; dsimp only at ht; rw [if_pos h] at ht; cases ht
      simpa using fun h => hany (List.any_eq_true.mpr ⟨k, List.mem_range.mpr hk, h⟩)
    refine bytes_ext (by simp [readTarget]) fun k hk => ?_
    have hk : k < bytes.length := by simpa [readTarget] using hk
    have hread : (readTarget (writeObj s A pa bytes (.scratch core off phys)) A pa bytes.length
        (.scratch core off phys)).getD k 0 = if guarded (writeTarget s A pa bytes (.scratch core off phys)) core (phys + k)
          then 0 else readByte (writeTarget s A pa bytes (.scratch core off phys)).scratch (scratchKey core (phys + k)) := by
      simp [readTarget, writeObj, List.getD_eq_getElem?_getD, hk]
    rw [hread, guarded_congr (writeTarget_storeFrame s A pa bytes _).cores, scratch_writeTarget_at s A pa bytes core off phys hk,
      hclear k hk]
    rfl

/-! ## Waits satisfied together (R23, R115) -/

/-- Waves whose waits are satisfied: nothing else of the state changes but what is to come and the lines of the L1s. -/
def wakesOnly (s t : State) : Prop := t = { s with waves := t.waves, agenda := t.agenda, l1 := t.l1 }

theorem wakesOnly.trans {s t u : State} (h1 : wakesOnly s t) (h2 : wakesOnly t u) : wakesOnly s u := by
  unfold wakesOnly at *; rw [h2, h1]

/-- A wave with fences added. -/
def fencedMore (w w' : Wave) : Prop := w' = { w with fences := w'.fences }

theorem fencedMore.trans {a b c : Wave} (h1 : fencedMore a b) (h2 : fencedMore b c) : fencedMore a c := by
  unfold fencedMore at *; rw [h2, h1]

/-- The wave of a number with the fence of an acquire (R115). -/
def Wave.acquiring (uid n : Nat) (w : Wave) : Wave :=
  if w.uid == uid then { w with fences := w.fences ++
    [{ seqNo := n, paths := everyPath, scope := 7, needsLog := false, ready := true }] } else w

theorem acquiring_fencedMore (uid n : Nat) (w : Wave) : fencedMore w (w.acquiring uid n) := by
  unfold Wave.acquiring; split <;> rfl

theorem acquiring_of_ne {uid n : Nat} {w : Wave} (h : w.uid ≠ uid) : w.acquiring uid n = w := if_neg (by simpa using h)

section Wake
variable {s : State} {obj : Loc} {sel : Wave → Path → Option (OpCode × Nat)} {value : Word} {lat uid v : Nat} {w : Wave}

/-- A wait satisfied completes, and is an acquire until then (R115). -/
def completeWait (lat uid : Nat) (s : State) (n : Nat) : State :=
  acquireUntil (s.schedule lat (.instructionComplete uid n)) uid n

/-- The waits satisfied of a wave complete. -/
def completeWaits (s : State) (lat uid : Nat) (seqs : List Nat) : State := seqs.foldl (completeWait lat uid) s

/-- The completions of the waits of a wave that a test selects. -/
def Wave.waits (w : Wave) (sel : Path → Option (OpCode × Nat)) : List Nat :=
  w.allPaths.filterMap fun p => (sel p).map Prod.snd

theorem satisfy_snd (w : Wave) (sel : Path → Option (OpCode × Nat)) (value : Word) : (w.satisfy sel value).2 = w.waits sel := by
  refine (List.map_filterMap ..).trans ?_
  unfold Wave.waits
  congr 1
  funext p
  cases sel p <;> rfl

theorem satisfy_uid (w : Wave) (sel : Path → Option (OpCode × Nat)) (value : Word) : (w.satisfy sel value).1.uid = w.uid := rfl

/-- One wave's turn when waits are satisfied. -/
def wakeWave (obj : Loc) (sel : Wave → Path → Option (OpCode × Nat)) (value : Word) (lat : Nat) (s : State) (w : Wave) : State :=
  if w.waits (sel w) = [] then s
  else completeWaits (dropBound (s.setWave (w.satisfy (sel w) value).1) w obj) lat w.uid (w.waits (sel w))

theorem satisfyAll_eq (s : State) (obj : Loc) (sel : Wave → Path → Option (OpCode × Nat)) (value : Word) (lat : Nat) :
    satisfyAll s obj sel value lat = s.waves.foldl (wakeWave obj sel value lat) s := by
  unfold satisfyAll
  congr 1
  funext s w
  unfold wakeWave
  rw [← satisfy_snd w (sel w) value]
  obtain ⟨w1, seqs⟩ := w.satisfy (sel w) value
  cases seqs <;> rfl

/-! What one wave's turn leaves. -/

theorem dropBound_l1Only (s : State) (w : Wave) (obj : Loc) : dropBound s w obj = { s with l1 := (dropBound s w obj).l1 } := by
  unfold dropBound
  dsimp only
  split <;> rfl

theorem completeWaits_only (lat uid : Nat) (seqs : List Nat) (s : State) : wakesOnly s (completeWaits s lat uid seqs) :=
  foldl_keeps wakesOnly (fun _ => rfl) (fun _ _ _ => wakesOnly.trans) (completeWait lat uid)
    (fun _ _ => rfl) seqs s

theorem wakeWave_only (obj : Loc) (sel : Wave → Path → Option (OpCode × Nat)) (value : Word) (lat : Nat) (s : State) (w : Wave) :
    wakesOnly s (wakeWave obj sel value lat s w) := by
  unfold wakeWave
  split
  · rfl
  · have h1 : wakesOnly s (dropBound (s.setWave (w.satisfy (sel w) value).1) w obj) := by rw [dropBound_l1Only]; rfl
    exact h1.trans (completeWaits_only lat w.uid _ _)

theorem satisfyAll_only (s : State) (obj : Loc) (sel : Wave → Path → Option (OpCode × Nat)) (value : Word) (lat : Nat) :
    wakesOnly s (satisfyAll s obj sel value lat) := by
  rw [satisfyAll_eq]
  exact foldl_keeps wakesOnly (fun _ => rfl) (fun _ _ _ => wakesOnly.trans) _ (wakeWave_only obj sel value lat) _ s

/-- Completions asked for change of their wave its fences, and of the others nothing. -/
theorem completeWaits_waves (lat uid : Nat) (seqs : List Nat) (s : State) : ∃ g : Wave → Wave,
    (∀ w, fencedMore w (g w)) ∧ (∀ w, w.uid ≠ uid → g w = w) ∧ (completeWaits s lat uid seqs).waves = s.waves.map g := by
  induction seqs generalizing s with
  | nil => exact ⟨id, fun _ => rfl, fun _ _ => rfl, (List.map_id _).symm⟩
  | cons n ns ih =>
    obtain ⟨g, hg, ho, hw⟩ := ih (completeWait lat uid s n)
    exact ⟨g ∘ Wave.acquiring uid n, fun w => (acquiring_fencedMore uid n w).trans (hg _),
      fun w hu => (congrArg g (acquiring_of_ne hu)).trans (ho w hu), hw.trans (List.map_map ..)⟩

/-- What is to come stays to come. -/
def agendaKept (s t : State) : Prop := ∀ x ∈ s.agenda, x ∈ t.agenda

theorem completeWaits_agendaKept (lat uid : Nat) (seqs : List Nat) (s : State) :
    agendaKept s (completeWaits s lat uid seqs) :=
  foldl_keeps agendaKept (fun _ _ => id) (fun _ _ _ h1 h2 x h => h2 x (h1 x h))
    (completeWait lat uid) (fun s n => (schedule_awaits s lat (.instructionComplete uid n)).kept) seqs s

theorem wakeWave_agendaKept (obj : Loc) (sel : Wave → Path → Option (OpCode × Nat)) (value : Word) (lat : Nat) (s : State)
    (w : Wave) : agendaKept s (wakeWave obj sel value lat s w) := by
  unfold wakeWave
  split
  · exact fun _ => id
  · intro x hx
    refine completeWaits_agendaKept lat w.uid _ _ x ?_
    rw [dropBound_l1Only]
    exact hx

theorem wakeWaves_agendaKept (ws : List Wave) (s : State) : agendaKept s (ws.foldl (wakeWave obj sel value lat) s) :=
  foldl_keeps agendaKept (fun _ _ => id) (fun _ _ _ h1 h2 x h => h2 x (h1 x h)) _ (wakeWave_agendaKept obj sel value lat) ws s

theorem completeWaits_comes {seqs : List Nat} {n : Nat} (h : n ∈ seqs) (lat uid : Nat) (s : State) :
    (s.clock + lat, Instr.instructionComplete uid n) ∈ (completeWaits s lat uid seqs).agenda := by
  induction seqs generalizing s with
  | nil => cases h
  | cons m ms ih =>
    rcases List.mem_cons.mp h with rfl | h
    · exact completeWaits_agendaKept lat uid ms _ _ (mem_schedule s lat _)
    · exact ih h _

/-- After a wave's turn, every wave is the one satisfied, but for its fences, or another that was there before. -/
theorem mem_wakeWave {x : Wave} (hw : w.waits (sel w) ≠ []) (hx : x ∈ (wakeWave obj sel value lat s w).waves) :
    fencedMore (w.satisfy (sel w) value).1 x ∨ (x ∈ s.waves ∧ x.uid ≠ w.uid) := by
  unfold wakeWave at hx
  rw [if_neg hw] at hx
  obtain ⟨g, hg, ho, hwaves⟩ := completeWaits_waves lat w.uid (w.waits (sel w))
    (dropBound (s.setWave (w.satisfy (sel w) value).1) w obj)
  rw [hwaves, dropBound_l1Only] at hx
  obtain ⟨y, hy, rfl⟩ := List.mem_map.mp hx
  obtain ⟨z, hz, rfl⟩ := List.mem_map.mp hy
  by_cases hu : z.uid = w.uid
  · rw [if_pos (by simpa [satisfy_uid] using hu)]
    exact .inl (hg _)
  · rw [if_neg (by simpa [satisfy_uid] using hu), ho z hu]
    exact .inr ⟨hz, hu⟩

/-- A change of waves that leaves those of a number leaves the one found by it. -/
theorem wave?_of_map {t : State} {g : Wave → Wave} (ht : t.waves = s.waves.map g) (hg : ∀ w, (g w).uid = w.uid)
    (ho : ∀ w : Wave, w.uid = v → g w = w) : t.wave? v = s.wave? v := by
  have huid : (fun x : Wave => x.uid == v) ∘ g = fun x => x.uid == v := by
    funext x; dsimp only [Function.comp]; rw [hg x]
  change t.waves.find? (fun x => x.uid == v) = s.wave? v
  rw [ht, List.find?_map, huid]
  change (s.wave? v).map g = _
  cases hx : s.wave? v with
  | none => rfl
  | some x => rw [Option.map_some, ho x (wave?_uid hx)]

/-- A wave's turn leaves the other waves. -/
theorem wave?_wakeWave_other (h : v ≠ w.uid) : (wakeWave obj sel value lat s w).wave? v = s.wave? v := by
  unfold wakeWave
  split
  · rfl
  · obtain ⟨g, hg, ho, hwaves⟩ := completeWaits_waves lat w.uid (w.waits (sel w))
      (dropBound (s.setWave (w.satisfy (sel w) value).1) w obj)
    rw [wave?_of_map hwaves (fun x => by rw [hg x]) fun x hx => ho x (hx ▸ h), dropBound_l1Only]
    change (s.setWave _).wave? v = _
    rw [wave?_setWave]
    cases hx : s.wave? v with
    | none => rfl
    | some x => rw [Option.map_some, if_neg (by rw [wave?_uid hx]; exact h)]

theorem wave?_wakeWaves_other {ws : List Wave} (h : v ∉ ws.map Wave.uid) (s : State) :
    (ws.foldl (wakeWave obj sel value lat) s).wave? v = s.wave? v := by
  induction ws generalizing s with
  | nil => rfl
  | cons w ws ih =>
    rw [List.map_cons, List.mem_cons, not_or] at h
    exact (ih h.2 _).trans (wave?_wakeWave_other h.1)

/-- A wave's turn leaves it satisfied, but for its fences, with its completions to come. -/
theorem wave?_wakeWave (hs : s.wave? w.uid = some w) (hw : w.waits (sel w) ≠ []) :
    ∃ w1, (wakeWave obj sel value lat s w).wave? w.uid = some w1 ∧ fencedMore (w.satisfy (sel w) value).1 w1 ∧
      ∀ n ∈ w.waits (sel w), (s.clock + lat, Instr.instructionComplete w.uid n) ∈ (wakeWave obj sel value lat s w).agenda := by
  have hstep : wakeWave obj sel value lat s w =
    completeWaits (dropBound (s.setWave (w.satisfy (sel w) value).1) w obj) lat w.uid (w.waits (sel w)) := if_neg hw
  have hsat : (dropBound (s.setWave (w.satisfy (sel w) value).1) w obj).wave? w.uid = some (w.satisfy (sel w) value).1 := by
    rw [dropBound_l1Only]
    change (s.setWave _).wave? w.uid = _
    rw [wave?_setWave, hs, Option.map_some, if_pos (satisfy_uid ..).symm]
  obtain ⟨g, hg, -, hwaves⟩ := completeWaits_waves lat w.uid (w.waits (sel w))
    (dropBound (s.setWave (w.satisfy (sel w) value).1) w obj)
  have huid : (fun x : Wave => x.uid == w.uid) ∘ g = fun x => x.uid == w.uid := by
    funext x; dsimp only [Function.comp]; rw [hg x]
  rw [hstep]
  refine ⟨g (w.satisfy (sel w) value).1, ?_, hg _, fun n hn => ?_⟩
  · unfold State.wave? at hsat ⊢
    rw [hwaves, List.find?_map, huid, hsat, Option.map_some]
  · have hclock : (dropBound (s.setWave (w.satisfy (sel w) value).1) w obj).clock = s.clock := by rw [dropBound_l1Only]; rfl
    rw [← hclock]
    exact completeWaits_comes hn lat w.uid _

/-- A wave with an identity of its own, once every wave has had its turn. -/
theorem wave?_satisfyAll (hn : (s.waves.map Wave.uid).Nodup) (hm : w ∈ s.waves) (hw : w.waits (sel w) ≠ []) :
    ∃ w1, (satisfyAll s obj sel value lat).wave? w.uid = some w1 ∧ fencedMore (w.satisfy (sel w) value).1 w1 ∧
      ∀ n ∈ w.waits (sel w), (s.clock + lat, Instr.instructionComplete w.uid n) ∈ (satisfyAll s obj sel value lat).agenda := by
  obtain ⟨before, after, hws⟩ := List.append_of_mem hm
  rw [hws, List.map_append, List.map_cons, List.nodup_append, List.nodup_cons] at hn
  obtain ⟨-, ⟨hafter, -⟩, hdisj⟩ := hn
  have hbefore : w.uid ∉ before.map Wave.uid := fun h => hdisj _ h _ (.head _) rfl
  have hfirst : s.wave? w.uid = some w := by
    have hnone : before.find? (fun x => x.uid == w.uid) = none := List.find?_eq_none.mpr fun x hx he =>
      hbefore (List.mem_map.mpr ⟨x, hx, by simpa using he⟩)
    unfold State.wave?
    rw [hws, List.find?_append, hnone]
    simp
  rw [satisfyAll_eq, hws, List.foldl_append, List.foldl_cons]
  have hb : wakesOnly s (before.foldl (wakeWave obj sel value lat) s) :=
    foldl_keeps wakesOnly (fun _ => rfl) (fun _ _ _ => wakesOnly.trans) _ (wakeWave_only obj sel value lat) _ s
  have hclock : (before.foldl (wakeWave obj sel value lat) s).clock = s.clock := by rw [hb]
  obtain ⟨w1, hw1, hf, ha⟩ := wave?_wakeWave (obj := obj) (value := value) (lat := lat)
    ((wave?_wakeWaves_other (obj := obj) (sel := sel) (value := value) (lat := lat) hbefore s).trans hfirst) hw
  rw [hclock] at ha
  exact ⟨w1, (wave?_wakeWaves_other hafter _).trans hw1, hf, fun n hn => wakeWaves_agendaKept after _ _ (ha n hn)⟩

/-- No wait of the wave is selected. -/
def unselected (sel : Wave → Path → Option (OpCode × Nat)) (w : Wave) : Prop := ∀ p ∈ w.allPaths, sel w p = none

theorem waits_eq_nil_iff (w : Wave) : w.waits (sel w) = [] ↔ unselected sel w := by
  unfold Wave.waits unselected
  simp [List.filterMap_eq_nil_iff]

/-- Once every wave has had its turn none has a wait that is selected, when a wave satisfied has none. -/
theorem unselected_satisfyAll (hsat : ∀ (w x : Wave), fencedMore (w.satisfy (sel w) value).1 x → unselected sel x) (s : State) :
    ∀ x ∈ (satisfyAll s obj sel value lat).waves, unselected sel x := by
  have hfold : ∀ (ws : List Wave) (s : State), (∀ x ∈ s.waves, unselected sel x ∨ x ∈ ws) →
      ∀ x ∈ (ws.foldl (wakeWave obj sel value lat) s).waves, unselected sel x := by
    intro ws
    induction ws with
    | nil => exact fun s h x hx => (h x hx).resolve_right (fun hn => nomatch hn)
    | cons w ws ih =>
      intro s h
      refine ih _ fun x hx => ?_
      have other : x ∈ s.waves → x ≠ w → unselected sel x ∨ x ∈ ws := fun hx hne =>
        (h x hx).imp_right fun hm => (List.mem_cons.mp hm).resolve_left hne
      by_cases hw : w.waits (sel w) = []
      · rw [wakeWave, if_pos hw] at hx
        by_cases hne : x = w
        · exact .inl (hne ▸ (waits_eq_nil_iff w).mp hw)
        · exact other hx hne
      · rcases mem_wakeWave hw hx with hf | ⟨hx, hu⟩
        · exact .inl (hsat w x hf)
        · exact other hx fun he => hu (by rw [he])
  rw [satisfyAll_eq]
  exact hfold s.waves s fun x hx => .inr hx

/-- What the waits that a test selects receive: each completion's number with the writes of its destination. -/
def Wave.received (w : Wave) (sel : Path → Option (OpCode × Nat)) (value : Word) : List (Nat × List RegWrite) :=
  w.allPaths.filterMap fun p => (sel p).map fun x => (x.2, destAll x.1 p.mask value)

theorem mem_received {sel : Path → Option (OpCode × Nat)} {value : Word} {n : Nat} {ws : List RegWrite} :
    (n, ws) ∈ w.received sel value ↔ ∃ p ∈ w.allPaths, ∃ d, sel p = some (d, n) ∧ ws = destAll d p.mask value := by
  unfold Wave.received
  rw [List.mem_filterMap]
  refine exists_congr fun p => and_congr_right fun _ => ?_
  cases sel p with
  | none => simp
  | some x => obtain ⟨d, m⟩ := x; simp [eq_comm]

/-- The completion of a wait selected, the only one of its number, receives the value in its destination. -/
theorem satisfy_pending {sel : Path → Option (OpCode × Nat)} {p : Path} {d : OpCode} {c : Completion}
    (hp : p ∈ w.allPaths) (hs : sel p = some (d, c.seqNo)) (hc : c ∈ w.pending)
    (hone : ∀ p' ∈ w.allPaths, ∀ d', sel p' = some (d', c.seqNo) → p' = p) (value : Word) :
    { c with writes := destAll d p.mask value } ∈ (w.satisfy sel value).1.pending := by
  have hfind : (w.received sel value).find? (fun h => h.1 == c.seqNo) = some (c.seqNo, destAll d p.mask value) := by
    have hmem : (c.seqNo, destAll d p.mask value) ∈ w.received sel value := mem_received.mpr ⟨p, hp, d, hs, rfl⟩
    have hsome : ((w.received sel value).find? fun h => h.1 == c.seqNo).isSome = true :=
      List.find?_isSome.mpr ⟨_, hmem, beq_self_eq_true c.seqNo⟩
    obtain ⟨⟨n, ws⟩, hf⟩ := Option.isSome_iff_exists.mp hsome
    obtain rfl : n = c.seqNo := by simpa using List.find?_some hf
    obtain ⟨q, hq, d', hd, rfl⟩ := mem_received.mp (List.mem_of_find?_eq_some hf)
    obtain rfl := hone q hq d' hd
    rw [hs] at hd
    cases hd
    exact hf
  unfold Wave.received at hfind
  unfold Wave.satisfy
  refine List.mem_map.mpr ⟨c, hc, ?_⟩
  rw [hfind]

end Wake

end Sys2Proof.Machine
end
section
/-! PROOF. A barrier's completion, and the arrivals that reach it (O26: R155, R156). -/

namespace Sys2Proof.Machine

/-! ## A completion (R155, R156) -/

section Complete
variable {s t : State} {A : Actor} {o : ObjAt} {x : BarrierObj} {w : Wave} {p : Path} {d : OpCode} {n lat : Nat}

/-- The machine as a completion turns a barrier's phase, its waits not yet satisfied. -/
def turned (s : State) (A : Actor) (o : ObjAt) (x : BarrierObj) : State :=
  let s1 := writeObj s A o.pa (barrierBytes { x with phase := !x.phase, arrived := 0 }) o.target
  { s1 with openPhases := s1.openPhases.filter fun e => e.1 != o.loc }

/-- The waits on a barrier that a change by an actor satisfies, with their destinations and completions. -/
def barrierWait (s : State) (A : Actor) (o : ObjAt) (w : Wave) (p : Path) : Option (OpCode × Nat) :=
  match p.park with
  | .barrier obj _ d _ n _ => if obj == o.loc && waitsOn s A o.target w then some (d, n) else none
  | _ => none

theorem completeBarrier_eq (s : State) (A : Actor) (o : ObjAt) (x : BarrierObj) (lat : Nat) : completeBarrier s A o x lat =
    satisfyAll (turned s A o x) o.loc (barrierWait (turned s A o x) A o) (w64 (b2n !x.phase)) lat := rfl

theorem completeBarrier_only (s : State) (A : Actor) (o : ObjAt) (x : BarrierObj) (lat : Nat) :
    wakesOnly (turned s A o x) (completeBarrier s A o x lat) :=
  satisfyAll_only ..

theorem barrierWait_eq_some_iff : barrierWait s A o w p = some (d, n) ↔
    (∃ phase arrwait k, p.park = .barrier o.loc phase d arrwait n k) ∧ waitsOn s A o.target w = true := by
  unfold barrierWait
  split
  next obj phase d' arrwait n' k hp =>
    rw [hp]
    simp only [Bool.and_eq_true, beq_iff_eq, Option.ite_none_right_eq_some, Option.some.injEq, Prod.mk.injEq,
      Park.barrier.injEq]
    constructor
    · rintro ⟨⟨rfl, hw⟩, rfl, rfl⟩
      exact ⟨⟨_, _, _, rfl, rfl, rfl, rfl, rfl, rfl⟩, hw⟩
    · rintro ⟨⟨_, _, _, rfl, rfl, rfl, rfl, rfl, rfl⟩, hw⟩
      exact ⟨⟨rfl, hw⟩, rfl, rfl⟩
  next hp =>
    constructor
    · intro h; cases h
    · rintro ⟨⟨_, _, _, h⟩, _⟩; exact absurd h (hp _ _ _ _ _ _)

/-- What a wave waits on is read from its identity and from the versions that runs hold. -/
theorem waitsOn_wakesOnly (h : wakesOnly s t) (A : Actor) (g : Target) (w : Wave) : waitsOn t A g w = waitsOn s A g w := by
  rw [h]; rfl

theorem waitsOn_satisfied {sel : Path → Option (OpCode × Nat)} {value : Word} {y : Wave}
    (h : fencedMore (w.satisfy sel value).1 y) (s : State) (A : Actor) (g : Target) : waitsOn s A g y = waitsOn s A g w := by
  rw [h]; rfl

/-- A wave's waits on a barrier, once satisfied, are none. -/
theorem satisfied_unselected {value : Word} {y : Wave} (h : fencedMore (w.satisfy (barrierWait s A o w) value).1 y) :
    unselected (barrierWait s A o) y := by
  intro q hq
  have hpaths : y.allPaths = (w.mapPaths fun p => match barrierWait s A o w p with
      | some x => { pathPast p.pc p.slot false p with park := .woken x.2 p.park.reason }
      | none => p).allPaths := by rw [h]; rfl
  rw [hpaths, allPaths_mapPaths] at hq
  obtain ⟨p, -, rfl⟩ := List.mem_map.mp hq
  cases hs : barrierWait s A o w p with
  | some x => rfl
  | none =>
    dsimp only
    rw [← hs]
    unfold barrierWait
    rw [waitsOn_satisfied h]

/-- After a completion no wave waits on the version of the barrier that turned. -/
theorem completeBarrier_released (hw : w ∈ (completeBarrier s A o x lat).waves) (hp : p ∈ w.allPaths) {phase arrwait : Bool}
    {k : Nat} (hpark : p.park = .barrier o.loc phase d arrwait n k) :
    waitsOn (completeBarrier s A o x lat) A o.target w = false := by
  rw [waitsOn_wakesOnly (completeBarrier_only s A o x lat)]
  have hnone : barrierWait (turned s A o x) A o w p = none := by
    rw [completeBarrier_eq] at hw
    exact unselected_satisfyAll (fun _ _ => satisfied_unselected) _ w hw p hp
  by_contra hwait
  have hsome := barrierWait_eq_some_iff.mpr ⟨⟨phase, arrwait, k, hpark⟩, Bool.eq_true_of_not_eq_false hwait⟩
  rw [hnone] at hsome
  cases hsome

theorem readTarget_wakesOnly (h : wakesOnly s t) (A : Actor) (pa n : Nat) (g : Target) :
    readTarget t A pa n g = readTarget s A pa n g := by
  rw [h]; cases g <;> rfl

/-- A completion leaves the object with the phase turned and no arrival. -/
theorem completeBarrier_object (hA : A.held = false) (ht : readsBack s A 16 o.target) :
    let y := readBarrier (completeBarrier s A o x lat) A o
    y.arrived = 0 ∧ y.phase = !x.phase ∧ y.expected = x.expected % 2 ^ 32 := by
  have hread : readBarrier (completeBarrier s A o x lat) A o =
      parseBarrier (barrierBytes { x with phase := !x.phase, arrived := 0 }) := by
    unfold readBarrier
    rw [readTarget_wakesOnly (completeBarrier_only s A o x lat)]
    have hlen := length_barrierBytes { x with phase := !x.phase, arrived := 0 }
    rw [← hlen] at ht ⊢
    exact congrArg parseBarrier (readTarget_writeObj o.pa hA ht)
  obtain ⟨he, ha, hp⟩ := parseBarrier_barrierBytes { x with phase := !x.phase, arrived := 0 }
  rw [hread]
  exact ⟨ha, hp, he⟩

/-- A wait on the version that turned receives the new phase when its instruction completes. -/
theorem completeBarrier_wait (hn : ((turned s A o x).waves.map Wave.uid).Nodup) (hw : w ∈ (turned s A o x).waves)
    (hp : p ∈ w.allPaths) {phase arrwait : Bool} {k : Nat} {c : Completion}
    (hpark : p.park = .barrier o.loc phase d arrwait c.seqNo k) (hwait : waitsOn (turned s A o x) A o.target w = true)
    (hone : ∀ p' ∈ w.allPaths, p'.park.seqNo = some c.seqNo → p' = p) (hc : c ∈ w.pending) :
    ∃ w1, (completeBarrier s A o x lat).wave? w.uid = some w1 ∧
      { c with writes := destAll d p.mask (w64 (b2n !x.phase)) } ∈ w1.pending ∧
      (s.clock + lat, Instr.instructionComplete w.uid c.seqNo) ∈ (completeBarrier s A o x lat).agenda := by
  have hsel : barrierWait (turned s A o x) A o w p = some (d, c.seqNo) :=
    barrierWait_eq_some_iff.mpr ⟨⟨phase, arrwait, k, hpark⟩, hwait⟩
  have hmem : c.seqNo ∈ w.waits (barrierWait (turned s A o x) A o w) :=
    List.mem_filterMap.mpr ⟨p, hp, by rw [hsel]; rfl⟩
  obtain ⟨w1, hw1, hf, hcomes⟩ := wave?_satisfyAll (obj := o.loc) (value := w64 (b2n !x.phase)) (lat := lat) hn hw
    (List.ne_nil_of_mem hmem)
  have hclock : (turned s A o x).clock = s.clock := by
    have h := writeObj_memoryOnly s A o.pa (barrierBytes { x with phase := !x.phase, arrived := 0 }) o.target
    unfold turned
    rw [h]
  rw [hclock] at hcomes
  refine ⟨w1, hw1, ?_, hcomes _ hmem⟩
  have hpend : w1.pending = (w.satisfy (barrierWait (turned s A o x) A o w) (w64 (b2n !x.phase))).1.pending := by rw [hf]
  rw [hpend]
  refine satisfy_pending hp hsel hc (fun p' hp' d' hs' => hone p' hp' ?_) _
  obtain ⟨⟨_, _, _, hpark'⟩, -⟩ := barrierWait_eq_some_iff.mp hs'
  rw [hpark']
  rfl

end Complete

/-! ## An arrival (R155) -/

section Arrive
variable {s : State} {A : Actor} {o : ObjAt} {w : Wave} {b : Block} {n lat : Nat} {edge : Word} {who : Option Wave}

/-- An arrival of a wave that a barrier takes: on a counted one no more than are expected, on one of a set one of a member's,
of the block that began the phase (R155). -/
def takesArrival (x : BarrierObj) (w : Wave) (b : Block) (n : Nat) : Prop :=
  x.malformed = false ∧ n ≠ 0 ∧ (x.kind = 0 → x.arrived + n ≤ x.expected) ∧
    (x.kind = 1 → n = 1 ∧ (w.sets.any fun y => y.1 == x.set) = true ∧ (x.arrived = 0 ∨ x.owner = b.owner))

/-- The test by which the home of a barrier refuses an arrival as misuse. -/
def refusesArrival (x : BarrierObj) (member : Bool) (b : Block) (n : Nat) : Bool :=
  (x.malformed || n == 0) || (x.kind == 0 && decide (x.expected < x.arrived + n)) ||
    (x.kind == 1 && (n != 1 || !member || (decide (0 < x.arrived) && x.owner != b.owner)))

theorem takesArrival_iff (x : BarrierObj) (w : Wave) (b : Block) (n : Nat) :
    takesArrival x w b n ↔ refusesArrival x (w.sets.any fun y => y.1 == x.set) b n = false := by
  have howner : (x.arrived = 0 ∨ x.owner = b.owner) ↔ (0 < x.arrived → x.owner = b.owner) := by
    rw [Nat.pos_iff_ne_zero]; tauto
  unfold takesArrival refusesArrival
  rw [howner]
  simp [and_assoc]

/-- The barrier with an arrival counted, in a phase of its block. -/
def BarrierObj.counts (x : BarrierObj) (b : Block) (n : Nat) : BarrierObj :=
  { x with arrived := x.arrived + n, owner := if x.kind == 1 then b.owner else x.owner }

/-- A set barrier's phase noted as begun. -/
def beginPhase (s : State) (y : BarrierObj) (b : Block) (o : ObjAt) : State :=
  if y.kind == 1 && !s.openPhases.any fun e => e.1 == o.loc then { s with openPhases := s.openPhases ++ [(o.loc, b.owner)] }
  else s

/-- The arrival makes the barrier whole. -/
def makesWhole (s : State) (b : Block) (y : BarrierObj) : Bool := decide (expectedOf s b y ≤ y.arrived)

/-- The machine after an arrival that leaves the barrier as `y`. -/
def counted (s : State) (A : Actor) (b : Block) (o : ObjAt) (y : BarrierObj) (lat : Nat) : State :=
  let s1 := beginPhase (writeObj s A o.pa (barrierBytes y) o.target) y b o
  if makesWhole s b y then completeBarrier s1 A o y lat else s1

/-- The watchpoints that an arrival fires, on any version but a run's own (R407). -/
def arrivalWatched (s : State) (A : Actor) (who : Option Wave) (b : Block) (o : ObjAt) (y : BarrierObj) (last : Bool)
    (edge : Word) : State :=
  if ownVersion s A o.target then s
  else fireWatches s b.fn b.ctx who o.target (objWord o.target) (if last then [0, 1, 2] else [0])
    (b2n (if last then !y.phase else y.phase)) (if last then 0 else y.arrived) edge

/-- Whether an arrival is one by a member of the barrier's set, which is asked of a wave alone. -/
def arrivesAsMember (who : Option Wave) (x : BarrierObj) : Bool :=
  match who with
  | some w => w.sets.any fun y => y.1 == x.set
  | none => true

theorem ite_or_or {α : Type} (a b c : Bool) (x y : α) : (if a || b || c then x else y) =
    if a then x else if b then x else if c then x else y := by
  cases a <;> cases b <;> rfl

theorem arriveAt_eq (s : State) (A : Actor) (who : Option Wave) (b : Block) (o : ObjAt) (n lat : Nat) (edge : Word) :
    let x := readBarrier s A o
    let y := x.counts b n
    arriveAt s A who b o n lat edge = if refusesArrival x (arrivesAsMember who x) b n then none
      else some (arrivalWatched (counted s A b o y lat) A who b o y (makesWhole s b y) edge) := by
  intro x y
  unfold refusesArrival arrivalWatched
  rw [ite_or_or, apply_ite some]
  rfl

theorem arriveAt_taken (h : takesArrival (readBarrier s A o) w b n) (lat : Nat) (edge : Word) :
    ∃ t, arriveAt s A (some w) b o n lat edge = some t :=
  ⟨_, (arriveAt_eq ..).trans (if_neg (Bool.eq_false_iff.mp ((takesArrival_iff ..).mp h)))⟩

theorem arriveAt_refused (h : ¬ takesArrival (readBarrier s A o) w b n) (lat : Nat) (edge : Word) :
    arriveAt s A (some w) b o n lat edge = none :=
  (arriveAt_eq ..).trans (if_pos (Bool.eq_true_of_not_eq_false fun hr => h ((takesArrival_iff ..).mpr hr)))

theorem fireWatches_none {fn : Nat} (h : (s.func fn).watches = []) (ctx : Nat) (who : Option Wave) (t : Target) (obj : Word)
    (codes : List Nat) (phase count : Nat) (edge : Word) : fireWatches s fn ctx who t obj codes phase count edge = s := by
  unfold fireWatches; rw [h]; rfl

theorem arrivalWatched_none {y : BarrierObj} {last : Bool} (h : (s.func b.fn).watches = []) :
    arrivalWatched s A who b o y last edge = s := by
  unfold arrivalWatched
  rw [fireWatches_none h, ite_self]

theorem writeObj_fns (s : State) (A : Actor) (pa : Nat) (bytes : List Byte) (t : Target) :
    (writeObj s A pa bytes t).fns = s.fns := by
  rw [writeObj_memoryOnly s A pa bytes t]

theorem completeBarrier_fns (s : State) (A : Actor) (o : ObjAt) (x : BarrierObj) (lat : Nat) :
    (completeBarrier s A o x lat).fns = s.fns := by
  rw [completeBarrier_only s A o x lat]
  exact writeObj_fns ..

/-- On a counted barrier with no watchpoint set, an arrival of no more than are expected raises the count, and completes the
barrier when it makes it whole. -/
theorem arriveAt_counted {x : BarrierObj} (hx : readBarrier s A o = x) (hm : x.malformed = false) (hk : x.kind = 0) (hn : n ≠ 0)
    (hw : (s.func b.fn).watches = []) (hle : x.arrived + n ≤ x.expected) :
    let y := { x with arrived := x.arrived + n }
    let s1 := writeObj s A o.pa (barrierBytes y) o.target
    arriveAt s A who b o n lat edge = some (if x.expected ≤ x.arrived + n then completeBarrier s1 A o y lat else s1) := by
  intro y s1
  have hy : x.counts b n = y := by
    have howner : (if x.kind == 1 then b.owner else x.owner) = x.owner := by rw [hk]; rfl
    unfold BarrierObj.counts; rw [howner]
  have hwhole : makesWhole s b y = decide (x.expected ≤ x.arrived + n) := by
    unfold makesWhole expectedOf
    rw [if_neg (by change ¬ x.kind = 1; rw [hk]; decide)]
  have hbegin : beginPhase s1 y b o = s1 := if_neg (by rw [show y.kind = 0 from hk]; exact Bool.false_ne_true)
  have hleft : counted s A b o y lat = if x.expected ≤ x.arrived + n then completeBarrier s1 A o y lat else s1 := by
    unfold counted
    rw [hwhole, hbegin]
    simp only [decide_eq_true_eq]
  have hrefuse : refusesArrival x (arrivesAsMember who x) b n = false := by
    simp [refusesArrival, hm, hk, hn, hle]
  have hquiet : ((counted s A b o y lat).func b.fn).watches = [] := by
    rw [hleft, ← hw]
    unfold State.func
    split
    · rw [completeBarrier_fns, writeObj_fns]
    · rw [writeObj_fns]
  rw [arriveAt_eq, hx, hrefuse, hy, arrivalWatched_none hquiet, hleft]
  rfl

theorem arriveAt_overfull {x : BarrierObj} (hx : readBarrier s A o = x) (hk : x.kind = 0) (hlt : x.expected < x.arrived + n) :
    arriveAt s A who b o n lat edge = none := by
  rw [arriveAt_eq, hx]
  exact if_pos (by simp [refusesArrival, hk, hlt])

end Arrive

end Sys2Proof.Machine
end

section
/-! PROOF. ARRIVE, SIGNAL, BIND and UNBIND at an object that is reached (O26: R155, R158, R159). -/

namespace Sys2Proof.Machine

/-! ## Synchronisation instructions that wait for nothing (R50, R113, R116, R219) -/

section Apply
variable {s s1 : State} {e : Env} {i : Instr} {op : MemOp}

theorem unsupported_of_plain {lanes : List Nat} (h : ∀ l ∈ lanes, e.w.inTx l = false) (s : State)
    (f : State → (Nat → Bool) → Effect) : unsupported e s lanes f = f s fun _ => true := by
  have hnone : lanes.filter e.w.inTx = [] := List.filter_eq_nil_iff.mpr fun l hl => by rw [h l hl]; exact Bool.false_ne_true
  unfold unsupported
  rw [hnone]

theorem objRun_of_plain (h : plainLanes e) (hm : op.mask = e.p.mask) (s : State) : objRun e s op = syncRun e s op := by
  have hop : { op with mask := e.p.mask } = op := by rw [← hm]
  unfold objRun unsupportedWave
  rw [unsupported_of_plain fun l hl => h l (.inr hl), List.filter_true]
  simp only [Env.lanes, maskOf_lanesOf, hop]

/-- The instruction comes down to an operation on a synchronisation object that no wait is of, and that nothing holds back. -/
structure appliesSync (i : Instr) (s : State) (e : Env) (op : MemOp) : Prop where
  noLiteral : i.takesLiteral = false
  noWait : op.kind.waits = false
  body : ∃ body, exec i s = runInstr i s body ∧ body e (past i s e) = syncRun e (past i s e) op
  fenced : fenced e.w .ls = false
  log : overlapsLog (past i s e) e.w op = false
  release : (op.releases && releaseWaits (past i s e) e.w op.base) = false

theorem exec_sync_done {lat ss : Nat} (hi : Issues i s e) (ha : appliesSync i s e op)
    (hp : performSync (past i s e) e.w op e.iss.bundle = .done s1 [] lat ss) :
    exec i s = .next (synced e s1 lat [] op.kind.writes ss).2 := by
  obtain ⟨body, hexec, hbody⟩ := ha.body
  rw [hexec]
  refine runInstr_done hi.1 hi.2 (hbody.trans ?_)
  unfold syncRun
  rw [ha.fenced, ha.log, ha.release, hp]
  exact congrArg Effect.done (if_neg (by rw [ha.noWait]; exact Bool.false_ne_true))

/-- The object at an address lies in no guard granule (R219). -/
def offGuards (s : State) (e : Env) (addr : Word) : Prop :=
  ∀ t, resolve s e.w .generic addr = .ok t → guardHit s 16 t = none

/-- Misuse of an object off the guard granules is its cause with the object's address, and leaves no report. -/
theorem guardMisuse_clear (h : offGuards s e op.base) :
    guardMisuse s e op (.trap .barrierMisuse none op.base 0) = .trap .barrierMisuse none op.base 0 := by
  unfold guardMisuse
  dsimp only
  split
  · rfl
  · rfl
  next ht _ _ => rw [h _ ht]
  · rfl

theorem exec_sync_misuse (hi : Issues i s e) (ha : appliesSync i s e op) (hg : offGuards (past i s e) e op.base)
    (hp : performSync (past i s e) e.w op e.iss.bundle = .stop (.trap .barrierMisuse op.base none)) :
    exec i s = .next (takeTrap (account s e i.scalarForm) e false .barrierMisuse none op.base 0) := by
  obtain ⟨body, hexec, hbody⟩ := ha.body
  rw [hexec, ← ha.noLiteral]
  refine runInstr_trap hi.1 hi.2 (hbody.trans ?_)
  unfold syncRun
  rw [ha.fenced, ha.log, ha.release, hp]
  refine (if_neg Bool.false_ne_true).trans ?_
  exact (if_neg (by rw [ha.noWait]; exact Bool.false_ne_true)).trans (guardMisuse_clear hg)

end Apply

/-! ## The operations at their objects (R155, R158, R159) -/

section Operations
variable {s r r3 : State} {w : Wave} {op : MemOp} {o : ObjAt} {blk : Block} {edge : Word}

/-- The machine as an object's home takes a release's writes on it. -/
def releasedAt (s r : State) (w : Wave) (o : ObjAt) : State :=
  releaseObj r w o.loc (objScope r (waveActor s w).asid o.target)

theorem doArrive_performed (ho : accessObj s w (waveActor s w) op.base 16 16 true op = (.ok o, r))
    (hb : r.waveBlock w = some blk) (ha : arriveAt (releasedAt s r w o) (waveActor s w) (some w) blk o op.arg.toNat
      (homeLatency s w o.target) edge = some r3) :
    doArrive s w op edge = .ok (o, (noteGuards (noteHeld (addSS r3 (waveActor s w) (syncWord o.target op.arg.toNat))
      (waveActor s w) o.target (.arrive o.loc op.arg.toNat)) w.uid [(o.target, 16)]).modWave w.uid fun x =>
        x.recordArrival op.base (readBarrier (releasedAt s r w o) (waveActor s w) o).phase) := by
  unfold releasedAt at ha
  unfold doArrive
  simp only [ho, hb, ha]
  rfl

theorem doArrive_misused (ho : accessObj s w (waveActor s w) op.base 16 16 true op = (.ok o, r))
    (hb : r.waveBlock w = some blk) (ha : arriveAt (releasedAt s r w o) (waveActor s w) (some w) blk o op.arg.toNat
      (homeLatency s w o.target) edge = none) : doArrive s w op edge = .error (.trap .barrierMisuse op.base none) := by
  unfold releasedAt at ha
  unfold doArrive
  simp only [ho, hb, ha]

/-- The second word of a signal object is zero. -/
def signalClean (s : State) (A : Actor) (o : ObjAt) : Prop := field (readTarget s A o.pa 16 o.target) 8 8 = 0

theorem signalAt_clean {A : Actor} (h : signalClean s A o) (who : Option Wave) (fn ctx : Nat) (v : Word) (lat : Nat)
    (edge : Word) : ∃ t, signalAt s A who fn ctx o v lat edge = some t := by
  unfold signalAt
  dsimp only
  rw [if_neg (by simpa [signalClean] using h)]
  split <;> exact ⟨_, rfl⟩

theorem signalAt_dirty {A : Actor} (h : ¬ signalClean s A o) (who : Option Wave) (fn ctx : Nat) (v : Word) (lat : Nat)
    (edge : Word) : signalAt s A who fn ctx o v lat edge = none := by
  unfold signalAt
  exact if_pos (by simpa [signalClean] using h)

theorem doSignal_performed (ho : accessObj s w (waveActor s w) op.base 16 16 true op = (.ok o, r))
    (ha : signalAt (releasedAt s r w o) (waveActor s w) (some w) w.fn w.ctx o op.arg (homeLatency s w o.target) edge = some r3) :
    doSignal s w op edge = .done (noteGuards (noteHeld (addSS r3 (waveActor s w) (syncWord o.target op.arg.toNat))
      (waveActor s w) o.target (.signal o.loc op.arg)) w.uid [(o.target, 16)]) [] (homeLatency s w o.target)
        (syncWord o.target op.arg.toNat) := by
  unfold releasedAt at ha
  unfold doSignal
  simp only [ho, ha]

theorem doSignal_misused (ho : accessObj s w (waveActor s w) op.base 16 16 true op = (.ok o, r))
    (ha : signalAt (releasedAt s r w o) (waveActor s w) (some w) w.fn w.ctx o op.arg (homeLatency s w o.target) edge = none) :
    doSignal s w op edge = .stop (.trap .barrierMisuse op.base none) := by
  unfold releasedAt at ha
  unfold doSignal
  simp only [ho, ha]

/-- The regions bound to an object. -/
def boundTo (r : State) (o : ObjAt) : List Binding := r.bindings.filter fun x => x.obj == o.loc

/-- A region is bound to the object at a base. -/
def boundBase (r : State) (o : ObjAt) (base : Word) : Bool := (boundTo r o).any fun x => x.base == base

/-- A region that may be bound has 1 to 2^40 bytes (R159). -/
def bindable (len : Nat) : Prop := 0 < len ∧ len ≤ 2 ^ 40

theorem not_bindable_iff (x : Word) : ¬ bindable x.toNat ↔ (x = 0 || decide (x.toNat > 2 ^ 40)) = true := by
  have hzero : x = 0 ↔ x.toNat = 0 := ⟨fun h => by rw [h]; rfl, fun h => BitVec.eq_of_toNat_eq h⟩
  unfold bindable
  rw [Bool.or_eq_true, decide_eq_true_eq, decide_eq_true_eq, hzero]
  omega

theorem doBind_on (ho : accessObj s w (waveActor s w) op.base 8 8 false op = (.ok o, r)) (hl : bindable op.arg.toNat) :
    doBind s w op true =
      if boundBase r o op.arg2 then .done { r with bindings := r.bindings.map fun x =>
        if x.obj == o.loc && x.base == op.arg2 then { x with len := op.arg.toNat, lid := w.lid } else x } []
          (homeLatency s w o.target) 0
      else if 8 ≤ (boundTo r o).length then .stop (.trap .barrierMisuse op.base none)
      else .done { r with bindings := r.bindings ++
        [{ obj := o.loc, base := op.arg2, len := op.arg.toNat, lid := w.lid }] } [] (homeLatency s w o.target) 0 := by
  unfold doBind
  dsimp only
  rw [ho]
  exact (if_pos rfl).trans (if_neg fun h => (not_bindable_iff _).mpr h hl)

theorem doBind_unbindable (ho : accessObj s w (waveActor s w) op.base 8 8 false op = (.ok o, r))
    (hl : ¬ bindable op.arg.toNat) : doBind s w op true = .stop (.trap .barrierMisuse op.base none) := by
  unfold doBind
  dsimp only
  rw [ho]
  exact (if_pos rfl).trans (if_pos ((not_bindable_iff _).mp hl))

theorem doBind_off (ho : accessObj s w (waveActor s w) op.base 8 8 false op = (.ok o, r)) :
    doBind s w op false = .done { r with bindings := r.bindings.filter fun x => !(x.obj == o.loc && x.base == op.arg2) } []
      (homeLatency s w o.target) 0 := by
  unfold doBind
  dsimp only
  rw [ho]
  exact if_neg Bool.false_ne_true

end Operations

/-! ## The instructions -/

section Instructions
variable {s r : State} {e : Env} {d a b : OpCode} {o : ObjAt} {blk : Block}

theorem arrive_appliesSync (hg : e.w.guardRep = none)
    (hf : pathFree (past (.arrive a b) s e) e .ls (objOp e .arrive (e.u a) (e.u b) 0 0xD0))
    (hr : releaseFree (past (.arrive a b) s e) e (e.u a)) :
    appliesSync (.arrive a b) s e (objOp e .arrive (e.u a) (e.u b) 0 0xD0) :=
  ⟨rfl, rfl, ⟨fun e s => withGuard e (objRun e s (objOp e .arrive (e.u a) (e.u b) 0 0xD0)), rfl,
    (withGuard_of_none hg _).trans (objRun_of_plain hf.2.2 rfl _)⟩, hf.1, hf.2.1, hr⟩

theorem signal_appliesSync (hf : pathFree (past (.signal a b) s e) e .ls (objOp e .signal (e.u a) (e.u b) 0 0xD0))
    (hr : releaseFree (past (.signal a b) s e) e (e.u a)) :
    appliesSync (.signal a b) s e (objOp e .signal (e.u a) (e.u b) 0 0xD0) :=
  ⟨rfl, rfl, ⟨fun e s => objRun e s (objOp e .signal (e.u a) (e.u b) 0 0xD0), rfl, objRun_of_plain hf.2.2 rfl _⟩,
    hf.1, hf.2.1, hr⟩

theorem bind_appliesSync (hf : pathFree (past (.bind d a b) s e) e .ls (objOp e .bind (e.u a) (e.u d) (e.u b) 0xD0)) :
    appliesSync (.bind d a b) s e (objOp e .bind (e.u a) (e.u d) (e.u b) 0xD0) :=
  ⟨rfl, rfl, ⟨fun e s => objRun e s (objOp e .bind (e.u a) (e.u d) (e.u b) 0xD0), rfl, objRun_of_plain hf.2.2 rfl _⟩,
    hf.1, hf.2.1, rfl⟩

theorem unbind_appliesSync (hf : pathFree (past (.unbind a b) s e) e .ls (objOp e .unbind (e.u a) 0 (e.u b) 0xD0)) :
    appliesSync (.unbind a b) s e (objOp e .unbind (e.u a) 0 (e.u b) 0xD0) :=
  ⟨rfl, rfl, ⟨fun e s => objRun e s (objOp e .unbind (e.u a) 0 (e.u b) 0xD0), rfl, objRun_of_plain hf.2.2 rfl _⟩,
    hf.1, hf.2.1, rfl⟩

theorem performSync_arrive_done {o : ObjAt} {q q1 : State} {w : Wave} {addr n edge : Word}
    (h : doArrive q w (objOp e .arrive addr n 0 0xD0) edge = .ok (o, q1)) :
    performSync q w (objOp e .arrive addr n 0 0xD0) edge =
      .done q1 [] (homeLatency q w o.target) (syncWord o.target n.toNat) := by
  simp only [performSync, show (objOp e .arrive addr n 0 0xD0).kind = .arrive from rfl, h]
  rfl

theorem performSync_arrive_misused {q : State} {w : Wave} {addr n edge : Word} {f : MemResult}
    (h : doArrive q w (objOp e .arrive addr n 0 0xD0) edge = .error f) :
    performSync q w (objOp e .arrive addr n 0 0xD0) edge = .stop f := by
  simp only [performSync, show (objOp e .arrive addr n 0 0xD0).kind = .arrive from rfl, h]

/-- ARRIVE at a barrier that is reached: performed when the barrier takes it, and otherwise misuse. -/
theorem exec_arrive (hi : Issues (.arrive a b) s e)
    (ha : appliesSync (.arrive a b) s e (objOp e .arrive (e.u a) (e.u b) 0 0xD0))
    (ho : reaches (past (.arrive a b) s e) e (e.u a) 16 true o r) (hb : r.waveBlock e.w = some blk) :
    let A := waveActor (past (.arrive a b) s e) e.w
    let lat := homeLatency (past (.arrive a b) s e) e.w o.target
    let r2 := releasedAt (past (.arrive a b) s e) r e.w o
    let x := readBarrier r2 A o
    let n := (e.u b).toNat
    let ss := syncWord o.target n
    (takesArrival x e.w blk n → ∃ r3, arriveAt r2 A (some e.w) blk o n lat e.iss.bundle = some r3 ∧
      exec (.arrive a b) s = .next (synced e ((noteGuards (noteHeld (addSS r3 A ss) A o.target (.arrive o.loc n)) e.w.uid
        [(o.target, 16)]).modWave e.w.uid fun w => w.recordArrival (e.u a) x.phase) lat [] true ss).2) ∧
    (¬ takesArrival x e.w blk n → offGuards (past (.arrive a b) s e) e (e.u a) → exec (.arrive a b) s =
      .next (takeTrap (account s e (Instr.arrive a b).scalarForm) e false .barrierMisuse none (e.u a) 0)) := by
  intro A lat r2 x n ss
  have hobj := ho (objOp e .arrive (e.u a) (e.u b) 0 0xD0)
  refine ⟨fun h => ?_, fun h hg => ?_⟩
  · obtain ⟨r3, hat⟩ := arriveAt_taken h lat e.iss.bundle
    have hdo := doArrive_performed (op := objOp e .arrive (e.u a) (e.u b) 0 0xD0) hobj hb hat
    exact ⟨r3, hat, (exec_sync_done hi ha (performSync_arrive_done hdo) :)⟩
  · have hat := arriveAt_refused h lat e.iss.bundle
    have hdo := doArrive_misused (op := objOp e .arrive (e.u a) (e.u b) 0 0xD0) hobj hb hat
    exact (exec_sync_misuse hi ha hg (performSync_arrive_misused hdo) :)

/-- SIGNAL at an object that is reached: added when its second word is zero, and otherwise misuse. -/
theorem exec_signal (hi : Issues (.signal a b) s e)
    (ha : appliesSync (.signal a b) s e (objOp e .signal (e.u a) (e.u b) 0 0xD0))
    (ho : reaches (past (.signal a b) s e) e (e.u a) 16 true o r) :
    let A := waveActor (past (.signal a b) s e) e.w
    let lat := homeLatency (past (.signal a b) s e) e.w o.target
    let r2 := releasedAt (past (.signal a b) s e) r e.w o
    let ss := syncWord o.target (e.u b).toNat
    (signalClean r2 A o → ∃ r3, signalAt r2 A (some e.w) e.w.fn e.w.ctx o (e.u b) lat e.iss.bundle = some r3 ∧
      exec (.signal a b) s = .next (synced e (noteGuards (noteHeld (addSS r3 A ss) A o.target (.signal o.loc (e.u b))) e.w.uid
        [(o.target, 16)]) lat [] true ss).2) ∧
    (¬ signalClean r2 A o → offGuards (past (.signal a b) s e) e (e.u a) → exec (.signal a b) s =
      .next (takeTrap (account s e (Instr.signal a b).scalarForm) e false .barrierMisuse none (e.u a) 0)) := by
  intro A lat r2 ss
  have hobj := ho (objOp e .signal (e.u a) (e.u b) 0 0xD0)
  refine ⟨fun h => ?_, fun h hg => ?_⟩
  · obtain ⟨r3, hat⟩ := signalAt_clean h (some e.w) e.w.fn e.w.ctx (e.u b) lat e.iss.bundle
    have hdo := doSignal_performed (op := objOp e .signal (e.u a) (e.u b) 0 0xD0) hobj hat
    exact ⟨r3, hat, (exec_sync_done hi ha hdo :)⟩
  · have hdo := doSignal_misused (op := objOp e .signal (e.u a) (e.u b) 0 0xD0) hobj
      (signalAt_dirty h (some e.w) e.w.fn e.w.ctx (e.u b) lat e.iss.bundle)
    exact (exec_sync_misuse hi ha hg hdo :)

section Bind
variable (hi : Issues (.bind d a b) s e) (ha : appliesSync (.bind d a b) s e (objOp e .bind (e.u a) (e.u d) (e.u b) 0xD0))
  (ho : reaches (past (.bind d a b) s e) e (e.u a) 8 false o r)
include hi ha ho

theorem exec_bind_again (hl : bindable (e.u d).toNat) (hb : boundBase r o (e.u b) = true) : exec (.bind d a b) s =
    .next (synced e { r with bindings := r.bindings.map fun x =>
      if x.obj == o.loc && x.base == e.u b then { x with len := (e.u d).toNat, lid := e.w.lid } else x }
        (homeLatency (past (.bind d a b) s e) e.w o.target) [] false 0).2 := by
  have hdo := doBind_on (op := objOp e .bind (e.u a) (e.u d) (e.u b) 0xD0) (ho _) hl
  exact (exec_sync_done hi ha (hdo.trans (if_pos hb)) :)

theorem exec_bind_adds (hl : bindable (e.u d).toNat) (hb : boundBase r o (e.u b) = false) (hn : (boundTo r o).length < 8) :
    exec (.bind d a b) s = .next (synced e { r with bindings := r.bindings ++
      [{ obj := o.loc, base := e.u b, len := (e.u d).toNat, lid := e.w.lid }] }
        (homeLatency (past (.bind d a b) s e) e.w o.target) [] false 0).2 := by
  have hdo := doBind_on (op := objOp e .bind (e.u a) (e.u d) (e.u b) 0xD0) (ho _) hl
  exact (exec_sync_done hi ha (hdo.trans ((if_neg (Bool.eq_false_iff.mp hb)).trans (if_neg (Nat.not_le_of_lt hn)))) :)

theorem exec_bind_misuse (hg : offGuards (past (.bind d a b) s e) e (e.u a))
    (h : ¬ bindable (e.u d).toNat ∨ (boundBase r o (e.u b) = false ∧ 8 ≤ (boundTo r o).length)) : exec (.bind d a b) s =
      .next (takeTrap (account s e (Instr.bind d a b).scalarForm) e false .barrierMisuse none (e.u a) 0) := by
  have hdo : doBind (past (.bind d a b) s e) e.w (objOp e .bind (e.u a) (e.u d) (e.u b) 0xD0) true =
      .stop (.trap .barrierMisuse (e.u a) none) := by
    by_cases hl : bindable (e.u d).toNat
    · obtain ⟨hb, hn⟩ := h.resolve_left (not_not_intro hl)
      have hon := doBind_on (op := objOp e .bind (e.u a) (e.u d) (e.u b) 0xD0) (ho _) hl
      exact hon.trans ((if_neg (Bool.eq_false_iff.mp hb)).trans (if_pos hn))
    · exact doBind_unbindable (op := objOp e .bind (e.u a) (e.u d) (e.u b) 0xD0) (ho _) hl
  exact (exec_sync_misuse hi ha hg hdo :)

end Bind

theorem exec_unbind (hi : Issues (.unbind a b) s e)
    (ha : appliesSync (.unbind a b) s e (objOp e .unbind (e.u a) 0 (e.u b) 0xD0))
    (ho : reaches (past (.unbind a b) s e) e (e.u a) 8 false o r) : exec (.unbind a b) s =
      .next (synced e { r with bindings := r.bindings.filter fun x => !(x.obj == o.loc && x.base == e.u b) }
        (homeLatency (past (.unbind a b) s e) e.w o.target) [] false 0).2 := by
  have hdo := doBind_off (op := objOp e .unbind (e.u a) 0 (e.u b) 0xD0) (ho _)
  exact (exec_sync_done hi ha hdo :)

end Instructions

/-- Settles O26: each instruction by what its object takes, an arrival by the count it leaves, and a completion by each wave's
turn as its waits are satisfied. -/
theorem arrivalsSignalsAndBindings : Obligations.ArrivalsSignalsAndBindings := by
  unfold Obligations.ArrivalsSignalsAndBindings
  refine ⟨fun s e d a b o r blk => ?_, fun s A who blk o n lat edge => ?_, fun s A o x lat => ?_⟩
  · intro A lat open_ misuse v
    refine ⟨?_, ?_, ?_, ?_⟩
    · intro i hi hg hf hr ho hb
      exact exec_arrive hi (arrive_appliesSync hg hf hr) ho hb
    · intro i hi hf hr ho
      exact exec_signal hi (signal_appliesSync hf hr) ho
    · intro i hi hf ho len mine again ok
      have ha := bind_appliesSync hf
      exact ⟨exec_bind_again hi ha ho, exec_bind_adds hi ha ho, fun h hg => exec_bind_misuse hi ha ho hg h⟩
    · intro i hi hf ho
      exact exec_unbind hi (unbind_appliesSync hf) ho
  · intro x hm hk hn hw
    refine ⟨fun hlt => ?_, fun heq => ?_, arriveAt_overfull rfl hk⟩
    · exact (arriveAt_counted rfl hm hk hn hw hlt.le).trans (congrArg some (if_neg (Nat.not_le_of_lt hlt)))
    · exact (arriveAt_counted rfl hm hk hn hw heq.le).trans (congrArg some (if_pos heq.ge))
  · intro t
    refine ⟨fun w hw p hp phase d arrwait n k => completeBarrier_released hw hp, fun hA ht => completeBarrier_object hA ht, ?_⟩
    intro q hn w hw p hp phase d arrwait n k c hpark hwait hone hc hseq
    subst hseq
    obtain ⟨w1, hw1, hpend, hcome⟩ := completeBarrier_wait (lat := lat) hn hw hp hpark hwait hone hc
    have hphase : (b2n (!x.phase)) = if x.phase then 0 else 1 := by cases x.phase <;> rfl
    exact ⟨w1, hw1, hphase ▸ hpend, hcome⟩

end Sys2Proof.Machine
end

section
/-! PROOF. The lane-wise instructions complete, or trap by FPX (O9: R165, R167, R168, R169, R192). -/

namespace Sys2Proof.Machine

/-! ## What detects no zero divisor -/

theorem quiet_ite {c : Nat → Nat → Prop} [∀ l j, Decidable (c l j)] {f g : Nat → Nat → SubRes} (hf : quiet f)
    (hg : quiet g) : quiet fun l j => if c l j then f l j else g l j := by
  intro l j
  dsimp only
  split
  · exact hf l j
  · exact hg l j

theorem numOp_quiet {e : Env} {a b : OpCode} {fi : Int → Int → SubRes} (hfi : ∀ x y, (fi x y).divZero = false)
    (ff : FVal → FVal → FVal × Nat) : quiet (numOp e a b fi ff) :=
  quiet_ite (fun _ _ => rfl) fun _ _ => hfi _ _

/-- A conversion to an integer detects a value outside the type, and no divisor (R181). -/
theorem cvToInt_divZero (t : EType) (rnd : Rnd) (v : FVal) : (cvToInt t rnd v).divZero = false := by
  unfold cvToInt
  split
  case h_1 => rfl
  case h_2 => rfl
  case h_3 =>
    dsimp only
    split <;> rfl

theorem cvSub_divZero (e : Env) (src dst : EType) (rnd : Rnd) (x : Nat) : (cvSub e src dst rnd x).divZero = false := by
  simp only [cvSub, apply_ite SubRes.divZero, cvToInt_divZero]
  simp [plainRes, Env.fl, excRes, Env.ires]

/-! ## Latencies (R165) -/

/-- Class W at a 64-bit type, floating ones included. -/
theorem latW64_eq (t : EType) (d a b : OpCode) : latW64 t = classLatency t (.mul d a b) := by
  cases t <;> rfl

/-! ## Which instructions run lane-wise -/

/-- The instruction runs as `lanewise` of a function that divides by nothing, with the destination and the result type that
`laneForm` gives it and the latency of its class. -/
def RunsLanewise (i : Instr) : Prop :=
  ∃ (d : OpCode) (t : EType → EType) (f : Env → Nat → Nat → SubRes), (∀ et, laneForm et i = some (d, t et)) ∧
    (∀ e, quiet (f e)) ∧ ∀ s, exec i s = runInstr i s fun e s => lanewise e s (classLatency e.et i) (t e.et) d (f e)

section Forms
variable {i : Instr} {d : OpCode} {t : EType → EType} {f : Env → Nat → Nat → SubRes}

theorem RunsLanewise.of_latency {lat : EType → Nat} (hform : ∀ et, laneForm et i = some (d, t et))
    (hrun : ∀ s, exec i s = runInstr i s fun e s => lanewise e s (lat e.et) (t e.et) d (f e))
    (hlat : ∀ et, lat et = classLatency et i) (hq : ∀ e, quiet (f e)) : RunsLanewise i :=
  ⟨d, t, f, hform, hq, fun s => by rw [hrun s, funext hlat]⟩

theorem RunsLanewise.of_fixed {n : Nat} (hform : ∀ et, laneForm et i = some (d, t et))
    (hrun : ∀ s, exec i s = runInstr i s fun e s => lanewise e s n (t e.et) d (f e))
    (hlat : ∀ et, n = classLatency et i) (hq : ∀ e, quiet (f e)) : RunsLanewise i :=
  .of_latency (lat := fun _ => n) hform hrun hlat hq

end Forms

/-- Each instruction of `laneForm`, grouped by the rule for its latency and by why it divides by nothing. -/
theorem runsLanewise_of_laneForm {i : Instr} {et : EType} {x : OpCode × EType} (h : laneForm et i = some x) :
    RunsLanewise i := by
  cases i
  case add d a b | sub d a b =>
    exact .of_latency (lat := latWF64) (fun _ => rfl) (fun _ => rfl) (latWF64_eq_add · d a b)
      fun _ => numOp_quiet (fun _ _ => rfl) _
  case fma d a b | fms d a b | fnma d a b =>
    exact .of_latency (lat := latWF64) (fun _ => rfl) (fun _ => rfl) (latWF64_eq_add · d a b) fun _ _ _ => rfl
  case mul d a b =>
    exact .of_latency (lat := latW64) (fun _ => rfl) (fun _ => rfl) (latW64_eq · d a b)
      fun _ => numOp_quiet (fun _ _ => rfl) _
  case mulhi d a b | madi d a b =>
    exact .of_latency (lat := latW64) (fun _ => rfl) (fun _ => rfl) (latW64_eq · d a b) fun _ _ _ => rfl
  case min | max | abs | neg =>
    exact .of_fixed (fun _ => rfl) (fun _ => rfl) (fun _ => rfl) fun _ => numOp_quiet (fun _ _ => rfl) _
  case dot2 | widen | shfl =>
    exact .of_fixed (fun _ => rfl) (fun _ => rfl) (fun _ => rfl) fun _ => quiet_ite (fun _ _ => rfl) fun _ _ => rfl
  case cvt | cvtr =>
    exact .of_fixed (fun _ => rfl) (fun _ => rfl) (fun _ => rfl) fun _ =>
      quiet_ite (fun _ _ => cvSub_divZero _ _ _ _ _) fun _ _ => rfl
  case pack =>
    exact .of_fixed (fun _ => rfl) (fun _ => rfl) (fun _ => rfl) fun _ _ _ => cvSub_divZero _ _ _ _ _
  case adds | subs | and | or | xor | andn | shl | shrl | shra | rol | sel | mov | movl | movs | iota | dot4 | sad | dec8
      | dec6 | enc8 | enc6 | scaleb | rndint | frcp2 | bcast | pget | bmm | bmmx | pdep | pext | popc | clz | ctz | brev | bfx
      | bfi | gfmul8 | clmul | clmulh | byteperm | bperm | rcp | rsq | sqrt | exp2 | log2 | sinpi | cospi | tanh | divf =>
    exact .of_fixed (fun _ => rfl) (fun _ => rfl) (fun _ => rfl) fun _ _ _ => rfl
  all_goals cases h

/-- Settles O9: each of these instructions is one run of `lanewise`, which completes unless FPX raises FP_EXCEPTION. -/
theorem lanewiseInstructionsComplete : Obligations.LanewiseInstructionsComplete := by
  unfold Obligations.LanewiseInstructionsComplete
  refine ⟨fun i s e d t hi hl hx => ?_, fun i s e d t hi hl => ?_⟩
  all_goals
    obtain ⟨d', t', f, hform, hq, hrun⟩ := runsLanewise_of_laneForm hl
    obtain ⟨rfl, rfl⟩ : d' = d ∧ t' e.et = t := by simpa [hform] using hl
    rw [hrun s]
  · refine ⟨fun l => (laneResult e (t' e.et) d' (f e) l).1, runInstr_done hi.1 hi.2 (lanewise_done _ _ _ _ _ _ hx (hq e)),
      fun l _ j hj hw => ?_⟩
    rw [sub_laneResult _ _ _ _ _ _ hj, hw, if_neg Bool.false_ne_true]
  · rcases lanewise_cases e (past i s e) (classLatency e.et i) (t' e.et) d' (f e) (hq e) with
      hdone | ⟨hx, lanes, detail, htrap⟩
    · exact .inl ⟨_, runInstr_done hi.1 hi.2 hdone⟩
    · exact .inr ⟨hx, lanes, detail, runInstr_trap hi.1 hi.2 htrap⟩

end Sys2Proof.Machine
end

section
/-! PROOF. AND, OR, XOR, ANDN and the shifts, bit by bit (O11: R95, R167, R168, R177). -/

namespace Sys2Proof.Machine

/-! ## Bits of sub-elements -/

theorem testBit_sub (x : Word) {t : EType} (j : Nat) {k : Nat} (hk : k < t.wid) :
    (sub x t j).testBit k = x.getLsbD (t.wid * j + k) := by
  rw [sub, testBit_bits, decide_eq_true hk, Bool.true_and]
  rfl

/-- A bit of a lane's result: its sub-element's where that is written, and the old one elsewhere (R167, R168). -/
theorem getLsbD_laneResult (e : Env) {t : EType} (d : OpCode) (f : Nat → Nat → SubRes) (l : Nat) {j k : Nat}
    (hj : j < cnt t) (hk : k < t.wid) : (laneResult e t d f l).1.getLsbD (t.wid * j + k) =
      if e.writes d l j t then (f l j).val.testBit k else (e.base d l).getLsbD (t.wid * j + k) := by
  rw [← testBit_sub _ j hk, sub_laneResult _ _ _ _ _ _ hj]
  split
  · rw [Nat.testBit_mod_two_pow, decide_eq_true hk, Bool.true_and]
  · exact testBit_sub _ j hk

theorem getLsbD_trimT6 (x : Word) {q : Nat} (hq : 60 ≤ q) : (trimT6 .t6x10 x).getLsbD q = false := by
  have hmask : (0x0FFFFFFFFFFFFFFF : Word).getLsbD q = false := by
    have hval : (0x0FFFFFFFFFFFFFFF : Word).toNat = 2 ^ 60 - 1 := rfl
    rw [BitVec.getLsbD, hval, Nat.testBit_two_pow_sub_one]
    exact decide_eq_false (Nat.not_lt.mpr hq)
  change (x &&& _).getLsbD q = false
  rw [BitVec.getLsbD_and, hmask, Bool.and_false]

theorem wid_pos (t : EType) : 0 < t.wid := by cases t <;> decide

/-! ## Shifts of a number of `w` bits -/

theorem testBit_shl {w n k : Nat} (x : Nat) (hk : k < w) :
    (x * 2 ^ n % 2 ^ w).testBit k = (decide (n ≤ k) && x.testBit (k - n)) := by
  rw [Nat.testBit_mod_two_pow, decide_eq_true hk, Bool.true_and, Nat.testBit_mul_two_pow]

/-- A shift right filling with the top bit is that of the bit vector (R177). -/
theorem lowBits_toSigned_div {w : Nat} (hw : 0 < w) (x n : Nat) :
    lowBits w (toSigned w x / (2 ^ n : Nat)) = ((BitVec.ofNat w x).sshiftRight n).toNat := by
  have hsigned : toSigned w x = (BitVec.ofNat w x).toInt := by
    rw [BitVec.toInt_eq_toNat_cond, BitVec.toNat_ofNat]
    have hpow : 2 ^ w = 2 * 2 ^ (w - 1) := by rw [← Nat.pow_succ', Nat.succ_eq_add_one, Nat.sub_add_cancel hw]
    unfold toSigned
    split <;> split <;> omega
  have hlow (i : Int) : lowBits w i = (BitVec.ofInt w i).toNat := (BitVec.toNat_ofInt i).symm
  have hshift : (BitVec.ofNat w x).toInt / (2 ^ n : Nat) = ((BitVec.ofNat w x).sshiftRight n).toInt := by
    rw [BitVec.toInt_sshiftRight, Int.shiftRight_eq_div_pow]
  rw [hsigned, hshift, hlow, BitVec.ofInt_toInt]

theorem testBit_shrl {w n k x : Nat} (hx : x < 2 ^ w) : (x / 2 ^ n).testBit k = (decide (k + n < w) && x.testBit (k + n)) := by
  rw [Nat.testBit_div_two_pow]
  by_cases hin : k + n < w
  · rw [decide_eq_true hin, Bool.true_and]
  · rw [decide_eq_false hin, Bool.false_and]
    exact Nat.testBit_lt_two_pow (hx.trans_le (Nat.pow_le_pow_right (by decide) (Nat.not_lt.mp hin)))

theorem testBit_shra {w k : Nat} (x n : Nat) (hk : k < w) : (lowBits w (toSigned w x / (2 ^ n : Nat))).testBit k =
    x.testBit (if k + n < w then k + n else w - 1) := by
  have hk' : ¬ w ≤ k := Nat.not_le.mpr hk
  rw [lowBits_toSigned_div (Nat.zero_lt_of_lt hk), BitVec.testBit_toNat, BitVec.getLsbD_sshiftRight, Nat.add_comm n k]
  split
  case isTrue hin => rw [BitVec.getLsbD_ofNat]; simp [hk', hin]
  case isFalse => rw [BitVec.msb_eq_getLsbD_last, BitVec.getLsbD_ofNat]; simp [hk', Nat.zero_lt_of_lt hk]

theorem testBit_rol {w n k x : Nat} (hx : x < 2 ^ w) (hn : n < w) (hk : k < w) :
    ((x * 2 ^ n + x / 2 ^ (w - n)) % 2 ^ w).testBit k = x.testBit ((k + (w - n)) % w) := by
  have hlow : x / 2 ^ (w - n) < 2 ^ n := by
    rw [Nat.div_lt_iff_lt_mul (Nat.two_pow_pos _), ← Nat.pow_add, Nat.add_sub_cancel' hn.le]
    exact hx
  rw [Nat.testBit_mod_two_pow, decide_eq_true hk, Bool.true_and, Nat.mul_comm, Nat.testBit_two_pow_mul_add _ hlow]
  split
  case isTrue hkn => rw [Nat.testBit_div_two_pow, Nat.mod_eq_of_lt (by omega), Nat.add_comm]
  case isFalse hkn =>
    have hwrap : k + (w - n) = k - n + w := by omega
    rw [hwrap, Nat.add_mod_right, Nat.mod_eq_of_lt (by omega)]

/-! ## The instructions -/

section LogicShift
variable {s : State} {e : Env} {i : Instr} {d a b : OpCode}

/-- The instruction completes 4 clocks after its issue; `f` gives each bit of a sub-element that passes, and the others and
the bits past those of a T6x10 word are as R95 and R167 have them. -/
def actsOnBits (i : Instr) (s : State) (e : Env) (d : OpCode) (f : Nat → Nat → Nat → Bool) : Prop :=
  ∃ v : Nat → Word, exec i s = .next (finished e (past i s e) 4 (e.results d v)) ∧
    (∀ l ∈ e.evalLanes d, ∀ j, j < cnt e.et → ∀ k, k < e.et.wid → (v l).getLsbD (e.et.wid * j + k) =
      if e.writes d l j e.et then f l j k else (e.base d l).getLsbD (e.et.wid * j + k)) ∧
    (e.et = .t6x10 → ∀ l ∈ e.evalLanes d, ∀ q, 60 ≤ q → (v l).getLsbD q = false)

theorem exec_bits {g : Env → Nat → Nat → Nat} {f : Nat → Nat → Nat → Bool}
    (hrun : exec i s = runInstr i s fun e s => lanewise e s latS e.et d fun l j => plainRes (g e l j))
    (hbit : ∀ l j k, j < cnt e.et → k < e.et.wid → (g e l j).testBit k = f l j k) (hi : Issues i s e) :
    actsOnBits i s e d f := by
  refine ⟨fun l => (laneResult e e.et d (fun l j => plainRes (g e l j)) l).1, ?_, fun l _ j hj k hk => ?_,
    fun ht l _ q hq => ?_⟩
  · rw [hrun]
    exact runInstr_done hi.1 hi.2 (lanewise_silent _ _ _ _ _ _ fun _ _ => ⟨rfl, rfl⟩)
  · rw [getLsbD_laneResult _ _ _ _ hj hk, ← hbit l j k hj hk]
    rfl
  · unfold laneResult
    rw [ht]
    exact getLsbD_trimT6 _ hq

/-- AND, OR, XOR and ANDN act on the whole lane. -/
theorem exec_logic {g : Word → Word → Word} {f : Bool → Bool → Bool}
    (hrun : exec i s = runInstr i s fun e s =>
      lanewise e s latS e.et d fun l j => plainRes (sub (g (e.x a l) (e.x b l)) e.et j))
    (hbit : ∀ x y q, q < 64 → (g x y).getLsbD q = f (x.getLsbD q) (y.getLsbD q)) (hi : Issues i s e) :
    actsOnBits i s e d fun l j k => f ((e.x a l).getLsbD (e.et.wid * j + k)) ((e.x b l).getLsbD (e.et.wid * j + k)) :=
  exec_bits (g := fun e l j => sub (g (e.x a l) (e.x b l)) e.et j) hrun
    (fun l j k hj hk => by rw [testBit_sub _ j hk, hbit _ _ _ (by have := wid_place hj; omega)]) hi

/-- A shift moves the bits of the sub-element of A: bit `k` comes from the place `src` gives, if it gives one. -/
theorem exec_shift {g : EType → Nat → Nat → Nat} {fill : Nat → Nat → Bool} {src : Nat → Nat → Nat}
    (hrun : exec i s = runInstr i s fun e s => lanewise e s latS e.et d (rawOp e a b (g e.et)))
    (hbit : ∀ x y k, x < 2 ^ e.et.wid → k < e.et.wid →
      (g e.et x y).testBit k = (fill (y % e.et.wid) k && x.testBit (src (y % e.et.wid) k)))
    (hsrc : ∀ n k, n < e.et.wid → k < e.et.wid → fill n k = true → src n k < e.et.wid) (hi : Issues i s e) :
    actsOnBits i s e d fun l j k => fill (sub (e.x b l) e.et j % e.et.wid) k &&
      (e.x a l).getLsbD (e.et.wid * j + src (sub (e.x b l) e.et j % e.et.wid) k) := by
  refine exec_bits (g := fun e l j => g e.et (e.sx a l j) (e.sx b l j)) hrun (fun l j k hj hk => ?_) hi
  refine (hbit _ _ k (sub_lt_two_pow ..) hk).trans ?_
  cases hf : fill (sub (e.x b l) e.et j % e.et.wid) k with
  | false => simp [Env.sx, hf]
  | true =>
    have hlt := hsrc _ k (Nat.mod_lt _ (wid_pos e.et)) hk hf
    simp [Env.sx, hf, testBit_sub _ j hlt]

end LogicShift

/-- Settles O11: the logic operations bit by bit, each shift by the place a bit comes from. -/
theorem logicAndShifts : Obligations.LogicAndShifts := by
  unfold Obligations.LogicAndShifts
  refine fun s e d a b => ⟨?_, ?_, ?_, ?_, ?_, ?_, ?_, ?_⟩
  · exact exec_logic rfl fun _ _ _ _ => BitVec.getLsbD_and
  · exact exec_logic rfl fun _ _ _ _ => BitVec.getLsbD_or
  · exact exec_logic rfl fun _ _ _ _ => BitVec.getLsbD_xor
  · exact exec_logic (g := fun x y => x &&& ~~~y) (f := fun x y => x && !y) rfl fun _ _ _ hq => by simp [hq]
  · exact exec_shift (g := fun t x y => x * 2 ^ (y % t.wid) % 2 ^ t.wid) (fill := fun n k => decide (n ≤ k))
      (src := fun n k => k - n) rfl (fun x _ _ _ hk => testBit_shl x hk) fun _ _ _ _ _ => by omega
  · exact exec_shift (g := fun t x y => x / 2 ^ (y % t.wid)) (fill := fun n k => decide (k + n < e.et.wid))
      (src := fun n k => k + n) rfl (fun _ _ _ hx _ => testBit_shrl hx) fun _ _ _ _ hin => of_decide_eq_true hin
  · exact exec_shift (g := fun t x y => lowBits t.wid (toSigned t.wid x / (2 ^ (y % t.wid) : Nat))) (fill := fun _ _ => true)
      (src := fun n k => if k + n < e.et.wid then k + n else e.et.wid - 1) rfl (fun x y _ _ hk => testBit_shra x _ hk)
      fun _ _ _ _ _ => by split <;> omega
  · exact exec_shift (g := fun t x y => (x * 2 ^ (y % t.wid) + x / 2 ^ (t.wid - y % t.wid)) % 2 ^ t.wid)
      (fill := fun _ _ => true) (src := fun n k => (k + (e.et.wid - n)) % e.et.wid) rfl
      (fun _ y _ hx hk => testBit_rol hx (Nat.mod_lt y (wid_pos _)) hk) fun _ _ _ _ _ => Nat.mod_lt _ (wid_pos _)

end Sys2Proof.Machine
end

section
/-! PROOF. DIVI and REMI, with and without a zero divisor (O12: R86, R169, R174). -/

namespace Sys2Proof.Machine

/-! ## The lanes with a zero divisor -/

theorem note_divZero (x : Detected) (l : Nat) (r : SubRes) :
    (x.note l r).divZero = if r.divZero && !x.divZero.contains l then x.divZero ++ [l] else x.divZero := by
  unfold Detected.note Detected.add Detected.addDiv
  cases r.divZero <;> cases x.divZero.contains l <;> rfl

/-- The turn of one sub-element in `laneResult`. -/
def laneStep (e : Env) (t : EType) (d : OpCode) (f : Nat → Nat → SubRes) (l : Nat) (acc : Word × Detected) (j : Nat) :
    Word × Detected :=
  if e.writes d l j t then (put acc.1 t j (f l j).val, acc.2.note l (f l j)) else acc

theorem laneResult_eq (e : Env) (t : EType) (d : OpCode) (f : Nat → Nat → SubRes) (l : Nat) :
    laneResult e t d f l = ((trimT6 t ((List.range (cnt t)).foldl (laneStep e t d f l) (e.base d l, noneDetected)).1),
      ((List.range (cnt t)).foldl (laneStep e t d f l) (e.base d l, noneDetected)).2) := rfl

/-- A lane is noted once, if a sub-element written in it has a zero divisor (R174). -/
theorem laneResult_divZero_eq (e : Env) (t : EType) (d : OpCode) (f : Nat → Nat → SubRes) (l : Nat) :
    (laneResult e t d f l).2.divZero =
      if (List.range (cnt t)).any fun j => e.writes d l j t && (f l j).divZero then [l] else [] := by
  have key (xs : List Nat) (acc : Word × Detected) (c : Bool) (hacc : acc.2.divZero = if c then [l] else []) :
      (xs.foldl (laneStep e t d f l) acc).2.divZero =
        if c || xs.any fun j => e.writes d l j t && (f l j).divZero then [l] else [] := by
    induction xs generalizing acc c with
    | nil => simpa using hacc
    | cons x xs ih =>
      rw [List.foldl_cons, List.any_cons, ← Bool.or_assoc]
      refine ih _ _ ?_
      unfold laneStep
      cases e.writes d l x t
      · simpa using hacc
      · cases hz : (f l x).divZero <;> cases c <;> simp_all [note_divZero]
  simpa [laneResult_eq] using key (List.range (cnt t)) (e.base d l, noneDetected) false rfl

theorem all_divZero_eq {ls : List Nat} (hn : ls.Nodup) {g : Nat → Detected} {p : Nat → Bool}
    (hg : ∀ l, (g l).divZero = if p l then [l] else []) : (Detected.all (ls.map g)).divZero = ls.filter p := by
  have key (acc : Detected) (hacc : ∀ l ∈ ls, l ∉ acc.divZero) :
      ((ls.map g).foldl Detected.merge acc).divZero = acc.divZero ++ ls.filter p := by
    induction ls generalizing acc with
    | nil => simp
    | cons l ls ih =>
      obtain ⟨hl, hn⟩ := List.nodup_cons.mp hn
      have hstep : (acc.merge (g l)).divZero = acc.divZero ++ if p l then [l] else [] := by
        cases hp : p l <;> simp_all [Detected.merge]
      rw [List.map_cons, List.foldl_cons, ih hn _ ?_, hstep, List.filter_cons]
      · cases p l <;> simp
      · intro k hk
        have hkl : k ≠ l := fun h => hl (h ▸ hk)
        rw [hstep]
        cases p l <;> simp_all
  exact key noneDetected fun _ _ h => nomatch h

theorem evalLanes_nodup (e : Env) (d : OpCode) : (e.evalLanes d).Nodup := by
  unfold Env.evalLanes
  split
  · exact List.nodup_singleton 0
  · exact List.nodup_range.filter _

/-- A zero divisor in a sub-element that is written raises DIVIDE_BY_ZERO for the lanes that have one (R174). -/
theorem lanewise_divideByZero (e : Env) (s : State) (lat : Nat) (t : EType) (d : OpCode) (f : Nat → Nat → SubRes)
    {bad : List Nat} (hbad : bad = (e.evalLanes d).filter fun l =>
      (List.range (cnt t)).any fun j => e.writes d l j t && (f l j).divZero) (hne : bad ≠ []) :
    lanewise e s lat t d f = .trap .divideByZero (some (maskOf bad)) 0 0 := by
  have hdiv := all_divZero_eq (evalLanes_nodup e d) (laneResult_divZero_eq e t d f)
  rw [← hbad] at hdiv
  simp [lanewise, Env.conclude, Env.valueTrap, Function.comp_def, hdiv, hne]

/-! ## What `lanewise` looks at -/

theorem laneResult_congr {e : Env} {t : EType} {d : OpCode} {f g : Nat → Nat → SubRes} {l : Nat}
    (h : ∀ j, j < cnt t → e.writes d l j t = true → f l j = g l j) : laneResult e t d f l = laneResult e t d g l := by
  have hstep (acc : Word × Detected) : ∀ j ∈ List.range (cnt t), laneStep e t d f l acc j = laneStep e t d g l acc j := by
    intro j hj
    unfold laneStep
    split
    case isTrue hw => rw [h j (List.mem_range.mp hj) hw]
    case isFalse => rfl
  rw [laneResult_eq, laneResult_eq, List.foldl_ext _ _ _ hstep]

/-- The function of a lane-wise instruction counts where a sub-element is written, and nowhere else. -/
theorem lanewise_congr {e : Env} {t : EType} {d : OpCode} {f g : Nat → Nat → SubRes}
    (h : ∀ l ∈ e.evalLanes d, ∀ j, j < cnt t → e.writes d l j t = true → f l j = g l j) (s : State) (lat : Nat) :
    lanewise e s lat t d f = lanewise e s lat t d g := by
  have hmap : ((e.evalLanes d).map fun l => (l, laneResult e t d f l)) =
      (e.evalLanes d).map fun l => (l, laneResult e t d g l) :=
    List.map_congr_left fun l hl => by rw [laneResult_congr (h l hl)]
  unfold lanewise
  rw [hmap]

/-! ## DIVI and REMI -/

theorem lowBits_lt (w : Nat) (x : Int) : lowBits w x < 2 ^ w := by
  have := Int.emod_lt_of_pos x (b := (2 ^ w : Nat)) (mod_cast Nat.two_pow_pos w)
  unfold lowBits
  omega

theorem satInt_eq (t : EType) (x : Int) : satInt t x = max (intLo t) (min x (intHi t)) := by
  have hle : intLo t ≤ intHi t := by cases t <;> decide
  unfold satInt
  omega

section Divide
variable {s : State} {e : Env} {i : Instr} {d a b : OpCode}

/-- The lanes that a division of A by B names when it traps: those with a zero divisor in a sub-element it writes. -/
def zeroDivisorLanes (e : Env) (d b : OpCode) : List Nat :=
  (e.evalLanes d).filter fun l => (List.range (cnt e.et)).any fun j => e.writes d l j e.et && e.si b l j == 0

/-- The result of a division whose divisors are not zero: `f` has the dividend, the divisor and the truncated quotient. -/
def quotientOp (e : Env) (a b : OpCode) (f : Int → Int → Int → Int) (l j : Nat) : SubRes :=
  plainRes (lowBits e.et.wid (f (e.si a l j) (e.si b l j) ((e.si a l j).tdiv (e.si b l j))))

theorem exec_division {g : Env → Int → Int → Int → SubRes} {f : Int → Int → Int → Int}
    (hrun : exec i s = runInstr i s fun e s => lanewise e s latD e.et d (divOp e a b (g e)))
    (hg : ∀ x y q, g e x y q = plainRes (lowBits e.et.wid (f x y q))) (hi : Issues i s e) :
    (zeroDivisorLanes e d b ≠ [] → exec i s = .next (takeTrap (account s e i.scalarForm) e i.takesLiteral .divideByZero
      (some (maskOf (zeroDivisorLanes e d b))) 0 0)) ∧
    (zeroDivisorLanes e d b = [] → ∃ v : Nat → Word, exec i s = .next (finished e (past i s e) 40 (e.results d v)) ∧
      ∀ l ∈ e.evalLanes d, ∀ j, j < cnt e.et → e.writes d l j e.et = true →
        sub (v l) e.et j = lowBits e.et.wid (f (e.si a l j) (e.si b l j) ((e.si a l j).tdiv (e.si b l j)))) := by
  have hzero (l j : Nat) : (divOp e a b (g e) l j).divZero = (e.si b l j == 0) := by
    unfold divOp
    dsimp only
    split
    case isTrue h => simp [h]
    case isFalse h => simp [h, hg, plainRes]
  refine ⟨fun hbad => ?_, fun hnone => ?_⟩
  · rw [hrun]
    refine runInstr_trap hi.1 hi.2 (lanewise_divideByZero e _ latD e.et d _ ?_ hbad)
    simp only [zeroDivisorLanes, hzero]
  · have hquot : ∀ l ∈ e.evalLanes d, ∀ j, j < cnt e.et → e.writes d l j e.et = true →
        divOp e a b (g e) l j = quotientOp e a b f l j := by
      intro l hl j hj hw
      have hy : ¬ e.si b l j = 0 := fun hy => by
        have hall := List.filter_eq_nil_iff.mp hnone l hl
        simp only [List.any_eq_true, List.mem_range, not_exists, not_and] at hall
        exact hall j hj (by simp [hw, hy])
      exact (if_neg hy).trans (hg _ _ _)
    refine ⟨fun l => (laneResult e e.et d (quotientOp e a b f) l).1, ?_, fun l _ j hj hw => ?_⟩
    · rw [hrun]
      refine runInstr_done hi.1 hi.2 ((lanewise_congr hquot _ _).trans ?_)
      exact lanewise_silent _ _ _ _ _ _ fun _ _ => ⟨rfl, rfl⟩
    · rw [sub_laneResult _ _ _ _ _ _ hj, if_pos hw]
      exact Nat.mod_eq_of_lt (lowBits_lt _ _)

end Divide

/-- Settles O12: a zero divisor traps for its lanes; without one the quotient or remainder is the value wherever one is
written. -/
theorem division : Obligations.Division := by
  unfold Obligations.Division
  refine fun s e d a b _ => ⟨?_, ?_⟩
  · refine exec_division (f := fun _ _ q => if modeSat e.w.mode then max (intLo e.et) (min q (intHi e.et)) else q) rfl
      fun _ _ q => ?_
    rw [← satInt_eq]
    rfl
  · exact exec_division (f := fun x y q => x - y * q) rfl fun _ _ _ => rfl

end Sys2Proof.Machine
end

section
/-! PROOF. Results that are ready at a latency, results of a whole lane (R168, R193), and numbers put together from digits. -/

namespace Sys2Proof.Machine

/-! ## Numbers put together from digits -/

theorem sumNat_map_range_succ (g : Nat → Nat) (n : Nat) :
    sumNat ((List.range (n + 1)).map g) = sumNat ((List.range n).map g) + g n := by
  simp [sumNat, List.range_succ]

section Digits
variable {w : Nat} {g : Nat → Nat}

theorem sumNat_digits_lt (hg : ∀ j, g j < 2 ^ w) (n : Nat) :
    sumNat ((List.range n).map fun j => g j * 2 ^ (w * j)) < 2 ^ (w * n) := by
  induction n with
  | zero => simp [sumNat]
  | succ n ih =>
    have hle := Nat.mul_le_mul_right (2 ^ (w * n)) (Nat.succ_le_of_lt (hg n))
    rw [sumNat_map_range_succ, Nat.mul_succ, Nat.pow_add, Nat.mul_comm (2 ^ (w * n))]
    rw [Nat.succ_mul] at hle
    omega

/-- A bit of a number put together from digits of `w` bits is that of its digit. -/
theorem testBit_sumNat_digits (hg : ∀ j, g j < 2 ^ w) (n p : Nat) :
    (sumNat ((List.range n).map fun j => g j * 2 ^ (w * j))).testBit p =
      (decide (p < w * n) && (g (p / w)).testBit (p % w)) := by
  induction n with
  | zero => simp [sumNat]
  | succ n ih =>
    rw [sumNat_map_range_succ, Nat.add_comm, Nat.mul_comm (g n), Nat.testBit_two_pow_mul_add _ (sumNat_digits_lt hg n), ih,
      Nat.mul_succ]
    split
    case isTrue hlow => simp [hlow, Nat.lt_add_right w hlow]
    case isFalse hlow =>
      by_cases hp : p < w * n + w
      · have hdiv : p / w = n :=
          Nat.div_eq_of_lt_le (by rw [Nat.mul_comm]; omega) (by rw [Nat.mul_comm, Nat.mul_succ]; exact hp)
        have hmod : p % w = p - w * n := by rw [Nat.mod_eq_sub, hdiv]
        simp [hp, hdiv, hmod]
      · rw [decide_eq_false hp, Bool.false_and]
        exact Nat.testBit_lt_two_pow ((hg n).trans_le (Nat.pow_le_pow_right (by decide) (by omega)))

end Digits

theorem testBit_bitsWhere (n : Nat) (f : Nat → Bool) (p : Nat) : (bitsWhere n f).testBit p = (decide (p < n) && f p) := by
  have hdigit (q : Nat) : b2n (f q) < 2 ^ 1 := by cases f q <;> decide
  have hbit := testBit_sumNat_digits hdigit n p
  simp only [Nat.one_mul, Nat.div_one, Nat.mod_one] at hbit
  refine hbit.trans ?_
  cases f p <;> simp [b2n]

theorem getLsbD_w64 (x : Nat) {q : Nat} (hq : q < 64) : (w64 x).getLsbD q = x.testBit q := by
  rw [w64, BitVec.getLsbD_ofNat, decide_eq_true hq, Bool.true_and]

/-! ## Results at a latency -/

section Results
variable {s : State} {e : Env} {i : Instr} {d : OpCode} {lat : Nat}

theorem exec_finish {ws : Env → List RegWrite} (hrun : exec i s = runInstr i s fun e s => e.finish s lat (ws e))
    (hi : Issues i s e) : exec i s = .next (finished e (past i s e) lat (ws e)) :=
  hrun.trans (runInstr_done hi.1 hi.2 rfl)

/-- A 64-bit result fills its lane where the guard passes. -/
theorem laneResult_whole (e : Env) (d : OpCode) (f : Nat → Nat → SubRes) (l : Nat) : (laneResult e .n64 d f l).1 =
    if e.writes d l 0 .n64 then w64 (f l 0).val else e.base d l := by
  apply BitVec.eq_of_getLsbD_eq
  intro q hq
  have hbit := getLsbD_laneResult e (t := .n64) d f l (j := 0) (k := q) (by decide) hq
  rw [Nat.mul_zero, Nat.zero_add] at hbit
  rw [hbit]
  split
  · exact (getLsbD_w64 _ hq).symm
  · rfl

/-- An instruction of one 64-bit result per lane. -/
theorem exec_whole {g : Env → Nat → Nat}
    (hrun : exec i s = runInstr i s fun e s => lanewise e s lat .n64 d fun l _ => plainRes (g e l)) (hi : Issues i s e) :
    ∃ v : Nat → Word, exec i s = .next (finished e (past i s e) lat (e.results d v)) ∧
      ∀ l, v l = if e.writes d l 0 .n64 then w64 (g e l) else e.base d l :=
  ⟨fun l => (laneResult e .n64 d (fun l _ => plainRes (g e l)) l).1,
    hrun.trans (runInstr_done hi.1 hi.2 (lanewise_silent _ _ _ _ _ _ fun _ _ => ⟨rfl, rfl⟩)),
    fun l => laneResult_whole e d _ l⟩

/-- With FPX clear and no zero divisor detected, what an instruction concludes is ready at its latency (R169, R174). -/
theorem exec_conclude {det : Env → Detected} {ws : Env → List RegWrite}
    (hrun : exec i s = runInstr i s fun e s => e.conclude s lat (det e) (ws e)) (hx : modeFpx e.w.mode = false)
    (hdiv : (det e).divZero = []) (hi : Issues i s e) : exec i s = .next (finished e (past i s e) lat (ws e)) := by
  refine hrun.trans (runInstr_done hi.1 hi.2 ?_)
  simp [Env.conclude, Env.valueTrap, hdiv, hx, Env.finish, finished]

end Results

end Sys2Proof.Machine
end

section
/-! PROOF. BALLOT and VOTE (O13: R189). -/

namespace Sys2Proof.Machine

section Votes
variable {e : Env} {p : OpCode}

/-- The lanes that vote: active, and passing the guard at lane granularity. -/
def voters (e : Env) : List Nat := e.lanes.filter fun l => e.pass l 0 .i64

/-- A lane's vote: bit 0 of the predicate the code names. -/
def votesYes (e : Env) (p : OpCode) (l : Nat) : Bool := (e.w.preg (p.toNat - 0xC0) l).getLsbD 0

theorem ballots_eq (hp : isPCode p = true) : ballots e p = (voters e).map fun l => (l, votesYes e p l) := by
  unfold ballots Env.pbyte
  rw [hp]
  rfl

theorem voters_lt {q : Nat} (h : q ∈ voters e) : q < 32 :=
  List.mem_range.mp (List.mem_filter.mp (List.mem_filter.mp h).1).1

/-- The mask BALLOT writes has the bits of the voters whose bit is set. -/
theorem getLsbD_ballot (hp : isPCode p = true) (q : Nat) :
    ((maskOf (((ballots e p).filter Prod.snd).map Prod.fst)).setWidth 64).getLsbD q =
      decide (q ∈ voters e ∧ votesYes e p q = true) := by
  have hmem : q ∈ ((ballots e p).filter Prod.snd).map Prod.fst ↔ q ∈ voters e ∧ votesYes e p q = true := by
    rw [ballots_eq hp]
    simp
  rw [BitVec.getLsbD_setWidth, maskOf, getLsbD_foldl_or]
  by_cases h : q ∈ voters e ∧ votesYes e p q = true
  · have hq := voters_lt h.1
    simp [hmem, h, hq, Nat.lt_trans hq (by decide : 32 < 64)]
  · simp [hmem, h]

/-- VOTE's value by its mode. -/
theorem voteValue_ballots (hp : isPCode p = true) (mode : Nat) :
    voteValue mode ((ballots e p).map Prod.snd) = match mode with
      | 0 => if (voters e).all (votesYes e p) then 1 else 0
      | 1 => if (voters e).any (votesYes e p) then 1 else 0
      | 2 => if (voters e).all (votesYes e p) ∨ (voters e).any (votesYes e p) = false then 1 else 0
      | _ => ((voters e).filter (votesYes e p)).length := by
  rw [ballots_eq hp, List.map_map]
  match mode with
  | 0 | 1 | 2 | _ + 3 => simp [voteValue, b2n, Function.comp_def, List.filter_map]

end Votes

/-- Settles O13: the ballots are the voters with their bits. -/
theorem ballotAndVote : Obligations.BallotAndVote := by
  unfold Obligations.BallotAndVote
  refine fun s e d p lit hp => ⟨fun hi => ⟨_, exec_finish rfl hi, getLsbD_ballot hp⟩, fun hi => ?_⟩
  refine (exec_finish (lat := latX) rfl hi).trans ?_
  rw [voteValue_ballots hp]
  rfl

end Sys2Proof.Machine
end

section
/-! PROOF. PLOGIC, PSET, PMOV and PGET (O14: R190). -/

namespace Sys2Proof.Machine

section Predicates
variable {s : State} {e : Env} {i : Instr} {d : OpCode}

/-- The guard lets bit `j` of a lane's predicate byte through: GEN is 0, or bit `j` of the guard predicate differs from
GINV. -/
def guardOpen (e : Env) (l j : Nat) : Bool :=
  !modeGen e.w.mode || ((e.w.preg (modeGp e.w.mode) l).getLsbD j != modeGinv e.w.mode)

theorem getLsbD_guardByte (e : Env) (l : Nat) {j : Nat} (hj : j < 8) : (e.guardByte l).getLsbD j = guardOpen e l j := by
  unfold Env.guardByte guardOpen
  cases modeGen e.w.mode
  case false =>
    have hones : (BitVec.allOnes 8).getLsbD j = true := by rw [BitVec.getLsbD_allOnes, decide_eq_true hj]
    exact hones
  case true => cases modeGinv e.w.mode <;> simp [hj]

/-- A byte taken from another under a mask, bit by bit. -/
theorem getLsbD_merge (old new g : Byte) {j : Nat} (hj : j < 8) :
    ((old &&& ~~~g) ||| (new &&& g)).getLsbD j = if g.getLsbD j then new.getLsbD j else old.getLsbD j := by
  simp only [BitVec.getLsbD_or, BitVec.getLsbD_and, BitVec.getLsbD_not, decide_eq_true hj, Bool.true_and]
  cases g.getLsbD j <;> simp

theorem exec_predicate {g : Env → Nat → Byte} {f : Nat → Nat → Bool}
    (hrun : exec i s = runInstr i s fun e s => predicateOp e s d (g e))
    (hbit : ∀ l j, j < 8 → (g e l).getLsbD j = f l j) (hi : Issues i s e) : ∃ v : Nat → Byte,
      exec i s = .next (finished e (past i s e) 2 (e.lanes.flatMap fun l => destWrite d l ((v l).setWidth 64))) ∧
      ∀ l ∈ e.lanes, ∀ j, j < 8 → (v l).getLsbD j = if guardOpen e l j then f l j else (e.pbyte d l).getLsbD j := by
  refine ⟨fun l => (e.pbyte d l &&& ~~~e.guardByte l) ||| (g e l &&& e.guardByte l), exec_finish hrun hi,
    fun l _ j hj => ?_⟩
  rw [getLsbD_merge _ _ _ hj, getLsbD_guardByte e l hj, hbit l j hj]

/-- PLOGIC's byte: each bit is the truth table's for the two source bits. -/
theorem getLsbD_plogic (lit : Word32) (x y : Byte) {j : Nat} (hj : j < 8) :
    (BitVec.ofNat 8 (sumNat ((List.range 8).map fun j =>
      b2n (bitOf lit.toNat (2 * b2n (bitOf x.toNat j) + b2n (bitOf y.toNat j))) * 2 ^ j))).getLsbD j =
    lit.getLsbD (2 * (if x.getLsbD j then 1 else 0) + if y.getLsbD j then 1 else 0) := by
  have hbit := testBit_bitsWhere 8 (fun j => bitOf lit.toNat (2 * b2n (bitOf x.toNat j) + b2n (bitOf y.toNat j))) j
  rw [decide_eq_true hj, Bool.true_and] at hbit
  rw [BitVec.getLsbD_ofNat, decide_eq_true hj, Bool.true_and]
  exact hbit

end Predicates

/-- Settles O14: each byte bit by bit under the guard, and PGET's as a result of the whole lane. -/
theorem predicateInstructions : Obligations.PredicateInstructions := by
  unfold Obligations.PredicateInstructions
  refine fun s e d a b lit => ⟨?_, ?_, ?_, fun hi => ?_⟩
  · exact exec_predicate rfl fun l j hj => getLsbD_plogic lit (e.pbyte a l) (e.pbyte b l) hj
  · exact exec_predicate rfl fun l j hj => by simp [hj]
  · exact exec_predicate rfl fun l j hj => by simp [hj]
  · obtain ⟨v, hexec, hv⟩ := exec_whole (g := fun e l => (e.pbyte a l).toNat) rfl hi
    refine ⟨v, hexec, fun l _ => (hv l).trans ?_⟩
    rw [w64, BitVec.ofNat_toNat]
    rfl

end Sys2Proof.Machine
end

section
/-! PROOF. LREDUCE, LSCAN, BPLD and BPERM (O16: R169, R188, R200, R201). -/

namespace Sys2Proof.Machine

/-! ## LREDUCE and LSCAN (R188) -/

section Reduce
variable {e : Env}

/-- The combination at a position of the contributors among some lanes. -/
def combineAt (e : Env) (op : Nat) (a : OpCode) (ls : List Nat) (j : Nat) : SubRes :=
  combine e op ((ls.filter fun l => e.pass l j e.et).map fun l => e.sx a l j)

theorem sub_combineLanes (e : Env) (op : Nat) (a : OpCode) (ls : List Nat) {j : Nat} (hj : j < cnt e.et) :
    sub (combineLanes e op a ls).1 e.et j = (combineAt e op a ls j).val % 2 ^ e.et.wid := by
  refine (read_foldl_range (read := fun acc : Word × Nat => sub acc.1 e.et j) (pass := fun _ => true)
    (write := fun acc i => (put acc.1 e.et i (combineAt e op a ls i).val, acc.2 ||| (combineAt e op a ls i).exc))
    hj (fun acc i hi => ?_) (0, 0) :)
  refine (sub_put _ _ _ _ _ hi).trans ?_
  rcases eq_or_ne i j with rfl | hij
  · simp
  · simp [hij, hij.symm]

/-- Adding up sub-elements as integers is adding them up as numbers, modulo two to their width (R86). -/
theorem foldl_intOf_modEq (t : EType) (xs : List Nat) :
    xs.foldl (fun acc x => acc + intOf t x) 0 ≡ (xs.sum : Nat) [ZMOD (2 ^ t.wid : Nat)] := by
  rw [List.sum_eq_foldl]
  suffices key : ∀ (c : Int) (k : Nat), c ≡ k [ZMOD (2 ^ t.wid : Nat)] →
      xs.foldl (fun acc x => acc + intOf t x) c ≡ (xs.foldl (· + ·) k : Nat) [ZMOD (2 ^ t.wid : Nat)] from key 0 0 rfl
  induction xs with
  | nil => exact fun _ _ h => h
  | cons x xs ih =>
    refine fun c k h => ih _ _ ?_
    push_cast
    exact h.add (intOf_modEq t x)

theorem combine_sum_val (hint : e.et.isInt = true) (hsat : modeSat e.w.mode = false) (xs : List Nat) :
    (combine e 0 xs).val = xs.sum % 2 ^ e.et.wid := by
  have hval : combine e 0 xs = e.ires e.et (xs.foldl (fun acc x => acc + intOf e.et x) 0) := by
    simp [combine, isFloat_of_isInt hint]
  rw [hval]
  exact ires_val_of_modEq hsat (foldl_intOf_modEq e.et xs)

/-- What LSCAN gives a lane: the combination over the lanes before it, and over itself unless the scan is exclusive. -/
def scanLane (e : Env) (a : OpCode) (lit : Word32) (l : Nat) : Word × Nat :=
  combineLanes e (litBits lit 0 4) a (e.lanes.filter fun k => decide (k < l) || (!bitOf lit.toNat 4 && k == l))

theorem detected_add_divZero (xs : List (Nat × Word × Nat)) (det : Detected) :
    (xs.foldl (fun (det : Detected) x => det.add x.1 x.2.2) det).divZero = det.divZero :=
  foldl_keeps (fun x y : Detected => y.divZero = x.divZero) (fun _ => rfl) (fun _ _ _ hab hbc => hbc.trans hab)
    (fun (det : Detected) x => det.add x.1 x.2.2) (fun _ _ => rfl) xs det

end Reduce

/-! ## Permutation slots (R200, R201) -/

/-- A bit of the six registers a slot is loaded from. -/
theorem testBit_permSource (w : Wave) (n p : Nat) (hp : p < 384) :
    (permSource w n).testBit p = (w.sreg (n + p / 64)).getLsbD (p % 64) := by
  have hbit := testBit_sumNat_digits (w := 64) (g := fun j => (w.sreg (n + j)).toNat) (fun _ => BitVec.isLt _) 6 p
  rw [decide_eq_true hp, Bool.true_and] at hbit
  exact hbit

/-- Index `j` of a slot is bits `6 j + 5` to `6 j` of its source. -/
theorem getLsbD_slotIndex (w : Wave) (n : Nat) {j : Nat} (hj : j < 64) (q : Nat) :
    (w64 (bits (permSource w n) (6 * j) 6)).getLsbD q =
      (decide (q < 6) && (w.sreg (n + (6 * j + q) / 64)).getLsbD ((6 * j + q) % 64)) := by
  rw [w64, BitVec.getLsbD_ofNat, testBit_bits]
  by_cases hq : q < 6
  · rw [testBit_permSource _ _ _ (by omega), decide_eq_true (show q < 64 by omega), Bool.true_and]
  · simp [hq]

/-- Settles O16: a reduction's sum position by position, a slot's indexes out of the six registers, and BPERM's result bit by
bit. -/
theorem reductionsAndPermutations : Obligations.ReductionsAndPermutations := by
  unfold Obligations.ReductionsAndPermutations
  refine ⟨fun s e d a lit hx => ⟨fun hi => ?_, fun hi => ?_⟩, fun s e d a k => ⟨fun hi => ?_, fun hi => ?_⟩⟩
  · refine ⟨(combineLanes e (litBits lit 0 4) a e.lanes).1, exec_conclude rfl hx rfl hi,
      fun hint hsat hop j hj => ?_⟩
    rw [hop, sub_combineLanes e 0 a e.lanes hj, combineAt, combine_sum_val hint hsat, Nat.mod_mod]
    rfl
  · refine ⟨fun l => (scanLane e a lit l).1, (exec_conclude rfl hx (detected_add_divZero _ _) hi).trans ?_⟩
    rw [List.flatMap_map]
    rfl
  · exact ⟨_, exec_finish rfl hi, fun j hj q => getLsbD_slotIndex e.w (a.toNat - 0x80) hj q⟩
  · obtain ⟨v, hexec, hv⟩ :=
      exec_whole (g := fun e l => bitsWhere 64 fun j => bitOf (e.x a l).toNat (permIndex e.w k.toNat j)) rfl hi
    refine ⟨v, hexec, fun l _ j hj => ?_⟩
    rw [hv l, apply_ite (BitVec.getLsbD · j), getLsbD_w64 _ hj, testBit_bitsWhere, decide_eq_true hj, Bool.true_and]
    rfl

end Sys2Proof.Machine
end

section
/-! PROOF. BMM and BMMX (O15: R195). -/

namespace Sys2Proof.Machine

/-! ## The product of two 8 by 8 bit matrices -/

/-- Row `r`, column `c` of the product: the XOR over `k` of a's row `r`, column `k` and b's row `k`, column `c` (R195). -/
def productCell (a b : Word) (r c : Nat) : Bool :=
  (List.range 8).foldl (fun acc k => acc ^^ (a.getLsbD (8 * r + k) && b.getLsbD (8 * k + c))) false

theorem testBit_bmmValue (a b : Word) {r c : Nat} (hr : r < 8) (hc : c < 8) :
    (bmmValue a.toNat b.toNat).testBit (8 * r + c) = productCell a b r c := by
  have hplace : 8 * r + c < 64 := by omega
  have hrow : (8 * r + c) / 8 * 8 = 8 * r := by omega
  have hcol : (8 * r + c) % 8 = c := by omega
  rw [bmmValue, testBit_bitsWhere, decide_eq_true hplace, Bool.true_and, hrow, hcol]
  simp only [Bool.bne_eq_xor]
  rfl

/-- A 64-bit result whose bits are given row by row: under the guard each is its cell's, elsewhere the old one (R193). -/
theorem exec_matrix {s : State} {e : Env} {i : Instr} {d : OpCode} {g : Env → Nat → Nat} {f : Nat → Nat → Nat → Bool}
    (hrun : exec i s = runInstr i s fun e s => wholeLane e s latB6 d (g e))
    (hbit : ∀ l r c, r < 8 → c < 8 → (g e l).testBit (8 * r + c) = f l r c) (hi : Issues i s e) :
    ∃ v : Nat → Word, exec i s = .next (finished e (past i s e) 6 (e.results d v)) ∧
      ∀ l ∈ e.evalLanes d, ∀ r c, r < 8 → c < 8 → (v l).getLsbD (8 * r + c) =
        if e.writes d l 0 .i64 then f l r c else (e.base d l).getLsbD (8 * r + c) := by
  obtain ⟨v, hexec, hv⟩ := exec_whole hrun hi
  refine ⟨v, hexec, fun l _ r c hr hc => ?_⟩
  rw [hv l, apply_ite (BitVec.getLsbD · (8 * r + c)), getLsbD_w64 _ (by omega), hbit l r c hr hc]
  rfl

/-- Settles O15: bit `8 r + c` of the product is its cell, and BMMX's the XOR of that with the old value's bit. -/
theorem bitMatrixMultiply : Obligations.BitMatrixMultiply := by
  unfold Obligations.BitMatrixMultiply
  refine fun s e d a b => ⟨?_, ?_⟩
  · exact exec_matrix rfl fun l r c hr hc => testBit_bmmValue (e.x a l) (e.x b l) hr hc
  · refine exec_matrix rfl fun l r c hr hc => ?_
    exact (Nat.testBit_xor _ _ _).trans
      (congrArg ((e.base d l).getLsbD (8 * r + c) ^^ ·) (testBit_bmmValue (e.x a l) (e.x b l) hr hc))

end Sys2Proof.Machine
end

section
/-! PROOF. What the per-lane loads, the failed checks of an access and a prefetch leave (O27, O30, O32: R214 to R217, R221, R222,
R228). -/

namespace Sys2Proof.Machine

/-! ## The per-lane loads (R214 to R217, R221, R222) -/

/-- A per-lane load extends its value by the sign. -/
def loadSigned (et : EType) (i : Instr) : Bool := (loadForm et i).any fun x => x.2.2.2.2.2

section LoadForm
variable {et : EType} {i : Instr} {form : AddrForm} {d a b : OpCode} {width : Nat} {signed : Bool}

theorem loadSigned_eq (h : loadForm et i = some (form, d, a, b, width, signed)) : loadSigned et i = signed := by
  unfold loadSigned
  rw [h]
  rfl

/-- A per-lane load runs as the load of its form. -/
theorem exec_loadForm (h : loadForm et i = some (form, d, a, b, width, signed)) (s : State) :
    exec i s = runInstr i s fun e s => lanesRun e s (loadOp e form d a b width (loadSigned e.et i)) := by
  unfold loadForm at h
  split at h
  case h_8 => cases h
  all_goals cases h; rfl

/-- What an issuing load's own effect comes to. -/
theorem loadForm_run {e : Env} {s : State} {x : Effect} (h : loadForm e.et i = some (form, d, a, b, width, signed))
    (hx : lanesRun e s (loadOp e form d a b width signed) = x) :
    lanesRun e s (loadOp e form d a b width (loadSigned e.et i)) = x := by
  rw [loadSigned_eq h]; exact hx

end LoadForm

theorem LinesMoved.fns {s t : State} (h : LinesMoved s t) : t.fns = s.fns := by rw [h.frame]; rfl

/-- Settles O27: the load is performed, and reaching its lines, noting its guard reports and queuing its completion change no
byte. -/
theorem loadsComplete : Obligations.LoadsComplete := by
  unfold Obligations.LoadsComplete
  refine ⟨fun i s e form d a b width signed hi hform hfree => ?_, fun s A va n k => ?_⟩
  · intro r A lanes ts r1 hchk hx value
    have hmove : CacheMove r r1 := by simpa only [hx] using xlateLanes_move r e.w A form .read lanes
    have hload := performLanes_load (op := loadOp e form d a b width signed) rfl (laneAccesses_width e d a b width _ _) hchk hx
    have hnotes := noteGuards_notes r1 e.w.uid (widths ts)
    have hrun := lanesRun_ok hi hfree hload (hnotes.2.trans (SameWaves.of_unreserved hmove.waves))
    have hmem := hnotes.1.trans (performed_sameMemory e _ (accessLatency r e.w true form.isNeighbour (widths ts))
      (ts.flatMap fun x => destWrite d x.1.lane (value x)) .ls false 0)
    have hpast := past_sameMemory i s e
    exact ⟨_, accessLatency r e.w true form.isNeighbour (widths ts),
      (exec_loadForm hform s).trans (runInstr_done hi.1 hi.2 (loadForm_run hform hrun)), rfl,
      hmem.scratch.trans (hmove.scratch.trans hpast.scratch), hmem.weight.trans (hmove.weight.trans hpast.weight),
      fun hc q => (hmem.physByte q).trans ((hmove.from_past hc).2 q)⟩
  · have hm := xlate_move s A va n k
    exact ⟨hm.scratch, hm.weight, hm.bytes⟩

/-! ## Failed checks (R214, R215, R221) -/

/-- A check that some lanes fail is the access's outcome, before it reaches any line. -/
theorem performLanes_fails {s : State} {w : Wave} {op : MemOp} {n : Nat} {f : Cause × List LaneAcc}
    (hn : ∀ l ∈ op.lanes, l.width = n) (hf : firstFailure (laneChecks s w op.form n op.kind.writes) op.lanes = some f) :
    performLanes s w op = checkTrap op.form f := by
  unfold performLanes
  dsimp only
  rw [firstFailure_align hn, hf]

/-- A memory instruction that is no tile's and that its performance refuses takes the exception. -/
theorem memRun_trap {e : Env} {path : AccessPath} {s : State} {op : MemOp} {perform : State → Wave → MemOp → MemResult} {c : Cause}
    {addr : Word} {lanes : Option Mask} (hf : fenced e.w path = false) (ho : overlapsLog s e.w op = false)
    (ht : op.kind ≠ .tileLoad ∧ op.kind ≠ .tileStore) (hp : perform s e.w op = .trap c addr lanes) :
    memRun e path s op perform = .trap c lanes addr 0 := by
  unfold memRun
  rw [hf, ho, hp]
  change tilePinTrap e op (.trap c lanes addr 0) = _
  by_cases hc : c = .pinLost
  · subst hc
    unfold tilePinTrap
    dsimp only
    split
    · rename_i h; exact absurd h ht.1
    · rename_i h; exact absurd h ht.2
    · exact if_neg Bool.false_ne_true
  · unfold tilePinTrap
    split
    · rename_i h; cases h; exact absurd rfl hc
    · rfl

/-- The address a failed check of a lane names (R215, R221). -/
def failedAddr (form : AddrForm) (c : Cause) (l : LaneAcc) : Word :=
  match form with
  | .neighbour k => if c = .remoteScratchGone then w64 (0xFD * 2 ^ 56 + k * 2 ^ 24 + l.addr.toNat) else l.addr
  | _ => l.addr

/-- A load or store of lanes with a lane that fails a check takes that check's exception. -/
theorem lanesRun_fails {s : State} {e : Env} {op : MemOp} {n : Nat} {c : Cause} {l : LaneAcc} {ls : List LaneAcc}
    (hfree : accessFree s e .ls op) (ht : op.kind ≠ .tileLoad ∧ op.kind ≠ .tileStore) (hn : ∀ l ∈ op.lanes, l.width = n)
    (hf : firstFailure (laneChecks s e.w op.form n op.kind.writes) op.lanes = some (c, l :: ls)) :
    lanesRun e s op = .trap c (some (maskOf ((l :: ls).map LaneAcc.lane))) (failedAddr op.form c l) 0 := by
  obtain ⟨hfence, hlog, htx⟩ := hfree
  have hp : performMixed s e.w op = checkTrap op.form (c, l :: ls) := (performMixed_of_noTx htx).trans (performLanes_fails hn hf)
  unfold lanesRun
  rw [memRun_trap hfence hlog ht hp]
  rfl

/-- Settles O30: the first check that fails is the access's outcome, and it is performed nowhere before it. -/
theorem accessChecksTrap : Obligations.AccessChecksTrap := by
  unfold Obligations.AccessChecksTrap
  intro i s e form d a b width writes signed c l ls hi hform hf
  rcases hform with ⟨rfl, hform, hfree⟩ | ⟨rfl, hform, hfree⟩
  · have hrun := lanesRun_fails (n := width) hfree ⟨(fun h => nomatch h), fun h => nomatch h⟩ (laneAccesses_width e d a b width _ _) hf
    exact (exec_loadForm hform s).trans (runInstr_trap hi.1 hi.2 (loadForm_run hform hrun))
  · have hrun := lanesRun_fails (n := width) hfree ⟨(fun h => nomatch h), fun h => nomatch h⟩ (laneAccesses_width e d a b width _ _) hf
    exact (exec_storeForm hform s).trans (runInstr_trap hi.1 hi.2 hrun)

/-! ## PREF (R228) -/

/-- A prefetch moves lines, and nothing where the address names no line that can be fetched. -/
theorem prefetch_move (s : State) (w : Wave) (addr : Word) : CacheMove s (prefetch s w addr) := by
  unfold prefetch
  split
  · rename_i va _
    have hx := xlate_move s (waveActor s w) (va / 256 * 256) 256 .read
    dsimp only
    split
    · exact .refl s
    · split
      · rename_i he; rw [he] at hx; exact hx
      · exact .refl s
  · exact .refl s

theorem prefetch_of_unreached {s : State} {w : Wave} {addr : Word} (h : ∀ va, resolve s w .generic addr = .ok (.global va) →
    ∀ pa nc, (xlate s (waveActor s w) (va / 256 * 256) 256 .read).1 ≠ .ok pa nc) : prefetch s w addr = s := by
  unfold prefetch
  split
  · rename_i va hr
    dsimp only
    split
    · rfl
    · split
      · rename_i pa nc s1 he; exact absurd (by rw [he]) (h va hr pa nc)
      · rfl
  · rfl

/-- Settles O32: the lanes' fetches in turn, each a movement of lines or nothing. -/
theorem prefetchHasNoEffect : Obligations.PrefetchHasNoEffect := by
  unfold Obligations.PrefetchHasNoEffect
  refine ⟨fun s e a b hi => ?_, fun s w addr => ?_⟩
  · change execPref a b s = _
    exact runInstr_done hi.1 hi.2 rfl
  · have hm := prefetch_move s w addr
    exact ⟨hm.scratch, hm.weight, hm.fns, hm.ctxs, hm.waves, fun hc => (hm.bytes hc).2, prefetch_of_unreached⟩

end Sys2Proof.Machine
end

section
/-! PROOF. A SEAL does more than add its range (O31: R118, R126, R230). -/

namespace Sys2Proof.Machine

/-! ## A SEAL of a line that its wave has written

SEAL performs every earlier write to its region at SYS, so that no later fence of any wave has those lines to perform. O31 has
the ranges alone changed. -/

/-- A SEAL of the range at s10, of the length in s13. -/
def sealOfStored : Instr := .sealRegion 0x8A 0x8D

/-- A line of the range. -/
def storedLine : Loc := { space := .global 1, addr := 0x18000 }

/-- A wave with the range's base and length in s10 and s13, which has stored to its line and not fenced since. -/
def storedWave : Wave :=
  { (placedWave.setS 10 (w64 0x18000)).setS 13 (w64 0x100) with dirty := [(.ls, storedLine)] }

/-- What is issued: the word of the SEAL. -/
def sealIssue : Issue :=
  issueOf storedWave 0 (newPath (w64 placedPc) (BitVec.ofNat 32 0xFFFFFFFF)) (bundleWords (placedBundle 0x94008A8D))

/-- The SEAL issues there, in a run that is not held. -/
def storedThenSeal : State :=
  { State.reset.withFetchWord 64 0x94008A8D with issue := some sealIssue, waves := [storedWave] }

/-- What the SEAL is issued with there. -/
def sealEnv : Env :=
  { w := storedWave, p := newPath (w64 placedPc) (BitVec.ofNat 32 0xFFFFFFFF), iss := sealIssue, et := .i64, clock := 0 }

/-- The lines that the waves have still to perform, in the state an instruction answers. -/
def nextDirty : Host.Outcome State Fault Refusal → List (List (AccessPath × Loc))
  | .next s => s.waves.map Wave.dirty
  | _ => []

theorem sealOfStored_issues : Issues sealOfStored storedThenSeal sealEnv := ⟨by decide +kernel, by decide +kernel⟩

/-- The SEAL leaves the wave no line of the range to perform. -/
theorem sealOfStored_dirty : nextDirty (exec sealOfStored storedThenSeal) = [[]] := by decide +kernel

/-- With its range added to the seals and nothing else done, the wave's line would still be to perform. -/
theorem sealsAlone_dirty :
    let r := past sealOfStored storedThenSeal sealEnv
    let ss := ssWord 0x18000 0x100
    (pend (addSS { r with seals := r.seals ++ [(1, 0x18000, 0x100)] } (waveActor r sealEnv.w) ss) sealEnv
      (some (regionLatency r sealEnv.w 0x18000)) [] .ls true ss).2.waves.map Wave.dirty = [[(.ls, storedLine)]] := by
  decide +kernel

/-- Refutes O31: its SEAL adds the range to the seals and changes nothing else; a SEAL of a line that its wave has stored to
also performs the line, and takes it from those that the wave's next fence is to perform. -/
theorem not_tilesAndRegionOperations : ¬ Obligations.TilesAndRegionOperations := by
  unfold Obligations.TilesAndRegionOperations
  rintro ⟨-, hregions⟩
  obtain ⟨hseal, -⟩ := hregions storedThenSeal sealEnv 0x8A 0x8D rfl rfl
  obtain ⟨-, -, -, hperformed⟩ := hseal sealOfStored_issues
  have hbase : (sealEnv.u 0x8A).toNat = 0x18000 := by decide +kernel
  have hlen : (sealEnv.u 0x8D).toNat = 0x100 := by decide +kernel
  rw [hbase, hlen] at hperformed
  obtain ⟨t, hnext, ht⟩ := hperformed (by decide) (by decide) (by decide) (by decide +kernel) (by decide +kernel)
  have hdirty : nextDirty (exec sealOfStored storedThenSeal) = [[(.ls, storedLine)]] := by
    change exec sealOfStored storedThenSeal = _ at hnext
    rw [hnext, ht]
    exact sealsAlone_dirty
  rw [sealOfStored_dirty] at hdirty
  exact absurd hdirty (by decide)

end Sys2Proof.Machine
end

section
/-! PROOF. What the atomic log and the waves' elided sections keep through a transaction's instructions (R256 to R264). -/

namespace Sys2Proof.Machine

/-! ## The atomic log (R264) -/

/-- Every byte and every wave stands. -/
def Untouched (s t : State) : Prop := SameMemory s t ∧ t.waves = s.waves

section Log
variable (s : State) (w : Wave)

theorem Untouched.refl : Untouched s s := ⟨.refl s, rfl⟩

variable {s} in
theorem Untouched.trans {t u : State} (h1 : Untouched s t) (h2 : Untouched t u) : Untouched s u :=
  ⟨h1.1.trans h2.1, h2.2.trans h1.2⟩

theorem setBlock_untouched (b : Block) : Untouched s (s.setBlock b) := ⟨⟨rfl, rfl, rfl, rfl⟩, rfl⟩

theorem logNext_untouched (lane : Nat) : Untouched s (logNext s w lane).2 := by
  unfold logNext
  split
  · exact .refl s
  · exact setBlock_untouched s _

theorem logPut_untouched (lane index : Nat) (addr : Word) (operand returned : Nat) :
    Untouched s (logPut s w lane index addr operand returned) := by
  unfold logPut
  split
  · dsimp only
    split <;> exact ⟨⟨rfl, rfl, rfl, rfl⟩, rfl⟩
  · exact .refl s

theorem logGet_untouched (lane index : Nat) (addr : Word) (operand : Nat) :
    Untouched s (logGet s w lane index addr operand).2 := by
  unfold logGet
  dsimp only
  split
  · split
    · exact .refl s
    · split
      · exact setBlock_untouched s _
      · exact .refl s
  · split <;> exact ⟨⟨rfl, rfl, rfl, rfl⟩, rfl⟩

theorem logCommit_untouched (operand : Nat) (xs : List (Nat × Nat)) : Untouched s (logCommit s w operand xs) := by
  induction xs generalizing s with
  | nil => exact .refl s
  | cons x xs ih => exact (logNext_untouched s w x.1).trans ((logPut_untouched _ w _ _ _ _ _).trans (ih _))

theorem replayCommit_untouched (operand : Nat) (ls : List Nat) : Untouched s (replayCommit s w operand ls).1 := by
  induction ls generalizing s with
  | nil => exact .refl s
  | cons l ls ih => exact (logNext_untouched s w l).trans ((logGet_untouched _ w _ _ _ _).trans (ih _))

theorem loggedWords_untouched (operand : Nat) (xs : List (Nat × Nat)) : Untouched s (loggedWords s w operand xs).1 := by
  unfold loggedWords
  split
  · exact replayCommit_untouched s w operand _
  · dsimp only
    split
    · exact logCommit_untouched s w operand xs
    · exact .refl s

/-- Where a run is not answered from the log, the words are the instruction's own. -/
theorem loggedWords_plain (h : replays s w = false) (operand : Nat) (xs : List (Nat × Nat)) :
    loggedWords s w operand xs = (if logs s w then logCommit s w operand xs else s, xs) := by
  unfold loggedWords
  rw [h, if_neg Bool.false_ne_true]

end Log

/-! ## Elided sections (R263) -/

/-- A wave's number and its elided sections. -/
def Wave.sections (w : Wave) : Nat × List Elision := (w.uid, w.elisions)

/-- Every wave stands with its elided sections. -/
def SameSections (s t : State) : Prop := t.waves.map Wave.sections = s.waves.map Wave.sections

section SectionsKept
variable {s t u : State}

theorem SameSections.refl (s : State) : SameSections s s := rfl

theorem SameSections.trans (h1 : SameSections s t) (h2 : SameSections t u) : SameSections s u := Eq.trans h2 h1

theorem SameWaves.sameSections (h : SameWaves s t) : SameSections s t := by
  have hmap := congrArg (List.map Wave.sections) h
  rwa [List.map_map, List.map_map] at hmap

theorem Untouched.sameWaves (h : Untouched s t) : SameWaves s t := congrArg (List.map Wave.bare) h.2

theorem Untouched.sameSections (h : Untouched s t) : SameSections s t := h.sameWaves.sameSections

theorem SameSections.modWave (s : State) (u : Nat) {f : Wave → Wave} (hf : ∀ w, (f w).sections = w.sections) :
    SameSections s (s.modWave u f) := by
  unfold SameSections
  rw [State.modWave_waves, List.map_map]
  refine List.map_congr_left fun w _ => ?_
  dsimp only [Function.comp]
  split
  · exact hf w
  · rfl

theorem SameSections.wave? (h : SameSections s t) {n : Nat} {w : Wave} (hw : s.wave? n = some w) :
    ∃ w', t.wave? n = some w' ∧ w'.elisions = w.elisions := by
  have find_sections : ∀ r : State, (r.waves.map Wave.sections).find? (fun x => x.1 == n) = (r.wave? n).map Wave.sections :=
    fun r => List.find?_map ..
  have ht := find_sections t
  rw [h, find_sections s, hw] at ht
  obtain ⟨w', hw', he⟩ := Option.map_eq_some_iff.mp ht.symm
  exact ⟨w', hw', congrArg Prod.snd he⟩

end SectionsKept

/-- After an instruction that leaves the sections as they were, in a wave with no section open, none is to end. -/
theorem sectionEnd_performed {i : Instr} {s q : State} {e : Env} (hi : Issues i s e) (hq : SameSections (past i s e) q)
    (hplain : ∀ x ∈ e.w.elisions, x.plain = true) (lat : Nat) (ws : List RegWrite) (path : AccessPath) (store : Bool) (ss : Nat) :
    sectionEnd e (.done (performed e q lat ws path store ss)) = .done (performed e q lat ws path store ss) := by
  obtain ⟨w1, h1, k1⟩ := past_wave hi.1 i
  obtain ⟨w2, h2, k2⟩ := hq.wave? h1
  have hel : (w2.pends e (pended w2 e ws path store ss)).elisions = e.w.elisions := by
    have hpends : (w2.pends e (pended w2 e ws path store ss)).elisions = w2.elisions := by unfold Wave.pends; rw [raise_eq]
    rw [hpends, k2, k1]
  unfold sectionEnd
  dsimp only
  rw [performed_wave h2]
  dsimp only
  rw [List.find?_eq_none.mpr fun x hx => by rw [hplain x (hel ▸ hx)]; exact Bool.false_ne_true]

theorem elisions_plain {w : Wave} (h : w.section? = none) : ∀ x ∈ w.elisions, x.plain = true := by
  intro x hx
  simpa using List.find?_eq_none.mp h x hx

theorem sectionOf_of_none {w : Wave} (h : w.section? = none) (p : Path) : w.sectionOf p = none := by
  unfold Wave.sectionOf
  rw [List.find?_eq_none]
  intro x hx
  rw [elisions_plain h x hx]
  exact Bool.false_ne_true

end Sys2Proof.Machine
end

section
/-! PROOF. TBEGIN, TCOMMIT, TABORT and TSTAT (R256, R259 to R261, R264). -/

namespace Sys2Proof.Machine

/-- The words that a list of lanes' words writes, where it has one for each active lane. -/
theorem commitWrites_words (e : Env) (d : OpCode) (f : Nat → Nat) :
    commitWrites e d (e.lanes.map fun l => (l, f l)) = e.lanes.flatMap fun l => destWrite d l (w64 (f l)) := by
  refine List.flatMap_congr fun l hl => ?_
  have hfind : (e.lanes.map fun l => (l, f l)).find? (fun t => t.1 == l) = some (l, f l) := by
    rw [List.find?_map]
    cases hx : e.lanes.find? ((fun t : Nat × Nat => t.1 == l) ∘ fun l => (l, f l)) with
    | none => exact absurd (List.find?_eq_none.mp hx l hl) (by simp)
    | some k =>
      obtain rfl : k = l := by simpa using List.find?_some hx
      rfl
  rw [hfind]
  rfl

/-- An instruction that passes its checks has every field of its kind (R61, R67). -/
theorem accepts_of_preCheck {e : Env} {i : Instr} (h : preCheck e i = none) {k : FieldKind} {c : OpCode}
    (hk : (k, c) ∈ i.fields) : k.accepts e.fieldType c = true := by
  have hok : i.fieldsOk e.fieldType = true := by
    unfold preCheck at h
    split at h
    · cases h
    · simp_all
  unfold Instr.fieldsOk at hok
  simp only [Bool.and_eq_true, List.all_eq_true] at hok
  obtain ⟨⟨⟨hfields, -⟩, -⟩, -⟩ := hok
  exact hfields _ hk

/-- A destination that is a v register or null is no s register (R61). -/
theorem isSCode_of_accepts_dstV {et : EType} {d : OpCode} (h : FieldKind.dstV.accepts et d = true) : isSCode d = false := by
  have hd : (isVCode d || isNull d) = true := h
  simp only [isVCode, isNull, Bool.or_eq_true, decide_eq_true_eq, beq_iff_eq] at hd
  simp only [isSCode, Bool.and_eq_false_iff, decide_eq_false_iff_not]
  omega

/-- The wave with its transactions in the lanes of a mask aborted by TABORT (R260). -/
def Wave.abortsIn (w : Wave) (mask : Mask) (code : Nat) : Wave :=
  { w with tx := w.tx.map fun t => if inMask mask t.lane then t.abort 4 code else t }

section TransactionInstructions
variable {s : State} {e : Env} {d : OpCode}

theorem exec_tbegin (hi : Issues (.tbegin d) s e) (hsec : e.w.section? = none) (hn : e.lanes.filter e.w.inTx = [])
    (hroom : logRoom (past (.tbegin d) s e) e.w e.lanes.length = true) :
    let out := loggedWords (past (.tbegin d) s e) e.w 0 (e.lanes.map fun l => (l, 0))
    exec (.tbegin d) s = .next (finished e (out.1.modWave e.w.uid fun w =>
      { w with tx := w.tx ++ e.lanes.map fun l => { lane := l, sectors := [], status := 0, code := 0, ss := 0 } }) 2
      (commitWrites e d out.2)) := by
  change execTbegin d s = _
  refine runInstr_done hi.1 hi.2 ?_
  simp only [sectionOf_of_none hsec, hn, hroom]
  rfl

theorem exec_tbegin_nested (hi : Issues (.tbegin d) s e) (hsec : e.w.section? = none) (hn : e.lanes.filter e.w.inTx ≠ []) :
    exec (.tbegin d) s =
      .next (takeTrap (account s e (isSCode d)) e false .txNested (some (maskOf (e.lanes.filter e.w.inTx))) 0 0) := by
  have hscalar : (Instr.tbegin d).scalarForm = isSCode d :=
    (isSCode_of_accepts_dstV (accepts_of_preCheck hi.2 (.head _))).symm
  rw [← hscalar]
  change execTbegin d s = _
  refine runInstr_trap hi.1 hi.2 ?_
  have hsome : (!(e.lanes.filter e.w.inTx).isEmpty) = true := by simpa using hn
  simp only [sectionOf_of_none hsec, hsome]
  rfl

/-- TCOMMIT's word for a lane (R259, R260). -/
def commitWord (ts : List TxLane) (l : Nat) : Nat := ((ts.find? fun t => t.lane == l).map txWord).getD 9

theorem commitWord_eq (ts : List TxLane) (l : Nat) : commitWord ts l = match ts.find? fun t => t.lane == l with
    | some t => t.status + t.code * 2 ^ 32
    | none => 9 := by
  have hword (t : TxLane) : txWord t = t.status + t.code * 2 ^ 32 := rfl
  unfold commitWord
  split
  · rename_i h; rw [h, Option.map_some, Option.getD_some, hword]
  · rename_i h; rw [h, Option.map_none, Option.getD_none]

theorem exec_tcommit (hi : Issues (.tcommit d) s e) (hsec : e.w.section? = none) (hf : fenced e.w .at = false) :
    let r := past (.tcommit d) s e
    let ts := e.lanes.filterMap e.w.txLane
    txBehindLog r e.w ts = false → replays r e.w = false → (txSealed r e.w ts).1 = [] → txCommitStop r e.w ts = none →
    logRoom r e.w e.lanes.length = true →
    let c := txCommit r e.w ts false
    exec (.tcommit d) s = .next (pend ((if logs r e.w then
          logCommit c.1 e.w 0 (e.lanes.map fun l => (l, commitWord c.2 l)) else c.1).modWave
        e.w.uid fun w => { w with tx := w.tx.filter fun t => !inMask e.p.mask t.lane }) e (some (txLatency r e.w ts))
      (e.lanes.flatMap fun l => destWrite d l (w64 (commitWord c.2 l))) .at true 0).2 := by
  intro r ts hlog hrep hseal hstop hroom c
  change execTcommit d s = _
  refine runInstr_done hi.1 hi.2 ?_
  rw [← commitWrites_words]
  simp only [sectionOf_of_none hsec, hf]
  rw [hlog, hroom, hrep, hseal, if_neg Bool.false_ne_true]
  rw [hstop]
  rfl

theorem exec_tabort {code : BitVec 16} (hi : Issues (.tabort code) s e) (hsec : e.w.section? = none)
    (hroom : logRoom (past (.tabort code) s e) e.w e.lanes.length = true) :
    exec (.tabort code) s = .next (finished e ((loggedWords (past (.tabort code) s e) e.w code.toNat
      (e.lanes.map fun l => (l, 0))).1.modWave e.w.uid fun w => w.abortsIn e.p.mask code.toNat) 1 []) := by
  change execTabort code s = _
  refine runInstr_done hi.1 hi.2 ?_
  rw [hroom]
  exact sectionEnd_performed hi ((loggedWords_untouched _ _ _ _).sameSections.trans
    (.modWave _ _ (f := fun w => w.abortsIn e.p.mask code.toNat) fun w => rfl)) (elisions_plain hsec) 1 [] .none false 0

theorem exec_tstat (hi : Issues (.tstat d) s e) (hrep : replays (past (.tstat d) s e) e.w = false)
    (hroom : logRoom (past (.tstat d) s e) e.w e.lanes.length = true) :
    let r := past (.tstat d) s e
    exec (.tstat d) s = .next (finished e
      (if logs r e.w then logCommit r e.w 0 (e.lanes.map fun l => (l, tstatWord e.w l)) else r) 2
      (e.lanes.flatMap fun l => destWrite d l (w64 (tstatWord e.w l)))) := by
  intro r
  change execTstat d s = _
  refine runInstr_done hi.1 hi.2 ?_
  rw [hroom, loggedWords_plain _ _ hrep, ← commitWrites_words]
  rfl

end TransactionInstructions

end Sys2Proof.Machine
end

section
/-! PROOF. The loads and stores of transactional lanes (R256, R258, R262, R264). -/

namespace Sys2Proof.Machine

/-! ## A lane's transaction -/

/-- The transaction of a lane of a wave. -/
def State.txOf (s : State) (uid lane : Nat) : Option TxLane := (s.wave? uid).bind fun w => w.txLane lane

section Lane
variable {s t : State} {u k : Nat}

theorem txOf_eq_some_iff {x : TxLane} : s.txOf u k = some x ↔ ∃ w, s.wave? u = some w ∧ w.txLane k = some x :=
  Option.bind_eq_some_iff

/-- What is noted of an access leaves the transactions. -/
theorem SameWaves.txOf (h : SameWaves s t) (u k : Nat) : t.txOf u k = s.txOf u k := by
  have lane_bare : ∀ r : State, r.txOf u k = ((r.waves.map Wave.bare).find? fun w => w.uid == u).bind fun w => w.txLane k := by
    intro r
    rw [List.find?_map]
    unfold State.txOf
    change _ = ((r.wave? u).map Wave.bare).bind _
    cases r.wave? u <;> rfl
  rw [lane_bare, lane_bare, h]

theorem txLane_modTx (w : Wave) (k : Nat) {f : TxLane → TxLane} (hf : ∀ x, (f x).lane = x.lane) :
    (w.modTx k f).txLane k = (w.txLane k).map f := by
  have hlane : (fun x : TxLane => x.lane == k) ∘ (fun x => if x.lane == k then f x else x) = fun x => x.lane == k := by
    funext x
    dsimp only [Function.comp]
    split
    · rw [hf]
    · rfl
  unfold Wave.txLane Wave.modTx
  rw [List.find?_map, hlane]
  cases hx : w.tx.find? fun x => x.lane == k with
  | none => rfl
  | some x => rw [Option.map_some, Option.map_some, if_pos (List.find?_some hx)]

/-- A lane's transaction changed. -/
theorem txOf_modTx (s : State) (u k : Nat) {f : TxLane → TxLane} (hf : ∀ x, (f x).lane = x.lane) :
    (s.modWave u fun w => w.modTx k f).txOf u k = (s.txOf u k).map f := by
  unfold State.txOf
  rw [wave?_modWave s u u (fun w => w.modTx k f) fun w => rfl]
  cases hw : s.wave? u with
  | none => rfl
  | some w =>
    rw [Option.map_some, if_pos (wave?_uid hw)]
    exact txLane_modTx w k hf

theorem modTx_sameSections (s : State) (u k : Nat) (f : TxLane → TxLane) :
    SameSections s (s.modWave u fun w => w.modTx k f) := .modWave s u fun _ => rfl

theorem abortLane_sameSections (s : State) (u k status code : Nat) : SameSections s (abortLane s u k status code) :=
  modTx_sameSections s u k _

theorem abort_lane (x : TxLane) (status code : Nat) : (x.abort status code).lane = x.lane := by
  unfold TxLane.abort; split <;> rfl

end Lane

/-! ## A fault queued to the host (R262, R383) -/

/-- What a fault record leaves: the scratchpads, the weight store and the waves but for their reservations. -/
structure Reported (s t : State) : Prop where
  scratch : t.scratch = s.scratch
  weight : t.weight = s.weight
  waves : SameWaves s t

theorem writePhys_reported (s : State) (pa : Nat) (bytes : List Byte) : Reported s (writePhys s pa bytes) := by
  have hput : ∀ (bytes : List Byte) (s : State) (pa : Nat), (putPhys s pa bytes).scratch = s.scratch ∧
      (putPhys s pa bytes).weight = s.weight ∧ (putPhys s pa bytes).waves = s.waves := by
    intro bytes
    induction bytes with
    | nil => exact fun s pa => ⟨rfl, rfl, rfl⟩
    | cons x xs ih => exact fun s pa => ih _ _
  obtain ⟨hs, hw, hv⟩ := hput bytes s pa
  refine ⟨hs, hw, ?_⟩
  unfold SameWaves writePhys
  dsimp only
  rw [hv, List.map_map]
  refine List.map_congr_left fun w _ => ?_
  dsimp only [Function.comp]
  split
  · split <;> rfl
  · rfl

theorem postFault_reported (s : State) (x : XFault) (kind requester : Nat) (waiter : Requester) :
    Reported s (postFault s x kind requester waiter) := by
  unfold postFault
  dsimp only
  split
  · split
    · exact ⟨(writePhys_reported _ _ _).scratch, (writePhys_reported _ _ _).weight, (writePhys_reported _ _ _).waves⟩
    · exact ⟨rfl, rfl, rfl⟩
  · split
    · exact ⟨rfl, rfl, rfl⟩
    · exact ⟨(writePhys_reported _ _ _).scratch, (writePhys_reported _ _ _).weight, (writePhys_reported _ _ _).waves⟩

/-! ## The words and the log of a transactional access (R264, R358) -/

/-- A lane's transaction with words of its stores counted. -/
def TxLane.count (n : Nat) (t : TxLane) : TxLane := { t with ss := t.ss + w64 n }

section Counted
variable (s : State) (w : Wave) (op : MemOp) (l : LaneAcc) (va returned : Nat) (kept : Bool) (ws : List RegWrite)

/-- The words counted in the wave's block, and with the lane's own where they are kept. -/
theorem countTx_eq (lane n : Nat) : ∃ q, Untouched s q ∧ countTx s w lane n kept =
    if kept then q.modWave w.uid fun x => x.modTx lane (TxLane.count n) else q := by
  unfold countTx
  refine ⟨_, ?_, rfl⟩
  split
  · exact setBlock_untouched s _
  · exact .refl s

/-- A logged access leaves its lane's words counted, and nothing else of memory and the waves. -/
theorem txLogged_eq : ∃ q, Untouched s q ∧ (txLogged s w op l va returned kept ws).state =
    if kept then q.modWave w.uid fun x => x.modTx l.lane (TxLane.count (txWords op l va)) else q := by
  unfold txLogged
  dsimp only
  generalize logLane op.scalar op.mask l.lane = key
  obtain ⟨q, hq, he⟩ := countTx_eq (logPut (logNext s w key).2 w key (logNext s w key).1 l.addr (txOperand op l) returned) w kept
    l.lane (txWords op l va)
  exact ⟨q, (logNext_untouched s w key).trans ((logPut_untouched _ w _ _ _ _ _).trans hq), he⟩

theorem txLogged_sameMemory : SameMemory s (txLogged s w op l va returned kept ws).state := by
  obtain ⟨q, hq, he⟩ := txLogged_eq s w op l va returned kept ws
  rw [he]
  cases kept
  · exact hq.1
  · exact hq.1.trans ⟨rfl, rfl, rfl, rfl⟩

theorem txLogged_sameSections : SameSections s (txLogged s w op l va returned kept ws).state := by
  obtain ⟨q, hq, he⟩ := txLogged_eq s w op l va returned kept ws
  rw [he]
  cases kept
  · exact hq.sameSections
  · exact hq.sameSections.trans (modTx_sameSections q _ _ _)

theorem txLogged_txOf : (txLogged s w op l va returned kept ws).state.txOf w.uid l.lane =
    (s.txOf w.uid l.lane).map fun t => if kept then t.count (txWords op l va) else t := by
  obtain ⟨q, hq, he⟩ := txLogged_eq s w op l va returned kept ws
  rw [he, ← hq.sameWaves.txOf]
  cases kept
  · simp
  · exact txOf_modTx q w.uid l.lane (f := TxLane.count (txWords op l va)) fun _ => rfl

theorem txReplay_sameSections : SameSections s (txReplay s w op l va).state := by
  unfold txReplay
  dsimp only
  generalize logLane op.scalar op.mask l.lane = key
  obtain ⟨q, hq, he⟩ := countTx_eq (logGet (logNext s w key).2 w key (logNext s w key).1 l.addr (txOperand op l)).2 w true
    l.lane (txWords op l va)
  rw [he, if_pos rfl]
  exact ((logNext_untouched s w key).trans ((logGet_untouched _ w _ _ _ _).trans hq)).sameSections.trans (modTx_sameSections q _ _ _)

end Counted

/-! ## One access (R256, R258, R262) -/

/-- How a transactional access reaches its bytes. -/
def txReach (s : State) (w : Wave) (op : MemOp) (l : LaneAcc) (va : Nat) : Except XStop (List (Nat × Nat × Nat)) × State :=
  xlateParts s (committedActor s w) (if op.kind.writes then .write else .read) [(va, l.width)]

/-- The access needs a sector that the lane has not entered, and the wave's 64 are taken (R258). -/
def txFull (w : Wave) (t : TxLane) (va : Nat) : Bool := !(t.sectors.any fun x => x.sector == va / 64) && decide (64 ≤ w.txEntries)

section Access
variable {s s1 : State} {w : Wave} {op : MemOp} {l : LaneAcc} {va : Nat} {t : TxLane}

/-- A transactional access of a lane in a transaction, in a run that is not answered from the log. -/
theorem txAccess_eq (hw : s.wave? w.uid = some w) (ht : w.txLane l.lane = some t) (hr : replays s w = false) (lock : Bool) :
    txAccess s w.uid op l va lock =
      if t.status ≠ 0 then txLogged s w op l va 0 false (txZero op l)
      else
        match txReach s w op l va with
        | (.error (.fault x), s1) => txLogged (postFault (abortLane s1 w.uid l.lane 6 0) x 0 (waveRequester w) .none) w op l va 0
            false (txZero op l)
        | (.error _, s1) => txLogged s1 w op l va 0 false (txZero op l)
        | (.ok ps, s1) =>
          let pa := (ps.head?.map fun x => x.2.1).getD 0
          if txFull w t va then txLogged (abortLane s1 w.uid l.lane 3 0) w op l va 0 false (txZero op l)
          else if op.kind.writes then
            txLogged (s1.modWave w.uid fun x => x.modTx l.lane fun t =>
              t.modSector (va / 64) (TxSector.noteWrite (va % 64) (storeBytes op.kind l) lock)) w op l va 0 (!lock) []
          else
            let all := taggedBytes s1 (committedActor s w).asid (va - va % 64) (pa - va % 64) 64
            let seen := txSees w t va (slice all (va % 64) l.width)
            txLogged (s1.modWave w.uid fun x => x.modTx l.lane fun t => t.modSector (va / 64) (TxSector.noteRead all))
              w op l va (leNat seen) true (loadWrites op l seen) := by
  unfold txAccess
  rw [hw]
  dsimp only
  rw [ht]
  dsimp only
  rw [hr, if_neg Bool.false_ne_true]
  rfl

/-- A lane that has aborted drops its access. -/
theorem txAccess_aborted (hw : s.wave? w.uid = some w) (ht : w.txLane l.lane = some t) (hr : replays s w = false) (lock : Bool)
    (hst : t.status ≠ 0) : txAccess s w.uid op l va lock = txLogged s w op l va 0 false (txZero op l) := by
  rw [txAccess_eq hw ht hr, if_pos hst]

/-- A page fault aborts the lane with status 6, and is queued to the host. -/
theorem txAccess_fault (hw : s.wave? w.uid = some w) (ht : w.txLane l.lane = some t) (hr : replays s w = false) (lock : Bool)
    (hst : t.status = 0) {x : XFault} (hx : txReach s w op l va = (.error (.fault x), s1)) :
    txAccess s w.uid op l va lock =
      txLogged (postFault (abortLane s1 w.uid l.lane 6 0) x 0 (waveRequester w) .none) w op l va 0 false (txZero op l) := by
  rw [txAccess_eq hw ht hr, if_neg (not_not_intro hst), hx]

/-- A sector past the wave's 64 aborts the lane with status 3. -/
theorem txAccess_full (hw : s.wave? w.uid = some w) (ht : w.txLane l.lane = some t) (hr : replays s w = false) (lock : Bool)
    (hst : t.status = 0) {ps : List (Nat × Nat × Nat)} (hx : txReach s w op l va = (.ok ps, s1)) (hf : txFull w t va = true) :
    txAccess s w.uid op l va lock = txLogged (abortLane s1 w.uid l.lane 3 0) w op l va 0 false (txZero op l) := by
  rw [txAccess_eq hw ht hr, if_neg (not_not_intro hst), hx]
  dsimp only
  rw [if_pos hf]

/-- A store enters its bytes in the lane's set. -/
theorem txAccess_store (hw : s.wave? w.uid = some w) (ht : w.txLane l.lane = some t) (hr : replays s w = false) (lock : Bool)
    (hst : t.status = 0) {ps : List (Nat × Nat × Nat)} (hx : txReach s w op l va = (.ok ps, s1)) (hf : txFull w t va = false)
    (hk : op.kind.writes = true) : txAccess s w.uid op l va lock =
      txLogged (s1.modWave w.uid fun x => x.modTx l.lane fun t =>
        t.modSector (va / 64) (TxSector.noteWrite (va % 64) (storeBytes op.kind l) lock)) w op l va 0 (!lock) [] := by
  rw [txAccess_eq hw ht hr, if_neg (not_not_intro hst), hx]
  dsimp only
  rw [if_neg (by rw [hf]; exact Bool.false_ne_true), if_pos hk]

/-- A load returns what the lane sees, and enters its sector with the value first read. -/
theorem txAccess_load (hw : s.wave? w.uid = some w) (ht : w.txLane l.lane = some t) (hr : replays s w = false) (lock : Bool)
    (hst : t.status = 0) {pa : Nat} (hx : txReach s w op l va = (.ok [(va, pa, l.width)], s1)) (hf : txFull w t va = false)
    (hk : op.kind.writes = false) :
    let all := taggedBytes s1 (committedActor s w).asid (va - va % 64) (pa - va % 64) 64
    let seen := txSees w t va (slice all (va % 64) l.width)
    txAccess s w.uid op l va lock =
      txLogged (s1.modWave w.uid fun x => x.modTx l.lane fun t => t.modSector (va / 64) (TxSector.noteRead all))
        w op l va (leNat seen) true (loadWrites op l seen) := by
  rw [txAccess_eq hw ht hr, if_neg (not_not_intro hst), hx]
  dsimp only
  rw [if_neg (by rw [hf]; exact Bool.false_ne_true), if_neg (by rw [hk]; exact Bool.false_ne_true)]
  rfl

/-- What an access reaches, it reaches by moving lines. -/
theorem txReach_move (s : State) (w : Wave) (op : MemOp) (l : LaneAcc) (va : Nat) : CacheMove s (txReach s w op l va).2 :=
  xlateParts_move s (committedActor s w) _ _

end Access

/-- A transactional access leaves every elided section, whatever it comes to. -/
theorem txAccess_sameSections (s : State) (uid : Nat) (op : MemOp) (l : LaneAcc) (va : Nat) (lock : Bool) :
    SameSections s (txAccess s uid op l va lock).state := by
  cases hw : s.wave? uid with
  | none => unfold txAccess; rw [hw]; exact .refl s
  | some w =>
    obtain rfl := wave?_uid hw
    cases ht : w.txLane l.lane with
    | none => unfold txAccess; rw [hw]; dsimp only; rw [ht]; exact .refl s
    | some t =>
      cases hr : replays s w with
      | true =>
        unfold txAccess
        rw [hw]
        dsimp only
        rw [ht]
        dsimp only
        rw [hr, if_pos rfl]
        exact txReplay_sameSections s w op l va
      | false =>
        have hmove : SameSections s (txReach s w op l va).2 :=
          (SameWaves.of_unreserved (txReach_move s w op l va).waves).sameSections
        rw [txAccess_eq hw ht hr]
        split
        · exact txLogged_sameSections ..
        · rcases hx : txReach s w op l va with ⟨r, s1⟩
          rw [hx] at hmove
          have logged {q : State} (h : SameSections s1 q) (returned : Nat) (kept : Bool) (ws : List RegWrite) :
              SameSections s (txLogged q w op l va returned kept ws).state :=
            hmove.trans (h.trans (txLogged_sameSections ..))
          dsimp only
          split
          · rename_i hp
            cases hp
            have haborted := abortLane_sameSections s1 w.uid l.lane 6 0
            exact logged (haborted.trans (postFault_reported _ _ _ _ _).waves.sameSections) _ _ _
          · rename_i hp
            cases hp
            exact logged (.refl s1) _ _ _
          · rename_i hp
            cases hp
            split
            · exact logged (abortLane_sameSections s1 w.uid l.lane 3 0) _ _ _
            · split
              · exact logged (modTx_sameSections s1 w.uid l.lane _) _ _ _
              · exact logged (modTx_sameSections s1 w.uid l.lane _) _ _ _

theorem txAccesses_sameSections (op : MemOp) (uid : Nat) (lock : Bool) (ls : List (LaneAcc × Nat)) (s : State) :
    SameSections s (txAccesses s uid op lock ls).state := by
  induction ls generalizing s with
  | nil => exact .refl s
  | cons x ls ih => exact (txAccess_sameSections s uid op x.1 x.2 lock).trans (ih _)

end Sys2Proof.Machine
end

section
/-! PROOF. A load or store of a wave with transactional lanes (R256, R262). -/

namespace Sys2Proof.Machine

theorem txForm_generic {e : Env} {i : Instr} {op : MemOp} (h : txForm e i = some op) :
    op.form = .generic ∧ op.kind ≠ .compressStore := by
  unfold txForm at h
  split at h
  case h_11 => cases h
  all_goals cases h; exact ⟨rfl, fun hk => nomatch hk⟩

/-- A load or store that a transactional lane performs in its sets runs as the access it makes. -/
theorem exec_txForm {e : Env} {i : Instr} {op : MemOp} (h : txForm e i = some op) (s : State) :
    exec i s = runInstr i s fun e s => lanesRun e s ((txForm e i).getD (plainOp .load)) := by
  unfold txForm at h
  split at h
  case h_11 => cases h
  all_goals rfl

section Mixed
variable {s r1 : State} {w : Wave} {op : MemOp} {ws : List RegWrite} {lat ss : Nat}

/-- A performed access of lanes leaves the waves as they are but for their notes. -/
theorem performLanes_sameWaves (hc : op.kind ≠ .compressStore) (h : performLanes s w op = .ok r1 ws lat ss) : SameWaves s r1 := by
  unfold performLanes at h
  dsimp only at h
  split at h
  · cases h
  · split at h
    · rename_i hk; exact absurd hk hc
    · split at h
      · unfold performStores at h
        split at h
        · cases h
        · rename_i ts q hp
          split at hp
          · cases hp
          · rename_i us q1 hx
            have hmove := xlateLanes_move s w (waveActor s w) op.form .write op.lanes
            rw [hx] at hmove
            split at hp
            · cases hp
            · cases hp
              cases h
              exact stored_sameWaves (waveActor s w) op.kind w.uid hmove.toLinesMoved
      · have hmove := xlateLanes_move s w (waveActor s w) op.form .read op.lanes
        split at h
        · cases h
        · rename_i ts q hx
          rw [hx] at hmove
          cases h
          exact (noteAccess_notes q _ w.uid false ts).2.trans (SameWaves.of_unreserved hmove.waves)

/-- The lanes of an access that are in no transaction, or not at a global address, are performed, and the others enter their
sets. -/
theorem performMixed_ok (htx : txPart s w op ≠ [])
    (hchk : firstFailure (laneChecks s w op.form ((op.lanes.head?.map LaneAcc.width).getD 1) op.kind.writes) op.lanes = none)
    (hblk : txBlocked s w op.kind.writes (txPart s w op) = none) (hroom : logRoom s w (txPart s w op).length = true)
    (hp : performLanes s w { op with lanes := op.lanes.filter fun l => !(txPart s w op).any fun x => x.1.lane == l.lane } =
      .ok r1 ws lat ss) :
    let out := txAccesses r1 w.uid op false (txPart s w op)
    ∃ n, performMixed s w op = .ok out.state (ws ++ out.writes) n (ss + out.ss) := by
  intro out
  unfold performMixed
  cases hcons : txPart s w op with
  | nil => exact absurd hcons htx
  | cons x xs =>
    dsimp only
    rw [← hcons, hchk]
    dsimp only
    rw [hblk, hroom]
    dsimp only
    rw [Bool.not_true, if_neg Bool.false_ne_true, hp]
    exact ⟨_, rfl⟩

end Mixed

/-- A load or store of a wave with transactional lanes that nothing holds up is performed (R256). -/
theorem exec_mixed {i : Instr} {s : State} {e : Env} {op : MemOp} (hi : Issues i s e) (hform : txForm e i = some op)
    (hplain : ∀ x ∈ e.w.elisions, x.plain = true) (hf : fenced e.w .ls = false) (ho : overlapsLog (past i s e) e.w op = false)
    {q : State} {rs : List RegWrite} {n ss : Nat}
    (hp : performMixed (past i s e) e.w op = .ok q rs n ss) (hq : SameSections (past i s e) q) :
    exec i s = .next (performed e q n rs .ls op.kind.writes ss) := by
  rw [exec_txForm hform]
  refine runInstr_done hi.1 hi.2 ?_
  rw [hform, Option.getD_some]
  unfold lanesRun
  rw [memRun_ok hf ho hp]
  exact sectionEnd_performed hi hq hplain _ _ _ _ _

end Sys2Proof.Machine
end

section
/-! PROOF. What a transactional access leaves: in memory, in its lane's sets, and in what the lane sees (R256, R258, R262). -/

namespace Sys2Proof.Machine

/-! ## The sectors of a lane's sets -/

/-- The sector of a number in a lane's sets, or a new one. -/
def TxLane.sectorOr (t : TxLane) (k : Nat) : TxSector :=
  (t.sectors.find? fun x => x.sector == k).getD { sector := k, readVal := none, writes := [], locks := [] }

section Sector
variable {t : TxLane} {k : Nat} {f : TxSector → TxSector}

theorem modSector_lane (t : TxLane) (k : Nat) (f : TxSector → TxSector) : (t.modSector k f).lane = t.lane := by
  unfold TxLane.modSector; split <;> rfl

theorem modSector_status (t : TxLane) (k : Nat) (f : TxSector → TxSector) : (t.modSector k f).status = t.status := by
  unfold TxLane.modSector; split <;> rfl

/-- A sector changed, or entered, is the one then found. -/
theorem find?_modSector (t : TxLane) (k : Nat) (hf : ∀ x, (f x).sector = x.sector) :
    (t.modSector k f).sectors.find? (fun x => x.sector == k) = some (f (t.sectorOr k)) := by
  unfold TxLane.modSector TxLane.sectorOr
  cases hx : t.sectors.find? fun x => x.sector == k with
  | some x =>
    have hany : (t.sectors.any fun x => x.sector == k) = true :=
      List.any_eq_true.mpr ⟨x, List.mem_of_find?_eq_some hx, List.find?_some (p := fun x : TxSector => x.sector == k) hx⟩
    have hsame : (fun x : TxSector => x.sector == k) ∘ (fun x => if x.sector == k then f x else x) = fun x => x.sector == k := by
      funext y
      dsimp only [Function.comp]
      split
      · rw [hf]
      · rfl
    rw [if_pos hany, List.find?_map, hsame, hx, Option.map_some, if_pos (List.find?_some (p := fun x : TxSector => x.sector == k) hx),
      Option.getD_some]
  | none =>
    have hnone : (t.sectors.any fun x => x.sector == k) = false := by
      rw [List.any_eq_false]
      exact List.find?_eq_none.mp hx
    rw [hnone, if_neg Bool.false_ne_true]
    dsimp only
    rw [List.find?_append, hx, Option.none_or, List.find?_singleton, hf]
    simp

theorem sector_of_find? {xs : List TxSector} {x : TxSector} (h : xs.find? (fun x => x.sector == k) = some x) : x.sector = k := by
  simpa using List.find?_some h

theorem noteRead_sector (val : List Byte) (x : TxSector) : (x.noteRead val).sector = x.sector := by
  unfold TxSector.noteRead; split <;> rfl

/-- A sector keeps the value first read. -/
theorem noteRead_readVal (val : List Byte) (x : TxSector) : (x.noteRead val).readVal = some (x.readVal.getD val) := by
  unfold TxSector.noteRead
  split
  · rename_i h; rw [h, Option.getD_some]
  · rename_i h; rw [h, Option.getD_none]

theorem sectorOr_new (h : (t.sectors.any fun x => x.sector == k) = false) :
    t.sectorOr k = { sector := k, readVal := none, writes := [], locks := [] } := by
  unfold TxLane.sectorOr
  rw [List.find?_eq_none.mpr (List.any_eq_false.mp h)]
  rfl

/-- A byte of a write set after a run of bytes was written. -/
theorem mfind_writes (b : Nat → Byte) (off i n : Nat) (m : SMap Byte) :
    mfind ((List.range n).foldl (fun m i => mput m (off + i) (b i)) m) (off + i) = if i < n then some (b i) else mfind m (off + i) := by
  induction n with
  | zero => rfl
  | succ n ih =>
    rw [List.range_succ, List.foldl_append, List.foldl_cons, List.foldl_nil, mfind_mput, ih]
    by_cases hi : i = n
    · subst hi; simp
    · rw [if_neg (by omega)]
      have hlt : i < n + 1 ↔ i < n := by omega
      simp only [hlt]

theorem mfind_noteWrite (off i : Nat) (bytes : List Byte) (lock : Bool) (x : TxSector) (h : i < bytes.length) :
    mfind (x.noteWrite off bytes lock).writes (off + i) = some (bytes.getD i 0) :=
  (mfind_writes (fun i => bytes.getD i 0) off i bytes.length x.writes).trans (if_pos h)

/-- Bytes that a lane has stored within one sector are what it sees there. -/
theorem txSees_stored {w : Wave} {t : TxLane} {va : Nat} {x : TxSector} {bytes mem : List Byte} (hm : mem.length = bytes.length)
    (hin : va % 64 + bytes.length ≤ 64) (hx : t.sectors.find? (fun x => x.sector == va / 64) = some x)
    (hw : ∀ i, i < bytes.length → mfind x.writes (va % 64 + i) = some (bytes.getD i 0)) : txSees w t va mem = bytes := by
  refine bytes_ext (by simp [txSees, hm]) fun k hk => ?_
  have hkm : k < mem.length := by simpa [txSees] using hk
  have hkb : k < bytes.length := hm ▸ hkm
  have hsector : (va + k) / 64 = va / 64 := by omega
  have hoff : (va + k) % 64 = va % 64 + k := by omega
  unfold txSees
  rw [List.getD_eq_getElem?_getD, List.getElem?_map, List.getElem?_range hkm]
  simp only [Option.map_some, Option.getD_some, hsector, hoff, hx, hw k hkb]

end Sector

/-- A slice within a list is the list cut at both ends. -/
theorem slice_eq_take_drop {bs : List Byte} {off n : Nat} (h : off + n ≤ bs.length) : slice bs off n = (bs.drop off).take n := by
  refine bytes_ext (by simp [slice]; omega) fun k hk => ?_
  have hkn : k < n := by simpa [slice] using hk
  simp [slice, List.getD_eq_getElem?_getD, hkn]

/-! ## What an access leaves (R256, R258, R262) -/

section Leaves
variable {s s1 : State} {w : Wave} {op : MemOp} {l : LaneAcc} {va : Nat} {t : TxLane}

theorem modWave_sameMemory (s : State) (u : Nat) (f : Wave → Wave) : SameMemory s (s.modWave u f) := ⟨rfl, rfl, rfl, rfl⟩

/-- A logged access behind a state with the same bytes. -/
theorem SameMemory.logged (h : SameMemory s s1) (w : Wave) (op : MemOp) (l : LaneAcc) (va returned : Nat) (kept : Bool)
    (ws : List RegWrite) : SameMemory s (txLogged s1 w op l va returned kept ws).state :=
  h.trans (txLogged_sameMemory ..)

variable (hw : s.wave? w.uid = some w) (ht : w.txLane l.lane = some t) (hr : replays s w = false)
include hw ht

/-- Behind the lines an access reaches, a lane's transaction is the one it had. -/
theorem txReach_txOf (hx : (txReach s w op l va).2 = s1) : s1.txOf w.uid l.lane = some t := by
  subst hx
  rw [(SameWaves.of_unreserved (txReach_move s w op l va).waves).txOf]
  exact txOf_eq_some_iff.mpr ⟨w, hw, ht⟩

include hr

/-- Unless it faults, an access moves lines, and touches no byte else. -/
theorem txAccess_moves (lock : Bool) (hx : ∀ x, (txReach s w op l va).1 ≠ .error (.fault x)) :
    ∃ q, CacheMove s q ∧ SameMemory q (txAccess s w.uid op l va lock).state := by
  have hmove := txReach_move s w op l va
  rw [txAccess_eq hw ht hr]
  split
  · exact ⟨s, .refl s, txLogged_sameMemory ..⟩
  · split
    · rename_i he; exact absurd (by rw [he]) (hx _)
    · rename_i he
      rw [he] at hmove
      exact ⟨_, hmove, txLogged_sameMemory ..⟩
    · rename_i he
      rw [he] at hmove
      refine ⟨_, hmove, ?_⟩
      split
      · exact (modWave_sameMemory _ w.uid _).logged _ _ _ _ _ _ _
      · split
        · exact (modWave_sameMemory _ w.uid _).logged _ _ _ _ _ _ _
        · exact (modWave_sameMemory _ w.uid _).logged _ _ _ _ _ _ _

/-- No scratchpad's byte and none of the weight store is touched, whatever the access comes to. -/
theorem txAccess_shares (lock : Bool) :
    (txAccess s w.uid op l va lock).state.scratch = s.scratch ∧ (txAccess s w.uid op l va lock).state.weight = s.weight := by
  by_cases hst : t.status = 0
  · rcases hx : txReach s w op l va with ⟨r, s1⟩
    have hmove := txReach_move s w op l va
    rw [hx] at hmove
    by_cases hf : ∃ x, r = .error (.fault x)
    · obtain ⟨x, rfl⟩ := hf
      have hreport := postFault_reported (abortLane s1 w.uid l.lane 6 0) x 0 (waveRequester w) .none
      rw [txAccess_fault hw ht hr lock hst hx]
      have hlog := txLogged_sameMemory (postFault (abortLane s1 w.uid l.lane 6 0) x 0 (waveRequester w) .none) w op l va 0 false
        (txZero op l)
      exact ⟨hlog.scratch.trans (hreport.scratch.trans hmove.scratch), hlog.weight.trans (hreport.weight.trans hmove.weight)⟩
    · obtain ⟨q, hq, hm⟩ := txAccess_moves hw ht hr lock fun x he => hf ⟨x, by rw [hx] at he; exact he⟩
      exact ⟨hm.scratch.trans hq.scratch, hm.weight.trans hq.weight⟩
  · rw [txAccess_aborted hw ht hr lock hst]
    exact ⟨(txLogged_sameMemory ..).scratch, (txLogged_sameMemory ..).weight⟩

/-- A page fault leaves the lane's transaction aborted with status 6. -/
theorem txAccess_fault_txOf (lock : Bool) (hst : t.status = 0) {x : XFault} (hx : txReach s w op l va = (.error (.fault x), s1)) :
    (txAccess s w.uid op l va lock).state.txOf w.uid l.lane = some (t.abort 6 0) := by
  have hreport := postFault_reported (abortLane s1 w.uid l.lane 6 0) x 0 (waveRequester w) .none
  rw [txAccess_fault hw ht hr lock hst hx, txLogged_txOf, hreport.waves.txOf]
  unfold abortLane
  rw [txOf_modTx s1 w.uid l.lane fun y => abort_lane y 6 0, txReach_txOf hw ht (by rw [hx])]
  rfl

/-- A sector too many leaves it aborted with status 3. -/
theorem txAccess_full_txOf (lock : Bool) (hst : t.status = 0) {ps : List (Nat × Nat × Nat)}
    (hx : txReach s w op l va = (.ok ps, s1)) (hf : txFull w t va = true) :
    (txAccess s w.uid op l va lock).state.txOf w.uid l.lane = some (t.abort 3 0) := by
  rw [txAccess_full hw ht hr lock hst hx hf, txLogged_txOf]
  unfold abortLane
  rw [txOf_modTx s1 w.uid l.lane fun y => abort_lane y 3 0, txReach_txOf hw ht (by rw [hx])]
  rfl

/-- A store leaves its bytes in the lane's write set. -/
theorem txAccess_store_txOf (hst : t.status = 0) {ps : List (Nat × Nat × Nat)} (hx : txReach s w op l va = (.ok ps, s1))
    (hf : txFull w t va = false) (hk : op.kind.writes = true) :
    (txAccess s w.uid op l va false).state.txOf w.uid l.lane = some ((t.modSector (va / 64)
      (TxSector.noteWrite (va % 64) (storeBytes op.kind l) false)).count (txWords op l va)) := by
  rw [txAccess_store hw ht hr false hst hx hf hk, txLogged_txOf,
    txOf_modTx s1 w.uid l.lane fun y => modSector_lane y _ _, txReach_txOf hw ht (by rw [hx])]
  rfl

/-- A load leaves its sector in the lane's read set. -/
theorem txAccess_load_txOf (hst : t.status = 0) {pa : Nat} (hx : txReach s w op l va = (.ok [(va, pa, l.width)], s1))
    (hf : txFull w t va = false) (hk : op.kind.writes = false) :
    (txAccess s w.uid op l va false).state.txOf w.uid l.lane = some ((t.modSector (va / 64) (TxSector.noteRead
      (taggedBytes s1 (committedActor s w).asid (va - va % 64) (pa - va % 64) 64))).count (txWords op l va)) := by
  rw [txAccess_load hw ht hr false hst hx hf hk, txLogged_txOf,
    txOf_modTx s1 w.uid l.lane fun y => modSector_lane y _ _, txReach_txOf hw ht (by rw [hx])]
  rfl

/-- A store of bytes within one sector is what the lane then sees. -/
theorem txAccess_store_seen (hst : t.status = 0) {ps : List (Nat × Nat × Nat)} (hx : txReach s w op l va = (.ok ps, s1))
    (hf : txFull w t va = false) (hk : op.kind.writes = true) (hin : va % 64 + l.width ≤ 64)
    (hlen : l.width = (storeBytes op.kind l).length) :
    (txAccess s w.uid op l va false).writes = [] ∧ ∃ w1 t1 x, (txAccess s w.uid op l va false).state.wave? w.uid = some w1 ∧
      w1.txLane l.lane = some t1 ∧ t1.status = 0 ∧ x ∈ t1.sectors ∧ x.sector = va / 64 ∧
      ∀ mem, mem.length = l.width → txSees w1 t1 va mem = storeBytes op.kind l := by
  obtain ⟨w1, hw1, ht1⟩ := txOf_eq_some_iff.mp (txAccess_store_txOf hw ht hr hst hx hf hk)
  have hfound := find?_modSector t (va / 64) (f := TxSector.noteWrite (va % 64) (storeBytes op.kind l) false) fun _ => rfl
  refine ⟨by rw [txAccess_store hw ht hr false hst hx hf hk]; rfl, w1, _, _, hw1, ht1, (modSector_status t _ _).trans hst,
    List.mem_of_find?_eq_some hfound, sector_of_find? hfound, fun mem hm => ?_⟩
  exact txSees_stored (hm.trans hlen) (by omega) hfound fun i hi => mfind_noteWrite _ i _ false _ hi

/-- A load returns what the lane sees over memory, and its sector keeps the value first read. -/
theorem txAccess_load_seen (hst : t.status = 0) {pa : Nat} (hx : txReach s w op l va = (.ok [(va, pa, l.width)], s1))
    (hf : txFull w t va = false) (hk : op.kind.writes = false) (hin : va % 64 + l.width ≤ 64) :
    let mem := taggedBytes s1 (committedActor s w).asid (va / 64 * 64) (pa - va % 64) 64
    (txAccess s w.uid op l va false).writes = loadWrites op l (txSees w t va ((mem.drop (va % 64)).take l.width)) ∧
      ∃ w1 t1 x, (txAccess s w.uid op l va false).state.wave? w.uid = some w1 ∧ w1.txLane l.lane = some t1 ∧ t1.status = 0 ∧
        x ∈ t1.sectors ∧ x.sector = va / 64 ∧ x.readVal.isSome = true ∧
        ((t.sectors.any fun x => x.sector == va / 64) = false → x.readVal = some mem) := by
  intro mem
  have hbase : va - va % 64 = va / 64 * 64 := by omega
  have hmem : mem.length = 64 := by simp [mem, taggedBytes]
  have hload := txAccess_load hw ht hr false hst hx hf hk
  have hlane := txAccess_load_txOf hw ht hr hst hx hf hk
  rw [hbase] at hload hlane
  obtain ⟨w1, hw1, ht1⟩ := txOf_eq_some_iff.mp hlane
  have hfound := find?_modSector t (va / 64) (f := TxSector.noteRead mem) (noteRead_sector mem)
  have hread := noteRead_readVal mem (t.sectorOr (va / 64))
  refine ⟨?_, w1, _, _, hw1, ht1, (modSector_status t _ _).trans hst, List.mem_of_find?_eq_some hfound, sector_of_find? hfound,
    by rw [hread]; rfl, fun hnew => by rw [hread, sectorOr_new hnew]; rfl⟩
  rw [hload, ← slice_eq_take_drop (by omega)]
  rfl

end Leaves

theorem txFull_eq_true_iff {w : Wave} {t : TxLane} {va : Nat} :
    txFull w t va = true ↔ (t.sectors.any fun x => x.sector == va / 64) = false ∧ 64 ≤ w.txEntries := by
  simp only [txFull, Bool.and_eq_true, Bool.not_eq_true', decide_eq_true_eq]

theorem abort_open {t : TxLane} (h : t.status = 0) (status code : Nat) :
    (t.abort status code).status = status ∧ (t.abort status code).sectors = [] := by
  unfold TxLane.abort; rw [if_pos h]; exact ⟨rfl, rfl⟩

end Sys2Proof.Machine
end

section
/-! PROOF. The transactions' obligation (O36: R256, R258 to R264), put together from the effects of the four instructions,
of a mixed access and of one access of a lane. -/
namespace Sys2Proof.Machine

/-- Settles O36: the four instructions each by its own effect; a mixed access by its two parts; and one access of a lane by its
outcomes, each followed to the lane's sets. -/
theorem transactionsComplete : Obligations.TransactionsComplete := by
  unfold Obligations.TransactionsComplete
  refine ⟨fun s e d code hsec => ⟨fun hi => ⟨fun hn hroom => ?_, exec_tbegin_nested hi hsec⟩, fun hi hf => ?_, fun hi => ?_,
    fun hi => ?_⟩, fun i s e op hi hform => ?_, fun s w op l va t hw ht hr => ?_⟩
  · exact ⟨fun hrep => by rw [loggedWords_plain _ _ hrep], exec_tbegin hi hsec hn hroom⟩
  · intro r ts hlog hrep hseal hstop hroom c word
    have hword : word = commitWord c.2 := funext fun l => (commitWord_eq c.2 l).symm
    clear_value word
    subst hword
    exact exec_tcommit hi hsec hf hlog hrep hseal hstop hroom
  · intro r abort hroom
    have habort : (fun w : Wave => { w with tx := w.tx.map abort }) = fun w => w.abortsIn e.p.mask code.toNat := by
      have hlane : abort = fun t => if inMask e.p.mask t.lane then t.abort 4 code.toNat else t := by
        funext t
        dsimp only [abort]
        rw [ite_and]
        rfl
      rw [hlane]; rfl
    rw [habort]
    exact exec_tabort hi hsec hroom
  · intro r word hrep hroom
    have hword : word = tstatWord e.w := by
      funext l
      simp only [word, tstatWord, txWord, Nat.reducePow]
    rw [hword]
    exact exec_tstat hi hrep hroom
  · intro r tx htx hplain hf ho hchk hblk hroom r1 ws lat ss hp out
    obtain ⟨hgeneric, hkind⟩ := txForm_generic hform
    rw [← hgeneric] at hchk
    obtain ⟨n, hmixed⟩ := performMixed_ok htx hchk hblk hroom hp
    have hwaves : SameWaves r r1 :=
      performLanes_sameWaves (op := { op with lanes := op.lanes.filter fun l => !tx.any fun x => x.1.lane == l.lane }) hkind hp
    exact ⟨n, exec_mixed hi hform hplain hf ho hmixed (hwaves.sameSections.trans (txAccesses_sameSections op e.w.uid false tx r1))⟩
  · intro A at_ out zero new full
    have hat : at_ = txReach s w op l va := rfl
    clear_value at_
    subst hat
    have lane {x : TxLane} (h : out.state.txOf w.uid l.lane = some x) :
        ∃ w1, out.state.wave? w.uid = some w1 ∧ w1.txLane l.lane = some x := txOf_eq_some_iff.mp h
    refine ⟨fun hx hc q => ?_, (txAccess_shares hw ht hr false).1, (txAccess_shares hw ht hr false).2, fun hst => ?_,
      fun hst x hx => ?_, fun hst pa hx hfull => ?_, fun hst pa hx hfull hin hlen => ?_⟩
    · obtain ⟨m, hm, hsame⟩ := txAccess_moves hw ht hr false hx
      exact (hsame.physByte q).trans ((hm.bytes hc).2 q)
    · have he := txAccess_aborted (op := op) (va := va) hw ht hr false hst
      have hlane : out.state.txOf w.uid l.lane = some t := by
        dsimp only [out]
        rw [he, txLogged_txOf, txOf_eq_some_iff.mpr ⟨w, hw, ht⟩]
        rfl
      obtain ⟨w1, hw1, ht1⟩ := lane hlane
      refine ⟨congrArg TxOut.writes he, ?_, w1, hw1, by rw [ht1]; rfl⟩
      dsimp only [out]
      rw [he]
      exact (txLogged_sameMemory ..).dram
    · have hreach : txReach s w op l va = (.error (.fault x), (txReach s w op l va).2) := Prod.ext hx rfl
      obtain ⟨w1, hw1, ht1⟩ := lane (txAccess_fault_txOf hw ht hr false hst hreach)
      exact ⟨congrArg TxOut.writes (txAccess_fault hw ht hr false hst hreach), w1, _, hw1, ht1, abort_open hst 6 0⟩
    · have hreach : txReach s w op l va = (.ok [(va, pa, l.width)], (txReach s w op l va).2) := Prod.ext hx rfl
      have hf : txFull w t va = true := txFull_eq_true_iff.mpr hfull
      obtain ⟨w1, hw1, ht1⟩ := lane (txAccess_full_txOf hw ht hr false hst hreach hf)
      exact ⟨congrArg TxOut.writes (txAccess_full hw ht hr false hst hreach hf), w1, _, hw1, ht1, abort_open hst 3 0⟩
    · have hreach : txReach s w op l va = (.ok [(va, pa, l.width)], (txReach s w op l va).2) := Prod.ext hx rfl
      have hf : txFull w t va = false := Bool.eq_false_iff.mpr fun h => hfull (txFull_eq_true_iff.mp h)
      cases hk : op.kind.writes with
      | true =>
        obtain ⟨hwrites, w1, t1, x, hw1, ht1, hst1, hx1, hsector, hsees⟩ := txAccess_store_seen hw ht hr hst hreach hf hk hin hlen
        exact ⟨w1, t1, x, hw1, ht1, hst1, hx1, hsector, fun _ => ⟨hwrites, hsees⟩, fun h => nomatch h⟩
      | false =>
        obtain ⟨hwrites, w1, t1, x, hw1, ht1, hst1, hx1, hsector, hread, hnew⟩ :=
          txAccess_load_seen hw ht hr hst hreach hf hk hin
        exact ⟨w1, t1, x, hw1, ht1, hst1, hx1, hsector, (fun h => nomatch h), fun _ => ⟨hwrites, hread, hnew⟩⟩

end Sys2Proof.Machine
end

section
/-! PROOF. The atomics, LRES and SCOND sent to their homes (O34: R241 to R243, R249, R253, R254, R263). -/

namespace Sys2Proof.Machine

/-! ## The instructions that send a request (R241, R253, R254, R263) -/

section Request
variable {s : State} {e : Env} {i : Instr} {op : MemOp}

/-- A section aborted at this issue's LRES: the path performs it plainly, once (R263). -/
def Env.isRetry (e : Env) (x : Elision) : Bool :=
  x.plain && x.bundle == e.iss.bundle && x.slot == e.iss.slot && x.path == e.p.born

/-- The plain performance of an LRES after an aborted section uses up the note of it (R263). -/
def retried (e : Env) (r : State) : State :=
  r.modWave e.w.uid fun w => { w with elisions := w.elisions.filter fun x => !e.isRetry x }

/-- The state a request is made in: past the issue, and for the LRES of an aborted section with the note of it used up. -/
def requestPoint (i : Instr) (s : State) (e : Env) (op : MemOp) : State :=
  if op.kind = .lres ∧ e.w.elisions.any e.isRetry = true then retried e (past i s e) else past i s e

theorem requestPoint_other (h : op.kind ≠ .lres) : requestPoint i s e op = past i s e := if_neg fun hl => h hl.1

theorem requestPoint_retried (hk : op.kind = .lres) (h : e.w.elisions.any e.isRetry = true) :
    requestPoint i s e op = retried e (past i s e) := if_pos ⟨hk, h⟩

/-- An LRES opens an elided section here: it asks for one, its context elides, and no section of its has aborted (R263). -/
def opensSection (e : Env) (r : State) (lit : Word32) : Bool :=
  bitOf lit.toNat 8 && elides r e.w && !e.w.elisions.any e.isRetry

/-- A SCOND of an open section to the section's lock line (R263). -/
def onLock (e : Env) (r : State) (op : MemOp) : Prop :=
  ∃ x, e.w.sectionOf e.p = some x ∧ onLockLine r e.w { op with lanes := op.lanes.take 1 } x = true

/-- A read-modify-write as it runs (R257). -/
def requestRun (i : Instr) (e : Env) (s : State) : Effect := (requestOf e i).elim .wait (atomicRun e s)

/-- A request takes its lanes' addresses as generic ones (R241). -/
theorem requestOf_form (ho : requestOf e i = some op) : op.form = .generic := by
  cases i with
  | aadd | amin | amax | aand | aor | axor | aswp | acas | afadd | axadd | lres | scond => cases ho; rfl
  | _ => cases ho

/-- What sends a request: a read-modify-write, an LRES or a SCOND. -/
theorem requestOf_cases (ho : requestOf e i = some op) :
    ((∀ s, exec i s = runInstr i s (requestRun i)) ∧ op.kind ≠ .lres ∧ op.kind ≠ .scond) ∨
      (∃ d a lit, i = .lres d a lit) ∨ ∃ d a b lit, i = .scond d a b lit := by
  cases i with
  | aadd | amin | amax | aand | aor | axor | aswp | acas | afadd | axadd =>
    cases ho
    exact .inl ⟨fun _ => rfl, (fun h => nomatch h), fun h => nomatch h⟩
  | lres d a lit => exact .inr (.inl ⟨d, a, lit, rfl⟩)
  | scond d a b lit => exact .inr (.inr ⟨d, a, b, lit, rfl⟩)
  | _ => cases ho

/-- An atomic, LRES or SCOND that no elided section performs makes its request. -/
theorem requestOf_runs (ho : requestOf e i = some op)
    (hlres : ∀ d a lit, i = .lres d a lit → opensSection e (past i s e) lit = false)
    (hscond : op.kind = .scond → ¬ onLock e (past i s e) op) :
    ∃ body, exec i s = runInstr i s body ∧ body e (past i s e) = atomicRun e (requestPoint i s e op) op := by
  rcases requestOf_cases ho with ⟨hrun, hl, -⟩ | ⟨d, a, lit, rfl⟩ | ⟨d, a, b, lit, rfl⟩
  · refine ⟨_, hrun s, ?_⟩
    unfold requestRun
    rw [requestPoint_other hl, ho]
    rfl
  · cases ho
    refine ⟨_, show execLres d a lit s = _ from rfl, (if_neg (Bool.not_eq_true _ ▸ hlres d a lit rfl)).trans ?_⟩
    exact congrArg (fun r => atomicRun e r _) (if_congr ⟨fun h => ⟨rfl, h⟩, And.right⟩ rfl rfl)
  · have hl : op.kind ≠ .lres := by cases ho; exact fun h => nomatch h
    rw [requestPoint_other hl]
    cases ho
    refine ⟨_, show execScond d a b lit s = _ from rfl, ?_⟩
    dsimp only
    split
    · rename_i x hx
      exact if_neg fun h => hscond rfl ⟨x, hx, h⟩
    · rfl

end Request

/-! ## A request on its way (R242, R249) -/

section Sent
variable {s r r1 : State} {e : Env} {op : MemOp}

/-- The request's instruction outstanding, its flag raised (R134). -/
def requestPended (e : Env) (r1 : State) (op : MemOp) : Nat × State := pend r1 e none (opKeys op) .at true 0

/-- The next places in the atomic log of a request's lanes (R264). -/
def requestPlaces (e : Env) (r1 : State) (op : MemOp) : List Nat × State :=
  logNexts (requestPended e r1 op).2 e.w (op.lanes.map fun l => logLane op.scalar op.mask l.lane)

/-- The instruction as its request carries it. -/
def requestEntry (e : Env) (r1 : State) (op : MemOp) : LogEntry :=
  { word := e.iss.word, bundle := e.iss.bundle, slot := e.iss.slot, place := e.iss.place
    op := { op with vals := (requestPlaces e r1 op).1.map w64 }, seqNo := (requestPended e r1 op).1, path := .at
    rep := e.iss.iteration.isSome && decide (1 < e.w.rep.left) }

/-- A request that passes its checks is sent to its homes; one of no lane is over at once (R242, R249, R254). -/
theorem atomicIssue_passes {ts : List (LaneAcc × Target × Nat)} (hf : fenced e.w .at = false) (ho : overlapsLog r e.w op = false)
    (hchk : firstFailure (laneChecks r e.w op.form (atomicAlign op) true) op.lanes = none)
    (hx : xlateLanes r e.w (committedActor r e.w) op.form .write op.lanes = (.ok ts, r1)) (hlate : atomicLate r e.w op = none)
    (hroom : logRoom r e.w (ts.filter fun x => x.2.1.isGlobal).length = true) :
    atomicIssue e r op = if op.lanes.isEmpty then
        .done ((reserve (requestPended e r1 op).2 e.w (r.waveAsid e.w) op []).schedule 1
          (.instructionComplete e.w.uid (requestPended e r1 op).1))
      else .done (sendAtomic (requestPlaces e r1 op).2 e.w e.iss.setf (atomicLatency r e.w op) (requestEntry e r1 op)) := by
  unfold atomicIssue
  rw [hf, ho, Bool.or_self, if_neg Bool.false_ne_true]
  dsimp only
  rw [hchk, hx]
  dsimp only
  rw [hlate]
  dsimp only
  rw [hroom]
  rfl

/-- A request sent is in flight from then on, and is due at its home after the home's latency (R249). -/
theorem sendAtomic_sends (q : State) (w : Wave) (setf lat : Nat) (entry : LogEntry) : ∃ x : AtomicReq,
    sendAtomic q w setf lat entry = { q with
      counter := q.counter + 1, atomics := q.atomics ++ [x]
      agenda := insertEvent (q.clock + (x.due - q.clock)) (.atomicPerformAtHome x.id) q.agenda } ∧
    x.id = q.counter ∧ x.uid = w.uid ∧ x.setf = setf ∧ x.entry = entry ∧ x.handler = w.held.isSome ∧
    x.due = q.clock + lat := by
  refine ⟨{ id := q.counter, uid := w.uid, setf := setf, due := q.clock + lat, entry := entry, handler := w.held.isSome
            classGen := sentClasses q w entry.op, mapGen := mget 0 q.mapGens (q.waveAsid w) }, ?_, rfl, rfl, rfl, rfl, rfl, rfl⟩
  rw [Nat.add_sub_cancel_left]
  rfl

theorem logNext_keeps (s : State) (w : Wave) (l : Nat) :
    (logNext s w l).2.clock = s.clock ∧ (logNext s w l).2.atomics = s.atomics := by
  unfold logNext
  split <;> exact ⟨rfl, rfl⟩

theorem logNexts_keeps (w : Wave) (ls : List Nat) (s : State) :
    (logNexts s w ls).2.clock = s.clock ∧ (logNexts s w ls).2.atomics = s.atomics := by
  induction ls generalizing s with
  | nil => exact ⟨rfl, rfl⟩
  | cons l ls ih =>
    obtain ⟨hclock, hatomics⟩ := ih (logNext s w l).2
    obtain ⟨hclock', hatomics'⟩ := logNext_keeps s w l
    exact ⟨hclock.trans hclock', hatomics.trans hatomics'⟩

theorem pend_clock (s : State) (e : Env) (lat : Option Nat) (ws : List RegWrite) (path : AccessPath) (store : Bool) (ss : Nat) :
    (pend s e lat ws path store ss).2.clock = s.clock := by
  unfold pend
  split
  · rfl
  · cases lat <;> rfl

theorem past_clock (i : Instr) (s : State) (e : Env) : (past i s e).clock = s.clock := by rw [past_eq]

theorem requestPoint_clock (i : Instr) (s : State) (e : Env) (op : MemOp) : (requestPoint i s e op).clock = s.clock := by
  unfold requestPoint
  split <;> exact past_clock i s e

theorem LinesMoved.clock (h : LinesMoved r r1) : r1.clock = r.clock := by rw [h.frame]; rfl

end Sent

/-- Settles O34: each of the instructions comes down to its request, which passes its checks and is sent, or is over at once
where no lane takes part. -/
theorem atomicsIssue : Obligations.AtomicsIssue := by
  unfold Obligations.AtomicsIssue
  intro i s e op hi ho hsec plain again r hfree hlres ts r1 hchk hx hlate hroom p
  obtain ⟨hf, hlog, htx⟩ := hfree
  have hopens : ∀ d a lit, i = .lres d a lit → opensSection e (past i s e) lit = false := by
    intro d a lit hl
    unfold opensSection
    cases hel : bitOf lit.toNat 8 && elides (past i s e) e.w with
    | false => rfl
    | true => rw [show e.w.elisions.any e.isRetry = true from hlres d a lit hl hel]; rfl
  obtain ⟨body, hexec, hbody⟩ := requestOf_runs ho hopens fun _ ⟨x, hx, _⟩ => by rw [hsec] at hx; cases hx
  have hissue := atomicIssue_passes hf hlog (requestOf_form ho ▸ hchk) (requestOf_form ho ▸ hx) hlate hroom
  have hdone : ∀ t, atomicIssue e r op = .done t → exec i s = .next t := fun t ht =>
    hexec.trans (runInstr_done hi.1 hi.2 (hbody.trans ((unsupportedOp_of_noTx htx ..).trans ht)))
  refine ⟨fun hnil => hdone _ (hissue.trans (if_pos (by rw [hnil]; rfl))), fun hne => ?_⟩
  obtain ⟨x, hsent, hid, huid, hsetf, hentry, hhandler, hdue⟩ :=
    sendAtomic_sends (requestPlaces e r1 op).2 e.w e.iss.setf (atomicLatency r e.w op) (requestEntry e r1 op)
  obtain ⟨hkept, hatomics⟩ := logNexts_keeps e.w (op.lanes.map fun l => logLane op.scalar op.mask l.lane) p.2
  have hclock : (requestPlaces e r1 op).2.clock = s.clock := by
    have hmoved := (xlateLanes_move r e.w (committedActor r e.w) .generic .write op.lanes).toLinesMoved
    rw [hx] at hmoved
    exact hkept.trans ((pend_clock ..).trans (hmoved.clock.trans (requestPoint_clock i s e op)))
  refine ⟨_, (requestPlaces e r1 op).2, x, hdone _ (hissue.trans (if_neg (by simpa using hne))),
    hsent, hatomics, hid, huid, hsetf, ?_⟩
  rw [hentry]
  exact ⟨rfl, rfl, rfl, rfl, hhandler, hclock, hclock ▸ hdue⟩

end Sys2Proof.Machine
end

section
/-! PROOF. What no transaction supports: an elided section's lanes abort it, and other transactional lanes abort before the
instruction is performed for the rest (O60: R257, R263). -/

namespace Sys2Proof.Machine

/-! ## Lanes that abort -/

section AbortLanes
variable {s : State} {u k : Nat}

/-- Lanes of a wave that meet an instruction no transaction supports abort with status 5 (R257). -/
def abortLanes (s : State) (u : Nat) (ls : List Nat) : State := ls.foldl (fun q l => abortLane q u l 5 0) s

/-- Of the whole state only the waves change. -/
def changesWaves (s t : State) : Prop := t = { s with waves := t.waves }

theorem abortLanes_changesWaves (s : State) (u : Nat) (ls : List Nat) : changesWaves s (abortLanes s u ls) :=
  foldl_rel (R := changesWaves) (g := fun q l => abortLane q u l 5 0) (fun _ => rfl)
    (fun h1 h2 => by unfold changesWaves at *; rw [h2, h1]) (fun _ _ => rfl) ls s

/-- A lane that aborts changes its own transaction alone. -/
theorem txLane_abort (w : Wave) (l k status code : Nat) : (w.modTx l fun t => t.abort status code).txLane k =
    (w.txLane k).map fun t => if t.lane = l then t.abort status code else t := by
  have hlane : (fun t : TxLane => t.lane == k) ∘ (fun t => if t.lane == l then t.abort status code else t) =
      fun t => t.lane == k := by
    funext t
    dsimp only [Function.comp]
    split
    · rw [abort_lane]
    · rfl
  unfold Wave.txLane Wave.modTx
  rw [List.find?_map, hlane]
  simp only [beq_iff_eq]

theorem txOf_abortLane (s : State) (u l k status code : Nat) : (abortLane s u l status code).txOf u k =
    (s.txOf u k).map fun t => if t.lane = l then t.abort status code else t := by
  unfold State.txOf abortLane
  rw [wave?_modWave s u u (fun w => w.modTx l fun t => t.abort status code) fun _ => rfl]
  cases hw : s.wave? u with
  | none => rfl
  | some w =>
    rw [Option.map_some, if_pos (wave?_uid hw)]
    exact txLane_abort w l k status code

theorem abort_abort (t : TxLane) {status : Nat} (h : status ≠ 0) (code : Nat) :
    (t.abort status code).abort status code = t.abort status code := by
  unfold TxLane.abort
  by_cases ht : t.status = 0
  · rw [if_pos ht, if_neg h]
  · rw [if_neg ht, if_neg ht]

theorem txOf_abortLanes (ls : List Nat) (s : State) (u k : Nat) : (abortLanes s u ls).txOf u k =
    (s.txOf u k).map fun t => if t.lane ∈ ls then t.abort 5 0 else t := by
  induction ls generalizing s with
  | nil => simp [abortLanes]
  | cons l ls ih =>
    refine (ih (abortLane s u l 5 0)).trans ?_
    rw [txOf_abortLane, Option.map_map]
    congr 1
    funext t
    dsimp only [Function.comp]
    by_cases hl : t.lane = l
    · simp only [abort_lane, abort_abort t (by decide : 5 ≠ 0), ite_self, hl, List.mem_cons_self, if_true]
    · simp only [List.mem_cons, hl, false_or, if_false]

/-- A transactional lane among those that abort holds nothing more, and has status 5 unless it aborted before (R257, R258). -/
theorem txLane_abortLanes {ls : List Nat} {w w1 : Wave} {l : Nat} {t : TxLane} (hl : l ∈ ls) (hw : s.wave? u = some w)
    (hw1 : (abortLanes s u ls).wave? u = some w1) (ht : w.txLane l = some t) : w1.txLane l = some (t.abort 5 0) := by
  have hlane : t.lane = l := by simpa using List.find?_some ht
  have hof := txOf_abortLanes ls s u l
  rw [txOf_eq_some_iff.mpr ⟨w, hw, ht⟩, Option.map_some, if_pos (hlane ▸ hl)] at hof
  obtain ⟨w2, hw2, h⟩ := txOf_eq_some_iff.mp hof
  rw [hw1] at hw2
  cases hw2
  exact h

end AbortLanes

/-! ## The test for a transaction (R257, R263) -/

section Test
variable {s : State} {e : Env} {i : Instr} {op : MemOp} {ls : List Nat} {f : State → (Nat → Bool) → Effect}

/-- The open section, the first of them, that has a lane among some. -/
def Wave.sectionAmong (w : Wave) (ls : List Nat) : Option Elision :=
  w.elisions.find? fun x => !x.plain && ls.any fun l => x.lanes.contains l

theorem sectionAmong_none {w : Wave} (h : ∀ x ∈ w.elisions, x.plain = true ∨ ∀ l ∈ ls, l ∉ x.lanes) :
    w.sectionAmong ls = none := by
  refine List.find?_eq_none.mpr fun x hx => ?_
  rcases h x hx with hp | hl
  · rw [hp]; exact Bool.false_ne_true
  · simpa using fun _ => hl

/-- Where the wave's first open section has a lane among some, it is that one. -/
theorem sectionAmong_of_section? {w : Wave} {x : Elision} (hx : w.section? = some x) (hl : ∃ l ∈ ls, l ∈ x.lanes) :
    w.sectionAmong ls = some x := by
  obtain ⟨hopen, as, bs, hel, has⟩ := List.find?_eq_some_iff_append.mp hx
  refine List.find?_eq_some_iff_append.mpr ⟨?_, as, bs, hel, fun y hy => ?_⟩
  · simpa using ⟨by simpa using hopen, hl⟩
  · have hplain : y.plain = true := by simpa using has y hy
    rw [hplain]
    rfl

theorem unsupported_inSection {x : Elision} (htx : ls.filter e.w.inTx ≠ [])
    (hx : e.w.sectionAmong (ls.filter e.w.inTx) = some x) :
    unsupported e s ls f = .done (abortSection s e.w.uid x) := by
  unfold unsupported
  split
  · contradiction
  · unfold Wave.sectionAmong at hx
    rw [hx]

theorem unsupported_outside (htx : ls.filter e.w.inTx ≠ []) (hx : e.w.sectionAmong (ls.filter e.w.inTx) = none) :
    unsupported e s ls f = f (abortLanes s e.w.uid (ls.filter e.w.inTx)) fun l => !(ls.filter e.w.inTx).contains l := by
  unfold unsupported
  split
  · contradiction
  · unfold Wave.sectionAmong at hx
    rw [hx]
    rfl

/-! ## Each instruction comes down to that test -/

/-- An atomic, LRES or SCOND that no elided section performs, and that is not one's LRES performed plainly (R263). -/
theorem requestOf_unsupported (ho : requestOf e i = some op) (hmet : metAsUnsupported (past i s e) e i) :
    ∃ body, exec i s = runInstr i s body ∧ body e (past i s e) = atomicRun e (past i s e) op := by
  have hlres : ∀ d a lit, i = .lres d a lit →
      opensSection e (past i s e) lit = false ∧ e.w.elisions.any e.isRetry = false := by
    rintro d a lit rfl
    obtain ⟨hel, hall⟩ := hmet
    refine ⟨by unfold opensSection; rw [hel]; rfl, ?_⟩
    rw [← Bool.not_eq_true', List.not_any_eq_all_not]
    exact hall
  have hscond : op.kind = .scond → ¬ onLock e (past i s e) op := by
    rintro hk ⟨x, hx, hline⟩
    rcases requestOf_cases ho with ⟨-, -, h⟩ | ⟨d, a, lit, rfl⟩ | ⟨d, a, b, lit, rfl⟩
    · exact h hk
    · cases ho; cases hk
    · rw [hmet x op hx ho] at hline
      cases hline
  have hpoint : requestPoint i s e op = past i s e := by
    rcases requestOf_cases ho with ⟨-, h, -⟩ | ⟨d, a, lit, rfl⟩ | ⟨d, a, b, lit, rfl⟩
    · exact requestPoint_other h
    · exact if_neg fun h => by rw [(hlres d a lit rfl).2] at h; exact Bool.false_ne_true h.2
    · exact requestPoint_other (by cases ho; exact fun h => nomatch h)
  rw [← hpoint]
  exact hpoint ▸ requestOf_runs ho (fun d a lit h => (hlres d a lit h).1) hscond

/-- An instruction that nothing but the test for a transaction comes before, as it runs (R257). -/
def testedRun (i : Instr) (e : Env) (s : State) : Effect :=
  (unsupportedForm e i).elim .wait fun x => unsupported e s x.1 x.2

theorem regionRun_met {r : State} {a b : OpCode} {granule : Nat} {g : State → Nat → Nat → Effect}
    (hmet : regionCheck (e.u a) (e.u b) granule = none ∧ regionWaits e r (e.u a).toNat (e.u b).toNat = false) :
    regionRun e r a b granule g = unsupported e r e.lanes fun s _ => g s (e.u a).toNat (e.u b).toNat := by
  unfold regionRun
  rw [hmet.1]
  dsimp only
  rw [hmet.2]
  rfl

/-- A CSTR or XLD of at least one lane (R223). -/
theorem packedRun_of_lane {r : State} {a : OpCode} {o : MemOp} (h : o.lanes ≠ []) :
    packedRun e r a o = plainLanesRun e r o := by
  refine if_neg fun hcond => ?_
  rw [Bool.and_eq_true, List.isEmpty_iff] at hcond
  exact h hcond.2

/-- Lanes that abort leave the waiters of every domain parked. -/
theorem domainWaiters_abortLanes (s : State) (u : Nat) (ls : List Nat) (d : Domain) (g : Nat) :
    domainWaiters (abortLanes s u ls) d g = domainWaiters s d g := by
  refine foldl_rel (R := fun q t => domainWaiters t d g = domainWaiters q d g) (g := fun q l => abortLane q u l 5 0)
    (fun _ => rfl) (fun h1 h2 => h2.trans h1) (fun q l => ?_) ls s
  unfold domainWaiters abortLane
  rw [State.modWave_waves, List.flatMap_map]
  refine List.flatMap_congr fun w _ => ?_
  split <;> rfl

theorem domainWord_abortLanes (s : State) (u : Nat) (ls : List Nat) (d : Domain) (w : Wave) (l : Nat) :
    domainWord (abortLanes s u ls) d w l = domainWord s d w l := by
  simp only [domainWord, domainWaiters_abortLanes]

/-- WSTAT's word is the same before the transactional lanes abort and after. -/
theorem statusRun_eq {r : State} {d : OpCode} : wordRun e r d (fun x l => domainWord r x e.w l) =
    unsupported e r (e.memLanes d) fun q keep => wordIssue e q d ((e.memLanes d).filter keep) fun x l => domainWord q x e.w l := by
  have hword : (fun x l => domainWord (abortLanes r e.w.uid ((e.memLanes d).filter e.w.inTx)) x e.w l) =
      fun x l => domainWord r x e.w l := by
    funext x l
    exact domainWord_abortLanes ..
  by_cases htx : (e.memLanes d).filter e.w.inTx = []
  · unfold wordRun unsupported
    rw [htx]
  cases hx : e.w.sectionAmong ((e.memLanes d).filter e.w.inTx) with
  | some x => exact (unsupported_inSection htx hx).trans (unsupported_inSection htx hx).symm
  | none =>
    rw [unsupported_outside htx hx, hword]
    exact unsupported_outside htx hx

/-- Each instruction that no transaction supports runs the test, over its lanes, and is performed as it says (R257). -/
theorem unsupportedForm_runs (hform : unsupportedForm e i = some (ls, f)) (hmet : metAsUnsupported (past i s e) e i)
    (hne : ls ≠ []) :
    ∃ body, exec i s = runInstr i s body ∧ body e (past i s e) = unsupported e (past i s e) ls f := by
  have tested : exec i s = runInstr i s (testedRun i) →
      ∃ body, exec i s = runInstr i s body ∧ body e (past i s e) = unsupported e (past i s e) ls f :=
    fun h => ⟨_, h, by unfold testedRun; rw [hform]; rfl⟩
  cases i with
  | aadd | amin | amax | aand | aor | axor | aswp | acas | afadd | axadd | lres | scond =>
    cases hform
    exact requestOf_unsupported rfl hmet
  | cstr d a p =>
    cases hform
    exact ⟨_, show execCstr d a p s = _ from rfl, packedRun_of_lane (by simpa using hne)⟩
  | xld d a p =>
    cases hform
    exact ⟨_, show execXld d a p s = _ from rfl, packedRun_of_lane (by simpa using hne)⟩
  | sealRegion a b => cases hform; exact ⟨_, show execSealRegion a b s = _ from rfl, regionRun_met hmet⟩
  | unsealRegion a b => cases hform; exact ⟨_, show execUnsealRegion a b s = _ from rfl, regionRun_met hmet⟩
  | pin a b => cases hform; exact ⟨_, show execPin a b s = _ from rfl, regionRun_met hmet⟩
  | unpin a b => cases hform; exact ⟨_, show execUnpin a b s = _ from rfl, regionRun_met hmet⟩
  | cinv a b => cases hform; exact ⟨_, show execCinv a b s = _ from rfl, regionRun_met hmet⟩
  | cwb a b => cases hform; exact ⟨_, show execCwb a b s = _ from rfl, regionRun_met hmet⟩
  | arrive a b => cases hform; exact ⟨_, show execArrive a b s = _ from rfl, withGuard_of_none hmet _⟩
  | waitb d a => cases hform; exact ⟨_, show execWaitb d a s = _ from rfl, withGuard_of_none hmet _⟩
  | arrwait d a b => cases hform; exact ⟨_, show execArrwait d a b s = _ from rfl, withGuard_of_none hmet _⟩
  | strel d a b lit =>
    cases hform
    refine ⟨_, show execStrel d a b lit s = _ from rfl, ?_⟩
    dsimp only
    split
    · rename_i x hx
      rw [hmet x hx]
      rfl
    · rfl
  | wstat d => cases hform; exact ⟨_, show execWstat d s = _ from rfl, statusRun_eq⟩
  | tld | tst | ldacq | signal | sigwait | bind | unbind | cpy | cpyd | cpym | cpymc | cpyn | cpyx | wsld | halo | mfmt | mma
  | mmaz | mbatch | mwait | mstage | mdrain | maccld | mstat | wpush | wpop | wpopw | wdone | wfloor => exact tested rfl
  | _ => cases hform

/-! ## Its outcomes (R257, R263) -/

/-- With a lane of an open section among the transactional ones, the section aborts and nothing is performed. -/
theorem exec_unsupported_section {x : Elision} (hi : Issues i s e) (hform : unsupportedForm e i = some (ls, f))
    (hmet : metAsUnsupported (past i s e) e i) (htx : ls.filter e.w.inTx ≠ [])
    (hx : e.w.sectionAmong (ls.filter e.w.inTx) = some x) :
    exec i s = .next (abortSection (past i s e) e.w.uid x) := by
  obtain ⟨body, hexec, hbody⟩ := unsupportedForm_runs hform hmet (fun h => htx (by rw [h]; rfl))
  exact hexec.trans (runInstr_done hi.1 hi.2 (hbody.trans (unsupported_inSection htx hx)))

/-- The instruction performed for the lanes that are not transactional, in the state in which the others have aborted. -/
def performedForRest (i : Instr) (s : State) (e : Env) (ls : List Nat) (f : State → (Nat → Bool) → Effect) : Effect :=
  f (abortLanes (past i s e) e.w.uid (ls.filter e.w.inTx)) fun l => !(ls.filter e.w.inTx).contains l

/-- Outside a section it is performed for the others. -/
theorem exec_unsupported_outside (hform : unsupportedForm e i = some (ls, f))
    (hmet : metAsUnsupported (past i s e) e i) (htx : ls.filter e.w.inTx ≠ [])
    (hx : e.w.sectionAmong (ls.filter e.w.inTx) = none) :
    ∃ body, exec i s = runInstr i s body ∧ body e (past i s e) = performedForRest i s e ls f := by
  obtain ⟨body, hexec, hbody⟩ := unsupportedForm_runs hform hmet (fun h => htx (by rw [h]; rfl))
  exact ⟨body, hexec, hbody.trans (unsupported_outside htx hx)⟩

end Test

end Sys2Proof.Machine
end

section
/-! PROOF. Elided sections: the LRES that opens one, the SCOND and STREL to its lock line, and its abort (O60: R263). -/

namespace Sys2Proof.Machine

/-! ## An abort (R263) -/

section Abort
variable {s : State} {w w1 : Wave} {x : Elision}

theorem mfind_map {α β : Type} (m : SMap α) (g : α → β) (k : Nat) :
    mfind (m.map fun e => (e.1, g e.2)) k = (mfind m k).map g := by
  induction m with
  | nil => rfl
  | cons e m ih =>
    rw [List.map_cons]
    unfold mfind
    split
    · rfl
    · exact ih

theorem mfind_endSection (place : Nat) : mfind (w.endSection x).places place = (mfind w.places place).map (backToLock x) :=
  mfind_map w.places (backToLock x) place

theorem wave?_abortSection (hw : s.wave? w.uid = some w) : (abortSection s w.uid x).wave? w.uid = some (w.endSection x) := by
  unfold abortSection
  rw [wave?_modWave _ _ _ (fun w => w.endSection x) fun w => by rw [endSection_sectionsOnly w x], hw, Option.map_some, if_pos rfl]

/-- A path of an aborted section stands at its LRES, which it is to perform plainly. -/
theorem endSection_path {place : Nat} {p : Path} (hp : mfind w.places place = some p) (hx : x.holds p = true) :
    ∃ q, mfind (w.endSection x).places place = some q ∧ q.pc = x.bundle ∧ q.slot = x.slot ∧ q.mask = p.mask ∧
      ∃ y ∈ (w.endSection x).elisions, y.plain = true ∧ y.bundle = x.bundle ∧ y.slot = x.slot ∧ y.path = q.born := by
  have hmem : p ∈ w.allPaths :=
    List.mem_append_left _ (List.mem_append_left _ (List.mem_map.mpr ⟨_, mem_of_mfind hp, rfl⟩))
  refine ⟨backToLock x p, by rw [mfind_endSection, hp]; rfl, ?_⟩
  rw [backToLock, if_pos hx]
  exact ⟨rfl, rfl, rfl, _, endSection_plain hmem hx, rfl, rfl, rfl, rfl⟩

/-- A path outside the section stands where it stood. -/
theorem endSection_other_path {place : Nat} {p : Path} (hp : mfind w.places place = some p) (hx : x.holds p = false) :
    mfind (w.endSection x).places place = some p := by
  rw [mfind_endSection, hp, Option.map_some, backToLock, if_neg (by rw [hx]; exact Bool.false_ne_true)]

end Abort

/-! ## The end of an instruction in a section -/

/-- No lane of an open section of the wave has aborted. -/
def sectionsWhole (e : Env) (q : State) : Prop :=
  ∀ w, q.wave? e.w.uid = some w → ∀ y ∈ w.elisions, y.plain = false → ∀ k ∈ w.tx, k.lane ∈ y.lanes → k.status = 0

theorem sectionEnd_whole {e : Env} {q : State} (h : sectionsWhole e q) : sectionEnd e (.done q) = .done q := by
  unfold sectionEnd
  dsimp only
  split
  · rename_i w hw
    rw [List.find?_eq_none.mpr fun y hy hcond => ?_]
    simp only [Bool.and_eq_true, Bool.not_eq_true', List.any_eq_true, List.contains_iff_mem, decide_eq_true_eq] at hcond
    obtain ⟨hopen, k, hk, hlane, hst⟩ := hcond
    exact hst (h w hw y hy hopen k hk hlane)
  · rfl

/-! ## LRES (R263) -/

section Lres
variable {s s0 r1 : State} {e : Env} {d a : OpCode} {lit : Word32} {o : MemOp}

/-- The section an LRES opens for its lanes. -/
def newSection (e : Env) (line : Loc) (o : MemOp) : Elision :=
  { line := line, bundle := e.iss.bundle, slot := e.iss.slot, path := e.p.born, lanes := o.lanes.map LaneAcc.lane, plain := false }

/-- The wave with a section open, its lanes in transactions. -/
def Wave.opened (w : Wave) (x : Elision) : Wave :=
  { w with elisions := w.elisions ++ [x]
           tx := w.tx ++ x.lanes.map fun l => { lane := l, sectors := [], status := 0, code := 0, ss := 0 } }

theorem openSection_opens {r : State} {l0 : LaneAcc} {rest : List LaneAcc} {t : Target}
    {w1 : Wave} {ws : List RegWrite} {lat ss : Nat}
    (hn : ∀ l ∈ o.lanes, e.w.inTx l.lane = false) (hf : fenced e.w .at = false) (ho : overlapsLog r e.w o = false)
    (hchk : elidedChecks e r o = .ok s0) (hl : o.lanes = l0 :: rest) (ht : resolve r e.w o.form l0.addr = .ok t)
    (hw : (s0.modWave e.w.uid fun w => w.opened (newSection e (lineOf (r.waveAsid e.w) t) o)).wave? e.w.uid = some w1)
    (hp : performMixed (s0.modWave e.w.uid fun w => w.opened (newSection e (lineOf (r.waveAsid e.w) t) o)) w1
      { o with kind := .load } = .ok r1 ws lat ss)
    (hwhole : sectionsWhole e (pend r1 e (some lat) ws .at false ss).2) :
    openSection e r o = .done (pend r1 e (some lat) ws .at false ss).2 := by
  have hnested : (o.lanes.map LaneAcc.lane).filter e.w.inTx = [] := by
    simpa using hn
  unfold openSection
  rw [hnested, hf, ho]
  refine (if_neg Bool.false_ne_true).trans ((if_neg Bool.false_ne_true).trans ?_)
  split
  · rename_i hc; rw [hchk] at hc; cases hc
  · rename_i hc; rw [hl] at hc; cases hc
  · rename_i hc hlanes
    rw [hchk] at hc
    rw [hl] at hlanes
    cases hc
    cases hlanes
    rw [ht]
    dsimp only
    have hmap : o.lanes.map (fun l => ({ lane := l.lane, sectors := [], status := 0, code := 0, ss := 0 } : TxLane)) =
        (o.lanes.map LaneAcc.lane).map fun l => { lane := l, sectors := [], status := 0, code := 0, ss := 0 } :=
      by rw [List.map_map]; rfl
    unfold Wave.opened newSection at hw hp
    rw [hmap, hw]
    dsimp only
    rw [hp]
    exact sectionEnd_whole hwhole

/-- An LRES that opens a section, or is nested in one. -/
theorem exec_lres_elided (hopens : opensSection e (past (.lres d a lit) s e) lit = true) :
    ∃ body, exec (.lres d a lit) s = runInstr (.lres d a lit) s body ∧ body e (past (.lres d a lit) s e) =
      if (e.w.sectionOf e.p).isSome then .raise .txNested
      else openSection e (past (.lres d a lit) s e) (lresOp e (.lres d a lit) d a lit) :=
  ⟨_, show execLres d a lit s = _ from rfl, if_pos hopens⟩

/-- The LRES of an aborted section makes the request of a plain one. -/
theorem exec_lres_retried {t : State} (hi : Issues (.lres d a lit) s e) (hagain : e.w.elisions.any e.isRetry = true)
    (hn : ∀ l ∈ (lresOp e (.lres d a lit) d a lit).lanes, e.w.inTx l.lane = false)
    (ht : atomicIssue e (retried e (past (.lres d a lit) s e)) (lresOp e (.lres d a lit) d a lit) = .done t) :
    exec (.lres d a lit) s = .next t := by
  have hshut : ∀ d' a' lit', Instr.lres d a lit = .lres d' a' lit' →
      opensSection e (past (.lres d a lit) s e) lit' = false := by
    intro _ _ lit' _
    unfold opensSection
    rw [hagain]
    exact Bool.and_false _
  obtain ⟨body, hexec, hbody⟩ := requestOf_runs (i := .lres d a lit) rfl hshut fun h => nomatch h
  refine hexec.trans (runInstr_done hi.1 hi.2 (hbody.trans ?_))
  rw [requestPoint_retried rfl hagain]
  unfold atomicRun unsupportedOp
  rw [unsupported_of_plain (by simpa using hn), List.filter_true]
  exact ht

end Lres

/-! ## SCOND and STREL to the lock line (R263) -/

section Lock
variable {s r : State} {e : Env} {o : MemOp} {x : Elision}

/-- The status words of a SCOND in its section: 0 in the lowest lane, 2 in the others. -/
def lockWords (o : MemOp) : List RegWrite :=
  (List.range o.lanes.length).flatMap fun k =>
    destWrite o.dest ((o.lanes[k]?.map LaneAcc.lane).getD 0) (if k = 0 then 0 else 2)

/-- The lowest lane's store, in its write set. -/
def lockStore (e : Env) (r : State) (o : MemOp) : TxOut :=
  txAccesses r e.w.uid { o with kind := .store } true (txPart r e.w { o with kind := .store, lanes := o.lanes.take 1 })

theorem elidedScond_enters (hchk : firstFailure (laneChecks r e.w o.form 8 true) o.lanes = none)
    (hblk : txBlocked r e.w true (txPart r e.w { o with kind := .store }) = none) (hlate : atomicLate r e.w o = none)
    (hpages : ∀ y ∈ txPart r e.w { o with kind := .store }, ∀ v,
      (xlateParts r (committedActor r e.w) .write [(y.2, 8)]).1 ≠ .error (.fault v))
    (hwhole : sectionsWhole e (pend (lockStore e r o).state e (some 2) (lockWords o) .at (isNull o.dest) (lockStore e r o).ss).2) :
    elidedScond e r o =
      .done (pend (lockStore e r o).state e (some 2) (lockWords o) .at (isNull o.dest) (lockStore e r o).ss).2 := by
  unfold elidedScond
  dsimp only
  rw [hchk]
  dsimp only
  rw [hblk, hlate]
  dsimp only
  rw [List.filterMap_eq_nil_iff.mpr fun y hy => ?_]
  · exact sectionEnd_whole hwhole
  · split
    · rename_i v hv
      exact absurd hv (hpages y hy v)
    · rfl

/-- The lanes of a section. -/
def sectionLanes (w : Wave) (x : Elision) : List TxLane := w.tx.filter fun t => x.lanes.contains t.lane

/-- A STREL to the lock line that nothing holds back commits the section's lanes, or aborts the section. -/
theorem closeSection_commits (hls : fenced e.w .ls = false) (hat : fenced e.w .at = false)
    (hlog : txBehindLog r e.w (sectionLanes e.w x) = false) (hseal : (txSealed r e.w (sectionLanes e.w x)).1 = [])
    (hstop : txCommitStop r e.w (sectionLanes e.w x) = none) :
    closeSection e r x =
      if (txCommit r e.w (sectionLanes e.w x) true).2.any fun t => t.status ≠ 0 then
        .done (abortSection (txCommit r e.w (sectionLanes e.w x) true).1 e.w.uid x)
      else .done (pend ((txCommit r e.w (sectionLanes e.w x) true).1.modWave e.w.uid fun w =>
        { w with tx := w.tx.filter (fun t => !x.lanes.contains t.lane), elisions := w.elisions.filter fun y => y != x })
          e (some (txLatency r e.w (sectionLanes e.w x))) [] .at true 0).2 := by
  unfold sectionLanes at *
  unfold closeSection
  dsimp only
  rw [hls, hat, hlog]
  refine (if_neg Bool.false_ne_true).trans ?_
  rw [hseal]
  refine (if_neg Bool.false_ne_true).trans ?_
  rw [hstop]

theorem exec_scond_lock {d a b : OpCode} {lit : Word32} {t : State} (hi : Issues (.scond d a b lit) s e)
    (ho : requestOf e (.scond d a b lit) = some o) (hx : e.w.sectionOf e.p = some x)
    (hline : onLockLine (past (.scond d a b lit) s e) e.w { o with lanes := o.lanes.take 1 } x = true)
    (ht : elidedScond e (past (.scond d a b lit) s e) o = .done t) : exec (.scond d a b lit) s = .next t := by
  cases ho
  refine (show execScond d a b lit s = _ from rfl).trans (runInstr_done hi.1 hi.2 ?_)
  dsimp only
  rw [hx]
  exact (if_pos hline).trans ht

theorem exec_strel_lock {d a b : OpCode} {lit : Word32} {t : State} (hi : Issues (.strel d a b lit) s e)
    (hx : e.w.sectionOf e.p = some x)
    (hline : onLockLine (past (.strel d a b lit) s e) e.w (releaseOp e d a b lit) x = true)
    (hchk : firstFailure (laneChecks (past (.strel d a b lit) s e) e.w .generic 8 true) (releaseOp e d a b lit).lanes = none)
    (ht : closeSection e (past (.strel d a b lit) s e) x = .done t) : exec (.strel d a b lit) s = .next t := by
  refine (show execStrel d a b lit s = _ from rfl).trans (runInstr_done hi.1 hi.2 ?_)
  dsimp only
  rw [hx]
  refine (if_pos hline).trans ?_
  rw [hchk]
  exact ht

end Lock

/-- In a section, TBEGIN and TCOMMIT are nested (R263). -/
theorem exec_nested {s : State} {e : Env} {i : Instr} {x : Elision} (hx : e.w.sectionOf e.p = some x)
    (hform : ∃ d, i = .tbegin d ∨ i = .tcommit d) (hi : Issues i s e) :
    exec i s = .next (takeTrap (account s e i.scalarForm) e i.takesLiteral .txNested none 0 0) := by
  have hin : (e.w.sectionOf e.p).isSome = true := by rw [hx]; rfl
  obtain ⟨d, rfl | rfl⟩ := hform
  · exact (show execTbegin d s = _ from rfl).trans (runInstr_trap hi.1 hi.2 (if_pos hin))
  · exact (show execTcommit d s = _ from rfl).trans (runInstr_trap hi.1 hi.2 (if_pos hin))

end Sys2Proof.Machine
end

section
/-! PROOF. What no transaction supports and the elided sections, put together (O60: R257, R263). -/

namespace Sys2Proof.Machine

section Whole
variable {s : State} {e : Env} {i : Instr} {ls : List Nat} {f : State → (Nat → Bool) → Effect}

/-- Performed for the rest of its lanes, the instruction has the effect it says. -/
theorem exec_unsupported_done {t : State} (hi : Issues i s e) (hform : unsupportedForm e i = some (ls, f))
    (hmet : metAsUnsupported (past i s e) e i) (htx : ls.filter e.w.inTx ≠ [])
    (hx : e.w.sectionAmong (ls.filter e.w.inTx) = none) (ht : performedForRest i s e ls f = .done t) : exec i s = .next t := by
  obtain ⟨body, hexec, hbody⟩ := exec_unsupported_outside hform hmet htx hx
  exact hexec.trans (runInstr_done hi.1 hi.2 (hbody.trans ht))

theorem sectionAmong_of_section?_none {w : Wave} (h : w.section? = none) : w.sectionAmong ls = none :=
  sectionAmong_none fun x hx => .inl (elisions_plain h x hx)

theorem closeRun_ok {d : Domain} (hd : waveDomain s e.w = some d) (hf : fenced e.w .wl = false) :
    closeRun e s ls = .done (pend (noteServed (s.setDomain (closeLanes d e.w ls)) d.id (groveOf e.w.core)) e (some 60)
      [] .wl false 0).2 := by
  unfold closeRun withDomain
  rw [hd]
  dsimp only
  rw [hf]
  rfl

end Whole

/-- Settles O60: each instruction that no transaction supports comes down to the one test of its lanes, with its two outcomes;
an elided section by the LRES that opens it, the SCOND and STREL to its lock line, and what its abort makes of the wave. -/
theorem unsupportedInTransactions : Obligations.UnsupportedInTransactions := by
  unfold Obligations.UnsupportedInTransactions
  refine ⟨fun s e i hi => ?_, fun s e i hi => ?_, fun s e d a lit hi => ?_, fun s e x hx => ?_, fun s w w1 x hw hw1 => ?_⟩
  · intro r ls f hform hmet tx htx
    refine ⟨fun x hx => exec_unsupported_section hi hform hmet htx hx, fun hout => ?_⟩
    obtain ⟨body, hexec, hbody⟩ := exec_unsupported_outside hform hmet htx (sectionAmong_none hout)
    exact ⟨fun t ht => hexec.trans (runInstr_done hi.1 hi.2 (hbody.trans ht)),
      fun c lanes addr detail ht => hexec.trans (runInstr_trap hi.1 hi.2 (hbody.trans ht)), abortLanes_changesWaves ..,
      fun w w1 l t hl hw hw1 ht => txLane_abortLanes hl hw hw1 ht⟩
  · intro r tx aborted
    refine ⟨fun hg htx x hx hl hwave => ?_, fun htx hsec => ⟨?_, ?_, ?_⟩⟩
    · obtain ⟨f, hform, hmet⟩ : ∃ f, unsupportedForm e i = some (e.lanes, f) ∧ metAsUnsupported r e i := by
        split at hwave
        case h_27 => exact hwave.elim
        all_goals exact ⟨_, rfl, by simp only [metAsUnsupported, hg]⟩
      exact exec_unsupported_section hi hform hmet htx (sectionAmong_of_section? hx hl)
    · rintro n rfl
      exact exec_unsupported_done hi rfl trivial htx (sectionAmong_of_section?_none hsec) rfl
    · rintro d acc rfl
      exact exec_unsupported_done hi rfl trivial htx (sectionAmong_of_section?_none hsec) rfl
    · rintro d rfl htake hd hf
      have htx' : e.taking.filter e.w.inTx ≠ [] := htake ▸ htx
      refine exec_unsupported_done hi rfl trivial htx' (sectionAmong_of_section?_none hsec) ?_
      unfold performedForRest
      rw [htake]
      exact closeRun_ok hd hf
  · intro i r mine o ho
    cases ho
    refine ⟨fun hbit hel hmine => ?_, fun hagain hn t ht => ?_⟩
    · have hopens : opensSection e r lit = true := by
        unfold opensSection
        rw [hbit, hel, show e.w.elisions.any e.isRetry = false from hmine]
        rfl
      obtain ⟨body, hexec, hbody⟩ := exec_lres_elided hopens
      refine ⟨fun x hx => ?_, fun s0 l0 rest t w1 r1 ws lat ss hsec hn hf hlog hchk hl ht => ?_⟩
      · exact hexec.trans (runInstr_trap hi.1 hi.2 (hbody.trans (if_pos (by rw [hx]; rfl))))
      · intro ls x s1 hw1 hp out hwhole
        have hopen := openSection_opens hn hf hlog hchk hl ht hw1 hp hwhole
        exact hexec.trans (runInstr_done hi.1 hi.2 (hbody.trans ((if_neg (by rw [hsec]; exact Bool.false_ne_true)).trans hopen)))
    · exact exec_lres_retried hi hagain hn ht
  · intro whole
    refine ⟨?_, ?_, fun i hform hi => exec_nested hx hform hi⟩
    · intro d a b lit o hi ho r store hline hchk hblk hlate hpages first words out hwhole
      have hd : o.dest = d := by cases ho; rfl
      subst hd
      exact exec_scond_lock hi ho hx hline (elidedScond_enters hchk hblk hlate hpages hwhole)
    · intro d a b lit hi r o ts hline hchk hls hat hlog hseal hstop c
      have hclose := closeSection_commits hls hat hlog hseal hstop
      have hexec : ∀ t, closeSection e r x = .done t → exec (.strel d a b lit) s = .next t :=
        fun t ht => exec_strel_lock hi hx hline hchk ht
      refine ⟨fun hall => hexec _ (hclose.trans (if_neg ?_)), fun hany => hexec _ (hclose.trans (if_pos ?_))⟩
      · rw [Bool.not_eq_true, List.any_eq_false]
        intro t ht
        simpa using hall t ht
      · obtain ⟨t, ht, hst⟩ := hany
        exact List.any_eq_true.mpr ⟨t, ht, decide_eq_true hst⟩
  · rw [wave?_abortSection hw] at hw1
    cases hw1
    exact ⟨rfl, fun t ht => (mem_endSection_tx ht).2, rfl, rfl, rfl, rfl, fun place p hp hh => endSection_path hp hh,
      fun place p hp hh => endSection_other_path hp hh⟩

end Sys2Proof.Machine
end

section
/-! PROOF. Pre-emption requests stand on resident waves (O6: R401), and what module reset leaves (O7: R385, R387, R412, R430,
R435). -/

namespace Sys2Proof.Machine

/-! ## Requests withdrawn (R401) -/

/-- The context has a resident wave. -/
def hasWave (s : State) (c : Context) : Bool := s.waves.any fun w => w.fn == c.fn && w.ctx == c.id

/-- A context without its request. -/
def withdrawn (s : State) (c : Context) : Context :=
  let saved := s.blocks.any fun b => b.fn == c.fn && b.ctx == c.id && b.saved.isSome
  { c with preempt := none, state := if saved && c.state == .running then .preempted else c.state }

/-- The request of one context is withdrawn when none of its waves is resident. -/
def withdrawRequest (s : State) (c : Context) : State :=
  if c.preempt.isSome && !hasWave s c then kickAll (s.setCtx (withdrawn s c)) else s

theorem withdrawRequests_eq (s : State) : withdrawRequests s = s.ctxs.foldl withdrawRequest s := rfl

theorem kickAll_ctxs (s : State) : (kickAll s).ctxs = s.ctxs := by rw [(kickAll_awaits s).frame]

theorem withdrawRequest_waves (s : State) (c : Context) : (withdrawRequest s c).waves = s.waves := by
  unfold withdrawRequest
  split
  · rw [(kickAll_awaits _).frame]
    rfl
  · rfl

/-- A context changed: one of its key is the new one, and another stood before. -/
theorem mem_setCtx {s : State} {c x : Context} (hx : x ∈ (s.setCtx c).ctxs) :
    x = c ∨ x ∈ s.ctxs ∧ ¬ (x.fn = c.fn ∧ x.id = c.id) := by
  obtain ⟨y, hy, rfl⟩ := List.mem_map.mp hx
  by_cases hk : y.fn = c.fn ∧ y.id = c.id
  · exact .inl (if_pos (by simp [hk]))
  · rw [if_neg (by simpa using hk)]
    exact .inr ⟨hy, hk⟩

/-- A request that stands without a resident wave, once one context was looked at, is another one's and stood before. -/
theorem mem_withdrawRequest {s : State} {c x : Context} (hx : x ∈ (withdrawRequest s c).ctxs) (hp : x.preempt.isSome = true)
    (hw : hasWave s x = false) : x ∈ s.ctxs ∧ ¬ (c.preempt.isSome = true ∧ x.fn = c.fn ∧ x.id = c.id) := by
  unfold withdrawRequest at hx
  by_cases hc : (c.preempt.isSome && !hasWave s c) = true
  · rw [if_pos hc, kickAll_ctxs] at hx
    rcases mem_setCtx hx with rfl | ⟨hmem, hne⟩
    · exact absurd hp Bool.false_ne_true
    · exact ⟨hmem, fun h => hne h.2⟩
  · rw [if_neg hc] at hx
    refine ⟨hx, fun ⟨hs, hf, hi⟩ => hc ?_⟩
    unfold hasWave at hw ⊢
    rw [hs, ← hf, ← hi, hw]
    rfl

theorem requestsLive_iff (s : State) : s.requestsLive = true ↔ ∀ c ∈ s.ctxs, c.preempt.isSome = true → hasWave s c = true := by
  unfold State.requestsLive
  rw [List.all_eq_true]
  refine forall₂_congr fun c _ => ?_
  change (c.preempt.isNone || hasWave s c) = true ↔ _
  cases c.preempt <;> simp

/-- Once each context with a request has been looked at, every request left is one of a context with a resident wave. -/
theorem withdrawn_requestsLive (cs : List Context) : ∀ s : State,
    (∀ x ∈ s.ctxs, x.preempt.isSome = true → hasWave s x = false →
      ∃ c ∈ cs, c.preempt.isSome = true ∧ x.fn = c.fn ∧ x.id = c.id) →
    (cs.foldl withdrawRequest s).requestsLive = true := by
  induction cs with
  | nil =>
    intro s h
    refine (requestsLive_iff s).mpr fun x hx hp => ?_
    by_contra hw
    obtain ⟨c, hc, -⟩ := h x hx hp (by simpa using hw)
    exact List.not_mem_nil hc
  | cons c cs ih =>
    intro s h
    refine ih _ fun x hx hp hw => ?_
    have hw0 : hasWave s x = false := by
      unfold hasWave at hw ⊢
      rw [← hw, withdrawRequest_waves]
    obtain ⟨hmem, hne⟩ := mem_withdrawRequest hx hp hw0
    obtain ⟨y, hy, hkey⟩ := h x hmem hp hw0
    rcases List.mem_cons.mp hy with rfl | hy
    · exact absurd hkey hne
    · exact ⟨y, hy, hkey⟩

theorem withdrawRequests_requestsLive (s : State) : (withdrawRequests s).requestsLive = true := by
  rw [withdrawRequests_eq]
  exact withdrawn_requestsLive _ _ fun x hx hp _ => ⟨x, hx, hp, rfl, rfl⟩

theorem settled_requestsLive {o : Host.Outcome State Fault Refusal} {t : State} (h : settled o = .next t) :
    t.requestsLive = true := by
  cases o with
  | next r =>
    have ht : settleAll r = t := Host.Outcome.next.inj h
    rw [← ht]
    unfold settleAll
    exact withdrawRequests_requestsLive _
  | fault r => exact absurd h (fun h => nomatch h)
  | refused r => exact absurd h (fun h => nomatch h)

/-- Settles O6: every step that answers a next state ends by settling the machine, which withdraws such requests last. -/
theorem stepKeepsRequestsLive : Obligations.StepKeepsRequestsLive := by
  unfold Obligations.StepKeepsRequestsLive
  intro s t h
  unfold step at h
  split at h
  · exact settled_requestsLive h
  · exact settled_requestsLive h
  · exact absurd h (fun h => nomatch h)

/-! ## Registers at reset (R385, R387, R430) -/

theorem readRegister_module {off : Nat} (s : State) (fn : Nat) (h : off % 8 = 0) :
    readRegister s 0 fn off 8 = w64 (readModule s off) := if_neg (by simp [h])

theorem readRegister_pf {off : Nat} (s : State) (fn : Nat) (h : off % 8 = 0) :
    readRegister s 1 fn off 8 = w64 (readPf s off) := if_neg (by simp [h])

theorem readRegister_fn {off fn : Nat} (s : State) (h : off % 8 = 0) (hf : fn < 16) :
    readRegister s 2 fn off 8 = w64 (readFn s fn off) := (if_neg (by simp [h])).trans (if_pos hf)

theorem readModule_grovectl (s : State) {g : Nat} (h : g < 128) :
    readModule s (0x100 + 8 * g) = powerReg s (0x100 + 8 * g) 5 := by
  unfold readModule plimitOff gbudhiOff gbudloOff thwarnOff thtripOff grovectlOff Config.groves
  rw [if_neg (by omega), if_neg (by omega), if_neg (by omega), if_neg (by omega), if_neg (by omega),
    if_pos (by simp; omega)]

/-- A function's control register in the window of the physical function (R387). -/
theorem readPf_vfctl (s : State) {k : Nat} (h : k < 16) :
    readPf s (0x40 * k) = b2n (s.func k).enable + 2 * b2n (s.func k).wsok + 256 * b2n (s.func k).flr := by
  have hk : 0x40 * k / 0x40 = k := by omega
  unfold readPf
  rw [if_neg (by omega), if_neg (by omega), hk, Nat.mul_mod_right]
  rfl

theorem readFn_trctl (s : State) (fn : Nat) : readFn s fn 0x200 = (s.func fn).trctl := rfl

theorem powerReg_reset (off x : Nat) : powerReg State.reset off x = x := Nat.zero_xor x

theorem trctl_reset (f : Nat) : (State.reset.func f).trctl = 0x80000 := Nat.zero_xor 0x80000

/-- Settles O7: the registers from what each window reads, the rest from the reset state as it is written. -/
theorem resetState : Obligations.ResetState := by
  unfold Obligations.ResetState
  refine ⟨rfl, rfl, rfl, rfl, rfl, rfl, rfl, rfl, rfl, rfl, rfl, rfl, rfl, rfl, fun a => rfl, fun a => rfl,
    fun c => ⟨rfl, rfl, rfl, rfl, rfl⟩, fun f q => ⟨rfl, fun hf => ?_, rfl, rfl, rfl, rfl, rfl⟩, fun f hf => ?_,
    rfl, rfl, rfl, rfl, rfl, rfl, rfl, fun g hg => ?_⟩
  · rw [readRegister_pf _ _ (by omega), readPf_vfctl _ hf]
    rfl
  · rw [readRegister_fn _ (by decide) hf, readFn_trctl, trctl_reset]
    rfl
  · rw [readRegister_module _ _ (by omega), readModule_grovectl _ hg, powerReg_reset]
    rfl

end Sys2Proof.Machine
end

section
/-! PROOF. Capture and replay (O57: R415, R418). -/

namespace Sys2Proof.Machine

section Capture
variable {s : State} {fn id : Nat}

/-- A capture or a replay is under way. -/
def capturing (s : State) (fn : Nat) : Bool :=
  (s.func fn).capture.state == 1 || (s.func fn).capture.state == 2 || (s.func fn).capture.state == 3

theorem capturing_iff : capturing s fn = true ↔
    (s.func fn).capture.state = 1 ∨ (s.func fn).capture.state = 2 ∨ (s.func fn).capture.state = 3 := by
  simp [capturing, or_assoc]

theorem exec_captureStart : exec (.captureStart fn id) s = .next (if capturing s fn || !ownsCtx s fn id then s
    else (setCapture s fn { emptyCapture with state := 1, ctx := id }).schedule 0 (.captureSnapshot fn)) := rfl

theorem exec_replayStart : exec (.replayStart fn id) s = .next (if capturing s fn || !ownsCtx s fn id then s
    else replayNext (setCapture s fn { emptyCapture with state := 3, ctx := id }) fn) := rfl

theorem exec_captureAbort : exec (.captureAbort fn) s = .next (if capturing s fn then
    kickQueues { setCapture s fn { (s.func fn).capture with state := 0, stopping := false } with
      launches := s.launches.map fun l => if l.fn = fn then { l with recorded := false, replaySum := none } else l } fn
        (s.func fn).capture.ctx
    else s) := rfl

/-- The start of either is refused while one is under way, and for an absent context. -/
theorem startRefused_iff : (capturing s fn || !ownsCtx s fn id) = true ↔
    ((s.func fn).capture.state = 1 ∨ (s.func fn).capture.state = 2 ∨ (s.func fn).capture.state = 3) ∨ s.ctx? fn id = none := by
  simp only [Bool.or_eq_true, capturing_iff, ownsCtx, Bool.not_eq_true', Option.isSome_eq_false_iff, Option.isNone_iff_eq_none]

theorem exec_captureSnapshot {c : Context} (hs : (s.func fn).capture.state = 1) (hc : s.ctx? fn (s.func fn).capture.ctx = some c)
    (hl : ∀ l ∈ s.launches, l.inCtx fn (s.func fn).capture.ctx = false) :
    exec (.captureSnapshot fn) s = .next (takeSnapshot s fn c) := by
  have hidle : ¬ (decide ((s.func fn).capture.state ≠ 1) || s.launches.any fun l => l.inCtx fn (s.func fn).capture.ctx) = true := by
    simpa [hs] using hl
  have hsnap : (match s.ctx? fn (s.func fn).capture.ctx with | some c => takeSnapshot s fn c | none => s) =
      takeSnapshot s fn c := by rw [hc]
  exact congrArg Host.Outcome.next ((if_neg hidle).trans hsnap)

theorem exec_captureStop_starting (hs : (s.func fn).capture.state = 1) : exec (.captureStop fn) s =
    .next (kickQueues (setCapture s fn { (s.func fn).capture with state := 4 }) fn (s.func fn).capture.ctx) := by
  change execCaptureStop fn s = _
  exact congrArg _ (if_pos hs)

/-- A capture that records ends at once, or once its last recorded launch has completed. -/
theorem exec_captureStop_recording (hs : (s.func fn).capture.state = 2) : exec (.captureStop fn) s =
    .next (if s.launches.any fun l => l.fn == fn && l.recorded then setCapture s fn { (s.func fn).capture with stopping := true }
      else setCapture s fn { (s.func fn).capture with state := 4 }) := by
  change execCaptureStop fn s = _
  have hne : (s.func fn).capture.state ≠ 1 := by rw [hs]; decide
  exact congrArg _ ((if_neg hne).trans (if_pos hs))

theorem anyRecorded_iff : (s.launches.any fun l => l.fn == fn && l.recorded) = true ↔
    ∃ l ∈ s.launches, l.fn = fn ∧ l.recorded = true := by
  simp [List.any_eq_true]

end Capture

/-- Settles O57: each write of CAPCMD from the state of the function's capture. -/
theorem captureAndReplay : Obligations.CaptureAndReplay := by
  unfold Obligations.CaptureAndReplay
  intro s fn id
  refine ⟨fun h => ?_, fun hb hc => ?_, fun c hs hc hl => exec_captureSnapshot hs hc hl, exec_captureStop_starting,
    fun hs hl => ?_, fun hs hl => ?_, fun hb => ?_, fun hb => ?_⟩
  · have hr := startRefused_iff.mpr h
    rw [exec_captureStart, exec_replayStart, if_pos hr, if_pos hr]
    exact ⟨rfl, rfl⟩
  · have hr : ¬ (capturing s fn || !ownsCtx s fn id) = true := fun h => (startRefused_iff.mp h).elim hb hc
    rw [exec_captureStart, exec_replayStart, if_neg hr, if_neg hr]
    exact ⟨rfl, rfl⟩
  · rw [exec_captureStop_recording hs, if_neg]
    rw [anyRecorded_iff]
    rintro ⟨l, hmem, hfn, hrec⟩
    exact Bool.false_ne_true ((hl l hmem hfn).symm.trans hrec)
  · rw [exec_captureStop_recording hs, if_pos (anyRecorded_iff.mpr hl)]
  · rw [exec_captureAbort, if_neg fun h => hb (capturing_iff.mp h)]
  · rw [exec_captureAbort, if_pos (capturing_iff.mpr hb)]

end Sys2Proof.Machine
end

section
/-! PROOF. Invalidations and map changes (O55: R385, R386). -/

namespace Sys2Proof.Machine

section Invalidation
variable {s : State} {fn asid : Nat}

/-- A write to TLBINVC that is ignored (R385). -/
theorem invalidate_ignored (h : ownsAsid (s.func fn) asid = false ∨ (s.func fn).invalidating = true) (drop : State → State) :
    invalidate s fn asid drop = s := by
  refine if_pos ?_
  rcases h with h | h <;> simp [h]

/-- A write to TLBINVC that begins an invalidation (R385). -/
theorem invalidate_begins (ho : ownsAsid (s.func fn) asid = true) (hi : (s.func fn).invalidating = false) (drop : State → State) :
    invalidate s fn asid drop =
      (drop (s.setFunc fn { s.func fn with invalidating := true })).schedule invalidateClocks (.tlbInvalidateDone fn) :=
  if_neg (by simp [ho, hi])

end Invalidation

section MapChange
variable {s : State} {fn asid : Nat}

/-- The 64 KiB pages MAPBASE names: the first, and how many (R385). -/
def mapFirstOf (f : Function) : Nat := bits (f.reg 0x40) 16 36
def mapCountOf (f : Function) : Nat := bits (f.reg 0x40) 0 16 + 1

/-- The pinned lines of an ASID in a range (R386). -/
def pinnedIn (s : State) (asid first count : Nat) : Nat :=
  ((s.pins.filter fun p => p.asid == asid && lineInRange first count p.line).map Pin.line).eraseDups.length

/-- The function may begin a map change of the ASID (R386). -/
def mapFree (f : Function) (asid : Nat) : Prop := ownsAsid f asid = true ∧ f.mapStat ≠ 1 ∧ f.mapStat ≠ 2

/-- The range frozen, its translations dropped, and the drain under way (R386). -/
def freezeRange (s : State) (fn asid : Nat) : State :=
  let f := s.func fn
  let r : State := { s with mapGens := mset 0 s.mapGens asid (mget 0 s.mapGens asid + 1) }
  (dropTlb (r.setFunc fn { f with
    mapStat := 1, mapPinned := Nat.min (pinnedIn s asid (mapFirstOf f) (mapCountOf f)) 0xFFFF, mapAsid := asid,
    mapFirst := mapFirstOf f, mapCount := mapCountOf f }) asid (mapFirstOf f) (mapCountOf f)).schedule 1000 (.mapChangeFrozen fn)

theorem exec_mapChange (force : Bool) : exec (if force then .mapChangeForce fn asid else .mapChange fn asid) s =
    .next (startMapChange s fn asid force) := by cases force <;> rfl

theorem startMapChange_eq (s : State) (fn asid : Nat) (force : Bool) : startMapChange s fn asid force =
    if !ownsAsid (s.func fn) asid || (s.func fn).mapStat == 1 || (s.func fn).mapStat == 2 then s
    else if 2 ^ 36 < mapFirstOf (s.func fn) + mapCountOf (s.func fn) then s.setFunc fn { s.func fn with mapStat := 4, mapPinned := 0 }
    else if pinnedIn s asid (mapFirstOf (s.func fn)) (mapCountOf (s.func fn)) ≠ 0 && !force then
      s.setFunc fn { s.func fn with mapStat := 3, mapPinned := Nat.min (pinnedIn s asid (mapFirstOf (s.func fn)) (mapCountOf (s.func fn))) 0xFFFF }
    else freezeRange s fn asid := rfl

theorem mapFree_iff {f : Function} : mapFree f asid ↔ ¬ (!ownsAsid f asid || f.mapStat == 1 || f.mapStat == 2) = true := by
  simp [mapFree, and_assoc]

theorem startMapChange_ignored (h : ¬ mapFree (s.func fn) asid) (force : Bool) : startMapChange s fn asid force = s := by
  rw [startMapChange_eq, if_pos (not_not.mp (mapFree_iff.not.mp h))]

/-- A range beyond the address space is refused with MAPSTAT 4 (R386). -/
theorem startMapChange_tooLong (h : mapFree (s.func fn) asid)
    (hr : 2 ^ 36 < mapFirstOf (s.func fn) + mapCountOf (s.func fn)) (force : Bool) :
    startMapChange s fn asid force = s.setFunc fn { s.func fn with mapStat := 4, mapPinned := 0 } := by
  rw [startMapChange_eq, if_neg (mapFree_iff.mp h), if_pos hr]

section Inside
variable (hr : mapFirstOf (s.func fn) + mapCountOf (s.func fn) ≤ 2 ^ 36)
include hr

/-- A pinned line refuses a change that is not forced, with MAPSTAT 3 (R386). -/
theorem startMapChange_pinned (h : mapFree (s.func fn) asid)
    (hp : pinnedIn s asid (mapFirstOf (s.func fn)) (mapCountOf (s.func fn)) ≠ 0) :
    startMapChange s fn asid false = s.setFunc fn { s.func fn with
      mapStat := 3, mapPinned := Nat.min (pinnedIn s asid (mapFirstOf (s.func fn)) (mapCountOf (s.func fn))) 0xFFFF } := by
  rw [startMapChange_eq, if_neg (mapFree_iff.mp h), if_neg (Nat.not_lt.mpr hr), if_pos (by simpa using hp)]

theorem startMapChange_freezes (h : mapFree (s.func fn) asid) {force : Bool}
    (hp : pinnedIn s asid (mapFirstOf (s.func fn)) (mapCountOf (s.func fn)) = 0 ∨ force = true) :
    startMapChange s fn asid force = freezeRange s fn asid := by
  rw [startMapChange_eq, if_neg (mapFree_iff.mp h), if_neg (Nat.not_lt.mpr hr), if_neg]
  rcases hp with hp | hp <;> simp [hp]

end Inside

/-- A drain waits for older commands and atomics (R386). -/
theorem exec_mapChangeFrozen_waits (hm : (s.func fn).mapStat = 1)
    (h : olderCommand s (s.func fn) = true ∨ olderAtomic s (s.func fn) = true) :
    exec (.mapChangeFrozen fn) s = .next (s.schedule 1000 (.mapChangeFrozen fn)) := by
  exact congrArg _ ((if_neg (not_not.mpr hm)).trans (if_pos (by simpa using h)))

theorem exec_mapdone : exec (.mapdone fn) s =
    .next (if (s.func fn).mapStat = 2 then s.setFunc fn { s.func fn with mapStat := 0 } else s) := rfl

end MapChange

/-- Settles O55: TLBINVC through `invalidate`, a map change through the checks of MAPCMD and its drain. -/
theorem invalidationsAndMapChanges : Obligations.InvalidationsAndMapChanges := by
  unfold Obligations.InvalidationsAndMapChanges
  refine ⟨fun s fn asid => ⟨fun h => ?_, fun ho hi => ?_, rfl⟩, fun s fn asid => ?_⟩
  · exact ⟨congrArg Host.Outcome.next (invalidate_ignored h _), congrArg Host.Outcome.next (invalidate_ignored h _),
      congrArg Host.Outcome.next (invalidate_ignored h _)⟩
  · refine ⟨congrArg Host.Outcome.next (invalidate_begins ho hi _), congrArg Host.Outcome.next (invalidate_begins ho hi _),
      congrArg Host.Outcome.next ?_⟩
    rw [invalidate_begins ho hi, func_setFunc]
    rfl
  · intro f first count met change free
    refine ⟨fun force h => ?_, fun force h hr => ?_, fun h hr hp => ?_, fun force h hr hp => ?_, fun hm hc ha => ?_,
      fun hm h => exec_mapChangeFrozen_waits hm h, fun hm => ?_, fun hm => ?_⟩
    · exact (exec_mapChange force).trans (congrArg _ (startMapChange_ignored h force))
    · exact (exec_mapChange force).trans (congrArg _ (startMapChange_tooLong h hr force))
    · exact (exec_mapChange false).trans (congrArg _ (startMapChange_pinned hr h hp))
    · exact (exec_mapChange force).trans (congrArg _ (startMapChange_freezes hr h hp))
    · have holder : ¬ (olderCommand s f || olderAtomic s f) = true := by rw [hc, ha]; exact Bool.false_ne_true
      exact congrArg _ ((if_neg (not_not.mpr hm)).trans (if_neg holder))
    · rw [exec_mapdone, if_pos hm]
    · rw [exec_mapdone, if_neg hm]

end Sys2Proof.Machine
end

section
/-! PROOF. Votes, demerits and fences (O47: R352, R355, R357, R363, R365, R367). -/

namespace Sys2Proof.Machine

/-! ## Demerits (R365) -/

theorem core_setCore_of_ne (s : State) (c : Core) {k j : Nat} (h : j ≠ k) : (s.setCore k c).core j = s.core j := by
  unfold State.core State.setCore
  rw [mget_mset, if_neg h]

theorem core_schedule (s : State) (n : Nat) (i : Instr) (k : Nat) : (s.schedule n i).core k = s.core k := rfl

theorem giveDemerit_same (s : State) (k : Nat) : ((giveDemerit s k).core k).demerits =
    if (s.core k).demerits ≠ 15 then (s.core k).demerits + 1 else (s.core k).demerits := by
  unfold giveDemerit
  by_cases h : (s.core k).demerits = 15
  · rw [if_pos h, if_neg (not_not.mpr h)]
  · rw [if_neg h, if_pos h, core_schedule, core_setCore]

theorem giveDemerit_other (s : State) {k j : Nat} (h : j ≠ k) : (giveDemerit s k).core j = s.core j := by
  unfold giveDemerit
  by_cases hf : (s.core k).demerits = 15
  · rw [if_pos hf]
  · rw [if_neg hf, core_schedule, core_setCore_of_ne _ _ h]

/-- One demerit each for distinct cores. -/
theorem giveDemerits_core {ks : List Nat} (hn : ks.Nodup) (s : State) (k : Nat) : ((ks.foldl giveDemerit s).core k).demerits =
    if k ∈ ks ∧ (s.core k).demerits ≠ 15 then (s.core k).demerits + 1 else (s.core k).demerits := by
  induction ks generalizing s with
  | nil => simp
  | cons j ks ih =>
    obtain ⟨hj, hks⟩ := List.nodup_cons.mp hn
    rw [List.foldl_cons, ih hks]
    by_cases hk : k = j
    · subst hk
      simp only [hj, false_and, if_false, giveDemerit_same, List.mem_cons, true_or, true_and]
    · rw [giveDemerit_other s hk]
      simp [hk]

theorem nodup_eraseDups (n : Nat) : ∀ xs : List Nat, xs.length ≤ n → xs.eraseDups.Nodup := by
  induction n with
  | zero => intro xs h; rw [List.length_eq_zero_iff.mp (Nat.le_zero.mp h)]; exact List.nodup_nil
  | succ n ih =>
    intro xs h
    cases xs with
    | nil => exact List.nodup_nil
    | cons x xs =>
      rw [List.eraseDups_cons, List.nodup_cons]
      refine ⟨by simp, ih _ ?_⟩
      exact (List.length_filter_le _ _).trans (Nat.le_of_succ_le_succ h)

theorem exec_demeritDecay_early (s : State) (core : Nat)
    (h : (s.core core).demerits = 0 ∨ s.clock < (s.core core).demeritChange + dayClocks) :
    exec (.demeritDecay core) s = .next s := if_pos (by simpa using h)

theorem exec_demeritDecay_falls (s : State) (core : Nat) (hd : (s.core core).demerits ≠ 0)
    (h : (s.core core).demeritChange + dayClocks ≤ s.clock) : exec (.demeritDecay core) s =
      let fallen := s.setCore core { s.core core with demerits := (s.core core).demerits - 1, demeritChange := s.clock }
      .next (if (s.core core).demerits = 1 then fallen else fallen.schedule dayClocks (.demeritDecay core)) :=
  if_neg (by simp; exact ⟨hd, h⟩)

/-! ## The vote (R363, R367) -/

theorem runsMatch_iff (x y : Block) : runsMatch x y = true ↔
    x.ss = y.ss ∧ x.rs = y.rs ∧ x.faulted = none ∧ y.faulted = none ∧ x.departed = false ∧ y.departed = false := by
  simp [runsMatch, and_assoc]

section Vote
variable {s : State} {o sh tb : Block}

/-- What the vote comes to for an original and a shadow that have ended. -/
theorem exec_checkVote (ho : s.block? o.lid o.bid .original = some o) (hs : s.block? o.lid o.bid .shadow = some sh)
    (hu : o.unchecked = true) (hf : o.forced = false) (hp : sh.phase = .done) : exec (.checkVote o.lid o.bid) s =
      .next (match s.block? o.lid o.bid .tiebreak with
        | none => if runsMatch o sh then commitRun s o id
          else (s.setBlock { o with phase := .awaitingTiebreak }).schedule 0 (.blockPlace o.lid)
        | some tb => if tb.phase = .done then judge s o sh tb else s) := by
  change execCheckVote o.lid o.bid s = _
  unfold execCheckVote
  rw [ho]
  dsimp only
  rw [hu, hf, hs]
  dsimp only
  rw [hp]
  rfl

theorem judge_original (h : runsMatch tb o = true) : judge s o sh tb = commitRun s o fun r => giveDemerits r sh := if_pos h

theorem judge_shadow (h : ¬ runsMatch tb o = true) (h' : runsMatch tb sh = true) : judge s o sh tb =
    commitRun s sh fun r => if o.atomics then findStatus (giveDemerits r o) o.lid 0x0104 else giveDemerits r o :=
  (if_neg h).trans (if_pos h')

/-- The shadow and the tiebreak ended with one fault (R367). -/
theorem judge_sameFault (h : ¬ runsMatch tb o = true) (h' : ¬ runsMatch tb sh = true) {x : Cause × Word}
    (hs : sh.faulted = some x) (ht : tb.faulted = some x) :
    judge s o sh tb = contextError (giveDemerits s o) o.fn o.ctx x.1 := by
  unfold judge
  rw [if_neg h, if_neg h', hs, ht]
  exact if_pos rfl

theorem judge_unresolved (h : ¬ runsMatch tb o = true) (h' : ¬ runsMatch tb sh = true)
    (hne : ∀ x, sh.faulted = some x → tb.faulted ≠ some x) : judge s o sh tb =
      finishBlock (findStatus (giveDemerits (giveDemerits (giveDemerits s o) sh) tb) o.lid Cause.checkUnresolved.code)
        o.lid o.bid false := by
  unfold judge
  rw [if_neg h, if_neg h']
  split
  next x y hx hy => exact if_neg fun hxy => hne x hx (hy.trans (congrArg some hxy.symm))
  next => rfl

end Vote

theorem schedule_blocks (s : State) (n : Nat) (i : Instr) : (s.schedule n i).blocks = s.blocks := rfl

theorem kickAll_blocks (s : State) : (kickAll s).blocks = s.blocks := by rw [(kickAll_awaits s).frame]

/-- A block that is done leaves with all its runs (R397). -/
theorem not_mem_finishBlock {s : State} {lid bid : Nat} {ok : Bool} {x : Block} (hx : x ∈ (finishBlock s lid bid ok).blocks) :
    ¬ (x.lid = lid ∧ x.bid = bid) := by
  have hfreed : x ∈ (freeBlock s lid bid fun _ => true).blocks := by
    unfold finishBlock at hx
    dsimp only at hx
    split at hx
    · exact hx
    · rw [schedule_blocks, kickAll_blocks] at hx
      exact hx
  have hkept := (List.mem_filter.mp hfreed).2
  rintro ⟨hl, hb⟩
  simp [hl, hb] at hkept

theorem find?_launch_replaced {ls : List Launch} {l' : Launch} (h : (ls.find? fun x => x.lid == l'.lid).isSome = true) :
    ((ls.map fun x => if x.lid == l'.lid then l' else x).find? fun x => x.lid == l'.lid) = some l' := by
  induction ls with
  | nil => cases h
  | cons x xs ih =>
    by_cases hx : x.lid = l'.lid
    · simp [hx]
    · have hb : (x.lid == l'.lid) = false := beq_false_of_ne hx
      rw [List.find?_cons, hb] at h
      simpa [hb, hx] using ih h

theorem launch?_findStatus {s : State} {lid : Nat} {l : Launch} (h : s.launch? lid = some l) (k : Nat) :
    (findStatus s lid k).launch? lid = some { l with status := mergeStatus l.status k } := by
  have hlid : l.lid = lid := by simpa using List.find?_some h
  subst hlid
  unfold findStatus
  rw [h]
  exact find?_launch_replaced (l' := { l with status := mergeStatus l.status k }) (Option.isSome_iff_exists.mpr ⟨l, h⟩)

theorem exec_holdFullTimeout {s : State} {uid : Nat} {w : Wave} (hw : s.anyWave? uid = some w) :
    exec (.holdFullTimeout uid) s = .next
      (if w.refused.any fun x => decide (x.2 + 1000 * Config.clocksPerUs ≤ s.clock) then contextError s w.fn w.ctx .checkHoldFull
       else s) := by
  change execHoldFullTimeout uid s = _
  unfold execHoldFullTimeout
  rw [hw]

/-- Settles O47: the vote from the table of R363, the demerits core by core. -/
theorem votesDemeritsAndFences : Obligations.VotesDemeritsAndFences := by
  unfold Obligations.VotesDemeritsAndFences
  refine ⟨⟨fun s o sh ho hs hu hf hp => ⟨fun htb => ⟨fun h => ?_, fun h => ?_⟩, fun tb htb hdone => ?_⟩,
    fun s s1 b f => ⟨fun h => ?_, fun h => ?_, fun h => ?_, fun ok x hx => not_mem_finishBlock hx, fun core => ?_,
      fun lid k l hl => ⟨_, launch?_findStatus hl k, rfl⟩⟩,
    fun s uid w hw => ⟨fun h => ?_, fun h => ?_⟩⟩, fun s core => ⟨fun h hc => ?_, fun h hc => ?_, fun h => ?_, fun hc => ⟨?_, ?_⟩,
      fun n h1 h2 => ?_, fun n h => ?_⟩⟩
  · rw [exec_checkVote ho hs hu hf hp, htb]
    exact congrArg _ (if_pos ((runsMatch_iff o sh).mpr h))
  · rw [exec_checkVote ho hs hu hf hp, htb]
    refine congrArg _ (if_neg fun hm => ?_)
    obtain ⟨h1, h2, h3, h4, h5, h6⟩ := (runsMatch_iff o sh).mp hm
    simp [h1, h2, h3, h4, h5, h6] at h
  · intro event same third
    have hev : event = .next (judge s o sh tb) := by
      refine (exec_checkVote ho hs hu hf hp).trans ?_
      rw [htb]
      exact congrArg _ (if_pos hdone)
    have hno : ∀ {x y : Block}, ¬ same x y → ¬ runsMatch x y = true := fun h hm => h ((runsMatch_iff _ _).mp hm)
    refine ⟨fun h => ?_, fun h h' => ?_, fun h h' => ⟨fun x hx hy => ?_, fun hne => ?_⟩⟩
    · rw [hev, judge_original ((runsMatch_iff _ _).mpr h)]
    · rw [hev, judge_shadow (hno h) ((runsMatch_iff _ _).mpr h')]
    · rw [hev, judge_sameFault (hno h) (hno h') hx hy]
    · rw [hev, judge_unresolved (hno h) (hno h') hne]
  · unfold commitRun; rw [h]
  · unfold commitRun; rw [h]
  · unfold commitRun; rw [h]
  · intro c
    refine (giveDemerits_core (nodup_eraseDups _ _ le_rfl) s core).trans ?_
    simp only [List.mem_eraseDups]
    rfl
  · rw [exec_holdFullTimeout hw, if_pos (by simpa using h)]
  · rw [exec_holdFullTimeout hw, if_neg (by simpa using h)]
  · exact (exec_demeritDecay_falls s core (by omega) hc).trans (congrArg _ (if_pos h))
  · exact (exec_demeritDecay_falls s core (by omega) hc).trans (congrArg _ (if_neg (by omega)))
  · exact exec_demeritDecay_early s core h
  · exact congrArg _ (if_pos hc)
  · exact congrArg _ (if_pos hc)
  · exact congrArg _ (if_pos (by simp [h1, h2]))
  · exact congrArg _ (if_neg (by simp; omega))

end Sys2Proof.Machine
end

section
/-! PROOF. Check-engine and power-engine instructions (O46: R360 to R362, R424, R425). -/

namespace Sys2Proof.Machine

section PinsForgotten
variable {s : State} {w : Wave}

/-- Without its broken pins a wave resolves every address alike. -/
theorem resolve_unpinned (s : State) (w : Wave) (form : AddrForm) (addr : Word) :
    resolve s { w with brokenPins := [] } form addr = resolve s w form addr := rfl

theorem firstFailure_singleton {cs : List LaneCheck} {l : LaneAcc} : firstFailure cs [l] = none ↔ ∀ c ∈ cs, c l = none := by
  induction cs with
  | nil => simp [firstFailure]
  | cons c cs ih =>
    unfold firstFailure
    cases h : c l with
    | none => simp [h, ih]
    | some x => simp [h]

/-- A check passed with broken pins is passed without them. -/
theorem laneChecks_unpinned {form : AddrForm} {align : Nat} {writes : Bool} {l : LaneAcc}
    (h : firstFailure (laneChecks s w form align writes) [l] = none) :
    firstFailure (laneChecks s { w with brokenPins := [] } form align writes) [l] = none := by
  rw [firstFailure_singleton] at h ⊢
  simp only [laneChecks, List.forall_mem_cons] at h ⊢
  obtain ⟨h1, h2, h3, h4, h5, -, h7, h8⟩ := h
  refine ⟨h1, h2, h3, h4, h5, ?_, h7, h8⟩
  rw [resolve_unpinned]
  split
  · exact if_neg Bool.false_ne_true
  · rfl

theorem xlateLanes_unpinned (a : Actor) (form : AddrForm) (k : AccKind) (l : LaneAcc) :
    xlateLanes s { w with brokenPins := [] } a form k [l] = xlateLanes s w a form k [l] := rfl

/-- An object that an access reaches, it reaches without the wave's broken pins. -/
theorem accessObj_unpinned {a : Actor} {addr : Word} {align width : Nat} {writes : Bool} {op : MemOp} {o : ObjAt} {r : State}
    (h : accessObj s w a addr align width writes op = (.ok o, r)) :
    accessObj s { w with brokenPins := [] } a addr align width writes op = (.ok o, r) := by
  unfold accessObj at h ⊢
  dsimp only at h ⊢
  split at h
  · cases h
  · next hf =>
    rw [laneChecks_unpinned hf]
    exact h

end PinsForgotten

theorem past_launches (i : Instr) (s : State) (e : Env) : (past i s e).launches = s.launches := by rw [past_eq]

section Instructions
variable {s : State} {e : Env} {d a : OpCode}

theorem roleWord_past (i : Instr) : roleWord (past i s e) e.w = roleWord s e.w := by
  unfold roleWord State.launch?
  rw [past_launches, past_core]

theorem rsOf_past (i : Instr) : rsOf (past i s e) e.w = rsOf s e.w := by
  unfold rsOf State.launch?
  rw [past_launches]

theorem exec_ckrole (hi : Issues (.ckrole d) s e) :
    exec (.ckrole d) s = .next (finished e (past (.ckrole d) s e) 2 (e.all d (roleWord s e.w))) := by
  change execCkrole d s = _
  unfold execCkrole
  refine runInstr_done hi.1 hi.2 ?_
  rw [roleWord_past]
  rfl

theorem exec_cksig {k : Byte} (hi : Issues (.cksig d k) s e) : exec (.cksig d k) s =
    .next (finished e (past (.cksig d k) s e) 8 (e.all d (if k = 0 then e.w.ownSS else w64 (rsOf s e.w)))) := by
  change execCksig d k s = _
  unfold execCksig
  refine runInstr_done hi.1 hi.2 ?_
  rw [rsOf_past]
  rfl

theorem exec_clkq (hi : Issues (.clkq d) s e) : exec (.clkq d) s =
    .next (finished e (past (.clkq d) s e) 4 (e.all d (clkqWord (past (.clkq d) s e) (groveOf e.w.core)))) := by
  change execClkq d s = _
  unfold execClkq
  exact runInstr_done hi.1 hi.2 rfl

theorem exec_halt_waits (hi : Issues .halt s e) (h : s.clock % Config.clocksPerUs ≠ 0) : exec .halt s = .next (noteTried s e 10) := by
  change execHalt s = _
  unfold execHalt
  refine runInstr_wait hi (if_neg ?_)
  rwa [past_clock]

theorem exec_halt_issues (hi : Issues .halt s e) (h : s.clock % Config.clocksPerUs = 0) :
    exec .halt s = .next (finished e (past .halt s e) 1 []) := by
  change execHalt s = _
  unfold execHalt
  refine runInstr_done hi.1 hi.2 (if_pos ?_)
  rwa [past_clock]

/-- The launch's kernel has WSTAGE (R424). -/
def stagesWeights (s : State) (e : Env) : Bool := ((s.launch? e.w.lid).map Launch.wstage).getD false

theorem stagesWeights_past (i : Instr) : stagesWeights (past i s e) e = stagesWeights s e := by
  unfold stagesWeights State.launch?
  rw [past_launches]

theorem exec_pwload_unstaged (hi : Issues (.pwload a) s e) (h : stagesWeights s e = false) :
    exec (.pwload a) s = .next (takeTrap (account s e false) e false .privileged none 0 0) := by
  change execPwload a s = _
  unfold execPwload
  refine runInstr_trap hi.1 hi.2 (if_pos ?_)
  exact (congrArg _ ((stagesWeights_past _).trans h)).trans rfl

/-- PWLOAD of a kernel with WSTAGE is its access. -/
theorem exec_pwload_staged (h : stagesWeights s e = true) : ∃ body, exec (.pwload a) s = runInstr (.pwload a) s body ∧
    body e (past (.pwload a) s e) = memRun e .ls (past (.pwload a) s e) (pwOp (e.u a)) performPwload := by
  refine ⟨_, show execPwload a s = _ from rfl, if_neg ?_⟩
  rw [Bool.not_eq_true', ← Bool.not_eq_true, not_not]
  exact (stagesWeights_past _).trans h

theorem performPwload_selector {q : State} {op : MemOp} (h : selector op.base ≠ 0) :
    performPwload q e.w op = .trap .illegalAddress op.base none := if_pos h

/-- The boundary at which a weight table's bytes, on their way from its home, are installed (R425). -/
def installClock (r : State) (w : Wave) (o : ObjAt) : Nat :=
  ((r.clock + accessLatency r w true false [(o.target, 128)]) / Config.clocksPerUs + 1) * Config.clocksPerUs

theorem installClock_later (r : State) (w : Wave) (o : ObjAt) : r.clock < installClock r w o :=
  Nat.lt_of_le_of_lt (Nat.le_add_right _ _) (Nat.lt_mul_of_div_lt (Nat.lt_succ_self _) (by decide))

/-- A grove with a table to install. -/
def awaitWeights (due : Nat) (bs : List Byte) (s : State) (n : Nat) : State :=
  s.setGrove n { s.grove n with newWeights := (s.grove n).newWeights ++ [(due, bs)] }

theorem performPwload_reads {q r : State} {w : Wave} {op : MemOp} {o : ObjAt} (h : selector op.base = 0)
    (ho : accessObj q w (waveActor q w) op.base 128 128 false op = (.ok o, r)) :
    performPwload q w op = .ok ((List.range Config.grovesPerDie).foldl (fun t j =>
      awaitWeights (installClock r w o) (readTarget r (waveActor q w) o.pa 128 o.target) t (dieOf w.core * Config.grovesPerDie + j))
      r) [] (installClock r w o - r.clock) 0 := by
  unfold performPwload
  rw [if_neg (not_not.mpr h)]
  dsimp only
  rw [accessObj_unpinned ho]
  rfl

end Instructions

/-- Settles O46: PWLOAD's access is one without the wave's broken pins, which reaches whatever one with them reaches. -/
theorem checkAndPowerInstructions : Obligations.CheckAndPowerInstructions := by
  unfold Obligations.CheckAndPowerInstructions
  intro s e d a k
  refine ⟨exec_ckrole, exec_cksig, fun hi => ⟨exec_halt_issues hi, exec_halt_waits hi⟩, exec_clkq, fun hi => ?_⟩
  refine ⟨exec_pwload_unstaged hi, fun hst hsel hfree => ?_, fun hst hsel hfree o r1 ho => ?_⟩
  · obtain ⟨body, hexec, hbody⟩ := exec_pwload_staged (a := a) hst
    have hperform := performPwload_selector (e := e) (q := past (.pwload a) s e) (op := pwOp (e.u a)) hsel
    exact hexec.trans (runInstr_trap hi.1 hi.2 (hbody.trans (memRun_trap hfree.1 hfree.2 ⟨nofun, nofun⟩ hperform)))
  · obtain ⟨body, hexec, hbody⟩ := exec_pwload_staged (a := a) hst
    have hread := performPwload_reads (op := pwOp (e.u a)) hsel (ho _)
    exact ⟨installClock r1 e.w o, Nat.mul_mod_left _ _, installClock_later _ _ _,
      hexec.trans (runInstr_done hi.1 hi.2 (hbody.trans (memRun_ok hfree.1 hfree.2 hread)))⟩

end Sys2Proof.Machine
end

section
/-! PROOF. Walks, reclassification and answers to faults (O54: R373, R377, R382, R384, R385). -/

namespace Sys2Proof.Machine

/-! ## The leaf of a walk (R373, R375) -/

/-- The entry maps the address for the ASID. -/
def TlbEntry.maps (e : TlbEntry) (asid va : Nat) : Prop := e.asid = asid ∧ e.vbase ≤ va ∧ va < e.vbase + e.size

theorem walkFrom_leaf {tlb asid va : Nat} {e : TlbEntry} {s1 : State} (n : Nat) : ∀ {s : State} {base : Nat},
    walkFrom s tlb asid va n base = (.leaf e, s1) → e.maps asid va := by
  induction n with
  | zero => intro s base h; exact absurd (congrArg Prod.fst h) nofun
  | succ n ih =>
    intro s base h
    unfold walkFrom at h
    dsimp only at h
    split at h
    · exact absurd (congrArg Prod.fst h) nofun
    · split at h
      · exact absurd (congrArg Prod.fst h) nofun
      · split at h
        · cases h
          exact ⟨rfl, Nat.div_mul_le_self _ _, Nat.lt_div_mul_add (Nat.two_pow_pos _)⟩
        · exact ih h

theorem mem_tlbInsert (es : List TlbEntry) (e : TlbEntry) : e ∈ tlbInsert es e := by
  unfold tlbInsert
  dsimp only
  split
  · simp
  · split <;> simp

/-- A translation that finds a leaf leaves it in a TLB, but for one of a frozen range. -/
theorem translate_leaf {s s1 : State} {asid va : Nat} {e : TlbEntry} (hf : frozenVa s asid va = false)
    (h : translate s asid va = (.leaf e, s1)) : e ∈ s1.tlb ∧ e.maps asid va := by
  unfold translate at h
  dsimp only at h
  split at h
  · next hfind =>
    cases h
    have hmem := List.mem_of_find?_eq_some hfind
    have hp := List.find?_some hfind
    simp only [Bool.and_eq_true, beq_iff_eq, decide_eq_true_eq] at hp
    exact ⟨hmem, hp.1.1.2, hp.1.2, hp.2⟩
  · split at h
    · exact absurd (congrArg Prod.fst h) nofun
    · split at h
      · next hw =>
        rw [hf] at h
        cases h
        exact ⟨mem_tlbInsert _ _, walkFrom_leaf _ hw⟩
      · next hr => exact absurd h (hr _ _)

/-- A miss that translates has its leaf in a TLB (R373). -/
theorem tlbAccess_ok {s s1 : State} {asid va pa : Nat} {nc : Bool} {x : Option TlbEntry} {k : AccKind} {agent : Agent}
    (h : tlbAccess s (plainActor agent asid) va k = (.ok pa nc, x, s1)) :
    ∃ e ∈ s1.tlb, e.maps asid va ∧ pa = e.pbase + (va - e.vbase) := by
  unfold tlbAccess at h
  by_cases hfr : frozenVa s asid va = true
  · exact absurd ((if_pos (by rw [show (plainActor agent asid).asid = asid from rfl, hfr]; rfl)).symm.trans h) nofun
  · rw [if_neg (by rw [show (plainActor agent asid).asid = asid from rfl, eq_false_of_ne_true hfr]; exact Bool.false_ne_true)] at h
    split at h
    · exact absurd (congrArg Prod.fst h) nofun
    · next ht =>
      split at h
      · exact absurd (congrArg Prod.fst h) nofun
      · obtain ⟨hmem, hmaps⟩ := translate_leaf (eq_false_of_ne_true hfr) ht
        cases h
        exact ⟨_, hmem, hmaps, rfl⟩

/-! ## Reclassification (R382) -/

/-- A wave whose reservation on the page is cleared. -/
def Wave.unreservePage (asid page : Nat) (w : Wave) : Wave :=
  match w.reservation with
  | some v => if v.line.space == .global asid && v.line.addr / 65536 == page then
      { w with reservation := some { v with valid := false } } else w
  | none => w

/-- A wave whose reservation on the line is cleared. -/
def Wave.unreserveLine (line : Loc) (w : Wave) : Wave :=
  match w.reservation with
  | some v => if v.line == line then { w with reservation := some { v with valid := false } } else w
  | none => w

theorem flushLine_waves (s : State) (l : L2Line) : (flushLine s l).waves =
    if lineMarked s l.asid l.line then s.waves
    else s.waves.map (Wave.unreserveLine { space := Space.global l.asid, addr := 256 * l.line }) := by
  unfold flushLine
  split <;> rfl

/-- A flushed line changes the bytes, the lines and the reservations. -/
theorem flushLine_frame (s : State) (l : L2Line) : flushLine s l = { s with
    dram := (flushLine s l).dram, l2 := (flushLine s l).l2, l1 := (flushLine s l).l1, waves := (flushLine s l).waves } := by
  unfold flushLine
  split <;> rfl

theorem flushLines_frame (ls : List L2Line) (s : State) : ls.foldl flushLine s = { s with
    dram := (ls.foldl flushLine s).dram, l2 := (ls.foldl flushLine s).l2, l1 := (ls.foldl flushLine s).l1
    waves := (ls.foldl flushLine s).waves } := by
  induction ls generalizing s with
  | nil => rfl
  | cons l ls ih =>
    rw [List.foldl_cons, ih, flushLine_frame]

/-- Clearing a page's reservations clears those on its lines. -/
theorem Wave.unreservePage_line {asid page line : Nat} (h : 256 * line / 65536 = page) (w : Wave) :
    (w.unreserveLine { space := Space.global asid, addr := 256 * line }).unreservePage asid page = w.unreservePage asid page := by
  unfold unreserveLine
  cases hr : w.reservation with
  | none => rfl
  | some v =>
    dsimp only
    by_cases hv : v.line = { space := .global asid, addr := 256 * line }
    · rw [if_pos (beq_iff_eq.mpr hv)]
      unfold unreservePage
      simp [hr, hv, h]
    · rw [if_neg (by simpa using hv)]

theorem flushLines_unreservePage {asid page : Nat} {ls : List L2Line}
    (h : ∀ l ∈ ls, l.asid = asid ∧ 256 * l.line / 65536 = page) (s : State) :
    (ls.foldl flushLine s).waves.map (Wave.unreservePage asid page) = s.waves.map (Wave.unreservePage asid page) := by
  induction ls generalizing s with
  | nil => rfl
  | cons l ls ih =>
    obtain ⟨ha, hp⟩ := h l (.head _)
    rw [List.foldl_cons, ih (fun m hm => h m (.tail _ hm)), flushLine_waves]
    split
    · rfl
    · rw [List.map_map, ha]
      exact List.map_congr_left fun w _ => Wave.unreservePage_line hp w

theorem mem_linesIn_page {s : State} {asid page : Nat} {l : L2Line} (h : l ∈ linesIn s asid (65536 * page) 65536) :
    l.asid = asid ∧ 256 * l.line / 65536 = page := by
  have hp := (List.mem_filter.mp h).2
  simp only [Bool.and_eq_true, beq_iff_eq, decide_eq_true_eq] at hp
  exact ⟨hp.1.1, by omega⟩

section Reclassify
variable {s : State} {asid page : Nat} {r : ClassRec}

/-- The class record of the page. -/
def ClassRec.isOf (asid page : Nat) (r : ClassRec) : Bool := r.asid == asid && r.page == page

/-- A record with its misses blocked, while atomics are on their way to the page (R382). -/
def ClassRec.block (s : State) (asid page : Nat) (r : ClassRec) : ClassRec :=
  if r.asid == asid && r.page == page && r.waits.isNone && !r.shared then
    { r with waits := some ((s.atomics.filter (toPage s asid page)).map AtomicReq.id) } else r

theorem ClassRec.block_isOf (s : State) (x : ClassRec) : (x.block s asid page).isOf asid page = x.isOf asid page := by
  unfold block
  split <;> rfl

theorem ClassRec.block_shared (s : State) (x : ClassRec) : (x.block s asid page).shared = x.shared := by
  unfold block
  split <;> rfl

theorem find?_blockPage (h : s.classes.find? (ClassRec.isOf asid page) = some r) :
    (blockPage s asid page).classes.find? (ClassRec.isOf asid page) = some (r.block s asid page) := by
  change (s.classes.map (ClassRec.block s asid page)).find? _ = _
  rw [List.find?_map]
  have : ClassRec.isOf asid page ∘ ClassRec.block s asid page = ClassRec.isOf asid page :=
    funext fun x => ClassRec.block_isOf s x
  rw [this, h]
  rfl

/-- The page's record made shared (R382). -/
def ClassRec.share (asid page : Nat) (x : ClassRec) : ClassRec :=
  if x.asid == asid && x.page == page then { x with shared := true, generation := x.generation + 1, waits := none } else x

theorem ClassRec.share_block (x : ClassRec) : (x.block s asid page).share asid page = x.share asid page := by
  by_cases hx : (x.asid == asid && x.page == page) = true
  · unfold block
    split
    · exact (if_pos hx).trans (if_pos hx).symm
    · rfl
  · unfold block
    rw [if_neg (by simp only [Bool.and_eq_true] at hx ⊢; exact fun h => hx h.1.1)]

theorem reclassify_private (h : s.classes.find? (ClassRec.isOf asid page) = some r) (hs : r.shared = false) :
    reclassify s asid page =
      let s1 := (linesIn s asid (65536 * page) 65536).foldl flushLine s
      { s1 with
        classes := s.classes.map (ClassRec.share asid page)
        classCopies := s.classCopies.filter fun x => !(x.asid == asid && x.page == page)
        waves := s1.waves.map (Wave.unreservePage asid page) } := by
  unfold reclassify
  rw [show (s.classes.find? fun r => r.asid == asid && r.page == page) = some r from h]
  dsimp only
  rw [hs, if_neg Bool.false_ne_true, flushLines_frame]
  rfl

/-- The reclassification of an unshared page that no atomic is on its way to goes on at once (R382). -/
theorem exec_reclassification (h : s.classes.find? (ClassRec.isOf asid page) = some r) (hs : r.shared = false)
    (hw : r.waits = none) (ha : ∀ a ∈ s.atomics, toPage s asid page a = false) :
    exec (.reclassification asid page) s = .next (reclassify (blockPage s asid page) asid page) := by
  have hready : reclassWaits (blockPage s asid page) (r.block s asid page) = false := by
    have hkey : (r.asid == asid && r.page == page) = true := List.find?_some (p := ClassRec.isOf asid page) h
    have hb : r.block s asid page = { r with waits := some [] } := by
      unfold ClassRec.block
      rw [hkey, hw, hs, List.filter_eq_nil_iff.mpr fun a hm => by rw [ha a hm]; exact Bool.false_ne_true]
      rfl
    rw [hb]
    simp [reclassWaits]
  change execReclassification asid page s = _
  unfold execReclassification
  dsimp only
  rw [show ((blockPage s asid page).classes.find? fun r => r.asid == asid && r.page == page) = _ from find?_blockPage h]
  dsimp only
  rw [ClassRec.block_shared, hs, hready]
  rfl

theorem exec_reclassification_shared (h : s.classes.find? (ClassRec.isOf asid page) = some r) (hs : r.shared = true) :
    exec (.reclassification asid page) s = .next s := by
  have hb : r.block s asid page = r := if_neg (by simp [hs])
  change execReclassification asid page s = _
  unfold execReclassification
  dsimp only
  rw [show ((blockPage s asid page).classes.find? fun r => r.asid == asid && r.page == page) = _ from find?_blockPage h, hb]
  exact congrArg _ (if_pos hs)

end Reclassify

/-! ## Answers (R384, R385) -/

section Answers
variable {s : State} {fn n : Nat}

theorem exec_fqrespReplay_none (h : ((s.func fn).faults.find? fun r => r.seqNo == n) = none) :
    exec (.fqrespReplay fn n) s = .next s := by
  change execFqrespReplay fn n s = _
  unfold execFqrespReplay
  rw [h]

theorem exec_fqrespRefuse_none (h : ((s.func fn).faults.find? fun r => r.seqNo == n) = none) :
    exec (.fqrespRefuse fn n) s = .next s := by
  change execFqrespRefuse fn n s = _
  unfold execFqrespRefuse
  rw [h]

variable {r : FaultRec} (h : ((s.func fn).faults.find? fun r => r.seqNo == n) = some r)
include h

theorem exec_fqrespReplay : exec (.fqrespReplay fn n) s =
    .next (r.waiters.foldl (fun q x => retryRequester q fn x) (walkAgain (dropRecord s fn n) r.asid r.va)) := by
  change execFqrespReplay fn n s = _
  unfold execFqrespReplay
  rw [h]

/-- A refusal that errors the context leaves the launches as they are where none waits on the record (R384, R439). -/
theorem exec_fqrespRefuse {c : Context} (hw : ∃ x ∈ r.waiters, redundantWaiter s x = none)
    (hl : ∀ l, Requester.launch l ∉ r.waiters) (hc : (dropRecord s fn n).ctxOfAsid r.asid = some c) :
    exec (.fqrespRefuse fn n) s = .next (contextError (dropRecord s fn n) c.fn c.id (pageCause r.cause)) := by
  obtain ⟨x, hx, hnone⟩ := hw
  change execFqrespRefuse fn n s = _
  unfold execFqrespRefuse
  rw [h]
  dsimp only
  have hmixed : ¬ (!r.waiters.isEmpty && r.waiters.all fun x => (redundantWaiter s x).isSome) = true := by
    rw [Bool.and_eq_true, List.all_eq_true]
    exact fun hall => absurd (hall.2 x hx) (by rw [hnone]; exact Bool.false_ne_true)
  have hskip : ∀ l : Launch, r.waiters.contains (.launch l.lid) = false := fun l => by simpa using hl l.lid
  rw [if_neg hmixed, hc]
  simp only [hskip, Bool.false_and, Bool.false_eq_true, if_false, List.map_id']

end Answers

/-- Settles O54: a walk through `tlbAccess`, a reclassification through `reclassify`, and the host's answers one by one. -/
theorem translationEvents : Obligations.TranslationEvents := by
  unfold Obligations.TranslationEvents
  refine ⟨⟨fun s asid va write fetch => ?_, fun s asid page r hr => ⟨exec_reclassification_shared hr, fun hs hw ha => ?_⟩⟩,
    fun s fn n => ⟨fun h => ⟨exec_fqrespReplay_none h, exec_fqrespRefuse_none h⟩, fun r hr => ⟨exec_fqrespReplay hr, ?_⟩, ?_⟩⟩
  · intro k i look
    have hexec : exec i s = execTlbMissWalk asid va write fetch s := rfl
    unfold execTlbMissWalk at hexec
    dsimp only at hexec
    refine ⟨fun pa nc x s1 hl => ?_, fun x s1 hl => ?_, fun x y s1 hl => ⟨fun hd => ?_, fun c hd hc => ?_⟩⟩
    · rw [show tlbAccess s (plainActor .host asid) va k = _ from hl] at hexec
      obtain ⟨e, he, ⟨ha, hb, hv⟩, hpa⟩ := tlbAccess_ok hl
      exact ⟨hexec, e, he, ha, hb, hv, hpa⟩
    · rw [show tlbAccess s (plainActor .host asid) va k = _ from hl] at hexec
      exact hexec
    · rw [show tlbAccess s (plainActor .host asid) va k = _ from hl] at hexec
      exact hexec.trans (congrArg _ (if_pos hd))
    · rw [show tlbAccess s (plainActor .host asid) va k = _ from hl] at hexec
      refine hexec.trans (congrArg _ ((if_neg hd).trans ?_))
      rw [hc]
  · refine ⟨_, exec_reclassification hr hs hw ha, ?_⟩
    rw [reclassify_private (find?_blockPage hr) ((ClassRec.block_shared s r).trans hs)]
    refine ⟨?_, rfl, ?_, ?_⟩
    · change (s.classes.map (ClassRec.block s asid page)).map (ClassRec.share asid page) = _
      rw [List.map_map]
      exact List.map_congr_left fun x _ => ClassRec.share_block x
    · refine (flushLines_unreservePage (fun l hl => mem_linesIn_page hl) _).trans (List.map_congr_left fun w _ => ?_)
      unfold Wave.unreservePage
      cases w.reservation with
      | none => rfl
      | some v => simp only [Bool.and_eq_true, beq_iff_eq]
    · dsimp only
      rw [flushLines_frame]
      exact ⟨rfl, rfl, rfl, rfl⟩
  · exact fun c hw hl hc => exec_fqrespRefuse hr hw hl hc
  · intro v
    have hv : bits v.toNat 0 32 = v.toNat % 2 ^ 32 := by simp [bits]
    rw [← hv]
    rfl

end Sys2Proof.Machine
end

section
/-! PROOF. The Canopy group (O49: R346, R427, R428, R430). -/

namespace Sys2Proof.Machine

/-! ## What its operations leave -/

theorem noteExcursion_frame (s : State) (g : Option Nat) (before after kind : Nat) :
    noteExcursion s g before after kind = { s with canopy := { s.canopy with
      latest := (noteExcursion s g before after kind).canopy.latest
      excursions := (noteExcursion s g before after kind).canopy.excursions
      changes := (noteExcursion s g before after kind).canopy.changes } } := rfl

theorem scheduleDown_canopy (ds : List Domain) (s : State) :
    (ds.foldl (fun s d => s.schedule 0 (.domainDown d.id)) s).canopy = s.canopy ∧
      (ds.foldl (fun s d => s.schedule 0 (.domainDown d.id)) s).dram = s.dram := by
  induction ds generalizing s with
  | nil => exact ⟨rfl, rfl⟩
  | cons d ds ih => exact ih _

theorem mem_scheduleDown {ds : List Domain} {d : Domain} (s : State) (h : d ∈ ds ∨ (s.clock, Instr.domainDown d.id) ∈ s.agenda) :
    (s.clock, Instr.domainDown d.id) ∈ (ds.foldl (fun s d => s.schedule 0 (.domainDown d.id)) s).agenda := by
  induction ds generalizing s with
  | nil => exact h.resolve_left List.not_mem_nil
  | cons x ds ih =>
    refine ih (s.schedule 0 (.domainDown x.id)) ?_
    rcases h with h | h
    · rcases List.mem_cons.mp h with rfl | h
      · exact .inr (mem_schedule s 0 (.domainDown d.id))
      · exact .inl h
    · exact .inr ((mem_insertEvent _ _ _ _).mpr (.inr h))

theorem memberGone_canopy (s : State) (chip : Option Nat) : (memberGone s chip).canopy = s.canopy := by
  unfold memberGone
  exact (scheduleDown_canopy _ _).1

/-- This chip out of its group (R346, R428). -/
theorem leaveGroup_leaves (s : State) : (leaveGroup s).canopy.state = 0 ∧ (leaveGroup s).canopy.ceiling = 2400 ∧
    (leaveGroup s).canopy.members = [] ∧ (leaveGroup s).canopy.announces = [] ∧ (leaveGroup s).dram = s.dram ∧
    ∀ d ∈ s.domains, d.groupScope = true → (s.clock, Instr.domainDown d.id) ∈ (leaveGroup s).agenda := by
  unfold leaveGroup
  rw [memberGone_canopy]
  refine ⟨rfl, rfl, rfl, rfl, (scheduleDown_canopy _ _).2, fun d hd hg => ?_⟩
  exact mem_scheduleDown (failFaces _ _) (.inl (List.mem_filter.mpr ⟨hd, by simp [hg]⟩))

theorem addAnnounce_members (s : State) (a : Announce) : (addAnnounce s a).canopy.members = s.canopy.members := by
  unfold addAnnounce
  split <;> rfl

/-! ## An announcement that takes effect (R427) -/

section Announcements
variable {s : State} {a : Announce}

theorem applyAnnounces_none (h : ∀ a ∈ s.canopy.announces, s.clock < a.due) : applyAnnounces s = s := by
  unfold applyAnnounces
  rw [List.filter_eq_nil_iff.mpr fun a ha => by simpa using h a ha]
  rfl

theorem applyAnnounces_one (h : (s.canopy.announces.filter fun x => decide (x.due ≤ s.clock)) = [a]) :
    applyAnnounces s = applyOne s a := by
  have hmem : a ∈ s.canopy.announces := (List.mem_filter.mp (h ▸ List.mem_singleton_self a)).1
  unfold applyAnnounces
  rw [h]
  exact if_pos (List.contains_iff_mem.mpr hmem)

theorem applyOne_ownLeave (hc : a.chip = s.canopy.chip) (hk : a.kind = .leave) : applyOne s a =
    leaveGroup { s with canopy := { s.canopy with announces := s.canopy.announces.erase a } } := by
  unfold applyOne
  exact if_pos (by simp [hc, hk])

/-- The members and the chip's own proposal once an announcement is in force. -/
def announced (s : State) (a : Announce) : Canopy :=
  let c := { s.canopy with announces := s.canopy.announces.erase a }
  match a.kind with
  | .leave => { c with members := c.members.filter fun m => m.chip != a.chip }
  | .rise => c
  | _ => if a.chip == c.chip then { c with inForce := a.proposal, holdLow := c.holdLow && decide (a.kind ≠ AnnounceKind.change) }
         else { c with members := c.members.map fun m => if m.chip = a.chip then { m with proposal := a.proposal } else m }

/-- The Canopy state but for the record of its excursions. -/
def Canopy.unlogged (c : Canopy) : Canopy := { c with latest := [], excursions := 0, changes := 0 }

/-- The state in which an announcement, and the ceiling computed with it, are in force. -/
def announcedState (s : State) (a : Announce) : State :=
  { s with canopy := { announced s a with ceiling := (announced s a).computed } }

theorem applyOne_eq (h : ¬ (a.chip = s.canopy.chip ∧ a.kind = .leave)) : applyOne s a =
    let noted := if (announced s a).computed ≠ s.canopy.ceiling && a.kind ≠ .emergency then
      noteExcursion (announcedState s a) none s.canopy.ceiling (announced s a).computed 1 else announcedState s a
    if a.kind = .leave then memberGone noted (some a.chip) else noted := if_neg (by simpa using h)

/-- But for the record of excursions, that is what an announcement that is not the chip's own leave comes to. -/
theorem applyOne_canopy (h : ¬ (a.chip = s.canopy.chip ∧ a.kind = .leave)) :
    (applyOne s a).canopy.unlogged = (announcedState s a).canopy.unlogged := by
  have hgone : ∀ q : State, (if a.kind = .leave then memberGone q (some a.chip) else q).canopy = q.canopy := fun q => by
    split
    · exact memberGone_canopy _ _
    · rfl
  rw [applyOne_eq h]
  dsimp only
  rw [hgone]
  split <;> rfl

theorem announced_frame (s : State) (a : Announce) : announced s a = { s.canopy with
    announces := s.canopy.announces.erase a, members := (announced s a).members, inForce := (announced s a).inForce
    holdLow := (announced s a).holdLow } := by
  unfold announced
  dsimp only
  split
  · rfl
  · rfl
  · split <;> rfl

/-- What an announcement that is not the chip's own leave makes of each field. -/
theorem applyOne_fields (h : ¬ (a.chip = s.canopy.chip ∧ a.kind = .leave)) :
    (applyOne s a).canopy.members = (announced s a).members ∧ (applyOne s a).canopy.state = s.canopy.state ∧
    (applyOne s a).canopy.inForce = (announced s a).inForce ∧ (applyOne s a).canopy.holdLow = (announced s a).holdLow ∧
    (applyOne s a).canopy.announces = s.canopy.announces.erase a ∧
    (applyOne s a).canopy.ceiling = (if (announced s a).members.any Member.silent then 1200
      else Nat.max 1200 ((announced s a).members.foldl (fun m x => Nat.min m x.proposal)
        (if 2 ≤ s.canopy.state then (announced s a).inForce else 2400))) := by
  have hc := applyOne_canopy h
  have hstate : (announced s a).state = s.canopy.state := by rw [announced_frame]
  have hm := congrArg Canopy.members hc
  have hi := congrArg Canopy.inForce hc
  have hl := congrArg Canopy.holdLow hc
  refine ⟨hm, (congrArg Canopy.state hc).trans hstate, hi, hl, (congrArg Canopy.announces hc).trans ?_, (congrArg Canopy.ceiling hc).trans ?_⟩
  · change (announced s a).announces = _
    rw [announced_frame]
  · rw [← hstate]
    rfl

theorem announced_other (hk : a.kind = .change ∨ a.kind = .emergency) (hc : a.chip ≠ s.canopy.chip) :
    (announced s a).members = (s.canopy.members.map fun m => if m.chip = a.chip then { m with proposal := a.proposal } else m) ∧
      (announced s a).inForce = s.canopy.inForce := by
  have hb : ¬ (a.chip == s.canopy.chip) = true := by simpa using hc
  unfold announced
  rcases hk with hk | hk <;> rw [hk] <;> dsimp only <;> rw [if_neg hb] <;> exact ⟨rfl, rfl⟩

theorem announced_own (hk : a.kind = .change ∨ a.kind = .emergency) (hc : a.chip = s.canopy.chip) :
    (announced s a).members = s.canopy.members ∧ (announced s a).inForce = a.proposal ∧
      (a.kind = .change → (announced s a).holdLow = false) := by
  have hb : (a.chip == s.canopy.chip) = true := by simpa using hc
  unfold announced
  rcases hk with hk | hk <;> rw [hk] <;> dsimp only <;> rw [if_pos hb]
  · exact ⟨rfl, rfl, fun _ => by simp⟩
  · exact ⟨rfl, rfl, nofun⟩

theorem announced_rise (hk : a.kind = .rise) :
    (announced s a).members = s.canopy.members ∧ (announced s a).inForce = s.canopy.inForce := by
  unfold announced
  rw [hk]
  exact ⟨rfl, rfl⟩

theorem announced_leave (hk : a.kind = .leave) :
    (announced s a).members = (s.canopy.members.filter fun m => m.chip != a.chip) ∧
      (announced s a).inForce = s.canopy.inForce := by
  unfold announced
  rw [hk]
  exact ⟨rfl, rfl⟩

end Announcements

/-! ## Writes of CNPCTL (R428, R430) -/

theorem bitOf_or_one_zero (v : Word) : bitOf (v ||| 1).toNat 0 = true := by
  change (v ||| 1).getLsbD 0 = true
  simp

theorem bitOf_or_one_one (v : Word) : bitOf (v ||| 1).toNat 1 = v.getLsbD 1 := by
  change (v ||| 1).getLsbD 1 = _
  simp

theorem bitOf_or_two_zero (v : Word) : bitOf (v ||| 2).toNat 0 = v.getLsbD 0 := by
  change (v ||| 2).getLsbD 0 = _
  simp

theorem bitOf_or_two_one (v : Word) : bitOf (v ||| 2).toNat 1 = true := by
  change (v ||| 2).getLsbD 1 = true
  simp

/-- A field above the two low bits is not changed by setting them. -/
theorem bits_or_low (v c : Word) {lo w : Nat} (hlo : 2 ≤ lo) (hc : c.toNat < 4) : bits (v ||| c).toNat lo w = bits v.toNat lo w := by
  refine Nat.eq_of_testBit_eq fun i => ?_
  have hi : c.toNat.testBit (lo + i) = false :=
    Nat.testBit_lt_two_pow (hc.trans_le (Nat.pow_le_pow_right (n := 2) (i := 2) (by decide) (by omega)))
  rw [testBit_bits, testBit_bits, BitVec.toNat_or, Nat.testBit_or, hi, Bool.or_false]

section Writes
variable {s : State} {v : Word}

theorem exec_canopyJoin_outside (hc : s.canopy.state = 0) (hv : v.getLsbD 1 = false) :
    exec (.canopyJoin v) s = .next (State.schedule { s with
      canopy := { s.canopy with chip := bits v.toNat 16 12, group := bits v.toNat 32 32, state := 1, since := s.clock, ceiling := 2400 }
      agenda := s.agenda.filter fun e => e.2 != Instr.canopyHeartbeatSend } (20 * Config.clocksPerUs) .canopyHeartbeatSend) := by
  refine congrArg Host.Outcome.next ?_
  unfold writeCnpctl
  simp only [hc, bitOf_or_one_zero, bitOf_or_one_one, hv, bits_or_low v 1 (lo := 16) (by decide) (by decide),
    bits_or_low v 1 (lo := 32) (by decide) (by decide)]
  rfl

theorem exec_canopyJoin_inside (hc : s.canopy.state ≠ 0) (hv : v.getLsbD 1 = false) :
    exec (.canopyJoin v) s = .next s := by
  refine congrArg Host.Outcome.next ?_
  unfold writeCnpctl
  simp only [hc, bitOf_or_one_one, hv, if_false, decide_false, Bool.and_false, Bool.false_eq_true, Bool.not_false, if_true]

theorem exec_canopyLeave_outside (hc : s.canopy.state = 0) (hv : v.getLsbD 0 = false) :
    exec (.canopyLeave v) s = .next { s with
      canopy := { s.canopy with chip := bits v.toNat 16 12, group := bits v.toNat 32 32 } } := by
  refine congrArg Host.Outcome.next ?_
  unfold writeCnpctl
  simp only [hc, bitOf_or_two_zero, bitOf_or_two_one, hv, bits_or_low v 2 (lo := 16) (by decide) (by decide),
    bits_or_low v 2 (lo := 32) (by decide) (by decide)]
  rfl

theorem exec_canopyLeave_inside (hc : s.canopy.state ≠ 0) : exec (.canopyLeave v) s = .next
    (if s.canopy.state = 1 then leaveGroup s
     else if s.canopy.state = 2 then announceOwn { s with canopy := { s.canopy with state := 3 } } 0 (cnplead s) .leave
     else s) := by
  refine congrArg Host.Outcome.next ?_
  unfold writeCnpctl
  simp only [hc, bitOf_or_two_one, if_false, decide_false, Bool.and_false, Bool.false_eq_true, Bool.not_true]

end Writes

/-! ## Heartbeats and silence (R427, R428) -/

section Beats
variable {s : State} {chip n time proposal : Nat} {xs : List (Nat × Nat)} {joins : List Nat} {em : Bool}

theorem exec_beat_unheard (h : s.canopy.state = 0 ∨ chip = s.canopy.chip) :
    exec (.canopyHeartbeatReceive chip n time proposal xs joins em) s = .next s := congrArg _ (if_pos (by simpa using h))

section Heard
variable (hs : s.canopy.state ≠ 0) (hc : chip ≠ s.canopy.chip)
include hs hc

theorem exec_beat_member (hm : ∃ m ∈ s.canopy.members, m.chip = chip) :
    ∃ k, exec (.canopyHeartbeatReceive chip n time proposal xs joins em) s =
      .next (admissions (takeBeat { s with canopy := { s.canopy with offset := k } } chip time proposal xs joins em)) :=
  ⟨_, congrArg _ ((if_neg (by simp [hs, hc])).trans (if_pos (by simpa using hm)))⟩

variable (hm : ∀ m ∈ s.canopy.members, m.chip ≠ chip)
include hm

theorem exec_beat_request (hj : chip ∈ joins) : exec (.canopyHeartbeatReceive chip n time proposal xs joins em) s =
    .next { s with canopy := { s.canopy with
      requests := if chip ∈ s.canopy.requests then s.canopy.requests else s.canopy.requests ++ [chip]
      asked := mput s.canopy.asked chip proposal } } := by
  refine congrArg _ ((if_neg (by simp [hs, hc])).trans ((if_neg (by simpa using hm)).trans ((if_pos (by simpa using hj)).trans ?_)))
  simp only [List.contains_iff_mem]

theorem exec_beat_other (hj : chip ∉ joins) (h1 : s.canopy.state ≠ 1) :
    exec (.canopyHeartbeatReceive chip n time proposal xs joins em) s = .next s :=
  congrArg _ ((if_neg (by simp [hs, hc])).trans ((if_neg (by simpa using hm)).trans
    ((if_neg (by simpa using hj)).trans (if_neg h1))))

theorem exec_beat_learnt (hj : chip ∉ joins) (h1 : s.canopy.state = 1) :
    ∃ k, exec (.canopyHeartbeatReceive chip n time proposal xs joins em) s =
      .next (admissions (takeBeat { s with canopy := { s.canopy with
        members := s.canopy.members ++ [{ chip := chip, proposal := proposal, lastHeard := s.clock, silent := false, heardRun := 0 }]
        offset := k } } chip time proposal xs joins em)) :=
  ⟨_, congrArg _ ((if_neg (by simp [hs, hc])).trans ((if_neg (by simpa using hm)).trans
    ((if_neg (by simpa using hj)).trans (if_pos h1))))⟩

end Heard
end Beats

section Silence
variable {s : State} {m : Member} (hm : s.canopy.members.find? (fun x => x.chip == m.chip) = some m)
include hm

theorem exec_memberSilent : exec (.canopyMemberSilent m.chip) s = .next
    (if m.silent || s.clock < m.lastHeard + 60 * Config.clocksPerUs then s
     else noteExcursion { s with canopy := { s.canopy with
       members := s.canopy.members.map fun x => if x.chip = m.chip then { x with silent := true, heardRun := 0 } else x
       ceiling := 1200 } } none s.canopy.ceiling 1200 0) := by
  change execCanopyMemberSilent m.chip s = _
  unfold execCanopyMemberSilent
  dsimp only
  rw [hm]
  rfl

theorem exec_memberExpel (hc : m.chip ≠ s.canopy.chip) : exec (.canopyMemberExpel m.chip) s = .next
    (if s.clock < m.lastHeard + 1000 * Config.clocksPerUs then s
     else announceOwn (memberGone { s with canopy := { s.canopy with
       members := s.canopy.members.filter (fun x => x.chip != m.chip)
       announces := s.canopy.announces.filter fun a => a.chip != m.chip } } (some m.chip)) 0 40 .rise) := by
  change execCanopyMemberExpel m.chip s = _
  unfold execCanopyMemberExpel
  dsimp only
  rw [if_neg (by simp [hc]), hm]
  rfl

end Silence

/-- Settles O49: heartbeats and silence case by case, announcements through `applyOne`, CNPCTL by its two bits. -/
theorem canopyGroups : Obligations.CanopyGroups := by
  unfold Obligations.CanopyGroups
  refine ⟨fun s => ⟨fun h => congrArg _ (if_pos h), fun h => congrArg _ (if_neg h), fun chip n time proposal xs joins em =>
      ⟨exec_beat_unheard, fun hs hc => ⟨exec_beat_member hs hc, exec_beat_request hs hc, fun hm hj =>
        ⟨exec_beat_other hs hc hm hj, exec_beat_learnt hs hc hm hj⟩⟩⟩,
      fun m hm hc => ⟨fun h => ?_, fun hq ht => ?_, fun h => ?_, fun h => ?_⟩, fun h => congrArg _ (if_pos (by simp [h])),
      fun h => congrArg Host.Outcome.next (applyAnnounces_none h), fun a ha => ?_⟩,
    fun s v => ⟨exec_canopyJoin_outside, exec_canopyJoin_inside, exec_canopyLeave_outside, fun h => ?_, fun h => ?_, fun h => ?_,
      leaveGroup_leaves s⟩⟩
  · rw [exec_memberSilent hm, if_pos (by simpa using h)]
  · refine ⟨_, (exec_memberSilent hm).trans (congrArg _ (if_neg (by simp [hq]; exact ht))), rfl, ?_, fun x hx hxc => ?_, rfl, rfl⟩
    · refine (List.map_map ..).trans (List.map_congr_left fun x _ => ?_)
      dsimp only [Function.comp]
      split <;> rfl
    · obtain ⟨y, -, rfl⟩ := List.mem_map.mp hx
      by_cases hy : y.chip = m.chip
      · rw [if_pos hy]
      · rw [if_neg hy] at hxc
        exact absurd hxc hy
  · rw [exec_memberExpel hm hc, if_pos h]
  · refine ⟨_, (exec_memberExpel hm hc).trans (congrArg _ (if_neg (Nat.not_lt.mpr h))), ?_⟩
    exact (addAnnounce_members _ _).trans (by rw [memberGone_canopy])
  · refine ⟨applyOne s a, congrArg Host.Outcome.next (applyAnnounces_one ha), ?_⟩
    by_cases hl : a.chip = s.canopy.chip ∧ a.kind = .leave
    · obtain ⟨hchip, hkind⟩ := hl
      obtain ⟨hst, hceil, hmem, hann, -, hdown⟩ :=
        leaveGroup_leaves { s with canopy := { s.canopy with announces := s.canopy.announces.erase a } }
      rw [applyOne_ownLeave hchip hkind, if_pos ⟨hchip, hkind⟩]
      exact ⟨hann, fun h => by simp [hkind] at h, fun h => by simp [hkind] at h, fun h => by simp [hkind] at h,
        fun _ h => absurd hchip h, fun _ _ => ⟨hst, hceil, hmem, hdown⟩⟩
    · obtain ⟨hmem, hst, hin, hlow, hann, hceil⟩ := applyOne_fields hl
      rw [if_neg hl, hmem, hst, hin, hlow, hann, hceil]
      refine ⟨rfl, fun hk hc => ?_, fun hk hc => ?_, fun hk => ?_, fun hk hc => ?_, fun hk hc => absurd ⟨hc, hk⟩ hl⟩
      · obtain ⟨h1, h2⟩ := announced_other hk hc
        rw [h1, h2]
        exact ⟨rfl, rfl, rfl⟩
      · obtain ⟨h1, h2, h3⟩ := announced_own hk hc
        rw [h1, h2]
        exact ⟨rfl, rfl, rfl, rfl, h3⟩
      · obtain ⟨h1, h2⟩ := announced_rise (s := s) hk
        rw [h1, h2]
        exact ⟨rfl, rfl, rfl⟩
      · obtain ⟨h1, h2⟩ := announced_leave (s := s) hk
        rw [h1, h2]
        exact ⟨rfl, rfl, rfl⟩
  · rw [exec_canopyLeave_inside (by omega), if_pos h]
  · rw [exec_canopyLeave_inside (by omega), if_neg (by omega), if_pos h]
  · rw [exec_canopyLeave_inside (by omega), if_neg (by omega), if_neg (by omega)]

end Sys2Proof.Machine
end

section
/-! PROOF. Management requests, module resets, power and images, ECC corrections (O59: R369, R433 to R438). -/

namespace Sys2Proof.Machine

/-! ## Requests (R433, R434, R437) -/

section Serve
variable {s : State} (hp : s.mgmt.powered = true)
include hp

theorem serve_early (h : s.mgmt.bringUp < 6) (f : State → State) : serve s f = answer s .retry := by
  unfold serve
  rw [hp]
  exact if_pos h

theorem serve_ready (h : 6 ≤ s.mgmt.bringUp) (f : State → State) : serve s f = f s := by
  unfold serve
  rw [hp]
  exact if_neg (Nat.not_lt.mpr h)

theorem exec_stateRequest : exec .stateRequest s = .next (answer s (.status s.mgmt.life s.mgmt.epoch
    (Config.firmwareVersion s.mgmt.image) (s.mgmt.wiping.isSome || decide (s.mgmt.bringUp < 5)) s.mgmt.imageOk)) :=
  congrArg Host.Outcome.next (if_neg (by simp [hp]))

/-- A request but STATE waits for the end of bring-up (R437). -/
theorem exec_request_early {i : Instr} (h : s.mgmt.bringUp < 6)
    (hi : i ∈ [Instr.healthRequest, .certRequest, .resetRequest] ∨ ∃ k, i = .lifecycleRequest k ∨ i = .otherRequest k) :
    exec i s = .next (answer s .retry) := by
  have hserve : ∀ f, Host.Outcome.next (serve s f) = (.next (answer s .retry) : Host.Outcome State Fault Refusal) :=
    fun f => congrArg _ (serve_early hp h f)
  rcases hi with hi | ⟨k, rfl | rfl⟩
  · simp only [List.mem_cons, List.not_mem_nil, or_false] at hi
    rcases hi with rfl | rfl | rfl
    · exact hserve _
    · exact hserve _
    · exact hserve _
  · exact hserve _
  · exact hserve _

section Ready
variable (h : 6 ≤ s.mgmt.bringUp)
include h

theorem exec_healthRequest : exec .healthRequest s = .next (if s.mgmt.wiping.isSome then answer s .retry
    else answer { s with mgmt := { s.mgmt with healthSeq := s.mgmt.healthSeq + 1 } }
      (.health (healthRecord s (s.mgmt.healthSeq + 1)))) := congrArg Host.Outcome.next (serve_ready hp h _)

theorem exec_resetRequest : exec .resetRequest s = .next (moduleReset (answer s .started)) :=
  congrArg Host.Outcome.next (serve_ready hp h _)

theorem exec_lifecycleRequest (k : Nat) : exec (.lifecycleRequest k) s = .next (match lifeOf k with
    | none => answer s .refused
    | some x => if s.mgmt.wiping.isSome then answer s .retry
      else moduleReset { answer s .started with mgmt := { (answer s .started).mgmt with
        wiping := some x, epoch := (answer s .started).mgmt.epoch + 1 } }) :=
  (congrArg Host.Outcome.next (serve_ready hp h _)).trans rfl

end Ready
end Serve

theorem lifeOf_none {k : Nat} (h : 3 ≤ k) : lifeOf k = none := by
  obtain ⟨j, rfl⟩ := Nat.exists_eq_add_of_le' h
  rfl

/-! ## Module reset (R435, R436) -/

/-- The module right after its reset, before the events of a wipe and of an image write are set. -/
def resetModule (s : State) : State :=
  { State.reset with
    counter := s.counter, draws := s.draws, inputs := s.inputs, dram := s.dram, haloSent := s.haloSent, linksLost := s.linksLost
    haloAnswers := s.haloAnswers, haloAsked := s.haloAsked, haltRefusals := s.haltRefusals, dmaWaiting := s.dmaWaiting
    canopy := { State.reset.canopy with sent := s.canopy.sent }
    mgmt := { State.reset.mgmt with
      powered := s.mgmt.powered, bringUp := s.mgmt.bringUp, imageOk := s.mgmt.imageOk, slotGood := s.mgmt.slotGood
      life := s.mgmt.life, wiping := s.mgmt.wiping, epoch := s.mgmt.epoch + 1
      imgStat := if imageBusy s then s.mgmt.imgStat else 0, image := s.mgmt.image, newImage := s.mgmt.newImage
      images := s.mgmt.images, answers := s.mgmt.answers } }

theorem moduleReset_eq (s : State) : moduleReset s =
    let wiped := if s.mgmt.wiping.isSome && decide (5 ≤ s.mgmt.bringUp)
      then (resetModule s).schedule wipeClocks .lifecycleWipeComplete else resetModule s
    if imageBusy s then wiped.schedule imageClocks .imageWriteComplete else wiped := rfl

theorem awaits_ite {c : Prop} [Decidable c] {s t : State} (h : Awaits s t) : Awaits s (if c then t else s) := by
  split
  · exact h
  · exact .refl s

theorem moduleReset_frame (s : State) : moduleReset s = { resetModule s with agenda := (moduleReset s).agenda } := by
  have h : Awaits (resetModule s) (moduleReset s) := by
    rw [moduleReset_eq]
    exact (awaits_ite (schedule_awaits _ _ _)).trans (awaits_ite (schedule_awaits _ _ _))
  exact h.frame

/-- Nothing is resident, no register, line or pin is left, the scratchpads and the weight store are zero, and DRAM stands. -/
theorem moduleReset_clears (s : State) : let t := moduleReset s
    t.waves = [] ∧ t.blocks = [] ∧ t.launches = [] ∧ t.ctxs = [] ∧ t.cores = [] ∧ t.fns = [] ∧
    t.tlb = [] ∧ t.l2 = [] ∧ t.l1 = [] ∧ t.pins = [] ∧ t.seals = [] ∧ t.domains = [] ∧ t.issue = none ∧ t.dram = s.dram ∧
    (∀ a, readByte t.scratch a = 0) ∧ (∀ a, readByte t.weight a = 0) := by
  rw [moduleReset_frame]
  exact ⟨rfl, rfl, rfl, rfl, rfl, rfl, rfl, rfl, rfl, rfl, rfl, rfl, rfl, rfl, fun _ => rfl, fun _ => rfl⟩

theorem moduleReset_mgmt (s : State) : (moduleReset s).mgmt = (resetModule s).mgmt := by rw [moduleReset_frame]

/-- A wipe that is pending is set once the dies are let go (R436, R437). -/
theorem moduleReset_wipes {s : State} (hw : s.mgmt.wiping.isSome = true) (hb : 5 ≤ s.mgmt.bringUp) :
    ∃ due, (due, Instr.lifecycleWipeComplete) ∈ (moduleReset s).agenda := by
  rw [moduleReset_eq, if_pos (show (s.mgmt.wiping.isSome && decide (5 ≤ s.mgmt.bringUp)) = true by simp [hw, hb])]
  exact ⟨_, (awaits_ite (schedule_awaits _ _ _)).kept _ (mem_schedule _ _ _)⟩

theorem imageBusy_iff (s : State) : imageBusy s = true ↔ s.mgmt.imgStat = 1 ∨ s.mgmt.imgStat = 2 := by simp [imageBusy]

/-! ## The image (R438) -/

theorem bringUpDies_mgmt (s : State) : (bringUpDies s).mgmt.powered = s.mgmt.powered ∧
    (bringUpDies s).mgmt.imageOk = s.mgmt.slotGood ∧ (bringUpDies s).mgmt.bringUp = (if s.mgmt.slotGood then 5 else 3) ∧
    (bringUpDies s).mgmt.epoch = s.mgmt.epoch + 1 ∧ (bringUpDies s).mgmt.image = s.mgmt.image := by
  unfold bringUpDies
  rw [moduleReset_mgmt]
  exact ⟨rfl, rfl, rfl, rfl, rfl⟩

theorem bringUpDies_clears (s : State) : (bringUpDies s).waves = [] ∧ (bringUpDies s).dram = s.dram := by
  unfold bringUpDies
  rw [moduleReset_frame]
  exact ⟨rfl, rfl⟩

section Images
variable {s : State}

/-- IMGLEN or IMGADDR out of range (R438). -/
theorem startImage_refused (h : imageBusy s = false) (hb : powerReg s 0x608 0 % 4096 ≠ 0 ∨ powerReg s 0x608 0 < 4096 ∨
      2 ^ 28 < powerReg s 0x608 0 ∨ 2 ^ 48 < powerReg s 0x600 0 + powerReg s 0x608 0 ∨
      Config.inHostMemory (powerReg s 0x600 0) (powerReg s 0x608 0) = false) :
    startImage s = { s with mgmt := { s.mgmt with imgStat := 5 } } := by
  refine (if_neg (by rw [h]; exact Bool.false_ne_true)).trans (if_pos ?_)
  simp only [Bool.or_eq_true, decide_eq_true_eq, Bool.not_eq_true', or_assoc]
  exact hb

theorem startImage_begins (h : imageBusy s = false) (hb : ¬ (powerReg s 0x608 0 % 4096 ≠ 0 ∨ powerReg s 0x608 0 < 4096 ∨
      2 ^ 28 < powerReg s 0x608 0 ∨ 2 ^ 48 < powerReg s 0x600 0 + powerReg s 0x608 0 ∨
      Config.inHostMemory (powerReg s 0x600 0) (powerReg s 0x608 0) = false)) :
    startImage s = { s with mgmt := { s.mgmt with
      imgStat := 1, newImage := Config.hostImage (powerReg s 0x600 0) (powerReg s 0x608 0) s.mgmt.images
      images := s.mgmt.images + 1 } }.schedule imageClocks .imageWriteComplete := by
  refine (if_neg (by rw [h]; exact Bool.false_ne_true)).trans (if_neg ?_)
  simp only [Bool.or_eq_true, decide_eq_true_eq, Bool.not_eq_true', or_assoc]
  exact hb

theorem exec_powerOn (h : s.mgmt.powered = false) : exec .powerOn s =
    .next (bringUpDies { s with mgmt := { s.mgmt with powered := true, bringUp := 1, imgStat := 0 } }) :=
  congrArg Host.Outcome.next (if_neg (by simp [h]))

theorem exec_imageWriteComplete_bad (h : s.mgmt.imgStat = 1) (hg : Config.imageSignatureGood s.mgmt.newImage = false) :
    exec .imageWriteComplete s = .next { s with mgmt := { s.mgmt with imgStat := 4, newImage := [] } } :=
  congrArg Host.Outcome.next ((if_pos h).trans (if_neg (by rw [hg]; exact Bool.false_ne_true)))

theorem exec_imageWriteComplete_good (h : s.mgmt.imgStat = 1) (hg : Config.imageSignatureGood s.mgmt.newImage = true) :
    exec .imageWriteComplete s =
      .next ({ s with mgmt := { s.mgmt with imgStat := 2 } }.schedule imageClocks .imageWriteComplete) :=
  congrArg Host.Outcome.next ((if_pos h).trans (if_pos hg))

/-- The slot's state once its image is written (R438). -/
def imageWritten (s : State) : State :=
  bringUpDies { s with mgmt := { s.mgmt with imgStat := 3, image := s.mgmt.newImage, newImage := [], slotGood := true } }

theorem exec_imageWriteComplete_written (h : s.mgmt.imgStat = 2) : exec .imageWriteComplete s =
    .next { imageWritten s with mgmt := { (imageWritten s).mgmt with imgStat := 3 } } :=
  congrArg Host.Outcome.next ((if_neg (by omega)).trans (if_pos h))

theorem exec_imageWriteComplete_idle (h : imageBusy s = false) : exec .imageWriteComplete s = .next s := by
  have hn : ¬ (s.mgmt.imgStat = 1 ∨ s.mgmt.imgStat = 2) := fun hb => by rw [(imageBusy_iff s).mpr hb] at h; cases h
  exact congrArg Host.Outcome.next ((if_neg fun h1 => hn (.inl h1)).trans (if_neg fun h2 => hn (.inr h2)))

end Images

/-! ## The wipe (R436, R437) -/

theorem exec_wipe_none {s : State} (h : s.mgmt.bringUp < 5 ∨ s.mgmt.wiping = none) : exec .lifecycleWipeComplete s = .next s := by
  change execLifecycleWipeComplete s = _
  unfold execLifecycleWipeComplete
  rcases h with h | h
  · rw [if_neg (Nat.not_le.mpr h)]
  · rw [h, ite_self]

theorem exec_wipe_ends {s : State} {x : LifeCycle} (hx : s.mgmt.wiping = some x) (hb : 5 ≤ s.mgmt.bringUp) :
    exec .lifecycleWipeComplete s =
      .next { s with dram := [], l2 := [], l1 := [], mgmt := { s.mgmt with life := x, wiping := none } } := by
  change execLifecycleWipeComplete s = _
  unfold execLifecycleWipeComplete
  rw [if_pos hb, hx]

/-! ## ECC corrections (R369) -/

theorem mem_enterIf {xs : List Nat} {c : Bool} {k x : Nat} :
    (x ∈ if c && !xs.contains k then xs ++ [k] else xs) ↔ x ∈ xs ∨ (x = k ∧ c = true) := by
  by_cases hk : k ∈ xs <;> cases c <;> simp [hk]
  exact fun h => h ▸ hk

section Ecc
variable {s : State} {place row : Nat}

/-- A place that one more correction makes suspect has one fewer before it (R369). -/
theorem corrections_filter (xs : List (Nat × Nat)) (k n : Nat) :
    decide (n + 1 ≤ ((recentEcc s xs ++ [(k, s.clock)]).filter fun e => e.1 == k).length) =
      decide (n ≤ ((recentEcc s xs).filter fun e => e.1 == k).length) := by
  simp [List.filter_append]

theorem exec_eccSlice : ∃ t, exec (.eccCorrection true place row) s = .next t ∧ t.waves = s.waves ∧
    t.mgmt.suspectRows = s.mgmt.suspectRows ∧
    ∀ k, k ∈ t.mgmt.suspectSlices ↔ k ∈ s.mgmt.suspectSlices ∨
      (k = place ∧ place < Config.l2Slices ∧ 15 ≤ ((recentEcc s s.mgmt.sliceEcc).filter fun e => e.1 == place).length) := by
  refine ⟨_, congrArg Host.Outcome.next (if_pos rfl), rfl, rfl, fun k => ?_⟩
  dsimp only
  rw [corrections_filter, Bool.and_right_comm, mem_enterIf, Bool.and_eq_true, decide_eq_true_eq, decide_eq_true_eq, and_comm (a := 15 ≤ _)]

theorem exec_eccRow (h : s.mgmt.suspectRows.length < 128) :
    let key := place % 2 ^ 32 + row % 2 ^ 32 * 2 ^ 32
    ∃ t, exec (.eccCorrection false place row) s = .next t ∧ t.waves = s.waves ∧
      t.mgmt.suspectSlices = s.mgmt.suspectSlices ∧
      ∀ k, k ∈ t.mgmt.suspectRows ↔ k ∈ s.mgmt.suspectRows ∨
        (k = key ∧ 1 ≤ ((recentEcc s s.mgmt.rowEcc).filter fun e => e.1 == key).length) := by
  refine ⟨_, congrArg Host.Outcome.next ((if_neg Bool.false_ne_true).trans (if_neg (Nat.not_le.mpr h))), rfl, rfl, fun k => ?_⟩
  dsimp only
  rw [corrections_filter, mem_enterIf, decide_eq_true_eq]

theorem exec_eccRow_full (h : 128 ≤ s.mgmt.suspectRows.length) : exec (.eccCorrection false place row) s = .next s :=
  congrArg Host.Outcome.next ((if_neg Bool.false_ne_true).trans (if_pos h))

end Ecc

/-- Settles O59: requests through `serve`, resets through `moduleReset`, the image's phases and the ECC counts one by one. -/
theorem managementResetAndImages : Obligations.ManagementResetAndImages := by
  unfold Obligations.ManagementResetAndImages
  refine ⟨fun s hp => ?_, ⟨fun s hp hb => ?_, fun s h => ?_, fun s x hx hb => ?_⟩, fun s => ?_, fun s place row => ?_⟩
  · intro m served
    refine ⟨exec_stateRequest hp, fun i hi h => exec_request_early hp h hi, fun h => ⟨fun hw => ?_, fun hw => ?_, ?_, ?_, ?_⟩⟩
    · exact (exec_healthRequest hp h).trans (congrArg _ (if_pos hw))
    · exact (exec_healthRequest hp h).trans (congrArg _ (if_neg (by simp [show s.mgmt.wiping = none from hw])))
    · exact congrArg Host.Outcome.next (serve_ready hp h _)
    · exact fun k => congrArg Host.Outcome.next (serve_ready hp h _)
    · intro k hk
      refine (exec_lifecycleRequest hp h k).trans ?_
      rw [lifeOf_none hk]
      rfl
  · intro cleared
    refine ⟨⟨_, exec_resetRequest hp hb, moduleReset_clears _, ?_⟩, fun k x hk hw => ⟨_, exec_lifecycleRequest hp hb k, ?_⟩⟩
    · rw [moduleReset_mgmt]
      refine ⟨rfl, rfl, ?_, rfl⟩
      change (if imageBusy (answer s .started) then s.mgmt.imgStat else 0) = _
      simp only [imageBusy_iff]
      rfl
    · rw [hk]
      dsimp only
      rw [if_neg (by simp [hw])]
      refine ⟨moduleReset_clears _, ?_, ?_, moduleReset_wipes rfl (Nat.le_of_succ_le hb)⟩
      · rw [moduleReset_mgmt]
        rfl
      · rw [moduleReset_mgmt]
        rfl
  · exact exec_wipe_none h
  · exact ⟨_, exec_wipe_ends hx hb, fun _ => rfl, rfl, rfl, rfl⟩
  · intro m
    refine ⟨⟨_, rfl, rfl, rfl, rfl, rfl, rfl, fun _ => rfl, rfl⟩, fun h => congrArg Host.Outcome.next (if_pos h),
      fun h => ⟨_, exec_powerOn h, ?_⟩, fun h hg => ⟨_, exec_imageWriteComplete_bad h hg, rfl, rfl, rfl⟩,
      fun h hg => ⟨_, exec_imageWriteComplete_good h hg, rfl, rfl, rfl, _, mem_schedule _ _ _⟩, exec_imageWriteComplete_idle,
      fun h => ⟨_, exec_imageWriteComplete_written h, ?_⟩,
      fun h => congrArg Host.Outcome.next (if_pos h), fun h hb => congrArg Host.Outcome.next (startImage_refused h hb),
      fun h hb => ⟨_, congrArg Host.Outcome.next (startImage_begins h hb), rfl, rfl, rfl, rfl, _, mem_schedule _ _ _⟩⟩
    · obtain ⟨h1, h2, h3, h4, -⟩ := bringUpDies_mgmt { s with mgmt := { s.mgmt with powered := true, bringUp := 1, imgStat := 0 } }
      exact ⟨h1, h2, h3, (bringUpDies_clears _).1, h4⟩
    · obtain ⟨-, h2, h3, -, h5⟩ := bringUpDies_mgmt
        { s with mgmt := { s.mgmt with imgStat := 3, image := s.mgmt.newImage, newImage := [], slotGood := true } }
      exact ⟨rfl, h5, h2, h3, bringUpDies_clears _⟩
  · exact ⟨exec_eccSlice, exec_eccRow, exec_eccRow_full⟩

end Sys2Proof.Machine
end

section
/-! PROOF. A write to TRRD beside a collector that still holds something (O56: R412, R413). -/

namespace Sys2Proof.Machine

/-- A profile record of function 0 that waits in the collector of die 0. -/
def waitingRecord : Collected := { core := 0, part := 0, fn := 0, ctx := 0, record := true, bytes := [] }

/-- The machine at reset, with that record in the collector. -/
def collecting : State := { State.reset with collected := [waitingRecord] }

/-- TRACE_RING_READ lets the collectors write what they hold before it moves the index. -/
theorem writeTrrd_collecting : (writeTrrd collecting 0 0).collected = [] := by decide

/-- The index moved alone leaves the record where it waits. -/
theorem returnSpace_collecting :
    (returnSpace (collecting.setFunc 0 { collecting.func 0 with trRd := 0 }) 0).collected = [waitingRecord] := by decide

/-- Refutes O56: its last clause has TRACE_RING_READ move the read index and nothing before it, but a collector that holds a
record when the write arrives is emptied first (here the record is lost, the profile ring having no size). -/
theorem not_profilingAndTracing : ¬ Obligations.ProfilingAndTracing := by
  unfold Obligations.ProfilingAndTracing
  rintro ⟨-, h⟩
  obtain ⟨-, -, -, -, hread⟩ := h collecting 0
  have heq : writeTrrd collecting 0 0 = returnSpace (collecting.setFunc 0 { collecting.func 0 with trRd := 0 }) 0 :=
    Host.Outcome.next.inj (hread 0)
  have hrecord : [] = [waitingRecord] := writeTrrd_collecting.symm.trans ((congrArg State.collected heq).trans returnSpace_collecting)
  exact List.cons_ne_nil _ _ hrecord.symm

end Sys2Proof.Machine
end

section
/-! PROOF. Rounds of the floor, refills, steals and the end of a domain (O45: R332, R341, R343 to R346). -/

namespace Sys2Proof.Machine

section Cascade
variable {s : State} {d : Domain} (hd : s.domain? d.id = some d)
include hd

/-! ## Rounds (R332) -/

theorem exec_floorLowerRound {r : PushReq} {task : Word} {bucket : Nat} {rest : List (Word × Nat)}
    (hr : d.rounds.find? (fun x => x.id == r.id) = some r) (ht : r.tasks = (task, bucket) :: rest) :
    exec (.floorLowerRound d.id r.id) s = .next
      (if bucket < d.floor && !pushBefore s d r && !(d.node r.node).stalled then
        advancePush (s.setDomain { d with floor := bucket, lowered := true }) d.id r.id
       else advancePush s d.id r.id) := by
  change execFloorLowerRound d.id r.id s = _
  unfold execFloorLowerRound
  rw [hd]
  dsimp only
  rw [hr]
  dsimp only
  rw [ht]

theorem exec_floorRaiseRound : exec (.floorRaiseRound d.id) s = .next
    (if d.lowered then (s.setDomain { d with lowered := false }).schedule 300 (.floorRaiseRound d.id)
     else match lowestBucket d with
      | none => s.setDomain { d with noneQueued := true }
      | some b => askRaise ((List.range Config.groves).foldl (fun q g => serveWaiters d.id g 1024 q)
          (askRefills (spillOver (s.setDomain { d with floor := Nat.max d.floor b, noneQueued := false }) d.id) d.id)) d.id) := by
  change execFloorRaiseRound d.id s = _
  unfold execFloorRaiseRound
  rw [hd]
  rfl

/-! ## Refills (R341) -/

/-- A node with no task above its window spills none. -/
theorem spillNode_none {g : Nat} (h : ∀ t ∈ (d.node g).tasks, t.bucket ≤ d.floor + 1023) : spillNode s d.id g = s := by
  have hnone : ((d.node g).tasks.filter fun t => decide (d.floor + 1023 < t.bucket)) = [] :=
    List.filter_eq_nil_iff.mpr fun t ht => by simpa using h t ht
  unfold spillNode
  rw [hd]
  dsimp only
  rw [hnone]
  split <;> rfl

theorem exec_spillwayRefill {g : Nat} (h : ∀ t ∈ (d.node g).tasks, t.bucket ≤ d.floor + 1023) :
    exec (.spillwayRefill d.id g) s = .next (askRaise (refillWindow d.id g (d.node g).spilled.length s) d.id) := by
  change execSpillwayRefill d.id g s = _
  unfold execSpillwayRefill
  rw [hd]
  dsimp only
  rw [spillNode_none hd h, hd]
  rfl

/-- One spilled task in the window is read back before the others are (R341, R344). -/
theorem refillWindow_taken {g n : Nat} {x : Nat × Nat × Nat} {s1 : State} (hf : firstSpilled (d.node g) = some x)
    (hs : (d.node g).stalled = false) (hx : x.2.1 ≤ d.floor + 1023) (hn : nodeEntries s g < 4096) (ho : outrankedPush s d g = false)
    (hw : ∀ y ∈ s.domains, sameCtx y d = true → (y.node g).stalled = false → ∀ p ∈ y.rounds, p.node = g → p.waits = false)
    (h1 : refillOne s d.id g = .taken s1) : refillWindow d.id g (n + 1) s = refillWindow d.id g n s1 := by
  have hroom : (!(d.node g).stalled && decide (x.2.1 ≤ d.floor + 1023) && decide (nodeEntries s g < 4096)) = true := by
    simp [hs, hx, hn]
  have hfree : ¬ (outrankedPush s d g || s.domains.any (fun y => sameCtx y d && !(y.node g).stalled &&
      y.rounds.any fun r => r.node == g && r.waits)) = true := by
    rw [ho, Bool.false_or, List.any_eq_true]
    rintro ⟨y, hy, hyw⟩
    simp only [Bool.and_eq_true, Bool.not_eq_true', List.any_eq_true, beq_iff_eq] at hyw
    obtain ⟨⟨hc, hst⟩, p, hp, hpn, hpw⟩ := hyw
    exact absurd hpw (by rw [hw y hy hc hst p hp hpn]; exact Bool.false_ne_true)
  conv_lhs => unfold refillWindow
  rw [hd]
  dsimp only
  rw [hf]
  dsimp only
  rw [if_pos hroom, if_neg hfree, h1]

/-! ## Steals (R343) -/

/-- A thief that lacks tasks asks its victim, where that one is not held back. -/
theorem exec_stealRequest {g v : Nat} (hs : (d.node g).stealing = true) (ha : d.state = .active ∨ d.state = .unseeded)
    (ht : ∀ t ∈ (d.node g).tasks, d.floor + d.delta < t.bucket) (hi : ∀ x ∈ d.inFlight, x.1 ≠ g)
    (hv : (victims g)[(d.node g).nextVictim]? = some v) (hst : (d.node v).stalled = false) (ho : outrankedPush s d v = false) :
    exec (.stealRequest d.id g) s = .next (match stolen d v with
      | [] => (s.setDomain (d.setNode g { d.node g with
          stealing := !outranked s d g, stealHeld := outranked s d g, nextVictim := (d.node g).nextVictim + 1 })).schedule 300
            (.stealRequest d.id g)
      | t :: ts =>
        let d1 := d.setNode g { d.node g with stealing := false, nextVictim := 0 }
        let d2 := d1.setNode v { d1.node v with tasks := (d1.node v).tasks.filter fun x => !(t :: ts).contains x, served := true }
        (askNodeRefills (s.setDomain { d2 with inFlight := d2.inFlight ++ [(g, t :: ts)] }) v).schedule 300
          (.stolenTaskArrival d.id g)) := by
  have hgone : domainGone d = none := by unfold domainGone; rcases ha with ha | ha <;> rw [ha]
  have hlacks : ¬ ((domainGone d).isSome || ((d.node g).tasks.any fun t => d.admits t.bucket) || d.inFlight.any fun x => x.1 == g) = true := by
    simp only [hgone, Option.isSome_none, Bool.false_or, Bool.or_eq_true, List.any_eq_true, beq_iff_eq, not_or, not_exists, not_and]
    exact ⟨fun t hm => by simpa [Domain.admits] using ht t hm, hi⟩
  change execStealRequest d.id g s = _
  unfold execStealRequest
  rw [hd]
  dsimp only
  rw [if_neg hlacks, hs, hv]
  dsimp only
  rw [hst, ho]
  rfl

theorem exec_stolenTaskArrival {g : Nat} {ts : List Task} {s2 : State} (hf : d.inFlight.find? (fun x => x.1 == g) = some (g, ts))
    (hst : (d.node g).stalled = false)
    (ht : takeStolen d.id g ts (s.setDomain (Domain.setNode { d with inFlight := d.inFlight.erase (g, ts) } g
      { Domain.node { d with inFlight := d.inFlight.erase (g, ts) } g with served := true })) = (s2, [])) :
    exec (.stolenTaskArrival d.id g) s = .next (askRaise (stealOn s2 d.id g) d.id) := by
  change execStolenTaskArrival d.id g s = _
  unfold execStolenTaskArrival
  rw [hd]
  dsimp only
  rw [hf]
  dsimp only
  rw [hst, if_neg Bool.false_ne_true, ht]

/-! ## The end of a domain (R345, R346) -/

/-- The nodes of a domain once a token wave has visited them. -/
def visited (d : Domain) : List (Nat × NodeTasks) :=
  (d.nodes.map fun n => (n.1, { n.2 with served := false })).filter fun n => n.2 != emptyNode

/-- The wave found every count zero and no node served (R345). -/
def cleanWave (s : State) (d : Domain) : Bool := domainIdle s d && d.nodes.all fun e => !e.2.served

theorem exec_terminationTokenWave (ha : d.state = .active) : exec (.terminationTokenWave d.id) s = .next
    (let d1 : Domain := { d with nodes := visited d, cleanWaves := if cleanWave s d then d.cleanWaves + 1 else 0 }
     if 2 ≤ d1.cleanWaves then endParks (s.setDomain { d1 with state := .terminated }) d1 2
     else (s.setDomain d1).schedule 4000 (.terminationTokenWave d.id)) := by
  change execTerminationTokenWave d.id s = _
  unfold execTerminationTokenWave
  rw [hd]
  dsimp only
  rw [if_neg (not_not.mpr ha)]
  rfl

theorem exec_domainDown : exec (.domainDown d.id) s = .next
    (if d.groupScope && (d.state = .active || d.state = .unseeded) then
      endParks (fabricDown (s.setDomain { d with state := .down }) d.lid) d 4 else s) := by
  change execDomainDown d.id s = _
  unfold execDomainDown
  rw [hd]

end Cascade

theorem cleanWave_iff (s : State) (d : Domain) : cleanWave s d = true ↔ domainIdle s d = true ∧ ∀ n ∈ d.nodes, n.2.served = false := by
  simp [cleanWave]

theorem stolen_eq_nil {d : Domain} {v : Nat} (h : ((d.node v).tasks.filter fun t => decide (t.bucket ≤ d.floor + d.delta)) = []) :
    stolen d v = [] := by
  unfold stolen Domain.admits
  rw [h]
  rfl

/-- A victim with admissible tasks gives one at least (R343). -/
theorem take_half_ne_nil {ts : List Task} (h : ts ≠ []) : ts.take (Nat.min 64 ((ts.length + 1) / 2)) ≠ [] := by
  have hpos : 0 < ts.length := List.length_pos_of_ne_nil h
  have hmin : Nat.min 64 ((ts.length + 1) / 2) ≠ 0 := by
    have := Nat.le_min.mpr (show 1 ≤ 64 ∧ 1 ≤ (ts.length + 1) / 2 by omega)
    exact Nat.ne_of_gt this
  intro hnil
  rcases List.take_eq_nil_iff.mp hnil with h0 | h0
  · exact hmin h0
  · exact h h0

/-- Settles O45: each event by its equation, and the guards of its branches. -/
theorem cascadeEvents : Obligations.CascadeEvents := by
  unfold Obligations.CascadeEvents
  refine ⟨fun s d hd => ⟨fun r task bucket rest hr ht => ⟨fun h1 h2 h3 => ?_, fun h => ?_⟩, fun h => ?_, fun h h0 => ?_, fun b h hb => ?_,
      fun g ht hf => ?_, fun g x s1 ht hf hs hx hn ho hw h1 => ?_⟩,
    fun s d hd => ⟨fun g v hs ha ht hi hv hst ho => ?_, fun g ts s2 hf hst => exec_stolenTaskArrival hd hf hst, ?_, fun hg ha => ?_,
      fun hg => ?_⟩⟩
  · rw [exec_floorLowerRound hd hr ht, if_pos (by simp [h1, h2, h3])]
  · rw [exec_floorLowerRound hd hr ht, if_neg]
    rcases h with h | h | h
    · simp [Nat.not_lt.mpr h]
    · simp [h]
    · simp [h]
  · rw [exec_floorRaiseRound hd, if_pos h]
  · rw [exec_floorRaiseRound hd, h, if_neg Bool.false_ne_true, h0]
  · rw [exec_floorRaiseRound hd, h, if_neg Bool.false_ne_true, hb]
  · have hnil : (d.node g).spilled = [] := by
      unfold firstSpilled at hf
      split at hf
      · assumption
      · cases hf
    rw [exec_spillwayRefill hd ht, hnil]
    rfl
  · have hlen : (d.node g).spilled.length = (d.node g).spilled.length - 1 + 1 := by
      cases hsp : (d.node g).spilled with
      | nil => unfold firstSpilled at hf; rw [hsp] at hf; cases hf
      | cons y ys => rfl
    rw [exec_spillwayRefill hd ht, hlen, refillWindow_taken hd hf hs hx hn ho hw h1, Nat.add_sub_cancel]
  · intro held ready give
    refine ⟨fun hnil => ?_, fun hne => ?_⟩
    · rw [exec_stealRequest hd hs ha ht hi hv hst ho, stolen_eq_nil hnil]
    · have hgive : stolen d v = give := rfl
      intro d1 d2
      rw [exec_stealRequest hd hs ha ht hi hv hst ho]
      split
      · next hnil => exact absurd (hgive.symm.trans hnil) (take_half_ne_nil hne)
      · next t ts heq => rw [← heq]; rfl
  · intro clean nodes again ha
    refine ⟨fun hc => ?_, fun hc h0 => ?_, fun hc h1 => ?_⟩
    · rw [exec_terminationTokenWave hd ha, if_neg (fun h => hc ((cleanWave_iff s d).mp h))]
      rfl
    · rw [exec_terminationTokenWave hd ha, if_pos ((cleanWave_iff s d).mpr hc), h0]
      rfl
    · rw [exec_terminationTokenWave hd ha, if_pos ((cleanWave_iff s d).mpr hc)]
      exact congrArg _ (if_pos (Nat.succ_le_succ h1))
  · rw [exec_domainDown hd, if_pos (by simp [hg, ha])]
  · rw [exec_domainDown hd, if_neg (by simp [hg])]

end Sys2Proof.Machine
end

section
/-! PROOF. Instructions that no transaction supports, on a path none of whose lanes is transactional (R257). -/

namespace Sys2Proof.Machine

variable {e : Env} {s : State} {i : Instr} {body : Env → State → Effect}

/-- Lanes of a path without transactional lanes. -/
theorem unsupported_plain {ls : List Nat} (h : plainLanes e) (hl : ∀ l ∈ ls, l = 0 ∨ l ∈ e.lanes)
    (f : State → (Nat → Bool) → Effect) : unsupported e s ls f = f s fun _ => true := by
  have hnone : ls.filter e.w.inTx = [] := by
    rw [List.filter_eq_nil_iff]
    intro l hm
    rw [h l (hl l hm)]
    exact Bool.false_ne_true
  unfold unsupported
  rw [hnone]

theorem mem_lanes_of_taking {l : Nat} (h : l ∈ e.taking) : l = 0 ∨ l ∈ e.lanes := .inr (List.mem_of_mem_filter h)

theorem mem_lanes_of_memLanes {d : OpCode} {l : Nat} (h : l ∈ e.memLanes d) : l = 0 ∨ l ∈ e.lanes := by
  unfold Env.memLanes at h
  split at h
  · exact .inl (List.mem_singleton.mp h)
  · exact mem_lanes_of_taking h

theorem unsupportedWave_plain (h : plainLanes e) (f : State → Mask → Effect) : unsupportedWave e s f = f s (maskOf e.lanes) := by
  unfold unsupportedWave
  rw [unsupported_plain h fun l hl => .inr hl, List.filter_true]

end Sys2Proof.Machine
end

section
/-! PROOF. WPOP and WPOPW at a node with nothing spilled (O44: R337 to R339, R343, R344, R347). -/

namespace Sys2Proof.Machine

theorem withDomain_some {e : Env} {s : State} {d : Domain} (h : waveDomain s e.w = some d) (f : Domain → Effect) :
    withDomain e s f = f d := by
  unfold withDomain
  rw [h]

theorem parkedAt_worklist (bundle : Word) (slot : Nat) (dest : OpCode) (m : Mask) (n t : Nat) :
    parkedAt bundle slot (.worklist dest m n t) = fun p =>
      { p with pc := bundle, slot := slot, fresh := false, waitResume := false, park := .worklist dest m n t } := by
  funext p
  unfold parkedAt
  rw [show (Park.worklist dest m n t == Park.saved) = false from rfl, Bool.and_false]

section Pops
variable {e : Env} {s : State} {d : Domain} {dest : OpCode}

/-- The lanes of a pop whose open count is full (R339). -/
def fullLanes (e : Env) (d : Domain) : List Nat := e.taking.filter fun l => decide (15 ≤ mget 0 d.open_ (openKey e.w l))
/-- The lanes that ask for a task (R337). -/
def askerLanes (e : Env) (d : Domain) : List Nat := e.taking.filter fun l => !(fullLanes e d).contains l

/-- A pop at a node with nothing spilled, and nothing before it, is served as the node stands. -/
theorem popRun_serves {parks : Bool} (hd : waveDomain s e.w = some d) (hdom : s.domain? d.id = some d) (hf : fenced e.w .wl = false)
    (hsp : (d.node (groveOf e.w.core)).spilled = []) (hst : (d.node (groveOf e.w.core)).stalled = false)
    (hb : popBehind s d (groveOf e.w.core) = false) :
    popRun e s dest e.taking parks = popServe e s d dest (fullLanes e d) (askerLanes e d) parks := by
  have hready : ¬ (fenced e.w .wl || (d.node (groveOf e.w.core)).stalled || popBehind s d (groveOf e.w.core)) = true := by
    simp [hf, hst, hb]
  refine (withDomain_some hd _).trans ((if_neg hready).trans ?_)
  rw [hsp]
  change (if (domainGone d).isSome then _ else match s.domain? d.id with
    | some d1 => popServe e s d1 dest (fullLanes e d) (askerLanes e d) parks
    | none => .wait) = _
  rw [hdom]
  exact ite_self _

/-- The answer of a pop: its lanes are written, and it is an acquire where it returns a task. -/
def popAnswer (e : Env) (q : State) (ws : List RegWrite) (acquires : Bool) : State :=
  let p := pend q e (some 60) ws .wl false 0
  if acquires then acquireUntil p.2 e.w.uid p.1 else p.2

/-- A pop of either form does what `popRun` comes to. -/
theorem exec_pop {parked : Bool} {t : State} (hi : Issues (if parked then .wpopw dest else .wpop dest) s e) (hp : plainLanes e)
    (h : popRun e (past (if parked then .wpopw dest else .wpop dest) s e) dest e.taking parked = .done t) :
    exec (if parked then .wpopw dest else .wpop dest) s = .next t := by
  have hbody : ∀ (q : State) (b : Bool), (unsupported e q e.taking fun s keep => popRun e s dest (e.taking.filter keep) b) =
      popRun e q dest e.taking b := fun q b => by
    rw [unsupported_plain hp fun l hl => mem_lanes_of_taking hl, List.filter_true]
  cases parked with
  | true =>
    change execWpopw dest s = _
    unfold execWpopw
    exact runInstr_done hi.1 hi.2 ((hbody _ _).trans h)
  | false =>
    change execWpop dest s = _
    unfold execWpop
    exact runInstr_done hi.1 hi.2 ((hbody _ _).trans h)

/-- What the lanes with fifteen open tasks are written (R339). -/
def fullWrites (e : Env) (d : Domain) (dest : OpCode) : List RegWrite := (fullLanes e d).flatMap fun l => popLane dest l none 3

/-- The node's admissible tasks for the askers, lowest bucket first (R337). -/
def readyTasks (e : Env) (d : Domain) : List Task :=
  ((d.node (groveOf e.w.core)).tasks.filter fun t => decide (t.bucket ≤ d.floor + d.delta)).take (askerLanes e d).length

/-- The state once those tasks have left the node. -/
def popped (e : Env) (s : State) (d : Domain) : State :=
  let n := d.node (groveOf e.w.core)
  askRaise (askNodeRefills (s.setDomain (openLanes (d.setNode (groveOf e.w.core)
    { n with tasks := n.tasks.filter fun t => !(readyTasks e d).contains t, served := true }) e.w
      ((askerLanes e d).take (readyTasks e d).length))) (groveOf e.w.core)) d.id

theorem popServe_gone {parks : Bool} {k : Nat} (h : d.state = .terminated ∧ k = 2 ∨ d.state = .down ∧ k = 4) :
    popServe e s d dest (fullLanes e d) (askerLanes e d) parks =
      .done (popAnswer e s (fullWrites e d dest ++ popWrites dest k (askerLanes e d) []) false) := by
  unfold popServe
  rcases h with ⟨h, rfl⟩ | ⟨h, rfl⟩ <;> rw [h] <;> rfl

section Live
variable (h : d.state = .active ∨ d.state = .unseeded)
include h

theorem popServe_answers {parks : Bool} (hr : readyTasks e d ≠ [] ∨ askerLanes e d = [] ∨ parks = false) :
    popServe e s d dest (fullLanes e d) (askerLanes e d) parks =
      .done (popAnswer e (if (readyTasks e d).length < (askerLanes e d).length then startSteal (popped e s d) d.id (groveOf e.w.core)
        else popped e s d) (fullWrites e d dest ++ popWrites dest 1 (askerLanes e d) (readyTasks e d)) (!(readyTasks e d).isEmpty)) := by
  have hb : (!(readyTasks e d).isEmpty || (askerLanes e d).isEmpty || !parks) = true := by
    rcases hr with hr | hr | hr <;> simp [hr]
  have hshort : ∀ x y : State, (if decide ((readyTasks e d).length < (askerLanes e d).length) = true then x else y) =
      if (readyTasks e d).length < (askerLanes e d).length then x else y := fun x y => by simp only [decide_eq_true_eq]
  unfold popAnswer
  rw [← hshort]
  unfold popServe
  rcases h with h | h <;> rw [h] <;> exact if_pos hb

/-- A WPOPW that is given nothing parks (R338). -/
theorem popServe_parks (hr : readyTasks e d = []) (ha : askerLanes e d ≠ []) :
    popServe e s d dest (fullLanes e d) (askerLanes e d) true =
      let q := popped e s d
      let p := pend (startSteal { q with counter := q.counter + 1 } d.id (groveOf e.w.core)) e none
        (fullWrites e d dest ++ popWrites dest 1 (askerLanes e d) []) .none false 0
      .done (e.move p.2 (parkedAt e.iss.bundle e.iss.slot (.worklist dest (maskOf (askerLanes e d)) p.1 q.counter))) := by
  have hb : ¬ (!(readyTasks e d).isEmpty || (askerLanes e d).isEmpty || !true) = true := by simp [hr, ha]
  unfold popServe
  rcases h with h | h <;> rw [h] <;> exact if_neg hb

end Live

end Pops

/-- Settles O44: the pop is served at its node as it stands, and answers, or parks where it is given nothing. -/
theorem popsComplete : Obligations.PopsComplete := by
  unfold Obligations.PopsComplete
  intro s e dest d parked hp hf i r g n full askers full3 answers hi hd hdom hsp hst hb
  have hserve : popRun e r dest e.taking parked = popServe e r d dest (fullLanes e d) (askerLanes e d) parked :=
    popRun_serves hd hdom hf hsp hst hb
  have hexec : ∀ {t}, popServe e r d dest (fullLanes e d) (askerLanes e d) parked = .done t → exec i s = .next t :=
    fun ht => exec_pop hi hp (hserve.trans ht)
  refine ⟨fun h => hexec (popServe_gone (.inl ⟨h, rfl⟩)), fun h => hexec (popServe_gone (.inr ⟨h, rfl⟩)), fun h => ?_⟩
  intro ready d1 q
  refine ⟨fun hr => hexec (popServe_answers h hr), fun hr ha hpk => ?_⟩
  subst hpk
  have hparks := hexec (popServe_parks h hr ha)
  simp only [parkedAt_worklist] at hparks
  exact hparks

end Sys2Proof.Machine
end

section
/-! PROOF. WPUSH, WDONE, WFLOOR and WSTAT at the wave's node (O43: R327, R334 to R336, R339, R340, R348). -/

namespace Sys2Proof.Machine

/-! ## Blocks and the words of SS -/

/-- An entry put in place of those of its kind is the first of that kind, where there was one. -/
theorem find?_replaced {α : Type} {p : α → Bool} {b : α} (hb : p b = true) {xs : List α} (h : (xs.find? p).isSome = true) :
    (xs.map fun x => if p x then b else x).find? p = some b := by
  induction xs with
  | nil => cases h
  | cons x xs ih =>
    cases hx : p x with
    | true => simp [hx, hb]
    | false =>
      rw [List.find?_cons, hx] at h
      simpa [hx] using ih h

theorem block?_key {s : State} {lid bid : Nat} {r : Run} {b : Block} (h : s.block? lid bid r = some b) :
    b.lid = lid ∧ b.bid = bid ∧ b.run = r := by
  simpa [and_assoc] using List.find?_some h

/-- A block put in place of the one of its key. -/
theorem block?_setBlock {s : State} {lid bid : Nat} {r : Run} {b b' : Block} (h : s.block? lid bid r = some b)
    (hk : b'.lid = b.lid ∧ b'.bid = b.bid ∧ b'.run = b.run) : (s.setBlock b').block? lid bid r = some b' := by
  obtain ⟨h1, h2, h3⟩ := block?_key h
  obtain ⟨hl, hb, hr⟩ := hk
  rw [← h1, ← h2, ← h3, ← hl, ← hb, ← hr] at h ⊢
  exact find?_replaced (p := fun x : Block => x.lid == b'.lid && x.bid == b'.bid && x.run == b'.run) (by simp)
    (xs := s.blocks) (Option.isSome_iff_exists.mpr ⟨b, h⟩)

/-- The words of a held run go to its block's sum, and those of any other to its launch's. -/
theorem addSS_held {s : State} {a : Actor} {b : Block} (ha : a.held = true) (hb : s.block? a.lid a.bid a.run = some b) (x : Nat) :
    addSS s a x = s.setBlock { b with ss := b.ss + w64 x } := by
  unfold addSS
  rw [ha, hb]
  rfl

theorem pend_frame (s : State) (e : Env) (lat : Option Nat) (ws : List RegWrite) (path : AccessPath) (store : Bool) (ss : Nat) :
    (pend s e lat ws path store ss).2 = { s with
      waves := (pend s e lat ws path store ss).2.waves, agenda := (pend s e lat ws path store ss).2.agenda } := by
  unfold pend
  split
  · rfl
  · cases lat <;> rfl

theorem past_domains (i : Instr) (s : State) (e : Env) : (past i s e).domains = s.domains := by rw [past_eq]

/-! ## Pushes (R335, R336, R348) -/

section Pushes
variable {e : Env} {s : State} {d : Domain} {tasks : List (Word × Nat)}

theorem pushRun_noDomain (h : waveDomain s e.w = none) : pushRun e s tasks = .raise .wlNoDomain := by
  unfold pushRun withDomain
  rw [h]

theorem pushRefused_gone {k : Nat} (h : d.state = .terminated ∧ k = 1 ∨ d.state = .down ∧ k = 2) (g : Nat) :
    pushRefused d g tasks = some (.wlNoDomain, k) := by
  unfold pushRefused domainGone
  rcases h with ⟨h, rfl⟩ | ⟨h, rfl⟩ <;> rw [h]

/-- What a push to a live domain is checked for (R336). -/
theorem pushRefused_live (h : d.state = .active ∨ d.state = .unseeded) (g : Nat) : pushRefused d g tasks =
    if spillRoom d g < spillNeed (if d.state = .unseeded then (tasks.head?.map Prod.snd).getD 0 else d.floor) (tasks.map Prod.snd)
      then some (.wlSpillFull, 0) else none := by
  unfold pushRefused domainGone
  rcases h with h | h <;> rw [h]

theorem pushRun_refused {c : Cause} {k : Nat} (hd : waveDomain s e.w = some d)
    (h : pushRefused d (groveOf e.w.core) tasks = some (c, k)) : pushRun e s tasks = .trap c none 0 (w64 k) := by
  refine (withDomain_some hd _).trans ?_
  dsimp only
  rw [h]

section Accepted
variable (hd : waveDomain s e.w = some d) (hr : pushRefused d (groveOf e.w.core) tasks = none) (hf : fenced e.w .wl = false)
include hd hr hf

theorem pushRun_accepted : pushRun e s tasks =
    if runHeld s e.w.lid e.w.bid e.w.run then holdPush e s tasks
    else if tasks.isEmpty then e.finish s 60 []
    else .done (joinNode (e.move (pend s e none [] .wl false (ssOfTasks tasks)).2 fun q =>
        { q with park := .hold (pend s e none [] .wl false (ssOfTasks tasks)).1 }) d.id (groveOf e.w.core) e.w.uid
          (pend s e none [] .wl false (ssOfTasks tasks)).1 tasks false (some (e.issuePoint, ssOfTasks tasks))) := by
  refine (withDomain_some hd _).trans ?_
  dsimp only
  rw [hr]
  exact if_neg (by rw [hf]; exact Bool.false_ne_true)

end Accepted

/-- A held push leaves the domains as they are, and its tasks with its block. -/
theorem holdPush_holds {b : Block} (hb : s.waveBlock e.w = some b) (hh : runHeld s e.w.lid e.w.bid e.w.run = true) :
    let items := b.heldItems ++ tasks.map fun x => HeldItem.wpush x.1 x.2
    let t := (pend (addSS (s.setBlock { b with heldItems := items }) (waveActor s e.w) (ssOfTasks tasks)) e (some 60) [] .wl
      false (ssOfTasks tasks)).2
    holdPush e s tasks = .done t ∧ t.domains = s.domains ∧ ∃ b1, t.waveBlock e.w = some b1 ∧ b1.heldItems = items := by
  intro items t
  have hset : (s.setBlock { b with heldItems := items }).block? e.w.lid e.w.bid e.w.run = some { b with heldItems := items } :=
    block?_setBlock hb ⟨rfl, rfl, rfl⟩
  have hsum := addSS_held (a := waveActor s e.w) hh hset (ssOfTasks tasks)
  refine ⟨?_, ?_, { b with heldItems := items, ss := b.ss + w64 (ssOfTasks tasks) }, ?_, rfl⟩
  · unfold holdPush
    rw [hb]
  · change (pend _ _ _ _ _ _ _).2.domains = _
    rw [pend_frame, hsum]
    rfl
  · change (pend _ _ _ _ _ _ _).2.block? e.w.lid e.w.bid e.w.run = _
    rw [pend_frame, hsum]
    exact block?_setBlock hset ⟨rfl, rfl, rfl⟩

end Pushes

/-- WPUSH comes to `pushRun` of its lanes' tasks. -/
theorem wpush_runs {s : State} {e : Env} {a b : OpCode} (hp : plainLanes e) :
    ∃ body, exec (.wpush a b) s = runInstr (.wpush a b) s body ∧ body e (past (.wpush a b) s e) =
      pushRun e (past (.wpush a b) s e) ((if isUniform a && isUniform b then [0] else e.taking).map fun l =>
        (e.i a l, (e.i b l).toNat % 65536)) := by
  refine ⟨_, (show execWpush a b s = _ from rfl), ?_⟩
  dsimp only
  have hlanes : ∀ l ∈ (if isUniform a && isUniform b then [0] else e.taking), l = 0 ∨ l ∈ e.lanes := by
    intro l hl
    split at hl
    · exact .inl (List.mem_singleton.mp hl)
    · exact mem_lanes_of_taking hl
  rw [unsupported_plain hp hlanes, List.filter_true]
  rfl

/-! ## Words of the domain (R340) -/

/-- A word of the domain is written to the lanes that take part, or once (R334). -/
theorem wordRun_writes {e : Env} {s : State} {d : Domain} {x : OpCode} (hp : plainLanes e) (hf : fenced e.w .wl = false)
    (hd : waveDomain s e.w = some d) (f : Domain → Nat → Nat) : wordRun e s x f =
      .done (pend s e (some 60) ((e.memLanes x).flatMap fun l => destWrite x l (w64 (f d l))) .wl false 0).2 := by
  unfold wordRun
  rw [unsupported_plain hp fun l hl => mem_lanes_of_memLanes hl, List.filter_true]
  exact (withDomain_some hd _).trans (if_neg (by rw [hf]; exact Bool.false_ne_true))

theorem floorWord_eq (d : Domain) : floorWord d =
    (if d.state = .down then 2 ^ 18 else 0) + (if d.state = .terminated then 2 ^ 17 else 0) +
      (if d.noneQueued then 2 ^ 16 else 0) + d.floor := by
  unfold floorWord b2n
  cases d.state <;> cases d.noneQueued <;> rfl

/-- Settles O43: a push by the checks at its node, and what becomes of it held or taken; the rest by one run each. -/
theorem pushesAndClosing : Obligations.PushesAndClosing := by
  unfold Obligations.PushesAndClosing
  refine ⟨fun s e a b hp hi => ?_, fun s e x d hp hf => ?_⟩
  · intro i r uniform tasks trap
    obtain ⟨body, hexec, hbody⟩ := wpush_runs (s := s) (a := a) (b := b) hp
    have hdone : ∀ {t}, pushRun e r tasks = .done t → exec i s = .next t :=
      fun ht => hexec.trans (runInstr_done hi.1 hi.2 (hbody.trans ht))
    have htrap : ∀ {c k}, pushRun e r tasks = .trap c none 0 k → trap c k :=
      fun ht => hexec.trans (runInstr_trap hi.1 hi.2 (hbody.trans ht))
    refine ⟨fun h => htrap (pushRun_noDomain h), fun d hd => ⟨fun h => ?_, fun h => ?_, fun h => ?_⟩⟩
    · exact htrap (pushRun_refused hd (pushRefused_gone (.inl ⟨h, rfl⟩) _))
    · exact htrap (pushRun_refused hd (pushRefused_gone (.inr ⟨h, rfl⟩) _))
    · intro floor need
      refine ⟨fun hroom => htrap (pushRun_refused hd ((pushRefused_live h _).trans (if_pos hroom))), fun hroom hf => ?_⟩
      have hok : pushRefused d (groveOf e.w.core) tasks = none := (pushRefused_live h _).trans (if_neg (Nat.not_lt.mpr hroom))
      have hrun := pushRun_accepted hd hok hf
      refine ⟨fun hh b hb => ?_, fun hh ht => ?_, fun hh ht => ?_⟩
      · obtain ⟨hhold, hdom, hblock⟩ := holdPush_holds (tasks := tasks) hb hh
        exact ⟨hdone (hrun.trans ((if_pos hh).trans hhold)), hdom.trans (past_domains i s e), hblock⟩
      · exact hdone (hrun.trans ((if_neg (by rw [hh]; exact Bool.false_ne_true)).trans (if_pos (by rw [ht]; rfl))))
      · exact hdone (hrun.trans ((if_neg (by rw [hh]; exact Bool.false_ne_true)).trans (if_neg (by simpa using ht))))
  · intro lanes g writes
    refine ⟨fun hi hd => ?_, fun hi hd => ?_, fun hi hd => ?_⟩
    · refine (show execWdone s = _ from runInstr_done hi.1 hi.2 ?_)
      rw [unsupported_plain hp fun l hl => mem_lanes_of_taking hl, List.filter_true]
      exact closeRun_ok hd hf
    · have hw := wordRun_writes (x := x) hp hf hd fun dom _ => floorWord dom
      rw [floorWord_eq] at hw
      exact (show execWfloor x s = _ from runInstr_done hi.1 hi.2 hw)
    · exact (show execWstat x s = _ from runInstr_done hi.1 hi.2
        (wordRun_writes hp hf hd fun dom l => domainWord (past (.wstat x) s e) dom e.w l))

end Sys2Proof.Machine
end

section
/-! PROOF. MMA and MMAZ contribute to the partial group of their quad (O37: R270, R276, R277). -/

namespace Sys2Proof.Machine

theorem matrixRun_plain {e : Env} (h : plainLanes e) (s : State) (f : State → Effect) : matrixRun e s f = f s :=
  unsupportedWave_plain h _

/-! ## The groups with a contribution added (R270) -/

section Groups
variable {gs : List Group} {fresh : Group} {x : Contrib} {n clock : Nat}

theorem addContrib_joins {g : Group} (h : g.contribs.length ≠ 3) : addContrib gs (some g) fresh x n clock =
    gs.map fun y => if y.id = g.id then { g with contribs := g.contribs ++ [x] } else y := by
  unfold addContrib
  dsimp only
  rw [if_neg (by simpa using h)]
  simp only [beq_iff_eq]

theorem addContrib_forms {g : Group} (h : g.contribs.length = 3) : addContrib gs (some g) fresh x n clock =
    (gs.filter fun y => y.id != g.id) ++ [{ g with contribs := g.contribs ++ [x], formed := true, formedAt := clock, id := n }] := by
  unfold addContrib
  exact if_pos (by simp [h])

end Groups

/-! ## What a contribution leaves (R276) -/

section Contribute
variable {e : Env} {r : State} {f : FmtBlock} {fb : List Byte} {zero : Bool} {acc off b set pos : Nat} {addr : Word}
  {old : Option Group} {w0 : Wave}

/-- The contribution that a wave makes (R276). -/
def contribOf (e : Env) (r : State) (f : FmtBlock) (b pos : Nat) : Contrib :=
  { id := r.counter, uid := e.w.uid, seqNo := (pend r e none [] .mx false 0).1, pos := pos, regs := quarterRegs e.w b (bRegs f.bf) }

/-- The partial group that a wave begins (R270). -/
def freshGroup (e : Env) (r : State) (fb : List Byte) (zero : Bool) (acc : Nat) (addr : Word) (off set : Nat) : Group :=
  { id := r.counter + 1, zero := zero, acc := acc, aAddr := addr, aOff := off, fmt := fb, lid := e.w.lid, bid := e.w.bid,
    run := e.w.run, set := set, contribs := [], formed := false, formedAt := 0, started := false, stage := none, readDone := false,
    aData := [] }

/-- The block remembers that the set's quad was used (R270). -/
def noteQuad (s : State) (w : Wave) (set : Nat) : State :=
  match s.waveBlock w with
  | some b => if b.quadSets.contains set then s else s.setBlock { b with quadSets := b.quadSets ++ [set] }
  | none => s

theorem noteQuad_keeps (s : State) (w : Wave) (set : Nat) :
    (∀ uid, (noteQuad s w set).wave? uid = s.wave? uid) ∧ (noteQuad s w set).cores = s.cores := by
  unfold noteQuad
  split
  · split <;> exact ⟨fun _ => rfl, rfl⟩
  · exact ⟨fun _ => rfl, rfl⟩

/-- A wave with one more contribution outstanding (R276, R281). -/
def Wave.contributes (id : Nat) (w : Wave) : Wave :=
  { w with looseContribs := w.looseContribs ++ [id], liveContribs := w.liveContribs ++ [id] }

/-- The core with the contribution in its groups, and its tile claimed. -/
def contribCore (e : Env) (r : State) (f : FmtBlock) (fb : List Byte) (zero : Bool) (acc : Nat) (addr : Word) (off b set pos : Nat)
    (old : Option Group) : Core :=
  claimTile { r.core e.w.core with
    groups := addContrib (r.core e.w.core).groups old (freshGroup e r fb zero acc addr off set) (contribOf e r f b pos)
      (r.counter + 1) r.clock } e.w f.acc acc r.counter

/-- The wave with the contribution pending and outstanding. -/
def contributing (e : Env) (r : State) (k : Core) : State :=
  ({ (pend r e none [] .mx false 0).2 with counter := r.counter + 2 }.setCore e.w.core k).modWave e.w.uid
    (Wave.contributes r.counter)

theorem contribute_eq : contribute e r f fb zero acc addr off b set pos old =
    .done ((noteQuad (contributing e r (contribCore e r f fb zero acc addr off b set pos old)) e.w set).schedule 0
      (.matrixGroupStart e.w.core)) := by
  unfold contribCore
  rw [← pend_core r e none [] .mx false 0]
  rfl

theorem contributing_wave (hw : r.wave? e.w.uid = some w0) (k : Core) : (contributing e r k).wave? e.w.uid =
    some ((w0.pends e (pended w0 e [] .mx false 0)).contributes r.counter) := by
  have hu := wave?_uid hw
  unfold contributing
  rw [wave?_modWave _ _ _ (Wave.contributes r.counter) fun _ => rfl, pend_none hw]
  change ((r.setWave _).wave? _).map _ = _
  rw [wave?_setWave, hw]
  simp [Wave.pends_uid, hu]

/-- A contribution stands in its wave, and in the groups of its core. -/
theorem contribute_effects (hw : r.wave? e.w.uid = some w0) : ∃ t w,
    contribute e r f fb zero acc addr off b set pos old = .done t ∧ t.wave? e.w.uid = some w ∧
    w.looseContribs = w0.looseContribs ++ [r.counter] ∧ w.liveContribs = w0.liveContribs ++ [r.counter] ∧
    (∃ k ∈ w.pending, k.seqNo = (contribOf e r f b pos).seqNo ∧ k.path = .mx) ∧
    t.cores = (r.setCore e.w.core (contribCore e r f fb zero acc addr off b set pos old)).cores := by
  obtain ⟨hwaves, hcores⟩ := noteQuad_keeps (contributing e r (contribCore e r f fb zero acc addr off b set pos old)) e.w set
  refine ⟨_, _, contribute_eq, (hwaves _).trans (contributing_wave hw _), ?_, ?_, ?_, ?_⟩
  · exact congrArg (· ++ [r.counter]) (Wave.raise_looseContribs ..)
  · exact congrArg (· ++ [r.counter]) (Wave.raise_liveContribs ..)
  · refine ⟨pended w0 e [] .mx false 0, List.mem_append_right _ (List.mem_singleton_self _), ?_, rfl⟩
    change w0.nextSeq = (pend r e none [] .mx false 0).1
    rw [pend_none hw]
  · exact hcores.trans (congrArg (fun cs => mset emptyCore cs e.w.core _) (pend_cores r e none [] .mx false 0))

end Contribute

/-! ## The checks (R277) -/

section Mma
variable {e : Env} {r : State} {f : FmtBlock} {fb : List Byte} {zero : Bool} {acc b set pos : Nat} {addr : Word}

/-- The partial groups of the wave's quad (R270). -/
def quadGroups (e : Env) (r : State) (set : Nat) : List Group :=
  (r.core e.w.core).groups.filter fun g => g.partialOf e.w.lid e.w.bid e.w.run set
/-- The first of them that the wave is not in. -/
def openGroup (e : Env) (r : State) (set : Nat) : Option Group :=
  (quadGroups e r set).find? fun g => !(g.contribs.any fun x => x.uid == e.w.uid)

/-- An MMA or MMAZ past its checks contributes. -/
theorem mmaRun_contributes (hf : e.w.fmtState = some f) (hfb : e.w.fmt = some fb) (hchk : mmaChecks e r zero acc addr b f set pos)
    (hfence : fenced e.w .mx = false) (href : reformatWaits (r.core e.w.core) f.acc acc = false)
    (hnew : openGroup e r set = none → (quadGroups e r set).length < 4)
    (hold : ∀ g, openGroup e r set = some g → (g.zero = zero ∧ g.acc = acc ∧ g.aAddr = addr ∧ g.fmt = fb) ∧
      (g.contribs.length = 3 → ((r.core e.w.core).groups.filter Group.live).length < 8)) :
    mmaRun e r zero acc addr b = contribute e r f fb zero acc addr (addr.toNat % 2 ^ 20) b set pos (openGroup e r set) := by
  obtain ⟨hacc, hb, hquad, ha, hforeign, hfmt, hstage⟩ := hchk
  unfold mmaRun
  rw [hf, hfb]
  dsimp only
  rw [if_neg (by simpa using hacc), if_neg (Nat.not_lt.mpr hb), hquad]
  dsimp only
  rw [ha]
  dsimp only
  rw [hforeign]
  dsimp only
  have hunbroken : (stageAt (r.core e.w.core) e.w.lid e.w.bid e.w.run (addr.toNat % 2 ^ 20)).filter Stage.broken = none := by
    cases hs : stageAt (r.core e.w.core) e.w.lid e.w.bid e.w.run (addr.toNat % 2 ^ 20) with
    | none => rfl
    | some g => simp [hstage g hs]
  rw [if_neg (by cases zero <;> simp_all), hunbroken]
  dsimp only
  have hopen : (((r.core e.w.core).groups.filter fun g => g.partialOf e.w.lid e.w.bid e.w.run set).find? fun g =>
      !(g.contribs.any fun x => x.uid == e.w.uid)) = openGroup e r set := rfl
  rw [hopen, hfence, href]
  cases ho : openGroup e r set with
  | none =>
    have hroom : ¬ 4 ≤ ((r.core e.w.core).groups.filter fun g => g.partialOf e.w.lid e.w.bid e.w.run set).length :=
      Nat.not_le.mpr (hnew ho)
    exact (if_neg (by simp)).trans (if_neg (by simpa using hroom))
  | some g =>
    obtain ⟨⟨h1, h2, h3, h4⟩, hlive⟩ := hold g ho
    refine (if_neg (by simp [Group.agrees, h1, h2, h3, h4])).trans (if_neg ?_)
    simpa using hlive

end Mma

theorem exec_mma {s : State} {e : Env} {zero : Bool} {acc : Byte} {a b : OpCode} {t : State} {i : Instr}
    (hform : i = if zero then .mmaz acc a b else .mma acc a b) (hi : Issues i s e) (hp : plainLanes e)
    (h : mmaRun e (past i s e) zero acc.toNat (e.u a) b.toNat = .done t) : exec i s = .next t := by
  subst hform
  cases zero with
  | true =>
    change execMmaz acc a b s = _
    unfold execMmaz
    exact runInstr_done hi.1 hi.2 ((matrixRun_plain hp _ _).trans h)
  | false =>
    change execMma acc a b s = _
    unfold execMma
    exact runInstr_done hi.1 hi.2 ((matrixRun_plain hp _ _).trans h)

/-- Settles O37: past its checks the instruction comes down to `contribute`, whose groups are the old ones with one more
contribution. -/
theorem matrixContributions : Obligations.MatrixContributions := by
  unfold Obligations.MatrixContributions
  intro s e i zero acc a b f fb set pos hform hi hp hfence hf hfb r c mine open? formed hchk href hnew hold
  obtain ⟨w0, hw0, hkeep⟩ : ∃ w0, r.wave? e.w.uid = some w0 ∧ keepsWave e.w w0 := past_wave hi.1 i
  have hrun := mmaRun_contributes hf hfb hchk hfence href hnew hold
  obtain ⟨t, w, hdone, hw, hloose, hlive, hpend, hcores⟩ := contribute_effects (f := f) (fb := fb) (zero := zero) (acc := acc.toNat)
    (off := (e.u a).toNat % 2 ^ 20) (b := b.toNat) (set := set) (pos := pos) (addr := e.u a) (old := openGroup e r set) hw0
  have hl0 : w0.looseContribs = e.w.looseContribs := by rw [hkeep]
  have hv0 : w0.liveContribs = e.w.liveContribs := by rw [hkeep]
  rw [hl0] at hloose
  rw [hv0] at hlive
  refine ⟨t, w, contribOf e r f b.toNat pos, _, exec_mma hform hi hp (hrun.trans hdone), hw, hloose, hlive, hpend, rfl, rfl, rfl,
    fun ho => ?_, fun g ho => ⟨fun hn => ?_, fun hn => ?_⟩, hcores⟩
  · refine ⟨{ freshGroup e r fb zero acc.toNat (e.u a) ((e.u a).toNat % 2 ^ 20) set with contribs := [contribOf e r f b.toNat pos] },
      ?_, rfl, rfl, rfl, rfl, rfl, rfl, ?_⟩
    · rw [show openGroup e r set = none from ho]
      rfl
    · simp [Group.partialOf, freshGroup]
  · rw [show openGroup e r set = some g from ho]
    exact addContrib_joins hn
  · refine ⟨r.counter + 1, ?_⟩
    rw [show openGroup e r set = some g from ho, addContrib_forms hn, past_clock]

end Sys2Proof.Machine
end

section
/-! PROOF. MFMT, MDRAIN, MACCLD, MSTAT, MBATCH, MWAIT and MSTAGE (O38: R274, R281 to R283, R286 to R290). -/

namespace Sys2Proof.Machine

/-- A matrix instruction on a path without transactional lanes is its run. -/
theorem matrix_runs {s : State} {e : Env} {i : Instr} {f : Env → State → Effect} (hp : plainLanes e)
    (h : exec i s = runInstr i s fun e s => matrixRun e s (f e)) :
    ∃ body, exec i s = runInstr i s body ∧ body e (past i s e) = f e (past i s e) :=
  ⟨_, h, matrixRun_plain hp _ _⟩

section Answers
variable {s : State} {e : Env} {i : Instr} {f : Env → State → Effect} (hi : Issues i s e) (hp : plainLanes e)
  (h : exec i s = runInstr i s fun e s => matrixRun e s (f e))
include hi hp h

theorem matrix_done {t : State} (ht : f e (past i s e) = .done t) : exec i s = .next t :=
  h.trans (runInstr_done hi.1 hi.2 ((matrixRun_plain hp _ _).trans ht))

theorem matrix_trap {c : Cause} {lanes : Option Mask} {addr detail : Word} (ht : f e (past i s e) = .trap c lanes addr detail) :
    exec i s = .next (takeTrap (account s e i.scalarForm) e i.takesLiteral c lanes addr detail) :=
  h.trans (runInstr_trap hi.1 hi.2 ((matrixRun_plain hp _ _).trans ht))

theorem matrix_wait (ht : f e (past i s e) = .wait) : exec i s = .next (noteTried s e 10) :=
  h.trans (runInstr_wait hi ((matrixRun_plain hp _ _).trans ht))

end Answers

/-! ## MFMT (R274) -/

section Formats
variable {e : Env} {r r1 : State} {addr : Word} {o : ObjAt}

/-- The bytes of the format block that an access has reached. -/
def fmtBytes (e : Env) (r r1 : State) (o : ObjAt) : List Byte := readTarget r1 (waveActor r e.w) o.pa 64 o.target

theorem readFmt_valid (ho : reaches r e addr 64 false o r1) (hv : (parseFmt (fmtBytes e r r1 o)).isSome = true) :
    readFmt r e.w (fmtOp addr) = (.ok (fmtBytes e r r1 o, accessLatency r1 e.w true false [(o.target, 64)]),
      noteGuards r1 e.w.uid [(o.target, 64)]) := by
  unfold readFmt
  dsimp only
  rw [show (fmtOp addr).base = addr from rfl, ho]
  exact if_neg (by simpa [fmtBytes, Option.isSome_iff_ne_none] using hv)

theorem readFmt_invalid (ho : reaches r e addr 64 false o r1) (hv : parseFmt (fmtBytes e r r1 o) = none) :
    readFmt r e.w (fmtOp addr) = (.error (.trap .mfmtInvalid 0 none), r1) := by
  unfold readFmt
  dsimp only
  rw [show (fmtOp addr).base = addr from rfl, ho]
  exact if_pos (by simpa [fmtBytes] using hv)

/-- With no drain of the wave waiting, MFMT reads its block at once. -/
theorem fmtRun_reads (hf : fenced e.w .mx = false) (ho : overlapsLog r e.w (fmtOp addr) = false)
    (ht : ((r.core e.w.core).tileOps.all fun t => t.uid != e.w.uid) = true) : fmtRun e r addr =
    match readFmt r e.w (fmtOp addr) with
    | (.error x, _) => memOutcome e .mx false x
    | (.ok (bs, lat), s1) =>
      let p := pend s1 e (some lat) [] .mx false 0
      .done (p.2.modWave e.w.uid fun w => { (w.modPath e.iss.place fun q => { q with park := .hold p.1 }) with
        pending := w.pending.map fun c => if c.seqNo = p.1 then { c with fmt := some bs } else c }) := by
  have hnone : ((r.core e.w.core).tileOps.any fun t => t.uid == e.w.uid && opsOverlap r e.w t.entry.op (fmtOp addr) && !t.loads) = false := by
    rw [List.any_eq_false]
    intro t hm
    have hu := List.all_eq_true.mp ht t hm
    simp only [bne_iff_ne, ne_eq] at hu
    simp [hu]
  refine (if_neg ?_).trans rfl
  rw [hf, ho, hnone]
  exact Bool.false_ne_true

end Formats

/-! ## MDRAIN and MACCLD (R286 to R289) -/

section TileOps
variable {e : Env} {r : State} {f : FmtBlock} {fb : List Byte} {acc : Nat} {op : MemOp}

/-- The entry of the operand log that a tile operation would have. -/
def tileEntry (e : Env) (r : State) (op : MemOp) : LogEntry :=
  { word := e.iss.word, bundle := e.iss.bundle, slot := e.iss.slot, place := e.iss.place, op := op
    seqNo := (pend r e none [] .mx true 0).1, path := .mx, rep := e.iss.iteration.isSome && decide (1 < e.w.rep.left) }

/-- A tile operation as it waits on its core. -/
def tileWait (e : Env) (r : State) (op : MemOp) : TileWait :=
  { order := r.counter, clock := r.clock, uid := e.w.uid, entry := tileEntry e r op }

/-- A tile operation takes its place behind what its core already has (R286). -/
theorem tileOpIssue_queues (hf : fenced e.w .mx = false) (ho : overlapsLog r e.w op = false) :
    tileOpIssue e r f op =
      let c := claimTile (r.core e.w.core) e.w f.acc op.code r.counter
      .done (runTileOps ({ (pend r e none [] .mx true 0).2 with counter := r.counter + 1 }.setCore e.w.core
        { c with tileOps := c.tileOps ++ [tileWait e r op] })
        e.w.core) := by
  rw [← pend_core r e none [] .mx true 0]
  have hready : ¬ (fenced e.w .mx || overlapsLog r e.w op) = true := by rw [hf, ho]; exact Bool.false_ne_true
  exact if_neg hready

section Format
variable (hs : e.w.fmtState = some f) (hb : e.w.fmt = some fb) (hacc : ¬ (f.acc = 1 ∧ acc % 2 = 1))
  (hforeign : foreignTile (r.core e.w.core) e.w f.acc acc = none)
include hs hb hacc hforeign

theorem tileOpFmt_load : tileOpFmt e r acc true = .ok (f, fb) := by
  unfold tileOpFmt
  rw [hs, hb]
  dsimp only
  rw [if_neg (by simpa using hacc), hforeign]
  rfl

theorem tileOpFmt_drain (hm : fmtMatches (r.core e.w.core) f.acc acc = true) : tileOpFmt e r acc false = .ok (f, fb) := by
  unfold tileOpFmt
  rw [hs, hb]
  dsimp only
  rw [if_neg (by simpa using hacc), hforeign]
  exact if_neg (by simp [hm])

theorem drainRun_checks {base second : Word} (hm : fmtMatches (r.core e.w.core) f.acc acc = true)
    (hc : (second != 0) = true → f.copy ≠ 0) : drainRun e r acc base second =
      match drainCheck r e.w f base second (second != 0) with
      | some (c, x) => .raiseAt c x
      | none => tileOpIssue e r f { plainOp .mdrain with
          base := base, arg := second, option := second != 0, code := acc, vals := fmtWords fb
          lanes := drainLanes f base second (second != 0) } := by
  unfold drainRun
  rw [tileOpFmt_drain hs hb hacc hforeign hm]
  exact if_neg (by simpa using hc)

theorem fillRun_issues {base : Word} (hr : reformatWaits (r.core e.w.core) f.acc acc = false)
    (hc : tileCheck r e.w base f.dPitch f.rawRow false = none) : fillRun e r acc base =
      tileOpIssue e r f { plainOp .maccld with
        base := base, code := acc, vals := fmtWords fb, lanes := tileChunks base f.dPitch f.rawRow } := by
  unfold fillRun
  rw [tileOpFmt_load hs hb hacc hforeign]
  dsimp only
  rw [hc]
  exact if_neg (by rw [hr]; exact Bool.false_ne_true)

end Format
end TileOps

/-! ## MSTAT (R290) -/

section Status
variable {s : State} {e : Env} {acc : Byte}

theorem exec_mstat {d : OpCode} (hi : Issues (.mstat d acc) s e) (hp : plainLanes e) : exec (.mstat d acc) s =
    .next (finished e (past (.mstat d acc) s e) 4 (e.all d (w64 (tileStatus (past (.mstat d acc) s e) e.w acc.toNat)))) := by
  change execMstat d acc s = _
  unfold execMstat
  refine runInstr_done hi.1 hi.2 ((unsupportedWave_plain hp _).trans ?_)
  rw [show maskOf e.lanes = e.p.mask from maskOf_lanesOf _]
  rfl

theorem tileStatus_unclaimed {w : Wave} {n : Nat} (h : mfind (s.core w.core).tiles n = none) : tileStatus s w n = 0xF0000 := by
  unfold tileStatus
  dsimp only
  rw [h]
  rfl

theorem tileStatus_foreign {w : Wave} {n : Nat} {t : Tile} (h : mfind (s.core w.core).tiles n = some t) (hf : t.fmt ≠ 3)
    (ho : t.owner ≠ (w.lid, w.bid, w.run)) : tileStatus s w n = 16 := by
  unfold tileStatus
  dsimp only
  rw [h]
  dsimp only
  rw [if_neg hf]
  exact if_pos ho

end Status

/-! ## Batches (R281, R282) -/

theorem batchDone_iff (w : Wave) (b : Batch) : w.batchDone b = true ↔ ∀ c ∈ b.contribs, c ∉ w.liveContribs := by
  simp [Wave.batchDone]

section Waits
variable {e : Env} {r : State} {n : Nat}

theorem batchWait_unknown (h : (e.w.batches.find? fun b => b.n == n) = none) : batchWait e r n = .raise .batchUnknown := by
  unfold batchWait
  rw [h]

theorem batchWait_known {b : Batch} (h : (e.w.batches.find? fun b => b.n == n) = some b) : batchWait e r n =
    if e.w.batchDone b then
      e.noResult (r.modWave e.w.uid fun w => { w with batches := w.batches.filter fun x => x.n != n })
    else .wait := by
  unfold batchWait
  rw [h]

end Waits

/-! ## MSTAGE (R283) -/

section Stages
variable {e : Env} {r : State} {n : Nat} {a b : Word}

/-- The stage is one of the wave's block's run. -/
def ownStage (e : Env) (g : Stage) : Bool := g.lid == e.w.lid && g.bid == e.w.bid && g.run == e.w.run
/-- The core's stages but for stage `n` of the block. -/
def otherStages (e : Env) (r : State) (n : Nat) : List Stage := (r.core e.w.core).stages.filter fun g => !(ownStage e g && g.n == n)

/-- The stages of a core set, and its groups tried. -/
def withStages (e : Env) (r : State) (xs : List Stage) : State :=
  (r.setCore e.w.core { r.core e.w.core with stages := xs }).schedule 0 (.matrixGroupStart e.w.core)

theorem stageRun_unbinds (h : b = 0) : stageRun e r n a b = e.noResult (withStages e r (otherStages e r n)) := if_pos h

section Binds
variable (h : b ≠ 0)
include h

theorem stageRun_barrier {x : Cause} (hx : stageBarrierCheck r e.w a = some x) : stageRun e r n a b = .raiseAt x a := by
  unfold stageRun
  dsimp only
  rw [if_neg h, hx]

variable (hx : stageBarrierCheck r e.w a = none)
include hx

theorem stageRun_base {x : Cause} (hy : stageBaseCheck r e.w b = some x) : stageRun e r n a b = .raiseAt x b := by
  unfold stageRun
  dsimp only
  rw [if_neg h, hx, hy]

variable (hy : stageBaseCheck r e.w b = none)
include hy

/-- Past its checks (R283). -/
theorem stageRun_binds : ∃ loc, stageRun e r n a b =
    if (otherStages e r n).any fun g => ownStage e g && g.base == b.toNat % 2 ^ 20 / 2 * 2 then .raise .stageBarrier
    else if (r.core e.w.core).stages.any fun g => ownStage e g && g.n == n && g.barrier == a &&
        g.base == b.toNat % 2 ^ 20 / 2 * 2 && g.gate == b.getLsbD 0 then e.noResult r
    else e.noResult (withStages e r (otherStages e r n ++
      [{ lid := e.w.lid, bid := e.w.bid, run := e.w.run, n := n, barrier := a, loc := loc, base := b.toNat % 2 ^ 20 / 2 * 2
         gate := b.getLsbD 0, fill := 0, broken := false }])) := by
  unfold stageRun
  dsimp only
  rw [if_neg h, hx, hy]
  exact ⟨_, rfl⟩

end Binds
end Stages

/-- Settles O38: each instruction by its run, past the one test of its lanes. -/
theorem formatsTilesBatchesAndStages : Obligations.FormatsTilesBatchesAndStages := by
  unfold Obligations.FormatsTilesBatchesAndStages
  refine ⟨fun s e a o r1 => ?_, fun s e acc d a b f fb hp => ?_, fun s e n hp => ⟨fun hi => ?_, fun hi => ⟨fun h => ?_, fun b h => ⟨fun hc => ?_, fun hc => ?_⟩⟩⟩,
    fun s e n a b hp => ?_⟩
  · intro i r bs hi hfree ht hr
    obtain ⟨hf, ho, hp⟩ := hfree
    have hform : exec i s = runInstr i s fun e s => matrixRun e s ((fun e s => fmtRun e s (e.u a)) e) := rfl
    have hrun := fmtRun_reads hf ho ht
    refine ⟨fun hv => ⟨accessLatency r1 e.w true false [(o.target, 64)], ?_⟩, fun hv => ?_⟩
    · rw [readFmt_valid hr hv] at hrun
      exact matrix_done (f := fun e s => fmtRun e s (e.u a)) hi hp hform hrun
    · rw [readFmt_invalid hr hv] at hrun
      exact matrix_trap (f := fun e s => fmtRun e s (e.u a)) hi hp hform hrun
  · intro queued ready
    have hqueued : ∀ {i : Instr} {op : MemOp} {f' : Env → State → Effect}, Issues i s e → pathFree (past i s e) e .mx op →
        (exec i s = runInstr i s fun e s => matrixRun e s (f' e)) → op.code = acc.toNat →
        f' e (past i s e) = tileOpIssue e (past i s e) f op → queued i op := by
      intro i op f' hi hfree hform hcode hrun
      obtain ⟨hf, ho, -⟩ := hfree
      have hissue := hrun.trans (tileOpIssue_queues hf ho)
      rw [hcode] at hissue
      exact ⟨tileWait e (past i s e) op, rfl, past_clock i s e, rfl, rfl, rfl, matrix_done hi hp hform hissue⟩
    refine ⟨?_, ?_, ?_⟩
    · intro i copy op hready hm hc
      obtain ⟨hi, hs, hb, hacc, hforeign, hfree⟩ := hready
      have hform : exec i s = runInstr i s fun e s => matrixRun e s ((fun e s => drainRun e s acc.toNat (e.u a) (e.u b)) e) := rfl
      have hrun := drainRun_checks (base := e.u a) hs hb hacc hforeign hm hc
      refine ⟨fun hd => ?_, fun c x hd => ?_⟩
      · rw [hd] at hrun
        exact hqueued hi hfree hform rfl hrun
      · rw [hd] at hrun
        exact matrix_trap hi hp hform hrun
    · intro i op hready hr hc
      obtain ⟨hi, hs, hb, hacc, hforeign, hfree⟩ := hready
      have hform : exec i s = runInstr i s fun e s => matrixRun e s ((fun e s => fillRun e s acc.toNat (e.u a)) e) := rfl
      exact hqueued hi hfree hform rfl (fillRun_issues hs hb hacc hforeign hr hc)
    · intro i gives hi
      have hgives : ∀ {x}, tileStatus (past i s e) e.w acc.toNat = x → gives x := fun hx => hx ▸ exec_mstat hi hp
      refine ⟨hgives rfl, fun h => hgives (tileStatus_unclaimed ?_), fun t h hf ho => hgives (tileStatus_foreign ?_ hf ho)⟩
      · rwa [past_core]
      · rwa [past_core]
  · exact matrix_done (f := fun e s => batchClose e s n.toNat) hi hp rfl rfl
  · exact matrix_trap (f := fun e s => batchWait e s n.toNat) hi hp rfl (batchWait_unknown h)
  · exact matrix_done (f := fun e s => batchWait e s n.toNat) hi hp rfl
      ((batchWait_known h).trans (if_pos ((batchDone_iff e.w b).mpr hc)))
  · refine matrix_wait (f := fun e s => batchWait e s n.toNat) hi hp rfl ((batchWait_known h).trans (if_neg fun hd => ?_))
    obtain ⟨c, hm, hl⟩ := hc
    exact (batchDone_iff e.w b).mp hd c hm hl
  · intro i r c mine others set base gate same hi
    have hform : exec i s = runInstr i s fun e s => matrixRun e s ((fun e s => stageRun e s n.toNat (e.u a) (e.u b)) e) := rfl
    refine ⟨fun h => matrix_done hi hp hform (stageRun_unbinds h), fun h x hx => matrix_trap hi hp hform (stageRun_barrier h hx),
      fun h hx x hy => matrix_trap hi hp hform (stageRun_base h hx hy), fun h hx hy => ?_⟩
    obtain ⟨loc, hbind⟩ := stageRun_binds (n := n.toNat) h hx hy
    have htaken : ((otherStages e r n.toNat).any fun g => ownStage e g && g.base == base) = true ↔
        ∃ g ∈ others, mine g = true ∧ g.base = base := by
      simp only [List.any_eq_true, Bool.and_eq_true, beq_iff_eq]
      rfl
    have hsame : (c.stages.any fun g => ownStage e g && g.n == n.toNat && g.barrier == e.u a && g.base == base && g.gate == gate) = true ↔
        same := by
      simp only [List.any_eq_true, Bool.and_eq_true, beq_iff_eq, and_assoc]
      rfl
    refine ⟨fun ht => ?_, fun ht hs => ?_, fun ht hs => ⟨loc, ?_⟩⟩
    · exact matrix_trap hi hp hform (hbind.trans (if_pos (htaken.mpr ht)))
    · exact matrix_done hi hp hform (hbind.trans ((if_neg fun h => ht (htaken.mp h)).trans (if_pos (hsame.mpr hs))))
    · exact matrix_done hi hp hform (hbind.trans ((if_neg fun h => ht (htaken.mp h)).trans (if_neg fun h => hs (hsame.mp h))))

end Sys2Proof.Machine
end

section
/-! PROOF. Command instructions join their channel, and what acceptance does (O40: R295 to R297, R300, R302, R305, R313, R323). -/

namespace Sys2Proof.Machine

/-! ## A core changed twice -/

theorem mput_mput {α : Type} (m : SMap α) (k : Nat) (a b : α) : mput (mput m k a) k b = mput m k b := by
  induction m with
  | nil => simp [mput]
  | cons e m ih =>
    obtain ⟨j, y⟩ := e
    by_cases h1 : j = k
    · simp [mput, h1]
    · by_cases h2 : k < j
      · simp [mput, h1, h2]
      · simpa [mput, h1, h2] using ih

theorem merase_mput {α : Type} (m : SMap α) (k : Nat) (a : α) : merase (mput m k a) k = merase m k := by
  induction m with
  | nil => simp [mput, merase]
  | cons e m ih =>
    obtain ⟨j, y⟩ := e
    unfold merase at ih ⊢
    by_cases h1 : j = k
    · simp [mput, h1]
    · by_cases h2 : k < j
      · simp [mput, h1, h2]
      · simpa [mput, h1, h2] using ih

theorem setCore_setCore (s : State) (k : Nat) {a : Core} (h : a ≠ emptyCore) (b : Core) :
    (s.setCore k a).setCore k b = s.setCore k b := by
  have hmap : mset emptyCore (mset emptyCore s.cores k a) k b = mset emptyCore s.cores k b := by
    unfold mset
    rw [if_neg h, mput_mput, merase_mput]
  unfold State.setCore
  rw [hmap]

/-! ## Channels (R296) -/

section Channels
variable {c : Core} {chan : Nat}

theorem chan_setChan (h : chan < c.channels.length) (cs : List Command) : (c.setChan chan cs).chan chan = cs := by
  simp [Core.chan, Core.setChan, List.getD_eq_getElem?_getD, h]

theorem setChan_setChan (c : Core) (chan : Nat) (xs ys : List Command) : (c.setChan chan xs).setChan chan ys = c.setChan chan ys := by
  simp [Core.setChan, List.set_set]

/-- A core with a command in a channel is not a core at reset. -/
theorem setChan_ne_empty (h : chan < c.channels.length) {cs : List Command} (hcs : cs ≠ []) : c.setChan chan cs ≠ emptyCore := by
  intro he
  have hchan : emptyCore.chan chan = [] := by
    unfold Core.chan emptyCore
    match chan with
    | 0 | 1 | 2 | 3 | _ + 4 => rfl
  exact hcs ((chan_setChan h cs).symm.trans ((congrArg (fun c => Core.chan c chan) he).trans hchan))

/-- The command that waits in a channel whose others are all accepted. -/
theorem waiting_last {cs : List Command} {y : Command} (hl : cs.length < 16) (hcs : ∀ z ∈ cs, z.waitSeq = none)
    (hy : y.waitSeq.isSome = true) : ((cs ++ [y]).take 16).find? (fun z => z.waitSeq.isSome) = some y := by
  rw [List.take_of_length_le (by simp; omega), List.find?_append, List.find?_eq_none.mpr fun z hz => by simp [hcs z hz]]
  simp [hy]

end Channels

/-! ## Arm records (R305) -/

section Arms
variable {s : State} {core tag : Nat} {x : Command}

/-- The record is of the command's block's run, with its key. -/
def ofCommand (x : Command) (a : ArmRec) : Bool := a.lid == x.lid && a.bid == x.bid && a.run == x.run && a.key == x.descAddr

/-- A core's records at a multicast's acceptance. -/
def commandArms (x : Command) (core tag : Nat) (arms : List ArmRec) : List ArmRec :=
  (arms.filter fun a => !(ofCommand x a && a.state == .cancelled)).map fun a =>
    if ofCommand x a && a.state == .armed then { a with state := .committed, source := core, tag := tag } else a

/-- The core with those records. -/
def withArms (s : State) (x : Command) (core tag k : Nat) : Core :=
  { s.core k with arms := commandArms x core tag (s.core k).arms }

theorem commitArms_cons (k : Nat) (ts : List Nat) :
    commitArms s core x tag (k :: ts) = commitArms (s.setCore k (withArms s x core tag k)) core x tag ts := by
  have hkept : ((s.core k).arms.filter fun a => !((ofCommand x a && a.state != .committed) && a.state == .cancelled)) =
      (s.core k).arms.filter fun a => !(ofCommand x a && a.state == .cancelled) := by
    refine List.filter_congr fun a _ => ?_
    cases hs : a.state <;> cases ofCommand x a <;> rfl
  have harms : (((s.core k).arms.filter fun a => !((ofCommand x a && a.state != .committed) && a.state == .cancelled)).map fun a =>
      if ofCommand x a && a.state != .committed then { a with state := .committed, source := core, tag := tag } else a) =
      commandArms x core tag (s.core k).arms := by
    rw [hkept]
    refine List.map_congr_left fun a ha => ?_
    have hk := (List.mem_filter.mp ha).2
    cases hs : a.state <;> simp_all
  unfold withArms
  rw [← harms]
  rfl

/-- Only records change, of the cores named. -/
theorem commitArms_frame (ts : List Nat) : ∀ s : State,
    commitArms s core x tag ts = { s with cores := (commitArms s core x tag ts).cores } ∧
    (∀ k, (commitArms s core x tag ts).core k = { s.core k with arms := ((commitArms s core x tag ts).core k).arms }) ∧
    (ts.Nodup → ∀ k, ((commitArms s core x tag ts).core k).arms =
      if k ∈ ts then commandArms x core tag (s.core k).arms else (s.core k).arms) := by
  induction ts with
  | nil => exact fun s => ⟨rfl, fun _ => rfl, fun _ k => by simp [commitArms]⟩
  | cons t ts ih =>
    intro s
    obtain ⟨hframe, hcore, harms⟩ := ih (s.setCore t (withArms s x core tag t))
    rw [commitArms_cons]
    refine ⟨hframe.trans rfl, fun k => ?_, fun hn k => ?_⟩
    · rw [hcore k]
      by_cases hk : k = t
      · subst hk
        rw [core_setCore]
        rfl
      · rw [core_setCore_of_ne _ _ hk]
    · obtain ⟨ht, hts⟩ := List.nodup_cons.mp hn
      rw [harms hts k]
      by_cases hk : k = t
      · subst hk
        rw [core_setCore]
        simp [ht, withArms]
      · rw [core_setCore_of_ne _ _ hk]
        simp [hk]

end Arms

/-! ## Acceptance (R296, R297, R302, R305, R323) -/

section Acceptance
variable {s : State} {core chan seq : Nat} {x : Command}

/-- The next tag of a channel (R297). -/
def nextTag (s : State) (core chan : Nat) : Nat := chan * 2 ^ 16 + (s.core core).copySeq

/-- The command as its channel takes it. -/
def takenCommand (s : State) (core chan : Nat) (x : Command) : Command :=
  { x with
    tag := nextTag s core chan, waitSeq := none
    targets := x.targets.filter fun t => (keyArms (s.core t) x.lid x.bid x.run x.descAddr).any fun a => a.state != .cancelled
    mapGen := mget 0 s.mapGens (((s.ctx? x.fn x.ctx).map Context.asid).getD 0) }

/-- The core with the command at the end of its channel. -/
def takingCore (s : State) (core chan : Nat) (x : Command) : Core :=
  { (s.core core).setChan chan ((s.core core).chan chan ++ [takenCommand s core chan x]) with
    copySeq := ((s.core core).copySeq + 1) % 2 ^ 16 }

/-- The tag in the instruction's result. -/
def tagged (seq tag : Nat) (k : Completion) : Completion :=
  if k.seqNo = seq then { k with writes := k.writes.map fun y => { y with value := w64 tag } } else k

/-- The wave goes on, its result the tag. -/
def taggedWave (seq tag : Nat) (w : Wave) : Wave := { (w.unhold seq) with pending := w.pending.map (tagged seq tag) }

/-- The machine with the command in its place: `c` its core, `y` the command that waits, `x1` the command that is taken. -/
def takenState (s : State) (core tag : Nat) (c : Core) (y x1 : Command) : State :=
  holdHalo (commitArms (s.setCore core c) core y tag y.targets) core tag x1

/-- The machine at the acceptance, but for the start of the command's execution. -/
def acceptedState (s : State) (core tag seq : Nat) (c : Core) (y x1 : Command) : State :=
  ((takenState s core tag c y x1).modAny y.uid (taggedWave seq tag)).schedule 2 (.instructionComplete y.uid seq)

theorem acceptNext_of_first {y : Command} (hfind : (((s.core core).chan chan).take 16).find? (fun z => z.waitSeq.isSome) = some y)
    (hy : y.waitSeq = some seq) (hu : unarmed s y.lid y.bid y.run y.descAddr y.targets = []) :
    ∃ starts : Bool,
      let x1 := takenCommand s core chan y
      let cs := ((s.core core).chan chan).map fun z => if z.waitSeq == some seq && z.uid == y.uid then x1 else z
      let t := acceptedState s core (nextTag s core chan) seq
        { (s.core core).setChan chan cs with copySeq := ((s.core core).copySeq + 1) % 2 ^ 16 } y x1
      acceptNext s core chan = if starts then t.schedule 0 (.copyCommandExecute core chan) else t := by
  unfold acceptNext
  dsimp only
  rw [hfind]
  dsimp only
  rw [hu]
  dsimp only
  rw [hy]
  exact ⟨_, rfl⟩

/-- The command as it waits. -/
def asWaiting (x : Command) (seq : Nat) : Command := { x with waitSeq := some seq }

section Joined
variable (s core chan)

theorem core_joined (cs : List Command) (k : Nat) : (s.setCore core ((s.core core).setChan chan cs)).core k =
    if k = core then (s.core core).setChan chan cs else s.core k := by
  by_cases hk : k = core
  · subst hk
    rw [core_setCore, if_pos rfl]
  · rw [core_setCore_of_ne _ _ hk, if_neg hk]

theorem arms_joined (cs : List Command) (k : Nat) :
    ((s.setCore core ((s.core core).setChan chan cs)).core k).arms = (s.core k).arms := by
  rw [core_joined]
  split
  · next hk => rw [hk]; rfl
  · rfl

theorem unarmed_joined (cs : List Command) (lid bid : Nat) (run : Run) (key : Word) (ts : List Nat) :
    unarmed (s.setCore core ((s.core core).setChan chan cs)) lid bid run key ts = unarmed s lid bid run key ts := by
  unfold unarmed keyArms
  simp only [arms_joined]

theorem nextTag_joined (cs : List Command) (k : Nat) :
    nextTag (s.setCore core ((s.core core).setChan chan cs)) core k = nextTag s core k := by
  unfold nextTag
  rw [core_setCore]
  rfl

theorem takenCommand_joined (cs : List Command) (x : Command) (seq : Nat) :
    takenCommand (s.setCore core ((s.core core).setChan chan cs)) core chan (asWaiting x seq) = takenCommand s core chan x := by
  unfold takenCommand keyArms
  rw [nextTag_joined]
  simp only [arms_joined]
  rfl

end Joined

/-- The waiting command joins the end of its channel. -/
theorem queueCommand_accepts (hc : chan < (s.core core).channels.length) (hl : ((s.core core).chan chan).length < 16)
    (hw : ∀ y ∈ (s.core core).chan chan, y.waitSeq = none) (hu : unarmed s x.lid x.bid x.run x.descAddr x.targets = []) :
    ∃ starts : Bool,
      let t := acceptedState s core (nextTag s core chan) seq (takingCore s core chan x) (asWaiting x seq) (takenCommand s core chan x)
      queueCommand s core chan x seq = if starts then t.schedule 0 (.copyCommandExecute core chan) else t := by
  have hne : (s.core core).chan chan ++ [asWaiting x seq] ≠ [] := by simp
  have hmap : ((s.core core).chan chan ++ [asWaiting x seq]).map (fun z : Command =>
      if z.waitSeq == some seq && z.uid == (asWaiting x seq).uid then takenCommand s core chan x else z) =
      (s.core core).chan chan ++ [takenCommand s core chan x] := by
    rw [List.map_append, (List.map_congr_left fun y hy => by simp [hw y hy]).trans (List.map_id _)]
    simp [asWaiting]
  obtain ⟨starts, h⟩ := acceptNext_of_first
    (s := s.setCore core ((s.core core).setChan chan ((s.core core).chan chan ++ [asWaiting x seq])))
    (core := core) (chan := chan) (seq := seq) (y := asWaiting x seq)
    (by rw [core_setCore, chan_setChan hc]; exact waiting_last hl hw rfl) rfl ((unarmed_joined ..).trans hu)
  rw [takenCommand_joined, nextTag_joined, core_setCore, chan_setChan hc] at h
  dsimp only at h
  rw [hmap, setChan_setChan] at h
  refine ⟨starts, h.trans ?_⟩
  unfold acceptedState takenState
  rw [setCore_setCore _ _ (setChan_ne_empty hc hne)]
  rfl

/-! What the machine holds then -/

section Accepted
variable {tag : Nat} {c : Core} {y x1 : Command}

theorem holdHalo_frame (s : State) (core tag : Nat) (x : Command) :
    holdHalo s core tag x = { s with blocks := (holdHalo s core tag x).blocks } := by
  unfold holdHalo
  split
  · split <;> rfl
  · rfl

theorem takenState_frame : takenState s core tag c y x1 =
    { s with cores := (takenState s core tag c y x1).cores, blocks := (takenState s core tag c y x1).blocks } := by
  unfold takenState
  rw [holdHalo_frame, (commitArms_frame y.targets (s.setCore core c)).1]
  rfl

theorem takenState_core (k : Nat) : (takenState s core tag c y x1).core k =
    (commitArms (s.setCore core c) core y tag y.targets).core k := by
  unfold takenState
  rw [holdHalo_frame]
  rfl

/-- Of the cores the acceptance is what the records' commitment left, but for waves in retirement trackers. -/
theorem acceptedState_core (k : Nat) :
    ((acceptedState s core tag seq c y x1).core k).arms = ((commitArms (s.setCore core c) core y tag y.targets).core k).arms ∧
    ((acceptedState s core tag seq c y x1).core k).channels = ((s.setCore core c).core k).channels ∧
    ((acceptedState s core tag seq c y x1).core k).copySeq = ((s.setCore core c).core k).copySeq := by
  have h := core_modAny (takenState s core tag c y x1) y.uid (taggedWave seq tag) k
  rw [takenState_core] at h
  have hc := (commitArms_frame (core := core) (tag := tag) (x := y) y.targets (s.setCore core c)).2.1 k
  exact ⟨(congrArg Core.arms h :), (congrArg Core.channels h :).trans (congrArg Core.channels hc :),
    (congrArg Core.copySeq h :).trans (congrArg Core.copySeq hc :)⟩

theorem acceptedState_wave (u : Nat) : (acceptedState s core tag seq c y x1).wave? u =
    (s.wave? u).map fun w => if w.uid = y.uid then taggedWave seq tag w else w := by
  unfold acceptedState
  change (((takenState s core tag c y x1).modAny y.uid (taggedWave seq tag)).wave? u) = _
  have huid : ∀ w, (taggedWave seq tag w).uid = w.uid := fun _ => rfl
  rw [wave?_modAny _ _ _ huid, takenState_frame]
  rfl

theorem acceptedState_agenda : (s.clock + 2, Instr.instructionComplete y.uid seq) ∈ (acceptedState s core tag seq c y x1).agenda := by
  have h := mem_schedule ((takenState s core tag c y x1).modAny y.uid (taggedWave seq tag)) 2 (.instructionComplete y.uid seq)
  have hclock : ((takenState s core tag c y x1).modAny y.uid (taggedWave seq tag)).clock = s.clock :=
    (congrArg State.clock (takenState_frame (s := s) (core := core) (tag := tag) (c := c) (y := y) (x1 := x1)) :)
  exact hclock ▸ h

theorem acceptedState_memory : (acceptedState s core tag seq c y x1).dram = s.dram ∧
    (acceptedState s core tag seq c y x1).scratch = s.scratch :=
  have h := takenState_frame (s := s) (core := core) (tag := tag) (c := c) (y := y) (x1 := x1)
  ⟨(congrArg State.dram h :), (congrArg State.scratch h :)⟩

/-- A HALO of a held run is the last of its run's held items. -/
theorem takenState_held {b : Block} (hop : x1.op = opHalo) (hheld : runHeld s x1.lid x1.bid x1.run = true)
    (hb : s.block? x1.lid x1.bid x1.run = some b) : (takenState s core tag c y x1).block? x1.lid x1.bid x1.run =
      some { b with heldItems := b.heldItems ++ [.halo core tag x1.table x1.faceMask none] } := by
  have hframe := (commitArms_frame (core := core) (tag := tag) (x := y) y.targets (s.setCore core c)).1
  have hb' : (commitArms (s.setCore core c) core y tag y.targets).block? x1.lid x1.bid x1.run = some b := by
    rw [hframe]; exact hb
  have hheld' : runHeld (commitArms (s.setCore core c) core y tag y.targets) x1.lid x1.bid x1.run = true := by
    rw [hframe]; exact hheld
  unfold takenState holdHalo
  rw [hheld', hop, hb', if_pos (by simp)]
  exact block?_setBlock hb' ⟨rfl, rfl, rfl⟩

/-- No path of the wave waits for the acceptance any more. -/
theorem taggedWave_goes (seq tag : Nat) (w : Wave) : ∀ q ∈ (taggedWave seq tag w).allPaths, q.park ≠ .hold seq := by
  intro q hq
  have hpaths : (w.unhold seq).allPaths = w.allPaths.map fun p =>
      if p.park.heldBy seq then { p with park := .running } else p := by
    unfold Wave.unhold
    exact allPaths_mapPaths w _
  change q ∈ (w.unhold seq).allPaths at hq
  rw [hpaths] at hq
  obtain ⟨p, -, rfl⟩ := List.mem_map.mp hq
  by_cases hp : p.park.heldBy seq = true
  · rw [if_pos hp]
    exact Park.noConfusion
  · rw [if_neg hp]
    intro h
    exact hp (by simp [h, Park.heldBy])

theorem taggedWave_value (seq tag : Nat) (w : Wave) : ∀ k ∈ (taggedWave seq tag w).pending, k.seqNo = seq →
    ∀ y ∈ k.writes, y.value = w64 tag := by
  intro k hk hseq y hy
  obtain ⟨j, -, rfl⟩ := List.mem_map.mp (show k ∈ w.pending.map (tagged seq tag) from hk)
  have hj : j.seqNo = seq := by
    unfold tagged at hseq
    split at hseq <;> exact hseq
  rw [tagged, if_pos hj] at hy
  obtain ⟨z, -, rfl⟩ := List.mem_map.mp hy
  rfl

end Accepted

/-! A command that joins a channel with room -/

section Joining
variable (hc : chan < (s.core core).channels.length) (hl : ((s.core core).chan chan).length < 16)
  (hw : ∀ y ∈ (s.core core).chan chan, y.waitSeq = none)

/-- Cores of a multicast without a record of its key. -/
theorem unarmed_eq (s : State) (x : Command) : unarmed s x.lid x.bid x.run x.descAddr x.targets =
    x.targets.filter fun k => (s.core k).arms.all fun a => !ofCommand x a := by
  refine List.filter_congr fun k _ => ?_
  rw [Bool.eq_iff_iff, List.isEmpty_iff, List.all_eq_true]
  exact List.filter_eq_nil_iff.trans (forall₂_congr fun a _ => by rw [Bool.not_eq_true, Bool.not_eq_true']; rfl)

theorem unarmed_none (h : ∀ k ∈ x.targets, ∃ a ∈ (s.core k).arms, ofCommand x a = true) :
    unarmed s x.lid x.bid x.run x.descAddr x.targets = [] := by
  rw [unarmed_eq, List.filter_eq_nil_iff]
  intro k hk hall
  obtain ⟨a, ha, hx⟩ := h k hk
  have hnot := List.all_eq_true.mp hall a ha
  rw [hx] at hnot
  exact Bool.noConfusion hnot

theorem takenCommand_eq (s : State) (core chan : Nat) (x : Command) : takenCommand s core chan x = { x with
    tag := chan * 2 ^ 16 + (s.core core).copySeq, waitSeq := none
    targets := x.targets.filter fun k => (s.core k).arms.any fun a => ofCommand x a && a.state != .cancelled
    mapGen := mget 0 s.mapGens (((s.ctx? x.fn x.ctx).map Context.asid).getD 0) } := by
  unfold takenCommand keyArms
  simp only [List.any_filter]
  rfl

include hc hl hw

/-- At its acceptance the machine is `acceptedState`, but for an event more on the agenda. -/
theorem queueCommand_awaits (hu : unarmed s x.lid x.bid x.run x.descAddr x.targets = []) : Awaits
    (acceptedState s core (nextTag s core chan) seq (takingCore s core chan x) (asWaiting x seq) (takenCommand s core chan x))
    (queueCommand s core chan x seq) := by
  obtain ⟨starts, h⟩ := queueCommand_accepts (seq := seq) hc hl hw hu
  rw [h]
  cases starts
  · exact .refl _
  · exact schedule_awaits _ _ _

variable (hu : unarmed s x.lid x.bid x.run x.descAddr x.targets = [])
include hu

theorem queueCommand_channel : ((queueCommand s core chan x seq).core core).chan chan =
    (s.core core).chan chan ++ [takenCommand s core chan x] := by
  have hchannels := (acceptedState_core (s := s) (core := core) (tag := nextTag s core chan) (seq := seq)
    (c := takingCore s core chan x) (y := asWaiting x seq) (x1 := takenCommand s core chan x) core).2.1
  rw [core_setCore] at hchannels
  rw [(queueCommand_awaits hc hl hw hu).frame]
  unfold Core.chan
  change (State.core (acceptedState ..) core).channels.getD chan [] = _
  rw [hchannels]
  exact chan_setChan hc _

theorem queueCommand_copySeq : ((queueCommand s core chan x seq).core core).copySeq = ((s.core core).copySeq + 1) % 2 ^ 16 := by
  have hseq := (acceptedState_core (s := s) (core := core) (tag := nextTag s core chan) (seq := seq)
    (c := takingCore s core chan x) (y := asWaiting x seq) (x1 := takenCommand s core chan x) core).2.2
  rw [core_setCore] at hseq
  rw [(queueCommand_awaits hc hl hw hu).frame]
  exact hseq

theorem queueCommand_arms (hn : x.targets.Nodup) (k : Nat) : ((queueCommand s core chan x seq).core k).arms =
    if k ∈ x.targets then commandArms x core (nextTag s core chan) (s.core k).arms else (s.core k).arms := by
  have harms := (acceptedState_core (s := s) (core := core) (tag := nextTag s core chan) (seq := seq)
    (c := takingCore s core chan x) (y := asWaiting x seq) (x1 := takenCommand s core chan x) k).1
  have hcommit := (commitArms_frame (core := core) (tag := nextTag s core chan) (x := asWaiting x seq) x.targets
    (s.setCore core (takingCore s core chan x))).2.2 hn k
  have hkept : ((s.setCore core (takingCore s core chan x)).core k).arms = (s.core k).arms := by
    by_cases hk : k = core
    · subst hk
      rw [core_setCore]
      rfl
    · rw [core_setCore_of_ne _ _ hk]
  rw [hkept] at hcommit
  rw [(queueCommand_awaits hc hl hw hu).frame]
  exact harms.trans hcommit

theorem queueCommand_wave {w : Wave} (hwave : s.wave? x.uid = some w) :
    (queueCommand s core chan x seq).wave? x.uid = some (taggedWave seq (nextTag s core chan) w) := by
  rw [(queueCommand_awaits hc hl hw hu).frame]
  change (acceptedState ..).wave? x.uid = _
  rw [acceptedState_wave, hwave, Option.map_some]
  exact congrArg some (if_pos (wave?_uid hwave))

theorem queueCommand_completes : (s.clock + 2, Instr.instructionComplete x.uid seq) ∈ (queueCommand s core chan x seq).agenda :=
  (queueCommand_awaits hc hl hw hu).kept _ acceptedState_agenda

theorem queueCommand_memory : (queueCommand s core chan x seq).dram = s.dram ∧
    (queueCommand s core chan x seq).scratch = s.scratch := by
  have h := (queueCommand_awaits (seq := seq) hc hl hw hu).frame
  obtain ⟨hdram, hscratch⟩ := acceptedState_memory (s := s) (core := core) (tag := nextTag s core chan) (seq := seq)
    (c := takingCore s core chan x) (y := asWaiting x seq) (x1 := takenCommand s core chan x)
  exact ⟨(congrArg State.dram h :).trans hdram, (congrArg State.scratch h :).trans hscratch⟩

theorem queueCommand_held {b : Block} (hop : x.op = opHalo) (hheld : runHeld s x.lid x.bid x.run = true)
    (hb : s.block? x.lid x.bid x.run = some b) : (queueCommand s core chan x seq).block? x.lid x.bid x.run =
      some { b with heldItems := b.heldItems ++ [.halo core (nextTag s core chan) x.table x.faceMask none] } := by
  have hblocks : (queueCommand s core chan x seq).blocks = (takenState s core (nextTag s core chan) (takingCore s core chan x)
      (asWaiting x seq) (takenCommand s core chan x)).blocks := by
    rw [(queueCommand_awaits (seq := seq) hc hl hw hu).frame]
    rfl
  have hheld1 := takenState_held (s := s) (core := core) (tag := nextTag s core chan) (c := takingCore s core chan x)
    (y := asWaiting x seq) (x1 := takenCommand s core chan x) hop hheld hb
  unfold State.block? at hheld1 ⊢
  rw [hblocks]
  exact hheld1

end Joining

/-! ## A multicast that is refused (R305) -/

theorem acceptNext_refuses {y : Command} (hfind : (((s.core core).chan chan).take 16).find? (fun z => z.waitSeq.isSome) = some y)
    (hy : y.waitSeq = some seq) (hu : unarmed s y.lid y.bid y.run y.descAddr y.targets ≠ []) :
    acceptNext s core chan = refuseCommand s core chan y seq (unarmed s y.lid y.bid y.run y.descAddr y.targets) := by
  unfold acceptNext
  dsimp only
  rw [hfind]
  dsimp only
  rw [hy]
  cases h : unarmed s y.lid y.bid y.run y.descAddr y.targets with
  | nil => exact absurd h hu
  | cons t ts => rfl

theorem queueCommand_refuses (hc : chan < (s.core core).channels.length) (hl : ((s.core core).chan chan).length < 16)
    (hw : ∀ y ∈ (s.core core).chan chan, y.waitSeq = none) (hu : unarmed s x.lid x.bid x.run x.descAddr x.targets ≠ [])
    {w : Wave} (hwave : (s.setCore core ((s.core core).setChan chan ((s.core core).chan chan))).anyWave? x.uid = some w) :
    let q := s.setCore core ((s.core core).setChan chan ((s.core core).chan chan))
    queueCommand s core chan x seq = if x.issuedAt.logged then waveError q w x.issuedAt.bundle .multicastUnarmed
      else commandTrap q w x.issuedAt seq .multicastUnarmed (coreMask (unarmed s x.lid x.bid x.run x.descAddr x.targets)) := by
  have hne : (s.core core).chan chan ++ [asWaiting x seq] ≠ [] := by simp
  have hout : ((s.core core).chan chan ++ [asWaiting x seq]).filter (fun z : Command =>
      !(z.waitSeq == (asWaiting x seq).waitSeq && z.uid == (asWaiting x seq).uid)) = (s.core core).chan chan := by
    rw [List.filter_append, List.filter_eq_self.mpr fun z hz => by simp [hw z hz, asWaiting]]
    simp
  have h := acceptNext_refuses (s := s.setCore core ((s.core core).setChan chan ((s.core core).chan chan ++ [asWaiting x seq])))
    (core := core) (chan := chan) (seq := seq) (y := asWaiting x seq)
    (by rw [core_setCore, chan_setChan hc]; exact waiting_last hl hw rfl) rfl (by rw [unarmed_joined]; exact hu)
  unfold refuseCommand at h
  dsimp only at h
  rw [core_setCore, chan_setChan hc, hout, setChan_setChan, setCore_setCore _ _ (setChan_ne_empty hc hne)] at h
  refine h.trans ?_
  rw [unarmed_joined]
  change (match State.anyWave? _ x.uid with | none => _ | some w => _) = _
  rw [hwave]
  rfl

end Acceptance

/-! ## A command that passes its checks (R300, R313) -/

section Ready
variable {s r : State} {w : Wave} {x : Command} {chan : Nat}

theorem readVirt_move (s : State) (a : Actor) (va n : Nat) : CacheMove s (readVirt s a va n).2 := by
  have hx := xlateParts_move s a .read (partsOf va n)
  unfold readVirt
  split
  · next he => rw [he] at hx; exact hx
  · next he => rw [he] at hx; exact hx

theorem readFor_move (s : State) (w : Wave) (a : Actor) (addr : Word) (n : Nat) : CacheMove s (readFor s w a addr n).2 := by
  unfold readFor
  split
  · exact .refl s
  · next va _ =>
    have hr := readVirt_move s a va n
    split
    · next he => rw [he] at hr; exact hr
    · next he => rw [he] at hr; exact hr
  · split <;> exact .refl s

/-- What the checks of a wave's command leave: lines moved, and a command of the wave's that has records at its targets. -/
structure CommandReady (s r : State) (w : Wave) (x : Command) : Prop where
  moved : LinesMoved s r
  issuer : x.uid = w.uid
  armed : unarmed r x.lid x.bid x.run x.descAddr x.targets = []

theorem copyTry_ready {op : Nat} {addr : Word} (h : copyTry s w op addr = .ready r x chan) : CommandReady s r w x := by
  have hm := readFor_move s w (waveActor s w) addr 64
  unfold copyTry at h
  dsimp only at h
  split at h
  · cases h
  split at h
  · cases h
  split at h
  · cases h
  split at h
  · cases h
  split at h
  · cases h
  · cases h
  next he =>
  rw [he] at hm
  split at h
  · cases h
  split at h
  · cases h
  split at h
  · cases h
  split at h
  · split at h
    · next hempty =>
      cases h
      exact ⟨hm.toLinesMoved, rfl, List.isEmpty_iff.mp hempty⟩
    · cases h
  · cases h
    exact ⟨hm.toLinesMoved, rfl, rfl⟩

theorem haloTry_ready {addr mask : Word} (h : haloTry s w addr mask = .ready r x chan) : CommandReady s r w x := by
  unfold haloTry at h
  split at h
  · next va _ =>
    have h1 := readVirt_move s (waveActor s w) va 64
    split at h
    · cases h
    split at h
    · cases h
    next s1 he =>
    rw [he] at h1
    dsimp only at h
    split at h
    · cases h
    split at h
    · cases h
    split at h
    · cases h
    next s2 he2 =>
    have h2 : CacheMove s1 s2 := by
      rw [show s2 = (readVirt s1 (waveActor s1 w) va _).2 from (congrArg Prod.snd he2).symm]
      exact readVirt_move ..
    split at h
    · cases h
    cases h
    exact ⟨(h1.trans h2).toLinesMoved, rfl, rfl⟩
  · cases h
end Ready

/-! ## Command instructions (R295, R296) -/

theorem map_value_destAll (d : OpCode) (m : Mask) (x v : Word) :
    ((destAll d m x).map fun y => { y with value := v }) = destAll d m v := by
  have hwrite : ∀ l, ((destWrite d l x).map fun y => { y with value := v }) = destWrite d l v := by
    intro l
    unfold destWrite
    split
    · rfl
    split
    · rfl
    split <;> rfl
  unfold destAll
  split
  · rw [List.map_flatMap]
    exact congrArg (fun f => (lanesOf m).flatMap f) (funext hwrite)
  · exact hwrite 0

/-- The path a command instruction goes by (R112). -/
def commandPath (code : Nat) : AccessPath := if code = opHalo then .fb else .cp

section Issuing
variable {s r : State} {e : Env} {i : Instr} {body : Env → State → Effect} {code : Nat} {d : OpCode} {addr mask : Word}
  {x : Command} {chan : Nat}

/-- The checks of a command instruction (R300, R313). -/
def commandChecks (s : State) (w : Wave) (code : Nat) (addr mask : Word) : CmdOut :=
  if code = opHalo then haloTry s w addr mask else copyTry s w code addr

theorem commandTry_commandOp (s : State) (w : Wave) : commandTry s w (commandOp e code d addr mask) =
    commandChecks s w code addr mask := by
  unfold commandTry commandChecks
  by_cases h : code = opHalo
  · rw [if_pos h, if_pos (by simp [commandOp, plainOp, h])]
    rfl
  · rw [if_neg h, if_neg (by simp [commandOp, plainOp, h])]
    rfl

/-- The state in which the command joins its channel: its completion outstanding, its path held (R296). -/
def heldState (r : State) (e : Env) (d : OpCode) (code : Nat) : State :=
  e.move (pend r e none (e.all d 0) (commandPath code) false 0).2 fun q =>
    { q with park := .hold (pend r e none (e.all d 0) (commandPath code) false 0).1 }

theorem commandIssue_eq (hls : fenced e.w .ls = false) (hpath : fenced e.w (commandPath code) = false)
    (hlog : overlapsLog s e.w (commandOp e code d addr mask) = false) : commandIssue e s (commandOp e code d addr mask) =
      match commandChecks s e.w code addr mask with
      | .trap c addr detail => .trap c none addr detail
      | .stop s1 x => memOutcome e (commandPath code) false (.stop s1 x (commandOp e code d addr mask))
      | .ready s1 x chan => .done (queueCommand (heldState s1 e d code) e.w.core chan { x with issuedAt := e.issuePoint }
          (pend s1 e none (e.all d 0) (commandPath code) false 0).1) := by
  have hkind : (if (commandOp e code d addr mask).kind == .haloCommand then AccessPath.fb else .cp) = commandPath code := by
    unfold commandPath
    by_cases h : code = opHalo
    · rw [if_pos h, if_pos (by simp [commandOp, plainOp, h])]
    · rw [if_neg h, if_neg (by simp [commandOp, plainOp, h])]
  unfold commandIssue
  dsimp only
  rw [hkind, hls, hpath, hlog, if_neg (by decide), commandTry_commandOp]
  rfl

/-- The whole path's lanes take part, where none is transactional (R257). -/
theorem commandRun_eq (hp : plainLanes e) (s : State) : commandRun e s (commandOp e code d addr mask) =
    commandIssue e s (commandOp e code d addr mask) := by
  unfold commandRun
  rw [unsupportedWave_plain hp]
  unfold Env.lanes
  rw [maskOf_lanesOf]
  rfl

/-- While the checks only move lines, the issuing wave is found with what it does next. -/
theorem heldState_wave (hi : Issues i s e) (hm : LinesMoved (past i s e) r) :
    ∃ w, (heldState r e d code).wave? e.w.uid = some w ∧ ∃ k ∈ w.pending,
      k.seqNo = (pend r e none (e.all d 0) (commandPath code) false 0).1 ∧ k.writes = e.all d 0 := by
  obtain ⟨w, hw, -, -⟩ := issuer_after hi (SameWaves.of_unreserved hm.waves)
  have hu := wave?_uid hw
  unfold heldState Env.move
  rw [pend_none hw, wave?_modWave _ _ _ _ fun _ => by simp, wave?_setWave, hw]
  dsimp only [Option.map_some]
  rw [Wave.pends_uid, if_pos rfl, if_pos ((Wave.pends_uid ..).trans hu)]
  refine ⟨_, rfl, pended w e (e.all d 0) (commandPath code) false 0, ?_, rfl, rfl⟩
  rw [Wave.modPath_pending]
  exact List.mem_append_right _ (List.mem_singleton.mpr rfl)

theorem heldState_core (k : Nat) : (heldState r e d code).core k = r.core k := pend_core ..

theorem heldState_clock : (heldState r e d code).clock = r.clock := pend_clock ..

theorem heldState_unarmed (lid bid : Nat) (run : Run) (key : Word) (ts : List Nat) :
    unarmed (heldState r e d code) lid bid run key ts = unarmed r lid bid run key ts := by
  unfold unarmed
  simp only [heldState_core]

/-- What a command instruction comes to once its checks are made. -/
theorem command_issues (hp : plainLanes e) (hls : fenced e.w .ls = false) (hi : Issues i s e)
    (hexec : exec i s = runInstr i s body) (hlit : i.takesLiteral = false)
    (hbody : ∀ q, body e q = commandRun e q (commandOp e code d addr mask)) (hpath : fenced e.w (commandPath code) = false)
    (hlog : overlapsLog (past i s e) e.w (commandOp e code d addr mask) = false) :
    (∀ r x chan, commandChecks (past i s e) e.w code addr mask = .ready r x chan →
      let p := pend r e none (e.all d 0) (commandPath code) false 0
      let c := r.core e.w.core
      exec i s = .next (queueCommand (e.move p.2 fun q => { q with park := .hold p.1 }) e.w.core chan
        { x with issuedAt := e.issuePoint } p.1) ∧
      (chan < c.channels.length → (c.chan chan).length < 16 → (∀ y ∈ c.chan chan, y.waitSeq = none) →
        ∃ t w k, exec i s = .next t ∧ t.wave? e.w.uid = some w ∧ (∀ q ∈ w.allPaths, q.park ≠ .hold p.1) ∧
          k ∈ w.pending ∧ k.seqNo = p.1 ∧ k.writes = e.all d (w64 (chan * 2 ^ 16 + c.copySeq)) ∧
          (s.clock + 2, Instr.instructionComplete e.w.uid p.1) ∈ t.agenda)) ∧
    (∀ c addr' detail, commandChecks (past i s e) e.w code addr mask = .trap c addr' detail →
      exec i s = .next (takeTrap (account s e i.scalarForm) e false c none addr' detail)) := by
  have hrun := (hbody (past i s e)).trans ((commandRun_eq hp _).trans (commandIssue_eq hls hpath hlog))
  refine ⟨?_, ?_⟩
  · intro r x chan hready p c
    rw [hready] at hrun
    have hnext := hexec.trans (runInstr_done hi.1 hi.2 hrun)
    refine ⟨hnext, fun hc hl hw => ?_⟩
    obtain ⟨hmoved, huid, harmed⟩ : CommandReady (past i s e) r e.w x := by
      unfold commandChecks at hready
      split at hready
      · exact haloTry_ready hready
      · exact copyTry_ready hready
    obtain ⟨w, hwave, k, hk, hseq, hwrites⟩ := heldState_wave (d := d) (code := code) hi hmoved
    have hcore := heldState_core (r := r) (e := e) (d := d) (code := code) e.w.core
    rw [show r.core e.w.core = c from rfl] at hcore
    rw [← hcore] at hc hl hw
    have hu := (heldState_unarmed (r := r) (e := e) (d := d) (code := code) ..).trans harmed
    have hclock : (heldState r e d code).clock = s.clock := heldState_clock.trans (hmoved.clock.trans (past_clock i s e))
    have hafter := queueCommand_wave (seq := p.1) (x := { x with issuedAt := e.issuePoint }) hc hl hw hu (huid ▸ hwave)
    have hcompletes := queueCommand_completes (seq := p.1) (x := { x with issuedAt := e.issuePoint }) hc hl hw hu
    rw [hclock] at hcompletes
    refine ⟨_, _, tagged p.1 (nextTag (heldState r e d code) e.w.core chan) k, hnext, (by rw [← huid]; exact hafter),
      taggedWave_goes _ _ w, List.mem_map_of_mem hk, ?_, ?_, huid ▸ hcompletes⟩
    · rw [tagged, if_pos hseq]
      exact hseq
    · rw [tagged, if_pos hseq]
      change k.writes.map _ = _
      rw [hwrites, nextTag, hcore]
      exact map_value_destAll ..
  · intro c addr' detail htrap
    rw [htrap] at hrun
    exact hlit ▸ hexec.trans (runInstr_trap hi.1 hi.2 hrun)

end Issuing

/-- Settles O40: an instruction's checks only move lines, so its command joins the channel of the machine they leave; what the
acceptance does is read off its state field by field, and a multicast without a record is refused. -/
theorem commandsJoinTheirChannel : Obligations.CommandsJoinTheirChannel := by
  unfold Obligations.CommandsJoinTheirChannel
  refine ⟨?_, ?_⟩
  · intro s e d a b hp hls command
    exact ⟨fun hi => command_issues hp hls hi (show execCpy d a s = _ from rfl) rfl fun _ => rfl,
      fun hi => command_issues hp hls hi (show execCpyd d a s = _ from rfl) rfl fun _ => rfl,
      fun hi => command_issues hp hls hi (show execCpym d a s = _ from rfl) rfl fun _ => rfl,
      fun hi => command_issues hp hls hi (show execCpymc d a s = _ from rfl) rfl fun _ => rfl,
      fun hi => command_issues hp hls hi (show execCpyn d a s = _ from rfl) rfl fun _ => rfl,
      fun hi => command_issues hp hls hi (show execHalo d a b s = _ from rfl) rfl fun _ => rfl,
      fun hi => command_issues hp hls hi (show execWsld d a s = _ from rfl) rfl fun _ => rfl,
      fun hi => command_issues hp hls hi (show execCpyx d a s = _ from rfl) rfl fun _ => rfl⟩
  · intro s core chan seq x c cs hc hl hw asid tag mine live x1 t
    refine ⟨fun harmed => ?_, fun hmissing w hwave => ?_⟩
    · have hu := unarmed_none harmed
      refine ⟨(queueCommand_channel hc hl hw hu).trans (by rw [takenCommand_eq]; rfl), queueCommand_copySeq hc hl hw hu,
        queueCommand_completes hc hl hw hu, (queueCommand_memory hc hl hw hu).1, (queueCommand_memory hc hl hw hu).2,
        fun w hwave => ⟨_, queueCommand_wave hc hl hw hu hwave, taggedWave_goes _ _ w, taggedWave_value _ _ w⟩,
        queueCommand_arms hc hl hw hu, fun hop hheld b hb => ⟨_, queueCommand_held hc hl hw hu hop hheld hb, rfl⟩⟩
    · have hu := unarmed_eq s x
      exact (queueCommand_refuses hc hl hw (hu ▸ hmissing) hwave).trans (by rw [hu]; rfl)

end Sys2Proof.Machine
end
